-- ==== Sys2Proof/Word.lean ====
section
/-! DEFINITION. The word types of the CQ-940 and their plainest names: bytes, words, lane masks.
R4: bit 0 is the least significant bit of any field or word. -/
namespace Sys2Proof

/-- A byte of memory. -/
abbrev Byte := BitVec 8

/-- A 32-bit register value, instruction word or instruction address (R46, R88). -/
abbrev Word := BitVec 32

/-- A 64-bit value: a register pair, a literal, an address (R47, R89). -/
abbrev DWord := BitVec 64

/-- A mask over the 32 logical lanes of a strand: bit l is logical lane l (R130). -/
abbrev Mask := BitVec 32

/-- An 80-bit accumulator entry (R80). -/
abbrev A80 := BitVec 80

/-- A sparse table: key and value pairs with rising keys and no value that equals the table's default.
Memories, register files and counters of the model are held in this one form. -/
abbrev SMap (α : Type) := List (Nat × α)

end Sys2Proof
end

