-- ==== Sys2Proof/Machine/Store.lean ====
section
/-! DEFINITION. Reading and writing the sparse tables (`SMap`) that hold memory, register files and counters, and
small helpers over lists. A table's default value is never listed, and its keys rise: equal contents are equal data. -/
namespace Sys2Proof

/-- The value at key `n`; `d` where nothing is listed. -/
def SMap.look {α : Type} (d : α) : SMap α → Nat → α
  | [], _ => d
  | (k, v) :: t, n => if n = k then v else SMap.look d t n

/-- The table without key `n`. -/
def SMap.drop {α : Type} : SMap α → Nat → SMap α
  | [], _ => []
  | (k, v) :: t, n => if n = k then SMap.drop t n else (k, v) :: SMap.drop t n

/-- The table with `v` listed at `n`. -/
def SMap.list {α : Type} : SMap α → Nat → α → SMap α
  | [], n, v => [(n, v)]
  | (k, w) :: t, n, v =>
    if n = k then (n, v) :: t else if n < k then (n, v) :: (k, w) :: t else (k, w) :: SMap.list t n v

/-- The table with the value `v` at key `n`: a default value is not listed. -/
def SMap.put {α : Type} [DecidableEq α] (d : α) (m : SMap α) (n : Nat) (v : α) : SMap α :=
  if v = d then SMap.drop m n else SMap.list m n v

/-- Every key of the table lies above `b`, keys rise, and no value is the default. -/
def SMap.wfFrom {α : Type} [DecidableEq α] (d : α) : Option Nat → SMap α → Bool
  | _, [] => true
  | b, (k, v) :: t => (match b with | none => true | some b => decide (b < k)) && decide (v ≠ d) && SMap.wfFrom d (some k) t

/-- The canonical form of a table with default `d`. -/
def SMap.wf {α : Type} [DecidableEq α] (d : α) (m : SMap α) : Bool := SMap.wfFrom d none m

/-- Write `f i` at key `i` for each listed key. -/
def SMap.putAll {α : Type} [DecidableEq α] (d : α) (m : SMap α) : List (Nat × α) → SMap α
  | [] => m
  | (k, v) :: t => SMap.putAll d (SMap.put d m k v) t

namespace Machine

/-- The list with `f` applied to the element at `n`. -/
def modNth {α : Type} (l : List α) (n : Nat) (f : α → α) : List α :=
  match l, n with
  | [], _ => []
  | x :: t, 0 => f x :: t
  | x :: t, n + 1 => x :: modNth t n f

/-- The list with the element at `n` replaced. -/
def putNth {α : Type} (l : List α) (n : Nat) (v : α) : List α := modNth l n fun _ => v

/-- `f` applied to every element that `p` holds of. -/
def modWhere {α : Type} (p : α → Bool) (f : α → α) (l : List α) : List α := l.map fun x => if p x then f x else x

/-- The logical lanes 0 to 31. -/
def lanes : List Nat := List.range 32

/-- Lane `l` of a mask. -/
def hasLane (m : Mask) (l : Nat) : Bool := m.getLsbD l

/-- The mask of the lanes of which `p` holds. -/
def maskOf (p : Nat → Bool) : Mask :=
  lanes.foldl (fun m l => if p l then m ||| (1#32 <<< l) else m) 0#32

/-- The lanes of a mask, ascending. -/
def lanesOf (m : Mask) : List Nat := lanes.filter (hasLane m)

/-- `Lowest(S)` of R7: the lowest lane of a mask, if any. -/
def lowest? (m : Mask) : Option Nat := (lanesOf m).head?

/-- The lowest lane, 0 for the empty mask. -/
def lowest (m : Mask) : Nat := (lowest? m).getD 0

/-- How many lanes a mask holds. -/
def countLanes (m : Mask) : Nat := (lanesOf m).length

/-- The n-th value of a list of words, 0 beyond its end. -/
def nthWord {n : Nat} (l : List (BitVec n)) (i : Nat) : BitVec n := l.getD i 0#n

/-- A number from its bytes, lowest first (R4). -/
def fromBytes : List Byte → Nat
  | [] => 0
  | b :: t => b.toNat + 256 * fromBytes t

/-- The `n` bytes of a number, lowest first (R4). -/
def toBytes : Nat → Nat → List Byte
  | 0, _ => []
  | n + 1, v => BitVec.ofNat 8 v :: toBytes n (v / 256)

/-- The integers `a, a+1, …` of length `n`. -/
def span (a n : Nat) : List Nat := (List.range n).map (a + ·)

/-- `a` rounded up to a multiple of `b`. -/
def roundUp (a b : Nat) : Nat := (a + (b - 1)) / b * b

/-- `⌈a / b⌉`. -/
def ceilDiv (a b : Nat) : Nat := (a + (b - 1)) / b

/-- `SignExtend(x, n)` of R7. -/
def sext (n : Nat) (x : Nat) : Int :=
  let x := x % 2 ^ n
  if x < 2 ^ (n - 1) then (x : Int) else (x : Int) - (2 ^ n : Nat)

/-- Bits [hi:lo] of x (R7). -/
def bits (x hi lo : Nat) : Nat := x / 2 ^ lo % 2 ^ (hi + 1 - lo)

/-- The value kept by an n-bit destination (R6). -/
def wrap (n : Nat) (x : Int) : Nat := (x % ((2 ^ n : Nat) : Int)).toNat

end Machine
end Sys2Proof
end

