-- ==== Sys2Proof/Syntax.lean ====
section
/-! DEFINITION. The instructions and happenings of the CQ-940, one constructor of `Instr` per row of the
opcode table, with register numbers and codes already turned into data (05_encoding.md). The rows without an
encoding are the happenings of the device that spec/95 lists; they carry the party concerned. -/
namespace Sys2Proof

/-- The TYPE codes of R102, in the order of their codes. -/
inductive Ty where
  | b32 | s32 | n32 | s64 | n64 | f32 | f16 | bf16 | dt8 | dt6 | s8 | s4 | s16 | n16 | n8 | a80
  deriving DecidableEq, Repr

/-- The SCOPE codes of R104; codes 5 to 7 are reserved and have no constructor. -/
inductive Scope where
  | none | crew | cohort | grid | sys
  deriving DecidableEq, Repr

/-- The guard of an instruction: the predicate pG and the negate bit GN (R94). -/
structure Guard where
  reg : BitVec 3
  neg : Bool
  deriving DecidableEq, Repr

/-- An operand spec of R99. Reserved specs have no constructor; `imm 0x80` is not well formed, since that code
names the literal. -/
inductive Opd where
  /-- class 00 -/
  | v (n : BitVec 8)
  /-- class 01, 0x00 to 0x1F -/
  | s (n : BitVec 5)
  /-- class 01, 0x20 to 0x27 -/
  | p (n : BitVec 3)
  /-- class 01, 0x28 to 0x2F -/
  | w (n : BitVec 3)
  /-- class 01, 0x30 to 0x37 -/
  | t (n : BitVec 3)
  /-- class 10: hand-off slot and distance − 1 -/
  | h (slot dist : BitVec 3)
  /-- class 11: an 8-bit signed immediate -/
  | imm (b : BitVec 8)
  /-- class 11 value 0x80: the literal -/
  | lit
  deriving DecidableEq, Repr

/-- The fields of a base word (R93). -/
structure Base where
  g : Guard
  d : BitVec 8
  a : BitVec 8
  m : BitVec 2
  deriving DecidableEq, Repr

/-- The fields of an extended form (R98); `lit` is present exactly when L = 3. -/
structure Ext where
  g : Guard
  d : Opd
  a : Opd
  b : Opd
  c : Opd
  ty : Ty
  rnd : BitVec 3
  scope : Scope
  mod : BitVec 4
  /-- VIEW: none for 0, some n for 0b1nnn; the codes 1 to 7 are reserved -/
  view : Option (BitVec 3)
  aux : BitVec 8
  imm : BitVec 16
  lit : Option DWord
  deriving DecidableEq, Repr

/-- The literal or extended form of an instruction that also has a base form with literal (L = 1, 2 or 3). -/
inductive Long where
  /-- L = 2: the base word and the 64-bit literal -/
  | lit (b : Base) (x : DWord)
  /-- L = 1 or 3 -/
  | ext (e : Ext)
  deriving DecidableEq, Repr

/-- An instruction kept as the words stand: its length field and up to 160 bits, the bits above its length zero. -/
structure Raw where
  l : BitVec 2
  bits : BitVec 160
  deriving DecidableEq, Repr

/-- A crew, by its grid (a launch of the model's numbering) and its crew index (R19). -/
structure CrewRef where
  grid : Nat
  idx : Nat
  deriving DecidableEq, Repr

/-- A strand of a crew (R19). -/
structure StrandRef where
  crew : CrewRef
  strand : Nat
  deriving DecidableEq, Repr

/-- A split of a strand, by a logical lane that it holds (R21: the live paths partition the strand's items). -/
structure SplitRef where
  strand : StrandRef
  lane : Nat
  deriving DecidableEq, Repr

/-- A lane cluster of a core; cores are numbered 36 × die + core (R14, R15). -/
structure ClusterRef where
  core : Nat
  cluster : Nat
  deriving DecidableEq, Repr

/-- What the tests of a start find, and what firmware fixes at it (R11, R120, R295, R300, R310). -/
structure StartReport where
  /-- the mesh-stop region passed its self-test -/
  meshOk : Bool
  /-- firmware runs the host port as CXL 3.1 -/
  cxl : Bool
  /-- the activation threshold that firmware sets -/
  rowLimit : Nat
  /-- compute dies that retire at this start -/
  dies : List Nat
  /-- LIVE of the clusters that have lost lanes, as (4 × core + cluster, mask), for the clusters whose tables are rebuilt -/
  lanes : List (Nat × BitVec 34)
  /-- banks that fail a cold start's march tests, as (core, bank) -/
  banks : List (Nat × Nat)
  deriving DecidableEq, Repr

/-- What a self-check period finds failing in a core (R125, R127, R128): lanes of the cluster, banks of the
unified store (0 to 47 on the compute die, 48 to 95 on the cap die, 96 to 99 the spares), and columns as (unit, column). -/
structure CheckReport where
  lanes : BitVec 34
  banks : List Nat
  columns : List (Nat × Nat)
  deriving DecidableEq, Repr

/-- Where an uncorrectable error is found (R299): its line; the context whose page or page table holds the only copy of a write
there, if one does; and whether firmware structures are lost, the image among them or not. -/
structure ErrorSite where
  line : Nat
  dirtyOf : Option Nat
  firmware : Option Bool
  deriving DecidableEq, Repr

/-- A bank operation that a peer sends to this device (R307, R318, R331). -/
inductive PeerOp where
  /-- ATOM and RED with the operation MOD[2:0] of R318 and a TYPE -/
  | atom (op : BitVec 3) (ty : Ty)
  /-- CAS at 32 or 64 bits -/
  | cas (ty : Ty)
  deriving DecidableEq, Repr

/-- The instructions and happenings: one constructor per row of the opcode table. -/
inductive Instr where
  /-- Power-on or a PCIe fundamental reset runs memory training, march tests, steering rebuild, signature check, firmware load and table building (R310). -/
  | coldStart (r : StartReport)
  /-- A reset with power held, or the loss of firmware structures, reuses the stored steering records and retire lists and reloads firmware and tables (R310). -/
  | warmStart (r : StartReport)
  /-- A packet with an unassigned KIND, a packet that breaks its limits, or a ring overrun stops the queue with STATUS 5 (R255). -/
  | badpacket (q : Nat)
  /-- Does nothing (R378). -/
  | nop (g : Guard)
  /-- Branch by an 18-bit word offset (R329). -/
  | bra (g : Guard) (off : BitVec 18)
  /-- Branch by a 64-bit literal displacement (R329). -/
  | braLit (g : Guard) (x : DWord)
  /-- Branch to a register-held address per lane (R329). -/
  | brx (e : Ext)
  /-- Push the return address and branch by a word offset (R329). -/
  | call (g : Guard) (off : BitVec 18)
  /-- Push the return address and branch by a literal displacement (R329). -/
  | callLit (g : Guard) (x : DWord)
  /-- Push the return address and branch to a register-held address (R329). -/
  | callx (e : Ext)
  /-- Pop the call stack and branch to the return address (R393). -/
  | ret (g : Guard)
  /-- Seal the active items' slots and end them (R339). -/
  | exit (g : Guard)
  /-- Decrement an s counter and branch back while it is nonzero (R371). -/
  | loop (e : Ext)
  /-- Predicate and (R381). -/
  | pand (e : Ext)
  /-- Predicate or (R381). -/
  | por (e : Ext)
  /-- Predicate exclusive or (R381). -/
  | pxor (e : Ext)
  /-- Predicate not (R381). -/
  | pnot (e : Ext)
  /-- Predicate move (R381). -/
  | pmov (e : Ext)
  /-- True in every active lane when the condition holds in all of them (R411). -/
  | voteAll (e : Ext)
  /-- True in every active lane when the condition holds in any of them (R411). -/
  | voteAny (e : Ext)
  /-- Mask of the active lanes where the condition holds (R411). -/
  | voteBallot (e : Ext)
  /-- Read a value from a lane chosen by index within its group (R399). -/
  | shflIdx (e : Ext)
  /-- Read a value from a lower lane of the group (R399). -/
  | shflUp (e : Ext)
  /-- Read a value from a higher lane of the group (R399). -/
  | shflDown (e : Ext)
  /-- Read a value from lane l xor b (R399). -/
  | shflXor (e : Ext)
  /-- Mask of the active lanes holding a value equal to this lane's (R372). -/
  | matchAny (e : Ext)
  /-- Active mask if every active value is equal, otherwise 0 (R372). -/
  | matchAll (e : Ext)
  /-- Reduce the active lanes by the fixed tree (R392). -/
  | reds (e : Ext)
  /-- Inclusive prefix over the active lanes by the fixed tree (R392). -/
  | scan (e : Ext)
  /-- Integer add, base form (R355). -/
  | iadd (b : Base)
  /-- Integer add, literal or extended form (R355). -/
  | iaddExt (f : Long)
  /-- Integer subtract, base form (R355). -/
  | isub (b : Base)
  /-- Integer subtract, literal or extended form (R355). -/
  | isubExt (f : Long)
  /-- Integer multiply, low half, base form (R355). -/
  | imul (b : Base)
  /-- Integer multiply, literal or extended form (R355). -/
  | imulExt (f : Long)
  /-- High half of an integer product, base form (R355). -/
  | imulh (b : Base)
  /-- High half of an integer product, literal or extended form (R355). -/
  | imulhExt (f : Long)
  /-- Integer multiply-add (R360). -/
  | imad (e : Ext)
  /-- Integer quotient, base form (R359). -/
  | idiv (b : Base)
  /-- Integer quotient, literal or extended form (R359). -/
  | idivExt (f : Long)
  /-- Integer remainder, base form (R359). -/
  | irem (b : Base)
  /-- Integer remainder, literal or extended form (R359). -/
  | iremExt (f : Long)
  /-- Integer negate, base form (R353). -/
  | ineg (b : Base)
  /-- Integer negate, extended form (R353). -/
  | inegExt (e : Ext)
  /-- Integer absolute value, base form (R353). -/
  | iabs (b : Base)
  /-- Integer absolute value, extended form (R353). -/
  | iabsExt (e : Ext)
  /-- Integer minimum, base form (R355). -/
  | imin (b : Base)
  /-- Integer minimum, literal or extended form (R355). -/
  | iminExt (f : Long)
  /-- Integer maximum, base form (R355). -/
  | imax (b : Base)
  /-- Integer maximum, literal or extended form (R355). -/
  | imaxExt (f : Long)
  /-- Integer compare into a predicate or register (R361). -/
  | iset (e : Ext)
  /-- Add or subtract with carry in and out through a predicate (R356). -/
  | iaddc (e : Ext)
  /-- Choose one of two operands by a condition (R397). -/
  | sel (e : Ext)
  /-- Copy a v register, base form (R375). -/
  | mov (b : Base)
  /-- Copy an operand, extended form (R375). -/
  | movExt (e : Ext)
  /-- Load a sign-extended 8-bit immediate (R376). -/
  | movi (b : Base)
  /-- Load the literal (R376). -/
  | moviLit (g : Guard) (d : BitVec 8) (m : BitVec 2) (x : DWord)
  /-- Bitwise and, base form (R316). -/
  | andW (b : Base)
  /-- Bitwise and, literal or extended form (R316). -/
  | andExt (f : Long)
  /-- And with complement, base form (R316). -/
  | andn (b : Base)
  /-- And with complement, literal or extended form (R316). -/
  | andnExt (f : Long)
  /-- Bitwise or, base form (R379). -/
  | orW (b : Base)
  /-- Bitwise or, literal or extended form (R379). -/
  | orExt (f : Long)
  /-- Bitwise exclusive or, base form (R415). -/
  | xorW (b : Base)
  /-- Bitwise exclusive or, literal or extended form (R415). -/
  | xorExt (f : Long)
  /-- Bitwise complement, base form (R379). -/
  | notW (b : Base)
  /-- Bitwise complement, extended form (R379). -/
  | notExt (e : Ext)
  /-- Shift left, base form (R395). -/
  | shl (b : Base)
  /-- Shift left, literal or extended form (R395). -/
  | shlExt (f : Long)
  /-- Logical shift right, base form (R395). -/
  | shr (b : Base)
  /-- Logical shift right, literal or extended form (R395). -/
  | shrExt (f : Long)
  /-- Arithmetic shift right, base form (R395). -/
  | sar (b : Base)
  /-- Arithmetic shift right, literal or extended form (R395). -/
  | sarExt (f : Long)
  /-- Rotate left, base form (R395). -/
  | rol (b : Base)
  /-- Rotate left, literal or extended form (R395). -/
  | rolExt (f : Long)
  /-- Count leading zeros, base form (R330). -/
  | clz (b : Base)
  /-- Count leading zeros, extended form (R330). -/
  | clzExt (e : Ext)
  /-- Count trailing zeros, base form (R330). -/
  | ctz (b : Base)
  /-- Count trailing zeros, extended form (R330). -/
  | ctzExt (e : Ext)
  /-- Count set bits, base form (R385). -/
  | popc (b : Base)
  /-- Count set bits, extended form (R385). -/
  | popcExt (e : Ext)
  /-- Bit reversal, base form (R330). -/
  | brev (b : Base)
  /-- Bit reversal, extended form (R330). -/
  | brevExt (e : Ext)
  /-- Extract a bit field (R325). -/
  | bfx (e : Ext)
  /-- Insert a bit field (R325). -/
  | bfi (e : Ext)
  /-- Select bytes of two registers under byte controls (R388). -/
  | prmt (e : Ext)
  /-- Float add, base form (R342). -/
  | fadd (b : Base)
  /-- Float add, literal or extended form (R342). -/
  | faddExt (f : Long)
  /-- Float subtract, base form (R342). -/
  | fsub (b : Base)
  /-- Float subtract, literal or extended form (R342). -/
  | fsubExt (f : Long)
  /-- Float multiply, base form (R342). -/
  | fmul (b : Base)
  /-- Float multiply, literal or extended form (R342). -/
  | fmulExt (f : Long)
  /-- Fused multiply-add with one rounding (R348). -/
  | ffma (e : Ext)
  /-- Float divide, base form (R342). -/
  | fdiv (b : Base)
  /-- Float divide, literal or extended form (R342). -/
  | fdivExt (f : Long)
  /-- Correctly rounded square root, base form (R344). -/
  | fsqrt (b : Base)
  /-- Correctly rounded square root, extended form (R344). -/
  | fsqrtExt (e : Ext)
  /-- Correctly rounded reciprocal, base form (R344). -/
  | frcp (b : Base)
  /-- Correctly rounded reciprocal, extended form (R344). -/
  | frcpExt (e : Ext)
  /-- Correctly rounded reciprocal square root, base form (R344). -/
  | frsq (b : Base)
  /-- Correctly rounded reciprocal square root, extended form (R344). -/
  | frsqExt (e : Ext)
  /-- Correctly rounded 2^x, base form (R344). -/
  | fexp2 (b : Base)
  /-- Correctly rounded 2^x, extended form (R344). -/
  | fexp2Ext (e : Ext)
  /-- Correctly rounded log2 x, base form (R344). -/
  | flog2 (b : Base)
  /-- Correctly rounded log2 x, extended form (R344). -/
  | flog2Ext (e : Ext)
  /-- Correctly rounded sine, base form (R344). -/
  | fsin (b : Base)
  /-- Correctly rounded sine, extended form (R344). -/
  | fsinExt (e : Ext)
  /-- Correctly rounded cosine, base form (R344). -/
  | fcos (b : Base)
  /-- Correctly rounded cosine, extended form (R344). -/
  | fcosExt (e : Ext)
  /-- Float minimum, base form (R342). -/
  | fmin (b : Base)
  /-- Float minimum, literal or extended form (R342). -/
  | fminExt (f : Long)
  /-- Float maximum, base form (R342). -/
  | fmax (b : Base)
  /-- Float maximum, literal or extended form (R342). -/
  | fmaxExt (f : Long)
  /-- Float compare into a predicate or register (R350). -/
  | fset (e : Ext)
  /-- Class of a float as a masked bit (R343). -/
  | fclass (e : Ext)
  /-- Clear the sign bit, base form (R340). -/
  | fabs (b : Base)
  /-- Clear the sign bit, extended form (R340). -/
  | fabsExt (e : Ext)
  /-- Flip the sign bit, base form (R340). -/
  | fneg (b : Base)
  /-- Flip the sign bit, extended form (R340). -/
  | fnegExt (e : Ext)
  /-- Round to an integral value (R349). -/
  | frnd (e : Ext)
  /-- Multiply by 2^n with one rounding (R349). -/
  | fscale (e : Ext)
  /-- Dot product of packed 16-bit pairs plus an FP32 addend (R347). -/
  | fdot2 (e : Ext)
  /-- Convert between IEEE float formats (R346). -/
  | fcvt (e : Ext)
  /-- Convert between integer, IEEE and decimal-tapered formats (R336). -/
  | cvt (e : Ext)
  /-- Publish a value on a hand-off slot (R143). -/
  | hput (e : Ext)
  /-- Seal a hand-off slot (R144). -/
  | hseal (e : Ext)
  /-- Read a slot's generation count (R144). -/
  | hgen (e : Ext)
  /-- Read a slot's state word without waiting (R144). -/
  | hstat (e : Ext)
  /-- Load from global space, base form (R366). -/
  | ldG (b : Base)
  /-- Load from global space, literal or extended form (R366). -/
  | ldGExt (f : Long)
  /-- Load from local store, base form (R366). -/
  | ldL (b : Base)
  /-- Load from local store, literal or extended form (R366). -/
  | ldLExt (f : Long)
  /-- Load from private space, base form (R366). -/
  | ldP (b : Base)
  /-- Load from private space, literal or extended form (R366). -/
  | ldPExt (f : Long)
  /-- Load through the constant path, base form (R366). -/
  | ldK (b : Base)
  /-- Load through the constant path, literal or extended form (R366). -/
  | ldKExt (f : Long)
  /-- Acquire load at a scope (R366). -/
  | ldAcq (e : Ext)
  /-- Store to global space, base form (R403). -/
  | stG (b : Base)
  /-- Store to global space, literal or extended form (R403). -/
  | stGExt (f : Long)
  /-- Store to local store, base form (R403). -/
  | stL (b : Base)
  /-- Store to local store, literal or extended form (R403). -/
  | stLExt (f : Long)
  /-- Store to private space, base form (R403). -/
  | stP (b : Base)
  /-- Store to private space, literal or extended form (R403). -/
  | stPExt (f : Long)
  /-- Release store at a scope (R403). -/
  | stRel (e : Ext)
  /-- Indivisible read-modify-write at the L2 bank (R319). -/
  | atom (e : Ext)
  /-- Indivisible read-modify-write returning the old value (R319). -/
  | atomRet (e : Ext)
  /-- Compare and swap at the L2 bank (R331). -/
  | cas (e : Ext)
  /-- Indivisible reduction into memory with no value returned (R390). -/
  | red (e : Ext)
  /-- Prefetch a line into L1 and L2 or L2 only (R386). -/
  | prf (e : Ext)
  /-- Form a 64-bit address (R370). -/
  | lea (e : Ext)
  /-- Path fence, or scoped fence with release, acquire and total order (R382). -/
  | pfence (e : Ext)
  /-- Define a view from a descriptor in local store (R208). -/
  | vdef (e : Ext)
  /-- Change one field of a view (R208). -/
  | vset (e : Ext)
  /-- Discard a view without release (R210). -/
  | vdrop (e : Ext)
  /-- Release what meets a view, store the flag and drop the view (R211). -/
  | vret (e : Ext)
  /-- Wait on a flag, then acquire over a view's footprint (R211). -/
  | vacq (e : Ext)
  /-- Write MayMeet of two views into a predicate (R208). -/
  | vmeet (e : Ext)
  /-- Read a view field (R208). -/
  | vqry (e : Ext)
  /-- Compute the address of a view element (R208). -/
  | vaddr (e : Ext)
  /-- Load through a view (R209). -/
  | ldv (e : Ext)
  /-- Store through a view (R209). -/
  | stv (e : Ext)
  /-- Issue a tagged copy between views, with an optional follow-on product (R215). -/
  | cpy (e : Ext)
  /-- Park a source in a multicast holding slot (R222). -/
  | cpym (e : Ext)
  /-- Drain a holding slot into a view (R223). -/
  | cdrain (e : Ext)
  /-- Wait for all tags of a mask, then acquire (R218). -/
  | cwaitAll (e : Ext)
  /-- Wait for any tag of a mask, then acquire (R218). -/
  | cwaitAny (e : Ext)
  /-- Status of the lowest DONE tag in a mask (R218). -/
  | cfind (e : Ext)
  /-- Test whether all tags of a mask are DONE (R218). -/
  | ctestAll (e : Ext)
  /-- Test whether any tag of a mask is DONE (R218). -/
  | ctestAny (e : Ext)
  /-- Free DONE tags and cancel BUSY ones (R218). -/
  | ckill (e : Ext)
  /-- Queue a tile product into an accumulator tile (R235). -/
  | mma (e : Ext)
  /-- Queue clearing of a tile (R238). -/
  | mzero (e : Ext)
  /-- Queue a load of a tile from a view (R239). -/
  | mlda (e : Ext)
  /-- Queue a store of a tile to a view with conversion (R240). -/
  | msta (e : Ext)
  /-- Queue a tile transpose (R238). -/
  | mtrn (e : Ext)
  /-- Queue a row permutation of a tile (R238). -/
  | mperm (e : Ext)
  /-- Queue a row reduction of a tile (R238). -/
  | mred (e : Ext)
  /-- Issue a near-memory matrix-vector product under a tag (R244). -/
  | nmv (e : Ext)
  /-- Arrive at a barrier and wait for its generation to complete (R323). -/
  | bar (e : Ext)
  /-- Arrive at a barrier without waiting (R323). -/
  | barc (e : Ext)
  /-- Wait until a memory word meets a condition, then acquire (R270). -/
  | waitm (e : Ext)
  /-- Return and advance the crew's phase, writing back PKG lines (R194). -/
  | phase (e : Ext)
  /-- Wait for a die's completed phase, then acquire (R195). -/
  | phwait (e : Ext)
  /-- Push a launch record, stalling while the pending queue is full (R269). -/
  | launch (e : Ext)
  /-- Push a launch record if there is room, reporting success in a predicate (R269). -/
  | launchTry (e : Ext)
  /-- Read the pending-launch and die-queue occupancy (R268). -/
  | lstat (e : Ext)
  /-- Give up issue to another ready split (R266). -/
  | yield (g : Guard)
  /-- Make the split not ready for a number of resident cycles (R266). -/
  | sleep (e : Ext)
  /-- Set the crew's issue priority (R266). -/
  | prio (e : Ext)
  /-- Hop count between two virtual dies (R249). -/
  | hops (e : Ext)
  /-- Read a special register (R334). -/
  | csrr (e : Ext)
  /-- Write a special register (R334). -/
  | csrw (e : Ext)
  /-- Raise SWTRAP (R281). -/
  | trap (e : Ext)
  /-- Gather the handler items, thaw the strand and re-inject the replay entries (R280). -/
  | trapret (e : Ext)
  /-- Raise BKPT (R326). -/
  | bkpt (g : Guard)
  /-- Read a replay-entry field (R279). -/
  | rplq (e : Ext)
  /-- Edit a replay-entry field (R279). -/
  | rplw (e : Ext)
  /-- Reset the watchdog count and set its limit (R290). -/
  | wdog (e : Ext)
  /-- Invalidate the context's translations on the issuing core and die (R406). -/
  | tlbi (e : Ext)
  /-- Make code stores visible to instruction fetch (R357). -/
  | icinv (e : Ext)
  /-- Packed 16-bit add (R362). -/
  | iaddX2 (e : Ext)
  /-- Packed 16-bit subtract (R362). -/
  | isubX2 (e : Ext)
  /-- Packed 16-bit multiply (R362). -/
  | imulX2 (e : Ext)
  /-- Packed 16-bit multiply-add (R362). -/
  | imadX2 (e : Ext)
  /-- Packed 16-bit minimum (R362). -/
  | iminX2 (e : Ext)
  /-- Packed 16-bit maximum (R362). -/
  | imaxX2 (e : Ext)
  /-- Packed 16-bit absolute value (R362). -/
  | iabsX2 (e : Ext)
  /-- Packed 16-bit negate (R362). -/
  | inegX2 (e : Ext)
  /-- Packed 16-bit shift left (R395). -/
  | shlX2 (e : Ext)
  /-- Packed 16-bit logical shift right (R395). -/
  | shrX2 (e : Ext)
  /-- Packed 16-bit arithmetic shift right (R395). -/
  | sarX2 (e : Ext)
  /-- Packed 8-bit add (R362). -/
  | iaddX4 (e : Ext)
  /-- Packed 8-bit subtract (R362). -/
  | isubX4 (e : Ext)
  /-- Packed 8-bit minimum (R362). -/
  | iminX4 (e : Ext)
  /-- Packed 8-bit maximum (R362). -/
  | imaxX4 (e : Ext)
  /-- Packed 8-bit absolute value (R362). -/
  | iabsX4 (e : Ext)
  /-- Packed 16-bit float add (R362). -/
  | faddX2 (e : Ext)
  /-- Packed 16-bit float subtract (R362). -/
  | fsubX2 (e : Ext)
  /-- Packed 16-bit float multiply (R362). -/
  | fmulX2 (e : Ext)
  /-- Packed 16-bit fused multiply-add (R362). -/
  | ffmaX2 (e : Ext)
  /-- Packed 16-bit float minimum (R362). -/
  | fminX2 (e : Ext)
  /-- Packed 16-bit float maximum (R362). -/
  | fmaxX2 (e : Ext)
  /-- Packed 16-bit clear of the sign bits (R362). -/
  | fabsX2 (e : Ext)
  /-- Packed 16-bit flip of the sign bits (R362). -/
  | fnegX2 (e : Ext)
  /-- Packed 16-bit round to integral (R362). -/
  | frndX2 (e : Ext)
  /-- Per-lane indexed register read (R62). -/
  | vxr (e : Ext)
  /-- Per-lane indexed register write (R62). -/
  | vxw (e : Ext)
  /-- Always traps ILLEGAL_OPCODE, base form (R408). -/
  | udf (g : Guard) (x : BitVec 18)
  /-- Always traps ILLEGAL_OPCODE, in the longer lengths (R408). -/
  | udfExt (r : Raw)
  /-- An instruction word whose OP is a reserved cell, or whose L is not among its cell's allowed lengths, or whose fixed-zero bits are nonzero, issues and traps ILLEGAL_OPCODE or ILLEGAL_OPERAND (R107). -/
  | reservedCell (r : Raw)
  /-- In recovery, the mailbox command 0x80 verifies a staged image and starts a cold start, or returns REJECTED (R309). -/
  | imageLoad
  /-- A doorbell write makes the front end read the queue's WPTR at .sys and take the valid packets (R302).
  `value` is what is written to the doorbell's register: nothing depends on it, since the front end reads WPTR from the descriptor. -/
  | doorbell (q : Nat) (value : Word)
  /-- A host write to a BAR0 register without its own behaviour, such as a mailbox command word, stores the value (R301). -/
  | registerWrite (off : Nat) (value : Word)
  /-- The mailbox command loads a partition entry, or returns REJECTED or INUSE (R308). -/
  | partSet
  /-- The mailbox command loads a context entry (R305). -/
  | ctxSet
  /-- The mailbox command copies a queue descriptor into the queue table after its checks (R303). -/
  | queueCreate
  /-- The mailbox command drain-destroys or abort-destroys a queue and returns OK once every started grid has completed (R271). -/
  | queueDestroy
  /-- The mailbox command sets a segment's near-map bit, or returns INUSE while the segment is mapped (R293). -/
  | nearSet
  /-- The mailbox command settles a posted fault as resolved, so that parked parties retry, or as unresolvable (R285). -/
  | faultResp
  /-- The mailbox command invalidates the core TLBs, die TLBs and walks for a range of a context, device-wide (R303). -/
  | tlbInval
  /-- The mailbox command pre-empts every crew of a context, or readmits them (R286). -/
  | ctxSuspend
  /-- A mailbox command with code 0 or 9 to 255 returns UNKNOWN and has no effect (R303). -/
  | mailboxUnknown
  /-- A GRID packet read from a ring names a launch record to start as a grid (R255). -/
  | grid (q : Nat)
  /-- A GRAPH packet initialises the node counters and starts every node whose counter is zero (R263). -/
  | graph (q : Nat)
  /-- A SIGNAL packet, once every earlier packet has completed, makes a 64-bit store or an add as a release at .sys (R255). -/
  | signal (q : Nat)
  /-- A BARRIER_AND packet holds later packets until each named word reaches its threshold (R255). -/
  | barrierAnd (q : Nat)
  /-- When every watched word reaches its threshold, the BARRIER_AND completes as an acquire (R255). -/
  | barrierAndComplete (q : Nat)
  /-- A packet that waited under WAITPREV or for a phase change starts, after cache maintenance when the phase changes (R257). -/
  | packetStart (q : Nat)
  /-- A launch makes its start checks, after any CARRYIN wait, reads its chain area and makes its crews dispatchable (R259). -/
  | launchStart (grid : Nat)
  /-- When a grid has completed, the device writes CARRY and PEAK, makes the DONE add and OR, updates graph counters and writes the completion record (R261). -/
  | gridCompletion (grid : Nat)
  /-- The entry at the head of a crew's pending-launch queue moves into the die queue once that queue has room (R267). -/
  | pendingLaunchDrain (c : CrewRef)
  /-- The front end starts a die-queue entry as a GRID of the parent's queue without WAITPREV (R267). -/
  | dieQueueStart (die : Nat)
  /-- After an abort-destroy, a dispatched crew is killed at its next instruction boundary, with its copies cancelled and its tile operations discarded (R271). -/
  | abortKill (c : CrewRef)
  /-- A Clicker places a dispatchable crew on a core that can admit it, chosen by live width (R26). -/
  | crewDispatch (c : CrewRef)
  /-- When a swapped-out crew's wake-up condition holds, the crew is queued for swap-in ahead of undispatched crews (R39). -/
  | wakeUp (c : CrewRef)
  /-- A woken or restored crew is placed again on a core of its die, and its needed SPILL generations move into the Welt (R39). -/
  | crewSwapIn (c : CrewRef)
  /-- A victim Clicker answers a steal request from a Clicker that ran dry with one qualifying crew, or with a refusal (R251). -/
  | stealRequest (grid thief victim : Nat)
  /-- The thief takes the stolen crew as its own, or asks the next die after a refusal (R251). -/
  | stealAnswer (grid thief : Nat)
  /-- A split that has been ready for 1,024 cycles is raised to issue class 4 (R265). -/
  | splitBoost (r : SplitRef)
  /-- Every 65,536 cycles of waiting raises a packet's or crew's effective priority by one, up to 3 (R264). -/
  | priorityAgeing (c : CrewRef)
  /-- A sleeping split becomes ready once its resident-cycle count runs out (R266). -/
  | sleepExpiry (r : SplitRef)
  /-- When a crew's watchdog count reaches its limit, every strand that has not ended takes WATCHDOG, with its waiting instructions captured (R290). -/
  | watchdog (c : CrewRef)
  /-- A trap that arose after issue is taken at the strand's next instruction boundary (R274). -/
  | deferredTrap (r : StrandRef)
  /-- A pre-empted crew takes its saved state again, and the captured entries are re-injected silently (R288). -/
  | restore (c : CrewRef)
  /-- Once in every period of 2^20 cycles, each cluster tests its live lanes, withholding issue if needed (R125). -/
  | laneSelfCheck (r : ClusterRef) (f : CheckReport)
  /-- When the copy to the spare bank ends, accesses are redirected to it and the held accesses resume (R127). -/
  | bankCopyDone (core bank : Nat)
  /-- A retiring L2 slice is evacuated, and accesses mapped to it are held (R171). -/
  | sliceRetirement (die slice : Nat)
  /-- Once the evacuation is done, the rebuilt Remap table takes effect and the held accesses proceed (R170). -/
  | sliceRemap (die : Nat)
  /-- A retiring pseudo-channel completes its accepted commands and its data are copied to reserve places (R297). -/
  | pseudoChannelRetirement (quad chan : Nat)
  /-- When the copy ends, the new PcMap takes effect and the held accesses proceed (R296). -/
  | pcmapUpdate (quad : Nat)
  /-- An uncorrectable error poisons the line and is confined to a crew, context, partition or the device (R299). -/
  | uncorrectableError (e : ErrorSite)
  /-- At a precharge whose activation count reaches the threshold, saturates or fails parity, the neighbour rows are refreshed and the counter reset (R295). -/
  | neighbourRefresh (row : Nat) (upset : Bool)
  /-- An access rejected for 64 cycles becomes aged and takes the next freed miss-status entry (R168). -/
  | accessAged (r : StrandRef) (id : Nat)
  /-- A walk completes a translation, or the access parks and a fault record is posted (R283). -/
  | pageWalk (r : StrandRef) (id : Nat)
  /-- While a fault record waits for room, the device rereads FRPTR at least every 10 microseconds (R308). -/
  | faultRingPoll (part : Nat)
  /-- Load data arriving from memory are placed in the destination lanes, or raise a deferred UNCORRECTABLE trap (R366). -/
  | loadDataReturn (r : StrandRef) (id : Nat)
  /-- A store reaches its resolution point and takes its place in coherence order (R189). -/
  | storeArrival (core : Nat)
  /-- A dirty L1 line writes back only its dirty bytes, by eviction or another cause (R162). -/
  | writeBack (core line : Nat) (evict : Bool)
  /-- A copy finishes, its tag becomes DONE with its status, and its locks clear (R217). -/
  | copyComplete (c : CrewRef) (tag : BitVec 6)
  /-- A page fault stops a copy at granule q and posts a fault record with the resume offset (R224). -/
  | copyPark (c : CrewRef) (tag : BitVec 6)
  /-- A cancelled operation stops at a granule boundary and its tag becomes DONE with CODE 3 (R219). -/
  | cancelEnd (c : CrewRef) (tag : BitVec 6) (granules : Nat)
  /-- The copy engine issues a follow-on product once the copy and its AFTER tags are done with CODE 0 and the crew is resident (R221). -/
  | followOnIssue (c : CrewRef) (tag : BitVec 6)
  /-- The last byte is parked in the holding slot and the CPYM's tag sets (R222). -/
  | cpymParked (c : CrewRef) (tag : BitVec 6)
  /-- A drain fills its destination from a slot, or ends with BADSLOT, and the n-th drain frees the slot (R223). -/
  | drainComplete (c : CrewRef) (tag : BitVec 6)
  /-- A tile operation ends and frees its tile and locks, with MSTA flags joining %fpmode (R228). -/
  | tileOpEnd (core id : Nat)
  /-- An NMV finishes its rows of y and its tag sets with its status (R245). -/
  | nmvComplete (c : CrewRef) (tag : BitVec 6)
  /-- A published generation is delivered to the Welt of each resident consumer, or to SPILL (R148). -/
  | handoffDelivery (grid item : Nat) (slot : BitVec 3) (gen : Nat)
  /-- A held path whose hand-off value exists becomes ready and, room permitting, a split (R154). -/
  | heldPathReady (r : StrandRef)
  /-- A lane held at HPUT by back-pressure publishes once a SPILL unit frees (R151). -/
  | backPressurePublish (r : SplitRef)
  /-- A virtual die's completed-phase counter advances and reaches the other dies as a VC0 message (R195). -/
  | phaseCounterAdvance (grid vdie : Nat)
  /-- A waiting WAITM rereads its word when the line is written or after 65,536 cycles (R270). -/
  | waitmRecheck (r : SplitRef)
  /-- Every millisecond of reference time, firmware copies the black-box records to the report (R312). -/
  | blackboxCopy
  /-- Firmware changes the core clock by one 50 MHz step and logs a KIND 9 event (R314). -/
  | throttleChange (up : Bool)
  /-- A host write reaches L2 or the host-coherent point and sets the line's scope record to .sys (R196). -/
  | hostWrite (pa : Nat) (bytes : List Byte)
  /-- A host read of device memory returns the data, marked poisoned if the line is poisoned (R298). -/
  | hostRead (pa n : Nat)
  /-- A Stoend peer write arrives and behaves as a host write (R307). -/
  | peerWrite (pa : Nat) (bytes : List Byte)
  /-- An access whose data are corrected by error correction is counted toward its bank's threshold of 16 per period, which retires the bank, and is logged as a corrected event (R127). -/
  | correctedError (core bank : Nat)
  /-- A host PCIe AtomicOp CAS to device memory through BAR2 is performed indivisibly as the completer (R300). -/
  | hostAtomicCas (pa : Nat) (wide : Bool) (expect new : DWord)
  /-- A Stoend peer read of this device's memory returns the data, marked poisoned if the line is poisoned (R298). -/
  | peerRead (pa n : Nat)
  /-- An ATOM, CAS or RED from a peer device on this device's pages runs indivisibly at the home slice (R307). -/
  | peerBankOperation (op : PeerOp) (pa : Nat) (b c : DWord)
  /-- A debugger halts a crew, stopping its watchdog count, and later releases it (R289). -/
  | debuggerHalt (c : CrewRef) (halt : Bool)
  /-- A Stoend port stops being live, so peer lines are spread over the remaining live ports of each mask (R307). -/
  | stoendPortLoss (port : Nat)
  deriving DecidableEq, Repr

end Sys2Proof
end

