-- ==== Sys2Proof/Machine/Legal.lean ====
section
/-! DEFINITION. Which encodings are legal: the allowed lengths of each cell (R107) and, for the base and the extended
form of each cell, the operand classes, types and fields that its entry accepts (R93 to R104, R109, and each entry).
These are the parts of checks 2 and 3 of R106 that the words alone decide. -/
namespace Sys2Proof

/-! ## Types -/

/-- The 64-bit types. -/
def Ty.is64 : Ty → Bool
  | .s64 | .n64 => true
  | _ => false

/-- The signed integer types. -/
def Ty.isSigned : Ty → Bool
  | .s64 | .s32 | .s16 | .s8 | .s4 => true
  | _ => false

/-- Width in bits of a type's values (R65). -/
def Ty.width : Ty → Nat
  | .b32 | .s32 | .n32 | .f32 => 32
  | .s64 | .n64 => 64
  | .f16 | .bf16 | .s16 | .n16 => 16
  | .dt8 | .s8 | .n8 => 8
  | .dt6 => 6
  | .s4 => 4
  | .a80 => 80

/-- .s32 .n32 .s64 .n64 (R338). -/
def Ty.isInt : Ty → Bool
  | .s32 | .n32 | .s64 | .n64 => true
  | _ => false

/-- .b32 and the types of `isInt` (R316). -/
def Ty.isBits : Ty → Bool
  | .b32 | .s32 | .n32 | .s64 | .n64 => true
  | _ => false

/-- .f32 .f16 .bf16 (R337). -/
def Ty.isFloat : Ty → Bool
  | .f32 | .f16 | .bf16 => true
  | _ => false

/-- .s4 to .s64 and .n8 to .n64 (R336). -/
def Ty.isAnyInt : Ty → Bool
  | .s4 | .s8 | .s16 | .s32 | .s64 | .n8 | .n16 | .n32 | .n64 => true
  | _ => false

/-- .dt8 .dt6. -/
def Ty.isDt : Ty → Bool
  | .dt8 | .dt6 => true
  | _ => false

/-- The types of loads and stores (R365, R402). -/
def Ty.isAccess : Ty → Bool
  | .dt6 | .s4 | .a80 => false
  | _ => true

/-- The types from their codes (R102). -/
def Ty.ofCode (c : Nat) : Ty :=
  match c with
  | 0 => .b32 | 1 => .s32 | 2 => .n32 | 3 => .s64 | 4 => .n64 | 5 => .f32 | 6 => .f16 | 7 => .bf16
  | 8 => .dt8 | 9 => .dt6 | 10 => .s8 | 11 => .s4 | 12 => .s16 | 13 => .n16 | 14 => .n8 | _ => .a80

/-- The codes of the types (R102). -/
def Ty.code : Ty → Nat
  | .b32 => 0 | .s32 => 1 | .n32 => 2 | .s64 => 3 | .n64 => 4 | .f32 => 5 | .f16 => 6 | .bf16 => 7
  | .dt8 => 8 | .dt6 => 9 | .s8 => 10 | .s4 => 11 | .s16 => 12 | .n16 => 13 | .n8 => 14 | .a80 => 15

namespace Machine

/-- The allowed values of L of a cell (R107); empty for a reserved cell. -/
def cellLengths (op : Nat) : List Nat :=
  match op / 16, op % 16 with
  | 0x0, c => [[0], [0, 2], [1], [0, 2], [1], [0], [0], [1]].getD c []
  | 0x1, _ => [1, 3]
  | 0x2, c =>
    if c ≤ 3 ∨ c = 5 ∨ c = 6 ∨ c = 9 ∨ c = 0xA then [0, 1, 2, 3]
    else if c = 7 ∨ c = 8 ∨ c = 0xE then [0, 1, 3]
    else if c = 0xF then [0, 2] else [1, 3]
  | 0x3, c => if c ≤ 3 ∨ (5 ≤ c ∧ c ≤ 8) then [0, 1, 2, 3] else if c = 4 ∨ (9 ≤ c ∧ c ≤ 0xC) then [0, 1, 3] else [1, 3]
  | 0x4, c =>
    if c ≤ 2 ∨ c = 4 ∨ c = 0xC ∨ c = 0xD then [0, 1, 2, 3]
    else if 5 ≤ c ∧ c ≤ 0xB then [0, 1, 3] else [1, 3]
  | 0x5, c => if c ≤ 1 then [0, 1, 3] else if c ≤ 6 then [1, 3] else []
  | 0x6, c => if c = 0 then [1, 3] else if c ≤ 3 then [1] else []
  | 0x7, c => if c ≤ 3 ∨ (5 ≤ c ∧ c ≤ 7) then [0, 1, 2, 3] else if c = 0xF then [1] else [1, 3]
  | 0x8, c => if c = 1 ∨ c = 3 ∨ c = 4 ∨ c = 8 ∨ c = 9 then [1, 3] else if c ≤ 7 then [1] else []
  | 0x9, c => if c ≤ 2 then [1] else if c ≤ 8 then [1, 3] else []
  | 0xA, c => if c ≤ 7 then [1] else []
  | 0xB, c =>
    if c = 2 ∨ c = 4 ∨ (9 ≤ c ∧ c ≤ 0xB) then [1, 3] else if c ≤ 7 then [1] else if c = 8 then [0] else []
  | 0xC, c => if c = 1 ∨ (6 ≤ c ∧ c ≤ 9) then [1, 3] else if c = 4 then [0] else if c ≤ 5 then [1] else []
  | 0xD, _ => [1, 3]
  | 0xE, c => if c ≤ 8 then [1, 3] else if c ≤ 0xA then [1] else []
  | 0xF, c => if c = 0xF then [0, 1, 2, 3] else []
  | _, _ => []

/-! ## Operand positions -/

/-- The classes beyond v and s that a source position takes: p, class 10, class 11 immediates, the literal. -/
structure Cls where
  p : Bool
  h : Bool
  imm : Bool
  lit : Bool
  deriving DecidableEq, Repr

/-- Every source class (R99), for the entries that list none. -/
def Cls.full : Cls := { p := true, h := true, imm := true, lit := true }
/-- v or s alone. -/
def Cls.regs : Cls := { p := false, h := false, imm := false, lit := false }
/-- v, s, class 11, the literal. -/
def Cls.noH : Cls := { p := false, h := false, imm := true, lit := true }
/-- p, v, s, class 11, the literal. -/
def Cls.pNoH : Cls := { p := true, h := false, imm := true, lit := true }
/-- v, s, class 10, class 11, the literal. -/
def Cls.noP : Cls := { p := false, h := true, imm := true, lit := true }

/-- A source spec is allowed in its position; `w`: a 64-bit operand names an even register (R47, R50, R51, R99). (DEDUCED, log entry 67) -/
def srcOk (c : Cls) (w : Bool) (o : Opd) : Bool :=
  match o with
  | .v n => !(w && n.getLsbD 0)
  | .s n => !(w && n.getLsbD 0)
  | .p _ => c.p
  | .w _ => false
  | .t _ => false
  | .h _ _ => c.h
  | .imm b => c.imm && decide (b ≠ 0x80#8)
  | .lit => c.lit

/-- A destination spec: v or s, and p where `p` holds. (DEDUCED, log entry 66) -/
def dstOk (p w : Bool) (o : Opd) : Bool :=
  match o with
  | .v n => !(w && n.getLsbD 0)
  | .s n => !(w && n.getLsbD 0)
  | .p _ => p
  | _ => false

/-- A v register alone (R412). -/
def isV : Opd → Bool
  | .v _ => true
  | _ => false

/-- An s register alone (R371). -/
def isS : Opd → Bool
  | .s _ => true
  | _ => false

/-- A p register alone. -/
def isP : Opd → Bool
  | .p _ => true
  | _ => false

/-- A view register alone. -/
def isW : Opd → Bool
  | .w _ => true
  | _ => false

/-- A tile alone. -/
def isT : Opd → Bool
  | .t _ => true
  | _ => false

/-- An unused spec position: zero, which reads as v0 (R101). -/
def unused (o : Opd) : Bool := decide (o = .v 0)

/-- The literal is there exactly when a source names it (R100); D never does. -/
def litUse (e : Ext) : Bool :=
  e.lit.isSome == (decide (e.a = .lit) || decide (e.b = .lit) || decide (e.c = .lit))

/-- The fields of R98 besides the operand specs. -/
inductive Fld where
  | ty | rnd | scope | mod | view | aux | imm
  deriving DecidableEq, Repr

/-- Every field but the listed ones is zero (R101). -/
def zeroBut (l : List Fld) (e : Ext) : Bool :=
  (l.contains .ty || decide (e.ty = .b32)) && (l.contains .rnd || decide (e.rnd = 0)) &&
  (l.contains .scope || decide (e.scope = .none)) && (l.contains .mod || decide (e.mod = 0)) &&
  (l.contains .view || e.view.isNone) && (l.contains .aux || decide (e.aux = 0)) &&
  (l.contains .imm || decide (e.imm = 0))

/-- A rounding code (R103). -/
def rndOk (e : Ext) : Bool := decide (e.rnd.toNat ≤ 4)

/-- The membership field is zero unless the scope is .cohort, and AUX8[5:0] is zero (R104). -/
def memOnly (e : Ext) : Bool :=
  decide (e.aux &&& 0x3F#8 = 0) && (decide (e.scope = .cohort) || decide (e.aux = 0))

/-- MOD is 0 or .sat alone. -/
def satOnly (e : Ext) : Bool := decide (e.mod = 0) || decide (e.mod = 8)

/-- The operation and type of ATOM and RED (R318). -/
def atomOk (op : Nat) (t : Ty) : Bool :=
  match op with
  | 0 | 1 | 2 => t.isInt || decide (t = .f32)
  | 3 | 4 | 5 => t.isBits
  | 6 => t.isBits || decide (t = .f32)
  | _ => false

/-- The operation, type and rounding of REDS and SCAN (R391). -/
def redsOk (op : Nat) (t : Ty) (rnd : BitVec 3) : Bool :=
  match op with
  | 0 => (t.isInt && decide (rnd = 0)) || (t.isFloat && decide (rnd.toNat ≤ 4))
  | 1 | 2 => (t.isInt || t.isFloat) && decide (rnd = 0)
  | 3 | 4 | 5 => t.isBits && decide (rnd = 0)
  | _ => false

/-- The pairs of CVT (R336). -/
def cvtOk (dst src : Ty) : Bool :=
  let known (t : Ty) : Bool := t.isAnyInt || t.isFloat || t.isDt
  known dst && known src && !(dst.isFloat && src.isFloat)

/-- The condition codes that a 32-bit wait or compare takes with its type (R270, R361). -/
def condOk (rnd : BitVec 3) (t : Ty) : Bool := decide (rnd.toNat ≤ 5) && (decide (t ≠ .b32) || decide (rnd.toNat ≤ 1))

/-- D, A and B of an operation that takes every source class; C unused. -/
def binOk (e : Ext) : Bool :=
  dstOk true e.ty.is64 e.d && srcOk .full e.ty.is64 e.a && srcOk .full e.ty.is64 e.b && unused e.c

/-- D and A of an operation that takes every source class; B and C unused. -/
def unOk (e : Ext) : Bool :=
  dstOk true e.ty.is64 e.d && srcOk .full e.ty.is64 e.a && unused e.b && unused e.c

/-- The address and offset of an access on the generic path: an even pair, and a 32-bit offset (R364). -/
def addrOk (e : Ext) : Bool := srcOk .regs true e.a && srcOk .noH false e.b

/-- An index operand of R207. -/
def idxOk (o : Opd) : Bool := srcOk .noH false o

/-- Rows 0x0 and 0x1 in extended form. -/
def extOk01 (op : Nat) (e : Ext) : Bool :=
  match op with
  | 0x02 | 0x04 => unused e.d && srcOk .regs false e.a && unused e.b && unused e.c && zeroBut [] e
  | 0x07 => isS e.d && unused e.a && unused e.b && unused e.c && zeroBut [.imm] e
  | 0x10 | 0x11 | 0x12 =>
    dstOk true false e.d && srcOk .pNoH false e.a && srcOk .pNoH false e.b && unused e.c && zeroBut [.mod] e &&
      decide (e.mod.toNat ≤ 3)
  | 0x13 | 0x14 | 0x15 | 0x16 =>
    dstOk true false e.d && srcOk .pNoH false e.a && unused e.b && unused e.c && zeroBut [.mod] e &&
      decide (e.mod.toNat ≤ 1)
  | 0x17 =>
    dstOk false false e.d && srcOk .pNoH false e.a && unused e.b && unused e.c && zeroBut [.mod] e &&
      decide (e.mod.toNat ≤ 1)
  | 0x18 | 0x19 | 0x1A | 0x1B =>
    dstOk false e.ty.is64 e.d && srcOk .regs e.ty.is64 e.a && srcOk .noH false e.b && unused e.c &&
      zeroBut [.ty, .aux] e && (decide (e.ty = .b32) || e.ty.is64) && decide ((e.aux &&& 7#8).toNat ≤ 5) &&
      decide (e.aux.toNat < 32) && (!(e.aux.getLsbD 3) || op = 0x19 || op = 0x1A)
  | 0x1C | 0x1D =>
    dstOk false false e.d && srcOk .noP e.ty.is64 e.a && unused e.b && unused e.c && zeroBut [.ty] e &&
      (decide (e.ty = .b32) || e.ty.is64)
  | 0x1E | 0x1F =>
    dstOk false e.ty.is64 e.d && srcOk .noH e.ty.is64 e.a && unused e.b && unused e.c && zeroBut [.ty, .rnd, .mod] e &&
      redsOk e.mod.toNat e.ty e.rnd
  | _ => false

/-- Rows 0x2 and 0x3 in extended form. -/
def extOk23 (op : Nat) (e : Ext) : Bool :=
  match op with
  | 0x20 | 0x21 | 0x22 => binOk e && zeroBut [.ty, .mod] e && e.ty.isInt && satOnly e
  | 0x23 | 0x25 | 0x26 | 0x29 | 0x2A => binOk e && zeroBut [.ty] e && e.ty.isInt
  | 0x24 =>
    dstOk true e.ty.is64 e.d && srcOk .noP e.ty.is64 e.a && srcOk .noP e.ty.is64 e.b && srcOk .noP e.ty.is64 e.c &&
      zeroBut [.ty, .mod] e && e.ty.isInt && satOnly e
  | 0x27 | 0x28 => unOk e && zeroBut [.ty, .mod] e && e.ty.isInt && satOnly e
  | 0x2B =>
    dstOk true false e.d && srcOk .full e.ty.is64 e.a && srcOk .full e.ty.is64 e.b && unused e.c &&
      zeroBut [.ty, .rnd] e && e.ty.isBits && condOk e.rnd e.ty
  | 0x2C =>
    dstOk false e.ty.is64 e.d && srcOk .noH e.ty.is64 e.a && srcOk .noH e.ty.is64 e.b && isP e.c &&
      zeroBut [.ty, .mod] e && (decide (e.ty = .n32) || decide (e.ty = .n64)) && decide (e.mod.toNat ≤ 1)
  | 0x2D =>
    dstOk false e.ty.is64 e.d && srcOk .full e.ty.is64 e.a && srcOk .full e.ty.is64 e.b &&
      srcOk { p := true, h := false, imm := false, lit := false } false e.c && zeroBut [.ty] e &&
      (e.ty.isBits || e.ty.isFloat)
  | 0x2E =>
    unOk e && zeroBut [.ty] e &&
      (e.ty.isBits || e.ty.isFloat || [Ty.s16, .n16, .s8, .n8].contains e.ty)
  | 0x30 | 0x31 | 0x32 | 0x33 | 0x35 | 0x36 | 0x37 | 0x38 => binOk e && zeroBut [.ty] e && e.ty.isBits
  | 0x34 | 0x39 | 0x3A | 0x3B | 0x3C => unOk e && zeroBut [.ty] e && e.ty.isBits
  | 0x3D =>
    dstOk false e.ty.is64 e.d && srcOk .full e.ty.is64 e.a && srcOk .noH false e.b && unused e.c && zeroBut [.ty] e &&
      e.ty.isBits
  | 0x3E =>
    dstOk false e.ty.is64 e.d && srcOk .full e.ty.is64 e.a && srcOk .full e.ty.is64 e.b && srcOk .noH false e.c &&
      zeroBut [.ty] e && e.ty.isBits
  | 0x3F =>
    dstOk false false e.d && srcOk .noH false e.a && srcOk .noH false e.b && srcOk .noH false e.c && zeroBut [] e
  | _ => false

/-- Rows 0x4 and 0x5 in extended form. -/
def extOk45 (op : Nat) (e : Ext) : Bool :=
  match op with
  | 0x40 | 0x41 | 0x42 | 0x44 => binOk e && zeroBut [.ty, .rnd] e && e.ty.isFloat && rndOk e
  | 0x43 =>
    dstOk true false e.d && srcOk .full false e.a && srcOk .full false e.b && srcOk .full false e.c &&
      zeroBut [.ty, .rnd] e && e.ty.isFloat && rndOk e
  | 0x45 | 0x46 | 0x47 | 0x48 | 0x49 | 0x4A | 0x4B => unOk e && zeroBut [.ty, .rnd] e && e.ty.isFloat && rndOk e
  | 0x4C | 0x4D => binOk e && zeroBut [.ty] e && e.ty.isFloat
  | 0x4E => binOk e && zeroBut [.ty, .rnd] e && e.ty.isFloat
  | 0x4F =>
    dstOk true false e.d && srcOk { p := true, h := true, imm := false, lit := true } false e.a &&
      srcOk .noH false e.b && unused e.c && zeroBut [.ty] e && e.ty.isFloat
  | 0x50 | 0x51 => unOk e && zeroBut [.ty] e && e.ty.isFloat
  | 0x52 =>
    dstOk false false e.d && srcOk .full false e.a && unused e.b && unused e.c && zeroBut [.ty, .rnd] e &&
      e.ty.isFloat && rndOk e
  | 0x53 =>
    dstOk false false e.d && srcOk .full false e.a && srcOk .noH false e.b && unused e.c && zeroBut [.ty, .rnd] e &&
      e.ty.isFloat && rndOk e
  | 0x54 =>
    dstOk true false e.d && srcOk .full false e.a && srcOk .full false e.b && srcOk .full false e.c &&
      zeroBut [.ty, .rnd] e && (decide (e.ty = .f16) || decide (e.ty = .bf16)) && rndOk e
  | 0x55 =>
    dstOk false false e.d && srcOk .noH false e.a && unused e.b && unused e.c && zeroBut [.ty, .rnd, .mod, .aux] e &&
      rndOk e && decide (e.aux.toNat ≤ 1) && e.ty.isFloat && (Ty.ofCode e.mod.toNat).isFloat
  | 0x56 =>
    let src := Ty.ofCode e.mod.toNat
    dstOk false e.ty.is64 e.d && srcOk { p := false, h := false, imm := !src.isDt, lit := !src.isDt } src.is64 e.a &&
      unused e.b && unused e.c && zeroBut [.ty, .rnd, .mod, .aux] e && rndOk e && decide (e.aux.toNat ≤ 1) &&
      cvtOk e.ty src
  | _ => false

/-- Rows 0x6 and 0x7 in extended form. -/
def extOk67 (op : Nat) (e : Ext) : Bool :=
  match op with
  | 0x60 =>
    unused e.d && srcOk .noP false e.a && unused e.b && unused e.c && zeroBut [.scope, .aux] e &&
      decide (e.scope ≠ .sys) && decide (e.aux &&& 0x38#8 = 0) &&
      (decide (e.scope = .cohort) || decide (e.aux &&& 0xC0#8 = 0))
  | 0x61 => unused e.d && unused e.a && unused e.b && unused e.c && zeroBut [.aux] e && decide (e.aux.toNat < 8)
  | 0x62 => dstOk false false e.d && unused e.a && unused e.b && unused e.c && zeroBut [.aux] e && decide (e.aux.toNat < 8)
  | 0x63 =>
    dstOk false false e.d && unused e.a && unused e.b && unused e.c && zeroBut [.aux] e && decide (e.aux.toNat < 64)
  | 0x70 | 0x73 =>
    dstOk false e.ty.is64 e.d && addrOk e && unused e.c && zeroBut [.ty] e && e.ty.isAccess
  | 0x71 | 0x72 =>
    dstOk false e.ty.is64 e.d && srcOk .regs false e.a && srcOk .noH false e.b && unused e.c && zeroBut [.ty] e &&
      e.ty.isAccess
  | 0x74 =>
    dstOk false e.ty.is64 e.d && addrOk e && unused e.c && zeroBut [.ty, .scope, .aux] e && e.ty.isAccess &&
      decide (e.scope ≠ .none) && memOnly e
  | 0x75 =>
    unused e.d && addrOk e && srcOk { Cls.full with imm := decide (e.ty ≠ .dt8), lit := decide (e.ty ≠ .dt8) } e.ty.is64 e.c && zeroBut [.ty] e &&
      e.ty.isAccess
  | 0x76 | 0x77 =>
    unused e.d && srcOk .regs false e.a && srcOk .noH false e.b &&
      srcOk { Cls.full with imm := decide (e.ty ≠ .dt8), lit := decide (e.ty ≠ .dt8) } e.ty.is64 e.c && zeroBut [.ty] e && e.ty.isAccess
  | 0x78 =>
    unused e.d && addrOk e && srcOk { Cls.full with imm := decide (e.ty ≠ .dt8), lit := decide (e.ty ≠ .dt8) } e.ty.is64 e.c &&
      zeroBut [.ty, .scope, .aux] e && e.ty.isAccess && decide (e.scope ≠ .none) && memOnly e
  | 0x79 | 0x7C =>
    unused e.d && srcOk .regs true e.a && srcOk .noH e.ty.is64 e.b && unused e.c && zeroBut [.ty, .scope, .mod, .aux] e &&
      memOnly e && atomOk e.mod.toNat e.ty
  | 0x7A =>
    dstOk false e.ty.is64 e.d && srcOk .regs true e.a && srcOk .noH e.ty.is64 e.b && unused e.c &&
      zeroBut [.ty, .scope, .mod, .aux] e && memOnly e && atomOk e.mod.toNat e.ty
  | 0x7B =>
    dstOk false e.ty.is64 e.d && srcOk .regs true e.a && srcOk .noH e.ty.is64 e.b && srcOk .noH e.ty.is64 e.c &&
      zeroBut [.ty, .scope, .aux] e && memOnly e && e.ty.isBits
  | 0x7D => unused e.d && addrOk e && unused e.c && zeroBut [.mod] e && decide (e.mod.toNat ≤ 1)
  | 0x7E =>
    dstOk false true e.d && srcOk .regs true e.a && srcOk .noH e.ty.is64 e.b && unused e.c &&
      zeroBut [.ty, .mod, .imm] e && [Ty.s32, .n32, .s64].contains e.ty && decide (e.mod.toNat ≤ 3)
  | 0x7F => unused e.d && unused e.a && unused e.b && unused e.c && zeroBut [.scope, .aux] e && memOnly e
  | _ => false

/-- Rows 0x8 and 0x9 in extended form (R207, R216). -/
def extOk89 (op : Nat) (e : Ext) : Bool :=
  let noAbc := unused e.a && unused e.b && unused e.c
  match op with
  | 0x80 =>
    unused e.d && srcOk .noH false e.a && unused e.b && unused e.c && zeroBut [.view] e && e.view.isSome
  | 0x81 =>
    unused e.d && srcOk .noH false e.a && unused e.b && unused e.c && zeroBut [.view, .aux] e && e.view.isSome &&
      decide (e.aux.toNat < 64)
  | 0x82 => unused e.d && noAbc && zeroBut [.view] e && e.view.isSome
  | 0x83 =>
    unused e.d && srcOk .regs true e.a && srcOk .noH false e.b && unused e.c && zeroBut [.view, .scope, .aux] e &&
      e.view.isSome && decide (e.scope ≠ .none) && memOnly e
  | 0x84 =>
    unused e.d && srcOk .regs true e.a && srcOk .noH false e.b && unused e.c &&
      zeroBut [.view, .scope, .aux, .rnd, .ty] e && e.view.isSome && decide (e.scope ≠ .none) && memOnly e &&
      [Ty.b32, .s32, .n32].contains e.ty && condOk e.rnd e.ty
  | 0x85 => isP e.d && isW e.a && unused e.b && unused e.c && zeroBut [.view] e && e.view.isSome
  | 0x86 => dstOk false false e.d && noAbc && zeroBut [.view, .aux] e && e.view.isSome && decide (e.aux.toNat < 64)
  | 0x87 =>
    dstOk false true e.d && idxOk e.a && idxOk e.b && idxOk e.c && zeroBut [.view, .imm] e && e.view.isSome
  | 0x88 | 0x89 =>
    dstOk false e.ty.is64 e.d && idxOk e.a && idxOk e.b && idxOk e.c && zeroBut [.view, .imm, .ty] e && e.view.isSome
  | 0x90 =>
    isW e.d && isW e.a && srcOk .noH false e.b && unused e.c && zeroBut [.mod, .aux] e && decide (e.mod.toNat ≤ 1) &&
      (decide (e.mod = 1) || unused e.b) && decide (e.aux.toNat < 64)
  | 0x91 =>
    dstOk false false e.d && isW e.a && srcOk .noH false e.b && unused e.c && zeroBut [.aux, .imm] e &&
      decide (e.aux.toNat < 64) && decide (e.imm.toNat < 128) && (e.imm.getLsbD 6 || decide (e.imm = 0))
  | 0x92 =>
    isW e.d && srcOk .regs false e.a && unused e.b && unused e.c && zeroBut [.aux] e && decide (e.aux.toNat < 64)
  | 0x93 | 0x94 | 0x98 => unused e.d && srcOk .noH true e.a && unused e.b && unused e.c && zeroBut [] e
  | 0x95 => dstOk false true e.d && srcOk .noH true e.a && unused e.b && unused e.c && zeroBut [] e
  | 0x96 | 0x97 => isP e.d && srcOk .noH true e.a && unused e.b && unused e.c && zeroBut [] e
  | _ => false

/-- The types of MLDA (R239). -/
def mldaTy (t : Ty) : Bool := t.isFloat || t.isDt || [Ty.s8, .s16, .s32, .s64, .n8, .n16, .n32, .a80].contains t

/-- The types and modifiers of MSTA (R240). -/
def mstaOk (e : Ext) : Bool :=
  if e.ty.isFloat || e.ty.isDt then true
  else if e.ty = .a80 then decide (e.mod = 0) && decide (e.rnd = 0)
  else [Ty.s64, .n64, .s32, .n32, .s16, .n16, .s8, .n8].contains e.ty && !(e.mod.getLsbD 0)

/-- Rows 0xA to 0xC in extended form (R232, R249, R266, R268, R278 and the entries). -/
def extOkAC (op : Nat) (e : Ext) : Bool :=
  let noAbc := unused e.a && unused e.b && unused e.c
  match op with
  | 0xA0 =>
    isT e.d && isW e.a && isW e.b && srcOk .noH false e.c && zeroBut [.ty] e &&
      [Ty.dt8, .dt6, .s8, .f16, .bf16].contains e.ty
  | 0xA1 => isT e.d && noAbc && zeroBut [] e
  | 0xA2 => isT e.d && isW e.a && unused e.b && unused e.c && zeroBut [.ty] e && mldaTy e.ty
  | 0xA3 =>
    isW e.d && isT e.a && unused e.b && unused e.c && zeroBut [.ty, .rnd, .mod] e && mstaOk e && rndOk e &&
      decide (e.mod &&& 6#4 = 0)
  | 0xA4 => isT e.d && isT e.a && unused e.b && unused e.c && zeroBut [] e
  | 0xA5 => isT e.d && isT e.a && srcOk .noH false e.b && unused e.c && zeroBut [] e
  | 0xA6 => isT e.d && isT e.a && unused e.b && unused e.c && zeroBut [.ty] e && [Ty.a80, .s64].contains e.ty
  | 0xA7 =>
    isW e.d && isW e.a && isW e.b && srcOk .noH false e.c && zeroBut [.ty, .rnd, .mod, .aux] e &&
      [Ty.dt8, .dt6, .bf16].contains e.ty && rndOk e && decide (e.mod &&& 6#4 = 0) &&
      (e.mod.getLsbD 0 || unused e.c) && decide (e.aux.toNat < 64)
  | 0xB0 | 0xB1 =>
    unused e.d && noAbc && zeroBut [.scope, .aux] e && decide (e.scope ≠ .none) && decide (e.scope ≠ .sys) &&
      decide (e.aux &&& 0x3C#8 = 0) && (decide (e.scope = .cohort) || decide (e.aux.toNat < 4))
  | 0xB2 =>
    unused e.d && srcOk .regs true e.a && srcOk .noH false e.b && unused e.c && zeroBut [.ty, .rnd, .scope, .aux] e &&
      decide (e.scope ≠ .none) && memOnly e && [Ty.b32, .s32, .n32].contains e.ty && condOk e.rnd e.ty
  | 0xB3 => dstOk false false e.d && noAbc && zeroBut [] e
  | 0xB4 => unused e.d && srcOk .noH false e.a && srcOk .noH false e.b && unused e.c && zeroBut [] e
  | 0xB5 => unused e.d && srcOk .regs true e.a && unused e.b && unused e.c && zeroBut [] e
  | 0xB6 => isP e.d && srcOk .regs true e.a && unused e.b && unused e.c && zeroBut [] e
  | 0xB7 => dstOk false false e.d && noAbc && zeroBut [] e
  | 0xB9 | 0xBA => unused e.d && srcOk .noH false e.a && unused e.b && unused e.c && zeroBut [] e
  | 0xBB => dstOk false false e.d && srcOk .noH false e.a && srcOk .noH false e.b && unused e.c && zeroBut [] e
  | 0xC0 => dstOk false false e.d && noAbc && zeroBut [.imm] e && decide (e.imm.toNat < 256)
  | 0xC1 =>
    unused e.d && srcOk .noH false e.a && unused e.b && unused e.c && zeroBut [.imm] e && decide (e.imm.toNat < 256)
  | 0xC2 => unused e.d && noAbc && zeroBut [.imm] e
  | 0xC3 => unused e.d && noAbc && zeroBut [.mod] e && decide (e.mod.toNat ≤ 1)
  | 0xC5 =>
    dstOk false false e.d && srcOk .noH false e.a && unused e.b && unused e.c && zeroBut [.aux] e &&
      decide (e.aux.toNat < 64)
  | 0xC6 =>
    unused e.d && srcOk { Cls.noH with lit := false } false e.a && srcOk .noH false e.b && unused e.c && zeroBut [.aux] e &&
      decide (e.aux.toNat < 64)
  | 0xC7 => unused e.d && srcOk .noH false e.a && unused e.b && unused e.c && zeroBut [] e
  | 0xC8 | 0xC9 => unused e.d && srcOk .regs true e.a && srcOk .noH false e.b && unused e.c && zeroBut [] e
  | _ => false

/-- Rows 0xD and 0xE in extended form (R109, R362, R412). -/
def extOkDE (op : Nat) (e : Ext) : Bool :=
  let x2 := decide (e.ty = .s16) || decide (e.ty = .n16)
  let x4 := decide (e.ty = .s8) || decide (e.ty = .n8)
  let fl := decide (e.ty = .f16) || decide (e.ty = .bf16)
  let d := dstOk false false e.d
  let ab := srcOk .full false e.a && srcOk .full false e.b && unused e.c
  let a := srcOk .full false e.a && unused e.b && unused e.c
  match op with
  | 0xD0 | 0xD1 | 0xD2 => d && ab && zeroBut [.ty, .mod] e && x2 && satOnly e
  | 0xD3 =>
    d && srcOk .noP false e.a && srcOk .noP false e.b && srcOk .noP false e.c && zeroBut [.ty, .mod] e && x2 && satOnly e
  | 0xD4 | 0xD5 | 0xD8 | 0xD9 | 0xDA => d && ab && zeroBut [.ty] e && x2
  | 0xD6 | 0xD7 => d && a && zeroBut [.ty, .mod] e && x2 && satOnly e
  | 0xDB | 0xDC => d && ab && zeroBut [.ty, .mod] e && x4 && satOnly e
  | 0xDD | 0xDE => d && ab && zeroBut [.ty] e && x4
  | 0xDF => d && a && zeroBut [.ty, .mod] e && x4 && satOnly e
  | 0xE0 | 0xE1 | 0xE2 => d && ab && zeroBut [.ty, .rnd] e && fl && rndOk e
  | 0xE3 =>
    d && srcOk .full false e.a && srcOk .full false e.b && srcOk .full false e.c && zeroBut [.ty, .rnd] e && fl && rndOk e
  | 0xE4 | 0xE5 => d && ab && zeroBut [.ty] e && fl
  | 0xE6 | 0xE7 => d && a && zeroBut [.ty] e && fl
  | 0xE8 => d && a && zeroBut [.ty, .rnd] e && fl && rndOk e
  | 0xE9 => isV e.d && isV e.a && unused e.b && unused e.c && zeroBut [] e
  | 0xEA => unused e.d && isV e.a && isV e.b && unused e.c && zeroBut [] e
  | _ => false

/-- An extended form is legal in its cell: the length, the literal and the entry's operands and fields. -/
def extOk (op : Nat) (e : Ext) : Bool :=
  (cellLengths op).contains (if e.lit.isSome then 3 else 1) && litUse e &&
    match op / 16 with
    | 0x0 | 0x1 => extOk01 op e
    | 0x2 | 0x3 => extOk23 op e
    | 0x4 | 0x5 => extOk45 op e
    | 0x6 | 0x7 => extOk67 op e
    | 0x8 | 0x9 => extOk89 op e
    | 0xD | 0xE => extOkDE op e
    | _ => extOkAC op e

/-- The type that MOD2 gives a base form of a cell (R96); none where the value is reserved. -/
def baseTy (op : Nat) (m : BitVec 2) : Option Ty :=
  match op / 16 with
  | 0x2 | 0x3 => some (match m.toNat with | 0 => .s32 | 1 => .n32 | 2 => .s64 | _ => .n64)
  | 0x4 | 0x5 => match m.toNat with | 0 => some .f32 | 1 => some .f16 | 2 => some .bf16 | _ => none
  | 0x7 => some (match m.toNat with | 0 => .b32 | 1 => .s64 | 2 => .n16 | _ => .n8)
  | _ => if m = 0 then some .b32 else none

/-- The base forms, with or without literal, whose D and A are registers: the pairs are even (R47, R95, R96). In MOVI
the A field is the immediate; with L = 2 it is zero. -/
def baseOk (op l : Nat) (b : Base) : Bool :=
  (cellLengths op).contains l &&
    match baseTy op b.m with
    | none => false
    | some t =>
      let evenD := !(t.is64 && b.d.getLsbD 0)
      if op / 16 = 7 then evenD && !((op = 0x70 || op = 0x73 || op = 0x75) && b.a.getLsbD 0)
      else if op = 0x2F then evenD && (l = 0 || decide (b.a = 0))
      else evenD && !(t.is64 && b.a.getLsbD 0)

end Machine
end Sys2Proof
end

