-- ==== Sys2Proof/Machine/Fields.lean ====
section
/-! DEFINITION. The fields of the base word and of the extended form (R89, R93, R98, R99), read from the number that
the instruction's words form, first word lowest; and whether those words are a legal instruction (checks 1 to 3 of R106,
as far as the words decide them). -/
namespace Sys2Proof.Machine

/-- The words of each length (R89). -/
def lengthWords (l : Nat) : Nat :=
  match l with
  | 0 => 1
  | 3 => 5
  | _ => 3

/-- The length field L. -/
def lOf (w : Nat) : Nat := w % 4
/-- The opcode OP. -/
def opOf (w : Nat) : Nat := w / 4 % 256
/-- The guard G and GN. -/
def guardOf (w : Nat) : Guard := { reg := BitVec.ofNat 3 (w / 2 ^ 10), neg := decide (w / 2 ^ 13 % 2 = 1) }
/-- Bits [31:14] of the first word. -/
def offOf (w : Nat) : BitVec 18 := BitVec.ofNat 18 (w / 2 ^ 14)

/-- The base word (R93). -/
def baseOf (w : Nat) : Base :=
  { g := guardOf w, d := BitVec.ofNat 8 (w / 2 ^ 14), a := BitVec.ofNat 8 (w / 2 ^ 22), m := BitVec.ofNat 2 (w / 2 ^ 30) }

/-- The literal of L = 2. -/
def lit2Of (w : Nat) : DWord := BitVec.ofNat 64 (w / 2 ^ 32)

/-- An operand spec (R99); none for a reserved code. -/
def opdOf (x : Nat) : Option Opd :=
  let v := x % 256
  match x / 256 % 4 with
  | 0 => some (.v (BitVec.ofNat 8 v))
  | 1 =>
    if v < 0x20 then some (.s (BitVec.ofNat 5 v))
    else if v < 0x28 then some (.p (BitVec.ofNat 3 (v - 0x20)))
    else if v < 0x30 then some (.w (BitVec.ofNat 3 (v - 0x28)))
    else if v < 0x38 then some (.t (BitVec.ofNat 3 (v - 0x30))) else none
  | 2 => if v < 64 then some (.h (BitVec.ofNat 3 v) (BitVec.ofNat 3 (v / 8))) else none
  | _ => if v = 0x80 then some .lit else some (.imm (BitVec.ofNat 8 v))

/-- A SCOPE code (R104). -/
def scopeOf (x : Nat) : Option Scope :=
  match x with
  | 0 => some .none | 1 => some .crew | 2 => some .cohort | 3 => some .grid | 4 => some .sys | _ => none

/-- A VIEW code (R98). -/
def viewOf (x : Nat) : Option (Option (BitVec 3)) :=
  if x = 0 then some none else if 8 ≤ x then some (some (BitVec.ofNat 3 x)) else none

/-- The extended form (R98); none where a field holds a reserved code. -/
def extOf (w : Nat) : Option Ext :=
  match opdOf (w / 2 ^ 14), opdOf (w / 2 ^ 24), opdOf (w / 2 ^ 34), opdOf (w / 2 ^ 44), scopeOf (w / 2 ^ 61 % 8),
      viewOf (w / 2 ^ 68 % 16) with
  | some d, some a, some b, some c, some sc, some v =>
    some
      { g := guardOf w, d := d, a := a, b := b, c := c, ty := Ty.ofCode (w / 2 ^ 54 % 16),
        rnd := BitVec.ofNat 3 (w / 2 ^ 58), scope := sc, mod := BitVec.ofNat 4 (w / 2 ^ 64), view := v,
        aux := BitVec.ofNat 8 (w / 2 ^ 72), imm := BitVec.ofNat 16 (w / 2 ^ 80),
        lit := if w % 4 = 3 then some (BitVec.ofNat 64 (w / 2 ^ 96)) else none }
  | _, _, _, _, _, _ => none

/-- The cells of the plain shape: NOP RET EXIT YIELD BKPT (R95). -/
def isPlainCell (op : Nat) : Bool := op = 0x00 || op = 0x05 || op = 0x06 || op = 0xB8 || op = 0xC4

/-- The cells of the branch shape: BRA CALL (R95). -/
def isBranchCell (op : Nat) : Bool := op = 0x01 || op = 0x03

/-- OP is UDF or a reserved cell, or L is not among the cell's lengths: ILLEGAL_OPCODE (R106, orders 1 and 2). -/
def badOpcode (w : Nat) : Bool := opOf w = 0xFF || !(cellLengths (opOf w)).contains (lOf w)

/-- The words pass check 3 of R106 as far as they decide it. -/
def operandsOk (w : Nat) : Bool :=
  let op := opOf w
  match lOf w with
  | 0 =>
    if isPlainCell op then decide (offOf w = 0)
    else if isBranchCell op then true
    else baseOk op 0 (baseOf w)
  | 2 =>
    if isBranchCell op then decide (offOf w = 0) && decide (w / 2 ^ 32 % 4 = 0)
    else baseOk op 2 (baseOf w)
  | _ => match extOf w with | some e => extOk op e | none => false

/-- The words are an instruction that is neither UDF nor trapped by its words. -/
def legalWords (w : Nat) : Bool := !badOpcode w && operandsOk w

/-- A raw instruction holds exactly the bits of its length. -/
def rawWf (r : Raw) : Bool :=
  decide (r.bits.toNat % 4 = r.l.toNat) && decide (r.bits.toNat < 2 ^ (32 * lengthWords r.l.toNat))

/-- A raw instruction kept from its words. -/
def rawOf (w : Nat) : Raw :=
  { l := BitVec.ofNat 2 w, bits := BitVec.ofNat 160 (w % 2 ^ (32 * lengthWords (lOf w))) }

end Sys2Proof.Machine
end

