-- ==== Sys2Proof/WellFormed.lean ====
section
/-! DEFINITION. Which terms of `Instr` stand for words that the device accepts: the checks that the words alone decide
(R97, R100, R101, R106, R107). Happenings are always well formed. -/
namespace Sys2Proof

open Machine

/-- The literal form is a base form of length 2; the extended form is legal in its cell. -/
def longOk (op : Nat) (f : Long) : Bool :=
  match f with
  | .lit b _ => baseOk op 2 b
  | .ext e => extOk op e

/-- An instruction is well formed. -/
def Instr.wf : Instr → Bool
  | .coldStart _ => true
  | .warmStart _ => true
  | .imageLoad => true
  | .doorbell _ _ => true
  | .registerWrite _ _ => true
  | .partSet => true
  | .ctxSet => true
  | .queueCreate => true
  | .queueDestroy => true
  | .nearSet => true
  | .faultResp => true
  | .tlbInval => true
  | .ctxSuspend => true
  | .mailboxUnknown => true
  | .grid _ => true
  | .graph _ => true
  | .signal _ => true
  | .barrierAnd _ => true
  | .barrierAndComplete _ => true
  | .badpacket _ => true
  | .packetStart _ => true
  | .launchStart _ => true
  | .gridCompletion _ => true
  | .pendingLaunchDrain _ => true
  | .dieQueueStart _ => true
  | .abortKill _ => true
  | .crewDispatch _ => true
  | .wakeUp _ => true
  | .crewSwapIn _ => true
  | .stealRequest _ _ _ => true
  | .stealAnswer _ _ => true
  | .splitBoost _ => true
  | .priorityAgeing _ => true
  | .sleepExpiry _ => true
  | .watchdog _ => true
  | .deferredTrap _ => true
  | .restore _ => true
  | .laneSelfCheck _ _ => true
  | .bankCopyDone _ _ => true
  | .sliceRetirement _ _ => true
  | .sliceRemap _ => true
  | .pseudoChannelRetirement _ _ => true
  | .pcmapUpdate _ => true
  | .uncorrectableError _ => true
  | .neighbourRefresh _ _ => true
  | .accessAged _ _ => true
  | .pageWalk _ _ => true
  | .faultRingPoll _ => true
  | .loadDataReturn _ _ => true
  | .storeArrival _ => true
  | .writeBack _ _ _ => true
  | .copyComplete _ _ => true
  | .copyPark _ _ => true
  | .cancelEnd _ _ _ => true
  | .followOnIssue _ _ => true
  | .cpymParked _ _ => true
  | .drainComplete _ _ => true
  | .tileOpEnd _ _ => true
  | .nmvComplete _ _ => true
  | .handoffDelivery _ _ _ _ => true
  | .heldPathReady _ => true
  | .backPressurePublish _ => true
  | .phaseCounterAdvance _ _ => true
  | .waitmRecheck _ => true
  | .blackboxCopy => true
  | .throttleChange _ => true
  | .hostWrite _ _ => true
  | .hostRead _ _ => true
  | .peerWrite _ _ => true
  | .nop _ => true
  | .bra _ _ => true
  | .braLit _ x => decide (x.toNat % 4 = 0)
  | .brx e => extOk 0x02 e
  | .call _ _ => true
  | .callLit _ x => decide (x.toNat % 4 = 0)
  | .callx e => extOk 0x04 e
  | .ret _ => true
  | .exit _ => true
  | .loop e => extOk 0x07 e
  | .pand e => extOk 0x10 e
  | .por e => extOk 0x11 e
  | .pxor e => extOk 0x12 e
  | .pnot e => extOk 0x13 e
  | .pmov e => extOk 0x14 e
  | .voteAll e => extOk 0x15 e
  | .voteAny e => extOk 0x16 e
  | .voteBallot e => extOk 0x17 e
  | .shflIdx e => extOk 0x18 e
  | .shflUp e => extOk 0x19 e
  | .shflDown e => extOk 0x1A e
  | .shflXor e => extOk 0x1B e
  | .matchAny e => extOk 0x1C e
  | .matchAll e => extOk 0x1D e
  | .reds e => extOk 0x1E e
  | .scan e => extOk 0x1F e
  | .iadd b => baseOk 0x20 0 b
  | .iaddExt f => longOk 0x20 f
  | .isub b => baseOk 0x21 0 b
  | .isubExt f => longOk 0x21 f
  | .imul b => baseOk 0x22 0 b
  | .imulExt f => longOk 0x22 f
  | .imulh b => baseOk 0x23 0 b
  | .imulhExt f => longOk 0x23 f
  | .imad e => extOk 0x24 e
  | .idiv b => baseOk 0x25 0 b
  | .idivExt f => longOk 0x25 f
  | .irem b => baseOk 0x26 0 b
  | .iremExt f => longOk 0x26 f
  | .ineg b => baseOk 0x27 0 b
  | .inegExt e => extOk 0x27 e
  | .iabs b => baseOk 0x28 0 b
  | .iabsExt e => extOk 0x28 e
  | .imin b => baseOk 0x29 0 b
  | .iminExt f => longOk 0x29 f
  | .imax b => baseOk 0x2A 0 b
  | .imaxExt f => longOk 0x2A f
  | .iset e => extOk 0x2B e
  | .iaddc e => extOk 0x2C e
  | .sel e => extOk 0x2D e
  | .mov b => baseOk 0x2E 0 b
  | .movExt e => extOk 0x2E e
  | .movi b => baseOk 0x2F 0 b
  | .moviLit g d m _ => baseOk 0x2F 2 { g := g, d := d, a := 0, m := m }
  | .andW b => baseOk 0x30 0 b
  | .andExt f => longOk 0x30 f
  | .andn b => baseOk 0x31 0 b
  | .andnExt f => longOk 0x31 f
  | .orW b => baseOk 0x32 0 b
  | .orExt f => longOk 0x32 f
  | .xorW b => baseOk 0x33 0 b
  | .xorExt f => longOk 0x33 f
  | .notW b => baseOk 0x34 0 b
  | .notExt e => extOk 0x34 e
  | .shl b => baseOk 0x35 0 b
  | .shlExt f => longOk 0x35 f
  | .shr b => baseOk 0x36 0 b
  | .shrExt f => longOk 0x36 f
  | .sar b => baseOk 0x37 0 b
  | .sarExt f => longOk 0x37 f
  | .rol b => baseOk 0x38 0 b
  | .rolExt f => longOk 0x38 f
  | .clz b => baseOk 0x39 0 b
  | .clzExt e => extOk 0x39 e
  | .ctz b => baseOk 0x3A 0 b
  | .ctzExt e => extOk 0x3A e
  | .popc b => baseOk 0x3B 0 b
  | .popcExt e => extOk 0x3B e
  | .brev b => baseOk 0x3C 0 b
  | .brevExt e => extOk 0x3C e
  | .bfx e => extOk 0x3D e
  | .bfi e => extOk 0x3E e
  | .prmt e => extOk 0x3F e
  | .fadd b => baseOk 0x40 0 b
  | .faddExt f => longOk 0x40 f
  | .fsub b => baseOk 0x41 0 b
  | .fsubExt f => longOk 0x41 f
  | .fmul b => baseOk 0x42 0 b
  | .fmulExt f => longOk 0x42 f
  | .ffma e => extOk 0x43 e
  | .fdiv b => baseOk 0x44 0 b
  | .fdivExt f => longOk 0x44 f
  | .fsqrt b => baseOk 0x45 0 b
  | .fsqrtExt e => extOk 0x45 e
  | .frcp b => baseOk 0x46 0 b
  | .frcpExt e => extOk 0x46 e
  | .frsq b => baseOk 0x47 0 b
  | .frsqExt e => extOk 0x47 e
  | .fexp2 b => baseOk 0x48 0 b
  | .fexp2Ext e => extOk 0x48 e
  | .flog2 b => baseOk 0x49 0 b
  | .flog2Ext e => extOk 0x49 e
  | .fsin b => baseOk 0x4A 0 b
  | .fsinExt e => extOk 0x4A e
  | .fcos b => baseOk 0x4B 0 b
  | .fcosExt e => extOk 0x4B e
  | .fmin b => baseOk 0x4C 0 b
  | .fminExt f => longOk 0x4C f
  | .fmax b => baseOk 0x4D 0 b
  | .fmaxExt f => longOk 0x4D f
  | .fset e => extOk 0x4E e
  | .fclass e => extOk 0x4F e
  | .fabs b => baseOk 0x50 0 b
  | .fabsExt e => extOk 0x50 e
  | .fneg b => baseOk 0x51 0 b
  | .fnegExt e => extOk 0x51 e
  | .frnd e => extOk 0x52 e
  | .fscale e => extOk 0x53 e
  | .fdot2 e => extOk 0x54 e
  | .fcvt e => extOk 0x55 e
  | .cvt e => extOk 0x56 e
  | .hput e => extOk 0x60 e
  | .hseal e => extOk 0x61 e
  | .hgen e => extOk 0x62 e
  | .hstat e => extOk 0x63 e
  | .ldG b => baseOk 0x70 0 b
  | .ldGExt f => longOk 0x70 f
  | .ldL b => baseOk 0x71 0 b
  | .ldLExt f => longOk 0x71 f
  | .ldP b => baseOk 0x72 0 b
  | .ldPExt f => longOk 0x72 f
  | .ldK b => baseOk 0x73 0 b
  | .ldKExt f => longOk 0x73 f
  | .ldAcq e => extOk 0x74 e
  | .stG b => baseOk 0x75 0 b
  | .stGExt f => longOk 0x75 f
  | .stL b => baseOk 0x76 0 b
  | .stLExt f => longOk 0x76 f
  | .stP b => baseOk 0x77 0 b
  | .stPExt f => longOk 0x77 f
  | .stRel e => extOk 0x78 e
  | .atom e => extOk 0x79 e
  | .atomRet e => extOk 0x7A e
  | .cas e => extOk 0x7B e
  | .red e => extOk 0x7C e
  | .prf e => extOk 0x7D e
  | .lea e => extOk 0x7E e
  | .pfence e => extOk 0x7F e
  | .vdef e => extOk 0x80 e
  | .vset e => extOk 0x81 e
  | .vdrop e => extOk 0x82 e
  | .vret e => extOk 0x83 e
  | .vacq e => extOk 0x84 e
  | .vmeet e => extOk 0x85 e
  | .vqry e => extOk 0x86 e
  | .vaddr e => extOk 0x87 e
  | .ldv e => extOk 0x88 e
  | .stv e => extOk 0x89 e
  | .cpy e => extOk 0x90 e
  | .cpym e => extOk 0x91 e
  | .cdrain e => extOk 0x92 e
  | .cwaitAll e => extOk 0x93 e
  | .cwaitAny e => extOk 0x94 e
  | .cfind e => extOk 0x95 e
  | .ctestAll e => extOk 0x96 e
  | .ctestAny e => extOk 0x97 e
  | .ckill e => extOk 0x98 e
  | .mma e => extOk 0xA0 e
  | .mzero e => extOk 0xA1 e
  | .mlda e => extOk 0xA2 e
  | .msta e => extOk 0xA3 e
  | .mtrn e => extOk 0xA4 e
  | .mperm e => extOk 0xA5 e
  | .mred e => extOk 0xA6 e
  | .nmv e => extOk 0xA7 e
  | .bar e => extOk 0xB0 e
  | .barc e => extOk 0xB1 e
  | .waitm e => extOk 0xB2 e
  | .phase e => extOk 0xB3 e
  | .phwait e => extOk 0xB4 e
  | .launch e => extOk 0xB5 e
  | .launchTry e => extOk 0xB6 e
  | .lstat e => extOk 0xB7 e
  | .yield _ => true
  | .sleep e => extOk 0xB9 e
  | .prio e => extOk 0xBA e
  | .hops e => extOk 0xBB e
  | .csrr e => extOk 0xC0 e
  | .csrw e => extOk 0xC1 e
  | .trap e => extOk 0xC2 e
  | .trapret e => extOk 0xC3 e
  | .bkpt _ => true
  | .rplq e => extOk 0xC5 e
  | .rplw e => extOk 0xC6 e
  | .wdog e => extOk 0xC7 e
  | .tlbi e => extOk 0xC8 e
  | .icinv e => extOk 0xC9 e
  | .iaddX2 e => extOk 0xD0 e
  | .isubX2 e => extOk 0xD1 e
  | .imulX2 e => extOk 0xD2 e
  | .imadX2 e => extOk 0xD3 e
  | .iminX2 e => extOk 0xD4 e
  | .imaxX2 e => extOk 0xD5 e
  | .iabsX2 e => extOk 0xD6 e
  | .inegX2 e => extOk 0xD7 e
  | .shlX2 e => extOk 0xD8 e
  | .shrX2 e => extOk 0xD9 e
  | .sarX2 e => extOk 0xDA e
  | .iaddX4 e => extOk 0xDB e
  | .isubX4 e => extOk 0xDC e
  | .iminX4 e => extOk 0xDD e
  | .imaxX4 e => extOk 0xDE e
  | .iabsX4 e => extOk 0xDF e
  | .faddX2 e => extOk 0xE0 e
  | .fsubX2 e => extOk 0xE1 e
  | .fmulX2 e => extOk 0xE2 e
  | .ffmaX2 e => extOk 0xE3 e
  | .fminX2 e => extOk 0xE4 e
  | .fmaxX2 e => extOk 0xE5 e
  | .fabsX2 e => extOk 0xE6 e
  | .fnegX2 e => extOk 0xE7 e
  | .frndX2 e => extOk 0xE8 e
  | .vxr e => extOk 0xE9 e
  | .vxw e => extOk 0xEA e
  | .udf _ _ => true
  | .udfExt r => rawWf r && decide (r.l ≠ 0) && decide (opOf r.bits.toNat = 0xFF)
  | .reservedCell r => rawWf r && decide (opOf r.bits.toNat ≠ 0xFF) && !(legalWords r.bits.toNat)
  | .correctedError _ _ => true
  | .hostAtomicCas _ _ _ _ => true
  | .peerRead _ _ => true
  | .peerBankOperation _ _ _ _ => true
  | .debuggerHalt _ _ => true
  | .stoendPortLoss _ => true

end Sys2Proof
end

