-- ==== Sys2Proof/Decode.lean ====
section
/-! DEFINITION. The decoder, total on any bytes, and the encoder (R88 to R107). Words that are no legal instruction
become RESERVED_CELL with their words kept: it issues and traps by name (R106). Fewer bytes than the length field asks for
decode to nothing. -/
namespace Sys2Proof

open Machine

/-- The instruction of a cell in base form, L = 0 (R95, R107). -/
def baseInstr (op : Nat) (b : Base) : Option Instr :=
  match op with
  | 0x20 => some (.iadd b)
  | 0x21 => some (.isub b)
  | 0x22 => some (.imul b)
  | 0x23 => some (.imulh b)
  | 0x25 => some (.idiv b)
  | 0x26 => some (.irem b)
  | 0x27 => some (.ineg b)
  | 0x28 => some (.iabs b)
  | 0x29 => some (.imin b)
  | 0x2A => some (.imax b)
  | 0x2E => some (.mov b)
  | 0x2F => some (.movi b)
  | 0x30 => some (.andW b)
  | 0x31 => some (.andn b)
  | 0x32 => some (.orW b)
  | 0x33 => some (.xorW b)
  | 0x34 => some (.notW b)
  | 0x35 => some (.shl b)
  | 0x36 => some (.shr b)
  | 0x37 => some (.sar b)
  | 0x38 => some (.rol b)
  | 0x39 => some (.clz b)
  | 0x3A => some (.ctz b)
  | 0x3B => some (.popc b)
  | 0x3C => some (.brev b)
  | 0x40 => some (.fadd b)
  | 0x41 => some (.fsub b)
  | 0x42 => some (.fmul b)
  | 0x44 => some (.fdiv b)
  | 0x45 => some (.fsqrt b)
  | 0x46 => some (.frcp b)
  | 0x47 => some (.frsq b)
  | 0x48 => some (.fexp2 b)
  | 0x49 => some (.flog2 b)
  | 0x4A => some (.fsin b)
  | 0x4B => some (.fcos b)
  | 0x4C => some (.fmin b)
  | 0x4D => some (.fmax b)
  | 0x50 => some (.fabs b)
  | 0x51 => some (.fneg b)
  | 0x70 => some (.ldG b)
  | 0x71 => some (.ldL b)
  | 0x72 => some (.ldP b)
  | 0x73 => some (.ldK b)
  | 0x75 => some (.stG b)
  | 0x76 => some (.stL b)
  | 0x77 => some (.stP b)
  | _ => none

/-- The instruction of a cell in base form with literal, L = 2 (R95, R107). -/
def litInstr (op : Nat) (b : Base) (x : DWord) : Option Instr :=
  match op with
  | 0x20 => some (.iaddExt (.lit b x))
  | 0x21 => some (.isubExt (.lit b x))
  | 0x22 => some (.imulExt (.lit b x))
  | 0x23 => some (.imulhExt (.lit b x))
  | 0x25 => some (.idivExt (.lit b x))
  | 0x26 => some (.iremExt (.lit b x))
  | 0x29 => some (.iminExt (.lit b x))
  | 0x2A => some (.imaxExt (.lit b x))
  | 0x30 => some (.andExt (.lit b x))
  | 0x31 => some (.andnExt (.lit b x))
  | 0x32 => some (.orExt (.lit b x))
  | 0x33 => some (.xorExt (.lit b x))
  | 0x35 => some (.shlExt (.lit b x))
  | 0x36 => some (.shrExt (.lit b x))
  | 0x37 => some (.sarExt (.lit b x))
  | 0x38 => some (.rolExt (.lit b x))
  | 0x40 => some (.faddExt (.lit b x))
  | 0x41 => some (.fsubExt (.lit b x))
  | 0x42 => some (.fmulExt (.lit b x))
  | 0x44 => some (.fdivExt (.lit b x))
  | 0x4C => some (.fminExt (.lit b x))
  | 0x4D => some (.fmaxExt (.lit b x))
  | 0x70 => some (.ldGExt (.lit b x))
  | 0x71 => some (.ldLExt (.lit b x))
  | 0x72 => some (.ldPExt (.lit b x))
  | 0x73 => some (.ldKExt (.lit b x))
  | 0x75 => some (.stGExt (.lit b x))
  | 0x76 => some (.stLExt (.lit b x))
  | 0x77 => some (.stPExt (.lit b x))
  | _ => none

/-- The instruction of a cell in extended form, cells 0x00 to 0x3F (R107). -/
def extInstr0 (op : Nat) (e : Ext) : Option Instr :=
  match op with
  | 0x02 => some (.brx e)
  | 0x04 => some (.callx e)
  | 0x07 => some (.loop e)
  | 0x10 => some (.pand e)
  | 0x11 => some (.por e)
  | 0x12 => some (.pxor e)
  | 0x13 => some (.pnot e)
  | 0x14 => some (.pmov e)
  | 0x15 => some (.voteAll e)
  | 0x16 => some (.voteAny e)
  | 0x17 => some (.voteBallot e)
  | 0x18 => some (.shflIdx e)
  | 0x19 => some (.shflUp e)
  | 0x1A => some (.shflDown e)
  | 0x1B => some (.shflXor e)
  | 0x1C => some (.matchAny e)
  | 0x1D => some (.matchAll e)
  | 0x1E => some (.reds e)
  | 0x1F => some (.scan e)
  | 0x20 => some (.iaddExt (.ext e))
  | 0x21 => some (.isubExt (.ext e))
  | 0x22 => some (.imulExt (.ext e))
  | 0x23 => some (.imulhExt (.ext e))
  | 0x24 => some (.imad e)
  | 0x25 => some (.idivExt (.ext e))
  | 0x26 => some (.iremExt (.ext e))
  | 0x27 => some (.inegExt e)
  | 0x28 => some (.iabsExt e)
  | 0x29 => some (.iminExt (.ext e))
  | 0x2A => some (.imaxExt (.ext e))
  | 0x2B => some (.iset e)
  | 0x2C => some (.iaddc e)
  | 0x2D => some (.sel e)
  | 0x2E => some (.movExt e)
  | 0x30 => some (.andExt (.ext e))
  | 0x31 => some (.andnExt (.ext e))
  | 0x32 => some (.orExt (.ext e))
  | 0x33 => some (.xorExt (.ext e))
  | 0x34 => some (.notExt e)
  | 0x35 => some (.shlExt (.ext e))
  | 0x36 => some (.shrExt (.ext e))
  | 0x37 => some (.sarExt (.ext e))
  | 0x38 => some (.rolExt (.ext e))
  | 0x39 => some (.clzExt e)
  | 0x3A => some (.ctzExt e)
  | 0x3B => some (.popcExt e)
  | 0x3C => some (.brevExt e)
  | 0x3D => some (.bfx e)
  | 0x3E => some (.bfi e)
  | 0x3F => some (.prmt e)
  | _ => none

/-- The instruction of a cell in extended form, cells 0x40 to 0x7F (R107). -/
def extInstr1 (op : Nat) (e : Ext) : Option Instr :=
  match op with
  | 0x40 => some (.faddExt (.ext e))
  | 0x41 => some (.fsubExt (.ext e))
  | 0x42 => some (.fmulExt (.ext e))
  | 0x43 => some (.ffma e)
  | 0x44 => some (.fdivExt (.ext e))
  | 0x45 => some (.fsqrtExt e)
  | 0x46 => some (.frcpExt e)
  | 0x47 => some (.frsqExt e)
  | 0x48 => some (.fexp2Ext e)
  | 0x49 => some (.flog2Ext e)
  | 0x4A => some (.fsinExt e)
  | 0x4B => some (.fcosExt e)
  | 0x4C => some (.fminExt (.ext e))
  | 0x4D => some (.fmaxExt (.ext e))
  | 0x4E => some (.fset e)
  | 0x4F => some (.fclass e)
  | 0x50 => some (.fabsExt e)
  | 0x51 => some (.fnegExt e)
  | 0x52 => some (.frnd e)
  | 0x53 => some (.fscale e)
  | 0x54 => some (.fdot2 e)
  | 0x55 => some (.fcvt e)
  | 0x56 => some (.cvt e)
  | 0x60 => some (.hput e)
  | 0x61 => some (.hseal e)
  | 0x62 => some (.hgen e)
  | 0x63 => some (.hstat e)
  | 0x70 => some (.ldGExt (.ext e))
  | 0x71 => some (.ldLExt (.ext e))
  | 0x72 => some (.ldPExt (.ext e))
  | 0x73 => some (.ldKExt (.ext e))
  | 0x74 => some (.ldAcq e)
  | 0x75 => some (.stGExt (.ext e))
  | 0x76 => some (.stLExt (.ext e))
  | 0x77 => some (.stPExt (.ext e))
  | 0x78 => some (.stRel e)
  | 0x79 => some (.atom e)
  | 0x7A => some (.atomRet e)
  | 0x7B => some (.cas e)
  | 0x7C => some (.red e)
  | 0x7D => some (.prf e)
  | 0x7E => some (.lea e)
  | 0x7F => some (.pfence e)
  | _ => none

/-- The instruction of a cell in extended form, cells 0x80 to 0xFF (R107). -/
def extInstr2 (op : Nat) (e : Ext) : Option Instr :=
  match op with
  | 0x80 => some (.vdef e)
  | 0x81 => some (.vset e)
  | 0x82 => some (.vdrop e)
  | 0x83 => some (.vret e)
  | 0x84 => some (.vacq e)
  | 0x85 => some (.vmeet e)
  | 0x86 => some (.vqry e)
  | 0x87 => some (.vaddr e)
  | 0x88 => some (.ldv e)
  | 0x89 => some (.stv e)
  | 0x90 => some (.cpy e)
  | 0x91 => some (.cpym e)
  | 0x92 => some (.cdrain e)
  | 0x93 => some (.cwaitAll e)
  | 0x94 => some (.cwaitAny e)
  | 0x95 => some (.cfind e)
  | 0x96 => some (.ctestAll e)
  | 0x97 => some (.ctestAny e)
  | 0x98 => some (.ckill e)
  | 0xA0 => some (.mma e)
  | 0xA1 => some (.mzero e)
  | 0xA2 => some (.mlda e)
  | 0xA3 => some (.msta e)
  | 0xA4 => some (.mtrn e)
  | 0xA5 => some (.mperm e)
  | 0xA6 => some (.mred e)
  | 0xA7 => some (.nmv e)
  | 0xB0 => some (.bar e)
  | 0xB1 => some (.barc e)
  | 0xB2 => some (.waitm e)
  | 0xB3 => some (.phase e)
  | 0xB4 => some (.phwait e)
  | 0xB5 => some (.launch e)
  | 0xB6 => some (.launchTry e)
  | 0xB7 => some (.lstat e)
  | 0xB9 => some (.sleep e)
  | 0xBA => some (.prio e)
  | 0xBB => some (.hops e)
  | 0xC0 => some (.csrr e)
  | 0xC1 => some (.csrw e)
  | 0xC2 => some (.trap e)
  | 0xC3 => some (.trapret e)
  | 0xC5 => some (.rplq e)
  | 0xC6 => some (.rplw e)
  | 0xC7 => some (.wdog e)
  | 0xC8 => some (.tlbi e)
  | 0xC9 => some (.icinv e)
  | 0xD0 => some (.iaddX2 e)
  | 0xD1 => some (.isubX2 e)
  | 0xD2 => some (.imulX2 e)
  | 0xD3 => some (.imadX2 e)
  | 0xD4 => some (.iminX2 e)
  | 0xD5 => some (.imaxX2 e)
  | 0xD6 => some (.iabsX2 e)
  | 0xD7 => some (.inegX2 e)
  | 0xD8 => some (.shlX2 e)
  | 0xD9 => some (.shrX2 e)
  | 0xDA => some (.sarX2 e)
  | 0xDB => some (.iaddX4 e)
  | 0xDC => some (.isubX4 e)
  | 0xDD => some (.iminX4 e)
  | 0xDE => some (.imaxX4 e)
  | 0xDF => some (.iabsX4 e)
  | 0xE0 => some (.faddX2 e)
  | 0xE1 => some (.fsubX2 e)
  | 0xE2 => some (.fmulX2 e)
  | 0xE3 => some (.ffmaX2 e)
  | 0xE4 => some (.fminX2 e)
  | 0xE5 => some (.fmaxX2 e)
  | 0xE6 => some (.fabsX2 e)
  | 0xE7 => some (.fnegX2 e)
  | 0xE8 => some (.frndX2 e)
  | 0xE9 => some (.vxr e)
  | 0xEA => some (.vxw e)
  | _ => none

/-- The instruction of a cell in extended form, L = 1 or 3 (R107). -/
def extInstr (op : Nat) (e : Ext) : Option Instr :=
  if op < 0x40 then extInstr0 op e else if op < 0x80 then extInstr1 op e else extInstr2 op e

/-- The instruction of a plain cell. -/
def plainInstr (op : Nat) (g : Guard) : Option Instr :=
  match op with
  | 0x00 => some (.nop g)
  | 0x05 => some (.ret g)
  | 0x06 => some (.exit g)
  | 0xB8 => some (.yield g)
  | 0xC4 => some (.bkpt g)
  | _ => none

/-- The instruction of legal words. -/
def legalInstr (w : Nat) : Option Instr :=
  let op := opOf w
  match lOf w with
  | 0 =>
    if isPlainCell op then plainInstr op (guardOf w)
    else if op = 0x01 then some (.bra (guardOf w) (offOf w))
    else if op = 0x03 then some (.call (guardOf w) (offOf w))
    else baseInstr op (baseOf w)
  | 2 =>
    if op = 0x01 then some (.braLit (guardOf w) (lit2Of w))
    else if op = 0x03 then some (.callLit (guardOf w) (lit2Of w))
    else if op = 0x2F then some (.moviLit (guardOf w) (baseOf w).d (baseOf w).m (lit2Of w))
    else litInstr op (baseOf w) (lit2Of w)
  | _ =>
    match extOf w with
    | some e => extInstr op e
    | none => none

/-- The instruction whose words form the number w, first word lowest. -/
def decodeNat (w : Nat) : Instr :=
  if opOf w = 0xFF then
    if lOf w = 0 then .udf (guardOf w) (offOf w) else .udfExt (rawOf w)
  else if legalWords w then (legalInstr w).getD (.reservedCell (rawOf w)) else .reservedCell (rawOf w)

/-- Bytes of an instruction from its first byte (R89). -/
def decodeLength (first : Byte) : Nat := 4 * lengthWords (first.toNat % 4)

/-- One instruction from the front of a list of bytes, little-endian (R88, R89), with the bytes after it. -/
def decode (bs : List Byte) : Option (Instr × List Byte) :=
  match bs with
  | [] => none
  | b :: _ =>
    let n := decodeLength b
    if bs.length < n then none else some (decodeNat (fromBytes (bs.take n)), bs.drop n)

/-- The instruction that the decoder reads from the bits w of a table row, the bits above nbits zero. -/
def decodeTableWord (nbits w : Nat) : Option Instr :=
  (decode (toBytes 20 (w % 2 ^ nbits))).map (·.1)

/-! ## The encoder -/

/-- The code of an operand spec (R99). -/
def opdCode (o : Opd) : Nat :=
  match o with
  | .v n => n.toNat
  | .s n => 256 + n.toNat
  | .p n => 256 + 0x20 + n.toNat
  | .w n => 256 + 0x28 + n.toNat
  | .t n => 256 + 0x30 + n.toNat
  | .h slot dist => 512 + slot.toNat + 8 * dist.toNat
  | .imm b => 768 + b.toNat
  | .lit => 768 + 0x80

/-- The code of a scope (R104). -/
def scopeCode (s : Scope) : Nat :=
  match s with
  | .none => 0 | .crew => 1 | .cohort => 2 | .grid => 3 | .sys => 4

/-- L, OP and the guard. -/
def packHead (l op : Nat) (g : Guard) : Nat :=
  l + 4 * op + 2 ^ 10 * g.reg.toNat + (if g.neg then 2 ^ 13 else 0)

/-- A base word of the plain or branch shape, L = 0. -/
def packPlain (op : Nat) (g : Guard) (off : Nat) : Nat := packHead 0 op g + 2 ^ 14 * off

/-- A branch with literal, L = 2. -/
def packLit (op : Nat) (g : Guard) (x : DWord) : Nat := packHead 2 op g + 2 ^ 32 * x.toNat

/-- A base word (R93). -/
def packBase (op l : Nat) (b : Base) : Nat :=
  packHead l op b.g + 2 ^ 14 * b.d.toNat + 2 ^ 22 * b.a.toNat + 2 ^ 30 * b.m.toNat

/-- The extended form (R98): its words and their number. -/
def packExt (op : Nat) (e : Ext) : Nat × Nat :=
  let x :=
    packHead (if e.lit.isSome then 3 else 1) op e.g + 2 ^ 14 * opdCode e.d + 2 ^ 24 * opdCode e.a +
      2 ^ 34 * opdCode e.b + 2 ^ 44 * opdCode e.c + 2 ^ 54 * e.ty.code + 2 ^ 58 * e.rnd.toNat +
      2 ^ 61 * scopeCode e.scope + 2 ^ 64 * e.mod.toNat +
      2 ^ 68 * (match e.view with | none => 0 | some n => 8 + n.toNat) + 2 ^ 72 * e.aux.toNat + 2 ^ 80 * e.imm.toNat
  match e.lit with
  | none => (3, x)
  | some y => (5, x + 2 ^ 96 * y.toNat)

/-- A form with literal or an extended form. -/
def packLong (op : Nat) (f : Long) : Nat × Nat :=
  match f with
  | .lit b x => (3, packBase op 2 b + 2 ^ 32 * x.toNat)
  | .ext e => packExt op e

/-- The words of a raw instruction. -/
def rawWords (r : Raw) : Nat × Nat := (lengthWords r.l.toNat, r.bits.toNat)

/-- The words of an instruction: how many, and the number that they form, first word lowest. A happening has none. -/
def encode (i : Instr) : Option (Nat × Nat) :=
  match i with
  | .coldStart _ => none
  | .warmStart _ => none
  | .imageLoad => none
  | .doorbell _ _ => none
  | .registerWrite _ _ => none
  | .partSet => none
  | .ctxSet => none
  | .queueCreate => none
  | .queueDestroy => none
  | .nearSet => none
  | .faultResp => none
  | .tlbInval => none
  | .ctxSuspend => none
  | .mailboxUnknown => none
  | .grid _ => none
  | .graph _ => none
  | .signal _ => none
  | .barrierAnd _ => none
  | .barrierAndComplete _ => none
  | .badpacket _ => none
  | .packetStart _ => none
  | .launchStart _ => none
  | .gridCompletion _ => none
  | .pendingLaunchDrain _ => none
  | .dieQueueStart _ => none
  | .abortKill _ => none
  | .crewDispatch _ => none
  | .wakeUp _ => none
  | .crewSwapIn _ => none
  | .stealRequest _ _ _ => none
  | .stealAnswer _ _ => none
  | .splitBoost _ => none
  | .priorityAgeing _ => none
  | .sleepExpiry _ => none
  | .watchdog _ => none
  | .deferredTrap _ => none
  | .restore _ => none
  | .laneSelfCheck _ _ => none
  | .bankCopyDone _ _ => none
  | .sliceRetirement _ _ => none
  | .sliceRemap _ => none
  | .pseudoChannelRetirement _ _ => none
  | .pcmapUpdate _ => none
  | .uncorrectableError _ => none
  | .neighbourRefresh _ _ => none
  | .accessAged _ _ => none
  | .pageWalk _ _ => none
  | .faultRingPoll _ => none
  | .loadDataReturn _ _ => none
  | .storeArrival _ => none
  | .writeBack _ _ _ => none
  | .copyComplete _ _ => none
  | .copyPark _ _ => none
  | .cancelEnd _ _ _ => none
  | .followOnIssue _ _ => none
  | .cpymParked _ _ => none
  | .drainComplete _ _ => none
  | .tileOpEnd _ _ => none
  | .nmvComplete _ _ => none
  | .handoffDelivery _ _ _ _ => none
  | .heldPathReady _ => none
  | .backPressurePublish _ => none
  | .phaseCounterAdvance _ _ => none
  | .waitmRecheck _ => none
  | .blackboxCopy => none
  | .throttleChange _ => none
  | .hostWrite _ _ => none
  | .hostRead _ _ => none
  | .peerWrite _ _ => none
  | .nop g => some (1, packPlain 0x00 g 0)
  | .bra g off => some (1, packPlain 0x01 g off.toNat)
  | .braLit g x => some (3, packLit 0x01 g x)
  | .brx e => some (packExt 0x02 e)
  | .call g off => some (1, packPlain 0x03 g off.toNat)
  | .callLit g x => some (3, packLit 0x03 g x)
  | .callx e => some (packExt 0x04 e)
  | .ret g => some (1, packPlain 0x05 g 0)
  | .exit g => some (1, packPlain 0x06 g 0)
  | .loop e => some (packExt 0x07 e)
  | .pand e => some (packExt 0x10 e)
  | .por e => some (packExt 0x11 e)
  | .pxor e => some (packExt 0x12 e)
  | .pnot e => some (packExt 0x13 e)
  | .pmov e => some (packExt 0x14 e)
  | .voteAll e => some (packExt 0x15 e)
  | .voteAny e => some (packExt 0x16 e)
  | .voteBallot e => some (packExt 0x17 e)
  | .shflIdx e => some (packExt 0x18 e)
  | .shflUp e => some (packExt 0x19 e)
  | .shflDown e => some (packExt 0x1A e)
  | .shflXor e => some (packExt 0x1B e)
  | .matchAny e => some (packExt 0x1C e)
  | .matchAll e => some (packExt 0x1D e)
  | .reds e => some (packExt 0x1E e)
  | .scan e => some (packExt 0x1F e)
  | .iadd b => some (1, packBase 0x20 0 b)
  | .iaddExt f => some (packLong 0x20 f)
  | .isub b => some (1, packBase 0x21 0 b)
  | .isubExt f => some (packLong 0x21 f)
  | .imul b => some (1, packBase 0x22 0 b)
  | .imulExt f => some (packLong 0x22 f)
  | .imulh b => some (1, packBase 0x23 0 b)
  | .imulhExt f => some (packLong 0x23 f)
  | .imad e => some (packExt 0x24 e)
  | .idiv b => some (1, packBase 0x25 0 b)
  | .idivExt f => some (packLong 0x25 f)
  | .irem b => some (1, packBase 0x26 0 b)
  | .iremExt f => some (packLong 0x26 f)
  | .ineg b => some (1, packBase 0x27 0 b)
  | .inegExt e => some (packExt 0x27 e)
  | .iabs b => some (1, packBase 0x28 0 b)
  | .iabsExt e => some (packExt 0x28 e)
  | .imin b => some (1, packBase 0x29 0 b)
  | .iminExt f => some (packLong 0x29 f)
  | .imax b => some (1, packBase 0x2A 0 b)
  | .imaxExt f => some (packLong 0x2A f)
  | .iset e => some (packExt 0x2B e)
  | .iaddc e => some (packExt 0x2C e)
  | .sel e => some (packExt 0x2D e)
  | .mov b => some (1, packBase 0x2E 0 b)
  | .movExt e => some (packExt 0x2E e)
  | .movi b => some (1, packBase 0x2F 0 b)
  | .moviLit g d m x => some (3, packBase 0x2F 2 { g := g, d := d, a := 0, m := m } + x.toNat * 2 ^ 32)
  | .andW b => some (1, packBase 0x30 0 b)
  | .andExt f => some (packLong 0x30 f)
  | .andn b => some (1, packBase 0x31 0 b)
  | .andnExt f => some (packLong 0x31 f)
  | .orW b => some (1, packBase 0x32 0 b)
  | .orExt f => some (packLong 0x32 f)
  | .xorW b => some (1, packBase 0x33 0 b)
  | .xorExt f => some (packLong 0x33 f)
  | .notW b => some (1, packBase 0x34 0 b)
  | .notExt e => some (packExt 0x34 e)
  | .shl b => some (1, packBase 0x35 0 b)
  | .shlExt f => some (packLong 0x35 f)
  | .shr b => some (1, packBase 0x36 0 b)
  | .shrExt f => some (packLong 0x36 f)
  | .sar b => some (1, packBase 0x37 0 b)
  | .sarExt f => some (packLong 0x37 f)
  | .rol b => some (1, packBase 0x38 0 b)
  | .rolExt f => some (packLong 0x38 f)
  | .clz b => some (1, packBase 0x39 0 b)
  | .clzExt e => some (packExt 0x39 e)
  | .ctz b => some (1, packBase 0x3A 0 b)
  | .ctzExt e => some (packExt 0x3A e)
  | .popc b => some (1, packBase 0x3B 0 b)
  | .popcExt e => some (packExt 0x3B e)
  | .brev b => some (1, packBase 0x3C 0 b)
  | .brevExt e => some (packExt 0x3C e)
  | .bfx e => some (packExt 0x3D e)
  | .bfi e => some (packExt 0x3E e)
  | .prmt e => some (packExt 0x3F e)
  | .fadd b => some (1, packBase 0x40 0 b)
  | .faddExt f => some (packLong 0x40 f)
  | .fsub b => some (1, packBase 0x41 0 b)
  | .fsubExt f => some (packLong 0x41 f)
  | .fmul b => some (1, packBase 0x42 0 b)
  | .fmulExt f => some (packLong 0x42 f)
  | .ffma e => some (packExt 0x43 e)
  | .fdiv b => some (1, packBase 0x44 0 b)
  | .fdivExt f => some (packLong 0x44 f)
  | .fsqrt b => some (1, packBase 0x45 0 b)
  | .fsqrtExt e => some (packExt 0x45 e)
  | .frcp b => some (1, packBase 0x46 0 b)
  | .frcpExt e => some (packExt 0x46 e)
  | .frsq b => some (1, packBase 0x47 0 b)
  | .frsqExt e => some (packExt 0x47 e)
  | .fexp2 b => some (1, packBase 0x48 0 b)
  | .fexp2Ext e => some (packExt 0x48 e)
  | .flog2 b => some (1, packBase 0x49 0 b)
  | .flog2Ext e => some (packExt 0x49 e)
  | .fsin b => some (1, packBase 0x4A 0 b)
  | .fsinExt e => some (packExt 0x4A e)
  | .fcos b => some (1, packBase 0x4B 0 b)
  | .fcosExt e => some (packExt 0x4B e)
  | .fmin b => some (1, packBase 0x4C 0 b)
  | .fminExt f => some (packLong 0x4C f)
  | .fmax b => some (1, packBase 0x4D 0 b)
  | .fmaxExt f => some (packLong 0x4D f)
  | .fset e => some (packExt 0x4E e)
  | .fclass e => some (packExt 0x4F e)
  | .fabs b => some (1, packBase 0x50 0 b)
  | .fabsExt e => some (packExt 0x50 e)
  | .fneg b => some (1, packBase 0x51 0 b)
  | .fnegExt e => some (packExt 0x51 e)
  | .frnd e => some (packExt 0x52 e)
  | .fscale e => some (packExt 0x53 e)
  | .fdot2 e => some (packExt 0x54 e)
  | .fcvt e => some (packExt 0x55 e)
  | .cvt e => some (packExt 0x56 e)
  | .hput e => some (packExt 0x60 e)
  | .hseal e => some (packExt 0x61 e)
  | .hgen e => some (packExt 0x62 e)
  | .hstat e => some (packExt 0x63 e)
  | .ldG b => some (1, packBase 0x70 0 b)
  | .ldGExt f => some (packLong 0x70 f)
  | .ldL b => some (1, packBase 0x71 0 b)
  | .ldLExt f => some (packLong 0x71 f)
  | .ldP b => some (1, packBase 0x72 0 b)
  | .ldPExt f => some (packLong 0x72 f)
  | .ldK b => some (1, packBase 0x73 0 b)
  | .ldKExt f => some (packLong 0x73 f)
  | .ldAcq e => some (packExt 0x74 e)
  | .stG b => some (1, packBase 0x75 0 b)
  | .stGExt f => some (packLong 0x75 f)
  | .stL b => some (1, packBase 0x76 0 b)
  | .stLExt f => some (packLong 0x76 f)
  | .stP b => some (1, packBase 0x77 0 b)
  | .stPExt f => some (packLong 0x77 f)
  | .stRel e => some (packExt 0x78 e)
  | .atom e => some (packExt 0x79 e)
  | .atomRet e => some (packExt 0x7A e)
  | .cas e => some (packExt 0x7B e)
  | .red e => some (packExt 0x7C e)
  | .prf e => some (packExt 0x7D e)
  | .lea e => some (packExt 0x7E e)
  | .pfence e => some (packExt 0x7F e)
  | .vdef e => some (packExt 0x80 e)
  | .vset e => some (packExt 0x81 e)
  | .vdrop e => some (packExt 0x82 e)
  | .vret e => some (packExt 0x83 e)
  | .vacq e => some (packExt 0x84 e)
  | .vmeet e => some (packExt 0x85 e)
  | .vqry e => some (packExt 0x86 e)
  | .vaddr e => some (packExt 0x87 e)
  | .ldv e => some (packExt 0x88 e)
  | .stv e => some (packExt 0x89 e)
  | .cpy e => some (packExt 0x90 e)
  | .cpym e => some (packExt 0x91 e)
  | .cdrain e => some (packExt 0x92 e)
  | .cwaitAll e => some (packExt 0x93 e)
  | .cwaitAny e => some (packExt 0x94 e)
  | .cfind e => some (packExt 0x95 e)
  | .ctestAll e => some (packExt 0x96 e)
  | .ctestAny e => some (packExt 0x97 e)
  | .ckill e => some (packExt 0x98 e)
  | .mma e => some (packExt 0xA0 e)
  | .mzero e => some (packExt 0xA1 e)
  | .mlda e => some (packExt 0xA2 e)
  | .msta e => some (packExt 0xA3 e)
  | .mtrn e => some (packExt 0xA4 e)
  | .mperm e => some (packExt 0xA5 e)
  | .mred e => some (packExt 0xA6 e)
  | .nmv e => some (packExt 0xA7 e)
  | .bar e => some (packExt 0xB0 e)
  | .barc e => some (packExt 0xB1 e)
  | .waitm e => some (packExt 0xB2 e)
  | .phase e => some (packExt 0xB3 e)
  | .phwait e => some (packExt 0xB4 e)
  | .launch e => some (packExt 0xB5 e)
  | .launchTry e => some (packExt 0xB6 e)
  | .lstat e => some (packExt 0xB7 e)
  | .yield g => some (1, packPlain 0xB8 g 0)
  | .sleep e => some (packExt 0xB9 e)
  | .prio e => some (packExt 0xBA e)
  | .hops e => some (packExt 0xBB e)
  | .csrr e => some (packExt 0xC0 e)
  | .csrw e => some (packExt 0xC1 e)
  | .trap e => some (packExt 0xC2 e)
  | .trapret e => some (packExt 0xC3 e)
  | .bkpt g => some (1, packPlain 0xC4 g 0)
  | .rplq e => some (packExt 0xC5 e)
  | .rplw e => some (packExt 0xC6 e)
  | .wdog e => some (packExt 0xC7 e)
  | .tlbi e => some (packExt 0xC8 e)
  | .icinv e => some (packExt 0xC9 e)
  | .iaddX2 e => some (packExt 0xD0 e)
  | .isubX2 e => some (packExt 0xD1 e)
  | .imulX2 e => some (packExt 0xD2 e)
  | .imadX2 e => some (packExt 0xD3 e)
  | .iminX2 e => some (packExt 0xD4 e)
  | .imaxX2 e => some (packExt 0xD5 e)
  | .iabsX2 e => some (packExt 0xD6 e)
  | .inegX2 e => some (packExt 0xD7 e)
  | .shlX2 e => some (packExt 0xD8 e)
  | .shrX2 e => some (packExt 0xD9 e)
  | .sarX2 e => some (packExt 0xDA e)
  | .iaddX4 e => some (packExt 0xDB e)
  | .isubX4 e => some (packExt 0xDC e)
  | .iminX4 e => some (packExt 0xDD e)
  | .imaxX4 e => some (packExt 0xDE e)
  | .iabsX4 e => some (packExt 0xDF e)
  | .faddX2 e => some (packExt 0xE0 e)
  | .fsubX2 e => some (packExt 0xE1 e)
  | .fmulX2 e => some (packExt 0xE2 e)
  | .ffmaX2 e => some (packExt 0xE3 e)
  | .fminX2 e => some (packExt 0xE4 e)
  | .fmaxX2 e => some (packExt 0xE5 e)
  | .fabsX2 e => some (packExt 0xE6 e)
  | .fnegX2 e => some (packExt 0xE7 e)
  | .frndX2 e => some (packExt 0xE8 e)
  | .vxr e => some (packExt 0xE9 e)
  | .vxw e => some (packExt 0xEA e)
  | .udf g x => some (1, packPlain 0xFF g x.toNat)
  | .udfExt r => some (rawWords r)
  | .reservedCell r => some (rawWords r)
  | .correctedError _ _ => none
  | .hostAtomicCas _ _ _ _ => none
  | .peerRead _ _ => none
  | .peerBankOperation _ _ _ _ => none
  | .debuggerHalt _ _ => none
  | .stoendPortLoss _ => none

/-- The bytes of an instruction as memory holds them (R88). -/
def encodeBytes (i : Instr) : List Byte :=
  match encode i with
  | some (n, w) => toBytes (4 * n) w
  | none => []

end Sys2Proof
end

