-- ==== Sys2Proof/Machine/Num.lean ====
section
/-! DEFINITION. Number formats and exact arithmetic (R65 to R71, R76, R77, R80 to R82): every operation forms the
exact value as a ratio of natural numbers with a sign and rounds it once. -/
namespace Sys2Proof.Machine

/-- The four rounding modes of R68. -/
inductive Rm where
  | rn | rz | ru | rd
  deriving DecidableEq, Repr

/-- The sticky flags of R55 in the order of bits [3] to [8] of %fpmode: NV, DZ, OF, UF, NX, SAT. -/
abbrev Flags := BitVec 6

/-- NV, bit [3] of %fpmode (R55). -/
def flagNV : Flags := 1
/-- DZ, bit [4]. -/
def flagDZ : Flags := 2
/-- OF, bit [5]. -/
def flagOF : Flags := 4
/-- UF, bit [6]. -/
def flagUF : Flags := 8
/-- NX, bit [7]. -/
def flagNX : Flags := 16
/-- SAT, bit [8]. -/
def flagSAT : Flags := 32

/-- An exact value of a number format: `fin neg n d` is ±n/d (d > 0); a zero keeps its sign. -/
inductive Num where
  | nan (signalling : Bool)
  | inf (neg : Bool)
  | fin (neg : Bool) (n d : Nat)
  deriving DecidableEq, Repr

/-- A binary format: precision in bits with the leading one, least and largest exponent of a normal value (R67). -/
structure Fmt where
  p : Nat
  emin : Int
  emax : Int
  /-- width of the exponent field -/
  eb : Nat
  deriving DecidableEq, Repr

/-- FP32 (R67). -/
def fp32 : Fmt := { p := 24, emin := -126, emax := 127, eb := 8 }
/-- FP16 (R67). -/
def fp16 : Fmt := { p := 11, emin := -14, emax := 15, eb := 5 }
/-- BF16 (R67). -/
def bf16 : Fmt := { p := 8, emin := -126, emax := 127, eb := 8 }
/-- The exponent range and precision of A80 (R80). -/
def a80Fmt : Fmt := { p := 64, emin := -16382, emax := 16383, eb := 15 }

/-- Width of an IEEE format in bits. -/
def Fmt.width (f : Fmt) : Nat := f.p + f.eb

/-- The sign bit of an IEEE code. -/
def Fmt.sign (f : Fmt) (x : Nat) : Bool := x / 2 ^ (f.p + f.eb - 1) % 2 = 1

/-- `±m × 2^e` as an exact value. -/
def dyadic (neg : Bool) (m : Nat) (e : Int) : Num :=
  if 0 ≤ e then .fin neg (m * 2 ^ e.toNat) 1 else .fin neg m (2 ^ (-e).toNat)

/-- The canonical NaN (R67). -/
def Fmt.nan (f : Fmt) : Nat := (2 ^ f.eb - 1) * 2 ^ (f.p - 1) + 2 ^ (f.p - 2)

/-- ±∞. -/
def Fmt.inf (f : Fmt) (neg : Bool) : Nat := (2 ^ f.eb - 1) * 2 ^ (f.p - 1) + (if neg then 2 ^ (f.p + f.eb - 1) else 0)

/-- The largest finite value (R67). -/
def Fmt.max (f : Fmt) (neg : Bool) : Nat := Fmt.inf f neg - 1

/-- The value of an IEEE code (R67). -/
def Fmt.decode (f : Fmt) (x : Nat) : Num :=
  let neg := Fmt.sign f x
  let ex := x / 2 ^ (f.p - 1) % 2 ^ f.eb
  let fr := x % 2 ^ (f.p - 1)
  if ex = 2 ^ f.eb - 1 then
    if fr = 0 then .inf neg else .nan (fr / 2 ^ (f.p - 2) = 0)
  else if ex = 0 then dyadic neg fr (f.emin - (f.p - 1 : Nat))
  else dyadic neg (2 ^ (f.p - 1) + fr) (f.emin + (ex - 1 : Nat) - (f.p - 1 : Nat))

/-- A magnitude prepared for one rounding: `m × 2^e`, or, when it cannot be held so, a value whose lowest bit stands for
everything below it; then m has at least 72 bits, more than any format keeps. -/
structure Mag where
  m : Nat
  e : Int
  deriving DecidableEq, Repr

/-- The magnitude n/d. -/
def Mag.ofRatio (n d : Nat) : Mag :=
  if n % d = 0 then { m := n / d, e := 0 }
  else
    let k := (72 : Int) + Nat.log2 d - Nat.log2 n
    let q := if 0 ≤ k then n * 2 ^ k.toNat else n
    let d' := if 0 ≤ k then d else d * 2 ^ (-k).toNat
    { m := 2 * (q / d') + (if q % d' = 0 then 0 else 1), e := -k - 1 }

/-- Whether a magnitude that lies strictly between two steps is rounded away from zero; `odd`: the lower step is odd. -/
def roundsUp (r : Rm) (neg odd : Bool) (rem half : Nat) : Bool :=
  match r with
  | .rn => decide (half < rem) || (decide (rem = half) && odd)
  | .rz => false
  | .ru => !neg
  | .rd => neg

/-- `x` rounded to a multiple of 2^q, in units of 2^q, and whether that changed it. -/
def Mag.roundAt (r : Rm) (neg : Bool) (x : Mag) (q : Int) : Nat × Bool :=
  if q ≤ x.e then (x.m * 2 ^ (x.e - q).toNat, false)
  else
    let sh := (q - x.e).toNat
    let rem := x.m % 2 ^ sh
    let low := x.m / 2 ^ sh
    if rem = 0 then (low, false)
    else (low + (if roundsUp r neg (low % 2 = 1) rem (2 ^ (sh - 1)) then 1 else 0), true)

/-- A rounded finite result: significand of at most p bits, exponent of its unit, or overflow; and the flags. -/
structure Rounded where
  sig : Nat
  q : Int
  exceeds : Bool
  flags : Flags
  deriving DecidableEq, Repr

/-- One rounding into a binary format; tininess is detected after rounding (R68). -/
def Fmt.roundMag (f : Fmt) (r : Rm) (neg : Bool) (x : Mag) : Rounded :=
  if x.m = 0 then { sig := 0, q := f.emin - (f.p - 1 : Nat), exceeds := false, flags := 0 }
  else
    let e := x.e + Nat.log2 x.m
    let q := (if e < f.emin then f.emin else e) - (f.p - 1 : Nat)
    let y := Mag.roundAt r neg x q
    let free := Mag.roundAt r neg x (e - (f.p - 1 : Nat))
    let tiny := decide (e < f.emin) && !(decide (e = f.emin - 1) && decide (free.1 = 2 ^ f.p))
    let carry := decide (y.1 = 2 ^ f.p)
    let sig := if carry then y.1 / 2 else y.1
    let q' := if carry then q + 1 else q
    let exceeds := decide (2 ^ (f.p - 1) ≤ sig) && decide (f.emax < q' + (f.p - 1 : Nat))
    { sig := sig, q := q', exceeds := exceeds,
      flags := if exceeds then flagOF ||| flagNX
        else (if y.2 then flagNX else 0) ||| (if y.2 && tiny then flagUF else 0) }

/-- Whether an overflow gives ∞ in the mode (R68). -/
def overToInf (r : Rm) (neg : Bool) : Bool :=
  match r with
  | .rn => true
  | .rz => false
  | .ru => !neg
  | .rd => neg

/-- The IEEE code of a rounded result (R67, R68). -/
def Fmt.pack (f : Fmt) (r : Rm) (neg : Bool) (x : Rounded) : Nat :=
  if x.exceeds then (if overToInf r neg then Fmt.inf f neg else Fmt.max f neg)
  else
    (if neg then 2 ^ (f.p + f.eb - 1) else 0) +
      (if x.sig < 2 ^ (f.p - 1) then x.sig
       else (x.q + (f.p - 1 : Nat) - f.emin + 1).toNat * 2 ^ (f.p - 1) + (x.sig - 2 ^ (f.p - 1)))

/-- A magnitude into a format. -/
def Fmt.ofMag (f : Fmt) (r : Rm) (neg : Bool) (x : Mag) : Nat × Flags :=
  let y := Fmt.roundMag f r neg x
  (Fmt.pack f r neg y, y.flags)

/-- An exact value rounded once into a format (R67 to R69). A NaN gives the canonical NaN, with NV if signalling. -/
def Fmt.encode (f : Fmt) (r : Rm) (x : Num) : Nat × Flags :=
  match x with
  | .nan s => (Fmt.nan f, if s then flagNV else 0)
  | .inf neg => (Fmt.inf f neg, 0)
  | .fin neg n d => Fmt.ofMag f r neg (Mag.ofRatio n d)

/-! ## Exact operations -/

/-- A value is a signalling NaN. -/
def Num.isSig : Num → Bool
  | .nan s => s
  | _ => false

/-- A value is a NaN. -/
def Num.isNan : Num → Bool
  | .nan _ => true
  | _ => false

/-- A value is ±0. -/
def Num.isZero : Num → Bool
  | .fin _ 0 _ => true
  | _ => false

/-- A value's sign. -/
def Num.neg : Num → Bool
  | .nan _ => false
  | .inf s => s
  | .fin s _ _ => s

/-- The value with its sign changed. -/
def Num.negate : Num → Num
  | .nan s => .nan s
  | .inf s => .inf (!s)
  | .fin s n d => .fin (!s) n d

/-- The signed numerator. -/
def signed (neg : Bool) (n : Nat) : Int := if neg then -(n : Int) else n

/-- The value of an integer. -/
def Num.ofInt (i : Int) : Num := .fin (decide (i < 0)) i.natAbs 1

/-- The exact sum; the Bool says that the operation is invalid (∞ − ∞). Zero sums by R70. -/
def Num.add (r : Rm) (a b : Num) : Num × Bool :=
  match a, b with
  | .nan s, .nan t => (.nan (s || t), false)
  | .nan s, _ => (.nan s, false)
  | _, .nan s => (.nan s, false)
  | .inf s, .inf t => if s = t then (.inf s, false) else (.nan false, true)
  | .inf s, _ => (.inf s, false)
  | _, .inf s => (.inf s, false)
  | .fin s n d, .fin t m e =>
    let v := signed s n * (e : Int) + signed t m * (d : Int)
    if v = 0 then
      (.fin (if n = 0 ∧ m = 0 ∧ s = t then s else decide (r = .rd)) 0 1, false)
    else (.fin (decide (v < 0)) v.natAbs (d * e), false)

/-- The exact product; invalid for 0 × ∞. -/
def Num.mul (a b : Num) : Num × Bool :=
  match a, b with
  | .nan s, .nan t => (.nan (s || t), false)
  | .nan s, _ => (.nan s, false)
  | _, .nan s => (.nan s, false)
  | .inf s, .inf t => (.inf (s != t), false)
  | .inf s, .fin t n _ => if n = 0 then (.nan false, true) else (.inf (s != t), false)
  | .fin t n _, .inf s => if n = 0 then (.nan false, true) else (.inf (s != t), false)
  | .fin s n d, .fin t m e => (.fin (s != t) (n * m) (d * e), false)

/-- The exact quotient and its flag: NV for 0/0 and ∞/∞, DZ for finite/0 (R71). -/
def Num.div (a b : Num) : Num × Flags :=
  match a, b with
  | .nan s, .nan t => (.nan (s || t), 0)
  | .nan s, _ => (.nan s, 0)
  | _, .nan s => (.nan s, 0)
  | .inf _, .inf _ => (.nan false, flagNV)
  | .inf s, .fin t _ _ => (.inf (s != t), 0)
  | .fin s _ _, .inf t => (.fin (s != t) 0 1, 0)
  | .fin s n d, .fin t m e =>
    if m = 0 then if n = 0 then (.nan false, flagNV) else (.inf (s != t), flagDZ)
    else (.fin (s != t) (n * e) (d * m), 0)

/-- Comparison of two values that are no NaN. -/
def Num.cmp (a b : Num) : Ordering :=
  match a, b with
  | .inf s, .inf t => if s = t then .eq else if s then .lt else .gt
  | .inf s, _ => if s then .lt else .gt
  | _, .inf t => if t then .gt else .lt
  | .fin s n d, .fin t m e => compare (signed s n * (e : Int)) (signed t m * (d : Int))
  | _, _ => .eq

/-- A value rounded to an integer in the mode, and whether that changed it; magnitude only. -/
def roundInt (r : Rm) (neg : Bool) (n d : Nat) : Nat × Bool :=
  let q := n / d
  let rem := n % d
  if rem = 0 then (q, false)
  else (q + (if roundsUp r neg (q % 2 = 1) (2 * rem) d then 1 else 0), true)

/-- The integer square root by bits: the largest `a` built from `acc` with the bits below `k` whose square is ≤ n. -/
def isqrtBits (n : Nat) : Nat → Nat → Nat
  | 0, acc => acc
  | k + 1, acc =>
    let t := acc + 2 ^ k
    isqrtBits n k (if t * t ≤ n then t else acc)

/-- The integer square root. -/
def isqrt (n : Nat) : Nat := isqrtBits n (Nat.log2 n / 2 + 1) 0

/-- The magnitude √(n/d) (R71): exact, or with the lowest bit standing for the rest. -/
def Mag.sqrt (n d : Nat) : Mag :=
  let k := (80 : Int) + (Nat.log2 d - Nat.log2 n : Int) / 2
  let num := if 0 ≤ k then n * 2 ^ (2 * k.toNat) else n
  let den := if 0 ≤ k then d else d * 2 ^ (2 * (-k).toNat)
  let q := num / den
  let s := isqrt q
  { m := 2 * s + (if num % den = 0 ∧ s * s = q then 0 else 1), e := -k - 1 }

/-! ## The decimal-tapered formats -/

/-- 10^e in units of 10^−8, for e from −8 on. -/
def tenUnits (e : Int) : Nat := 10 ^ (e + 8).toNat

/-- The fields of a DT8 body (R74): decimal exponent and G = F × 2^(6 − m). None for zero and NaN. -/
def dt8Fields (body : Nat) : Option (Int × Nat) :=
  if 0x40 ≤ body then some (0, body % 64)
  else if 0x20 ≤ body then some (if body / 16 % 2 = 1 then 1 else -1, body % 16 * 4)
  else if 0x10 ≤ body then
    some ((match body / 4 % 4 with | 0 => -3 | 1 => -2 | 2 => 2 | _ => 3), body % 4 * 16)
  else if 0x08 ≤ body then some ((if body / 4 % 2 = 0 then (-7 : Int) else 4) + ((body % 4 : Nat) : Int), 0)
  else if 0x04 ≤ body then some (-8, body % 4 * 16)
  else if 0x02 ≤ body then some (8, body % 2 * 32)
  else none

/-- The fields of a DT6 body (R77). -/
def dt6Fields (body : Nat) : Option (Int × Nat) :=
  if 0x10 ≤ body then some (0, body % 16 * 4)
  else if 0x08 ≤ body then some (if body / 4 % 2 = 1 then 1 else -1, body % 4 * 16)
  else if 0x04 ≤ body then some ((match body % 4 with | 0 => -3 | 1 => -2 | 2 => 2 | _ => 3), 0)
  else if 0x02 ≤ body then some (-4, body % 2 * 32)
  else none

/-- The magnitude of decimal fields in units of 10^−8 ÷ 64 (R75). -/
def dtUnits (x : Int × Nat) : Nat := (64 + 9 * x.2) * tenUnits x.1

/-- The units of R75 in one. -/
def dtScale : Nat := 64 * 10 ^ 8

/-- A decimal-tapered format: its body width and fields. -/
structure DtFmt where
  bodyBits : Nat
  fields : Nat → Option (Int × Nat)

/-- DT8 (R74). -/
def dt8 : DtFmt := { bodyBits := 7, fields := dt8Fields }
/-- DT6 (R77). -/
def dt6 : DtFmt := { bodyBits := 5, fields := dt6Fields }

/-- The value of a code (R74, R75, R77). A DT NaN is quiet (R76). -/
def DtFmt.decode (f : DtFmt) (x : Nat) : Num :=
  let neg := decide (x / 2 ^ f.bodyBits % 2 = 1)
  let body := x % 2 ^ f.bodyBits
  match f.fields body with
  | some y => .fin neg (dtUnits y) dtScale
  | none => if body = 0 then .fin neg 0 1 else .nan false

/-- The body with the largest value not above n/d, and the body with the least value not below; body 0 is zero. -/
def DtFmt.neighbours (f : DtFmt) (n d : Nat) : (Nat × Nat) × Option (Nat × Nat) :=
  (List.range (2 ^ f.bodyBits)).foldl
    (fun acc b =>
      match f.fields b with
      | none => acc
      | some y =>
        let u := dtUnits y
        let lo := if u * d ≤ n * dtScale && decide (acc.1.2 < u) then (b, u) else acc.1
        let hi :=
          if n * dtScale ≤ u * d then
            match acc.2 with
            | none => some (b, u)
            | some (_, v) => if u < v then some (b, u) else acc.2
          else acc.2
        (lo, hi))
    ((0, 0), none)

/-- The body of the largest magnitude and its units, and the units of the smallest nonzero magnitude. -/
def DtFmt.extremes (f : DtFmt) : (Nat × Nat) × Nat :=
  (List.range (2 ^ f.bodyBits)).foldl
    (fun acc b =>
      match f.fields b with
      | none => acc
      | some y =>
        let u := dtUnits y
        (if acc.1.2 < u then (b, u) else acc.1, if acc.2 = 0 ∨ u < acc.2 then u else acc.2))
    ((0, 0), 0)

/-- RoundDT8 and RoundDT6 (R76, R77). -/
def DtFmt.encode (f : DtFmt) (r : Rm) (x : Num) : Nat × Flags :=
  let sgn (neg : Bool) (b : Nat) : Nat := b + (if neg then 2 ^ f.bodyBits else 0)
  let ex := DtFmt.extremes f
  match x with
  | .nan s => (1, if s then flagNV else 0)
  | .inf neg => (sgn neg ex.1.1, flagOF ||| flagNX)
  | .fin neg n d =>
    if n = 0 then (sgn neg 0, 0)
    else if ex.1.2 * d < n * dtScale then (sgn neg ex.1.1, flagOF ||| flagNX)
    else
      let nb := DtFmt.neighbours f n d
      let lo := nb.1
      let hi := nb.2.getD ex.1
      if lo.2 * d = n * dtScale then (sgn neg lo.1, 0)
      else
        let up :=
          match r with
          | .rz => false
          | .ru => !neg
          | .rd => neg
          | .rn =>
            -- twice the point against the sum of the neighbours
            match compare (2 * (n * dtScale)) ((lo.2 + hi.2) * d) with
            | .lt => false
            | .gt => true
            | .eq => if lo.1 = 0 then false else lo.1 % 2 = 1
        (sgn neg (if up then hi.1 else lo.1),
          flagNX ||| (if n * dtScale < ex.2 * d then flagUF else 0))

/-! ## A80 -/

/-- The canonical NaN of A80 (R80). -/
def a80Nan : A80 := 0x7FFFC000000000000000#80

/-- ±∞ in A80. -/
def a80Inf (neg : Bool) : A80 := if neg then 0xFFFF8000000000000000#80 else 0x7FFF8000000000000000#80

/-- The value of an A80 entry in float mode (R80); every NaN is quiet. -/
def a80Decode (x : A80) : Num :=
  let v := x.toNat
  let neg := decide (v / 2 ^ 79 % 2 = 1)
  let ex : Nat := v / 2 ^ 64 % 2 ^ 15
  let sg : Nat := v % 2 ^ 64
  if ex = 0x7FFF then if sg = 2 ^ 63 then .inf neg else .nan false
  else if ex = 0 then dyadic neg sg (-16382 - 63)
  else if sg < 2 ^ 63 then .nan false
  else dyadic neg sg ((ex : Int) - 16383 - 63)

/-- An exact value rounded to nearest-even in A80 (R82, R83). -/
def a80Encode (x : Num) : A80 :=
  match x with
  | .nan _ => a80Nan
  | .inf neg => a80Inf neg
  | .fin neg n d =>
    let y := Fmt.roundMag a80Fmt .rn neg (Mag.ofRatio n d)
    if y.exceeds then a80Inf neg
    else
      BitVec.ofNat 80 ((if neg then 2 ^ 79 else 0) +
        (if y.sig < 2 ^ 63 then y.sig else (y.q + 63 + 16383).toNat * 2 ^ 64 + y.sig))

/-- A80Add(a, b) (R82). -/
def a80Add (a b : A80) : A80 := a80Encode (Num.add .rn (a80Decode a) (a80Decode b)).1

/-- The 64-bit sum of an entry in integer mode (R81). -/
def a80Int (x : A80) : Int := sext 64 x.toNat

/-- The sticky saturation flag of an entry in integer mode (R81). -/
def a80Sat (x : A80) : Bool := x.getLsbD 64

/-- An integer-mode entry from its sum, saturated (R81, R84), with the flag kept once set. -/
def a80OfInt (sat : Bool) (v : Int) : A80 :=
  let hi : Int := (2 ^ 63 - 1 : Nat)
  let w := if v > hi then hi else if v < -hi then -hi else v
  BitVec.ofNat 80 (wrap 64 w + (if sat || decide (w ≠ v) then (2 ^ 64 : Nat) else 0))

end Sys2Proof.Machine
end

