-- ==== Sys2Proof/Machine/Transc.lean ====
section
/-! DEFINITION. FRCP, FSQRT, FRSQ, FEXP2, FLOG2, FSIN and FCOS (R71): the exact result rounded once. The four
transcendental functions are formed to 320 and more fraction bits and rounded from there (log entry 12); a result that is
not exact carries its lowest bit set. -/
namespace Sys2Proof.Machine

/-- Fraction bits of the fixed-point work. -/
def workBits : Nat := 512

/-- Σ ± 2^w / ((2k + 1) n^(2k+1)), the arctangent (`alt`) or its hyperbolic twin at 1/n. -/
def atanSum (alt : Bool) (n : Nat) : Nat → Nat → Int → Int → Int
  | 0, _, _, acc => acc
  | fuel + 1, k, t, acc =>
    let u := t / (2 * k + 1 : Nat)
    atanSum alt n fuel (k + 1) (t / ((n * n : Nat) : Int)) (if alt && k % 2 = 1 then acc - u else acc + u)

/-- arctan(1/n) or artanh(1/n) in units of 2^−workBits. -/
def atanInv (alt : Bool) (n terms : Nat) : Int := atanSum alt n terms 0 (2 ^ workBits / n : Nat) 0

/-- ln 2 = 18 artanh(1/26) − 2 artanh(1/4801) + 8 artanh(1/8749). -/
def ln2Fix : Int := 18 * atanInv false 26 60 - 2 * atanInv false 4801 24 + 8 * atanInv false 8749 22

/-- π/2 = 8 arctan(1/5) − 2 arctan(1/239). -/
def halfPiFix : Int := 8 * atanInv true 5 116 - 2 * atanInv true 239 36

/-- Σ x^k / k! from a given term on, stepping k by `step`, with alternating sign if `alt`. -/
def powSum (alt : Bool) (step : Nat) (x : Nat) : Nat → Nat → Nat → Bool → Int → Int
  | 0, _, _, _, acc => acc
  | fuel + 1, k, t, minus, acc =>
    let t' := if step = 1 then t * x / 2 ^ workBits / (k + 1)
      else (t * x / 2 ^ workBits / (k + 1)) * x / 2 ^ workBits / (k + 2)
    powSum alt step x fuel (k + step) t' (alt && !minus) (if minus then acc - (t : Int) else acc + (t : Int))

/-- e^x for a fixed-point x in [0, 1). -/
def expFix (x : Nat) : Nat := (powSum false 1 x 110 0 (2 ^ workBits) false 0).toNat

/-- sin x for a fixed-point x in [0, 2). -/
def sinFix (x : Nat) : Nat := (powSum true 2 x 62 1 x false 0).toNat

/-- cos x for a fixed-point x in [0, 2). -/
def cosFix (x : Nat) : Nat := (powSum true 2 x 62 0 (2 ^ workBits) false 0).toNat

/-- Σ z^(2k+1)/(2k+1). -/
def artanhSum (z2 : Nat) : Nat → Nat → Nat → Nat → Nat
  | 0, _, _, acc => acc
  | fuel + 1, k, t, acc => artanhSum z2 fuel (k + 1) (t * z2 / 2 ^ workBits) (acc + t / (2 * k + 1))

/-- A fixed-point magnitude that is not exact: its lowest bit stands for what lies below. -/
def Mag.inexactFix (x : Nat) : Mag := { m := x / 2 ^ 128 * 2 + 1, e := 127 - (workBits : Int) }

/-- A magnitude just below n/d, or just above it (for results within 2^−78 of a known value). -/
def Mag.beside (above : Bool) (n d : Nat) : Mag :=
  let x := Mag.ofRatio (n * 2 ^ 80) d
  { m := if above then x.m * 2 ^ 80 + 1 else x.m * 2 ^ 80 - 1, e := x.e - 160 }

/-- The argument is nearer to 0 than 2^−40. -/
def isTiny (n d : Nat) : Bool := decide (n * 2 ^ 40 < d)

/-- 2^x for x = ±n/d (d a power of two), exact where x is an integer (R71). -/
def exp2Mag (neg : Bool) (n d : Nat) : Mag :=
  if n % d = 0 then
    let k := min (n / d) 2000
    { m := 1, e := if neg then -(k : Int) else k }
  else if isTiny n d then Mag.beside (!neg) 1 1
  else
    let fl := n / d
    let k : Int := if neg then -(min fl 2000 : Nat) - 1 else (min fl 2000 : Nat)
    let rem := if neg then d - n % d else n % d
    let f := rem * 2 ^ workBits / d
    let y := expFix (f * ln2Fix.toNat / 2 ^ workBits)
    { m := y / 2 ^ 128 * 2 + 1, e := k + 127 - (workBits : Int) }

/-- log2 of n/d > 0: sign and magnitude; exact for powers of two. -/
def log2Mag (n d : Nat) : Bool × Mag :=
  let k0 : Int := (Nat.log2 n : Int) - Nat.log2 d
  -- n/d = 2^k × num/den with num/den in [1, 2)
  let up (k : Int) : Nat × Nat := if 0 ≤ k then (n, d * 2 ^ k.toNat) else (n * 2 ^ (-k).toNat, d)
  let k := if (up k0).1 < (up k0).2 then k0 - 1 else k0
  let num := (up k).1
  let den := (up k).2
  if num = den then (decide (k < 0), { m := k.natAbs, e := 0 })
  else
    let z := (num - den) * 2 ^ workBits / (num + den)
    let l := 2 * artanhSum (z * z / 2 ^ workBits) 170 0 z 0
    let v := k * (2 ^ workBits : Nat) + ((l * 2 ^ workBits / ln2Fix.toNat : Nat) : Int)
    (decide (v < 0), Mag.inexactFix v.natAbs)

/-- Quadrant and remainder of n/d by π/2, with the remainder in fixed point. -/
def reduceArg (n d : Nat) : Nat × Nat :=
  let x := n * 2 ^ workBits / d
  let h := halfPiFix.toNat
  (x / h % 4, x % h)

/-- sin or cos of ±n/d, n > 0: sign and magnitude. -/
def sinCosMag (cosine neg : Bool) (n d : Nat) : Bool × Mag :=
  if isTiny n d then if cosine then (false, Mag.beside false 1 1) else (neg, Mag.beside false n d)
  else
    let q := reduceArg n d
    let k := if cosine then q.1 + 1 else q.1
    let v := if k % 2 = 0 then sinFix q.2 else cosFix q.2
    let minus := decide (2 ≤ k % 4)
    (if cosine then minus else (minus != neg), Mag.inexactFix v)

/-- The one-operand functions of R71. -/
inductive Fn where
  | sqrt | rcp | rsq | exp2 | log2 | sin | cos
  deriving DecidableEq, Repr

/-- A function of R71 on an exact value, rounded once into the format, with its flags. -/
def Fn.apply (fn : Fn) (f : Fmt) (r : Rm) (x : Num) : Nat × Flags :=
  match x with
  | .nan s => (Fmt.nan f, if s then flagNV else 0)
  | .inf neg =>
    match fn with
    | .sqrt => if neg then (Fmt.nan f, flagNV) else (Fmt.inf f false, 0)
    | .rcp => Fmt.encode f r (.fin neg 0 1)
    | .rsq => if neg then (Fmt.nan f, flagNV) else (0, 0)
    | .exp2 => if neg then (0, 0) else (Fmt.inf f false, 0)
    | .log2 => if neg then (Fmt.nan f, flagNV) else (Fmt.inf f false, 0)
    | .sin => (Fmt.nan f, flagNV)
    | .cos => (Fmt.nan f, flagNV)
  | .fin neg n d =>
    match fn with
    | .sqrt =>
      if n = 0 then Fmt.encode f r x else if neg then (Fmt.nan f, flagNV) else Fmt.ofMag f r false (Mag.sqrt n d)
    | .rcp => if n = 0 then (Fmt.inf f neg, flagDZ) else Fmt.encode f r (.fin neg d n)
    | .rsq =>
      if n = 0 then (Fmt.inf f neg, flagDZ) else if neg then (Fmt.nan f, flagNV) else Fmt.ofMag f r false (Mag.sqrt d n)
    | .exp2 => Fmt.ofMag f r false (exp2Mag neg n d)
    | .log2 =>
      if n = 0 then (Fmt.inf f true, flagDZ) else if neg then (Fmt.nan f, flagNV)
      else
        let y := log2Mag n d
        Fmt.ofMag f r y.1 y.2
    | .sin =>
      if n = 0 then Fmt.encode f r x
      else
        let y := sinCosMag false neg n d
        Fmt.ofMag f r y.1 y.2
    | .cos =>
      if n = 0 then Fmt.encode f r (.fin false 1 1)
      else
        let y := sinCosMag true neg n d
        Fmt.ofMag f r y.1 y.2

end Sys2Proof.Machine
end

