-- ==== Sys2Proof/Machine/Flags.lean ====
section
/-! DEFINITION. The float operations and the conversions on codes, each with the %fpmode flags that it raises (R68 to R71,
R85, R87, R335 to R350). A code stands in the low bits of a number. -/
namespace Sys2Proof.Machine

/-- The IEEE format of a float type (R67). -/
def fmtOf : Ty → Fmt
  | .f16 => fp16
  | .bf16 => bf16
  | _ => fp32

/-- A result with its flags. -/
abbrev FRes := Nat × Flags

/-- NV when the operation is invalid. -/
def nvIf (b : Bool) : Flags := if b then flagNV else 0

/-- FADD (R342). -/
def fadd (f : Fmt) (r : Rm) (a b : Nat) : FRes :=
  let x := Num.add r (f.decode a) (f.decode b)
  let y := f.encode r x.1
  (y.1, y.2 ||| nvIf x.2)

/-- FSUB (R342). -/
def fsub (f : Fmt) (r : Rm) (a b : Nat) : FRes :=
  let x := Num.add r (f.decode a) (f.decode b).negate
  let y := f.encode r x.1
  (y.1, y.2 ||| nvIf x.2)

/-- FMUL (R342). -/
def fmul (f : Fmt) (r : Rm) (a b : Nat) : FRes :=
  let x := Num.mul (f.decode a) (f.decode b)
  let y := f.encode r x.1
  (y.1, y.2 ||| nvIf x.2)

/-- FDIV (R71, R342). -/
def fdiv (f : Fmt) (r : Rm) (a b : Nat) : FRes :=
  let x := Num.div (f.decode a) (f.decode b)
  let y := f.encode r x.1
  (y.1, y.2 ||| x.2)

/-- FFMA: one rounding of the exact a × b + c (R348). -/
def ffma (f : Fmt) (r : Rm) (a b c : Nat) : FRes :=
  let p := Num.mul (f.decode a) (f.decode b)
  let x := Num.add r p.1 (f.decode c)
  let y := f.encode r x.1
  (y.1, y.2 ||| nvIf (p.2 || x.2))

/-- MinMax of R342; `greater` for FMAX. A returned number is copied bit for bit. -/
def fminmax (f : Fmt) (greater : Bool) (a b : Nat) : FRes :=
  let x := f.decode a
  let y := f.decode b
  let fl := nvIf (x.isSig || y.isSig)
  if x.isNan && y.isNan then (f.nan, fl)
  else if x.isNan then (b, fl)
  else if y.isNan then (a, fl)
  else
    let less : Bool :=
      match Num.cmp x y with
      | .lt => true
      | .gt => false
      | .eq => f.sign a && !(f.sign b)
    (if less != greater then a else b, fl)

/-- FABS, FNEG: only the sign bit changes (R340). -/
def fsignOp (f : Fmt) (negate : Bool) (a : Nat) : Nat :=
  let top := 2 ^ (f.width - 1)
  let low := a % top
  if negate && !(f.sign a) then low + top else low

/-- The condition codes 0 to 5 on an order (R103). -/
def condHolds (c : Nat) (o : Ordering) : Bool :=
  match c, o with
  | 0, .eq => true
  | 1, .eq => false
  | 1, _ => true
  | 2, .lt => true
  | 3, .gt => false
  | 3, _ => true
  | 4, .gt => true
  | 5, .lt => false
  | 5, _ => true
  | _, _ => false

/-- FSET (R350). -/
def fset (f : Fmt) (c : Nat) (a b : Nat) : Bool × Flags :=
  let x := f.decode a
  let y := f.decode b
  let sig := x.isSig || y.isSig
  if x.isNan || y.isNan then
    (decide (c = 1) || decide (c = 7), nvIf (sig || (decide (2 ≤ c) && decide (c ≤ 5))))
  else if c = 6 then (true, 0)
  else if c = 7 then (false, 0)
  else (condHolds c (Num.cmp x y), 0)

/-- The class bit of a code (R343). -/
def fclassBit (f : Fmt) (a : Nat) : Nat :=
  let neg := f.sign a
  let ex := a / 2 ^ (f.p - 1) % 2 ^ f.eb
  let fr := a % 2 ^ (f.p - 1)
  if ex = 2 ^ f.eb - 1 then
    if fr = 0 then (if neg then 0 else 7) else if fr / 2 ^ (f.p - 2) = 0 then 8 else 9
  else if ex = 0 then
    if fr = 0 then (if neg then 3 else 4) else (if neg then 2 else 5)
  else if neg then 1 else 6

/-- FRND: the integral value, without NX (R349). -/
def frnd (f : Fmt) (r : Rm) (a : Nat) : FRes :=
  match f.decode a with
  | .nan s => (f.nan, nvIf s)
  | .inf _ => (a % 2 ^ f.width, 0)
  | .fin neg n d => ((f.encode r (.fin neg (roundInt r neg n d).1 1)).1, 0)

/-- FSCALE: a × 2^b with one rounding (R349). Beyond ±1,000 the exponent can no longer change the rounded result. -/
def fscale (f : Fmt) (r : Rm) (a : Nat) (b : Int) : FRes :=
  match f.decode a with
  | .nan s => (f.nan, nvIf s)
  | .inf _ => (a % 2 ^ f.width, 0)
  | .fin neg n d =>
    if n = 0 then (a % 2 ^ f.width, 0)
    else
      let b := if b < -1000 then (-1000 : Int) else if 1000 < b then 1000 else b
      if 0 ≤ b then f.encode r (.fin neg (n * 2 ^ b.toNat) d) else f.encode r (.fin neg n (d * 2 ^ (-b).toNat))

/-- FDOT2: a0 × b0 + a1 × b1 + c, rounded once into FP32 (R347). (DESIGN CHOICE, log entry 88) -/
def fdot2 (f : Fmt) (r : Rm) (a b c : Nat) : FRes :=
  let p := Num.mul (f.decode (a % 2 ^ 16)) (f.decode (b % 2 ^ 16))
  let q := Num.mul (f.decode (a / 2 ^ 16)) (f.decode (b / 2 ^ 16))
  let x := Num.add r p.1 q.1
  let y := Num.add r x.1 (fp32.decode c)
  let z := fp32.encode r y.1
  (z.1, z.2 ||| nvIf (p.2 || q.2 || x.2 || y.2))

/-- The correctly rounded functions (R344). (DEDUCED, log entry 12) -/
def ffun (f : Fmt) (r : Rm) (fn : Fn) (a : Nat) : FRes := fn.apply f r (f.decode a)

/-! ## Conversions (R87) -/

/-- An exact value of a source type's code, read from the low bits (R66, R336). -/
def exactOf (t : Ty) (x : Nat) : Num :=
  match t with
  | .f32 | .f16 | .bf16 => (fmtOf t).decode (x % 2 ^ t.width)
  | .dt8 => dt8.decode (x % 2 ^ 8)
  | .dt6 => dt6.decode (x % 2 ^ 6)
  | .a80 => a80Decode (BitVec.ofNat 80 x)
  | _ => Num.ofInt (if t.isSigned then sext t.width x else ((x % 2 ^ t.width : Nat) : Int))

/-- The least and the greatest value of an integer type. -/
def rangeOf (t : Ty) : Int × Int :=
  if t.isSigned then (-((2 ^ (t.width - 1) : Nat) : Int), ((2 ^ (t.width - 1) - 1 : Nat) : Int))
  else (0, ((2 ^ t.width - 1 : Nat) : Int))

/-- Clamp(x, type) of R353, R355, and whether it changed x. -/
def clampTo (t : Ty) (x : Int) : Int × Bool :=
  let r := rangeOf t
  if x < r.1 then (r.1, true) else if r.2 < x then (r.2, true) else (x, false)

/-- An exact value to an integer type, from a source that is no integer type (R87). -/
def toIntTy (t : Ty) (r : Rm) (sat : Bool) (x : Num) : Int × Flags :=
  let bad := if sat then flagSAT else flagNV
  match x with
  | .nan _ => (0, bad)
  | .inf neg => (if neg then (rangeOf t).1 else (rangeOf t).2, bad)
  | .fin neg n d =>
    let y := roundInt r neg n d
    let v := signed neg y.1
    let c := clampTo t v
    if c.2 then (c.1, bad) else (v, if y.2 then flagNX else 0)

/-- An exact value to an IEEE format (R87). -/
def toFloatTy (f : Fmt) (r : Rm) (sat : Bool) (x : Num) : FRes :=
  match x with
  | .inf neg => if sat then (f.max neg, flagSAT ||| flagNX) else (f.inf neg, 0)
  | .nan _ => f.encode r x
  | .fin neg _ _ =>
    let y := f.encode r x
    if sat && y.2.getLsbD 2 then (f.max neg, flagSAT ||| flagNX) else y

/-- Convert(x, type) into a float or decimal-tapered format: the code in its low bits (R87, R336). -/
def toRealTy (t : Ty) (r : Rm) (sat : Bool) (x : Num) : FRes :=
  match t with
  | .dt8 => dt8.encode r x
  | .dt6 => dt6.encode r x
  | _ => toFloatTy (fmtOf t) r sat x

/-- How an integer result is placed: sign-extended or zero-extended to 32 bits, 64-bit types whole (R66, R336). -/
def placeInt (t : Ty) (x : Int) : DWord :=
  if t.is64 then BitVec.ofNat 64 (wrap 64 x)
  else if t.isSigned then BitVec.ofNat 64 (wrap 32 (sext t.width (wrap t.width x)))
  else BitVec.ofNat 64 (wrap t.width x)

/-- The value of an integer code (R315). -/
def intVal (t : Ty) (x : Nat) : Int := if t.isSigned then sext t.width x else ((x % 2 ^ t.width : Nat) : Int)

/-- CVT and FCVT: the result as placed in its destination, with its flags (R336, R346). -/
def convert (dst src : Ty) (r : Rm) (sat : Bool) (x : Nat) : DWord × Flags :=
  if dst.isAnyInt then
    if src.isAnyInt then
      let v := intVal src x
      if sat then
        let c := clampTo dst v
        (placeInt dst c.1, if c.2 then flagSAT else 0)
      else (placeInt dst v, 0)
    else
      let y := toIntTy dst r sat (exactOf src x)
      (placeInt dst y.1, y.2)
  else
    let y := toRealTy dst r sat (exactOf src x)
    (BitVec.ofNat 64 y.1, y.2)

end Sys2Proof.Machine
end

