-- ==== Sys2Proof/Config.lean ====
section
/-! DEFINITION. What an implementation or the outside world fixes, and the values that the manual leaves open.
Every value the manual leaves open is an opaque constant: nothing can be proved of it but what holds of every value. -/
namespace Sys2Proof

/-- The reach attribute of a page (R169, R182); a DIE page names its one die. -/
inductive Reach where
  | die (d : Nat)
  | pkg
  | sys
  deriving DecidableEq, Repr

/-- One translation entry: what a page-table walk gives for a page of virtual addresses, of 64 KiB or 2 MiB (R13, R182, R284,
R291, R293, R306). `frame` is the physical address (or the host's or peer's address) of the page's first byte. -/
structure Xlate where
  /-- a page of 2 MiB (R13) -/
  big : Bool
  frame : Nat
  r : Bool
  w : Bool
  x : Bool
  reach : Reach
  target : BitVec 4
  lpddr : Bool
  near : Bool
  deriving DecidableEq, Repr

/-- The firmware image that the device holds (R309): the one it was made with, one that was staged, or what a loss of firmware
structures has left (R299), by a number that names it. -/
inductive Image where
  | made
  | staged (bytes : List Byte)
  | damaged (n : Nat)
  deriving DecidableEq, Repr

namespace Config

/-- FREE VALUE (DESIGN CHOICE, log entry 3). The page-table walk: the manual gives no page-table format, so what a walk finds is a
free function of the memory's listed bytes, the context's ROOT and the virtual page number: here the 64 KiB pages. -/
opaque smallPage : SMap Byte → DWord → Nat → Option Xlate

/-- FREE VALUE (log entry 3). The same for the 2 MiB pages, by 2 MiB page number. -/
opaque bigPage : SMap Byte → DWord → Nat → Option Xlate

/-- FREE VALUE (log entry 3). The lines of memory that the walk for a 64 KiB page of virtual addresses reads. -/
opaque walkLines : SMap Byte → DWord → Nat → List Nat

/-- FREE VALUE (DESIGN CHOICE, log entry 6). Whether the signature of a firmware image verifies (R309). -/
opaque imageOk : Image → Bool

/-- FREE VALUE (log entry 6). Byte k of the SHAKE256-512 digest of an image (R309, R313). -/
opaque digestByte : Image → Nat → Byte

/-- FREE VALUE (log entry 6). The module's 64-bit serial number and the bytes of its public key, fixed at manufacture (R313). -/
opaque serial : DWord

/-- FREE VALUE (log entry 6). Byte k of the public key (R313). -/
opaque publicKey : Nat → Byte

/-- FREE VALUE (log entry 6). Byte k of the attestation's signature and its length, by the image and REPSEQ that the signed bytes
hold (R313). -/
opaque signatureByte : Image → Nat → Nat → Byte

/-- FREE VALUE (DESIGN CHOICE, log entry 5). The set of its L2 slice that a line falls in, below 1,536 once reduced (R14). -/
opaque l2Set : Nat → Nat

/-- FREE VALUE (log entry 5). Which way a fill takes where every way that it may take holds a line: the k-th such choice. -/
opaque l2Way : Nat → Nat

/-- FREE VALUE (DESIGN CHOICE, log entry 35). Whether what an instruction of a strand or an engine operation touches lies in a bank
of the unified store: by core, bank and a number that names the party. -/
opaque inBank : Nat → Nat → Nat → Bool

/-- FREE VALUE (DESIGN CHOICE, log entry 65). The bank that holds a lane of a v register, by register and lane (R63). -/
opaque vBank : Nat → Nat → Nat

/-- FREE VALUE (DESIGN CHOICE, log entry 8). The high word of a hand-off value that is named in a 64-bit operand (R47, R50). -/
opaque handOffHigh : Word → Word

/-- FREE VALUE (DESIGN CHOICE, log entry 9). A byte of memory that is not kept, by the stamp of its stretch and its address: a segment whose
near-map bit was changed (R293), SPILL (R133: contents not architectural), a save area (R287: no layout is given), what a start's
memory training and march tests leave (R310). -/
opaque lostByte : Nat → Nat → Byte

/-- FREE VALUE (DESIGN CHOICE, log entry 10). Which value an element has that another party wrote while an engine operation ran:
the k-th free choice; true takes the newer value (R215, R231, R237). -/
opaque choice : Nat → Bool

/-- FREE VALUE (DESIGN CHOICE, log entry 16). The crew count that the DONE add of a rejected launch takes where its record names no strands
(R261 divides by their number), by its item count. -/
opaque noStrandCount : Nat → Nat

/-- FREE VALUE (DESIGN CHOICE, log entry 18). DATA of a black-box record, "the unit and address concerned" (R312), whose layout the manual does
not give: by KIND, a unit number and an address. -/
opaque boxData : Nat → Nat → Nat → BitVec 128

/-- FREE VALUE (DESIGN CHOICE, log entry 19). Whether the mesh-stop region passes its self-test at a start that the device begins itself, by the
number of the start (R11, R309, R310). -/
opaque meshPasses : Nat → Bool

/-- FREE VALUE (log entry 19). The lanes of a cluster that such a start finds live, by the number of the start and the cluster. -/
opaque lanesLive : Nat → Nat → BitVec 34

end Config
end Sys2Proof
end

