-- ==== Sys2Proof/Machine/State.lean ====
section
/-! DEFINITION. The state of the device as plain data: host port and firmware, dies and cores, memory and its
records, partitions, contexts and queues, grids with their chains, crews with their strands, and the agenda that
says which party acts next (log entry 1). -/
namespace Sys2Proof.Machine

/-- The trap codes 0x01 to 0x13 of R274, in the order of their codes. -/
inductive Trap where
  | illegalOpcode | illegalOperand | regRange | misalign | permission | privateLimit | viewLocked | viewBounds
  | scopeMismatch | chainOff | chainMode | tagError | uncorrectable | swtrap | bkpt | watchdog | mmaShape
  | launchBad | faultUnresolved
  deriving DecidableEq, Repr

/-! ## Views, tags, tiles -/

/-- A defined view: the descriptor of R198 with the mark of R203. -/
structure View where
  base : DWord
  rank : Nat
  isLocal : Bool
  right : BitVec 2
  ty : Ty
  fill : Word
  /-- EXTENT0 to EXTENT3 -/
  extent : List Word
  /-- STRIDE0 to STRIDE3, read as signed -/
  stride : List Word
  /-- ORIGIN0 to ORIGIN3, read as signed -/
  origin : List Word
  /-- the VDEF found no free Armature entry (R203) -/
  universal : Bool
  deriving DecidableEq, Repr

/-- A view register named by an engine operation: the register and the view it held at issue (R205). -/
structure ViewUse where
  reg : Nat
  view : View
  deriving DecidableEq, Repr

/-- The format block of R230 as read at issue. -/
structure FormatBlock where
  scaleA : DWord
  scaleB : DWord
  fmtA : Ty
  fmtB : Ty
  /-- block length of A along K, 0 for none -/
  blkA : Nat
  blkB : Nat
  localA : Bool
  localB : Bool
  deriving DecidableEq, Repr

/-- A slot id of the multicast holding buffer (R222). -/
structure SlotId where
  seq : BitVec 16
  vdie : BitVec 4
  slot : BitVec 5
  deriving DecidableEq, Repr

/-- What a copy-engine operation does. -/
inductive CopyKind where
  /-- CPY: source to destination (R215) -/
  | copy
  /-- CPYM parking into a slot of a physical die (R222) -/
  | park (die : Nat) (id : SlotId)
  /-- the dtag of a CPYM, which sets with the n-th drain (R222) -/
  | drains (die : Nat) (id : SlotId)
  /-- CDRAIN from a slot id, and whether the slot has accepted it (R223) -/
  | drain (id : SlotId) (accepted : Bool)
  /-- NMV (R243 to R245): the format block, rounding mode, .sat -/
  | nmv (fb : Option FormatBlock) (rnd : BitVec 2) (sat : Bool)
  deriving DecidableEq, Repr

/-- An element that an engine reads: its value, and which of its bytes are uncorrectable (R237, R298). -/
abbrev Elem := DWord × BitVec 16

/-- Operand elements as they stood when they were first at hand: what another party writes while the operation runs may be seen or
not (R215, R231, R237, R244). -/
abbrev Snap := List (Option Elem)

/-- A copy-engine operation in flight (R213, R214, R224). Operations are numbered in issue order. -/
structure CopyOp where
  id : Nat
  kind : CopyKind
  src : Option ViewUse
  dst : Option ViewUse
  /-- wx of an NMV -/
  aux : Option ViewUse
  /-- granules of the destination already written (R224) -/
  granule : Nat
  /-- source elements as first seen, in the order in which they are used; for NMV the elements of B, those of x, and the scale
  bytes of both; none while an earlier lock holds the issue (R206) -/
  olds : List Snap
  /-- translations taken at issue, by 64 KiB page (R234) -/
  pages : List (Nat × Xlate)
  /-- the FAULTID on which the operation is parked -/
  parked : Option Nat
  /-- the cycle at which CKILL has asked for its end (R219) -/
  cancelled : Option DWord
  /-- the issuing strand and the crew's phase at issue (R194, R224) -/
  strand : Nat
  phase : Word
  /-- the core that issued it, among whose operations it counts (R214) -/
  core : Nat
  deriving DecidableEq, Repr

/-- The three states of a copy tag (R213). -/
inductive TagState where
  | free | busy | done
  deriving DecidableEq, Repr

/-- A copy tag with its status (R213, R217, R218). -/
structure Tag where
  state : TagState
  code : BitVec 8
  read : BitVec 24
  filled : BitVec 24
  errPend : Bool
  addr : DWord
  op : Option CopyOp
  /-- flags of a completed NMV, ORed into %fpmode of the strand when the completion is observed (R244) -/
  flags : BitVec 6
  flagStrand : Nat
  /-- the cycle of its completion: a CKILL of the same cycle comes second (R226) -/
  doneAt : DWord
  deriving DecidableEq, Repr

/-- A follow-on product that has been recorded and not yet ended (R220, R221). -/
structure FollowOn where
  /-- the number of its CPY -/
  id : Nat
  tag : Nat
  td : Nat
  wa : ViewUse
  wb : ViewUse
  fb : FormatBlock
  ty : Ty
  after : BitVec 64
  strand : Nat
  /-- its copy has completed with CODE 0 -/
  copyDone : Bool
  /-- the FAULTID on which its translation is parked (R234) -/
  parked : Option Nat
  /-- it came due while its crew was out: it issues before the crew's first instruction (R226) -/
  first : Bool
  deriving DecidableEq, Repr

/-- The tile operations of R228. -/
inductive TileKind where
  | mma (wa wb : ViewUse) (fb : FormatBlock) (ty : Ty)
  | mzero
  | mlda (w : ViewUse) (ty : Ty)
  | msta (w : ViewUse) (ty : Ty) (rnd : BitVec 2) (sat int : Bool)
  | mtrn
  | mperm (perm : List Byte)
  | mred (int : Bool)
  deriving DecidableEq, Repr

/-- A queued tile operation (R228). -/
structure TileOp where
  id : Nat
  crew : CrewRef
  strand : Nat
  lane : Nat
  kind : TileKind
  td : Nat
  ts : Nat
  /-- the tag of the copy whose follow-on this is -/
  follow : Option Nat
  /-- the crew's phase at issue (R194, R241) -/
  phase : Word
  /-- translations taken at issue, by 64 KiB page (R234) -/
  pages : List (Nat × Xlate)
  /-- operand elements as they stood at issue: the views in order, then the scale bytes; none while an earlier lock holds the issue
  (R206) -/
  olds : List Snap
  deriving DecidableEq, Repr

/-! ## Strands -/

/-- A replay entry (R277): the instruction, the lanes, the operands as read at issue and the effective addresses. -/
structure ReplayEntry where
  instr : Instr
  pc : Word
  mask : Mask
  captured : Mask
  trapping : Bool
  skip : Bool
  opA : SMap DWord
  opB : SMap DWord
  opC : SMap DWord
  /-- the value that an STV stores, which stands in D (R405) -/
  opD : SMap DWord
  ea : SMap DWord
  /-- captured while it waited on a hand-off value: class 10 operands are read afresh (R290) -/
  fresh : Bool
  /-- one more than the cycles left of a SLEEP that a pre-emption captured, 0 for none (R400) -/
  left : Nat
  /-- the number of its issue: entries are captured in issue order (R276) -/
  num : Nat
  /-- the FAULTID on which the access was parked when it was captured (R288) -/
  parked : Option Nat
  /-- the store of a CALL, whose other effects have been made (R283, R329, R411) -/
  half : Bool
  deriving DecidableEq, Repr

/-- Why a held path is held (R153). -/
inductive Hold where
  | none
  | handOff
  | backPressure
  deriving DecidableEq, Repr

/-- A parsed launch record (R258). -/
structure LaunchRec where
  kernel : DWord
  args : DWord
  items : BitVec 43
  nstrand : Nat
  chained : Bool
  carryIn : Bool
  ncohort : Nat
  userTag : Word
  chainArea : DWord
  cohorts : DWord
  privArea : DWord
  done : DWord
  deriving DecidableEq, Repr

/-- What the instruction at a split's program counter waits for. -/
inductive Wait where
  | none
  /-- a barrier generation (R323) -/
  | barrier
  /-- WAITM (R270), until its line is written or 65,536 cycles have passed: the line, whether it is watched in L1 (.crew), and
  the count of its writes when it was read -/
  | waitm (line : Nat) (inL1 : Bool) (count : Nat)
  /-- a register of an instruction in flight and the like: the split waits (R48) -/
  | retry
  /-- a BUSY tag, 32 copy operations, 16 tile operations, a free slot: the strand stalls (R213, R214, R222, R228) -/
  | engine
  /-- a RET whose load has been rejected: no miss-status entry is free. The cycle of the first rejection, and its number: the strand
  does not pass it (R168) -/
  | entry (since : DWord) (num : Nat)
  /-- a WAITM that is to read again (R270) -/
  | reread
  /-- CWAIT, by its mask (R218): not swap-eligible -/
  | cwait
  /-- VDEF, VSET, VDROP or VRET, until a view register holds no lock: the strand stalls (R206) -/
  | lock (reg : Nat)
  /-- plain LAUNCH with a full pending queue, the record that it has read and checked, and %prio as it was at issue (R264, R269):
  swap-eligible (R37) -/
  | launch (record : LaunchRec) (prio : BitVec 2)
  /-- VACQ, by its flag, and PHWAIT: neither is swap-eligible (R195, R211) -/
  | vacq
  | phwait
  /-- TRAPRET, gathering, with its .skip (R280) -/
  | trapret (skip : Bool)
  /-- SLEEP, until a cycle (R266) -/
  | sleep (due : Nat)
  /-- an instruction fetch parked on a fault (R283) -/
  | fetch (fault : Nat)
  /-- a tile or NMV issue parked on a translation (R234) -/
  | xlate (fault : Nat)
  /-- a tile or NMV issue whose page has been declared unresolvable (R233, order 6) -/
  | unresolved (addr : DWord)
  deriving DecidableEq, Repr

/-- A path of a strand: a program counter with a lane mask, as a split or on the reconvergence stack (R21, R23, R153). -/
structure Path where
  pc : Word
  mask : Mask
  held : Hold
  wait : Wait
  /-- values of an HPUT held by back-pressure, by lane (R143, R151) -/
  pend : List (Nat × Word)
  /-- ReadySince of R265 -/
  since : DWord
  /-- it was not ready when it was last looked at: it becomes ready, for R265, when it is found ready -/
  asleep : Bool
  /-- raised to class 4 (R265) -/
  boosted : Bool
  /-- YIELD: not selected next if another split is ready (R266) -/
  yielded : Bool
  /-- a re-injected entry that waits again (R290): it issues with its captured operands -/
  entry : Option ReplayEntry
  /-- the instruction at which the path waits, as it would be captured (R290, R324) -/
  stood : Option ReplayEntry
  deriving DecidableEq, Repr

/-- A register result on its way: the destination, whether it is 64 bits wide, the lanes and their values (R47 to R49). -/
structure RegWrite where
  d : Opd
  wide : Bool
  act : Mask
  vals : SMap DWord
  deriving DecidableEq, Repr

/-- Where an issued instruction stands that has not completed (R124, R168, R276, R283). -/
inductive FlightState where
  /-- in the pipeline: its results, its flags and the captured cycle counter of a CSRR (R56) are written at a cycle (R124); a
  trap withdraws it (R276) -/
  | pipe (due : DWord) (writes : List RegWrite) (flags : BitVec 6) (clock : Option DWord)
  | outstanding
  | rejected (since : DWord)
  | aged
  | parked (fault : Nat)
  deriving DecidableEq, Repr

/-- An instruction issued and not completed: its replay entry (for an access, the mask holds the lanes not yet performed). -/
structure InFlight where
  id : Nat
  entry : ReplayEntry
  state : FlightState
  /-- the crew's phase and handler at issue (R57, R194) -/
  phase : Word
  handler : Word
  /-- the view through which it goes was universal at issue: it may meet every access (R202, R203) -/
  universal : Bool
  /-- the lines for which a load holds miss-status entries (R168) -/
  lines : List Nat
  deriving DecidableEq, Repr

/-- A deferred trap that waits for the strand's next boundary (R274). -/
structure Deferred where
  trap : Trap
  /-- %handler as it governs the instruction that raised the trap (R57) -/
  handler : Word
  addr : DWord
  lane : Nat
  pc : Word
  mask : Mask
  entry : Option ReplayEntry
  deriving DecidableEq, Repr

/-- The trap frame of a strand in its handler (R275). -/
structure Frame where
  splits : List Path
  stack : List Path
  queue : List ReplayEntry
  cause : Word
  addr : DWord
  pc : Word
  mask : Mask
  deriving DecidableEq, Repr

/-- The scope instance kinds of one launch, for barriers (R180, R323). -/
inductive BarScope where
  | crew (idx : Nat)
  | cohort (k : Nat)
  | grid
  deriving DecidableEq, Repr

/-- A barrier: an instance and a number 0 to 3 (R323). -/
structure BarKey where
  scope : BarScope
  n : Nat
  deriving DecidableEq, Repr

/-- A strand's pending arrival (R323): made by a BARC or by a BAR. (DEDUCED, log entry 63) -/
structure Arrival where
  key : BarKey
  gen : Nat
  byBarc : Bool
  deriving DecidableEq, Repr

/-- A strand: 32 items in lock-step (R19 to R23, R46). Register files are sparse with default 0. -/
structure Strand where
  idx : Nat
  present : Mask
  ended : Mask
  /-- v registers, at 32 × register + lane -/
  v : SMap Word
  /-- s registers -/
  s : SMap Word
  /-- p0 to p6, a mask over lanes each -/
  p : SMap Mask
  /-- stored form of a v register (R59): 0 UNIFORM, 1 DELTA8, 2 DELTA16, 3 FULL -/
  forms : SMap (BitVec 2)
  /-- %fpmode (R55) -/
  fp : Word
  /-- generation counts G, at 32 × slot + lane (R136) -/
  gen : SMap Word
  /-- slots sealed by HSEAL or by ending, a mask over lanes each (R137) -/
  sealedBy : SMap Mask
  /-- bytes pushed on the call stack, by lane: CP = PRIVATE − depth (R328) -/
  depth : SMap Word
  splits : List Path
  stack : List Path
  handler : Option Frame
  /-- entries that TRAPRET or a restore still has to re-inject, in queue order (R280, R288) -/
  reinject : List ReplayEntry
  inflight : List InFlight
  deferred : List Deferred
  /-- the captured %clock (R56) -/
  clock : Option DWord
  /-- lane cluster on which the strand is placed (R26) -/
  cluster : Nat
  arrivals : List Arrival
  deriving DecidableEq, Repr

/-! ## Crews -/

/-- An entry of a pending-launch queue or a die queue (R267, R269). -/
structure LaunchEntry where
  record : LaunchRec
  prio : BitVec 2
  phase : BitVec 16
  ctx : Nat
  part : Nat
  queue : Nat
  /-- cycle at which it came to the head of its die queue, and so became ready to start (R264, R267) -/
  since : DWord
  deriving DecidableEq, Repr

/-- Where a crew stands. -/
inductive CrewState where
  | resident
  | swapped
  | preempted
  /-- ended, its engine operations still running (R29) -/
  | draining
  | ended
  deriving DecidableEq, Repr

/-- The condition that a wake-up record names (R39). -/
inductive Wake where
  | barrier (key : BarKey) (gen : Nat)
  | waitm (strand : Nat) (addr : DWord) (cmp : DWord) (cond : BitVec 3) (ty : Ty) (scope : Scope)
  | launch
  deriving DecidableEq, Repr

/-- A crew dispatched at least once (R25 to R29). -/
structure Crew where
  grid : Nat
  idx : Nat
  state : CrewState
  /-- the core on which it runs or last ran, 36 × physical die + core, and its slot -/
  core : Nat
  slot : Nat
  vdie : Nat
  strands : List Strand
  /-- the local store's bytes -/
  store : SMap Byte
  views : List (Option View)
  tags : List Tag
  follows : List FollowOn
  tiles : List (SMap A80)
  prio : BitVec 2
  initPrio : BitVec 2
  handler : Word
  phase : Word
  /-- watchdog count and limit, in microseconds (R289) -/
  wdCount : Nat
  wdLimit : Nat
  /-- the pending-launch queue (R267) -/
  pending : List LaunchEntry
  wakes : List Wake
  woken : Bool
  /-- cycle at which a crew that is out became dispatchable (R264) -/
  since : DWord
  /-- cycle since which it has been swap-eligible (R38) -/
  eligible : Option DWord
  /-- a debugger halts it (R289) -/
  halted : Bool
  /-- stopped by an unhandled trap (R282) or killed (R271) -/
  trapped : Bool
  killed : Bool
  killAsked : Bool
  deriving DecidableEq, Repr

/-! ## Grids -/

/-- The header fields of R42 with the effective counts of R43. -/
structure Header where
  entry : Word
  handler : Word
  vregs : Nat
  sregs : Nat
  tiles : Nat
  views : Nat
  localBytes : Nat
  privBytes : Nat
  kernid : DWord
  /-- CHAIN0 to CHAIN7: MODE and DIST (R44) -/
  chain : List (BitVec 2 × BitVec 8)
  deriving DecidableEq, Repr

/-- A place of a published generation for one consumer (R148). -/
inductive Place where
  | welt
  | spill
  deriving DecidableEq, Repr

/-- A published generation (R136): its producer, slot, number and value, the scope of its HPUT, and its consumers that
still need it, each with the place of its copy (R138, R148). -/
structure Pub where
  item : Nat
  slot : Nat
  gen : Nat
  value : Word
  scope : Scope
  /-- the membership of a .cohort scope -/
  member : Nat
  places : List (Nat × Place)
  /-- the delivery has arrived: the value can be read (R148, R152) -/
  delivered : Bool
  deriving DecidableEq, Repr

/-- The chain of a grid (R132 to R151): its input values, SPILL, and every published generation (a freed one holds no
place; R145 still reads the last ones). -/
structure Chain where
  /-- Input(h, d) at 8 × slot + d − 1 (R135) -/
  input : List Word
  spillBytes : Nat
  /-- PEAK in units of 128 bytes -/
  peak : Nat
  pubs : List Pub
  deriving DecidableEq, Repr

/-- The die record of a context (R246). -/
structure DieRec where
  /-- physical die of virtual die v -/
  vphys : List Nat
  glog : Nat
  share : List Nat
  deriving DecidableEq, Repr

/-- A graph run by a GRAPH packet (R263). -/
structure Graph where
  table : DWord
  counters : DWord
  nnodes : Nat
  started : Nat
  completed : Nat
  running : Nat
  /-- nodes whose counter is zero and that have not started -/
  startable : List Nat
  bad : Bool
  trapped : Bool
  /-- a destroy keeps its other nodes from starting (R271) -/
  cut : Bool
  /-- a node ended PARTIAL, or never started -/
  short : Bool
  deriving DecidableEq, Repr

/-- Where a launch comes from. -/
inductive Origin where
  | packet (queue : Nat) (packet : Word)
  | node (queue : Nat) (packet : Word) (n : Nat)
  | device (queue : Nat)
  deriving DecidableEq, Repr

/-- Where a grid stands. -/
inductive GridState where
  /-- its record is accepted; LAUNCH_START has not made the start checks -/
  | waiting
  | running
  /-- rejected with LAUNCH_BAD (R259): completes with STATUS 2 -/
  | bad
  /-- found unstarted by a destroy (R271): completes with STATUS 4 -/
  | discarded
  | completed
  deriving DecidableEq, Repr

/-- A barrier's count and arrivals: (crew index, strand) (R323). -/
structure Barrier where
  key : BarKey
  gen : Nat
  arrived : List (Nat × Nat)
  deriving DecidableEq, Repr

/-- A grid: the crews of one launch (R19, R20, R30 to R35, R260). -/
structure Grid where
  id : Nat
  origin : Origin
  state : GridState
  /-- the launch record as read -/
  record : LaunchRec
  ctx : Nat
  part : Nat
  prio : BitVec 2
  phase : BitVec 16
  header : Header
  dieRec : DieRec
  /-- crew count ceil(M / 32N) -/
  ncrew : Nat
  /-- member crews of cohort k: KIND 0 as first, step, count; a list as it stands -/
  cohorts : List (List Nat)
  chain : Chain
  barriers : List Barrier
  /-- crew indices dispatched at least once, in order of dispatch -/
  dispatched : List Nat
  /-- crews stolen, with their new owner (R251) -/
  stolen : List (Nat × Nat)
  /-- crews stolen, each with every die that has given it or owns it, until they are dispatched (R252) -/
  transit : List (Nat × Nat)
  /-- crews that a victim has given up and whose answer is on its way (R251) -/
  given : List Nat
  /-- crews ended by EXIT or stopped by a trap (R256) -/
  ended : Nat
  trapped : Bool
  killed : Bool
  abort : Bool
  /-- undispatched crews never start (R271) -/
  cut : Bool
  /-- completed-phase counters C(d) as published (R195) -/
  counters : List Word
  /-- how many of the actions of R261 have been made -/
  acts : Nat
  /-- cycle at which it was accepted, and from its start on that of the start (R264) -/
  since : DWord
  /-- its kernel header has been read, once, and stands in `header` (R41) -/
  headerRead : Bool
  /-- cycle from which on its undispatched crews have been dispatchable (R264) -/
  offered : DWord
  deriving DecidableEq, Repr

/-! ## The memory system -/

/-- An L1 line (R161). `data` holds byte b at bits [8b+7:8b]. -/
structure L1Line where
  /-- the line's physical key ÷ 128 -/
  line : Nat
  data : BitVec 1024
  dirty : BitVec 128
  sc : Scope
  writers : BitVec 16
  ctx : Nat
  sysFill : Bool
  /-- the page is of PKG reach: PHASE acts on such lines (R194) -/
  pkg : Bool
  /-- the virtual line of its accesses in the context; none once another has named it: it then meets every view -/
  vline : Option Nat
  /-- filled from a poisoned line: its clean bytes are uncorrectable (R298) -/
  bad : Bool
  deriving DecidableEq, Repr

/-- A clean line of the constant cache, an operand buffer or the instruction cache (R173, R92). -/
structure CLine where
  line : Nat
  ctx : Nat
  /-- the virtual line by which an instruction cache took it in (R357) -/
  vline : Nat
  data : BitVec 1024
  /-- it came from a poisoned line: its bytes are uncorrectable (R298) -/
  bad : Bool
  /-- lines of an instruction cache with one number were read at one moment (R92) -/
  moment : Nat
  deriving DecidableEq, Repr

/-- A TLB entry (R283, R304): context, number of its first 64 KiB of virtual addresses, entry. -/
structure TlbEntry where
  ctx : Nat
  page : Nat
  x : Xlate
  deriving DecidableEq, Repr

/-- A PKG write not yet performed at its home slice (R194, R195). -/
structure PkgWrite where
  grid : Nat
  vdie : Nat
  crew : Nat
  phase : Word
  core : Nat
  line : Nat
  deriving DecidableEq, Repr

/-- A write on its way from a core to its resolution point (R189, R390): byte writes of a line, or an unscoped RED, with the
PKG writes that it performs. -/
inductive Message where
  | write (line : Nat) (data : BitVec 1024) (bytes : BitVec 128) (pkg : List PkgWrite)
  | red (key : Nat) (op : BitVec 3) (ty : Ty) (b : DWord) (pkg : List PkgWrite)
  deriving DecidableEq, Repr

/-- The instance that a scope record names (R180, R191). -/
inductive Inst where
  | crew (c : CrewRef)
  | cohort (grid k : Nat)
  | grid (g : Nat)
  | sys
  deriving DecidableEq, Repr

/-- The scope record of an L2 line (R191). -/
structure ScopeRec where
  line : Nat
  inst : Inst
  deriving DecidableEq, Repr

/-! ## Cores and dies -/

/-- A lane cluster's record (R120 to R122). -/
structure Cluster where
  live : BitVec 34
  retCycle : DWord
  deriving DecidableEq, Repr

/-- The banks of a core's unified store (R127): 0 to 47 on the compute die, 48 to 95 on the cap die, and the spares 96, 97 of the
compute die and 98, 99 of the cap die. -/
structure Banks where
  retired : List Nat
  /-- the spare that serves in a bank's stead: (bank, spare) -/
  served : List (Nat × Nat)
  /-- banks whose contents are being copied to a spare: (bank, spare) -/
  copying : List (Nat × Nat)
  /-- corrected errors in this period -/
  errors : SMap Nat
  deriving DecidableEq, Repr

/-- A core (R15). -/
structure Core where
  capDie : Bool
  retired : Bool
  clusters : List Cluster
  banks : Banks
  /-- live columns of the four matrix units (R128) -/
  columns : List (BitVec 130)
  l1 : List L1Line
  kcache : List CLine
  opbuf : List CLine
  icache : List CLine
  tlb : List TlbEntry
  /-- writes and reductions on their way, oldest first -/
  outbox : List Message
  /-- operations of the tile queue that have not ended, in issue order (R228) -/
  tileQ : List TileOp
  deriving DecidableEq, Repr

/-- A line held in an L2 slice (R14, R176): the slice, the set and the way that hold it. -/
structure L2Line where
  line : Nat
  slice : Nat
  set : Nat
  way : Nat
  /-- the line as memory held it at the fill: where it holds something else now, L2 holds it dirty (R171, R299) -/
  filled : BitVec 1024
  deriving DecidableEq, Repr

/-- A slot of the multicast holding buffer (R222, R223). -/
structure Slot where
  seq : BitVec 16
  /-- none: free -/
  use : Option (Nat × CrewRef)
  /-- packed elements so far, and whether the last one is parked; type and fill; drains left to accept and to complete -/
  data : List DWord
  ready : Bool
  ty : Ty
  fill : Word
  accept : Nat
  drains : Nat
  dtag : Option Nat
  deriving DecidableEq, Repr

/-- A record of the black box (R312). -/
structure BlackBox where
  cycle : DWord
  kind : BitVec 8
  seq : Word
  data : BitVec 128
  deriving DecidableEq, Repr

/-- A compute die (R14). -/
structure Die where
  live : Bool
  /-- the Remap table (R169, R170) and the retired slices -/
  remap : List Nat
  retiredSlices : List Nat
  /-- slices being evacuated (R171) -/
  evacuating : List Nat
  /-- the lines that its L2 slices hold -/
  l2 : List L2Line
  tlb : List TlbEntry
  slots : List Slot
  /-- the die queue (R267) -/
  queue : List LaunchEntry
  /-- views that took an Armature entry are counted from the crews; the number of entries -/
  armature : Nat
  log : List BlackBox
  logSeq : Word
  deriving DecidableEq, Repr

/-- A quadrant's pseudo-channels (R296): retired ones in order, one being copied, and the reassigned PcMap entries at
32 × slot + piece (an entry absent from the list is the identity). -/
structure Quadrant where
  retired : List Nat
  copying : Option Nat
  moved : List (Nat × Nat × Nat)
  dead : Bool
  deriving DecidableEq, Repr

/-! ## Host, partitions, contexts, queues -/

/-- The host port's mode (R300). -/
inductive PortMode where
  | pcie | cxl
  deriving DecidableEq, Repr

/-- A partition entry (R308). -/
structure Partition where
  entry : DWord
  cores : List (BitVec 36)
  ways : List (BitVec 16)
  qWeight : Nat
  nWeight : Nat
  cls : Nat
  ports : BitVec 12
  peers : List (BitVec 12)
  fring : DWord
  flog : Nat
  fwptr : Word
  frptr : Word
  nextFault : Word
  /-- accepts no doorbell until firmware rebuilds it (R299) -/
  stopped : Bool
  deriving DecidableEq, Repr

/-- A context entry (R305). -/
structure Context where
  root : DWord
  dieRec : DieRec
  saveArea : DWord
  saveSize : DWord
  part : Nat
  suspended : Bool
  failed : Bool
  deriving DecidableEq, Repr

/-- Where a packet stands. -/
inductive PacketState where
  /-- read; not started -/
  | waiting
  | started
  /-- over: its completion record is still to be written, with STATUS, DISPATCHED and COMPLETED -/
  | settled (status dispatched completed : Nat)
  deriving DecidableEq, Repr

/-- A packet that has been read and whose completion record has not been written (R255). -/
structure Packet where
  idx : Word
  kind : BitVec 8
  waitPrev : Bool
  phase : BitVec 16
  userTag : Word
  /-- SIGNAL: address, value, add; BARRIER_AND: (address, threshold) entries -/
  addr : DWord
  value : DWord
  add : Bool
  watch : List (DWord × Word)
  graph : Option Graph
  state : PacketState
  /-- cycle at which it was read, or at which its wait ended -/
  since : DWord
  deriving DecidableEq, Repr

/-- The activation counter of a row, of 12 bits, and its parity bit (R295). -/
structure RowCount where
  count : BitVec 12
  parity : Bool
  deriving DecidableEq, Repr

/-- How a queue is being destroyed (R271). -/
inductive Destroy where
  | none | drain | abort
  deriving DecidableEq, Repr

/-- The front-end work of a queue that a fault has parked (R285). -/
inductive FrontWork where
  /-- reading the packet at RPTR, or the launch record of a packet or of a node of its graph -/
  | reading (packet : Option Word)
  /-- reading a kernel header, cohort table or list, or chain area -/
  | starting (grid : Nat)
  /-- at a SIGNAL address, a BARRIER_AND word, or a counter that a GRAPH packet initialises -/
  | acting (packet : Word)
  /-- at the CARRY or PEAK words, a DONE block or a graph counter -/
  | ending (grid : Nat)
  /-- at the completion ring -/
  | recording (packet : Word)
  deriving DecidableEq, Repr

/-- A queue: the descriptor of R254 and what the front end keeps of it. -/
structure Queue where
  id : Nat
  /-- where its descriptor lies (log entry 28) -/
  desc : DWord
  ctx : Nat
  part : Nat
  prio : BitVec 2
  logSize : Nat
  ring : DWord
  cring : DWord
  wptr : Word
  rptr : Word
  /-- the cycle of its last doorbell, and WPTR as it stood before that cycle (R302) -/
  rung : Option (DWord × Word)
  /-- the cycle of a doorbell that found WPTR uncorrectable, until the error has acted (R299, R302) -/
  rungMet : Option DWord
  /-- cycle from which on its next packet can be read (R264) -/
  readable : DWord
  phase : BitVec 16
  /-- stopped by BADPACKET or an unresolvable fault -/
  stopped : Bool
  destroy : Destroy
  packets : List Packet
  /-- a front-end access of the queue that is parked on a fault, by FAULTID -/
  parked : Option (Nat × FrontWork)
  deriving DecidableEq, Repr

/-- A fault record (R284) that has been posted and not settled, or one of kind 1. `written` is false while it waits for
room in its ring (R308). -/
structure Fault32 where
  id : Word
  part : Nat
  va : DWord
  kernid : DWord
  ctx : Nat
  vdie : Nat
  kind : Bool
  access : BitVec 2
  source : BitVec 4
  reason : BitVec 8
  crew : Word
  resume : Word
  written : Bool
  deriving DecidableEq, Repr

/-! ## Turns -/

/-- Which party acts next (DESIGN CHOICE, log entry 1): an instruction issue by the split that holds a lane, a happening, or the passing
of core cycles. -/
inductive Turn where
  | issue (r : SplitRef)
  | event (i : Instr)
  | pass (cycles : Nat)
  deriving DecidableEq, Repr

/-- The instruction that is issuing: its party, its instruction as decoded, its address and lanes, and for an entry that
TRAPRET or a restore re-injects, the entry (R280). -/
structure Issue where
  strand : StrandRef
  /-- the lanes of the split, before the guard -/
  mask : Mask
  pc : Word
  instr : Instr
  replay : Option ReplayEntry
  /-- the entry comes from the strand's list of entries to re-inject and has no split -/
  queued : Bool
  deriving DecidableEq, Repr

/-- The state of the device. -/
structure State where
  -- host port, firmware
  port : PortMode
  /-- the mesh-stop region failed its self-test (R11) -/
  dead : Bool
  /-- the boot ROM serves the mailbox (R309) -/
  recovery : Bool
  /-- the firmware image (R309) -/
  image : Image
  mbw : List Word
  mbBusy : Bool
  mbResult : Byte
  /-- the queue whose destroy the mailbox command is waiting on (R303) -/
  mbWait : Option Nat
  repSeq : Word
  warm : Bool
  /-- reference time of the last copy of the black box to the report (R312) -/
  boxCopied : Nat
  /-- what the last host or peer read or atomic returned: bytes and the poison mark (R298) -/
  readBack : List Byte
  readPoison : Bool
  /-- device cycle counter (R56), reference time in microseconds, core clock in MHz (R314) -/
  cycle : DWord
  refTime : Nat
  /-- core cycles counted towards the next microsecond -/
  refPart : Nat
  mhz : Nat
  /-- every partition stopped until a warm start (R299) -/
  halted : Bool
  /-- the reference time of the last change of the clock (R314) -/
  lastStep : Option Nat
  livePorts : BitVec 12
  -- dies, main memory
  dies : List Die
  cores : List Core
  homeTable : List Nat
  quads : List Quadrant
  nearMap : List Nat
  /-- stretches of memory whose bytes the device does not keep or uses itself: first key, length, and a stamp (R133, R287, R293),
  newest first -/
  lost : List (Nat × Nat × Nat)
  /-- activation counters of rows (R295) and the threshold -/
  rows : SMap RowCount
  rowLimit : Nat
  /-- bytes of device memory, host memory and peers' memory at their coherence point; the key of an address is
  2^64 × TARGET + address (R306) -/
  mem : SMap Byte
  poison : List Nat
  /-- uncorrectable errors that firmware or a walk has met and that R299 has still to confine (log entry 73) -/
  found : List ErrorSite
  /-- how often each line that a WAITM has watched has been written, at its place (`watchKey`), from 1 on (R270) -/
  watched : SMap Nat
  records : List ScopeRec
  pkgWrites : List PkgWrite
  /-- the number of scoped fences so far: the total order of R186 -/
  fences : Nat
  -- system software's tables
  partitions : List (Option Partition)
  contexts : List (Option Context)
  queues : List Queue
  faults : List Fault32
  -- work
  grids : List Grid
  nextGrid : Nat
  crews : List Crew
  nextId : Nat
  /-- a start that has begun and not ended: whether it is cold, and what it finds (R310) -/
  starting : Option (Bool × StartReport)
  -- the model's own fields
  agenda : List Turn
  cur : Option Issue
  /-- how many free values have been drawn (log entry 10) -/
  drawn : Nat
  deriving DecidableEq, Repr

/-- Why a step has no next state. -/
inductive Fault where
  /-- exec was asked to run an instruction while no split is issuing; step never does so. Safe: raised by the shared issue
  operation, and the hardware has no such case. -/
  | noIssuer
  deriving DecidableEq, Repr

/-- Why the model gives no meaning. -/
inductive Refusal where
  /-- an instruction that has no meaning yet; raised by exec's arms alone. Safe. -/
  | notModelled (mnemonic : String)
  deriving DecidableEq, Repr

/-- A cluster with all 34 lanes live (R120). -/
def Cluster.full : Cluster := { live := BitVec.allOnes 34, retCycle := 0 }

/-- A full core with nothing cached (R15, R310). -/
def Core.full : Core :=
  { capDie := true, retired := false, clusters := List.replicate 4 Cluster.full,
    banks := { retired := [], served := [], copying := [], errors := [] }, columns := List.replicate 4 (BitVec.allOnes 130),
    l1 := [], kcache := [], opbuf := [], icache := [], tlb := [], outbox := [], tileQ := [] }

/-- A free holding slot (R222). -/
def Slot.free : Slot :=
  { seq := 0, use := none, data := [], ready := false, ty := .b32, fill := 0, accept := 0, drains := 0, dtag := none }

/-- A live die with its identity Remap (R169, R170), whose black box holds the start (R312). -/
def Die.full : Die :=
  { live := true, remap := List.range 64, retiredSlices := [], evacuating := [], l2 := [], tlb := [],
    slots := List.replicate 32 Slot.free, queue := [], armature := 8192,
    log := [{ cycle := 0, kind := 10, seq := 0, data := Config.boxData 10 0 0 }], logSeq := 1 }

/-- A quadrant with 64 live pseudo-channels (R296). -/
def Quadrant.full : Quadrant := { retired := [], copying := none, moved := [], dead := false }

/-- The machine right after reset: a cold start of a module with every die, core, lane, bank and column live has ended,
and system software has set nothing yet (R310). Fields for which the manual gives no value: DESIGN CHOICE, log entry 4. -/
def State.reset : State :=
  { port := .pcie, dead := false, recovery := false, image := .made, mbw := List.replicate 16 0, mbBusy := false, mbResult := 0, mbWait := none,
    repSeq := 0, warm := false, boxCopied := 0, readBack := [], readPoison := false, cycle := 0, refTime := 0, refPart := 0, mhz := 700,
    halted := false, lastStep := none, livePorts := BitVec.allOnes 12,
    dies := List.replicate 9 Die.full, cores := List.replicate 324 Core.full,
    homeTable := (List.range 64).map (· % 9), quads := List.replicate 72 Quadrant.full, nearMap := [], lost := [],
    rows := [], rowLimit := 1024, mem := [], poison := [], found := [], watched := [], records := [], pkgWrites := [], fences := 0,
    partitions := List.replicate 16 none, contexts := List.replicate 64 none, queues := [], faults := [],
    grids := [], nextGrid := 0, crews := [], nextId := 0, starting := none, agenda := [], cur := none, drawn := 0 }

end Sys2Proof.Machine
end

