-- ==== Sys2Proof/Machine/Regs.lean ====
section
/-! DEFINITION. Finding and replacing the parts of the state (grids, crews, strands, cores), reading and writing the
registers of a strand with their stored forms (R46 to R49, R59, R60), and its paths (R21 to R23, R153, R154). -/
namespace Sys2Proof.Machine

/-! ## Parts of the state -/

/-- The crew that a reference names, once dispatched. -/
def State.crew? (s : State) (c : CrewRef) : Option Crew := s.crews.find? fun x => x.grid = c.grid && x.idx = c.idx

/-- `f` applied to that crew. -/
def State.modCrew (s : State) (c : CrewRef) (f : Crew → Crew) : State :=
  { s with crews := modWhere (fun x => x.grid = c.grid && x.idx = c.idx) f s.crews }

/-- The reference of a crew. -/
def Crew.ref (c : Crew) : CrewRef := { grid := c.grid, idx := c.idx }

/-- The grid with a number. -/
def State.grid? (s : State) (g : Nat) : Option Grid := s.grids.find? fun x => x.id = g

/-- `f` applied to that grid. -/
def State.modGrid (s : State) (g : Nat) (f : Grid → Grid) : State :=
  { s with grids := modWhere (fun x => x.id = g) f s.grids }

/-- The strand with a number within a crew. -/
def Crew.strand? (c : Crew) (n : Nat) : Option Strand := c.strands.find? fun x => x.idx = n

/-- `f` applied to that strand. -/
def Crew.modStrand (c : Crew) (n : Nat) (f : Strand → Strand) : Crew :=
  { c with strands := modWhere (fun x => x.idx = n) f c.strands }

/-- The strand that a reference names. -/
def State.strand? (s : State) (r : StrandRef) : Option Strand :=
  match s.crew? r.crew with
  | some c => c.strand? r.strand
  | none => none

/-- `f` applied to that strand. -/
def State.modStrand (s : State) (r : StrandRef) (f : Strand → Strand) : State :=
  s.modCrew r.crew fun c => c.modStrand r.strand f

/-- A core by its number, 36 × die + core. -/
def State.core? (s : State) (n : Nat) : Option Core := s.cores[n]?

/-- `f` applied to a core. -/
def State.modCore (s : State) (n : Nat) (f : Core → Core) : State := { s with cores := modNth s.cores n f }

/-- A die. -/
def State.die? (s : State) (n : Nat) : Option Die := s.dies[n]?

/-- `f` applied to a die. -/
def State.modDie (s : State) (n : Nat) (f : Die → Die) : State := { s with dies := modNth s.dies n f }

/-- A context entry. -/
def State.ctx? (s : State) (n : Nat) : Option Context := (s.contexts[n]?).join

/-- A partition entry. -/
def State.part? (s : State) (n : Nat) : Option Partition := (s.partitions[n]?).join

/-- A queue. -/
def State.queue? (s : State) (n : Nat) : Option Queue := s.queues.find? fun q => q.id = n

/-- `f` applied to a queue. -/
def State.modQueue (s : State) (n : Nat) (f : Queue → Queue) : State :=
  { s with queues := modWhere (fun q => q.id = n) f s.queues }

/-- A free tag (R213). -/
def Tag.unused : Tag :=
  { state := .free, code := 0, read := 0, filled := 0, errPend := false, addr := 0, op := none, flags := 0, flagStrand := 0,
    doneAt := 0 }

/-! ## Items -/

/-- `%item` of R19: the index of lane `l` of a strand. -/
def itemOf (nstrand crew strand l : Nat) : Nat := (crew * nstrand + strand) * 32 + l

/-- The lanes of a strand that hold an item that has not ended. -/
def Strand.live (t : Strand) : Mask := t.present &&& ~~~t.ended

/-- The strand has ended (R29). -/
def Strand.isOver (t : Strand) : Bool := decide (t.live = 0)

/-- The strand is in a handler (R275). -/
def Strand.inHandler (t : Strand) : Bool := t.handler.isSome

/-! ## Registers -/

/-- Lane `l` of v register `n`. -/
def Strand.vAt (t : Strand) (n l : Nat) : Word := SMap.look 0 t.v (32 * n + l)

/-- s register `n`. -/
def Strand.sAt (t : Strand) (n : Nat) : Word := SMap.look 0 t.s n

/-- Lane `l` of p register `n`; p7 reads true (R49). -/
def Strand.pAt (t : Strand) (n l : Nat) : Bool := if n = 7 then true else hasLane (SMap.look 0 t.p n) l

/-- A 64-bit value from a pair (R47). -/
def pairOf (lo hi : Word) : DWord := hi ++ lo

/-- The low word of a pair. -/
def loWord (x : DWord) : Word := x.setWidth 32

/-- The high word of a pair. -/
def hiWord (x : DWord) : Word := (x >>> 32).setWidth 32

/-- The v registers with the words `f l` in the lanes of `act`. -/
def writeLanes (v : SMap Word) (act : Mask) (n : Nat) (f : Nat → Word) : SMap Word :=
  (lanesOf act).foldl (fun m l => SMap.put 0 m (32 * n + l) (f l)) v

/-- The form in which a full-mask write stores its values (R59): the first of UNIFORM, DELTA8, DELTA16, FULL that holds
every value of the live lanes, the lowest of them being the one that differences are taken from. A difference is that of the
unsigned values and does not wrap. (DESIGN CHOICE, log entry 78) -/
def formOf (live : Mask) (f : Nat → Word) : BitVec 2 :=
  let base := lowest live
  let fits (n : Nat) : Bool :=
    (lanesOf live).all fun l =>
      let d : Int := ((f l).toNat : Int) - ((f base).toNat : Int)
      decide (-(2 ^ (n - 1) : Nat) ≤ d) && decide (d < (2 ^ (n - 1) : Nat))
  if (lanesOf live).all fun l => f l = f base then 0
  else if fits 8 then 1 else if fits 16 then 2 else 3

/-- One v register written in the lanes of `act`, with its form (R59, R60). -/
def Strand.writeV (t : Strand) (act : Mask) (n : Nat) (f : Nat → Word) : Strand :=
  if act = 0 then t
  else
    let v := writeLanes t.v act n f
    let form : BitVec 2 :=
      if t.live &&& ~~~act = 0 then formOf t.live (fun l => SMap.look 0 v (32 * n + l)) else 3
    { t with v := v, forms := SMap.put 0 t.forms n form }

/-- Whether a write under `act` expands register `n` and so takes a beat more (R60). -/
def Strand.expands (t : Strand) (act : Mask) (n : Nat) : Bool :=
  decide (act ≠ 0) && decide (t.live &&& ~~~act ≠ 0) && decide (SMap.look 0 t.forms n ≠ 3)

/-- An s register written. -/
def Strand.writeS (t : Strand) (n : Nat) (x : Word) : Strand := { t with s := SMap.put 0 t.s n x }

/-- A p register written in the lanes of `act`; p7 ignores writes (R49). -/
def Strand.writeP (t : Strand) (act : Mask) (n : Nat) (f : Nat → Bool) : Strand :=
  if n = 7 then t
  else
    let old := SMap.look 0 t.p n
    { t with p := SMap.put 0 t.p n ((old &&& ~~~act) ||| (maskOf f &&& act)) }

/-- A result written to its destination (R47 to R49): v in every lane of `act`, s from the lowest lane, p as "nonzero".
`wide`: a 64-bit result. -/
def Strand.writeD (t : Strand) (act : Mask) (o : Opd) (wide : Bool) (f : Nat → DWord) : Strand :=
  match o with
  | .v n =>
    let t := t.writeV act n.toNat fun l => loWord (f l)
    if wide then t.writeV act (n.toNat + 1) fun l => hiWord (f l) else t
  | .s n =>
    if act = 0 then t
    else
      let x := f (lowest act)
      let t := t.writeS n.toNat (loWord x)
      if wide then t.writeS (n.toNat + 1) (hiWord x) else t
  | .p n => t.writeP act n.toNat fun l => if wide then decide (f l ≠ 0) else decide (loWord (f l) ≠ 0)
  | _ => t

/-- The beats that a destination adds by expanding registers (R60). -/
def Strand.expandBeats (t : Strand) (act : Mask) (o : Opd) (wide : Bool) : Nat :=
  match o with
  | .v n =>
    (if t.expands act n.toNat then 1 else 0) + (if wide && t.expands act (n.toNat + 1) then 1 else 0)
  | _ => 0

/-- Flags ORed into %fpmode (R55, R337). -/
def Strand.orFlags (t : Strand) (f : Flags) : Strand := { t with fp := t.fp ||| (f.setWidth 32 <<< 3) }

/-- The lanes of `m` whose guard holds (R94). -/
def Strand.guarded (t : Strand) (g : Guard) (m : Mask) : Mask := maskOf fun l => hasLane m l && (t.pAt g.reg.toNat l != g.neg)

/-! ## Paths -/

/-- A path that stands free at a program counter. -/
def Path.at (pc : Word) (mask : Mask) (since : DWord) : Path :=
  { pc := pc, mask := mask, held := .none, wait := .none, pend := [], since := since, asleep := false, boosted := false,
    yielded := false, entry := none, stood := none }

/-- Insertion by rising program counter. -/
def insertPath (p : Path) : List Path → List Path
  | [] => [p]
  | q :: t => if p.pc.toNat < q.pc.toNat then p :: q :: t else q :: insertPath p t

/-- The parts of a split, by rising target; lanes with one target make one part (R21, R23). -/
def partsOf (mask : Mask) (dst : Nat → Word) (since : DWord) : List Path :=
  (lanesOf mask).foldl
    (fun ps l =>
      if ps.any (fun p => p.pc = dst l) then ps.map fun p => if p.pc = dst l then { p with mask := p.mask ||| (1#32 <<< l) } else p
      else insertPath (Path.at (dst l) (1#32 <<< l) since) ps)
    []

/-- New paths taken in: the first becomes a split in any case; each further one while the strand has fewer than four; the
rest go on the stack in falling order, so that the lowest lies on top (R23). -/
def placePaths (splits stack : List Path) (parts : List Path) : List Path × List Path :=
  let room := 4 - splits.length
  (splits ++ parts.take room, parts.drop room ++ stack)

/-- A path whose next issue is its own: it stands at a re-injected entry, whose operands are captured, or at a page declared
unresolvable. -/
def Path.isApart (p : Path) : Bool := p.entry.isSome || match p.wait with | .unresolved _ => true | _ => false

/-- Two paths whose program counters are equal merge (R22, R153). -/
def mergeable (p q : Path) : Bool := p.pc = q.pc && !p.isApart && !q.isApart

/-- Two paths merged: what either waits for is looked at again, and a sleep's rest is waited out (R400). -/
def mergePaths (p q : Path) : Path :=
  { p with
    mask := p.mask ||| q.mask
    pend := p.pend ++ q.pend
    held := .none
    wait :=
      match p.wait, q.wait with
      | .sleep a, .sleep b => .sleep (max a b)
      | .sleep a, _ => .sleep a
      | _, .sleep b => .sleep b
      | _, _ => .none
    stood := none }

/-- Stack entries whose program counter equals that of a live split merge into it (R23). -/
def absorbStack (splits stack : List Path) : List Path × List Path :=
  stack.foldl
    (fun acc e =>
      if acc.1.any (mergeable e) then
        let hit := acc.1.findIdx (mergeable e)
        (modNth acc.1 hit fun p => mergePaths p e, acc.2)
      else (acc.1, acc.2 ++ [e]))
    (splits, [])

/-- The lanes of a path that are left when `gone` have ended or moved; a path without lanes is dropped. -/
def dropLanes (gone : Mask) (ps : List Path) : List Path :=
  (ps.map fun p => { p with mask := p.mask &&& ~~~gone }).filter fun p => decide (p.mask ≠ 0)

/-- A path can issue: it is not held (readiness of held paths is judged where hand-offs are known). -/
def Path.isHeld (p : Path) : Bool := decide (p.held ≠ .none)

/-- Stack entries become splits while there are fewer than four splits and an entry may be popped (R23): a ready held
entry first, the one with the lowest lane; otherwise the one pushed last that is not held. `ready` judges held entries. -/
def popStack (ready : Path → Bool) : Nat → List Path × List Path → List Path × List Path
  | 0, x => x
  | fuel + 1, (splits, stack) =>
    if 4 ≤ splits.length then (splits, stack)
    else
      let held := stack.filter fun p => p.isHeld && ready p
      match held.foldl (fun (m : Option Path) p =>
          match m with
          | none => some p
          | some q => if lowest p.mask < lowest q.mask then some p else m) none with
      | some p => popStack ready fuel (splits ++ [p], stack.erase p)
      | none =>
        match stack.find? fun p => !p.isHeld with
        | some p => popStack ready fuel (splits ++ [p], stack.erase p)
        | none => (splits, stack)

/-- After paths have ended or moved: entries merge into live splits, and entries become splits while there is room (R23). -/
def settlePaths (ready : Path → Bool) (splits stack : List Path) : List Path × List Path :=
  popStack ready 28 (absorbStack splits stack)

/-- The paths of a strand after a move of the lanes of `mask` from one split: those of `left` stay at `pc`, the others go on
to `to` (R21 to R23). -/
def Strand.move (t : Strand) (mask left : Mask) (pc : Word) (stay : Path → Path) (dst : Nat → Word) (now : DWord)
    (ready : Path → Bool) : Strand :=
  let others := t.splits.filter fun p => decide (p.mask &&& mask = 0)
  let parts := partsOf (mask &&& ~~~left &&& t.live) dst now
  let parts := if left = 0 then parts else insertPath (stay (Path.at pc left now)) parts
  let x := placePaths others t.stack parts
  let y := settlePaths ready (dropLanes t.ended x.1) (dropLanes t.ended x.2)
  { t with splits := y.1, stack := y.2 }

/-- Lanes taken out of whatever paths hold them. -/
def Strand.withoutLanes (t : Strand) (m : Mask) : Strand :=
  { t with splits := dropLanes m t.splits, stack := dropLanes m t.stack }

/-- One register result written (R47 to R49). -/
def Strand.put (t : Strand) (w : RegWrite) : Strand := t.writeD w.act w.d w.wide (SMap.look 0 w.vals)

/-- An instruction in the pipeline whose results are due (R124). -/
def InFlight.isDue (now : DWord) (x : InFlight) : Bool :=
  match x.state with
  | .pipe due _ _ _ => decide (due.toNat ≤ now.toNat)
  | _ => false

/-- The results and flags of an instruction in the pipeline are written (R124, R337). -/
def Strand.complete (t : Strand) (x : InFlight) : Strand :=
  match x.state with
  | .pipe _ ws fl ck =>
    let t := (ws.foldl Strand.put t).orFlags fl
    if ck.isSome then { t with clock := ck } else t
  | _ => t

/-- Every result that is due is written, in issue order. -/
def Strand.retire (now : DWord) (t : Strand) : Strand :=
  { (t.inflight.filter (InFlight.isDue now)).foldl Strand.complete t with
    inflight := t.inflight.filter fun x => !(x.isDue now) }

/-- The split that holds a lane. -/
def Strand.splitOf? (t : Strand) (l : Nat) : Option Path := t.splits.find? fun p => hasLane p.mask l

/-- `f` applied to the split that holds a lane. -/
def Strand.modSplit (t : Strand) (l : Nat) (f : Path → Path) : Strand :=
  { t with splits := modWhere (fun p => hasLane p.mask l) f t.splits }

end Sys2Proof.Machine
end

