-- ==== Sys2Proof/Machine/Operands.lean ====
section
/-! DEFINITION. The operand forms: base, literal and extended forms brought to one shape (R91, R95, R96), how each cell
reads its operand positions, and the value that an operand gives a lane (R47 to R50, R66, R99, R100, R109, R315, R337). -/
namespace Sys2Proof.Machine

/-- An instruction brought to one shape: its opcode, its fields as an extended form, its length in words, and whether the
literal is the 64-bit displacement of a base .g or .k access (R95). -/
structure Form where
  op : Nat
  e : Ext
  words : Nat
  wide : Bool
  deriving DecidableEq, Repr

/-- An extended form with nothing but a guard. -/
def blankExt (g : Guard) : Ext :=
  { g := g, d := .v 0, a := .v 0, b := .v 0, c := .v 0, ty := .b32, rnd := 0, scope := .none, mod := 0, view := none, aux := 0,
    imm := 0, lit := none }

/-- The cells of the unary base shape (R95). -/
def isUnaryCell (op : Nat) : Bool :=
  op = 0x27 || op = 0x28 || op = 0x2E || op = 0x34 || (decide (0x39 ≤ op) && decide (op ≤ 0x3C)) ||
    (decide (0x45 ≤ op) && decide (op ≤ 0x4B)) || op = 0x50 || op = 0x51

/-- The cells of the load shape. -/
def isLoadCell (op : Nat) : Bool := decide (0x70 ≤ op) && decide (op ≤ 0x73)
/-- The cells of the store shape. -/
def isStoreCell (op : Nat) : Bool := decide (0x75 ≤ op) && decide (op ≤ 0x77)

/-- The base form with L = 0 as an extended form (R91, R95). -/
def Form.ofBase (op : Nat) (b : Base) : Form :=
  let e := blankExt b.g
  let ty := (baseTy op b.m).getD .b32
  let f : Ext :=
    if isLoadCell op then { e with d := .v b.d, a := .v b.a, b := .imm 0, ty := ty }
    else if isStoreCell op then { e with a := .v b.a, b := .imm 0, c := .v b.d, ty := ty }
    else if isUnaryCell op then { e with d := .v b.d, a := .v b.a, ty := ty }
    else if op = 0x2F then { e with d := .v b.d, a := .imm b.a, ty := ty }
    else { e with d := .v b.d, a := .v b.a, b := .v b.d, ty := ty }
  { op := op, e := f, words := 1, wide := false }

/-- The base form with a literal, L = 2 (R91, R95). -/
def Form.ofLit (op : Nat) (b : Base) (x : DWord) : Form :=
  let e := { blankExt b.g with lit := some x }
  let ty := (baseTy op b.m).getD .b32
  let f : Ext :=
    if isLoadCell op then { e with d := .v b.d, a := .v b.a, b := .lit, ty := ty }
    else if isStoreCell op then { e with a := .v b.a, b := .lit, c := .v b.d, ty := ty }
    else if op = 0x2F then { e with d := .v b.d, a := .lit, ty := ty }
    else { e with d := .v b.d, a := .v b.a, b := .lit, ty := ty }
  { op := op, e := f, words := 3, wide := op = 0x70 || op = 0x73 || op = 0x75 }

/-- An extended form, L = 1 or 3. -/
def Form.ofExt (op : Nat) (e : Ext) : Form :=
  { op := op, e := e, words := if e.lit.isSome then 5 else 3, wide := false }

/-- The literal or extended form. -/
def Form.ofLong (op : Nat) : Long → Form
  | .lit b x => Form.ofLit op b x
  | .ext e => Form.ofExt op e

/-- A form with no operand but its guard, of a length in words. -/
def Form.plain (op : Nat) (g : Guard) (words : Nat) : Form :=
  { op := op, e := blankExt g, words := words, wide := false }

/-- How a position reads its operand: as one value of a type, or as packed elements (R109). -/
inductive Rd where
  | one (t : Ty)
  | pack2 (t : Ty)
  | pack4 (t : Ty)
  deriving DecidableEq, Repr

/-- A position reads a 64-bit operand. -/
def Rd.wide : Rd → Bool
  | .one t => t.is64
  | _ => false

/-- What an instruction reads in A, B and C, and in D for STV. -/
structure Reads where
  a : Option Rd
  b : Option Rd
  c : Option Rd
  d : Option Rd
  deriving DecidableEq, Repr

/-- The positions of an instruction that reads nothing. -/
def Reads.nil : Reads := { a := none, b := none, c := none, d := none }
/-- One operand. -/
def Reads.un (a : Rd) : Reads := { Reads.nil with a := some a }
/-- Two operands. -/
def Reads.bi (a b : Rd) : Reads := { Reads.nil with a := some a, b := some b }
/-- Three operands. -/
def Reads.tri (a b c : Rd) : Reads := { Reads.nil with a := some a, b := some b, c := some c }

/-- A 32-bit operand read without a sign. -/
abbrev w32 : Rd := .one .n32
/-- A 64-bit operand. -/
abbrev w64 : Rd := .one .n64

/-- Rows 0x0 to 0x5. -/
def readsArith (op : Nat) (e : Ext) : Reads :=
  let t := Rd.one e.ty
  match op with
  | 0x02 | 0x04 => .un w32
  | 0x10 | 0x11 | 0x12 => .bi w32 w32
  | 0x13 | 0x14 | 0x15 | 0x16 | 0x17 => .un w32
  | 0x18 | 0x19 | 0x1A | 0x1B => .bi t w32
  | 0x1C | 0x1D | 0x1E | 0x1F => .un t
  | 0x20 | 0x21 | 0x22 | 0x23 | 0x25 | 0x26 | 0x29 | 0x2A | 0x2B => .bi t t
  | 0x24 => .tri t t t
  | 0x27 | 0x28 | 0x2E | 0x2F => .un t
  | 0x2C => .tri t t w32
  | 0x2D => .tri t t w32
  | 0x30 | 0x31 | 0x32 | 0x33 | 0x35 | 0x36 | 0x37 | 0x38 => .bi t t
  | 0x34 | 0x39 | 0x3A | 0x3B | 0x3C => .un t
  | 0x3D => .bi t w32
  | 0x3E => .tri t t w32
  | 0x3F => .tri w32 w32 w32
  | 0x40 | 0x41 | 0x42 | 0x44 | 0x4C | 0x4D | 0x4E => .bi t t
  | 0x43 => .tri t t t
  | 0x45 | 0x46 | 0x47 | 0x48 | 0x49 | 0x4A | 0x4B | 0x50 | 0x51 | 0x52 => .un t
  | 0x4F | 0x53 => .bi t w32
  | 0x54 => .tri (.pack2 e.ty) (.pack2 e.ty) (.one .f32)
  | 0x55 | 0x56 => .un (.one (Ty.ofCode e.mod.toNat))
  | _ => .nil

/-- Rows 0x6 to 0x9. -/
def readsMem (f : Form) : Reads :=
  let t := Rd.one f.e.ty
  match f.op with
  | 0x60 => .un w32
  | 0x70 | 0x73 | 0x74 => .bi w64 (if f.wide then w64 else w32)
  | 0x71 | 0x72 => .bi w32 w32
  | 0x75 | 0x78 => .tri w64 (if f.wide then w64 else w32) t
  | 0x76 | 0x77 => .tri w32 w32 t
  | 0x79 | 0x7A | 0x7C => .bi w64 t
  | 0x7B => .tri w64 t t
  | 0x7D => .bi w64 w32
  | 0x7E => .bi w64 t
  | 0x80 | 0x81 => .un w32
  | 0x83 | 0x84 => .bi w64 w32
  | 0x87 | 0x88 => .tri w32 w32 w32
  | 0x89 => { Reads.tri w32 w32 w32 with d := some t }
  | 0x90 | 0x91 => { Reads.nil with b := some w32 }
  | 0x92 => .un w32
  | 0x93 | 0x94 | 0x95 | 0x96 | 0x97 | 0x98 => .un w64
  | _ => .nil

/-- Rows 0xA to 0xE. -/
def readsRest (op : Nat) (e : Ext) : Reads :=
  let p2 := Rd.pack2 e.ty
  let p4 := Rd.pack4 e.ty
  match op with
  | 0xA0 | 0xA7 => { Reads.nil with c := some w32 }
  | 0xA5 => { Reads.nil with b := some w32 }
  | 0xB2 => .bi w64 w32
  | 0xB4 | 0xBB => .bi w32 w32
  | 0xB5 | 0xB6 => .un w64
  | 0xB9 | 0xBA | 0xC1 | 0xC5 | 0xC7 => .un w32
  | 0xC6 => .bi w32 w32
  | 0xC8 | 0xC9 => .bi w64 w32
  | 0xD0 | 0xD1 | 0xD2 | 0xD4 | 0xD5 | 0xD8 | 0xD9 | 0xDA | 0xE0 | 0xE1 | 0xE2 | 0xE4 | 0xE5 => .bi p2 p2
  | 0xD3 | 0xE3 => .tri p2 p2 p2
  | 0xD6 | 0xD7 | 0xE6 | 0xE7 | 0xE8 => .un p2
  | 0xDB | 0xDC | 0xDD | 0xDE => .bi p4 p4
  | 0xDF => .un p4
  | 0xE9 => .un w32
  | 0xEA => .bi w32 w32
  | _ => .nil

/-- How an instruction reads its positions. In base forms a signed 32-bit displacement or shift count reads as its 32
bits. -/
def Form.reads (f : Form) : Reads :=
  if f.op < 0x60 then readsArith f.op f.e
  else if f.op < 0xA0 then readsMem f
  else readsRest f.op f.e

/-- A small integer in a float format, exactly (R100). -/
def smallFloat (t : Ty) (x : Int) : Nat := ((fmtOf t).encode .rn (Num.ofInt x)).1

/-- One element that stands for an integer, at its width (R100, R109). -/
def elemOf (t : Ty) (x : Int) : Nat := if t.isFloat then smallFloat t x else wrap t.width x

/-- An integer as the operand that a position reads: an immediate, or a predicate as 0 or 1 (R49, R100, R109, R337). -/
def Rd.ofInt (r : Rd) (x : Int) : DWord :=
  match r with
  | .one t =>
    if t.isFloat then BitVec.ofNat 64 (smallFloat t x)
    else if t.is64 then BitVec.ofNat 64 (wrap 64 x)
    else BitVec.ofNat 64 (wrap 32 x)
  | .pack2 t => BitVec.ofNat 64 (elemOf t x * (1 + 2 ^ 16))
  | .pack4 t => BitVec.ofNat 64 (elemOf t x * (1 + 2 ^ 8 + 2 ^ 16 + 2 ^ 24))

/-- The value that an operand gives a lane; `hand` is the value of a class 10 operand for the lane (R99). A 64-bit operand
that names a hand-off value takes its high word from a free value (log entry 8). -/
def Strand.operand (t : Strand) (r : Rd) (lit : Option DWord) (hand : Word) (o : Opd) (l : Nat) : DWord :=
  match o with
  | .v n => if r.wide then pairOf (t.vAt n.toNat l) (t.vAt (n.toNat + 1) l) else (t.vAt n.toNat l).setWidth 64
  | .s n => if r.wide then pairOf (t.sAt n.toNat) (t.sAt (n.toNat + 1)) else (t.sAt n.toNat).setWidth 64
  | .p n => r.ofInt (if t.pAt n.toNat l then 1 else 0)
  | .h _ _ => if r.wide then pairOf hand (Config.handOffHigh hand) else hand.setWidth 64
  | .imm b => r.ofInt b.toInt
  | .lit => if r.wide then lit.getD 0 else (lit.getD 0 &&& 0xFFFFFFFF#64)
  | _ => 0

/-! ## The registers of a form -/

/-- The operand specs of a form in the positions D, A, B, C. -/
def Form.specs (f : Form) : List Opd := [f.e.d, f.e.a, f.e.b, f.e.c]

/-- The class 10 operands that a form reads. -/
def Form.hands (f : Form) : List (Nat × Nat) :=
  f.specs.filterMap fun o => match o with | .h s d => some (s.toNat, d.toNat + 1) | _ => none

/-- A register name lies beyond the header's counts (R45). -/
def outOfRange (h : Header) : Opd → Bool
  | .v n => decide (h.vregs ≤ n.toNat)
  | .s n => decide (h.sregs ≤ n.toNat)
  | .w n => decide (h.views ≤ n.toNat)
  | .t n => decide (h.tiles ≤ n.toNat)
  | _ => false

/-- Check 4 of R106. -/
def Form.regRange (f : Form) (h : Header) : Bool :=
  (f.specs.any (outOfRange h)) || match f.e.view with | some n => decide (h.views ≤ n.toNat) | none => false

/-- A register name for the scoreboard: v, s or p with its number. -/
abbrev RegName := Nat × Nat

/-- The registers that a spec names, with the odd half of a pair; p7 depends on nothing (R49). -/
def regsOf (wide : Bool) : Opd → List RegName
  | .v n => if wide then [(0, n.toNat), (0, n.toNat + 1)] else [(0, n.toNat)]
  | .s n => if wide then [(1, n.toNat), (1, n.toNat + 1)] else [(1, n.toNat)]
  | .p n => if n = 7 then [] else [(2, n.toNat)]
  | _ => []

/-- The cells that write D (R107 and the entries). LOOP also reads it. -/
def hasDst (op : Nat) : Bool :=
  match op / 16 with
  | 0x1 | 0x2 | 0x3 | 0x4 | 0x5 | 0xD => true
  | 0xE => decide (op ≠ 0xEA)
  | 0x7 => decide (op ≤ 0x74) || op = 0x7A || op = 0x7B || op = 0x7E
  | 0x8 => decide (0x85 ≤ op) && decide (op ≤ 0x88)
  | _ =>
    op = 0x07 || op = 0x62 || op = 0x63 || op = 0x91 || op = 0x95 || op = 0x96 || op = 0x97 || op = 0xB3 || op = 0xB6 ||
      op = 0xB7 || op = 0xBB || op = 0xC0 || op = 0xC5

/-- D is a 64-bit destination. -/
def Form.dstWide (f : Form) : Bool :=
  match f.op with
  | 0x1C | 0x1D | 0x2B => false
  | 0x7E | 0x87 | 0x95 => true
  | _ => f.e.ty.is64

/-- The destination registers of a form, IADDC's carry among them. -/
def Form.dsts (f : Form) : List RegName :=
  (if hasDst f.op then regsOf f.dstWide f.e.d else []) ++ (if f.op = 0x2C then regsOf false f.e.c else [])

/-- The source registers of a form, its guard included. -/
def Form.srcs (f : Form) : List RegName :=
  let one (r : Option Rd) (o : Opd) : List RegName := match r with | some r => regsOf r.wide o | none => []
  regsOf false (.p f.e.g.reg) ++ (one f.reads.a f.e.a ++ one f.reads.b f.e.b ++ one f.reads.c f.e.c ++ one f.reads.d f.e.d)

/-- The registers that an instruction reads or writes (R64, R124). -/
def Form.touches (f : Form) : List RegName := f.dsts ++ f.srcs

/-- VXR and VXW depend on every v register (R64). -/
def Form.anyV (f : Form) : Bool := f.op = 0xE9 || f.op = 0xEA

/-! ## Forms of kept instructions -/

/-- The form of the words of a legal instruction. -/
def Form.ofNat (w : Nat) : Form :=
  let op := opOf w
  match lOf w with
  | 0 => if isPlainCell op || isBranchCell op then Form.plain op (guardOf w) 1 else Form.ofBase op (baseOf w)
  | 2 => if isBranchCell op then Form.plain op (guardOf w) 3 else Form.ofLit op (baseOf w) (lit2Of w)
  | _ =>
    match extOf w with
    | some e => Form.ofExt op e
    | none => Form.plain op (guardOf w) (lengthWords (lOf w))

/-- The words of an instruction as a number, first word lowest; 0 for a happening. -/
def wordsOf (i : Instr) : Nat := ((encode i).map (·.2)).getD 0

/-- The form of an instruction; one that traps by its words has no operand. -/
def Form.ofInstr (i : Instr) : Form :=
  match encode i with
  | some (n, w) => if legalWords w then Form.ofNat w else Form.plain 0xFF (guardOf w) n
  | none => Form.plain 0xFF { reg := 7, neg := false } 1

end Sys2Proof.Machine
end

