-- ==== Sys2Proof/Machine/Chain.lean ====
section
/-! DEFINITION. Item-ordered chains: generation counts and sealing, HandOff, publishing, the Welt, SPILL and
back-pressure (R132 to R151). -/
namespace Sys2Proof.Machine

/-- Item count M of a grid. -/
def Grid.items (g : Grid) : Nat := g.record.items.toNat

/-- The crew index of an item (R19). -/
def Grid.crewOf (g : Grid) (item : Nat) : Nat := item / (32 * g.record.nstrand)

/-- The strand and lane of an item within its crew (R19). -/
def Grid.placeOf (g : Grid) (item : Nat) : Nat × Nat := (item / 32 % g.record.nstrand, item % 32)

/-- The dispatched strand that holds an item. -/
def State.strandOfItem? (s : State) (g : Grid) (item : Nat) : Option Strand :=
  s.strand? { crew := { grid := g.id, idx := g.crewOf item }, strand := (g.placeOf item).1 }

/-- MODE of a slot: 0 unused, 1 STICKY, 2 PASS (R44). -/
def Grid.mode (g : Grid) (h : Nat) : Nat := ((g.header.chain.getD h (0, 0)).1).toNat

/-- Distance k is declared for a slot (R44). -/
def Grid.dist (g : Grid) (h k : Nat) : Bool := decide (1 ≤ k) && (g.header.chain.getD h (0, 0)).2.getLsbD (k - 1)

/-- G(i, h) (R136). -/
def State.genOf (s : State) (g : Grid) (item h : Nat) : Nat :=
  match s.strandOfItem? g item with
  | some t => (SMap.look 0 t.gen (32 * h + item % 32)).toNat
  | none => 0

/-- The item has ended (R29). -/
def State.itemEnded (s : State) (g : Grid) (item : Nat) : Bool :=
  match s.strandOfItem? g item with
  | some t => hasLane t.ended (item % 32)
  | none => false

/-- Sealed(i, h) (R137): by HSEAL or by ending; a slot with MODE 0 is never sealed. -/
def State.itemSealed (s : State) (g : Grid) (item h : Nat) : Bool :=
  decide (g.mode h ≠ 0) &&
    match s.strandOfItem? g item with
    | some t => hasLane (t.ended ||| SMap.look 0 t.sealedBy h) (item % 32)
    | none => false

/-- The published generation (j, h, g). -/
def Grid.pub? (g : Grid) (item h gen : Nat) : Option Pub :=
  g.chain.pubs.find? fun p => p.item = item && p.slot = h && p.gen = gen

/-- Input(h, d) (R135). -/
def Grid.input (g : Grid) (h d : Nat) : Word := nthWord g.chain.input (8 * h + (d - 1))

/-- A published value as its reader sees it: once delivered, and held in a place for that reader (R148). With it comes
the scope of its HPUT (R147). -/
def Grid.valueFor (g : Grid) (reader item h gen : Nat) : Option (Word × Scope) :=
  match g.pub? item h gen with
  | some p => if p.delivered && p.places.any (fun x => x.1 = reader) then some (p.value, p.scope) else none
  | none => none

/-- The last value of an item as a reader takes it for its later generations (R139). R138 frees its place once the reader has itself
sealed the slot, and R139 returns it still: such a reader needs no place. (DESIGN CHOICE, log entry 85) -/
def State.lastValue (s : State) (g : Grid) (reader item h gen : Nat) : Option (Word × Scope) :=
  match g.valueFor reader item h gen with
  | some x => some x
  | none =>
    if s.itemSealed g reader h then (g.pub? item h gen).bind fun p => if p.delivered then some (p.value, p.scope) else none else none

/-- Final(j, h) of R139 as the reader sees it. -/
def State.finalFor (s : State) (g : Grid) (reader h : Nat) : Nat → Int → Option (Word × Scope)
  | 0, _ => none
  | fuel + 1, j =>
    if j < 0 then some (g.input h (-j).toNat, .none)
    else
      let n := s.genOf g j.toNat h
      if 0 < n then s.lastValue g reader j.toNat h (n - 1)
      else if g.mode h = 1 then some (g.input h 1, .none)
      else s.finalFor g reader h fuel (j - 1)

/-- The loop of HandOff (R139), from item j on; none where the lane waits (R140). -/
def State.handOffFrom (s : State) (g : Grid) (reader h gen : Nat) : Nat → Int → Option (Word × Scope)
  | 0, _ => none
  | fuel + 1, j =>
    if j < 0 then some (g.input h (-j).toNat, .none)
    else if gen < s.genOf g j.toNat h then g.valueFor reader j.toNat h gen
    else if !(s.itemSealed g j.toNat h) then none
    else if g.mode h = 1 then s.finalFor g reader h (fuel + 1) j
    else s.handOffFrom g reader h gen fuel (j - 1)

/-- HandOff(i, h, k) (R139): the value and the scope under which it was published, or none while the lane waits. -/
def State.handOff (s : State) (g : Grid) (i h k : Nat) : Option (Word × Scope) :=
  s.handOffFrom g i h (s.genOf g i h) (i + 2) ((i : Int) - k)

/-- The value Final(j, h) as the device reads it at grid completion (R145), places apart. -/
def State.finalValue (s : State) (g : Grid) (h : Nat) : Nat → Int → Word
  | 0, _ => 0
  | fuel + 1, j =>
    if j < 0 then g.input h (-j).toNat
    else
      let n := s.genOf g j.toNat h
      if 0 < n then ((g.pub? j.toNat h (n - 1)).map (·.value)).getD 0
      else if g.mode h = 1 then g.input h 1
      else s.finalValue g h fuel (j - 1)

/-! ## Who needs a generation, and where it is kept -/

/-- The readers of a PASS generation from item c on: c while it has not ended and not published it, and, where c has sealed
without publishing it, the readers beyond (R138, R139). -/
def State.passNeeders (s : State) (g : Grid) (h gen : Nat) : Nat → Nat → List Nat
  | 0, _ => []
  | fuel + 1, c =>
    if g.items ≤ c || gen < s.genOf g c h then []
    else
      (if s.itemEnded g c then [] else [c]) ++
        (if s.itemSealed g c h then s.passNeeders g h gen fuel (c + 1) else [])

/-- The items that need generation `gen` of an item on a slot (R138). -/
def State.needers (s : State) (g : Grid) (item h gen : Nat) : List Nat :=
  if g.mode h = 2 then s.passNeeders g h gen (g.items - item) (item + 1)
  else
    (span 1 8).filterMap fun k =>
      let c := item + k
      if g.dist h k && decide (c < g.items) && !(s.itemEnded g c) &&
          (decide (s.genOf g c h ≤ gen) || (decide (gen + 1 = s.genOf g item h) && !(s.itemSealed g c h)))
        then some c else none

/-- The crew of an item is resident. -/
def State.itemResident (s : State) (g : Grid) (item : Nat) : Bool :=
  match s.crew? { grid := g.id, idx := g.crewOf item } with
  | some c => decide (c.state = .resident)
  | none => false

/-- How many generations of a slot the Welt holds for an item (R148). -/
def weltCount (pubs : List Pub) (item h : Nat) : Nat :=
  (pubs.filter fun p => p.slot = h && p.places.contains (item, Place.welt)).length

/-- The SPILL units in use: one for each producing strand, slot and generation with a spilled copy (R150). -/
def spillUnits (pubs : List Pub) : List (Nat × Nat × Nat) :=
  ((pubs.filter fun p => p.places.any fun x => x.2 = Place.spill).map fun p => (p.item / 32, p.slot, p.gen)).eraseDups

/-- A copy of `p` can be spilled: its unit is in use already, or a unit is free (R150, R151). -/
def spillRoom (c : Chain) (pubs : List Pub) (p : Pub) : Bool :=
  let units := spillUnits pubs
  units.contains (p.item / 32, p.slot, p.gen) || decide (units.length < c.spillBytes / 128)

/-- The place for one more copy of `p`, for a reader: the Welt if its crew is resident and fewer than four generations of
the slot are there, else SPILL if it has room (R148). -/
def State.placeFor (s : State) (g : Grid) (pubs : List Pub) (p : Pub) (reader : Nat) : Option Place :=
  if s.itemResident g reader && decide (weltCount pubs reader p.slot < 4) then some .welt
  else if spillRoom g.chain pubs p then some .spill else none

/-- Replace a published generation in the list. -/
def putPub (pubs : List Pub) (p : Pub) : List Pub :=
  modWhere (fun q => q.item = p.item && q.slot = p.slot && q.gen = p.gen) (fun _ => p) pubs

/-- Copies for the readers that have none yet, as far as there is room. -/
def State.fillPlaces (s : State) (g : Grid) (pubs : List Pub) (p : Pub) : List Nat → List Pub × Pub
  | [] => (pubs, p)
  | r :: t =>
    if p.places.any fun x => x.1 = r then s.fillPlaces g pubs p t
    else
      match s.placeFor g pubs p r with
      | some pl =>
        let q := { p with places := p.places ++ [(r, pl)] }
        s.fillPlaces g (putPub pubs q) q t
      | none => s.fillPlaces g pubs p t

/-- The chain with new published generations, PEAK kept (R133). -/
def Chain.withPubs (c : Chain) (pubs : List Pub) : Chain :=
  { c with pubs := pubs, peak := max c.peak ((spillUnits pubs).length) }

/-- Places that no reader needs any more are freed (R138). While a new reader, to whom a sealed item forwards the generation,
has no copy yet, one place stays allocated (R148). -/
def State.tidyChain (s : State) (gid : Nat) : State :=
  match s.grid? gid with
  | none => s
  | some g =>
    if !g.record.chained then s
    else
      let pubs := g.chain.pubs.map fun p =>
        let need := s.needers g p.item p.slot p.gen
        let kept := p.places.filter fun x => need.contains x.1
        let stale := p.places.filter fun x => !(need.contains x.1)
        let short := need.any fun r => !(kept.any fun x => x.1 = r)
        { p with places := if short then kept ++ stale.take 1 else kept }
      s.modGrid gid fun g => { g with chain := g.chain.withPubs pubs }

/-- The items that will need a generation once it is published (R138). -/
def State.needOnce (s : State) (g : Grid) (item h gen : Nat) : List Nat :=
  if g.mode h = 2 then s.needers g item h gen
  else
    (span 1 8).filterMap fun k =>
      let c := item + k
      if g.dist h k && decide (c < g.items) && !(s.itemEnded g c) &&
          (decide (s.genOf g c h ≤ gen) || !(s.itemSealed g c h)) then some c else none

/-- Publish(i, h, G, x) of R143 with its deliveries started (R148); none where a delivery finds no free unit (R151). -/
def State.publish (s : State) (gid item h gen : Nat) (x : Word) (scope : Scope) (member : Nat) : Option State :=
  match s.grid? gid with
  | none => none
  | some g =>
    let p : Pub :=
      { item := item, slot := h, gen := gen, value := x, scope := scope, member := member, places := [], delivered := false }
    let need := s.needOnce g item h gen
    let pubs0 := g.chain.pubs ++ [p]
    let r := s.fillPlaces g pubs0 p need
    if need.all fun c => r.2.places.any fun y => y.1 = c then
      some (s.modGrid gid fun g => { g with chain := g.chain.withPubs r.1 })
    else none

/-- HANDOFF_DELIVERY (R148, R149): the generation arrives; copies move from SPILL into the Welt and on to the readers to
whom it is forwarded, as room allows. -/
def State.deliver (s : State) (gid item h gen : Nat) : State :=
  match s.grid? gid with
  | none => s
  | some g =>
    match g.pub? item h gen with
    | none => s
    | some p =>
      let moved := p.places.map fun x =>
        if x.2 = .spill && s.itemResident g x.1 && decide (weltCount g.chain.pubs x.1 h < 4) then (x.1, Place.welt) else x
      let p := { p with delivered := true, places := moved }
      let r := s.fillPlaces g (putPub g.chain.pubs p) p (s.needers g item h gen)
      (s.modGrid gid fun g => { g with chain := g.chain.withPubs r.1 }).tidyChain gid

/-- A delivery is due for a generation: it has not arrived, a reader lacks a copy that has room, or a spilled copy could
move into the Welt. -/
def State.deliveryDue (s : State) (g : Grid) (p : Pub) : Bool :=
  !p.delivered ||
    (s.needers g p.item p.slot p.gen).any (fun r =>
      !(p.places.any fun x => x.1 = r) && (s.placeFor g g.chain.pubs p r).isSome) ||
    p.places.any fun x =>
      x.2 = .spill && s.itemResident g x.1 && decide (weltCount g.chain.pubs x.1 p.slot < 4)

end Sys2Proof.Machine
end

