-- ==== Sys2Proof/Machine/Report.lean ====
section
/-! DEFINITION. Steering tables and their records, the tables that place slices, homes and pseudo-channels, and the retirement report
that firmware keeps of them in segment 0 (R120 to R122, R169, R170, R253, R292, R296, R311 to R313). -/
namespace Sys2Proof

/-! ## Pages (R13) -/

/-- The bytes of an entry's page (R13). -/
def Xlate.bytes (x : Xlate) : Nat := if x.big then 2097152 else 65536

/-- How many pieces of 64 KiB a page has. -/
def Xlate.pages (x : Xlate) : Nat := if x.big then 32 else 1

/-- The address of the page's first byte, aligned to the page's size. -/
def Xlate.base (x : Xlate) : Nat := x.frame % 2 ^ 64 / x.bytes * x.bytes

/-- The number of the first 64 KiB of the page that translates an address. -/
def Xlate.first (x : Xlate) (va : Nat) : Nat := va / 65536 / x.pages * x.pages

namespace Machine

/-! ## The steering record (R120, R122) -/

/-- L, the live lanes of a cluster (R120). -/
def Cluster.width (c : Cluster) : Nat := ((List.range 34).filter fun b => c.live.getLsbD b).length

/-- B of R120; 0 for a retired cluster (R121, R122). -/
def beatsOfWidth (l : Nat) : Nat := if l < 8 then 0 else ceilDiv 32 (min l 32)

/-- The beat of a logical lane on a cluster of L live lanes (R120). -/
def beatOf (l lane : Nat) : Nat := lane / max 1 (min l 32)

/-- The live physical lanes of a cluster, ascending. -/
def Cluster.lanes (c : Cluster) : List Nat := (List.range 34).filter fun b => c.live.getLsbD b

/-- B of R120 for a cluster; 0 where it has retired. -/
def Cluster.beats (c : Cluster) : Nat := beatsOfWidth c.width

/-- ENTRY of a logical lane: its beat and its physical lane; 0xFF in a retired cluster (R122). -/
def Cluster.entry (c : Cluster) (lane : Nat) : Nat :=
  if c.beats = 0 then 0xFF else beatOf c.width lane * 64 + c.lanes.getD (lane % min c.width 32) 0

/-- The 64 bytes of a cluster's steering record (R122). -/
def steeringRecord (c : Cluster) : List Byte :=
  (lanes.map fun l => BitVec.ofNat 8 (c.entry l)) ++ toBytes 8 (c.width + c.beats * 2 ^ 8) ++ toBytes 8 c.live.toNat ++
    toBytes 8 c.retCycle.toNat ++ toBytes 8 0

/-- The cluster that a stored record describes: the record is rejected where it is not the record of its LIVE and RETCYCLE (R122),
whatever byte differs. (DESIGN CHOICE, log entry 89) -/
def clusterOf? (b : List Byte) : Option Cluster :=
  let c : Cluster := { live := BitVec.ofNat 34 (fromBytes ((b.drop 0x28).take 8)), retCycle := BitVec.ofNat 64 (fromBytes ((b.drop 0x30).take 8)) }
  if steeringRecord c = b then some c else none

/-! ## Where lines lie (R169, R170, R253, R292, R296) -/

/-- Live slices given in turn to the entries whose slice has retired (R170). -/
def remapFrom (retired live : List Nat) : Nat → List Nat → List Nat
  | _, [] => []
  | n, k :: t => if retired.contains k then live.getD (n % live.length) k :: remapFrom retired live (n + 1) t
                 else k :: remapFrom retired live n t

/-- The Remap table of a list of retired slices (R170). -/
def remapOf (retired : List Nat) : List Nat :=
  remapFrom retired ((List.range 64).filter fun k => !(retired.contains k)) 0 (List.range 64)

/-- The address hash f of R169. -/
def sliceHash (pa : Nat) : Nat :=
  bits pa 12 7 ^^^ bits pa 18 13 ^^^ bits pa 24 19 ^^^ bits pa 30 25 ^^^ bits pa 36 31 ^^^ bits pa 42 37 ^^^ bits pa 48 43

/-- Slice(PA) of R169. -/
def Die.slice (d : Die) (pa : Nat) : Nat := d.remap.getD (sliceHash pa) 0

/-- The HomeTable of the live dies (R253). -/
def homeTableOf (live : List Nat) : List Nat := (List.range 64).map fun k => live.getD (k % live.length) 0

/-- The home die of a physical address (R253). -/
def State.homeDie (s : State) (pa : Nat) : Nat :=
  let h := bits pa 21 16 ^^^ bits pa 27 22 ^^^ bits pa 33 28 ^^^ bits pa 39 34 ^^^ bits pa 45 40 ^^^ bits pa 48 46
  s.homeTable.getD h 0

/-- The die that serves an address of a page (R169). -/
def State.servingDie (s : State) (reach : Reach) (pa : Nat) : Nat :=
  match reach with
  | .die d => d
  | _ => s.homeDie pa

/-- The segment of 2 MiB that a key lies in; only device memory below 2^40 has segments (R292). -/
def segOf (key : Nat) : Nat := key / 2097152

/-- The quadrant of a segment, and the segment's number in it (R292). -/
def quadOf (seg : Nat) : Nat := seg % 72

/-- lseg of R292. -/
def lsegOf (seg : Nat) : Nat := seg / 72

/-- The link die of a quadrant (R292). -/
def linkDie (quad : Nat) : Nat := (quad / 4 + 5 * (quad % 4)) % 9

/-- A segment's bit in the near map is set (R293). -/
def State.nearSeg (s : State) (seg : Nat) : Bool := s.nearMap.contains seg

/-- The (slot, piece) of an HBM4E address (R292). -/
def State.slotPiece (s : State) (pa : Nat) : Nat × Nat :=
  let seg := segOf pa
  (if s.nearSeg seg then lsegOf seg % 64 else bits pa 13 8, lsegOf seg / 64 % 32)

/-- Where PcMap places an entry: the pseudo-channel, and 0 for its own share, 1 and 2 for its reserve places (R296). -/
def Quadrant.placeOf (q : Quadrant) (n : Nat) : Nat × Nat :=
  match q.moved.find? fun x => x.1 = n with
  | some x => x.2
  | none => (n / 32, 0)

/-- PC of an HBM4E address: its pseudo-channel, and its place there (R292, R296). -/
def State.channelOf (s : State) (pa : Nat) : Nat × Nat :=
  let x := s.slotPiece pa
  (s.quads.getD (quadOf (segOf pa)) Quadrant.full).placeOf (32 * x.1 + x.2)

/-! ## The tables of the report (R311 to R313) -/

/-- A live die. -/
def State.dieLives (s : State) (d : Nat) : Bool := match s.die? d with | some x => x.live | none => false

/-- The head of the report: REPSEQ, the warm flag and the live dies; and the HomeTable (R311). -/
def State.headTable (s : State) : List Byte :=
  let dies := (List.range 9).foldl (fun n d => n + if s.dieLives d then 2 ^ d else 0) 0
  toBytes 64 (s.repSeq.toNat + (if s.warm then 2 ^ 32 else 0) + dies * 2 ^ 41) ++ s.homeTable.map (BitVec.ofNat 8)

/-- The Remap of a die. -/
def State.remapTable (s : State) (d : Nat) : List Byte :=
  match s.die? d with | some x => x.remap.map (BitVec.ofNat 8) | none => []

/-- The retire list of a quadrant. -/
def State.retireTable (s : State) (n : Nat) : List Byte :=
  match s.quads[n]? with
  | some q => toBytes 64 (q.retired.getD 0 0 + q.retired.getD 1 0 * 2 ^ 8 + min 2 q.retired.length * 2 ^ 16)
  | none => []

/-- The steering record of a cluster, by 4 × core + cluster. -/
def State.clusterTable (s : State) (n : Nat) : List Byte :=
  match s.core? (n / 4) with | some k => steeringRecord (k.clusters.getD (n % 4) Cluster.full) | none => []

/-- Digest of the running image, REPSEQ and the serial number; what follows them up to 0x1804F is free (R313, log entry 6). -/
def State.idTable (s : State) : List Byte :=
  (List.range 64).map (Config.digestByte s.image) ++ toBytes 4 s.repSeq.toNat ++ toBytes 8 Config.serial.toNat ++
    (List.range 4).map (Config.signatureByte s.image s.repSeq.toNat)

/-- The 32 bytes of a black-box record (R312). -/
def boxBytes (b : BlackBox) : List Byte :=
  toBytes 8 b.cycle.toNat ++ toBytes 4 b.kind.toNat ++ toBytes 4 b.seq.toNat ++ toBytes 16 b.data.toNat

/-- Entry n = 32 × slot + piece of a quadrant's PcMap, in its two bytes (R311). -/
def State.pcmapEntry (s : State) (quad n : Nat) : List Byte :=
  let p := (s.quads.getD quad Quadrant.full).placeOf n
  toBytes 2 (p.1 + p.2 * 2 ^ 6)

/-- A byte of the whole report, as every table of it is written at a start (R311). -/
def State.reportByte (s : State) (off : Nat) : Byte :=
  let at_ (base size : Nat) (table : Nat → List Byte) : Byte := (table ((off - base) / size)).getD ((off - base) % size) 0
  if off < 0x80 then at_ 0 0x80 fun _ => s.headTable
  else if off < 0x2C0 then at_ 0x80 64 s.remapTable
  else if off < 0x400 then 0
  else if off < 0x1600 then at_ 0x400 64 s.retireTable
  else if off < 0x2000 then 0
  else if off < 0x16400 then at_ 0x2000 64 s.clusterTable
  else if off < 0x18000 then 0
  else if off < 0x18050 then at_ 0x18000 0x50 fun _ => s.idTable
  else if off < 0x18800 then 0
  else if off < 0x18F01 then Config.publicKey (off - 0x18800)
  else if off < 0x19000 then 0
  else if off < 0x19504 then Config.signatureByte s.image s.repSeq.toNat (off - 0x19000 + 4)
  else if off < 0x20000 then 0
  else if off < 0x140000 then
    at_ 0x20000 32 fun n =>
      match s.die? (n / 4096) with
      | some d => (d.log[n % 4096]?).elim [] boxBytes
      | none => []
  else if off < 0x188000 then at_ 0x140000 2 fun n => s.pcmapEntry (n / 2048) (n % 2048)
  else 0

/-! ## The report in memory -/

/-- Bytes of the report, at offsets of segment 0. -/
abbrev Report := List (Nat × List Byte)

/-- The steering record of a cluster in the report. -/
def State.reportCluster (s : State) (n : Nat) : Report := [(0x2000 + 64 * n, s.clusterTable n)]

/-- The Remap of a die in the report. -/
def State.reportRemap (s : State) (d : Nat) : Report := [(0x80 + 64 * d, s.remapTable d)]

/-- The retire list and the PcMap of a quadrant in the report. -/
def State.reportQuad (s : State) (n : Nat) : Report :=
  [(0x400 + 64 * n, s.retireTable n), (0x140000 + 4096 * n, (List.range 2048).flatMap (s.pcmapEntry n))]

/-- The black box of a die in the report, in ascending SEQ (R312). -/
def State.reportBox (s : State) (d : Nat) : Report :=
  match s.die? d with
  | some x => [(0x20000 + 131072 * d, x.log.flatMap boxBytes)]
  | none => []

/-- The attestation (R313). -/
def State.reportAttest (s : State) : Report :=
  [(0x18000, s.idTable), (0x18800, (List.range 1793).map Config.publicKey),
   (0x19000, (List.range 1284).map fun k => Config.signatureByte s.image s.repSeq.toNat (k + 4))]

/-- Every table of the report (R311). -/
def State.reportAll (s : State) : Report :=
  (0, s.headTable) :: ((List.range 9).flatMap s.reportRemap ++ (List.range 72).flatMap s.reportQuad ++
    (List.range 1296).flatMap s.reportCluster ++ s.reportAttest ++ (List.range 9).flatMap s.reportBox)

/-- A byte of device memory as the cold start left it that State.reset follows: the report in segment 0 (R311), and 0 elsewhere
(DESIGN CHOICE, log entry 2). -/
def resetByte (key : Nat) : Byte := if key < 2097152 then State.reset.reportByte key else 0

end Machine
end Sys2Proof
end

