-- ==== Sys2Proof/Machine/Mem.lean ====
section
/-! DEFINITION. Memory and what stands before it: bytes at their coherence point with poison, scope records, the L1 of a
core with its write-backs, releases and acquires, the constant and instruction caches, and translation with its faults
(R158 to R175, R179 to R196, R283, R284, R291, R293, R298, R308). -/
namespace Sys2Proof.Machine

/-! ## The black box (R312) -/

/-- A record taken into a die's black-box store, which keeps the last 4,096. -/
def State.logData (s : State) (die kind : Nat) (data : BitVec 128) : State :=
  s.modDie die fun d =>
    let r : BlackBox := { cycle := s.cycle, kind := BitVec.ofNat 8 kind, seq := d.logSeq, data := data }
    { d with log := (d.log ++ [r]).drop (d.log.length + 1 - 4096), logSeq := d.logSeq + 1 }

/-- An event recorded in a die's black-box store. -/
def State.logEvent (s : State) (die kind unit addr : Nat) : State := s.logData die kind (Config.boxData kind unit addr)

/-- An event of a kernel: its KERNID is copied into DATA, [63:0] (R42). (DESIGN CHOICE, log entry 18) -/
def State.logKernel (s : State) (die kind unit addr : Nat) (kernid : DWord) : State :=
  s.logData die kind ((Config.boxData kind unit addr).setWidth 64 ++ kernid)

/-! ## Bytes of memory -/

/-- The key of an address of device memory, host memory or a peer's memory (R306). -/
def keyOf (target : Nat) (addr : Nat) : Nat := target * 2 ^ 64 + addr

/-- What an unlisted key reads as: the free value of a stretch that is not kept (log entry 9), else what the cold start left. -/
def State.lostAt (s : State) (key : Nat) : Byte :=
  match s.lost.find? fun x => decide (x.1 ≤ key) && decide (key < x.1 + x.2.1) with
  | some x => Config.lostByte x.2.2 key
  | none => resetByte key

/-- The `n` bytes from a key on are not kept: each holds a free value until it is written. -/
def State.lose (s : State) (key n : Nat) : State := { s with lost := (key, n, s.drawn) :: s.lost, drawn := s.drawn + 1 }

/-- One byte of memory; a byte that nothing has written reads as the cold start left it, or as the free value of a stretch that is
not kept. (DESIGN CHOICE, log entry 2) -/
def State.memByte (s : State) (key : Nat) : Byte := SMap.look 0 s.mem key ^^^ s.lostAt key

/-- One byte of memory written. -/
def State.setByte (s : State) (key : Nat) (b : Byte) : State :=
  { s with mem := SMap.put 0 s.mem key (b ^^^ s.lostAt key) }

/-- The canonical form of memory: keys rise and no listed byte is what an unlisted one reads as. -/
def Memory.wf (m : SMap Byte) : Bool := SMap.wf 0 m

/-- The place at which a WAITM watches a line: at its resolution point, or in the L1 of a core (R270). -/
def watchKey (line : Nat) (l1 : Option Nat) : Nat := 512 * line + match l1 with | some core => core + 1 | none => 0

/-- A write of the watched places that `sel` names. -/
def State.noteWrite (s : State) (sel : Nat → Bool) : State :=
  if s.watched.isEmpty then s else { s with watched := s.watched.map fun x => if sel x.1 then (x.1, x.2 + 1) else x }

/-- `n` bytes of memory from a key on. -/
def State.readMem (s : State) (key n : Nat) : List Byte := (span key n).map s.memByte

/-- A number of `n` bytes read from memory, lowest byte first (R4). -/
def State.readNat (s : State) (key n : Nat) : Nat := fromBytes (s.readMem key n)

/-- The bytes of a list written from a key on. -/
def State.putBytes (s : State) : Nat → List Byte → State
  | _, [] => s
  | key, b :: t => (s.setByte key b).putBytes (key + 1) t

/-- The last address of the HBM4E data and the bounds of the LPDDR tier (R291). -/
def inHbm (pa : Nat) : Bool := decide (pa < 863993069568)
/-- The LPDDR tier (R291). -/
def inLpddr (pa : Nat) : Bool := decide (2 ^ 40 ≤ pa) && decide (pa < 2 ^ 40 + 2048000000000)

/-- A device physical address lies in a quadrant that has retired (R297). -/
def State.quadDead (s : State) (pa : Nat) : Bool :=
  inHbm pa && match s.quads[quadOf (segOf pa)]? with | some q => q.dead | none => false

/-- A line is poisoned (R298); every line of a quadrant that has retired is (R297). (DEDUCED, log entry 74) -/
def State.poisoned (s : State) (line : Nat) : Bool := s.poison.contains line || s.quadDead (128 * line)

/-- The lines that a write of `n` bytes covers in whole. -/
def wholeLines (key n : Nat) : List Nat :=
  (span (key / 128) (n / 128 + 1)).filter fun l => decide (key ≤ 128 * l) && decide (128 * l + 128 ≤ key + n)

/-- Bytes written at their coherence point; a write of a whole line clears its poison (R298). -/
def State.writeMem (s : State) (key : Nat) (bytes : List Byte) : State :=
  let s := (s.putBytes key bytes).noteWrite fun k => decide (k % 512 = 0) && decide (key / 128 ≤ k / 512) && decide (128 * (k / 512) < key + bytes.length)
  if s.poison.isEmpty then s
  else { s with poison := s.poison.filter fun l => !((wholeLines key bytes.length).contains l) }

/-- A number written as `n` bytes. -/
def State.writeNat (s : State) (key n v : Nat) : State := s.writeMem key (toBytes n v)

/-- Byte `b` of a line's data. -/
def lineByte (d : BitVec 1024) (b : Nat) : Byte := (d >>> (8 * b)).setWidth 8

/-- A line's data from its bytes. -/
def lineOf (bytes : List Byte) : BitVec 1024 := BitVec.ofNat 1024 (fromBytes bytes)

/-- Byte `b` of a line's data replaced. -/
def setLineByte (d : BitVec 1024) (b : Nat) (x : Byte) : BitVec 1024 :=
  (d &&& ~~~((0xFF#1024) <<< (8 * b))) ||| ((x.setWidth 1024) <<< (8 * b))

/-- A line as it stands in memory. -/
def State.memLine (s : State) (line : Nat) : BitVec 1024 := lineOf (s.readMem (128 * line) 128)

/-- The bytes of a line that a mask names, as offsets. -/
def maskBytes (m : BitVec 128) : List Nat := (List.range 128).filter fun b => m.getLsbD b

/-- The masked bytes of a line written to memory (R162). -/
def State.writeLine (s : State) (line : Nat) (d : BitVec 1024) (m : BitVec 128) : State :=
  let s := ((maskBytes m).foldl (fun s b => s.setByte (128 * line + b) (lineByte d b)) s).noteWrite fun k => decide (k = watchKey line none)
  if m = BitVec.allOnes 128 then { s with poison := s.poison.filter (· ≠ line) } else s

/-- The poison of every line of which a write has covered all 128 bytes is cleared (R298). -/
def State.coverPoison (s : State) (keys : List Nat) : State :=
  if s.poison.isEmpty then s
  else { s with poison := s.poison.filter fun l => !((span (128 * l) 128).all fun k => keys.contains k) }

/-- Single bytes written at their coherence point as one write (R298). -/
def State.writeBytes (s : State) (kbs : List (Nat × Byte)) : State :=
  ((kbs.foldl (fun s x => s.setByte x.1 x.2) s).noteWrite fun k => kbs.any fun x => decide (k = watchKey (x.1 / 128) none)).coverPoison
    (kbs.map (·.1))

/-! ## Lines in L2 (R14, R169, R176, R193, R312) -/

/-- Some core of a die has its cap die (R312). -/
def State.dieCap (s : State) (d : Nat) : Bool := (s.cores.drop (36 * d)).take 36 |>.any fun c => c.capDie

/-- The L2 slice that keeps a die's black box in its way 15, where the die has no cap die: its highest live slice (R312). -/
def State.boxSlice (s : State) (d : Nat) : Option Nat :=
  if s.dieCap d then none
  else (s.die? d).bind fun x => ((List.range 64).filter fun k => !(x.retiredSlices.contains k)).getLast?

/-- The set of its slice that a line falls in. -/
def l2SetOf (line : Nat) : Nat := Config.l2Set line % 1536

/-- The ways that a fill of a mask may take in a set; 1,024 sets of the slice that holds the black box have no way 15 for fills (R176,
R312). -/
def State.fillWays (s : State) (d slice set : Nat) (mask : BitVec 16) : List Nat :=
  (List.range 16).filter fun w => mask.getLsbD w && !(decide (w = 15) && decide (s.boxSlice d = some slice) && decide (set < 1024))

/-- A fill takes a way of its set: a free one, or that of a line which leaves L2, its scope record being dropped (R193).
(DESIGN CHOICE, log entry 5) -/
def State.l2Fill (s : State) (d : Nat) (mask : BitVec 16) (line : Nat) : State :=
  match s.die? d with
  | none => s
  | some x =>
    if x.l2.any fun e => e.line = line then s
    else
      let slice := x.slice (128 * line)
      let set := l2SetOf line
      let here := x.l2.filter fun e => e.slice = slice && e.set = set
      let ways := s.fillWays d slice set mask
      match ways.find? fun w => !(here.any fun e => e.way = w) with
      | some w => s.modDie d fun x => { x with l2 := { line := line, slice := slice, set := set, way := w, filled := s.memLine line } :: x.l2 }
      | none =>
        match ways[Config.l2Way s.drawn % ways.length]? with
        | none => s
        | some w =>
          let gone := (here.filter fun e => e.way = w).map (·.line)
          { s.modDie d fun x =>
              { x with
                l2 := { line := line, slice := slice, set := set, way := w, filled := s.memLine line } ::
                  x.l2.filter fun e => !(gone.contains e.line) } with
            records := s.records.filter fun r => !(gone.contains r.line), drawn := s.drawn + 1 }

/-- The L2 way mask of a context's partition on a die (R176). -/
def State.waysOf (s : State) (ctx d : Nat) : BitVec 16 :=
  match (s.ctx? ctx).bind fun c => s.part? c.part with
  | some p => p.ways.getD d (BitVec.allOnes 16)
  | none => BitVec.allOnes 16

/-- A line is held in the L2 of this device: device memory, and host memory under CXL (R182, R306). -/
def State.inL2 (s : State) (target : Nat) : Bool := decide (target = 0) || (decide (target = 1) && decide (s.port = .cxl))

/-- An access of a context to a line of a page fills it at its serving slice (R169). -/
def State.l2Access (s : State) (ctx line : Nat) (x : Xlate) : State :=
  if s.inL2 x.target.toNat then
    let d := s.servingDie x.reach (128 * line % 2 ^ 64)
    s.l2Fill d (s.waysOf ctx d) line
  else s

/-! ## Arithmetic at the bank (R318, R319, R331) -/

/-- The new value of ATOM and RED. -/
def bankOp (op : BitVec 3) (ty : Ty) (old b : DWord) : DWord :=
  let w := ty.width
  let o := old.toNat % 2 ^ w
  let x := b.toNat % 2 ^ w
  let less : Bool := if ty.isSigned then decide (sext w o < sext w x) else decide (o < x)
  if ty = .f32 then
    match op.toNat with
    | 0 => BitVec.ofNat 64 (fadd fp32 .rn o x).1
    | 1 => BitVec.ofNat 64 (fminmax fp32 false o x).1
    | 2 => BitVec.ofNat 64 (fminmax fp32 true o x).1
    | _ => BitVec.ofNat 64 x
  else
    match op.toNat with
    | 0 => BitVec.ofNat 64 ((o + x) % 2 ^ w)
    | 1 => BitVec.ofNat 64 (if less then o else x)
    | 2 => BitVec.ofNat 64 (if less then x else o)
    | 3 => BitVec.ofNat 64 (o &&& x)
    | 4 => BitVec.ofNat 64 (o ||| x)
    | 5 => BitVec.ofNat 64 (o ^^^ x)
    | _ => BitVec.ofNat 64 x

/-- The bytes of an access of a type (R318, R365, R402); a .dt6 group takes three bytes (R199). -/
def tySize (t : Ty) : Nat :=
  match t with
  | .s64 | .n64 => 8
  | .b32 | .s32 | .n32 | .f32 => 4
  | .f16 | .bf16 | .s16 | .n16 => 2
  | .dt6 => 3
  | .a80 => 10
  | _ => 1

/-! ## Scope instances and records -/

/-- The SCOPE codes in their order; an access without a scope records .crew (R161). -/
def scopeRank : Scope → Nat
  | .none => 1
  | .crew => 1
  | .cohort => 2
  | .grid => 3
  | .sys => 4

/-- The cohorts that a crew belongs to, in ascending cohort number (R33). -/
def Grid.memberships (g : Grid) (crew : Nat) : List Nat :=
  (List.range g.cohorts.length).filter fun k => (g.cohorts.getD k []).contains crew

/-- The scope instance of a scoped operation of a crew (R180); none where the crew does not hold the membership (R33). -/
def Grid.instOf (g : Grid) (crew : Nat) (sc : Scope) (m : Nat) : Option Inst :=
  match sc with
  | .none | .crew => some (.crew { grid := g.id, idx := crew })
  | .cohort => ((g.memberships crew)[m]?).map fun k => .cohort g.id k
  | .grid => some (.grid g.id)
  | .sys => some .sys

/-- The launch of an instance. -/
def instGrid : Inst → Option Nat
  | .crew c => some c.grid
  | .cohort g _ => some g
  | .grid g => some g
  | .sys => none

/-- Every crew that instance J of the grid includes is included by instance I of the same grid (R181). -/
def Grid.instIncludes (g : Grid) (i j : Inst) : Bool :=
  let has (c : Nat) : Bool :=
    match i with
    | .crew r => decide (r.idx = c)
    | .cohort _ k => (g.cohorts.getD k []).contains c
    | _ => true
  match j with
  | .crew r => has r.idx
  | .cohort _ k => (g.cohorts.getD k []).all has
  | _ =>
    match i with
    | .crew _ => decide (g.ncrew = 1)
    | .cohort _ k => decide (g.ncrew ≤ (g.cohorts.getD k []).eraseDups.length)
    | _ => true

/-- Instance I contains instance J (R181). -/
def State.instContains (s : State) (i j : Inst) : Bool :=
  match i, j with
  | .sys, _ => true
  | _, .sys => false
  | _, _ =>
    if instGrid i = instGrid j then
      match instGrid i with
      | some n => match s.grid? n with | some g => g.instIncludes i j | none => false
      | none => false
    else false

/-- The scope record of a line; one of a completed launch counts as none (R191, R193). -/
def State.recordOf (s : State) (line : Nat) : Option Inst :=
  match s.records.find? fun r => r.line = line with
  | none => none
  | some r =>
    match instGrid r.inst with
    | none => some r.inst
    | some n =>
      match s.grid? n with
      | some g => if g.state = .completed then none else some r.inst
      | none => none

/-- The scope checker passes a synchronising access (R192). -/
def State.scopeOk (s : State) (line : Nat) (i : Inst) : Bool :=
  match s.recordOf line with
  | none => true
  | some j => s.instContains i j

/-- A record is set (R191). (DESIGN CHOICE, log entry 64) -/
def State.setRecord (s : State) (line : Nat) (i : Inst) : State :=
  { s with records := { line := line, inst := i } :: s.records.filter fun r => r.line ≠ line }

/-- The die whose L2 holds a line, else its home die: where a write that names no page sets its record (R169, R191).
(DESIGN CHOICE, log entry 64) -/
def State.dieHolding (s : State) (line : Nat) : Nat :=
  ((List.range s.dies.length).find? fun d => match s.die? d with | some x => x.l2.any fun e => e.line = line | none => false).getD
    (s.homeDie (128 * line % 2 ^ 64))

/-- A write of the host, a peer or the front end sets a line's record to .sys (R191). -/
def State.setSysRecord (s : State) (line : Nat) : State :=
  (s.l2Fill (s.dieHolding line) (BitVec.allOnes 16) line).setRecord line .sys

/-- A line holds a scope record in this device: not host memory under PCIe, not a peer's (R182). -/
def State.hasRecord (s : State) (target : Nat) : Bool := s.inL2 target

/-! ## L1 -/

/-- A line of a core's L1. -/
def Core.l1? (c : Core) (line : Nat) : Option L1Line := c.l1.find? fun l => l.line = line

/-- A line's data as the generic path of a core sees it: its L1 copy, or memory. -/
def State.genericLine (s : State) (core line : Nat) : BitVec 1024 × Bool :=
  match (s.core? core).bind fun c => c.l1? line with
  | some l => (l.data, l.bad)
  | none => (s.memLine line, s.poisoned line)

/-- A message reaches its resolution point (R189): the store or reduction is performed there (R172, R195). -/
def State.perform (s : State) : Message → State
  | .write line d m _ => s.writeLine line d m
  | .red key op ty b _ =>
    if s.poisoned (key / 128) then s
    else
      let n := tySize ty
      s.writeNat key n (bankOp op ty (BitVec.ofNat 64 (s.readNat key n)) b).toNat

/-- Every message of a core performed, oldest first. -/
def State.drain (s : State) (core : Nat) : State :=
  match s.core? core with
  | none => s
  | some c => (c.outbox.foldl (fun s m => s.perform m) s).modCore core fun c => { c with outbox := [] }

/-- The PKG writes that a write-back of a line carries (R195). -/
def pkgOf (l : List PkgWrite) (core line : Nat) : List PkgWrite := l.filter fun w => w.core = core && w.line = line

/-- The dirty bytes of every line that `sel` names are sent to memory; DIRTY and WRITERS are cleared (R161, R162). -/
def State.writeBack (s : State) (core : Nat) (sel : L1Line → Bool) : State :=
  match s.core? core with
  | none => s
  | some c =>
    let out := (c.l1.filter fun l => sel l && decide (l.dirty ≠ 0)).map fun l =>
      Message.write l.line l.data l.dirty (pkgOf s.pkgWrites core l.line)
    let gone := (c.l1.filter fun l => sel l && decide (l.dirty ≠ 0)).map (·.line)
    { s.modCore core fun c =>
        { c with
          outbox := c.outbox ++ out
          l1 := modWhere (fun l => sel l && decide (l.dirty ≠ 0)) (fun l => { l with dirty := 0, writers := 0 }) c.l1 } with
      pkgWrites := s.pkgWrites.filter fun w => !(decide (w.core = core) && gone.contains w.line) }

/-- Lines that `sel` names leave L1, their dirty bytes being written back first (R163). -/
def State.invalidate (s : State) (core : Nat) (sel : L1Line → Bool) : State :=
  (s.writeBack core sel).modCore core fun c => { c with l1 := c.l1.filter fun l => !(sel l) }

/-- Release(scope) at a core: dirty lines of a narrower SC are written back, and the writes reach their resolution points
before the release's own effect (R163, R196). -/
def State.release (s : State) (core : Nat) (sc : Scope) : State :=
  (s.writeBack core fun l => decide (scopeRank l.sc < scopeRank sc) ||
    -- at .sys every dirty line that holds an earlier write (R196)
    decide (sc = .sys)).drain core

/-- A line of L1 whose clean bytes are read again from memory. -/
def L1Line.renew (s : State) (l : L1Line) : L1Line :=
  { l with
    data := (maskBytes l.dirty).foldl (fun d b => setLineByte d b (lineByte l.data b)) (s.memLine l.line)
    bad := s.poisoned l.line && decide (l.dirty ≠ BitVec.allOnes 128) }

/-- The clean bytes of the lines of L1 that `sel` names are read again from memory, in place; the core's own writes on their way reach
memory first. (DEDUCED, log entry 90) -/
def State.refresh (s : State) (core : Nat) (sel : L1Line → Bool) : State :=
  let s := s.drain core
  s.modCore core fun c => { c with l1 := modWhere sel (L1Line.renew s) c.l1 }

/-- Acquire(scope) at a core (R163, R164). Lines of SC ≥ S are neither cleaned nor invalidated; beyond L1 their clean bytes are
read again, so that a plain read after the acquire returns no value that R187 excludes. (DEDUCED, log entry 76) -/
def State.acquire (s : State) (core : Nat) (sc : Scope) : State :=
  let t := s.invalidate core fun l => decide (scopeRank l.sc < scopeRank sc) || (decide (sc = .sys) && l.sysFill)
  if scopeRank sc ≤ 1 then t else t.refresh core fun _ => true

/-- A crew slot of a core is left: dirty lines that it wrote are written back, and its bit leaves every line (R165, R260). -/
def State.cleanSlot (s : State) (core slot : Nat) : State :=
  (s.writeBack core fun l => l.writers.getLsbD slot).modCore core fun c =>
    { c with l1 := c.l1.map fun l => { l with writers := l.writers &&& ~~~(1#16 <<< slot) } }

/-- CrewBytes of R27. -/
def crewBytes (g : Grid) : Nat :=
  g.record.nstrand * (g.header.vregs * 128 + g.header.sregs * 4 + 1024) + g.header.localBytes

/-- %ustore (R17). -/
def Core.ustore (c : Core) : Nat := if c.capDie then 12582912 else 6291456

/-- The crews resident on a core, those whose engine operations still run included (R29). -/
def State.crewsOn (s : State) (core : Nat) : List Crew :=
  s.crews.filter fun c => c.core = core && (c.state = .resident || c.state = .draining)

/-- CrewBytes of the crews on a core. -/
def State.bytesOn (s : State) (core : Nat) : Nat :=
  (s.crewsOn core).foldl (fun n c => n + match s.grid? c.grid with | some g => crewBytes g | none => 0) 0

/-- How many lines L1 may hold (R158). -/
def State.l1Lines (s : State) (core : Nat) : Nat :=
  match s.core? core with
  | none => 0
  | some c => (c.ustore - s.bytesOn core) / 128

/-- L1 brought down to `n` lines, the lines filled first leaving first (DESIGN CHOICE, log entry 14). -/
def State.shrinkL1 (s : State) (core n : Nat) : State :=
  match s.core? core with
  | none => s
  | some c =>
    let old := (c.l1.take (c.l1.length - n)).map (·.line)
    if old.isEmpty then s else s.invalidate core fun l => old.contains l.line

/-- A line filled or refreshed in L1 from memory (R161); the core's own writes on their way reach memory first. -/
def State.fillL1 (s : State) (core line ctx vline : Nat) (sc : Scope) (x : Xlate) : State :=
  let s := (s.drain core).l2Access ctx line x
  let s := s.shrinkL1 core (s.l1Lines core - 1)
  let l : L1Line :=
    { line := line, data := s.memLine line, dirty := 0, sc := sc, writers := 0, ctx := ctx,
      sysFill := decide (x.reach = .sys), pkg := decide (x.reach = .pkg), vline := some vline, bad := s.poisoned line }
  s.modCore core fun c => { c with l1 := c.l1.filter (fun k => k.line ≠ line) ++ [l] }

/-- Bytes of one line stored in L1, which allocates it (R161): dirty, with SC = .crew and the slot among the writers. Stores that have
dirtied all 128 bytes of a poisoned line count as a write of the line (R298). (DESIGN CHOICE, log entry 77) -/
def State.storeL1 (s : State) (core slot line ctx vline : Nat) (x : Xlate) (bytes : List (Nat × Byte)) : State :=
  let s := match (s.core? core).bind fun c => c.l1? line with
    | some _ => s
    | none => s.fillL1 core line ctx vline .crew x
  (s.noteWrite fun k => decide (k = watchKey line (some core))).modCore core fun c =>
    { c with
      l1 := modWhere (fun l => l.line = line)
        (fun l =>
          let dirty := bytes.foldl (fun m b => m ||| (1#128 <<< b.1)) l.dirty
          { l with
            data := bytes.foldl (fun d b => setLineByte d b.1 b.2) l.data
            dirty := dirty, sc := .crew, writers := l.writers ||| (1#16 <<< slot), ctx := ctx
            vline := if l.ctx = ctx && l.vline = some vline then l.vline else none
            bad := l.bad && decide (dirty ≠ BitVec.allOnes 128) })
        c.l1 }

/-- An access of a line under a virtual line other than the one it was filled for: it is then taken to meet every view. -/
def State.touchL1 (s : State) (core line ctx vline : Nat) : State :=
  match (s.core? core).bind fun c => c.l1? line with
  | none => s
  | some l =>
    if l.ctx = ctx && (l.vline = some vline || l.vline = none) then s
    else s.modCore core fun c => { c with l1 := modWhere (fun l => l.line = line) (fun l => { l with vline := none }) c.l1 }

/-- A PKG write recorded until it is performed at its home slice (R194, R195). -/
def State.notePkg (s : State) (w : PkgWrite) : State :=
  if s.pkgWrites.contains w then s else { s with pkgWrites := s.pkgWrites ++ [w] }

/-! ## The other paths -/

/-- A line of a clean cache. -/
def lineIn? (l : List CLine) (line ctx : Nat) : Option CLine := l.find? fun c => c.line = line && c.ctx = ctx

/-- PFENCE on the paths of a core: the constant cache and the operand buffers are emptied (R174). -/
def State.pathFence (s : State) (core : Nat) : State := s.modCore core fun c => { c with kcache := [], opbuf := [] }

/-! ## Translation -/

/-- The right that an access needs; the codes are those of ACCESS in a fault record (R284). -/
inductive Right where
  | read | write | fetch | both
  deriving DecidableEq, Repr

/-- ACCESS of a fault record (R284). -/
def Right.code : Right → BitVec 2
  | .read => 0
  | .write => 1
  | .fetch => 2
  | .both => 3

/-- A translation entry grants a right. -/
def grants (x : Xlate) : Right → Bool
  | .read => x.r
  | .write => x.w
  | .fetch => x.x
  | .both => x.r && x.w

/-- The 64 KiB virtual page of an address. -/
def pageOf (va : Nat) : Nat := va / 65536

/-- The key of an address under a translation entry. (DEDUCED, log entry 72) -/
def physKey (x : Xlate) (va : Nat) : Nat := keyOf x.target.toNat (x.base + va % x.bytes)

/-- A segment is NEAR (R293). -/
def State.isNear (s : State) (pa : Nat) : Bool := inHbm pa && s.nearSeg (segOf pa)

/-- An entry's frame: its page lies in the region that its tier names, outside segment 0, which firmware never maps (R311), and in
no quadrant that has retired (R297); a page with the NEAR attribute is a 2 MiB page of a NEAR segment, and no other page is of one
(R291, R293). Tier and NEAR concern device memory alone (R306). (DEDUCED, log entry 75) -/
def State.frameOk (s : State) (x : Xlate) : Bool :=
  let f := x.base
  if x.target ≠ 0 then decide (x.reach = .sys)
  else
    (if x.lpddr then inLpddr f && inLpddr (f + x.bytes - 1) else inHbm f && decide (2097152 ≤ f)) && !(s.quadDead f) &&
      (if x.near then x.big && s.isNear f else !(s.isNear f))

/-- What the page tables of a ROOT hold for a page: a 2 MiB page, or a 64 KiB page. -/
def State.pageEntry (s : State) (root : DWord) (page : Nat) : Option Xlate :=
  match Config.bigPage s.mem root (page / 32) with
  | some x => some { x with big := true }
  | none => (Config.smallPage s.mem root page).map fun x => { x with big := false }

/-- The walk for an address reads a line of the page tables that is uncorrectable (R298, R299). -/
def State.walkLost (s : State) (ctx va : Nat) : Option Nat :=
  (s.ctx? ctx).bind fun c => (Config.walkLines s.mem c.root (pageOf va)).find? s.poisoned

/-- A page-table walk (R283): the entry, or REASON of R284. Addresses at or above 2^57 have no translation (R13), and a walk that meets
an uncorrectable line finds none. (DESIGN CHOICE, log entry 73) -/
def State.walk (s : State) (ctx va : Nat) (a : Right) : Xlate ⊕ BitVec 8 :=
  match s.ctx? ctx with
  | none => .inr 0
  | some c =>
    if 2 ^ 57 ≤ va ∨ (s.walkLost ctx va).isSome then .inr 0
    else
      match s.pageEntry c.root (pageOf va) with
      | none => .inr 0
      | some x => if !(grants x a) then .inr 1 else if s.frameOk x then .inl x else .inr 2

/-- A TLB entry translates an address of a context. -/
def TlbEntry.covers (e : TlbEntry) (ctx va : Nat) : Bool :=
  decide (e.ctx = ctx) && decide (e.page ≤ pageOf va) && decide (pageOf va < e.page + e.x.pages)

/-- A TLB's entry for a page with the right. -/
def tlbFind (l : List TlbEntry) (ctx va : Nat) (a : Right) : Option Xlate :=
  (l.find? fun e => e.covers ctx va && grants e.x a).map (·.x)

/-- The physical die of a core. -/
def dieOf (core : Nat) : Nat := core / 36

/-- The translation that the TLBs of a core hold (R283): the core TLB, then the die TLB. -/
def State.tlbLook (s : State) (core ctx va : Nat) (a : Right) : Option Xlate :=
  match (s.core? core).bind fun c => tlbFind c.tlb ctx va a with
  | some x => some x
  | none => (s.die? (dieOf core)).bind fun d => tlbFind d.tlb ctx va a

/-- An entry taken into both TLBs, of 256 and 16,384 entries: where one is full, the entry taken in first leaves (R14, R15).
(DESIGN CHOICE, log entry 5) -/
def State.tlbFill (s : State) (core ctx va : Nat) (x : Xlate) : State :=
  let put (n : Nat) (l : List TlbEntry) : List TlbEntry :=
    ({ ctx := ctx, page := x.first va, x := x } :: l.filter fun e => !(e.covers ctx va)).take n
  (s.modCore core fun c => { c with tlb := put 256 c.tlb }).modDie (dieOf core) fun d => { d with tlb := put 16384 d.tlb }

/-- A translation with its walk made at once: the entry, or REASON. The walk fills the core's TLB and its die's; a translation that only the
die's TLB holds is used from there, the core's TLB as it was (R14, R15). (DESIGN CHOICE, log entry 5) -/
def State.translate (s : State) (core ctx va : Nat) (a : Right) : State × (Xlate ⊕ BitVec 8) :=
  match s.tlbLook core ctx va a with
  | some x => (s, .inl x)
  | none =>
    match s.walk ctx va a with
    | .inl x => (s.tlbFill core ctx va x, .inl x)
    | .inr r => (s, .inr r)

/-- Translations of a context whose page meets a range are dropped from a list of entries (R303, R406). -/
def tlbDrop (l : List TlbEntry) (ctx : Nat) (all : Bool) (lo hi : Nat) : List TlbEntry :=
  l.filter fun e => !(decide (e.ctx = ctx) && (all || (decide (e.page * 65536 < hi) && decide (lo < (e.page + e.x.pages) * 65536))))

/-! ## Fault records -/

/-- The 32 bytes of a fault record (R284). -/
def faultBytes (f : Fault32) : List Byte :=
  toBytes 8 f.va.toNat ++ toBytes 8 f.kernid.toNat ++
    toBytes 4 (f.ctx % 64 + f.part % 16 * 2 ^ 8 + f.vdie % 16 * 2 ^ 12 + (if f.kind then 2 ^ 17 else 0) +
      f.access.toNat * 2 ^ 18 + f.source.toNat * 2 ^ 20 + f.reason.toNat * 2 ^ 24) ++
    toBytes 4 f.crew.toNat ++ toBytes 4 f.resume.toNat ++ toBytes 4 f.id.toNat

/-- Records of a partition that wait are written to its ring while there is room, oldest first (R308). -/
def State.writeFaults (s : State) (part : Nat) (frptr : Word) : Nat → State
  | 0 => s
  | fuel + 1 =>
    match s.part? part, s.faults.find? fun f => f.part = part && !f.written with
    | some p, some f =>
      if (p.fwptr - frptr).toNat = 2 ^ p.flog then s
      else
        let s := s.writeMem (p.fring.toNat + 32 * (p.fwptr.toNat % 2 ^ p.flog)) (faultBytes f)
        let s := s.writeNat (p.entry.toNat + 0x70) 4 (p.fwptr + 1).toNat
        let s := { s with
          partitions := modNth s.partitions part fun x => x.map fun (p : Partition) => { p with fwptr := p.fwptr + 1, frptr := frptr }
          faults := modWhere (fun g => g.part = part && g.id = f.id) (fun g => { g with written := true }) s.faults }
        s.writeFaults part frptr fuel
    | _, _ => s

/-- An uncorrectable error is met that R299 has to confine: UNCORRECTABLE_ERROR acts on it in its turn. (DESIGN CHOICE, log entry 73) -/
def State.meet (s : State) (e : ErrorSite) : State := if s.found.contains e then s else { s with found := s.found ++ [e] }

/-- FRPTR is read and waiting records are written (R308); an FRPTR that is uncorrectable is an error of the partition (R299). -/
def State.pollFaults (s : State) (part : Nat) : State :=
  match s.part? part with
  | none => s
  | some p =>
    let key := p.entry.toNat + 0x74
    if s.poisoned (key / 128) then s.meet { line := key / 128, dirtyOf := none, firmware := none }
    else
      let s := s.writeFaults part (BitVec.ofNat 32 (s.readNat key 4)) s.faults.length
      { s with faults := s.faults.filter fun g => !(g.kind && g.written) }

/-- A fault record posted (R284, R308): it takes the next FAULTID of its partition, and the device reads FRPTR first. A
record of kind 1 is settled once it is written. -/
def State.postFault (s : State) (f : Fault32) : State × Nat :=
  match s.part? f.part with
  | none => (s, 0)
  | some p =>
    let f := { f with id := p.nextFault, written := false }
    let s := { s with
      partitions := modNth s.partitions f.part fun x => x.map fun (p : Partition) => { p with nextFault := p.nextFault + 1 }
      faults := s.faults ++ [f] }
    let s := match s.walkLost f.ctx f.va.toNat with
      | some line => if f.kind then s else s.meet { line := line, dirtyOf := some f.ctx, firmware := none }
      | none => s
    (s.pollFaults f.part, f.id.toNat)

/-- Two records name one fault: context, page, kind of access, source and crew are the same. (DEDUCED, log entry 36) -/
def sameFault (f g : Fault32) : Bool :=
  !g.kind && g.part = f.part && g.ctx = f.ctx && pageOf g.va.toNat = pageOf f.va.toNat && g.access = f.access &&
    g.source = f.source && g.crew = f.crew

/-- A page fault of a party: the fault already posted, or a new one (R283: misses to one page share one walk). -/
def State.pageFault (s : State) (f : Fault32) : State × Nat :=
  match s.faults.find? (sameFault f) with
  | some g => (s, g.id.toNat)
  | none => s.postFault f

/-- A fault of a partition is posted and not settled. -/
def State.faultOpen (s : State) (part id : Nat) : Bool := s.faults.any fun f => f.part = part && f.id.toNat = id && !f.kind

end Sys2Proof.Machine
end

