-- ==== Sys2Proof/Machine/Views.lean ====
section
/-! DEFINITION. Views: descriptors, addresses and footprints, MayMeet, the locks of engine operations (R198 to R206). -/
namespace Sys2Proof.Machine

/-- The types of view elements (R199); .a80 has no element size. -/
def viewTy (t : Ty) : Bool := decide (t ≠ .a80)

/-- E of R199. -/
def elemSize (t : Ty) : Nat := tySize t

/-- Extent j, 1 for a dimension at or beyond RANK (R215). -/
def View.n (v : View) (j : Nat) : Nat := if j < v.rank then (nthWord v.extent j).toNat else 1

/-- Stride j, read as signed. -/
def View.sigma (v : View) (j : Nat) : Int := (nthWord v.stride j).toInt

/-- Origin j, read as signed. -/
def View.orig (v : View) (j : Nat) : Int := (nthWord v.origin j).toInt

/-- A sum over the dimensions of a view. -/
def View.sum (v : View) (f : Nat → Int) : Int := (List.range v.rank).foldl (fun a j => a + f j) 0

/-- Anchor of R200. -/
def View.anchor (v : View) : Int := (v.base.toNat : Int) + elemSize v.ty * v.sum fun j => v.sigma j * v.orig j

/-- Addr(i) of R200. -/
def View.addr (v : View) (i : Nat → Int) : Int := v.anchor + elemSize v.ty * v.sum fun j => v.sigma j * i j

/-- Lo of R200. -/
def View.lo (v : View) : Int := v.anchor + elemSize v.ty * v.sum fun j => min 0 (v.sigma j * ((v.n j : Int) - 1))

/-- Hi of R200. -/
def View.hi (v : View) : Int :=
  v.anchor + elemSize v.ty * (v.sum fun j => max 0 (v.sigma j * ((v.n j : Int) - 1))) + elemSize v.ty

/-- StrideGcd of R202. -/
def View.strideGcd (v : View) : Nat :=
  (List.range v.rank).foldl (fun g j => if 2 ≤ v.n j then Nat.gcd g (v.sigma j).natAbs else g) 0

/-- An index vector is in bounds (R200). -/
def View.inBounds (v : View) (i : Nat → Int) : Bool :=
  (List.range v.rank).all fun j => decide (0 ≤ i j) && decide (i j < (v.n j : Int))

/-- The read right. -/
def View.canRead (v : View) : Bool := v.right.getLsbD 0
/-- The write right. -/
def View.canWrite (v : View) : Bool := v.right.getLsbD 1

/-- How many elements a view has. -/
def View.count (v : View) : Nat := (List.range 4).foldl (fun a j => a * v.n j) 1

/-- The k-th in-bounds index vector in index order, i_0 fastest (R215). -/
def View.index (v : View) (k : Nat) (j : Nat) : Nat :=
  k / ((List.range j).foldl (fun a m => a * v.n m) 1) % v.n j

/-- The address of the k-th element in index order. -/
def View.elemAddr (v : View) (k : Nat) : Nat := (v.addr fun j => (v.index k j : Int)).toNat

/-! ## The overlap test (R202) -/

/-- What MayMeet needs of a view or of a generic access. -/
structure Foot where
  universal : Bool
  generic : Bool
  isLocal : Bool
  lo : Int
  hi : Int
  anchor : Int
  e : Nat
  gcd : Nat
  deriving DecidableEq, Repr

/-- The footprint of a view. -/
def View.foot (v : View) : Foot :=
  { universal := v.universal, generic := false, isLocal := v.isLocal, lo := v.lo, hi := v.hi, anchor := v.anchor,
    e := elemSize v.ty, gcd := v.strideGcd }

/-- A generic access of `n` bytes: a one-element view (R202). -/
def genericFoot (isLocal : Bool) (a : Int) (n : Nat) : Foot :=
  { universal := false, generic := true, isLocal := isLocal, lo := a, hi := a + n, anchor := a, e := n, gcd := 0 }

/-- One element of a view as the Caliper tests it (R204, R209): an access through a universal view meets everything. -/
def View.elementFoot (v : View) (a : Int) : Foot :=
  { universal := v.universal, generic := false, isLocal := v.isLocal, lo := a, hi := a + elemSize v.ty, anchor := a,
    e := elemSize v.ty, gcd := 0 }

/-- MayMeet(X, Y) (R202). -/
def mayMeet (x y : Foot) : Bool :=
  if x.universal || y.universal then true
  else if x.isLocal ≠ y.isLocal then false
  else if x.hi ≤ y.lo ∨ y.hi ≤ x.lo then false
  else if x.generic || y.generic then true
  else
    let g : Nat := Nat.gcd (x.e * x.gcd) (y.e * y.gcd)
    if g = 0 then true
    else
      let r : Int := (x.anchor - y.anchor) % (g : Int)
      !(decide ((y.e : Int) ≤ r) && decide ((x.e : Int) ≤ (g : Int) - r))

/-! ## Locks (R205, R206) -/

/-- A lock: the operation that holds it, whether it is a write lock, the register and the view it held at issue. -/
structure Lock where
  op : Nat
  isWrite : Bool
  view : ViewUse
  deriving DecidableEq, Repr

/-- A view as a lock of an operation. -/
def lockOf (op : Nat) (w : Bool) : Option ViewUse → List Lock
  | some v => [{ op := op, isWrite := w, view := v }]
  | none => []

/-- The locks of a copy-engine operation (R205). -/
def CopyOp.locks (o : CopyOp) : List Lock :=
  match o.kind with
  | .drains _ _ => []
  | _ => lockOf o.id false o.src ++ lockOf o.id false o.aux ++ lockOf o.id true o.dst

/-- The locks of a tile operation (R205). -/
def TileOp.locks (o : TileOp) : List Lock :=
  match o.kind with
  | .mma wa wb _ _ => lockOf o.id false (some wa) ++ lockOf o.id false (some wb)
  | .mlda w _ => lockOf o.id false (some w)
  | .msta w _ _ _ _ => lockOf o.id true (some w)
  | _ => []

/-- The tile operations of a crew that have not ended. -/
def State.tileOpsOf (s : State) (c : Crew) : List TileOp :=
  match s.core? c.core with
  | some k => k.tileQ.filter fun o => o.crew = c.ref
  | none => []

/-- Every lock of a crew (R205): its copies, its recorded follow-on products and its tile operations. -/
def State.locksOf (s : State) (c : Crew) : List Lock :=
  (c.tags.flatMap fun t => match t.op with | some o => o.locks | none => []) ++
    (c.follows.flatMap fun f => lockOf f.id false (some f.wa) ++ lockOf f.id false (some f.wb)) ++
    (s.tileOpsOf c).flatMap TileOp.locks

/-- An item's access with a footprint meets a lock that forbids it (R206). -/
def lockHit (locks : List Lock) (writes : Bool) (f : Foot) : Bool :=
  locks.any fun l => (writes || l.isWrite) && mayMeet f l.view.view.foot

/-- A view register holds a lock (R206). -/
def regLocked (locks : List Lock) (reg : Nat) : Bool := locks.any fun l => l.view.reg = reg

/-- An engine operation waits: a lock placed by an earlier operation conflicts with one of its own (R206). -/
def engineHeld (locks mine : List Lock) (op : Nat) : Bool :=
  locks.any fun l =>
    decide (l.op < op) && mine.any fun m => (l.isWrite || m.isWrite) && mayMeet l.view.view.foot m.view.view.foot

/-! ## Descriptors (R198, R208) -/

/-- The CTRL word of a descriptor, as bits [31:0] at byte 8 (R198). -/
def View.ctrl (v : View) : Nat :=
  v.rank + (if v.isLocal then 2 ^ 4 else 0) + v.right.toNat * 2 ^ 8 + v.ty.code * 2 ^ 12

/-- A descriptor read from its 64 bytes; none where a reserved field or code is set (R198, check 3 of R208). -/
def viewOfBytes (b : List Byte) : Option View :=
  let w (i : Nat) : Nat := fromBytes ((b.drop (4 * i)).take 4)
  let ctrl := w 2
  let rank := ctrl % 8
  let right := ctrl / 2 ^ 8 % 4
  let word (i : Nat) : Word := BitVec.ofNat 32 (w i)
  if ctrl / 2 ^ 3 % 2 ≠ 0 ∨ ctrl / 2 ^ 5 % 8 ≠ 0 ∨ ctrl / 2 ^ 10 % 4 ≠ 0 ∨ ctrl / 2 ^ 16 ≠ 0 then none
  else
    some
      { base := BitVec.ofNat 64 (w 0 + w 1 * 2 ^ 32), rank := rank, isLocal := decide (ctrl / 2 ^ 4 % 2 = 1),
        right := BitVec.ofNat 2 right, ty := Ty.ofCode (ctrl / 2 ^ 12 % 16), fill := word 3,
        extent := (List.range 4).map fun j => word (4 + j), stride := (List.range 4).map fun j => word (8 + j),
        origin := (List.range 4).map fun j => word (12 + j), universal := false }

/-- The limits of the fields on their own (R198; check 3 of R208). -/
def View.fieldsOk (v : View) : Bool :=
  decide (1 ≤ v.rank) && decide (v.rank ≤ 4) && decide (v.right ≠ 0) && viewTy v.ty &&
    (if v.isLocal then decide (v.base.toNat < 2 ^ 32) else decide (v.base.toNat < 2 ^ 57)) &&
    (List.range 4).all fun j =>
      if j < v.rank then decide (1 ≤ (nthWord v.extent j).toNat) && decide ((nthWord v.extent j).toNat ≤ 2 ^ 31)
      else decide (nthWord v.extent j = 0) && decide (nthWord v.stride j = 0) && decide (nthWord v.origin j = 0)

/-- BASE is aligned for E (R199; check 4 of R208). -/
def View.aligned (v : View) : Bool := decide (v.ty = .dt6) || decide (v.base.toNat % elemSize v.ty = 0)

/-- The footprint lies in its space (R200; check 5 of R208). -/
def View.footOk (v : View) (localBytes : Nat) : Bool :=
  decide (0 ≤ v.lo) && decide (v.hi ≤ if v.isLocal then (localBytes : Int) else (2 ^ 57 : Int))

/-- Checks 3 to 5 of R208: the trap with %trapaddr, BASE for a misaligned one and Lo for a footprint out of its space
(DEDUCED, log entry 15). -/
def View.check (v : View) (localBytes : Nat) : Option (Trap × DWord) :=
  if !v.fieldsOk then some (.illegalOperand, 0)
  else if !v.aligned then some (.misalign, v.base)
  else if !(v.footOk localBytes) then some (.permission, BitVec.ofInt 64 v.lo) else none

/-- A field of a view by its selector; locks as they stand (R208). -/
def View.field (v : View) (locks : List Lock) (reg sel : Nat) : Option Word :=
  let half (x : Int) (hi : Bool) : Word :=
    BitVec.ofNat 32 ((x % (2 ^ 64 : Int)).toNat / (if hi then 2 ^ 32 else 1))
  let ro := locks.any fun l => l.view.reg = reg && !l.isWrite
  let wr := locks.any fun l => l.view.reg = reg && l.isWrite
  match sel with
  | 0 => some (loWord v.base)
  | 1 => some (hiWord v.base)
  | 2 =>
    some (BitVec.ofNat 32 (v.ctrl + (if v.universal then 2 ^ 31 else 0) + (if ro then 2 ^ 30 else 0) +
      (if wr then 2 ^ 29 else 0)))
  | 3 => some v.fill
  | 16 => some (half v.lo false)
  | 17 => some (half v.lo true)
  | 18 => some (half v.hi false)
  | 19 => some (half v.hi true)
  | _ =>
    if 4 ≤ sel ∧ sel < 8 then some (nthWord v.extent (sel - 4))
    else if 8 ≤ sel ∧ sel < 12 then some (nthWord v.stride (sel - 8))
    else if 12 ≤ sel ∧ sel < 16 then some (nthWord v.origin (sel - 12)) else none

/-- A view with one field replaced; none where VSET may not write the selector (R208). -/
def View.setField (v : View) (sel : Nat) (x : Word) : Option View :=
  match sel with
  | 0 => some { v with base := pairOf x (hiWord v.base) }
  | 1 => some { v with base := pairOf (loWord v.base) x }
  | 3 => some { v with fill := x }
  | _ =>
    if 4 ≤ sel ∧ sel < 8 then some { v with extent := putNth v.extent (sel - 4) x }
    else if 8 ≤ sel ∧ sel < 12 then some { v with stride := putNth v.stride (sel - 8) x }
    else if 12 ≤ sel ∧ sel < 16 then some { v with origin := putNth v.origin (sel - 12) x } else none

/-- The Armature entries in use on a physical die (R203): views of its crews that are not universal. -/
def State.armatureUsed (s : State) (die : Nat) : Nat :=
  s.crews.foldl
    (fun n c =>
      if dieOf c.core = die then n + (c.views.filter fun v => match v with | some v => !v.universal | none => false).length
      else n)
    0

/-- A view register of a crew. -/
def Crew.view? (c : Crew) (n : Nat) : Option View := (c.views[n]?).join

/-- An L1 line of a context meets a view: the bytes of its virtual line intersect [Lo, Hi) (R211). -/
def View.meetsLine (v : View) (ctx : Nat) (l : L1Line) : Bool :=
  v.universal ||
    (!v.isLocal &&
      match l.vline with
      | none => true
      | some n => decide (l.ctx = ctx) && decide ((128 * n : Int) < v.hi) && decide (v.lo < (128 * (n + 1) : Int)))

end Sys2Proof.Machine
end

