-- ==== Sys2Proof/Machine/Time.lean ====
section
/-! DEFINITION. The passing of cycles (R56, R289, R314), the beats of an instruction (R120, R123), the end of items, strands
and crews (R29, R36), and barriers (R323). -/
namespace Sys2Proof.Machine

/-! ## Cycles -/

/-- The watchdog count of a crew advances while its context holds the device (R289). -/
def Crew.ages (c : Crew) : Bool := (c.state = .resident || c.state = .swapped) && !c.halted

/-- `n` core cycles pass (R56); every `mhz` of them make a microsecond of reference time (R289, R314). (DESIGN CHOICE, log entry 7) -/
def State.tick (s : State) (n : Nat) : State :=
  let total := s.refPart + n
  let us := total / s.mhz
  { s with
    cycle := s.cycle + BitVec.ofNat 64 n
    refPart := total % s.mhz
    refTime := s.refTime + us
    crews := if us = 0 then s.crews else modWhere Crew.ages (fun c => { c with wdCount := c.wdCount + us }) s.crews }

/-- The cluster on which a strand is placed. -/
def State.clusterOf (s : State) (c : Crew) (t : Strand) : Cluster :=
  match s.core? c.core with
  | some k => k.clusters.getD t.cluster Cluster.full
  | none => Cluster.full

/-- What a party of a core touches lies in a bank whose contents are being copied to a spare: it is held until the copy ends (R127).
(DESIGN CHOICE, log entry 35) -/
def State.bankHeld (s : State) (core party : Nat) : Bool :=
  match s.core? core with
  | some k => k.banks.copying.any fun b => Config.inBank core b.1 party
  | none => false

/-- The parties of a crew slot: a strand, the copy-engine operations of a strand, and the tile operations of the crew (R127). -/
def strandParty (slot strand : Nat) : Nat := 32 * slot + strand
/-- The copy-engine operations of a strand. -/
def copyParty (slot strand : Nat) : Nat := 512 + 32 * slot + strand
/-- The tile operations of a crew. -/
def tileParty (slot : Nat) : Nat := 1024 + slot

/-- The beats of a per-lane instruction (R123). -/
def beatsUsed (l : Nat) (act : Mask) : Nat := max 1 ((lanesOf act).map (beatOf l)).eraseDups.length

/-! ## Ending -/

/-- Every AFTER tag of a follow-on product is DONE with CODE 0 (R221). -/
def Crew.afterDone (c : Crew) (f : FollowOn) : Bool :=
  (List.range 64).all fun n =>
    !(f.after.getLsbD n) || match c.tags[n]? with | some t => decide (t.state = .done) && decide (t.code = 0) | none => false

/-- A follow-on product is due but for the crew's residence (R221). -/
def Crew.followDue (c : Crew) (f : FollowOn) : Bool := f.copyDone && c.afterDone f

/-- Engine operations of a crew that still run: copies in flight and tile operations, a due follow-on among them (R29); a
drain tag of a CPYM that waits for receivers is none (R222), unless a CKILL has still to end it (R219). -/
def State.engineBusy (s : State) (c : Crew) : Bool :=
  (c.tags.any fun t =>
    match t.op with
    | some o => (match o.kind with | .drains _ _ => o.cancelled.isSome | _ => true)
    | none => false) || !(s.tileOpsOf c).isEmpty || !(c.follows.isEmpty)

/-- Every strand of a crew has ended. -/
def Crew.over (c : Crew) : Bool := c.strands.all Strand.isOver

/-- A crew whose strands have all ended begins to end: follow-ons not yet due are discarded (R29, R221); it has ended once its
engine operations have (R29): its store, tiles, tags and views are freed, and its dirty lines are written back (R260). -/
def State.settleCrew (s : State) (r : CrewRef) : State :=
  match s.crew? r with
  | none => s
  | some c =>
    if !c.over || c.state = .ended then s
    else
      let s := s.modCrew r fun c =>
        match c.state with
        | .resident => { c with state := .draining, follows := c.follows.filter c.followDue }
        | .swapped | .preempted => { c with follows := [] }
        | _ => c
      if s.engineBusy ((s.crew? r).getD c) then s
      else
        let s := s.modCrew r fun c =>
          { c with state := .ended, store := [], tiles := [], tags := [], views := [], wakes := [] }
        (s.cleanSlot c.core c.slot).modGrid r.grid fun g => { g with ended := g.ended + if c.killed then 0 else 1 }

/-- The items of the lanes `m` of a strand end: every slot is sealed by it (R29, R137). -/
def State.endItems (s : State) (r : StrandRef) (m : Mask) : State :=
  s.modStrand r fun t => { t with ended := t.ended ||| (m &&& t.present) }

/-! ## Barriers -/

/-- A barrier's record; one that nothing has named stands at generation 0 (R323). -/
def Grid.barrier (g : Grid) (k : BarKey) : Barrier :=
  (g.barriers.find? fun b => b.key = k).getD { key := k, gen := 0, arrived := [] }

/-- A barrier's record replaced. -/
def Grid.setBarrier (g : Grid) (b : Barrier) : Grid :=
  { g with barriers := b :: g.barriers.filter fun x => x.key ≠ b.key }

/-- A crew counts as arrived, or no longer counts: every strand that has not ended has arrived (R36). -/
def State.crewArrived (s : State) (g : Grid) (b : Barrier) (idx : Nat) : Bool :=
  match s.crew? { grid := g.id, idx := idx } with
  | none => g.cut
  | some c => c.strands.all fun t => t.isOver || b.arrived.contains (idx, t.idx)

/-- Every participant counted by R36 has arrived. -/
def State.barrierFull (s : State) (g : Grid) (b : Barrier) : Bool :=
  match b.key.scope with
  | .crew i => s.crewArrived g b i
  | .cohort k => (g.cohorts.getD k []).all fun i => s.crewArrived g b i
  | .grid => (g.cut || decide (g.ncrew ≤ g.dispatched.length)) && g.dispatched.all fun i => s.crewArrived g b i

/-- The barrier that a BAR or BARC of a crew names (R322, R323). -/
def Grid.barKey (g : Grid) (crew : Nat) (e : Ext) : BarKey :=
  { scope :=
      match e.scope with
      | .cohort => .cohort ((g.memberships crew).getD (e.aux >>> 6).toNat 0)
      | .grid => .grid
      | _ => .crew crew
    n := (e.aux &&& 3#8).toNat }

/-- The BAR or BARC at which a path waits names the barrier (R324). -/
def ReplayEntry.namesBarrier (g : Grid) (idx : Nat) (k : BarKey) (e : ReplayEntry) : Bool :=
  let f := Form.ofInstr e.instr
  (f.op = 0xB0 || f.op = 0xB1) && decide (g.barKey idx f.e = k)

/-- The generation of a barrier has completed: what a BAR or BARC of the launch waits for there is over, so that a trap no longer finds
it waiting (R324). -/
def State.wakeBarriers (s : State) (g : Grid) (k : BarKey) : State :=
  { s with
    crews := modWhere (fun c => c.grid = g.id)
      (fun c =>
        { c with strands := c.strands.map fun t =>
          { t with
            splits := modWhere (fun p => p.stood.any (ReplayEntry.namesBarrier g c.idx k))
              (fun p => { p with wait := .none, since := s.cycle, stood := none }) t.splits } }) s.crews }

/-- The generation of a barrier completes if it can (R323). -/
def State.barrierStep (s : State) (gid : Nat) (k : BarKey) : State :=
  match s.grid? gid with
  | none => s
  | some g =>
    let b := g.barrier k
    if !b.arrived.isEmpty && s.barrierFull g b then
      (s.modGrid gid fun g => g.setBarrier { b with gen := b.gen + 1, arrived := [] }).wakeBarriers g k
    else s

/-- Every barrier of a launch is looked at: an ending may complete one (R36). -/
def State.barrierSweep (s : State) (gid : Nat) : State :=
  match s.grid? gid with
  | none => s
  | some g => (g.barriers.map (·.key)).foldl (fun s k => s.barrierStep gid k) s

/-- What follows once items of a strand have ended: barriers no longer count them, chain generations are no longer needed, and
the crew may end (R29, R36, R138, R146). -/
def State.afterEnd (s : State) (r : StrandRef) : State :=
  -- a BAR that waits for the other items of its strand looks again
  let s := s.modStrand r fun t => { t with splits := modWhere (fun p => p.wait = .barrier) (fun p => { p with wait := .none, since := s.cycle }) t.splits }
  let s := s.barrierSweep r.crew.grid
  let s := s.tidyChain r.crew.grid
  s.settleCrew r.crew

end Sys2Proof.Machine
end

