-- ==== Sys2Proof/Machine/Ops.lean ====
section
/-! DEFINITION. One issue of one instruction: its context (party, lanes, operands), the checks before it does anything
(R106), what holds it back (R64, R124, R140, R276), what follows it (paths, beats, replay), taking a trap as one shared
operation and returning from it beside it (R274 to R282). -/
namespace Sys2Proof.Machine

/-- The trap codes (R274). -/
def trapCode : Trap → Nat
  | .illegalOpcode => 0x01 | .illegalOperand => 0x02 | .regRange => 0x03 | .misalign => 0x04 | .permission => 0x05
  | .privateLimit => 0x06 | .viewLocked => 0x07 | .viewBounds => 0x08 | .scopeMismatch => 0x09 | .chainOff => 0x0A
  | .chainMode => 0x0B | .tagError => 0x0C | .uncorrectable => 0x0D | .swtrap => 0x0E | .bkpt => 0x0F
  | .watchdog => 0x10 | .mmaShape => 0x11 | .launchBad => 0x12 | .faultUnresolved => 0x13

/-! ## The context of an issue -/

/-- What a meaning sees: the state with the strand's due results written, the issue, its grid, crew and strand, the form, and
Active(). -/
structure Ctx where
  s : State
  iss : Issue
  g : Grid
  c : Crew
  t : Strand
  f : Form
  act : Mask
  /-- the instruction has issued and its access is in flight: its addresses are those of its issue (R208) -/
  flying : Bool

/-- The context of the issue that is under way; none where the state names no strand for it. -/
def State.ctxOf (s : State) (f : Form) : Option Ctx :=
  match s.cur with
  | none => none
  | some iss =>
    let s := { s.modStrand iss.strand (Strand.retire s.cycle) with cur := none }
    match s.grid? iss.strand.crew.grid, s.crew? iss.strand.crew, s.strand? iss.strand with
    | some g, some c, some t =>
      some
        { s := s, iss := iss, g := g, c := c, t := t, f := f, flying := false
          act := match iss.replay with
            | some e => e.mask &&& t.live
            | none => t.guarded f.e.g (iss.mask &&& t.live) }
    | _, _, _ => none

/-- The strand's reference. -/
def Ctx.r (c : Ctx) : StrandRef := c.iss.strand
/-- The core on which the crew runs. -/
def Ctx.core (c : Ctx) : Nat := c.c.core
/-- The context number of the crew. -/
def Ctx.ctx (c : Ctx) : Nat := c.g.ctx
/-- The lane `Lowest(Active())` (R7). -/
def Ctx.low (c : Ctx) : Nat := lowest c.act
/-- The address after the instruction (R90). -/
def Ctx.next (c : Ctx) : Word := c.iss.pc + BitVec.ofNat 32 (4 * c.f.words)
/-- The item of a lane (R19). -/
def Ctx.item (c : Ctx) (l : Nat) : Nat := itemOf c.g.record.nstrand c.c.idx c.t.idx l

/-- The operand positions. -/
inductive Pos where
  | a | b | c | d
  deriving DecidableEq, Repr

/-- The spec in a position. -/
def Form.opd (f : Form) : Pos → Opd
  | .a => f.e.a
  | .b => f.e.b
  | .c => f.e.c
  | .d => f.e.d

/-- How a position is read; none where the instruction has no such operand. -/
def Form.rd? (f : Form) : Pos → Option Rd
  | .a => f.reads.a
  | .b => f.reads.b
  | .c => f.reads.c
  | .d => f.reads.d

/-- The captured values of a position (R277). -/
def ReplayEntry.opnd (e : ReplayEntry) : Pos → SMap DWord
  | .a => e.opA
  | .b => e.opB
  | .c => e.opC
  | .d => e.opD

/-- A spec of class 10. -/
def isHand : Opd → Bool
  | .h _ _ => true
  | _ => false

/-- The hand-off value of a spec for a lane with the scope of its HPUT; none while the lane waits (R139, R147). -/
def Ctx.handOff (c : Ctx) (o : Opd) (l : Nat) : Option (Word × Scope) :=
  match o with
  | .h s d => c.s.handOff c.g (c.item l) s.toNat (d.toNat + 1)
  | _ => some (0, .none)

/-- The value of an operand for a lane: read at issue, or as captured (R101, R277, R280). A captured predicate stands as 0 or 1
and is read as a predicate again. -/
def Ctx.get (c : Ctx) (p : Pos) (l : Nat) : DWord :=
  let o := c.f.opd p
  let r := (c.f.rd? p).getD w32
  let now := c.t.operand r c.f.e.lit (((c.handOff o l).map (·.1)).getD 0) o l
  match c.iss.replay with
  | none => now
  | some e =>
    if e.fresh && isHand o then now
    else
      let x := SMap.look 0 (e.opnd p) l
      match o with
      | .p _ => r.ofInt (if x = 0 then 0 else 1)
      | _ => x

/-- Operand A of a lane. -/
def Ctx.a (c : Ctx) (l : Nat) : DWord := c.get .a l
/-- Operand B of a lane. -/
def Ctx.b (c : Ctx) (l : Nat) : DWord := c.get .b l
/-- Operand C of a lane. -/
def Ctx.cc (c : Ctx) (l : Nat) : DWord := c.get .c l

/-- The value that a replay entry keeps of an operand (R277). -/
def Ctx.kept (c : Ctx) (p : Pos) (l : Nat) : DWord :=
  match c.f.opd p with
  | .p n =>
    match c.iss.replay with
    | some e => SMap.look 0 (e.opnd p) l
    | none => if c.t.pAt n.toNat l then 1 else 0
  | _ => c.get p l

/-- A table of a function over the lanes of a mask. -/
def tableOf (m : Mask) (f : Nat → DWord) : SMap DWord := SMap.putAll 0 [] ((lanesOf m).map fun l => (l, f l))

/-- The index vector of a view instruction in a lane (R207). -/
def Ctx.viewIndex (c : Ctx) (l j : Nat) : Int :=
  match j with
  | 0 => (loWord (c.a l)).toInt
  | 1 => (loWord (c.b l)).toInt
  | 2 => (loWord (c.cc l)).toInt
  | _ => c.f.e.imm.toInt

/-- The view named in VIEW (R207). -/
def Ctx.view? (c : Ctx) : Option View :=
  match c.f.e.view with
  | some n => c.c.view? n.toNat
  | none => none

/-- CP of a lane (R328). -/
def Ctx.cp (c : Ctx) (l : Nat) : Int := (c.g.header.privBytes : Int) - (SMap.look 0 c.t.depth l).toNat

/-- The effective address of an access in a lane, a local or private offset as it stands; 0 for what makes no access
(R277, R319, R328, R366, R386). -/
def Ctx.ea (c : Ctx) (l : Nat) : Int :=
  let a : Int := (c.a l).toNat
  match (if c.flying then c.iss.replay else none) with
  | some e => (SMap.look 0 e.ea l).toNat
  | none =>
  match c.f.op with
  | 0x70 | 0x73 | 0x74 | 0x75 | 0x78 | 0x7D =>
    (a + (if c.f.wide then (c.b l).toInt else (loWord (c.b l)).toInt)) % (2 ^ 64 : Int)
  | 0x71 | 0x72 | 0x76 | 0x77 => (loWord (c.a l)).toNat + (loWord (c.b l)).toInt
  | 0x79 | 0x7A | 0x7B | 0x7C | 0x83 | 0x84 | 0xB2 | 0xB5 | 0xB6 => a
  | 0x80 => (loWord (c.a l)).toNat
  | 0x88 | 0x89 => match c.view? with | some v => v.addr (c.viewIndex l) | none => 0
  | 0x03 | 0x04 => match c.iss.replay with | some e => if e.half then (SMap.look 0 e.ea l).toNat else c.cp l - 4 | none => c.cp l - 4
  | 0x05 => c.cp l
  | _ => 0

/-- A class 10 operand of the instruction has no value yet in a lane (R140). -/
def Ctx.waitsHand (c : Ctx) (l : Nat) : Bool :=
  (match c.iss.replay with | some e => e.fresh | none => true) &&
    c.f.specs.any fun o => isHand o && (c.handOff o l).isNone

/-- The access names an offset of the local store or of private memory (R159, R166, R277). -/
def Ctx.byOffset (c : Ctx) : Bool :=
  match c.f.op with
  | 0x71 | 0x72 | 0x76 | 0x77 | 0x03 | 0x04 | 0x05 => true
  | 0x88 | 0x89 => match c.view? with | some v => v.isLocal | none => false
  | _ => false

/-- EA of a replay entry: an offset has a zero high word (R277). -/
def Ctx.eaWord (c : Ctx) (l : Nat) : DWord :=
  if c.byOffset then (BitVec.ofInt 32 (c.ea l)).setWidth 64 else BitVec.ofInt 64 (c.ea l)

/-- The instruction as a replay entry (R276, R277): the lanes `m` take part, and the values of those of `whole` are kept. What is in
flight keeps its number and addresses; what is re-injected has its addresses computed afresh. -/
def Ctx.entryOver (c : Ctx) (whole m : Mask) (trapping : Bool) : ReplayEntry :=
  let tab (p : Pos) : SMap DWord := match c.f.rd? p with | some _ => tableOf whole (c.kept p) | none => []
  match c.iss.replay with
  | some e =>
    { e with
      mask := m, captured := m, trapping := trapping, skip := false, parked := none
      num := if c.flying then e.num else c.s.nextId, ea := if c.flying then e.ea else tableOf m c.eaWord }
  | none =>
    { instr := c.iss.instr, pc := c.iss.pc, mask := m, captured := m, trapping := trapping, skip := false,
      opA := tab .a, opB := tab .b, opC := tab .c, opD := tab .d,
      ea := tableOf whole c.eaWord,
      fresh := (lanesOf m).any c.waitsHand, left := 0, num := c.s.nextId,
      parked := none, half := false }

/-- The instruction with the lanes `m` as a replay entry. -/
def Ctx.entry (c : Ctx) (m : Mask) (trapping : Bool) : ReplayEntry := c.entryOver m m trapping

/-! ## What an issue comes to -/

/-- What a meaning answers: results that the pipeline writes after a latency (R124); an effect made at once, with branch
targets and beats added; an effect made for all lanes but those of a held path (R143, R151); a trap (R274); a deferred trap
with the instruction as its trapping entry; nothing yet, the split waiting; or the state as the instruction leaves it, its paths
included. -/
inductive Eff where
  | pipe (writes : List RegWrite) (flags : Flags) (latency extra : Nat) (clock : Option DWord)
  | go (s : State) (dst : Option (Nat → Word)) (extra : Nat)
  | part (s : State) (left : Mask) (pend : List (Nat × Word))
  | trap (t : Trap) (addr : DWord) (lane : Nat) (s : State)
  | defer (t : Trap) (addr : DWord) (lane : Nat) (m : Mask)
  | stay (s : State) (w : Wait)
  | done (s : State)

/-- The effect of an instruction that changes nothing but the program counter. -/
def Ctx.nothing (c : Ctx) : Eff := .go c.s none 0

/-- A trap raised before any effect. -/
def Ctx.raise (c : Ctx) (t : Trap) (addr : DWord) (lane : Nat) : Eff := .trap t addr lane c.s

/-- A trap without an address. -/
def Ctx.fail (c : Ctx) (t : Trap) : Eff := .trap t 0 c.low c.s

/-- The result `f l` for D in the lanes of Active(). -/
def Ctx.result (c : Ctx) (f : Nat → DWord) : RegWrite :=
  { d := c.f.e.d, wide := c.f.dstWide, act := c.act, vals := tableOf c.act f }

/-- A result written through the pipeline after `latency` cycles (R124). -/
def Ctx.write (c : Ctx) (latency : Nat) (f : Nat → DWord) : Eff := .pipe [c.result f] 0 latency 0 none

/-- A result whose flags are those of every active lane (R337). -/
def Ctx.writeF (c : Ctx) (latency : Nat) (f : Nat → DWord × Flags) : Eff :=
  .pipe [c.result fun l => (f l).1] ((lanesOf c.act).foldl (fun x l => x ||| (f l).2) 0) latency 0 none

/-- The state with the strand changed. -/
def Ctx.onStrand (c : Ctx) (s : State) (f : Strand → Strand) : State := s.modStrand c.r f

/-- The state with the crew changed. -/
def Ctx.onCrew (c : Ctx) (s : State) (f : Crew → Crew) : State := s.modCrew c.r.crew f

/-- A result written at once. -/
def Ctx.put (c : Ctx) (s : State) (f : Nat → DWord) : State := c.onStrand s fun t => t.put (c.result f)

/-! ## Readiness of held paths (R153, R154) -/

/-- An instruction that writes an s register, or MATCH, is not divided (R140). -/
def Form.undivided (f : Form) : Bool :=
  f.op = 0x1C || f.op = 0x1D || (hasDst f.op && match f.e.d with | .s _ => true | _ => false)

/-- A delivery of an HPUT on slot `h` by an item would find room (R148, R151). -/
def State.hputRoom (s : State) (g : Grid) (item h : Nat) : Bool :=
  (s.publish g.id item h (s.genOf g item h) 0 .none 0).isSome

/-- The condition on which a held path waits has cleared (R153). -/
def State.pathReady (s : State) (r : StrandRef) (p : Path) : Bool :=
  match p.held with
  | .none => true
  | .backPressure =>
    (match s.grid? r.crew.grid, p.stood with
    | some g, some e =>
      let f := Form.ofInstr e.instr
      let h := (f.e.aux &&& 7#8).toNat
      -- a lane waits for room for its value, or, if it has none yet, for the values that it reads (R140)
      (lanesOf p.mask).any fun l =>
        let item := itemOf g.record.nstrand r.crew.idx r.strand l
        if p.pend.any fun x => x.1 = l then s.hputRoom g item h else f.hands.all fun x => (s.handOff g item x.1 x.2).isSome
    | _, _ => true)
  | .handOff =>
    match s.grid? r.crew.grid, p.stood with
    | some g, some e =>
      let f := Form.ofInstr e.instr
      let ready (l : Nat) : Bool :=
        f.hands.all fun x => (s.handOff g (itemOf g.record.nstrand r.crew.idx r.strand l) x.1 x.2).isSome
      let ls := lanesOf (e.mask &&& p.mask)
      if f.undivided then ls.all ready else ls.any ready || ls.isEmpty
    | _, _ => true

/-! ## Settling an issue -/

/-- Operations of the copy and tile engines: complete for the strand at issue (R228, R276). -/
def isEngineOp (op : Nat) : Bool := op = 0x90 || op = 0x91 || op = 0x92 || (decide (0xA0 ≤ op) && decide (op ≤ 0xA7))

/-- Strand-collective and strand-uniform instructions: those of R332, the views' (R208, R210, R211), BAR, BARC, PHASE, LAUNCH (R194,
R269, R322), TLBI and ICINV (R357, R406). -/
def isCollective (op : Nat) : Bool :=
  isEngineOp op || (decide (0x93 ≤ op) && decide (op ≤ 0x98)) || (decide (0x80 ≤ op) && decide (op ≤ 0x84)) || op = 0xB0 || op = 0xB1 ||
    op = 0xB3 || op = 0xB5 || op = 0xB6 || op = 0xC8 || op = 0xC9

/-- A spec names one value for each lane. -/
def perLane : Opd → Bool
  | .v _ | .p _ | .h _ _ => true
  | _ => false

/-- The instruction has a per-lane operand: a source or a destination of class v, p or h. -/
def Form.hasLanes (f : Form) : Bool :=
  ([Pos.a, .b, .c, .d].any fun p => (f.rd? p).isSome && perLane (f.opd p)) || (hasDst f.op && perLane f.e.d)

/-- Strand-collective instructions and those without a per-lane operand take one beat (R123): EXIT, BRA, CALL and RET among
them. (DEDUCED, log entry 96) -/
def Form.oneBeat (f : Form) : Bool := isCollective f.op || !f.hasLanes

/-- The beats of the instruction, without what its entry adds (R123). -/
def Ctx.beats (c : Ctx) : Nat :=
  if c.f.oneBeat then 1 else beatsUsed (c.s.clusterOf c.c c.t).width c.act

/-- The lanes of a re-injected entry all stand at the instruction after it: they can stand at it again. -/
def Strand.standsAfter (t : Strand) (m : Mask) (pc : Word) : Bool :=
  (lanesOf m).all fun l => (t.splits ++ t.stack).any fun p => hasLane p.mask l && decide (p.pc = pc)

/-- What the strand does next after an instruction that took `beats`: lanes of `left` stay, the others go on (R21 to R23). An
entry that TRAPRET re-injects has no split: only a branch moves its lanes (R280). -/
def Ctx.leave (c : Ctx) (s : State) (left : Mask) (stay : Path → Path) (dst : Option (Nat → Word)) (beats : Nat) : State :=
  let s := s.tick beats
  let ready := s.pathReady c.r
  let target (l : Nat) : Word := if hasLane c.act l then (match dst with | some f => f l | none => c.next) else c.next
  if c.iss.queued then
    s.modStrand c.r fun t =>
      let t := { t with reinject := t.reinject.drop 1, splits := t.splits.map fun p => { p with since := s.cycle } }
      if dst.isSome then (t.withoutLanes c.act).move c.act left c.iss.pc stay target s.cycle ready
      else if left = 0 then t
      else if t.standsAfter left c.next then (t.withoutLanes left).move left left c.iss.pc stay target s.cycle ready
      else { t with reinject := { c.entry left false with fresh := true } :: t.reinject }
  else s.modStrand c.r fun t => t.move c.iss.mask left c.iss.pc stay target s.cycle ready

/-- The instructions in which a split waits and that the watchdog captures (R290). -/
def waitsAgain (op : Nat) : Bool :=
  op = 0xB0 || op = 0xB1 || op = 0xB2 || op = 0x93 || op = 0x94 || op = 0x84 || op = 0xB4 || op = 0xB5 || op = 0xB9

/-- The instruction does not issue now: its split waits. A re-injected entry becomes a path of its own that stands at the
entry (BAR and BARC: at the instruction again, R324); where its lanes stand elsewhere, it stays first in the queue. `parked`: it has
issued and its access waits for a translation (R276, R283). An instruction that waits on keeps its number and the cycle at which its
wait began. -/
def Ctx.stay (c : Ctx) (s : State) (parked : Bool) (upd : Path → Path) : State :=
  let s := { s with nextId := s.nextId + 1 }
  let bar := c.f.op = 0xB0 || c.f.op = 0xB1
  -- a barrier concerns every lane of its split (R323); the values of every lane are kept, as the watchdog captures them (R290)
  let e := c.entryOver c.iss.mask (if bar then c.iss.mask else c.act) false
  let stood := if waitsAgain c.f.op || e.fresh || (parked && !(isEngineOp c.f.op)) then some e else none
  if c.iss.queued then
    if c.act ≠ 0 && c.t.standsAfter c.act c.next then
      let p := upd { Path.at c.iss.pc c.act s.cycle with entry := if bar then none else some { e with mask := c.act }, stood := stood }
      s.modStrand c.r fun t =>
        let t := t.withoutLanes c.act
        let x := placePaths t.splits t.stack [p]
        { t with reinject := t.reinject.drop 1, splits := x.1, stack := x.2 }
    else s
  else
    s.modStrand c.r fun t => t.modSplit (lowest c.iss.mask) fun p =>
      upd { p with
        since := s.cycle, boosted := false
        stood := stood.map fun e =>
          match p.stood with
          | some o => if o.fresh then { e with num := o.num } else { o with mask := e.mask, captured := e.captured }
          | none => e }

/-- The split waits for a reason. Of an access that waits for a translation the lanes of Active() alone wait, and the others go on
(R283). (DEDUCED, log entry 69) -/
def Ctx.waitFor (c : Ctx) (s : State) (w : Wait) : State :=
  match w with
  | .xlate _ =>
    if isEngineOp c.f.op || c.iss.queued || decide (c.iss.mask &&& ~~~c.act = 0) then c.stay (s.tick 1) true fun p => { p with wait := w }
    else
      let s := { s with nextId := s.nextId + 1 }
      c.leave s c.act (fun p => { p with wait := w, stood := some (c.entry c.act false) }) none 1
  -- the split was not ready (R265)
  | .retry | .engine | .lock _ | .entry _ _ => c.stay s false fun p => { p with wait := w }
  | _ => c.stay (s.tick 1) false fun p => { p with wait := w }

/-- The instruction at which the split waits already, its operands having been read (R270). -/
def Ctx.begun (c : Ctx) : Option ReplayEntry :=
  if c.iss.queued then none
  else (c.t.splitOf? (lowest c.iss.mask)).bind fun p => if p.held = .none && decide (p.wait ≠ .none) then p.stood else none

/-- The instruction with its operands as they were read when its wait began. -/
def Ctx.again (c : Ctx) : Ctx :=
  match c.iss.replay, c.begun with
  | none, some e => { c with iss := { c.iss with replay := some e } }
  | _, _ => c

/-- The instruction is held back by the scoreboard or a trap before it: where it has not begun, no operand has been read. It takes
no cycle: the split was not ready (R265). -/
def Ctx.stall (c : Ctx) (w : Wait) : State :=
  c.stay c.s false fun p => if c.begun.isSome then p else { p with wait := w, stood := none }

/-- Results and flags enter the pipeline; they are written `latency` cycles after the last beat (R124). -/
def Ctx.enter (c : Ctx) (s : State) (writes : List RegWrite) (flags : Flags) (latency beats : Nat) (clock : Option DWord) : State :=
  let due := s.cycle + BitVec.ofNat 64 (beats - 1 + latency)
  { s.modStrand c.r fun t =>
      { t with inflight := t.inflight ++ [{ id := s.nextId, entry := c.entry c.act false, state := .pipe due writes flags clock, phase := c.c.phase, handler := c.c.handler, universal := false, lines := [] }] } with
    nextId := s.nextId + 1 }

/-! ## Traps -/

/-- ACCESS of a kind-1 record for a trapping instruction (R284). -/
def accessOf (op : Nat) : Right :=
  if op = 0x79 || op = 0x7A || op = 0x7B || op = 0x7C then .both
  else if (decide (0x75 ≤ op) && decide (op ≤ 0x78)) || op = 0x89 || op = 0x83 || op = 0x03 || op = 0x04 || op = 0xA3 then .write
  else .read

/-- The operation of an instruction in flight. -/
def InFlight.op (x : InFlight) : Nat := opOf (wordsOf x.entry.instr)

/-- A plain store in flight, a CALL's among them: its lanes are performed one by one (R283, R329). -/
def InFlight.isStore (x : InFlight) : Bool :=
  (decide (0x75 ≤ x.op) && decide (x.op ≤ 0x77)) || decide (x.op = 0x89) || decide (x.op = 0x03) || decide (x.op = 0x04)

/-- An access that is made as a whole: LD.acq, ST.rel, ATOM, ATOM.ret, CAS, RED, and the flag store of a VRET (R211, R319, R368, R390,
R404). -/
def InFlight.isWhole (x : InFlight) : Bool := x.op = 0x74 || (decide (0x78 ≤ x.op) && decide (x.op ≤ 0x7C)) || decide (x.op = 0x83)

/-- An access in flight that writes memory outlives its strand (R260, R339). -/
def InFlight.outlives (x : InFlight) : Bool := x.isStore || (x.isWhole && decide (x.op ≠ 0x74))

/-- A strand stopped for good. -/
def Strand.halt (t : Strand) : Strand :=
  { t with
    ended := t.present, splits := [], stack := [], handler := none, reinject := [], deferred := [], inflight := t.inflight.filter InFlight.outlives }

/-- The party fields of a fault record of a crew (R284). -/
def faultOf (g : Grid) (c : Crew) : Fault32 :=
  { id := 0, part := g.part, va := 0, kernid := g.header.kernid, ctx := g.ctx, vdie := c.vdie, kind := false, access := 0,
    source := 0, reason := 0, crew := BitVec.ofNat 32 c.idx, resume := 0, written := false }

/-- An unhandled trap stops the crew (R282): its strands end, a record of kind 1 is posted, and the crew counts as ended with
STATUS 3. -/
def State.stopCrew (s : State) (r : StrandRef) (d : Deferred) : State :=
  match s.grid? r.crew.grid, s.crew? r.crew with
  | some g, some c =>
    let access : Right :=
      match d.entry with
      | some e => accessOf (opOf (wordsOf e.instr))
      | none => if d.trap = .faultUnresolved then .fetch else .read
    let s := (s.postFault
      { faultOf g c with
        va := d.pc.setWidth 64, kind := true, access := access.code, reason := BitVec.ofNat 8 (trapCode d.trap) }).1
    let s := s.modCrew r.crew fun c =>
      { c with trapped := true, strands := c.strands.map Strand.halt, wakes := [] }
    let s := s.modGrid r.crew.grid fun g => { g with trapped := true }
    let s := s.logKernel (dieOf c.core) 8 c.idx d.pc.toNat g.header.kernid
    s.afterEnd r
  | _, _ => s

/-- An instruction in flight as a trap or a save captures it: the lanes that it has not performed (R276). -/
def InFlight.caught (x : InFlight) : ReplayEntry :=
  { x.entry with
    captured := x.entry.mask, trapping := false, skip := false, parked := match x.state with | .parked id => some id | _ => none }

/-- The in-flight instructions that a trap captures (R276): what is in the pipeline, and the lanes of accesses that are parked
or rejected. -/
def Strand.captured (t : Strand) : List ReplayEntry :=
  t.inflight.filterMap fun x => match x.state with | .outstanding => none | _ => some x.caught

/-- Insertion by the number of the issue. -/
def insertEntry (e : ReplayEntry) : List ReplayEntry → List ReplayEntry
  | [] => [e]
  | x :: t => if e.num < x.num then e :: x :: t else x :: insertEntry e t

/-- Entries in issue order (R276). -/
def inIssueOrder (l : List ReplayEntry) : List ReplayEntry := l.foldl (fun m e => insertEntry e m) []

/-- A path behind the instruction at which it stands, which is captured. -/
def Path.past (p : Path) (e : ReplayEntry) : Path :=
  { p with
    pc := p.pc + BitVec.ofNat 32 (4 * (Form.ofInstr e.instr).words), wait := .none, held := .none, pend := [], entry := none
    stood := none }

/-- The entry of a split whose access waits for a translation (R276, R283). -/
def Path.parkedEntry (p : Path) : Option ReplayEntry :=
  match p.wait, p.stood with
  | .xlate id, some e => some { e with captured := e.mask, parked := some id }
  | _, _ => none

/-- The splits whose accesses wait for a translation are captured as those in flight are (R276): they stand behind them. -/
def Strand.takeParked (t : Strand) : Strand × List ReplayEntry :=
  ({ t with splits := t.splits.map fun p => match p.parkedEntry with | some e => p.past e | none => p },
    t.splits.filterMap Path.parkedEntry)

/-- An access of the strand is under way: a trap waits for it (R276). (DEDUCED, log entry 37) -/
def Strand.busy (t : Strand) : Bool := t.inflight.any fun x => decide (x.state = .outstanding)

/-- A path frozen by a trap (R275): what it waited for is looked at again after the return; a sleep goes on. (DEDUCED, log entry 38) (DEDUCED, log entry 60) -/
def freeze (p : Path) : Path :=
  { p with wait := (match p.wait with | .sleep d => .sleep d | .unresolved a => .unresolved a | _ => .none), stood := if p.held = .none then none else p.stood }

/-- TAKING A TRAP (R275, R276, R282): the strand stops with its splits and stack frozen, what was in flight becomes the replay
queue, the trap registers take their values, and one split begins at the handler with the trap's mask. `waiting` are the
instructions captured in waiting splits (R290, R324). -/
def State.enterTrap (s : State) (r : StrandRef) (d : Deferred) (waiting : List ReplayEntry) : State :=
  match s.crew? r.crew, s.strand? r with
  | some _, some t =>
    let parked := t.takeParked
    let t := parked.1
    -- what has been captured already, the trapping entry apart, keeps its place in the queue
    let captured (e : ReplayEntry) : Bool := t.reinject.contains { e with trapping := false }
    let others : List ReplayEntry := (t.deferred.filterMap (·.entry)).filter fun e => !(captured e)
    let before := t.reinject.filter fun e => decide (d.entry ≠ some { e with trapping := true })
    let queue : List ReplayEntry :=
      (inIssueOrder (t.captured ++ others ++ parked.2) ++ before ++ waiting).map (fun (e : ReplayEntry) => { e with trapping := false }) ++
        d.entry.toList.map fun (e : ReplayEntry) => { e with trapping := true }
    if d.handler = 0 || t.inHandler || decide (16 < queue.length) then s.stopCrew r d
    else
      s.modStrand r fun _ =>
        { t with
          handler := some
            { splits := t.splits.map freeze, stack := t.stack.map freeze, queue := queue,
              cause := BitVec.ofNat 32 (trapCode d.trap + 256 * d.lane), addr := d.addr, pc := d.pc, mask := d.mask }
          splits := [Path.at d.handler (d.mask &&& t.live) s.cycle]
          stack := [], reinject := [], inflight := []
          deferred := t.deferred.filter fun x => decide (x.trap = .watchdog) }
  | _, _ => s

/-- The entries of the paths of a strand that wait in an instruction, by ascending lowest lane, with the strand as it is left:
those paths stand after it (R290). A path whose access waits for a translation is none of them: `takeParked` takes it. `sel` says which are
captured; `whole`: with all lanes of the split as MASK. -/
def Strand.takeWaiting (t : Strand) (whole : Bool) (sel : ReplayEntry → Bool) : Strand × List ReplayEntry :=
  let takes (p : Path) (e : ReplayEntry) : Bool := sel e && p.parkedEntry.isNone
  let picked := t.splits.filterMap fun p =>
    match p.stood with
    | some e =>
      let m := if whole then p.mask else e.mask
      if takes p e then some (lowest p.mask, { e with mask := m, captured := m }) else none
    | none => none
  let ordered := (List.range 32).flatMap fun l => (picked.filter fun x => x.1 = l).map (·.2)
  let moved := t.splits.map fun p => match p.stood with | some e => if takes p e then p.past e else p | none => p
  ({ t with splits := moved }, ordered)

/-- A BAR or BARC captured by a trap withdraws the arrival that it made itself (R290, R324). -/
def State.withdraw (s : State) (r : StrandRef) (es : List ReplayEntry) : State :=
  if es.any fun e => let op := opOf (wordsOf e.instr); op = 0xB0 || op = 0xB1 then
    match s.strand? r with
    | none => s
    | some t =>
      let mine := t.arrivals.filter fun a => !a.byBarc
      let s := s.modStrand r fun t => { t with arrivals := t.arrivals.filter (·.byBarc) }
      mine.foldl
        (fun s a => s.modGrid r.crew.grid fun g =>
          let b := g.barrier a.key
          if b.gen = a.gen then g.setBarrier { b with arrived := b.arrived.filter (· ≠ (r.crew.idx, r.strand)) } else g)
        s
  else s

/-- A deferred trap is taken at an instruction boundary (R274, R290, R324). WATCHDOG captures every waiting instruction, and
%trapcause names its lowest live lane (R275); a deferred trap of an access captures a waiting BAR. Any other whose items have all ended is
dropped. (DESIGN CHOICE, log entry 100) (DESIGN CHOICE, log entry 101) -/
def State.takeDeferred (s : State) (r : StrandRef) (d : Deferred) : State :=
  match s.strand? r with
  | none => s
  | some t =>
    let all := decide (d.trap = .watchdog)
    if d.mask &&& t.live = 0 && !all then s.modStrand r fun t => { t with deferred := t.deferred.filter (· ≠ d) }
    else
    let x := { t with deferred := t.deferred.erase d }.takeWaiting all fun e => all || (let op := opOf (wordsOf e.instr); op = 0xB0 || op = 0xB1)
    let low := lowest t.live
    let d :=
      if all then
        { d with pc := (((t.splits ++ t.stack).find? fun p => hasLane p.mask low).map (·.pc)).getD 0, mask := t.live, lane := low }
      else d
    ((s.modStrand r fun _ => x.1).withdraw r x.2).enterTrap r d x.2

/-- The results of a strand that are due are written, and its first deferred trap is taken, unless an access is under way (R274,
R276). -/
def State.trapFirst (s : State) (r : StrandRef) : State :=
  let s := s.modStrand r (Strand.retire s.cycle)
  match s.strand? r with
  | none => s
  | some t =>
    match t.deferred with
    | d :: _ => if t.busy then s else s.takeDeferred r d
    | [] => s

/-- The trap of an issue: it waits while an access of the strand is under way; else it is taken with the instruction as
trapping entry, and its split resumes after it (R275, R276, R280). (DESIGN CHOICE, log entry 104) -/
def Ctx.trap (c : Ctx) (t : Trap) (addr : DWord) (lane : Nat) (s : State) : State :=
  if c.t.busy then c.stall .retry
  else
    let e := c.entry c.act true
    let m : Mask :=
      match c.iss.replay with
      | some e => if e.mask = 0 then e.captured else e.mask
      | none => c.iss.mask
    let s := (s.tick 1).modStrand c.r fun t =>
      if c.iss.queued then { t with reinject := t.reinject.drop 1 }
      else t.modSplit (lowest c.iss.mask) fun p => { p with pc := c.next, wait := .none, held := .none, entry := none, stood := none }
    s.enterTrap c.r { trap := t, handler := c.c.handler, addr := addr, lane := lane, pc := c.iss.pc, mask := m, entry := some e } []

/-- A deferred trap of the instruction, with the lanes `m` as MASK: the split goes on and the trap is taken at the next
boundary (R274, R283, R285). (DESIGN CHOICE, log entry 104) -/
def Ctx.defer (c : Ctx) (t : Trap) (addr : DWord) (lane : Nat) (m : Mask) : State :=
  let d : Deferred := { trap := t, handler := c.c.handler, addr := addr, lane := lane, pc := c.iss.pc, mask := m, entry := some (c.entry m true) }
  c.leave (c.onStrand c.s fun t => { t with deferred := t.deferred ++ [d] }) 0 id none 1

/-- A strand leaves its handler: every frozen path thaws, and the entries of `queue` are re-injected before it goes on
(R280). Its lanes that ended in the handler are gone. -/
def State.thaw (s : State) (r : StrandRef) (queue : List ReplayEntry) : State :=
  let ready := s.pathReady r
  s.modStrand r fun t =>
    match t.handler with
    | none => t
    | some fr =>
      let wake (p : Path) : Path := { p with since := s.cycle }
      let x := settlePaths ready (dropLanes t.ended (fr.splits.map wake)) (dropLanes t.ended (fr.stack.map wake))
      { t with handler := none, splits := x.1, stack := x.2, reinject := queue.filter fun e => !e.skip }

/-- THE RETURN FROM A TRAP (R280): with .skip the trapping entry is not re-injected. -/
def State.trapReturn (s : State) (r : StrandRef) (skip : Bool) : State :=
  match s.strand? r with
  | none => s
  | some t =>
    match t.handler with
    | none => s
    | some fr => s.thaw r (fr.queue.map fun e => if skip && e.trapping then { e with skip := true } else e)

/-- Every item of a handler that has not ended stands at a TRAPRET (R280). -/
def Strand.gathered (t : Strand) : Bool :=
  t.stack.isEmpty && t.splits.all fun p => match p.wait with | .trapret _ => true | _ => false

/-- Items of a strand end (R29, R339): their lanes leave every path; a handler without items is left with its queue discarded
(R280). (DEDUCED, log entry 39) (DEDUCED, log entry 52) -/
def State.endLanes (s : State) (r : StrandRef) (m : Mask) : State :=
  let s := s.endItems r m
  let s := s.modStrand r fun t => t.withoutLanes m
  match s.strand? r with
  | some t => if t.inHandler && t.splits.isEmpty && t.stack.isEmpty then s.thaw r [] else s
  | none => s

/-! ## The issue -/

/-- How many instructions of the strand are issued and not completed, waiting ones counted (R276, R290). -/
def Ctx.pending (c : Ctx) : Nat :=
  c.t.inflight.length + (c.t.splits.filter fun p => p.stood.isSome && !(hasLane p.mask (lowest c.iss.mask))).length

/-- An instruction in flight writes a register that this one reads or writes, or VXR and VXW hold it (R64, R124):
a VXW too waits for the strand's earlier v writes. (DESIGN CHOICE, log entry 95) -/
def Ctx.dependent (c : Ctx) : Bool :=
  let mine := c.f.touches
  let anyVFlight (x : InFlight) : Bool := decide ((Form.ofInstr x.entry.instr).op = 0xEA)
  c.t.inflight.any fun x =>
    let theirs := (Form.ofInstr x.entry.instr).dsts
    theirs.any (fun n => mine.contains n) || (anyVFlight x && (mine.any fun n => n.1 = 0)) ||
      (c.f.anyV && ((theirs.any fun n => n.1 = 0) || anyVFlight x))

/-- An access made as a whole that is still parked acquires: what the strand does after it waits (R183, R184). -/
def InFlight.acquires (x : InFlight) : Bool :=
  x.isWhole && (x.op = 0x74 || (decide (x.op ≠ 0x78) && decide (x.op ≠ 0x7C) && decide (x.op ≠ 0x83) && decide ((Form.ofInstr x.entry.instr).e.scope ≠ .none)))

/-- The instruction makes an access, or orders accesses. -/
def isAccessOp (op : Nat) : Bool :=
  (decide (op / 16 = 0x7) && decide (op ≠ 0x7E)) || op = 0x03 || op = 0x04 || op = 0x05 || op = 0x83 || op = 0x84 || op = 0x88 ||
    op = 0x89 || isEngineOp op || op = 0xB0 || op = 0xB1 || op = 0xB2 || op = 0xB3 || op = 0xB4 || op = 0xB5 || op = 0xB6 ||
    op = 0xC9

/-- An earlier acquire of the strand has not been performed (R184). -/
def Ctx.behindAcquire (c : Ctx) : Bool := isAccessOp c.f.op && c.t.inflight.any fun x => x.acquires

/-- A path's wait on a page fault of its instruction: the fault is open, or it has been declared unresolvable. -/
def Ctx.parkedOn (c : Ctx) : Option Wait :=
  if c.iss.queued then none else (c.t.splitOf? (lowest c.iss.mask)).map (·.wait)

/-- The strand does not pass an access that the core has rejected (R168). -/
def Ctx.behindRejected (c : Ctx) : Bool :=
  c.t.inflight.any fun x => match x.state with | .rejected _ => true | .aged => true | _ => false

/-- The view registers that a form names. -/
def Form.viewRegs (f : Form) : List Nat :=
  (match f.e.view with | some n => [n.toNat] | none => []) ++
    f.specs.filterMap fun o => match o with | .w n => some n.toNat | _ => none

/-- The tiles that a form names. -/
def Form.tiles (f : Form) : List Nat := f.specs.filterMap fun o => match o with | .t n => some n.toNat | _ => none

/-- The scoreboard holds the tile of a follow-on product that has not ended, and the view register of an MLDA or MSTA of the
strand (R220, R241). VDEF, VSET, VDROP and VRET of such a register stall on its lock (R206). -/
def Ctx.engineHolds (c : Ctx) : Bool :=
  let ops := c.s.tileOpsOf c.c
  (c.f.tiles.any fun n => (c.c.follows.any fun f => f.td = n) || ops.any fun o => o.follow.isSome && decide (o.td = n)) ||
    (!(decide (0x80 ≤ c.f.op) && decide (c.f.op ≤ 0x83)) && c.f.viewRegs.any fun n => ops.any fun o =>
      decide (o.strand = c.t.idx) && match o.kind with | .mlda w _ => decide (w.reg = n) | .msta w _ _ _ _ => decide (w.reg = n) | _ => false)

/-- A VRET of the strand drops, once its flag has been stored, a view register that the instruction names (R410). -/
def Ctx.behindReturn (c : Ctx) : Bool :=
  c.t.inflight.any fun x =>
    decide (x.op = 0x83) && (Form.ofInstr x.entry.instr).viewRegs.any fun n => c.f.viewRegs.contains n

/-- The instruction cannot issue yet: the scoreboard, the bound of R276, a rejected access, or an open fault. -/
def Ctx.held (c : Ctx) : Bool :=
  c.behindRejected || c.behindAcquire || c.behindReturn || c.engineHolds || (decide (15 ≤ c.pending) && !(c.t.inflight.isEmpty) && !(isEngineOp c.f.op)) || c.dependent ||
    match c.parkedOn with
    | some (.xlate id) => c.s.faultOpen c.g.part id
    | _ => false

/-- Checks 3 and 4 of R106 that the words do not decide: an unheld membership, and register names beyond the header's counts. -/
def Ctx.decodeTrap (c : Ctx) : Option Trap :=
  if decide (c.f.e.scope = .cohort) && decide ((c.g.memberships c.c.idx).length ≤ (c.f.e.aux >>> 6).toNat) then some .illegalOperand
  else if c.f.regRange c.g.header then some .regRange else none

/-- The hand-off checks of the operands (R50, orders 3 and 4). -/
def Ctx.chainTrap (c : Ctx) : Option Trap :=
  if c.f.hands.isEmpty then none
  else if !c.g.record.chained then some .chainOff
  else if c.f.hands.any fun x => c.g.mode x.1 = 0 || !(c.g.dist x.1 x.2) then some .chainMode else none

/-- The instructions that act with Active() empty (R49). -/
def actsEmpty (op : Nat) : Bool := op = 0xB0 || op = 0xB1 || op = 0xC3

/-- What an answer of a meaning makes of the state. `unready` are lanes that wait on a hand-off value. (DEDUCED, log entry 11) -/
def Ctx.settle (c : Ctx) (unready : Mask) (e : Eff) : State :=
  let held (p : Path) : Path :=
    if unready = 0 then p
    else
      { p with
        held := .handOff
        entry := c.iss.replay.map fun _ => c.entry unready false
        stood := some { c.entry unready false with fresh := true } }
  match e with
  | .pipe ws fl lat extra ck =>
    let grow := (ws.map fun w => c.t.expandBeats w.act w.d w.wide).foldl (· + ·) 0
    let n := c.beats + extra + grow
    c.leave (c.enter c.s ws fl lat n ck) unready held none n
  | .go s dst extra => c.leave s unready held dst (c.beats + extra)
  | .part s left pend =>
    let stood := some { c.entry (left ||| unready) false with fresh := decide (unready ≠ 0) }
    c.leave s (left ||| unready)
      (fun p =>
        { p with
          held := if left = 0 then .handOff else .backPressure, pend := pend, stood := stood
          entry := c.iss.replay.map fun _ => c.entry (left ||| unready) false })
      none c.beats
  | .trap t addr lane s => c.trap t addr lane s
  | .defer t addr lane m => c.defer t addr lane m
  | .stay s w => c.waitFor s w
  | .done s => s

/-- Every scoped HPUT value that the instruction reads is an acquire (R147). -/
def Ctx.acquireHands (c : Ctx) : Ctx :=
  let scopes := c.f.specs.flatMap fun o =>
    if isHand o then (lanesOf c.act).filterMap fun l => (c.handOff o l).map (·.2) else []
  { c with s := scopes.foldl (fun s sc => if sc = .none then s else s.acquire c.core sc) c.s }

/-- One issue of an instruction whose decoding is legal: a deferred trap comes first; then what holds it back; then the checks of
R106 in their order; then its meaning, divided over the lanes whose hand-off values exist (R140). (DEDUCED, log entry 40) Where no
lane acts it takes one beat. (DESIGN CHOICE, log entry 103) -/
def Ctx.run (c : Ctx) (body : Ctx → Eff) : State :=
  match c.t.deferred with
  | d :: _ => if c.t.busy then c.stall .retry else (c.s.tick 1).takeDeferred c.r d
  | [] =>
    if c.held then c.stall .retry
    else
      match c.decodeTrap with
      | some t => c.trap t 0 (lowest (if c.act = 0 then c.iss.mask else c.act)) c.s
      | none =>
        if c.act = 0 && (c.iss.queued || !(actsEmpty c.f.op)) then c.leave c.s 0 id none c.beats
        else
          match (if c.act = 0 then none else c.chainTrap) with
          | some t => c.trap t 0 c.low c.s
          | none =>
            let unready := maskOf fun l => hasLane c.act l && c.waitsHand l
            if unready = 0 then c.acquireHands.settle 0 (body c.acquireHands)
            else
              match body c with
              | .trap t addr lane s => c.trap t addr lane s
              | .stay s w => c.waitFor s w
              | _ =>
                let ready := c.act &&& ~~~unready
                if ready = 0 || c.f.undivided then c.leave c.s c.act (fun p =>
                  { p with
                    held := .handOff
                    entry := c.iss.replay.map fun _ => c.entry c.act false
                    stood := some { c.entry c.act false with fresh := true } }) none 1
                else
                  let d := { c with act := ready }.acquireHands
                  d.settle unready (body d)

/-- The page fault on which a tile or NMV issue is parked was declared unresolvable: the issue raises FAULT_UNRESOLVED in its place
among the checks (R233, order 6; R285). -/
def Ctx.unresolved? (c : Ctx) : Option DWord :=
  match c.parkedOn with
  | some (.unresolved va) => some va
  | _ => none

/-- The issue of an instruction by the split that holds the turn. -/
def issue (f : Form) (body : Ctx → Eff) (s : State) : Host.Outcome State Fault Refusal :=
  match s.ctxOf f with
  | none => .fault .noIssuer
  | some c => .next (c.run body)

/-- The issue of words that trap by their decoding (R106, orders 1 to 3), whatever the guard. -/
def issueTrap (f : Form) (t : Trap) (s : State) : Host.Outcome State Fault Refusal :=
  match s.ctxOf f with
  | none => .fault .noIssuer
  | some c =>
    match c.t.deferred with
    | d :: _ => .next (if c.t.busy then c.stall .retry else (c.s.tick 1).takeDeferred c.r d)
    | [] => .next (c.trap t 0 (lowest (if c.act = 0 then c.iss.mask else c.act)) c.s)

end Sys2Proof.Machine
end

