-- ==== Sys2Proof/Machine/Alu.lean ====
section
/-! DEFINITION. The integer, logical and cross-lane operations on values (R72, R73, R86, R315 to R416), and the shapes in which
a meaning takes its operands and rounding mode. -/
namespace Sys2Proof.Machine

/-! ## Integers -/

/-- The integer operations of R353 to R360. -/
inductive IntOp where
  | add | sub | mul | mulh | div | rem | min | max
  deriving DecidableEq, Repr

/-- The exact result of an integer operation (R73, R355). -/
def IntOp.exact (op : IntOp) (t : Ty) (a b : Int) : Int :=
  match op with
  | .add => a + b
  | .sub => a - b
  | .mul => a * b
  | .mulh => (a * b) / ((2 ^ t.width : Nat) : Int)
  | .div => if b = 0 then -1 else Int.tdiv a b
  | .rem => if b = 0 then a else Int.tmod a b
  | .min => if a < b then a else b
  | .max => if a < b then b else a

/-- An integer result as its destination takes it: wrapped, or clamped with .sat (R72). -/
def intResult (t : Ty) (sat : Bool) (x : Int) : DWord := placeInt t (if sat then (clampTo t x).1 else x)

/-- A comparison of integer operands under a condition code (R103, R361). -/
def intCond (c : Nat) (t : Ty) (a b : DWord) : Bool := condHolds c (compare (intVal t a.toNat) (intVal t b.toNat))

/-- An unsigned operand of a type's width. -/
def uval (t : Ty) (x : DWord) : Nat := x.toNat % 2 ^ t.width

/-! ## Logic and shifts -/

/-- The bitwise and shift operations. -/
inductive BitOp where
  | and | andn | or | xor | shl | shr | sar | rol
  deriving DecidableEq, Repr

/-- A bitwise operation or a shift of a w-bit value by an unsigned count (R316, R379, R395, R415). -/
def BitOp.apply (op : BitOp) (w a b : Nat) : Nat :=
  let ones := 2 ^ w - 1
  match op with
  | .and => a &&& b
  | .andn => a &&& (ones - b % 2 ^ w)
  | .or => a ||| b
  | .xor => a ^^^ b
  | .shl => if w ≤ b then 0 else a * 2 ^ b % 2 ^ w
  | .shr => if w ≤ b then 0 else a / 2 ^ b
  | .sar => if w ≤ b then (if a / 2 ^ (w - 1) % 2 = 1 then ones else 0) else wrap w (sext w a / ((2 ^ b : Nat) : Int))
  | .rol => (a * 2 ^ (b % w) % 2 ^ w) ||| (a / 2 ^ (w - b % w))

/-- A shift counts by the low 32 bits of its second operand (R395). -/
def BitOp.isShift : BitOp → Bool
  | .shl | .shr | .sar | .rol => true
  | _ => false

/-- The unary bit operations (R330, R379, R385). -/
inductive BitFn where
  | not | clz | ctz | popc | brev
  deriving DecidableEq, Repr

/-- The positions below `w` in which a value has bit `b`. -/
def bitsEqual (w a : Nat) (b : Bool) : List Nat := (List.range w).filter fun k => a.testBit k == b

/-- A unary bit operation on a w-bit value. -/
def BitFn.apply (fn : BitFn) (w a : Nat) : Nat :=
  match fn with
  | .not => 2 ^ w - 1 - a % 2 ^ w
  | .popc => (bitsEqual w a true).length
  | .clz => if a = 0 then w else w - 1 - Nat.log2 a
  | .ctz => ((bitsEqual w a true).head?).getD w
  | .brev => (bitsEqual w a true).foldl (fun x k => x + 2 ^ (w - 1 - k)) 0

/-- pos and len of a control operand at a width (R325). -/
def fieldOf (w ctl : Nat) : Nat × Nat :=
  let pos := ctl % 256
  let len := ctl / 256 % 256
  (pos, if w ≤ pos then 0 else min len (w - pos))

/-- BFX (R325). -/
def bfx (t : Ty) (a ctl : Nat) : DWord :=
  let f := fieldOf t.width ctl
  let x := a / 2 ^ f.1 % 2 ^ f.2
  if f.2 = 0 then 0 else if t.isSigned then placeInt t (sext f.2 x) else BitVec.ofNat 64 x

/-- BFI (R325). -/
def bfi (t : Ty) (a b ctl : Nat) : DWord :=
  let f := fieldOf t.width ctl
  if f.2 = 0 then BitVec.ofNat 64 a
  else BitVec.ofNat 64 (a % 2 ^ f.1 + b % 2 ^ f.2 * 2 ^ f.1 + a / 2 ^ (f.1 + f.2) * 2 ^ (f.1 + f.2))

/-- One byte of PRMT under its control (R388). -/
def prmtByte (a b f : Nat) : Nat :=
  let k := f % 8
  let x := (if k < 4 then a / 2 ^ (8 * k) else b / 2 ^ (8 * (k - 4))) % 256
  let y := if f / 8 % 2 = 1 then BitFn.apply .brev 8 x else x
  match f / 16 % 4 with
  | 0 => y
  | 1 => 0
  | 2 => 255
  | _ => if y / 128 = 1 then 255 else 0

/-- PRMT (R388). -/
def prmt (a b c : Nat) : Nat :=
  (List.range 4).foldl (fun x k => x + prmtByte a b (c / 2 ^ (8 * k) % 256) * 2 ^ (8 * k)) 0

/-! ## Lanes -/

/-- The source lane of SHFL (R398): none where the position leaves the group. `m`: 0 .idx, 1 .up, 2 .down, 3 .xor. -/
def shflSource (m : Nat) (wrapped : Bool) (gl l b : Nat) : Option Nat :=
  let w := 2 ^ gl
  let p := l % w
  let q := l - p
  match m with
  | 0 => some (q + b % w)
  | 1 => if p < b then (if wrapped then some (q + (((p : Int) - b) % (w : Int)).toNat) else none) else some (q + (p - b))
  | 2 => if w ≤ p + b then (if wrapped then some (q + (p + b) % w) else none) else some (q + (p + b))
  | _ => some (l ^^^ (b % w))

/-- One level of the tree of R86: neighbours are combined, an absent one contributing nothing. -/
def pairUp (op : DWord → DWord → DWord × Flags) : List (Option DWord) → List (Option DWord) × Flags
  | a :: b :: t =>
    let r := pairUp op t
    match a, b with
    | some x, some y => ((some (op x y).1) :: r.1, (op x y).2 ||| r.2)
    | none, y => (y :: r.1, r.2)
    | x, none => (x :: r.1, r.2)
  | l => (l, 0)

/-- `n` levels of the tree. -/
def treeLevels (op : DWord → DWord → DWord × Flags) : Nat → List (Option DWord) → List (Option DWord) × Flags
  | 0, l => (l, 0)
  | n + 1, l =>
    let x := pairUp op l
    let y := treeLevels op n x.1
    (y.1, x.2 ||| y.2)

/-- TreeCombine (R86) over the lanes of a mask, which holds one at least. -/
def treeCombine (op : DWord → DWord → DWord × Flags) (x : Nat → DWord) (present : Mask) : DWord × Flags :=
  let y := treeLevels op 5 (lanes.map fun l => if hasLane present l then some (x l) else none)
  (((y.1.head?).join).getD 0, y.2)

/-- One application of the operation of REDS and SCAN (R391). -/
def redsOp (op : Nat) (t : Ty) (r : Rm) (a b : DWord) : DWord × Flags :=
  if t.isFloat then
    let f := fmtOf t
    let y : FRes :=
      match op with
      | 0 => fadd f r (uval t a) (uval t b)
      | 1 => fminmax f false (uval t a) (uval t b)
      | _ => fminmax f true (uval t a) (uval t b)
    (BitVec.ofNat 64 y.1, y.2)
  else
    match op with
    | 0 => (intResult t false (IntOp.exact .add t (intVal t a.toNat) (intVal t b.toNat)), 0)
    | 1 => (intResult t false (IntOp.exact .min t (intVal t a.toNat) (intVal t b.toNat)), 0)
    | 2 => (intResult t false (IntOp.exact .max t (intVal t a.toNat) (intVal t b.toNat)), 0)
    | 3 => (BitVec.ofNat 64 (BitOp.apply .and t.width (uval t a) (uval t b)), 0)
    | 4 => (BitVec.ofNat 64 (BitOp.apply .or t.width (uval t a) (uval t b)), 0)
    | _ => (BitVec.ofNat 64 (BitOp.apply .xor t.width (uval t a) (uval t b)), 0)

/-- Place(x, TYPE) (R66): the value of a type as its destination takes it. -/
def place (t : Ty) (x : DWord) : DWord := if t.isSigned then placeInt t (intVal t x.toNat) else BitVec.ofNat 64 (uval t x)

/-- The elements of a packed operand of width `w`, applied one by one (R109). -/
def packed (w n : Nat) (f : Nat → Nat × Flags) : DWord × Flags :=
  (BitVec.ofNat 64 ((List.range n).foldl (fun x k => x + (f k).1 % 2 ^ w * 2 ^ (w * k)) 0),
    (List.range n).foldl (fun x k => x ||| (f k).2) 0)

/-- Element k of a packed operand. -/
def element (w k : Nat) (x : DWord) : Nat := x.toNat / 2 ^ (w * k) % 2 ^ w

/-! ## Shapes of meanings -/

/-- The rounding mode of an instruction: its RND, or %fpmode.RM (R55, R103). -/
def Ctx.rm (c : Ctx) : Rm :=
  let pick (n : Nat) : Rm := match n with | 0 => .rn | 1 => .rz | 2 => .ru | _ => .rd
  if c.f.e.rnd = 0 then pick (c.t.fp.toNat % 4) else pick (c.f.e.rnd.toNat - 1)

/-- .sat in MOD[3]. -/
def Ctx.sat (c : Ctx) : Bool := c.f.e.mod.getLsbD 3

/-- The value of an integer operand of the instruction's type. -/
def Ctx.int (c : Ctx) (x : DWord) : Int := intVal c.f.e.ty x.toNat

/-- A truth value as a result (R48, R49). -/
def truth (b : Bool) : DWord := if b then 1 else 0

end Sys2Proof.Machine
end

