-- ==== Sys2Proof/Machine/Access.lean ====
section
/-! DEFINITION. Accesses of items: the bytes that a lane names, the checks in their order, and what performs them: L1, the
constant path, the local store, the resolution points of scoped accesses and the L2 bank (R159 to R173, R182, R184, R191, R192,
R206, R283, R319, R366, R367, R403). -/
namespace Sys2Proof.Machine

/-- The path of an access. -/
inductive Space where
  | global | localStore | priv | const
  deriving DecidableEq, Repr

/-- The space of an instruction's access: a view says its own (R198). -/
def Ctx.space (c : Ctx) : Space :=
  match c.f.op with
  | 0x71 | 0x76 => .localStore
  | 0x72 | 0x77 | 0x03 | 0x04 | 0x05 => .priv
  | 0x73 => .const
  | 0x88 | 0x89 =>
    -- an access of the local store is never in flight
    if c.flying then .global else match c.view? with | some v => if v.isLocal then .localStore else .global | none => .global
  | _ => .global

/-- The bytes of one lane's access. -/
def Ctx.size (c : Ctx) : Nat :=
  match c.f.op with
  | 0x03 | 0x04 | 0x05 | 0x83 | 0x84 | 0xB2 => 4
  | 0xB5 | 0xB6 => 64
  | _ => tySize c.f.e.ty

/-- PrivAddr(i, b) of R166. -/
def privAddr (g : Grid) (item b : Nat) : Nat :=
  g.record.privArea.toNat + item / 32 * (g.header.privBytes / 4) * 128 + b / 4 * 128 + item % 32 * 4 + b % 4

/-- The virtual addresses of the bytes of a lane's access in their order; offsets for the local store. -/
def Ctx.bytes (c : Ctx) (l : Nat) : List Nat :=
  let a := (c.ea l).toNat
  if c.space = .priv then (span a c.size).map (privAddr c.g (c.item l)) else span a c.size

/-- The virtual address that names a lane's access. -/
def Ctx.va (c : Ctx) (l : Nat) : DWord :=
  if c.space = .priv then BitVec.ofNat 64 (privAddr c.g (c.item l) (c.ea l).toNat) else BitVec.ofInt 64 (c.ea l)

/-- The lowest lane of a mask of which a property holds. -/
def firstLane (m : Mask) (p : Nat → Bool) : Option Nat := (lanesOf m).find? p

/-- The footprints of a lane's access for R206: a private access of 8 bytes takes two words. -/
def Ctx.feet (c : Ctx) (l : Nat) : List Foot :=
  match (if c.f.op = 0x88 || c.f.op = 0x89 then c.view? else none) with
  | some v => [v.elementFoot (c.ea l)]
  | none =>
  match c.space with
  | .localStore => [genericFoot true (c.ea l) c.size]
  | .priv =>
    (List.range (ceilDiv c.size 4)).map fun k =>
      genericFoot false (privAddr c.g (c.item l) ((c.ea l).toNat + 4 * k) : Nat) (min c.size 4)
  | _ => [genericFoot false (c.ea l) c.size]

/-- A lane's access meets a lock that forbids it (R206). (DEDUCED, log entry 48) -/
def Ctx.locked (c : Ctx) (writes : Bool) (l : Nat) : Bool :=
  let locks := c.s.locksOf c.c
  (c.feet l).any (lockHit locks writes)

/-- Check 1 of R367 and R403. -/
def Ctx.outside (c : Ctx) (l : Nat) : Bool :=
  let a := c.ea l
  match c.space with
  | .localStore => decide (a < 0) || decide ((c.g.header.localBytes : Int) < a + c.size)
  | .priv => decide (a < 0) || decide ((c.g.header.privBytes : Int) < a + c.size)
  | _ => decide ((2 ^ 57 : Int) < a + c.size)

/-- The lowest private offset among the active lanes that fail a check: %trapaddr of PRIVATE_LIMIT (R166, R274). (DEDUCED, log entry 68) -/
def Ctx.lowestOffset (c : Ctx) (bad : Nat → Bool) : DWord :=
  BitVec.ofInt 64 (((lanesOf c.act).filter bad).foldl (fun m l => min m (c.ea l)) (2 ^ 62))

/-- Checks 1 to 3 of R367 and R403, over all active lanes in their order: the trap, %trapaddr and the lane. -/
def Ctx.accessTrap (c : Ctx) (writes : Bool) : Option (Trap × DWord × Nat) :=
  let at1 (t : Trap) (l : Nat) : Option (Trap × DWord × Nat) := some (t, BitVec.ofInt 64 (c.ea l), l)
  match firstLane c.act c.outside with
  | some l => if c.space = .priv then some (.privateLimit, c.lowestOffset c.outside, l) else at1 .permission l
  | none =>
    match firstLane c.act fun l => decide (c.ea l % (c.size : Int) ≠ 0) with
    | some l => at1 .misalign l
    | none =>
      match firstLane c.act (c.locked writes) with
      | some l => at1 .viewLocked l
      | none => none

/-! ## Accesses in flight -/

/-- The context of an instruction that has issued and not completed. -/
def State.ctxOfEntry (s : State) (r : StrandRef) (e : ReplayEntry) : Option Ctx :=
  match s.grid? r.crew.grid, s.crew? r.crew, s.strand? r with
  | some g, some c, some t =>
    some
      { s := s, iss := { strand := r, mask := e.mask, pc := e.pc, instr := e.instr, replay := some e, queued := true }, g := g,
        c := c, t := t, f := Form.ofInstr e.instr, act := e.mask, flying := true }
  | _, _, _ => none

/-- The context of an access in flight, with the crew's phase and handler as they were at its issue. -/
def State.ctxOfFlight (s : State) (r : StrandRef) (x : InFlight) : Option Ctx :=
  (s.ctxOfEntry r x.entry).map fun (c : Ctx) => { c with c := { c.c with phase := x.phase, handler := x.handler } }

/-- The access goes through a view that is universal now: it may meet every access (R202, R203). -/
def Ctx.throughUniversal (c : Ctx) : Bool :=
  (c.f.op = 0x88 || c.f.op = 0x89) && match c.view? with | some v => v.universal | none => false

/-- An access of the same item that has not completed may meet this one (R184): this one waits. (DEDUCED, log entry 43) -/
def Ctx.overlaps (c : Ctx) : Bool :=
  c.t.inflight.any fun x =>
    match x.state with
    | .pipe _ _ _ _ => false
    | _ =>
      match c.s.ctxOfEntry c.r x.entry with
      | none => false
      | some d =>
        (lanesOf (c.act &&& x.entry.mask)).any fun l =>
          c.throughUniversal || x.universal ||
            (decide (c.space ≠ .localStore) && (d.bytes l).any fun b => (c.bytes l).contains b)

/-- Every access of the strand has completed, its MSTA operations among them: a release of its items waits for that (R183,
R184, R241). -/
def Ctx.quiet (c : Ctx) : Bool :=
  (c.t.inflight.all fun x => match x.state with | .pipe _ _ _ _ => true | _ => false) &&
    !((c.s.tileOpsOf c.c).any fun o => decide (o.strand = c.t.idx) && match o.kind with | .msta _ _ _ _ _ => true | _ => false)

/-- The translated keys of a lane's bytes, as the TLBs hold them. -/
def Ctx.keys? (c : Ctx) (s : State) (a : Right) (l : Nat) : Option (List (Nat × Xlate)) :=
  (c.bytes l).mapM fun va => (s.tlbLook c.core c.ctx va a).map fun x => (physKey x va, x)

/-- The lanes of a mask whose bytes the TLBs translate. -/
def Ctx.mapped (c : Ctx) (s : State) (a : Right) (m : Mask) : Mask :=
  maskOf fun l => hasLane m l && (c.keys? s a l).isSome

/-- A lane with the keys of its bytes. -/
abbrev LaneKeys := Nat × List (Nat × Xlate)

/-- Lanes with their keys as the TLBs hold them. -/
def Ctx.tlbKeys (c : Ctx) (s : State) (m : Mask) : List LaneKeys := (lanesOf m).map fun l => (l, (c.keys? s .read l).getD [])

/-- The lines of keys. -/
def linesOf (ks : List (Nat × Xlate)) : List (Nat × Xlate) := (ks.map fun k => (k.1 / 128, k.2)).eraseDups

/-- A line is at hand on the path of the access: in L1, or in the constant cache. -/
def Ctx.lineAtHand (c : Ctx) (s : State) (line : Nat) : Bool :=
  match s.core? c.core with
  | none => false
  | some d => if c.space = .const then (lineIn? d.kcache line c.ctx).isSome else (d.l1? line).isSome

/-- The lines that a load of translated lanes misses. -/
def Ctx.missedOf (c : Ctx) (s : State) (lk : List LaneKeys) : List Nat :=
  ((lk.flatMap fun x => (linesOf x.2).map (·.1)).filter fun n => !(c.lineAtHand s n)).eraseDups

/-- The lines that a load of some lanes misses, as far as its pages are translated. -/
def Ctx.missed (c : Ctx) (s : State) (m : Mask) : List Nat := c.missedOf s (c.tlbKeys s m)

/-- The lines for which the accesses of a core hold a miss-status entry: what has come frees its entry (R168). -/
def State.missLines (s : State) (core : Nat) : List Nat :=
  ((s.crews.filter fun c => c.core = core).flatMap fun c =>
    c.strands.flatMap fun t =>
      t.inflight.flatMap fun x =>
        match s.ctxOfEntry { crew := c.ref, strand := t.idx } x.entry with
        | some d => x.lines.filter fun n => !(d.lineAtHand s n)
        | none => []).eraseDups

/-- An access that was rejected in a cycle is aged (R168). -/
def State.isAged (s : State) (since : DWord) : Bool := decide (64 ≤ (s.cycle - since).toNat)

/-- The aged accesses of a core (R168), by their numbers: a RET waits at its split. -/
def State.agedOn (s : State) (core : Nat) : List Nat :=
  (s.crews.filter fun c => c.core = core && decide (c.state = .resident)).flatMap fun c =>
    c.strands.flatMap fun t =>
      (t.inflight.filter fun x => x.state = .aged).map (·.id) ++
        t.splits.filterMap fun p => match p.wait with | .entry since num => if s.isAged since then some num else none | _ => none

/-- Lines that an access misses find room among the 256 entries: those that share an entry need none (R168). `older` says which
aged accesses, by their numbers, take a freed entry first. (DESIGN CHOICE, log entry 79) -/
def State.roomForLines (s : State) (core : Nat) (lines : List Nat) (older : Nat → Bool) : Bool :=
  let held := s.missLines core
  let new := lines.filter fun n => !(held.contains n)
  new.isEmpty || (decide (held.length + new.length ≤ 256) && !((s.agedOn core).any older))

/-- The entries that a load of translated lanes needs are free (R168). -/
def Ctx.entriesOf (c : Ctx) (s : State) (lk : List LaneKeys) (older : Nat → Bool) : Bool := s.roomForLines c.core (c.missedOf s lk) older

/-- The entries that a load of some lanes needs are free, as far as its pages are translated (R168). -/
def Ctx.entriesFor (c : Ctx) (s : State) (m : Mask) (older : Nat → Bool) : Bool := c.entriesOf s (c.tlbKeys s m) older

/-- What is left of a CALL while it is in flight is its store (R283, R329). -/
def isHalfOp (op : Nat) : Bool := op = 0x03 || op = 0x04

/-- The instruction is re-injected for its store alone. -/
def Ctx.half (c : Ctx) : Bool := match c.iss.replay with | some e => e.half | none => false

/-- An access enters flight, with the lines for which it holds miss-status entries. -/
def Ctx.launchFlight (c : Ctx) (s : State) (m : Mask) (st : FlightState) (lines : List Nat := []) : State :=
  { c.onStrand s fun t =>
      { t with
        inflight := t.inflight ++
          [{ id := s.nextId, entry := { c.entry m false with half := isHalfOp c.f.op }, state := st, phase := c.c.phase,
             handler := c.c.handler, universal := c.throughUniversal, lines := lines }] } with
    nextId := s.nextId + 1 }

/-- A deferred trap of the instruction for some of its lanes, %trapaddr being that of one of them (R274, R283). -/
def Ctx.deferAt (c : Ctx) (s : State) (t : Trap) (m : Mask) (addr : DWord) (lane : Nat) : State :=
  c.onStrand s fun x =>
    { x with
      deferred := x.deferred ++
        [{ trap := t, handler := c.c.handler, addr := addr, lane := lane, pc := c.iss.pc, mask := m, entry := some (c.entry m true) }] }

/-- A deferred trap of some lanes, named by the lowest. -/
def Ctx.deferOn (c : Ctx) (s : State) (t : Trap) (m : Mask) (addr : DWord) : State := c.deferAt s t m addr (lowest m)

/-! ## Loads -/

/-- How a loaded value is placed (R209, R365). -/
def loadPlace (t : Ty) (x : Nat) : DWord :=
  match t with
  | .s4 => BitVec.ofNat 64 (x % 2 ^ 8)
  | .dt6 => BitVec.ofNat 64 (x % 2 ^ 24)
  | _ => place t (BitVec.ofNat 64 x)

/-- A line brought into the constant cache of a core (R173): what is visible to the core's generic path is visible here
(R174). -/
def State.fillK (s : State) (core ctx line : Nat) : State :=
  match (s.core? core).bind fun c => lineIn? c.kcache line ctx with
  | some _ => s
  | none =>
    let s := s.drain core
    let d := s.genericLine core line
    s.modCore core fun c =>
      { c with kcache := c.kcache ++ [{ line := line, ctx := ctx, vline := line, data := d.1, bad := d.2, moment := 0 }] }

/-- A byte of the constant path, and whether it is uncorrectable. (DESIGN CHOICE, log entry 44) -/
def State.kByte (s : State) (core ctx key : Nat) : Byte × Bool :=
  match (s.core? core).bind fun c => lineIn? c.kcache (key / 128) ctx with
  | some l => (lineByte l.data (key % 128), l.bad)
  | none => (s.memByte key, s.poisoned (key / 128))

/-- A byte of L1, and whether it is uncorrectable: a read of any byte of a poisoned line is (R298). -/
def State.l1Byte (s : State) (core key : Nat) : Byte × Bool :=
  match (s.core? core).bind fun c => c.l1? (key / 128) with
  | some l => (lineByte l.data (key % 128), l.bad)
  | none => (s.memByte key, s.poisoned (key / 128))

/-- The lines of a plain load brought in: L1 with SC = 1, or the constant cache (R161, R173). -/
def Ctx.fillLines (c : Ctx) (s : State) (va : List Nat) (ks : List (Nat × Xlate)) : State :=
  (va.zip ks).foldl
    (fun s x =>
      let line := x.2.1 / 128
      if c.space = .const then s.fillK c.core c.ctx line
      else
        match (s.core? c.core).bind fun k => k.l1? line with
        | some _ => s.touchL1 c.core line c.ctx (x.1 / 128)
        | none => s.fillL1 c.core line c.ctx (x.1 / 128) .crew x.2.2)
    s

/-- Every line of a lane's bytes is at hand. -/
def Ctx.atHand (c : Ctx) (ks : List (Nat × Xlate)) : Bool :=
  ks.all fun k => c.lineAtHand c.s (k.1 / 128)

/-- One lane of a plain load, by the keys of its bytes: the state with its lines, its value, and whether it is uncorrectable. -/
def Ctx.loadLane (c : Ctx) (s : State) (l : Nat) (ks : List (Nat × Xlate)) : State × Nat × Bool :=
  if c.space = .localStore then
    (s, fromBytes ((c.bytes l).map fun a => match s.crew? c.r.crew with | some k => SMap.look 0 k.store a | none => 0), false)
  else
    let s := c.fillLines s (c.bytes l) ks
    let bs := ks.map fun k => if c.space = .const then s.kByte c.core c.ctx k.1 else s.l1Byte c.core k.1
    (s, fromBytes (bs.map (·.1)), bs.any (·.2))

/-- Lanes loaded one after the other: the state, the values, and the lanes whose data are uncorrectable. -/
def Ctx.loadLanes (c : Ctx) (s : State) (lk : List LaneKeys) : State × List (Nat × DWord) × Mask :=
  lk.foldl
    (fun acc y =>
      let x := c.loadLane acc.1 y.1 y.2
      if x.2.2 then (x.1, acc.2.1, acc.2.2 ||| (1#32 <<< y.1))
      else (x.1, acc.2.1 ++ [(y.1, loadPlace c.f.e.ty x.2.1)], acc.2.2))
    (s, [], 0)

/-- The values of lanes written to D; a full-mask load keeps the form of its register (R59). -/
def Ctx.writeLoaded (c : Ctx) (s : State) (vals : List (Nat × DWord)) : State :=
  let m := maskOf fun l => vals.any fun x => x.1 = l
  let tab := SMap.putAll 0 [] vals
  c.onStrand s fun t => t.put { d := c.f.e.d, wide := c.f.dstWide, act := m, vals := tab }

/-- The lanes of a load performed by their keys: values written, uncorrectable lanes left to a deferred trap (R283, R366). An s
destination takes the value of the lowest lane, if that is correctable. -/
def Ctx.performKeys (c : Ctx) (s : State) (lk : List LaneKeys) : State :=
  let x := c.loadLanes s lk
  let low := lowest (maskOf fun l => lk.any fun y => y.1 = l)
  let vals := if isS c.f.e.d then x.2.1.filter fun v => v.1 = low else x.2.1
  let s := c.writeLoaded x.1 vals
  if x.2.2 = 0 then s else c.deferOn s .uncorrectable x.2.2 (c.va (lowest x.2.2))

/-- The lanes `m` of a load performed, as the TLBs translate them. -/
def Ctx.performLoad (c : Ctx) (s : State) (m : Mask) : State := c.performKeys s (c.tlbKeys s m)

/-- Every dirty line of a core, and every write on its way, reaches memory. -/
def State.flushCore (s : State) (core : Nat) : State := (s.writeBack core fun _ => true).drain core

/-- What a core has stored reaches memory, and what its L1 holds is what memory holds: an access that may meet every other is made
between two such points (R184, R202). -/
def State.settleCore (s : State) (core : Nat) : State := (s.flushCore core).refresh core fun _ => true

/-- A load performed; one through a universal view may meet every store before it, and every load after it (R184, R202). -/
def Ctx.loadOrdered (c : Ctx) (s : State) (universal : Bool) (m : Mask) : State :=
  c.performLoad (if universal && decide (m ≠ 0) then s.settleCore c.core else s) m

/-- The beats that the destination adds by expanding registers (R60). -/
def Ctx.grow (c : Ctx) : Nat := c.t.expandBeats c.act c.f.e.d c.f.dstWide

/-- A plain load that has passed its checks: hits are performed at once, everything else flies (R168, R283). -/
def loadGo (c : Ctx) : Eff :=
  if c.overlaps then .stay c.s .retry
  else if c.space = .localStore || (lanesOf c.act).all fun l => match c.keys? c.s .read l with | some ks => c.atHand ks | none => false then
    .go (c.loadOrdered c.s (c.throughUniversal && decide (c.space ≠ .localStore)) c.act) none c.grow
  else if c.entriesFor c.s c.act fun _ => true then .go (c.launchFlight c.s c.act .outstanding (c.missed c.s c.act)) none c.grow
  else .go (c.launchFlight c.s c.act (.rejected c.s.cycle)) none c.grow

/-- A plain load (R366). -/
def loadBody (c : Ctx) : Eff :=
  match c.accessTrap false with
  | some (t, a, l) => c.raise t a l
  | none => loadGo c

/-! ## Stores -/

/-- The value that a lane stores: C, D for STV, the return address for CALL (R329, R403, R405). -/
def Ctx.stored (c : Ctx) (l : Nat) : DWord :=
  match c.f.op with
  | 0x89 => c.get .d l
  | 0x03 | 0x04 => c.next.setWidth 64
  | _ => c.cc l

/-- One lane's bytes stored in L1, line by line, each a PKG write where the page is of that reach (R161, R194). -/
def Ctx.storeKeys (c : Ctx) (s : State) (va : List Nat) (ks : List (Nat × Xlate)) (bs : List Byte) : State :=
  ((va.zip ks).zip bs).foldl
    (fun s x =>
      let line := x.1.2.1 / 128
      let s := s.storeL1 c.core c.c.slot line c.ctx (x.1.1 / 128) x.1.2.2 [(x.1.2.1 % 128, x.2)]
      if x.1.2.2.reach = .pkg then
        s.notePkg { grid := c.g.id, vdie := c.c.vdie, crew := c.c.idx, phase := c.c.phase, core := c.core, line := line }
      else s)
    s

/-- One lane of a plain store performed (R403, R404). -/
def Ctx.storeLane (c : Ctx) (s : State) (l : Nat) : State :=
  let bs := toBytes c.size (c.stored l).toNat
  if c.space = .localStore then
    c.onCrew s fun k => { k with store := SMap.putAll 0 k.store ((c.bytes l).zip bs) }
  else c.storeKeys s (c.bytes l) ((c.keys? s .write l).getD []) bs

/-- The lanes `m` of a store performed in ascending order: the highest lane's value remains (R130). -/
def Ctx.performStore (c : Ctx) (s : State) (m : Mask) : State := (lanesOf m).foldl c.storeLane s

/-- Stores performed; those through a universal view may meet every other, so that what comes before them has reached memory and what
comes after finds them there (R184, R202). -/
def Ctx.storeOrdered (c : Ctx) (s : State) (universal : Bool) (m : Mask) : State :=
  if universal && decide (m ≠ 0) then (c.performStore (s.settleCore c.core) m).settleCore c.core else c.performStore s m

/-- A plain store that has passed its checks: lanes whose page is translated are performed; the others fly until their walk. It needs
no miss-status entry. (DESIGN CHOICE, log entry 79) -/
def storeGo (c : Ctx) : Eff :=
  if c.overlaps then .stay c.s .retry
  else if c.space = .localStore then .go (c.performStore c.s c.act) none 0
  else
    let ready := c.mapped c.s .write c.act
    let s := c.storeOrdered c.s c.throughUniversal ready
    if ready = c.act then .go s none 0 else .go (c.launchFlight s (c.act &&& ~~~ready) .outstanding) none 0

/-- A plain store (R403). -/
def storeBody (c : Ctx) : Eff :=
  match c.accessTrap true with
  | some (t, a, l) => c.raise t a l
  | none => storeGo c

/-! ## Views by the lines they lie in -/

/-- Elements that an engine reads: the space, the byte size and the address of each in the order of use. -/
structure Source where
  isLocal : Bool
  size : Nat
  addrs : List Nat
  deriving DecidableEq, Repr

/-- The elements of a view in index order. -/
def View.source (v : View) : Source := { isLocal := v.isLocal, size := elemSize v.ty, addrs := (List.range v.count).map v.elemAddr }

/-- A translation by pages. -/
abbrev Trans := Nat → Option Xlate

/-- The pages of global sources. -/
def pagesOf (xs : List Source) : List Nat :=
  (xs.flatMap fun x => if x.isLocal then [] else x.addrs.flatMap fun a => [pageOf a, pageOf (a + (x.size - 1))]).eraseDups

/-- The translation of an address for a right: what the TLBs of a core hold, else what the walk finds (R283). -/
def State.trans (s : State) (core ctx : Nat) (a : Right) : Trans := fun va =>
  match s.tlbLook core ctx va a with
  | some x => some x
  | none => (s.walk ctx va a).getLeft?

/-- Some page of a global view lies in the frame of an L1 line, which intersects the view's bytes there: whoever filled the line, and by
whatever address (R175, R211). -/
def State.frameMeets (s : State) (core ctx : Nat) (v : View) (l : L1Line) : Bool :=
  (pagesOf [v.source]).any fun p =>
    match s.trans core ctx .read (p * 65536) <|> s.trans core ctx .write (p * 65536) with
    | none => false
    | some x =>
      let first := physKey x (p * 65536) / 128
      let vline : Int := p * 512 + (l.line - first : Nat)
      decide (first ≤ l.line) && decide (l.line < first + 512) && decide (128 * vline < v.hi) && decide (v.lo < 128 * (vline + 1))

/-- A line of the L1 of a core meets a view of a context: by the address of its accesses, or by its frame (R175, R211). -/
def State.lineMeets (s : State) (core ctx : Nat) (v : View) (l : L1Line) : Bool :=
  v.meetsLine ctx l || (!v.isLocal && s.frameMeets core ctx v l)

/-! ## Accesses made whole at issue -/

/-- Every byte address of a list translated for a right, walks made at once: the keys, or the address and REASON of the first
that fails. -/
def State.keysOf (s : State) (core ctx : Nat) (a : Right) : List Nat → State × (List (Nat × Xlate) ⊕ (Nat × BitVec 8))
  | [] => (s, .inl [])
  | va :: t =>
    let x := s.translate core ctx va a
    match x.2 with
    | .inr r => (x.1, .inr (va, r))
    | .inl e =>
      let y := x.1.keysOf core ctx a t
      match y.2 with
      | .inl ks => (y.1, .inl ((physKey e va, e) :: ks))
      | .inr f => (y.1, .inr f)

/-- The record of a page fault of the instruction: SOURCE 0, or the source given (R284). -/
def Ctx.faultRec (c : Ctx) (a : Right) (source : BitVec 4) (va : Nat) (reason : BitVec 8) : Fault32 :=
  { faultOf c.g c.c with va := BitVec.ofNat 64 va, access := a.code, source := source, reason := reason }

/-- The instruction parks on a page fault at its issue (R283). -/
def Ctx.parkOn (c : Ctx) (s : State) (a : Right) (source : BitVec 4) (va : Nat) (reason : BitVec 8) : Eff :=
  let y := s.pageFault (c.faultRec a source va reason)
  .stay y.1 (.xlate y.2)

/-- The lanes of a list translated, or the address and REASON of the first fault. -/
def Ctx.translateLanes (c : Ctx) (s : State) (a : Right) (bytes : Nat → List Nat) :
    List Nat → State × (List LaneKeys ⊕ (Nat × BitVec 8))
  | [] => (s, .inl [])
  | l :: t =>
    let x := s.keysOf c.core c.ctx a (bytes l)
    match x.2 with
    | .inr f => (x.1, .inr f)
    | .inl ks =>
      let y := c.translateLanes x.1 a bytes t
      match y.2 with
      | .inl rest => (y.1, .inl ((l, ks) :: rest))
      | .inr f => (y.1, .inr f)

/-- The body runs on translated lanes; a fault parks the instruction at its issue (R283). -/
def Ctx.whole (c : Ctx) (a : Right) (lanes : List Nat) (body : State → List LaneKeys → Eff) : Eff :=
  let x := c.translateLanes c.s a c.bytes lanes
  match x.2 with
  | .inl ks => body x.1 ks
  | .inr f => c.parkOn x.1 a 0 f.1 f.2

/-- The beats that the result of a scoped load or a bank operation adds by expanding its register. -/
def Ctx.growD (c : Ctx) : Nat := if hasDst c.f.op then c.grow else 0

/-- An access of some lanes that is made as a whole: where a page has no translation it is in flight, parked, and the strand goes on
(R283). -/
def Ctx.flyOn (c : Ctx) (a : Right) (lanes : List Nat) (body : State → List LaneKeys → Eff) : Eff :=
  let x := c.translateLanes c.s a c.bytes lanes
  match x.2 with
  | .inl ks => body x.1 ks
  | .inr f =>
    let y := x.1.pageFault (c.faultRec a 0 f.1 f.2)
    if c.flying then .stay y.1 (.xlate y.2) else .go (c.launchFlight y.1 c.act (.parked y.2)) none c.growD

/-- An access of the lanes of Active() that is made as a whole. -/
def Ctx.wholeFly (c : Ctx) (a : Right) (body : State → List LaneKeys → Eff) : Eff := c.flyOn a (lanesOf c.act) body

/-- The scope instance of the instruction (R180). -/
def Ctx.inst (c : Ctx) : Inst :=
  (c.g.instOf c.c.idx c.f.e.scope (c.f.e.aux >>> 6).toNat).getD (.crew c.c.ref)

/-- The scope is .cohort or wider: the access is made at a resolution point beyond L1 (R182). -/
def beyondL1 (sc : Scope) : Bool := decide (2 ≤ scopeRank sc)

/-- The lowest lane whose line's scope record is not contained in the instance (R192). -/
def Ctx.scopeFail (c : Ctx) (s : State) (lk : List LaneKeys) : Option Nat :=
  if !(beyondL1 c.f.e.scope) then none
  else
    (lk.find? fun x =>
      x.2.any fun k => s.hasRecord k.2.target.toNat && !(s.scopeOk (k.1 / 128) c.inst)).map (·.1)

/-- The scope record of each line set (R191). -/
def Ctx.setRecords (c : Ctx) (s : State) (ks : List (Nat × Xlate)) : State :=
  if beyondL1 c.f.e.scope then
    (linesOf ks).foldl
      (fun s k => if s.hasRecord k.2.target.toNat then (s.l2Access c.ctx k.1 k.2).setRecord k.1 c.inst else s) s
  else s

/-- A line's dirty bytes leave the core for their resolution point before an access is made there (R161). -/
def State.flushLine (s : State) (core line : Nat) : State := (s.writeBack core fun l => l.line = line).drain core

/-- Every line of keys flushed. -/
def Ctx.flush (c : Ctx) (s : State) (ks : List (Nat × Xlate)) : State :=
  (linesOf ks).foldl (fun s k => s.flushLine c.core k.1) s

/-- A scoped load of one lane at its resolution point: it reads past L1 and fills or refreshes the line (R161). (DESIGN CHOICE, log entry 13) -/
def Ctx.loadScoped (c : Ctx) (s : State) (va : List Nat) (ks : List (Nat × Xlate)) : State × Nat × Bool :=
  let s := c.flush s ks
  let bs := ks.map fun k => s.memByte k.1
  let bad := ks.any fun k => s.poisoned (k.1 / 128)
  let s := (va.zip ks).foldl (fun s x => s.fillL1 c.core (x.2.1 / 128) c.ctx (x.1 / 128) c.f.e.scope x.2.2) s
  (c.setRecords s ks, fromBytes bs, bad)

/-- A scoped store of one lane at its resolution point: it writes through; a line present in L1 is updated and left clean
(R161, R404). -/
def Ctx.storeScoped (c : Ctx) (s : State) (ks : List (Nat × Xlate)) (bs : List Byte) : State :=
  let s := c.setRecords (c.flush s ks) ks
  (ks.zip bs).foldl
    (fun s x =>
      let s := s.writeMem x.1.1 [x.2]
      -- a copy in L1 is written with it, and what watches it there sees that (R161, R270)
      let held := ((s.core? c.core).bind fun d => d.l1? (x.1.1 / 128)).isSome
      (s.noteWrite fun k => held && decide (k = watchKey (x.1.1 / 128) (some c.core))).modCore c.core fun d =>
        { d with
          l1 := modWhere (fun l => l.line = x.1.1 / 128)
            (fun l => { l with data := setLineByte l.data (x.1.1 % 128) x.2, sc := c.f.e.scope, ctx := c.ctx }) d.l1 })
    s

/-- The lines of L1 of which a scoped store has written all 128 bytes are good again (R298). -/
def State.coverL1 (s : State) (core : Nat) (keys : List Nat) : State :=
  s.modCore core fun d =>
    { d with l1 := modWhere (fun l => l.bad && (span (128 * l.line) 128).all fun k => keys.contains k) (fun l => { l with bad := false }) d.l1 }

/-- The lanes whose lines are poisoned. -/
def poisonedLanes (s : State) (lk : List LaneKeys) : Mask :=
  maskOf fun l => lk.any fun x => decide (x.1 = l) && x.2.any fun k => s.poisoned (k.1 / 128)

end Sys2Proof.Machine
end

