-- ==== Sys2Proof/Machine/MemoryInstr.lean ====
section
/-! DEFINITION. The memory instructions: row 0x7 (R317 to R321, R331, R364 to R368, R370, R382, R386, R389, R390, R401 to
R404). -/
namespace Sys2Proof.Machine

/-- LD.g, base form (R366). -/
def execLdG (b : Base) (s : State) : Host.Outcome State Fault Refusal := issue (Form.ofBase 0x70 b) loadBody s
/-- LD.g, literal or extended form (R366). -/
def execLdGExt (f : Long) (s : State) : Host.Outcome State Fault Refusal := issue (Form.ofLong 0x70 f) loadBody s
/-- LD.l, base form (R159, R366). -/
def execLdL (b : Base) (s : State) : Host.Outcome State Fault Refusal := issue (Form.ofBase 0x71 b) loadBody s
/-- LD.l, literal or extended form (R159, R366). -/
def execLdLExt (f : Long) (s : State) : Host.Outcome State Fault Refusal := issue (Form.ofLong 0x71 f) loadBody s
/-- LD.p, base form (R166, R366). -/
def execLdP (b : Base) (s : State) : Host.Outcome State Fault Refusal := issue (Form.ofBase 0x72 b) loadBody s
/-- LD.p, literal or extended form (R166, R366). -/
def execLdPExt (f : Long) (s : State) : Host.Outcome State Fault Refusal := issue (Form.ofLong 0x72 f) loadBody s
/-- LD.k, base form (R173, R366). -/
def execLdK (b : Base) (s : State) : Host.Outcome State Fault Refusal := issue (Form.ofBase 0x73 b) loadBody s
/-- LD.k, literal or extended form (R173, R366). -/
def execLdKExt (f : Long) (s : State) : Host.Outcome State Fault Refusal := issue (Form.ofLong 0x73 f) loadBody s
/-- ST.g, base form (R403). -/
def execStG (b : Base) (s : State) : Host.Outcome State Fault Refusal := issue (Form.ofBase 0x75 b) storeBody s
/-- ST.g, literal or extended form (R403). -/
def execStGExt (f : Long) (s : State) : Host.Outcome State Fault Refusal := issue (Form.ofLong 0x75 f) storeBody s
/-- ST.l, base form (R159, R403). -/
def execStL (b : Base) (s : State) : Host.Outcome State Fault Refusal := issue (Form.ofBase 0x76 b) storeBody s
/-- ST.l, literal or extended form (R159, R403). -/
def execStLExt (f : Long) (s : State) : Host.Outcome State Fault Refusal := issue (Form.ofLong 0x76 f) storeBody s
/-- ST.p, base form (R166, R403). -/
def execStP (b : Base) (s : State) : Host.Outcome State Fault Refusal := issue (Form.ofBase 0x77 b) storeBody s
/-- ST.p, literal or extended form (R166, R403). -/
def execStPExt (f : Long) (s : State) : Host.Outcome State Fault Refusal := issue (Form.ofLong 0x77 f) storeBody s

/-! ## Acquire loads and release stores -/

/-- SCOPE_MISMATCH at the lowest lane that fails the scope check (R192). -/
def Ctx.mismatch (c : Ctx) (s : State) (l : Nat) : Eff := .trap .scopeMismatch (c.va l) l s

/-- LD.acq: made in L1 at .crew, on lines whose clean bytes are read again (R257), at the resolution point of a wider scope; then the
acquire (R161, R366, R368). (DEDUCED, log entry 90) -/
def loadAcquire (c : Ctx) (s : State) (lk : List LaneKeys) : Eff :=
  if beyondL1 c.f.e.scope then
    match c.scopeFail s lk with
    | some l => c.mismatch s l
    | none =>
      let x := lk.foldl
        (fun (acc : State × List (Nat × DWord) × Mask) y =>
          let v := c.loadScoped acc.1 (c.bytes y.1) y.2
          if v.2.2 then (v.1, acc.2.1, acc.2.2 ||| (1#32 <<< y.1))
          else (v.1, acc.2.1 ++ [(y.1, loadPlace c.f.e.ty v.2.1)], acc.2.2))
        (s, [], 0)
      let vals := if isS c.f.e.d then x.2.1.filter fun v => v.1 = c.low else x.2.1
      let s := (c.writeLoaded x.1 vals).acquire c.core c.f.e.scope
      .go (if x.2.2 = 0 then s else c.deferOn s .uncorrectable x.2.2 (c.va (lowest x.2.2))) none c.grow
  else .go ((c.performKeys (s.refresh c.core fun l => lk.any fun y => y.2.any fun k => k.1 / 128 = l.line) lk).acquire c.core .crew) none c.grow

/-- LD.acq on translated lanes: the lines that it misses need miss-status entries; where none is free, it is rejected as a whole (R168). -/
def acquireGo (c : Ctx) (s : State) (lk : List LaneKeys) : Eff :=
  if c.entriesOf s lk fun _ => true then loadAcquire c s lk
  else if c.flying then .stay s .retry
  else .go (c.launchFlight s c.act (.rejected s.cycle)) none c.grow

/-- LD.acq (R366, R368). -/
def execLdAcq (e : Ext) (s : State) : Host.Outcome State Fault Refusal :=
  issue (Form.ofExt 0x74 e)
    (fun c =>
      match c.accessTrap false with
      | some (t, a, l) => c.raise t a l
      | none =>
        if c.overlaps then .stay c.s .retry else c.wholeFly .read (acquireGo c)) s

/-- ST.rel: the release, then the store at the resolution point of its scope (R403, R404). -/
def storeRelease (c : Ctx) (s : State) (lk : List LaneKeys) : Eff :=
  match c.scopeFail s lk with
  | some l => c.mismatch s l
  | none =>
    let s := s.release c.core c.f.e.scope
    if beyondL1 c.f.e.scope then
      let s := lk.foldl (fun s y => c.storeScoped s y.2 (toBytes c.size (c.stored y.1).toNat)) s
      let keys := lk.flatMap fun y => y.2.map (·.1)
      .go ((s.coverPoison keys).coverL1 c.core keys) none 0
    else .go (lk.foldl (fun s y => c.storeKeys s (c.bytes y.1) y.2 (toBytes c.size (c.stored y.1).toNat)) s) none 0

/-- ST.rel (R403, R404). -/
def execStRel (e : Ext) (s : State) : Host.Outcome State Fault Refusal :=
  issue (Form.ofExt 0x78 e)
    (fun c =>
      match c.accessTrap true with
      | some (t, a, l) => c.raise t a l
      | none => if !c.quiet then .stay c.s .retry else c.wholeFly .write (storeRelease c)) s

/-! ## Bank operations -/

/-- Checks 1 and 2 of R320. -/
def Ctx.bankTrap (c : Ctx) : Option (Trap × DWord × Nat) :=
  match firstLane c.act fun l => decide (c.ea l % (c.size : Int) ≠ 0) with
  | some l => some (.misalign, c.va l, l)
  | none =>
    match firstLane c.act (c.locked true) with
    | some l => some (.viewLocked, c.va l, l)
    | none => none

/-- The key of a lane's location. -/
def keyHead (ks : List (Nat × Xlate)) : Nat := ((ks.head?).map (·.1)).getD 0

/-- One lane's operation at the bank (R172, R319): the line's dirty bytes of this core reach it first, and the core's copy is
given up. -/
def Ctx.bankLane (c : Ctx) (new : DWord → Nat → DWord) (acc : State × List (Nat × DWord)) (x : LaneKeys) : State × List (Nat × DWord) :=
  let s := (c.flush acc.1 x.2).invalidate c.core fun l => l.line = keyHead x.2 / 128
  let old : DWord := BitVec.ofNat 64 (s.readNat (keyHead x.2) c.size)
  ((c.setRecords s x.2).writeNat (keyHead x.2) c.size (new old x.1).toNat, acc.2 ++ [(x.1, place c.f.e.ty old)])

/-- The checks 4 to 6 of R320 on translated lanes, then `body`. `host`: a page of host memory is refused in PCIe mode (R300). The dirty
bytes of this core reach the bank before the lines are looked at (R172). -/
def Ctx.bankChecked (c : Ctx) (host : Bool) (s : State) (lk : List LaneKeys) (body : State → Eff) : Eff :=
  let onHost := lk.find? fun x => x.2.any fun k => k.2.target = 1
  if host && decide (s.port = .pcie) && onHost.isSome then
    let l := (onHost.map (·.1)).getD 0
    .trap .permission (c.va l) l s
  else
    match c.scopeFail s lk with
    | some l => c.mismatch s l
    | none =>
      let s := lk.foldl (fun s x => c.flush s x.2) s
      let bad := poisonedLanes s lk
      if bad ≠ 0 then .defer .uncorrectable (c.va (lowest bad)) (lowest bad) c.act else body s

/-- The body of a bank operation: the order of its checks (R319, R320). -/
def bankBody (host : Bool) (body : Ctx → List LaneKeys → State → Eff) (c : Ctx) : Eff :=
  match c.bankTrap with
  | some (t, a, l) => c.raise t a l
  | none =>
    if c.overlaps || (decide (c.f.e.scope ≠ .none) && !c.quiet) then .stay c.s .retry
    else c.wholeFly .both fun s lk => c.bankChecked host s lk (body c lk)

/-- The release that a scoped bank operation makes first, and the acquire at its end (R183). -/
def Ctx.fenced (c : Ctx) (acq : Bool) (s : State) (f : State → State) : State :=
  if c.f.e.scope = .none then f s
  else
    let s := f (s.release c.core c.f.e.scope)
    if acq then s.acquire c.core c.f.e.scope else s

/-- ATOM and ATOM.ret in the lanes of Active(), ascending (R319, R321). -/
def atomLanes (ret : Bool) (new : Ctx → DWord → Nat → DWord) (c : Ctx) (lk : List LaneKeys) (s : State) : Eff :=
  .go
    (c.fenced true s fun s =>
      let x := lk.foldl (c.bankLane (new c)) (s, [])
      if ret then c.writeLoaded x.1 (if isS c.f.e.d then x.2.filter fun v => v.1 = c.low else x.2) else x.1)
    none (if ret then c.grow else 0)

/-- The new value of ATOM and RED in a lane. -/
def Ctx.atomNew (c : Ctx) (old : DWord) (l : Nat) : DWord := bankOp (c.f.e.mod.setWidth 3) c.f.e.ty old (c.b l)

/-- The new value of CAS in a lane: the old one where the comparison fails (R331). -/
def Ctx.casNew (c : Ctx) (old : DWord) (l : Nat) : DWord :=
  if uval c.f.e.ty old = uval c.f.e.ty (c.b l) then c.cc l else old

/-- ATOM (R319). -/
def execAtom (e : Ext) (s : State) : Host.Outcome State Fault Refusal :=
  issue (Form.ofExt 0x79 e) (bankBody true (atomLanes false Ctx.atomNew)) s
/-- ATOM.ret (R319). -/
def execAtomRet (e : Ext) (s : State) : Host.Outcome State Fault Refusal :=
  issue (Form.ofExt 0x7A e) (bankBody true (atomLanes true Ctx.atomNew)) s
/-- CAS: to a host page it travels as an AtomicOp in PCIe mode (R300, R331). -/
def execCas (e : Ext) (s : State) : Host.Outcome State Fault Refusal :=
  issue (Form.ofExt 0x7B e) (bankBody false (atomLanes true Ctx.casNew)) s

/-- One lane of an unscoped RED: it is on its way to the bank behind the core's earlier writes of the line (R390). -/
def Ctx.redLane (c : Ctx) (s : State) (x : LaneKeys) : State :=
  let s := s.invalidate c.core fun l => l.line = keyHead x.2 / 128
  let pkg : List PkgWrite :=
    if x.2.any fun k => k.2.reach = .pkg then
      [{ grid := c.g.id, vdie := c.c.vdie, crew := c.c.idx, phase := c.c.phase, core := c.core, line := keyHead x.2 / 128 }]
    else []
  s.modCore c.core fun k =>
    { k with outbox := k.outbox ++ [.red (keyHead x.2) (c.f.e.mod.setWidth 3) c.f.e.ty (c.b x.1) pkg] }

/-- RED: a plain access without a scope; with one, a release (R390). -/
def redLanes (c : Ctx) (lk : List LaneKeys) (s : State) : Eff :=
  if c.f.e.scope = .none then .go (lk.foldl c.redLane s) none 0
  else .go (c.fenced false s fun s => (lk.foldl (c.bankLane c.atomNew) (s, [])).1) none 0

/-- RED (R390). -/
def execRed (e : Ext) (s : State) : Host.Outcome State Fault Refusal :=
  issue (Form.ofExt 0x7C e) (bankBody true redLanes) s

/-- The view register that VIEW names. -/
def Ctx.viewReg (c : Ctx) : Nat := match c.f.e.view with | some n => n.toNat | none => 0

/-- The view register changed. -/
def Ctx.setView (c : Ctx) (s : State) (v : Option View) : State :=
  c.onCrew s fun k => { k with views := putNth k.views c.viewReg v }

/-- The flag store of a VRET at its scope, and the drop of the view once it has been performed (R182, R191, R211, R410). -/
def flagStore (c : Ctx) (s : State) (lk : List LaneKeys) : Eff :=
  match c.scopeFail s lk with
  | some l => .trap .scopeMismatch (c.va l) l s
  | none =>
    let ks := (lk.map (·.2)).flatten
    let bs := toBytes 4 (loWord (c.b c.low)).toNat
    .go (c.setView (if beyondL1 c.f.e.scope then c.storeScoped s ks bs else c.storeKeys s (c.bytes c.low) ks bs) none) none 0

/-- An access made as a whole that is in flight, made again once its fault is settled (R283). -/
def wholeAgain (c : Ctx) : Eff :=
  let bank (host : Bool) (body : Ctx → List LaneKeys → State → Eff) : Eff :=
    c.wholeFly .both fun s lk => c.bankChecked host s lk (body c lk)
  match c.f.op with
  | 0x74 => c.wholeFly .read (acquireGo c)
  | 0x78 => c.wholeFly .write (storeRelease c)
  | 0x83 => c.flyOn .write [c.low] (flagStore c)
  | 0x79 => bank true (atomLanes false Ctx.atomNew)
  | 0x7A => bank true (atomLanes true Ctx.atomNew)
  | 0x7B => bank false (atomLanes true Ctx.casNew)
  | _ => bank true redLanes

/-! ## PRF, LEA, PFENCE -/

/-- The footprint of PRF in a lane: the line that holds its address (R386). -/
def Ctx.prfFoot (c : Ctx) (l : Nat) : Foot := genericFoot false (((c.ea l).toNat / 128 * 128 : Nat) : Int) 128

/-- One lane of PRF: an L1 line filled with SC = 1, or, with .l2, a line of L2; what has no translation or is poisoned is skipped
(R386). -/
def Ctx.prfLane (c : Ctx) (s : State) (l : Nat) : State :=
  let va := (c.ea l).toNat
  if 2 ^ 57 ≤ va then s
  else
    let x := s.translate c.core c.ctx va .read
    match x.2 with
    | .inr _ => s
    | .inl e =>
      let line := physKey e va / 128
      if x.1.poisoned line then x.1
      else if c.f.e.mod ≠ 0 then x.1.l2Access c.ctx line e
      else if ((x.1.core? c.core).bind fun k => k.l1? line).isSome then x.1
      else x.1.fillL1 c.core line c.ctx (va / 128) .crew e

/-- PRF (R386). -/
def execPrf (e : Ext) (s : State) : Host.Outcome State Fault Refusal :=
  issue (Form.ofExt 0x7D e)
    (fun c =>
      match firstLane c.act fun l => lockHit (c.s.locksOf c.c) false (c.prfFoot l) with
      | some l => c.raise .viewLocked (BitVec.ofInt 64 (c.ea l)) l
      | none => .go ((lanesOf c.act).foldl c.prfLane c.s) none 0) s

/-- LEA (R370). -/
def execLea (e : Ext) (s : State) : Host.Outcome State Fault Refusal :=
  issue (Form.ofExt 0x7E e)
    (fun c => c.write 4 fun l =>
      BitVec.ofInt 64 ((c.a l).toNat + intVal c.f.e.ty (c.b l).toNat * ((2 ^ c.f.e.mod.toNat : Nat) : Int) + c.f.e.imm.toInt)) s

/-- PFENCE: the path fence; with a scope also a release, an acquire and a place in the order of scoped fences (R174, R186,
R382). -/
def execPfence (e : Ext) (s : State) : Host.Outcome State Fault Refusal :=
  issue (Form.ofExt 0x7F e)
    (fun c =>
      if c.f.e.scope = .none then .go (c.s.pathFence c.core) none 0
      else if !c.quiet then .stay c.s .retry
      else
        let s := ((c.s.release c.core c.f.e.scope).acquire c.core c.f.e.scope).pathFence c.core
        .go { s with fences := s.fences + 1 } none 0) s

end Sys2Proof.Machine
end

