-- ==== Sys2Proof/Machine/Returns.lean ====
section
/-! DEFINITION. What becomes of plain accesses in flight, and of writes on their way: the happenings ACCESS_AGED, PAGE_WALK,
LOAD_DATA_RETURN, STORE_ARRIVAL, WRITE_BACK and FAULT_RING_POLL (R162, R168, R189, R283, R308, R366). -/
namespace Sys2Proof.Machine

/-! ## Accesses in flight -/

/-- An instruction in flight, by its number. -/
def State.flight? (s : State) (r : StrandRef) (id : Nat) : Option InFlight :=
  (s.strand? r).bind fun t => t.inflight.find? fun x => x.id = id

/-- It is an access, not an instruction in the pipeline. -/
def InFlight.isAccess (x : InFlight) : Bool := match x.state with | .pipe _ _ _ _ => false | _ => true

/-- The right that an access in flight needs (R283, R320). -/
def InFlight.right (x : InFlight) : Right :=
  if x.isStore || x.op = 0x78 || x.op = 0x83 then .write else if x.isWhole && decide (x.op ≠ 0x74) then .both else .read

/-- An access in flight replaced. -/
def State.setFlight (s : State) (r : StrandRef) (x : InFlight) : State :=
  s.modStrand r fun t => { t with inflight := modWhere (fun y => y.id = x.id) (fun _ => x) t.inflight }

/-- An access leaves flight. -/
def State.dropFlight (s : State) (r : StrandRef) (id : Nat) : State :=
  s.modStrand r fun t => { t with inflight := t.inflight.filter fun y => y.id ≠ id }

/-- The lanes `m` of an access have been performed: the others stay in flight in the given state. -/
def State.doneLanes (s : State) (r : StrandRef) (x : InFlight) (m : Mask) (st : FlightState) : State :=
  let rest := x.entry.mask &&& ~~~m
  if rest = 0 then s.dropFlight r x.id
  else s.setFlight r { x with entry := { x.entry with mask := rest }, state := st }

/-- The stored form of a register once every lane of a full-mask load has arrived (R59). -/
def Strand.refit (t : Strand) (m : Mask) (o : Opd) (wide : Bool) : Strand :=
  let fit (n : Nat) (t : Strand) : Strand :=
    { t with forms := SMap.put 0 t.forms n (formOf t.live (t.vAt n)) }
  match o with
  | .v n => if t.live &&& ~~~m = 0 then (if wide then fit (n.toNat + 1) (fit n.toNat t) else fit n.toNat t) else t
  | _ => t

/-- A rejected access may be presented again: entries are free for its lines, and no access goes before it: an aged one before every
other, the oldest first (R168). -/
def State.slotFor (s : State) (r : StrandRef) (x : InFlight) : Bool :=
  match s.ctxOfFlight r x with
  | none => true
  | some c => c.entriesFor s c.act fun n => if x.state = .aged then decide (n < x.id) else true

/-- The lanes of a load that can be performed now: those whose pages are translated; with an s destination all or none. -/
def Ctx.loadReady (c : Ctx) (s : State) : Mask :=
  let m := c.mapped s .read c.act
  if isS c.f.e.d && decide (m ≠ c.act) then 0 else m

/-- The lanes of a load performed, whose data have come: lanes take their values or raise UNCORRECTABLE (R283, R366). -/
def State.serveLoad (s : State) (r : StrandRef) (x : InFlight) : State :=
  match s.ctxOfFlight r x with
  | none => s
  | some c =>
    let m := c.loadReady s
    if m = 0 then s
    else
      let s := (c.loadOrdered s x.universal m).doneLanes r x m x.state
      if m = c.act then s.modStrand r fun t => t.refit x.entry.captured c.f.e.d c.f.dstWide else s

/-- An access stands parked: the fault that it is parked on is not settled, and its lanes wait (R283). -/
def State.standsParked (s : State) (r : StrandRef) (x : InFlight) : Bool :=
  match x.state with
  | .parked id => match s.grid? r.crew.grid with | some g => s.faultOpen g.part id | none => true
  | _ => false

/-- What a strand's accesses touch lies in a bank that is being copied to a spare (R127). (DESIGN CHOICE, log entry 35) -/
def State.bankStops (s : State) (r : StrandRef) : Bool :=
  match s.crew? r.crew with
  | some c => s.bankHeld c.core (strandParty c.slot r.strand)
  | none => false

/-- LOAD_DATA_RETURN can act on an access: a load's data can come, or a rejected access is served. -/
def State.loadDue (s : State) (r : StrandRef) (x : InFlight) : Bool :=
  match x.state with
  | .outstanding | .parked _ =>
    !(s.standsParked r x) && !(s.bankStops r) && !x.isStore && !x.isWhole &&
      match s.ctxOfFlight r x with | some c => decide (c.loadReady s ≠ 0) | none => false
  | .rejected _ | .aged => s.slotFor r x
  | .pipe _ _ _ _ => false

/-- A rejected access is accepted: it holds entries for the lines that it misses (R168). -/
def State.acceptFlight (s : State) (r : StrandRef) (x : InFlight) : State :=
  s.setFlight r { x with state := .outstanding, lines := match s.ctxOfFlight r x with | some c => c.missed s c.act | none => [] }

/-- The data of a load come: its lanes whose pages are translated are performed. Lines that it misses and holds no entry for, another
access having had their pages walked, need one first: where none is free the load is rejected (R168). -/
def State.answerLoad (s : State) (r : StrandRef) (x : InFlight) : State :=
  match s.ctxOfFlight r x with
  | none => s
  | some c => if c.entriesFor s (c.loadReady s) fun _ => true then s.serveLoad r x else s.setFlight r { x with state := .rejected s.cycle }

/-- LOAD_DATA_RETURN (R168, R283, R366). -/
def State.loadReturn (s : State) (r : StrandRef) (id : Nat) : State :=
  match s.flight? r id with
  | none => s
  | some x =>
    if !(s.loadDue r x) then s
    else
      match x.state with
      | .rejected _ | .aged => s.acceptFlight r x
      | _ => s.answerLoad r x

/-- LOAD_DATA_RETURN (R366). -/
def execLoadDataReturn (r : StrandRef) (id : Nat) (s : State) : Host.Outcome State Fault Refusal := .next (s.loadReturn r id)

/-- An access has been rejected for 64 cycles (R168). -/
def State.ageDue (s : State) (x : InFlight) : Bool :=
  match x.state with
  | .rejected since => s.isAged since
  | _ => false

/-- ACCESS_AGED (R168). -/
def execAccessAged (r : StrandRef) (id : Nat) (s : State) : Host.Outcome State Fault Refusal :=
  match s.flight? r id with
  | some x => .next (if s.ageDue x then s.setFlight r { x with state := .aged } else s)
  | none => .next s

/-- The lanes of a store whose pages are translated performed. -/
def State.serveStore (s : State) (r : StrandRef) (x : InFlight) : State :=
  match s.ctxOfFlight r x with
  | none => s
  | some c =>
    let m := c.mapped s .write c.act
    let s := (c.storeOrdered s x.universal m).doneLanes r x m x.state
    -- a store that comes after its crew's end is written back at once (R260)
    if c.c.state = .ended then s.cleanSlot c.core c.c.slot else s

/-- PAGE_WALK can act: the access waits for a translation, and no fault on which it is parked is open (R283). A store, and an access
made as a whole, wait for nothing else. -/
def State.walkDue (s : State) (r : StrandRef) (x : InFlight) : Bool :=
  (match x.state with
   | .outstanding | .parked _ => !(s.standsParked r x) && !(s.bankStops r)
   | _ => false) &&
    match s.ctxOfFlight r x with
    | some c => x.isStore || x.isWhole || decide (c.mapped s x.right c.act ≠ c.act)
    | none => false

/-- The first lane of an access that has no translation parks it on a fault (R283). -/
def State.parkFlight (s : State) (r : StrandRef) (x : InFlight) (c : Ctx) : State :=
  match (lanesOf c.act).findSome? fun l =>
      match (s.keysOf c.core c.ctx x.right (c.bytes l)).2 with
      | .inr f => some f
      | .inl _ => none with
  | none => s
  | some f =>
    let y := s.pageFault (c.faultRec x.right 0 f.1 f.2)
    y.1.setFlight r { x with state := .parked y.2 }

/-- A plain access whose pages have been walked: a store's translated lanes are performed, and a load's where others have no
translation; a load whose new lines find no entry is rejected; and what has no translation parks the access (R168, R283). -/
def State.walkPlain (s : State) (r : StrandRef) (x : InFlight) (c : Ctx) : State :=
  let t := (lanesOf c.act).foldl (fun s l => (s.keysOf c.core c.ctx x.right (c.bytes l)).1) s
  let ready := c.loadReady t
  if !x.isStore && !(c.entriesFor t ready fun _ => true) then t.setFlight r { x with state := .rejected s.cycle }
  else
  let y : InFlight := { x with state := .outstanding, lines := if x.isStore then [] else c.missed t ready }
  let t := t.setFlight r y
  if !x.isStore && decide (c.mapped t x.right c.act = c.act) then t
  else
    let t := if x.isStore then t.serveStore r y else t.serveLoad r y
    match t.flight? r x.id with
    | none => t
    | some z =>
      match t.ctxOfFlight r z with
      | none => t
      | some d => t.parkFlight r z d

/-- An access made as a whole, made again once its fault is settled: it completes, parks again, is rejected (R168), or becomes the trapping entry of a
deferred trap (R283, R285), SCOPE_MISMATCH and PERMISSION too (R192, R274). (DESIGN CHOICE, log entry 97) -/
def State.walkWhole (s : State) (r : StrandRef) (x : InFlight) (c : Ctx) : State :=
  match wholeAgain c with
  | .go t _ _ =>
    let t := t.dropFlight r x.id
    if c.c.state = .ended then t.cleanSlot c.core c.c.slot else t
  | .trap k addr lane t => c.deferAt (t.dropFlight r x.id) k c.act addr lane
  | .defer k addr lane m => c.deferAt (s.dropFlight r x.id) k m addr lane
  | .stay t (.xlate id) => t.setFlight r { x with state := .parked id }
  | .stay t _ => t.setFlight r { x with state := .rejected s.cycle }
  | _ => s

/-- PAGE_WALK: every page of the access is walked (R283). (DEDUCED, log entry 45) -/
def State.walkFlight (s : State) (r : StrandRef) (id : Nat) : State :=
  match s.flight? r id with
  | none => s
  | some x =>
    if !(s.walkDue r x) then s
    else
      match s.ctxOfFlight r x with
      | none => s
      | some c => if x.isWhole then s.walkWhole r x c else s.walkPlain r x c

/-- PAGE_WALK (R283). -/
def execPageWalk (r : StrandRef) (id : Nat) (s : State) : Host.Outcome State Fault Refusal := .next (s.walkFlight r id)

/-- The accesses of a strand that have been accepted complete, as far as their pages are translated: what is left is withdrawn and
captured (R276, R286). -/
def State.settleAccesses (s : State) (r : StrandRef) : State :=
  match s.strand? r with
  | none => s
  | some t =>
    (t.inflight.filter fun x => x.state = .outstanding).foldl
      (fun s x => if x.isStore then s.serveStore r x else s.serveLoad r x) s

/-! ## Writes on their way -/

/-- STORE_ARRIVAL: the oldest write of a core reaches its resolution point (R189). -/
def execStoreArrival (core : Nat) (s : State) : Host.Outcome State Fault Refusal :=
  match s.core? core with
  | none => .next s
  | some c =>
    match c.outbox with
    | [] => .next s
    | m :: rest => .next ((s.perform m).modCore core fun c => { c with outbox := rest })

/-- WRITE_BACK: a line's dirty bytes go to memory; an evicted line leaves L1 (R162). -/
def execWriteBack (core line : Nat) (evict : Bool) (s : State) : Host.Outcome State Fault Refusal :=
  .next (if evict then s.invalidate core fun l => l.line = line else s.writeBack core fun l => l.line = line)

/-- FAULT_RING_POLL (R308). -/
def execFaultRingPoll (part : Nat) (s : State) : Host.Outcome State Fault Refusal := .next (s.pollFaults part)

end Sys2Proof.Machine
end

