-- ==== Sys2Proof/Machine/Fetch.lean ====
section
/-! DEFINITION. Fetching an instruction through the instruction cache and the TLBs (R88 to R92, R283), and the selection of
the split that issues (R22, R153, R154, R265). -/
namespace Sys2Proof.Machine

/-- What a fetch gives: the words as a number, a page fault with its address and REASON, or an address whose line is
uncorrectable. -/
inductive Fetched where
  | words (w : Nat)
  | fault (va : Nat) (reason : BitVec 8)
  | poisoned (va : Nat)
  deriving DecidableEq, Repr

/-- A line of an instruction cache, by the address at which a context fetches it. -/
def codeIn? (l : List CLine) (line ctx vline : Nat) : Option CLine := l.find? fun c => c.line = line && c.ctx = ctx && c.vline = vline

/-- A line with its virtual line and translation, as an instruction names it. -/
structure CodeLine where
  line : Nat
  vline : Nat
  x : Xlate

/-- The line of an address under a translation. -/
def codeAt (va : Nat) (x : Xlate) : CodeLine := { line := physKey x va / 128, vline := va / 128, x := x }

/-- A line of a core's instruction cache. -/
def State.codeHeld (s : State) (core ctx : Nat) (l : CodeLine) : Option CLine :=
  (s.core? core).bind fun c => codeIn? c.icache l.line ctx l.vline

/-- The dirty bytes of a line, and writes on their way, reach memory from every core. -/
def State.gatherLine (s : State) (line : Nat) : State :=
  (s.cores.zipIdx.filter fun x => (x.1.l1.any fun l => l.line = line && decide (l.dirty ≠ 0)) || !x.1.outbox.isEmpty).foldl
    (fun s x => (s.writeBack x.2 fun l => l.line = line).drain x.2) s

/-- Lines taken into the instruction cache of a core at one moment: every store to them that has been made has reached memory, so that
no instruction mixes old words and new ones (R92). (DEDUCED, log entry 17) -/
def State.takeCode (s : State) (core ctx : Nat) (ls : List CodeLine) : State :=
  let s := ls.foldl (fun s l => s.l2Access ctx l.line l.x) s
  { s.modCore core fun c =>
      { c with
        icache := (c.icache.filter fun k => !(ls.any fun l => k.line = l.line && k.ctx = ctx && k.vline = l.vline)) ++
          ls.map fun l => { line := l.line, ctx := ctx, vline := l.vline, data := s.memLine l.line, bad := false, moment := s.nextId } } with
    nextId := s.nextId + 1 }

/-- Lines are read from memory for an instruction at `va`; the first address whose line is uncorrectable stops it. -/
def State.readCode (s : State) (core ctx : Nat) (ls : List (Nat × CodeLine)) : State × Option Nat :=
  let s := ls.foldl (fun s l => s.gatherLine l.2.line) s
  match ls.find? fun l => s.poisoned l.2.line with
  | some l => (s, some l.1)
  | none => (s.takeCode core ctx (ls.map (·.2)), none)

/-- The word at an address, as a core's instruction cache holds its line. -/
def State.codeWord (s : State) (core ctx va : Nat) (l : CodeLine) : Nat :=
  match s.codeHeld core ctx l with
  | some k => (k.data >>> (8 * (va % 128))).toNat % 2 ^ 32
  | none => 0

/-- The instruction at an address whose lines are at hand: the line of a word is the first or the second (R88, R89). -/
def State.codeWords (s : State) (core ctx va : Nat) (l m : CodeLine) : Nat :=
  (List.range (lengthWords (lOf (s.codeWord core ctx va l)))).foldl
    (fun n k =>
      let a := va + 4 * k
      n + s.codeWord core ctx a (if a / 128 = va / 128 then l else m) * 2 ^ (32 * k)) 0

/-- The instruction of a crew at an instruction address. Its lines are those that the instruction cache holds; a line that it lacks is
read from memory; where an instruction lies in two lines, both are of one moment (R90, R92, R283). The instruction cache keeps a line
until ICINV, the placing of a crew, or a reading for an instruction that lies in two lines; a line that it lacks is read as every store
that has been made leaves it. (DESIGN CHOICE, log entry 102) -/
def State.fetch (s : State) (g : Grid) (c : Crew) (pc : Word) : State × Fetched :=
  let va := g.record.kernel.toNat + pc.toNat
  let x := s.translate c.core g.ctx va .fetch
  match x.2 with
  | .inr r => (x.1, .fault va r)
  | .inl e =>
    let l := codeAt va e
    let y := if (x.1.codeHeld c.core g.ctx l).isSome then (x.1, none) else x.1.readCode c.core g.ctx [(va, l)]
    match y.2 with
    | some a => (y.1, .poisoned a)
    | none =>
      let last := va + 4 * lengthWords (lOf (y.1.codeWord c.core g.ctx va l)) - 4
      if last / 128 = va / 128 then (y.1, .words (y.1.codeWords c.core g.ctx va l l))
      else
        let next := (va / 128 + 1) * 128
        let z := y.1.translate c.core g.ctx next .fetch
        match z.2 with
        | .inr r => (z.1, .fault next r)
        | .inl f =>
          let m := codeAt next f
          let moment (k : CodeLine) : Option Nat := (z.1.codeHeld c.core g.ctx k).map (·.moment)
          let w := if (moment m).isSome && moment l = moment m then (z.1, none) else z.1.readCode c.core g.ctx [(va, l), (next, m)]
          match w.2 with
          | some a => (w.1, .poisoned a)
          | none => (w.1, .words (w.1.codeWords c.core g.ctx va l m))

/-! ## Readiness and merging -/

/-- How many entries a crew's pending-launch queue holds (R267). -/
def pendingRoom : Nat := 4

/-- What a split waits for lets it issue now. -/
def State.waitOver (s : State) (g : Grid) (t : Strand) (p : Path) : Bool :=
  match p.wait with
  | .barrier => false
  | .waitm _ _ _ => false
  | .trapret _ => t.gathered
  | .sleep due => decide (due ≤ s.cycle.toNat)
  | .fetch id => !(s.faultOpen g.part id)
  | .xlate id => !(s.faultOpen g.part id)
  | _ => true

/-- The context of a crew is suspended: the crew issues nothing until it is saved (R286). -/
def State.ctxOff (s : State) (c : Crew) : Bool :=
  match (s.grid? c.grid).bind fun g => s.ctx? g.ctx with
  | some x => x.suspended
  | none => false

/-- A follow-on product that came due while the crew was out has not issued: it does so before the crew's first instruction (R226). -/
def Crew.followHolds (c : Crew) : Bool := c.follows.any fun f => f.first && c.followDue f

/-- A strand can issue: its crew is resident, not halted by a debugger, asked to end (R271) nor about to be saved, its cluster has
not retired, and nothing that it touches is held (R127, R226). -/
def State.canIssue (s : State) (c : Crew) (t : Strand) : Bool :=
  decide (c.state = .resident) && !c.halted && !s.halted && !c.killAsked && !(s.ctxOff c) && !t.isOver &&
    decide (0 < beatsOfWidth (s.clusterOf c t).width) && !(s.bankHeld c.core (strandParty c.slot t.idx)) && !c.followHolds

/-- A split at whose instruction its whole strand stalls: an engine operation without its tag, place, slot or translation, a locked view
register, a rejected RET (R168, R206, R213, R214, R222, R228, R234). -/
def Path.stalls (p : Path) : Bool :=
  match p.wait, p.stood with
  | .engine, _ | .lock _, _ | .entry _ _, _ | .unresolved _, _ | .xlate _, none => true
  | _, _ => false

/-- Another split of the strand stalls it. -/
def Strand.stalledBut (t : Strand) (p : Path) : Bool := !p.stalls && t.splits.any Path.stalls

/-- A split that stalls in a LAUNCH looks again once its crew's pending queue has room (R269). -/
def State.launchOver (s : State) (r : StrandRef) (p : Path) : Bool :=
  match p.wait with
  | .launch _ _ => (match s.crew? r.crew with | some c => decide (c.pending.length < pendingRoom) | none => true)
  | _ => true

/-- A split is ready, as far as what it waits for says (R21, R153). -/
def State.splitReady (s : State) (g : Grid) (r : StrandRef) (t : Strand) (p : Path) : Bool :=
  s.pathReady r p && s.waitOver g t p && s.launchOver r p

/-- A split is ready (R265). `goes` says whether its instruction could go on: what a split waits for, and the scoreboard, do not say so
by themselves, and it is tried. -/
def State.canGo (s : State) (goes : SplitRef → Bool) (g : Grid) (r : StrandRef) (t : Strand) (p : Path) : Bool :=
  s.splitReady g r t p && !(t.stalledBut p) && goes { strand := r, lane := lowest p.mask }

/-- A path that was asleep and is ready has become ready now, or when its sleep ended (R265, R266). -/
def Path.look (ready : Path → Bool) (now : DWord) (p : Path) : Path :=
  if ready p then
    (if p.asleep then { p with asleep := false, since := match p.wait with | .sleep due => BitVec.ofNat 64 due | _ => now } else p)
  else { p with asleep := true }

/-- ReadySince of every split is brought up to date, before a split is selected (R265). (DEDUCED, log entry 92) -/
def State.lookAll (s : State) (goes : SplitRef → Bool) : State :=
  { s with
    crews := s.crews.map fun c =>
      match s.grid? c.grid with
      | none => c
      | some g =>
        { c with strands := c.strands.map fun t =>
          let r : StrandRef := { crew := c.ref, strand := t.idx }
          { t with
            splits := t.splits.map (Path.look (s.canGo goes g r t) s.cycle)
            stack := t.stack.map (Path.look (s.pathReady r) s.cycle) } } }

/-- R22: the other splits with the same program counter join the one that has been selected; each of them has ended, and an entry of
the stack takes its place (R23). -/
def Strand.mergeInto (t : Strand) (l : Nat) (ready : Path → Bool) : Strand :=
  match t.splitOf? l with
  | none => t
  | some p =>
    let same := t.splits.filter fun q => decide (q ≠ p) && mergeable p q
    if same.isEmpty then t
    else
      let y := settlePaths ready
        ((t.splits.filter fun q => !(same.contains q)).map fun q => if q = p then same.foldl mergePaths p else q) t.stack
      { t with splits := y.1, stack := y.2 }

/-- The first rule of R154 and R23: stack entries that are due become splits. -/
def State.settleStack (s : State) (r : StrandRef) : State :=
  s.modStrand r fun t =>
    let x := absorbStack t.splits t.stack
    let ready := t.stack.filter fun p => p.isHeld && s.pathReady r p
    if x.1.length < 4 && !(ready.isEmpty) then
      let y := popStack (s.pathReady r) 28 (x.1, x.2)
      { t with splits := y.1, stack := y.2 }
    else { t with splits := x.1, stack := x.2 }

/-- The second rule of R154: every split is held and not ready, and an entry of the stack can issue. -/
def State.swapHeld (s : State) (r : StrandRef) : State :=
  match s.strand? r with
  | none => s
  | some t =>
    if t.splits.isEmpty || t.splits.any (fun p => !p.isHeld || s.pathReady r p) then s
    else if !(t.stack.any fun p => !p.isHeld || s.pathReady r p) then s
    else
      let high := t.splits.foldl (fun n p => max n (lowest p.mask)) 0
      match t.splits.find? fun p => lowest p.mask = high with
      | none => s
      | some p =>
        s.modStrand r fun t =>
          let y := popStack (s.pathReady r) 1 (t.splits.erase p, t.stack)
          { t with splits := y.1, stack := p :: y.2 }

/-! ## Issue selection (R265) -/

/-- A split that can be selected, with its keys: class, ReadySince, crew slot, strand, lowest lane. -/
structure Candidate where
  ref : SplitRef
  cls : Nat
  since : Nat
  slot : Nat
  yielded : Bool
  deriving DecidableEq, Repr

/-- ReadySince(x) of R265; a sleeper becomes ready when its sleep is over. -/
def Path.readySince (p : Path) : Nat := match p.wait with | .sleep due => max due p.since.toNat | _ => p.since.toNat

/-- Class(x) of R265, by its ReadySince; a boosted split has class 4. -/
def State.classOf (s : State) (c : Crew) (boosted : Bool) (since : Nat) : Nat :=
  if boosted || decide (1024 ≤ s.cycle.toNat - since) then 4 else c.prio.toNat

/-- The cycle since which a strand with entries to re-inject has been ready: its thaw, or its last issue. -/
def Strand.readySince (t : Strand) : Nat := (t.splits.map Path.readySince).foldl max 0

/-- A candidate comes before another (R265). -/
def Candidate.before (x y : Candidate) : Bool :=
  if x.yielded ≠ y.yielded then !x.yielded
  else if x.cls ≠ y.cls then decide (y.cls < x.cls)
  else if x.since ≠ y.since then decide (x.since < y.since)
  else if x.slot ≠ y.slot then decide (x.slot < y.slot)
  else if x.ref.strand.strand ≠ y.ref.strand.strand then decide (x.ref.strand.strand < y.ref.strand.strand)
  else decide (x.ref.lane < y.ref.lane)

/-- The ready splits of a strand, as `lookAll` has found them. A strand with entries to re-inject is one candidate, if the first can go
on; a trap waits for the accesses under way (R276). -/
def State.candidatesOf (s : State) (goes : SplitRef → Bool) (g : Grid) (c : Crew) (t : Strand) : List Candidate :=
  let r : StrandRef := { crew := c.ref, strand := t.idx }
  if !(s.canIssue c t) then []
  else if !(t.deferred.isEmpty) && (t.retire s.cycle).busy then []
  else if !(t.reinject.isEmpty) then
    let x : SplitRef := { strand := r, lane := lowest t.live }
    if goes x then
      [{ ref := x, cls := s.classOf c false t.readySince, since := t.readySince, slot := c.slot, yielded := false }]
    else []
  else
    (t.splits.filter fun p => !p.asleep && s.splitReady g r t p).map fun p =>
      { ref := { strand := r, lane := lowest p.mask }, cls := s.classOf c p.boosted p.readySince, since := p.readySince, slot := c.slot,
        yielded := p.yielded }

/-- The best of a list of candidates. -/
def bestOf : List Candidate → Option Candidate
  | [] => none
  | x :: t =>
    match bestOf t with
    | none => some x
    | some y => if y.before x then some y else some x

/-- What each lane cluster that holds a ready split selects (R265), by core and cluster. -/
def State.selected (s : State) (goes : SplitRef → Bool) : List Candidate :=
  let all : List ((Nat × Nat) × Candidate) := s.crews.flatMap fun c =>
    match s.grid? c.grid with
    | none => []
    | some g => c.strands.flatMap fun t => (s.candidatesOf goes g c t).map fun x => ((c.core, t.cluster), x)
  (all.map (·.1)).eraseDups.filterMap fun k => bestOf ((all.filter fun x => x.1 = k).map (·.2))

/-- The split that issues when the agenda names no turn: of what the clusters select, the one ready longest (log entry 1). -/
def State.nextSplit (s : State) (goes : SplitRef → Bool) : Option SplitRef :=
  ((s.selected goes).foldl
    (fun (m : Option Candidate) x => match m with | none => some x | some y => if x.since < y.since then some x else some y)
    none).map (·.ref)

/-- A split that has yielded can be selected again once another of its cluster has issued (R266, R416). -/
def State.clearYield (s : State) (core cluster : Nat) : State :=
  { s with
    crews := modWhere (fun c => c.core = core && c.strands.any fun t => t.cluster = cluster && t.splits.any (·.yielded))
      (fun c =>
        { c with
          strands := c.strands.map fun t =>
            if t.cluster = cluster then { t with splits := t.splits.map fun p => { p with yielded := false } } else t }) s.crews }

/-- The cluster of a split has selected it, and it goes: what has yielded there can be selected again (R266). -/
def State.unyield (s : State) (r : SplitRef) : State :=
  match s.crew? r.strand.crew, s.strand? r.strand with
  | some c, some t => s.clearYield c.core t.cluster
  | _, _ => s

/-! ## The issue of a split -/

/-- A fetch that cannot be made raises a deferred trap without a trapping entry (R283, R285): its mask is every item of the
split. (DEDUCED, log entry 42) The lane that %trapcause names is the split's lowest (R275). (DESIGN CHOICE, log entry 101) -/
def State.fetchTrap (s : State) (r : SplitRef) (p : Path) (handler : Word) (trap : Trap) (va : Nat) : State :=
  s.modStrand r.strand fun t =>
    { (t.modSplit r.lane fun p => { p with wait := .none }) with
      deferred := t.deferred ++
        [{ trap := trap, handler := handler, addr := BitVec.ofNat 64 va, lane := lowest p.mask, pc := p.pc, mask := p.mask, entry := none }] }

/-- A fetch fault parks the split: a fault record with ACCESS 2 is posted, or the one that stands is joined (R283, R284). -/
def State.parkFetch (s : State) (r : SplitRef) (g : Grid) (c : Crew) (va : Nat) (reason : BitVec 8) : State :=
  let x := s.pageFault { faultOf g c with va := BitVec.ofNat 64 va, access := Right.fetch.code, reason := reason }
  (x.1.tick 1).modStrand r.strand fun t => t.modSplit r.lane fun p => { p with wait := .fetch x.2 }

/-- The state in which an instruction is about to issue for a split, or the state after its fetch parked or trapped. -/
def State.present (s : State) (r : SplitRef) (g : Grid) (c : Crew) (p : Path) : State × Option Instr :=
  match p.entry with
  | some e =>
    ({ s with cur := some { strand := r.strand, mask := p.mask, pc := p.pc, instr := e.instr, replay := some e, queued := false } },
      some e.instr)
  | none =>
    let x := s.fetch g c p.pc
    match x.2 with
    | .words w =>
      let i := decodeNat w
      ({ x.1 with cur := some { strand := r.strand, mask := p.mask, pc := p.pc, instr := i, replay := none, queued := false } },
        some i)
    | .fault va reason => (x.1.parkFetch r g c va reason, none)
    | .poisoned va => ((x.1.tick 1).fetchTrap r p c.handler .uncorrectable va, none)

/-- The turn of a split: a deferred trap is taken first (R274); then the entries that are to be re-injected issue in their
order (R280, R288); then the split's next instruction is fetched, other splits at its program counter joining it (R22). The
instruction that issues stands in `cur`; none: the turn is over. -/
def State.beginIssue (s : State) (r : SplitRef) : State × Option Instr :=
  match s.grid? r.strand.crew.grid, s.crew? r.strand.crew, s.strand? r.strand with
  | some g, some c, some t =>
    if !(s.canIssue c t) then (s.tick 1, none)
    else
      match t.deferred with
      | _ :: _ => ((s.tick 1).trapFirst r.strand, none)
      | [] =>
        match t.reinject with
        | e :: _ =>
          ({ s with cur := some { strand := r.strand, mask := e.mask, pc := e.pc, instr := e.instr, replay := some e, queued := true } },
            some e.instr)
        | [] =>
          let s := (s.settleStack r.strand).swapHeld r.strand
          match s.strand? r.strand with
          | none => (s, none)
          | some t =>
            match t.splitOf? r.lane with
            | none => (s.tick 1, none)
            | some p =>
              if !(s.splitReady g r.strand t p) || t.stalledBut p then (s.tick 1, none)
              else
                let s := s.modStrand r.strand fun u => u.mergeInto r.lane (s.pathReady r.strand)
                match s.strand? r.strand with
                | none => (s, none)
                | some t =>
                  match t.splitOf? r.lane with
                  | none => (s, none)
                  -- a split that has merged with a sleeping one waits out the rest of its count (R400)
                  | some p => if s.waitOver g t p then s.present r g c p else (s.tick 1, none)
  | _, _, _ => (s.tick 1, none)

end Sys2Proof.Machine
end

