-- ==== Sys2Proof/Machine/Handoff.lean ====
section
/-! DEFINITION. The hand-off family: cells 0x60 to 0x63 (R142 to R147, R351). -/
namespace Sys2Proof.Machine

/-- The slot that AUX8[2:0] names. -/
def Ctx.slot (c : Ctx) : Nat := (c.f.e.aux &&& 7#8).toNat

/-- Checks 1 and 2 of R142; `k`: the distance of HSTAT. -/
def Ctx.slotTrap (c : Ctx) (k : Option Nat) : Option Trap :=
  if !c.g.record.chained then some .chainOff
  else if c.g.mode c.slot = 0 then some .chainMode
  else
    match k with
    | some k => if c.g.dist c.slot k then none else some .chainMode
    | none => none

/-- Check 3 of R142: the lowest active lane whose slot is sealed by HSEAL or whose generation count is at its end. -/
def Ctx.sealedLane (c : Ctx) : Option Nat :=
  (lanesOf c.act).find? fun l =>
    hasLane (SMap.look 0 c.t.sealedBy c.slot) l || decide (SMap.look 0 c.t.gen (32 * c.slot + l) = 0xFFFFFFFF#32)

/-- The cohort number that a membership names, 0 for another scope. -/
def Ctx.member (c : Ctx) : Nat :=
  if c.f.e.scope = .cohort then ((c.g.memberships c.c.idx)[(c.f.e.aux >>> 6).toNat]?).getD 0 else 0

/-- The value that a lane publishes: what back-pressure held, or operand A (R143, R151). -/
def Ctx.toPublish (c : Ctx) (l : Nat) : Word :=
  match (c.t.splitOf? l).bind fun p => p.pend.find? fun x => x.1 = l with
  | some x => if c.iss.queued then loWord (c.a l) else x.2
  | none => loWord (c.a l)

/-- One lane publishes (R143); it is added to the lanes that stay where no delivery has room (R151). -/
def Ctx.publishLane (c : Ctx) (x : State × Mask) (l : Nat) : State × Mask :=
  let i := c.item l
  let gen := SMap.look 0 c.t.gen (32 * c.slot + l)
  match x.1.publish c.g.id i c.slot gen.toNat (c.toPublish l) c.f.e.scope c.member with
  | some s =>
    (c.onStrand s fun t => { t with gen := SMap.put 0 t.gen (32 * c.slot + l) (gen + 1) }, x.2)
  | none => (x.1, x.2 ||| (1#32 <<< l))

/-- HPUT (R143, R147). -/
def hputBody (c : Ctx) : Eff :=
  match c.slotTrap none, c.sealedLane with
  | some t, _ => c.fail t
  | none, some l => c.raise .chainMode 0 l
  | none, none =>
    if c.f.e.scope ≠ .none && !c.quiet then .stay c.s .retry
    else
      let s := if c.f.e.scope = .none then c.s else c.s.release c.core c.f.e.scope
      let x := (lanesOf c.act).foldl c.publishLane (s, 0)
      let s := x.1.tidyChain c.g.id
      if x.2 = 0 then .go s none 0 else .part s x.2 ((lanesOf x.2).map fun l => (l, c.toPublish l))

/-- HPUT (R143). -/
def execHput (e : Ext) (s : State) : Host.Outcome State Fault Refusal := issue (Form.ofExt 0x60 e) hputBody s

/-- HSEAL (R137, R144). -/
def execHseal (e : Ext) (s : State) : Host.Outcome State Fault Refusal :=
  issue (Form.ofExt 0x61 e)
    (fun c =>
      match c.slotTrap none with
      | some t => c.fail t
      | none =>
        let s := c.onStrand c.s fun t =>
          { t with sealedBy := SMap.put 0 t.sealedBy c.slot (SMap.look 0 t.sealedBy c.slot ||| c.act) }
        .go (s.tidyChain c.g.id) none 0) s

/-- HGEN (R144). -/
def execHgen (e : Ext) (s : State) : Host.Outcome State Fault Refusal :=
  issue (Form.ofExt 0x62 e)
    (fun c =>
      match c.slotTrap none with
      | some t => c.fail t
      | none => c.write 4 fun l => (SMap.look 0 c.t.gen (32 * c.slot + l)).setWidth 64) s

/-- The state word of HSTAT for a lane at distance k (R144). -/
def Ctx.slotState (c : Ctx) (k l : Nat) : Nat :=
  let i := c.item l
  let bit (b : Bool) (n : Nat) : Nat := if b then 2 ^ n else 0
  bit (c.s.handOff c.g i c.slot k).isSome 0 + bit (decide (i < k)) 1 +
    bit (decide (k ≤ i) && c.s.itemSealed c.g (i - k) c.slot) 2 + bit (c.s.itemSealed c.g i c.slot) 3 + c.g.mode c.slot * 2 ^ 8

/-- HSTAT (R144). -/
def execHstat (e : Ext) (s : State) : Host.Outcome State Fault Refusal :=
  issue (Form.ofExt 0x63 e)
    (fun c =>
      let k := (c.f.e.aux >>> 3).toNat + 1
      match c.slotTrap (some k) with
      | some t => c.fail t
      | none => c.write 4 fun l => BitVec.ofNat 64 (c.slotState k l)) s

end Sys2Proof.Machine
end

