-- ==== Sys2Proof/Machine/ViewInstr.lean ====
section
/-! DEFINITION. The view instructions: row 0x8 (R207 to R212, R369, R405, R409, R410), and the reading of a flag word that
VACQ and WAITM share (R211, R270). -/
namespace Sys2Proof.Machine

/-- The body runs with the view that VIEW names; a register that holds none traps (R207). -/
def Ctx.withView (c : Ctx) (body : View → Eff) : Eff :=
  match c.view? with
  | some v => body v
  | none => c.fail .illegalOperand

/-- An access of the strand through the view register has not been performed (R208). -/
def Ctx.viewInUse (c : Ctx) : Bool :=
  c.t.inflight.any fun x =>
    let f := Form.ofInstr x.entry.instr
    (f.op = 0x88 || f.op = 0x89) && decide (f.e.view = c.f.e.view)

/-- The view register holds a lock: VDEF, VSET, VDROP and VRET stall (R206). -/
def Ctx.viewLocked (c : Ctx) : Bool := regLocked (c.s.locksOf c.c) c.viewReg

/-- A free Armature entry for a redefinition of the register: the old view's own entry counts as free (R203, R208). -/
def Ctx.armatureFree (c : Ctx) : Bool :=
  let die := dieOf c.core
  let used := c.s.armatureUsed die - (match c.view? with | some v => if v.universal then 0 else 1 | none => 0)
  match c.s.die? die with
  | some d => decide (used < d.armature)
  | none => false

/-- VDEF: the checks of R208 in their order, then the definition. -/
def vdefBody (c : Ctx) : Eff :=
  if c.viewLocked then .stay c.s (.lock c.viewReg)
  else if c.viewInUse then .stay c.s .retry
  else
    let off := (loWord (c.a c.low)).toNat
    let at1 : DWord := BitVec.ofNat 64 off
    if off % 16 ≠ 0 then c.raise .misalign at1 c.low
    else if c.g.header.localBytes < off + 64 then c.raise .permission at1 c.low
    else
      match viewOfBytes ((span off 64).map (SMap.look 0 c.c.store)) with
      | none => c.fail .illegalOperand
      | some v =>
        match v.check c.g.header.localBytes with
        | some (t, a) => c.raise t a c.low
        | none => .go (c.setView c.s (some { v with universal := !c.armatureFree })) none 0

/-- VDEF (R208). -/
def execVdef (e : Ext) (s : State) : Host.Outcome State Fault Refusal := issue (Form.ofExt 0x80 e) vdefBody s

/-- The selector of VSET and VQRY. -/
def Ctx.viewSel (c : Ctx) : Nat := (c.f.e.aux &&& 0x3F#8).toNat

/-- VSET (R208). -/
def vsetBody (c : Ctx) : Eff :=
  c.withView fun v =>
    if c.viewLocked then .stay c.s (.lock c.viewReg)
    else if c.viewInUse then .stay c.s .retry
    else
      match v.setField c.viewSel (loWord (c.a c.low)) with
      | none => c.fail .illegalOperand
      | some w =>
        match w.check c.g.header.localBytes with
        | some (t, a) => c.raise t a c.low
        | none => .go (c.setView c.s (some w)) none 0

/-- VSET (R208). -/
def execVset (e : Ext) (s : State) : Host.Outcome State Fault Refusal := issue (Form.ofExt 0x81 e) vsetBody s

/-- VDROP (R210). -/
def execVdrop (e : Ext) (s : State) : Host.Outcome State Fault Refusal :=
  issue (Form.ofExt 0x82 e)
    (fun c => c.withView fun _ => if c.viewLocked then .stay c.s (.lock c.viewReg) else .go (c.setView c.s none) none 0) s

/-! ## Flag words -/

/-- An access in flight of an active item may meet the flag word (R184). -/
def Ctx.flagBusy (c : Ctx) : Bool :=
  c.t.inflight.any fun x =>
    match x.state with
    | .pipe _ _ _ _ => false
    | _ =>
      match c.s.ctxOfEntry c.r x.entry with
      | none => false
      | some d =>
        (lanesOf (c.act &&& x.entry.mask)).any fun l => x.universal || (d.bytes l).any fun b => (c.bytes c.low).contains b

/-- A flag word read at the scope (R182, R191): the state, the word, whether it is uncorrectable. In L1 the clean bytes of its line are
read again (R257). (DEDUCED, log entry 90) -/
def Ctx.readFlag (c : Ctx) (s : State) (ks : List (Nat × Xlate)) : State × Nat × Bool :=
  if beyondL1 c.f.e.scope then c.loadScoped s (c.bytes c.low) ks
  else
    let s := c.fillLines (s.refresh c.core fun l => ks.any fun k => k.1 / 128 = l.line) (c.bytes c.low) ks
    let bs := ks.map fun k => s.l1Byte c.core k.1
    (s, fromBytes (bs.map (·.1)), bs.any (·.2))

/-- One read of the loop of VACQ and WAITM (R211, R270): `done` follows when the condition holds, `wait` when it does not.
MISALIGN, SCOPE_MISMATCH and an uncorrectable word trap; `generic`: the access is tested against the crew's locks, as that of VACQ is
(R202, R206). A later read uses the operands of the first. (DESIGN CHOICE, log entry 79) -/
def Ctx.pollFlag (d : Ctx) (generic : Bool) (done : State → Eff) (wait : State → Nat → Eff) : Eff :=
  -- both operands are those of the first read (R270)
  let c := d.again
  if (c.ea c.low) % 4 ≠ 0 then c.raise .misalign (BitVec.ofInt 64 (c.ea c.low)) c.low
  else if generic && c.locked false c.low then c.raise .viewLocked (BitVec.ofInt 64 (c.ea c.low)) c.low
  else if c.flagBusy then .stay c.s .retry
  else
    c.whole .read [c.low] fun s lk =>
      match c.scopeFail s lk with
      | some l => .trap .scopeMismatch (c.va l) l s
      | none =>
        let ks := (lk.map (·.2)).flatten
        let x := c.readFlag s ks
        if x.2.2 then .defer .uncorrectable (c.va c.low) c.low c.act
        else if intCond c.f.e.rnd.toNat c.f.e.ty (BitVec.ofNat 64 x.2.1) (c.b c.low) then done x.1
        else wait x.1 ((ks.head?.map (·.1)).getD 0 / 128)

/-- The lines of L1 that meet a view are given up, or read again, as an acquire does (R163, R211, R212). (DEDUCED, log entry 76) -/
def Ctx.acquireOver (c : Ctx) (s : State) (v : View) : State :=
  let t := s.invalidate c.core fun l =>
    s.lineMeets c.core c.ctx v l &&
      (decide (scopeRank l.sc < scopeRank c.f.e.scope) || (decide (c.f.e.scope = .sys) && l.sysFill))
  if beyondL1 c.f.e.scope then t.refresh c.core (t.lineMeets c.core c.ctx v) else t

/-- The dirty lines of L1 that meet a view reach memory as a release makes them (R163, R211). -/
def Ctx.releaseOver (c : Ctx) (s : State) (v : View) : State :=
  (s.writeBack c.core fun l =>
    s.lineMeets c.core c.ctx v l && (decide (scopeRank l.sc < scopeRank c.f.e.scope) || decide (c.f.e.scope = .sys))).drain c.core

/-- The checks of VRET on its flag word (R211, R410). -/
def Ctx.flagTrap (c : Ctx) : Option (Trap × DWord × Nat) :=
  if (c.ea c.low) % 4 ≠ 0 then some (.misalign, BitVec.ofInt 64 (c.ea c.low), c.low)
  else if c.locked true c.low then some (.viewLocked, BitVec.ofInt 64 (c.ea c.low), c.low) else none

/-- The flag store of a VRET, made for its lowest lane: where its page has no translation it is in flight, parked, the view stays live, and
the strand goes on (R283, R410). -/
def Ctx.flagFly (c : Ctx) (s : State) : Eff :=
  let d : Ctx := { c with s := s }
  d.flyOn .write [d.low] (flagStore d)

/-- VRET: the release of what meets the view, the flag's store, and the drop with the store's performance (R211, R410). One that is
re-injected makes all of it again. (DEDUCED, log entry 45) -/
def vretBody (d : Ctx) : Eff :=
  let c := d.again
  c.withView fun v =>
    if c.viewLocked then .stay c.s (.lock c.viewReg)
    else
      match c.flagTrap with
      | some (t, a, l) => c.raise t a l
      | none => if !c.quiet then .stay c.s .retry else c.flagFly (c.releaseOver c.s v)

/-- VRET (R211). -/
def execVret (e : Ext) (s : State) : Host.Outcome State Fault Refusal := issue (Form.ofExt 0x83 e) vretBody s

/-- VACQ: the loop reads again at every turn of the split (R211). -/
def execVacq (e : Ext) (s : State) : Host.Outcome State Fault Refusal :=
  issue (Form.ofExt 0x84 e)
    (fun c => c.withView fun v => c.pollFlag true (fun s => .go (c.acquireOver s v) none 0) (fun s _ => .stay s .vacq)) s

/-! ## Queries -/

/-- VMEET: MayMeet of the views of VIEW and A; a view always meets itself (R208). -/
def execVmeet (e : Ext) (s : State) : Host.Outcome State Fault Refusal :=
  issue (Form.ofExt 0x85 e)
    (fun c =>
      let y : Nat := match c.f.e.a with | .w n => n.toNat | _ => 0
      match c.view?, c.c.view? y with
      | some v, some w => c.write 4 fun _ => truth (decide (y = c.viewReg) || mayMeet v.foot w.foot)
      | _, _ => c.fail .illegalOperand) s

/-- VQRY (R208). -/
def execVqry (e : Ext) (s : State) : Host.Outcome State Fault Refusal :=
  issue (Form.ofExt 0x86 e)
    (fun c => c.withView fun v =>
      match v.field (c.s.locksOf c.c) c.viewReg c.viewSel with
      | some x => c.write 4 fun _ => x.setWidth 64
      | none => c.fail .illegalOperand) s

/-- The lowest active lane whose index vector is out of bounds (R209). -/
def Ctx.unbound (c : Ctx) (v : View) : Option Nat := firstLane c.act fun l => !(v.inBounds (c.viewIndex l))

/-- VADDR (R208). -/
def execVaddr (e : Ext) (s : State) : Host.Outcome State Fault Refusal :=
  issue (Form.ofExt 0x87 e)
    (fun c => c.withView fun v =>
      match c.unbound v with
      | some l => c.raise .viewBounds 0 l
      | none => c.write 4 fun l => BitVec.ofInt 64 (v.addr (c.viewIndex l))) s

/-- The checks of LDV and STV in their order (R209, R369, R405). (DEDUCED, log entry 68) -/
def Ctx.viewAccessTrap (c : Ctx) (v : View) (writes : Bool) : Option (Trap × DWord × Nat) :=
  let at1 (l : Nat) : DWord := BitVec.ofInt 64 (c.ea l)
  match c.unbound v with
  | some l => some (.viewBounds, 0, l)
  | none =>
    if c.f.e.ty ≠ v.ty then some (.illegalOperand, at1 c.low, c.low)
    else if !(if writes then v.canWrite else v.canRead) then some (.permission, at1 c.low, c.low)
    else (firstLane c.act (c.locked writes)).map fun l => (.viewLocked, at1 l, l)

/-- LDV (R209, R369). -/
def execLdv (e : Ext) (s : State) : Host.Outcome State Fault Refusal :=
  issue (Form.ofExt 0x88 e)
    (fun c => c.withView fun v =>
      match c.viewAccessTrap v false with
      | some (t, a, l) => c.raise t a l
      | none => loadGo c) s

/-- STV (R209, R405). -/
def execStv (e : Ext) (s : State) : Host.Outcome State Fault Refusal :=
  issue (Form.ofExt 0x89 e)
    (fun c => c.withView fun v =>
      match c.viewAccessTrap v true with
      | some (t, a, l) => c.raise t a l
      | none => storeGo c) s

end Sys2Proof.Machine
end

