-- ==== Sys2Proof/Machine/Engine.lean ====
section
/-! DEFINITION. What the engines share: elements of views as operands, with the free choice between an element's value at issue
and a later one (R215, R231, R237), moving elements by granules (R215, R224), and the end of a tag's operation (R213, R217 to
R225). -/
namespace Sys2Proof.Machine

/-! ## Elements as operands -/

/-- The translation that a list of pages holds. -/
def transOf (pages : List (Nat × Xlate)) : Trans := fun va => (pages.find? fun p => p.1 = pageOf va).map (·.2)

/-- The keys of `n` bytes from an address on; none where a page is not translated. -/
def keysAt (tr : Trans) (a n : Nat) : Option (List Nat) := (span a n).mapM fun va => (tr va).map fun x => physKey x va

/-- A line taken into the operand buffers of a core, as its generic path sees it (R173, R174). -/
def State.fillOp (s : State) (core ctx line : Nat) : State :=
  match (s.core? core).bind fun c => lineIn? c.opbuf line ctx with
  | some _ => s
  | none =>
    let d := s.genericLine core line
    s.modCore core fun c =>
      { c with opbuf := c.opbuf ++ [{ line := line, ctx := ctx, vline := line, data := d.1, bad := d.2, moment := 0 }] }

/-- A byte on the matrix-operand path: an operand buffer's, or the generic path's (R173, R174). -/
def State.opByte (s : State) (core ctx : Nat) (held : Bool) (key : Nat) : Byte × Bool :=
  match (if held then (s.core? core).bind fun c => lineIn? c.opbuf (key / 128) ctx else none) with
  | some l => (lineByte l.data (key % 128), l.bad)
  | none => let g := s.genericLine core (key / 128); (lineByte g.1 (key % 128), g.2)

/-- A byte on the copy path: none of the core's caches stands before it (R173). -/
def State.copyByte (s : State) (key : Nat) : Byte × Bool := (s.memByte key, s.poisoned (key / 128))

/-- The mask of the bytes that are uncorrectable. -/
def badBytes : List Bool → BitVec 16
  | [] => 0
  | b :: t => (badBytes t <<< 1) ||| (if b then 1 else 0)

/-- One element, by the bytes of its keys; `by1` reads a byte. -/
def elemOfKeys (by1 : Nat → Byte × Bool) (ks : List Nat) : Elem :=
  (BitVec.ofNat 64 (fromBytes (ks.map fun k => (by1 k).1)), badBytes (ks.map fun k => (by1 k).2))

/-- One element of a source; none where its page is not translated. -/
def Source.elem (x : Source) (store : SMap Byte) (tr : Trans) (by1 : Nat → Byte × Bool) (a : Nat) : Option Elem :=
  if x.isLocal then some (BitVec.ofNat 64 (fromBytes ((span a x.size).map (SMap.look 0 store))), 0)
  else (keysAt tr a x.size).map (elemOfKeys by1)

/-- Every element of a source. -/
def Source.read (x : Source) (store : SMap Byte) (tr : Trans) (by1 : Nat → Byte × Bool) : Snap :=
  x.addrs.map (x.elem store tr by1)

/-- An element that has changed since it was first seen: either value may be taken (log entry 10); `n` counts the choices. -/
def pickElem (n : Nat) (old now : Option Elem) : Nat × Option Elem :=
  match old, now with
  | none, x => (n, x)
  | some x, none => (n, some x)
  | some x, some y => if x = y then (n, some x) else (n + 1, some (if Config.choice n then y else x))

/-- Elements picked one after the other. -/
def pickSnap : Nat → Snap → Snap → Nat × Snap
  | n, o :: os, x :: xs =>
    let y := pickElem n o x
    let z := pickSnap y.1 os xs
    (z.1, y.2 :: z.2)
  | n, [], xs => (n, xs)
  | n, _, [] => (n, [])

/-- Elements first seen now kept beside those seen before. -/
def keepSnap : Snap → Snap → Snap
  | o :: os, x :: xs => (match o with | some y => some y | none => x) :: keepSnap os xs
  | [], xs => xs
  | os, [] => os

/-- The value of an element, 0 where there is none. -/
def snapVal (x : Option Elem) : Nat := match x with | some y => y.1.toNat | none => 0

/-- Some byte of an element is uncorrectable. -/
def snapBad (x : Option Elem) : Bool := match x with | some y => decide (y.2 ≠ 0) | none => false

/-! ## Translation for engines -/

/-- Pages translated for a context on a core, each for a right; one that has no translation is left out. -/
def State.touchPages (s : State) (core ctx : Nat) (a : Right) (pages : List Nat) : State :=
  pages.foldl (fun s p => (s.translate core ctx (p * 65536) a).1) s

/-- REASON for an address that has no translation (R284). -/
def State.reason (s : State) (core ctx : Nat) (a : Right) (va : Nat) : BitVec 8 :=
  match (s.translate core ctx va a).2 with
  | .inr r => r
  | .inl _ => 0

/-- Every page of a list translated for a right: the pages with their entries, or the address and REASON of the first that
fails, which is named by the first byte of its 64 KiB (R233, R234). (DESIGN CHOICE, log entry 81) -/
def State.transPages (s : State) (core ctx : Nat) (a : Right) : List Nat → State × (List (Nat × Xlate) ⊕ (Nat × BitVec 8))
  | [] => (s, .inl [])
  | p :: t =>
    let x := s.translate core ctx (p * 65536) a
    match x.2 with
    | .inr r => (x.1, .inr (p * 65536, r))
    | .inl e =>
      let y := x.1.transPages core ctx a t
      match y.2 with
      | .inl l => (y.1, .inl ((p, e) :: l))
      | .inr f => (y.1, .inr f)

/-! ## Moving by granules (R215, R224) -/

/-- One element that an operation writes: its first byte's address in the destination, and the data, none while the source's
page has no translation. -/
structure Move where
  addr : Nat
  src : Option Nat
  data : Option Elem
  deriving DecidableEq, Repr

/-- The granules that an element's bytes touch. -/
def granulesOf (e a : Nat) : List Nat := [a / 256, (a + (e - 1)) / 256].eraseDups

/-- The granules in the order in which index order first touches each (R224). -/
def granuleOrder (e : Nat) (ms : List Move) : List Nat := (ms.flatMap fun m => granulesOf e m.addr).eraseDups

/-- Why a move stops at a granule. -/
inductive Halt where
  | fault (va : Nat) (a : Right) (reason : BitVec 8)
  | poison
  deriving DecidableEq, Repr

/-- Where the destination lies. -/
structure Dest where
  isLocal : Bool
  crew : CrewRef
  core : Nat
  ctx : Nat
  size : Nat
  deriving DecidableEq, Repr

/-- The first byte of an element that has no translation for a right; its first byte where all have one. -/
def State.firstHole (s : State) (core ctx : Nat) (a : Right) (addr size : Nat) : Nat :=
  ((span addr size).find? fun va => (s.trans core ctx a va).isNone).getD addr

/-- What holds up an element's bytes in a granule: its source, then its destination; or an uncorrectable source (R224). -/
def State.moveHalt (s : State) (d : Dest) (g : Nat) (m : Move) : Option Halt :=
  match m.data, m.src with
  | none, some a =>
    let va := s.firstHole d.core d.ctx .read a d.size
    some (.fault va .read (s.reason d.core d.ctx .read va))
  | none, none => none
  | some x, _ =>
    if x.2 ≠ 0 then some .poison
    else if d.isLocal then none
    else
      ((span m.addr d.size).find? fun va => decide (va / 256 = g) && (s.trans d.core d.ctx .write va).isNone).map
        fun va => .fault va .write (s.reason d.core d.ctx .write va)

/-- The bytes that the elements write into a granule, in index order: of two writes of one byte the later remains (R215). -/
def granuleBytes (e g : Nat) (ms : List Move) : List (Nat × Byte) :=
  ms.flatMap fun m =>
    ((span m.addr e).zip (toBytes e (snapVal m.data))).filter fun x => decide (x.1 / 256 = g)

/-- Bytes written to a destination. -/
def State.putDest (s : State) (d : Dest) (bs : List (Nat × Byte)) : State :=
  if d.isLocal then s.modCrew d.crew fun c => { c with store := SMap.putAll 0 c.store bs }
  else s.writeBytes (bs.filterMap fun x => (s.trans d.core d.ctx .write x.1).map fun e => (physKey e x.1, x.2))

/-- The granules of a list written in order, until one is held up or `n` are written: the state, how many, and what stopped. -/
def State.moveGranules (s : State) (d : Dest) (ms : List Move) : List Nat → Nat → State × Nat × Option Halt
  | [], _ => (s, 0, none)
  | _, 0 => (s, 0, none)
  | g :: t, n + 1 =>
    let mine := ms.filter fun m => (granulesOf d.size m.addr).contains g
    match mine.findSome? (s.moveHalt d g) with
    | some h => (s, 0, some h)
    | none =>
      let x := (s.putDest d (granuleBytes d.size g mine)).moveGranules d ms t n
      (x.1, x.2.1 + 1, x.2.2)

/-- Elements whose every granule is among the first `q` (R217). -/
def movedCount (e : Nat) (ms : List Move) (q : Nat) (fill : Bool) : Nat :=
  let done := (granuleOrder e ms).take q
  (ms.filter fun m => (m.src.isNone == fill) && (granulesOf e m.addr).all fun g => done.contains g).length

/-! ## The end of a tag's operation -/

/-- `f` applied to a tag of a crew. -/
def State.modTag (s : State) (r : CrewRef) (n : Nat) (f : Tag → Tag) : State :=
  s.modCrew r fun c => { c with tags := modNth c.tags n f }

/-- A tag becomes DONE (R213, R217, R218): its status, ERRPEND with codes 1, 2 and 4, Addr with code 1; the locks end with the
operation. Follow-on products wait on for code 0 and are discarded for any other (R221). -/
def State.finishTag (s : State) (r : CrewRef) (n code : Nat) (addr : DWord) (read filled : Nat) : State :=
  let op := ((s.crew? r).bind fun c => c.tags[n]?).bind (·.op)
  let id : Nat := op.elim 0 (·.id)
  let s := s.modTag r n fun t =>
    { t with
      state := .done, code := BitVec.ofNat 8 code, read := BitVec.ofNat 24 read, filled := BitVec.ofNat 24 filled
      errPend := code = 1 || code = 2 || code = 4, addr := if code = 1 then addr else 0, op := none
      flagStrand := op.elim 0 (·.strand), doneAt := s.cycle }
  let s := s.modCrew r fun c =>
    { c with
      follows :=
        if code = 0 then modWhere (fun (f : FollowOn) => f.id = id) (fun f => { f with copyDone := true }) c.follows
        else c.follows.filter fun f => !(decide (f.id = id) || f.after.getLsbD n) }
  s.settleCrew r

/-- What a core holds of a destination is given up as its writes end, on every path (R175); `lines` are those written. -/
def State.dropMeeting (s : State) (core ctx : Nat) (v : View) (lines : List Nat) : State :=
  if v.isLocal then s
  else
    let keep (l : CLine) : Bool := !(lines.contains l.line)
    (s.invalidate core fun l => lines.contains l.line || s.lineMeets core ctx v l).modCore core fun c =>
      { c with opbuf := c.opbuf.filter keep, kcache := c.kcache.filter keep, icache := c.icache.filter keep }

/-- Dirty lines of a core that meet a view reach memory (R175, R197, R245). -/
def State.flushMeeting (s : State) (core ctx : Nat) (v : View) : State :=
  if v.isLocal then s else (s.writeBack core (s.lineMeets core ctx v)).drain core

/-- The lines of global destination elements as they are translated. -/
def State.destLines (s : State) (d : Dest) (ms : List Move) : List Nat :=
  if d.isLocal then []
  else ((ms.flatMap fun m => ((keysAt (s.trans d.core d.ctx .write) m.addr d.size).getD []).map (· / 128))).eraseDups

/-! ## Copies in flight -/

/-- How many copy-engine operations a core has in flight (R214): those whose tags are BUSY, and the follow-on products that are due, their
crew being on the core, or in its tile queue. Drain tags are none, nor is a parked CPYM that is its own drain tag, from its parking on.
(DESIGN CHOICE, log entry 98) -/
def State.copiesOn (s : State) (core : Nat) : Nat :=
  (s.crews.foldl
    (fun n c => n + (c.tags.filter fun t =>
      match t.op with
      | some o => decide (o.core = core) && (match o.kind with | .drains _ _ => false | _ => true)
      | none => false).length +
        if c.core = core && (c.state = .resident || c.state = .draining) then (c.follows.filter c.followDue).length else 0) 0) +
    match s.core? core with | some k => (k.tileQ.filter fun o => o.follow.isSome).length | none => 0

/-- The source element of each destination element, in index order; none: the fill value (R215). -/
def copyPairs (src dst : View) : List (Nat × Option Nat) :=
  (List.range dst.count).map fun k =>
    (dst.elemAddr k,
      if (List.range 4).all fun j => decide (dst.index k j < src.n j) then some (src.addr fun j => (dst.index k j : Int)).toNat else none)

/-- The fill value of a view as E bytes (R198, R215). -/
def View.fillVal (v : View) : DWord := BitVec.ofNat 64 (v.fill.toNat % 2 ^ (8 * elemSize v.ty))

/-- The parts of the state that an operation of a tag concerns. -/
structure TagCtx where
  g : Grid
  c : Crew
  tag : Tag
  o : CopyOp

/-- The operation of a BUSY tag. -/
def State.tagCtx? (s : State) (r : CrewRef) (n : Nat) : Option TagCtx :=
  match s.grid? r.grid, s.crew? r with
  | some g, some c =>
    match c.tags[n]? with
    | some t =>
      match t.op with
      | some o => some { g := g, c := c, tag := t, o := o }
      | none => none
    | none => none
  | _, _ => none

/-- The operation has not been cancelled, or the CKILL meets it in this very cycle: a completion then wins (R226). -/
def State.notKilled (s : State) (o : CopyOp) : Bool :=
  match o.cancelled with
  | none => true
  | some at1 => decide ((s.cycle - at1).toNat ≤ 1)

/-- The bank that an operation touches is being copied to a spare (R127). (DESIGN CHOICE, log entry 35) -/
def State.opStops (s : State) (x : TagCtx) : Bool := s.bankHeld x.o.core (copyParty x.c.slot x.o.strand)

/-- The operation can move: not parked, not cancelled, and no earlier lock of its crew holds it, nor a bank (R127, R206). -/
def State.copyFree (s : State) (x : TagCtx) : Bool :=
  x.o.parked.isNone && s.notKilled x.o && !(s.opStops x) && !(engineHeld (s.locksOf x.c) x.o.locks x.o.id)

/-- Dirty lines that meet the views of an operation reach memory, on its core and on that of its crew (R175, R197, R245). -/
def State.flushOp (s : State) (x : TagCtx) : State :=
  [x.o.src, x.o.aux, x.o.dst].foldl
    (fun s v => match v with
      | some u => (s.flushMeeting x.o.core x.g.ctx u.view).flushMeeting x.c.core x.g.ctx u.view
      | none => s) s

/-- An operation whose issue waited for an earlier lock issues now: what the issue writes back is written back (R175, R206). -/
def State.beginOp (s : State) (x : TagCtx) : State := if x.o.olds.isEmpty then s.flushOp x else s

/-- The fault record of an engine party (R284). -/
def engineFault (g : Grid) (c : Crew) (core : Nat) (source : BitVec 4) (resume va : Nat) (a : Right) (reason : BitVec 8) : Fault32 :=
  { faultOf g c with
    va := BitVec.ofNat 64 va, access := a.code, source := source, reason := reason, resume := BitVec.ofNat 32 resume
    vdie := (g.dieRec.vphys.findIdx? fun p => p = dieOf core).getD c.vdie }

/-- `f` applied to the operation of a tag. -/
def State.modOp (s : State) (r : CrewRef) (n : Nat) (f : CopyOp → CopyOp) : State :=
  s.modTag r n fun t => { t with op := t.op.map f }

/-- An operation stops on a page fault at granule q: a record is posted, and it keeps its locks (R224). -/
def State.parkOp (s : State) (x : TagCtx) (n : Nat) (source : BitVec 4) (q va : Nat) (a : Right) (reason : BitVec 8) : State :=
  let y := s.postFault (engineFault x.g x.c x.o.core source q va a reason)
  y.1.modOp x.c.ref n fun o => { o with granule := q, parked := some y.2 }

end Sys2Proof.Machine
end

