-- ==== Sys2Proof/Machine/Launch.lean ====
section
/-! DEFINITION. Launches: the record and its checks (R258, R259), the kernel header (R41 to R44), cohort tables (R31, R32), the
chain area (R133, R134), admission to a core and the placement of strands (R16, R26, R27, R128, R129), and the owners of crews
(R34, R250, R251). -/
namespace Sys2Proof.Machine

/-- A field of `n` bytes at an offset in a block of bytes. -/
def field (b : List Byte) (i n : Nat) : Nat := fromBytes ((b.drop i).take n)

/-- Every byte of a range is zero. -/
def zeroBytes (b : List Byte) (i n : Nat) : Bool := ((b.drop i).take n).all fun x => decide (x = 0)

/-! ## The launch record (R258) -/

/-- The fields of a launch record. -/
def recordOf (b : List Byte) : LaunchRec :=
  let ctl := field b 0x18 4
  { kernel := BitVec.ofNat 64 (field b 0 8), args := BitVec.ofNat 64 (field b 8 8), items := BitVec.ofNat 43 (field b 0x10 8),
    nstrand := ctl % 64, chained := decide (ctl / 2 ^ 8 % 2 = 1), carryIn := decide (ctl / 2 ^ 9 % 2 = 1),
    ncohort := ctl / 2 ^ 16 % 512, userTag := BitVec.ofNat 32 (field b 0x1C 4), chainArea := BitVec.ofNat 64 (field b 0x20 8),
    cohorts := BitVec.ofNat 64 (field b 0x28 8), privArea := BitVec.ofNat 64 (field b 0x30 8),
    done := BitVec.ofNat 64 (field b 0x38 8) }

/-- The record checks of R259. -/
def recordOk (b : List Byte) : Bool :=
  let r := recordOf b
  let ctl := field b 0x18 4
  decide (r.kernel.toNat % 128 = 0) && decide (r.kernel.toNat < 2 ^ 57) && decide (field b 0x10 8 < 2 ^ 43) &&
    decide (ctl / 2 ^ 6 % 4 = 0) && decide (ctl / 2 ^ 10 % 64 = 0) && decide (ctl / 2 ^ 25 = 0) && decide (1 ≤ r.nstrand) &&
    decide (r.nstrand ≤ 32) && decide (1 ≤ r.items.toNat) && decide (r.items.toNat ≤ 2 ^ 32 * 32 * r.nstrand) &&
    decide (r.ncohort ≤ 256) && (r.chained || (!r.carryIn && decide (r.chainArea = 0))) &&
    (decide (r.ncohort = 0) || decide (r.cohorts ≠ 0)) && decide (r.privArea.toNat % 128 = 0) && decide (r.done.toNat % 8 = 0)

/-- The crew count of a launch (R20, R261). A record that names no strands has none: its count is a free value (log entry 16). -/
def crewCount (r : LaunchRec) : Nat :=
  if r.nstrand = 0 then Config.noStrandCount r.items.toNat else ceilDiv r.items.toNat (32 * r.nstrand)

/-! ## The kernel header (R41 to R44) -/

/-- An effective register count (R43). -/
def effective (n : Nat) : Nat := if n = 0 then 8 else roundUp n 8

/-- A code offset of the header is allowed (R42, R57). -/
def codeOffsetOk (x : Nat) : Bool := decide (x % 4 = 0) && decide (0x80 ≤ x)

/-- A CHAIN field is allowed (R44). -/
def chainFieldOk (x : Nat) : Bool :=
  let mode := x / 2 ^ 8 % 4
  let dist := x % 2 ^ 8
  decide (x < 2 ^ 10) && decide (mode ≠ 3) && (decide (mode ≠ 0) || decide (dist = 0)) && (decide (mode ≠ 2) || decide (dist = 1))

/-- A header read from its 128 bytes; none where it breaks R42 to R44. -/
def headerOf (b : List Byte) : Option Header :=
  let entry := field b 4 4
  let handler := field b 8 4
  let vregs := field b 0x0C 2
  let sregs := field b 0x0E 1
  let tiles := field b 0x0F 1 % 16
  let views := field b 0x0F 1 / 16
  let chains := (List.range 8).map fun h => field b (0x20 + 2 * h) 2
  if field b 0 4 = 1 ∧ codeOffsetOk entry ∧ (handler = 0 ∨ codeOffsetOk handler) ∧ vregs ≤ 256 ∧ sregs ≤ 32 ∧ tiles ≤ 8 ∧
      views ≤ 8 ∧ field b 0x10 4 ≤ 4194304 ∧ field b 0x14 4 ≤ 65536 ∧ zeroBytes b 0x18 8 ∧ zeroBytes b 0x38 0x48 ∧
      chains.all chainFieldOk then
    some
      { entry := BitVec.ofNat 32 entry, handler := BitVec.ofNat 32 handler, vregs := effective vregs, sregs := effective sregs,
        tiles := tiles, views := views, localBytes := roundUp (field b 0x10 4) 128, privBytes := roundUp (field b 0x14 4) 4,
        kernid := BitVec.ofNat 64 (field b 0x30 8),
        chain := chains.map fun x => (BitVec.ofNat 2 (x / 2 ^ 8), BitVec.ofNat 8 x) }
  else none

/-! ## Reading by the front end (R285) -/

/-- What the front end gets: a value; a translation fault with its address and REASON; or bytes that are uncorrectable or break a
check. -/
inductive Got (α : Type) where
  | ok (a : α)
  | fault (va : Nat) (reason : BitVec 8)
  | bad

/-- A further read follows. -/
def Got.bind {α β : Type} (x : Got α) (f : α → Got β) : Got β :=
  match x with
  | .ok a => f a
  | .fault va r => .fault va r
  | .bad => .bad

/-- A check that must hold. -/
def Got.guard (b : Bool) : Got Unit := if b then .ok () else .bad

/-- The keys of bytes that the front end names in a context, with their entries; or the first that fails to translate. (DESIGN CHOICE, log entry 46) -/
def State.frontKeys (s : State) (ctx : Nat) (a : Right) : List Nat → List (Nat × Xlate) ⊕ (Nat × BitVec 8)
  | [] => .inl []
  | va :: t =>
    match s.walk ctx va a with
    | .inr r => .inr (va, r)
    | .inl x =>
      match s.frontKeys ctx a t with
      | .inl ks => .inl ((physKey x va, x) :: ks)
      | .inr f => .inr f

/-- Bytes read by the front end at their coherence point. -/
def State.frontRead (s : State) (ctx va n : Nat) : Got (List Byte) :=
  match s.frontKeys ctx .read (span va n) with
  | .inr (v, r) => .fault v r
  | .inl ks => if ks.any fun k => s.poisoned (k.1 / 128) then .bad else .ok (ks.map fun k => s.memByte k.1)

/-! ## Cohorts (R31, R32) -/

/-- The members of one cohort, read from its entry of 16 bytes. -/
def State.cohortOf (s : State) (ctx ncrew : Nat) (b : List Byte) : Got (List Nat) :=
  let kind := field b 0 4
  let count := field b 4 4
  let first := field b 8 4
  let stride := field b 12 4
  let fits (l : List Nat) : Got (List Nat) := (Got.guard (l.all fun c => decide (c < ncrew))).bind fun _ => .ok l
  if 2 ≤ kind ∨ count = 0 then .bad
  else if kind = 0 then
    if 1 < count ∧ stride = 0 then .bad else fits ((List.range count).map fun j => first + j * stride)
  else
    let at1 := first + stride * 2 ^ 32
    if at1 % 4 ≠ 0 then .bad
    else
      (s.frontRead ctx at1 (4 * count)).bind fun bs =>
        let l := (List.range count).map fun j => field bs (4 * j) 4
        if (l.zip (l.drop 1)).all fun x => decide (x.1 < x.2) then fits l else .bad

/-- The cohorts of a table, entry by entry. -/
def State.cohortsFrom (s : State) (ctx ncrew at1 : Nat) : Nat → Got (List (List Nat))
  | 0 => .ok []
  | n + 1 =>
    (s.frontRead ctx at1 16).bind fun b =>
      (s.cohortOf ctx ncrew b).bind fun c => (s.cohortsFrom ctx ncrew (at1 + 16) n).bind fun t => .ok (c :: t)

/-- The cohort table of a launch with its checks (R32). -/
def State.readCohorts (s : State) (ctx : Nat) (r : LaunchRec) (ncrew : Nat) : Got (List (List Nat)) :=
  (Got.guard (decide (r.cohorts.toNat % 16 = 0))).bind fun _ =>
    (s.cohortsFrom ctx ncrew r.cohorts.toNat r.ncohort).bind fun cs =>
      (Got.guard (cs.flatten.eraseDups.all fun c => decide ((cs.filter fun l => l.contains c).length ≤ 4))).bind fun _ => .ok cs

/-! ## The chain area (R133 to R135) -/

/-- The chain of a launch that is not chained. -/
def Chain.off : Chain := { input := List.replicate 64 0, spillBytes := 0, peak := 0, pubs := [] }

/-- The chain area of a chained launch with its checks (R134); the inputs are SEED, or CARRY under CARRYIN (R135). -/
def State.readChain (s : State) (ctx : Nat) (r : LaunchRec) (h : Header) : Got Chain :=
  if !r.chained then .ok Chain.off
  else if r.chainArea.toNat % 128 ≠ 0 then .bad
  else
    (s.frontRead ctx r.chainArea.toNat 0x280).bind fun b =>
      let spill := field b 0x200 4
      let slots := (h.chain.filter fun c => decide (c.1 ≠ 0)).length
      if spill % 128 ≠ 0 ∨ spill < 512 * r.nstrand * slots ∨ !(zeroBytes b 0x208 0x78) then .bad
      else
        .ok { Chain.off with
          input := (List.range 64).map fun k => BitVec.ofNat 32 (field b ((if r.carryIn then 0x100 else 0) + 4 * k) 4)
          spillBytes := spill }

/-! ## Admission and placement (R16, R26, R27, R128, R129) -/

/-- The live clusters of a core, by number. -/
def Core.liveClusters (c : Core) : List Nat := (List.range 4).filter fun k => decide (8 ≤ (c.clusters.getD k Cluster.full).width)

/-- The live width of a core (R129). -/
def Core.liveWidth (c : Core) : Nat :=
  if c.retired then 0 else (c.liveClusters.map fun k => min (c.clusters.getD k Cluster.full).width 32).foldl (· + ·) 0

/-- The tiles that a core offers (R15): none where no matrix unit has 32 live columns (R128). -/
def Core.tilesOffered (c : Core) : Nat :=
  if c.columns.any fun m => decide (32 ≤ ((List.range 130).filter fun b => m.getLsbD b).length) then 8 else 0

/-- The strands of a crew that have not ended: those that are resident where the crew is. A strand that has ended counts no more, and
none is placed for it at a swap-in. (DESIGN CHOICE, log entry 84) -/
def Crew.liveStrands (c : Crew) : List Strand := c.strands.filter fun t => !t.isOver

/-- The items of a strand that are present (R20). -/
def presentMask (g : Grid) (crew strand : Nat) : Mask :=
  maskOf fun l => decide (itemOf g.record.nstrand crew strand l < g.items)

/-- The strands of a crew that are created: those that have a present item (R20). -/
def Grid.strandsAt (g : Grid) (crew : Nat) : List Nat := (List.range g.record.nstrand).filter fun k => decide (presentMask g crew k ≠ 0)

/-- What crews need of a core: strands, tiles, bytes (R16, R20, R27). -/
def State.loadOf (s : State) (cs : List Crew) : Nat × Nat × Nat :=
  cs.foldl
    (fun n c =>
      match s.grid? c.grid with
      | some g => (n.1 + c.liveStrands.length, n.2.1 + g.header.tiles, n.2.2 + crewBytes g)
      | none => n)
    (0, 0, 0)

/-- A core that holds the crews `cs` admits one more crew of a grid, with `n` strands (R16, R27). -/
def State.admits (s : State) (core : Nat) (cs : List Crew) (n : Nat) (h : Header) (bytes : Nat) : Bool :=
  match s.core? core with
  | none => false
  | some c =>
    let x := s.loadOf cs
    !c.retired && decide (0 < c.liveWidth) && decide (cs.length < 16) && decide (x.1 + n ≤ 16 * c.liveClusters.length) &&
      decide (x.2.1 + h.tiles ≤ (if h.tiles = 0 then 8 else c.tilesOffered)) && decide (x.2.2 + bytes + 262144 ≤ c.ustore)

/-- A core belongs to a partition. -/
def Partition.hasCore (p : Partition) (core : Nat) : Bool := (p.cores.getD (dieOf core) 0).getLsbD (core % 36)

/-- The cluster that the next strand goes to: the fewest strands, then the lowest number (R26). -/
def leastCluster (count : Nat → Nat) : List Nat → Option Nat
  | [] => none
  | k :: t =>
    match leastCluster count t with
    | none => some k
    | some j => if count k ≤ count j then some k else some j

/-- The clusters of `n` strands placed in order of %strand on a core whose strands stand on the clusters `used` (R26). -/
def placeStrands (alive : List Nat) : Nat → List Nat → List Nat
  | 0, _ => []
  | n + 1, used =>
    let k := (leastCluster (fun j => (used.filter (· = j)).length) alive).getD 0
    k :: placeStrands alive n (k :: used)

/-- The clusters on which the resident strands of a core's crews stand. (DESIGN CHOICE, log entry 84) -/
def State.clustersUsed (s : State) (core : Nat) : List Nat :=
  (s.crewsOn core).flatMap fun c => c.liveStrands.map (·.cluster)

/-- The lowest free crew slot of a core: the slot that a crew takes there. (DESIGN CHOICE, log entry 83) -/
def State.freeCrewSlot (s : State) (core : Nat) : Nat :=
  ((List.range 16).find? fun k => !((s.crewsOn core).any fun c => c.slot = k)).getD 0

/-! ## Strands and crews at their start (R28) -/

/-- A strand at its start: its items at ENTRY, the argument block in s0:s1, every other register zero (R28), a v register in the form
UNIFORM (R59). (DEDUCED, log entry 93) -/
def Strand.start (idx : Nat) (present : Mask) (entry : Word) (args : DWord) (cluster : Nat) (now : DWord) : Strand :=
  { idx := idx, present := present, ended := 0, v := [], s := SMap.put 0 (SMap.put 0 [] 0 (loWord args)) 1 (hiWord args), p := [], forms := [], fp := 0, gen := [], sealedBy := [],
    depth := [], splits := [Path.at entry present now], stack := [], handler := none, reinject := [], inflight := [],
    deferred := [], clock := none, cluster := cluster, arrivals := [] }

/-- A crew at its start (R28, R57, R289). -/
def Crew.start (g : Grid) (idx core slot vdie : Nat) (strands : List Strand) (now : DWord) : Crew :=
  { grid := g.id, idx := idx, state := .resident, core := core, slot := slot, vdie := vdie, strands := strands, store := [],
    views := List.replicate 8 none, tags := List.replicate 64 Tag.unused, follows := [],
    tiles := List.replicate g.header.tiles [], prio := g.prio, initPrio := g.prio, handler := g.header.handler, phase := 0,
    wdCount := 0, wdLimit := 10000000, pending := [], wakes := [], woken := false, since := now, eligible := none, halted := false,
    trapped := false, killed := false, killAsked := false }

/-! ## The start checks (R259) -/

/-- What the start checks find. -/
structure StartInfo where
  header : Header
  cohorts : List (List Nat)
  chain : Chain

/-- The kernel header of a launch, read once (R41, R42, R259). -/
def State.readHeader (s : State) (ctx : Nat) (r : LaunchRec) : Got Header :=
  (s.frontRead ctx r.kernel.toNat 128).bind fun hb => match headerOf hb with | none => .bad | some h => .ok h

/-- The start checks of R259 that follow the header's, and what the device reads for them. -/
def State.checksAfter (s : State) (ctx part : Nat) (r : LaunchRec) (h : Header) : Got StartInfo :=
  (Got.guard (decide (h.privBytes = 0) || decide (r.privArea ≠ 0))).bind fun _ =>
    (s.readCohorts ctx r (crewCount r)).bind fun cs =>
      (s.readChain ctx r h).bind fun ch =>
        let bytes := r.nstrand * (h.vregs * 128 + h.sregs * 4 + 1024) + h.localBytes
        let fits := (List.range s.cores.length).any fun k =>
          (match s.part? part with | some p => p.hasCore k | none => false) && s.admits k [] r.nstrand h bytes
        if fits then .ok { header := h, cohorts := cs, chain := ch } else .bad

/-- The start checks of R259 of a launch whose header has not been read yet. -/
def State.startChecks (s : State) (ctx part : Nat) (r : LaunchRec) : Got StartInfo :=
  (s.readHeader ctx r).bind fun h => s.checksAfter ctx part r h

/-! ## Owners (R34, R250, R251) -/

/-- Owner(c) of R250. -/
def Grid.shareOf (g : Grid) (crew : Nat) : Nat := g.dieRec.share.getD (crew / 2 ^ g.dieRec.glog % 64) 0

/-- The crews that share a cohort with a crew of the list, added to it. -/
def Grid.spread (g : Grid) (l : List Nat) : List Nat :=
  (l ++ (g.cohorts.filter fun c => c.any l.contains).flatten).eraseDups

/-- The cohort-overlap component of a crew (R34). -/
def Grid.component (g : Grid) (crew : Nat) : List Nat := (List.range g.cohorts.length).foldl (fun l _ => g.spread l) [crew]

/-- The virtual die whose Clicker owns a crew (R34, R250, R251). -/
def Grid.ownerOf (g : Grid) (crew : Nat) : Nat :=
  match g.stolen.find? fun x => x.1 = crew with
  | some x => x.2
  | none => g.shareOf ((g.component crew).foldl min crew)

/-- The virtual die of a physical die in the launch's die record. -/
def Grid.vdieOf (g : Grid) (die : Nat) : Option Nat := g.dieRec.vphys.findIdx? fun p => p = die

/-- The crew has been dispatched. -/
def Grid.isDispatched (g : Grid) (crew : Nat) : Bool := g.dispatched.contains crew

/-- The crews of a running grid that have not been dispatched, ascending. -/
def Grid.undispatched (g : Grid) : List Nat :=
  if g.cut || decide (g.state ≠ .running) then [] else (List.range g.ncrew).filter fun c => !(g.isDispatched c)

/-- The queue that a grid comes from. -/
def Grid.queue (g : Grid) : Nat :=
  match g.origin with
  | .packet q _ => q
  | .node q _ _ => q
  | .device q => q

end Sys2Proof.Machine
end

