-- ==== Sys2Proof/Machine/Phase.lean ====
section
/-! DEFINITION. Phases: the PKG writes that are not performed yet, the crews that count for a virtual die, and its
completed-phase counter (R194, R195, R252). -/
namespace Sys2Proof.Machine

/-- A phase comes after another, modulo 2^32 (R195). -/
def phaseAfter (x y : Word) : Bool := decide (0 < (x - y).toInt)

/-- The PKG writes that a message performs. -/
def Message.pkg : Message → List PkgWrite
  | .write _ _ _ p => p
  | .red _ _ _ _ p => p

/-- A page of a view may be of PKG reach: a page that no TLB of the core translates is taken to be. -/
def State.maybePkg (s : State) (core ctx : Nat) (v : View) : Bool :=
  !v.isLocal && (pagesOf [v.source]).any fun p =>
    match s.tlbLook core ctx (p * 65536) .write with
    | some x => decide (x.reach = .pkg)
    | none => true

/-- The phases of the writes of a crew that may be PKG writes still under way: its accesses in flight that write, its copies and its
MSTAs. -/
def State.crewPending (s : State) (g : Grid) (c : Crew) : List Word :=
  (c.strands.flatMap fun t => (t.inflight.filter InFlight.outlives).map (·.phase)) ++
    (c.tags.filterMap fun t =>
      match t.op with
      | some o =>
        match o.dst with
        | some w => if s.maybePkg o.core g.ctx w.view then some o.phase else none
        | none => none
      | none => none) ++
    (s.tileOpsOf c).filterMap fun o =>
      match o.kind with
      | .msta w _ _ _ _ => if s.maybePkg c.core g.ctx w.view then some o.phase else none
      | _ => none

/-- The phases of the PKG writes of a launch's crews on a virtual die that have not been performed (R195). -/
def State.pkgPending (s : State) (g : Grid) (vdie : Nat) : List Word :=
  let mine (w : PkgWrite) : Option Word := if w.grid = g.id ∧ w.vdie = vdie then some w.phase else none
  s.pkgWrites.filterMap mine ++ (s.cores.flatMap fun k => k.outbox.flatMap fun m => m.pkg.filterMap mine) ++
    (s.crews.filter fun c => c.grid = g.id && c.vdie = vdie).flatMap (s.crewPending g)

/-- The phases of the crews that count for a virtual die: those that ran there last and have not ended, and, at phase 0, those
that its Clicker owns and has not dispatched; a crew in transit counts for both dies (R195, R252). -/
def State.phasesOn (s : State) (g : Grid) (vdie : Nat) : List Word :=
  ((s.crews.filter fun c => c.grid = g.id && c.vdie = vdie && decide (c.state ≠ .ended)).map (·.phase)) ++
    (if g.state = .running && g.undispatched.any (fun i => decide (g.ownerOf i = vdie) || g.transit.any fun x => x.1 = i && x.2 = vdie)
     then [0] else [])

/-- C(d) may advance by one (R195). (DEDUCED, log entry 61) -/
def State.counterReady (s : State) (g : Grid) (vdie : Nat) : Bool :=
  let n := nthWord g.counters vdie + 1
  let ps := s.phasesOn g vdie
  !ps.isEmpty && ps.all (fun p => phaseAfter p n) && (s.pkgPending g vdie).all fun p => phaseAfter p n

/-- What PHWAIT waits for holds (R195): on a phase-free die that no PKG write is under way, else the counter. -/
def State.phaseReached (s : State) (g : Grid) (vdie : Nat) (b : Word) : Bool :=
  if (s.phasesOn g vdie).isEmpty then (s.pkgPending g vdie).isEmpty
  else decide (0 ≤ (nthWord g.counters vdie - b).toInt)

end Sys2Proof.Machine
end

