-- ==== Sys2Proof/Machine/Sync.lean ====
section
/-! DEFINITION. Synchronising, launching and giving way: row 0xB (R194, R195, R249, R266 to R270, R322 to R324, R363, R383,
R384, R387, R400, R413, R416). -/
namespace Sys2Proof.Machine

/-! ## Barriers (R323) -/

/-- The barrier that BAR and BARC name. -/
def Ctx.barKey (c : Ctx) : BarKey := c.g.barKey c.c.idx c.f.e

/-- The strand's pending arrival at the barrier. -/
def Ctx.arrival (c : Ctx) : Option Arrival := c.t.arrivals.find? fun a => a.key = c.barKey

/-- The pending arrival cleared. -/
def Ctx.clearArrival (c : Ctx) (s : State) : State :=
  c.onStrand s fun t => { t with arrivals := t.arrivals.filter fun a => a.key ≠ c.barKey }

/-- The generation count of the barrier in a state. -/
def Ctx.generation (c : Ctx) (s : State) : Nat :=
  match s.grid? c.g.id with
  | some g => (g.barrier c.barKey).gen
  | none => 0

/-- BAR is over: its pending arrival is cleared and it acquires. -/
def Ctx.pass (c : Ctx) (s : State) : Eff := .go ((c.clearArrival s).acquire c.core c.f.e.scope) none 0

/-- The release, the arrival at the current generation, and, for BAR, the wait for it. -/
def Ctx.arrive (c : Ctx) (wait : Bool) (s : State) : Eff :=
  if !c.quiet then .stay s .retry
  else
    let s := s.release c.core c.f.e.scope
    let g := c.generation s
    let s := (c.clearArrival s).modGrid c.g.id fun x =>
      let b := x.barrier c.barKey
      x.setBarrier { b with arrived := (c.c.idx, c.t.idx) :: b.arrived }
    let s := c.onStrand s fun t => { t with arrivals := { key := c.barKey, gen := g, byBarc := !wait } :: t.arrivals }
    let s := s.barrierStep c.g.id c.barKey
    if !wait then .go s none 0
    else if c.generation s ≠ g then c.pass s
    else .stay s .barrier

/-- BAR and BARC (R323). A split that does not hold every present item of the strand waits for the others. -/
def barBody (wait : Bool) (c : Ctx) : Eff :=
  if c.t.live &&& ~~~c.iss.mask ≠ 0 then .stay c.s .barrier
  else
    match c.arrival with
    | some a =>
      if c.generation c.s = a.gen then .stay c.s .barrier
      else if wait then c.pass c.s else c.arrive false c.s
    | none => c.arrive wait c.s

/-- BAR (R323). -/
def execBar (e : Ext) (s : State) : Host.Outcome State Fault Refusal := issue (Form.ofExt 0xB0 e) (barBody true) s
/-- BARC (R323). -/
def execBarc (e : Ext) (s : State) : Host.Outcome State Fault Refusal := issue (Form.ofExt 0xB1 e) (barBody false) s

/-! ## WAITM, PHASE, PHWAIT -/

/-- How often a line has been written since a WAITM first watched it: in the L1 of a core at .crew, at its resolution point
otherwise; 0 where none has. -/
def State.writesOf (s : State) (core line : Nat) (inL1 : Bool) : Nat :=
  SMap.look 0 s.watched (watchKey line (if inL1 then some core else none))

/-- A WAITM begins to watch a line. -/
def State.watch (s : State) (core line : Nat) (inL1 : Bool) : State :=
  { s with watched := SMap.put 0 s.watched (watchKey line (if inL1 then some core else none)) (max 1 (s.writesOf core line inL1)) }

/-- WAITM: a read that fails the condition waits for a write of the line, or for 65,536 cycles (R270). -/
def execWaitm (e : Ext) (s : State) : Host.Outcome State Fault Refusal :=
  issue (Form.ofExt 0xB2 e)
    (fun c =>
      c.pollFlag false (fun s => .go (s.acquire c.core c.f.e.scope) none 0) fun s line =>
        let inL1 := !(beyondL1 c.f.e.scope)
        let s := s.watch c.core line inL1
        .stay s (.waitm line inL1 (s.writesOf c.core line inL1))) s

/-- PHASE: the phase before the advance is the result (R194, R383). -/
def execPhase (e : Ext) (s : State) : Host.Outcome State Fault Refusal :=
  issue (Form.ofExt 0xB3 e)
    (fun c =>
      if !c.quiet then .stay c.s .retry
      else
        let s := c.s.writeBack c.core fun l => l.pkg && decide (scopeRank l.sc < scopeRank .grid)
        let s := c.put s fun _ => c.c.phase.setWidth 64
        .go (c.onCrew s fun k => { k with phase := k.phase + 1 }) none c.grow) s

/-- PHWAIT, whose operands are those of its issue (R48, R195, R384). -/
def execPhwait (e : Ext) (s : State) : Host.Outcome State Fault Refusal :=
  issue (Form.ofExt 0xB4 e)
    (fun d =>
      let c := d.again
      let die := (loWord (c.a c.low)).toNat
      if c.g.dieRec.vphys.length ≤ die then c.fail .illegalOperand
      else if c.s.phaseReached c.g die (loWord (c.b c.low)) then .go (c.s.acquire c.core .grid) none 0
      else .stay c.s .phwait) s

/-! ## Launching (R267 to R269) -/

/-- The record of a LAUNCH pushed, with %prio as it was at issue (R264, R269). -/
def Ctx.pushLaunch (c : Ctx) (s : State) (r : LaunchRec) (prio : BitVec 2) : State :=
  c.onCrew s fun k =>
    { k with
      pending := k.pending ++
        [{ record := r, prio := prio, phase := c.g.phase, ctx := c.g.ctx, part := c.g.part, queue := c.g.queue, since := s.cycle }] }

/-- The push of a checked record, or what a full pending queue makes of it: LAUNCH stalls with the record (R269). -/
def launchPush (try1 : Bool) (c : Ctx) (s : State) (r : LaunchRec) (prio : BitVec 2) : Eff :=
  if pendingRoom ≤ c.c.pending.length then
    if try1 then .go (c.put s fun _ => 0) none c.grow else .stay s (.launch r prio)
  else
    let s := c.pushLaunch s r prio
    if try1 then .go (c.put s fun _ => 1) none c.grow else .go s none 0

/-- LAUNCH and LAUNCH.try on the translated record: the release, the read, which needs no miss-status entry, the record checks,
and the push (R269). (DESIGN CHOICE, log entry 79) -/
def launchRecord (try1 : Bool) (c : Ctx) (s : State) (ks : List (Nat × Xlate)) : Eff :=
  let s := s.release c.core .sys
  let s := c.fillLines s (c.bytes c.low) ks
  let bs := ks.map fun k => s.l1Byte c.core k.1
  let b := bs.map (·.1)
  if bs.any (·.2) then .defer .uncorrectable (c.va c.low) c.low c.act
  else if !(recordOk b) then .trap .launchBad (c.va c.low) c.low s
  else launchPush try1 c s (recordOf b) c.c.prio

/-- LAUNCH and LAUNCH.try (R269): one that stalls has read and checked its record. -/
def launchBody (try1 : Bool) (d : Ctx) : Eff :=
  let c := d.again
  match c.parkedOn with
  | some (.launch r prio) => launchPush try1 c c.s r prio
  | _ =>
  if (c.ea c.low) % 64 ≠ 0 then c.raise .misalign (c.va c.low) c.low
  else if !c.quiet then .stay c.s .retry
  else c.whole .read [c.low] fun s lk => launchRecord try1 c s ((lk.map (·.2)).flatten)

/-- LAUNCH (R269). -/
def execLaunch (e : Ext) (s : State) : Host.Outcome State Fault Refusal := issue (Form.ofExt 0xB5 e) (launchBody false) s
/-- LAUNCH.try (R269). -/
def execLaunchTry (e : Ext) (s : State) : Host.Outcome State Fault Refusal := issue (Form.ofExt 0xB6 e) (launchBody true) s

/-- LSTAT (R268). -/
def execLstat (e : Ext) (s : State) : Host.Outcome State Fault Refusal :=
  issue (Form.ofExt 0xB7 e)
    (fun c =>
      let dieq := match c.s.die? (dieOf c.core) with | some d => d.queue.length | none => 0
      c.write 4 fun _ => BitVec.ofNat 64 (c.c.pending.length + dieq * 2 ^ 16)) s

/-! ## Giving way (R266) -/

/-- YIELD: the split starts to wait anew, and is not selected next if another one is ready (R266, R416). -/
def execYield (g : Guard) (s : State) : Host.Outcome State Fault Refusal :=
  issue (Form.plain 0xB8 g 1)
    (fun c =>
      .done (c.onStrand (c.leave c.s 0 id none c.beats) fun t => t.modSplit (lowest c.iss.mask) fun p => { p with yielded := true })) s

/-- The sleep of the split has been slept out. -/
def Ctx.slept (c : Ctx) : Bool := match c.parkedOn with | some (.sleep due) => decide (due ≤ c.s.cycle.toNat) | _ => false

/-- How long a SLEEP sleeps: its operand, or what a pre-emption left of it (R400). -/
def Ctx.sleepFor (c : Ctx) : Nat :=
  match c.iss.replay with
  | some e => if e.left = 0 then (loWord (c.a c.low)).toNat else e.left - 1
  | none => (loWord (c.a c.low)).toNat

/-- SLEEP (R266, R400). -/
def execSleep (e : Ext) (s : State) : Host.Outcome State Fault Refusal :=
  issue (Form.ofExt 0xB9 e)
    (fun c => if c.slept then c.nothing else .stay c.s (.sleep (c.s.cycle.toNat + 1 + c.sleepFor))) s

/-- A priority that a crew may take (R57). -/
def Crew.prioOk (k : Crew) (x : Word) : Bool := decide (x.toNat ≤ k.initPrio.toNat)

/-- %prio written (R57, R387). -/
def Ctx.setPrio (c : Ctx) (x : Word) : Eff :=
  if c.c.prioOk x then .go (c.onCrew c.s fun k => { k with prio := x.setWidth 2 }) none 0 else c.fail .illegalOperand

/-- PRIO (R266, R387). -/
def execPrio (e : Ext) (s : State) : Host.Outcome State Fault Refusal :=
  issue (Form.ofExt 0xBA e) (fun c => c.setPrio (loWord (c.a c.low))) s

/-! ## HOPS (R249) -/

/-- The hop count between two physical dies (R10, R249). -/
def hopsBetween (p q : Nat) : Nat := (p / 3 - q / 3) + (q / 3 - p / 3) + ((p % 3 - q % 3) + (q % 3 - p % 3))

/-- HOPS (R249). -/
def execHops (e : Ext) (s : State) : Host.Outcome State Fault Refusal :=
  issue (Form.ofExt 0xBB e)
    (fun c =>
      let n := c.g.dieRec.vphys.length
      let a (l : Nat) : Nat := (loWord (c.a l)).toNat
      let b (l : Nat) : Nat := (loWord (c.b l)).toNat
      match firstLane c.act fun l => decide (n ≤ a l) || decide (n ≤ b l) with
      | some l => c.raise .illegalOperand 0 l
      | none =>
        c.write 4 fun l =>
          BitVec.ofNat 64 (hopsBetween (c.g.dieRec.vphys.getD (a l) 0) (c.g.dieRec.vphys.getD (b l) 0))) s

end Sys2Proof.Machine
end

