-- ==== Sys2Proof/Machine/Tile.lean ====
section
/-! DEFINITION. Tiles: the format block and the checks of a tile product (R229 to R233), and what each tile operation computes
(R79, R81 to R84, R235, R237 to R240). A tile holds entry T[i][j] at 128 i + j. -/
namespace Sys2Proof.Machine

/-- A tile. -/
abbrev Tile := SMap A80

/-- Entry T[i][j]. -/
def tileAt (t : Tile) (i j : Nat) : A80 := SMap.look 0 t (128 * i + j)

/-- The tile whose entries are `f i j`. -/
def tileOf (f : Nat → Nat → A80) : Tile :=
  (List.range 16384).filterMap fun k => let x := f (k / 128) (k % 128); if x = 0 then none else some (k, x)

/-! ## The format block (R230, R231) -/

/-- The block length of a BLK code. -/
def blockLen (code : Nat) : Nat :=
  match code with
  | 1 => 16
  | 2 => 32
  | 3 => 64
  | _ => 0

/-- The format block in 32 bytes, and whether a reserved bit is set or an operand without scales has a nonzero SPACE or
SCALE. -/
def formatOf (b : List Byte) : FormatBlock × Bool :=
  let byte (i : Nat) : Nat := (nthWord b i).toNat
  let scale (i : Nat) : Nat := fromBytes ((b.drop i).take 8)
  let side (i at1 : Nat) : Bool := decide (byte i % 4 = 0) && (decide (byte i / 16 % 2 ≠ 0) || decide (scale at1 ≠ 0))
  ({ scaleA := BitVec.ofNat 64 (scale 0), scaleB := BitVec.ofNat 64 (scale 8), fmtA := Ty.ofCode (byte 0x10 % 16),
     fmtB := Ty.ofCode (byte 0x11 % 16), blkA := blockLen (byte 0x12 % 4), blkB := blockLen (byte 0x13 % 4),
     localA := decide (byte 0x12 / 16 % 2 = 1), localB := decide (byte 0x13 / 16 % 2 = 1) },
   decide (byte 0x10 / 16 ≠ 0) || decide (byte 0x11 / 16 ≠ 0) || decide (byte 0x12 / 32 ≠ 0) || decide (byte 0x12 / 4 % 4 ≠ 0) ||
     decide (byte 0x13 / 32 ≠ 0) || decide (byte 0x13 / 4 % 4 ≠ 0) || ((b.drop 0x14).any fun x => decide (x ≠ 0)) ||
     side 0x12 0 || side 0x13 8)

/-- The kinds of operand formats that pair with each other (R83). -/
inductive Family where
  | decimal | binary | small
  deriving DecidableEq, Repr

/-- The family of a format; none for a type that no product accepts. -/
def familyOf (t : Ty) : Option Family :=
  match t with
  | .dt8 | .dt6 => some .decimal
  | .f16 | .bf16 => some .binary
  | .s8 => some .small
  | _ => none

/-- The shape of a tile's operand view (R229). -/
def View.tileShape (v : View) (t : Ty) : Bool :=
  let n0 : Nat := match t with | .dt6 => 32 | .a80 => 512 | _ => 128
  decide (v.rank = 2) && decide (v.n 0 = n0) && decide (v.n 1 = 128) && decide (v.ty = if t = .a80 then Ty.b32 else t)

/-- The scale bytes of an operand with `rows` rows of `k` elements. -/
def scaleCount (bl rows k : Nat) : Nat := if bl = 0 then 0 else rows * (k / bl)

/-- A scale array as a source. -/
def scaleSource (isLocal : Bool) (at1 : DWord) (n : Nat) : Source :=
  { isLocal := isLocal, size := 1, addrs := span at1.toNat n }

/-- A local scale array reaches beyond Local (R233, order 2). -/
def scaleBeyond (isLocal : Bool) (at1 : DWord) (n localBytes : Nat) : Bool :=
  decide (0 < n) && isLocal && decide (localBytes < at1.toNat + n)

/-- The checks of R233, orders 1 and 2, on the offset of a block of `n` bytes. -/
def offsetTrap (off n localBytes : Nat) : Option (Trap × DWord) :=
  if off % 16 ≠ 0 then some (.misalign, BitVec.ofNat 64 off)
  else if localBytes < off + n then some (.permission, BitVec.ofNat 64 off) else none

/-- 32 bytes of a crew's local store at an offset. -/
def Crew.block (c : Crew) (off : Nat) : List Byte := (span off 32).map (SMap.look 0 c.store)

/-- The checks of an MMA from its format block on, orders 2 to 5 (R233, R235). -/
def mmaTrap (ty : Ty) (wa wb : View) (fb : FormatBlock × Bool) (localBytes : Nat) : Option (Trap × DWord) :=
  let f := fb.1
  let nA := scaleCount f.blkA 128 128
  let nB := scaleCount f.blkB 128 128
  if scaleBeyond f.localA f.scaleA nA localBytes then some (.permission, f.scaleA)
  else if scaleBeyond f.localB f.scaleB nB localBytes then some (.permission, f.scaleB)
  else if fb.2 then some (.illegalOperand, 0)
  else if f.fmtA ≠ ty || !(wa.tileShape ty) || !(wb.tileShape f.fmtB) || familyOf ty ≠ familyOf f.fmtB ||
      (familyOf ty ≠ some .decimal && (decide (f.blkA ≠ 0) || decide (f.blkB ≠ 0))) then some (.mmaShape, 0)
  else if !wa.canRead || !wb.canRead then some (.permission, 0) else none

/-- K of the matrix, in elements (R243). -/
def nmvK (b : View) : Nat := if b.ty = .dt6 then 4 * b.n 0 else b.n 0

/-- The scale arrays of NMV: of B's rows, and of x (R231). -/
def nmvScales (b : View) (fb : Option FormatBlock) : List Source :=
  match fb with
  | none => [scaleSource false 0 0, scaleSource false 0 0]
  | some f =>
    [scaleSource f.localA f.scaleA (scaleCount f.blkA (b.n 1) (nmvK b)), scaleSource f.localB f.scaleB (scaleCount f.blkB 1 (nmvK b))]

/-- The sources of a tile operation: its views, then its scale arrays (R229, R231). -/
def TileKind.sources : TileKind → List Source
  | .mma wa wb fb _ =>
    [wa.view.source, wb.view.source, scaleSource fb.localA fb.scaleA (scaleCount fb.blkA 128 128),
      scaleSource fb.localB fb.scaleB (scaleCount fb.blkB 128 128)]
  | .mlda w _ => [w.view.source]
  | _ => []

/-- The stretch of global memory from the first byte of a source to its last, as an access of an item may meet it. -/
def Source.foot? (x : Source) : Option Foot :=
  match x.addrs with
  | [] => none
  | a :: t =>
    let lo := t.foldl min a
    if x.isLocal then none else some (genericFoot false (lo : Nat) (t.foldl max a + x.size - lo))

/-- The footprints of the global scale arrays of a tile operation (R197, R231). -/
def TileKind.scaleFeet (k : TileKind) : List Foot := (k.sources.drop 2).filterMap Source.foot?

/-- The footprints of the global scale arrays that the format block of an MMA or NMV names (R197, R231). -/
def Ctx.scaleFeet (c : Ctx) : List Foot :=
  let fb := (formatOf (c.c.block (loWord (c.cc c.low)).toNat)).1
  let scales : List Source :=
    if c.f.op = 0xA0 then
      [scaleSource fb.localA fb.scaleA (scaleCount fb.blkA 128 128), scaleSource fb.localB fb.scaleB (scaleCount fb.blkB 128 128)]
    else if c.f.op = 0xA7 && c.f.e.mod.getLsbD 0 then
      match (match c.f.e.a with | .w n => c.c.view? n.toNat | _ => none) with
      | some b => nmvScales b (some fb)
      | none => []
    else []
  scales.filterMap Source.foot?

/-- The pages that a tile operation translates at issue, with the right (R234). -/
def TileKind.pages : TileKind → List Nat × Right
  | .msta w _ _ _ _ => (pagesOf [w.view.source], .write)
  | k => (pagesOf k.sources, .read)

/-- The operand elements of a tile operation as they are seen now; `held`: through the operand buffers (R173). -/
def State.operands (s : State) (c : Crew) (ctx : Nat) (pages : List (Nat × Xlate)) (held : Bool) (xs : List Source) : List Snap :=
  xs.map fun x => x.read c.store (transOf pages) (s.opByte c.core ctx held)

/-- Operand lines taken into the operand buffers at issue. -/
def State.fillOperands (s : State) (core ctx : Nat) (pages : List (Nat × Xlate)) (xs : List Source) : State :=
  let lines := (xs.flatMap fun x =>
    if x.isLocal then [] else x.addrs.flatMap fun a => ((keysAt (transOf pages) a x.size).getD []).map (· / 128)).eraseDups
  lines.foldl (fun s l => s.fillOp core ctx l) (s.drain core)

/-! ## Products (R79, R81 to R84) -/

/-- Operand elements with random access. -/
abbrev Elems := Array (Option Elem)

/-- The code of an element of a format, and whether a byte of it is uncorrectable; .dt6 elements stand four to a group of three bytes
(R78, R237). -/
def elemCode (t : Ty) (xs : Elems) (n : Nat) : Nat × Bool :=
  if t = .dt6 then
    let x := xs.getD (n / 4) none
    let bad : BitVec 16 := match x with | some y => y.2 | none => 0
    (snapVal x / 2 ^ (6 * (n % 4)) % 64, bad.getLsbD (6 * (n % 4) / 8) || bad.getLsbD ((6 * (n % 4) + 5) / 8))
  else
    let x := xs.getD n none
    (snapVal x, snapBad x)

/-- The scale of an element: S, and whether its byte is uncorrectable. `row` counts rows of `k` elements. -/
def scaleAt (bl : Nat) (xs : Elems) (k row n : Nat) : Int × Bool :=
  if bl = 0 then (0, false)
  else
    let x := xs.getD (row * (k / bl) + n / bl) none
    (sext 8 (snapVal x), snapBad x)

/-- A value × 2^S (R79). -/
def Num.scale (x : Num) (s : Int) : Num :=
  match x with
  | .fin neg n d => if 0 ≤ s then .fin neg (n * 2 ^ s.toNat) d else .fin neg n (d * 2 ^ (-s).toNat)
  | y => y

/-- One addend of a float sum: RoundA80 of the exact product (R83). -/
def roundedProduct (ta tb : Ty) (a b : Nat) (sa sb : Int) : A80 :=
  a80Encode (Num.mul ((exactOf ta a).scale sa) ((exactOf tb b).scale sb)).1

/-- The operands of a product. -/
structure ProductIn where
  fb : FormatBlock
  a : Elems
  b : Elems
  sa : Elems
  sb : Elems

/-- One entry after a tile product (R84, R235); `bad`: a byte that it uses is uncorrectable (R237). -/
def ProductIn.entry (x : ProductIn) (old : A80) (i j : Nat) : A80 :=
  let int := decide (x.fb.fmtA = .s8)
  let r := (List.range 128).foldl
    (fun (acc : A80 × Bool) k =>
      let sa := scaleAt x.fb.blkA x.sa 128 i k
      let sb := scaleAt x.fb.blkB x.sb 128 j k
      let bad := acc.2 || sa.2 || sb.2
      if sa.1 = -128 ∨ sb.1 = -128 then (acc.1, bad)
      else
        let a := elemCode x.fb.fmtA x.a (k + 128 * i)
        let b := elemCode x.fb.fmtB x.b (j + 128 * k)
        (if int then a80OfInt (a80Sat acc.1) (a80Int acc.1 + sext 8 a.1 * sext 8 b.1)
         else a80Add acc.1 (roundedProduct x.fb.fmtA x.fb.fmtB a.1 b.1 sa.1 sb.1),
         bad || a.2 || b.2))
    (old, false)
  if r.2 then (if int then BitVec.ofNat 80 (2 ^ 64) else a80Nan) else r.1

/-- The tile after MMA. -/
def ProductIn.product (x : ProductIn) (t : Tile) : Tile := tileOf fun i j => x.entry (tileAt t i j) i j

/-! ## Moving, reducing, loading, storing (R238 to R240) -/

/-- MTRN. -/
def transpose (t : Tile) : Tile := tileOf fun i j => tileAt t j i

/-- MPERM by the 128 bytes of the index array. -/
def permute (perm : List Byte) (t : Tile) : Tile :=
  tileOf fun i j => let q := (nthWord perm i).toNat; if q < 128 then tileAt t q j else 0

/-- MRED: each row's sum in column 0 (R238). -/
def reduceRows (int : Bool) (t : Tile) : Tile :=
  tileOf fun i j =>
    if j ≠ 0 then 0
    else
      (List.range 127).foldl
        (fun acc k =>
          let y := tileAt t i (k + 1)
          if int then a80OfInt (a80Sat acc || a80Sat y) (a80Int acc + a80Int y) else a80Add acc y)
        (let x := tileAt t i 0; if int then BitVec.ofNat 80 (x.toNat % 2 ^ 65) else x)

/-- The entry that MLDA writes from the element of its type (R239); an uncorrectable one gives NaN, or a set saturation flag in
integer mode (R237). -/
def loadedEntry (t : Ty) (x : Nat × Bool) : A80 :=
  if t.isAnyInt then (if x.2 then BitVec.ofNat 80 (2 ^ 64) else BitVec.ofNat 80 (wrap 64 (intVal t x.1)))
  else if x.2 then a80Nan else a80Encode (exactOf t x.1)

/-- The tile that MLDA writes (R239). -/
def loadTile (t : Ty) (xs : Elems) : Tile :=
  tileOf fun i j =>
    if t = .a80 then
      let w (n : Nat) : Nat × Bool := elemCode .b32 xs (4 * j + n + 512 * i)
      if (List.range 3).any fun n => (w n).2 then a80Nan
      else BitVec.ofNat 80 ((w 0).1 + (w 1).1 * 2 ^ 32 + (w 2).1 % 2 ^ 16 * 2 ^ 64)
    else loadedEntry t (elemCode t xs (j + 128 * i))

/-- The code that MSTA stores for an entry, with its flags (R87, R240). -/
def storedCode (t : Ty) (rm : Rm) (sat int : Bool) (x : A80) : Nat × Flags :=
  if t.isAnyInt then
    let c := clampTo t (a80Int x)
    if sat then (wrap t.width c.1, if c.2 then flagSAT else 0) else (wrap t.width (a80Int x), 0)
  else toRealTy t rm sat (if int then Num.ofInt (a80Int x) else a80Decode x)

/-- The elements that MSTA stores in index order, with their flags (R229, R240). -/
def storeTile (t : Ty) (rm : Rm) (sat int : Bool) (x : Tile) : List Nat × Flags :=
  if t = .a80 then
    ((List.range 128).flatMap fun i => (List.range 512).map fun n => (tileAt x i (n / 4)).toNat / 2 ^ (32 * (n % 4)) % 2 ^ 32, 0)
  else
    let codes := (List.range 128).map fun i => (List.range 128).map fun j => storedCode t rm sat int (tileAt x i j)
    let flags := codes.foldl (fun f r => r.foldl (fun f c => f ||| c.2) f) 0
    if t = .dt6 then
      (codes.flatMap fun r => (List.range 32).map fun g =>
        (List.range 4).foldl (fun w n => w + (r.getD (4 * g + n) (0, 0)).1 * 2 ^ (6 * n)) 0, flags)
    else (codes.flatMap fun r => r.map (·.1), flags)

/-! ## The tile queue (R228) -/

/-- The tile that an operation writes, and those that it reads. -/
def TileOp.uses (o : TileOp) : Option Nat × List Nat :=
  match o.kind with
  | .mma _ _ _ _ => (some o.td, [o.td])
  | .mzero | .mlda _ _ => (some o.td, [])
  | .msta _ _ _ _ _ => (none, [o.ts])
  | _ => (some o.td, [o.ts])

/-- Two operations of one crew must keep their order: one writes a tile that the other names (R228). -/
def TileOp.conflicts (x y : TileOp) : Bool :=
  let ux := x.uses
  let uy := y.uses
  decide (x.crew = y.crew) &&
    ((match ux.1 with | some n => uy.1 = some n || uy.2.contains n | none => false) ||
     (match uy.1 with | some n => ux.2.contains n | none => false))

/-- Every operation that stands before one in a core's queue and keeps its order with it has ended. -/
def tileFirst (q : List TileOp) (o : TileOp) : Bool := (q.takeWhile fun x => decide (x.id ≠ o.id)).all fun x => !(x.conflicts o)

/-- A tile operation enters its core's queue. -/
def State.queueTile (s : State) (core : Nat) (o : TileOp) : State := s.modCore core fun k => { k with tileQ := k.tileQ ++ [o] }

end Sys2Proof.Machine
end

