-- ==== Sys2Proof/Machine/CopyInstr.lean ====
section
/-! DEFINITION. The copy-tag family: row 0x9 (R213 to R223, R332). -/
namespace Sys2Proof.Machine

/-- The tag that AUX8[5:0] names. -/
def Ctx.tagNo (c : Ctx) : Nat := (c.f.e.aux &&& 0x3F#8).toNat

/-- A tag of the crew. -/
def Crew.tag (c : Crew) (n : Nat) : Tag := c.tags.getD n Tag.unused

/-- A tag is BUSY. -/
def Crew.busyTag (c : Crew) (n : Nat) : Bool := decide ((c.tag n).state = .busy)

/-- An access of a strand that has not been performed, and that `sel` names, may meet one of the footprints. -/
def State.flightMeets (s : State) (r : StrandRef) (t : Strand) (sel : InFlight → Bool) (fs : List Foot) : Bool :=
  (t.inflight.filter sel).any fun x =>
    match x.state with
    | .pipe _ _ _ _ => false
    | _ =>
      match s.ctxOfEntry r x.entry with
      | none => false
      | some d => (lanesOf x.entry.mask).any fun l => x.universal || (d.feet l).any fun f => fs.any (mayMeet f)

/-- An access of a strand of the crew that has not been performed may meet one of the footprints. -/
def Ctx.flightMeets (c : Ctx) (t : Strand) (fs : List Foot) : Bool :=
  !fs.isEmpty && c.s.flightMeets { crew := c.r.crew, strand := t.idx } t (fun _ => true) fs

/-- The issue of a copy-engine operation stalls: its tag is BUSY, 32 operations are in flight, or an access of the crew that may meet
its views or scale arrays has not been performed (R197, R213, R214, R283). (DEDUCED, log entry 43) -/
def Ctx.copyStalls (c : Ctx) : Bool :=
  let views := c.f.specs.filterMap fun o => match o with | .w n => (c.c.view? n.toNat).map View.foot | _ => none
  c.c.busyTag c.tagNo || decide (32 ≤ c.s.copiesOn c.core) || c.c.strands.any fun t => c.flightMeets t (views ++ c.scaleFeet)

/-- What an operation has seen at its issue: nothing while an earlier lock of the crew holds it (R206). -/
def Ctx.seen (c : Ctx) (s : State) (o : CopyOp) : CopyOp :=
  if engineHeld (s.locksOf c.c) o.locks o.id then { o with olds := [] } else o

/-- The view register that a spec names, with its view. -/
def Ctx.viewUse (c : Ctx) (o : Opd) : Option ViewUse :=
  match o with
  | .w n => (c.c.view? n.toNat).map fun v => { reg := n.toNat, view := v }
  | _ => none

/-- A tag made BUSY with an operation; its old status is discarded (R213). -/
def Ctx.startOp (c : Ctx) (s : State) (n : Nat) (o : CopyOp) : State :=
  s.modTag c.r.crew n fun _ => { Tag.unused with state := .busy, op := some o }

/-- An operation at its issue. -/
def Ctx.newOp (c : Ctx) (s : State) (kind : CopyKind) (src dst : Option ViewUse) (olds : List Snap) : CopyOp :=
  { id := s.nextId, kind := kind, src := src, dst := dst, aux := none, granule := 0, olds := olds, pages := [], parked := none,
    cancelled := none, strand := c.t.idx, phase := c.c.phase, core := c.core }

/-- The next operation number is used up. -/
def State.bumpId (s : State) : State := { s with nextId := s.nextId + 1 }

/-- Source elements as they stand at issue, in the order in which `addrs` names them; no address, no element. -/
def Ctx.firstSeen (c : Ctx) (s : State) (v : View) (addrs : List (Option Nat)) : State × Snap :=
  let x : Source := { isLocal := v.isLocal, size := elemSize v.ty, addrs := addrs.filterMap id }
  let s := s.touchPages c.core c.ctx .read (pagesOf [x])
  (s, addrs.map fun a => a.bind (x.elem c.c.store (s.trans c.core c.ctx .read) s.copyByte))

/-! ## CPY -/

/-- The follow-on record of a CPY (R220), with the trap of the first check that fails. An AFTER tag that is DONE with another code than
0 leaves the product waiting, until a new operation of that tag ends or the crew does (R221). (DESIGN CHOICE, log entry 82) -/
def Ctx.followOn (c : Ctx) (id : Nat) : FollowOn ⊕ (Trap × DWord) :=
  let off := (loWord (c.b c.low)).toNat
  let localBytes := c.g.header.localBytes
  match offsetTrap off 16 localBytes with
  | some t => .inr t
  | none =>
    let byte (i : Nat) : Nat := (SMap.look 0 c.c.store (off + i)).toNat
    let ty := Ty.ofCode (byte 7 % 16)
    let after : BitVec 64 := BitVec.ofNat 64 (fromBytes ((span (off + 8) 8).map (SMap.look 0 c.c.store)))
    let named (n : Nat) : Bool := after.getLsbD n && decide ((c.c.tag n).state = .free)
    if byte 4 / 8 ≠ 0 ∨ byte 5 / 8 ≠ 0 ∨ byte 6 / 8 ≠ 0 ∨ byte 7 / 16 ≠ 0 ∨ (familyOf ty).isNone ∨ (List.range 64).any named then
      .inr (.illegalOperand, 0)
    else if c.g.header.tiles ≤ byte 4 ∨ c.g.header.views ≤ byte 5 ∨ c.g.header.views ≤ byte 6 then .inr (.regRange, 0)
    else
      match c.c.view? (byte 5), c.c.view? (byte 6) with
      | some wa, some wb =>
        let fblk := fromBytes ((span off 4).map (SMap.look 0 c.c.store))
        match offsetTrap fblk 32 localBytes with
        | some t => .inr t
        | none =>
          let fb := formatOf (c.c.block fblk)
          match mmaTrap ty wa wb fb localBytes with
          | some t => .inr t
          | none =>
            .inl
              { id := id, tag := c.tagNo, td := byte 4, wa := { reg := byte 5, view := wa }, wb := { reg := byte 6, view := wb }
                fb := fb.1, ty := ty, after := after, strand := c.t.idx, copyDone := false, parked := none
                first := false }
      | _, _ => .inr (.illegalOperand, 0)

/-- The issue of a CPY that has passed its checks (R175, R205, R213, R215). -/
def Ctx.issueCopy (c : Ctx) (src dst : ViewUse) (follow : Option FollowOn) : Eff :=
  let s := (c.s.flushMeeting c.core c.ctx src.view).flushMeeting c.core c.ctx dst.view
  let x := c.firstSeen s src.view ((copyPairs src.view dst.view).map (·.2))
  let s := c.startOp x.1 c.tagNo (c.seen x.1 (c.newOp x.1 .copy (some src) (some dst) [x.2]))
  .go ((c.onCrew s fun k => { k with follows := k.follows ++ follow.toList }).bumpId) none 0

/-- CPY (R215 to R217, R220). -/
def cpyBody (c : Ctx) : Eff :=
  if c.copyStalls then .stay c.s .engine
  else
    match c.viewUse c.f.e.d, c.viewUse c.f.e.a with
    | some dst, some src =>
      if src.view.ty ≠ dst.view.ty ∨ 16777215 < dst.view.count then c.fail .illegalOperand
      else if !src.view.canRead || !dst.view.canWrite then c.fail .permission
      else if c.f.e.mod.getLsbD 0 then
        match c.followOn c.s.nextId with
        | .inr (t, a) => c.raise t a c.low
        | .inl f => c.issueCopy src dst (some f)
      else c.issueCopy src dst none
    | _, _ => c.fail .illegalOperand

/-- CPY (R215). -/
def execCpy (e : Ext) (s : State) : Host.Outcome State Fault Refusal := issue (Form.ofExt 0x90 e) cpyBody s

/-! ## CPYM, CDRAIN -/

/-- A slot of a die's multicast holding buffer. -/
def State.slot? (s : State) (die n : Nat) : Option Slot := (s.die? die).bind fun d => d.slots[n]?

/-- `f` applied to a slot. -/
def State.modSlot (s : State) (die n : Nat) (f : Slot → Slot) : State := s.modDie die fun d => { d with slots := modNth d.slots n f }

/-- A slot id as a word (R222). -/
def SlotId.word (i : SlotId) : Word := BitVec.ofNat 32 (i.slot.toNat + i.vdie.toNat * 2 ^ 8 + i.seq.toNat * 2 ^ 16)

/-- The slot id that a word names; none where a zero field is set, which names no parking (R222, R223). -/
def slotIdOf (w : Word) : Option SlotId :=
  let x := w.toNat
  if x / 2 ^ 5 % 8 ≠ 0 ∨ x / 2 ^ 12 % 16 ≠ 0 then none
  else some { seq := BitVec.ofNat 16 (x / 2 ^ 16), vdie := BitVec.ofNat 4 (x / 2 ^ 8), slot := BitVec.ofNat 5 x }

/-- The slot holds the parking that an id names. -/
def Slot.holds (x : Slot) (ctx : Nat) (i : SlotId) : Bool :=
  decide (x.seq = i.seq) && match x.use with | some u => decide (u.1 = ctx) | none => false

/-- A slot is freed (R219, R222). -/
def State.freeSlot (s : State) (die : Nat) (i : SlotId) : State :=
  s.modSlot die i.slot.toNat fun x => if x.seq = i.seq then { Slot.free with seq := x.seq } else x

/-- The drain tag that a CPYM names (R216). -/
def Ctx.dtag? (c : Ctx) : Option Nat := if c.f.e.imm.getLsbD 6 then some (c.f.e.imm.toNat % 64) else none

/-- CPYM with its slot: the slot id is written, and the parking begins (R222). -/
def Ctx.issueMulticast (c : Ctx) (src : ViewUse) (n k : Nat) (slot : Slot) : Eff :=
  let die := dieOf c.core
  let id : SlotId := { seq := slot.seq + 1, vdie := BitVec.ofNat 4 c.c.vdie, slot := BitVec.ofNat 5 k }
  let s := c.s.flushMeeting c.core c.ctx src.view
  let x := c.firstSeen s src.view ((List.range src.view.count).map fun j => some (src.view.elemAddr j))
  let s := x.1.modSlot die k fun _ =>
    { seq := id.seq, use := some (c.ctx, c.r.crew), data := [], ready := false, ty := src.view.ty, fill := src.view.fill,
      accept := n, drains := n, dtag := c.dtag? }
  let s := (c.startOp s c.tagNo (c.seen s (c.newOp s (.park die id) (some src) none [x.2]))).bumpId
  let s :=
    match c.dtag? with
    | some d => if d = c.tagNo then s else (c.startOp s d (c.newOp s (.drains die id) none none [])).bumpId
    | none => s
  .go (c.put s fun _ => id.word.setWidth 64) none c.grow

/-- CPYM (R216, R217, R222). (DESIGN CHOICE, log entry 49) -/
def cpymBody (c : Ctx) : Eff :=
  if c.copyStalls || (match c.dtag? with | some d => c.c.busyTag d | none => false) then .stay c.s .engine
  else
    match c.viewUse c.f.e.a with
    | none => c.fail .illegalOperand
    | some src =>
      let n := (loWord (c.b c.low)).toNat
      if 65536 < src.view.count * elemSize src.view.ty ∨ n = 0 ∨ 255 < n then c.fail .illegalOperand
      else if !src.view.canRead then c.fail .permission
      else
        match c.s.die? (dieOf c.core) with
        | none => .stay c.s .engine
        | some d =>
          match d.slots.findIdx? fun x => x.use.isNone with
          | none => .stay c.s .engine
          | some k => c.issueMulticast src n k (d.slots.getD k Slot.free)

/-- CPYM (R222). -/
def execCpym (e : Ext) (s : State) : Host.Outcome State Fault Refusal := issue (Form.ofExt 0x91 e) cpymBody s

/-- CDRAIN (R216, R217, R223). -/
def cdrainBody (c : Ctx) : Eff :=
  if c.copyStalls then .stay c.s .engine
  else
    match c.viewUse c.f.e.d with
    | none => c.fail .illegalOperand
    | some dst =>
      if 16777215 < dst.view.count then c.fail .illegalOperand
      else if !dst.view.canWrite then c.fail .permission
      else
        let s := c.s.flushMeeting c.core c.ctx dst.view
        let id := (slotIdOf (loWord (c.a c.low))).getD { seq := 0, vdie := 15, slot := 0 }
        .go (c.startOp s c.tagNo (c.newOp s (.drain id false) none (some dst) [])).bumpId none 0

/-- CDRAIN (R223). -/
def execCdrain (e : Ext) (s : State) : Host.Outcome State Fault Refusal := issue (Form.ofExt 0x92 e) cdrainBody s

/-! ## Waiting, testing, finding, killing (R218, R219) -/

/-- The tags of a mask that are DONE. -/
def Ctx.doneTags (c : Ctx) (mask : DWord) : List Nat :=
  (List.range 64).filter fun n => mask.getLsbD n && decide ((c.c.tag n).state = .done)

/-- The tags of a mask. -/
def maskTags (mask : DWord) : List Nat := (List.range 64).filter fun n => mask.getLsbD n

/-- The mask of a copy-tag instruction. -/
def Ctx.tagMask (c : Ctx) : DWord := c.a c.low

/-- The condition of CWAIT and CTEST: every tag of the mask is DONE, or one is. -/
def Ctx.tagsHold (c : Ctx) (all : Bool) : Bool :=
  if all then decide ((c.doneTags c.tagMask).length = (maskTags c.tagMask).length) else !((c.doneTags c.tagMask).isEmpty)

/-- The completions of tags are observed: an NMV's flags join %fpmode of its strand (R218, R244). -/
def Ctx.observe (c : Ctx) (s : State) (tags : List Nat) : State :=
  tags.foldl
    (fun s n =>
      let t := c.c.tag n
      if t.flags = 0 then s
      else
        (s.modStrand { crew := c.r.crew, strand := t.flagStrand } fun x => x.orFlags t.flags).modTag c.r.crew n fun x => { x with flags := 0 })
    s

/-- CWAIT, whose mask is that of its issue (R48, R218). -/
def cwaitBody (all : Bool) (d : Ctx) : Eff :=
  let c := d.again
  if !(c.tagsHold all) && (all || decide (c.tagMask ≠ 0)) then .stay c.s .cwait
  else
    let done := c.doneTags c.tagMask
    match done.filter fun n => (c.c.tag n).errPend with
    | n :: rest =>
      let s := (n :: rest).foldl (fun s k => s.modTag c.r.crew k fun t => { t with errPend := false }) c.s
      .trap .tagError (c.c.tag n).addr c.low s
    | [] => .go (c.observe c.s done) none 0

/-- CWAIT.all (R218). -/
def execCwaitAll (e : Ext) (s : State) : Host.Outcome State Fault Refusal := issue (Form.ofExt 0x93 e) (cwaitBody true) s
/-- CWAIT.any (R218). -/
def execCwaitAny (e : Ext) (s : State) : Host.Outcome State Fault Refusal := issue (Form.ofExt 0x94 e) (cwaitBody false) s

/-- The status word of a tag (R217). -/
def Tag.status (t : Tag) (n : Nat) : DWord :=
  BitVec.ofNat 64 (n + 2 ^ 6 + (if t.errPend then 2 ^ 7 else 0) + t.code.toNat * 2 ^ 8 + t.read.toNat * 2 ^ 16 + t.filled.toNat * 2 ^ 40)

/-- CFIND (R218). -/
def execCfind (e : Ext) (s : State) : Host.Outcome State Fault Refusal :=
  issue (Form.ofExt 0x95 e)
    (fun c =>
      match c.doneTags c.tagMask with
      | [] => .go (c.put c.s fun _ => 0) none c.grow
      | n :: _ => .go (c.put (c.observe c.s [n]) fun _ => (c.c.tag n).status n) none c.grow) s

/-- CTEST (R218). -/
def ctestBody (all : Bool) (c : Ctx) : Eff :=
  let p := c.tagsHold all
  let s := if p then c.observe c.s (c.doneTags c.tagMask) else c.s
  .go (c.put s fun _ => truth p) none 0

/-- CTEST.all (R218). -/
def execCtestAll (e : Ext) (s : State) : Host.Outcome State Fault Refusal := issue (Form.ofExt 0x96 e) (ctestBody true) s
/-- CTEST.any (R218). -/
def execCtestAny (e : Ext) (s : State) : Host.Outcome State Fault Refusal := issue (Form.ofExt 0x97 e) (ctestBody false) s

/-- Cancel(n) on an operation: it is to end, and a CPYM's slot with it (R219). Where a CPYM's park tag ends so, a drain tag of its own
stays BUSY until it is cancelled too. (DESIGN CHOICE, log entry 80) -/
def State.cancelOp (s : State) (r : CrewRef) (n : Nat) : State :=
  s.modOp r n fun o => { o with cancelled := some (o.cancelled.getD s.cycle) }

/-- One tag of CKILL: DONE becomes FREE, unless its completion came in this very cycle, which wins; the operation of a BUSY tag is
cancelled (R218, R219, R226). -/
def Ctx.killTag (c : Ctx) (s : State) (n : Nat) : State :=
  let t := c.c.tag n
  match t.state with
  | .done => if t.doneAt = c.s.cycle then s else s.modTag c.r.crew n fun _ => Tag.unused
  | .busy => s.cancelOp c.r.crew n
  | .free => s

/-- CKILL (R218, R219). -/
def execCkill (e : Ext) (s : State) : Host.Outcome State Fault Refusal :=
  issue (Form.ofExt 0x98 e) (fun c => .go ((maskTags c.tagMask).foldl c.killTag c.s) none 0) s

end Sys2Proof.Machine
end

