-- ==== Sys2Proof/Machine/TileInstr.lean ====
section
/-! DEFINITION. The tile instructions and NMV: row 0xA (R228, R232 to R241, R243 to R245, R373, R377). -/
namespace Sys2Proof.Machine

/-- The tile that a spec names. -/
def tileNo (o : Opd) : Nat := match o with | .t n => n.toNat | _ => 0

/-- A tile operation that has passed its checks: every page is translated or the strand parks (R233, order 6; R234); then the
operation enters the queue with its operands as they stand (R228, R237). -/
def Ctx.queueOp (c : Ctx) (kind : TileKind) (td ts : Nat) : Eff :=
  match c.unresolved? with
  | some va => c.raise .faultUnresolved va c.low
  | none =>
    let p := kind.pages
    let x := c.s.transPages c.core c.ctx p.2 p.1
    match x.2 with
    | .inr f => c.parkOn x.1 p.2 2 f.1 f.2
    | .inl pages =>
      let o : TileOp :=
        { id := x.1.nextId, crew := c.r.crew, strand := c.t.idx, lane := c.low, kind := kind, td := td, ts := ts, follow := none,
          phase := c.c.phase, pages := pages, olds := [] }
      if engineHeld (x.1.locksOf c.c) o.locks o.id then .go (x.1.queueTile c.core o).bumpId none 0
      else
        let s := x.1.fillOperands c.core c.ctx pages kind.sources
        .go (s.queueTile c.core { o with olds := s.operands c.c c.ctx pages true kind.sources }).bumpId none 0

/-- The core holds 16 tile operations (R228), or an access of the strand that may meet a view or a scale array of the operation is in
flight: what comes later waits behind it (R197, R283). -/
def Ctx.tileStalls (c : Ctx) : Bool :=
  let views := c.f.specs.filterMap fun o => match o with | .w n => (c.c.view? n.toNat).map View.foot | _ => none
  c.flightMeets c.t (views ++ c.scaleFeet) || match c.s.core? c.core with | some k => decide (16 ≤ k.tileQ.length) | none => false

/-- The body of a tile operation. -/
def tileBody (body : Ctx → Eff) (c : Ctx) : Eff := if c.tileStalls then .stay c.s .engine else body c

/-- MMA (R233, R235). -/
def mmaBody (c : Ctx) : Eff :=
  match c.viewUse c.f.e.a, c.viewUse c.f.e.b with
  | some wa, some wb =>
    let off := (loWord (c.cc c.low)).toNat
    match offsetTrap off 32 c.g.header.localBytes with
    | some (t, a) => c.raise t a c.low
    | none =>
      let fb := formatOf (c.c.block off)
      match mmaTrap c.f.e.ty wa.view wb.view fb c.g.header.localBytes with
      | some (t, a) => c.raise t a c.low
      | none => c.queueOp (.mma wa wb fb.1 c.f.e.ty) (tileNo c.f.e.d) 0
  | _, _ => c.fail .illegalOperand

/-- MMA (R235). -/
def execMma (e : Ext) (s : State) : Host.Outcome State Fault Refusal := issue (Form.ofExt 0xA0 e) (tileBody mmaBody) s

/-- MZERO (R238). -/
def execMzero (e : Ext) (s : State) : Host.Outcome State Fault Refusal :=
  issue (Form.ofExt 0xA1 e) (tileBody fun c => c.queueOp .mzero (tileNo c.f.e.d) 0) s

/-- The checks of MLDA and MSTA on their view (R233, orders 4 and 5). -/
def tileViewTrap (t : Ty) (v : View) (right : Bool) : Option Trap :=
  if !(v.tileShape t) then some .mmaShape else if !right then some .permission else none

/-- The rounding mode in force at issue, as a code of %fpmode.RM (R55, R103). -/
def Ctx.rmCode (c : Ctx) : BitVec 2 := if c.f.e.rnd = 0 then c.t.fp.setWidth 2 else (c.f.e.rnd - 1).setWidth 2

/-- The rounding mode of a code. -/
def rmOf (x : BitVec 2) : Rm := match x.toNat with | 0 => .rn | 1 => .rz | 2 => .ru | _ => .rd

/-- MLDA (R239). -/
def execMlda (e : Ext) (s : State) : Host.Outcome State Fault Refusal :=
  issue (Form.ofExt 0xA2 e)
    (tileBody fun c =>
      match c.viewUse c.f.e.a with
      | none => c.fail .illegalOperand
      | some w =>
        match tileViewTrap c.f.e.ty w.view w.view.canRead with
        | some t => c.fail t
        | none => c.queueOp (.mlda w c.f.e.ty) (tileNo c.f.e.d) 0) s

/-- MSTA (R240, R241): RND 0 takes the rounding mode that %fpmode holds at issue. -/
def execMsta (e : Ext) (s : State) : Host.Outcome State Fault Refusal :=
  issue (Form.ofExt 0xA3 e)
    (tileBody fun c =>
      match c.viewUse c.f.e.d with
      | none => c.fail .illegalOperand
      | some w =>
        match tileViewTrap c.f.e.ty w.view w.view.canWrite with
        | some t => c.fail t
        | none =>
          c.queueOp (.msta w c.f.e.ty c.rmCode (c.f.e.mod.getLsbD 3) (c.f.e.mod.getLsbD 0)) 0 (tileNo c.f.e.a)) s

/-- MTRN (R238). -/
def execMtrn (e : Ext) (s : State) : Host.Outcome State Fault Refusal :=
  issue (Form.ofExt 0xA4 e) (tileBody fun c => c.queueOp .mtrn (tileNo c.f.e.d) (tileNo c.f.e.a)) s

/-- MPERM: the index array is read at issue (R233, R238). (DEDUCED, log entry 51) -/
def mpermBody (c : Ctx) : Eff :=
  let off := (loWord (c.b c.low)).toNat
  match offsetTrap off 128 c.g.header.localBytes with
  | some (t, a) => c.raise t a c.low
  | none => c.queueOp (.mperm ((span off 128).map (SMap.look 0 c.c.store))) (tileNo c.f.e.d) (tileNo c.f.e.a)

/-- MPERM (R238). -/
def execMperm (e : Ext) (s : State) : Host.Outcome State Fault Refusal := issue (Form.ofExt 0xA5 e) (tileBody mpermBody) s

/-- MRED (R238). -/
def execMred (e : Ext) (s : State) : Host.Outcome State Fault Refusal :=
  issue (Form.ofExt 0xA6 e)
    (tileBody fun c => c.queueOp (.mred (decide (c.f.e.ty = .s64))) (tileNo c.f.e.d) (tileNo c.f.e.a)) s

/-! ## NMV -/

/-- The views of NMV fit R243, pages apart. -/
def nmvShape (ty : Ty) (b x y : View) (fb : Option FormatBlock) : Bool :=
  let k := nmvK b
  decide (b.rank = 2) && decide (b.ty = ty) && !b.isLocal && decide (b.sigma 0 = 1) && decide (1 ≤ k) && decide (k ≤ 65536) &&
    decide (b.n 1 ≤ 16777215) && decide (x.rank = 1) && decide (x.n 0 * (if x.ty = .dt6 then 4 else 1) = k) &&
    (familyOf x.ty == familyOf ty) && decide (familyOf ty ≠ some .small) && decide (y.rank = 1) && decide (y.n 0 = b.n 1) &&
    y.ty.isFloat &&
    match fb with
    | none => true
    | some f =>
      decide (f.fmtA = ty) && decide (f.fmtB = x.ty) &&
        (decide (familyOf ty = some .decimal) || (decide (f.blkA = 0) && decide (f.blkB = 0))) &&
        (decide (f.blkA = 0) || decide (k % f.blkA = 0)) && (decide (f.blkB = 0) || decide (k % f.blkB = 0))

/-- The bytes of a row of B that begin its pages: its first byte, and each page boundary within it. -/
def nmvRowPages (b : View) (r : Nat) : List Nat :=
  let first := b.elemAddr (r * b.n 0)
  let last := first + b.n 0 * elemSize b.ty - 1
  (span (pageOf first) (pageOf last + 1 - pageOf first)).map fun p => max first (p * 65536)

/-- The first row or page of B that is not NEAR or leaves its stripe, a 2 MiB segment, as far as it has a translation (R243). (DEDUCED,
log entry 91) -/
def State.nmvStray (s : State) (core ctx : Nat) (b : View) : Option Nat :=
  (List.range (b.n 1)).findSome? fun r =>
    let at1 := (nmvRowPages b r).filterMap fun va => (s.trans core ctx .read va).map fun x => (va, x)
    match at1.find? fun y => !y.2.near with
    | some y => some (y.2.first y.1 * 65536)
    | none =>
      let segs := (at1.map fun y => segOf (physKey y.2 y.1)).eraseDups
      if 2 ≤ segs.length then some (b.elemAddr (r * b.n 0)) else none

/-- The format block of an NMV with its checks, orders 1 to 3 of R233; none: no block is named. -/
def Ctx.nmvBlock (c : Ctx) (b : View) : Option FormatBlock ⊕ (Trap × DWord) :=
  if !(c.f.e.mod.getLsbD 0) then .inl none
  else
    let off := (loWord (c.cc c.low)).toNat
    let localBytes := c.g.header.localBytes
    match offsetTrap off 32 localBytes with
    | some t => .inr t
    | none =>
      let fb := formatOf (c.c.block off)
      let f := fb.1
      if scaleBeyond f.localA f.scaleA (scaleCount f.blkA (b.n 1) (nmvK b)) localBytes then .inr (.permission, f.scaleA)
      else if scaleBeyond f.localB f.scaleB (scaleCount f.blkB 1 (nmvK b)) localBytes then .inr (.permission, f.scaleB)
      else if fb.2 then .inr (.illegalOperand, 0)
      else .inl (some f)

/-- The pages of a list of rights translated in turn. -/
def State.transAll (s : State) (core ctx : Nat) : List (Right × List Nat) → State × (List (Nat × Xlate) ⊕ (Nat × Right × BitVec 8))
  | [] => (s, .inl [])
  | (a, ps) :: t =>
    let x := s.transPages core ctx a ps
    match x.2 with
    | .inr f => (x.1, .inr (f.1, a, f.2))
    | .inl l =>
      let y := x.1.transAll core ctx t
      match y.2 with
      | .inl m => (y.1, .inl (l ++ m))
      | .inr f => (y.1, .inr f)

/-- An NMV whose checks have passed: its pages are translated or the strand parks; dirty lines that meet its views reach memory;
then it runs in its tag (R234, R245). -/
def Ctx.issueNmv (c : Ctx) (wb wx wy : ViewUse) (fb : Option FormatBlock) (rnd : BitVec 2) : Eff :=
  match c.unresolved? with
  | some va => c.raise .faultUnresolved va c.low
  | none =>
    let scales := nmvScales wb.view fb
    let fixed := wb.view.source :: scales
    let x := c.s.transAll c.core c.ctx
      [(.read, pagesOf fixed), (.read, pagesOf [wx.view.source]), (.write, pagesOf [wy.view.source])]
    match x.2 with
    | .inr (va, a, reason) => c.parkOn x.1 a 2 va reason
    | .inl pages =>
      let s := ((x.1.flushMeeting c.core c.ctx wb.view).flushMeeting c.core c.ctx wx.view).flushMeeting c.core c.ctx wy.view
      let kept := pages.filter fun p => (pagesOf fixed).contains p.1
      -- the scales come on the matrix-operand path (R231)
      let s := s.fillOperands c.core c.ctx pages scales
      let seen (by1 : Nat → Byte × Bool) (xs : List Source) : List Snap := xs.map fun y => y.read c.c.store (transOf pages) by1
      let o := c.newOp s (.nmv fb rnd (c.f.e.mod.getLsbD 3)) (some wb) (some wy)
        (seen s.copyByte [wb.view.source, wx.view.source] ++ seen (s.opByte c.core c.ctx true) scales)
      .go (c.startOp s c.tagNo (c.seen s { o with aux := some wx, pages := kept })).bumpId none 0

/-- NMV (R233, R243 to R245). -/
def nmvBody (c : Ctx) : Eff :=
  if c.copyStalls then .stay c.s .engine
  else
    match c.viewUse c.f.e.d, c.viewUse c.f.e.a, c.viewUse c.f.e.b with
    | some wy, some wb, some wx =>
      match c.nmvBlock wb.view with
      | .inr (t, a) => c.raise t a c.low
      | .inl fb =>
        if !(nmvShape c.f.e.ty wb.view wx.view wy.view fb) then c.fail .mmaShape
        else
          let s := c.s.touchPages c.core c.ctx .read (pagesOf [wb.view.source])
          match s.nmvStray c.core c.ctx wb.view with
          | some va => .trap .mmaShape (BitVec.ofNat 64 va) c.low s
          | none =>
            if !wb.view.canRead || !wx.view.canRead || !wy.view.canWrite then c.fail .permission
            else
              { c with s := s }.issueNmv wb wx wy fb c.rmCode
    | _, _, _ => c.fail .illegalOperand

/-- NMV (R244). -/
def execNmv (e : Ext) (s : State) : Host.Outcome State Fault Refusal := issue (Form.ofExt 0xA7 e) nmvBody s

/-! ## The end of a tile operation (R228, R235, R237 to R241) -/

/-- The operands of a tile operation at its end: for each element the value at issue, or a later one (R237). One whose issue an earlier
lock has held issues now (R206). -/
def State.pickOperands (s0 : State) (c : Crew) (ctx : Nat) (o : TileOp) : State × List Elems :=
  let s := s0.drain c.core
  let now := s.operands c ctx o.pages false o.kind.sources
  let olds := if o.olds.isEmpty then s.operands c ctx o.pages true o.kind.sources else o.olds
  let x := (olds.zip now).foldl
    (fun (acc : Nat × List Elems) y => let z := pickSnap acc.1 y.1 y.2; (z.1, acc.2 ++ [z.2.toArray])) (s.drawn, [])
  ({ s with drawn := x.1 }, x.2)

/-- One element that an MSTA stores: into local store, or into the core's L1 as a plain store (R241). -/
def State.storeElem (s : State) (c : Crew) (ctx : Nat) (o : TileOp) (v : View) (a x : Nat) : State :=
  let bs := (span a (elemSize v.ty)).zip (toBytes (elemSize v.ty) x)
  if v.isLocal then s.modCrew c.ref fun c => { c with store := SMap.putAll 0 c.store bs }
  else
    bs.foldl
      (fun s b =>
        match transOf o.pages b.1 with
        | none => s
        | some e =>
          let key := physKey e b.1
          let s := s.storeL1 c.core c.slot (key / 128) ctx (b.1 / 128) e [(key % 128, b.2)]
          if e.reach = .pkg then
            s.notePkg { grid := c.grid, vdie := c.vdie, crew := c.idx, phase := o.phase, core := c.core, line := key / 128 }
          else s)
      s

/-- A tile of a crew written. -/
def State.putTile (s : State) (r : CrewRef) (n : Nat) (t : Tile) : State :=
  s.modCrew r fun c => { c with tiles := putNth c.tiles n t }

/-- What a tile operation does (R235, R238 to R240). Where elements that MSTA writes share bytes, the element last in index order remains.
(DESIGN CHOICE, log entry 99) -/
def State.doTile (s : State) (c : Crew) (ctx : Nat) (o : TileOp) : State :=
  let x := s.pickOperands c ctx o
  let el (i : Nat) : Elems := x.2.getD i #[]
  let old (n : Nat) : Tile := c.tiles.getD n []
  match o.kind with
  | .mma _ _ fb _ => x.1.putTile c.ref o.td (ProductIn.product { fb := fb, a := el 0, b := el 1, sa := el 2, sb := el 3 } (old o.td))
  | .mzero => x.1.putTile c.ref o.td []
  | .mlda _ ty => x.1.putTile c.ref o.td (loadTile ty (el 0))
  | .msta w ty rnd sat int =>
    let y := storeTile ty (rmOf rnd) sat int (old o.ts)
    let s := (w.view.source.addrs.zip y.1).foldl (fun s z => s.storeElem c ctx o w.view z.1 z.2) x.1
    s.modStrand { crew := c.ref, strand := o.strand } fun t => t.orFlags y.2
  | .mtrn => x.1.putTile c.ref o.td (transpose (old o.ts))
  | .mperm perm => x.1.putTile c.ref o.td (permute perm (old o.ts))
  | .mred int => x.1.putTile c.ref o.td (reduceRows int (old o.ts))

/-- A tile operation has its effect, and its place, tile and locks are free. -/
def State.leaveTile (s : State) (core : Nat) (g : Grid) (c : Crew) (o : TileOp) : State :=
  (s.doTile c g.ctx o).modCore core fun k => { k with tileQ := k.tileQ.filter fun x => x.id ≠ o.id }

/-- No lock of a copy or of a follow-on product of the crew holds a tile operation of it (R206): they can end before the crew is
saved. -/
def State.tilesFree (s : State) (c : Crew) : Bool :=
  let copies := (c.tags.flatMap fun t => match t.op with | some o => o.locks | none => []) ++
    c.follows.flatMap fun f => lockOf f.id false (some f.wa) ++ lockOf f.id false (some f.wb)
  (s.tileOpsOf c).all fun o => !(engineHeld copies o.locks o.id)

/-- The tile operations of a crew end, in the order of their issue (R242). -/
def State.endTiles (s : State) (r : CrewRef) : State :=
  match s.crew? r, s.grid? r.grid with
  | some c, some g =>
    (s.tileOpsOf c).foldl
      (fun s o => match s.crew? r with
        | some c => if s.tilesFree c then s.leaveTile c.core g c o else s
        | none => s) s
  | _, _ => s

end Sys2Proof.Machine
end

