-- ==== Sys2Proof/Machine/Swap.lean ====
section
/-! DEFINITION. Crews leaving their core and coming back: swap-out and pre-emption, wake-up records, placement, and the follow-on
products that a crew issues (R26, R37 to R39, R129, R149, R156, R158, R165, R221, R226, R242, R286 to R288). -/
namespace Sys2Proof.Machine

/-! ## Stretches of memory that the device uses -/

/-- The pieces of a range of virtual addresses, cut at 64 KiB pages: first address and length. -/
def vaPieces (va n : Nat) : List (Nat × Nat) :=
  if n = 0 then []
  else (span (pageOf va) (pageOf (va + n - 1) + 1 - pageOf va)).map fun p =>
    let lo := max va (p * 65536)
    (lo, min (va + n) ((p + 1) * 65536) - lo)

/-- The bytes of a range of a context's addresses are not kept, as far as they are mapped. -/
def State.loseRange (s : State) (ctx va n : Nat) : State :=
  (vaPieces va n).foldl
    (fun s x => match s.walk ctx x.1 .write with | .inl e => s.lose (physKey e x.1) x.2 | .inr _ => s) s

/-! ## Leaving (R38, R165, R286, R287) -/

/-- The bytes of a crew's saved image (R287). (DESIGN CHOICE, log entry 58) -/
def imageBytes (g : Grid) : Nat := crewBytes g + g.header.tiles * 262144 + g.record.nstrand * 12288 + 4096

/-- The crews of a context whose images lie in its save area. -/
def State.imagesOf (s : State) (ctx : Nat) : Nat :=
  s.crews.foldl
    (fun n c =>
      match s.grid? c.grid with
      | some g => if g.ctx = ctx && (c.state = .swapped || c.state = .preempted) then n + imageBytes g else n
      | none => n)
    0

/-- The image of one more crew of a grid finds room (R305). -/
def State.imageRoom (s : State) (g : Grid) (n : Nat) : Bool :=
  match s.ctx? g.ctx with
  | some c => decide (s.imagesOf g.ctx + n * imageBytes g ≤ c.saveSize.toNat)
  | none => false

/-- A sleep counted from now, or again by the cycle counter: it lasts resident cycles (R266). -/
def relSleep (now : Nat) (p : Path) : Path := match p.wait with | .sleep d => { p with wait := .sleep (d - now) } | _ => p
/-- The inverse of `relSleep`. -/
def absSleep (now : Nat) (p : Path) : Path := match p.wait with | .sleep d => { p with wait := .sleep (d + now) } | _ => p

/-- `f` applied to every path of a strand, frozen ones included. -/
def Strand.mapPaths (f : Path → Path) (t : Strand) : Strand :=
  { t with
    splits := t.splits.map f, stack := t.stack.map f
    handler := t.handler.map fun (fr : Frame) => { fr with splits := fr.splits.map f, stack := fr.stack.map f } }

/-- A split that sleeps, with what is left of its sleep in the entry as it would be captured (R400). -/
def sleepLeft (now : Nat) (p : Path) : Path :=
  match p.wait, p.stood with
  | .sleep d, some e => { p with stood := some { e with left := d - now + 1 } }
  | _, _ => p

/-- A strand as it is saved: what was in flight is captured in issue order; a pre-emption captures the waiting instructions too, held
paths apart, and ends a capture of %clock (R56, R286, R288). -/
def Strand.leave (now : Nat) (pre : Bool) (t : Strand) : Strand :=
  let parked := t.takeParked
  let x :=
    if pre then
      { parked.1 with splits := parked.1.splits.map (sleepLeft now) }.takeWaiting false fun e => waitsAgain (opOf (wordsOf e.instr)) && !e.fresh
    else (parked.1, [])
  let caught := inIssueOrder (t.inflight.map InFlight.caught ++ parked.2)
  { x.1.mapPaths (relSleep now) with
    inflight := [], clock := if pre then none else t.clock, reinject := caught ++ t.reinject ++ x.2 }

/-- The strands of a crew. -/
def Crew.strandRefs (c : Crew) : List StrandRef := c.strands.map fun t => { crew := c.ref, strand := t.idx }

/-- The wake-up record of a crew: what each of its waiting splits waits for (R39). -/
def State.wakesOf (s : State) (c : Crew) : List Wake :=
  c.strands.flatMap fun t =>
    t.splits.filterMap fun p =>
      match p.wait, p.stood with
      | .barrier, some e =>
        (s.ctxOfEntry { crew := c.ref, strand := t.idx } e).bind fun k => k.arrival.map fun a => .barrier a.key a.gen
      | .waitm _ _ _, some e | .reread, some e =>
        (s.ctxOfEntry { crew := c.ref, strand := t.idx } e).map fun k =>
          .waitm t.idx (BitVec.ofInt 64 (k.ea k.low)) (k.b k.low) k.f.e.rnd k.f.e.ty k.f.e.scope
      | .launch _ _, _ => some .launch
      | _, _ => none

/-- The accesses and traps of a strand at its save: what can be taken of its traps is; accepted accesses complete, and what is left of
them is withdrawn; then a trap that waited for them is taken (R276, R286, R288). -/
def State.settleStrand (s : State) (r : StrandRef) : State :=
  let s := (s.trapFirst r).settleAccesses r
  (s.modStrand r fun t => { t with inflight := modWhere (fun x => x.state = .outstanding) (fun x => { x with state := .rejected s.cycle }) t.inflight }).trapFirst r

/-- THE SAVE OF A CREW: a swap-out, or a pre-emption (R38, R286). Its tile operations end; traps come first; accepted accesses complete;
dirty lines are written back and reach memory; the image goes into the save area (R165, R242). -/
def State.takeOut (s : State) (r : CrewRef) (pre : Bool) : State :=
  match s.crew? r with
  | none => s
  | some c =>
    let s := c.strandRefs.foldl (fun s x => s.settleStrand x) (s.endTiles r)
    match s.crew? r, s.grid? r.grid with
    | some c, some g =>
      if c.state ≠ .resident then s
      else
        let s := (s.cleanSlot c.core c.slot).drain c.core
        let wakes := if pre then [] else s.wakesOf c
        let s := s.modCrew r fun c =>
          { c with
            strands := c.strands.map (Strand.leave s.cycle.toNat pre), state := if pre then .preempted else .swapped
            woken := false, wakes := wakes, since := s.cycle, eligible := none }
        match s.ctx? g.ctx with
        | some x => s.loseRange g.ctx x.saveArea.toNat x.saveSize.toNat
        | none => s
    | _, _ => s

/-- A split waits in a way that lets its crew be swapped out (R37). -/
def Path.swapWait (p : Path) : Bool := match p.wait with | .barrier | .waitm _ _ _ | .reread | .launch _ _ => true | _ => false

/-- A strand is in one of the three states of R37. -/
def Strand.swapWaits (t : Strand) : Bool :=
  t.isOver ||
    (t.reinject.isEmpty && t.deferred.isEmpty && !t.splits.isEmpty && t.splits.all Path.swapWait &&
      (t.stack.isEmpty || decide (4 ≤ t.splits.length)))

/-- A crew is swap-eligible (R37). -/
def State.swapEligible (_ : State) (c : Crew) : Bool := decide (c.state = .resident) && c.strands.all Strand.swapWaits && !c.over

/-- The image of a crew finds room in the save area of its context (R305). -/
def State.fitsSaved (s : State) (c : Crew) : Bool := match s.grid? c.grid with | some g => s.imageRoom g 1 | none => false

/-- A bank that is being copied to a spare holds nothing that a save has to complete: the crew's accesses and tile operations (R127). -/
def State.bankFree (s : State) (c : Crew) : Bool :=
  !(s.bankHeld c.core (tileParty c.slot)) && c.strands.all fun t => !(s.bankHeld c.core (strandParty c.slot t.idx))

/-- What a save completes can complete now: the crew's tile operations (R242), and its accesses (R127). -/
def State.saveReady (s : State) (c : Crew) : Bool := s.tilesFree c && s.bankFree c

/-- A resident crew can be saved now: what a save completes can complete, and its image finds room (R305). (DEDUCED, log entry 54) -/
def State.canPreempt (s : State) (c : Crew) : Bool := decide (c.state = .resident) && s.saveReady c && s.fitsSaved c

/-- A resident crew has a strand on a cluster that has retired, or its core has retired: it is to be saved as by a pre-emption and
placed elsewhere (R121, R126, R127). (DEDUCED, log entry 34) -/
def State.displaced (s : State) (c : Crew) : Bool :=
  decide (c.state = .resident) && !c.over &&
    match s.core? c.core with
    | some k => k.retired || c.strands.any fun t => !t.isOver && decide ((k.clusters.getD t.cluster Cluster.full).width < 8)
    | none => false

/-! ## Waking (R39) -/

/-- A condition of a wake-up record holds. (DEDUCED, log entry 57) -/
def State.wakeHolds (s : State) (g : Grid) (c : Crew) : Wake → Bool
  | .barrier key gen => decide ((g.barrier key).gen ≠ gen)
  | .launch => decide (c.pending.length < pendingRoom)
  | .waitm _ addr cmp cond ty _ =>
    match s.walk g.ctx addr.toNat .read with
    | .inl x => intCond cond.toNat ty (BitVec.ofNat 64 (s.readNat (physKey x addr.toNat) 4)) cmp || s.poisoned (physKey x addr.toNat / 128)
    | .inr _ => true

/-- WAKE_UP can act on a crew. -/
def State.wakeDue (s : State) (c : Crew) : Bool :=
  decide (c.state = .swapped) && !c.woken &&
    match s.grid? c.grid with | some g => c.wakes.any (s.wakeHolds g c) | none => false

/-! ## Follow-on products (R221, R226, R234) -/

/-- A follow-on product can issue: it is due, its crew is on its core, the tile queue has a place, and no store of the crew that may
meet its operands is in flight (R184, R221, R228). -/
def State.followReady (s : State) (c : Crew) (f : FollowOn) : Bool :=
  c.followDue f && (c.state = .resident || c.state = .draining) && f.parked.isNone &&
    !(c.strands.any fun t =>
      s.flightMeets { crew := c.ref, strand := t.idx } t InFlight.outlives
        ([f.wa.view.foot, f.wb.view.foot] ++ (TileKind.mma f.wa f.wb f.fb f.ty).scaleFeet)) &&
    match s.core? c.core with | some k => decide (k.tileQ.length < 16) | none => false

/-- A follow-on product issues as an MMA: its pages are translated, or it parks on a fault (R221, R234). -/
def State.issueFollow (s : State) (g : Grid) (c : Crew) (f : FollowOn) : State :=
  let kind : TileKind := .mma f.wa f.wb f.fb f.ty
  let p := kind.pages
  let x := s.transPages c.core g.ctx p.2 p.1
  match x.2 with
  | .inr y =>
    let z := x.1.postFault
      { faultOf g c with va := BitVec.ofNat 64 y.1, access := p.2.code, source := 3, reason := y.2 }
    z.1.modCrew c.ref fun c =>
      { c with follows := modWhere (fun (h : FollowOn) => h.id = f.id) (fun h => { h with parked := some z.2 }) c.follows }
  | .inl pages =>
    let o : TileOp :=
      { id := f.id, crew := c.ref, strand := f.strand, lane := 0, kind := kind, td := f.td, ts := 0, follow := some f.tag,
        phase := c.phase, pages := pages, olds := [] }
    let s :=
      if engineHeld (x.1.locksOf c) o.locks o.id then x.1.queueTile c.core o
      else
        let s := x.1.fillOperands c.core g.ctx pages kind.sources
        s.queueTile c.core { o with olds := s.operands c g.ctx pages true kind.sources }
    s.modCrew c.ref fun c => { c with follows := c.follows.filter fun h => h.id ≠ f.id }

/-- The first follow-on product of a tag that can issue. -/
def State.followOf (s : State) (r : CrewRef) (tag : Nat) : Option (Grid × Crew × FollowOn) :=
  match s.grid? r.grid, s.crew? r with
  | some g, some c => (c.follows.find? fun f => f.tag = tag && s.followReady c f).map fun f => (g, c, f)
  | _, _ => none

/-- FOLLOW_ON_ISSUE on a tag. -/
def State.followIssue (s : State) (r : CrewRef) (tag : Nat) : State :=
  match s.followOf r tag with
  | some x => s.issueFollow x.1 x.2.1 x.2.2
  | none => s

/-- FOLLOW_ON_ISSUE (R221). -/
def execFollowOnIssue (c : CrewRef) (tag : BitVec 6) (s : State) : Host.Outcome State Fault Refusal :=
  .next (s.followIssue c tag.toNat)

/-! ## Placement (R26, R27, R129) -/

/-- The strands resident on a core: those that have been created and have not ended (R20, R129). -/
def State.strandsOn (s : State) (core : Nat) : Nat := (s.crewsOn core).foldl (fun n c => n + c.liveStrands.length) 0

/-- The live width of a core. -/
def State.widthOf (s : State) (core : Nat) : Nat := match s.core? core with | some c => c.liveWidth | none => 0

/-- The core on which the Clicker of a physical die places a crew of a grid: among those that admit it with `n` strands, the one with
the least resident strands × 128 / live width, then the lowest number (R129). -/
def State.coreChoice (s : State) (g : Grid) (n die : Nat) : Option Nat :=
  match s.part? g.part with
  | none => none
  | some p =>
    (span (36 * die) 36).foldl
      (fun best k =>
        if p.hasCore k && s.admits k (s.crewsOn k) n g.header (crewBytes g) then
          match best with
          | none => some k
          | some b => if s.strandsOn k * s.widthOf b < s.strandsOn b * s.widthOf k then some k else some b
        else best)
      none

/-- Nothing that a core's caches hold is seen by a crew that comes to it. (DEDUCED, log entry 53) -/
def State.freshCore (s : State) (core ctx : Nat) : State :=
  ((s.invalidate core fun _ => true).pathFence core).modCore core fun k =>
    { k with icache := k.icache.filter fun l => l.ctx ≠ ctx }

/-- The clusters on which `n` strands are placed on a core (R26). -/
def State.clustersFor (s : State) (core n : Nat) : List Nat :=
  match s.core? core with
  | some k => placeStrands k.liveClusters n (s.clustersUsed core)
  | none => []

/-- Generations in SPILL move into the Welt of crews that have become resident (R149). -/
def State.moveIn (s : State) (gid : Nat) : State :=
  match s.grid? gid with
  | none => s
  | some g =>
    (g.chain.pubs.filter fun p => p.delivered && s.deliveryDue g p).foldl (fun s p => s.deliver gid p.item p.slot p.gen) s

/-- The strands of a crew placed again on clusters, those that have ended apart (R26). -/
def placeAgain (f : Nat → Strand → Strand) : List Strand → List Nat → List Strand
  | [], _ => []
  | t :: ts, [] => t :: placeAgain f ts []
  | t :: ts, k :: ks => if t.isOver then t :: placeAgain f ts (k :: ks) else f k t :: placeAgain f ts ks

/-- A strand placed again: an instruction that a split waits at goes on with what it has read (R39, R48, R270); LAUNCH issues again. -/
def Strand.enter (now : DWord) (cluster : Nat) (t : Strand) : Strand :=
  let t := t.mapPaths (absSleep now.toNat)
  { t with
    cluster := cluster
    splits := t.splits.map fun p =>
      { p with
        since := now
        wait := match p.wait with | .barrier | .waitm _ _ _ | .reread => .retry | .launch _ _ => .none | w => w } }

/-- A swapped-out or pre-empted crew takes its place on a core again (R26, R39, R149, R158, R165, R288): its waits are looked at
again, and a due follow-on issues before its first instruction (R226). -/
def State.putOn (s : State) (r : CrewRef) (core : Nat) : State :=
  match s.crew? r, s.grid? r.grid with
  | some c, some g =>
    let clusters := s.clustersFor core c.liveStrands.length
    let slot := s.freeCrewSlot core
    let s := if core = c.core then s else s.freshCore core g.ctx
    let s := s.modCrew r fun c =>
      { c with
        state := .resident, core := core, slot := slot, woken := false, wakes := []
        strands := placeAgain (Strand.enter s.cycle) c.strands clusters
        follows := modWhere c.followDue (fun f => { f with first := true }) c.follows }
    let s := (s.shrinkL1 core (s.l1Lines core)).moveIn r.grid
    c.follows.foldl (fun s f => s.followIssue r f.tag) s
  | _, _ => s

end Sys2Proof.Machine
end

