-- ==== Sys2Proof/Machine/EngineEvents.lean ====
section
/-! DEFINITION. What the copy engine and the matrix units do: the ends of copies, parkings, drains, tile operations and NMV, with
their parks on faults and their cancellations (R175, R205, R213 to R226, R228, R235 to R245). -/
namespace Sys2Proof.Machine

/-! ## One attempt at moving elements -/

/-- What is moved: for each element the address that it takes in the destination's bytes and the address it is read at (none: the
fill value), the element size, the fill, and whether source and destination may meet (R215). -/
structure Job where
  pairs : List (Nat × Option Nat)
  size : Nat
  src : Source
  fill : DWord
  meets : Bool

/-- The granules of a job in their order (R224). -/
def Job.granules (j : Job) : List Nat := (j.pairs.flatMap fun p => granulesOf j.size p.1).eraseDups

/-- Elements whose value is settled once the granules `done` are written: a byte of the element is among them, or its source has
been written over (R215). -/
def Job.settled (j : Job) (done : List Nat) : List Bool :=
  let written : List Nat :=
    if j.meets && !done.isEmpty then
      j.pairs.flatMap fun p => (span p.1 j.size).filter fun b => done.contains (b / 256)
    else []
  j.pairs.map fun p =>
    (granulesOf j.size p.1).any done.contains ||
      match p.2 with
      | some a => (span a j.size).any written.contains
      | none => false

/-- An attempt: its moves, the elements as picked, and how many free choices have been made. -/
structure Attempt where
  moves : List Move
  picked : Snap
  drawn : Nat

/-- The elements of a job as they are read now, each once for every destination element that takes it. -/
def State.jobElems (s : State) (j : Job) (store : SMap Byte) (tr : Trans) : Snap :=
  j.pairs.map fun p => p.2.bind (j.src.elem store tr s.copyByte)

/-- One attempt: an element that is not settled takes the value first seen or the one it has now (R215, log entry 10); an element
that no translation reaches has no data, unless a byte of it has been written. -/
def State.attempt (s : State) (j : Job) (olds : Snap) (done : List Nat) (store : SMap Byte) (tr : Trans) : Attempt :=
  let now := s.jobElems j store tr
  let fixed := j.settled done
  let x := pickSnap s.drawn olds ((fixed.zip (olds.zip now)).map fun y => if y.1 then y.2.1 else y.2.2)
  let touched := j.pairs.map fun p => (granulesOf j.size p.1).any done.contains
  let data := ((touched.zip now).zip x.2).map fun y => if y.1.1 || y.1.2.isSome then y.2 else none
  { moves := (j.pairs.zip data).map fun y =>
      { addr := y.1.1, src := y.1.2, data := match y.1.2 with | some _ => y.2 | none => some (j.fill, 0) }
    picked := x.2, drawn := x.1 }

/-- The elements kept for the next attempt once the granules `done` are written: settled ones as picked. -/
def Job.keep (j : Job) (olds picked : Snap) (done : List Nat) : Snap :=
  ((j.settled done).zip (olds.zip picked)).map fun y => if y.1 then y.2.2 else y.2.1

/-- Elements first seen, through a read right or, where the copy may write over its source, any right. -/
def State.firstSeen (s : State) (x : TagCtx) (j : Job) (olds : Snap) : Snap :=
  let tr : Trans := fun va =>
    match s.trans x.o.core x.g.ctx .read va with
    | some e => some e
    | none => if j.meets then s.trans x.o.core x.g.ctx .write va else none
  keepSnap olds (s.jobElems j x.c.store tr)

/-- The job of a CPY. -/
def copyJob (src dst : View) : Job :=
  { pairs := copyPairs src dst, size := elemSize dst.ty, src := src.source, fill := src.fillVal, meets := mayMeet dst.foot src.foot }

/-- The job of a CPYM: the elements packed in index order (R222). -/
def parkJob (src : View) : Job :=
  { pairs := (List.range src.count).map fun k => (k * elemSize src.ty, some (src.elemAddr k)), size := elemSize src.ty,
    src := src.source, fill := 0, meets := false }

/-- The pages of a job translated for reading, those of a destination view for writing. -/
def State.touchJob (s : State) (x : TagCtx) (j : Job) (dst : Option View) : State :=
  let s := s.touchPages x.o.core x.g.ctx .read (pagesOf [{ j.src with addrs := j.pairs.filterMap (·.2) }])
  match dst with
  | some v => s.touchPages x.o.core x.g.ctx .write (pagesOf [v.source])
  | none => s

/-- The destination of an operation. -/
def TagCtx.dest (x : TagCtx) (v : View) : Dest :=
  { isLocal := v.isLocal, crew := x.c.ref, core := x.o.core, ctx := x.g.ctx, size := elemSize v.ty }

/-- What the cores hold of a destination is given up (R175): on the core that issued the operation, and on the crew's. -/
def State.dropDest (s : State) (x : TagCtx) (v : View) (ms : List Move) : State :=
  let lines := s.destLines (x.dest v) ms
  (s.dropMeeting x.o.core x.g.ctx v lines).dropMeeting x.c.core x.g.ctx v lines

/-- The end of an operation at granule q, with the counts of what is written (R217). -/
def State.endMove (s : State) (x : TagCtx) (n : Nat) (v : View) (ms : List Move) (q code : Nat) : State :=
  let e := elemSize v.ty
  (s.dropDest x v ms).finishTag x.c.ref n code 0 (movedCount e ms q false) (movedCount e ms q true)

/-! ## CPY -/

/-- A CPY moves on by at most `n` granules: it ends, parks, or, where `n` is used up, ends with `code` (R215, R224). -/
def State.moveCopy (s : State) (x : TagCtx) (tag : Nat) (src dst : View) (n : Nat) (code : Option Nat) : State :=
  let j := copyJob src dst
  let s := (s.beginOp x).touchJob x j (some dst)
  let olds := s.firstSeen x j (x.o.olds.headD [])
  let order := j.granules
  let a := s.attempt j olds (order.take x.o.granule) x.c.store (s.trans x.o.core x.g.ctx .read)
  let y := { s with drawn := a.drawn }.moveGranules (x.dest dst) a.moves (order.drop x.o.granule) n
  let q := x.o.granule + y.2.1
  match code, y.2.2 with
  | some k, _ => y.1.endMove x tag dst a.moves q k
  | none, none => y.1.endMove x tag dst a.moves q 0
  | none, some .poison => y.1.endMove x tag dst a.moves q 2
  | none, some (.fault va right reason) =>
    (y.1.modOp x.c.ref tag fun o => { o with olds := [j.keep olds a.picked (order.take q)] }).parkOp x tag 1 q va right reason

/-- A CPY that can move. -/
def State.copyReady (s : State) (r : CrewRef) (n : Nat) : Option (TagCtx × View × View) :=
  (s.tagCtx? r n).bind fun x =>
    match x.o.kind, x.o.src, x.o.dst with
    | .copy, some src, some dst => if s.copyFree x then some (x, src.view, dst.view) else none
    | _, _, _ => none

/-- A CPY runs to its end, or to a page fault. -/
def State.runCopy (s : State) (r : CrewRef) (n : Nat) : State :=
  match s.copyReady r n with
  | some x => s.moveCopy x.1 n x.2.1 x.2.2 (copyJob x.2.1 x.2.2).granules.length none
  | none => s

/-- COPY_COMPLETE: the copy moves every granule that is left and ends (R217); where a page fault stops it, it parks as COPY_PARK
says. -/
def execCopyComplete (c : CrewRef) (tag : BitVec 6) (s : State) : Host.Outcome State Fault Refusal := .next (s.runCopy c tag.toNat)

/-- The operation of a tag is parked. -/
def State.tagParked (s : State) (r : CrewRef) (n : Nat) : Bool :=
  match s.tagCtx? r n with
  | some x => x.o.parked.isSome
  | none => false

/-- COPY_PARK: the copy moves on to the granule that a page fault holds up, and parks there (R224). -/
def execCopyPark (c : CrewRef) (tag : BitVec 6) (s : State) : Host.Outcome State Fault Refusal :=
  let t := s.runCopy c tag.toNat
  .next (if t.tagParked c tag.toNat then t else s)

/-! ## CPYM -/

/-- The first element that cannot be parked, in index order: its place, and why; `e` is the size of an element (R224). -/
def parkHalt (s : State) (x : TagCtx) (e : Nat) (ms : List Move) : Option (Nat × Halt) :=
  ms.findSome? fun m =>
    match m.data, m.src with
    | some d, _ => if d.2 ≠ 0 then some (m.addr, .poison) else none
    | none, some a =>
      let va := s.firstHole x.o.core x.g.ctx .read a e
      some (m.addr, .fault va .read (s.reason x.o.core x.g.ctx .read va))
    | none, none => none

/-- Every byte of a CPYM is parked: the slot is ready, and the tag sets, or, where it is its own drain tag, waits for the drains
(R222); its source's lock clears at once in both cases (R205). (DESIGN CHOICE, log entry 98) -/
def State.parked (s : State) (x : TagCtx) (n die : Nat) (id : SlotId) (elems : List DWord) : State :=
  let holds := match s.slot? die id.slot.toNat with | some k => k.holds x.g.ctx id | none => false
  let s := if holds then s.modSlot die id.slot.toNat fun k => { k with data := elems, ready := true } else s
  let own := match s.slot? die id.slot.toNat with | some k => decide (k.dtag = some n) | none => false
  if own && holds then s.modOp x.c.ref n fun o => { o with kind := .drains die id, src := none }
  else s.finishTag x.c.ref n 0 0 elems.length 0

/-- READ of a CPYM that ends at granule q: the elements whose every granule is parked (R217). -/
def parkRead (src : View) (q : Nat) : Nat := min src.count (256 * q / elemSize src.ty)

/-- The granule at which a parking that may move on by at most `n` granules stands (R219). -/
def State.parkReach (s : State) (x : TagCtx) (src : View) (n : Nat) : Nat :=
  let j := parkJob src
  let s := s.touchJob x j none
  let a := s.attempt j (s.firstSeen x j (x.o.olds.headD [])) (j.granules.take x.o.granule) x.c.store (s.trans x.o.core x.g.ctx .read)
  min (x.o.granule + n) (match parkHalt s x j.size a.moves with | none => j.granules.length | some h => h.1 / 256)

/-- CPYM_PARKED on an operation. -/
def State.runPark (s : State) (x : TagCtx) (n die : Nat) (id : SlotId) (src : View) : State :=
  let j := parkJob src
  let s := (s.beginOp x).touchJob x j none
  let olds := s.firstSeen x j (x.o.olds.headD [])
  let order := j.granules
  let a := s.attempt j olds (order.take x.o.granule) x.c.store (s.trans x.o.core x.g.ctx .read)
  let s := { s with drawn := a.drawn }
  match parkHalt s x j.size a.moves with
  | none => s.parked x n die id (a.moves.map fun m => BitVec.ofNat 64 (snapVal m.data))
  | some (at1, .poison) => (s.freeSlot die id).finishTag x.c.ref n 2 0 (parkRead src (at1 / 256)) 0
  | some (at1, .fault va right reason) =>
    let q := at1 / 256
    (s.modOp x.c.ref n fun o => { o with olds := [j.keep olds a.picked (order.take q)] }).parkOp x n 1 q va right reason

/-- A CPYM that can park. -/
def State.parkReady (s : State) (r : CrewRef) (n : Nat) : Option (TagCtx × Nat × SlotId × View) :=
  (s.tagCtx? r n).bind fun x =>
    match x.o.kind, x.o.src with
    | .park die id, some src => if s.copyFree x then some (x, die, id, src.view) else none
    | _, _ => none

/-- CPYM_PARKED (R222). -/
def execCpymParked (c : CrewRef) (tag : BitVec 6) (s : State) : Host.Outcome State Fault Refusal :=
  match s.parkReady c tag.toNat with
  | some x => .next (s.runPark x.1 tag.toNat x.2.1 x.2.2.1 x.2.2.2)
  | none => .next s

/-! ## CDRAIN -/

/-- The physical die of a slot id under the launch's die record (R248). -/
def TagCtx.slotDie (x : TagCtx) (id : SlotId) : Nat := x.g.dieRec.vphys.getD id.vdie.toNat 9

/-- The slot that an id names, if it holds that parking of the context. -/
def State.slotOf (s : State) (x : TagCtx) (id : SlotId) : Option Slot :=
  (s.slot? (x.slotDie id) id.slot.toNat).bind fun k => if k.holds x.g.ctx id then some k else none

/-- An accepted drain has ended: with the slot's last one the slot is freed and the sender's drain tag sets (R222). -/
def State.drained (s : State) (x : TagCtx) (id : SlotId) : State :=
  match s.slotOf x id with
  | none => s
  | some k =>
    let die := x.slotDie id
    if 1 < k.drains then s.modSlot die id.slot.toNat fun k => { k with drains := k.drains - 1 }
    else
      let s := s.freeSlot die id
      match k.use, k.dtag with
      | some u, some d =>
        match s.tagCtx? u.2 d with
        | some y => if y.o.kind = .drains die id && s.notKilled y.o then s.finishTag u.2 d 0 0 0 0 else s
        | none => s
      | _, _ => s

/-- What a drain finds: it ends with BADSLOT, it waits for the parking, or it moves (R223). -/
inductive DrainView where
  | bad
  | waits
  | moves (k : Slot)
  deriving DecidableEq, Repr

/-- The CPYM of a slot has been cancelled by its park tag or its drain tag: a later drain finds no slot (R219). -/
def State.slotKilled (s : State) (k : Slot) (die : Nat) (id : SlotId) : Bool :=
  match k.use.bind fun u => s.crew? u.2 with
  | none => false
  | some c => c.tags.any fun t =>
    match t.op with
    | some o => o.cancelled.isSome && (o.kind == .park die id || o.kind == .drains die id)
    | none => false

/-- The slot as a drain finds it. A drain that the slot has accepted is not counted again; one that ends for a type mismatch is not
counted at all. (DESIGN CHOICE, log entry 112) -/
def State.drainView (s : State) (x : TagCtx) (id : SlotId) (accepted : Bool) (v : View) : DrainView :=
  match s.slotOf x id with
  | none => .bad
  | some k =>
    if !accepted && s.slotKilled k (x.slotDie id) id then .bad
    else if k.ty ≠ v.ty || (!accepted && decide (k.accept = 0)) then .bad else if k.ready then .moves k else .waits

/-- The moves of a drain: the packed elements, then the fill (R223). -/
def drainMoves (v : View) (k : Slot) : List Move :=
  (List.range v.count).map fun n =>
    match k.data[n]? with
    | some d => { addr := v.elemAddr n, src := some 0, data := some (d, 0) }
    | none => { addr := v.elemAddr n, src := none, data := some (BitVec.ofNat 64 (k.fill.toNat % 2 ^ (8 * elemSize v.ty)), 0) }

/-- A drain moves on by at most `n` granules, as `moveCopy` does for a copy. -/
def State.moveDrain (s : State) (x : TagCtx) (tag : Nat) (id : SlotId) (v : View) (k : Slot) (n : Nat) (code : Option Nat) : State :=
  let ms := drainMoves v k
  let s := s.touchPages x.o.core x.g.ctx .write (pagesOf [v.source])
  let y := s.moveGranules (x.dest v) ms ((granuleOrder (elemSize v.ty) ms).drop x.o.granule) n
  let q := x.o.granule + y.2.1
  match code, y.2.2 with
  | none, some (.fault va right reason) => y.1.parkOp x tag 1 q va right reason
  | some c, _ => (y.1.endMove x tag v ms q c).drained x id
  | none, _ => (y.1.endMove x tag v ms q 0).drained x id

/-- The slot accepts a drain (R223); the drain keeps the packed elements. -/
def State.acceptDrain (s : State) (x : TagCtx) (tag : Nat) (id : SlotId) (k : Slot) : State :=
  (s.modSlot (x.slotDie id) id.slot.toNat fun k => { k with accept := k.accept - 1 }).modOp x.c.ref tag
    fun o => { o with kind := .drain id true, olds := [k.data.map fun d => some (d, 0)] }

/-- A drain ends without its slot: with a code, at the granule at which it stands (R217, R223). (DEDUCED, log entry 50) -/
def State.endDrain (s : State) (x : TagCtx) (tag : Nat) (v : View) (code : Nat) : State :=
  let ms := drainMoves v { Slot.free with data := (x.o.olds.headD []).map fun e => BitVec.ofNat 64 (snapVal e) }
  if x.o.granule = 0 then s.finishTag x.c.ref tag code 0 0 0 else s.endMove x tag v ms x.o.granule code

/-- DRAIN_COMPLETE on an operation. -/
def State.runDrain (s : State) (x : TagCtx) (tag : Nat) (id : SlotId) (accepted : Bool) (v : View) : State :=
  match s.drainView x id accepted v with
  | .bad => s.endDrain x tag v 4
  | .waits => s
  | .moves k =>
    -- what an operation before it has left dirty goes first (R175, R197, R206)
    let s := if accepted then s else (s.flushOp x).acceptDrain x tag id k
    s.moveDrain x tag id v k (v.count * 2) none

/-- A drain that can move. -/
def State.drainReady (s : State) (r : CrewRef) (n : Nat) : Option (TagCtx × SlotId × Bool × View) :=
  (s.tagCtx? r n).bind fun x =>
    match x.o.kind, x.o.dst with
    | .drain id acc, some dst => if s.copyFree x then some (x, id, acc, dst.view) else none
    | _, _ => none

/-- DRAIN_COMPLETE (R223). -/
def execDrainComplete (c : CrewRef) (tag : BitVec 6) (s : State) : Host.Outcome State Fault Refusal :=
  match s.drainReady c tag.toNat with
  | some x => .next (s.runDrain x.1 tag.toNat x.2.1 x.2.2.1 x.2.2.2)
  | none => .next s

/-! ## NMV -/

/-- The rows of an NMV that are written, as moves: an operand that no translation reaches holds every row up, and a row that uses an
uncorrectable byte is bad (R244, R245); with them the flags of each row. -/
def nmvRows (b x y : View) (fb : Option FormatBlock) (rm : Rm) (sat : Bool) (eb ex sb sx : Elems) (hole : Option Nat) :
    List (Move × Flags) :=
  let k := nmvK b
  let blkA := fb.elim 0 (·.blkA)
  let blkB := fb.elim 0 (·.blkB)
  (List.range (b.n 1)).map fun r =>
    let acc := (List.range k).foldl
      (fun (acc : A80 × Bool) i =>
        let sa := scaleAt blkA sb k r i
        let sc := scaleAt blkB sx k 0 i
        let bad := acc.2 || sa.2 || sc.2
        if sa.1 = -128 ∨ sc.1 = -128 then (acc.1, bad)
        else
          let u := elemCode b.ty eb (r * k + i)
          let w := elemCode x.ty ex i
          (a80Add acc.1 (roundedProduct b.ty x.ty u.1 w.1 sa.1 sc.1), bad || u.2 || w.2))
      (0, false)
    let z := toRealTy y.ty rm sat (a80Decode acc.1)
    match hole with
    | some a => ({ addr := y.elemAddr r, src := some a, data := none }, 0)
    | none => ({ addr := y.elemAddr r, src := some 0, data := some (BitVec.ofNat 64 z.1, if acc.2 then 1 else 0) }, z.2)

/-- The operands of an NMV as picked for an attempt; x and its scales are read once (R244). -/
def State.nmvPick (s : State) (x : TagCtx) (b vx : View) (fb : Option FormatBlock) : Nat × List Snap :=
  let ctx := x.g.ctx
  let live := transOf x.o.pages
  let scales := nmvScales b fb
  let read (held : Bool) : List Snap :=
    [b.source.read x.c.store live s.copyByte, vx.source.read x.c.store (s.trans x.o.core ctx .read) s.copyByte] ++
      scales.map fun y => y.read x.c.store live (s.opByte x.o.core ctx held)
  let now := read false
  let olds := if x.o.olds.isEmpty then read true else (x.o.olds.zip now).map fun y => keepSnap y.1 y.2
  let fixed : List Bool := if x.o.granule = 0 then [false, false, false, false] else [false, true, false, true]
  ((fixed.zip (olds.zip now))).foldl
    (fun (acc : Nat × List Snap) y =>
      if y.1 then (acc.1, acc.2 ++ [y.2.1]) else let z := pickSnap acc.1 y.2.1 y.2.2; (z.1, acc.2 ++ [z.2]))
    (s.drawn, [])

/-- An NMV moves on by at most `n` granules of y (R244, R245). -/
def State.moveNmv (s : State) (x : TagCtx) (tag : Nat) (b vx y : View) (fb : Option FormatBlock) (rnd : BitVec 2) (sat : Bool)
    (n : Nat) (code : Option Nat) : State :=
  let s := (((s.beginOp x).drain x.o.core).touchPages x.o.core x.g.ctx .read (pagesOf [vx.source])).touchPages x.o.core x.g.ctx .write
    (pagesOf [y.source])
  let p := s.nmvPick x b vx fb
  let el (i : Nat) : Elems := (p.2.getD i []).toArray
  let hole :=
    if vx.isLocal || decide (0 < x.o.granule) then none
    else
      (vx.source.addrs.find? fun a => (keysAt (s.trans x.o.core x.g.ctx .read) a (elemSize vx.ty)).isNone).map fun a =>
        s.firstHole x.o.core x.g.ctx .read a (elemSize vx.ty)
  let rows := nmvRows b vx y fb (rmOf rnd) sat (el 0) (el 1) (el 2) (el 3) hole
  let ms := rows.map (·.1)
  let order := granuleOrder (elemSize y.ty) ms
  let z := { s with drawn := p.1 }.moveGranules (x.dest y) ms (order.drop x.o.granule) n
  let q := x.o.granule + z.2.1
  let fresh := (order.take q).drop x.o.granule
  let flags := (rows.filter fun r => (granulesOf (elemSize y.ty) r.1.addr).any fresh.contains).foldl (fun f r => f ||| r.2) 0
  let t := z.1.modTag x.c.ref tag fun t => { t with flags := t.flags ||| flags }
  let count := movedCount (elemSize y.ty) ms q false
  let stop (c : Nat) : State := (t.dropDest x y ms).finishTag x.c.ref tag c 0 count 0
  match code, z.2.2 with
  | some c, _ => stop c
  | none, none => stop 0
  | none, some .poison => stop 2
  | none, some (.fault va right reason) =>
    (t.modOp x.c.ref tag fun o => { o with olds := if q = 0 then o.olds else p.2 }).parkOp x tag 4 q va right reason

/-- An NMV that can run. -/
def State.nmvReady (s : State) (r : CrewRef) (n : Nat) :
    Option (TagCtx × View × View × View × Option FormatBlock × BitVec 2 × Bool) :=
  (s.tagCtx? r n).bind fun x =>
    match x.o.kind, x.o.src, x.o.aux, x.o.dst with
    | .nmv fb rnd sat, some b, some vx, some y => if s.copyFree x then some (x, b.view, vx.view, y.view, fb, rnd, sat) else none
    | _, _, _, _ => none

/-- NMV_COMPLETE (R244, R245). -/
def execNmvComplete (c : CrewRef) (tag : BitVec 6) (s : State) : Host.Outcome State Fault Refusal :=
  match s.nmvReady c tag.toNat with
  | some (x, b, vx, y, fb, rnd, sat) => .next (s.moveNmv x tag.toNat b vx y fb rnd sat (y.count * 2) none)
  | none => .next s

/-! ## Cancelling (R219) -/

/-- How many granules a cancelled operation may still write: none while it is parked or held (R127, R206, R224). -/
def State.cancelRoom (s : State) (x : TagCtx) (granules : Nat) : Nat :=
  if x.o.parked.isNone && !(s.opStops x) && !(engineHeld (s.locksOf x.c) x.o.locks x.o.id) then granules else 0

/-- An operation stops at a granule boundary before its end: its tag becomes DONE with a code (R219, R222, R225, R245). -/
def State.endEarly (s : State) (x : TagCtx) (tag granules code : Nat) : State :=
  let n := s.cancelRoom x granules
  match x.o.kind, x.o.src, x.o.aux, x.o.dst with
  | .copy, some src, _, some dst => s.moveCopy x tag src.view dst.view n (some code)
  | .drain id acc, _, _, some dst =>
    match s.drainView x id acc dst.view, acc with
    | .moves k, true => s.moveDrain x tag id dst.view k n (some code)
    | _, true => (s.endDrain x tag dst.view code).drained x id
    | _, false => s.finishTag x.c.ref tag code 0 0 0
  | .nmv fb rnd sat, some b, some vx, some y => s.moveNmv x tag b.view vx.view y.view fb rnd sat n (some code)
  | .park die id, some src, _, _ =>
    (s.freeSlot die id).finishTag x.c.ref tag code 0 (parkRead src.view (s.parkReach x src.view n)) 0
  | .drains die id, _, _, _ => (s.freeSlot die id).finishTag x.c.ref tag code 0 0 0
  | _, _, _, _ => s.finishTag x.c.ref tag code 0 0 0

/-- The fault on which an operation is parked is unresolvable: it ends as it stands with CODE 1, and Addr holds the address (R225,
R245). -/
def State.endUnresolved (s : State) (x : TagCtx) (tag : Nat) (addr : DWord) : State :=
  (s.endEarly x tag 0 1).modTag x.c.ref tag fun t => { t with addr := addr }

/-- CANCEL_END (R219). -/
def execCancelEnd (c : CrewRef) (tag : BitVec 6) (granules : Nat) (s : State) : Host.Outcome State Fault Refusal :=
  match s.tagCtx? c tag.toNat with
  | some x => .next (if x.o.cancelled.isSome then s.endEarly x tag.toNat granules 3 else s)
  | none => .next s

/-! ## The end of a tile operation (R228) -/

/-- A tile operation of a core's queue that can end: nothing before it keeps its order with it, and no earlier lock of its crew holds
it, nor a bank that is being copied (R127, R206, R228). It ends also where the core has lost its last matrix unit since its issue (R128).
(DESIGN CHOICE, log entry 105) -/
def State.tileReady (s : State) (core id : Nat) : Option (Grid × Crew × TileOp) :=
  (s.core? core).bind fun k =>
    (k.tileQ.find? fun o => o.id = id).bind fun o =>
      match s.crew? o.crew with
      | none => none
      | some c =>
        (s.grid? o.crew.grid).bind fun g =>
          if tileFirst k.tileQ o && !(s.bankHeld core (tileParty c.slot)) && !(engineHeld (s.locksOf c) o.locks o.id) then some (g, c, o) else none

/-- A crew of a suspended context, or on a cluster or core that has retired, is saved once its tile operations have ended and no bank's
copy holds what it touches (R121, R127, R242, R286). -/
def State.saveIfDue (s : State) (r : CrewRef) : State :=
  match s.crew? r with
  | some c => if (s.ctxOff c && s.canPreempt c) || (s.displaced c && s.saveReady c) then s.takeOut r true else s
  | none => s

/-- A tile operation ends: its effect is made, and its place, tile and locks are free (R228). -/
def State.endTile (s : State) (core : Nat) (g : Grid) (c : Crew) (o : TileOp) : State :=
  ((s.leaveTile core g c o).settleCrew c.ref).saveIfDue c.ref

/-- TILE_OP_END (R228). -/
def execTileOpEnd (core id : Nat) (s : State) : Host.Outcome State Fault Refusal :=
  match s.tileReady core id with
  | some x => .next (s.endTile core x.1 x.2.1 x.2.2)
  | none => .next s

end Sys2Proof.Machine
end

