-- ==== Sys2Proof/Machine/Clicker.lean ====
section
/-! DEFINITION. The Clicker and what happens to crews, strands and splits while they do not issue: dispatch with its making of room,
swap-in and restore, stealing, ageing, waits that end, the watchdog, deferred traps, hand-off deliveries, phase counters, and kills
(R25, R26, R28, R34, R37 to R39, R148 to R156, R195, R250 to R252, R264 to R266, R270, R271, R274, R286 to R290). -/
namespace Sys2Proof.Machine

/-! ## Candidates for a place (R264) -/

/-- A crew that is to be placed: undispatched (`fresh`), or out. -/
structure Placing where
  ref : CrewRef
  fresh : Bool
  deriving DecidableEq, Repr

/-- The physical die on which a crew is placed: its owner's, or the one it left (R26, R250). -/
def State.dieFor (s : State) (g : Grid) (x : Placing) : Nat :=
  if x.fresh then g.dieRec.vphys.getD (g.ownerOf x.ref.idx) 9
  else match s.crew? x.ref with | some c => dieOf c.core | none => 9

/-- The lowest crew of a chained launch that has not ended (R156). -/
def State.lowestLive (s : State) (g : Grid) : Nat :=
  ((s.crews.filter fun c => c.grid = g.id && decide (c.state ≠ .ended) && !c.over).map (·.idx)).foldl min g.dispatched.length

/-- The items of a launch that are held by back-pressure, with the slot of their HPUT (R151); a lane of such a path that waits for a
hand-off value is none. -/
def State.pressed (s : State) (g : Grid) : List (Nat × Nat) :=
  (s.crews.filter fun c => c.grid = g.id).flatMap fun c =>
    c.strands.flatMap fun t =>
      let frozen := match t.handler with | some fr => fr.splits ++ fr.stack | none => []
      ((t.splits ++ t.stack ++ frozen).filter fun p => p.held = .backPressure).flatMap fun p =>
        match p.stood with
        | some e =>
          ((lanesOf p.mask).filter fun l => p.pend.any fun x => x.1 = l).map fun l =>
            (itemOf g.record.nstrand c.idx t.idx l, ((Form.ofInstr e.instr).e.aux &&& 7#8).toNat)
        | none => []

/-- A crew of a chained launch has precedence on its die (R156). -/
def State.precedence (s : State) (g : Grid) (idx : Nat) : Bool :=
  g.record.chained &&
    (decide (idx = s.lowestLive g) ||
      (s.pressed g).any fun x => (s.needOnce g x.1 x.2 (s.genOf g x.1 x.2)).any fun i => decide (g.crewOf i = idx))

/-- The effective priority of what has waited since a cycle (R264). (DEDUCED, log entry 56) -/
def State.effective (s : State) (prio : BitVec 2) (since : DWord) : Nat := min 3 (prio.toNat + (s.cycle - since).toNat / 65536)

/-- The keys of a crew to be placed, smaller first: a watchdog that has run out (R290), precedence, effective priority, woken ones
first, earlier start, lower index (R264). (DEDUCED, log entry 55) -/
def State.placingKey (s : State) (g : Grid) (x : Placing) : List Nat :=
  let c := s.crew? x.ref
  let dog : Bool := match c with | some c => c.strands.any fun t => t.deferred.any fun d => decide (d.trap = .watchdog) | none => false
  let since : DWord := match c with | some c => if x.fresh then g.offered else c.since | none => g.offered
  [if dog then 0 else 1, if s.precedence g x.ref.idx then 0 else 1, 3 - s.effective g.prio since, if x.fresh then 1 else 0,
    g.since.toNat, g.id, x.ref.idx]

/-- Keys compared in their order. -/
def keyBefore : List Nat → List Nat → Bool
  | x :: t, y :: u => if x = y then keyBefore t u else decide (x < y)
  | _, _ => false

/-- An undispatched crew can be dispatched: its grid runs and its context is not suspended; in a chained launch every lower crew has
been dispatched (R155); a stolen crew has arrived (R251). -/
def State.dispatchable (s : State) (g : Grid) (idx : Nat) : Bool :=
  decide (g.state = .running) && !g.cut && decide (idx < g.ncrew) && !(g.isDispatched idx) &&
    (!g.record.chained || decide (idx = g.dispatched.length)) &&
    !(g.given.contains idx) &&
    (match s.ctx? g.ctx with | some x => !x.suspended | none => false) &&
    match s.part? g.part with | some p => !p.stopped && !s.halted | none => false

/-- What a crew that is out waits for has come: it is woken, or pre-empted (R39, R288). -/
def Crew.awake (c : Crew) : Bool := (decide (c.state = .swapped) && c.woken) || decide (c.state = .preempted)

/-- A crew that is out can come back: what it waits for has come, or it has precedence; its context runs (R39, R156, R288). -/
def State.returnable (s : State) (c : Crew) : Bool :=
  !c.over && !(s.ctxOff c) && !s.halted &&
    (c.awake || (decide (c.state = .swapped) && match s.grid? c.grid with | some g => s.precedence g c.idx | none => false))

/-- Since when crews can be swapped out, or, out of their cores, be placed: looked at at every turn (R38, R264). -/
def State.lookCrews (s : State) : State :=
  { s with
    crews := s.crews.map fun c =>
      { c with
        eligible := if s.swapEligible c then some (c.eligible.getD s.cycle) else none
        since := if (c.state = .swapped || c.state = .preempted) && !(s.returnable c) then s.cycle else c.since } }

/-- A swapped-out crew is queued for swap-in: it waits from now on, or since it has been dispatchable already (R39, R264). -/
def State.wake (s : State) (r : CrewRef) : State :=
  s.modCrew r fun c => { c with woken := true, since := if s.returnable c then c.since else s.cycle }

/-- WAKE_UP (R39). -/
def execWakeUp (c : CrewRef) (s : State) : Host.Outcome State Fault Refusal :=
  match s.crew? c with
  | some k => .next (if s.wakeDue k then s.wake c else s)
  | none => .next s

/-- The first of a list by a rank of numbers. -/
def leastBy {α : Type} (rank : α → List Nat) : List α → Option α
  | [] => none
  | x :: t =>
    match leastBy rank t with
    | none => some x
    | some y => if keyBefore (rank y) (rank x) then some y else some x

/-- The keys by which crews are placed, smaller first. Crews of one chained launch that come back do so lowest index first (R39, R156):
they stand together at the place of the first of them; those whose watchdog has run out apart, which come first (R290). (DEDUCED, log
entry 55) -/
def State.placedKey (s : State) (g : Grid) (x : Placing) : List Nat :=
  let own := s.placingKey g x
  let group : List (List Nat) :=
    if g.record.chained && !x.fresh then
      ((s.crews.filter fun c => decide (c.grid = g.id) && s.returnable c).map fun c => s.placingKey g { ref := c.ref, fresh := false }).filter
        fun k => k.head? = own.head?
    else []
  ((leastBy id group).getD own) ++ [x.ref.idx]

/-- A crew comes before another (R264). -/
def State.placedBefore (s : State) (g : Grid) (x : Placing) (h : Grid) (y : Placing) : Bool :=
  keyBefore (s.placedKey g x) (s.placedKey h y)

/-- The lowest undispatched crews that a grid offers: one for a chained launch, else the lowest of each owner (R250, R264). -/
def State.freshOf (s : State) (g : Grid) : List Placing :=
  let l := g.undispatched.filter (s.dispatchable g)
  ((List.range g.dieRec.vphys.length).filterMap fun v => l.find? fun i => decide (g.ownerOf i = v)).eraseDups.map fun i =>
    { ref := { grid := g.id, idx := i }, fresh := true }

/-- Every crew that waits for a place. -/
def State.placings (s : State) : List (Grid × Placing) :=
  (s.grids.flatMap fun g => (s.freshOf g).map fun x => (g, x)) ++
    (s.crews.filter s.returnable).filterMap fun c => (s.grid? c.grid).map fun g => (g, { ref := c.ref, fresh := false })

/-! ## Making room (R38, R156) -/

/-- The cores of a physical die that belong to a partition. -/
def State.coresOn (s : State) (part die : Nat) : List Nat :=
  match s.part? part with
  | some p => (span (36 * die) 36).filter p.hasCore
  | none => []

/-- A core admits one more crew of a grid, with `n` strands, once the crews that `gone` names have left. -/
def State.admitsWithout (s : State) (core : Nat) (g : Grid) (n : Nat) (gone : Crew → Bool) : Bool :=
  s.admits core ((s.crewsOn core).filter fun c => !(gone c)) n g.header (crewBytes g)

/-- Crews are swapped out of a core in turn until it admits the grid's crew; none where it does not in the end. One whose image finds no
room then stays (R305); one whose tile operations have still to end, or that a bank's copy holds, is waited for (R127, R242). -/
def State.leaveUntil (s : State) (g : Grid) (n core : Nat) : List Crew → Option State
  | [] => if s.admitsWithout core g n (fun _ => false) then some s else none
  | c :: t =>
    if s.admitsWithout core g n (fun _ => false) then some s
    else if !(s.fitsSaved c) then s.leaveUntil g n core t
    else if s.saveReady c then (s.takeOut c.ref false).leaveUntil g n core t
    else none

/-- A list sorted by a rank. -/
def sortBy {α : Type} (rank : α → List Nat) (l : List α) : List α :=
  let rec insert (x : α) : List α → List α
    | [] => [x]
    | y :: t => if keyBefore (rank y) (rank x) then y :: insert x t else x :: y :: t
  l.foldr insert []

/-- Room by swap-out (R38): victims of the same launch or of equal or lower queue priority; only cores that would admit the crew once
every victim there had left; the longest eligible victim fixes the core. (DEDUCED, log entry 54) -/
def State.swapRoom (s : State) (g : Grid) (n die : Nat) : Option State :=
  let isVictim (c : Crew) : Bool :=
    s.swapEligible c && s.fitsSaved c && match s.grid? c.grid with | some h => decide (h.id = g.id) || decide (h.prio.toNat ≤ g.prio.toNat) | none => false
  let rank (c : Crew) : List Nat := [(c.eligible.getD s.cycle).toNat, c.core, c.slot]
  let cores := (s.coresOn g.part die).filter fun k => (s.crewsOn k).any isVictim && s.admitsWithout k g n isVictim
  let victims := s.crews.filter fun c => isVictim c && cores.contains c.core
  match leastBy rank victims with
  | none => none
  | some v => s.leaveUntil g n v.core (sortBy rank (victims.filter fun c => c.core = v.core))

/-- Crews pre-empted one after the other until the grid's crew finds its room (`room`): the state then, or the last one. One whose image
finds no room then stays (R305). -/
def State.preemptUntil (room : State → Option State) (s : State) : List Crew → State × Bool
  | [] => match room s with | some t => (t, true) | none => (s, false)
  | c :: t => match room s with | some u => (u, true) | none => (if s.fitsSaved c && s.saveReady c then s.takeOut c.ref true else s).preemptUntil room t

/-- Room for a crew with precedence (R156): higher crews of its launch are pre-empted, highest first; then there is swap-out; then
launches of lower priority are pre-empted, each step going on from the one before. (DEDUCED, log entry 62) -/
def State.precedenceRoom (s : State) (g : Grid) (idx n die : Nat) : Option State :=
  let here (s : State) : List Crew := s.crews.filter fun c => (s.coresOn g.part die).contains c.core && s.canPreempt c
  let fits (t : State) : Option State := if (t.coreChoice g n die).isSome then some t else none
  let fitsOrSwaps (t : State) : Option State := match fits t with | some u => some u | none => t.swapRoom g n die
  let prioOf (c : Crew) : Nat := match s.grid? c.grid with | some h => h.prio.toNat | none => 3
  let higher := sortBy (fun c => [2 ^ 32 - c.idx]) ((here s).filter fun c => c.grid = g.id && decide (idx < c.idx))
  let one := s.preemptUntil fits higher
  if one.2 then some one.1
  else
    let lower := sortBy (fun c => [prioOf c, c.core, c.slot])
      ((here one.1).filter fun c => decide (c.grid ≠ g.id) && decide (prioOf c < g.prio.toNat))
    let two := one.1.preemptUntil fitsOrSwaps lower
    if two.2 then some two.1 else none

/-- The strands of a crew that take a place: those that are created, or those that have not ended (R20). -/
def State.strandsFor (s : State) (g : Grid) (x : Placing) : Nat :=
  if x.fresh then (g.strandsAt x.ref.idx).length
  else match s.crew? x.ref with | some c => c.liveStrands.length | none => 0

/-- Room is made for a crew; for one that comes back by its precedence alone, what it waits for having not come, from the cycle after
that in which it left its core (R156). (DESIGN CHOICE, log entry 111) -/
def State.roomIsMade (s : State) (x : Placing) : Bool :=
  x.fresh || match s.crew? x.ref with | some c => c.awake || decide (c.since ≠ s.cycle) | none => false

/-- A state in which a core of the die admits the crew, with that core (R38, R129, R156). -/
def State.roomFor (s : State) (g : Grid) (x : Placing) : Option (State × Nat) :=
  let die := s.dieFor g x
  let n := s.strandsFor g x
  match s.coreChoice g n die with
  | some k => some (s, k)
  | none =>
    let t :=
      if !(s.roomIsMade x) then none
      else if s.precedence g x.ref.idx then s.precedenceRoom g x.ref.idx n die else s.swapRoom g n die
    t.bind fun t => (t.coreChoice g n die).map fun k => (t, k)

/-- No crew that comes before this one on its die can be placed now (R264). -/
def State.isNextPlaced (s : State) (g : Grid) (x : Placing) : Bool :=
  s.placings.all fun y =>
    decide (y.2 = x) || decide (s.dieFor y.1 y.2 ≠ s.dieFor g x) ||
      !(s.placedBefore y.1 y.2 g x) || (s.roomFor y.1 y.2).isNone

/-! ## Placing -/

/-- A crew is dispatched on a core (R26, R28, R149, R158): strands whose items are all absent are not created. -/
def State.dispatchOn (s : State) (g : Grid) (idx core : Nat) : State :=
  let idxs := g.strandsAt idx
  let clusters := s.clustersFor core idxs.length
  let strands := (idxs.zip clusters).map fun x =>
    Strand.start x.1 (presentMask g idx x.1) g.header.entry g.record.args x.2 s.cycle
  let c := Crew.start g idx core (s.freeCrewSlot core) (g.ownerOf idx) strands s.cycle
  -- what a LAUNCH happens before is seen by the child (R269)
  let s := match g.origin with
    | .device _ => s.freshCore core g.ctx
    | _ => s.modCore core fun k => { k with icache := k.icache.filter fun l => l.ctx ≠ g.ctx }
  let s := { s with crews := s.crews ++ [c] }
  let s := s.modGrid g.id fun g =>
    { g with
      dispatched := g.dispatched ++ [idx], transit := g.transit.filter fun x => x.1 ≠ idx
      -- the next crew of a chained launch is dispatchable from now on (R155)
      offered := if g.record.chained then s.cycle else g.offered }
  (s.shrinkL1 core (s.l1Lines core)).moveIn g.id

/-- A crew is placed if it is next and room is found; otherwise nothing happens. -/
def State.place (s : State) (g : Grid) (x : Placing) : State :=
  if !(s.isNextPlaced g x) then s
  else
    match s.roomFor g x with
    | none => s
    | some y => if x.fresh then y.1.dispatchOn g x.ref.idx y.2 else y.1.putOn x.ref y.2

/-- CREW_DISPATCH (R26, R38, R156, R158). -/
def execCrewDispatch (c : CrewRef) (s : State) : Host.Outcome State Fault Refusal :=
  match s.grid? c.grid with
  | some g => .next (if s.dispatchable g c.idx then s.place g { ref := c, fresh := true } else s)
  | none => .next s

/-- A crew that is out comes back. -/
def State.comeBack (s : State) (r : CrewRef) (st : CrewState) : State :=
  match s.crew? r, s.grid? r.grid with
  | some c, some g => if c.state = st && s.returnable c then s.place g { ref := r, fresh := false } else s
  | _, _ => s

/-- CREW_SWAP_IN (R39). -/
def execCrewSwapIn (c : CrewRef) (s : State) : Host.Outcome State Fault Refusal := .next (s.comeBack c .swapped)

/-- RESTORE: a pre-empted crew takes its state again, and its captured entries are re-injected (R288). -/
def execRestore (c : CrewRef) (s : State) : Host.Outcome State Fault Refusal := .next (s.comeBack c .preempted)

/-! ## Stealing (R251, R252) -/

/-- A Clicker has run dry: one of its cores could admit a crew of the grid, and the Clicker owns no undispatched crew of any launch that
this core could run (R251): those of a suspended context count. (DESIGN CHOICE, log entry 107) -/
def State.runsDry (s : State) (g : Grid) (thief : Nat) : Bool :=
  match g.dieRec.vphys[thief]? with
  | none => false
  | some die =>
    let runs (h : Grid) (k i : Nat) : Bool :=
      (s.coresOn h.part die).contains k && s.admits k (s.crewsOn k) (h.strandsAt i).length h.header (crewBytes h)
    (s.coresOn g.part die).any fun k =>
      g.undispatched.any (runs g k) &&
        s.grids.all fun h =>
          decide (h.state ≠ .running) ||
            h.undispatched.all fun i => decide (h.dieRec.vphys.getD (h.ownerOf i) 9 ≠ die) || !(runs h k i)

/-- The crew that a victim gives (R251): none that is still on its way to it. (DESIGN CHOICE, log entry 106) -/
def Grid.givenBy (g : Grid) (victim : Nat) : Option Nat :=
  let alone (i : Nat) : Bool :=
    decide (g.ownerOf i = victim) && !(g.given.contains i) && decide (g.component i = [i])
  let l := g.undispatched
  if g.record.chained then (l.head?).bind fun i => if alone i then some i else none else (l.reverse).find? alone

/-- Dies are asked by ascending hop count, then by number (R251). -/
def askedBefore (g : Grid) (thief a b : Nat) : Bool :=
  let hops (v : Nat) : Nat := hopsBetween (g.dieRec.vphys.getD thief 0) (g.dieRec.vphys.getD v 0)
  decide (hops a < hops b) || (decide (hops a = hops b) && decide (a < b))

/-- A steal request can act: the thief has run dry, every die asked before has refused, and this one gives a crew. -/
def State.stealDue (s : State) (g : Grid) (thief victim : Nat) : Option Nat :=
  if decide (g.state = .running) && decide (thief ≠ victim) && s.runsDry g thief &&
      (List.range g.dieRec.vphys.length).all fun v =>
        decide (v = thief) || !(askedBefore g thief v victim) || (g.givenBy v).isNone
  then g.givenBy victim else none

/-- STEAL_REQUEST: the victim gives a crew up, which the thief owns from then on and which is on its way; it counts for both dies, and
for those that it was stolen from before, until it is dispatched (R251, R252). A refusal changes nothing. -/
def execStealRequest (grid thief victim : Nat) (s : State) : Host.Outcome State Fault Refusal :=
  match s.grid? grid with
  | none => .next s
  | some g =>
    match s.stealDue g thief victim with
    | none => .next s
    | some i =>
      .next (s.modGrid grid fun g =>
        { g with
          transit := ((i, thief) :: (i, victim) :: g.transit).eraseDups
          given := i :: g.given
          stolen := (i, thief) :: g.stolen.filter fun x => x.1 ≠ i })

/-- The crew on its way to a thief. -/
def Grid.onItsWay (g : Grid) (thief : Nat) : Option Nat := g.given.find? fun i => decide (g.ownerOf i = thief)

/-- STEAL_ANSWER: the crew has come to the thief, which can dispatch it (R251). -/
def execStealAnswer (grid thief : Nat) (s : State) : Host.Outcome State Fault Refusal :=
  match (s.grid? grid).bind fun g => g.onItsWay thief with
  | none => .next s
  | some i => .next (s.modGrid grid fun g => { g with given := g.given.filter (· ≠ i) })

/-! ## Ageing and sleeping (R264 to R266) -/

/-- A split of a strand, by its lane, in its grid, crew and strand. -/
def State.splitAt? (s : State) (r : SplitRef) : Option (Grid × Crew × Strand × Path) :=
  match s.grid? r.strand.crew.grid, s.crew? r.strand.crew, s.strand? r.strand with
  | some g, some c, some t => (t.splitOf? r.lane).map fun p => (g, c, t, p)
  | _, _, _ => none

/-- `f` applied to that split. -/
def State.modPath (s : State) (r : SplitRef) (f : Path → Path) : State := s.modStrand r.strand fun t => t.modSplit r.lane f

/-- SPLIT_BOOST: a split ready for 1,024 cycles is raised to class 4 (R265). -/
def execSplitBoost (r : SplitRef) (s : State) : Host.Outcome State Fault Refusal :=
  match s.splitAt? r with
  | some (g, _, t, p) =>
    .next (if !p.asleep && s.splitReady g r.strand t p && decide (1024 ≤ (s.cycle - p.since).toNat) then s.modPath r fun p => { p with boosted := true } else s)
  | none => .next s

/-- PRIORITY_AGEING: effective priorities follow from the cycles waited, as `State.effective` computes them (R264): nothing else
changes. -/
def execPriorityAgeing (_ : CrewRef) (s : State) : Host.Outcome State Fault Refusal := .next s

/-- SLEEP_EXPIRY: a sleeping split is ready from the end of its sleep on (R265, R266). -/
def execSleepExpiry (r : SplitRef) (s : State) : Host.Outcome State Fault Refusal :=
  match s.splitAt? r with
  | some (_, _, _, p) =>
    match p.wait with
    | .sleep due =>
      .next (if due ≤ s.cycle.toNat ∧ p.since.toNat < due then s.modPath r fun p => { p with since := BitVec.ofNat 64 due } else s)
    | _ => .next s
  | none => .next s

/-! ## The watchdog, deferred traps, debuggers (R274, R289, R290) -/

/-- The watchdog of a crew has run out. -/
def Crew.dogDue (c : Crew) : Bool := c.ages && !c.over && decide (c.wdLimit ≤ c.wdCount)

/-- WATCHDOG: the count restarts, every strand that has not ended takes the trap at its next boundary, and a swapped-out crew is
queued for swap-in (R290). -/
def execWatchdog (c : CrewRef) (s : State) : Host.Outcome State Fault Refusal :=
  match s.crew? c with
  | none => .next s
  | some k =>
    if !k.dogDue then .next s
    else
      let bite (t : Strand) : Strand :=
        if t.isOver then t
        else
          { t with
            deferred := t.deferred ++
              [{ trap := .watchdog, handler := k.handler, addr := 0, lane := lowest t.live, pc := 0, mask := t.live, entry := none }] }
      let s := s.modCrew c fun k => { k with wdCount := 0, strands := k.strands.map bite }
      .next (if k.state = .swapped && !k.woken then s.wake c else s)

/-- A deferred trap of a strand can be taken (R274). -/
def State.deferredDue (s : State) (r : StrandRef) : Bool :=
  match s.crew? r.crew, s.strand? r with
  | some c, some t => decide (c.state = .resident) && !c.halted && !(s.ctxOff c) && !t.deferred.isEmpty && !t.busy
  | _, _ => false

/-- DEFERRED_TRAP (R274). -/
def execDeferredTrap (r : StrandRef) (s : State) : Host.Outcome State Fault Refusal :=
  .next (if s.deferredDue r then s.trapFirst r else s)

/-- DEBUGGER_HALT: a crew issues nothing and its watchdog count stands still until it is released (R289). -/
def execDebuggerHalt (c : CrewRef) (halt : Bool) (s : State) : Host.Outcome State Fault Refusal :=
  .next (s.modCrew c fun k => { k with halted := halt })

/-! ## Kills (R271) -/

/-- The crew is killed: its strands end, its copies are cancelled, its tile operations and follow-on products are discarded. -/
def State.killCrew (s : State) (r : CrewRef) : State :=
  match s.crew? r with
  | none => s
  | some c =>
    let s := (List.range 64).foldl
      (fun s n => match (c.tag n).op with | some _ => s.cancelOp r n | none => s) s
    let s := s.modCore c.core fun k => { k with tileQ := k.tileQ.filter fun o => o.crew ≠ r }
    let s := s.modCrew r fun c =>
      { c with killed := true, killAsked := false, follows := [], wakes := [], strands := c.strands.map Strand.halt }
    let s := s.modGrid r.grid fun g => { g with killed := true }
    let s := s.barrierSweep r.grid
    (s.tidyChain r.grid).settleCrew r

/-- ABORT_KILL (R271). -/
def execAbortKill (c : CrewRef) (s : State) : Host.Outcome State Fault Refusal :=
  match s.crew? c with
  | some k => .next (if k.killAsked && decide (k.state ≠ .ended) then s.killCrew c else s)
  | none => .next s

/-! ## Hand-offs (R148 to R154) -/

/-- HANDOFF_DELIVERY (R148, R149). -/
def execHandoffDelivery (grid item : Nat) (slot : BitVec 3) (gen : Nat) (s : State) : Host.Outcome State Fault Refusal :=
  match (s.grid? grid).bind fun g => (g.pub? item slot.toNat gen).map fun p => (g, p) with
  | some x => .next (if s.deliveryDue x.1 x.2 then s.deliver grid item slot.toNat gen else s)
  | none => .next s

/-- HELD_PATH_READY: held paths of the stack that have become ready become splits (R154). -/
def execHeldPathReady (r : StrandRef) (s : State) : Host.Outcome State Fault Refusal := .next ((s.settleStack r).swapHeld r)

/-- BACK_PRESSURE_PUBLISH: a lane held at its HPUT publishes once a unit is free: its path issues (R143, R151). -/
def execBackPressurePublish (r : SplitRef) (s : State) : Host.Outcome State Fault Refusal :=
  match s.splitAt? r with
  | some (_, _, _, p) =>
    if p.held = .backPressure && s.pathReady r.strand p then
      let x := s.beginIssue r
      match x.2 with
      | some (.hput e) => execHput e x.1
      | _ => .next { x.1 with cur := none }
    else .next s
  | none => .next s

/-! ## Phases and watched words (R195, R270) -/

/-- PHASE_COUNTER_ADVANCE (R195). -/
def execPhaseCounterAdvance (grid vdie : Nat) (s : State) : Host.Outcome State Fault Refusal :=
  match s.grid? grid with
  | some g =>
    .next (if decide (vdie < g.dieRec.vphys.length) && s.counterReady g vdie then
        s.modGrid grid fun g => { g with counters := modNth g.counters vdie (· + 1) }
      else s)
  | none => .next s

/-- A split in WAITM is to look again: its line has been written, or 65,536 cycles have passed (R270). -/
def State.recheckDue (s : State) (c : Crew) (p : Path) : Bool :=
  match p.wait with
  | .waitm line inL1 count => decide (s.writesOf c.core line inL1 ≠ count) || decide (65536 ≤ (s.cycle - p.since).toNat)
  | _ => false

/-- WAITM_RECHECK (R270). -/
def execWaitmRecheck (r : SplitRef) (s : State) : Host.Outcome State Fault Refusal :=
  match s.splitAt? r with
  | some (_, c, _, p) => .next (if s.recheckDue c p then s.modPath r fun p => { p with wait := .reread, since := s.cycle } else s)
  | none => .next s

end Sys2Proof.Machine
end

