-- ==== Sys2Proof/Machine/Control.lean ====
section
/-! DEFINITION. Control flow: row 0x0 (R97, R327 to R329, R339, R371, R378, R393). -/
namespace Sys2Proof.Machine

/-- NOP (R378). -/
def execNop (g : Guard) (s : State) : Host.Outcome State Fault Refusal := issue (Form.plain 0x00 g 1) Ctx.nothing s

/-- Own address + `d` (R97). -/
def Ctx.rel (c : Ctx) (d : Word) : Nat → Word := fun _ => c.iss.pc + d

/-- The displacement of the base form: 4 × OFF, signed (R97). -/
def offBytes (off : BitVec 18) : Word := off.signExtend 32 <<< 2

/-- A branch of the lanes of Active() (R329). -/
def branchBody (dst : Ctx → Nat → Word) (c : Ctx) : Eff := .go c.s (some (dst c)) 0

/-- BRA (R329). -/
def execBra (g : Guard) (off : BitVec 18) (s : State) : Host.Outcome State Fault Refusal :=
  issue (Form.plain 0x01 g 1) (branchBody fun c => c.rel (offBytes off)) s
/-- BRA with a literal displacement (R329). -/
def execBraLit (g : Guard) (x : DWord) (s : State) : Host.Outcome State Fault Refusal :=
  issue (Form.plain 0x01 g 3) (branchBody fun c => c.rel (loWord x)) s

/-- The register-held target of a lane (R327). -/
def Ctx.regTarget (c : Ctx) (l : Nat) : Word := loWord (c.a l)

/-- The target of a lane is not a multiple of 4. -/
def Ctx.oddTarget (c : Ctx) (l : Nat) : Bool := decide ((c.regTarget l).toNat % 4 ≠ 0)

/-- BRX (R329). -/
def execBrx (e : Ext) (s : State) : Host.Outcome State Fault Refusal :=
  issue (Form.ofExt 0x02 e)
    (fun c =>
      match firstLane c.act c.oddTarget with
      | some l => c.raise .misalign ((c.regTarget l).setWidth 64) l
      | none => branchBody Ctx.regTarget c) s

/-- The checks of CALL and CALLX, lane by lane (R329), then R206 for the push. `reg`: the target is register-held. -/
def Ctx.callTrap (c : Ctx) (reg : Bool) : Option (Trap × DWord × Nat) :=
  match firstLane c.act fun l => (reg && c.oddTarget l) || decide (c.cp l < 4) with
  | some l =>
    if reg && c.oddTarget l then some (.misalign, (c.regTarget l).setWidth 64, l)
    else some (.privateLimit, BitVec.ofInt 64 (c.cp l - 4), l)
  | none => (firstLane c.act (c.locked true)).map fun l => (.viewLocked, BitVec.ofInt 64 (c.ea l), l)

/-- The call pointer of the lanes of Active() moved by `d` bytes down (R328). -/
def Ctx.moveCp (c : Ctx) (s : State) (d : Word) : State :=
  c.onStrand s fun t => { t with depth := (lanesOf c.act).foldl (fun m l => SMap.put 0 m l (SMap.look 0 m l + d)) t.depth }

/-- CALL and CALLX: the return addresses are pushed by plain private stores, which fly where a page has no translation; then the
branch (R283, R329). One that is re-injected for its store alone makes only that. -/
def callBody (reg : Bool) (dst : Ctx → Nat → Word) (c : Ctx) : Eff :=
  if c.half then storeBody c
  else
    match c.callTrap reg with
    | some (t, a, l) => c.raise t a l
    | none =>
      match storeGo c with
      | .go s _ n => .go (c.moveCp s 4) (some (dst c)) n
      | e => e

/-- CALL (R329). -/
def execCall (g : Guard) (off : BitVec 18) (s : State) : Host.Outcome State Fault Refusal :=
  issue (Form.plain 0x03 g 1) (callBody false fun c => c.rel (offBytes off)) s
/-- CALL with a literal displacement (R329). -/
def execCallLit (g : Guard) (x : DWord) (s : State) : Host.Outcome State Fault Refusal :=
  issue (Form.plain 0x03 g 3) (callBody false fun c => c.rel (loWord x)) s
/-- CALLX (R329). -/
def execCallx (e : Ext) (s : State) : Host.Outcome State Fault Refusal :=
  issue (Form.ofExt 0x04 e) (callBody true Ctx.regTarget) s

/-- RET on translated lanes: the return addresses are loaded, checked, and popped (R393). Where some are uncorrectable, CP is
unchanged in every lane: RET is the trapping entry of the affected lanes (R283), and the others stand at it still. -/
def retLanes (c : Ctx) (s : State) (lk : List LaneKeys) : Eff :=
  let x := c.loadLanes s lk
  let tab := SMap.putAll 0 [] x.2.1
  let dst (l : Nat) : Word := loWord (SMap.look 0 tab l)
  if x.2.2 ≠ 0 then
    .done (c.leave (c.deferOn x.1 .uncorrectable x.2.2 (c.va (lowest x.2.2))) (c.act &&& ~~~x.2.2) id none c.beats)
  else
    match firstLane c.act fun l => decide ((dst l).toNat % 4 ≠ 0) with
    | some l => .trap .misalign ((dst l).setWidth 64) l x.1
    | none => .go (c.moveCp x.1 (-4)) (some dst) 0

/-- The cycle and the number of the first rejection of a RET (R168). -/
def Ctx.rejection (c : Ctx) (s : State) : DWord × Nat :=
  match c.parkedOn with
  | some (.entry since num) => (since, num)
  | _ => (s.cycle, s.nextId)

/-- RET with its pages translated: its load goes on, or finds no miss-status entry for a line that is not at hand, and the strand waits;
aged, it goes before every younger access (R168). -/
def retLoad (c : Ctx) (s : State) (lk : List LaneKeys) : Eff :=
  let x := c.rejection s
  if c.entriesOf s lk fun n => if s.isAged x.1 then decide (n < x.2) else true then retLanes c s lk else .stay s (.entry x.1 x.2)

/-- RET (R393). (DEDUCED, log entry 47) -/
def execRet (g : Guard) (s : State) : Host.Outcome State Fault Refusal :=
  issue (Form.plain 0x05 g 1)
    (fun c =>
      match firstLane c.act fun l => decide ((c.g.header.privBytes : Int) < c.cp l + 4) with
      | some l => c.raise .privateLimit (BitVec.ofInt 64 (c.cp l)) l
      | none =>
        match firstLane c.act (c.locked false) with
        | some l => c.raise .viewLocked (BitVec.ofInt 64 (c.ea l)) l
        | none =>
          if c.overlaps then .stay c.s .retry
          else c.whole .read (lanesOf c.act) (retLoad c)) s

/-- A strand that has ended keeps of its accesses in flight those that write memory (R260, R339). -/
def Strand.atEnd (t : Strand) : Strand :=
  if t.isOver then { t with inflight := t.inflight.filter InFlight.outlives, deferred := [] } else t

/-- EXIT (R339). -/
def execExit (g : Guard) (s : State) : Host.Outcome State Fault Refusal :=
  issue (Form.plain 0x06 g 1)
    (fun c => .go (((c.s.endLanes c.r c.act).modStrand c.r Strand.atEnd).afterEnd c.r) none 0) s

/-- The counter that LOOP leaves (R371). -/
def Ctx.counted (c : Ctx) : Word :=
  match c.f.e.d with
  | .s n => c.t.sAt n.toNat - 1
  | _ => 0

/-- LOOP: one decrement an issue; the active lanes go back while the counter is not 0 (R371). -/
def execLoop (e : Ext) (s : State) : Host.Outcome State Fault Refusal :=
  issue (Form.ofExt 0x07 e)
    (fun c =>
      let s := c.put c.s fun _ => c.counted.setWidth 64
      if c.counted = 0 then .go s none 0 else .go s (some (c.rel (c.f.e.imm.signExtend 32 <<< 2))) 0) s

end Sys2Proof.Machine
end

