-- ==== Sys2Proof/Machine/Convert.lean ====
section
/-! DEFINITION. The conversions: cells 0x55 and 0x56 (R87, R335, R336, R345, R346). -/
namespace Sys2Proof.Machine

/-- FCVT and CVT: MOD holds the source type, AUX8[0] is .sat (R336, R346). -/
def convertBody (c : Ctx) : Eff :=
  c.writeF 4 fun l => convert c.f.e.ty (Ty.ofCode c.f.e.mod.toNat) c.rm (c.f.e.aux.getLsbD 0) (c.a l).toNat

/-- FCVT (R346). -/
def execFcvt (e : Ext) (s : State) : Host.Outcome State Fault Refusal := issue (Form.ofExt 0x55 e) convertBody s
/-- CVT (R336). -/
def execCvt (e : Ext) (s : State) : Host.Outcome State Fault Refusal := issue (Form.ofExt 0x56 e) convertBody s

end Sys2Proof.Machine
end

