-- ==== Sys2Proof/Machine/Front.lean ====
section
/-! DEFINITION. The command front end: queues and their packets, the start and the completion of launches, graphs, launches made by
crews, and the destroying of queues (R132 to R135, R145, R254 to R264, R267, R271, R272, R285, R302). -/
namespace Sys2Proof.Machine

/-! ## Access to memory (R191, R285) -/

/-- Bytes changed by the front end: read with the right, and written back as `f` makes them; `sync` leaves a .sys scope record on
the lines (R191). The sum's right side is a fault. (DEDUCED, log entry 24) -/
def State.frontPut (s : State) (ctx : Nat) (a : Right) (sync : Bool) (va n : Nat) (f : List Byte → List Byte) :
    State ⊕ (Nat × BitVec 8) :=
  match s.frontKeys ctx a (span va n) with
  | .inr x => .inr x
  | .inl ks =>
    let keys := ks.map (·.1)
    let s := s.writeBytes (keys.zip (f (keys.map s.memByte)))
    .inl (if sync then
        (ks.map fun k => (k.1 / 128, k.2)).eraseDups.foldl
          (fun s k => if s.hasRecord k.2.target.toNat then (s.l2Access ctx k.1 k.2).setRecord k.1 .sys else s) s
      else s)

/-- Bytes that the front end reads before it changes them lie in a poisoned line, as far as they are translated (R298). -/
def State.frontBad (s : State) (ctx : Nat) (vas : List Nat) : Bool :=
  match s.frontKeys ctx .both vas with
  | .inl ks => ks.any fun k => s.poisoned (k.1 / 128)
  | .inr _ => false

/-- A front-end access parks on a fault: SOURCE 5, CREW 0 (R284, R285). -/
def State.frontFault (s : State) (q : Queue) (kernid : DWord) (x : Nat × BitVec 8) (a : Right) (w : FrontWork) : State :=
  let y := s.postFault
    { id := 0, part := q.part, va := BitVec.ofNat 64 x.1, kernid := kernid, ctx := q.ctx, vdie := 0, kind := false,
      access := a.code, source := 5, reason := x.2, crew := 0, resume := 0, written := false }
  y.1.modQueue q.id fun q => { q with parked := some (y.2, w) }

/-! ## Packets of a queue -/

/-- A packet of a queue changed. -/
def State.modPacket (s : State) (qid : Nat) (idx : Word) (f : Packet → Packet) : State :=
  s.modQueue qid fun q => { q with packets := modWhere (fun p => p.idx = idx) f q.packets }

/-- A packet of a queue that has been read. -/
def Queue.packet? (q : Queue) (idx : Word) : Option Packet := q.packets.find? fun p => p.idx = idx

/-- What lies before a packet in its queue. -/
def Queue.before (q : Queue) (p : Packet) : List Packet := q.packets.takeWhile fun x => x.idx ≠ p.idx

/-- A packet may not start yet: it waits for every earlier packet, under WAITPREV or for a change of phase, or for a BARRIER_AND
(R255, R257). -/
def Queue.holds (q : Queue) (p : Packet) : Bool :=
  ((p.waitPrev || decide (p.phase ≠ q.phase)) && !(q.before p).isEmpty) || (q.before p).any fun x => decide (x.kind = 4)

/-- A completed packet leaves; what it held becomes ready now (R264). -/
def Queue.without (q : Queue) (now : DWord) (idx : Word) : Queue :=
  let q' := { q with packets := q.packets.filter fun p => p.idx ≠ idx }
  { q' with packets := modWhere (fun p => q.holds p && !(q'.holds p)) (fun p => { p with since := now }) q'.packets }

/-- The completion record of a settled packet (R256). -/
def recordBytes (p : Packet) (status dispatched completed : Nat) : List Byte :=
  toBytes 4 p.userTag.toNat ++ toBytes 4 (status + 256 * p.kind.toNat) ++ toBytes 4 p.idx.toNat ++ toBytes 4 0 ++
    toBytes 8 dispatched ++ toBytes 8 completed

/-- The first settled packet of a queue, with STATUS, DISPATCHED and COMPLETED. -/
def firstSettled : List Packet → Option (Packet × Nat × Nat × Nat)
  | [] => none
  | p :: t => match p.state with | .settled a b c => some (p, a, b, c) | _ => firstSettled t

/-- The completion records of settled packets are written, one after the other, while none parks (R256). -/
def State.flush (s : State) (qid : Nat) : Nat → State
  | 0 => s
  | n + 1 =>
    match s.queue? qid with
    | none => s
    | some q =>
      match q.parked, firstSettled q.packets with
      | none, some (p, x) =>
        let at1 := q.cring.toNat + 32 * (p.idx.toNat % 2 ^ q.logSize)
        match s.frontPut q.ctx .write false at1 32 fun _ => recordBytes p x.1 x.2.1 x.2.2 with
        | .inr f => s.frontFault q 0 f .write (.recording p.idx)
        | .inl s => (s.modQueue qid fun q => q.without s.cycle p.idx).flush qid n
      | _, _ => s

/-- Every completion record that can be written is. -/
def State.flushAll (s : State) (qid : Nat) : State :=
  match s.queue? qid with
  | some q => s.flush qid q.packets.length
  | none => s

/-- A packet is over. -/
def State.settlePacket (s : State) (qid : Nat) (idx : Word) (status dispatched completed : Nat) : State :=
  (s.modPacket qid idx fun p => { p with state := .settled status dispatched completed }).flushAll qid

/-- A packet fails: its queue stops, and its record carries STATUS 5 (R255, R285). -/
def State.failPacket (s : State) (qid : Nat) (idx : Word) (dispatched completed : Nat) : State :=
  (s.modQueue qid fun q => { q with stopped := true }).settlePacket qid idx 5 dispatched completed

/-! ## Launches that have been read -/

/-- A header that has not been read. -/
def Header.unread : Header :=
  { entry := 0, handler := 0, vregs := 0, sregs := 0, tiles := 0, views := 0, localBytes := 0, privBytes := 0, kernid := 0,
    chain := List.replicate 8 (0, 0) }

/-- The grid of a launch record: `st` says whether it waits for its start checks, failed its record checks, or is discarded. -/
def State.addGrid (s : State) (q : Queue) (o : Origin) (r : LaunchRec) (prio : BitVec 2) (phase : BitVec 16) (st : GridState) : State :=
  let g : Grid :=
    { id := s.nextGrid, origin := o, state := st, record := r, ctx := q.ctx, part := q.part, prio := prio, phase := phase,
      header := Header.unread, dieRec := { vphys := [], glog := 0, share := [] }, ncrew := crewCount r, cohorts := [],
      chain := Chain.off, barriers := [], dispatched := [], stolen := [], transit := [], ended := 0, trapped := false,
      killed := false, abort := false, cut := false, counters := [], acts := 0, since := s.cycle, headerRead := false, given := [], offered := s.cycle }
  { s with grids := s.grids ++ [g], nextGrid := s.nextGrid + 1 }

/-- Where a host launch stands once its record has been read (R259). -/
def recordState (b : List Byte) : GridState := if recordOk b then .waiting else .bad

/-! ## Graphs (R262, R263) -/

/-- A graph of a queue's packet changed. -/
def State.modGraph (s : State) (qid : Nat) (idx : Word) (f : Graph → Graph) : State :=
  s.modPacket qid idx fun p => { p with graph := p.graph.map f }

/-- The limits of R262 on a node beside its launch record. -/
def nodeOk (b : List Byte) : Bool :=
  let n := field b 0x42 1
  decide (field b 0x40 2 < 4096) && decide (n ≤ 30) && decide (field b 0x43 1 = 0) &&
    (List.range 30).all fun i => decide (field b (0x44 + 2 * i) 2 < if i < n then 4096 else 1)

/-- A join node: KERNEL 0 and every other field of the record zero (R262). -/
def isJoin (b : List Byte) : Bool := zeroBytes b 0 0x40 && nodeOk b

/-- The successors of a node. -/
def succsOf (b : List Byte) : List Nat := (List.range (min 30 (field b 0x42 1))).map fun i => field b (0x44 + 2 * i) 2 % 4096

/-- The address of a node's counter. -/
def Graph.ctr (gr : Graph) (n : Nat) : Nat := gr.counters.toNat + 2 * n

/-- The counters of a completed node's successors go down; a node whose counter reaches zero becomes startable (R263). Nothing is
done where a counter does not translate. -/
def State.countDown (s : State) (ctx : Nat) (gr : Graph) (b : List Byte) : (State × Graph) ⊕ (Nat × BitVec 8) :=
  let succs := succsOf b
  let good := succs.filter fun n => decide (n < gr.nnodes)
  match s.frontKeys ctx .both (good.map gr.ctr) with
  | .inr f => .inr f
  | .inl ks =>
    let gr := if good.length < succs.length then { gr with bad := true } else gr
    .inl ((good.zip ks).foldl
      (fun x y =>
        let v := x.1.readNat y.2.1 2
        if v = 0 then (x.1, { x.2 with bad := true })
        else
          (x.1.writeBytes ((span y.2.1 2).zip (toBytes 2 (v - 1))),
            if v = 1 then { x.2 with startable := x.2.startable ++ [y.1] } else x.2))
      (s, gr))

/-- A counter that is to go down is uncorrectable (R298). -/
def State.countersBad (s : State) (ctx : Nat) (gr : Graph) (b : List Byte) : Bool :=
  (succsOf b).any fun n => decide (n < gr.nnodes) && s.frontBad ctx (span (gr.ctr n) 2)

/-- The STATUS of a graph that is over (R256, R263, R271). (DEDUCED, log entry 25) -/
def Graph.status (gr : Graph) : Nat :=
  if gr.trapped then 3
  else if gr.cut && (gr.short || decide (gr.completed < gr.nnodes)) then 1
  else if gr.bad || decide (gr.completed < gr.nnodes) then 2
  else 0

/-- A graph goes on: startable nodes start; a join node completes when it starts; with none running or startable the packet is
over (R263). -/
def State.pumpGraph (s : State) (qid : Nat) (idx : Word) : Nat → State
  | 0 => s
  | fuel + 1 =>
    match s.queue? qid with
    | none => s
    | some q =>
      match q.parked, q.packet? idx with
      | none, some p =>
        match p.state, p.graph with
        | .started, some gr =>
          match (if gr.cut then [] else gr.startable) with
          | [] => if gr.running = 0 then s.settlePacket qid idx gr.status gr.started gr.completed else s
          | n :: rest =>
            match s.frontRead q.ctx (gr.table.toNat + 128 * n) 128 with
            | .fault va r => s.frontFault q 0 (va, r) .read (.reading (some idx))
            | .bad => s.failPacket qid idx gr.started gr.completed
            | .ok b =>
              if isJoin b then
                if s.countersBad q.ctx gr b then s.failPacket qid idx gr.started gr.completed
                else
                match s.countDown q.ctx { gr with startable := rest, started := gr.started + 1, completed := gr.completed + 1 } b with
                | .inr f => s.frontFault q 0 f .both (.acting idx)
                | .inl x => (x.1.modGraph qid idx fun _ => x.2).pumpGraph qid idx fuel
              else
                let st := if decide (field b 0 8 ≠ 0) && nodeOk b then recordState b else .bad
                ((s.addGrid q (.node qid idx n) (Machine.recordOf b) q.prio p.phase st).modGraph qid idx fun gr =>
                    { gr with startable := rest, started := gr.started + 1, running := gr.running + 1 }).pumpGraph qid idx fuel
        | _, _ => s
      | _, _ => s

/-- The predecessor counts of a node table. -/
def State.predsOf (s : State) (ctx : Nat) (gr : Graph) : List Nat → Got (List Nat)
  | [] => .ok []
  | n :: t =>
    (s.frontRead ctx (gr.table.toNat + 128 * n + 0x40) 2).bind fun b =>
      (s.predsOf ctx gr t).bind fun l => .ok (field b 0 2 % 4096 :: l)

/-- A GRAPH packet starts: the counters take their predecessor counts, and the nodes without predecessors start (R263). -/
def State.startGraph (s : State) (q : Queue) (p : Packet) (gr : Graph) : State :=
  match s.predsOf q.ctx gr (List.range gr.nnodes) with
  | .fault va r => s.frontFault q 0 (va, r) .read (.acting p.idx)
  | .bad => s.failPacket q.id p.idx 0 0
  | .ok preds =>
    match s.frontPut q.ctx .write false gr.counters.toNat (2 * gr.nnodes) fun _ => preds.flatMap (toBytes 2) with
    | .inr f => s.frontFault q 0 f .write (.acting p.idx)
    | .inl s =>
      let first := (List.range gr.nnodes).filter fun n => decide (preds.getD n 0 = 0)
      (s.modPacket q.id p.idx fun p =>
        { p with state := .started, graph := some { gr with startable := first } }).pumpGraph q.id p.idx (2 * gr.nnodes + 1)

/-! ## Starting packets (R255, R257) -/

/-- The phase changes: every core of the partition writes back and invalidates what it holds of the context (R257). -/
def State.changePhase (s : State) (q : Queue) (phase : BitVec 16) : State :=
  let cores := match s.part? q.part with | some p => (List.range s.cores.length).filter p.hasCore | none => []
  let s := cores.foldl
    (fun s k =>
      (((s.invalidate k fun l => l.ctx = q.ctx).drain k).modCore k fun c =>
        { c with kcache := c.kcache.filter fun l => l.ctx ≠ q.ctx, opbuf := c.opbuf.filter fun l => l.ctx ≠ q.ctx }))
    s
  s.modQueue q.id fun q => { q with phase := phase }

/-- A SIGNAL that is first of its queue makes its store or its add, as a release at .sys (R255). -/
def State.doSignal (s : State) (q : Queue) (p : Packet) : State :=
  let a : Right := if p.add then .both else .write
  if p.add && s.frontBad q.ctx (span p.addr.toNat 8) then s.failPacket q.id p.idx 0 0
  else
  match s.frontPut q.ctx a true p.addr.toNat 8 fun b =>
      toBytes 8 ((if p.add then BitVec.ofNat 64 (fromBytes b) + p.value else p.value).toNat) with
  | .inr f => s.frontFault q 0 f a (.acting p.idx)
  | .inl s => s.settlePacket q.id p.idx 0 0 0

/-- A queue's started SIGNAL acts once every earlier packet has completed. -/
def State.signalDue (s : State) (qid : Nat) : Option (Queue × Packet) :=
  match s.queue? qid with
  | none => none
  | some q =>
    match q.parked, q.packets.head? with
    | none, some p => if p.kind = 3 && decide (p.state = .started) then some (q, p) else none
    | _, _ => none

/-- The SIGNAL that is due acts. -/
def State.trySignal (s : State) (qid : Nat) : State :=
  match s.signalDue qid with
  | some x => s.doSignal x.1 x.2
  | none => s

/-- A packet starts. -/
def State.startPacket (s : State) (q : Queue) (p : Packet) : State :=
  let s := if p.phase = q.phase then s else s.changePhase q p.phase
  match p.kind.toNat with
  | 1 =>
    match s.frontRead q.ctx p.addr.toNat 64 with
    | .fault va r => s.frontFault q 0 (va, r) .read (.reading (some p.idx))
    | .bad => s.failPacket q.id p.idx 0 0
    | .ok b =>
      (s.addGrid q (.packet q.id p.idx) (Machine.recordOf b) q.prio p.phase (recordState b)).modPacket q.id p.idx fun p =>
        { p with state := .started, userTag := (Machine.recordOf b).userTag }
  | 2 => match p.graph with | some gr => s.startGraph q p gr | none => s
  | _ => (s.modPacket q.id p.idx fun p => { p with state := .started }).trySignal q.id

/-! ## Reading packets (R254, R255) -/

/-- How many packets WPTR makes valid from RPTR on, modulo 2^32 (R254). -/
def Queue.ahead (q : Queue) : Nat := (q.wptr - q.rptr).toNat

/-- The ring would hold more packets than it has slots (R254). -/
def Queue.overrun (q : Queue) : Bool := decide (2 ^ q.logSize < q.ahead) && decide (q.ahead ≤ 2147483648)

/-- The packet that waits to start. -/
def Queue.waiting? (q : Queue) : Option Packet := q.packets.find? fun p => decide (p.state = .waiting)

/-- The front end works for the queue: it is neither stopped nor destroyed nor parked, its partition runs, and no doorbell of it rings in
this very cycle, which a destroy would undo (R302). (DEDUCED, log entry 21) A packet that waits when its queue stops never starts.
(DESIGN CHOICE, log entry 108) -/
def State.frontOpen (s : State) (q : Queue) : Bool :=
  (match q.rung with | some x => decide (x.1 ≠ s.cycle) | none => true) &&
  decide (q.destroy = .none) && !q.stopped && q.parked.isNone && !s.halted &&
    match s.part? q.part with | some p => !p.stopped | none => false

/-- A further packet can be read. (DESIGN CHOICE, log entry 20) -/
def Queue.canRead (q : Queue) : Bool := decide (1 ≤ q.ahead) && decide (q.ahead ≤ 2 ^ q.logSize) && q.waiting?.isNone

/-- A key by which the front end picks what it does next, smaller first: effective priority, host packets before die queues,
earlier readiness (R264, R272); none where the queue has nothing ready. (DEDUCED, log entry 22) -/
def State.frontKey (s : State) (q : Queue) : Option (List Nat) :=
  if !(s.frontOpen q) then none
  else
    match q.waiting? with
    | some p => if q.holds p then none else some [3 - s.effective q.prio p.since, 0, p.since.toNat, q.id]
    | none => if q.canRead then some [3 - s.effective q.prio q.readable, 0, q.readable.toNat, q.id] else none

/-- The key of a die queue's head: it has waited since it came to the head (R264, R272). -/
def State.dieKey (s : State) (d : Nat) (e : LaunchEntry) : List Nat := [3 - s.effective e.prio e.since, 1, e.since.toNat, d]

/-- The keys of all that is ready. -/
def State.frontKeysAll (s : State) : List (List Nat) :=
  s.queues.filterMap s.frontKey ++
    (List.range s.dies.length).filterMap fun d => ((s.die? d).bind fun x => x.queue.head?).map (s.dieKey d)

/-- Nothing ready comes before a key. -/
def State.frontFirst (s : State) (k : List Nat) : Bool := s.frontKeysAll.all fun x => !(keyBefore x k)

/-- The queue is next. -/
def State.queueFirst (s : State) (q : Queue) : Bool := match s.frontKey q with | some k => s.frontFirst k | none => false

/-- The bytes of the packet at RPTR. -/
def State.packetBytes (s : State) (q : Queue) (idx : Word) : Got (List Byte) :=
  s.frontRead q.ctx (q.ring.toNat + 64 * (idx.toNat % 2 ^ q.logSize)) 64

/-- A packet keeps the limits of its row (R255). (DEDUCED, log entry 27) -/
def packetOk (b : List Byte) : Bool :=
  decide (field b 0 4 / 2 ^ 9 % 128 = 0) &&
    match field b 0 1 with
    | 1 => zeroBytes b 4 4 && decide (field b 8 8 % 64 = 0) && zeroBytes b 0x10 0x30
    | 2 =>
      let n := field b 0x18 2
      decide (field b 8 8 % 128 = 0) && decide (field b 0x10 8 % 4 = 0) && decide (1 ≤ n) && decide (n ≤ 4096) && zeroBytes b 0x1A 0x26
    | 3 => decide (field b 8 8 % 8 = 0) && decide (field b 0x18 1 < 2) && zeroBytes b 0x19 0x27
    | 4 =>
      let n := field b 8 1
      decide (1 ≤ n) && decide (n ≤ 3) &&
        (List.range n).all fun e => decide (field b (0x10 + 16 * e) 8 % 4 = 0) && zeroBytes b (0x1C + 16 * e) 4
    | _ => false

/-- A packet from its bytes. -/
def packetOf (idx : Word) (b : List Byte) (now : DWord) : Packet :=
  let kind := field b 0 1
  { idx := idx, kind := BitVec.ofNat 8 kind, waitPrev := decide (field b 1 1 % 2 = 1), phase := BitVec.ofNat 16 (field b 2 2),
    userTag := BitVec.ofNat 32 (field b 4 4), addr := BitVec.ofNat 64 (field b 8 8), value := BitVec.ofNat 64 (field b 0x10 8),
    add := decide (field b 0x18 1 % 2 = 1)
    watch := if kind = 4 then
        (List.range (field b 8 1 % 4)).map fun e =>
          (BitVec.ofNat 64 (field b (0x10 + 16 * e) 8), BitVec.ofNat 32 (field b (0x18 + 16 * e) 4))
      else []
    graph := if kind = 2 then
        some { table := BitVec.ofNat 64 (field b 8 8), counters := BitVec.ofNat 64 (field b 0x10 8), nnodes := field b 0x18 2,
               started := 0, completed := 0, running := 0, startable := [], bad := false, trapped := false, cut := false,
               short := false }
      else none
    state := .waiting, since := now }

/-- A packet that could not be read: KIND and USERTAG 0 (R256). -/
def noPacket (idx : Word) (now : DWord) : Packet := packetOf idx [] now

/-- A packet taken from the ring: RPTR advances, which the device writes into the descriptor (R254). -/
def State.pushPacket (s : State) (qid : Nat) (p : Packet) : State :=
  let s := s.modQueue qid fun q => { q with rptr := q.rptr + 1, packets := q.packets ++ [p], readable := s.cycle }
  match s.queue? qid with
  | some q => s.writeNat (q.desc.toNat + 0x14) 4 q.rptr.toNat
  | none => s

/-- The packet at RPTR cannot be read: its completion record alone tells of it, and the queue stops (R256, R285). -/
def State.losePacket (s : State) (q : Queue) : State :=
  (s.pushPacket q.id (noPacket q.rptr s.cycle)).failPacket q.id q.rptr 0 0

/-- An uncorrectable line of a ring is met: it is an error of the partition (R299). -/
def State.meetRing (s : State) (q : Queue) : State :=
  match s.walk q.ctx (q.ring.toNat + 64 * (q.rptr.toNat % 2 ^ q.logSize)) .read with
  | .inl x => s.meet { line := physKey x (q.ring.toNat + 64 * (q.rptr.toNat % 2 ^ q.logSize)) / 128, dirtyOf := none, firmware := none }
  | .inr _ => s

/-- The next packet of a queue is read if it is of a kind, and starts unless it must wait (R255, R257). (DEDUCED, log entry 26) -/
def State.takePacket (s : State) (qid : Nat) (kind : Nat) : State :=
  match s.queue? qid with
  | none => s
  | some q =>
    if !(s.frontOpen q && q.canRead && s.queueFirst q) then s
    else
      match s.packetBytes q q.rptr with
      | .fault va r => s.frontFault q 0 (va, r) .read (.reading none)
      | .bad => (s.meetRing q).losePacket q
      | .ok b =>
        if decide (field b 0 1 = kind) && packetOk b then
          let p := packetOf q.rptr b s.cycle
          let s := s.pushPacket qid p
          match s.queue? qid with
          | some q => if q.holds p then s else s.startPacket q p
          | none => s
        else s

/-- GRID (R255, R259). -/
def execGrid (q : Nat) (s : State) : Host.Outcome State Fault Refusal := .next (s.takePacket q 1)

/-- The first started graph of a queue that has a node to start or is over. -/
def Queue.graphDue (q : Queue) : Option Packet :=
  if q.parked.isSome then none
  else
    q.packets.find? fun p =>
      decide (p.state = .started) && match p.graph with
        | some gr => decide (gr.running = 0) || !(gr.cut || gr.startable.isEmpty)
        | none => false

/-- A queue's graph that has work goes on (R263). -/
def State.graphOn (s : State) (qid : Nat) : State :=
  match (s.queue? qid).bind Queue.graphDue with
  | some p => s.pumpGraph qid p.idx (2 * (match p.graph with | some gr => gr.nnodes | none => 0) + 1)
  | none => s

/-- GRAPH: the packet is read and starts; or a graph that was parked goes on (R263, R285). -/
def execGraph (q : Nat) (s : State) : Host.Outcome State Fault Refusal :=
  .next (if ((s.queue? q).bind Queue.graphDue).isSome then s.graphOn q else s.takePacket q 2)

/-- SIGNAL: a started one acts once it is first; or the packet is read and starts (R255). -/
def execSignal (q : Nat) (s : State) : Host.Outcome State Fault Refusal :=
  .next (if (s.signalDue q).isSome then s.trySignal q else s.takePacket q 3)

/-- BARRIER_AND (R255). -/
def execBarrierAnd (q : Nat) (s : State) : Host.Outcome State Fault Refusal := .next (s.takePacket q 4)

/-- The started BARRIER_AND of a queue. -/
def State.barrierOf (s : State) (qid : Nat) : Option (Queue × Packet) :=
  match s.queue? qid with
  | none => none
  | some q =>
    if q.parked.isSome then none
    else (q.packets.find? fun p => p.kind = 4 && decide (p.state = .started)).map fun p => (q, p)

/-- The words that a BARRIER_AND watches have reached their thresholds (R255). -/
def State.watchMet (s : State) (ctx : Nat) : List (DWord × Word) → Got Bool
  | [] => .ok true
  | x :: t =>
    (s.frontRead ctx x.1.toNat 4).bind fun b => if x.2.toNat ≤ fromBytes b then s.watchMet ctx t else .ok false

/-- BARRIER_AND_COMPLETE (R255). -/
def execBarrierAndComplete (q : Nat) (s : State) : Host.Outcome State Fault Refusal :=
  .next (match s.barrierOf q with
    | none => s
    | some (k, p) =>
      match s.watchMet k.ctx p.watch with
      | .fault va r => s.frontFault k 0 (va, r) .read (.acting p.idx)
      | .bad => s.failPacket q p.idx 0 0
      | .ok true => s.settlePacket q p.idx 0 0 0
      | .ok false => s)

/-- BADPACKET: an unassigned KIND, broken limits, or a ring that is overrun stop the queue (R254, R255). -/
def execBadpacket (qid : Nat) (s : State) : Host.Outcome State Fault Refusal :=
  .next (match s.queue? qid with
    | none => s
    | some q =>
      if !(s.frontOpen q) then s
      else if q.overrun then
        (s.modQueue qid fun q => { q with packets := q.packets ++ [noPacket q.rptr s.cycle] }).failPacket qid q.rptr 0 0
      else if q.canRead then
        match s.packetBytes q q.rptr with
        | .ok b => if packetOk b then s else (s.pushPacket qid (packetOf q.rptr b s.cycle)).failPacket qid q.rptr 0 0
        | _ => s
      else s)

/-- WPTR as it stood before the cycle `now` (R302). -/
def Queue.wptrBefore (q : Queue) (now : DWord) : Word :=
  match q.rung with
  | some x => if x.1 = now then x.2 else q.wptr
  | none => q.wptr

/-- WPTR of a queue taken from memory in a cycle. -/
def Queue.ringAt (q : Queue) (now : DWord) (wptr : Word) : Queue :=
  { q with wptr := wptr, rung := some (now, q.wptrBefore now), readable := if q.canRead then q.readable else now }

/-- A doorbell of an earlier cycle has found WPTR of a queue uncorrectable: the error (R299, R302). -/
def Queue.bellError (q : Queue) (now : DWord) : Option ErrorSite :=
  match q.rungMet with
  | some t => if t = now then none else some { line := (q.desc.toNat + 0x18) / 128, dirtyOf := none, firmware := none }
  | none => none

/-- The doorbell of a queue: the front end reads WPTR at .sys; on an overrun BADPACKET stops the queue before anything else is read. A queue that
is stopped, destroyed or absent, or whose partition accepts no doorbell, is unaffected (R254, R299, R302). (DEDUCED, log entry 28) -/
def State.ringBell (s : State) (qid : Nat) : State :=
  match s.queue? qid with
  | none => s
  | some q =>
    let open_ : Bool := match s.part? q.part with | some p => !p.stopped | none => false
    if s.dead || s.halted || q.stopped || decide (q.destroy ≠ .none) || !open_ then s
    else
      let key := q.desc.toNat + 0x18
      -- the error acts once no destroy of this cycle can undo the doorbell
      if s.poisoned (key / 128) then s.modQueue qid fun q => { q with rungMet := some s.cycle }
      else
        let q := q.ringAt s.cycle (BitVec.ofNat 32 (s.readNat key 4))
        s.modQueue qid fun _ => q

/-- DOORBELL (R302): the value written plays no part. -/
def execDoorbell (qid : Nat) (_value : Word) (s : State) : Host.Outcome State Fault Refusal := .next (s.ringBell qid)

/-- PACKET_START: a packet whose wait is over starts (R255, R257). -/
def execPacketStart (qid : Nat) (s : State) : Host.Outcome State Fault Refusal :=
  .next (match s.queue? qid with
    | none => s
    | some q =>
      match q.waiting? with
      | some p =>
        if s.frontOpen q && !(q.holds p) && s.queueFirst q then
          (s.startPacket q p).modQueue qid fun q => { q with readable := s.cycle }
        else s
      | none => s)

/-! ## The start of a launch (R133, R135, R248, R259) -/

/-- An earlier launch of the same queue that names the same chain area has not completed (R135). -/
def State.carryWaits (s : State) (g : Grid) : Bool :=
  g.record.carryIn &&
    s.grids.any fun h =>
      decide (h.id < g.id) && decide (h.queue = g.queue) && h.record.chained && decide (h.record.chainArea = g.record.chainArea) &&
        decide (h.state ≠ .completed)

/-- The front end can work on a grid: its queue is not parked. -/
def State.gridFree (s : State) (g : Grid) : Bool := match s.queue? g.queue with | some q => q.parked.isNone | none => false

/-- The bytes of SPILL are the device's own (R133). -/
def State.loseSpill (s : State) (g : Grid) : State :=
  if g.chain.spillBytes = 0 then s else s.loseRange g.ctx (g.record.chainArea.toNat + 0x280) g.chain.spillBytes

/-- A launch can make its start checks. -/
def State.launchReady (s : State) (g : Grid) : Bool := decide (g.state = .waiting) && s.gridFree g && !(s.carryWaits g)

/-- LAUNCH_START: the start checks, the one read of the kernel header and of the chain area, and the snapshot of the die record; the crews are then
dispatchable (R41, R42, R133, R135, R248, R259). -/
def execLaunchStart (grid : Nat) (s : State) : Host.Outcome State Fault Refusal :=
  .next (match s.grid? grid with
    | none => s
    | some g =>
      match s.queue? g.queue, s.ctx? g.ctx with
      | some q, some x =>
        if !(s.launchReady g) then s
        else
          match (if g.headerRead then .ok g.header else s.readHeader g.ctx g.record) with
          | .fault va r => s.frontFault q 0 (va, r) .read (.starting grid)
          | .bad => s.modGrid grid fun g => { g with state := .bad }
          | .ok h =>
          let s := s.modGrid grid fun g => { g with header := h, headerRead := true }
          match s.checksAfter g.ctx g.part g.record h with
          | .fault va r => s.frontFault q h.kernid (va, r) .read (.starting grid)
          | .bad => s.modGrid grid fun g => { g with state := .bad }
          | .ok i =>
            let g := { g with
              state := .running, header := i.header, headerRead := true, cohorts := i.cohorts, chain := i.chain, dieRec := x.dieRec
              counters := List.replicate x.dieRec.vphys.length 0xFFFFFFFF#32, since := s.cycle, offered := s.cycle }
            (s.modGrid grid fun _ => g).loseSpill g
      | _, _ => s)

/-! ## The completion of a grid (R145, R260, R261) -/

/-- A grid is over: rejected, discarded, or with every crew ended and every store of theirs arrived (R260). -/
def State.gridOver (s : State) (g : Grid) : Bool :=
  match g.state with
  | .bad | .discarded => true
  | .running =>
    (g.cut || decide (g.ncrew ≤ g.dispatched.length)) &&
      (s.crews.filter fun c => c.grid = g.id).all fun c =>
        decide (c.state = .ended) && c.strands.all fun t => t.inflight.all fun x => !x.outlives
  | _ => false

/-- The STATUS of a grid that is over (R256, R271). -/
def Grid.status (g : Grid) : Nat :=
  match g.state with
  | .bad => 2
  | .discarded => 4
  | _ => if g.trapped then 3 else if g.killed || decide (g.dispatched.length < g.ncrew) then 1 else 0

/-- CARRY and PEAK are written, but not after an abort-destroy (R145). -/
def State.writeCarry (s : State) (g : Grid) : State ⊕ (Nat × BitVec 8) :=
  if !(decide (g.state = .running) && g.record.chained && !g.abort) then .inl s
  else
    let word (k : Nat) : Word :=
      if g.mode (k / 8) = 0 then 0 else s.finalValue g (k / 8) (g.items + 1) ((g.items : Int) - ((k % 8 : Nat) + 1))
    let area := g.record.chainArea.toNat
    match s.frontPut g.ctx .write false (area + 0x100) 256 fun _ => (List.range 64).flatMap fun k => toBytes 4 (word k).toNat with
    | .inr f => .inr f
    | .inl s => s.frontPut g.ctx .write false (area + 0x204) 4 fun _ => toBytes 4 (128 * g.chain.peak)

/-- The DONE add and OR, as releases at .sys (R261). -/
def State.writeDone (s : State) (g : Grid) : State ⊕ (Nat × BitVec 8) :=
  let d := g.record.done.toNat
  if d = 0 ∨ d % 8 ≠ 0 then .inl s
  else
    s.frontPut g.ctx .both true d 8 fun b =>
      toBytes 4 (BitVec.ofNat 32 (field b 0 4) + BitVec.ofNat 32 g.ncrew).toNat ++
        toBytes 4 (BitVec.ofNat 32 (field b 4 4) ||| BitVec.ofNat 32 (2 ^ g.status)).toNat

/-- A node of a graph has ended: its successors' counters go down, and the graph is told (R263). -/
def State.endNode (s : State) (q : Queue) (idx : Word) (n : Nat) (g : Grid) : State :=
  match (q.packet? idx).bind fun p => p.graph with
  | none => s.modGrid g.id fun g => { g with acts := 3 }
  | some gr =>
    let gr := { gr with
      running := gr.running - 1, completed := gr.completed + if g.state = .discarded then 0 else 1
      bad := gr.bad || decide (g.status = 2), trapped := gr.trapped || decide (g.status = 3)
      short := gr.short || decide (g.status = 1) || decide (g.status = 4) }
    match s.frontRead q.ctx (gr.table.toNat + 128 * n) 128 with
    | .fault va r => s.frontFault q g.header.kernid (va, r) .read (.ending g.id)
    | .bad => (s.modGrid g.id fun g => { g with acts := 3 }).failPacket q.id idx gr.started gr.completed
    | .ok b =>
      if s.countersBad q.ctx gr b then (s.modGrid g.id fun g => { g with acts := 3 }).failPacket q.id idx gr.started gr.completed
      else
      match s.countDown q.ctx gr b with
      | .inr f => s.frontFault q g.header.kernid f .both (.ending g.id)
      | .inl x => (x.1.modGraph q.id idx fun _ => x.2).modGrid g.id fun g => { g with acts := 3 }

/-- A grid of the queue has not completed, or an entry that its crews made has not been discarded or started (R271). -/
def State.gridsLeft (s : State) (qid : Nat) : Bool :=
  (s.grids.any fun g => decide (g.queue = qid) && decide (g.state ≠ .completed)) ||
    (s.crews.any fun c => c.pending.any fun e => decide (e.queue = qid)) || s.dies.any fun d => d.queue.any fun e => decide (e.queue = qid)

/-- A queue lives: it is not destroyed, or has not come to its end. -/
def State.queueLives (s : State) (q : Queue) : Bool := decide (q.destroy = .none) || !q.packets.isEmpty || s.gridsLeft q.id

/-- A QUEUE_DESTROY that waits for the started grids of its queue ends once they have completed (R303). -/
def State.settleMailbox (s : State) : State :=
  match s.mbWait with
  | none => s
  | some q => if s.gridsLeft q then s else { s with mbWait := none, mbBusy := false, mbResult := 0 }

/-- A grid has completed, its completion record apart: its SPILL is free, and its packet or graph goes on (R256, R261). -/
def State.closeGrid (s : State) (g : Grid) : State :=
  let s := (s.modGrid g.id fun g => { g with state := .completed }).loseSpill g
  (match g.origin with
    | .packet q p => s.settlePacket q p g.status g.dispatched.length g.ended
    | .node q _ _ => s.graphOn q
    | .device _ => s).settleMailbox

/-- The DONE words of a grid are uncorrectable (R298). -/
def State.doneBad (s : State) (g : Grid) : Bool :=
  decide (g.record.done ≠ 0) && decide (g.record.done.toNat % 8 = 0) && s.frontBad g.ctx (span g.record.done.toNat 8)

/-- The counts of a packet's completion record as they stand: those of its graph (R256). -/
def Packet.counts (p : Packet) : Nat × Nat := match p.graph with | some gr => (gr.started, gr.completed) | none => (0, 0)

/-- The actions of a grid's end are given up: its queue stops, and its packet fails (R285). -/
def State.loseEnding (s : State) (q : Queue) (g : Grid) : State :=
  let s := (s.modGrid g.id fun g => { g with state := .completed }).modQueue q.id fun q => { q with stopped := true }
  (match g.origin with
    | .packet _ p => s.failPacket q.id p g.dispatched.length g.ended
    | .node _ p _ => match q.packet? p with | some k => s.failPacket q.id p k.counts.1 k.counts.2 | none => s
    | .device _ => s).settleMailbox

/-- The actions of R261 that a grid has still to make, in their order, while none parks. -/
def State.endActions (s : State) (gid : Nat) : Nat → State
  | 0 => s
  | fuel + 1 =>
    match s.grid? gid with
    | none => s
    | some g =>
      match s.queue? g.queue with
      | none => s
      | some q =>
        let next (a : Right) (x : State ⊕ (Nat × BitVec 8)) : State :=
          match x with
          | .inr f => s.frontFault q g.header.kernid f a (.ending gid)
          | .inl s => (s.modGrid gid fun g => { g with acts := g.acts + 1 }).endActions gid fuel
        if q.parked.isSome then s
        else
          match g.acts with
          | 0 => next .write (s.writeCarry g)
          | 1 => if s.doneBad g then s.loseEnding q g else next .both (s.writeDone g)
          | 2 =>
            match g.origin with
            | .node _ p n => (s.endNode q p n g).endActions gid fuel
            | _ => next .read (.inl s)
          | _ => if g.state = .completed then s else s.closeGrid g

/-- Every write of a grid's crews is at its resolution point: those that a crew made on a core which it has left were performed when it
left (`State.takeOut`) (R260). -/
def State.drainGrid (s : State) (gid : Nat) : State :=
  ((s.crews.filter fun c => c.grid = gid).map (·.core)).eraseDups.foldl (fun s k => s.drain k) s

/-- GRID_COMPLETION (R260, R261). -/
def execGridCompletion (grid : Nat) (s : State) : Host.Outcome State Fault Refusal :=
  .next (match s.grid? grid with
    | some g => if s.gridOver g && s.gridFree g then (s.drainGrid grid).endActions grid 5 else s
    | none => s)

/-! ## Launches made by crews (R267) -/

/-- A launch of a crew is discarded by a destroy: it makes its DONE actions with STATUS 4 (R261, R271). -/
def State.discardEntry (s : State) (e : LaunchEntry) : State :=
  match s.queue? e.queue with
  | some q => s.addGrid q (.device e.queue) e.record e.prio e.phase .discarded
  | none => s

/-- The queue of an entry is destroyed: the entry is discarded (R271). -/
def State.entryVoid (s : State) (e : LaunchEntry) : Bool := match s.queue? e.queue with | some q => decide (q.destroy ≠ .none) | none => false

/-- PENDING_LAUNCH_DRAIN: the head of a crew's pending-launch queue moves into the die queue (R267); one of a destroyed queue is
discarded (R271). -/
def execPendingLaunchDrain (c : CrewRef) (s : State) : Host.Outcome State Fault Refusal :=
  .next (match s.crew? c with
    | none => s
    | some k =>
      match k.pending, s.die? (dieOf k.core) with
      | e :: rest, some d =>
        if s.entryVoid e then (s.modCrew c fun k => { k with pending := rest }).discardEntry e
        else if 256 ≤ d.queue.length then s
        else
          (s.modCrew c fun k => { k with pending := rest }).modDie (dieOf k.core) fun d =>
            { d with queue := d.queue ++ [{ e with since := s.cycle }] }
      | _, _ => s)

/-- A die queue without its head: the next entry is ready from now on (R264, R267). -/
def popQueue (now : DWord) (l : List LaunchEntry) : List LaunchEntry := modNth (l.drop 1) 0 fun e => { e with since := now }

/-- DIE_QUEUE_START: the head of a die queue becomes a grid of the parent's queue, without WAITPREV (R267). -/
def execDieQueueStart (die : Nat) (s : State) : Host.Outcome State Fault Refusal :=
  .next (match (s.die? die).bind fun d => d.queue.head? with
    | none => s
    | some e =>
      if !(s.frontFirst (s.dieKey die e)) || s.halted then s
      else
        let t := s.modDie die fun d => { d with queue := popQueue s.cycle d.queue }
        match s.queue? e.queue with
        | none => t
        | some q =>
          if q.destroy = .none then t.addGrid q (.device e.queue) e.record e.prio e.phase .waiting else t.discardEntry e)

/-! ## Destroying a queue (R271, R272) -/

/-- The launch record of a packet that a destroy drops; nothing is read for another packet (R261, R271). -/
def State.droppedRecord (s : State) (q : Queue) (p : Packet) : Got (Option (List Byte)) :=
  if p.kind = 1 && decide (p.addr.toNat % 64 = 0) then (s.frontRead q.ctx p.addr.toNat 64).bind fun b => .ok (some b) else .ok none

/-- A packet that a destroy finds unstarted is settled with STATUS 4; a GRID makes its DONE actions first, and its USERTAG is the
record's (R256, R261, R271). One whose record cannot be read makes none, and its completion record carries STATUS 5 (R261, R285). -/
def State.dropPacket (s : State) (q : Queue) (p : Packet) : State :=
  match s.droppedRecord q p with
  | .fault va r => s.frontFault q 0 (va, r) .read (.reading (some p.idx))
  | .bad => s.failPacket q.id p.idx 0 0
  | .ok none => s.settlePacket q.id p.idx 4 0 0
  | .ok (some b) =>
    (s.modPacket q.id p.idx fun p => { p with state := .started, userTag := (Machine.recordOf b).userTag }).addGrid q (.packet q.id p.idx)
      (Machine.recordOf b) q.prio p.phase .discarded

/-- The packets that a destroyed queue has not started are read and dropped, one after the other, while no access of the front end
parks (R271, R285). (DEDUCED, log entry 23) -/
def State.dropQueue (s : State) (qid : Nat) : Nat → State
  | 0 => s
  | n + 1 =>
    match s.queue? qid with
    | none => s
    | some q =>
      if decide (q.destroy = .none) || q.parked.isSome then s
      else
        match q.waiting? with
        | some p => (s.dropPacket q p).dropQueue qid n
        | none =>
          if !q.canRead then s.modQueue qid fun q => { q with wptr := q.rptr, rung := none }
          else
            match s.packetBytes q q.rptr with
            | .fault va r => s.frontFault q 0 (va, r) .read (.reading none)
            | .bad => ((s.meetRing q).losePacket q).dropQueue qid n
            | .ok b => (s.pushPacket qid (packetOf q.rptr b s.cycle)).dropQueue qid n

/-- Every packet that a destroyed queue can drop is dropped. -/
def State.dropAll (s : State) (qid : Nat) : State :=
  match s.queue? qid with
  | some q => s.dropQueue qid (2 * (min q.ahead (2 ^ q.logSize) + q.packets.length) + 1)
  | none => s

/-- What a destroy does to a packet that has started (R271). -/
def State.dropStarted (s : State) (abort : Bool) (q : Queue) (p : Packet) : State :=
  let exceeds : Packet → Packet := fun p => { p with state := .settled 4 0 0 }
  match p.state with
  | .waiting | .settled _ _ _ => s
  | .started =>
    match p.kind.toNat with
    | 4 => s.modPacket q.id p.idx exceeds
    | 3 => if abort then s.modPacket q.id p.idx exceeds else s
    | 2 => s.modGraph q.id p.idx fun gr => { gr with cut := true }
    | _ => s

/-- What a destroy does to a grid of the queue: a crew whose last EXIT has come is not killed (R271, R272), and a launch all of whose crews
have come to it is not aborted (R145). (DEDUCED, log entry 23) -/
def State.cutGrid (s : State) (abort : Bool) (g : Grid) : State :=
  match g.state with
  | .waiting => s.modGrid g.id fun g => { g with state := .discarded }
  | .running =>
    let exited := decide (g.ncrew ≤ g.dispatched.length) && (s.crews.filter fun c => c.grid = g.id).all Crew.over
    let s := s.modGrid g.id fun g => { g with cut := true, abort := abort && !exited }
    let s := if abort then
        { s with crews := modWhere (fun c => c.grid = g.id && !c.over) (fun c => { c with killAsked := true }) s.crews }
      else s
    (s.barrierSweep g.id).tidyChain g.id
  | _ => s

/-- The entries that the queue's crews made are discarded (R271). -/
def State.dropEntries (s : State) (qid : Nat) : State :=
  let mine (l : List LaunchEntry) : List LaunchEntry := l.filter fun e => e.queue = qid
  let es := (s.dies.flatMap fun d => mine d.queue) ++ s.crews.flatMap fun c => mine c.pending
  let keep (l : List LaunchEntry) : List LaunchEntry := l.filter fun e => e.queue ≠ qid
  es.foldl State.discardEntry
    { s with
      dies := s.dies.map fun d =>
        let l := keep d.queue
        -- a new head is ready from now on
        { d with queue := if l.head? = d.queue.head? then l else modNth l 0 fun e => { e with since := s.cycle } }
      crews := s.crews.map fun c => { c with pending := keep c.pending } }

/-- Parked work that a destroy makes void. -/
def voidWork (abort : Bool) (q : Queue) : FrontWork → Bool
  | .reading _ => true
  | .starting _ => true
  | .acting p => match q.packet? p with | some k => abort || decide (k.kind ≠ 3) | none => true
  | .ending _ => false
  | .recording _ => false

/-- A queue is destroyed, by a drain or an abort (R271). -/
def State.destroyQueue (s : State) (abort : Bool) (q : Queue) : State :=
  let s := s.modQueue q.id fun q =>
    { q with
      destroy := if abort then .abort else .drain
      -- a doorbell of the same cycle is ignored (R302)
      wptr := q.wptrBefore s.cycle
      rungMet := none
      parked := match q.parked with | some x => if voidWork abort q x.2 then none else some x | none => none }
  let s := q.packets.foldl (fun s p => s.dropStarted abort q p) s
  let s := (s.grids.filter fun g => g.queue = q.id).foldl (fun s g => s.cutGrid abort g) s
  (((s.dropEntries q.id).flushAll q.id).graphOn q.id).dropAll q.id

end Sys2Proof.Machine
end

