-- ==== Sys2Proof/Machine/Firmware.lean ====
section
/-! DEFINITION. The Cobbler's side of the device: the retirement report and the black box, starts, BAR0, and the mailbox with the
settling of faults (R11, R120 to R122, R170, R224, R225, R234, R246, R247, R253, R254, R271, R283 to R288, R291, R293, R296, R300 to
R314, R422). -/
namespace Sys2Proof.Machine

/-! ## The report (R311, R312) -/

/-- Parts of the report written. -/
def State.putReport (s : State) (r : Report) : State := r.foldl (fun s x => s.writeMem x.1 x.2) s

/-- A millisecond of reference time has passed since the last copy of the black box (R312). -/
def State.copyDue (s : State) : Bool := !s.dead && !s.recovery && decide (s.boxCopied + 1000 ≤ s.refTime)

/-- BLACKBOX_COPY: at every millisecond of reference time (R312). -/
def execBlackboxCopy (s : State) : Host.Outcome State Fault Refusal :=
  .next (if s.copyDue then { s.putReport ((List.range 9).flatMap s.reportBox) with boxCopied := s.refTime } else s)

/-- An event logged on every live die. -/
def State.logAll (s : State) (kind unit addr : Nat) : State :=
  (List.range 9).foldl (fun s d => if s.dieLives d then s.logEvent d kind unit addr else s) s

/-- THROTTLE_CHANGE: the core clock moves by 50 MHz between 350 and 700, at most once per millisecond (R314). -/
def execThrottleChange (up : Bool) (s : State) : Host.Outcome State Fault Refusal :=
  let new := if up then s.mhz + 50 else s.mhz - 50
  let soon : Bool := match s.lastStep with | some t => decide (s.refTime < t + 1000) | none => false
  .next (if s.dead || s.recovery || soon || decide (new < 350) || decide (700 < new) then s
    else { s with mhz := new, lastStep := some s.refTime }.logAll 9 0 new)

/-! ## Banks and pseudo-channels that retire (R127, R296) -/

/-- The half of the unified store in which a bank or a spare lies: 0 on the compute die, 1 on the cap die (R127). -/
def bankHalf (bank : Nat) : Nat := if bank < 96 then bank / 48 else (bank - 96) / 2

/-- A spare of a half that neither serves nor has retired. -/
def Banks.freeSpare (b : Banks) (half : Nat) : Option Nat :=
  (span (96 + 2 * half) 2).find? fun k => !(b.retired.contains k) && !((b.served ++ b.copying).any fun x => x.2 = k)

/-- A bank, or a spare, retires: what it held is copied to the next spare of its half, while there is one (R127). -/
def Banks.retire (b : Banks) (bank : Nat) : Banks :=
  let held := if bank < 96 then some bank else ((b.served ++ b.copying).find? fun x => x.2 = bank).map (·.1)
  let keep := fun (x : Nat × Nat) => decide (x.2 ≠ bank)
  let b := { b with retired := b.retired ++ [bank], served := b.served.filter keep, copying := b.copying.filter keep }
  match held with
  | none => b
  | some k => match b.freeSpare (bankHalf bank) with | some sp => { b with copying := b.copying ++ [(k, sp)] } | none => b

/-- The copies to spares have ended. -/
def Banks.settle (b : Banks) : Banks := { b with served := b.served ++ b.copying, copying := [] }

/-- A bank has retired that no spare stands in for: its core retires (R127). -/
def Banks.spent (b : Banks) : Bool :=
  b.retired.any fun k => decide (k < 96) && !((b.served ++ b.copying).any fun x => x.1 = k)

/-- The reserve places in the order in which they are given: the live channels in turn from the lowest, each giving its next free place,
place 0 before place 1, at a second retirement too (R296). (DESIGN CHOICE, log entry 86) -/
def Quadrant.reserve (q : Quadrant) (gone : List Nat) : List (Nat × Nat) :=
  let live := (List.range 64).filter fun c => !(gone.contains c)
  let free (c : Nat) : List (Nat × Nat) := [(c, 1), (c, 2)].filter fun p => !(q.moved.any fun x => x.2 = p)
  (live.filterMap fun c => (free c)[0]?) ++ live.filterMap fun c => (free c)[1]?

/-- PcMap once a pseudo-channel has retired: every entry that names it takes the next free reserve place (R296). -/
def Quadrant.retire (q : Quadrant) (chan : Nat) : Quadrant :=
  let gone := q.retired ++ [chan]
  let hit := (List.range 2048).filter fun n => decide ((q.placeOf n).1 = chan)
  let given := hit.zip (q.reserve gone)
  { q with
    retired := gone, copying := none
    moved := given ++ q.moved.filter fun x => !(given.any fun y => y.1 = x.1) }

/-! ## Starts (R11, R309, R310) -/

/-- The dies that are live for the HomeTable: those with a live L2 slice (R253). -/
def State.homeDies (s : State) : List Nat :=
  (List.range 9).filter fun d =>
    s.dieLives d && match s.die? d with | some x => decide (x.retiredSlices.eraseDups.length < 64) | none => false

/-- What is left of a core at a start: its steering tables, and what has retired. -/
def Core.restart (c : Core) : Core :=
  { Core.full with
    capDie := c.capDie, retired := c.retired, clusters := c.clusters, columns := c.columns
    banks := { c.banks.settle with errors := [] } }

/-- What is left of a die at a start: its black box survives a warm one (R310, R312), and a die that the start finds failing retires
(R11). -/
def Die.restart (cold dies : Bool) (d : Die) : Die :=
  { Die.full with
    live := d.live && !dies, retiredSlices := d.retiredSlices ++ d.evacuating, remap := remapOf (d.retiredSlices ++ d.evacuating)
    armature := d.armature, log := if cold then [] else d.log, logSeq := if cold then 0 else d.logSeq }

/-- What is left of a quadrant: a copy that was running has ended. -/
def Quadrant.restart (q : Quadrant) : Quadrant := match q.copying with | some chan => q.retire chan | none => q

/-- A core whose tables a start has set: it has retired where its die has, or all its clusters, or a bank without a spare
(R11, R121, R127). -/
def Core.rebuilt (c : Core) (live : Bool) (clusters : List Cluster) : Core :=
  let c := { c with clusters := clusters }
  { c with retired := !live || c.liveClusters.isEmpty || c.banks.spent }

/-- Lines of memory whose newest bytes are not kept. -/
def State.loseLines (s : State) (lines : List Nat) : State :=
  { s with lost := lines.map (fun l => (128 * l, 128, s.drawn)) ++ s.lost, drawn := s.drawn + 1 }

/-- Everything that a start discards. Memory training leaves device memory with bytes that are not kept; a warm start keeps it, but for
the lines that an L2 slice held dirty, which it discards (log entries 9, 33). (DEDUCED, log entry 33) -/
def State.discard (s : State) (cold : Bool) (r : StartReport) : State :=
  let far := fun (x : Nat × Byte) => decide (2 ^ 64 ≤ x.1)
  let t : State := { State.reset with
    port := if r.cxl then .cxl else .pcie, image := s.image, warm := !cold
    -- REPSEQ never decreases (R313)
    repSeq := if s.repSeq = BitVec.allOnes 32 then s.repSeq else s.repSeq + 1
    cycle := if cold then 0 else s.cycle, refTime := s.refTime, refPart := s.refPart, boxCopied := s.boxCopied, livePorts := s.livePorts
    mhz := if cold then 700 else s.mhz, lastStep := if cold then none else s.lastStep
    dies := s.dies.zipIdx.map fun (x : Die × Nat) => x.1.restart cold (r.dies.contains x.2), cores := s.cores.map Core.restart
    homeTable := s.homeTable, quads := s.quads.map Quadrant.restart, nearMap := if cold then [] else s.nearMap
    rows := if cold then [] else s.rows, rowLimit := max 256 (min 4095 r.rowLimit)
    lost := if cold then (0, 2 ^ 64, s.drawn) :: s.lost.filter fun x => decide (2 ^ 64 ≤ x.1) else s.lost
    mem := if cold then s.mem.filter far else s.mem
    poison := if cold then s.poison.filter fun l => decide (2 ^ 57 ≤ l) else s.poison, drawn := s.drawn + 1, agenda := s.agenda }
  t.loseLines (s.dies.flatMap fun d => (d.l2.filter fun e => decide (s.memLine e.line ≠ e.filled)).map (·.line))

/-- LIVE of a cluster, as a start that rebuilds its table finds it. -/
def startLive (r : StartReport) (n : Nat) : BitVec 34 :=
  match r.lanes.find? fun x => x.1 = n with | some x => x.2 | none => BitVec.allOnes 34

/-- A cluster's table rebuilt from what a start finds (R120). -/
def startCluster (r : StartReport) (n : Nat) : Cluster := { live := startLive r n, retCycle := 0 }

/-- The stored steering record of a cluster, which firmware saved in the report; none where it breaks R122 or is uncorrectable.
(DEDUCED, log entry 89) -/
def State.storedCluster (s : State) (n : Nat) : Option Cluster :=
  if s.poisoned ((0x2000 + 64 * n) / 128) then none else clusterOf? (s.readMem (0x2000 + 64 * n) 64)

/-- The steering tables of every cluster set, and their records saved (R120, R122, R310 step 3). -/
def State.setTables (s : State) (f : Nat → Cluster) : State :=
  let s := { s with
    cores := s.cores.zipIdx.map fun (x : Core × Nat) => x.1.rebuilt (s.dieLives (dieOf x.2)) ((List.range 4).map fun k => f (4 * x.2 + k)) }
  s.putReport ((List.range 1296).flatMap s.reportCluster)

/-- Steps 4 and 5 of a start: the signature check, then firmware builds its tables and the report; or recovery (R309 to R312). -/
def State.bootFirmware (s : State) : State :=
  let s := s.logAll 10 0 0
  if Config.imageOk s.image then
    let s := { s with homeTable := homeTableOf s.homeDies, boxCopied := s.refTime }
    s.putReport s.reportAll
  else { s with recovery := true }

/-- The device after the self-test of the mesh-stop region, which comes first: where it fails, nothing else runs (R11). -/
def State.started (s : State) (r : StartReport) (f : State → State) : State := if r.meshOk then f s else { s with dead := true }

/-- The event that ends a start. -/
def startEvent (cold : Bool) (r : StartReport) : Instr := if cold then .coldStart r else .warmStart r

/-- The agenda without the end of a start that another start interrupts (R310): it stands behind everything else of that event. -/
def State.agendaOn (s : State) : List Turn :=
  match s.starting with
  | some x => (s.agenda.reverse.erase (.event (startEvent x.1 x.2))).reverse
  | none => s.agenda

/-- A start begins: what it discards is gone, and an interrupted start does not end. Until step 5 ends MBSTAT.BUSY reads 1, and doorbells
and mailbox writes are ignored; the start ends after whatever the agenda holds (R310). (DESIGN CHOICE, log entry 94) -/
def State.beginStart (s : State) (cold : Bool) (r : StartReport) : State :=
  let t := { s with agenda := s.agendaOn }.discard cold r
  { t with
    starting := some (cold, r), mbBusy := true
    agenda := t.agenda ++ [.event (startEvent cold r)] }

/-- The steps of a cold start: march tests retire banks, and every steering table is rebuilt (R11, R127, R310). -/
def State.endCold (s : State) (r : StartReport) : State :=
  s.started r fun s =>
    let s := r.banks.foldl (fun s x => s.modCore x.1 fun c => { c with banks := (c.banks.retire x.2).settle }) s
    (s.setTables (startCluster r)).bootFirmware

/-- The steps of a warm start: stored steering records are used again, but for those that break R122 (R11, R122, R310). (DEDUCED, log
entry 89) -/
def State.endWarm (s : State) (r : StartReport) : State :=
  s.started r fun t => (t.setTables fun n => (s.storedCluster n).getD (startCluster r n)).bootFirmware

/-- A start has ended. -/
def State.upAgain (s : State) : State := { s with starting := none, mbBusy := false }

/-- COLD_START: it begins; where it has begun, it ends (R310). (DESIGN CHOICE, log entry 94) -/
def execColdStart (r : StartReport) (s : State) : Host.Outcome State Fault Refusal :=
  .next (if s.starting = some (true, r) then s.upAgain.endCold r else s.beginStart true r)

/-- WARM_START: it begins; where it has begun, it ends (R310). -/
def execWarmStart (r : StartReport) (s : State) : Host.Outcome State Fault Refusal :=
  .next (if s.starting = some (false, r) then s.upAgain.endWarm r else s.beginStart false r)

/-! ## BAR0 (R11, R301, R303, R309) -/

/-- What the host reads at an offset of BAR0. -/
def State.bar0 (s : State) (off : Nat) : Word :=
  if s.dead then 0xFFFFFFFF
  else if off = 0 then 0x0CA90940
  else if off = 4 then 1
  else if 0x1000 ≤ off ∧ off < 0x1040 ∧ off % 4 = 0 then nthWord s.mbw ((off - 0x1000) / 4)
  else if off = 0x1044 then (if s.mbBusy then 1 else 0) + (s.mbResult.setWidth 32 <<< 8)
  else 0

/-- The happening of a command code, under running firmware or in recovery (R303, R309). -/
def commandOf (recovery : Bool) (code : Nat) : Instr :=
  if recovery then (if code = 0x80 then .imageLoad else .mailboxUnknown)
  else
    match code with
    | 1 => .partSet
    | 2 => .ctxSet
    | 3 => .queueCreate
    | 4 => .queueDestroy
    | 5 => .nearSet
    | 6 => .faultResp
    | 7 => .tlbInval
    | 8 => .ctxSuspend
    | _ => .mailboxUnknown

/-- MBW0[7:0]. -/
def State.mbCode (s : State) : Nat := (nthWord s.mbw 0).toNat % 256

/-- REGISTER_WRITE: a doorbell rings; a mailbox word takes the value; MBDOOR submits the command, which acts next. MBDOOR is ignored while
a command is BUSY (R301, R303); so is a mailbox word, which software must not write then. (DESIGN CHOICE, log entry 87) -/
def execRegisterWrite (off : Nat) (value : Word) (s : State) : Host.Outcome State Fault Refusal :=
  .next (if s.dead then s
    else if 0x100000 ≤ off ∧ off < 0x180000 ∧ off % 8 = 0 then s.ringBell ((off - 0x100000) / 8)
    else if s.mbBusy then s
    else if 0x1000 ≤ off ∧ off < 0x1040 ∧ off % 4 = 0 then { s with mbw := modNth s.mbw ((off - 0x1000) / 4) fun _ => value }
    else if off = 0x1040 then { s with mbBusy := true, agenda := .event (commandOf s.recovery s.mbCode) :: s.agenda }
    else s)

/-! ## Commands (R303, R422) -/

/-- The codes of RESULT (R303). -/
inductive Answer where
  | ok | rejected | inUse | unknown
  deriving DecidableEq, Repr

/-- RESULT. -/
def Answer.code : Answer → Byte
  | .ok => 0
  | .rejected => 1
  | .inUse => 2
  | .unknown => 3

/-- A command has ended. -/
def State.answer (s : State) (a : Answer) : State := { s with mbBusy := false, mbResult := a.code }

/-- Operand MBWn. -/
def State.arg (s : State) (n : Nat) : Nat := (nthWord s.mbw n).toNat

/-- A 64-bit operand in MBWn and the next word. -/
def State.arg64 (s : State) (n : Nat) : Nat := s.arg n + s.arg (n + 1) * 2 ^ 32

/-- A submitted command of the code acts: a nonzero MBW0[31:8] is REJECTED, without effect (R303). -/
def State.command (s : State) (code : Nat) (body : State) : State :=
  if !s.mbBusy || s.starting.isSome || s.mbWait.isSome || s.recovery || decide (s.mbCode ≠ code) then s
  else if nthWord s.mbw 0 >>> 8 ≠ 0 then s.answer .rejected
  else body

/-- A structure at a device physical address lies in HBM4E or the LPDDR tier, and not in segment 0 (R291, R311, R422). (DEDUCED, log entry 30) -/
def dpaOk (pa n : Nat) : Bool :=
  decide (2097152 ≤ pa) && ((inHbm pa && inHbm (pa + n - 1)) || (inLpddr pa && inLpddr (pa + n - 1)))

/-- Bytes that firmware reads at a device physical address; none where they do not lie in memory or are uncorrectable. -/
def State.physRead (s : State) (pa n : Nat) : Option (List Byte) :=
  if dpaOk pa n && (span (pa / 128) ((pa + n - 1) / 128 + 1 - pa / 128)).all (fun l => !(s.poisoned l)) then some (s.readMem pa n)
  else none

/-- A structure that cannot be read: the command is REJECTED, and an uncorrectable line of it is met (R299, R303). -/
def State.physFail (s : State) (pa n : Nat) : State :=
  let lines := if dpaOk pa n then (span (pa / 128) ((pa + n - 1) / 128 + 1 - pa / 128)).filter s.poisoned else []
  (lines.foldl (fun s l => s.meet { line := l, dirtyOf := none, firmware := none }) s).answer .rejected

/-! ### PART_SET (R308) -/

/-- The limits of a partition entry, the masks of other partitions and the peer port table apart. -/
def partOk (b : List Byte) : Bool :=
  let w := field b 0x5A 1
  ((List.range 9).all fun d =>
      decide (field b (8 * d) 8 < 2 ^ 36) && (decide (field b (8 * d) 8 = 0) || decide (field b (0x48 + 2 * d) 2 ≠ 0))) &&
    decide (1 ≤ w % 16) && decide (1 ≤ w / 16) && (decide (field b 0x5B 1 = 1) || decide (field b 0x5B 1 = 2)) &&
    decide (field b 0x5C 4 < 2 ^ 12) && decide (field b 0x60 8 % 4096 = 0) && decide (4 ≤ field b 0x68 1) &&
    decide (field b 0x68 1 ≤ 12) && dpaOk (field b 0x60 8) (32 * 2 ^ field b 0x68 1) && zeroBytes b 0x69 7 &&
    decide (field b 0x78 8 % 32 = 0)

/-- The port masks of the peers: the peer port table, or PORTS for each; none where the table breaks its limits. -/
def State.peersOf (s : State) (b : List Byte) : Option (List (BitVec 12)) :=
  let ports := field b 0x5C 4
  if field b 0x78 8 = 0 then some (List.replicate 14 (BitVec.ofNat 12 ports))
  else
    (s.physRead (field b 0x78 8) 28).bind fun t =>
      let masks := (List.range 14).map fun k => field t (2 * k) 2
      if masks.all fun m => decide (m ≠ 0) && decide (m < 2 ^ 12) && decide (m &&& ports = m) then
        some (masks.map (BitVec.ofNat 12))
      else none

/-- A partition entry from its bytes. (DEDUCED, log entry 31) -/
def partitionOf (pa : Nat) (b : List Byte) (peers : List (BitVec 12)) (nextFault : Word) : Partition :=
  { entry := BitVec.ofNat 64 pa, cores := (List.range 9).map fun d => BitVec.ofNat 36 (field b (8 * d) 8)
    ways := (List.range 9).map fun d => BitVec.ofNat 16 (field b (0x48 + 2 * d) 2), qWeight := field b 0x5A 1 % 16
    nWeight := field b 0x5A 1 / 16, cls := field b 0x5B 1, ports := BitVec.ofNat 12 (field b 0x5C 4), peers := peers
    fring := BitVec.ofNat 64 (field b 0x60 8), flog := field b 0x68 1, fwptr := BitVec.ofNat 32 (field b 0x70 4)
    frptr := BitVec.ofNat 32 (field b 0x74 4), nextFault := nextFault, stopped := false }

/-- A core mask of the entry overlaps another partition's. -/
def State.coresTaken (s : State) (part : Nat) (p : Partition) : Bool :=
  (List.range 16).any fun n =>
    decide (n ≠ part) && match s.part? n with
      | some o => (p.cores.zip o.cores).any fun x => decide (x.1 &&& x.2 ≠ 0)
      | none => false

/-- PART_SET. -/
def State.partSet (s : State) : State :=
  let part := s.arg 1
  match if part < 16 then s.physRead (s.arg64 2) 128 else none with
  | none => s.physFail (s.arg64 2) 128
  | some b =>
    match if partOk b then s.peersOf b else none with
    | none => s.answer .rejected
    | some peers =>
      let old := s.part? part
      let p := partitionOf (s.arg64 2) b peers (match old with | some o => o.nextFault | none => 0)
      let lives := s.queues.any fun q => decide (q.part = part) && s.queueLives q
      let moved : Bool := match old with | some o => decide (o.cores ≠ p.cores) | none => false
      if s.coresTaken part p then s.answer .rejected
      else if moved && lives then s.answer .inUse
      else { s with partitions := putNth s.partitions part (some p) }.answer .ok

/-- PART_SET (R308). -/
def execPartSet (s : State) : Host.Outcome State Fault Refusal := .next (s.command 1 s.partSet)

/-! ### CTX_SET (R246, R247, R305) -/

/-- A live core of a partition on a die. -/
def State.liveCoreOn (s : State) (p : Partition) (d : Nat) : Bool :=
  (match s.die? d with | some x => x.live | none => false) &&
    (span (36 * d) 36).any fun k => p.hasCore k && match s.core? k with | some c => !c.retired | none => false

/-- The die record that firmware builds where system software supplies none (R247). -/
def State.builtDies (s : State) (p : Partition) : Option DieRec :=
  let l := (List.range 9).filter (s.liveCoreOn p)
  if l.isEmpty then none else some { vphys := l, glog := 0, share := (List.range 64).map fun k => k % l.length }

/-- A die record from its 48 bytes; none where firmware rejects it (R246, R247). -/
def State.diesOf (s : State) (p : Partition) (b : List Byte) : Option DieRec :=
  let w := field b 0 8
  let n := w / 2 ^ 36 % 16
  let v := (List.range 9).map fun k => w / 2 ^ (4 * k) % 16
  let share := (List.range 64).map fun k => field b (0x10 + k / 2) 1 / 2 ^ (4 * (k % 2)) % 16
  if w < 2 ^ 40 ∧ 1 ≤ n ∧ n ≤ 9 ∧ field b 8 8 ≤ 16 ∧ (v.drop n).all (· = 15) ∧ (v.take n).all (s.liveCoreOn p) ∧
      (v.take n).eraseDups.length = n ∧ share.all (fun k => decide (k < n)) then
    some { vphys := v.take n, glog := field b 8 8, share := share }
  else none

/-- The limits of a context entry, its partition and die record apart (R305). -/
def ctxOk (b : List Byte) : Bool :=
  zeroBytes b 0x28 0x18 && decide (field b 0x20 8 < 512) && decide (field b 0x20 1 < 16) && decide (field b 0x10 8 % 65536 = 0) &&
    decide (field b 0 8 % 65536 = 0) && decide (field b 8 8 % 16 = 0) &&
    -- a retired context names no table
    (decide (field b 0x21 1 % 2 = 0) || dpaOk (field b 0 8) 1)

/-- The translations of a context leave every TLB (R303, R305). -/
def State.dropTlb (s : State) (ctx : Nat) (all : Bool) (lo hi : Nat) : State :=
  { s with
    cores := s.cores.map fun k => { k with tlb := tlbDrop k.tlb ctx all lo hi }
    dies := s.dies.map fun d => { d with tlb := tlbDrop d.tlb ctx all lo hi } }

/-- CTX_SET. -/
def State.ctxSet (s : State) : State :=
  let n := s.arg 1
  match if n < 64 then s.physRead (s.arg64 2) 64 else none with
  | none => s.physFail (s.arg64 2) 64
  | some b =>
    if !(ctxOk b) then s.answer .rejected
    else if field b 0x21 1 % 2 = 0 then
      if s.queues.any fun q => decide (q.ctx = n) && s.queueLives q then s.answer .inUse
      else ({ s with contexts := putNth s.contexts n none }.dropTlb n true 0 0).answer .ok
    else
      let part := field b 0x20 1 % 16
      let dies := (s.part? part).bind fun p =>
        if field b 8 8 = 0 then s.builtDies p else (s.physRead (field b 8 8) 48).bind (s.diesOf p)
      match dies with
      | none => s.answer .rejected
      | some d =>
        let c : Context :=
          { root := BitVec.ofNat 64 (field b 0 8), dieRec := d, saveArea := BitVec.ofNat 64 (field b 0x10 8),
            saveSize := BitVec.ofNat 64 (field b 0x18 8), part := part
            suspended := match s.ctx? n with | some x => x.suspended | none => false
            failed := false }
        { s with contexts := putNth s.contexts n (some c) }.answer .ok

/-- CTX_SET (R305). -/
def execCtxSet (s : State) : Host.Outcome State Fault Refusal := .next (s.command 2 s.ctxSet)

/-! ### QUEUE_CREATE, QUEUE_DESTROY (R254, R271, R303) -/

/-- The limits of a queue descriptor, its context and partition apart (R254, R303). -/
def descOk (b : List Byte) : Bool :=
  let w := field b 0x10 4
  zeroBytes b 0x1C 0x24 && decide (w / 2 ^ 28 = 0) && decide (w / 2 ^ 22 % 4 = 0) && decide (w / 2 ^ 10 % 64 = 0) &&
    decide (w / 2 ^ 5 % 8 = 0) && decide (4 ≤ w % 32) && decide (w % 32 ≤ 16) && decide (field b 0 8 % 4096 = 0) &&
    decide (field b 8 8 % 4096 = 0)

/-- A queue from its descriptor; WPTR is read at a doorbell (R254, R302). (DEDUCED, log entry 28) -/
def queueOf (n desc : Nat) (b : List Byte) : Queue :=
  let w := field b 0x10 4
  let rptr := BitVec.ofNat 32 (field b 0x14 4)
  { id := n, desc := BitVec.ofNat 64 desc, ctx := w / 2 ^ 16 % 64, part := w / 2 ^ 24 % 16, prio := BitVec.ofNat 2 (w / 2 ^ 8), logSize := w % 32
    ring := BitVec.ofNat 64 (field b 0 8), cring := BitVec.ofNat 64 (field b 8 8), wptr := rptr, rptr := rptr, rung := none, rungMet := none, readable := 0, phase := 0
    stopped := false, destroy := .none, packets := [], parked := none }

/-- QUEUE_CREATE. (DEDUCED, log entry 29) -/
def State.queueCreate (s : State) : State :=
  let n := s.arg 1
  match if n < 65536 then s.physRead (s.arg64 2) 64 else none with
  | none => s.physFail (s.arg64 2) 64
  | some b =>
    let q := queueOf n (s.arg64 2) b
    let used : Bool := match s.queue? n with | some o => s.queueLives o | none => false
    let fits : Bool := match s.ctx? q.ctx with | some c => !c.failed && decide (c.part = q.part) && (s.part? q.part).isSome | none => false
    if !(descOk b) || used || !fits then s.answer .rejected
    else { s with queues := s.queues.filter (fun (o : Queue) => o.id ≠ n) ++ [q] }.answer .ok

/-- QUEUE_CREATE (R303). -/
def execQueueCreate (s : State) : Host.Outcome State Fault Refusal := .next (s.command 3 s.queueCreate)

/-- QUEUE_DESTROY: the answer comes once every started grid has completed. -/
def State.queueDestroy (s : State) : State :=
  match s.queue? (s.arg 1) with
  | none => s.answer .rejected
  | some q =>
    if 1 < s.arg 2 ∨ q.destroy ≠ .none then s.answer .rejected
    else { s.destroyQueue (decide (s.arg 2 = 1)) q with mbWait := some q.id }.settleMailbox

/-- QUEUE_DESTROY (R271, R303). -/
def execQueueDestroy (s : State) : Host.Outcome State Fault Refusal := .next (s.command 4 s.queueDestroy)

/-! ### NEAR_SET (R293) -/

/-- An entry names a frame in a segment of device memory. -/
def inSegment (seg : Nat) (x : Xlate) : Bool := decide (x.target = 0) && !x.lpddr && decide (segOf x.base = seg)

/-- Some translation maps a segment: in a page table of a context, or in a TLB (R293). -/
def State.segMapped (s : State) (seg : Nat) : Bool :=
  (s.contexts.any fun c =>
    match c with
    | none => false
    | some x => (List.range (2 ^ 41)).any fun p => match s.pageEntry x.root p with | some e => inSegment seg e | none => false) ||
    (s.cores.any fun k => k.tlb.any fun e => inSegment seg e.x) || s.dies.any fun d => d.tlb.any fun e => inSegment seg e.x

/-- NEAR_SET: the bytes of a segment whose bit changes are not preserved. -/
def State.nearSet (s : State) : State :=
  let seg := s.arg 1
  let bit := s.arg 2
  if 411983 < seg ∨ 1 < bit then s.answer .rejected
  else if s.segMapped seg then s.answer .inUse
  else if (s.nearMap.contains seg) == decide (bit = 1) then s.answer .ok
  else
    ({ s with nearMap := if bit = 1 then seg :: s.nearMap else s.nearMap.filter (· ≠ seg) }.lose (seg * 2097152) 2097152).answer .ok

/-- NEAR_SET (R293). -/
def execNearSet (s : State) : Host.Outcome State Fault Refusal := .next (s.command 5 s.nearSet)

/-! ### FAULT_RESP (R224, R225, R234, R285, R288) -/

/-- The crews of a partition. -/
def State.crewsOf (s : State) (part : Nat) : List Crew :=
  s.crews.filter fun c => match s.grid? c.grid with | some g => decide (g.part = part) | none => false

/-- What a strand waits on a fault with: accesses in flight, captured ones that were parked on it, and splits. -/
def Strand.waitsOn (t : Strand) (id : Nat) : Bool :=
  (t.inflight.any fun x => x.state = .parked id) || (t.reinject.any fun e => e.parked = some id) || t.splits.any fun p => decide (p.wait = .fetch id) || decide (p.wait = .xlate id)

/-- A party of a crew is parked on a fault. -/
def Crew.waitsOn (c : Crew) (id : Nat) : Bool :=
  (c.strands.any fun t => t.waitsOn id) || (c.tags.any fun t => match t.op with | some o => decide (o.parked = some id) | none => false) ||
    c.follows.any fun f => decide (f.parked = some id)

/-- A captured access whose fault is unresolvable: it is the trapping entry of a deferred FAULT_UNRESOLVED, which the strand takes at its
first boundary once its crew is resident (R288). Until then it keeps its place among the captured entries (R276). -/
def ReplayEntry.lostTo (e : ReplayEntry) (handler : Word) (va : DWord) : Deferred :=
  { trap := .faultUnresolved, handler := handler, addr := va, lane := lowest e.mask, pc := e.pc, mask := e.mask,
    entry := some { e with trapping := true } }

/-- The entry of a split that waits for a translation of a fault; a tile or NMV issue has none. -/
def Path.lostEntry (id : Nat) (p : Path) : Option ReplayEntry := if p.wait = .xlate id then p.stood else none

/-- The parties of a strand learn that a fault is unresolvable: an access becomes the trapping entry of a deferred FAULT_UNRESOLVED,
also one that has been captured, and that of a split, which stands behind it; a fetch raises it without an entry; a tile or NMV issue traps
at its issue (R285, R288). %trapaddr is the address of the record, for what has joined it too (R274). (DESIGN CHOICE, log entry 109) -/
def State.unresolveStrand (s : State) (c : Crew) (t : Strand) (id : Nat) (va : DWord) : State :=
  let r : StrandRef := { crew := c.ref, strand := t.idx }
  let s := (t.inflight.filter fun x => x.state = .parked id).foldl
    (fun s x =>
      match s.ctxOfFlight r x with
      | some k => if t.isOver then s.dropFlight r x.id else k.deferOn (s.dropFlight r x.id) .faultUnresolved k.act va
      | none => s.dropFlight r x.id)
    s
  let s := (t.splits.filter fun p => p.wait = .fetch id).foldl
    (fun s p => s.fetchTrap { strand := r, lane := lowest p.mask } p c.handler .faultUnresolved va.toNat) s
  s.modStrand r fun t =>
    { t with
      splits := t.splits.map fun p =>
        match p.lostEntry id with
        | some e => p.past e
        | none => if p.wait = .xlate id then { p with wait := .unresolved va } else p
      deferred := t.deferred ++
        ((t.reinject.filter fun e => e.parked = some id) ++ t.splits.filterMap (Path.lostEntry id)).map fun e => e.lostTo c.handler va }

/-- The copy-engine operations of a crew that are parked on a fault end as they stand (R225, R245). -/
def State.unresolveTags (s : State) (c : Crew) (id : Nat) (va : DWord) : State :=
  (List.range 64).foldl
    (fun s n =>
      match s.tagCtx? c.ref n with
      | some x => if x.o.parked = some id then s.endUnresolved x n va else s
      | none => s)
    s

/-- Every party of a crew that is parked on a fault. -/
def State.unresolveCrew (s : State) (id : Nat) (va : DWord) (c : Crew) : State :=
  let s := c.strands.foldl (fun s t => s.unresolveStrand c t id va) s
  let s := s.unresolveTags c id va
  (s.modCrew c.ref fun c => { c with follows := c.follows.filter fun f => f.parked ≠ some id }).settleCrew c.ref

/-- The front-end work of a queue is given up (R259, R285). -/
def State.unresolveWork (s : State) (q : Queue) : FrontWork → State
  | .reading none => s.losePacket q
  | .reading (some p) | .acting p =>
    match q.packet? p with
    | some k => s.failPacket q.id p k.counts.1 k.counts.2
    | none => s
  | .starting g => s.modGrid g fun g => { g with state := .bad }
  | .ending g =>
    match s.grid? g with
    | none => s
    | some g => s.loseEnding q g
  | .recording p => (s.modQueue q.id fun q => { q.without s.cycle p with stopped := true }).flushAll q.id

/-- A queue whose front-end work is parked on the fault goes on, or gives the work up; one that is destroyed goes on dropping. -/
def State.settleQueue (s : State) (resolved : Bool) (q : Queue) : State :=
  match q.parked with
  | none => s
  | some x =>
    let s := s.modQueue q.id fun q => { q with parked := none }
    (if resolved then s.flushAll q.id else s.unresolveWork { q with parked := none } x.2).dropAll q.id

/-- The parties parked on a resolved fault retry. -/
def State.retryCrews (s : State) (part id : Nat) : State :=
  { s with
    crews := s.crews.map fun c =>
      if (match s.grid? c.grid with | some g => decide (g.part = part) | none => false) then
        { c with
          tags := c.tags.map fun t => { t with op := t.op.map fun (o : CopyOp) => if o.parked = some id then { o with parked := none } else o }
          follows := modWhere (fun (f : FollowOn) => f.parked = some id) (fun f => { f with parked := none }) c.follows }
      else c }

/-- A posted fault is settled (R283, R285). -/
def State.settleFault (s : State) (f : Fault32) (resolved : Bool) : State :=
  let id := f.id.toNat
  let parked := s.crewsOf f.part |>.filter fun c => c.waitsOn id
  let queues := s.queues.filter fun q => q.part = f.part && match q.parked with | some x => decide (x.1 = id) | none => false
  let mine (g : Fault32) : Bool := decide (g.part = f.part) && decide (g.id = f.id) && !g.kind
  let s := { s with faults := s.faults.filter fun g => !(mine g) }
  let s := if resolved then s.retryCrews f.part id else parked.foldl (State.unresolveCrew · id f.va) s
  queues.foldl (fun s q => s.settleQueue resolved q) s

/-- FAULT_RESP: a FAULTID that names no posted fault is ignored; a record that waits for room has not been posted (R303, R308). -/
def State.faultResp (s : State) : State :=
  if 15 < s.arg 1 ∨ 1 < s.arg 3 then s.answer .rejected
  else
    match s.faults.find? fun f => f.part = s.arg 1 && f.id.toNat = s.arg 2 && !f.kind && f.written with
    | some f => (s.settleFault f (decide (s.arg 3 = 0))).answer .ok
    | none => s.answer .ok

/-- FAULT_RESP (R285, R303). -/
def execFaultResp (s : State) : Host.Outcome State Fault Refusal := .next (s.command 6 s.faultResp)

/-! ### TLB_INVAL (R303) -/

/-- Pages taken at issue meet a range. -/
def pagesMeet (all : Bool) (lo hi : Nat) (l : List (Nat × Xlate)) : Bool :=
  l.any fun p => all || (decide (p.1 * 65536 < hi) && decide (lo < (p.1 + 1) * 65536))

/-- An engine operation of a context still uses translations of a range that it took at its issue (R234). -/
def State.usesOld (s : State) (ctx : Nat) (all : Bool) (lo hi : Nat) : Bool :=
  s.crews.any fun c =>
    (match s.grid? c.grid with | some g => decide (g.ctx = ctx) | none => false) &&
      ((c.tags.any fun t => match t.op with | some o => pagesMeet all lo hi o.pages | none => false) ||
        (s.tileOpsOf c).any fun o => pagesMeet all lo hi o.pages)

/-- TLB_INVAL: OK once no later access uses an old translation; until then the command stays BUSY. -/
def State.tlbInval (s : State) : State :=
  let ctx := s.arg 1
  let lo := s.arg64 2
  let n := s.arg 4
  if 63 < ctx then s.answer .rejected
  else
    let s := s.dropTlb ctx (decide (n = 0)) lo (lo + n)
    if s.usesOld ctx (decide (n = 0)) lo (lo + n) then s else s.answer .ok

/-- TLB_INVAL (R303). -/
def execTlbInval (s : State) : Host.Outcome State Fault Refusal := .next (s.command 7 s.tlbInval)

/-! ### CTX_SUSPEND (R286, R305) -/

/-- The crews of a context. -/
def State.crewsIn (s : State) (ctx : Nat) : List Crew :=
  s.crews.filter fun c => match s.grid? c.grid with | some g => decide (g.ctx = ctx) | none => false

/-- The images of a context's resident crews find room in its save area (R305). -/
def State.allFit (s : State) (ctx : Nat) (x : Context) : Bool :=
  let more := ((s.crewsIn ctx).filter fun c => decide (c.state = .resident) && !c.over).foldl
    (fun n c => n + match s.grid? c.grid with | some g => imageBytes g | none => 0) 0
  decide (s.imagesOf ctx + more ≤ x.saveSize.toNat)

/-- Every crew of a context is pre-empted; one whose tile operations run, or that a bank's copy holds, follows when they have ended (R127,
R242, R286). (DEDUCED, log entry 32) -/
def State.suspend (s : State) (ctx : Nat) : State :=
  let s := { s with contexts := modNth s.contexts ctx fun x => x.map fun (c : Context) => { c with suspended := true } }
  (s.crewsIn ctx).foldl
    (fun s c =>
      if c.state = .swapped then s.modCrew c.ref fun c => { c with state := .preempted, woken := false, wakes := [] }
      else s.saveIfDue c.ref)
    s

/-- CTX_SUSPEND. -/
def State.ctxSuspend (s : State) : State :=
  let ctx := s.arg 1
  match s.ctx? ctx with
  | none => s.answer .rejected
  | some x =>
    match s.arg 2 with
    | 0 => if s.allFit ctx x then (s.suspend ctx).answer .ok else s.answer .inUse
    | 1 =>
      -- crews wait while dispatchable from now on (R264)
      { s with
        contexts := modNth s.contexts ctx fun x => x.map fun (c : Context) => { c with suspended := false }
        grids := modWhere (fun g => decide (g.ctx = ctx) && x.suspended) (fun g => { g with offered := s.cycle }) s.grids
        crews := modWhere
          (fun (c : Crew) => x.suspended && (decide (c.state = CrewState.swapped) || decide (c.state = CrewState.preempted)) &&
            match s.grid? c.grid with | some g => decide (g.ctx = ctx) | none => false)
          (fun c => { c with since := s.cycle }) s.crews }.answer .ok
    | _ => s.answer .rejected

/-- CTX_SUSPEND (R286). -/
def execCtxSuspend (s : State) : Host.Outcome State Fault Refusal := .next (s.command 8 s.ctxSuspend)

/-! ### Other codes (R303, R309) -/

/-- MAILBOX_UNKNOWN: code 0 or 9 to 255, or any code but IMAGE_LOAD in recovery. -/
def execMailboxUnknown (s : State) : Host.Outcome State Fault Refusal :=
  .next (if !s.mbBusy || s.starting.isSome || s.mbWait.isSome || (if s.recovery then decide (s.mbCode = 0x80) else decide (1 ≤ s.mbCode) && decide (s.mbCode ≤ 8))
    then s
    else if nthWord s.mbw 0 >>> 8 ≠ 0 then s.answer .rejected
    else s.answer .unknown)

/-- The report of a start that the device begins itself. (DESIGN CHOICE, log entry 19) -/
def State.ownReport (s : State) : StartReport :=
  let n := s.repSeq.toNat
  { meshOk := Config.meshPasses n, cxl := decide (s.port = .cxl), rowLimit := s.rowLimit, dies := []
    lanes := (List.range 1296).map fun k => (k, Config.lanesLive n k), banks := [] }

/-- The image that is staged at an offset of BAR2; none where no memory that can be read lies there. -/
def State.stagedImage (s : State) (off n : Nat) : Option Image :=
  let lies := (inHbm off && inHbm (off + n - 1)) || (inLpddr off && inLpddr (off + n - 1))
  if lies && (span (off / 128) ((off + n - 1) / 128 + 1 - off / 128)).all (fun l => !(s.poisoned l)) then some (.staged (s.readMem off n))
  else none

/-- IMAGE_LOAD: in recovery, a staged image that verifies becomes the device's image, and a cold start begins (R309). -/
def execImageLoad (s : State) : Host.Outcome State Fault Refusal :=
  .next (if !s.mbBusy || s.starting.isSome || !s.recovery || decide (s.mbCode ≠ 0x80) then s
    else if nthWord s.mbw 0 >>> 8 ≠ 0 then s.answer .rejected
    else
      match s.stagedImage (s.arg64 1) (s.arg 3) with
      | none => s.answer .rejected
      | some i =>
        if Config.imageOk i then { s.answer .ok with image := i, agenda := .event (.coldStart s.ownReport) :: s.agenda }
        else s.answer .rejected)

end Sys2Proof.Machine
end

