-- ==== Sys2Proof/Machine/Float.lean ====
section
/-! DEFINITION. The float instructions: rows 0x40 to 0x54 (R337, R340 to R344, R347 to R350). -/
namespace Sys2Proof.Machine

/-- A float operand's code. -/
def Ctx.fl (c : Ctx) (x : DWord) : Nat := uval c.f.e.ty x

/-- A float result with its flags, as the destination takes it (R66). -/
def floatOut (x : FRes) : DWord × Flags := (BitVec.ofNat 64 x.1, x.2)

/-- A binary float instruction (R342). -/
def floatBody (latency : Nat) (f : Fmt → Rm → Nat → Nat → FRes) (c : Ctx) : Eff :=
  c.writeF latency fun l => floatOut (f (fmtOf c.f.e.ty) c.rm (c.fl (c.a l)) (c.fl (c.b l)))

/-- A correctly rounded function (R344). -/
def floatFnBody (fn : Fn) (c : Ctx) : Eff :=
  c.writeF 24 fun l => floatOut (ffun (fmtOf c.f.e.ty) c.rm fn (c.fl (c.a l)))

/-- FABS and FNEG (R340): logical operations on the sign bit. -/
def signBody (negate : Bool) (c : Ctx) : Eff :=
  c.write 4 fun l => BitVec.ofNat 64 (fsignOp (fmtOf c.f.e.ty) negate (c.fl (c.a l)))

/-- FADD, base form (R342). -/
def execFadd (b : Base) (s : State) : Host.Outcome State Fault Refusal :=
  issue (Form.ofBase 0x40 b) (floatBody 4 Machine.fadd) s
/-- FADD, literal or extended form (R342). -/
def execFaddExt (f : Long) (s : State) : Host.Outcome State Fault Refusal :=
  issue (Form.ofLong 0x40 f) (floatBody 4 Machine.fadd) s

/-- FSUB, base form (R342). -/
def execFsub (b : Base) (s : State) : Host.Outcome State Fault Refusal :=
  issue (Form.ofBase 0x41 b) (floatBody 4 Machine.fsub) s
/-- FSUB, literal or extended form (R342). -/
def execFsubExt (f : Long) (s : State) : Host.Outcome State Fault Refusal :=
  issue (Form.ofLong 0x41 f) (floatBody 4 Machine.fsub) s

/-- FMUL, base form (R342). -/
def execFmul (b : Base) (s : State) : Host.Outcome State Fault Refusal :=
  issue (Form.ofBase 0x42 b) (floatBody 4 Machine.fmul) s
/-- FMUL, literal or extended form (R342). -/
def execFmulExt (f : Long) (s : State) : Host.Outcome State Fault Refusal :=
  issue (Form.ofLong 0x42 f) (floatBody 4 Machine.fmul) s

/-- FDIV, base form (R71, R342). -/
def execFdiv (b : Base) (s : State) : Host.Outcome State Fault Refusal :=
  issue (Form.ofBase 0x44 b) (floatBody 24 Machine.fdiv) s
/-- FDIV, literal or extended form (R71, R342). -/
def execFdivExt (f : Long) (s : State) : Host.Outcome State Fault Refusal :=
  issue (Form.ofLong 0x44 f) (floatBody 24 Machine.fdiv) s

/-- FMIN, base form (R342). -/
def execFmin (b : Base) (s : State) : Host.Outcome State Fault Refusal :=
  issue (Form.ofBase 0x4C b) (floatBody 4 fun f _ a b => fminmax f false a b) s
/-- FMIN, literal or extended form (R342). -/
def execFminExt (f : Long) (s : State) : Host.Outcome State Fault Refusal :=
  issue (Form.ofLong 0x4C f) (floatBody 4 fun f _ a b => fminmax f false a b) s

/-- FMAX, base form (R342). -/
def execFmax (b : Base) (s : State) : Host.Outcome State Fault Refusal :=
  issue (Form.ofBase 0x4D b) (floatBody 4 fun f _ a b => fminmax f true a b) s
/-- FMAX, literal or extended form (R342). -/
def execFmaxExt (f : Long) (s : State) : Host.Outcome State Fault Refusal :=
  issue (Form.ofLong 0x4D f) (floatBody 4 fun f _ a b => fminmax f true a b) s

/-- FSQRT, base form (R71, R344). -/
def execFsqrt (b : Base) (s : State) : Host.Outcome State Fault Refusal :=
  issue (Form.ofBase 0x45 b) (floatFnBody .sqrt) s
/-- FSQRT, extended form (R71, R344). -/
def execFsqrtExt (e : Ext) (s : State) : Host.Outcome State Fault Refusal :=
  issue (Form.ofExt 0x45 e) (floatFnBody .sqrt) s

/-- FRCP, base form (R71, R344). -/
def execFrcp (b : Base) (s : State) : Host.Outcome State Fault Refusal :=
  issue (Form.ofBase 0x46 b) (floatFnBody .rcp) s
/-- FRCP, extended form (R71, R344). -/
def execFrcpExt (e : Ext) (s : State) : Host.Outcome State Fault Refusal :=
  issue (Form.ofExt 0x46 e) (floatFnBody .rcp) s

/-- FRSQ, base form (R71, R344). -/
def execFrsq (b : Base) (s : State) : Host.Outcome State Fault Refusal :=
  issue (Form.ofBase 0x47 b) (floatFnBody .rsq) s
/-- FRSQ, extended form (R71, R344). -/
def execFrsqExt (e : Ext) (s : State) : Host.Outcome State Fault Refusal :=
  issue (Form.ofExt 0x47 e) (floatFnBody .rsq) s

/-- FEXP2, base form (R71, R344). -/
def execFexp2 (b : Base) (s : State) : Host.Outcome State Fault Refusal :=
  issue (Form.ofBase 0x48 b) (floatFnBody .exp2) s
/-- FEXP2, extended form (R71, R344). -/
def execFexp2Ext (e : Ext) (s : State) : Host.Outcome State Fault Refusal :=
  issue (Form.ofExt 0x48 e) (floatFnBody .exp2) s

/-- FLOG2, base form (R71, R344). -/
def execFlog2 (b : Base) (s : State) : Host.Outcome State Fault Refusal :=
  issue (Form.ofBase 0x49 b) (floatFnBody .log2) s
/-- FLOG2, extended form (R71, R344). -/
def execFlog2Ext (e : Ext) (s : State) : Host.Outcome State Fault Refusal :=
  issue (Form.ofExt 0x49 e) (floatFnBody .log2) s

/-- FSIN, base form (R71, R344). -/
def execFsin (b : Base) (s : State) : Host.Outcome State Fault Refusal :=
  issue (Form.ofBase 0x4A b) (floatFnBody .sin) s
/-- FSIN, extended form (R71, R344). -/
def execFsinExt (e : Ext) (s : State) : Host.Outcome State Fault Refusal :=
  issue (Form.ofExt 0x4A e) (floatFnBody .sin) s

/-- FCOS, base form (R71, R344). -/
def execFcos (b : Base) (s : State) : Host.Outcome State Fault Refusal :=
  issue (Form.ofBase 0x4B b) (floatFnBody .cos) s
/-- FCOS, extended form (R71, R344). -/
def execFcosExt (e : Ext) (s : State) : Host.Outcome State Fault Refusal :=
  issue (Form.ofExt 0x4B e) (floatFnBody .cos) s

/-- FABS, base form (R340). -/
def execFabs (b : Base) (s : State) : Host.Outcome State Fault Refusal :=
  issue (Form.ofBase 0x50 b) (signBody false) s
/-- FABS, extended form (R340). -/
def execFabsExt (e : Ext) (s : State) : Host.Outcome State Fault Refusal :=
  issue (Form.ofExt 0x50 e) (signBody false) s

/-- FNEG, base form (R340). -/
def execFneg (b : Base) (s : State) : Host.Outcome State Fault Refusal :=
  issue (Form.ofBase 0x51 b) (signBody true) s
/-- FNEG, extended form (R340). -/
def execFnegExt (e : Ext) (s : State) : Host.Outcome State Fault Refusal :=
  issue (Form.ofExt 0x51 e) (signBody true) s

/-- FFMA (R348). -/
def execFfma (e : Ext) (s : State) : Host.Outcome State Fault Refusal :=
  issue (Form.ofExt 0x43 e)
    (fun c => c.writeF 4 fun l =>
      floatOut (Machine.ffma (fmtOf c.f.e.ty) c.rm (c.fl (c.a l)) (c.fl (c.b l)) (c.fl (c.cc l)))) s

/-- FSET (R350). -/
def execFset (e : Ext) (s : State) : Host.Outcome State Fault Refusal :=
  issue (Form.ofExt 0x4E e)
    (fun c => c.writeF 4 fun l =>
      let r := Machine.fset (fmtOf c.f.e.ty) c.f.e.rnd.toNat (c.fl (c.a l)) (c.fl (c.b l))
      (truth r.1, r.2)) s

/-- FCLASS (R343). -/
def execFclass (e : Ext) (s : State) : Host.Outcome State Fault Refusal :=
  issue (Form.ofExt 0x4F e)
    (fun c => c.write 4 fun l =>
      BitVec.ofNat 64 (2 ^ fclassBit (fmtOf c.f.e.ty) (c.fl (c.a l)) &&& (loWord (c.b l)).toNat)) s

/-- FRND (R349). -/
def execFrnd (e : Ext) (s : State) : Host.Outcome State Fault Refusal :=
  issue (Form.ofExt 0x52 e)
    (fun c => c.writeF 4 fun l => floatOut (Machine.frnd (fmtOf c.f.e.ty) c.rm (c.fl (c.a l)))) s

/-- FSCALE (R349). -/
def execFscale (e : Ext) (s : State) : Host.Outcome State Fault Refusal :=
  issue (Form.ofExt 0x53 e)
    (fun c => c.writeF 4 fun l => floatOut (Machine.fscale (fmtOf c.f.e.ty) c.rm (c.fl (c.a l)) (loWord (c.b l)).toInt)) s

/-- FDOT2 (R347). -/
def execFdot2 (e : Ext) (s : State) : Host.Outcome State Fault Refusal :=
  issue (Form.ofExt 0x54 e)
    (fun c => c.writeF 4 fun l =>
      floatOut (Machine.fdot2 (fmtOf c.f.e.ty) c.rm (loWord (c.a l)).toNat (loWord (c.b l)).toNat (loWord (c.cc l)).toNat)) s

end Sys2Proof.Machine
end

