-- ==== Sys2Proof/Machine/Ras.lean ====
section
/-! DEFINITION. Self-checks, retirements and memory errors (R121, R125 to R128, R170, R171, R292, R295 to R299). -/
namespace Sys2Proof.Machine

/-! ## Lanes, banks, columns (R121, R125 to R128) -/

/-- The crews of a core that are to be saved are, those whose tile operations have ended, and that no bank's copy holds, at once (R121, R126,
R127). -/
def State.moveOut (s : State) (core : Nat) : State :=
  (s.crews.filter fun c => c.core = core).foldl (fun s c => s.saveIfDue c.ref) s

/-- A core has a bank or spare of a number (R127). -/
def Core.hasBank (c : Core) (bank : Nat) : Bool := decide (bank < 100) && (c.capDie || decide (bankHalf bank = 0))

/-- A bank retires: what it held is copied to a spare; where its half has no spare left, the core retires (R127). -/
def State.retireBank (s : State) (core bank : Nat) : State :=
  match s.core? core with
  | none => s
  | some c =>
    if !(c.hasBank bank) || c.banks.retired.contains bank then s
    else
      let b := c.banks.retire bank
      ((s.modCore core fun c => { c with banks := b, retired := c.retired || b.spent }).logEvent (dieOf core) 2 core bank).moveOut core

/-- A lane of a cluster retires (R125, R126). -/
def State.retireLane (s : State) (r : ClusterRef) (lane : Nat) : State :=
  (s.modCore r.core fun c =>
    { c with
      clusters := modNth c.clusters r.cluster fun k =>
        { k with live := k.live &&& ~~~(1#34 <<< lane), retCycle := s.cycle } }).logEvent (dieOf r.core) 1 (4 * r.core + r.cluster) lane

/-- A column of a matrix unit retires (R128). The crews of a core that has lost its last matrix unit stay, and their queued tile
operations still end. (DESIGN CHOICE, log entry 105) -/
def State.retireColumn (s : State) (core unit col : Nat) : State :=
  match (s.core? core).bind fun c => c.columns[unit]? with
  | some m =>
    if m.getLsbD col then
      (s.modCore core fun c => { c with columns := modNth c.columns unit fun m => m &&& ~~~(1#130 <<< col) }).logEvent (dieOf core) 3 core
        (130 * unit + col)
    else s
  | none => s

/-- A core whose four clusters have all retired is retired (R121). -/
def State.checkCore (s : State) (core : Nat) : State :=
  s.modCore core fun c => { c with retired := c.retired || c.liveClusters.isEmpty }

/-- LANE_SELF_CHECK: what fails retires at once, and the report is brought up to date (R125 to R128, R311). -/
def execLaneSelfCheck (r : ClusterRef) (f : CheckReport) (s : State) : Host.Outcome State Fault Refusal :=
  .next (match (s.core? r.core).bind fun c => c.clusters[r.cluster]? with
    | none => s
    | some k =>
      let s := ((List.range 34).filter fun b => (k.live &&& f.lanes).getLsbD b).foldl (fun s b => s.retireLane r b) s
      let s := f.columns.foldl (fun s x => s.retireColumn r.core x.1 x.2) s
      let s := (s.checkCore r.core).moveOut r.core
      let s := f.banks.foldl (fun s b => s.retireBank r.core b) s
      if k.live &&& f.lanes = 0 then s else s.putReport (s.reportCluster (4 * r.core + r.cluster)))

/-- BANK_COPY_DONE: accesses go to the spare from now on, and a save that the copy has held is made (R127). -/
def execBankCopyDone (core bank : Nat) (s : State) : Host.Outcome State Fault Refusal :=
  .next ((s.modCore core fun c =>
    { c with
      banks := { c.banks with
        served := c.banks.served ++ c.banks.copying.filter fun x => x.1 = bank
        copying := c.banks.copying.filter fun x => x.1 ≠ bank } }).moveOut core)

/-- The key of a bank's count of corrected errors in the present period of 2^20 cycles (R125, R127). -/
def State.bankKey (s : State) (bank : Nat) : Nat := s.cycle.toNat / 1048576 * 100 + bank

/-- CORRECTED_ERROR: the error is counted and logged; the sixteenth in one period retires the bank (R127, R312). -/
def execCorrectedError (core bank : Nat) (s : State) : Host.Outcome State Fault Refusal :=
  .next (match s.core? core with
    | none => s
    | some c =>
      if !(c.hasBank bank) then s
      else
        let n := SMap.look 0 c.banks.errors (s.bankKey bank) + 1
        let s := (s.modCore core fun c => { c with banks := { c.banks with errors := SMap.put 0 c.banks.errors (s.bankKey bank) n } }).logEvent
          (dieOf core) 6 core bank
        if 16 ≤ n then s.retireBank core bank else s)

/-! ## L2 slices (R170, R171) -/

/-- SLICE_RETIREMENT: the slice is evacuated (R171). (DESIGN CHOICE, log entry 35) -/
def execSliceRetirement (die slice : Nat) (s : State) : Host.Outcome State Fault Refusal :=
  .next (match s.die? die with
    | none => s
    | some d =>
      if 64 ≤ slice ∨ (d.retiredSlices ++ d.evacuating).contains slice then s
      else (s.modDie die fun d => { d with evacuating := d.evacuating ++ [slice] }).logEvent die 4 slice 0)

/-- The lines in which a slice keeps a die's black box hold nothing else (R312). -/
def State.clearBox (s : State) (d : Nat) : State :=
  match s.boxSlice d, s.die? d with
  | some k, some x =>
    let here (e : L2Line) : Bool := decide (e.slice = k) && decide (e.way = 15) && decide (e.set < 1024)
    let gone := (x.l2.filter here).map (·.line)
    { s.modDie d fun x => { x with l2 := x.l2.filter fun e => !(here e) } with records := s.records.filter fun r => !(gone.contains r.line) }
  | _, _ => s

/-- SLICE_REMAP: the rebuilt Remap takes effect; lines with a scope record move with it to their new slices, and the others leave L2
(R170, R171). -/
def execSliceRemap (die : Nat) (s : State) : Host.Outcome State Fault Refusal :=
  .next (match s.die? die with
    | none => s
    | some d =>
      if d.evacuating.isEmpty then s
      else
        let gone := d.retiredSlices ++ d.evacuating
        let left := (d.l2.filter fun e => d.evacuating.contains e.slice).map (·.line)
        let s := s.modDie die fun d =>
          { d with
            retiredSlices := gone, evacuating := [], remap := remapOf gone
            l2 := d.l2.filter fun e => !(d.evacuating.contains e.slice) }
        let s := (left.filter fun l => s.records.any fun r => r.line = l).foldl (fun s l => s.l2Fill die (BitVec.allOnes 16) l) s
        let s := s.clearBox die
        s.putReport (s.reportRemap die))

/-! ## Pseudo-channels (R292, R296, R297) -/

/-- A frame of a quadrant. -/
def inQuad (quad : Nat) (x : Xlate) : Bool := decide (x.target = 0) && inHbm x.base && decide (quadOf (segOf x.base) = quad)

/-- The frames of a quadrant leave service: no TLB keeps a translation of them, and no walk gives one (`State.frameOk`) (R297). -/
def State.dropQuad (s : State) (quad : Nat) : State :=
  { s with
    cores := s.cores.map fun k => { k with tlb := k.tlb.filter fun e => !(inQuad quad e.x) }
    dies := s.dies.map fun d => { d with tlb := d.tlb.filter fun e => !(inQuad quad e.x) } }

/-- PSEUDO_CHANNEL_RETIREMENT: the copy to reserve places begins; the third retirement of a quadrant retires the quadrant, whose
segments are poisoned in whole (`State.poisoned`) and whose frames leave service (R296, R297). While another channel of the quadrant is
being copied, the event is ignored. (DESIGN CHOICE, log entry 110) -/
def execPseudoChannelRetirement (quad chan : Nat) (s : State) : Host.Outcome State Fault Refusal :=
  .next (match s.quads[quad]? with
    | none => s
    | some q =>
      if 64 ≤ chan ∨ q.retired.contains chan ∨ q.copying.isSome ∨ q.dead then s
      else
        let s := s.logEvent (linkDie quad) 5 quad chan
        if q.retired.length < 2 then { s with quads := modNth s.quads quad fun q => { q with copying := some chan } }
        else { s with quads := modNth s.quads quad fun q => { q with dead := true } }.dropQuad quad)

/-- PCMAP_UPDATE: the new PcMap takes effect (R296, R297). -/
def execPcmapUpdate (quad : Nat) (s : State) : Host.Outcome State Fault Refusal :=
  .next (match (s.quads[quad]?).bind fun q => q.copying with
    | none => s
    | some chan =>
      let s := { s with quads := modNth s.quads quad fun q => q.retire chan }
      s.putReport (s.reportQuad quad))

/-! ## Uncorrectable errors (R298, R299) -/

/-- The die whose black box takes an error of a line: the link die of its quadrant, or its home die (log entry 18). -/
def State.lineDie (s : State) (line : Nat) : Nat :=
  if inHbm (128 * line) then linkDie (quadOf (segOf (128 * line))) else s.homeDie (128 * line % 2 ^ 64)

/-- A line is poisoned. -/
def State.poisonLine (s : State) (line : Nat) : State := if s.poison.contains line then s else { s with poison := line :: s.poison }

/-- A context fails: its queues are abort-destroyed (R299). -/
def State.failContext (s : State) (ctx : Nat) : State :=
  let s := (s.queues.filter fun q => q.ctx = ctx && decide (q.destroy ≠ .abort)).foldl (fun s q => s.destroyQueue true q) s
  { s with contexts := modNth s.contexts ctx fun x => x.map fun (c : Context) => { c with failed := true } }

/-- A line lies among `n` bytes from an address on. -/
def lineAmong (line key n : Nat) : Bool := decide (key / 128 ≤ line) && decide (128 * line < key + n)

/-- A line of a range of a context's addresses, wherever its pages lie: those that grant a read or a write. -/
def State.inRange (s : State) (ctx first size line : Nat) : Bool :=
  (List.range (size / 65536 + 2)).any fun k =>
    let lo := max first ((first / 65536 + k) * 65536)
    let hi := min (first + size) ((first / 65536 + k + 1) * 65536)
    decide (lo < hi) && [Right.read, .write].any fun a =>
      match s.walk ctx lo a with | .inl x => lineAmong line (physKey x lo) (hi - lo) | .inr _ => false

/-- A line of a queue's rings: that of its packets, and that of its completion records (R254, R256). -/
def State.inRing (s : State) (q : Queue) (line : Nat) : Bool :=
  s.inRange q.ctx q.ring.toNat (64 * 2 ^ q.logSize) line || s.inRange q.ctx q.cring.toNat (32 * 2 ^ q.logSize) line

/-- The partition of which a line holds a structure: the descriptor or a ring of a queue that lives, the fault ring, or its table entry
(R299). -/
def State.partitionLine (s : State) (line : Nat) : Option Nat :=
  ((List.range 16).find? fun n =>
    match s.part? n with
    | some p => lineAmong line p.entry.toNat 128 || lineAmong line p.fring.toNat (32 * 2 ^ p.flog)
    | none => false) <|>
    ((s.queues.find? fun q => s.queueLives q && (lineAmong line q.desc.toNat 64 || s.inRing q line)).map (·.part))

/-- The context that loses the only copy of a write with a line: the event names it, or an L1 holds the line dirty (R299). -/
def State.dirtyOwner (s : State) (e : ErrorSite) : Option Nat :=
  e.dirtyOf <|> s.cores.findSome? fun k => (k.l1.find? fun l => l.line = e.line && decide (l.dirty ≠ 0)).map (·.ctx)

/-- Firmware structures are lost with an error: the event says so, or the line holds the HomeTable or steering records (R299, R311). -/
def firmwareLost (e : ErrorSite) : Bool :=
  e.firmware.isSome || decide (e.line = 0) || (decide (0x40 ≤ e.line) && decide (e.line < 0x2C8))

/-- The dirty bytes of a line are lost in every L1, and its copies are uncorrectable. -/
def State.spoilL1 (s : State) (line : Nat) : State :=
  { s with
    cores := s.cores.map fun (k : Core) =>
      { k with l1 := modWhere (fun l => l.line = line) (fun l => { l with bad := true, dirty := 0, writers := 0 }) k.l1 } }

/-- A partition's structures are lost: every context of it fails, and it accepts no doorbell (R299). -/
def State.failPartition (s : State) (part : Nat) : State :=
  let s := ((List.range 64).filter fun n => match s.ctx? n with | some c => decide (c.part = part) | none => false).foldl
    State.failContext s
  { s with partitions := modNth s.partitions part fun x => x.map fun (p : Partition) => { p with stopped := true } }

/-- UNCORRECTABLE_ERROR: the line is poisoned and the error logged; the lowest row of R299 that applies confines it. A loss of firmware
structures stops every partition and gives a warm start (R310). Who reads the line of a clean page traps when it does (R283). -/
def execUncorrectableError (e : ErrorSite) (s : State) : Host.Outcome State Fault Refusal :=
  let s := { s with
    found := s.found.filter (· ≠ e)
    queues := modWhere (fun (q : Queue) => decide ((q.desc.toNat + 0x18) / 128 = e.line)) (fun q => { q with rungMet := none }) s.queues }
  let t := (s.poisonLine e.line).logEvent (s.lineDie e.line) 7 0 e.line
  .next (if firmwareLost e then
      { t with
        halted := true, image := if e.firmware = some true then .damaged s.drawn else s.image, drawn := t.drawn + 1
        agenda := .event (.warmStart s.ownReport) :: s.agenda }
    else
      match s.partitionLine e.line with
      | some part => (t.spoilL1 e.line).failPartition part
      | none =>
        match s.dirtyOwner e with
        | some ctx => (t.spoilL1 e.line).failContext ctx
        | none => t)

/-! ## Activation counters (R295) -/

/-- The parity bit of a count. -/
def parityOf (n : BitVec 12) : Bool := (List.range 12).foldl (fun b k => b ^^ n.getLsbD k) false

/-- A counter that has been reset. -/
def RowCount.zero : RowCount := { count := 0, parity := false }

/-- The die whose black box takes a parity failure of a row (log entry 18). -/
def rowDie (row : Nat) : Nat := row % 9

/-- NEIGHBOUR_REFRESH: a precharge counts an activation of its row; at the threshold, at saturation, or where the parity check fails, the
neighbours are refreshed and the counter is reset (R295). `upset`: the counter or its parity bit has been upset since its last
update. -/
def execNeighbourRefresh (row : Nat) (upset : Bool) (s : State) : Host.Outcome State Fault Refusal :=
  let r := SMap.look RowCount.zero s.rows row
  let good := parityOf r.count == (r.parity ^^ upset)
  let n := min 4095 (r.count.toNat + 1)
  let s := if good then s else s.logEvent (rowDie row) 6 2 row
  .next { s with
    rows := SMap.put RowCount.zero s.rows row
      (if s.rowLimit ≤ n ∨ 4095 ≤ n ∨ !good then RowCount.zero
       else { count := BitVec.ofNat 12 n, parity := parityOf (BitVec.ofNat 12 n) }) }

end Sys2Proof.Machine
end

