-- ==== Sys2Proof/Machine/HostPort.lean ====
section
/-! DEFINITION. What the host and peers do to memory (R164, R191, R196, R298, R300, R306, R307). A memory place is named by its key:
device physical addresses as they stand, host memory above 2^64 (R306). -/
namespace Sys2Proof.Machine

/-- Bytes of device memory (R291). -/
def inDevice (key n : Nat) : Bool := (inHbm key && inHbm (key + n - 1)) || (inLpddr key && inLpddr (key + n - 1))

/-- Bytes that the host can name: device memory, or its own. (DEDUCED, log entry 59) -/
def hostCan (key n : Nat) : Bool := inDevice key n || (decide (2 ^ 64 ≤ key) && decide (key + n ≤ 2 ^ 65))

/-- The lines of bytes get a .sys record, where they hold one (R182, R191). -/
def State.sysRecords (s : State) (key n : Nat) : State :=
  if n = 0 ∨ !(s.hasRecord (key / 2 ^ 64)) then s
  else (span (key / 128) ((key + n - 1) / 128 + 1 - key / 128)).foldl State.setSysRecord s

/-- A write from outside takes its coherence place (R191, R196). -/
def State.outsideWrite (s : State) (key : Nat) (bytes : List Byte) : State := (s.writeMem key bytes).sysRecords key bytes.length

/-- Some line of bytes is poisoned. -/
def State.anyPoison (s : State) (key n : Nat) : Bool :=
  (span (key / 128) ((key + n - 1) / 128 + 1 - key / 128)).any s.poisoned

/-- A read from outside: the data, marked poisoned if a line is (R298). -/
def State.outsideRead (s : State) (key n : Nat) : State :=
  { s with readBack := s.readMem key n, readPoison := s.anyPoison key n }

/-- HOST_WRITE (R196). -/
def execHostWrite (pa : Nat) (bytes : List Byte) (s : State) : Host.Outcome State Fault Refusal :=
  .next (if s.dead || !(hostCan pa bytes.length) then s else s.outsideWrite pa bytes)

/-- HOST_READ (R298). -/
def execHostRead (pa n : Nat) (s : State) : Host.Outcome State Fault Refusal :=
  .next (if s.dead || !(hostCan pa n) then s else s.outsideRead pa n)

/-- PEER_WRITE (R307). -/
def execPeerWrite (pa : Nat) (bytes : List Byte) (s : State) : Host.Outcome State Fault Refusal :=
  .next (if s.dead || !(inDevice pa bytes.length) then s else s.outsideWrite pa bytes)

/-- PEER_READ (R298). -/
def execPeerRead (pa n : Nat) (s : State) : Host.Outcome State Fault Refusal :=
  .next (if s.dead || !(inDevice pa n) then s else s.outsideRead pa n)

/-- An indivisible operation from outside on `n` bytes: the old value comes back; an uncorrectable line is left as it is. -/
def State.outsideOp (s : State) (pa n : Nat) (f : DWord → DWord) : State :=
  let t := s.outsideRead pa n
  if t.readPoison then t else t.outsideWrite pa (toBytes n (f (BitVec.ofNat 64 (s.readNat pa n))).toNat)

/-- HOST_ATOMIC_CAS: the device is completer of an AtomicOp CAS under PCIe (R300). -/
def execHostAtomicCas (pa : Nat) (wide : Bool) (expect new : DWord) (s : State) : Host.Outcome State Fault Refusal :=
  let n := if wide then 8 else 4
  .next (if s.dead || decide (s.port = .cxl) || !(inDevice pa n) || decide (pa % n ≠ 0) then s
    else s.outsideOp pa n fun old => if old.toNat = expect.toNat % 2 ^ (8 * n) then new else old)

/-- The types that a bank operation takes (R318). -/
def bankTypeOk (op : BitVec 3) (ty : Ty) : Bool :=
  match ty with
  | .b32 => decide (3 ≤ op.toNat) && decide (op.toNat ≤ 6)
  | .s32 | .s64 | .n32 | .n64 => decide (op.toNat ≤ 6)
  | .f32 => decide (op.toNat ≤ 2) || decide (op.toNat = 6)
  | _ => false

/-- PEER_BANK_OPERATION: it runs indivisibly at the home slice, and its old value goes back to the peer (R307, R318, R331). -/
def execPeerBankOperation (op : PeerOp) (pa : Nat) (b c : DWord) (s : State) : Host.Outcome State Fault Refusal :=
  let go (ty : Ty) (ok : Bool) (f : DWord → DWord) : State :=
    let n := tySize ty
    if s.dead || !ok || !(inDevice pa n) || decide (pa % n ≠ 0) then s else s.outsideOp pa n f
  .next (match op with
    | .atom o ty => go ty (bankTypeOk o ty) fun old => bankOp o ty old b
    | .cas ty =>
      go ty (match ty with | .b32 | .s32 | .n32 | .s64 | .n64 => true | _ => false) fun old =>
        if old.toNat = b.toNat % 2 ^ ty.width then c else old)

/-- STOEND_PORT_LOSS (R307). -/
def execStoendPortLoss (port : Nat) (s : State) : Host.Outcome State Fault Refusal :=
  .next { s with livePorts := s.livePorts &&& ~~~(1#12 <<< port) }

/-- The live port that a line of a peer's memory travels on: the one of its mask with rank Bits(A, 12, 7) mod their number (R307). -/
def State.peerPort (s : State) (p : Partition) (peer addr : Nat) : Option Nat :=
  let m := p.peers.getD peer p.ports &&& s.livePorts
  let live := (List.range 12).filter fun k => m.getLsbD k
  live[bits addr 12 7 % live.length]?

end Sys2Proof.Machine
end

