-- ==== Sys2Proof/Machine/Integer.lean ====
section
/-! DEFINITION. The integer instructions and the moves: row 0x2 (R315, R353 to R361, R375, R376, R397). -/
namespace Sys2Proof.Machine

/-- A binary integer instruction (R355, R359). -/
def intBody (op : IntOp) (c : Ctx) : Eff :=
  c.write 2 fun l => intResult c.f.e.ty c.sat (op.exact c.f.e.ty (c.int (c.a l)) (c.int (c.b l)))

/-- A unary integer instruction (R353). -/
def intFnBody (f : Int → Int) (c : Ctx) : Eff := c.write 2 fun l => intResult c.f.e.ty c.sat (f (c.int (c.a l)))

/-- MOV: bits copied and placed (R375). -/
def movBody (c : Ctx) : Eff := c.write 2 fun l => place c.f.e.ty (c.a l)

/-- IADD, base form (R355). -/
def execIadd (b : Base) (s : State) : Host.Outcome State Fault Refusal :=
  issue (Form.ofBase 0x20 b) (intBody .add) s
/-- IADD, literal or extended form (R355). -/
def execIaddExt (f : Long) (s : State) : Host.Outcome State Fault Refusal :=
  issue (Form.ofLong 0x20 f) (intBody .add) s

/-- ISUB, base form (R355). -/
def execIsub (b : Base) (s : State) : Host.Outcome State Fault Refusal :=
  issue (Form.ofBase 0x21 b) (intBody .sub) s
/-- ISUB, literal or extended form (R355). -/
def execIsubExt (f : Long) (s : State) : Host.Outcome State Fault Refusal :=
  issue (Form.ofLong 0x21 f) (intBody .sub) s

/-- IMUL, base form (R355). -/
def execImul (b : Base) (s : State) : Host.Outcome State Fault Refusal :=
  issue (Form.ofBase 0x22 b) (intBody .mul) s
/-- IMUL, literal or extended form (R355). -/
def execImulExt (f : Long) (s : State) : Host.Outcome State Fault Refusal :=
  issue (Form.ofLong 0x22 f) (intBody .mul) s

/-- IMULH, base form (R355). -/
def execImulh (b : Base) (s : State) : Host.Outcome State Fault Refusal :=
  issue (Form.ofBase 0x23 b) (intBody .mulh) s
/-- IMULH, literal or extended form (R355). -/
def execImulhExt (f : Long) (s : State) : Host.Outcome State Fault Refusal :=
  issue (Form.ofLong 0x23 f) (intBody .mulh) s

/-- IDIV, base form (R73, R359). -/
def execIdiv (b : Base) (s : State) : Host.Outcome State Fault Refusal :=
  issue (Form.ofBase 0x25 b) (intBody .div) s
/-- IDIV, literal or extended form (R73, R359). -/
def execIdivExt (f : Long) (s : State) : Host.Outcome State Fault Refusal :=
  issue (Form.ofLong 0x25 f) (intBody .div) s

/-- IREM, base form (R73, R359). -/
def execIrem (b : Base) (s : State) : Host.Outcome State Fault Refusal :=
  issue (Form.ofBase 0x26 b) (intBody .rem) s
/-- IREM, literal or extended form (R73, R359). -/
def execIremExt (f : Long) (s : State) : Host.Outcome State Fault Refusal :=
  issue (Form.ofLong 0x26 f) (intBody .rem) s

/-- IMIN, base form (R355). -/
def execImin (b : Base) (s : State) : Host.Outcome State Fault Refusal :=
  issue (Form.ofBase 0x29 b) (intBody .min) s
/-- IMIN, literal or extended form (R355). -/
def execIminExt (f : Long) (s : State) : Host.Outcome State Fault Refusal :=
  issue (Form.ofLong 0x29 f) (intBody .min) s

/-- IMAX, base form (R355). -/
def execImax (b : Base) (s : State) : Host.Outcome State Fault Refusal :=
  issue (Form.ofBase 0x2A b) (intBody .max) s
/-- IMAX, literal or extended form (R355). -/
def execImaxExt (f : Long) (s : State) : Host.Outcome State Fault Refusal :=
  issue (Form.ofLong 0x2A f) (intBody .max) s

/-- IMAD: one exact product and sum (R360). -/
def execImad (e : Ext) (s : State) : Host.Outcome State Fault Refusal :=
  issue (Form.ofExt 0x24 e) (fun c => c.write 2 fun l =>
    intResult c.f.e.ty c.sat (c.int (c.a l) * c.int (c.b l) + c.int (c.cc l))) s

/-- INEG, base form (R353). -/
def execIneg (b : Base) (s : State) : Host.Outcome State Fault Refusal :=
  issue (Form.ofBase 0x27 b) (intFnBody fun x => -x) s
/-- INEG, extended form (R353). -/
def execInegExt (e : Ext) (s : State) : Host.Outcome State Fault Refusal :=
  issue (Form.ofExt 0x27 e) (intFnBody fun x => -x) s

/-- IABS, base form (R353). -/
def execIabs (b : Base) (s : State) : Host.Outcome State Fault Refusal :=
  issue (Form.ofBase 0x28 b) (intFnBody fun x => x.natAbs) s
/-- IABS, extended form (R353). -/
def execIabsExt (e : Ext) (s : State) : Host.Outcome State Fault Refusal :=
  issue (Form.ofExt 0x28 e) (intFnBody fun x => x.natAbs) s

/-- ISET (R361). -/
def execIset (e : Ext) (s : State) : Host.Outcome State Fault Refusal :=
  issue (Form.ofExt 0x2B e)
    (fun c => c.write 2 fun l => truth (intCond c.f.e.rnd.toNat c.f.e.ty (c.a l) (c.b l))) s

/-- The exact sum or difference of IADDC in a lane (R356). -/
def Ctx.carrySum (c : Ctx) (l : Nat) : Int :=
  let carry : Int := if c.cc l = 0 then 0 else 1
  if c.f.e.mod.getLsbD 0 then c.int (c.a l) - c.int (c.b l) - carry else c.int (c.a l) + c.int (c.b l) + carry

/-- IADDC: the result in D, the carry or borrow out in the predicate C (R356). -/
def execIaddc (e : Ext) (s : State) : Host.Outcome State Fault Refusal :=
  issue (Form.ofExt 0x2C e)
    (fun c =>
      let out (l : Nat) : Bool := decide (c.carrySum l < 0) || decide (((2 ^ c.f.e.ty.width : Nat) : Int) ≤ c.carrySum l)
      .pipe
        [c.result fun l => placeInt c.f.e.ty (c.carrySum l),
          { d := c.f.e.c, wide := false, act := c.act, vals := tableOf c.act fun l => truth (out l) }] 0 2 0 none) s

/-- SEL (R397). -/
def execSel (e : Ext) (s : State) : Host.Outcome State Fault Refusal :=
  issue (Form.ofExt 0x2D e) (fun c => c.write 2 fun l => place c.f.e.ty (if c.cc l ≠ 0 then c.a l else c.b l)) s

/-- MOV, base form (R375). -/
def execMov (b : Base) (s : State) : Host.Outcome State Fault Refusal :=
  issue (Form.ofBase 0x2E b) movBody s
/-- MOV, extended form (R375). -/
def execMovExt (e : Ext) (s : State) : Host.Outcome State Fault Refusal :=
  issue (Form.ofExt 0x2E e) movBody s

/-- MOVI with the 8-bit immediate (R376). -/
def execMovi (b : Base) (s : State) : Host.Outcome State Fault Refusal := issue (Form.ofBase 0x2F b) movBody s
/-- MOVI with the literal (R376). -/
def execMoviLit (g : Guard) (d : BitVec 8) (m : BitVec 2) (x : DWord) (s : State) : Host.Outcome State Fault Refusal :=
  issue (Form.ofLit 0x2F { g := g, d := d, a := 0, m := m } x) movBody s

end Sys2Proof.Machine
end

