-- ==== Sys2Proof/Machine/Logic.lean ====
section
/-! DEFINITION. The logical, shift and bit-field instructions: row 0x3 (R316, R325, R330, R379, R385, R388, R395, R415). -/
namespace Sys2Proof.Machine

/-- A bitwise operation or a shift (R316, R395). -/
def bitBody (op : BitOp) (c : Ctx) : Eff :=
  c.write 2 fun l =>
    BitVec.ofNat 64 (op.apply c.f.e.ty.width (uval c.f.e.ty (c.a l))
      (if op.isShift then (loWord (c.b l)).toNat else uval c.f.e.ty (c.b l)))

/-- A unary bit operation (R330, R385). -/
def bitFnBody (fn : BitFn) (c : Ctx) : Eff :=
  c.write 2 fun l => BitVec.ofNat 64 (fn.apply c.f.e.ty.width (uval c.f.e.ty (c.a l)))

/-- AND, base form (R316). -/
def execAndW (b : Base) (s : State) : Host.Outcome State Fault Refusal :=
  issue (Form.ofBase 0x30 b) (bitBody .and) s
/-- AND, literal or extended form (R316). -/
def execAndExt (f : Long) (s : State) : Host.Outcome State Fault Refusal :=
  issue (Form.ofLong 0x30 f) (bitBody .and) s

/-- ANDN, base form (R316). -/
def execAndn (b : Base) (s : State) : Host.Outcome State Fault Refusal :=
  issue (Form.ofBase 0x31 b) (bitBody .andn) s
/-- ANDN, literal or extended form (R316). -/
def execAndnExt (f : Long) (s : State) : Host.Outcome State Fault Refusal :=
  issue (Form.ofLong 0x31 f) (bitBody .andn) s

/-- OR, base form (R379). -/
def execOrW (b : Base) (s : State) : Host.Outcome State Fault Refusal :=
  issue (Form.ofBase 0x32 b) (bitBody .or) s
/-- OR, literal or extended form (R379). -/
def execOrExt (f : Long) (s : State) : Host.Outcome State Fault Refusal :=
  issue (Form.ofLong 0x32 f) (bitBody .or) s

/-- XOR, base form (R415). -/
def execXorW (b : Base) (s : State) : Host.Outcome State Fault Refusal :=
  issue (Form.ofBase 0x33 b) (bitBody .xor) s
/-- XOR, literal or extended form (R415). -/
def execXorExt (f : Long) (s : State) : Host.Outcome State Fault Refusal :=
  issue (Form.ofLong 0x33 f) (bitBody .xor) s

/-- SHL, base form (R395). -/
def execShl (b : Base) (s : State) : Host.Outcome State Fault Refusal :=
  issue (Form.ofBase 0x35 b) (bitBody .shl) s
/-- SHL, literal or extended form (R395). -/
def execShlExt (f : Long) (s : State) : Host.Outcome State Fault Refusal :=
  issue (Form.ofLong 0x35 f) (bitBody .shl) s

/-- SHR, base form (R395). -/
def execShr (b : Base) (s : State) : Host.Outcome State Fault Refusal :=
  issue (Form.ofBase 0x36 b) (bitBody .shr) s
/-- SHR, literal or extended form (R395). -/
def execShrExt (f : Long) (s : State) : Host.Outcome State Fault Refusal :=
  issue (Form.ofLong 0x36 f) (bitBody .shr) s

/-- SAR, base form (R395). -/
def execSar (b : Base) (s : State) : Host.Outcome State Fault Refusal :=
  issue (Form.ofBase 0x37 b) (bitBody .sar) s
/-- SAR, literal or extended form (R395). -/
def execSarExt (f : Long) (s : State) : Host.Outcome State Fault Refusal :=
  issue (Form.ofLong 0x37 f) (bitBody .sar) s

/-- ROL, base form (R395). -/
def execRol (b : Base) (s : State) : Host.Outcome State Fault Refusal :=
  issue (Form.ofBase 0x38 b) (bitBody .rol) s
/-- ROL, literal or extended form (R395). -/
def execRolExt (f : Long) (s : State) : Host.Outcome State Fault Refusal :=
  issue (Form.ofLong 0x38 f) (bitBody .rol) s

/-- NOT, base form (R379). -/
def execNotW (b : Base) (s : State) : Host.Outcome State Fault Refusal :=
  issue (Form.ofBase 0x34 b) (bitFnBody .not) s
/-- NOT, extended form (R379). -/
def execNotExt (e : Ext) (s : State) : Host.Outcome State Fault Refusal :=
  issue (Form.ofExt 0x34 e) (bitFnBody .not) s

/-- CLZ, base form (R330). -/
def execClz (b : Base) (s : State) : Host.Outcome State Fault Refusal :=
  issue (Form.ofBase 0x39 b) (bitFnBody .clz) s
/-- CLZ, extended form (R330). -/
def execClzExt (e : Ext) (s : State) : Host.Outcome State Fault Refusal :=
  issue (Form.ofExt 0x39 e) (bitFnBody .clz) s

/-- CTZ, base form (R330). -/
def execCtz (b : Base) (s : State) : Host.Outcome State Fault Refusal :=
  issue (Form.ofBase 0x3A b) (bitFnBody .ctz) s
/-- CTZ, extended form (R330). -/
def execCtzExt (e : Ext) (s : State) : Host.Outcome State Fault Refusal :=
  issue (Form.ofExt 0x3A e) (bitFnBody .ctz) s

/-- POPC, base form (R385). -/
def execPopc (b : Base) (s : State) : Host.Outcome State Fault Refusal :=
  issue (Form.ofBase 0x3B b) (bitFnBody .popc) s
/-- POPC, extended form (R385). -/
def execPopcExt (e : Ext) (s : State) : Host.Outcome State Fault Refusal :=
  issue (Form.ofExt 0x3B e) (bitFnBody .popc) s

/-- BREV, base form (R330). -/
def execBrev (b : Base) (s : State) : Host.Outcome State Fault Refusal :=
  issue (Form.ofBase 0x3C b) (bitFnBody .brev) s
/-- BREV, extended form (R330). -/
def execBrevExt (e : Ext) (s : State) : Host.Outcome State Fault Refusal :=
  issue (Form.ofExt 0x3C e) (bitFnBody .brev) s

/-- BFX (R325). -/
def execBfx (e : Ext) (s : State) : Host.Outcome State Fault Refusal :=
  issue (Form.ofExt 0x3D e)
    (fun c => c.write 2 fun l => bfx c.f.e.ty (uval c.f.e.ty (c.a l)) (loWord (c.b l)).toNat) s
/-- BFI (R325). -/
def execBfi (e : Ext) (s : State) : Host.Outcome State Fault Refusal :=
  issue (Form.ofExt 0x3E e)
    (fun c => c.write 2 fun l => bfi c.f.e.ty (uval c.f.e.ty (c.a l)) (uval c.f.e.ty (c.b l)) (loWord (c.cc l)).toNat) s
/-- PRMT (R388). -/
def execPrmt (e : Ext) (s : State) : Host.Outcome State Fault Refusal :=
  issue (Form.ofExt 0x3F e)
    (fun c => c.write 2 fun l =>
      BitVec.ofNat 64 (prmt (loWord (c.a l)).toNat (loWord (c.b l)).toNat (loWord (c.cc l)).toNat)) s

end Sys2Proof.Machine
end

