-- ==== Sys2Proof/Machine/Packed.lean ====
section
/-! DEFINITION. The packed forms (rows 0xD and 0xE) and the per-lane indexed register access VXR, VXW (R62 to R64, R109, R362,
R395, R412). -/
namespace Sys2Proof.Machine

/-- A packed integer instruction: `n` elements, each from its elements of A, B and C (R109). -/
def packedInt (n : Nat) (f : Int → Int → Int → Int) (c : Ctx) : Eff :=
  let t := c.f.e.ty
  let v (k : Nat) (x : DWord) : Int := intVal t (element t.width k x)
  c.writeF 4 fun l =>
    packed t.width n fun k => ((intResult t c.sat (f (v k (c.a l)) (v k (c.b l)) (v k (c.cc l)))).toNat, 0)

/-- A packed shift: the count is the element of B (R395). -/
def packedShift (op : BitOp) (c : Ctx) : Eff :=
  c.writeF 4 fun l => packed 16 2 fun k => (op.apply 16 (element 16 k (c.a l)) (element 16 k (c.b l)), 0)

/-- A packed float instruction (R109, R362). -/
def packedFloat (f : Fmt → Rm → Nat → Nat → Nat → FRes) (c : Ctx) : Eff :=
  c.writeF 4 fun l =>
    packed 16 2 fun k => f (fmtOf c.f.e.ty) c.rm (element 16 k (c.a l)) (element 16 k (c.b l)) (element 16 k (c.cc l))

/-- IADD.x2 (R362). -/
def execIaddX2 (e : Ext) (s : State) : Host.Outcome State Fault Refusal :=
  issue (Form.ofExt 0xD0 e) (packedInt 2 fun a b _ => a + b) s
/-- ISUB.x2 (R362). -/
def execIsubX2 (e : Ext) (s : State) : Host.Outcome State Fault Refusal :=
  issue (Form.ofExt 0xD1 e) (packedInt 2 fun a b _ => a - b) s
/-- IMUL.x2 (R362). -/
def execImulX2 (e : Ext) (s : State) : Host.Outcome State Fault Refusal :=
  issue (Form.ofExt 0xD2 e) (packedInt 2 fun a b _ => a * b) s
/-- IMAD.x2 (R362). -/
def execImadX2 (e : Ext) (s : State) : Host.Outcome State Fault Refusal :=
  issue (Form.ofExt 0xD3 e) (packedInt 2 fun a b c => a * b + c) s
/-- IMIN.x2 (R362). -/
def execIminX2 (e : Ext) (s : State) : Host.Outcome State Fault Refusal :=
  issue (Form.ofExt 0xD4 e) (packedInt 2 fun a b _ => if a < b then a else b) s
/-- IMAX.x2 (R362). -/
def execImaxX2 (e : Ext) (s : State) : Host.Outcome State Fault Refusal :=
  issue (Form.ofExt 0xD5 e) (packedInt 2 fun a b _ => if a < b then b else a) s
/-- IABS.x2 (R362). -/
def execIabsX2 (e : Ext) (s : State) : Host.Outcome State Fault Refusal :=
  issue (Form.ofExt 0xD6 e) (packedInt 2 fun a _ _ => a.natAbs) s
/-- INEG.x2 (R362). -/
def execInegX2 (e : Ext) (s : State) : Host.Outcome State Fault Refusal :=
  issue (Form.ofExt 0xD7 e) (packedInt 2 fun a _ _ => -a) s
/-- IADD.x4 (R362). -/
def execIaddX4 (e : Ext) (s : State) : Host.Outcome State Fault Refusal :=
  issue (Form.ofExt 0xDB e) (packedInt 4 fun a b _ => a + b) s
/-- ISUB.x4 (R362). -/
def execIsubX4 (e : Ext) (s : State) : Host.Outcome State Fault Refusal :=
  issue (Form.ofExt 0xDC e) (packedInt 4 fun a b _ => a - b) s
/-- IMIN.x4 (R362). -/
def execIminX4 (e : Ext) (s : State) : Host.Outcome State Fault Refusal :=
  issue (Form.ofExt 0xDD e) (packedInt 4 fun a b _ => if a < b then a else b) s
/-- IMAX.x4 (R362). -/
def execImaxX4 (e : Ext) (s : State) : Host.Outcome State Fault Refusal :=
  issue (Form.ofExt 0xDE e) (packedInt 4 fun a b _ => if a < b then b else a) s
/-- IABS.x4 (R362). -/
def execIabsX4 (e : Ext) (s : State) : Host.Outcome State Fault Refusal :=
  issue (Form.ofExt 0xDF e) (packedInt 4 fun a _ _ => a.natAbs) s
/-- SHL.x2 (R395). -/
def execShlX2 (e : Ext) (s : State) : Host.Outcome State Fault Refusal :=
  issue (Form.ofExt 0xD8 e) (packedShift .shl) s
/-- SHR.x2 (R395). -/
def execShrX2 (e : Ext) (s : State) : Host.Outcome State Fault Refusal :=
  issue (Form.ofExt 0xD9 e) (packedShift .shr) s
/-- SAR.x2 (R395). -/
def execSarX2 (e : Ext) (s : State) : Host.Outcome State Fault Refusal :=
  issue (Form.ofExt 0xDA e) (packedShift .sar) s
/-- FADD.x2 (R362). -/
def execFaddX2 (e : Ext) (s : State) : Host.Outcome State Fault Refusal :=
  issue (Form.ofExt 0xE0 e) (packedFloat fun f r a b _ => Machine.fadd f r a b) s
/-- FSUB.x2 (R362). -/
def execFsubX2 (e : Ext) (s : State) : Host.Outcome State Fault Refusal :=
  issue (Form.ofExt 0xE1 e) (packedFloat fun f r a b _ => Machine.fsub f r a b) s
/-- FMUL.x2 (R362). -/
def execFmulX2 (e : Ext) (s : State) : Host.Outcome State Fault Refusal :=
  issue (Form.ofExt 0xE2 e) (packedFloat fun f r a b _ => Machine.fmul f r a b) s
/-- FFMA.x2 (R362). -/
def execFfmaX2 (e : Ext) (s : State) : Host.Outcome State Fault Refusal :=
  issue (Form.ofExt 0xE3 e) (packedFloat fun f r a b c => Machine.ffma f r a b c) s
/-- FMIN.x2 (R362). -/
def execFminX2 (e : Ext) (s : State) : Host.Outcome State Fault Refusal :=
  issue (Form.ofExt 0xE4 e) (packedFloat fun f _ a b _ => fminmax f false a b) s
/-- FMAX.x2 (R362). -/
def execFmaxX2 (e : Ext) (s : State) : Host.Outcome State Fault Refusal :=
  issue (Form.ofExt 0xE5 e) (packedFloat fun f _ a b _ => fminmax f true a b) s
/-- FABS.x2 (R362). -/
def execFabsX2 (e : Ext) (s : State) : Host.Outcome State Fault Refusal :=
  issue (Form.ofExt 0xE6 e) (packedFloat fun f _ a _ _ => (fsignOp f false a, 0)) s
/-- FNEG.x2 (R362). -/
def execFnegX2 (e : Ext) (s : State) : Host.Outcome State Fault Refusal :=
  issue (Form.ofExt 0xE7 e) (packedFloat fun f _ a _ _ => (fsignOp f true a, 0)) s
/-- FRND.x2 (R362). -/
def execFrndX2 (e : Ext) (s : State) : Host.Outcome State Fault Refusal :=
  issue (Form.ofExt 0xE8 e) (packedFloat fun f r a _ _ => Machine.frnd f r a) s

/-! ## VXR and VXW -/

/-- The lowest active lane whose index is no v register of the kernel (R62). -/
def Ctx.badIndex (c : Ctx) : Option Nat := (lanesOf c.act).find? fun l => decide (c.g.header.vregs ≤ (loWord (c.a l)).toNat)

/-- The bank accesses that a lane makes of a register in a form: one of UNIFORM, two of DELTA8, three of DELTA16, which every lane of a
beat shares, and its own of FULL (R59). -/
def lanePlaces (form : BitVec 2) (l : Nat) : List Nat := if form = 3 then [l] else List.range (form.toNat + 1)

/-- The beats that VXR and VXW take beyond those of the steering table: in each beat of the strand one cycle for each bank that its
active lanes touch, and at least one for each access of a form; `reg` is the register of each lane, and `form` the form of a register
(R59, R63). (DESIGN CHOICE, log entry 65) -/
def Ctx.bankCycles (c : Ctx) (reg : Nat → Nat) (form : Nat → BitVec 2) : Nat :=
  let w := (c.s.clusterOf c.c c.t).width
  let places (l : Nat) : List Nat := lanePlaces (form (reg l)) l
  let cycles (b : Nat) : Nat :=
    let ls := (lanesOf c.act).filter fun l => beatOf w l = b
    max ((ls.flatMap fun l => (places l).map (Config.vBank (reg l))).eraseDups.length) ((ls.map fun l => (places l).length).foldl max 1)
  (((List.range (beatsOfWidth w)).map cycles).foldl (· + ·) 0) - c.beats

/-- VXR (R62, R63). -/
def execVxr (e : Ext) (s : State) : Host.Outcome State Fault Refusal :=
  issue (Form.ofExt 0xE9 e)
    (fun c =>
      match c.badIndex with
      | some l => c.raise .regRange 0 l
      | none =>
        .pipe [c.result fun l => (c.t.vAt (loWord (c.a l)).toNat l).setWidth 64] 0 4
          (c.bankCycles (fun l => (loWord (c.a l)).toNat) fun n => SMap.look 0 c.t.forms n) none) s

/-- VXW (R62, R63): each register that a lane names is written in the lanes that name it. -/
def execVxw (e : Ext) (s : State) : Host.Outcome State Fault Refusal :=
  issue (Form.ofExt 0xEA e)
    (fun c =>
      match c.badIndex with
      | some l => c.raise .regRange 0 l
      | none =>
        let names := ((lanesOf c.act).map fun l => (loWord (c.a l)).toNat).eraseDups
        let named (n : Nat) : Mask := maskOf fun l => hasLane c.act l && decide ((loWord (c.a l)).toNat = n)
        .pipe
          (names.map fun n =>
            let m := named n
            { d := .v (BitVec.ofNat 8 n), wide := false, act := m, vals := tableOf m fun l => c.b l }) 0 4
          (c.bankCycles (fun l => (loWord (c.a l)).toNat) fun n =>
            if c.t.live &&& ~~~(named n) = 0 then formOf c.t.live (fun l => loWord (c.b l)) else 3)
          none) s

end Sys2Proof.Machine
end

