-- ==== Sys2Proof/Machine/Predicate.lean ====
section
/-! DEFINITION. The predicate, vote, shuffle, match and reduction instructions: rows 0x10 to 0x1F (R372, R380, R381, R391,
R392, R398, R399, R411). -/
namespace Sys2Proof.Machine

/-- A source as a truth value, negated by its MOD bit (R381). -/
def Ctx.truthOf (c : Ctx) (x : DWord) (bit : Nat) : Bool := decide (x ≠ 0) != c.f.e.mod.getLsbD bit

/-- The predicate operations (R381). -/
def predBody (f : Bool → Bool → Bool) (c : Ctx) : Eff :=
  c.write 2 fun l => truth (f (c.truthOf (c.a l) 0) (c.truthOf (c.b l) 1))

/-- PAND (R381). -/
def execPand (e : Ext) (s : State) : Host.Outcome State Fault Refusal := issue (Form.ofExt 0x10 e) (predBody fun a b => a && b) s
/-- POR (R381). -/
def execPor (e : Ext) (s : State) : Host.Outcome State Fault Refusal := issue (Form.ofExt 0x11 e) (predBody fun a b => a || b) s
/-- PXOR (R381). -/
def execPxor (e : Ext) (s : State) : Host.Outcome State Fault Refusal := issue (Form.ofExt 0x12 e) (predBody fun a b => a != b) s
/-- PNOT (R381). -/
def execPnot (e : Ext) (s : State) : Host.Outcome State Fault Refusal := issue (Form.ofExt 0x13 e) (predBody fun a _ => !a) s
/-- PMOV (R381). -/
def execPmov (e : Ext) (s : State) : Host.Outcome State Fault Refusal := issue (Form.ofExt 0x14 e) (predBody fun a _ => a) s

/-- The active lanes in which the condition of a VOTE holds (R411). -/
def Ctx.voted (c : Ctx) : Mask := maskOf fun l => hasLane c.act l && c.truthOf (c.a l) 0

/-- VOTE: one value for every active lane (R411). -/
def voteBody (f : Mask → Mask → DWord) (c : Ctx) : Eff := c.write 4 fun _ => f c.act c.voted

/-- VOTE.all (R411). -/
def execVoteAll (e : Ext) (s : State) : Host.Outcome State Fault Refusal :=
  issue (Form.ofExt 0x15 e) (voteBody fun act x => truth (decide (x = act))) s
/-- VOTE.any (R411). -/
def execVoteAny (e : Ext) (s : State) : Host.Outcome State Fault Refusal :=
  issue (Form.ofExt 0x16 e) (voteBody fun _ x => truth (decide (x ≠ 0))) s
/-- VOTE.ballot (R411). -/
def execVoteBallot (e : Ext) (s : State) : Host.Outcome State Fault Refusal :=
  issue (Form.ofExt 0x17 e) (voteBody fun _ x => x.setWidth 64) s

/-- Beat of a lane on the strand's cluster. -/
def Ctx.beatOf (c : Ctx) (l : Nat) : Nat := Machine.beatOf (c.s.clusterOf c.c c.t).width l

/-- SHFL (R399): every read before any write. -/
def shflBody (m : Nat) (c : Ctx) : Eff :=
  let gl := (c.f.e.aux &&& 7#8).toNat
  let src (l : Nat) : Option Nat :=
    match shflSource m (c.f.e.aux.getLsbD 3) gl l (loWord (c.b l)).toNat with
    | some s => if hasLane c.act s then some s else none
    | none => none
  let far := (lanesOf c.act).any fun l => match src l with | some s => decide (c.beatOf s ≠ c.beatOf l) | none => false
  .pipe [c.result fun l =>
      match src l with
      | some s => c.a s
      | none => if c.f.e.aux.getLsbD 4 then 0 else c.a l] 0 4 (if far then 1 else 0) none

/-- SHFL.idx (R399). -/
def execShflIdx (e : Ext) (s : State) : Host.Outcome State Fault Refusal := issue (Form.ofExt 0x18 e) (shflBody 0) s
/-- SHFL.up (R399). -/
def execShflUp (e : Ext) (s : State) : Host.Outcome State Fault Refusal := issue (Form.ofExt 0x19 e) (shflBody 1) s
/-- SHFL.down (R399). -/
def execShflDown (e : Ext) (s : State) : Host.Outcome State Fault Refusal := issue (Form.ofExt 0x1A e) (shflBody 2) s
/-- SHFL.xor (R399). -/
def execShflXor (e : Ext) (s : State) : Host.Outcome State Fault Refusal := issue (Form.ofExt 0x1B e) (shflBody 3) s

/-- The beat more of REDS, SCAN and MATCH when Active() spans more than one beat (R123). -/
def Ctx.spanBeat (c : Ctx) : Nat := if 1 < c.beats then 1 else 0

/-- MATCH.any (R372). -/
def execMatchAny (e : Ext) (s : State) : Host.Outcome State Fault Refusal :=
  issue (Form.ofExt 0x1C e)
    (fun c => .pipe [c.result fun l => (maskOf fun k => hasLane c.act k && decide (c.a k = c.a l)).setWidth 64] 0 4 c.spanBeat none) s

/-- MATCH.all (R372). -/
def execMatchAll (e : Ext) (s : State) : Host.Outcome State Fault Refusal :=
  issue (Form.ofExt 0x1D e)
    (fun c =>
      let same := (lanesOf c.act).all fun l => decide (c.a l = c.a c.low)
      .pipe [c.result fun _ => if same then c.act.setWidth 64 else 0] 0 4 c.spanBeat none) s

/-- REDS and SCAN (R392). `sub` gives the set of lanes that lane l combines. -/
def redsBody (sub : Mask → Nat → Mask) (c : Ctx) : Eff :=
  let op := redsOp c.f.e.mod.toNat c.f.e.ty c.rm
  let r (l : Nat) : DWord × Flags := treeCombine op (fun k => place c.f.e.ty (c.a k)) (sub c.act l)
  .pipe [c.result fun l => (r l).1] ((lanesOf c.act).foldl (fun x l => x ||| (r l).2) 0) 8 c.spanBeat none

/-- REDS (R392). -/
def execReds (e : Ext) (s : State) : Host.Outcome State Fault Refusal := issue (Form.ofExt 0x1E e) (redsBody fun m _ => m) s
/-- SCAN (R392), inclusive. -/
def execScan (e : Ext) (s : State) : Host.Outcome State Fault Refusal :=
  issue (Form.ofExt 0x1F e) (redsBody fun m l => m &&& maskOf fun k => decide (k ≤ l)) s

end Sys2Proof.Machine
end

