-- ==== Sys2Proof/Machine/System.lean ====
section
/-! DEFINITION. Special registers, traps and their return, the replay queue, the watchdog, TLB and instruction-cache
invalidation: row 0xC, and the words that always trap (R53 to R58, R106, R277 to R281, R290, R326, R333, R334, R357, R396,
R406 to R408, R414). -/
namespace Sys2Proof.Machine

/-! ## Special registers (R54) -/

/-- %cohorts (R33). -/
def cohortsWord (ms : List Nat) : Nat :=
  (List.range 4).foldl (fun w m => w + (ms.getD m 0xFF) % 256 * 2 ^ (8 * m)) 0

/-- A half of the DONE bits of the copy tags. -/
def Crew.ctags (k : Crew) (hi : Bool) : Nat :=
  (List.range 32).foldl
    (fun w n => if (k.tag (if hi then 32 + n else n)).state = .done then w + 2 ^ n else w) 0

/-- %launchq. -/
def Grid.launchq (g : Grid) : Nat :=
  g.queue % 2 ^ 16 + match g.origin with | .device _ => 2 ^ 16 | _ => 0

/-- The high word that %clock.hi reads (R56). (DEDUCED, log entry 70) -/
def Ctx.clockHigh (c : Ctx) : Word := hiWord ((c.t.clock).getD c.s.cycle)

/-- A register of the trap frame, 0 outside a handler (R54). -/
def Ctx.frame (c : Ctx) (f : Frame → Nat) : Nat := match c.t.handler with | some fr => f fr | none => 0

/-- The value of a special register for a lane; none for a reserved index (R54). -/
def Ctx.special (c : Ctx) (idx l : Nat) : Option Nat :=
  match idx with
  | 0x00 => some (c.item l % 2 ^ 32)
  | 0x01 => some (c.item l / 2 ^ 32)
  | 0x02 => some l
  | 0x03 => some c.t.idx
  | 0x04 => some c.g.record.nstrand
  | 0x05 => some c.c.idx
  | 0x06 => some (c.g.ncrew % 2 ^ 32)
  | 0x07 => some (cohortsWord (c.g.memberships c.c.idx))
  | 0x08 => some c.c.vdie
  | 0x09 => some (c.core % 36)
  | 0x0A => some (c.s.clusterOf c.c c.t).width
  | 0x0B => some (beatsOfWidth (c.s.clusterOf c.c c.t).width)
  | 0x0C => some (c.c.ctags false)
  | 0x0D => some (c.c.ctags true)
  | 0x0E => some (loWord c.s.cycle).toNat
  | 0x0F => some c.clockHigh.toNat
  | 0x10 => some (match c.s.core? c.core with | some k => k.ustore | none => 0)
  | 0x11 => some c.t.fp.toNat
  | 0x12 => some c.c.prio.toNat
  | 0x13 => some c.c.handler.toNat
  | 0x14 => some (c.frame fun f => f.cause.toNat)
  | 0x15 => some (c.frame fun f => (loWord f.addr).toNat)
  | 0x16 => some (c.frame fun f => (hiWord f.addr).toNat)
  | 0x17 => some (c.frame fun f => f.queue.length)
  | 0x18 => some (c.frame fun f => f.pc.toNat)
  | 0x19 => some c.g.launchq
  | 0x1A => some c.g.ctx
  | 0x1B => some c.g.part
  | _ => none

/-- An instruction that can set a %fpmode flag and is in flight; MSTA among them (R334). -/
def Ctx.flagsComing (c : Ctx) : Bool :=
  (c.t.inflight.any fun x =>
    match x.state with
    | .pipe _ _ _ _ =>
      let op := opOf (wordsOf x.entry.instr)
      decide (op / 16 = 4) || decide (op / 16 = 5) || decide (op / 16 = 0xD) || decide (op / 16 = 0xE) || decide (op / 16 = 1)
    | _ => false) || !c.quiet

/-- A read of %clock.lo is in flight. -/
def Ctx.clockComing (c : Ctx) : Bool :=
  c.t.inflight.any fun x => match x.state with | .pipe _ _ _ ck => ck.isSome | _ => false

/-- The index that IMM16 gives. -/
def Ctx.srIndex (c : Ctx) : Nat := c.f.e.imm.toNat

/-- CSRR (R56, R334). -/
def csrrBody (c : Ctx) : Eff :=
  match c.special c.srIndex 0 with
  | none => c.fail .illegalOperand
  | some _ =>
    if c.srIndex = 0x11 && c.flagsComing then .stay c.s .retry
    else if c.srIndex = 0x0F && c.clockComing then .stay c.s .retry
    else
      .pipe [c.result fun l => BitVec.ofNat 64 ((c.special c.srIndex l).getD 0)] 0 2 0
        (if c.srIndex = 0x0E then some c.s.cycle else none)

/-- CSRR (R334). -/
def execCsrr (e : Ext) (s : State) : Host.Outcome State Fault Refusal := issue (Form.ofExt 0xC0 e) csrrBody s

/-- CSRW (R55, R57, R334). -/
def csrwBody (c : Ctx) : Eff :=
  let x := loWord (c.a c.low)
  match c.srIndex with
  | 0x11 =>
    if x &&& 0xFFFFFE04#32 ≠ 0 then c.fail .illegalOperand else .go (c.onStrand c.s fun t => { t with fp := x }) none 0
  | 0x12 => c.setPrio x
  | 0x13 =>
    if x ≠ 0 && !(codeOffsetOk x.toNat) then c.fail .illegalOperand
    else .go (c.onCrew c.s fun k => { k with handler := x }) none 0
  | _ => c.fail .illegalOperand

/-- CSRW (R334). -/
def execCsrw (e : Ext) (s : State) : Host.Outcome State Fault Refusal := issue (Form.ofExt 0xC1 e) csrwBody s

/-! ## Traps and the return from one -/

/-- TRAP (R281, R407). -/
def execTrap (e : Ext) (s : State) : Host.Outcome State Fault Refusal :=
  issue (Form.ofExt 0xC2 e) (fun c => c.raise .swtrap (c.f.e.imm.setWidth 64) c.low) s

/-- The .skip of the handler item with the lowest lane (R280). -/
def Strand.lowestSkip (t : Strand) : Bool :=
  (t.splits.foldl
    (fun (m : Option Path) p => match m with | none => some p | some q => if lowest p.mask < lowest q.mask then some p else m)
    none).elim false fun p => match p.wait with | .trapret k => k | _ => false

/-- TRAPRET: the split stands at it until every handler item does; then the strand leaves its handler (R280). (DEDUCED, log entry 71) -/
def trapretBody (c : Ctx) : Eff :=
  if !c.t.inHandler then (if c.act = 0 then c.nothing else c.fail .illegalOperand)
  else
    let skip := c.f.e.mod.getLsbD 0
    let s := c.onStrand c.s fun t => t.modSplit (lowest c.iss.mask) fun p => { p with wait := .trapret skip }
    match s.strand? c.r with
    | some t => if t.gathered then .done ((s.tick c.beats).trapReturn c.r t.lowestSkip) else .stay c.s (.trapret skip)
    | none => .stay c.s (.trapret skip)

/-- TRAPRET (R280, R407). -/
def execTrapret (e : Ext) (s : State) : Host.Outcome State Fault Refusal := issue (Form.ofExt 0xC3 e) trapretBody s

/-- BKPT (R281, R326). -/
def execBkpt (g : Guard) (s : State) : Host.Outcome State Fault Refusal :=
  issue (Form.plain 0xC4 g 1) (fun c => c.fail .bkpt) s

/-! ## The replay queue (R277, R279) -/

/-- The selector of RPLQ and RPLW. -/
def Ctx.replaySel (c : Ctx) : Nat := (c.f.e.aux &&& 0x3F#8).toNat

/-- The entry that operand A names. -/
def Ctx.replayEntry (c : Ctx) : Option (Nat × ReplayEntry) :=
  match c.t.handler with
  | none => none
  | some fr => let n := (loWord (c.a c.low)).toNat; (fr.queue[n]?).map fun e => (n, e)

/-- The operand position of a per-lane selector. For STV, whose value stands in D, OPC is that value (R277, R405). (DEDUCED, log entry 41) -/
def replayPos (f : Form) (sel : Nat) : Option Pos :=
  match sel / 2 with
  | 4 => some .a
  | 5 => some .b
  | 6 => some (if f.op = 0x89 then .d else .c)
  | _ => none

/-- A half of a value. -/
def halfOf (x : DWord) (hi : Bool) : Word := if hi then hiWord x else loWord x

/-- Word `n` of an instruction, 0 beyond those that it has; the literal of a base form is no word of it (R277). -/
def ReplayEntry.word (e : ReplayEntry) (n : Nat) : Nat :=
  let w := wordsOf e.instr
  let base := decide (lOf w = 0) || decide (lOf w = 2)
  if base && decide (n ≠ 0) then 0 else w / 2 ^ (32 * n) % 2 ^ 32

/-- Half of the literal. -/
def ReplayEntry.litWord (e : ReplayEntry) (hi : Bool) : Nat :=
  let w := wordsOf e.instr
  let at1 := match lOf w with | 2 => 32 | 3 => 96 | _ => 160
  w / 2 ^ (at1 + if hi then 32 else 0) % 2 ^ 32

/-- CTRL of an entry. -/
def ReplayEntry.ctrl (e : ReplayEntry) : Nat :=
  let w := wordsOf e.instr
  opOf w + lOf w * 2 ^ 8 + (if e.trapping then 2 ^ 10 else 0) + (if e.skip then 2 ^ 11 else 0)

/-- A uniform field of an entry. -/
def ReplayEntry.uniform (e : ReplayEntry) (sel : Nat) : Nat :=
  match sel with
  | 0 => e.ctrl
  | 1 => e.pc.toNat
  | 2 => e.mask.toNat
  | 3 => e.word 0
  | 4 => e.word 1
  | 5 => e.word 2
  | 6 => e.litWord false
  | _ => e.litWord true

/-- A per-lane field of an entry; none where its instruction has no such operand (R277). -/
def ReplayEntry.lane (e : ReplayEntry) (sel l : Nat) : Option Word :=
  let hi := decide (sel % 2 = 1)
  let seen (x : DWord) : Word := if hasLane e.captured l then halfOf x hi else 0
  if sel / 2 = 7 then some (seen (SMap.look 0 e.ea l))
  else
    match replayPos (Form.ofInstr e.instr) sel with
    | none => none
    | some p =>
      match (Form.ofInstr e.instr).rd? p with
      | none => none
      | some r => some (if hi && !r.wide then 0 else seen (SMap.look 0 (e.opnd p) l))

/-- RPLQ (R279). -/
def rplqBody (c : Ctx) : Eff :=
  match c.replayEntry with
  | none => c.fail .illegalOperand
  | some x =>
    let sel := c.replaySel
    if sel < 8 then c.write 4 fun _ => BitVec.ofNat 64 (x.2.uniform sel)
    else if 16 ≤ sel ∨ isS c.f.e.d ∨ (x.2.lane sel 0).isNone then c.fail .illegalOperand
    else c.write 4 fun l => ((x.2.lane sel l).getD 0).setWidth 64

/-- RPLQ (R279). -/
def execRplq (e : Ext) (s : State) : Host.Outcome State Fault Refusal := issue (Form.ofExt 0xC5 e) rplqBody s

/-- A captured value with one half replaced; the high half of a 32-bit operand is not there. -/
def setHalf (r : Rd) (hi : Bool) (old : DWord) (x : Word) : DWord :=
  if hi then (if r.wide then pairOf (loWord old) x else old) else pairOf x (hiWord old)

/-- A captured operand's table replaced. -/
def ReplayEntry.setOpnd (e : ReplayEntry) (p : Pos) (m : SMap DWord) : ReplayEntry :=
  match p with
  | .a => { e with opA := m }
  | .b => { e with opB := m }
  | .c => { e with opC := m }
  | .d => { e with opD := m }

/-- The entry after RPLW; none where the write is not allowed (R277, R279). -/
def ReplayEntry.written (e : ReplayEntry) (sel : Nat) (act : Mask) (x : Nat → Word) : Option ReplayEntry :=
  match sel with
  | 0 => some { e with skip := (x (lowest act)).getLsbD 11 }
  | 2 => let m := x (lowest act); if m &&& ~~~e.captured = 0 then some { e with mask := m } else none
  | _ =>
    match replayPos (Form.ofInstr e.instr) sel with
    | none => none
    | some p =>
      match (Form.ofInstr e.instr).rd? p with
      | none => none
      | some r =>
        let m := (lanesOf (act &&& e.captured)).foldl
          (fun m l => SMap.put 0 m l (setHalf r (decide (sel % 2 = 1)) (SMap.look 0 m l) (x l))) (e.opnd p)
        some (e.setOpnd p m)

/-- RPLW (R279). -/
def rplwBody (c : Ctx) : Eff :=
  match c.replayEntry with
  | none => c.fail .illegalOperand
  | some x =>
    match x.2.written c.replaySel c.act fun l => loWord (c.b l) with
    | none => c.fail .illegalOperand
    | some e =>
      .go
        (c.onStrand c.s fun t => { t with handler := t.handler.map fun (fr : Frame) => { fr with queue := putNth fr.queue x.1 e } })
        none 0

/-- RPLW (R279). -/
def execRplw (e : Ext) (s : State) : Host.Outcome State Fault Refusal := issue (Form.ofExt 0xC6 e) rplwBody s

/-! ## The watchdog and invalidation -/

/-- WDOG (R290, R414). -/
def execWdog (e : Ext) (s : State) : Host.Outcome State Fault Refusal :=
  issue (Form.ofExt 0xC7 e)
    (fun c =>
      let n := (loWord (c.a c.low)).toNat
      if n = 0 ∨ 10000000 < n then c.fail .illegalOperand
      else .go (c.onCrew c.s fun k => { k with wdCount := 0, wdLimit := n }) none 0) s

/-- The range R of TLBI and ICINV: whether it is the whole context, and its bounds (R357, R406). -/
def Ctx.range (c : Ctx) : Bool × Nat × Nat :=
  let n := (loWord (c.b c.low)).toNat
  let a := (c.a c.low).toNat
  (decide (n = 0), a, min (a + n) (2 ^ 57))

/-- TLBI: the core TLB and the die TLB (R406). -/
def execTlbi (e : Ext) (s : State) : Host.Outcome State Fault Refusal :=
  issue (Form.ofExt 0xC8 e)
    (fun c =>
      let r := c.range
      let drop (l : List TlbEntry) : List TlbEntry := tlbDrop l c.ctx r.1 r.2.1 r.2.2
      let s := (c.s.modCore c.core fun k => { k with tlb := drop k.tlb }).modDie (dieOf c.core) fun d => { d with tlb := drop d.tlb }
      .go s none 0) s

/-- A line of L1 meets a range of the context's addresses. -/
def L1Line.meetsRange (l : L1Line) (ctx : Nat) (all : Bool) (lo hi : Nat) : Bool :=
  match l.vline with
  | none => true
  | some n => decide (l.ctx = ctx) && (all || (decide (128 * n < hi) && decide (lo < 128 * (n + 1))))

/-- A line of an instruction cache meets a range of the context's addresses (R357). -/
def CLine.meetsRange (l : CLine) (ctx : Nat) (all : Bool) (lo hi : Nat) : Bool :=
  decide (l.ctx = ctx) && (all || (decide (128 * l.vline < hi) && decide (lo < 128 * (l.vline + 1))))

/-- ICINV: once the strand's earlier stores are performed, dirty lines that meet the range reach memory, and the instruction caches give
up the lines that meet it, on every core on which a crew of the context runs or can come to run (R357, R358). (DEDUCED, log entry 17) -/
def execIcinv (e : Ext) (s : State) : Host.Outcome State Fault Refusal :=
  issue (Form.ofExt 0xC9 e)
    (fun c =>
      let r := c.range
      if !c.quiet then .stay c.s .retry
      else
        let s := (c.s.writeBack c.core fun l => l.meetsRange c.ctx r.1 r.2.1 r.2.2).drain c.core
        .go
          { s with cores := s.cores.map fun k => { k with icache := k.icache.filter fun l => !(l.meetsRange c.ctx r.1 r.2.1 r.2.2) } }
          none 0) s

/-! ## Words that always trap (R106, R408) -/

/-- The trap of a reserved cell, a length that its cell does not allow, or words that break check 3 (R106). -/
def reservedTrap (w : Nat) : Trap := if badOpcode w then .illegalOpcode else .illegalOperand

/-- UDF, base form (R408). -/
def execUdf (g : Guard) (_ : BitVec 18) (s : State) : Host.Outcome State Fault Refusal :=
  issueTrap (Form.plain 0xFF g 1) .illegalOpcode s
/-- UDF in the longer lengths (R408). -/
def execUdfExt (r : Raw) (s : State) : Host.Outcome State Fault Refusal :=
  issueTrap (Form.plain 0xFF (guardOf r.bits.toNat) (lengthWords r.l.toNat)) .illegalOpcode s
/-- An instruction word that checks 2 and 3 of R106 reject. -/
def execReservedCell (r : Raw) (s : State) : Host.Outcome State Fault Refusal :=
  issueTrap (Form.plain 0xFF (guardOf r.bits.toNat) (lengthWords r.l.toNat)) (reservedTrap r.bits.toNat) s

end Sys2Proof.Machine
end

