-- ==== Sys2Proof/Machine/Dispatch.lean ====
section
/-! DEFINITION. The meaning of every instruction and happening, one arm each. -/
namespace Sys2Proof.Machine

/-- Executing one instruction or happening. -/
def exec (i : Instr) (s : State) : Host.Outcome State Fault Refusal :=
  match i with
  | .coldStart r => Sys2Proof.Machine.execColdStart r s
  | .warmStart r => Sys2Proof.Machine.execWarmStart r s
  | .imageLoad => Sys2Proof.Machine.execImageLoad s
  | .doorbell q value => Sys2Proof.Machine.execDoorbell q value s
  | .registerWrite off value => Sys2Proof.Machine.execRegisterWrite off value s
  | .partSet => Sys2Proof.Machine.execPartSet s
  | .ctxSet => Sys2Proof.Machine.execCtxSet s
  | .queueCreate => Sys2Proof.Machine.execQueueCreate s
  | .queueDestroy => Sys2Proof.Machine.execQueueDestroy s
  | .nearSet => Sys2Proof.Machine.execNearSet s
  | .faultResp => Sys2Proof.Machine.execFaultResp s
  | .tlbInval => Sys2Proof.Machine.execTlbInval s
  | .ctxSuspend => Sys2Proof.Machine.execCtxSuspend s
  | .mailboxUnknown => Sys2Proof.Machine.execMailboxUnknown s
  | .grid q => Sys2Proof.Machine.execGrid q s
  | .graph q => Sys2Proof.Machine.execGraph q s
  | .signal q => Sys2Proof.Machine.execSignal q s
  | .barrierAnd q => Sys2Proof.Machine.execBarrierAnd q s
  | .barrierAndComplete q => Sys2Proof.Machine.execBarrierAndComplete q s
  | .badpacket q => Sys2Proof.Machine.execBadpacket q s
  | .packetStart q => Sys2Proof.Machine.execPacketStart q s
  | .launchStart grid => Sys2Proof.Machine.execLaunchStart grid s
  | .gridCompletion grid => Sys2Proof.Machine.execGridCompletion grid s
  | .pendingLaunchDrain c => Sys2Proof.Machine.execPendingLaunchDrain c s
  | .dieQueueStart die => Sys2Proof.Machine.execDieQueueStart die s
  | .abortKill c => Sys2Proof.Machine.execAbortKill c s
  | .crewDispatch c => Sys2Proof.Machine.execCrewDispatch c s
  | .wakeUp c => Sys2Proof.Machine.execWakeUp c s
  | .crewSwapIn c => Sys2Proof.Machine.execCrewSwapIn c s
  | .stealRequest grid thief victim => Sys2Proof.Machine.execStealRequest grid thief victim s
  | .stealAnswer grid thief => Sys2Proof.Machine.execStealAnswer grid thief s
  | .splitBoost r => Sys2Proof.Machine.execSplitBoost r s
  | .priorityAgeing c => Sys2Proof.Machine.execPriorityAgeing c s
  | .sleepExpiry r => Sys2Proof.Machine.execSleepExpiry r s
  | .watchdog c => Sys2Proof.Machine.execWatchdog c s
  | .deferredTrap r => Sys2Proof.Machine.execDeferredTrap r s
  | .restore c => Sys2Proof.Machine.execRestore c s
  | .laneSelfCheck r f => Sys2Proof.Machine.execLaneSelfCheck r f s
  | .bankCopyDone core bank => Sys2Proof.Machine.execBankCopyDone core bank s
  | .sliceRetirement die slice => Sys2Proof.Machine.execSliceRetirement die slice s
  | .sliceRemap die => Sys2Proof.Machine.execSliceRemap die s
  | .pseudoChannelRetirement quad chan => Sys2Proof.Machine.execPseudoChannelRetirement quad chan s
  | .pcmapUpdate quad => Sys2Proof.Machine.execPcmapUpdate quad s
  | .uncorrectableError e => Sys2Proof.Machine.execUncorrectableError e s
  | .neighbourRefresh row upset => Sys2Proof.Machine.execNeighbourRefresh row upset s
  | .accessAged r id => Sys2Proof.Machine.execAccessAged r id s
  | .pageWalk r id => Sys2Proof.Machine.execPageWalk r id s
  | .faultRingPoll part => Sys2Proof.Machine.execFaultRingPoll part s
  | .loadDataReturn r id => Sys2Proof.Machine.execLoadDataReturn r id s
  | .storeArrival core => Sys2Proof.Machine.execStoreArrival core s
  | .writeBack core line evict => Sys2Proof.Machine.execWriteBack core line evict s
  | .copyComplete c tag => Sys2Proof.Machine.execCopyComplete c tag s
  | .copyPark c tag => Sys2Proof.Machine.execCopyPark c tag s
  | .cancelEnd c tag granules => Sys2Proof.Machine.execCancelEnd c tag granules s
  | .followOnIssue c tag => Sys2Proof.Machine.execFollowOnIssue c tag s
  | .cpymParked c tag => Sys2Proof.Machine.execCpymParked c tag s
  | .drainComplete c tag => Sys2Proof.Machine.execDrainComplete c tag s
  | .tileOpEnd core id => Sys2Proof.Machine.execTileOpEnd core id s
  | .nmvComplete c tag => Sys2Proof.Machine.execNmvComplete c tag s
  | .handoffDelivery grid item slot gen => Sys2Proof.Machine.execHandoffDelivery grid item slot gen s
  | .heldPathReady r => Sys2Proof.Machine.execHeldPathReady r s
  | .backPressurePublish r => Sys2Proof.Machine.execBackPressurePublish r s
  | .phaseCounterAdvance grid vdie => Sys2Proof.Machine.execPhaseCounterAdvance grid vdie s
  | .waitmRecheck r => Sys2Proof.Machine.execWaitmRecheck r s
  | .blackboxCopy => Sys2Proof.Machine.execBlackboxCopy s
  | .throttleChange up => Sys2Proof.Machine.execThrottleChange up s
  | .hostWrite pa bytes => Sys2Proof.Machine.execHostWrite pa bytes s
  | .hostRead pa n => Sys2Proof.Machine.execHostRead pa n s
  | .peerWrite pa bytes => Sys2Proof.Machine.execPeerWrite pa bytes s
  | .nop g => Sys2Proof.Machine.execNop g s
  | .bra g off => Sys2Proof.Machine.execBra g off s
  | .braLit g x => Sys2Proof.Machine.execBraLit g x s
  | .brx e => Sys2Proof.Machine.execBrx e s
  | .call g off => Sys2Proof.Machine.execCall g off s
  | .callLit g x => Sys2Proof.Machine.execCallLit g x s
  | .callx e => Sys2Proof.Machine.execCallx e s
  | .ret g => Sys2Proof.Machine.execRet g s
  | .exit g => Sys2Proof.Machine.execExit g s
  | .loop e => Sys2Proof.Machine.execLoop e s
  | .pand e => Sys2Proof.Machine.execPand e s
  | .por e => Sys2Proof.Machine.execPor e s
  | .pxor e => Sys2Proof.Machine.execPxor e s
  | .pnot e => Sys2Proof.Machine.execPnot e s
  | .pmov e => Sys2Proof.Machine.execPmov e s
  | .voteAll e => Sys2Proof.Machine.execVoteAll e s
  | .voteAny e => Sys2Proof.Machine.execVoteAny e s
  | .voteBallot e => Sys2Proof.Machine.execVoteBallot e s
  | .shflIdx e => Sys2Proof.Machine.execShflIdx e s
  | .shflUp e => Sys2Proof.Machine.execShflUp e s
  | .shflDown e => Sys2Proof.Machine.execShflDown e s
  | .shflXor e => Sys2Proof.Machine.execShflXor e s
  | .matchAny e => Sys2Proof.Machine.execMatchAny e s
  | .matchAll e => Sys2Proof.Machine.execMatchAll e s
  | .reds e => Sys2Proof.Machine.execReds e s
  | .scan e => Sys2Proof.Machine.execScan e s
  | .iadd b => Sys2Proof.Machine.execIadd b s
  | .iaddExt f => Sys2Proof.Machine.execIaddExt f s
  | .isub b => Sys2Proof.Machine.execIsub b s
  | .isubExt f => Sys2Proof.Machine.execIsubExt f s
  | .imul b => Sys2Proof.Machine.execImul b s
  | .imulExt f => Sys2Proof.Machine.execImulExt f s
  | .imulh b => Sys2Proof.Machine.execImulh b s
  | .imulhExt f => Sys2Proof.Machine.execImulhExt f s
  | .imad e => Sys2Proof.Machine.execImad e s
  | .idiv b => Sys2Proof.Machine.execIdiv b s
  | .idivExt f => Sys2Proof.Machine.execIdivExt f s
  | .irem b => Sys2Proof.Machine.execIrem b s
  | .iremExt f => Sys2Proof.Machine.execIremExt f s
  | .ineg b => Sys2Proof.Machine.execIneg b s
  | .inegExt e => Sys2Proof.Machine.execInegExt e s
  | .iabs b => Sys2Proof.Machine.execIabs b s
  | .iabsExt e => Sys2Proof.Machine.execIabsExt e s
  | .imin b => Sys2Proof.Machine.execImin b s
  | .iminExt f => Sys2Proof.Machine.execIminExt f s
  | .imax b => Sys2Proof.Machine.execImax b s
  | .imaxExt f => Sys2Proof.Machine.execImaxExt f s
  | .iset e => Sys2Proof.Machine.execIset e s
  | .iaddc e => Sys2Proof.Machine.execIaddc e s
  | .sel e => Sys2Proof.Machine.execSel e s
  | .mov b => Sys2Proof.Machine.execMov b s
  | .movExt e => Sys2Proof.Machine.execMovExt e s
  | .movi b => Sys2Proof.Machine.execMovi b s
  | .moviLit g d m x => Sys2Proof.Machine.execMoviLit g d m x s
  | .andW b => Sys2Proof.Machine.execAndW b s
  | .andExt f => Sys2Proof.Machine.execAndExt f s
  | .andn b => Sys2Proof.Machine.execAndn b s
  | .andnExt f => Sys2Proof.Machine.execAndnExt f s
  | .orW b => Sys2Proof.Machine.execOrW b s
  | .orExt f => Sys2Proof.Machine.execOrExt f s
  | .xorW b => Sys2Proof.Machine.execXorW b s
  | .xorExt f => Sys2Proof.Machine.execXorExt f s
  | .notW b => Sys2Proof.Machine.execNotW b s
  | .notExt e => Sys2Proof.Machine.execNotExt e s
  | .shl b => Sys2Proof.Machine.execShl b s
  | .shlExt f => Sys2Proof.Machine.execShlExt f s
  | .shr b => Sys2Proof.Machine.execShr b s
  | .shrExt f => Sys2Proof.Machine.execShrExt f s
  | .sar b => Sys2Proof.Machine.execSar b s
  | .sarExt f => Sys2Proof.Machine.execSarExt f s
  | .rol b => Sys2Proof.Machine.execRol b s
  | .rolExt f => Sys2Proof.Machine.execRolExt f s
  | .clz b => Sys2Proof.Machine.execClz b s
  | .clzExt e => Sys2Proof.Machine.execClzExt e s
  | .ctz b => Sys2Proof.Machine.execCtz b s
  | .ctzExt e => Sys2Proof.Machine.execCtzExt e s
  | .popc b => Sys2Proof.Machine.execPopc b s
  | .popcExt e => Sys2Proof.Machine.execPopcExt e s
  | .brev b => Sys2Proof.Machine.execBrev b s
  | .brevExt e => Sys2Proof.Machine.execBrevExt e s
  | .bfx e => Sys2Proof.Machine.execBfx e s
  | .bfi e => Sys2Proof.Machine.execBfi e s
  | .prmt e => Sys2Proof.Machine.execPrmt e s
  | .fadd b => Sys2Proof.Machine.execFadd b s
  | .faddExt f => Sys2Proof.Machine.execFaddExt f s
  | .fsub b => Sys2Proof.Machine.execFsub b s
  | .fsubExt f => Sys2Proof.Machine.execFsubExt f s
  | .fmul b => Sys2Proof.Machine.execFmul b s
  | .fmulExt f => Sys2Proof.Machine.execFmulExt f s
  | .ffma e => Sys2Proof.Machine.execFfma e s
  | .fdiv b => Sys2Proof.Machine.execFdiv b s
  | .fdivExt f => Sys2Proof.Machine.execFdivExt f s
  | .fsqrt b => Sys2Proof.Machine.execFsqrt b s
  | .fsqrtExt e => Sys2Proof.Machine.execFsqrtExt e s
  | .frcp b => Sys2Proof.Machine.execFrcp b s
  | .frcpExt e => Sys2Proof.Machine.execFrcpExt e s
  | .frsq b => Sys2Proof.Machine.execFrsq b s
  | .frsqExt e => Sys2Proof.Machine.execFrsqExt e s
  | .fexp2 b => Sys2Proof.Machine.execFexp2 b s
  | .fexp2Ext e => Sys2Proof.Machine.execFexp2Ext e s
  | .flog2 b => Sys2Proof.Machine.execFlog2 b s
  | .flog2Ext e => Sys2Proof.Machine.execFlog2Ext e s
  | .fsin b => Sys2Proof.Machine.execFsin b s
  | .fsinExt e => Sys2Proof.Machine.execFsinExt e s
  | .fcos b => Sys2Proof.Machine.execFcos b s
  | .fcosExt e => Sys2Proof.Machine.execFcosExt e s
  | .fmin b => Sys2Proof.Machine.execFmin b s
  | .fminExt f => Sys2Proof.Machine.execFminExt f s
  | .fmax b => Sys2Proof.Machine.execFmax b s
  | .fmaxExt f => Sys2Proof.Machine.execFmaxExt f s
  | .fset e => Sys2Proof.Machine.execFset e s
  | .fclass e => Sys2Proof.Machine.execFclass e s
  | .fabs b => Sys2Proof.Machine.execFabs b s
  | .fabsExt e => Sys2Proof.Machine.execFabsExt e s
  | .fneg b => Sys2Proof.Machine.execFneg b s
  | .fnegExt e => Sys2Proof.Machine.execFnegExt e s
  | .frnd e => Sys2Proof.Machine.execFrnd e s
  | .fscale e => Sys2Proof.Machine.execFscale e s
  | .fdot2 e => Sys2Proof.Machine.execFdot2 e s
  | .fcvt e => Sys2Proof.Machine.execFcvt e s
  | .cvt e => Sys2Proof.Machine.execCvt e s
  | .hput e => Sys2Proof.Machine.execHput e s
  | .hseal e => Sys2Proof.Machine.execHseal e s
  | .hgen e => Sys2Proof.Machine.execHgen e s
  | .hstat e => Sys2Proof.Machine.execHstat e s
  | .ldG b => Sys2Proof.Machine.execLdG b s
  | .ldGExt f => Sys2Proof.Machine.execLdGExt f s
  | .ldL b => Sys2Proof.Machine.execLdL b s
  | .ldLExt f => Sys2Proof.Machine.execLdLExt f s
  | .ldP b => Sys2Proof.Machine.execLdP b s
  | .ldPExt f => Sys2Proof.Machine.execLdPExt f s
  | .ldK b => Sys2Proof.Machine.execLdK b s
  | .ldKExt f => Sys2Proof.Machine.execLdKExt f s
  | .ldAcq e => Sys2Proof.Machine.execLdAcq e s
  | .stG b => Sys2Proof.Machine.execStG b s
  | .stGExt f => Sys2Proof.Machine.execStGExt f s
  | .stL b => Sys2Proof.Machine.execStL b s
  | .stLExt f => Sys2Proof.Machine.execStLExt f s
  | .stP b => Sys2Proof.Machine.execStP b s
  | .stPExt f => Sys2Proof.Machine.execStPExt f s
  | .stRel e => Sys2Proof.Machine.execStRel e s
  | .atom e => Sys2Proof.Machine.execAtom e s
  | .atomRet e => Sys2Proof.Machine.execAtomRet e s
  | .cas e => Sys2Proof.Machine.execCas e s
  | .red e => Sys2Proof.Machine.execRed e s
  | .prf e => Sys2Proof.Machine.execPrf e s
  | .lea e => Sys2Proof.Machine.execLea e s
  | .pfence e => Sys2Proof.Machine.execPfence e s
  | .vdef e => Sys2Proof.Machine.execVdef e s
  | .vset e => Sys2Proof.Machine.execVset e s
  | .vdrop e => Sys2Proof.Machine.execVdrop e s
  | .vret e => Sys2Proof.Machine.execVret e s
  | .vacq e => Sys2Proof.Machine.execVacq e s
  | .vmeet e => Sys2Proof.Machine.execVmeet e s
  | .vqry e => Sys2Proof.Machine.execVqry e s
  | .vaddr e => Sys2Proof.Machine.execVaddr e s
  | .ldv e => Sys2Proof.Machine.execLdv e s
  | .stv e => Sys2Proof.Machine.execStv e s
  | .cpy e => Sys2Proof.Machine.execCpy e s
  | .cpym e => Sys2Proof.Machine.execCpym e s
  | .cdrain e => Sys2Proof.Machine.execCdrain e s
  | .cwaitAll e => Sys2Proof.Machine.execCwaitAll e s
  | .cwaitAny e => Sys2Proof.Machine.execCwaitAny e s
  | .cfind e => Sys2Proof.Machine.execCfind e s
  | .ctestAll e => Sys2Proof.Machine.execCtestAll e s
  | .ctestAny e => Sys2Proof.Machine.execCtestAny e s
  | .ckill e => Sys2Proof.Machine.execCkill e s
  | .mma e => Sys2Proof.Machine.execMma e s
  | .mzero e => Sys2Proof.Machine.execMzero e s
  | .mlda e => Sys2Proof.Machine.execMlda e s
  | .msta e => Sys2Proof.Machine.execMsta e s
  | .mtrn e => Sys2Proof.Machine.execMtrn e s
  | .mperm e => Sys2Proof.Machine.execMperm e s
  | .mred e => Sys2Proof.Machine.execMred e s
  | .nmv e => Sys2Proof.Machine.execNmv e s
  | .bar e => Sys2Proof.Machine.execBar e s
  | .barc e => Sys2Proof.Machine.execBarc e s
  | .waitm e => Sys2Proof.Machine.execWaitm e s
  | .phase e => Sys2Proof.Machine.execPhase e s
  | .phwait e => Sys2Proof.Machine.execPhwait e s
  | .launch e => Sys2Proof.Machine.execLaunch e s
  | .launchTry e => Sys2Proof.Machine.execLaunchTry e s
  | .lstat e => Sys2Proof.Machine.execLstat e s
  | .yield g => Sys2Proof.Machine.execYield g s
  | .sleep e => Sys2Proof.Machine.execSleep e s
  | .prio e => Sys2Proof.Machine.execPrio e s
  | .hops e => Sys2Proof.Machine.execHops e s
  | .csrr e => Sys2Proof.Machine.execCsrr e s
  | .csrw e => Sys2Proof.Machine.execCsrw e s
  | .trap e => Sys2Proof.Machine.execTrap e s
  | .trapret e => Sys2Proof.Machine.execTrapret e s
  | .bkpt g => Sys2Proof.Machine.execBkpt g s
  | .rplq e => Sys2Proof.Machine.execRplq e s
  | .rplw e => Sys2Proof.Machine.execRplw e s
  | .wdog e => Sys2Proof.Machine.execWdog e s
  | .tlbi e => Sys2Proof.Machine.execTlbi e s
  | .icinv e => Sys2Proof.Machine.execIcinv e s
  | .iaddX2 e => Sys2Proof.Machine.execIaddX2 e s
  | .isubX2 e => Sys2Proof.Machine.execIsubX2 e s
  | .imulX2 e => Sys2Proof.Machine.execImulX2 e s
  | .imadX2 e => Sys2Proof.Machine.execImadX2 e s
  | .iminX2 e => Sys2Proof.Machine.execIminX2 e s
  | .imaxX2 e => Sys2Proof.Machine.execImaxX2 e s
  | .iabsX2 e => Sys2Proof.Machine.execIabsX2 e s
  | .inegX2 e => Sys2Proof.Machine.execInegX2 e s
  | .shlX2 e => Sys2Proof.Machine.execShlX2 e s
  | .shrX2 e => Sys2Proof.Machine.execShrX2 e s
  | .sarX2 e => Sys2Proof.Machine.execSarX2 e s
  | .iaddX4 e => Sys2Proof.Machine.execIaddX4 e s
  | .isubX4 e => Sys2Proof.Machine.execIsubX4 e s
  | .iminX4 e => Sys2Proof.Machine.execIminX4 e s
  | .imaxX4 e => Sys2Proof.Machine.execImaxX4 e s
  | .iabsX4 e => Sys2Proof.Machine.execIabsX4 e s
  | .faddX2 e => Sys2Proof.Machine.execFaddX2 e s
  | .fsubX2 e => Sys2Proof.Machine.execFsubX2 e s
  | .fmulX2 e => Sys2Proof.Machine.execFmulX2 e s
  | .ffmaX2 e => Sys2Proof.Machine.execFfmaX2 e s
  | .fminX2 e => Sys2Proof.Machine.execFminX2 e s
  | .fmaxX2 e => Sys2Proof.Machine.execFmaxX2 e s
  | .fabsX2 e => Sys2Proof.Machine.execFabsX2 e s
  | .fnegX2 e => Sys2Proof.Machine.execFnegX2 e s
  | .frndX2 e => Sys2Proof.Machine.execFrndX2 e s
  | .vxr e => Sys2Proof.Machine.execVxr e s
  | .vxw e => Sys2Proof.Machine.execVxw e s
  | .udf g x => Sys2Proof.Machine.execUdf g x s
  | .udfExt r => Sys2Proof.Machine.execUdfExt r s
  | .reservedCell r => Sys2Proof.Machine.execReservedCell r s
  | .correctedError core bank => Sys2Proof.Machine.execCorrectedError core bank s
  | .hostAtomicCas pa wide expect new => Sys2Proof.Machine.execHostAtomicCas pa wide expect new s
  | .peerRead pa n => Sys2Proof.Machine.execPeerRead pa n s
  | .peerBankOperation op pa b c => Sys2Proof.Machine.execPeerBankOperation op pa b c s
  | .debuggerHalt c halt => Sys2Proof.Machine.execDebuggerHalt c halt s
  | .stoendPortLoss port => Sys2Proof.Machine.execStoendPortLoss port s

end Sys2Proof.Machine
end

