-- ==== Sys2Proof/Machine/Happenings.lean ====
section
/-! DEFINITION. What can happen of itself in a state: the happenings that the device brings about without the host, the first of
them that can act coming first (log entry 1). What the outside world decides (writes, resets, errors, lane failures, evictions,
clock changes) comes from the agenda alone. -/
namespace Sys2Proof.Machine

/-- What can happen of itself: the rows of the opcode table that the device brings about without the host, each of them the
happening of the same name and operands (`Act.names`). They stand beside `Instr`, because Lean's compiler builds no value of a
constructor with operands past the 245th. -/
inductive Act where
  | uncorrectableError (e : ErrorSite)
  | blackboxCopy
  | tlbInval
  | grid (q : Nat)
  | graph (q : Nat)
  | signal (q : Nat)
  | barrierAnd (q : Nat)
  | barrierAndComplete (q : Nat)
  | badpacket (q : Nat)
  | packetStart (q : Nat)
  | launchStart (grid : Nat)
  | gridCompletion (grid : Nat)
  | pendingLaunchDrain (c : CrewRef)
  | dieQueueStart (die : Nat)
  | abortKill (c : CrewRef)
  | crewDispatch (c : CrewRef)
  | wakeUp (c : CrewRef)
  | crewSwapIn (c : CrewRef)
  | stealRequest (grid thief victim : Nat)
  | stealAnswer (grid thief : Nat)
  | watchdog (c : CrewRef)
  | deferredTrap (r : StrandRef)
  | restore (c : CrewRef)
  | bankCopyDone (core bank : Nat)
  | sliceRemap (die : Nat)
  | pcmapUpdate (quad : Nat)
  | accessAged (r : StrandRef) (id : Nat)
  | pageWalk (r : StrandRef) (id : Nat)
  | faultRingPoll (part : Nat)
  | loadDataReturn (r : StrandRef) (id : Nat)
  | storeArrival (core : Nat)
  | copyComplete (c : CrewRef) (tag : BitVec 6)
  | cancelEnd (c : CrewRef) (tag : BitVec 6) (granules : Nat)
  | followOnIssue (c : CrewRef) (tag : BitVec 6)
  | cpymParked (c : CrewRef) (tag : BitVec 6)
  | drainComplete (c : CrewRef) (tag : BitVec 6)
  | tileOpEnd (core id : Nat)
  | nmvComplete (c : CrewRef) (tag : BitVec 6)
  | handoffDelivery (grid item : Nat) (slot : BitVec 3) (gen : Nat)
  | heldPathReady (r : StrandRef)
  | phaseCounterAdvance (grid vdie : Nat)
  | waitmRecheck (r : SplitRef)
  deriving DecidableEq, Repr

/-- The happening of the opcode table that an act is. -/
def Act.names (a : Act) (i : Instr) : Prop :=
  match a with
  | .uncorrectableError e => i = .uncorrectableError e
  | .blackboxCopy => i = .blackboxCopy
  | .tlbInval => i = .tlbInval
  | .grid q => i = .grid q
  | .graph q => i = .graph q
  | .signal q => i = .signal q
  | .barrierAnd q => i = .barrierAnd q
  | .barrierAndComplete q => i = .barrierAndComplete q
  | .badpacket q => i = .badpacket q
  | .packetStart q => i = .packetStart q
  | .launchStart gr => i = .launchStart gr
  | .gridCompletion gr => i = .gridCompletion gr
  | .pendingLaunchDrain c => i = .pendingLaunchDrain c
  | .dieQueueStart die => i = .dieQueueStart die
  | .abortKill c => i = .abortKill c
  | .crewDispatch c => i = .crewDispatch c
  | .wakeUp c => i = .wakeUp c
  | .crewSwapIn c => i = .crewSwapIn c
  | .stealRequest gr thief victim => i = .stealRequest gr thief victim
  | .stealAnswer gr thief => i = .stealAnswer gr thief
  | .watchdog c => i = .watchdog c
  | .deferredTrap r => i = .deferredTrap r
  | .restore c => i = .restore c
  | .bankCopyDone core bank => i = .bankCopyDone core bank
  | .sliceRemap die => i = .sliceRemap die
  | .pcmapUpdate quad => i = .pcmapUpdate quad
  | .accessAged r id => i = .accessAged r id
  | .pageWalk r id => i = .pageWalk r id
  | .faultRingPoll part => i = .faultRingPoll part
  | .loadDataReturn r id => i = .loadDataReturn r id
  | .storeArrival core => i = .storeArrival core
  | .copyComplete c tag => i = .copyComplete c tag
  | .cancelEnd c tag granules => i = .cancelEnd c tag granules
  | .followOnIssue c tag => i = .followOnIssue c tag
  | .cpymParked c tag => i = .cpymParked c tag
  | .drainComplete c tag => i = .drainComplete c tag
  | .tileOpEnd core id => i = .tileOpEnd core id
  | .nmvComplete c tag => i = .nmvComplete c tag
  | .handoffDelivery gr item slot gen => i = .handoffDelivery gr item slot gen
  | .heldPathReady r => i = .heldPathReady r
  | .phaseCounterAdvance gr vdie => i = .phaseCounterAdvance gr vdie
  | .waitmRecheck r => i = .waitmRecheck r

/-- The act takes place: the meaning of the happening it names. -/
def Act.run (a : Act) (s : State) : Host.Outcome State Fault Refusal :=
  match a with
  | .uncorrectableError e => execUncorrectableError e s
  | .blackboxCopy => execBlackboxCopy s
  | .tlbInval => execTlbInval s
  | .grid q => execGrid q s
  | .graph q => execGraph q s
  | .signal q => execSignal q s
  | .barrierAnd q => execBarrierAnd q s
  | .barrierAndComplete q => execBarrierAndComplete q s
  | .badpacket q => execBadpacket q s
  | .packetStart q => execPacketStart q s
  | .launchStart gr => execLaunchStart gr s
  | .gridCompletion gr => execGridCompletion gr s
  | .pendingLaunchDrain c => execPendingLaunchDrain c s
  | .dieQueueStart die => execDieQueueStart die s
  | .abortKill c => execAbortKill c s
  | .crewDispatch c => execCrewDispatch c s
  | .wakeUp c => execWakeUp c s
  | .crewSwapIn c => execCrewSwapIn c s
  | .stealRequest gr thief victim => execStealRequest gr thief victim s
  | .stealAnswer gr thief => execStealAnswer gr thief s
  | .watchdog c => execWatchdog c s
  | .deferredTrap r => execDeferredTrap r s
  | .restore c => execRestore c s
  | .bankCopyDone core bank => execBankCopyDone core bank s
  | .sliceRemap die => execSliceRemap die s
  | .pcmapUpdate quad => execPcmapUpdate quad s
  | .accessAged r id => execAccessAged r id s
  | .pageWalk r id => execPageWalk r id s
  | .faultRingPoll part => execFaultRingPoll part s
  | .loadDataReturn r id => execLoadDataReturn r id s
  | .storeArrival core => execStoreArrival core s
  | .copyComplete c tag => execCopyComplete c tag s
  | .cancelEnd c tag granules => execCancelEnd c tag granules s
  | .followOnIssue c tag => execFollowOnIssue c tag s
  | .cpymParked c tag => execCpymParked c tag s
  | .drainComplete c tag => execDrainComplete c tag s
  | .tileOpEnd core id => execTileOpEnd core id s
  | .nmvComplete c tag => execNmvComplete c tag s
  | .handoffDelivery gr item slot gen => execHandoffDelivery gr item slot gen s
  | .heldPathReady r => execHeldPathReady r s
  | .phaseCounterAdvance gr vdie => execPhaseCounterAdvance gr vdie s
  | .waitmRecheck r => execWaitmRecheck r s

/-- Every strand of the crews on their cores. -/
def State.strandRefs (s : State) : List StrandRef := s.crews.flatMap Crew.strandRefs

/-- Kills, watchdogs, and deferred traps. -/
def State.crewHappening (s : State) : Option Act :=
  (s.crews.findSome? fun c =>
    if c.killAsked && decide (c.state ≠ .ended) then some (.abortKill c.ref)
    else if c.dogDue then some (.watchdog c.ref)
    else none) <|>
    ((s.strandRefs.find? fun r => s.deferredDue r).map .deferredTrap)

/-- What an access in flight can do. -/
def State.flightHappening (s : State) (r : StrandRef) (x : InFlight) : Option Act :=
  if !x.isAccess then none
  else if s.walkDue r x then some (.pageWalk r x.id)
  else if s.loadDue r x then some (.loadDataReturn r x.id)
  else if s.ageDue x then some (.accessAged r x.id)
  else none

/-- Accesses in flight, and writes on their way. -/
def State.accessHappening (s : State) : Option Act :=
  (s.strandRefs.findSome? fun r => match s.strand? r with | some t => t.inflight.findSome? (s.flightHappening r) | none => none) <|>
    ((List.range s.cores.length).find? fun k => match s.core? k with | some c => !c.outbox.isEmpty | none => false).map .storeArrival

/-- What the operation of a tag, or a follow-on product of it, can do. -/
def State.tagHappening (s : State) (r : CrewRef) (n : Nat) : Option Act :=
  let tag := BitVec.ofNat 6 n
  if (s.followOf r n).isSome then some (.followOnIssue r tag)
  else
    match s.tagCtx? r n with
    | none => none
    | some x =>
      if x.o.cancelled.isSome then some (.cancelEnd r tag 0)
      else if (s.copyReady r n).isSome then some (.copyComplete r tag)
      else if (s.parkReady r n).isSome then some (.cpymParked r tag)
      else if (s.nmvReady r n).isSome then some (.nmvComplete r tag)
      else
        match s.drainReady r n with
        | some y => if s.drainView y.1 y.2.1 y.2.2.1 y.2.2.2 = .waits then none else some (.drainComplete r tag)
        | none => none

/-- The copy engines and the matrix units. -/
def State.engineHappening (s : State) : Option Act :=
  ((List.range s.cores.length).findSome? fun k =>
    match s.core? k with
    | some c => (c.tileQ.find? fun o => (s.tileReady k o.id).isSome).map fun o => .tileOpEnd k o.id
    | none => none) <|>
    s.crews.findSome? fun c => (List.range 64).findSome? (s.tagHappening c.ref)

/-- Held paths of a strand can become splits that do not wait for an issue of the strand (R154). -/
def State.heldDue (s : State) (r : StrandRef) : Bool :=
  match s.crew? r.crew, s.strand? r with
  | some c, some t =>
    s.canIssue c t && !t.stack.isEmpty &&
      decide (((s.settleStack r).swapHeld r).strand? r ≠ some t)
  | _, _ => false

/-- Hand-offs, held paths, phase counters, and watched words. -/
def State.waitHappening (s : State) : Option Act :=
  (s.grids.findSome? fun g =>
    (g.chain.pubs.find? fun p => s.deliveryDue g p).map fun p => .handoffDelivery g.id p.item (BitVec.ofNat 3 p.slot) p.gen) <|>
    ((s.strandRefs.find? fun r => s.heldDue r).map .heldPathReady) <|>
    (s.grids.findSome? fun g =>
      if g.state = .running then
        ((List.range g.dieRec.vphys.length).find? fun v => s.counterReady g v).map fun v => .phaseCounterAdvance g.id v
      else none) <|>
    (s.crews.findSome? fun c =>
      c.strands.findSome? fun t =>
        (t.splits.find? fun p => s.recheckDue c p).map fun p =>
          .waitmRecheck { strand := { crew := c.ref, strand := t.idx }, lane := lowest p.mask })

/-- The happening that places a crew (R26, R39, R288). -/
def State.placeEvent (s : State) (x : Placing) : Act :=
  if x.fresh then .crewDispatch x.ref
  else match s.crew? x.ref with | some c => if c.state = .swapped then .crewSwapIn x.ref else .restore x.ref | none => .restore x.ref

/-- The Clicker: wake-ups, placements, stealing. -/
def State.clickerHappening (s : State) : Option Act :=
  ((s.crews.find? fun c => s.wakeDue c).map fun c => .wakeUp c.ref) <|>
    ((s.placings.find? fun x => s.isNextPlaced x.1 x.2 && (s.roomFor x.1 x.2).isSome).map fun x => s.placeEvent x.2) <|>
    (s.grids.findSome? fun g =>
      ((List.range g.dieRec.vphys.length).find? fun v => (g.onItsWay v).isSome).map fun v => .stealAnswer g.id v) <|>
    (s.grids.findSome? fun g =>
      (List.range g.dieRec.vphys.length).findSome? fun t =>
        ((List.range g.dieRec.vphys.length).find? fun v => (s.stealDue g t v).isSome).map fun v => .stealRequest g.id t v)

/-- The happening that reads the next packet of a queue, by its kind. -/
def State.readEvent (s : State) (q : Queue) : Act :=
  match s.packetBytes q q.rptr with
  | .ok b =>
    if packetOk b then
      match field b 0 1 with
      | 2 => .graph q.id
      | 3 => .signal q.id
      | 4 => .barrierAnd q.id
      | _ => .grid q.id
    else .badpacket q.id
  | _ => .grid q.id

/-- A BARRIER_AND completes, fails, or parks now. -/
def State.barrierMoves (s : State) (qid : Nat) : Bool :=
  match s.barrierOf qid with
  | some x => (match s.watchMet x.1.ctx x.2.watch with | .ok b => b | _ => true)
  | none => false

/-- What a queue can do. -/
def State.queueHappening (s : State) (q : Queue) : Option Act :=
  if (s.signalDue q.id).isSome then some (.signal q.id)
  else if q.graphDue.isSome then some (.graph q.id)
  else if s.barrierMoves q.id then some (.barrierAndComplete q.id)
  else if !(s.frontOpen q) then none
  else if q.overrun then some (.badpacket q.id)
  else if !(s.queueFirst q) then none
  else
    match q.waiting? with
    | some p => if q.holds p then none else some (.packetStart q.id)
    | none => if q.canRead then some (s.readEvent q) else none

/-- The command front end. -/
def State.frontHappening (s : State) : Option Act :=
  (s.queues.findSome? s.queueHappening) <|>
    ((s.grids.find? fun g => s.launchReady g && (s.ctx? g.ctx).isSome).map fun g => .launchStart g.id) <|>
    ((s.grids.find? fun g => s.gridOver g && s.gridFree g).map fun g => .gridCompletion g.id) <|>
    ((s.crews.find? fun c =>
      !c.pending.isEmpty && match s.die? (dieOf c.core) with | some d => decide (d.queue.length < 256) | none => false).map
        fun c => .pendingLaunchDrain c.ref) <|>
    ((List.range s.dies.length).find? fun d =>
      match (s.die? d).bind fun x => x.queue.head? with
      | some e => s.frontFirst (s.dieKey d e) && !s.halted
      | none => false).map .dieQueueStart

/-- A record of a partition waits, and its ring has room (R308). -/
def State.pollDue (s : State) (part : Nat) : Bool :=
  match s.part? part with
  | some p =>
    (s.faults.any fun f => f.part = part && !f.written) && !(s.poisoned ((p.entry.toNat + 0x74) / 128)) &&
      decide ((p.fwptr - BitVec.ofNat 32 (s.readNat (p.entry.toNat + 0x74) 4)).toNat ≠ 2 ^ p.flog)
  | none => false

/-- A TLB_INVAL that is BUSY can end (R303). -/
def State.invalDue (s : State) : Bool :=
  s.mbBusy && s.mbWait.isNone && !s.recovery && decide (s.mbCode = 7) && decide (s.arg 1 ≤ 63) &&
    !(s.usesOld (s.arg 1) (decide (s.arg 4 = 0)) (s.arg64 2) (s.arg64 2 + s.arg 4))

/-- Firmware and the memories: fault rings, TLB_INVAL, and the ends of copies to spares. -/
def State.firmwareHappening (s : State) : Option Act :=
  (((List.range 16).find? fun n => s.pollDue n).map .faultRingPoll) <|>
    (if s.invalDue then some .tlbInval else none) <|>
    (if s.copyDue then some .blackboxCopy else none) <|>
    ((List.range s.cores.length).findSome? fun k =>
      match s.core? k with
      | some c => (c.banks.copying.head?).map fun b => .bankCopyDone k b.1
      | none => none) <|>
    (((List.range s.dies.length).find? fun d => match s.die? d with | some x => !x.evacuating.isEmpty | none => false).map .sliceRemap) <|>
    ((List.range s.quads.length).find? fun q => match s.quads[q]? with | some x => x.copying.isSome | none => false).map .pcmapUpdate

/-- The happening that comes first. -/
def State.happening (s : State) : Option Act :=
  ((s.found.head? <|> s.queues.findSome? fun q => q.bellError s.cycle).map .uncorrectableError) <|> s.crewHappening <|> s.accessHappening <|> s.engineHappening <|> s.waitHappening <|> s.clickerHappening <|> s.frontHappening <|>
    s.firmwareHappening

end Sys2Proof.Machine
end

