-- ==== Sys2Proof/Machine/Turns.lean ====
section
/-! DEFINITION. Whose turn it is (log entry 1), and loading one instruction for the very next step (log entry 4). -/
namespace Sys2Proof.Machine

/-- What a turn comes to: the instruction or event that it presents acts by `act`; none: the turn was all. -/
def actBy (act : Instr → State → Host.Outcome State Fault Refusal) (x : State × Option Instr) : Host.Outcome State Fault Refusal :=
  match x.2 with
  | none => .next x.1
  | some i => act i x.1

/-- What a split stands in is a stall, which takes no time: its instruction has not gone on. -/
def Wait.stall : Wait → Bool
  | .retry | .engine | .lock _ | .entry _ _ => true
  | _ => false

/-- A split has gone on, its instruction tried in a turn that ends at the cycle `now` (R265): a free one unless the turn took no time;
one that waits unless it waits there as before. -/
def Path.wentOn (p q : Path) (then_ now : DWord) : Bool :=
  if p.wait = .none then decide (now ≠ then_)
  else
    decide (q.pc ≠ p.pc) || decide (q.held ≠ p.held) || decide (q.pend ≠ p.pend) || decide (p.mask &&& ~~~q.mask ≠ 0) ||
      (decide (q.wait ≠ p.wait) && !q.wait.stall)

/-- The instruction at which a split stands, or the first that its strand re-injects, could go on: it is tried, and it can unless
the split and the queue stand as before (R265). (DEDUCED, log entry 92) -/
def State.goes (act : Instr → State → Host.Outcome State Fault Refusal) (s : State) (r : SplitRef) : Bool :=
  match s.strand? r.strand, actBy act (s.beginIssue r) with
  | some t, .next u =>
    (match u.strand? r.strand with
    | none => true
    | some v =>
      decide (v.handler ≠ t.handler) || decide (v.deferred ≠ t.deferred) ||
        if t.reinject.isEmpty then
          (match t.splitOf? r.lane, v.splitOf? r.lane with
          | some p, some q => p.wentOn q s.cycle u.cycle
          | _, _ => true)
        else decide (v.reinject.map (·.mask) ≠ t.reinject.map (·.mask)))
  | _, _ => true

/-- What stands at the beginning of a turn: ReadySince of splits, and since when crews can be swapped out or placed (R38, R264, R265). -/
def State.look (act : Instr → State → Host.Outcome State Fault Refusal) (s : State) : State := (s.lookAll (s.goes act)).lookCrews

/-- The turn of a split, which its cluster has selected; one that goes ends what has yielded there (R266). -/
def State.giveTurn (act : Instr → State → Host.Outcome State Fault Refusal) (s : State) (r : SplitRef) : State × Option Instr :=
  (if s.goes act r then s.unyield r else s).beginIssue r

/-- A turn of the agenda: the state in which the returned instruction or happening acts; none: the turn is over. -/
def State.turn (act : Instr → State → Host.Outcome State Fault Refusal) (s : State) : Turn → State × Option Instr
  | .issue r => (s.look act).giveTurn act r
  | .event i => (s, if (encode i).isSome then none else some i)
  | .pass n => ((s.look act).tick n, none)

/-- The turn that is taken when the agenda is empty and nothing happens of itself: the split that R265 selects issues; where none
can, a cycle passes (log entry 1). -/
def State.ownTurn (act : Instr → State → Host.Outcome State Fault Refusal) (s : State) : State × Option Instr :=
  let s := s.look act
  match s.nextSplit (s.goes act) with
  | some r => s.giveTurn act r
  | none => (s.tick 1, none)

/-! ## One instruction loaded -/

/-- The launch record of the loaded program: one crew of one strand with 32 items. -/
def loadedRecord : LaunchRec :=
  { kernel := 0x10000, args := 0, items := 32, nstrand := 1, chained := true, carryIn := false, ncohort := 0, userTag := 0,
    chainArea := 0, cohorts := 0, privArea := 0x20000, done := 0 }

/-- Its header: every register, tile and view, some local and private bytes, and every slot STICKY at every distance. -/
def loadedHeader : Header :=
  { entry := 0x80, handler := 0, vregs := 256, sregs := 32, tiles := 8, views := 8, localBytes := 65536, privBytes := 256,
    kernid := 0, chain := List.replicate 8 (1, 0xFF) }

/-- Its die record: die 0 alone. -/
def loadedDies : DieRec := { vphys := [0], glog := 0, share := List.replicate 64 0 }

/-- Its grid. -/
def loadedGrid (id : Nat) : Grid :=
  { id := id, origin := .packet 0 0, state := .running, record := loadedRecord, ctx := 0, part := 0, prio := 0, phase := 0,
    header := loadedHeader, dieRec := loadedDies, ncrew := 1, cohorts := [],
    chain := { input := List.replicate 64 0, spillBytes := 0, peak := 0, pubs := [] }, barriers := [], dispatched := [0],
    stolen := [], transit := [], ended := 0, trapped := false, killed := false, abort := false, cut := false, counters := [0xFFFFFFFF], acts := 0,
    since := 0, headerRead := true, given := [], offered := 0 }

/-- The translation of the pages of the loaded program: device memory from 0x200000 on, on pages of 64 KiB of PKG reach. -/
def loadedXlate (page : Nat) : Xlate :=
  { big := false, frame := 0x200000 + page * 65536, r := true, w := true, x := true, reach := .pkg, target := 0, lpddr := false, near := false }

/-- The state with an instruction loaded as the next that issues: a resident crew whose only split stands at its words, their
page translated, and its turn first (log entry 4). -/
def State.loaded (s : State) (words : List Byte) : State :=
  let id := s.nextGrid
  let g := loadedGrid id
  let c := Crew.start g 0 0 0 0 [Strand.start 0 0xFFFFFFFF#32 0x80 0 0 s.cycle] s.cycle
  let s := s.writeMem 0x210080 (words ++ List.replicate (128 - words.length) 0)
  let s := (s.tlbFill 0 0 0x20000 (loadedXlate 2)).tlbFill 0 0 0x10000 (loadedXlate 1)
  { s.modCore 0 fun k =>
      { k with clusters := modNth k.clusters 0 fun _ => Cluster.full, icache := k.icache.filter fun l => l.line ≠ 0x210080 / 128 } with
    grids := g :: s.grids, nextGrid := id + 1, crews := c :: s.crews
    agenda := .issue { strand := { crew := c.ref, strand := 0 }, lane := 0 } :: s.agenda }

end Sys2Proof.Machine
end

