-- ==== Sys2Proof/Machine/Step.lean ====
section
/-! DEFINITION. One step of the device: whose turn it is acts once. -/
namespace Sys2Proof.Machine

/-- One step: the turn that the agenda holds; where it holds none, what can happen of itself comes first, and then the issue of
a split (log entry 1). -/
def step (s : State) : Host.Outcome State Fault Refusal :=
  match s.agenda with
  | t :: rest => actBy exec ({ s with agenda := rest }.turn exec t)
  | [] =>
    match s.happening with
    | some a => a.run s
    | none => actBy exec (s.ownTurn exec)

/-- The state with the instruction of a table row loaded, so that the very next step fetches and runs it (log entry 4). -/
def State.withFetchWord (s : State) (nbits w : Nat) : State := s.loaded (toBytes 20 (w % 2 ^ nbits))

end Sys2Proof.Machine
end

