-- ==== Sys2Proof/Safety.lean ====
section
/-! DEFINITION. The terms in which claims speak: when an issue runs freely, what a strand's registers hold once its pipeline has
drained, which registers a result goes to, and which parts of the state an instruction may change. -/
namespace Sys2Proof.Machine

/-! ## An issue that runs -/

/-- Nothing stands before the instruction: no trap is pending, the scoreboard lets it go, checks 3 and 4 of R106 and those of R50
pass, some lane is active, and every hand-off value that it reads exists. -/
def Ctx.free (c : Ctx) : Bool :=
  c.unresolved?.isNone && c.t.deferred.isEmpty && !c.held && c.decodeTrap.isNone && decide (c.act ≠ 0) && c.chainTrap.isNone &&
    (lanesOf c.act).all fun l => !(c.waitsHand l)

/-- In `s` the form `f` issues freely, and `c` is what its meaning sees, the acquires of R147 made. -/
def Runs (s : State) (f : Form) (c : Ctx) : Prop := ∃ d : Ctx, s.ctxOf f = some d ∧ d.free = true ∧ c = d.acquireHands

/-- BAR or BARC issues freely, Active() being empty or not (R49, R323). -/
def Arrives (s : State) (f : Form) (c : Ctx) : Prop :=
  Runs s f c ∨ ∃ d : Ctx, s.ctxOf f = some d ∧ d.act = 0 ∧ d.iss.queued = false ∧ d.t.deferred = [] ∧ d.held = false ∧
    d.decodeTrap = none ∧ c = d.acquireHands

/-- Whether some context runs freely: what `Runs` asks for, as a value. -/
def State.runs (s : State) (f : Form) : Bool := match s.ctxOf f with | some d => d.free | none => false

/-! ## Registers -/

/-- The strand with every result that stands in its pipeline written. -/
def Strand.final (t : Strand) : Strand := t.retire (BitVec.allOnes 64)

/-- Lane `l` of v register `n` is part of the destination. -/
def hitsV (o : Opd) (wide : Bool) (act : Mask) (n l : Nat) : Bool :=
  match o with
  | .v m => hasLane act l && (decide (n = m.toNat) || (wide && decide (n = m.toNat + 1)))
  | _ => false

/-- s register `n` is part of the destination. -/
def hitsS (o : Opd) (wide : Bool) (n : Nat) : Bool :=
  match o with
  | .s m => decide (n = m.toNat) || (wide && decide (n = m.toNat + 1))
  | _ => false

/-- Lane `l` of p register `n` is the destination; p7 is none (R49). -/
def hitsP (o : Opd) (act : Mask) (n l : Nat) : Bool :=
  match o with
  | .p m => decide (n = m.toNat) && decide (n ≠ 7) && hasLane act l
  | _ => false

/-- The destination holds the result (R47 to R49): a v register in every active lane, an s register the value of the lowest active
lane, a p register whether the value of its lane is not zero; p7 keeps reading true. -/
def Wrote (o : Opd) (wide : Bool) (act : Mask) (x : Nat → DWord) (u : Strand) : Prop :=
  match o with
  | .v n =>
    ∀ l, hasLane act l = true → u.vAt n.toNat l = loWord (x l) ∧ (wide = true → u.vAt (n.toNat + 1) l = hiWord (x l))
  | .s n => u.sAt n.toNat = loWord (x (lowest act)) ∧ (wide = true → u.sAt (n.toNat + 1) = hiWord (x (lowest act)))
  | .p n =>
    ∀ l, hasLane act l = true →
      u.pAt n.toNat l = if n = 7 then true else if wide then decide (x l ≠ 0) else decide (loWord (x l) ≠ 0)
  | _ => True

/-- No register but the destination has changed from `t` to `u`. -/
def OnlyWrote (o : Opd) (wide : Bool) (act : Mask) (t u : Strand) : Prop :=
  (∀ n l, l < 32 → hitsV o wide act n l = false → u.vAt n l = t.vAt n l) ∧
    (∀ n, hitsS o wide n = false → u.sAt n = t.sAt n) ∧ ∀ n l, hitsP o act n l = false → u.pAt n l = t.pAt n l

/-- The flags of all active lanes. -/
def flagsOf (act : Mask) (x : Nat → Flags) : Flags := (lanesOf act).foldl (fun f l => f ||| x l) 0

/-! ## What is left as it was -/

/-- Two strands agree but for the paths, the pipeline and the entries to re-inject. -/
def Strand.sameHeld (t u : Strand) : Prop :=
  u.idx = t.idx ∧ u.present = t.present ∧ u.ended = t.ended ∧ u.gen = t.gen ∧ u.sealedBy = t.sealedBy ∧ u.depth = t.depth ∧
    u.handler = t.handler ∧ u.deferred = t.deferred ∧ u.cluster = t.cluster ∧ u.arrivals = t.arrivals

/-- What a crew is but for its strands and its watchdog count. -/
def Crew.bare (c : Crew) : Crew := { c with wdCount := 0, strands := [] }

/-- From `s` to `t` only the strand `r`, the clocks, the watchdog counts and the numbering of operations have moved: memory, caches,
cores, dies, the tables of system software, launches, queues, every other strand, and what a crew holds beside its strands (local
store, tiles, views, tags, priority, handler) are as they were. -/
def FrameOf (r : StrandRef) (s t : State) : Prop :=
  (∃ (l : List Crew) (cy : DWord) (rp rt n : Nat),
    t = { s with crews := l, cycle := cy, refPart := rp, refTime := rt, nextId := n }) ∧
  (∀ q : StrandRef, q ≠ r → t.strand? q = s.strand? q) ∧
  ∀ q : CrewRef, (t.crew? q).map Crew.bare = (s.crew? q).map Crew.bare

/-- The instruction completes in every state in which it runs freely and `ok` holds of its context: its destination takes the result
of each lane, no other register changes, its flags join those of %fpmode, every byte of memory reads as before, and all else but the
strand's place is as it was. Where it reads a hand-off value of a wide scope, the acquire of R147 comes first (`c.s`). -/
def WritesIf (i : Instr) (f : Form) (ok : Ctx → Prop) (x : Ctx → Nat → DWord × Flags) : Prop :=
  ∀ (s : State) (c : Ctx), Runs s f c → ok c →
    ∃ (t : State) (u : Strand), exec i s = .next t ∧ t.strand? c.r = some u ∧
      Wrote f.e.d f.dstWide c.act (fun l => (x c l).1) u.final ∧ OnlyWrote f.e.d f.dstWide c.act c.t.final u.final ∧
        u.final.fp = c.t.final.fp ||| ((flagsOf c.act fun l => (x c l).2).setWidth 32 <<< 3) ∧
          (∀ key, t.memByte key = c.s.memByte key) ∧ (f.specs.any isHand = false → ∀ key, c.s.memByte key = s.memByte key) ∧
            FrameOf c.r c.s t ∧ Strand.sameHeld c.t u

/-- `WritesIf` without a condition on the context. -/
def Writes (i : Instr) (f : Form) (x : Ctx → Nat → DWord × Flags) : Prop := WritesIf i f (fun _ => True) x

/-- A result without flags. -/
def plainly (x : Ctx → Nat → DWord) (c : Ctx) (l : Nat) : DWord × Flags := (x c l, 0)

/-- The instruction completes in every state in which it runs freely and `ok` holds: `eff` is the state that it makes, and its lanes
go on to `dst`, or to the instruction after it, `extra` beats more having passed than its lanes take. -/
def Does (i : Instr) (f : Form) (ok : Ctx → Prop) (eff : Ctx → State) (dst : Ctx → Option (Nat → Word)) (extra : Ctx → Nat) : Prop :=
  ∀ (s : State) (c : Ctx), Runs s f c → ok c → exec i s = .next (c.leave (eff c) 0 id (dst c) (c.beats + extra c))

/-- The base form and the literal and extended forms of a cell give the same result. -/
def BothForms (base : Base → Instr) (long : Long → Instr) (op : Nat) (x : Ctx → Nat → DWord × Flags) : Prop :=
  (∀ b : Base, Writes (base b) (Form.ofBase op b) x) ∧ ∀ f : Long, Writes (long f) (Form.ofLong op f) x

/-- The base form and the extended form of a unary cell give the same result. -/
def BothUnary (base : Base → Instr) (ext : Ext → Instr) (op : Nat) (x : Ctx → Nat → DWord × Flags) : Prop :=
  (∀ b : Base, Writes (base b) (Form.ofBase op b) x) ∧ ∀ e : Ext, Writes (ext e) (Form.ofExt op e) x

/-- The low bits of a value that its type holds. -/
def narrow (t : Ty) (x : DWord) : DWord := BitVec.ofNat 64 (x.toNat % 2 ^ t.width)

/-! ## Accesses -/

/-- Two strands hold the same registers and flags. -/
def SameRegs (t u : Strand) : Prop := t.v = u.v ∧ t.s = u.s ∧ t.p = u.p ∧ t.fp = u.fp

/-- A byte and whether it is uncorrectable, as the path of a plain load sees it. -/
def Ctx.pathByte (c : Ctx) (key : Nat) : Byte × Bool :=
  if c.space = .const then c.s.kByte c.core c.ctx key else c.s.l1Byte c.core key

/-- Every lane is translated, every line is at hand, and no byte is uncorrectable. -/
def Ctx.lanesIn (c : Ctx) : Prop :=
  c.space ≠ .localStore ∧
    ∀ l, hasLane c.act l = true →
      ∃ ks, c.keys? c.s .read l = some ks ∧ c.atHand ks = true ∧ ∀ k ∈ ks, (c.pathByte k.1).2 = false

/-- No access in flight meets this one, and its lines are at hand. -/
def Ctx.linesAtHand (c : Ctx) : Prop := c.overlaps = false ∧ c.lanesIn

/-- The value that a lane of a plain load takes: the bytes at its addresses, lowest first, placed as its type says (R4, R209, R365). -/
def Ctx.loaded (c : Ctx) (l : Nat) : DWord :=
  loadPlace c.f.e.ty (fromBytes (((c.keys? c.s .read l).getD []).map fun k => (c.pathByte k.1).1))

/-- The value that a lane of a load of the local store takes. -/
def Ctx.loadedLocal (c : Ctx) (l : Nat) : DWord :=
  loadPlace c.f.e.ty (fromBytes ((span (c.ea l).toNat c.size).map (SMap.look 0 c.c.store)))

/-- A core but for the virtual lines under which its L1 lines are remembered. -/
def Core.plain (k : Core) : Core := { k with l1 := k.l1.map fun l => { l with vline := none } }

/-- The instruction is a plain load that completes where `ok` holds: its destination takes each lane's value, no other register changes,
every byte of memory reads as before, and all else but the strand's place is as it was, the caches too (an L1 line alone may
forget the virtual line under which it is remembered). -/
def Loads (i : Instr) (f : Form) (ok : Ctx → Prop) (x : Ctx → Nat → DWord) : Prop :=
  ∀ (s : State) (c : Ctx), Runs s f c → ok c →
    ∃ (t : State) (u : Strand), exec i s = .next t ∧ t.strand? c.r = some u ∧
      Wrote f.e.d f.dstWide c.act (x c) u ∧ OnlyWrote f.e.d f.dstWide c.act c.t u ∧ u.fp = c.t.fp ∧ u.inflight = c.t.inflight ∧
        Strand.sameHeld c.t u ∧ (∀ key, t.memByte key = c.s.memByte key) ∧
          (f.specs.any isHand = false → ∀ key, c.s.memByte key = s.memByte key) ∧
            FrameOf c.r { c.s with cores := t.cores } t ∧ t.cores.map Core.plain = c.s.cores.map Core.plain

/-- The bytes that a lane of a plain store writes, with their places: offsets of the local store, or keys of memory. -/
def Ctx.laneStores (c : Ctx) (l : Nat) : List (Nat × Byte) :=
  (if c.space = .localStore then c.bytes l else ((c.keys? c.s .write l).getD []).map (·.1)).zip (toBytes c.size (c.stored l).toNat)

/-- The bytes that a plain store writes in the lanes `m`, ascending. -/
def Ctx.storesOf (c : Ctx) (m : Mask) : List (Nat × Byte) := (lanesOf m).flatMap c.laneStores

/-- The last byte that a list writes at a place. -/
def lastByte (l : List (Nat × Byte)) (a : Nat) : Option Byte := (l.reverse.find? fun x => x.1 = a).map (·.2)

/-- Beyond the local store, the line of every byte that the TLBs translate is in L1. -/
def Ctx.storeLinesIn (c : Ctx) : Prop :=
  c.space ≠ .localStore →
    ∀ l, hasLane c.act l = true → ∀ ks, c.keys? c.s .write l = some ks →
      ∀ k ∈ ks, ((c.s.core? c.core).bind fun d => d.l1? (k.1 / 128)).isSome = true

/-- No access in flight meets this one, and the lines of its bytes are in L1. -/
def Ctx.storesAtHand (c : Ctx) : Prop := c.overlaps = false ∧ c.storeLinesIn

/-- The lanes that a store performs at its issue: all of the local store, else those whose pages are translated. -/
def Ctx.storeReady (c : Ctx) : Mask := if c.space = .localStore then c.act else c.mapped c.s .write c.act

/-- What a plain store has done once the lanes `m` are performed, where their lines are at hand: where lanes write one byte the highest
lane's value remains (R130); no other byte of the local store, or of the core's view of memory, changes; memory itself and every
register stand, and so does all else but the strand's place, what its own core's lines of L1 hold, and what is noted of a write. -/
def Stored (c : Ctx) (m : Mask) (t : State) (u : Strand) : Prop :=
  t.strand? c.r = some u ∧ SameRegs u c.t ∧ Strand.sameHeld c.t u ∧ (∀ key, t.memByte key = c.s.memByte key) ∧
    (c.space = .localStore → ∃ k, t.crew? c.r.crew = some k ∧
      (∀ a, SMap.look 0 k.store a = (lastByte (c.storesOf m) a).getD (SMap.look 0 c.c.store a)) ∧
        FrameOf c.r (c.s.modCrew c.r.crew fun x => { x with store := k.store }) t) ∧
      (c.space ≠ .localStore →
        (∀ key, (t.l1Byte c.core key).1 = (lastByte (c.storesOf m) key).getD (c.s.l1Byte c.core key).1) ∧
          t.cores.length = c.s.cores.length ∧ (∀ n, n ≠ c.core → t.core? n = c.s.core? n) ∧
          (∀ k, t.core? c.core = some k → ∃ j, c.s.core? c.core = some j ∧ k = { j with l1 := k.l1 } ∧ k.l1.map (·.line) = j.l1.map (·.line)) ∧
          FrameOf c.r { c.s with cores := t.cores, pkgWrites := t.pkgWrites, watched := t.watched } t)

/-- The instruction is a plain store that completes where `ok` holds: the lanes that are translated are performed; where others are
not, they are in flight until their pages are walked (R283). -/
def Stores (i : Instr) (f : Form) (ok : Ctx → Prop) : Prop :=
  ∀ (s : State) (c : Ctx), Runs s f c → ok c → c.storesAtHand →
    ∃ (t : State) (u : Strand), exec i s = .next t ∧ Stored c c.storeReady t u ∧
      (f.specs.any isHand = false → ∀ key, c.s.memByte key = s.memByte key) ∧
        (c.storeReady = c.act → u.inflight = c.t.inflight) ∧
          (c.storeReady ≠ c.act → ∃ x : InFlight, u.inflight = c.t.inflight ++ [x] ∧ x.state = .outstanding ∧
            x.entry = c.entry (c.act &&& ~~~c.storeReady) false)

/-- The instruction is a plain load whose lines are not all at hand: it completes for the strand, in flight with all its active lanes,
nothing else having changed; it is outstanding where the miss-status entries have room, else rejected (R168, R283). -/
def LoadFlies (i : Instr) (f : Form) (ok : Ctx → Prop) : Prop :=
  ∀ (s : State) (c : Ctx), Runs s f c → ok c → c.overlaps = false → c.space ≠ .localStore →
    (∃ l, hasLane c.act l = true ∧ ∀ ks, c.keys? c.s .read l = some ks → c.atHand ks = false) →
    ∃ (t : State) (u : Strand) (x : InFlight), exec i s = .next t ∧ t.strand? c.r = some u ∧ SameRegs u c.t ∧ Strand.sameHeld c.t u ∧
      u.inflight = c.t.inflight ++ [x] ∧ x.entry = c.entry c.act false ∧
        (if c.entriesFor c.s c.act (fun _ => true) then x.state = .outstanding ∧ x.lines = c.missed c.s c.act
          else x.state = .rejected c.s.cycle ∧ x.lines = []) ∧ FrameOf c.r c.s t

/-- The state and the lanes' keys are what a translation at issue gives. -/
def Ctx.translated (c : Ctx) (a : Right) (lanes : List Nat) (s : State) (lk : List LaneKeys) : Prop :=
  c.translateLanes c.s a c.bytes lanes = (s, .inl lk)

/-- A bank operation passes its checks (R320), and in `s` this core's own writes of its lines have reached the bank (R172). `host`: it is
refused on host memory under PCIe (R300). -/
def Ctx.bankReady (c : Ctx) (host : Bool) (s : State) (lk : List LaneKeys) : Prop :=
  c.bankTrap = none ∧ c.overlaps = false ∧ (c.f.e.scope = .none ∨ c.quiet = true) ∧
    ∃ s0, c.translated .both (lanesOf c.act) s0 lk ∧
      (host = true → s0.port = .pcie → ∀ x ∈ lk, ∀ k ∈ x.2, k.2.target ≠ 1) ∧ c.scopeFail s0 lk = none ∧
        s = lk.foldl (fun s x => c.flush s x.2) s0 ∧ poisonedLanes s lk = 0

/-- The instruction is a tile operation: where `ok` holds, its core has room and its pages are translated, it completes with its operation
last in the core's queue, the registers as they were, its lanes standing where an issue without a target leaves them. -/
def Queues (i : Instr) (f : Form) (ok : Ctx → Prop) (kind : Ctx → TileKind) (td ts : Nat) : Prop :=
  ∀ (s : State) (c : Ctx) (k : Core) (pages : List (Nat × Xlate)), Runs s f c → ok c → c.tileStalls = false → c.s.core? c.core = some k →
    (c.s.transPages c.core c.ctx (kind c).pages.2 (kind c).pages.1).2 = .inl pages →
    ∃ (t : State) (k' : Core) (o : TileOp) (u : Strand), exec i s = .next t ∧ t.core? c.core = some k' ∧ k'.tileQ = k.tileQ ++ [o] ∧
      o.kind = kind c ∧ o.td = td ∧ o.ts = ts ∧ o.crew = c.r.crew ∧ o.strand = c.t.idx ∧ o.pages = pages ∧
        t.strand? c.r = some u ∧ SameRegs u c.t ∧ u.inflight = c.t.inflight ∧
          ∀ v, (c.leave c.s 0 id none c.beats).strand? c.r = some v → u.splits = v.splits ∧ u.stack = v.stack ∧ u.reinject = v.reinject

/-! ## What engines move -/

/-- The moves of a copy whose elements are `now`: the fill where the source ends. -/
def copyMoves (j : Job) (now : Snap) : List Move :=
  (j.pairs.zip now).map fun y =>
    { addr := y.1.1, src := y.1.2, data := match y.1.2 with | some _ => y.2 | none => some (j.fill, 0) }

/-- The bytes that moves write, granule after granule, with their places in the destination. -/
def movedBytes (e : Nat) (ms : List Move) : List (Nat × Byte) := (granuleOrder e ms).flatMap fun g => granuleBytes e g ms

/-- Every element of a snapshot that is read from the source is there and correctable. -/
def allGood (j : Job) (now : Snap) : Prop := ∀ y ∈ j.pairs.zip now, y.1.2.isSome = true → ∃ v, y.2 = some (v, 0)

/-- A crew's tag is DONE with a code and counts, its operation over (R217, R218). -/
def TagDone (s : State) (r : CrewRef) (n code read filled : Nat) : Prop :=
  ∃ c, s.crew? r = some c ∧ (c.tag n).state = .done ∧ (c.tag n).code = BitVec.ofNat 8 code ∧ (c.tag n).read = BitVec.ofNat 24 read ∧
    (c.tag n).filled = BitVec.ofNat 24 filled ∧ (c.tag n).op = none ∧ (c.tag n).errPend = (code = 1 || code = 2 || code = 4)

/-! ## Paths -/

/-- Where the path that holds a lane stands. -/
def Strand.placeOf (t : Strand) (l : Nat) : Option Word := ((t.splits ++ t.stack).find? fun p => hasLane p.mask l).map (·.pc)

/-- The paths of a strand divide lanes that have not ended, and at most four of them are splits (R21, R23). -/
def Strand.pathsOk (t : Strand) : Prop :=
  (t.splits ++ t.stack).Pairwise (fun p q => p.mask &&& q.mask = 0) ∧
    (∀ p ∈ t.splits ++ t.stack, p.mask ≠ 0 ∧ p.mask &&& ~~~t.live = 0) ∧ t.splits.length ≤ 4

/-! ## Traps -/

/-- The lanes that a trap of an issue takes into the handler. -/
def Ctx.trapMask (c : Ctx) : Mask :=
  match c.iss.replay with
  | some e => if e.mask = 0 then e.captured else e.mask
  | none => c.iss.mask

/-- The splits beside the one that issues. -/
def Ctx.others (c : Ctx) : List Path := c.t.splits.filter fun p => c.iss.queued || !(hasLane p.mask (lowest c.iss.mask))

/-- The entries that wait to be re-injected behind the one that issues. -/
def Ctx.waiting (c : Ctx) : List ReplayEntry := if c.iss.queued then c.t.reinject.drop 1 else c.t.reinject

/-- A trap of the issue can be taken: no access is under way, the crew has a handler, the strand is not in it, and the replay queue,
the trapping entry among its 16, has room for what is in flight, for the splits whose accesses are parked, and for the entries that
wait to be re-injected, none of which is the trapping one (R275, R276, R282). -/
def Ctx.trapFits (c : Ctx) : Prop :=
  c.t.busy = false ∧ c.c.handler ≠ 0 ∧ c.t.handler = none ∧ c.t.deferred = [] ∧
    c.t.inflight.length + (c.others.filterMap Path.parkedEntry).length + c.waiting.length ≤ 15 ∧
      ∀ e ∈ c.waiting, { e with trapping := true } ≠ { c.entry c.act true with trapping := true }

/-- The strand has entered its handler (R275, R276): cause with the lane, address, pc and mask are saved; the replay queue holds all that
was in flight and all that waited to be re-injected, and the instruction is its trapping entry, at the end; the splits and the stack
stand frozen, that of the instruction behind it; one split begins at the handler; and the registers are as they were. -/
def Entered (c : Ctx) (code : Trap) (addr : DWord) (lane : Nat) (t : State) : Prop :=
  ∃ (u : Strand) (fr : Frame), t.strand? c.r = some u ∧ u.handler = some fr ∧
    fr.cause = BitVec.ofNat 32 (trapCode code + 256 * lane) ∧ fr.addr = addr ∧ fr.pc = c.iss.pc ∧ fr.mask = c.trapMask ∧
      fr.queue.getLast? = some { c.entry c.act true with trapping := true } ∧ fr.queue.length ≤ 16 ∧
        (∀ x ∈ c.t.inflight, x.caught ∈ fr.queue) ∧ (∀ e ∈ c.waiting, { e with trapping := false } ∈ fr.queue) ∧
          (∀ p ∈ c.others, p.parkedEntry = none → freeze p ∈ fr.splits) ∧ fr.stack = c.t.stack.map freeze ∧
            (c.iss.queued = false → ∀ p ∈ c.t.splits, hasLane p.mask (lowest c.iss.mask) = true →
              ∃ q ∈ fr.splits, q.pc = c.next ∧ q.mask = p.mask) ∧
              u.splits.map (fun p => (p.pc, p.mask)) = [(c.c.handler, c.trapMask &&& c.t.live)] ∧ u.stack = [] ∧ u.inflight = [] ∧
                SameRegs u c.t

/-! ## Commands and packets -/

/-- A submitted command of the code waits for firmware, with MBW0[31:8] clear (R303). -/
def State.asked (s : State) (code : Nat) : Prop :=
  s.mbBusy = true ∧ s.starting = none ∧ s.mbWait = none ∧ s.recovery = false ∧ s.mbCode = code ∧ nthWord s.mbw 0 >>> 8 = 0

/-- The front end takes the next packet of queue `n` now, and its bytes `b` are a good packet of the kind (R254, R255, R264). -/
def State.takes (s : State) (n : Nat) (q : Queue) (b : List Byte) (kind : Nat) : Prop :=
  s.queue? n = some q ∧ s.frontOpen q = true ∧ q.canRead = true ∧ s.queueFirst q = true ∧ s.packetBytes q q.rptr = .ok b ∧
    field b 0 1 = kind ∧ packetOk b = true

end Sys2Proof.Machine
end

