-- ==== Sys2Proof/Certificates/Slice0/Obligations.lean ====
section
/-! DEFINITION. The statements for the provers. -/
open Sys2Proof Sys2Proof.Machine

/-! ## Encodings -/

/-- (R88 to R99): words written out bit by bit from the encoding tables decode to the instructions that they stand for. -/
def Obligations.DecodeWords : Prop :=
  -- IADD v3, v4 under p7: L 0, OP 0x20, G 7, D 3, A 4
  decodeNat (0x20 * 4 + 7 * 1024 + 3 * 16384 + 4 * 4194304) = .iadd { g := { reg := 7, neg := false }, d := 3, a := 4, m := 0 } ∧
  -- BRA by -4 bytes under !p1: OFF 0x3FFFF
  decodeNat (0x01 * 4 + 1 * 1024 + 8192 + 0x3FFFF * 16384) = .bra { reg := 1, neg := true } 0x3FFFF ∧
  -- UDF and a reserved cell (0x08)
  decodeNat (0xFF * 4 + 7 * 1024) = .udf { reg := 7, neg := false } 0 ∧
  decodeNat (0x08 * 4 + 7 * 1024) = .reservedCell { l := 0, bits := 0x08 * 4 + 7 * 1024 } ∧
  -- CSRR v1, %lane: L 1, OP 0xC0, D v1, TYPE .b32 (0), IMM16 2
  decodeNat (1 + 0xC0 * 4 + 7 * 1024 + 1 * 2 ^ 14 + 2 * 2 ^ 80) =
    .csrr { g := { reg := 7, neg := false }, d := .v 1, a := .v 0, b := .v 0, c := .v 0, ty := .b32, rnd := 0, scope := .none,
            mod := 0, view := none, aux := 0, imm := 2, lit := none }

/-- (R88 to R107): decoding the words of a well-formed instruction gives it back; no bit of an operand is lost.
Choices of the model: log entries 66, 67. -/
def Obligations.RoundTrip : Prop :=
  ∀ (i : Instr) (n w : Nat), i.wf = true → encode i = some (n, w) →
    decodeNat w = i ∧ n = lengthWords (lOf w) ∧ w < 2 ^ (32 * n)

/-- (R88, R89, R106): every word sequence decodes to a well-formed instruction whose words are the ones decoded: words that no
row allows are kept as they stand, and trap by name. The decoder takes an instruction from the front of its bytes and leaves what
follows.
Choices of the model: log entries 66, 67. -/
def Obligations.DecodeIsFaithful : Prop :=
  (∀ w : Nat, (decodeNat w).wf = true ∧
     encode (decodeNat w) = some (lengthWords (lOf w), w % 2 ^ (32 * lengthWords (lOf w)))) ∧
  (∀ (i : Instr) (rest : List Byte), i.wf = true → (encode i).isSome = true → decode (encodeBytes i ++ rest) = some (i, rest))

/-! ## Integers -/

/-- (R66, R72, R353, R355, R360): in every active lane the exact integer result, wrapped, or clamped under .sat. What the destination keeps of it: without
.sat the integer modulo 2^w, with .sat the nearest value of the type; a 32-bit destination of a 32-bit type is the sum that wraps.
Completes: iadd, iaddExt, isub, isubExt, imul, imulExt, imulh, imulhExt, imad, ineg, inegExt, iabs, iabsExt, imin, iminExt,
imax, imaxExt. -/
def Obligations.IntegerResults : Prop :=
  (BothForms .iadd .iaddExt 0x20 (plainly fun c l => intResult c.f.e.ty c.sat (c.int (c.a l) + c.int (c.b l))) ∧
   BothForms .isub .isubExt 0x21 (plainly fun c l => intResult c.f.e.ty c.sat (c.int (c.a l) - c.int (c.b l))) ∧
   BothForms .imul .imulExt 0x22 (plainly fun c l => intResult c.f.e.ty c.sat (c.int (c.a l) * c.int (c.b l))) ∧
   BothForms .imulh .imulhExt 0x23 (plainly fun c l => intResult c.f.e.ty c.sat ((c.int (c.a l) * c.int (c.b l)) / ((2 ^ c.f.e.ty.width : Nat) : Int))) ∧
   BothForms .imin .iminExt 0x29 (plainly fun c l => intResult c.f.e.ty c.sat (min (c.int (c.a l)) (c.int (c.b l)))) ∧
   BothForms .imax .imaxExt 0x2A (plainly fun c l => intResult c.f.e.ty c.sat (max (c.int (c.a l)) (c.int (c.b l)))) ∧
   (∀ e : Ext, Writes (.imad e) (Form.ofExt 0x24 e) (plainly fun c l => intResult c.f.e.ty c.sat (c.int (c.a l) * c.int (c.b l) + c.int (c.cc l)))) ∧
   BothUnary .ineg .inegExt 0x27 (plainly fun c l => intResult c.f.e.ty c.sat (-(c.int (c.a l)))) ∧
   BothUnary .iabs .iabsExt 0x28 (plainly fun c l => intResult c.f.e.ty c.sat (((c.int (c.a l)).natAbs : Int)))) ∧
  ((∀ x y : Word, loWord (intResult .s32 false (x.toInt + y.toInt)) = x + y) ∧
   (∀ x y : Word, loWord (intResult .n32 false ((x.toNat : Int) - y.toNat)) = x - y) ∧
   (∀ x y : DWord, intResult .s64 false (x.toInt * y.toInt) = x * y) ∧
   (∀ (t : Ty) (x : Int), t.isAnyInt = true → t.width ≤ 64 →
     intVal t (intResult t true x).toNat = (clampTo t x).1 ∧ (intVal t (intResult t false x).toNat - x) % ((2 ^ t.width : Nat) : Int) = 0) ∧
   (∀ x : Int, (clampTo .s8 x).1 = max (-128) (min 127 x)) ∧ (∀ x : Int, (clampTo .s32 x).1 = max (-2147483648) (min 2147483647 x)))

/-- (R73, R359): quotients round toward zero; a division by zero gives all ones, its remainder the dividend.
Completes: idiv, idivExt, irem, iremExt. -/
def Obligations.DivisionResults : Prop :=
  BothForms .idiv .idivExt 0x25 (plainly fun c l => intResult c.f.e.ty c.sat (if c.int (c.b l) = 0 then -1 else Int.tdiv (c.int (c.a l)) (c.int (c.b l)))) ∧
  BothForms .irem .iremExt 0x26 (plainly fun c l => intResult c.f.e.ty c.sat (if c.int (c.b l) = 0 then c.int (c.a l) else Int.tmod (c.int (c.a l)) (c.int (c.b l))))

/-- (R361, R375, R376, R397): MOV and MOVI place their operand, SEL one of two by a truth value, ISET the truth of a comparison.
Completes: iset, sel, mov, movExt, movi, moviLit. -/
def Obligations.MovesAndSelects : Prop :=
  BothUnary .mov .movExt 0x2E (plainly fun c l => place c.f.e.ty (c.a l)) ∧
  (∀ b : Base, Writes (.movi b) (Form.ofBase 0x2F b) (plainly fun c l => place c.f.e.ty (c.a l))) ∧
  (∀ (g : Guard) (d : BitVec 8) (m : BitVec 2) (x : DWord), Writes (.moviLit g d m x) (Form.ofLit 0x2F { g := g, d := d, a := 0, m := m } x)
    (plainly fun c l => place c.f.e.ty (c.a l))) ∧
  (∀ e : Ext, Writes (.sel e) (Form.ofExt 0x2D e) (plainly fun c l => place c.f.e.ty (if c.cc l = 0 then c.b l else c.a l))) ∧
  (∀ e : Ext, Writes (.iset e) (Form.ofExt 0x2B e) (plainly fun c l => truth (condHolds c.f.e.rnd.toNat (compare (c.int (c.a l)) (c.int (c.b l))))))

/-- (R356): IADDC writes the sum or difference with the carry in, and the carry or borrow out to the predicate C; both are in their
registers once the pipeline has drained, where C is another predicate than p7 and D is no predicate.
Completes: iaddc. -/
def Obligations.CarryChain : Prop :=
  ∀ (e : Ext) (s : State) (c : Ctx) (n : BitVec 3), Runs s (Form.ofExt 0x2C e) c → e.c = .p n → n ≠ 7 → (∀ m, e.d ≠ .p m) →
    let carry (l : Nat) : Int := if c.cc l = 0 then 0 else 1
    let x (l : Nat) : Int :=
      if e.mod.getLsbD 0 then c.int (c.a l) - c.int (c.b l) - carry l else c.int (c.a l) + c.int (c.b l) + carry l
    ∃ (t : State) (u : Strand), exec (.iaddc e) s = .next t ∧ t.strand? c.r = some u ∧
      Wrote e.d e.ty.is64 c.act (fun l => intResult e.ty false (x l)) u.final ∧
      ∀ l, hasLane c.act l = true → u.final.pAt n.toNat l = (decide (x l < 0) || decide (((2 ^ e.ty.width : Nat) : Int) ≤ x l))

/-! ## Bits -/

/-- (R316, R379, R395, R415): the bitwise operations act on every bit of the type; shifts count by the low 32 bits of B, and a count of the width
or more gives 0, or the sign for SAR; ROL counts modulo the width.
Completes: andW, andExt, andn, andnExt, orW, orExt, xorW, xorExt, notW, notExt, shl, shlExt, shr, shrExt, sar, sarExt, rol,
rolExt. -/
def Obligations.BitwiseResults : Prop :=
  (BothForms .andW .andExt 0x30 (plainly fun c l => narrow c.f.e.ty (c.a l &&& c.b l)) ∧
   BothForms .andn .andnExt 0x31 (plainly fun c l => narrow c.f.e.ty (c.a l &&& ~~~(c.b l))) ∧
   BothForms .orW .orExt 0x32 (plainly fun c l => narrow c.f.e.ty (c.a l ||| c.b l)) ∧
   BothForms .xorW .xorExt 0x33 (plainly fun c l => narrow c.f.e.ty (c.a l ^^^ c.b l)) ∧
   BothUnary .notW .notExt 0x34 (plainly fun c l => narrow c.f.e.ty (~~~(c.a l)))) ∧
  (BothForms .shl .shlExt 0x35 (plainly fun c l => narrow c.f.e.ty (c.a l <<< (loWord (c.b l)).toNat)) ∧
   BothForms .shr .shrExt 0x36 (plainly fun c l => narrow c.f.e.ty (c.a l) >>> (loWord (c.b l)).toNat) ∧
   BothForms .sar .sarExt 0x37 (plainly fun c l =>
     BitVec.ofNat 64 (wrap c.f.e.ty.width (sext c.f.e.ty.width (c.a l).toNat / ((2 ^ (loWord (c.b l)).toNat : Nat) : Int)))) ∧
   BothForms .rol .rolExt 0x38 (plainly fun c l =>
     narrow c.f.e.ty (c.a l <<< ((loWord (c.b l)).toNat % c.f.e.ty.width)) |||
       (narrow c.f.e.ty (c.a l) >>> (c.f.e.ty.width - (loWord (c.b l)).toNat % c.f.e.ty.width))))

/-- (R330, R385): CLZ, CTZ, POPC and BREV of the bits of the type, and what the counts and the reversal are.
Completes: clz, clzExt, ctz, ctzExt, popc, popcExt, brev, brevExt. -/
def Obligations.BitCounts : Prop :=
  (BothUnary .clz .clzExt 0x39 (plainly fun c l => BitVec.ofNat 64 (BitFn.apply .clz c.f.e.ty.width (narrow c.f.e.ty (c.a l)).toNat)) ∧
   BothUnary .ctz .ctzExt 0x3A (plainly fun c l => BitVec.ofNat 64 (BitFn.apply .ctz c.f.e.ty.width (narrow c.f.e.ty (c.a l)).toNat)) ∧
   BothUnary .popc .popcExt 0x3B (plainly fun c l => BitVec.ofNat 64 (BitFn.apply .popc c.f.e.ty.width (narrow c.f.e.ty (c.a l)).toNat)) ∧
   BothUnary .brev .brevExt 0x3C (plainly fun c l => BitVec.ofNat 64 (BitFn.apply .brev c.f.e.ty.width (narrow c.f.e.ty (c.a l)).toNat))) ∧
  (∀ w a : Nat, a < 2 ^ w →
     (BitFn.apply .clz w 0 = w ∧ BitFn.apply .ctz w 0 = w) ∧
     (a ≠ 0 → BitFn.apply .clz w a < w ∧ 2 ^ (w - 1 - BitFn.apply .clz w a) ≤ a ∧ a < 2 ^ (w - BitFn.apply .clz w a)) ∧
     (a ≠ 0 → a % 2 ^ BitFn.apply .ctz w a = 0 ∧ a / 2 ^ BitFn.apply .ctz w a % 2 = 1) ∧
     BitFn.apply .popc w a = ((List.range w).filter fun k => a.testBit k).length ∧
     ∀ k, k < w → (BitFn.apply .brev w a).testBit k = a.testBit (w - 1 - k))

/-- (R325, R388): BFX, BFI and PRMT. Bit k of BFX without a sign is bit POS + k of A for k below LEN, and 0 above; BFI changes the field's
bits only; LEN is cut where the field would leave the value.
Completes: bfx, bfi, prmt. -/
def Obligations.FieldResults : Prop :=
  ((∀ e : Ext, Writes (.bfx e) (Form.ofExt 0x3D e) (plainly fun c l => bfx c.f.e.ty (narrow c.f.e.ty (c.a l)).toNat (loWord (c.b l)).toNat)) ∧
   (∀ e : Ext, Writes (.bfi e) (Form.ofExt 0x3E e) (plainly fun c l =>
     bfi c.f.e.ty (narrow c.f.e.ty (c.a l)).toNat (narrow c.f.e.ty (c.b l)).toNat (loWord (c.cc l)).toNat)) ∧
   (∀ e : Ext, Writes (.prmt e) (Form.ofExt 0x3F e) (plainly fun c l =>
     BitVec.ofNat 64 (prmt (loWord (c.a l)).toNat (loWord (c.b l)).toNat (loWord (c.cc l)).toNat)))) ∧
  (∀ (a b ctl k : Nat), a < 2 ^ 32 → b < 2 ^ 32 → k < 32 →
     let pos := ctl % 256
     let len := if 32 ≤ pos then 0 else min (ctl / 256 % 256) (32 - pos)
     (bfx .n32 a ctl).toNat.testBit k = (decide (k < len) && a.testBit (pos + k)) ∧
     (bfi .b32 a b ctl).toNat.testBit k = if pos ≤ k ∧ k < pos + len then b.testBit (k - pos) else a.testBit k)

/-! ## Predicates and lanes -/

/-- (R381, R411): the predicate operations on sources negated by MOD[0] and MOD[1], and the votes over the active lanes.
Completes: pand, por, pxor, pnot, pmov, voteAll, voteAny, voteBallot. -/
def Obligations.PredicateResults : Prop :=
  (∀ e : Ext, Writes (.pand e) (Form.ofExt 0x10 e) (plainly fun c l => truth ((decide (c.a l ≠ 0) != c.f.e.mod.getLsbD 0) && (decide (c.b l ≠ 0) != c.f.e.mod.getLsbD 1)))) ∧
  (∀ e : Ext, Writes (.por e) (Form.ofExt 0x11 e) (plainly fun c l => truth ((decide (c.a l ≠ 0) != c.f.e.mod.getLsbD 0) || (decide (c.b l ≠ 0) != c.f.e.mod.getLsbD 1)))) ∧
  (∀ e : Ext, Writes (.pxor e) (Form.ofExt 0x12 e) (plainly fun c l => truth ((decide (c.a l ≠ 0) != c.f.e.mod.getLsbD 0) != (decide (c.b l ≠ 0) != c.f.e.mod.getLsbD 1)))) ∧
  (∀ e : Ext, Writes (.pnot e) (Form.ofExt 0x13 e) (plainly fun c l => truth (!(decide (c.a l ≠ 0) != c.f.e.mod.getLsbD 0)))) ∧
  (∀ e : Ext, Writes (.pmov e) (Form.ofExt 0x14 e) (plainly fun c l => truth ((decide (c.a l ≠ 0) != c.f.e.mod.getLsbD 0)))) ∧
  (∀ e : Ext, Writes (.voteAll e) (Form.ofExt 0x15 e) (plainly fun c _ => truth ((lanesOf c.act).all fun l => c.truthOf (c.a l) 0))) ∧
  (∀ e : Ext, Writes (.voteAny e) (Form.ofExt 0x16 e) (plainly fun c _ => truth ((lanesOf c.act).any fun l => c.truthOf (c.a l) 0))) ∧
  (∀ e : Ext, Writes (.voteBallot e) (Form.ofExt 0x17 e) (plainly fun c _ => (maskOf fun l => hasLane c.act l && c.truthOf (c.a l) 0).setWidth 64))

/-- (R372, R398, R399): a lane takes the value of its source lane, all read before any is written; without an active source it keeps its own, or 0. MATCH gives the lanes of equal value.
Completes: shflIdx, shflUp, shflDown, shflXor, matchAny, matchAll. -/
def Obligations.ShuffleResults : Prop :=
  (∀ e : Ext, Writes (.shflIdx e) (Form.ofExt 0x18 e) (plainly fun c l =>
    match shflSource 0 (c.f.e.aux.getLsbD 3) (c.f.e.aux &&& 7#8).toNat l (loWord (c.b l)).toNat with
    | some k => if hasLane c.act k then c.a k else if c.f.e.aux.getLsbD 4 then 0 else c.a l
    | none => if c.f.e.aux.getLsbD 4 then 0 else c.a l)) ∧
  (∀ e : Ext, Writes (.shflUp e) (Form.ofExt 0x19 e) (plainly fun c l =>
    match shflSource 1 (c.f.e.aux.getLsbD 3) (c.f.e.aux &&& 7#8).toNat l (loWord (c.b l)).toNat with
    | some k => if hasLane c.act k then c.a k else if c.f.e.aux.getLsbD 4 then 0 else c.a l
    | none => if c.f.e.aux.getLsbD 4 then 0 else c.a l)) ∧
  (∀ e : Ext, Writes (.shflDown e) (Form.ofExt 0x1A e) (plainly fun c l =>
    match shflSource 2 (c.f.e.aux.getLsbD 3) (c.f.e.aux &&& 7#8).toNat l (loWord (c.b l)).toNat with
    | some k => if hasLane c.act k then c.a k else if c.f.e.aux.getLsbD 4 then 0 else c.a l
    | none => if c.f.e.aux.getLsbD 4 then 0 else c.a l)) ∧
  (∀ e : Ext, Writes (.shflXor e) (Form.ofExt 0x1B e) (plainly fun c l =>
    match shflSource 3 (c.f.e.aux.getLsbD 3) (c.f.e.aux &&& 7#8).toNat l (loWord (c.b l)).toNat with
    | some k => if hasLane c.act k then c.a k else if c.f.e.aux.getLsbD 4 then 0 else c.a l
    | none => if c.f.e.aux.getLsbD 4 then 0 else c.a l)) ∧
  (∀ e : Ext, Writes (.matchAny e) (Form.ofExt 0x1C e) (plainly fun c l => (maskOf fun k => hasLane c.act k && decide (c.a k = c.a l)).setWidth 64)) ∧
  (∀ e : Ext, Writes (.matchAll e) (Form.ofExt 0x1D e) (plainly fun c _ =>
    if (lanesOf c.act).all fun l => decide (c.a l = c.a (lowest c.act)) then c.act.setWidth 64 else 0))

/-- (R86, R391, R392): REDS combines the active lanes, SCAN those up to its own, in the tree of R86; on integers, where the order does not
matter, the tree gives the sum of the lanes present, modulo 2^32.
Completes: reds, scan. -/
def Obligations.ReductionResults : Prop :=
  ((∀ e : Ext, Writes (.reds e) (Form.ofExt 0x1E e) (fun c _ => treeCombine (redsOp c.f.e.mod.toNat c.f.e.ty c.rm) (fun k => place c.f.e.ty (c.a k)) (c.act))) ∧
   (∀ e : Ext, Writes (.scan e) (Form.ofExt 0x1F e) (fun c l => treeCombine (redsOp c.f.e.mod.toNat c.f.e.ty c.rm) (fun k => place c.f.e.ty (c.a k)) (c.act &&& maskOf fun k => decide (k ≤ l))))) ∧
  (∀ (m : Mask) (x : Nat → Word), m ≠ 0 →
     loWord (treeCombine (redsOp 0 .n32 .rn) (fun k => (x k).setWidth 64) m).1 = (lanesOf m).foldl (fun a l => a + x l) 0)

/-! ## Floating point -/

/-- (R70, R71, R342, R348): the binary float operations and FFMA, lane by lane under the rounding mode of the instruction; the flags of all active lanes join %fpmode.
Completes: fadd, faddExt, fsub, fsubExt, fmul, fmulExt, ffma, fdiv, fdivExt, fmin, fminExt, fmax, fmaxExt. -/
def Obligations.FloatResults : Prop :=
  BothForms .fadd .faddExt 0x40 (fun c l => floatOut (Machine.fadd (fmtOf c.f.e.ty) c.rm (c.fl (c.a l)) (c.fl (c.b l)))) ∧
  BothForms .fsub .fsubExt 0x41 (fun c l => floatOut (Machine.fsub (fmtOf c.f.e.ty) c.rm (c.fl (c.a l)) (c.fl (c.b l)))) ∧
  BothForms .fmul .fmulExt 0x42 (fun c l => floatOut (Machine.fmul (fmtOf c.f.e.ty) c.rm (c.fl (c.a l)) (c.fl (c.b l)))) ∧
  BothForms .fdiv .fdivExt 0x44 (fun c l => floatOut (Machine.fdiv (fmtOf c.f.e.ty) c.rm (c.fl (c.a l)) (c.fl (c.b l)))) ∧
  BothForms .fmin .fminExt 0x4C (fun c l => floatOut (fminmax (fmtOf c.f.e.ty) false (c.fl (c.a l)) (c.fl (c.b l)))) ∧
  BothForms .fmax .fmaxExt 0x4D (fun c l => floatOut (fminmax (fmtOf c.f.e.ty) true (c.fl (c.a l)) (c.fl (c.b l)))) ∧
  (∀ e : Ext, Writes (.ffma e) (Form.ofExt 0x43 e) (fun c l => floatOut (Machine.ffma (fmtOf c.f.e.ty) c.rm (c.fl (c.a l)) (c.fl (c.b l)) (c.fl (c.cc l)))))

/-- (R71, R340, R343, R344, R347, R349, R350): the float functions, sign operations, comparison, classification, rounding, scaling and FDOT2.
Completes: fsqrt, fsqrtExt, frcp, frcpExt, frsq, frsqExt, fexp2, fexp2Ext, flog2, flog2Ext, fsin, fsinExt, fcos, fcosExt,
fset, fclass, fabs, fabsExt, fneg, fnegExt, frnd, fscale, fdot2.
Choices of the model: log entries 12, 88. -/
def Obligations.FloatFunctionResults : Prop :=
  BothUnary .fsqrt .fsqrtExt 0x45 (fun c l => floatOut (ffun (fmtOf c.f.e.ty) c.rm .sqrt (c.fl (c.a l)))) ∧
  BothUnary .frcp .frcpExt 0x46 (fun c l => floatOut (ffun (fmtOf c.f.e.ty) c.rm .rcp (c.fl (c.a l)))) ∧
  BothUnary .frsq .frsqExt 0x47 (fun c l => floatOut (ffun (fmtOf c.f.e.ty) c.rm .rsq (c.fl (c.a l)))) ∧
  BothUnary .fexp2 .fexp2Ext 0x48 (fun c l => floatOut (ffun (fmtOf c.f.e.ty) c.rm .exp2 (c.fl (c.a l)))) ∧
  BothUnary .flog2 .flog2Ext 0x49 (fun c l => floatOut (ffun (fmtOf c.f.e.ty) c.rm .log2 (c.fl (c.a l)))) ∧
  BothUnary .fsin .fsinExt 0x4A (fun c l => floatOut (ffun (fmtOf c.f.e.ty) c.rm .sin (c.fl (c.a l)))) ∧
  BothUnary .fcos .fcosExt 0x4B (fun c l => floatOut (ffun (fmtOf c.f.e.ty) c.rm .cos (c.fl (c.a l)))) ∧
  BothUnary .fabs .fabsExt 0x50 (plainly fun c l => BitVec.ofNat 64 (fsignOp (fmtOf c.f.e.ty) false (c.fl (c.a l)))) ∧
  BothUnary .fneg .fnegExt 0x51 (plainly fun c l => BitVec.ofNat 64 (fsignOp (fmtOf c.f.e.ty) true (c.fl (c.a l)))) ∧
  (∀ e : Ext, Writes (.fset e) (Form.ofExt 0x4E e) (fun c l =>
    let r := Machine.fset (fmtOf c.f.e.ty) c.f.e.rnd.toNat (c.fl (c.a l)) (c.fl (c.b l)); (truth r.1, r.2))) ∧
  (∀ e : Ext, Writes (.fclass e) (Form.ofExt 0x4F e) (plainly fun c l => BitVec.ofNat 64 (2 ^ fclassBit (fmtOf c.f.e.ty) (c.fl (c.a l)) &&& (loWord (c.b l)).toNat))) ∧
  (∀ e : Ext, Writes (.frnd e) (Form.ofExt 0x52 e) (fun c l => floatOut (Machine.frnd (fmtOf c.f.e.ty) c.rm (c.fl (c.a l))))) ∧
  (∀ e : Ext, Writes (.fscale e) (Form.ofExt 0x53 e) (fun c l => floatOut (Machine.fscale (fmtOf c.f.e.ty) c.rm (c.fl (c.a l)) (loWord (c.b l)).toInt))) ∧
  (∀ e : Ext, Writes (.fdot2 e) (Form.ofExt 0x54 e) (fun c l => floatOut (Machine.fdot2 (fmtOf c.f.e.ty) c.rm (loWord (c.a l)).toNat (loWord (c.b l)).toNat (loWord (c.cc l)).toNat)))

/-- (R87, R335, R336, R345, R346): FCVT and CVT convert from the type of MOD under the rounding mode, saturating where AUX8[0] says so.
Completes: fcvt, cvt. -/
def Obligations.ConversionResults : Prop :=
  (∀ e : Ext, Writes (.fcvt e) (Form.ofExt 0x55 e) (fun c l => convert c.f.e.ty (Ty.ofCode c.f.e.mod.toNat) c.rm (c.f.e.aux.getLsbD 0) (c.a l).toNat)) ∧
  (∀ e : Ext, Writes (.cvt e) (Form.ofExt 0x56 e) (fun c l => convert c.f.e.ty (Ty.ofCode c.f.e.mod.toNat) c.rm (c.f.e.aux.getLsbD 0) (c.a l).toNat))

/-! ## Packed forms and indexed registers -/

/-- (R109, R362, R395): each element is computed alone from its elements: integers wrapped or clamped to the element type, shifts counting by
the element of B, floats rounded each.
Completes: iaddX2, isubX2, imulX2, imadX2, iminX2, imaxX2, iabsX2, inegX2, shlX2, shrX2, sarX2, iaddX4, isubX4, iminX4,
imaxX4, iabsX4, faddX2, fsubX2, fmulX2, ffmaX2, fminX2, fmaxX2, fabsX2, fnegX2, frndX2. -/
def Obligations.PackedResults : Prop :=
  ((∀ e : Ext, Writes (.iaddX2 e) (Form.ofExt 0xD0 e) (fun c l =>
     let x (y : DWord) (k : Nat) : Int := intVal c.f.e.ty (element c.f.e.ty.width k y)
     packed c.f.e.ty.width 2 fun k => ((intResult c.f.e.ty c.sat (x (c.a l) k + x (c.b l) k)).toNat, 0))) ∧
   (∀ e : Ext, Writes (.isubX2 e) (Form.ofExt 0xD1 e) (fun c l =>
     let x (y : DWord) (k : Nat) : Int := intVal c.f.e.ty (element c.f.e.ty.width k y)
     packed c.f.e.ty.width 2 fun k => ((intResult c.f.e.ty c.sat (x (c.a l) k - x (c.b l) k)).toNat, 0))) ∧
   (∀ e : Ext, Writes (.imulX2 e) (Form.ofExt 0xD2 e) (fun c l =>
     let x (y : DWord) (k : Nat) : Int := intVal c.f.e.ty (element c.f.e.ty.width k y)
     packed c.f.e.ty.width 2 fun k => ((intResult c.f.e.ty c.sat (x (c.a l) k * x (c.b l) k)).toNat, 0))) ∧
   (∀ e : Ext, Writes (.imadX2 e) (Form.ofExt 0xD3 e) (fun c l =>
     let x (y : DWord) (k : Nat) : Int := intVal c.f.e.ty (element c.f.e.ty.width k y)
     packed c.f.e.ty.width 2 fun k => ((intResult c.f.e.ty c.sat (x (c.a l) k * x (c.b l) k + x (c.cc l) k)).toNat, 0))) ∧
   (∀ e : Ext, Writes (.iminX2 e) (Form.ofExt 0xD4 e) (fun c l =>
     let x (y : DWord) (k : Nat) : Int := intVal c.f.e.ty (element c.f.e.ty.width k y)
     packed c.f.e.ty.width 2 fun k => ((intResult c.f.e.ty c.sat (min (x (c.a l) k) (x (c.b l) k))).toNat, 0))) ∧
   (∀ e : Ext, Writes (.imaxX2 e) (Form.ofExt 0xD5 e) (fun c l =>
     let x (y : DWord) (k : Nat) : Int := intVal c.f.e.ty (element c.f.e.ty.width k y)
     packed c.f.e.ty.width 2 fun k => ((intResult c.f.e.ty c.sat (max (x (c.a l) k) (x (c.b l) k))).toNat, 0))) ∧
   (∀ e : Ext, Writes (.iabsX2 e) (Form.ofExt 0xD6 e) (fun c l =>
     let x (y : DWord) (k : Nat) : Int := intVal c.f.e.ty (element c.f.e.ty.width k y)
     packed c.f.e.ty.width 2 fun k => ((intResult c.f.e.ty c.sat (((x (c.a l) k).natAbs : Int))).toNat, 0))) ∧
   (∀ e : Ext, Writes (.inegX2 e) (Form.ofExt 0xD7 e) (fun c l =>
     let x (y : DWord) (k : Nat) : Int := intVal c.f.e.ty (element c.f.e.ty.width k y)
     packed c.f.e.ty.width 2 fun k => ((intResult c.f.e.ty c.sat (-(x (c.a l) k))).toNat, 0))) ∧
   (∀ e : Ext, Writes (.iaddX4 e) (Form.ofExt 0xDB e) (fun c l =>
     let x (y : DWord) (k : Nat) : Int := intVal c.f.e.ty (element c.f.e.ty.width k y)
     packed c.f.e.ty.width 4 fun k => ((intResult c.f.e.ty c.sat (x (c.a l) k + x (c.b l) k)).toNat, 0))) ∧
   (∀ e : Ext, Writes (.isubX4 e) (Form.ofExt 0xDC e) (fun c l =>
     let x (y : DWord) (k : Nat) : Int := intVal c.f.e.ty (element c.f.e.ty.width k y)
     packed c.f.e.ty.width 4 fun k => ((intResult c.f.e.ty c.sat (x (c.a l) k - x (c.b l) k)).toNat, 0))) ∧
   (∀ e : Ext, Writes (.iminX4 e) (Form.ofExt 0xDD e) (fun c l =>
     let x (y : DWord) (k : Nat) : Int := intVal c.f.e.ty (element c.f.e.ty.width k y)
     packed c.f.e.ty.width 4 fun k => ((intResult c.f.e.ty c.sat (min (x (c.a l) k) (x (c.b l) k))).toNat, 0))) ∧
   (∀ e : Ext, Writes (.imaxX4 e) (Form.ofExt 0xDE e) (fun c l =>
     let x (y : DWord) (k : Nat) : Int := intVal c.f.e.ty (element c.f.e.ty.width k y)
     packed c.f.e.ty.width 4 fun k => ((intResult c.f.e.ty c.sat (max (x (c.a l) k) (x (c.b l) k))).toNat, 0))) ∧
   (∀ e : Ext, Writes (.iabsX4 e) (Form.ofExt 0xDF e) (fun c l =>
     let x (y : DWord) (k : Nat) : Int := intVal c.f.e.ty (element c.f.e.ty.width k y)
     packed c.f.e.ty.width 4 fun k => ((intResult c.f.e.ty c.sat (((x (c.a l) k).natAbs : Int))).toNat, 0)))) ∧
  ((∀ e : Ext, Writes (.shlX2 e) (Form.ofExt 0xD8 e) (fun c l => packed 16 2 fun k =>
     (BitOp.apply .shl 16 (element 16 k (c.a l)) (element 16 k (c.b l)), 0))) ∧
   (∀ e : Ext, Writes (.shrX2 e) (Form.ofExt 0xD9 e) (fun c l => packed 16 2 fun k =>
     (BitOp.apply .shr 16 (element 16 k (c.a l)) (element 16 k (c.b l)), 0))) ∧
   (∀ e : Ext, Writes (.sarX2 e) (Form.ofExt 0xDA e) (fun c l => packed 16 2 fun k =>
     (BitOp.apply .sar 16 (element 16 k (c.a l)) (element 16 k (c.b l)), 0))) ∧
   (∀ e : Ext, Writes (.faddX2 e) (Form.ofExt 0xE0 e) (fun c l => packed 16 2 fun k =>
     Machine.fadd (fmtOf c.f.e.ty) c.rm (element 16 k (c.a l)) (element 16 k (c.b l)))) ∧
   (∀ e : Ext, Writes (.fsubX2 e) (Form.ofExt 0xE1 e) (fun c l => packed 16 2 fun k =>
     Machine.fsub (fmtOf c.f.e.ty) c.rm (element 16 k (c.a l)) (element 16 k (c.b l)))) ∧
   (∀ e : Ext, Writes (.fmulX2 e) (Form.ofExt 0xE2 e) (fun c l => packed 16 2 fun k =>
     Machine.fmul (fmtOf c.f.e.ty) c.rm (element 16 k (c.a l)) (element 16 k (c.b l)))) ∧
   (∀ e : Ext, Writes (.ffmaX2 e) (Form.ofExt 0xE3 e) (fun c l => packed 16 2 fun k =>
     Machine.ffma (fmtOf c.f.e.ty) c.rm (element 16 k (c.a l)) (element 16 k (c.b l)) (element 16 k (c.cc l)))) ∧
   (∀ e : Ext, Writes (.fminX2 e) (Form.ofExt 0xE4 e) (fun c l => packed 16 2 fun k =>
     fminmax (fmtOf c.f.e.ty) false (element 16 k (c.a l)) (element 16 k (c.b l)))) ∧
   (∀ e : Ext, Writes (.fmaxX2 e) (Form.ofExt 0xE5 e) (fun c l => packed 16 2 fun k =>
     fminmax (fmtOf c.f.e.ty) true (element 16 k (c.a l)) (element 16 k (c.b l)))) ∧
   (∀ e : Ext, Writes (.fabsX2 e) (Form.ofExt 0xE6 e) (fun c l => packed 16 2 fun k =>
     (fsignOp (fmtOf c.f.e.ty) false (element 16 k (c.a l)), 0))) ∧
   (∀ e : Ext, Writes (.fnegX2 e) (Form.ofExt 0xE7 e) (fun c l => packed 16 2 fun k =>
     (fsignOp (fmtOf c.f.e.ty) true (element 16 k (c.a l)), 0))) ∧
   (∀ e : Ext, Writes (.frndX2 e) (Form.ofExt 0xE8 e) (fun c l => packed 16 2 fun k =>
     Machine.frnd (fmtOf c.f.e.ty) c.rm (element 16 k (c.a l)))))

/-- (R62): VXR reads, and VXW writes, in each active lane the v register that the lane's index names; where an index is no
register of the kernel, REG_RANGE is taken at the lowest such lane.
Completes: vxr, vxw.
Choices of the model: log entry 65. -/
def Obligations.IndexedRegisters : Prop :=
  (∀ (e : Ext) (s : State) (c : Ctx), Runs s (Form.ofExt 0xE9 e) c → c.badIndex = none →
    ∃ (t : State) (u : Strand), exec (.vxr e) s = .next t ∧ t.strand? c.r = some u ∧
      Wrote e.d e.ty.is64 c.act (fun l => (c.t.vAt (loWord (c.a l)).toNat l).setWidth 64) u.final ∧
      OnlyWrote e.d e.ty.is64 c.act c.t.final u.final) ∧
  (∀ (e : Ext) (s : State) (c : Ctx), Runs s (Form.ofExt 0xEA e) c → c.badIndex = none → c.g.header.vregs ≤ 256 →
    ∃ (t : State) (u : Strand), exec (.vxw e) s = .next t ∧ t.strand? c.r = some u ∧
      (∀ n l, l < 32 → u.final.vAt n l =
        if hasLane c.act l = true ∧ (loWord (c.a l)).toNat = n then loWord (c.b l) else c.t.final.vAt n l) ∧
      (∀ n, u.final.sAt n = c.t.final.sAt n) ∧ ∀ n l, u.final.pAt n l = c.t.final.pAt n l) ∧
  ∀ (i : Instr) (e : Ext) (s : State) (c : Ctx) (l : Nat), (i = .vxr e ∧ Runs s (Form.ofExt 0xE9 e) c ∨ i = .vxw e ∧ Runs s (Form.ofExt 0xEA e) c) →
    c.badIndex = some l → exec i s = .next (c.trap .regRange 0 l c.s)

/-! ## Reading the machine -/

/-- (R14, R15, R17, R19, R33, R54, R55): every special register that CSRR reads, each under its index; a reserved index traps.
Completes: csrr.
Choices of the model: log entries 7, 70. -/
def Obligations.SpecialRegisters : Prop :=
  let reads (idx : BitVec 16) (ok : Ctx → Prop) (x : Ctx → Nat → Nat) : Prop :=
    ∀ e : Ext, e.imm = idx → WritesIf (.csrr e) (Form.ofExt 0xC0 e) ok (plainly fun c l => BitVec.ofNat 64 (x c l))
  let always : Ctx → Prop := fun _ => True
  let frame (x : Frame → Nat) (c : Ctx) : Nat := match c.t.handler with | some fr => x fr | none => 0
  let tags (first : Nat) (c : Ctx) : Nat :=
    (List.range 32).foldl (fun w n => w + if (c.c.tag (first + n)).state = .done then 2 ^ n else 0) 0
  reads 0x00 always (fun c l => ((c.c.idx * c.g.record.nstrand + c.t.idx) * 32 + l) % 2 ^ 32) ∧
  reads 0x01 always (fun c l => ((c.c.idx * c.g.record.nstrand + c.t.idx) * 32 + l) / 2 ^ 32) ∧
  reads 0x02 always (fun _ l => l) ∧ reads 0x03 always (fun c _ => c.t.idx) ∧
  reads 0x04 always (fun c _ => c.g.record.nstrand) ∧ reads 0x05 always (fun c _ => c.c.idx) ∧
  reads 0x06 always (fun c _ => c.g.ncrew % 2 ^ 32) ∧
  reads 0x07 always (fun c _ => (List.range 4).foldl
    (fun w m => w + (match (c.g.memberships c.c.idx)[m]? with | some k => k % 256 | none => 255) * 2 ^ (8 * m)) 0) ∧
  reads 0x08 always (fun c _ => c.c.vdie) ∧ reads 0x09 always (fun c _ => c.core % 36) ∧
  reads 0x0A always (fun c _ => ((List.range 34).filter fun b => (c.s.clusterOf c.c c.t).live.getLsbD b).length) ∧
  reads 0x0B (fun c => 8 ≤ (c.s.clusterOf c.c c.t).width) (fun c _ =>
    let w := min (c.s.clusterOf c.c c.t).width 32; (32 + w - 1) / w) ∧
  reads 0x0C always (fun c _ => tags 0 c) ∧ reads 0x0D always (fun c _ => tags 32 c) ∧
  reads 0x0E always (fun c _ => (loWord c.s.cycle).toNat) ∧
  reads 0x0F (fun c => c.clockComing = false) (fun c _ => (hiWord (c.t.clock.getD c.s.cycle)).toNat) ∧
  reads 0x10 always (fun c _ => match c.s.core? c.core with | some k => (if k.capDie then 12582912 else 6291456) | none => 0) ∧
  reads 0x11 (fun c => c.flagsComing = false) (fun c _ => c.t.fp.toNat) ∧
  reads 0x12 always (fun c _ => c.c.prio.toNat) ∧ reads 0x13 always (fun c _ => c.c.handler.toNat) ∧
  reads 0x14 always (fun c _ => frame (fun fr => fr.cause.toNat) c) ∧
  reads 0x15 always (fun c _ => frame (fun fr => (loWord fr.addr).toNat) c) ∧
  reads 0x16 always (fun c _ => frame (fun fr => (hiWord fr.addr).toNat) c) ∧
  reads 0x17 always (fun c _ => frame (fun fr => fr.queue.length) c) ∧
  reads 0x18 always (fun c _ => frame (fun fr => fr.pc.toNat) c) ∧
  reads 0x19 always (fun c _ => c.g.queue % 2 ^ 16 + match c.g.origin with | .device _ => 2 ^ 16 | _ => 0) ∧
  reads 0x1A always (fun c _ => c.g.ctx) ∧ reads 0x1B always (fun c _ => c.g.part) ∧
  ∀ (e : Ext) (s : State) (c : Ctx), Runs s (Form.ofExt 0xC0 e) c → 0x1C ≤ e.imm.toNat →
    exec (.csrr e) s = .next (c.trap .illegalOperand 0 c.low c.s)

/-- (R144, R208, R249, R268, R279, R370): the instructions that read state into a register: LEA, HOPS, LSTAT, HGEN, HSTAT, VMEET, VQRY,
VADDR, RPLQ.
Completes: hgen, hstat, lea, vmeet, vqry, vaddr, lstat, hops, rplq.
Choices of the model: log entries 7, 41, 85. -/
def Obligations.StateReads : Prop :=
  (∀ e : Ext, Writes (.lea e) (Form.ofExt 0x7E e) (plainly fun c l =>
    BitVec.ofInt 64 ((c.a l).toNat + intVal e.ty (c.b l).toNat * ((2 ^ e.mod.toNat : Nat) : Int) + e.imm.toInt))) ∧
  (∀ e : Ext, WritesIf (.hops e) (Form.ofExt 0xBB e)
    (fun c => ∀ l, hasLane c.act l = true → (loWord (c.a l)).toNat < c.g.dieRec.vphys.length ∧ (loWord (c.b l)).toNat < c.g.dieRec.vphys.length)
    (plainly fun c l =>
      let p := c.g.dieRec.vphys.getD (loWord (c.a l)).toNat 0
      let q := c.g.dieRec.vphys.getD (loWord (c.b l)).toNat 0
      BitVec.ofNat 64 (((p / 3 : Nat) - (q / 3 : Nat) : Int).natAbs + ((p % 3 : Nat) - (q % 3 : Nat) : Int).natAbs))) ∧
  (∀ e : Ext, Writes (.lstat e) (Form.ofExt 0xB7 e) (plainly fun c _ =>
    BitVec.ofNat 64 (c.c.pending.length + ((c.s.die? (dieOf c.core)).elim 0 fun d => d.queue.length) * 2 ^ 16))) ∧
  (∀ e : Ext, WritesIf (.hgen e) (Form.ofExt 0x62 e) (fun c => c.g.record.chained = true ∧ c.g.mode c.slot ≠ 0)
    (plainly fun c l => (SMap.look 0 c.t.gen (32 * c.slot + l)).setWidth 64)) ∧
  (∀ e : Ext, WritesIf (.hstat e) (Form.ofExt 0x63 e)
    (fun c => c.g.record.chained = true ∧ c.g.mode c.slot ≠ 0 ∧ c.g.dist c.slot ((e.aux >>> 3).toNat + 1) = true)
    (plainly fun c l => BitVec.ofNat 64 (c.slotState ((e.aux >>> 3).toNat + 1) l))) ∧
  (∀ (e : Ext) (y : BitVec 3), e.a = .w y → WritesIf (.vmeet e) (Form.ofExt 0x85 e)
    (fun c => c.view?.isSome = true ∧ (c.c.view? y.toNat).isSome = true)
    (plainly fun c _ => match c.view?, c.c.view? y.toNat with
      | some v, some w => truth (decide (y.toNat = c.viewReg) || mayMeet v.foot w.foot)
      | _, _ => 0)) ∧
  (∀ e : Ext, WritesIf (.vqry e) (Form.ofExt 0x86 e)
    (fun c => ∃ v, c.view? = some v ∧ (v.field (c.s.locksOf c.c) c.viewReg (e.aux &&& 0x3F#8).toNat).isSome = true)
    (plainly fun c _ => match c.view? with
      | some v => ((v.field (c.s.locksOf c.c) c.viewReg (e.aux &&& 0x3F#8).toNat).getD 0).setWidth 64
      | none => 0)) ∧
  (∀ e : Ext, WritesIf (.vaddr e) (Form.ofExt 0x87 e)
    (fun c => ∃ v, c.view? = some v ∧ ∀ l, hasLane c.act l = true → v.inBounds (c.viewIndex l) = true)
    (plainly fun c l => match c.view? with | some v => BitVec.ofInt 64 (v.addr (c.viewIndex l)) | none => 0)) ∧
  ∀ e : Ext, WritesIf (.rplq e) (Form.ofExt 0xC5 e)
    (fun c => ∃ x, c.replayEntry = some x ∧
      (c.replaySel < 8 ∨ (c.replaySel < 16 ∧ isS e.d = false ∧ (x.2.lane c.replaySel 0).isSome = true)))
    (plainly fun c l => match c.replayEntry with
      | some x => if c.replaySel < 8 then BitVec.ofNat 64 (x.2.uniform c.replaySel) else ((x.2.lane c.replaySel l).getD 0).setWidth 64
      | none => 0)

/-! ## Loads and stores -/

/-- (R4, R159, R166, R173, R209, R365, R366, R369): a plain load whose lines are at hand, or that reads the local store, completes with
its bytes; registers beside its destination, memory, the local store, tiles, views, tags, tables and every other strand stand (an
L1 line may forget the virtual line under which it is remembered). One through a universal view is ordered after every store of its core.
Completes: ldG, ldGExt, ldL, ldLExt, ldP, ldPExt, ldK, ldKExt, ldv.
Choices of the model: log entries 11, 43. -/
def Obligations.PlainLoads : Prop :=
  let hit (c : Ctx) : Prop := c.accessTrap false = none ∧ c.linesAtHand
  let near (c : Ctx) : Prop := c.accessTrap false = none ∧ c.overlaps = false
  (∀ b : Base, Loads (.ldG b) (Form.ofBase 0x70 b) hit Ctx.loaded) ∧ (∀ f : Long, Loads (.ldGExt f) (Form.ofLong 0x70 f) hit Ctx.loaded) ∧
  (∀ b : Base, Loads (.ldP b) (Form.ofBase 0x72 b) hit Ctx.loaded) ∧ (∀ f : Long, Loads (.ldPExt f) (Form.ofLong 0x72 f) hit Ctx.loaded) ∧
  (∀ b : Base, Loads (.ldK b) (Form.ofBase 0x73 b) hit Ctx.loaded) ∧ (∀ f : Long, Loads (.ldKExt f) (Form.ofLong 0x73 f) hit Ctx.loaded) ∧
  (∀ b : Base, Loads (.ldL b) (Form.ofBase 0x71 b) near Ctx.loadedLocal) ∧
  (∀ f : Long, Loads (.ldLExt f) (Form.ofLong 0x71 f) near Ctx.loadedLocal) ∧
  (∀ e : Ext, Loads (.ldv e) (Form.ofExt 0x88 e)
    (fun c => c.throughUniversal = false ∧ ∃ v, c.view? = some v ∧ c.viewAccessTrap v false = none ∧ v.isLocal = false ∧ c.linesAtHand)
    Ctx.loaded) ∧
  (∀ e : Ext, Loads (.ldv e) (Form.ofExt 0x88 e)
    (fun c => ∃ v, c.view? = some v ∧ c.viewAccessTrap v false = none ∧ v.isLocal = true ∧ c.overlaps = false) Ctx.loadedLocal) ∧
  -- through a universal view: what the core had dirty is in memory before it, and what it reads is what memory then holds
  ∀ (e : Ext) (s : State) (c : Ctx) (v : View), Runs s (Form.ofExt 0x88 e) c → c.view? = some v → c.viewAccessTrap v false = none →
    c.throughUniversal = true → v.isLocal = false → c.linesAtHand →
    let seen := c.s.flushCore c.core
    (∀ l, hasLane c.act l = true → ∀ ks, c.keys? c.s .read l = some ks → ∀ k ∈ ks, seen.poisoned (k.1 / 128) = false) →
    ∃ (t : State) (u : Strand), exec (.ldv e) s = .next t ∧ t.strand? c.r = some u ∧
      Wrote e.d (Form.ofExt 0x88 e).dstWide c.act
        (fun l => loadPlace e.ty (fromBytes (((c.keys? c.s .read l).getD []).map fun k => seen.memByte k.1))) u ∧
      OnlyWrote e.d (Form.ofExt 0x88 e).dstWide c.act c.t u ∧ u.fp = c.t.fp ∧ u.inflight = c.t.inflight ∧
      (∀ key, t.memByte key = seen.memByte key) ∧ (∀ n, n ≠ c.core → t.core? n = c.s.core? n) ∧
      ∀ k, t.core? c.core = some k → k.outbox = [] ∧ ∀ l ∈ k.l1, l.dirty = 0

/-- (R130, R159, R161, R166, R283, R403, R405): a plain store that finds its lines, or writes the local store, completes: the bytes of its
lanes are what the core sees from then on, the highest lane's where lanes meet, and nothing else changes. Lanes whose pages are not
translated are in flight, the others being performed.
Completes: stG, stGExt, stL, stLExt, stP, stPExt, stv.
Choices of the model: log entries 11, 43, 77. -/
def Obligations.PlainStores : Prop :=
  let ready (c : Ctx) : Prop := c.accessTrap true = none
  (∀ b : Base, Stores (.stG b) (Form.ofBase 0x75 b) ready) ∧ (∀ f : Long, Stores (.stGExt f) (Form.ofLong 0x75 f) ready) ∧
  (∀ b : Base, Stores (.stL b) (Form.ofBase 0x76 b) ready) ∧ (∀ f : Long, Stores (.stLExt f) (Form.ofLong 0x76 f) ready) ∧
  (∀ b : Base, Stores (.stP b) (Form.ofBase 0x77 b) ready) ∧ (∀ f : Long, Stores (.stPExt f) (Form.ofLong 0x77 f) ready) ∧
  (∀ e : Ext, Stores (.stv e) (Form.ofExt 0x89 e)
    (fun c => c.throughUniversal = false ∧ ∃ v, c.view? = some v ∧ c.viewAccessTrap v true = none)) ∧
  -- through a universal view: what the core had dirty is in memory before it, and its own bytes are there after it
  ∀ (e : Ext) (s : State) (c : Ctx) (v : View), Runs s (Form.ofExt 0x89 e) c → c.view? = some v → c.viewAccessTrap v true = none →
    c.throughUniversal = true → c.space ≠ .localStore → c.storesAtHand → c.storeReady = c.act →
    ∃ (t : State) (u : Strand), exec (.stv e) s = .next t ∧ t.strand? c.r = some u ∧ SameRegs u c.t ∧ u.inflight = c.t.inflight ∧
      (∀ key, t.memByte key = (lastByte (c.storesOf c.act) key).getD ((c.s.flushCore c.core).memByte key)) ∧
      (∀ n, n ≠ c.core → t.core? n = c.s.core? n) ∧ ∀ k, t.core? c.core = some k → k.outbox = [] ∧ ∀ l ∈ k.l1, l.dirty = 0

/-- (R168, R283): a load that does not find every line flies with all its active lanes, nothing having changed: outstanding, or rejected
where the miss-status entries are taken. Of a global or private store of two lanes, the one translated with its line at hand, that lane
is performed and the other flies; any number of lanes is `PlainStores`.
Completes: ldG, ldGExt, ldP, ldPExt, ldK, ldKExt, ldv.
Choices of the model: log entries 43, 45, 79. -/
def Obligations.AccessesFly : Prop :=
  let ready (c : Ctx) : Prop := c.accessTrap false = none
  (∀ b : Base, LoadFlies (.ldG b) (Form.ofBase 0x70 b) ready) ∧ (∀ f : Long, LoadFlies (.ldGExt f) (Form.ofLong 0x70 f) ready) ∧
  (∀ b : Base, LoadFlies (.ldP b) (Form.ofBase 0x72 b) ready) ∧ (∀ f : Long, LoadFlies (.ldPExt f) (Form.ofLong 0x72 f) ready) ∧
  (∀ b : Base, LoadFlies (.ldK b) (Form.ofBase 0x73 b) ready) ∧ (∀ f : Long, LoadFlies (.ldKExt f) (Form.ofLong 0x73 f) ready) ∧
  (∀ e : Ext, LoadFlies (.ldv e) (Form.ofExt 0x88 e) (fun c => ∃ v, c.view? = some v ∧ c.viewAccessTrap v false = none)) ∧
  -- a store of two lanes, the one translated with its line in L1, the other not
  ∀ (i : Instr) (f : Form) (s : State) (c : Ctx) (l m : Nat) (ks : List (Nat × Xlate)),
    ((∃ b, i = .stG b ∧ f = Form.ofBase 0x75 b) ∨ (∃ x, i = .stGExt x ∧ f = Form.ofLong 0x75 x) ∨
      (∃ b, i = .stP b ∧ f = Form.ofBase 0x77 b) ∨ ∃ x, i = .stPExt x ∧ f = Form.ofLong 0x77 x) →
    Runs s f c → c.accessTrap true = none → c.overlaps = false → l < 32 → m < 32 → l ≠ m → c.act = 1#32 <<< l ||| 1#32 <<< m →
    c.keys? c.s .write l = some ks → c.keys? c.s .write m = none →
    (∀ k ∈ ks, ((c.s.core? c.core).bind fun d => d.l1? (k.1 / 128)).isSome = true) → (ks.map (·.1)).Nodup →
    ∃ (t : State) (u : Strand) (x : InFlight), exec i s = .next t ∧ t.strand? c.r = some u ∧ SameRegs u c.t ∧
      (ks.map fun k => (t.l1Byte c.core k.1).1) = toBytes c.size (c.stored l).toNat ∧
      (∀ key, key ∉ ks.map (·.1) → (t.l1Byte c.core key).1 = (c.s.l1Byte c.core key).1) ∧
      u.inflight = c.t.inflight ++ [x] ∧ x.state = .outstanding ∧ x.entry.mask = 1#32 <<< m

/-- (R206, R283, R366, R367, R369, R403, R405): where the checks of a plain access, of LD.acq or of ST.rel fail, the trap is taken, for
every form; what the checks are: out of its space, not a multiple of its size, under a lock of a view; for LDV and STV outside the
view, or under a lock. %trapaddr names the lowest lane that fails; of private accesses the lowest offset that lies outside.
Choices of the model: log entries 48, 68. -/
def Obligations.AccessTraps : Prop :=
  let traps (i : Instr) (f : Form) (w : Bool) : Prop :=
    ∀ (s : State) (c : Ctx) (t : Trap) (a : DWord) (l : Nat), Runs s f c → c.accessTrap w = some (t, a, l) →
      exec i s = .next (c.trap t a l c.s)
  let viewTraps (i : Instr) (f : Form) (w : Bool) : Prop :=
    ∀ (s : State) (c : Ctx) (v : View) (t : Trap) (a : DWord) (l : Nat), Runs s f c → c.view? = some v →
      c.viewAccessTrap v w = some (t, a, l) → exec i s = .next (c.trap t a l c.s)
  let inside (c : Ctx) : Prop := ∀ k, hasLane c.act k = true → c.outside k = false
  let aligned (c : Ctx) (k : Nat) : Prop := c.ea k % (c.size : Int) = 0
  (∀ b : Base, traps (.ldG b) (Form.ofBase 0x70 b) false) ∧ (∀ f : Long, traps (.ldGExt f) (Form.ofLong 0x70 f) false) ∧
  (∀ b : Base, traps (.ldL b) (Form.ofBase 0x71 b) false) ∧ (∀ f : Long, traps (.ldLExt f) (Form.ofLong 0x71 f) false) ∧
  (∀ b : Base, traps (.ldP b) (Form.ofBase 0x72 b) false) ∧ (∀ f : Long, traps (.ldPExt f) (Form.ofLong 0x72 f) false) ∧
  (∀ b : Base, traps (.ldK b) (Form.ofBase 0x73 b) false) ∧ (∀ f : Long, traps (.ldKExt f) (Form.ofLong 0x73 f) false) ∧
  (∀ e : Ext, traps (.ldAcq e) (Form.ofExt 0x74 e) false) ∧
  (∀ b : Base, traps (.stG b) (Form.ofBase 0x75 b) true) ∧ (∀ f : Long, traps (.stGExt f) (Form.ofLong 0x75 f) true) ∧
  (∀ b : Base, traps (.stL b) (Form.ofBase 0x76 b) true) ∧ (∀ f : Long, traps (.stLExt f) (Form.ofLong 0x76 f) true) ∧
  (∀ b : Base, traps (.stP b) (Form.ofBase 0x77 b) true) ∧ (∀ f : Long, traps (.stPExt f) (Form.ofLong 0x77 f) true) ∧
  (∀ e : Ext, traps (.stRel e) (Form.ofExt 0x78 e) true) ∧
  (∀ e : Ext, viewTraps (.ldv e) (Form.ofExt 0x88 e) false) ∧ (∀ e : Ext, viewTraps (.stv e) (Form.ofExt 0x89 e) true) ∧
  (∀ (c : Ctx) (w : Bool) (l : Nat), c.space = .global → (∀ k, hasLane c.act k = true → k < l → c.ea k + c.size ≤ 2 ^ 57) →
    hasLane c.act l = true → (2 ^ 57 : Int) < c.ea l + c.size → c.accessTrap w = some (.permission, BitVec.ofInt 64 (c.ea l), l)) ∧
  (∀ (c : Ctx) (w : Bool) (l : Nat), c.space = .localStore →
    (∀ k, hasLane c.act k = true → k < l → 0 ≤ c.ea k ∧ c.ea k + c.size ≤ c.g.header.localBytes) → hasLane c.act l = true →
    (c.ea l < 0 ∨ (c.g.header.localBytes : Int) < c.ea l + c.size) → c.accessTrap w = some (.permission, BitVec.ofInt 64 (c.ea l), l)) ∧
  (∀ (c : Ctx) (w : Bool) (l m : Nat), let out (k : Nat) : Prop := c.ea k < 0 ∨ (c.g.header.privBytes : Int) < c.ea k + c.size
    c.flying = false → c.f.op = 0x72 ∨ c.f.op = 0x77 →
    (∀ k, hasLane c.act k = true → k < l → ¬ out k) → hasLane c.act l = true → out l →
    hasLane c.act m = true → out m → (∀ k, hasLane c.act k = true → out k → c.ea m ≤ c.ea k) →
    c.accessTrap w = some (.privateLimit, BitVec.ofInt 64 (c.ea m), l)) ∧
  (∀ (c : Ctx) (w : Bool) (l : Nat), inside c → (∀ k, hasLane c.act k = true → k < l → aligned c k) → hasLane c.act l = true →
    ¬ aligned c l → c.accessTrap w = some (.misalign, BitVec.ofInt 64 (c.ea l), l)) ∧
  (∀ (c : Ctx) (w : Bool) (l : Nat), inside c → (∀ k, hasLane c.act k = true → aligned c k) →
    (∀ k, hasLane c.act k = true → k < l → c.locked w k = false) → hasLane c.act l = true → c.locked w l = true →
    c.accessTrap w = some (.viewLocked, BitVec.ofInt 64 (c.ea l), l)) ∧
  (∀ (c : Ctx) (v : View) (w : Bool) (l : Nat), (∀ k, hasLane c.act k = true → k < l → v.inBounds (c.viewIndex k) = true) →
    hasLane c.act l = true → v.inBounds (c.viewIndex l) = false → c.viewAccessTrap v w = some (.viewBounds, 0, l)) ∧
  ∀ (c : Ctx) (v : View) (w : Bool) (l : Nat), (∀ k, hasLane c.act k = true → v.inBounds (c.viewIndex k) = true) → c.f.e.ty = v.ty →
    (if w then v.canWrite else v.canRead) = true → (∀ k, hasLane c.act k = true → k < l → c.locked w k = false) →
    hasLane c.act l = true → c.locked w l = true → c.viewAccessTrap v w = some (.viewLocked, BitVec.ofInt 64 (c.ea l), l)

/-- (R161, R163, R183, R366, R368, R404): LD.acq loads in every active lane, then acquires; ST.rel releases, then stores: in L1 at .crew, at
the resolution point of a wider scope. A lane of a wide LD.acq takes what memory holds once this core's own writes have reached it,
and the acquire leaves no line of a narrower SC in L1.
Completes: ldAcq, stRel.
Choices of the model: log entries 7, 13, 45, 76, 90. -/
def Obligations.AcquireRelease : Prop :=
  (∀ (e : Ext) (s : State) (c : Ctx) (s' : State) (lk : List LaneKeys), Runs s (Form.ofExt 0x74 e) c → c.accessTrap false = none →
    c.overlaps = false → c.translated .read (lanesOf c.act) s' lk → c.entriesOf s' lk (fun _ => true) = true → beyondL1 e.scope = false →
    let fresh := s'.refresh c.core fun l => lk.any fun y => y.2.any fun k => k.1 / 128 = l.line
    exec (.ldAcq e) s = .next (c.leave ((c.performKeys fresh lk).acquire c.core .crew) 0 id none (c.beats + c.grow))) ∧
  (∀ (e : Ext) (s : State) (c : Ctx) (s' : State) (lk : List LaneKeys), Runs s (Form.ofExt 0x74 e) c →
    c.accessTrap false = none → c.overlaps = false → c.translated .read (lanesOf c.act) s' lk →
    c.entriesOf s' lk (fun _ => true) = true → beyondL1 e.scope = true → c.scopeFail s' lk = none → (∀ y ∈ lk, ∀ k ∈ y.2, s'.poisoned (k.1 / 128) = false) →
    let seen := (s'.writeBack c.core fun _ => true).drain c.core
    let keys (l : Nat) : List (Nat × Xlate) := ((lk.find? fun y => y.1 = l).map (·.2)).getD []
    ∃ (x t : State) (u : Strand), exec (.ldAcq e) s = .next t ∧
      t = c.leave (x.acquire c.core e.scope) 0 id none (c.beats + c.grow) ∧ t.strand? c.r = some u ∧
      Wrote e.d (Form.ofExt 0x74 e).dstWide c.act (fun l => loadPlace e.ty (fromBytes ((keys l).map fun k => seen.memByte k.1))) u ∧
      ∀ k, t.core? c.core = some k → ∀ l ∈ k.l1, scopeRank e.scope ≤ scopeRank l.sc) ∧
  -- without a miss-status entry for a line that it misses it is rejected, and flies
  (∀ (e : Ext) (s : State) (c : Ctx) (s' : State) (lk : List LaneKeys), Runs s (Form.ofExt 0x74 e) c → c.accessTrap false = none →
    c.overlaps = false → c.flying = false → c.translated .read (lanesOf c.act) s' lk → c.entriesOf s' lk (fun _ => true) = false →
    exec (.ldAcq e) s = .next (c.leave (c.launchFlight s' c.act (.rejected s'.cycle)) 0 id none (c.beats + c.grow))) ∧
  (∀ (e : Ext) (s : State) (c : Ctx) (s' : State) (lk : List LaneKeys), Runs s (Form.ofExt 0x78 e) c → c.accessTrap true = none →
    c.quiet = true → c.translated .write (lanesOf c.act) s' lk → c.scopeFail s' lk = none → beyondL1 e.scope = false →
    exec (.stRel e) s = .next (c.leave
      (lk.foldl (fun s y => c.storeKeys s (c.bytes y.1) y.2 (toBytes c.size (c.stored y.1).toNat)) (s'.release c.core e.scope)) 0 id none
      c.beats)) ∧
  ∀ (e : Ext) (s : State) (c : Ctx) (s' : State) (lk : List LaneKeys), Runs s (Form.ofExt 0x78 e) c → c.accessTrap true = none →
    c.quiet = true → c.translated .write (lanesOf c.act) s' lk → c.scopeFail s' lk = none → beyondL1 e.scope = true →
    let keys := lk.flatMap fun y => y.2.map (·.1)
    exec (.stRel e) s = .next (c.leave
      (((lk.foldl (fun s y => c.storeScoped s y.2 (toBytes c.size (c.stored y.1).toNat)) (s'.release c.core e.scope)).coverPoison
        keys).coverL1 c.core keys) 0 id none c.beats)

/-- (R172, R318, R319, R320, R321, R331, R390): ATOM, ATOM.ret, CAS and RED act at the bank lane by lane, ascending; with a scope between a
release and an acquire; an unscoped RED is on its way when it completes. One lane's operation: the location takes the new value
computed from what the bank held once this core's own writes of the line had reached it, the lane gets that old value, and no other
byte of memory changes by it. For 32-bit words add wraps, minimum and maximum compare as the type says, and the others act on bits.
Completes: atom, atomRet, cas, red.
Choices of the model: log entries 7, 13, 45. -/
def Obligations.BankInstructions : Prop :=
  ((∀ (e : Ext) (s : State) (c : Ctx) (s' : State) (lk : List LaneKeys), Runs s (Form.ofExt 0x79 e) c → c.bankReady true s' lk →
     exec (.atom e) s = .next (c.leave (c.fenced true s' fun s => (lk.foldl (c.bankLane c.atomNew) (s, [])).1) 0 id none c.beats)) ∧
   (∀ (e : Ext) (s : State) (c : Ctx) (s' : State) (lk : List LaneKeys), Runs s (Form.ofExt 0x7A e) c → c.bankReady true s' lk →
     exec (.atomRet e) s = .next (c.leave (c.fenced true s' fun s =>
       let x := lk.foldl (c.bankLane c.atomNew) (s, [])
       c.writeLoaded x.1 (if isS e.d then x.2.filter fun v => v.1 = c.low else x.2)) 0 id none (c.beats + c.grow))) ∧
   (∀ (e : Ext) (s : State) (c : Ctx) (s' : State) (lk : List LaneKeys), Runs s (Form.ofExt 0x7B e) c → c.bankReady false s' lk →
     exec (.cas e) s = .next (c.leave (c.fenced true s' fun s =>
       let x := lk.foldl (c.bankLane c.casNew) (s, [])
       c.writeLoaded x.1 (if isS e.d then x.2.filter fun v => v.1 = c.low else x.2)) 0 id none (c.beats + c.grow))) ∧
   (∀ (e : Ext) (s : State) (c : Ctx) (s' : State) (lk : List LaneKeys), Runs s (Form.ofExt 0x7C e) c → c.bankReady true s' lk →
     e.scope = .none → exec (.red e) s = .next (c.leave (lk.foldl c.redLane s') 0 id none c.beats)) ∧
   ∀ (e : Ext) (s : State) (c : Ctx) (s' : State) (lk : List LaneKeys), Runs s (Form.ofExt 0x7C e) c → c.bankReady true s' lk →
     e.scope ≠ .none →
     exec (.red e) s = .next (c.leave ((lk.foldl (c.bankLane c.atomNew) (s'.release c.core e.scope, [])).1) 0 id none c.beats)) ∧
  ((∀ (c : Ctx) (new : DWord → Nat → DWord) (s : State) (l key : Nat) (ks : List (Nat × Xlate)), keyHead ks = key →
     let before := (c.flush s ks).invalidate c.core fun l => l.line = key / 128
     let old : DWord := BitVec.ofNat 64 (before.readNat key c.size)
     let x := c.bankLane new (s, []) (l, ks)
     x.1.readNat key c.size = (new old l).toNat % 2 ^ (8 * c.size) ∧ x.2 = [(l, place c.f.e.ty old)] ∧
       ∀ k, k < key ∨ key + c.size ≤ k → x.1.memByte k = before.memByte k) ∧
   (∀ old b : Word,
     bankOp 0 .n32 (old.setWidth 64) (b.setWidth 64) = (old + b).setWidth 64 ∧
     bankOp 1 .n32 (old.setWidth 64) (b.setWidth 64) = (if old.toNat < b.toNat then old else b).setWidth 64 ∧
     bankOp 2 .n32 (old.setWidth 64) (b.setWidth 64) = (if old.toNat < b.toNat then b else old).setWidth 64 ∧
     bankOp 1 .s32 (old.setWidth 64) (b.setWidth 64) = (if old.toInt < b.toInt then old else b).setWidth 64 ∧
     bankOp 3 .b32 (old.setWidth 64) (b.setWidth 64) = (old &&& b).setWidth 64 ∧
     bankOp 4 .b32 (old.setWidth 64) (b.setWidth 64) = (old ||| b).setWidth 64 ∧
     bankOp 5 .b32 (old.setWidth 64) (b.setWidth 64) = (old ^^^ b).setWidth 64 ∧
     bankOp 6 .b32 (old.setWidth 64) (b.setWidth 64) = b.setWidth 64) ∧
   ∀ (c : Ctx) (old : DWord) (l : Nat), c.casNew old l = if uval c.f.e.ty old = uval c.f.e.ty (c.b l) then c.cc l else old)

/-- (R174, R186, R357, R382, R386, R406): PRF, PFENCE, TLBI and ICINV. PRF traps on a line that a lock covers. ICINV waits for the strand's earlier stores; then dirty lines that meet
its range reach memory, and every instruction cache gives up the lines of the context that meet the range, and no other.
Completes: prf, pfence, tlbi, icinv.
Choices of the model: log entries 7, 17, 48. -/
def Obligations.FencesAndInvalidation : Prop :=
  (∀ e : Ext, Does (.prf e) (Form.ofExt 0x7D e) (fun c => ∀ l, hasLane c.act l = true → lockHit (c.s.locksOf c.c) false (c.prfFoot l) = false)
    (fun c => (lanesOf c.act).foldl c.prfLane c.s) (fun _ => none) (fun _ => 0)) ∧
  (∀ (e : Ext) (s : State) (c : Ctx) (l : Nat), Runs s (Form.ofExt 0x7D e) c → hasLane c.act l = true →
    lockHit (c.s.locksOf c.c) false (c.prfFoot l) = true →
    (∀ k, hasLane c.act k = true → k < l → lockHit (c.s.locksOf c.c) false (c.prfFoot k) = false) →
    exec (.prf e) s = .next (c.trap .viewLocked (BitVec.ofInt 64 (c.ea l)) l c.s)) ∧
  (∀ e : Ext, e.scope = .none → Does (.pfence e) (Form.ofExt 0x7F e) (fun _ => True)
    (fun c => c.s.modCore c.core fun k => { k with kcache := [], opbuf := [] }) (fun _ => none) (fun _ => 0)) ∧
  (∀ e : Ext, e.scope ≠ .none → Does (.pfence e) (Form.ofExt 0x7F e) (fun c => c.quiet = true)
    (fun c =>
      let s := ((c.s.release c.core e.scope).acquire c.core e.scope).modCore c.core fun k => { k with kcache := [], opbuf := [] }
      { s with fences := s.fences + 1 }) (fun _ => none) (fun _ => 0)) ∧
  (∀ e : Ext, Does (.tlbi e) (Form.ofExt 0xC8 e) (fun _ => True)
    (fun c =>
      let n := (loWord (c.b c.low)).toNat
      let a := (c.a c.low).toNat
      let drop (l : List TlbEntry) : List TlbEntry := tlbDrop l c.ctx (decide (n = 0)) a (min (a + n) (2 ^ 57))
      (c.s.modCore c.core fun k => { k with tlb := drop k.tlb }).modDie (dieOf c.core) fun d => { d with tlb := drop d.tlb })
    (fun _ => none) (fun _ => 0)) ∧
  (∀ (e : Ext) (s : State) (c : Ctx), Runs s (Form.ofExt 0xC9 e) c → c.quiet = false → exec (.icinv e) s = .next (c.waitFor c.s .retry)) ∧
  ∀ (e : Ext) (s : State) (c : Ctx), Runs s (Form.ofExt 0xC9 e) c → c.quiet = true →
    let n := (loWord (c.b c.low)).toNat
    let lo := (c.a c.low).toNat
    let hi := min (lo + n) (2 ^ 57)
    let meets (vline : Nat) : Bool := decide (n = 0) || (decide (128 * vline < hi) && decide (lo < 128 * (vline + 1)))
    ∃ t, exec (.icinv e) s = .next t ∧ t.cores.length = c.s.cores.length ∧
      (∀ (k : Nat) (x y : Core), c.s.core? k = some x → t.core? k = some y →
        y.icache = x.icache.filter fun l => !(decide (l.ctx = c.ctx) && meets l.vline)) ∧
      (∀ y, t.core? c.core = some y → y.outbox = [] ∧
        ∀ l ∈ y.l1, l.dirty ≠ 0 → l.vline.isSome = true ∧ ∀ v, l.vline = some v → l.ctx = c.ctx → meets v = false) ∧
      ∀ (x : Core) (l : L1Line) (b : Nat), c.s.core? c.core = some x → x.l1? l.line = some l → (∀ m ∈ x.l1, m.line = l.line → m = l) →
        b < 128 → l.dirty.getLsbD b = true → (l.vline = none ∨ ∃ v, l.vline = some v ∧ l.ctx = c.ctx ∧ meets v = true) →
        t.memByte (128 * l.line + b) = (c.s.l1Byte c.core (128 * l.line + b)).1

/-! ## Control flow -/

/-- (R97, R329, R371, R378): NOP goes on; a branch sends its active lanes to its target and the others on; LOOP counts its s register down
and goes back while it is not 0.
Completes: nop, bra, braLit, brx, loop.
Choices of the model: log entry 7. -/
def Obligations.Branches : Prop :=
  (∀ g : Guard, Does (.nop g) (Form.plain 0x00 g 1) (fun _ => True) (fun c => c.s) (fun _ => none) (fun _ => 0)) ∧
  (∀ (g : Guard) (off : BitVec 18), Does (.bra g off) (Form.plain 0x01 g 1) (fun _ => True) (fun c => c.s)
    (fun c => some fun _ => c.iss.pc + BitVec.ofInt 32 (4 * off.toInt)) (fun _ => 0)) ∧
  (∀ (g : Guard) (x : DWord), Does (.braLit g x) (Form.plain 0x01 g 3) (fun _ => True) (fun c => c.s)
    (fun c => some fun _ => c.iss.pc + x.setWidth 32) (fun _ => 0)) ∧
  (∀ e : Ext, Does (.brx e) (Form.ofExt 0x02 e) (fun c => ∀ l, hasLane c.act l = true → (loWord (c.a l)).toNat % 4 = 0) (fun c => c.s)
    (fun c => some fun l => loWord (c.a l)) (fun _ => 0)) ∧
  (∀ (e : Ext) (s : State) (c : Ctx) (l : Nat), Runs s (Form.ofExt 0x02 e) c → hasLane c.act l = true → (loWord (c.a l)).toNat % 4 ≠ 0 →
    (∀ k, hasLane c.act k = true → k < l → (loWord (c.a k)).toNat % 4 = 0) →
    exec (.brx e) s = .next (c.trap .misalign ((loWord (c.a l)).setWidth 64) l c.s)) ∧
  (∀ (e : Ext) (n : BitVec 5), e.d = .s n → Does (.loop e) (Form.ofExt 0x07 e) (fun c => c.t.sAt n.toNat ≠ 1)
    (fun c => c.put c.s fun _ => (c.t.sAt n.toNat - 1).setWidth 64)
    (fun c => some fun _ => c.iss.pc + BitVec.ofInt 32 (4 * e.imm.toInt)) (fun _ => 0)) ∧
  ∀ (e : Ext) (n : BitVec 5), e.d = .s n → Does (.loop e) (Form.ofExt 0x07 e) (fun c => c.t.sAt n.toNat = 1)
    (fun c => c.put c.s fun _ => 0) (fun _ => none) (fun _ => 0)

/-- (R21, R22, R23, R124, R265): when lanes of a split leave it for their targets, each stands where it went, every other lane where it was, and
the paths still divide the lanes with at most four splits. Besides its effect an issue passes cycles, and in its own strand only
the paths and the queue of entries to re-inject change. -/
def Obligations.LanesMove : Prop :=
  (∀ (t : Strand) (p : Path) (dst : Nat → Word) (now : DWord) (rd : Path → Bool), t.pathsOk → p ∈ t.splits →
     let u := t.move p.mask 0 p.pc id dst now rd
     u.pathsOk ∧ ∀ l, l < 32 → u.placeOf l = if hasLane p.mask l then some (dst l) else t.placeOf l) ∧
  (∀ (c : Ctx) (s : State) (u : Strand) (dst : Option (Nat → Word)) (n : Nat), s.strand? c.r = some u →
     FrameOf c.r s (c.leave s 0 id dst n) ∧ (c.leave s 0 id dst n).cycle = s.cycle + BitVec.ofNat 64 n ∧
       ∃ v, (c.leave s 0 id dst n).strand? c.r = some v ∧ v = { u with splits := v.splits, stack := v.stack, reinject := v.reinject } ∧
         (c.iss.queued = false → v.reinject = u.reinject ∧
           v.splits = (u.move c.iss.mask 0 c.iss.pc id
             (fun l => if hasLane c.act l then (match dst with | some f => f l | none => c.next) else c.next)
             (s.cycle + BitVec.ofNat 64 n) ((s.tick n).pathReady c.r)).splits))

/-- (R328, R329, R393): CALL, CALLX and RET: the return address is pushed below the call pointer of each lane, or popped and followed.
Completes: call, callLit, callx, ret.
Choices of the model: log entries 45, 47, 48. -/
def Obligations.CallsAndReturns : Prop :=
  -- the return addresses of the lanes that are translated are stored, the others are in flight, and the call pointers have moved
  let pushed (c : Ctx) : State :=
    let ready := c.mapped c.s .write c.act
    let s := (lanesOf ready).foldl
      (fun s l => c.storeKeys s (c.bytes l) ((c.keys? s .write l).getD []) (toBytes 4 (c.next.setWidth 64 : DWord).toNat)) c.s
    c.moveCp (if ready = c.act then s else c.launchFlight s (c.act &&& ~~~ready) .outstanding) 4
  (∀ (g : Guard) (off : BitVec 18) (s : State) (c : Ctx), Runs s (Form.plain 0x03 g 1) c → c.half = false →
    (∀ l, hasLane c.act l = true → 4 ≤ c.cp l ∧ c.locked true l = false) → c.overlaps = false →
    exec (.call g off) s = .next (c.leave (pushed c) 0 id (some fun _ => c.iss.pc + BitVec.ofInt 32 (4 * off.toInt)) c.beats)) ∧
  (∀ (g : Guard) (x : DWord) (s : State) (c : Ctx), Runs s (Form.plain 0x03 g 3) c → c.half = false →
    (∀ l, hasLane c.act l = true → 4 ≤ c.cp l ∧ c.locked true l = false) → c.overlaps = false →
    exec (.callLit g x) s = .next (c.leave (pushed c) 0 id (some fun _ => c.iss.pc + x.setWidth 32) c.beats)) ∧
  (∀ (e : Ext) (s : State) (c : Ctx), Runs s (Form.ofExt 0x04 e) c → c.half = false →
    (∀ l, hasLane c.act l = true → 4 ≤ c.cp l ∧ c.locked true l = false ∧ (loWord (c.a l)).toNat % 4 = 0) → c.overlaps = false →
    exec (.callx e) s = .next (c.leave (pushed c) 0 id (some fun l => loWord (c.a l)) c.beats)) ∧
  (∀ (g : Guard) (off : BitVec 18) (s : State) (c : Ctx) (l : Nat), Runs s (Form.plain 0x03 g 1) c → c.half = false →
    hasLane c.act l = true → c.cp l < 4 →
    (∀ k, hasLane c.act k = true → k < l → 4 ≤ c.cp k) →
    exec (.call g off) s = .next (c.trap .privateLimit (BitVec.ofInt 64 (c.cp l - 4)) l c.s)) ∧
  ∀ (g : Guard) (s : State) (c : Ctx) (s' : State) (lk : List LaneKeys), Runs s (Form.plain 0x05 g 1) c →
    (∀ l, hasLane c.act l = true → c.cp l + 4 ≤ c.g.header.privBytes ∧ c.locked false l = false) → c.overlaps = false →
    c.translated .read (lanesOf c.act) s' lk →
    -- its lines find their miss-status entries; rejected for 64 cycles it goes before what is younger
    c.entriesOf s' lk (fun n => if s'.isAged (c.rejection s').1 then decide (n < (c.rejection s').2) else true) = true →
    let x := c.loadLanes s' lk
    let dst (l : Nat) : Word := loWord (SMap.look 0 (SMap.putAll 0 [] x.2.1) l)
    (x.2.2 = 0 → (∀ l, hasLane c.act l = true → (dst l).toNat % 4 = 0) →
      exec (.ret g) s = .next (c.leave (c.moveCp x.1 (-4)) 0 id (some dst) c.beats)) ∧
    (x.2.2 ≠ 0 → exec (.ret g) s = .next (c.leave (c.deferOn x.1 .uncorrectable x.2.2 (c.va (lowest x.2.2))) (c.act &&& ~~~x.2.2) id none
      c.beats))

/-- (R20, R29, R339): EXIT ends the active items.
Completes: exit. -/
def Obligations.ExitEnds : Prop :=
  ∀ (g : Guard) (s : State) (c : Ctx), Runs s (Form.plain 0x06 g 1) c →
    ∃ (t : State) (u : Strand), exec (.exit g) s = .next t ∧ t.strand? c.r = some u ∧ u.ended = c.t.ended ||| (c.act &&& c.t.present) ∧
      (∀ p ∈ u.splits ++ u.stack, p.mask &&& c.act = 0) ∧ SameRegs u c.t

/-! ## System registers, giving way -/

/-- (R55, R57, R266, R290, R334, R387, R400, R414, R416): CSRW, PRIO, WDOG, YIELD and SLEEP; a priority above the launch's, a %fpmode with
reserved bits, a bad handler offset, a read-only register and a watchdog limit out of range trap with ILLEGAL_OPERAND.
Completes: yield, sleep, prio, csrw, wdog.
Choices of the model: log entry 7. -/
def Obligations.SystemWrites : Prop :=
  let x (c : Ctx) : Word := loWord (c.a c.low)
  let bad (i : Instr) (f : Form) (ok : Ctx → Prop) : Prop :=
    ∀ (s : State) (c : Ctx), Runs s f c → ok c → exec i s = .next (c.trap .illegalOperand 0 c.low c.s)
  (∀ e : Ext, e.imm = 0x11 → Does (.csrw e) (Form.ofExt 0xC1 e) (fun c => x c &&& 0xFFFFFE04#32 = 0)
    (fun c => c.s.modStrand c.r fun t => { t with fp := x c }) (fun _ => none) (fun _ => 0)) ∧
  (∀ e : Ext, e.imm = 0x11 → bad (.csrw e) (Form.ofExt 0xC1 e) fun c => x c &&& 0xFFFFFE04#32 ≠ 0) ∧
  (∀ e : Ext, e.imm = 0x12 → Does (.csrw e) (Form.ofExt 0xC1 e) (fun c => (x c).toNat ≤ c.c.initPrio.toNat)
    (fun c => c.s.modCrew c.r.crew fun k => { k with prio := (x c).setWidth 2 }) (fun _ => none) (fun _ => 0)) ∧
  (∀ e : Ext, e.imm = 0x12 → bad (.csrw e) (Form.ofExt 0xC1 e) fun c => c.c.initPrio.toNat < (x c).toNat) ∧
  (∀ e : Ext, e.imm = 0x13 → Does (.csrw e) (Form.ofExt 0xC1 e) (fun c => x c = 0 ∨ ((x c).toNat % 4 = 0 ∧ 0x80 ≤ (x c).toNat))
    (fun c => c.s.modCrew c.r.crew fun k => { k with handler := x c }) (fun _ => none) (fun _ => 0)) ∧
  (∀ e : Ext, e.imm = 0x13 → bad (.csrw e) (Form.ofExt 0xC1 e) fun c => x c ≠ 0 ∧ ((x c).toNat % 4 ≠ 0 ∨ (x c).toNat < 0x80)) ∧
  (∀ e : Ext, e.imm ≠ 0x11 → e.imm ≠ 0x12 → e.imm ≠ 0x13 → bad (.csrw e) (Form.ofExt 0xC1 e) fun _ => True) ∧
  (∀ e : Ext, Does (.prio e) (Form.ofExt 0xBA e) (fun c => (x c).toNat ≤ c.c.initPrio.toNat)
    (fun c => c.s.modCrew c.r.crew fun k => { k with prio := (x c).setWidth 2 }) (fun _ => none) (fun _ => 0)) ∧
  (∀ e : Ext, bad (.prio e) (Form.ofExt 0xBA e) fun c => c.c.initPrio.toNat < (x c).toNat) ∧
  (∀ e : Ext, Does (.wdog e) (Form.ofExt 0xC7 e) (fun c => 1 ≤ (x c).toNat ∧ (x c).toNat ≤ 10000000)
    (fun c => c.s.modCrew c.r.crew fun k => { k with wdCount := 0, wdLimit := (x c).toNat }) (fun _ => none) (fun _ => 0)) ∧
  (∀ e : Ext, bad (.wdog e) (Form.ofExt 0xC7 e) fun c => (x c).toNat = 0 ∨ 10000000 < (x c).toNat) ∧
  (∀ (g : Guard) (s : State) (c : Ctx), Runs s (Form.plain 0xB8 g 1) c →
    ∃ t, exec (.yield g) s = .next t ∧
      t = (c.leave c.s 0 id none c.beats).modStrand c.r fun t => t.modSplit (lowest c.iss.mask) fun p => { p with yielded := true }) ∧
  (∀ (e : Ext) (s : State) (c : Ctx), Runs s (Form.ofExt 0xB9 e) c → c.slept = false →
    exec (.sleep e) s = .next (c.waitFor c.s (.sleep (c.s.cycle.toNat + 1 + c.sleepFor)))) ∧
  ∀ e : Ext, Does (.sleep e) (Form.ofExt 0xB9 e) (fun c => c.slept = true) (fun c => c.s) (fun _ => none) (fun _ => 0)

/-! ## Traps -/

/-- (R106, R274, R275, R276, R281, R326, R407, R408): TRAP, BKPT, UDF and reserved words take their traps: where the crew has a handler and the
strand can enter it, the trap registers, the replay queue and the split at the handler are as R275 and R276 say; and so does every trap of an issue, whichever check raises it.
Completes: trap, bkpt, udf, udfExt, reservedCell.
Choices of the model: log entries 37, 38, 40. -/
def Obligations.TrapsEnter : Prop :=
  ((∀ (e : Ext) (s : State) (c : Ctx), Runs s (Form.ofExt 0xC2 e) c → c.trapFits →
     ∃ t, exec (.trap e) s = .next t ∧ Entered c .swtrap (e.imm.setWidth 64) c.low t) ∧
   (∀ (g : Guard) (s : State) (c : Ctx), Runs s (Form.plain 0xC4 g 1) c → c.trapFits →
     ∃ t, exec (.bkpt g) s = .next t ∧ Entered c .bkpt 0 c.low t) ∧
   (∀ (g : Guard) (x : BitVec 18) (s : State) (c : Ctx), s.ctxOf (Form.plain 0xFF g 1) = some c → c.trapFits →
     ∃ t, exec (.udf g x) s = .next t ∧ Entered c .illegalOpcode 0 (lowest (if c.act = 0 then c.iss.mask else c.act)) t) ∧
   (∀ (r : Raw) (s : State) (c : Ctx), s.ctxOf (Form.plain 0xFF (guardOf r.bits.toNat) (lengthWords r.l.toNat)) = some c → c.trapFits →
     ∃ t, exec (.udfExt r) s = .next t ∧ Entered c .illegalOpcode 0 (lowest (if c.act = 0 then c.iss.mask else c.act)) t) ∧
   ∀ (r : Raw) (s : State) (c : Ctx), s.ctxOf (Form.plain 0xFF (guardOf r.bits.toNat) (lengthWords r.l.toNat)) = some c → c.trapFits →
     ∃ t, exec (.reservedCell r) s = .next t ∧
       Entered c (if badOpcode r.bits.toNat then .illegalOpcode else .illegalOperand) 0 (lowest (if c.act = 0 then c.iss.mask else c.act)) t) ∧
  (∀ (c : Ctx) (code : Trap) (addr : DWord) (lane : Nat), c.s.strand? c.r = some c.t → (c.s.crew? c.r.crew).isSome = true → c.trapFits →
     Entered c code addr lane (c.trap code addr lane c.s))

/-- (R282): a trap of a crew without a handler, or in its handler, stops the crew: every strand of it ends, crew and launch count as trapped,
and one record is posted to its partition.
Choices of the model: log entry 37. -/
def Obligations.UnhandledTrap : Prop :=
  ∀ (c : Ctx) (code : Trap) (addr : DWord) (lane : Nat) (p : Partition), c.s.strand? c.r = some c.t → c.s.crew? c.r.crew = some c.c →
    c.s.grid? c.r.crew.grid = some c.g → c.s.part? c.g.part = some p → c.t.busy = false → (c.c.handler = 0 ∨ c.t.handler.isSome = true) →
    let t := c.trap code addr lane c.s
    (∃ k, t.crew? c.r.crew = some k ∧ k.trapped = true ∧ ∀ u ∈ k.strands, u.ended = u.present ∧ u.splits = [] ∧ u.stack = []) ∧
    (∃ g, t.grid? c.r.crew.grid = some g ∧ g.trapped = true) ∧
    ∃ q, t.part? c.g.part = some q ∧ q.nextFault = p.nextFault + 1

/-- (R275, R276, R279, R280, R407): TRAPRET outside a handler traps; in one the split stands at it until every item does, then the strand
leaves the handler: the frozen paths thaw where they stopped, and the entries that are not skipped are re-injected. RPLW changes an
entry of the queue.
Completes: trapret, rplw.
Choices of the model: log entries 39, 71. -/
def Obligations.TrapReturn : Prop :=
  (∀ (e : Ext) (s : State) (c : Ctx), Runs s (Form.ofExt 0xC3 e) c → c.t.handler = none →
    exec (.trapret e) s = .next (c.trap .illegalOperand 0 c.low c.s)) ∧
  (∀ (e : Ext) (s : State) (c : Ctx) (fr : Frame) (p : Path), Runs s (Form.ofExt 0xC3 e) c → c.t.handler = some fr → c.t.splits = [p] →
    c.t.stack = [] → hasLane p.mask (lowest c.iss.mask) = true →
    ∃ (t : State) (u : Strand) (ready : Path → Bool), exec (.trapret e) s = .next t ∧ t.strand? c.r = some u ∧ u.handler = none ∧
      u.reinject = (fr.queue.map fun x => if e.mod.getLsbD 0 && x.trapping then { x with skip := true } else x).filter (fun x => !x.skip) ∧
      SameRegs u c.t ∧
      (u.splits, u.stack) = settlePaths ready (dropLanes c.t.ended (fr.splits.map fun p => { p with since := t.cycle }))
        (dropLanes c.t.ended (fr.stack.map fun p => { p with since := t.cycle })) ∧
      ((fr.splits ++ fr.stack).Pairwise (fun p q => p.mask &&& q.mask = 0) →
        ∀ q ∈ fr.splits ++ fr.stack, ∀ l, l < 32 → hasLane q.mask l = true → hasLane c.t.ended l = false → u.placeOf l = some q.pc)) ∧
  (∀ (e : Ext) (s : State) (c : Ctx) (o p : Path), Runs s (Form.ofExt 0xC3 e) c → c.t.handler.isSome = true → c.iss.queued = false →
    c.t.splitOf? (lowest c.iss.mask) = some o → p ∈ c.t.splits → hasLane p.mask (lowest c.iss.mask) = false → p.wait = .none →
    ∃ (t : State) (u : Strand) (q : Path), exec (.trapret e) s = .next t ∧ t.strand? c.r = some u ∧ u.handler = c.t.handler ∧
      u.splitOf? (lowest c.iss.mask) = some q ∧ q.wait = .trapret (e.mod.getLsbD 0) ∧ q.pc = o.pc ∧ q.mask = o.mask ∧ SameRegs u c.t) ∧
  ∀ (e : Ext) (s : State) (c : Ctx) (fr : Frame) (x : Nat × ReplayEntry) (y : ReplayEntry), Runs s (Form.ofExt 0xC6 e) c →
    c.t.handler = some fr → c.replayEntry = some x → x.2.written c.replaySel c.act (fun l => loWord (c.b l)) = some y →
    ∃ (t : State) (u : Strand) (fr' : Frame), exec (.rplw e) s = .next t ∧ t.strand? c.r = some u ∧ u.handler = some fr' ∧
      fr' = { fr with queue := fr'.queue } ∧ fr'.queue.length = fr.queue.length ∧ fr'.queue[x.1]? = some y ∧
        ∀ n, n ≠ x.1 → fr'.queue[n]? = fr.queue[n]?

/-! ## Views -/

/-- (R206, R207, R208, R210, R211, R410): VDEF, VSET, VDROP and VRET on a view register that no engine locks: the view is read from its
descriptor, changed in one field, dropped, or released with its flag stored and dropped once the flag has been stored; the flag's store
is a generic access, and a lock that it meets traps. What a VRET that waited stores is what it read first.
Completes: pageWalk, vdef, vset, vdrop, vret.
Choices of the model: log entries 7, 13, 15, 45, 69. -/
def Obligations.ViewRegisters : Prop :=
  let views (c : Ctx) (s : State) (v : Option View) : State :=
    s.modCrew c.r.crew fun k => { k with views := putNth k.views c.viewReg v }
  (∀ (e : Ext) (s : State) (c : Ctx) (v : View), Runs s (Form.ofExt 0x80 e) c → c.viewLocked = false → c.viewInUse = false →
    let off := (loWord (c.a c.low)).toNat
    off % 16 = 0 → off + 64 ≤ c.g.header.localBytes → viewOfBytes ((span off 64).map (SMap.look 0 c.c.store)) = some v →
    v.check c.g.header.localBytes = none →
    exec (.vdef e) s = .next (c.leave (views c c.s (some { v with universal := !c.armatureFree })) 0 id none c.beats)) ∧
  (∀ (e : Ext) (s : State) (c : Ctx), Runs s (Form.ofExt 0x80 e) c → c.viewLocked = false → c.viewInUse = false →
    (loWord (c.a c.low)).toNat % 16 ≠ 0 →
    exec (.vdef e) s = .next (c.trap .misalign ((loWord (c.a c.low)).setWidth 64) c.low c.s)) ∧
  (∀ (e : Ext) (s : State) (c : Ctx) (v w : View), Runs s (Form.ofExt 0x81 e) c → c.view? = some v → c.viewLocked = false →
    c.viewInUse = false → v.setField c.viewSel (loWord (c.a c.low)) = some w → w.check c.g.header.localBytes = none →
    exec (.vset e) s = .next (c.leave (views c c.s (some w)) 0 id none c.beats)) ∧
  (∀ (e : Ext) (s : State) (c : Ctx), Runs s (Form.ofExt 0x82 e) c → c.view?.isSome = true → c.viewLocked = false →
    exec (.vdrop e) s = .next (c.leave (views c c.s none) 0 id none c.beats)) ∧
  (∀ (e : Ext) (s : State) (c : Ctx), Runs s (Form.ofExt 0x82 e) c → c.view? = none →
    exec (.vdrop e) s = .next (c.trap .illegalOperand 0 c.low c.s)) ∧
  (∀ (e : Ext) (s : State) (c : Ctx) (v : View) (s' : State) (ks : List (Nat × Xlate)), Runs s (Form.ofExt 0x83 e) c → c.view? = some v →
    c.viewLocked = false → c.again.ea c.low % 4 = 0 → c.again.locked true c.low = false → c.quiet = true →
    -- the flag's store is one lane's access, made once the release is done
    let a : Ctx := { c.again with s := c.releaseOver c.s v }
    a.translated .write [c.low] s' [(c.low, ks)] → a.scopeFail s' [(c.low, ks)] = none →
    let flag := toBytes 4 (loWord (a.b c.low)).toNat
    let put : State := if beyondL1 e.scope then a.storeScoped s' ks flag else a.storeKeys s' (a.bytes c.low) ks flag
    exec (.vret e) s = .next (c.leave (views c put none) 0 id none c.beats)) ∧
  -- on a page without a translation that store is in flight, parked on its fault, and the view stands
  (∀ (e : Ext) (s : State) (c : Ctx) (v : View) (va : Nat) (why : BitVec 8), Runs s (Form.ofExt 0x83 e) c → c.view? = some v →
    c.viewLocked = false → c.again.ea c.low % 4 = 0 → c.again.locked true c.low = false → c.quiet = true →
    c.again.flying = false →
    let a : Ctx := { c.again with s := c.releaseOver c.s v }
    let x := a.translateLanes a.s .write a.bytes [c.low]
    x.2 = .inr (va, why) → let y := x.1.pageFault (a.faultRec .write 0 va why)
    exec (.vret e) s = .next (c.leave (a.launchFlight y.1 a.act (.parked y.2)) 0 id none c.beats)) ∧
  -- until the page is there: the store is performed, and then the view is dropped
  (∀ (e : Ext) (s s' : State) (r : StrandRef) (x : InFlight) (c : Ctx) (ks : List (Nat × Xlate)), s.flight? r x.id = some x →
    s.walkDue r x = true → x.isWhole = true → s.ctxOfFlight r x = some c → c.f = Form.ofExt 0x83 e → c.c.state ≠ .ended →
    c.translated .write [c.low] s' [(c.low, ks)] → c.scopeFail s' [(c.low, ks)] = none →
    let flag := toBytes 4 (loWord (c.b c.low)).toNat
    let put : State := if beyondL1 e.scope then c.storeScoped s' ks flag else c.storeKeys s' (c.bytes c.low) ks flag
    exec (.pageWalk r x.id) s = .next ((views c put none).dropFlight r x.id)) ∧
  ∀ (e : Ext) (s : State) (c : Ctx), Runs s (Form.ofExt 0x83 e) c → c.view?.isSome = true → c.viewLocked = false →
    c.again.ea c.low % 4 = 0 → c.again.locked true c.low = true →
    exec (.vret e) s = .next (c.trap .viewLocked (BitVec.ofInt 64 (c.again.ea c.low)) c.low c.s)

/-- (R184, R202, R206, R211, R270): VACQ and WAITM read their word: where the condition holds they acquire and complete, where it does not
they wait, with the operands of their first read; WAITM waits for a write of its line, counted from that read. A word that is not
aligned traps, and so does VACQ on a word that a lock of the crew covers.
Completes: vacq, waitm.
Choices of the model: log entries 7, 13, 69, 90. -/
def Obligations.FlagWaits : Prop :=
  let reads (e : Ext) (c : Ctx) (s' : State) (ks : List (Nat × Xlate)) (holds : Bool) : Prop :=
    let a := c.again
    a.ea c.low % 4 = 0 ∧ a.flagBusy = false ∧ a.translated .read [c.low] s' [(c.low, ks)] ∧ a.scopeFail s' [(c.low, ks)] = none ∧
      (a.readFlag s' ks).2.2 = false ∧
        intCond e.rnd.toNat e.ty (BitVec.ofNat 64 (a.readFlag s' ks).2.1) (a.b c.low) = holds
  (∀ (e : Ext) (s : State) (c : Ctx) (v : View) (s' : State) (ks : List (Nat × Xlate)), Runs s (Form.ofExt 0x84 e) c → c.view? = some v →
    c.again.locked false c.low = false → reads e c s' ks true →
    exec (.vacq e) s = .next (c.leave (c.acquireOver (c.again.readFlag s' ks).1 v) 0 id none c.beats)) ∧
  (∀ (e : Ext) (s : State) (c : Ctx) (v : View) (s' : State) (ks : List (Nat × Xlate)), Runs s (Form.ofExt 0x84 e) c → c.view? = some v →
    c.again.locked false c.low = false → reads e c s' ks false →
    exec (.vacq e) s = .next (c.waitFor (c.again.readFlag s' ks).1 .vacq)) ∧
  (∀ (e : Ext) (s : State) (c : Ctx), Runs s (Form.ofExt 0x84 e) c → c.view?.isSome = true → c.again.ea c.low % 4 ≠ 0 →
    exec (.vacq e) s = .next (c.trap .misalign (BitVec.ofInt 64 (c.again.ea c.low)) c.low c.s)) ∧
  (∀ (e : Ext) (s : State) (c : Ctx), Runs s (Form.ofExt 0x84 e) c → c.view?.isSome = true → c.again.ea c.low % 4 = 0 →
    c.again.locked false c.low = true →
    exec (.vacq e) s = .next (c.trap .viewLocked (BitVec.ofInt 64 (c.again.ea c.low)) c.low c.s)) ∧
  (∀ (e : Ext) (s : State) (c : Ctx) (s' : State) (ks : List (Nat × Xlate)), Runs s (Form.ofExt 0xB2 e) c →
    reads e c s' ks true → exec (.waitm e) s = .next (c.leave ((c.again.readFlag s' ks).1.acquire c.core e.scope) 0 id none c.beats)) ∧
  (∀ (e : Ext) (s : State) (c : Ctx) (s' : State) (ks : List (Nat × Xlate)), Runs s (Form.ofExt 0xB2 e) c → reads e c s' ks false →
    let line := (ks.head?.map (·.1)).getD 0 / 128
    let inL1 := !(beyondL1 e.scope)
    let y := (c.again.readFlag s' ks).1.watch c.core line inL1
    exec (.waitm e) s = .next (c.waitFor y (.waitm line inL1 (y.writesOf c.core line inL1)))) ∧
  ∀ (e : Ext) (s : State) (c : Ctx), Runs s (Form.ofExt 0xB2 e) c → c.again.ea c.low % 4 ≠ 0 →
    exec (.waitm e) s = .next (c.trap .misalign (BitVec.ofInt 64 (c.again.ea c.low)) c.low c.s)

/-! ## Copies, tiles -/

/-- (R213, R214, R215, R216, R220, R222, R223, R243, R244, R245): CPY, CPYM, CDRAIN and NMV that pass their checks make their tag BUSY with
the operation; CPY leaves the other tags; CPYM writes its slot id, CPY and CDRAIN no register.
Completes: cpy, cpym, cdrain, nmv.
Choices of the model: log entries 45, 49, 82. -/
def Obligations.CopiesStart : Prop :=
  let started (c : Ctx) (t : State) (ok : CopyOp → Prop) : Prop :=
    ∃ (k : Crew) (o : CopyOp), t.crew? c.r.crew = some k ∧ (k.tag c.tagNo).state = .busy ∧ (k.tag c.tagNo).op = some o ∧ ok o ∧
      o.strand = c.t.idx ∧ o.core = c.core ∧ o.phase = c.c.phase
  (∀ (e : Ext) (s : State) (c : Ctx) (src dst : ViewUse), Runs s (Form.ofExt 0x90 e) c → c.copyStalls = false →
    c.tagNo < c.c.tags.length → c.viewUse e.d = some dst → c.viewUse e.a = some src → src.view.ty = dst.view.ty →
    dst.view.count ≤ 16777215 → src.view.canRead = true → dst.view.canWrite = true → e.mod.getLsbD 0 = false →
    ∃ (t : State) (u : Strand), exec (.cpy e) s = .next t ∧ t.strand? c.r = some u ∧ SameRegs u c.t ∧
      started c t (fun o => o.kind = .copy ∧ o.src = some src ∧ o.dst = some dst) ∧
      ∀ k, t.crew? c.r.crew = some k → k.follows = c.c.follows ∧ ∀ n, n ≠ c.tagNo → k.tag n = c.c.tag n) ∧
  (∀ (e : Ext) (s : State) (c : Ctx) (src dst : ViewUse) (f : FollowOn), Runs s (Form.ofExt 0x90 e) c → c.copyStalls = false →
    c.tagNo < c.c.tags.length → c.viewUse e.d = some dst → c.viewUse e.a = some src → src.view.ty = dst.view.ty →
    dst.view.count ≤ 16777215 → src.view.canRead = true → dst.view.canWrite = true → e.mod.getLsbD 0 = true →
    c.followOn c.s.nextId = .inl f →
    ∃ t, exec (.cpy e) s = .next t ∧ started c t (fun o => o.kind = .copy ∧ o.src = some src ∧ o.dst = some dst) ∧
      ∀ k, t.crew? c.r.crew = some k → k.follows = c.c.follows ++ [f]) ∧
  (∀ (e : Ext) (s : State) (c : Ctx) (src : ViewUse) (d : Die) (k : Nat), Runs s (Form.ofExt 0x91 e) c → c.copyStalls = false →
    c.tagNo < c.c.tags.length → e.imm.getLsbD 6 = false → c.viewUse e.a = some src → src.view.count * elemSize src.view.ty ≤ 65536 →
    1 ≤ (loWord (c.b c.low)).toNat → (loWord (c.b c.low)).toNat ≤ 255 → src.view.canRead = true → c.s.die? (dieOf c.core) = some d →
    (d.slots.findIdx? fun x => x.use.isNone) = some k →
    let id : SlotId := { seq := (d.slots.getD k Slot.free).seq + 1, vdie := BitVec.ofNat 4 c.c.vdie, slot := BitVec.ofNat 5 k }
    ∃ (t : State) (u : Strand), exec (.cpym e) s = .next t ∧ t.strand? c.r = some u ∧
      Wrote e.d (Form.ofExt 0x91 e).dstWide c.act (fun _ => id.word.setWidth 64) u ∧
      started c t (fun o => o.kind = .park (dieOf c.core) id ∧ o.src = some src) ∧
      ∃ x, t.slot? (dieOf c.core) k = some x ∧ x.holds c.ctx id = true ∧ x.ready = false ∧ x.accept = (loWord (c.b c.low)).toNat) ∧
  (∀ (e : Ext) (s : State) (c : Ctx) (dst : ViewUse), Runs s (Form.ofExt 0x92 e) c → c.copyStalls = false → c.tagNo < c.c.tags.length →
    c.viewUse e.d = some dst → dst.view.count ≤ 16777215 → dst.view.canWrite = true →
    ∃ (t : State) (u : Strand), exec (.cdrain e) s = .next t ∧ t.strand? c.r = some u ∧ SameRegs u c.t ∧
      started c t (fun o => o.dst = some dst ∧ ∃ id, o.kind = .drain id false ∧ ∀ i, slotIdOf (loWord (c.a c.low)) = some i → id = i)) ∧
  ∀ (e : Ext) (s : State) (c : Ctx) (wb wx wy : ViewUse) (fb : Option FormatBlock) (s' : State) (pages : List (Nat × Xlate)),
    Runs s (Form.ofExt 0xA7 e) c → c.copyStalls = false → c.tagNo < c.c.tags.length → c.viewUse e.d = some wy → c.viewUse e.a = some wb →
    c.viewUse e.b = some wx → c.nmvBlock wb.view = .inl fb → nmvShape e.ty wb.view wx.view wy.view fb = true →
    let v := c.s.touchPages c.core c.ctx .read (pagesOf [wb.view.source])
    v.nmvStray c.core c.ctx wb.view = none → wb.view.canRead = true → wx.view.canRead = true → wy.view.canWrite = true →
    v.transAll c.core c.ctx [(.read, pagesOf (wb.view.source :: nmvScales wb.view fb)), (.read, pagesOf [wx.view.source]),
      (.write, pagesOf [wy.view.source])] = (s', .inl pages) →
    ∃ t, exec (.nmv e) s = .next t ∧
      started c t (fun o => o.kind = .nmv fb c.rmCode (e.mod.getLsbD 3) ∧ o.src = some wb ∧ o.aux = some wx ∧ o.dst = some wy)

/-- (R217, R218, R219): CWAIT completes when its tags are DONE, waits while they are not, and traps on an error that no one has seen, that
of each DONE tag of its mask being seen then; CTEST and CFIND report; CKILL frees the DONE tags of its mask, cancels the operations
of the BUSY ones and leaves the FREE ones.
Completes: cwaitAll, cwaitAny, cfind, ctestAll, ctestAny, ckill.
Choices of the model: log entries 7, 50, 80. -/
def Obligations.CopyTags : Prop :=
  let done (c : Ctx) : List Nat := c.doneTags (c.a c.low)
  let named (c : Ctx) : List Nat := (List.range 64).filter fun n => (c.a c.low).getLsbD n
  -- CWAIT's mask is that of its issue: a CWAIT that has waited has it still
  let mask (c : Ctx) : DWord := c.again.a c.low
  let met (c : Ctx) : List Nat := c.doneTags (mask c)
  let quietly (c : Ctx) : Prop := ∀ n ∈ met c, (c.c.tag n).errPend = false
  let traps (c : Ctx) (n : Nat) (t : State) : Prop :=
    ∃ s' k, t = c.trap .tagError (c.c.tag n).addr c.low s' ∧ s'.crew? c.r.crew = some k ∧
      ∀ m, k.tag m = if m ∈ met c then { c.c.tag m with errPend := false } else c.c.tag m
  let firstError (c : Ctx) (n : Nat) : Prop :=
    n ∈ met c ∧ (c.c.tag n).errPend = true ∧ ∀ m ∈ met c, m < n → (c.c.tag m).errPend = false
  let allDone (c : Ctx) : Prop := ∀ n, n < 64 → (mask c).getLsbD n = true → (c.c.tag n).state = .done
  (∀ e : Ext, Does (.cwaitAll e) (Form.ofExt 0x93 e) (fun c => allDone c ∧ quietly c)
    (fun c => c.observe c.s (met c)) (fun _ => none) (fun _ => 0)) ∧
  (∀ e : Ext, Does (.cwaitAny e) (Form.ofExt 0x94 e) (fun c => (met c ≠ [] ∨ mask c = 0) ∧ quietly c)
    (fun c => c.observe c.s (met c)) (fun _ => none) (fun _ => 0)) ∧
  (∀ (e : Ext) (s : State) (c : Ctx), Runs s (Form.ofExt 0x93 e) c → ¬ allDone c →
    exec (.cwaitAll e) s = .next (c.waitFor c.s .cwait)) ∧
  (∀ (e : Ext) (s : State) (c : Ctx), Runs s (Form.ofExt 0x94 e) c → mask c ≠ 0 → met c = [] →
    exec (.cwaitAny e) s = .next (c.waitFor c.s .cwait)) ∧
  (∀ (e : Ext) (s : State) (c : Ctx) (n : Nat), Runs s (Form.ofExt 0x93 e) c → allDone c →
    firstError c n → ∃ t, exec (.cwaitAll e) s = .next t ∧ traps c n t) ∧
  (∀ (e : Ext) (s : State) (c : Ctx) (n : Nat), Runs s (Form.ofExt 0x94 e) c → firstError c n →
    ∃ t, exec (.cwaitAny e) s = .next t ∧ traps c n t) ∧
  (∀ e : Ext, Does (.ctestAll e) (Form.ofExt 0x96 e) (fun c => ∀ n ∈ named c, (c.c.tag n).state = .done)
    (fun c => c.put (c.observe c.s (done c)) fun _ => 1) (fun _ => none) (fun _ => 0)) ∧
  (∀ e : Ext, Does (.ctestAll e) (Form.ofExt 0x96 e) (fun c => ∃ n ∈ named c, (c.c.tag n).state ≠ .done)
    (fun c => c.put c.s fun _ => 0) (fun _ => none) (fun _ => 0)) ∧
  (∀ e : Ext, Does (.ctestAny e) (Form.ofExt 0x97 e) (fun c => done c = [])
    (fun c => c.put c.s fun _ => 0) (fun _ => none) (fun _ => 0)) ∧
  (∀ e : Ext, Does (.ctestAny e) (Form.ofExt 0x97 e) (fun c => done c ≠ [])
    (fun c => c.put (c.observe c.s (done c)) fun _ => 1) (fun _ => none) (fun _ => 0)) ∧
  (∀ e : Ext, Does (.cfind e) (Form.ofExt 0x95 e) (fun c => done c = []) (fun c => c.put c.s fun _ => 0) (fun _ => none) Ctx.grow) ∧
  (∀ (e : Ext) (n : Nat), Does (.cfind e) (Form.ofExt 0x95 e) (fun c => (done c).head? = some n)
    (fun c => c.put (c.observe c.s [n]) fun _ =>
      let t := c.c.tag n
      BitVec.ofNat 64 (n + 2 ^ 6 + (if t.errPend then 2 ^ 7 else 0) + t.code.toNat * 2 ^ 8 + t.read.toNat * 2 ^ 16 + t.filled.toNat * 2 ^ 40))
    (fun _ => none) Ctx.grow) ∧
  (∀ e : Ext, Does (.ckill e) (Form.ofExt 0x98 e) (fun _ => True) (fun c => (named c).foldl c.killTag c.s) (fun _ => none) (fun _ => 0)) ∧
  ∀ (c : Ctx) (s : State) (n : Nat) (k : Crew), s.crew? c.r.crew = some k → n < k.tags.length →
    ((c.c.tag n).state = .free → c.killTag s n = s) ∧
      ((c.c.tag n).state = .done → (c.c.tag n).doneAt = c.s.cycle → c.killTag s n = s) ∧
      ∃ k', (c.killTag s n).crew? c.r.crew = some k' ∧ (∀ m, m ≠ n → k'.tag m = k.tag m) ∧
        ((c.c.tag n).state = .done → (c.c.tag n).doneAt ≠ c.s.cycle → k'.tag n = Tag.unused) ∧
          ((c.c.tag n).state = .busy →
            k'.tag n = { k.tag n with op := (k.tag n).op.map fun o => { o with cancelled := some (o.cancelled.getD s.cycle) } })

/-- (R228, R233, R235, R238, R239, R240): a tile instruction that passes its checks enters its core's queue with its operands, and its lanes
go on.
Completes: mma, mzero, mlda, msta, mtrn, mperm, mred.
Choices of the model: log entries 45, 51, 69, 81. -/
def Obligations.TilesQueue : Prop :=
  let size (c : Ctx) : Nat := c.g.header.localBytes
  (∀ (e : Ext) (d : BitVec 3), e.d = .t d → Queues (.mzero e) (Form.ofExt 0xA1 e) (fun _ => True) (fun _ => .mzero) d.toNat 0) ∧
  (∀ (e : Ext) (d a : BitVec 3), e.d = .t d → e.a = .t a → Queues (.mtrn e) (Form.ofExt 0xA4 e) (fun _ => True) (fun _ => .mtrn) d.toNat a.toNat) ∧
  (∀ (e : Ext) (d a : BitVec 3), e.d = .t d → e.a = .t a →
    Queues (.mred e) (Form.ofExt 0xA6 e) (fun _ => True) (fun _ => .mred (decide (e.ty = .s64))) d.toNat a.toNat) ∧
  (∀ (e : Ext) (d a : BitVec 3), e.d = .t d → e.a = .t a →
    Queues (.mperm e) (Form.ofExt 0xA5 e) (fun c => offsetTrap (loWord (c.b c.low)).toNat 128 (size c) = none)
      (fun c => .mperm ((span (loWord (c.b c.low)).toNat 128).map (SMap.look 0 c.c.store))) d.toNat a.toNat) ∧
  (∀ (e : Ext) (d : BitVec 3) (w : ViewUse), e.d = .t d →
    Queues (.mlda e) (Form.ofExt 0xA2 e) (fun c => c.viewUse e.a = some w ∧ w.view.tileShape e.ty = true ∧ w.view.canRead = true)
      (fun _ => .mlda w e.ty) d.toNat 0) ∧
  (∀ (e : Ext) (a : BitVec 3) (w : ViewUse), e.a = .t a →
    Queues (.msta e) (Form.ofExt 0xA3 e) (fun c => c.viewUse e.d = some w ∧ w.view.tileShape e.ty = true ∧ w.view.canWrite = true)
      (fun c => .msta w e.ty (if e.rnd = 0 then c.t.fp.setWidth 2 else (e.rnd - 1).setWidth 2) (e.mod.getLsbD 3) (e.mod.getLsbD 0)) 0 a.toNat) ∧
  (∀ (e : Ext) (d : BitVec 3) (wa wb : ViewUse), e.d = .t d →
    Queues (.mma e) (Form.ofExt 0xA0 e)
      (fun c => c.viewUse e.a = some wa ∧ c.viewUse e.b = some wb ∧ offsetTrap (loWord (c.cc c.low)).toNat 32 (size c) = none ∧
        mmaTrap e.ty wa.view wb.view (formatOf (c.c.block (loWord (c.cc c.low)).toNat)) (size c) = none)
      (fun c => .mma wa wb (formatOf (c.c.block (loWord (c.cc c.low)).toNat)).1 e.ty) d.toNat 0) ∧
  ∀ (e : Ext) (s : State) (c : Ctx), Runs s (Form.ofExt 0xA1 e) c → c.tileStalls = true → exec (.mzero e) s = .next (c.waitFor c.s .engine)

/-- (R84, R215, R228, R229, R235, R237, R238, R239, R240, R241): a tile operation at its end: MZERO clears, MTRN transposes, MPERM picks rows,
MRED sums rows into column 0, MLDA writes the elements of its view, MMA adds the product of its views, each element as its bytes were
when the operation issued or as they are now; MSTA stores the codes of its tile's entries at its view's elements; other tiles stand. -/
def Obligations.TileResults : Prop :=
  let picked (olds now : Snap) (x : Elems) : Prop :=
    x.size = now.length ∧ ∀ i, i < now.length → x.getD i none = now.getD i none ∨ x.getD i none = olds.getD i none
  -- what the operation's sources hold now, and what they held at issue, as far as an earlier lock did not hold it
  let now (s : State) (c : Crew) (ctx : Nat) (o : TileOp) : List Snap := (s.drain c.core).operands c ctx o.pages false o.kind.sources
  let olds (s : State) (c : Crew) (ctx : Nat) (o : TileOp) : List Snap :=
    if o.olds.isEmpty then (s.drain c.core).operands c ctx o.pages true o.kind.sources else o.olds
  -- the bytes that an MSTA of the codes `xs` writes, with their virtual addresses or offsets
  let bytes (v : View) (xs : List Nat) : List (Nat × Byte) :=
    (v.source.addrs.zip xs).flatMap fun z => (span z.1 (elemSize v.ty)).zip (toBytes (elemSize v.ty) z.2)
  (∀ (f : Nat → Nat → A80) (i j : Nat), i < 128 → j < 128 → tileAt (tileOf f) i j = f i j) ∧
  (∀ (t : Tile) (i j : Nat), i < 128 → j < 128 → tileAt (transpose t) i j = tileAt t j i) ∧
  (∀ (p : List Byte) (t : Tile) (i j : Nat), i < 128 → j < 128 →
    tileAt (permute p t) i j = if (nthWord p i).toNat < 128 then tileAt t (nthWord p i).toNat j else 0) ∧
  (∀ (int : Bool) (t : Tile) (i j : Nat), i < 128 → 1 ≤ j → j < 128 → tileAt (reduceRows int t) i j = 0) ∧
  (∀ (t : Tile) (i : Nat), i < 128 → (∀ k, k < 128 → a80Sat (tileAt t i k) = false) →
    a80Int (tileAt (reduceRows true t) i 0) = a80Int (a80OfInt false ((List.range 128).foldl (fun a k => a + a80Int (tileAt t i k)) 0)) ∨
      a80Sat (tileAt (reduceRows true t) i 0) = true) ∧
  -- an element of a view as an operand: its bytes in the local store, or on the generic path of the core
  (∀ (v : View) (store : SMap Byte) (tr : Trans) (by1 : Nat → Byte × Bool) (k : Nat), k < v.count →
    (v.isLocal = true → (v.source.read store tr by1).getD k none =
      some (BitVec.ofNat 64 (fromBytes ((span (v.elemAddr k) (elemSize v.ty)).map (SMap.look 0 store))), 0)) ∧
      (v.isLocal = false → ∀ ks, keysAt tr (v.elemAddr k) (elemSize v.ty) = some ks → (v.source.read store tr by1).getD k none =
        some (BitVec.ofNat 64 (fromBytes (ks.map fun x => (by1 x).1)), badBytes (ks.map fun x => (by1 x).2)))) ∧
  (∀ (s : State) (core ctx key : Nat), (s.opByte core ctx false key).1 = (s.l1Byte core key).1) ∧
  -- MLDA: an entry is the value of its element; .s32 keeps the number
  (∀ (ty : Ty) (x : Elems) (i j : Nat), i < 128 → j < 128 → ty ≠ .a80 →
    tileAt (loadTile ty x) i j = loadedEntry ty (elemCode ty x (j + 128 * i))) ∧
  (∀ (x : Elems) (i j : Nat) (w : DWord), i < 128 → j < 128 → w.toNat < 2 ^ 32 → x.getD (j + 128 * i) none = some (w, 0) →
    a80Int (tileAt (loadTile .s32 x) i j) = (loWord w).toInt) ∧
  -- MMA of signed bytes: the entry grows by the sum of the products of its row and its column
  (∀ (x : ProductIn) (t : Tile) (i j : Nat), i < 128 → j < 128 → x.fb.fmtA = .s8 → x.fb.fmtB = .s8 → x.fb.blkA = 0 → x.fb.blkB = 0 →
    a80Sat (tileAt t i j) = false → -(2 ^ 62) ≤ a80Int (tileAt t i j) → a80Int (tileAt t i j) ≤ 2 ^ 62 →
    (∀ k, k < 128 → snapBad (x.a.getD (k + 128 * i) none) = false ∧ snapBad (x.b.getD (j + 128 * k) none) = false) →
    a80Sat (tileAt (x.product t) i j) = false ∧
      a80Int (tileAt (x.product t) i j) = (List.range 128).foldl
        (fun z k => z + sext 8 (snapVal (x.a.getD (k + 128 * i) none)) * sext 8 (snapVal (x.b.getD (j + 128 * k) none)))
        (a80Int (tileAt t i j))) ∧
  -- MSTA: the codes of the entries in index order
  (∀ (ty : Ty) (rm : Rm) (sat int : Bool) (t : Tile) (i j : Nat), i < 128 → j < 128 → ty ≠ .a80 → ty ≠ .dt6 →
    (storeTile ty rm sat int t).1.getD (j + 128 * i) 0 = (storedCode ty rm sat int (tileAt t i j)).1) ∧
  (∀ (rm : Rm) (sat int : Bool) (t : Tile) (i n : Nat), i < 128 → n < 512 →
    (storeTile .a80 rm sat int t).1.getD (n + 512 * i) 0 = (tileAt t i (n / 4)).toNat / 2 ^ (32 * (n % 4)) % 2 ^ 32) ∧
  -- the operations
  (∀ (s : State) (c : Crew) (ctx : Nat) (o : TileOp), s.crew? c.ref = some c → o.td < c.tiles.length →
    ∃ k, (s.doTile c ctx o).crew? c.ref = some k ∧
      (o.kind = .mzero → k.tiles = putNth c.tiles o.td []) ∧
      (o.kind = .mtrn → k.tiles = putNth c.tiles o.td (transpose (c.tiles.getD o.ts []))) ∧
      (∀ p, o.kind = .mperm p → k.tiles = putNth c.tiles o.td (permute p (c.tiles.getD o.ts []))) ∧
      (∀ b, o.kind = .mred b → k.tiles = putNth c.tiles o.td (reduceRows b (c.tiles.getD o.ts []))) ∧
      (∀ w ty, o.kind = .mlda w ty → o.olds.length ≤ 1 →
        ∃ x, picked ((olds s c ctx o).getD 0 []) ((now s c ctx o).getD 0 []) x ∧ k.tiles = putNth c.tiles o.td (loadTile ty x)) ∧
      ∀ a b fb ty, o.kind = .mma a b fb ty → (o.olds = [] ∨ o.olds.length = 4) →
        ∃ x : ProductIn, x.fb = fb ∧ picked ((olds s c ctx o).getD 0 []) ((now s c ctx o).getD 0 []) x.a ∧
          picked ((olds s c ctx o).getD 1 []) ((now s c ctx o).getD 1 []) x.b ∧
          picked ((olds s c ctx o).getD 2 []) ((now s c ctx o).getD 2 []) x.sa ∧
          picked ((olds s c ctx o).getD 3 []) ((now s c ctx o).getD 3 []) x.sb ∧
          k.tiles = putNth c.tiles o.td (x.product (c.tiles.getD o.td []))) ∧
  (∀ (s : State) (c : Crew) (ctx : Nat) (o : TileOp) (w : ViewUse) (ty : Ty) (rnd : BitVec 2) (sat int : Bool),
    s.crew? c.ref = some c → o.kind = .msta w ty rnd sat int → w.view.isLocal = true →
    ∃ k, (s.doTile c ctx o).crew? c.ref = some k ∧ k.tiles = c.tiles ∧
      ∀ a, SMap.look 0 k.store a =
        (lastByte (bytes w.view (storeTile ty (rmOf rnd) sat int (c.tiles.getD o.ts [])).1) a).getD (SMap.look 0 c.store a)) ∧
  ∀ (s : State) (c : Crew) (ctx : Nat) (o : TileOp) (w : ViewUse) (ty : Ty) (rnd : BitVec 2) (sat int : Bool),
    s.crew? c.ref = some c → o.kind = .msta w ty rnd sat int → w.view.isLocal = false →
    let d := s.drain c.core
    let stored := (bytes w.view (storeTile ty (rmOf rnd) sat int (c.tiles.getD o.ts [])).1).filterMap fun b =>
      (transOf o.pages b.1).map fun e => (physKey e b.1, b.2)
    (∀ b ∈ stored, ((d.core? c.core).bind fun k => k.l1? (b.1 / 128)).isSome = true) →
    let t := s.doTile c ctx o
    (∀ key, (t.l1Byte c.core key).1 = (lastByte stored key).getD (d.l1Byte c.core key).1) ∧ ∀ key, t.memByte key = d.memByte key

/-! ## Synchronising, launching, hand-offs -/

/-- (R194, R195, R322, R323, R324, R383, R384): BAR and BARC release, then arrive at the generation that stands; BARC goes on, BAR passes once
the generation has moved on, at once where its arrival completes it, and acquires; until then it waits. So they do where Active() is empty.
PHASE gives the phase that ends; PHWAIT passes when the counter of its die has come.
Completes: bar, barc, phase, phwait.
Choices of the model: log entries 7, 13, 63. -/
def Obligations.BarriersAndPhases : Prop :=
  -- the strand has arrived: after a release, at the current generation, which completes where it was the last
  let arrived (c : Ctx) (e : Ext) (y : State) (byBarc : Bool) : Prop :=
    (∀ key, y.memByte key = (c.s.release c.core e.scope).memByte key) ∧ y.cores = (c.s.release c.core e.scope).cores ∧
      (∃ u, y.strand? c.r = some u ∧ SameRegs u c.t ∧
        u.arrivals.head? = some { key := c.barKey, gen := c.generation c.s, byBarc := byBarc }) ∧
      ∃ g, y.grid? c.g.id = some g ∧
        ((g.barrier c.barKey).gen = c.generation c.s ∧ (c.c.idx, c.t.idx) ∈ (g.barrier c.barKey).arrived ∨
          (g.barrier c.barKey).gen = c.generation c.s + 1 ∧ (g.barrier c.barKey).arrived = [])
  (∀ (e : Ext) (s : State) (c : Ctx), Arrives s (Form.ofExt 0xB0 e) c → c.t.live &&& ~~~c.iss.mask = 0 → c.arrival = none →
    c.quiet = true →
    ∃ y, arrived c e y false ∧
      exec (.bar e) s = .next (if c.generation y = c.generation c.s then c.waitFor y .barrier
        else c.leave ((c.clearArrival y).acquire c.core e.scope) 0 id none c.beats)) ∧
  (∀ (e : Ext) (s : State) (c : Ctx) (a : Arrival), Arrives s (Form.ofExt 0xB0 e) c → c.t.live &&& ~~~c.iss.mask = 0 → c.arrival = some a →
    c.generation c.s ≠ a.gen →
    exec (.bar e) s = .next (c.leave ((c.clearArrival c.s).acquire c.core e.scope) 0 id none c.beats)) ∧
  (∀ (e : Ext) (s : State) (c : Ctx) (a : Arrival), Arrives s (Form.ofExt 0xB0 e) c → c.t.live &&& ~~~c.iss.mask = 0 → c.arrival = some a →
    c.generation c.s = a.gen → exec (.bar e) s = .next (c.waitFor c.s .barrier)) ∧
  (∀ (e : Ext) (s : State) (c : Ctx), Arrives s (Form.ofExt 0xB0 e) c → c.t.live &&& ~~~c.iss.mask ≠ 0 →
    exec (.bar e) s = .next (c.waitFor c.s .barrier)) ∧
  (∀ (e : Ext) (s : State) (c : Ctx), Arrives s (Form.ofExt 0xB1 e) c → c.t.live &&& ~~~c.iss.mask = 0 →
    (∀ a, c.arrival = some a → c.generation c.s ≠ a.gen) → c.quiet = true →
    ∃ y, arrived c e y true ∧ exec (.barc e) s = .next (c.leave y 0 id none c.beats)) ∧
  (∀ (e : Ext) (s : State) (c : Ctx) (a : Arrival), Arrives s (Form.ofExt 0xB1 e) c → c.t.live &&& ~~~c.iss.mask = 0 → c.arrival = some a →
    c.generation c.s = a.gen → exec (.barc e) s = .next (c.waitFor c.s .barrier)) ∧
  (∀ e : Ext, Does (.phase e) (Form.ofExt 0xB3 e) (fun c => c.quiet = true)
    (fun c => (c.put (c.s.writeBack c.core fun l => l.pkg && decide (scopeRank l.sc < scopeRank .grid)) fun _ => c.c.phase.setWidth 64).modCrew
      c.r.crew fun k => { k with phase := k.phase + 1 }) (fun _ => none) Ctx.grow) ∧
  (∀ e : Ext, Does (.phwait e) (Form.ofExt 0xB4 e)
    (fun c => (loWord (c.again.a c.low)).toNat < c.g.dieRec.vphys.length ∧
      c.s.phaseReached c.g (loWord (c.again.a c.low)).toNat (loWord (c.again.b c.low)) = true)
    (fun c => c.s.acquire c.core .grid) (fun _ => none) (fun _ => 0)) ∧
  (∀ (g : Grid) (s : State) (v : Nat) (b : Word), s.phasesOn g v ≠ [] →
    (s.phaseReached g v b = true ↔ 0 ≤ (nthWord g.counters v - b).toInt)) ∧
  (∀ (e : Ext) (s : State) (c : Ctx), Runs s (Form.ofExt 0xB4 e) c → c.g.dieRec.vphys.length ≤ (loWord (c.again.a c.low)).toNat →
    exec (.phwait e) s = .next (c.trap .illegalOperand 0 c.low c.s))

/-- (R258, R259, R267, R269): LAUNCH and LAUNCH.try read their record after a release at .sys; a good one is pushed with the crew's priority,
phase, context and partition; without room LAUNCH.try gives 0 and LAUNCH waits with the record and the priority of its issue, and pushes
once there is room; a bad one traps.
Completes: launch, launchTry.
Choices of the model: log entries 7, 13. -/
def Obligations.Launches : Prop :=
  let reads (c : Ctx) (s' : State) (ks : List (Nat × Xlate)) (x : State) (b : List Byte) : Prop :=
    let a := c.again
    (∀ r p, c.parkedOn ≠ some (.launch r p)) ∧ a.ea c.low % 64 = 0 ∧ c.quiet = true ∧ a.translated .read [c.low] s' [(c.low, ks)] ∧
      x = a.fillLines (s'.release c.core .sys) (a.bytes c.low) ks ∧ b = ks.map (fun k => (x.l1Byte c.core k.1).1) ∧
        ∀ k ∈ ks, (x.l1Byte c.core k.1).2 = false
  let pushed (c : Ctx) (t : State) (r : LaunchRec) (prio : BitVec 2) (since : DWord) : Prop :=
    ∃ k, t.crew? c.r.crew = some k ∧ k.pending = c.c.pending ++
      [{ record := r, prio := prio, phase := c.g.phase, ctx := c.g.ctx, part := c.g.part, queue := c.g.queue, since := since }]
  (∀ (e : Ext) (s : State) (c : Ctx) (s' : State) (ks : List (Nat × Xlate)) (x : State) (b : List Byte), Runs s (Form.ofExt 0xB5 e) c →
    reads c s' ks x b → recordOk b = true → c.c.pending.length < pendingRoom →
    ∃ t, exec (.launch e) s = .next t ∧ pushed c t (recordOf b) c.c.prio x.cycle) ∧
  (∀ (e : Ext) (s : State) (c : Ctx) (s' : State) (ks : List (Nat × Xlate)) (x : State) (b : List Byte), Runs s (Form.ofExt 0xB6 e) c →
    reads c s' ks x b → recordOk b = true → c.c.pending.length < pendingRoom →
    ∃ (t : State) (u : Strand), exec (.launchTry e) s = .next t ∧ pushed c t (recordOf b) c.c.prio x.cycle ∧ t.strand? c.r = some u ∧
      Wrote e.d (Form.ofExt 0xB6 e).dstWide c.act (fun _ => 1) u) ∧
  (∀ (e : Ext) (s : State) (c : Ctx) (s' : State) (ks : List (Nat × Xlate)) (x : State) (b : List Byte), Runs s (Form.ofExt 0xB6 e) c →
    reads c s' ks x b → recordOk b = true → pendingRoom ≤ c.c.pending.length →
    exec (.launchTry e) s = .next (c.leave (c.put x fun _ => 0) 0 id none (c.beats + c.grow))) ∧
  (∀ (e : Ext) (s : State) (c : Ctx) (s' : State) (ks : List (Nat × Xlate)) (x : State) (b : List Byte), Runs s (Form.ofExt 0xB5 e) c →
    reads c s' ks x b → recordOk b = true → pendingRoom ≤ c.c.pending.length →
    exec (.launch e) s = .next (c.waitFor x (.launch (recordOf b) c.c.prio))) ∧
  (∀ (e : Ext) (s : State) (c : Ctx) (r : LaunchRec) (p : BitVec 2), Runs s (Form.ofExt 0xB5 e) c → c.parkedOn = some (.launch r p) →
    (c.c.pending.length < pendingRoom → ∃ t, exec (.launch e) s = .next t ∧ pushed c t r p c.s.cycle) ∧
      (pendingRoom ≤ c.c.pending.length → exec (.launch e) s = .next (c.waitFor c.s (.launch r p)))) ∧
  (∀ (e : Ext) (s : State) (c : Ctx) (s' : State) (ks : List (Nat × Xlate)) (x : State) (b : List Byte), Runs s (Form.ofExt 0xB5 e) c →
    reads c s' ks x b → recordOk b = false → exec (.launch e) s = .next (c.trap .launchBad (c.again.va c.low) c.low x)) ∧
  ∀ (e : Ext) (s : State) (c : Ctx), Runs s (Form.ofExt 0xB5 e) c → (∀ r p, c.parkedOn ≠ some (.launch r p)) →
    c.again.ea c.low % 64 ≠ 0 → exec (.launch e) s = .next (c.trap .misalign (c.again.va c.low) c.low c.s)

/-- (R137, R142, R143, R144, R147): HPUT publishes in each active lane its value, as the item's next generation of the slot, and counts that
generation; with a scope it releases first. HSEAL seals the slot of its lanes. HPUT traps with CHAIN_OFF in a launch that is not
chained and with CHAIN_MODE on a sealed slot, HSEAL with CHAIN_MODE on a slot without a mode.
Completes: hput, hseal.
Choices of the model: log entry 85. -/
def Obligations.HandOffs : Prop :=
  (∀ (e : Ext) (s : State) (c : Ctx) (t' : State), Runs s (Form.ofExt 0x60 e) c → c.g.record.chained = true → c.g.mode c.slot ≠ 0 →
    c.sealedLane = none → (e.scope = .none ∨ c.quiet = true) →
    let from1 := if e.scope = .none then c.s else c.s.release c.core e.scope
    (lanesOf c.act).foldl c.publishLane (from1, 0) = (t', 0) →
    ∃ (t : State) (u : Strand) (g : Grid), exec (.hput e) s = .next t ∧ t.strand? c.r = some u ∧ SameRegs u c.t ∧
      t.grid? c.g.id = some g ∧
      (∀ l, l < 32 → SMap.look 0 u.gen (32 * c.slot + l) = SMap.look 0 c.t.gen (32 * c.slot + l) + if hasLane c.act l then 1 else 0) ∧
      (∀ l, hasLane c.act l = true → ∃ p ∈ g.chain.pubs, p.item = c.item l ∧ p.slot = c.slot ∧
        p.gen = (SMap.look 0 c.t.gen (32 * c.slot + l)).toNat ∧ p.value = c.toPublish l ∧ p.scope = e.scope ∧ p.delivered = false) ∧
      ∀ key, t.memByte key = from1.memByte key) ∧
  (∀ (c : Ctx) (l : Nat), (∀ p ∈ c.t.splits, p.pend = []) → c.toPublish l = loWord (c.a l)) ∧
  (∀ (e : Ext) (s : State) (c : Ctx), Runs s (Form.ofExt 0x61 e) c → c.g.record.chained = true → c.g.mode c.slot ≠ 0 →
    ∃ (t : State) (u : Strand), exec (.hseal e) s = .next t ∧ t.strand? c.r = some u ∧ SameRegs u c.t ∧
      SMap.look 0 u.sealedBy c.slot = SMap.look 0 c.t.sealedBy c.slot ||| c.act) ∧
  (∀ (e : Ext) (s : State) (c : Ctx), Runs s (Form.ofExt 0x60 e) c → c.g.record.chained = false →
    exec (.hput e) s = .next (c.trap .chainOff 0 c.low c.s)) ∧
  (∀ (e : Ext) (s : State) (c : Ctx), Runs s (Form.ofExt 0x61 e) c → c.g.record.chained = true → c.g.mode c.slot = 0 →
    exec (.hseal e) s = .next (c.trap .chainMode 0 c.low c.s)) ∧
  ∀ (e : Ext) (s : State) (c : Ctx) (l : Nat), Runs s (Form.ofExt 0x60 e) c → c.g.record.chained = true → c.g.mode c.slot ≠ 0 →
    c.sealedLane = some l → exec (.hput e) s = .next (c.trap .chainMode 0 l c.s)

/-! ## The order of an issue, a step, and reset -/

/-- (R49, R50, R106, R137, R140, R274): what stands before an instruction's effect: a deferred trap is taken first; an instruction that the
scoreboard holds stalls; a static check traps whatever the guard; with no active lane it passes without an effect; a chain check
traps; a split whose lanes all wait for a hand-off value is held.
Choices of the model: log entries 7, 37, 40, 92. -/
def Obligations.IssueOrder : Prop :=
  ∀ (f : Form) (body : Ctx → Eff) (s : State) (c : Ctx), s.ctxOf f = some c →
    (∀ (d : Deferred) (l : List Deferred), c.t.deferred = d :: l → c.t.busy = false →
      issue f body s = .next ((c.s.tick 1).takeDeferred c.r d)) ∧
    (c.t.deferred = [] → c.held = true → issue f body s = .next (c.stall .retry)) ∧
    (c.t.deferred = [] → c.held = false → ∀ t, c.decodeTrap = some t →
      issue f body s = .next (c.trap t 0 (lowest (if c.act = 0 then c.iss.mask else c.act)) c.s)) ∧
    (c.t.deferred = [] → c.held = false → c.decodeTrap = none → c.act = 0 → actsEmpty f.op = false →
      issue f body s = .next (c.leave c.s 0 id none c.beats)) ∧
    (c.t.deferred = [] → c.held = false → c.decodeTrap = none → c.act ≠ 0 → ∀ t, c.chainTrap = some t →
      issue f body s = .next (c.trap t 0 c.low c.s)) ∧
    (c.t.deferred = [] → c.held = false → c.decodeTrap = none → c.act ≠ 0 → c.chainTrap = none → (∀ l ∈ lanesOf c.act, c.waitsHand l = true) →
      (∀ t a l s', body c ≠ .trap t a l s') → (∀ s' w, body c ≠ .stay s' w) →
      ∃ h : Path → Path, (∀ p, (h p).held = .handOff ∧ (h p).pc = p.pc ∧ (h p).mask = p.mask) ∧
        issue f body s = .next (c.leave c.s c.act h none 1)) ∧
    (c.free = true → issue f body s = .next (c.acquireHands.settle 0 (body c.acquireHands)))

/-- (R22, R265, R280, R400): where the split that has the turn can issue and its words are there, the step is `exec` of the instruction that they
decode to, in the state that names it as the one that issues, the other splits at its program counter having joined it; an entry to
re-inject issues as it was captured; an event of the agenda acts as it stands; an agenda without a turn takes what can happen of
itself, then the split that is selected, and else a cycle passes (the model's choice, log entry 1).
Choices of the model: log entries 1, 92. -/
def Obligations.StepRuns : Prop :=
  -- every split has looked whether it is ready, and every crew whether it can leave or come
  let looked (s : State) : State := s.look exec
  -- the split has the turn: where it goes, what has yielded there can be selected again
  let given (s : State) (r : SplitRef) : State := if (looked s).goes exec r then (looked s).unyield r else looked s
  (∀ (s : State) (r : SplitRef) (rest : List Turn) (g : Grid) (c : Crew) (t u v : Strand) (p q : Path) (w : Nat),
    s.agenda = .issue r :: rest → let s0 := given { s with agenda := rest } r
    s0.grid? r.strand.crew.grid = some g → s0.crew? r.strand.crew = some c → s0.strand? r.strand = some t → s0.canIssue c t = true →
    t.deferred = [] → t.reinject = [] → let s1 := (s0.settleStack r.strand).swapHeld r.strand
    s1.strand? r.strand = some u → u.splitOf? r.lane = some p → s1.splitReady g r.strand u p = true → u.stalledBut p = false →
    let s2 := s1.modStrand r.strand fun t => t.mergeInto r.lane (s1.pathReady r.strand)
    s2.strand? r.strand = some v → v.splitOf? r.lane = some q → s2.waitOver g v q = true → q.entry = none →
    (s2.fetch g c q.pc).2 = .words w →
    step s = exec (decodeNat w)
      { (s2.fetch g c q.pc).1 with
        cur := some { strand := r.strand, mask := q.mask, pc := q.pc, instr := decodeNat w, replay := none, queued := false } }) ∧
  (∀ (s : State) (r : SplitRef) (rest : List Turn) (g : Grid) (c : Crew) (t : Strand) (e : ReplayEntry) (es : List ReplayEntry),
    s.agenda = .issue r :: rest → let s0 := given { s with agenda := rest } r
    s0.grid? r.strand.crew.grid = some g → s0.crew? r.strand.crew = some c → s0.strand? r.strand = some t → s0.canIssue c t = true →
    t.deferred = [] → t.reinject = e :: es →
    step s = exec e.instr
      { s0 with cur := some { strand := r.strand, mask := e.mask, pc := e.pc, instr := e.instr, replay := some e, queued := true } }) ∧
  (∀ (s : State) (i : Instr) (rest : List Turn), s.agenda = .event i :: rest → encode i = none →
    step s = exec i { s with agenda := rest }) ∧
  (∀ (s : State) (n : Nat) (rest : List Turn), s.agenda = .pass n :: rest →
    step s = .next ((looked { s with agenda := rest }).tick n)) ∧
  (∀ (s : State) (a : Act) (i : Instr), s.agenda = [] → s.happening = some a → a.names i → step s = exec i s) ∧
  (∀ (s : State) (r : SplitRef), s.agenda = [] → s.happening = none → (looked s).nextSplit ((looked s).goes exec) = some r →
    step s = step { s with agenda := [.issue r] }) ∧
  ∀ s : State, s.agenda = [] → s.happening = none → (looked s).nextSplit ((looked s).goes exec) = none →
    step s = .next ((looked s).tick 1)

/-- (R253, R296, R310, R311): after a cold start no launch, crew, queue, context or partition exists, the cycle counter is 0, and the core
clock is at 700 MHz; segment 0 holds the report, with the HomeTable and the PcMaps of the identity. That every die and core is live, that
the rest of memory reads 0, and the other values, are the model's (log entries 2, 4).
Choices of the model: log entries 2, 4. -/
def Obligations.ResetFacts : Prop :=
  State.reset.grids = [] ∧ State.reset.crews = [] ∧ State.reset.queues = [] ∧ State.reset.faults = [] ∧ State.reset.cycle = 0 ∧
    (∀ n, State.reset.part? n = none ∧ State.reset.ctx? n = none ∧ State.reset.queue? n = none) ∧ State.reset.mbBusy = false ∧
    State.reset.mem = [] ∧ Memory.wf State.reset.mem = true ∧ (∀ key, State.reset.memByte key = resetByte key) ∧
    (∀ key, 2097152 ≤ key → State.reset.memByte key = 0) ∧ (∀ k, k < 64 → State.reset.memByte (0x40 + k) = BitVec.ofNat 8 (k % 9)) ∧
    (∀ q n, q < 72 → n < 2048 → State.reset.memByte (0x140000 + 4096 * q + 2 * n) = BitVec.ofNat 8 (n / 32)) ∧
    State.reset.mhz = 700 ∧ (∀ k ∈ State.reset.cores, k.l1 = [] ∧ k.icache = [] ∧ k.tlb = [] ∧ k.outbox = [] ∧ k.tileQ = [])

/-- The listing of memory keeps its one form (addresses rise, no entry equals what an unlisted address reads as): every step keeps it.
Choices of the model: log entry 2. -/
def Obligations.MemoryFormKept : Prop :=
  ∀ s t : State, Memory.wf s.mem = true → step s = .next t → Memory.wf t.mem = true

/-! ## Starts, BAR0, and the mailbox -/

/-- (R11, R122, R300, R309, R310, R312, R313, R314): a cold start discards everything and sets the cycle counter to 0; a warm one keeps the counter, the
near map, the clock and memory but for what an L2 line held dirty; until it ends, in a turn of its own, the mailbox is busy; its end sets the
steering tables, a warm one by the stored records that keep R122; the dies that it finds failing retire with their cores; with a bad mesh the device is dead; without an image that verifies it
is in recovery, which IMAGE_LOAD of one that verifies ends. The black box reaches the report once a millisecond has passed; the
clock moves by 50 MHz.
Completes: coldStart, warmStart, imageLoad, blackboxCopy, throttleChange.
Choices of the model: log entries 6, 18, 19, 33, 89, 94. -/
def Obligations.Starts : Prop :=
  -- a start has begun: all is discarded, and the mailbox is busy until its end, which is due after what the agenda holds; a start
  -- that it interrupts has no end
  let begun (s : State) (cold : Bool) (r : StartReport) (t : State) : Prop := t.starting = some (cold, r) ∧ t.mbBusy = true ∧
    t.agenda = s.agendaOn ++ [.event (if cold then .coldStart r else .warmStart r)] ∧
    t.crews = [] ∧ t.grids = [] ∧ t.queues = [] ∧ t.faults = [] ∧ (∀ n, t.part? n = none ∧ t.ctx? n = none) ∧
    (∀ k ∈ t.cores, k.l1 = [] ∧ k.icache = [] ∧ k.tlb = [] ∧ k.outbox = [] ∧ k.tileQ = []) ∧ t.image = s.image ∧
    t.port = (if r.cxl then .cxl else .pcie) ∧ t.repSeq = (if s.repSeq = BitVec.allOnes 32 then s.repSeq else s.repSeq + 1) ∧
    t.dead = false ∧ t.recovery = false ∧ ∀ d x, s.die? d = some x → ∃ y, t.die? d = some y ∧ y.live = (x.live && !(r.dies.contains d))
  -- and has ended: the steering tables stand, and firmware runs, or the device is in recovery, or dead
  let booted (s : State) (r : StartReport) (t : State) (f : Nat → Cluster) : Prop := t.starting = none ∧ t.mbBusy = false ∧
    t.crews = s.crews ∧ t.grids = s.grids ∧ t.queues = s.queues ∧ t.cycle = s.cycle ∧ t.agenda = s.agenda ∧
    t.dead = (s.dead || !r.meshOk) ∧ t.recovery = (s.recovery || (r.meshOk && !(Config.imageOk s.image))) ∧
    (r.meshOk = true → (∀ n k, t.core? (n / 4) = some k → k.clusters[n % 4]? = some (f n)) ∧
      ∀ n k d, t.core? n = some k → t.die? (dieOf n) = some d → d.live = false → k.retired = true) ∧
    (r.meshOk = false → t.dies = s.dies ∧ t.mem = s.mem) ∧
    ((∀ d x, s.die? d = some x → x.log.length ≤ 4096) → ∀ key, 2097152 ≤ key → t.memByte key = s.memByte key)
  (∀ (r : StartReport) (s : State), s.starting ≠ some (true, r) →
    ∃ t, exec (.coldStart r) s = .next t ∧ begun s true r t ∧ t.warm = false ∧ t.cycle = 0 ∧ t.nearMap = [] ∧ t.mhz = 700) ∧
  (∀ (r : StartReport) (s : State), s.starting = some (true, r) → ∃ t, exec (.coldStart r) s = .next t ∧ booted s r t (startCluster r)) ∧
  (∀ (r : StartReport) (s : State), s.starting ≠ some (false, r) →
    ∃ t, exec (.warmStart r) s = .next t ∧ begun s false r t ∧ t.warm = true ∧ t.cycle = s.cycle ∧ t.nearMap = s.nearMap ∧ t.mhz = s.mhz ∧
      t.dies.map (·.log) = s.dies.map (·.log) ∧
      ∀ key, (∀ d ∈ s.dies, ∀ l ∈ d.l2, key / 128 = l.line → s.memLine l.line = l.filled) → t.memByte key = s.memByte key) ∧
  (∀ (r : StartReport) (s : State), s.starting = some (false, r) →
    ∃ t, exec (.warmStart r) s = .next t ∧ booted s r t (fun n => (s.storedCluster n).getD (startCluster r n))) ∧
  (∀ (c : Cluster), clusterOf? (steeringRecord c) = some c) ∧
  (∀ s : State, s.mbBusy = true → s.starting = none → s.recovery = true → s.mbCode = 0x80 → nthWord s.mbw 0 >>> 8 = 0 →
    (∀ i, s.stagedImage (s.arg64 1) (s.arg 3) = some i → Config.imageOk i = true →
      exec .imageLoad s = .next { s with
        mbBusy := false, mbResult := 0, image := i, agenda := .event (.coldStart s.ownReport) :: s.agenda }) ∧
      ((∀ i, s.stagedImage (s.arg64 1) (s.arg 3) = some i → Config.imageOk i = false) →
        exec .imageLoad s = .next { s with mbBusy := false, mbResult := 1 })) ∧
  (∀ s : State, s.copyDue = true → (∀ d x, s.die? d = some x → x.log.length ≤ 4096) →
    ∃ t, exec .blackboxCopy s = .next t ∧ t.dies = s.dies ∧ t.crews = s.crews ∧ t.boxCopied = s.refTime ∧
      ∀ d x k, d < 9 → s.die? d = some x → k < 32 * x.log.length → t.memByte (0x20000 + 131072 * d + k) = (x.log.flatMap boxBytes).getD k 0) ∧
  (∀ s : State, s.copyDue = false → exec .blackboxCopy s = .next s) ∧
  (∀ s : State, s.dead = false → s.recovery = false → (s.copyDue = true ↔ s.boxCopied + 1000 ≤ s.refTime)) ∧
  ∀ (up : Bool) (s : State), s.dead = false → s.recovery = false → (∀ x, s.lastStep = some x → x + 1000 ≤ s.refTime) →
    let new := if up then s.mhz + 50 else s.mhz - 50
    350 ≤ new → new ≤ 700 →
    ∃ t, exec (.throttleChange up) s = .next t ∧ t.mhz = new ∧ t.lastStep = some s.refTime ∧ t.crews = s.crews ∧ t.cycle = s.cycle ∧
      ∀ d x, d < 9 → s.die? d = some x → x.live = true →
        ∃ y, t.die? d = some y ∧ y.logSeq = x.logSeq + 1 ∧ ∃ b, y.log.getLast? = some b ∧ b.kind = 9 ∧ b.cycle = s.cycle

/-- (R301, R302, R303): a mailbox word takes what is written; MBDOOR submits the command; while one is BUSY both are ignored; a write at
0x100000 + 8q is the doorbell of queue q. A command with a bit of MBW0[31:8] set is REJECTED; an unassigned code is UNKNOWN.
Completes: registerWrite, mailboxUnknown.
Choices of the model: log entries 28, 87. -/
def Obligations.MailboxProtocol : Prop :=
  (∀ (n : Nat) (v : Word) (s : State), n < 16 → s.mbw.length = 16 → s.dead = false → s.mbBusy = false →
    ∃ t, exec (.registerWrite (0x1000 + 4 * n) v) s = .next t ∧ t = { s with mbw := t.mbw } ∧ nthWord t.mbw n = v ∧
      ∀ m, m ≠ n → nthWord t.mbw m = nthWord s.mbw m) ∧
  (∀ (v : Word) (s : State), s.dead = false → s.mbBusy = false →
    ∃ t i, exec (.registerWrite 0x1040 v) s = .next t ∧ t = { s with mbBusy := true, agenda := .event i :: s.agenda } ∧
      i = commandOf s.recovery ((nthWord s.mbw 0).toNat % 256)) ∧
  (∀ (q : Nat) (v : Word) (s : State), q < 65536 → exec (.registerWrite (0x100000 + 8 * q) v) s = exec (.doorbell q v) s) ∧
  (∀ (off : Nat) (v : Word) (s : State), s.dead = true ∨ s.mbBusy = true ∧ off < 0x100000 →
    exec (.registerWrite off v) s = .next s) ∧
  (∀ (s : State) (code : Nat) (i : Instr), s.mbBusy = true → s.starting = none → s.mbWait = none → s.recovery = false → s.mbCode = code →
    nthWord s.mbw 0 >>> 8 ≠ 0 → i = commandOf false code → ∃ t, exec i s = .next t ∧ t = { s with mbBusy := false, mbResult := 1 }) ∧
  ∀ s : State, s.mbBusy = true → s.starting = none → s.mbWait = none → s.recovery = false → s.mbCode = 0 ∨ 8 < s.mbCode → nthWord s.mbw 0 >>> 8 = 0 →
    ∃ t, exec .mailboxUnknown s = .next t ∧ t = { s with mbBusy := false, mbResult := 3 }

/-- (R225, R271, R285, R286, R293, R303, R305, R308): what each command does where its operands are good. FAULT_RESP settles a posted fault:
resolved, the parties that it parked go on; unresolvable, an access becomes a deferred FAULT_UNRESOLVED, a copy ends with CODE 1
and the address, and a queue whose packet could not be read stops.
Completes: partSet, ctxSet, queueCreate, queueDestroy, nearSet, faultResp, tlbInval, ctxSuspend.
Choices of the model: log entries 28, 29, 30, 31, 32. -/
def Obligations.MailboxCommands : Prop :=
  (∀ (s : State) (b : List Byte) (peers : List (BitVec 12)), s.asked 1 → s.arg 1 < 16 → s.partitions.length = 16 →
    s.physRead (s.arg64 2) 128 = some b → partOk b = true → s.peersOf b = some peers →
    let p := partitionOf (s.arg64 2) b peers (match s.part? (s.arg 1) with | some o => o.nextFault | none => 0)
    s.coresTaken (s.arg 1) p = false → (s.queues.any fun q => decide (q.part = s.arg 1) && s.queueLives q) = false →
    ∃ t, exec .partSet s = .next t ∧ t.part? (s.arg 1) = some p ∧ (∀ n, n ≠ s.arg 1 → t.part? n = s.part? n) ∧ t.mbBusy = false ∧
      t.mbResult = 0 ∧ t = { s with partitions := t.partitions, mbBusy := false, mbResult := 0 }) ∧
  (∀ (s : State) (b : List Byte) (p : Partition) (d : DieRec), s.asked 2 → s.arg 1 < 64 → s.contexts.length = 64 →
    s.physRead (s.arg64 2) 64 = some b → ctxOk b = true → field b 0x21 1 % 2 = 1 → s.part? (field b 0x20 1 % 16) = some p →
    (if field b 8 8 = 0 then s.builtDies p else (s.physRead (field b 8 8) 48).bind (s.diesOf p)) = some d →
    ∃ t x, exec .ctxSet s = .next t ∧ t.ctx? (s.arg 1) = some x ∧ x.root = BitVec.ofNat 64 (field b 0 8) ∧ x.dieRec = d ∧
      x.saveArea = BitVec.ofNat 64 (field b 0x10 8) ∧ x.saveSize = BitVec.ofNat 64 (field b 0x18 8) ∧ x.part = field b 0x20 1 % 16 ∧
      (∀ n, n ≠ s.arg 1 → t.ctx? n = s.ctx? n) ∧ t = { s with contexts := t.contexts, mbBusy := false, mbResult := 0 }) ∧
  (∀ (s : State) (b : List Byte), s.asked 2 → s.arg 1 < 64 → s.physRead (s.arg64 2) 64 = some b → ctxOk b = true →
    field b 0x21 1 % 2 = 0 → (s.queues.any fun q => decide (q.ctx = s.arg 1) && s.queueLives q) = false →
    ∃ t, exec .ctxSet s = .next t ∧ t.ctx? (s.arg 1) = none ∧ (∀ k ∈ t.cores, ∀ e ∈ k.tlb, e.ctx ≠ s.arg 1) ∧ t.mbBusy = false ∧
      t.mbResult = 0) ∧
  (∀ (s : State) (b : List Byte) (c : Context), s.asked 3 → s.arg 1 < 65536 → s.physRead (s.arg64 2) 64 = some b → descOk b = true →
    s.queue? (s.arg 1) = none → let q := queueOf (s.arg 1) (s.arg64 2) b
    s.ctx? q.ctx = some c → c.failed = false → c.part = q.part → (s.part? c.part).isSome = true →
    ∃ t, exec .queueCreate s = .next t ∧ t.queue? (s.arg 1) = some q ∧ (∀ n, n ≠ s.arg 1 → t.queue? n = s.queue? n) ∧
      t.mbBusy = false ∧ t.mbResult = 0) ∧
  (∀ (s : State) (q : Queue), s.asked 4 → s.queue? (s.arg 1) = some q → s.arg 2 ≤ 1 → q.destroy = .none →
    let d := s.destroyQueue (decide (s.arg 2 = 1)) q
    (d.gridsLeft q.id = false → exec .queueDestroy s = .next { d with mbWait := none, mbBusy := false, mbResult := 0 }) ∧
    (d.gridsLeft q.id = true → exec .queueDestroy s = .next { d with mbWait := some q.id })) ∧
  (∀ s : State, s.asked 5 → s.arg 1 ≤ 411983 → s.arg 2 ≤ 1 →
    (s.segMapped (s.arg 1) = true → exec .nearSet s = .next (s.answer .inUse)) ∧
    (s.segMapped (s.arg 1) = false → s.nearMap.contains (s.arg 1) = decide (s.arg 2 = 1) → exec .nearSet s = .next (s.answer .ok)) ∧
    (s.segMapped (s.arg 1) = false → s.nearMap.contains (s.arg 1) = !(decide (s.arg 2 = 1)) →
      ∃ t, exec .nearSet s = .next t ∧ t.nearMap.contains (s.arg 1) = decide (s.arg 2 = 1) ∧
        (∀ n, n ≠ s.arg 1 → t.nearMap.contains n = s.nearMap.contains n) ∧ t.mbBusy = false ∧ t.mbResult = 0 ∧
        ∀ key, segOf key ≠ s.arg 1 → t.memByte key = s.memByte key)) ∧
  (∀ s : State, s.asked 6 → s.arg 1 ≤ 15 → s.arg 3 ≤ 1 →
    let posted := s.faults.find? fun f => f.part = s.arg 1 && f.id.toNat = s.arg 2 && !f.kind && f.written
    (posted = none → exec .faultResp s = .next (s.answer .ok)) ∧
    ∀ f, posted = some f → exec .faultResp s = .next ((s.settleFault f (decide (s.arg 3 = 0))).answer .ok)) ∧
  (∀ (s : State) (f : Fault32), s.queues = [] →
    let t := s.settleFault f true
    t.faults = s.faults.filter (fun g => !(decide (g.part = f.part) && decide (g.id = f.id) && !g.kind)) ∧
      t = { s with faults := t.faults, crews := t.crews } ∧
      ∀ c ∈ t.crews, ∀ g, s.grid? c.grid = some g → g.part = f.part →
        (∀ x ∈ c.tags, ∀ o, x.op = some o → o.parked ≠ some f.id.toNat) ∧ ∀ x ∈ c.follows, x.parked ≠ some f.id.toNat) ∧
  (∀ (s : State) (c : Crew) (t : Strand) (x : InFlight) (k : Ctx) (id : Nat) (va : DWord),
    let r : StrandRef := { crew := c.ref, strand := t.idx }
    s.strand? r = some t → t.isOver = false → t.inflight = [x] → x.state = .parked id → s.ctxOfFlight r x = some k →
    (∀ p ∈ t.splits, p.wait ≠ .fetch id ∧ p.wait ≠ .xlate id) → (∀ e ∈ t.reinject, e.parked ≠ some id) →
    ∃ u d, (s.unresolveStrand c t id va).strand? r = some u ∧ u.inflight = [] ∧ u.deferred = t.deferred ++ [d] ∧ SameRegs u t ∧
      d.trap = .faultUnresolved ∧ d.addr = va ∧ d.mask = k.act ∧ d.entry = some (k.entry k.act true)) ∧
  (∀ (s : State) (r : CrewRef) (n : Nat) (x : TagCtx) (addr : DWord), s.tagCtx? r n = some x → x.c.ref = r → x.c.over = false →
    ∃ k, (s.endUnresolved x n addr).crew? r = some k ∧ (k.tag n).state = .done ∧ (k.tag n).code = 1 ∧ (k.tag n).errPend = true ∧
      (k.tag n).addr = addr ∧ (k.tag n).op = none) ∧
  (∀ (s : State) (q : Queue) (id : Nat), s.queue? q.id = some q → q.destroy = .none → q.parked = some (id, .reading none) →
    (firstSettled q.packets = none → (s.settleQueue true q).queue? q.id = some { q with parked := none }) ∧
      ∃ u, (s.settleQueue false q).queue? q.id = some u ∧ u.stopped = true) ∧
  (∀ s : State, s.asked 7 → s.arg 1 ≤ 63 → let t := s.dropTlb (s.arg 1) (decide (s.arg 4 = 0)) (s.arg64 2) (s.arg64 2 + s.arg 4)
    let away (e : TlbEntry) : Prop := e.ctx = s.arg 1 → s.arg 4 ≠ 0 ∧
      ((e.page + e.x.pages) * 65536 ≤ s.arg64 2 ∨ s.arg64 2 + s.arg 4 ≤ e.page * 65536)
    (∀ k ∈ t.cores, ∀ e ∈ k.tlb, away e) ∧ (∀ d ∈ t.dies, ∀ e ∈ d.tlb, away e) ∧
    (t.usesOld (s.arg 1) (decide (s.arg 4 = 0)) (s.arg64 2) (s.arg64 2 + s.arg 4) = false → exec .tlbInval s = .next (t.answer .ok)) ∧
    (t.usesOld (s.arg 1) (decide (s.arg 4 = 0)) (s.arg64 2) (s.arg64 2 + s.arg 4) = true → exec .tlbInval s = .next t)) ∧
  ∀ (s : State) (x : Context), s.asked 8 → s.ctx? (s.arg 1) = some x →
    (s.arg 2 = 0 → s.allFit (s.arg 1) x = true → exec .ctxSuspend s = .next ((s.suspend (s.arg 1)).answer .ok)) ∧
    (s.arg 2 = 1 → ∃ t, exec .ctxSuspend s = .next t ∧ t.ctx? (s.arg 1) = some { x with suspended := false } ∧
      (∀ n, n ≠ s.arg 1 → t.ctx? n = s.ctx? n) ∧
      t = { s with contexts := t.contexts, grids := t.grids, crews := t.crews, mbBusy := false, mbResult := 0 } ∧
      (x.suspended = false → t.crews = s.crews ∧ t.grids = s.grids) ∧
      -- its crews wait from now on (R264)
      (x.suspended = true → t.grids = s.grids.map (fun g => if g.ctx = s.arg 1 then { g with offered := s.cycle } else g) ∧
        t.crews = s.crews.map fun c =>
          if (c.state = .swapped ∨ c.state = .preempted) ∧ ∃ g, s.grid? c.grid = some g ∧ g.ctx = s.arg 1 then { c with since := s.cycle } else c))

/-! ## Queues, launches, crews -/

/-- (R254, R255, R256, R257, R259, R263, R264, R302): a doorbell makes the front end read WPTR; the next packet is read in its turn, RPTR being
written into the descriptor, and starts unless it must wait; a GRID makes a launch of its record; a SIGNAL writes; a BARRIER_AND
completes when its words have reached their thresholds; a bad packet stops the queue; a settled packet's record is written.
Completes: doorbell, grid, graph, signal, barrierAnd, barrierAndComplete, badpacket, packetStart.
Choices of the model: log entries 3, 20, 21, 22, 24, 25, 26, 27, 28, 73. -/
def Obligations.QueuesAndPackets : Prop :=
  -- the queue once it has taken its packet
  let took (s : State) (q : Queue) (p : Packet) : Queue := { q with rptr := q.rptr + 1, packets := q.packets ++ [p], readable := s.cycle }
  (∀ (s : State) (n : Nat) (v : Word) (q : Queue) (p : Partition), s.queue? n = some q → s.dead = false → s.halted = false →
    q.stopped = false → q.destroy = .none → s.part? q.part = some p → p.stopped = false →
    let key := q.desc.toNat + 0x18
    (s.poisoned (key / 128) = true → exec (.doorbell n v) s = .next (s.modQueue n fun q => { q with rungMet := some s.cycle }) ∧
      ∀ now, now ≠ s.cycle →
        ({ q with rungMet := some s.cycle } : Queue).bellError now = some { line := key / 128, dirtyOf := none, firmware := none }) ∧
    (s.poisoned (key / 128) = false → ∃ t u, exec (.doorbell n v) s = .next t ∧ t.queue? n = some u ∧
      u.wptr = BitVec.ofNat 32 (s.readNat key 4) ∧ u = { q with wptr := u.wptr, rung := u.rung, readable := u.readable } ∧
      (q.canRead = true → u.readable = q.readable) ∧ (q.canRead = false → u.readable = s.cycle) ∧ t.agenda = s.agenda)) ∧
  (∀ (s : State) (n : Nat) (q : Queue) (p : Packet), s.queue? n = some q → q.desc.toNat + 0x18 < 2 ^ 64 →
    (s.pushPacket n p).queue? n = some (took s q p) ∧ (s.pushPacket n p).readNat (q.desc.toNat + 0x14) 4 = (q.rptr + 1).toNat ∧
      ∀ key, key < q.desc.toNat + 0x14 ∨ q.desc.toNat + 0x18 ≤ key → (s.pushPacket n p).memByte key = s.memByte key) ∧
  (∀ (s : State) (n : Nat) (q : Queue) (b : List Byte), s.takes n q b 1 → let p := packetOf q.rptr b s.cycle
    (∀ x ∈ q.packets, x.idx ≠ q.rptr) → let q1 := took s q p
    (q1.holds p = true → exec (.grid n) s = .next (s.pushPacket n p)) ∧
    ∀ r, q1.holds p = false → p.phase = q.phase → (s.pushPacket n p).frontRead q.ctx p.addr.toNat 64 = .ok r →
      ∃ t g, exec (.grid n) s = .next t ∧ t.grids = s.grids ++ [g] ∧ g.record = recordOf r ∧ g.queue = n ∧ g.ctx = q.ctx ∧ g.prio = q.prio ∧
        g.state = (if recordOk r then .waiting else .bad) ∧
        t.queue? n = some { q1 with packets := q.packets ++ [{ p with state := .started, userTag := (recordOf r).userTag }] }) ∧
  (∀ (s : State) (n : Nat) (q : Queue) (b : List Byte), s.takes n q b 4 → let p := packetOf q.rptr b s.cycle
    (∀ x ∈ q.packets, x.idx ≠ q.rptr ∧ x.kind ≠ 3) → let q1 := took s q p
    q1.holds p = false → p.phase = q.phase →
      ∃ t, exec (.barrierAnd n) s = .next t ∧ t.queue? n = some { q1 with packets := q.packets ++ [{ p with state := .started }] }) ∧
  (∀ (s s' : State) (n : Nat) (q : Queue) (b : List Byte) (gr : Graph) (preds : List Nat), s.takes n q b 2 →
    ((s.queue? n).bind Queue.graphDue) = none → let p := packetOf q.rptr b s.cycle
    let s1 := s.pushPacket n p
    (took s q p).holds p = false → p.phase = q.phase → p.graph = some gr → s1.predsOf q.ctx gr (List.range gr.nnodes) = .ok preds →
    s1.frontPut q.ctx .write false gr.counters.toNat (2 * gr.nnodes) (fun _ => preds.flatMap (toBytes 2)) = .inl s' →
      exec (.graph n) s = .next ((s'.modPacket n p.idx fun p => { p with
        state := .started, graph := some { gr with startable := (List.range gr.nnodes).filter fun k => decide (preds.getD k 0 = 0) } }).pumpGraph
          n p.idx (2 * gr.nnodes + 1))) ∧
  (∀ (s s' : State) (n : Nat) (q : Queue) (p : Packet), s.signalDue n = some (q, p) →
    s.frontPut q.ctx (if p.add then .both else .write) true p.addr.toNat 8
      (fun b => toBytes 8 ((if p.add then BitVec.ofNat 64 (fromBytes b) + p.value else p.value).toNat)) = .inl s' →
    exec (.signal n) s = .next (s'.settlePacket q.id p.idx 0 0 0)) ∧
  (∀ (s : State) (n : Nat) (q : Queue) (p : Packet), s.barrierOf n = some (q, p) →
    (s.watchMet q.ctx p.watch = .ok true → exec (.barrierAndComplete n) s = .next (s.settlePacket n p.idx 0 0 0)) ∧
    (s.watchMet q.ctx p.watch = .ok false → exec (.barrierAndComplete n) s = .next s)) ∧
  (∀ (s : State) (n : Nat) (q : Queue), s.queue? n = some q → s.frontOpen q = true →
    (q.overrun = true ∨ q.overrun = false ∧ q.canRead = true ∧ ∃ b, s.packetBytes q q.rptr = .ok b ∧ packetOk b = false) →
    ∃ t u, exec (.badpacket n) s = .next t ∧ t.queue? n = some u ∧ u.stopped = true ∧ t.crews = s.crews ∧ t.grids = s.grids) ∧
  (∀ (s : State) (n : Nat) (q : Queue) (p : Packet), s.queue? n = some q → q.waiting? = some p → s.frontOpen q = true → q.holds p = false →
    s.queueFirst q = true →
    exec (.packetStart n) s = .next ((s.startPacket q p).modQueue n fun q => { q with readable := (s.startPacket q p).cycle })) ∧
  ∀ (s s' : State) (n : Nat) (q : Queue) (p : Packet) (a b c : Nat), s.queue? n = some q → q.parked = none → q.packets = [p] →
    let p' := { p with state := .settled a b c }
    let s1 := s.modPacket n p.idx fun p => { p with state := .settled a b c }
    s1.frontPut q.ctx .write false (q.cring.toNat + 32 * (p.idx.toNat % 2 ^ q.logSize)) 32 (fun _ => recordBytes p' a b c) = .inl s' →
      ∃ u, (s.settlePacket n p.idx a b c).queue? n = some u ∧ u.packets = [] ∧ ∀ key, (s.settlePacket n p.idx a b c).memByte key = s'.memByte key

/-- (R133, R145, R259, R260, R261, R264, R267): a launch starts once its checks pass, and is bad where they fail; a grid that is over completes; DONE
takes the crew count and the bit of the STATUS; a crew's launches go by its die's queue into the parent's queue.
Completes: launchStart, gridCompletion, pendingLaunchDrain, dieQueueStart.
Choices of the model: log entries 3, 22, 23, 46. -/
def Obligations.LaunchesRun : Prop :=
  (∀ (s : State) (g : Grid) (q : Queue) (x : Context) (i : StartInfo), s.grid? g.id = some g → s.queue? g.queue = some q → s.ctx? g.ctx = some x →
    s.launchReady g = true → s.startChecks g.ctx g.part g.record = .ok i → (g.headerRead = true → s.readHeader g.ctx g.record = .ok g.header) →
    ∃ t h, exec (.launchStart g.id) s = .next t ∧ t.grid? g.id = some h ∧ h.state = .running ∧ h.header = i.header ∧ h.chain = i.chain ∧
      h.cohorts = i.cohorts ∧ h.dieRec = x.dieRec ∧ h.record = g.record ∧ h.dispatched = g.dispatched ∧ t.crews = s.crews) ∧
  (∀ (s : State) (g : Grid) (q : Queue) (x : Context), s.grid? g.id = some g → s.queue? g.queue = some q → s.ctx? g.ctx = some x →
    s.launchReady g = true → s.startChecks g.ctx g.part g.record = .bad → g.headerRead = false →
    ∃ (t : State) (h : Grid), exec (.launchStart g.id) s = .next t ∧ t.grid? g.id = some { h with state := .bad } ∧ t.crews = s.crews ∧
      h = { g with header := h.header, headerRead := h.headerRead }) ∧
  (∀ (s : State) (g : Grid) (n : Nat), s.grid? g.id = some g → s.gridOver g = true → s.gridFree g = true → g.acts = 0 →
    (g.record.chained = false ∨ g.state ≠ .running ∨ g.abort = true) → g.record.done = 0 → g.origin = .device n →
    ∃ t h, exec (.gridCompletion g.id) s = .next t ∧ t.grid? g.id = some h ∧ h.state = .completed) ∧
  (∀ (s : State) (g : Grid), s.grid? g.id = some g → s.gridOver g = true → s.gridFree g = true →
    exec (.gridCompletion g.id) s = .next ((s.drainGrid g.id).endActions g.id 5)) ∧
  (∀ (s : State) (g : Grid) (ks : List (Nat × Xlate)), g.record.done ≠ 0 → g.record.done.toNat % 8 = 0 →
    s.frontKeys g.ctx .both (span g.record.done.toNat 8) = .inl ks → (ks.map (·.1)).Nodup →
    let old := ks.map fun k => s.memByte k.1
    ∃ t, s.writeDone g = .inl t ∧ (ks.map fun k => t.memByte k.1) =
      toBytes 4 (BitVec.ofNat 32 (field old 0 4) + BitVec.ofNat 32 g.ncrew).toNat ++
        toBytes 4 (BitVec.ofNat 32 (field old 4 4) ||| BitVec.ofNat 32 (2 ^ g.status)).toNat) ∧
  (∀ (s : State) (c : Crew) (e : LaunchEntry) (rest : List LaunchEntry) (d : Die), s.crew? c.ref = some c → c.pending = e :: rest →
    s.die? (dieOf c.core) = some d → d.queue.length < 256 →
    ∃ t, exec (.pendingLaunchDrain c.ref) s = .next t ∧ t.crew? c.ref = some { c with pending := rest } ∧
      t.die? (dieOf c.core) = some { d with queue := d.queue ++ [{ e with since := s.cycle }] }) ∧
  ∀ (s : State) (n : Nat) (d : Die) (e : LaunchEntry) (rest : List LaunchEntry) (q : Queue), s.die? n = some d → d.queue = e :: rest →
    s.frontFirst (s.dieKey n e) = true → s.halted = false → s.queue? e.queue = some q → q.destroy = .none →
    ∃ t g, exec (.dieQueueStart n) s = .next t ∧ t.die? n = some { d with queue := modNth rest 0 fun x => { x with since := s.cycle } } ∧
      t.grids = s.grids ++ [g] ∧ g.record = e.record ∧ g.state = .waiting ∧ g.prio = e.prio ∧ g.phase = e.phase ∧ g.queue = e.queue

/-- (R20, R26, R28, R38, R39, R57, R129, R156, R250, R251, R252, R264, R271, R288, R289): the Clicker places the crew that is next on the core that has
room; a dispatched crew begins with its present items at ENTRY, the argument block in s0:s1 and everything else zero, empty or unused; a
woken or a pre-empted crew comes back as it left; a stolen crew is its thief's from the request on; a crew that is to be killed is
killed.
Completes: abortKill, crewDispatch, wakeUp, crewSwapIn, stealRequest, stealAnswer, priorityAgeing, restore.
Choices of the model: log entries 1, 53, 54, 55, 56, 62, 83, 84. -/
def Obligations.CrewEvents : Prop :=
  (∀ (s s' : State) (g h : Grid) (r : CrewRef) (core : Nat), s.grid? r.grid = some g → s.dispatchable g r.idx = true →
    s.isNextPlaced g { ref := r, fresh := true } = true → s.roomFor g { ref := r, fresh := true } = some (s', core) →
    s'.crew? r = none → s'.grid? r.grid = some h →
    ∃ t c h', exec (.crewDispatch r) s = .next t ∧ t.crew? r = some c ∧ t.grid? r.grid = some h' ∧ h'.dispatched = h.dispatched ++ [r.idx] ∧
      c.state = .resident ∧ c.core = core ∧ c.slot = s'.freeCrewSlot core ∧ c.vdie = g.ownerOf r.idx ∧ c.store = [] ∧
      c.views = List.replicate 8 none ∧ c.tags = List.replicate 64 Tag.unused ∧ c.follows = [] ∧ c.pending = [] ∧ c.wakes = [] ∧
      c.tiles = List.replicate g.header.tiles [] ∧ c.prio = g.prio ∧ c.initPrio = g.prio ∧ c.handler = g.header.handler ∧ c.phase = 0 ∧
      c.wdCount = 0 ∧ c.wdLimit = 10000000 ∧ c.halted = false ∧ c.trapped = false ∧ c.killed = false ∧ c.killAsked = false ∧
      c.strands.map (·.idx) = (List.range g.record.nstrand).filter (fun k => decide (presentMask g r.idx k ≠ 0)) ∧
      ∀ u ∈ c.strands, u.present = presentMask g r.idx u.idx ∧ u.ended = 0 ∧ u.v = [] ∧ u.p = [] ∧ u.fp = 0 ∧
        (∀ n, u.sAt n = if n = 0 then loWord g.record.args else if n = 1 then hiWord g.record.args else 0) ∧
        u.gen = [] ∧ u.sealedBy = [] ∧ u.depth = [] ∧ u.splits.map (fun p => (p.pc, p.mask)) = [(g.header.entry, u.present)] ∧ u.stack = [] ∧
        u.handler = none ∧ u.reinject = [] ∧ u.inflight = [] ∧ u.deferred = [] ∧ u.clock = none ∧ u.arrivals = []) ∧
  (∀ (g : Grid) (crew strand l : Nat), l < 32 →
    hasLane (presentMask g crew strand) l = decide ((crew * g.record.nstrand + strand) * 32 + l < g.items)) ∧
  (∀ (s s' : State) (g : Grid) (c : Crew) (core : Nat), s.crew? c.ref = some c → s.grid? c.grid = some g → s.returnable c = true →
    s.isNextPlaced g { ref := c.ref, fresh := false } = true → s.roomFor g { ref := c.ref, fresh := false } = some (s', core) →
    (c.state = .swapped → exec (.crewSwapIn c.ref) s = .next (s'.putOn c.ref core)) ∧
    (c.state = .preempted → exec (.restore c.ref) s = .next (s'.putOn c.ref core))) ∧
  (∀ (s : State) (g : Grid) (c : Crew) (core : Nat), s.crew? c.ref = some c → s.grid? c.grid = some g → c.follows = [] →
    ∃ k, (s.putOn c.ref core).crew? c.ref = some k ∧
      k = { c with state := .resident, core := core, slot := s.freeCrewSlot core, woken := false, wakes := [], strands := k.strands } ∧
      k.strands.length = c.strands.length ∧ ∀ (n : Nat) (u v : Strand), c.strands[n]? = some u → k.strands[n]? = some v →
        v = { u with cluster := v.cluster, splits := v.splits, stack := v.stack, handler := v.handler } ∧
          v.splits.map (fun p => (p.pc, p.mask)) = u.splits.map (fun p => (p.pc, p.mask)) ∧
          v.stack.map (fun p => (p.pc, p.mask)) = u.stack.map (fun p => (p.pc, p.mask)) ∧ v.handler.isSome = u.handler.isSome) ∧
  (∀ (s : State) (c : Crew), s.crew? c.ref = some c → s.wakeDue c = true →
    ∃ t, exec (.wakeUp c.ref) s = .next t ∧ t.crew? c.ref = some { c with woken := true, since := if s.returnable c then c.since else s.cycle } ∧
      ∀ r, r ≠ c.ref → t.crew? r = s.crew? r) ∧
  (∀ (s : State) (g : Grid) (thief victim i : Nat), s.grid? g.id = some g → s.stealDue g thief victim = some i →
    ∃ t h, exec (.stealRequest g.id thief victim) s = .next t ∧ t.grid? g.id = some h ∧ h.ownerOf i = thief ∧ i ∈ h.given ∧
      h = { g with
        transit := ((i, thief) :: (i, victim) :: g.transit).eraseDups, given := i :: g.given
        stolen := (i, thief) :: g.stolen.filter fun x => x.1 ≠ i } ∧ t.crews = s.crews) ∧
  (∀ (s : State) (g : Grid) (thief i : Nat), s.grid? g.id = some g → g.onItsWay thief = some i →
    ∃ t h, exec (.stealAnswer g.id thief) s = .next t ∧ t.grid? g.id = some h ∧ h = { g with given := g.given.filter (· ≠ i) } ∧
      h.ownerOf i = thief ∧ i ∉ h.given ∧ t.crews = s.crews) ∧
  (∀ (s : State) (c : Crew), s.crew? c.ref = some c → c.killAsked = true → c.state ≠ .ended →
    ∃ t k, exec (.abortKill c.ref) s = .next t ∧ t.crew? c.ref = some k ∧ k.killed = true ∧ k.killAsked = false ∧ k.follows = [] ∧
      k.wakes = [] ∧ (∀ u ∈ k.strands, u.isOver = true ∧ u.splits = [] ∧ u.stack = [] ∧ u.reinject = [] ∧ u.deferred = []) ∧
      (∀ n x o, n < 64 → k.tags[n]? = some x → x.op = some o → o.cancelled.isSome = true) ∧
      (∀ d, t.core? c.core = some d → ∀ o ∈ d.tileQ, o.crew ≠ c.ref) ∧ ∀ g, t.grid? c.grid = some g → g.killed = true) ∧
  ∀ (s : State) (c : CrewRef) (prio : BitVec 2) (since : DWord), exec (.priorityAgeing c) s = .next s ∧
    s.effective prio since = min 3 (prio.toNat + (s.cycle - since).toNat / 65536)

/-- (R143, R149, R151, R154, R195, R265, R266, R270, R274, R289, R290): a split ready for 1,024 cycles is boosted; one whose sleep is over is ready from its end on;
a watchdog that runs out defers a trap in every strand; a deferred trap is taken; a halted crew does not count; held paths and
watched words move on; hand-off values are delivered; the phase counter advances by one.
Completes: splitBoost, sleepExpiry, watchdog, deferredTrap, handoffDelivery, heldPathReady, backPressurePublish,
phaseCounterAdvance, waitmRecheck, debuggerHalt.
Choices of the model: log entries 1, 37, 38, 60, 61. -/
def Obligations.StrandEvents : Prop :=
  (∀ (s : State) (r : SplitRef) (g : Grid) (c : Crew) (t : Strand) (p : Path), s.splitAt? r = some (g, c, t, p) →
    p.asleep = false → s.splitReady g r.strand t p = true → 1024 ≤ (s.cycle - p.since).toNat →
    ∃ x u, exec (.splitBoost r) s = .next x ∧ x = s.modStrand r.strand (fun t => t.modSplit r.lane fun p => { p with boosted := true }) ∧
      x.strand? r.strand = some u ∧ u = { t with splits := u.splits } ∧ u.splitOf? r.lane = some { p with boosted := true }) ∧
  (∀ (s : State) (r : SplitRef) (g : Grid) (c : Crew) (t : Strand) (p : Path) (due : Nat), s.splitAt? r = some (g, c, t, p) →
    p.wait = .sleep due → due ≤ s.cycle.toNat → p.since.toNat < due →
    ∃ x u, exec (.sleepExpiry r) s = .next x ∧
      x = s.modStrand r.strand (fun t => t.modSplit r.lane fun p => { p with since := BitVec.ofNat 64 due }) ∧
      x.strand? r.strand = some u ∧ u = { t with splits := u.splits } ∧ u.splitOf? r.lane = some { p with since := BitVec.ofNat 64 due }) ∧
  (∀ (s : State) (c : Crew), s.crew? c.ref = some c → c.dogDue = true →
    ∃ t k, exec (.watchdog c.ref) s = .next t ∧ t.crew? c.ref = some k ∧ k.wdCount = 0 ∧ k.woken = (c.woken || decide (c.state = .swapped)) ∧
      k.strands.length = c.strands.length ∧
      ∀ (n : Nat) (u v : Strand), c.strands[n]? = some u → k.strands[n]? = some v → if u.isOver then v = u else
        ∃ d : Deferred, v = { u with deferred := u.deferred ++ [d] } ∧ d.trap = .watchdog ∧ d.entry = none ∧ d.mask = u.live) ∧
  (∀ (s : State) (r : StrandRef), s.deferredDue r = true → exec (.deferredTrap r) s = .next (s.trapFirst r)) ∧
  (∀ (s : State) (c : Crew) (b : Bool), s.crew? c.ref = some c →
    ∃ t k, exec (.debuggerHalt c.ref b) s = .next t ∧ t.crew? c.ref = some k ∧ k = { c with halted := b } ∧
      (b = true → k.ages = false ∧ ∀ u : Strand, t.canIssue k u = false)) ∧
  (∀ (s : State) (r : StrandRef), exec (.heldPathReady r) s = .next ((s.settleStack r).swapHeld r)) ∧
  (∀ (s x : State) (r : SplitRef) (g : Grid) (c : Crew) (t : Strand) (p : Path) (e : Ext), s.splitAt? r = some (g, c, t, p) →
    p.held = .backPressure → s.pathReady r.strand p = true → s.beginIssue r = (x, some (.hput e)) →
    exec (.backPressurePublish r) s = exec (.hput e) x ∧
    ∀ (d : Ctx) (x' : State), Runs x (Form.ofExt 0x60 e) d → d.g.record.chained = true → d.g.mode d.slot ≠ 0 → d.sealedLane = none →
      e.scope = .none → (lanesOf d.act).foldl d.publishLane (d.s, 0) = (x', 0) →
      ∃ y u h, exec (.backPressurePublish r) s = .next y ∧ y.strand? d.r = some u ∧ SameRegs u d.t ∧ y.grid? d.g.id = some h ∧
        (∀ l, l < 32 → SMap.look 0 u.gen (32 * d.slot + l) = SMap.look 0 d.t.gen (32 * d.slot + l) + if hasLane d.act l then 1 else 0) ∧
        ∀ l, hasLane d.act l = true → ∃ p ∈ h.chain.pubs, p.item = d.item l ∧ p.slot = d.slot ∧
          p.gen = (SMap.look 0 d.t.gen (32 * d.slot + l)).toNat ∧ p.value = d.toPublish l) ∧
  (∀ (s : State) (r : SplitRef) (g : Grid) (c : Crew) (t : Strand) (p : Path), s.splitAt? r = some (g, c, t, p) → s.recheckDue c p = true →
    ∃ x u, exec (.waitmRecheck r) s = .next x ∧
      x = s.modStrand r.strand (fun t => t.modSplit r.lane fun p => { p with wait := .reread, since := s.cycle }) ∧
      x.strand? r.strand = some u ∧ u = { t with splits := u.splits } ∧
      u.splitOf? r.lane = some { p with wait := .reread, since := s.cycle }) ∧
  (∀ (s : State) (g : Grid) (v : Nat), s.grid? g.id = some g → v < g.dieRec.vphys.length → s.counterReady g v = true →
    g.counters.length = g.dieRec.vphys.length →
    ∃ t h, exec (.phaseCounterAdvance g.id v) s = .next t ∧ t.grid? g.id = some h ∧ nthWord h.counters v = nthWord g.counters v + 1 ∧
      (∀ w, w ≠ v → nthWord h.counters w = nthWord g.counters w) ∧ t.crews = s.crews) ∧
  ∀ (s : State) (g : Grid) (item gen : Nat) (slot : BitVec 3) (p : Pub), s.grid? g.id = some g → g.pub? item slot.toNat gen = some p →
    s.deliveryDue g p = true →
    ∃ t h, exec (.handoffDelivery g.id item slot gen) s = .next t ∧ t.grid? g.id = some h ∧ t.crews = s.crews ∧
      ∃ q, h.pub? item slot.toNat gen = some q ∧ q.delivered = true ∧ q.value = p.value ∧ q.scope = p.scope

/-! ## Accesses, engines, memory, and the outside -/

/-- (R4, R161, R162, R168, R172, R189, R283, R284, R298, R299, R308, R366, R403): accesses in flight. The data of a load reach its destination in every active
lane, from lines at hand or from memory; a rejected access is aged after 64 cycles and served once an entry is free; a page walk gives an
access its translation, performs a store, or parks the access with a posted fault; the oldest write of a core arrives first and
writes its bytes; a write-back sends a line's dirty bytes and leaves it clean, or drops it; the fault ring takes the record that
waits.
Completes: accessAged, pageWalk, faultRingPoll, loadDataReturn, storeArrival, writeBack.
Choices of the model: log entries 1, 36, 45, 73, 77, 79. -/
def Obligations.AccessEvents : Prop :=
  -- the access is gone from flight, and its strand's registers are `u`'s
  let left (t : State) (r : StrandRef) (x : InFlight) (c : Ctx) (u : Strand) : Prop :=
    t.strand? r = some u ∧ u.inflight = c.t.inflight.filter (fun y => y.id ≠ x.id) ∧ Strand.sameHeld c.t u
  -- every byte of the access lies in one page, which the TLBs do not hold
  let oneMissing (s : State) (x : InFlight) (c : Ctx) (va : Nat) : Prop :=
    (c.bytes c.low).head? = some va ∧ (∀ l, hasLane c.act l = true → ∀ a ∈ c.bytes l, pageOf a = pageOf va) ∧ c.act ≠ 0 ∧
      s.tlbLook c.core c.ctx va x.right = none ∧ (s.core? c.core).isSome = true
  (∀ (s : State) (r : StrandRef) (x : InFlight) (n : DWord), s.flight? r x.id = some x → x.state = .rejected n → 64 ≤ (s.cycle - n).toNat →
    ∃ t, exec (.accessAged r x.id) s = .next t ∧ t = s.setFlight r { x with state := .aged } ∧
      t.flight? r x.id = some { x with state := .aged }) ∧
  (∀ (s : State) (r : StrandRef) (x : InFlight), s.flight? r x.id = some x → s.slotFor r x = true →
    x.state = .aged ∨ (∃ n, x.state = .rejected n) →
    ∃ t y, exec (.loadDataReturn r x.id) s = .next t ∧ t = s.setFlight r y ∧ t.flight? r x.id = some y ∧
      y = { x with state := .outstanding, lines := ((s.ctxOfFlight r x).map fun c => c.missed s c.act).getD [] }) ∧
  (∀ (s : State) (r : StrandRef) (x : InFlight) (c : Ctx), s.flight? r x.id = some x → s.ctxOfFlight r x = some c →
    x.state = .outstanding → x.isStore = false → x.isWhole = false → x.universal = false → s.bankStops r = false → c.act ≠ 0 →
    c.lanesIn →
    ∃ t u, exec (.loadDataReturn r x.id) s = .next t ∧ left t r x c u ∧ Wrote c.f.e.d c.f.dstWide c.act c.loaded u ∧
      OnlyWrote c.f.e.d c.f.dstWide c.act c.t u ∧ u.fp = c.t.fp ∧ ∀ key, t.memByte key = s.memByte key) ∧
  (∀ (s : State) (r : StrandRef) (x : InFlight) (c : Ctx) (k : Core) (line : Nat), s.flight? r x.id = some x → s.ctxOfFlight r x = some c →
    x.state = .outstanding → x.isStore = false → x.isWhole = false → x.universal = false → s.bankStops r = false →
    c.space = .global → c.act ≠ 0 →
    (∀ l, hasLane c.act l = true → ∃ ks, c.keys? s .read l = some ks ∧ ∀ y ∈ ks, y.1 / 128 = line) →
    s.core? c.core = some k → k.l1? line = none → k.outbox = [] → k.l1.length < s.l1Lines c.core → s.poisoned line = false →
    c.entriesFor s (c.loadReady s) (fun _ => true) = true →
    ∃ t u, exec (.loadDataReturn r x.id) s = .next t ∧ left t r x c u ∧
      Wrote c.f.e.d c.f.dstWide c.act
        (fun l => loadPlace c.f.e.ty (fromBytes (((c.keys? s .read l).getD []).map fun y => s.memByte y.1))) u ∧
      OnlyWrote c.f.e.d c.f.dstWide c.act c.t u ∧ u.fp = c.t.fp ∧ (∀ key, t.memByte key = s.memByte key) ∧
      ∃ j, t.core? c.core = some j ∧ (j.l1? line).isSome = true) ∧
  (∀ (s : State) (r : StrandRef) (x : InFlight) (c : Ctx), s.flight? r x.id = some x → s.ctxOfFlight r x = some c →
    x.state = .outstanding → x.isStore = true → x.isWhole = false → x.universal = false → s.bankStops r = false → c.c.state ≠ .ended →
    c.space ≠ .localStore →
    c.mapped s .write c.act = c.act → c.storeLinesIn →
    ∃ t u, exec (.pageWalk r x.id) s = .next t ∧ left t r x c u ∧ SameRegs u c.t ∧ (∀ key, t.memByte key = s.memByte key) ∧
      ∀ key, (t.l1Byte c.core key).1 = (lastByte (c.storesOf c.act) key).getD (s.l1Byte c.core key).1) ∧
  (∀ (s : State) (r : StrandRef) (x : InFlight) (c : Ctx) (va : Nat) (e : Xlate), s.flight? r x.id = some x → s.ctxOfFlight r x = some c →
    s.walkDue r x = true → x.isStore = false → x.isWhole = false → oneMissing s x c va → s.walk c.ctx va x.right = .inl e →
    ∃ t y, exec (.pageWalk r x.id) s = .next t ∧ t.tlbLook c.core c.ctx va x.right = some e ∧ t.flight? r x.id = some y ∧
      y.entry = x.entry ∧ (y.state = .outstanding ∨ y.state = .rejected s.cycle) ∧ ∀ key, t.memByte key = s.memByte key) ∧
  (∀ (s : State) (r : StrandRef) (x : InFlight) (c : Ctx) (p : Partition) (va : Nat) (reason : BitVec 8), s.flight? r x.id = some x →
    s.ctxOfFlight r x = some c → s.walkDue r x = true → x.isWhole = false → oneMissing s x c va → s.walk c.ctx va x.right = .inr reason →
    let rec1 := c.faultRec x.right 0 va reason
    s.part? c.g.part = some p →
    ∃ t y id, exec (.pageWalk r x.id) s = .next t ∧ t.flight? r x.id = some y ∧ y.entry = x.entry ∧ y.state = .parked id ∧
      ∃ f ∈ t.faults, sameFault rec1 f = true ∧ f.id.toNat = id) ∧
  (∀ (s t : State) (r : StrandRef) (x : InFlight) (c : Ctx) (dst : Option (Nat → Word)) (n : Nat), s.flight? r x.id = some x →
    s.ctxOfFlight r x = some c → s.walkDue r x = true → x.isWhole = true → wholeAgain c = .go t dst n → c.c.state ≠ .ended →
    exec (.pageWalk r x.id) s = .next (t.dropFlight r x.id)) ∧
  (∀ (s : State) (n line : Nat) (k : Core) (d : BitVec 1024) (m : BitVec 128) (ps : List PkgWrite) (rest : List Message),
    s.core? n = some k → k.outbox = .write line d m ps :: rest →
    ∃ t, exec (.storeArrival n) s = .next t ∧ t.core? n = some { k with outbox := rest } ∧
      ∀ key, t.memByte key = if key / 128 = line ∧ m.getLsbD (key % 128) = true then lineByte d (key % 128) else s.memByte key) ∧
  (∀ (s : State) (n key : Nat) (k : Core) (op : BitVec 3) (ty : Ty) (b : DWord) (ps : List PkgWrite) (rest : List Message),
    s.core? n = some k → k.outbox = .red key op ty b ps :: rest →
    ∃ t, exec (.storeArrival n) s = .next t ∧ t.core? n = some { k with outbox := rest } ∧
      (s.poisoned (key / 128) = true → ∀ a, t.memByte a = s.memByte a) ∧
      (s.poisoned (key / 128) = false → t.readNat key (tySize ty) =
        (bankOp op ty (BitVec.ofNat 64 (s.readNat key (tySize ty))) b).toNat % 2 ^ (8 * tySize ty)) ∧
      ∀ a, a < key ∨ key + tySize ty ≤ a → t.memByte a = s.memByte a) ∧
  (∀ (s : State) (n : Nat), (∀ k, s.core? n = some k → k.outbox = []) → exec (.storeArrival n) s = .next s) ∧
  (∀ (s : State) (n line : Nat) (k : Core), s.core? n = some k →
    let sent (j : Core) : Prop := j.outbox.take k.outbox.length = k.outbox ∧
      ∀ l ∈ k.l1, l.line = line → l.dirty ≠ 0 → .write line l.data l.dirty (pkgOf s.pkgWrites n line) ∈ j.outbox
    (∃ t j, exec (.writeBack n line true) s = .next t ∧ t.core? n = some j ∧ sent j ∧ (∀ l ∈ j.l1, l.line ≠ line) ∧
      ∀ key, t.memByte key = s.memByte key) ∧
    ∃ t j, exec (.writeBack n line false) s = .next t ∧ t.core? n = some j ∧ sent j ∧ (∀ l ∈ j.l1, l.line = line → l.dirty = 0) ∧
      j.l1.map (fun l => (l.line, l.data)) = k.l1.map (fun l => (l.line, l.data)) ∧ ∀ key, t.memByte key = s.memByte key) ∧
  (∀ (s : State) (n : Nat) (p : Partition), s.part? n = some p → s.poisoned ((p.entry.toNat + 0x74) / 128) = false →
    ∃ t, exec (.faultRingPoll n) s = .next t ∧ t.crews = s.crews ∧ ∀ f ∈ t.faults, ¬ (f.kind = true ∧ f.written = true)) ∧
  (∀ (s : State) (n : Nat) (p : Partition), s.part? n = some p → s.poisoned ((p.entry.toNat + 0x74) / 128) = true →
    ∃ t, exec (.faultRingPoll n) s = .next t ∧ t = { s with found := t.found } ∧
      { line := (p.entry.toNat + 0x74) / 128, dirtyOf := none, firmware := none } ∈ t.found) ∧
  ∀ (s : State) (n : Nat) (p : Partition) (f : Fault32), s.part? n = some p → s.poisoned ((p.entry.toNat + 0x74) / 128) = false →
    s.faults = [f] → f.part = n → f.written = false →
    let read := BitVec.ofNat 32 (s.readNat (p.entry.toNat + 0x74) 4)
    let place := p.fring.toNat + 32 * (p.fwptr.toNat % 2 ^ p.flog)
    (p.fwptr - read).toNat ≠ 2 ^ p.flog → place + 32 ≤ p.entry.toNat + 0x70 ∨ p.entry.toNat + 0x74 ≤ place →
    ∃ t, exec (.faultRingPoll n) s = .next t ∧ t.readMem place 32 = faultBytes f ∧
      t.readNat (p.entry.toNat + 0x70) 4 = (p.fwptr + 1).toNat ∧ t.part? n = some { p with fwptr := p.fwptr + 1, frptr := read } ∧
      t.faults = if f.kind then [] else [{ f with written := true }]

/-- (R198, R206, R213, R215, R217, R219, R221, R222, R223, R224, R228, R234, R244, R245): the copy engine and the matrix units. A copy writes to its
destination the bytes of the elements of its source, and the fill beyond them, and its tag becomes DONE with the counts; a parking fills its
slot; a drain writes the packed elements; an NMV writes the rows of its product; a copy that no translation reaches parks where it
stands; a cancelled operation ends early with CODE 3; a follow-on product that is due enters the tile queue; a tile operation that is
ready ends.
Completes: copyComplete, copyPark, cancelEnd, followOnIssue, cpymParked, drainComplete, tileOpEnd, nmvComplete.
Choices of the model: log entries 1, 10, 50, 80, 82. -/
def Obligations.EngineEvents : Prop :=
  -- the elements that the copy reads now, all of them correctable and unchanged since the issue
  let steady (s : State) (x : TagCtx) (j : Job) (now : Snap) : Prop :=
    now = s.jobElems j x.c.store (fun va => s.tlbLook x.o.core x.g.ctx va .read) ∧ x.o.olds = [now] ∧ allGood j now ∧ x.o.granule = 0 ∧ x.c.over = false
  let count (j : Job) (read : Bool) : Nat := (j.pairs.filter fun p => p.2.isSome == read).length
  (∀ (s : State) (r : CrewRef) (n : BitVec 6) (x : TagCtx) (src dst : View) (now : Snap), s.copyReady r n.toNat = some (x, src, dst) →
    let j := copyJob src dst
    steady s x j now → dst.isLocal = true →
    ∃ t k, exec (.copyComplete r n) s = .next t ∧ TagDone t r n.toNat 0 (count j true) (count j false) ∧ t.crew? r = some k ∧
      (∀ a, SMap.look 0 k.store a = (lastByte (movedBytes j.size (copyMoves j now)) a).getD (SMap.look 0 x.c.store a)) ∧
      ∀ key, t.memByte key = s.memByte key) ∧
  (∀ (s : State) (r : CrewRef) (n : BitVec 6) (x : TagCtx) (src dst : View) (now : Snap), s.copyReady r n.toNat = some (x, src, dst) →
    let j := copyJob src dst
    let bytes := movedBytes j.size (copyMoves j now)
    let stored := bytes.filterMap fun b => (s.tlbLook x.o.core x.g.ctx b.1 .write).map fun e => (physKey e b.1, b.2)
    steady s x j now → dst.isLocal = false → (∀ b ∈ bytes, (s.tlbLook x.o.core x.g.ctx b.1 .write).isSome = true) →
    ∃ t, exec (.copyComplete r n) s = .next t ∧ TagDone t r n.toNat 0 (count j true) (count j false) ∧
      ∀ key, t.memByte key = (lastByte stored key).getD (s.memByte key)) ∧
  -- an element: its bytes in the local store, or in memory
  (∀ (y : Source) (store : SMap Byte) (tr : Trans) (s : State) (a : Nat),
    (y.isLocal = true → y.elem store tr s.copyByte a = some (BitVec.ofNat 64 (fromBytes ((span a y.size).map (SMap.look 0 store))), 0)) ∧
      (y.isLocal = false → ∀ ks, keysAt tr a y.size = some ks → (∀ k ∈ ks, s.poisoned (k / 128) = false) →
        y.elem store tr s.copyByte a = some (BitVec.ofNat 64 (fromBytes (ks.map s.memByte)), 0))) ∧
  (∀ (s : State) (r : CrewRef) (n : BitVec 6), (s.runCopy r n.toNat).tagParked r n.toNat = true →
    exec (.copyPark r n) s = .next (s.runCopy r n.toNat)) ∧
  (∀ (s : State) (r : CrewRef) (n : BitVec 6) (x : TagCtx) (src dst : View) (d a : Nat) (rest : List (Nat × Option Nat)),
    s.copyReady r n.toNat = some (x, src, dst) → dst.isLocal = true → src.isLocal = false → x.o.granule = 0 →
    (copyJob src dst).pairs = (d, some a) :: rest → (copyJob src dst).meets = false → x.o.olds ≠ [] → (∀ e ∈ x.o.olds.headD [], e = none) →
    (∀ va, s.tlbLook x.o.core x.g.ctx va .read = none ∧ ∃ why, s.walk x.g.ctx va .read = .inr why) →
    ∃ t k o id, exec (.copyPark r n) s = .next t ∧ t.crew? r = some k ∧ (k.tag n.toNat).state = x.tag.state ∧
      (k.tag n.toNat).op = some o ∧ o.parked = some id ∧ o.granule = 0 ∧ k.store = x.c.store) ∧
  (∀ (s : State) (r : CrewRef) (n : BitVec 6) (x : TagCtx) (die : Nat) (id : SlotId) (src : View) (now : Snap) (k : Slot),
    s.parkReady r n.toNat = some (x, die, id, src) → steady s x (parkJob src) now → s.slot? die id.slot.toNat = some k →
    k.holds x.g.ctx id = true → k.dtag ≠ some n.toNat →
    ∃ t, exec (.cpymParked r n) s = .next t ∧ TagDone t r n.toNat 0 src.count 0 ∧
      t.slot? die id.slot.toNat = some { k with data := now.map (fun e => BitVec.ofNat 64 (snapVal e)), ready := true }) ∧
  (∀ (s : State) (r : CrewRef) (n : BitVec 6) (x : TagCtx) (id : SlotId) (acc : Bool) (v : View) (k : Slot),
    s.drainReady r n.toNat = some (x, id, acc, v) → s.slotOf x id = some k → k.ready = true → k.ty = v.ty →
    (acc = false → k.accept ≠ 0 ∧ s.slotKilled k (x.slotDie id) id = false) → v.isLocal = true → x.o.granule = 0 → x.c.over = false →
    let ms := drainMoves v k
    ∃ t j, exec (.drainComplete r n) s = .next t ∧
      TagDone t r n.toNat 0 (ms.filter fun m => m.src.isSome).length (ms.filter fun m => m.src.isNone).length ∧ t.crew? r = some j ∧
      (∀ a, SMap.look 0 j.store a = (lastByte (movedBytes (elemSize v.ty) ms) a).getD (SMap.look 0 x.c.store a)) ∧
      ∃ q, t.slot? (x.slotDie id) id.slot.toNat = some q ∧
        (1 < k.drains → q.drains = k.drains - 1 ∧ q.use = k.use) ∧ (k.drains ≤ 1 → q.use = none)) ∧
  (∀ (s : State) (r : CrewRef) (n : BitVec 6) (x : TagCtx) (id : SlotId) (acc : Bool) (v : View),
    s.drainReady r n.toNat = some (x, id, acc, v) → s.slotOf x id = none → x.o.granule = 0 → x.c.over = false →
    ∃ t, exec (.drainComplete r n) s = .next t ∧ TagDone t r n.toNat 4 0 0) ∧
  (∀ (s : State) (r : CrewRef) (n : BitVec 6) (x : TagCtx) (b vx y : View) (fb : Option FormatBlock) (rnd : BitVec 2) (sat : Bool) (k : Core),
    s.nmvReady r n.toNat = some (x, b, vx, y, fb, rnd, sat) → vx.isLocal = true → y.isLocal = true → x.o.granule = 0 → x.c.over = false →
    x.o.olds ≠ [] → s.core? x.o.core = some k → k.outbox = [] → s.nmvPick x b vx fb = (s.drawn, x.o.olds) → b.n 1 ≤ y.count →
    let el (i : Nat) : Elems := (x.o.olds.getD i []).toArray
    let rows := nmvRows b vx y fb (rmOf rnd) sat (el 0) (el 1) (el 2) (el 3) none
    (∀ z ∈ rows, snapBad z.1.data = false) →
    ∃ t j, exec (.nmvComplete r n) s = .next t ∧ TagDone t r n.toNat 0 rows.length 0 ∧ t.crew? r = some j ∧
      ∀ a, SMap.look 0 j.store a = (lastByte (movedBytes (elemSize y.ty) (rows.map (·.1))) a).getD (SMap.look 0 x.c.store a)) ∧
  (∀ (s : State) (r : CrewRef) (n : BitVec 6) (x : TagCtx) (k : Nat), s.tagCtx? r n.toNat = some x → x.o.cancelled.isSome = true →
    x.c.over = false →
    ∃ t c', exec (.cancelEnd r n k) s = .next t ∧ t = s.endEarly x n.toNat k 3 ∧ t.crew? r = some c' ∧ (c'.tag n.toNat).state = .done ∧
      (c'.tag n.toNat).code = 3 ∧ (c'.tag n.toNat).op = none ∧ (c'.tag n.toNat).errPend = false) ∧
  (∀ (s t : State) (r : CrewRef) (n : BitVec 6) (g : Grid) (c : Crew) (f : FollowOn) (k : Core) (pages : List (Nat × Xlate)),
    s.followOf r n.toNat = some (g, c, f) → s.core? c.core = some k →
    s.transPages c.core g.ctx .read (TileKind.mma f.wa f.wb f.fb f.ty).pages.1 = (t, .inl pages) →
    ∃ u j o d, exec (.followOnIssue r n) s = .next u ∧ u.core? c.core = some j ∧ j.tileQ = k.tileQ ++ [o] ∧
      o.kind = .mma f.wa f.wb f.fb f.ty ∧ o.td = f.td ∧ o.crew = c.ref ∧ o.follow = some f.tag ∧ o.pages = pages ∧
      u.crew? c.ref = some d ∧ d.follows = c.follows.filter fun h => h.id ≠ f.id) ∧
  (∀ (s t : State) (r : CrewRef) (n : BitVec 6) (g : Grid) (c : Crew) (f : FollowOn) (va : Nat) (why : BitVec 8),
    s.followOf r n.toNat = some (g, c, f) → s.transPages c.core g.ctx .read (TileKind.mma f.wa f.wb f.fb f.ty).pages.1 = (t, .inr (va, why)) →
    ∃ u d, exec (.followOnIssue r n) s = .next u ∧ u.crew? c.ref = some d ∧ ∀ h ∈ d.follows, h.id = f.id → h.parked.isSome = true) ∧
  (∀ (s : State) (n id : Nat) (g : Grid) (c d : Crew) (o : TileOp), s.tileReady n id = some (g, c, o) →
    (s.doTile c g.ctx o).crew? c.ref = some d → d.over = false → s.ctxOff c = false → s.displaced c = false →
    ∃ t k, exec (.tileOpEnd n id) s = .next t ∧ t.crew? c.ref = some k ∧ k.tiles = d.tiles ∧ k.store = d.store ∧ k.tags = d.tags ∧
      ∀ j, t.core? n = some j → ∀ y ∈ j.tileQ, y.id ≠ id) ∧
  (∀ (s : State) (r : CrewRef) (c : Crew) (n code read filled : Nat) (addr : DWord), s.crew? r = some c → n < c.tags.length → c.over = false →
    TagDone (s.finishTag r n code addr read filled) r n code read filled ∧
      ∃ k, (s.finishTag r n code addr read filled).crew? r = some k ∧ k.strands = c.strands ∧
        (k.tag n).addr = if code = 1 then addr else 0) ∧
  ∀ (src dst : View) (k : Nat), k < dst.count → ∃ a, (copyPairs src dst)[k]? = some (dst.elemAddr k, a) ∧
    (a = none ↔ ∃ j, j < 4 ∧ src.n j ≤ dst.index k j)

/-- (R121, R125, R126, R127, R128, R170, R171, R295, R296, R297, R298, R299, R310): what fails retires; a bank, a slice and a pseudo-channel go to
their spares, and a core without one retires; the third retirement of a quadrant poisons its lines and takes its frames out of
service; an uncorrectable error poisons its line and is confined by the lowest row that applies; an activation counter at its threshold
starts again.
Completes: laneSelfCheck, bankCopyDone, sliceRetirement, sliceRemap, pseudoChannelRetirement, pcmapUpdate,
uncorrectableError, neighbourRefresh, correctedError.
Choices of the model: log entries 18, 19, 34, 35, 73, 74, 86. -/
def Obligations.Reliability : Prop :=
  (∀ (s : State) (r : ClusterRef) (k : Core) (c : Cluster) (f : CheckReport), s.core? r.core = some k → k.clusters[r.cluster]? = some c →
    f.banks = [] → f.columns = [] → s.crews = [] →
    ∃ t j d, exec (.laneSelfCheck r f) s = .next t ∧ t.core? r.core = some j ∧ j.clusters[r.cluster]? = some d ∧ d.live = c.live &&& ~~~f.lanes ∧
      (c.live &&& f.lanes ≠ 0 → d.retCycle = s.cycle)) ∧
  -- columns: those reported are live no more, and no other retires
  (∀ (s : State) (r : ClusterRef) (k : Core) (c : Cluster) (f : CheckReport), s.core? r.core = some k → k.clusters[r.cluster]? = some c →
    f.banks = [] → s.crews = [] →
    ∃ t j, exec (.laneSelfCheck r f) s = .next t ∧ t.core? r.core = some j ∧ j.columns.length = k.columns.length ∧
      (∀ (n : Nat) (m w : BitVec 130), k.columns[n]? = some m → j.columns[n]? = some w →
        ∀ col, col < 130 → w.getLsbD col = (m.getLsbD col && !(f.columns.contains (n, col)))) ∧
      -- a cluster below 8 live lanes has retired, and with the last cluster the core
      (∀ (n : Nat) (x : Cluster), n < 4 → j.clusters[n]? = some x →
        (n ∈ j.liveClusters ↔ 8 ≤ ((List.range 34).filter fun b => x.live.getLsbD b).length)) ∧
      j.retired = (k.retired || j.liveClusters.isEmpty)) ∧
  (∀ (s : State) (n bank sp : Nat) (k : Core), s.core? n = some k → (bank, sp) ∈ k.banks.copying → (∀ c ∈ s.crews, c.core ≠ n) →
    ∃ t j, exec (.bankCopyDone n bank) s = .next t ∧ t.core? n = some j ∧ j = { k with banks := j.banks } ∧ (bank, sp) ∈ j.banks.served ∧
      (∀ x ∈ j.banks.copying, x.1 ≠ bank) ∧ j.banks.retired = k.banks.retired) ∧
  (∀ (s : State) (n bank : Nat) (k : Core), s.core? n = some k → k.hasBank bank = true → SMap.look 0 k.banks.errors (s.bankKey bank) < 15 →
    ∃ t j, exec (.correctedError n bank) s = .next t ∧ t.core? n = some j ∧
      SMap.look 0 j.banks.errors (s.bankKey bank) = SMap.look 0 k.banks.errors (s.bankKey bank) + 1 ∧ j.banks.copying = k.banks.copying ∧
      j.banks.retired = k.banks.retired) ∧
  (∀ (s : State) (n bank : Nat) (k : Core), s.core? n = some k → k.hasBank bank = true → bank < 96 → s.crews = [] →
    15 ≤ SMap.look 0 k.banks.errors (s.bankKey bank) → bank ∉ k.banks.retired → (∀ x ∈ k.banks.served ++ k.banks.copying, x.1 ≠ bank) →
    ∃ t j, exec (.correctedError n bank) s = .next t ∧ t.core? n = some j ∧ j.banks.retired = k.banks.retired ++ [bank] ∧
      (∀ sp, k.banks.freeSpare (bankHalf bank) = some sp → (bank, sp) ∈ j.banks.copying) ∧
      (k.banks.freeSpare (bankHalf bank) = none → j.retired = true)) ∧
  (∀ (s : State) (n slice : Nat) (d : Die), s.die? n = some d → slice < 64 → slice ∉ d.retiredSlices ++ d.evacuating →
    ∃ t e, exec (.sliceRetirement n slice) s = .next t ∧ t.die? n = some e ∧ e.evacuating = d.evacuating ++ [slice] ∧ e.remap = d.remap) ∧
  (∀ (s : State) (n : Nat) (d : Die), s.die? n = some d → d.evacuating ≠ [] →
    ∃ t e, exec (.sliceRemap n) s = .next t ∧ t.die? n = some e ∧ e.evacuating = [] ∧ e.retiredSlices = d.retiredSlices ++ d.evacuating ∧
      e.remap = remapOf e.retiredSlices ∧
      (d.retiredSlices.length + d.evacuating.length < 64 → ∀ l ∈ e.l2, l.slice ∉ d.evacuating)) ∧
  (∀ (s : State) (n chan : Nat) (q : Quadrant), s.quads[n]? = some q → chan < 64 → chan ∉ q.retired → q.copying = none → q.dead = false →
    (q.retired.length < 2 → ∃ t, exec (.pseudoChannelRetirement n chan) s = .next t ∧ t.quads[n]? = some { q with copying := some chan } ∧
      t.poison = s.poison) ∧
    (2 ≤ q.retired.length → ∃ t, exec (.pseudoChannelRetirement n chan) s = .next t ∧ t.quads[n]? = some { q with dead := true } ∧
      (∀ line, inHbm (128 * line) = true → quadOf (segOf (128 * line)) = n → t.poisoned line = true) ∧
      (∀ k ∈ t.cores, ∀ e ∈ k.tlb, inQuad n e.x = false) ∧ ∀ x : Xlate, inQuad n x = true → x.lpddr = false → t.frameOk x = false)) ∧
  (∀ (s : State) (n chan : Nat) (q : Quadrant), s.quads[n]? = some q → q.copying = some chan →
    ∃ t p, exec (.pcmapUpdate n) s = .next t ∧ t.quads[n]? = some p ∧ p.copying = none ∧ p.retired = q.retired ++ [chan] ∧
      -- each entry that names the channel, in ascending order, takes the next free reserve place; the others stand
      let hit := (List.range 2048).filter fun k => decide ((q.placeOf k).1 = chan)
      (∀ k, k < 2048 → (q.placeOf k).1 ≠ chan → p.placeOf k = q.placeOf k) ∧
      ∀ (m k : Nat) (x : Nat × Nat), hit[m]? = some k → (q.reserve (q.retired ++ [chan]))[m]? = some x → p.placeOf k = x) ∧
  (∀ (s : State) (e : ErrorSite), firmwareLost e = false → s.partitionLine e.line = none → s.dirtyOwner e = none →
    ∃ t, exec (.uncorrectableError e) s = .next t ∧ t.poisoned e.line = true ∧ (∀ l, l ≠ e.line → t.poisoned l = s.poisoned l) ∧
      t.crews = s.crews ∧ t.contexts = s.contexts ∧ t.partitions = s.partitions ∧ t.cores = s.cores ∧ t.halted = s.halted) ∧
  (∀ (s : State) (e : ErrorSite) (ctx : Nat) (x : Context), s.queues = [] → firmwareLost e = false → s.partitionLine e.line = none →
    s.dirtyOwner e = some ctx → s.ctx? ctx = some x →
    ∃ t, exec (.uncorrectableError e) s = .next t ∧ t.poisoned e.line = true ∧ t.ctx? ctx = some { x with failed := true } ∧
      (∀ n, n ≠ ctx → t.ctx? n = s.ctx? n) ∧ t.partitions = s.partitions ∧
      ∀ k ∈ t.cores, ∀ l ∈ k.l1, l.line = e.line → l.bad = true ∧ l.dirty = 0) ∧
  (∀ (s : State) (e : ErrorSite) (part : Nat) (p : Partition), s.queues = [] → firmwareLost e = false →
    s.partitionLine e.line = some part → s.part? part = some p →
    ∃ t, exec (.uncorrectableError e) s = .next t ∧ t.poisoned e.line = true ∧ t.part? part = some { p with stopped := true } ∧
      (∀ n, n ≠ part → t.part? n = s.part? n) ∧
      ∀ n, n < 64 → t.ctx? n = (s.ctx? n).map fun c => if c.part = part then { c with failed := true } else c) ∧
  (∀ (s : State) (e : ErrorSite), firmwareLost e = true →
    ∃ t, exec (.uncorrectableError e) s = .next t ∧ t.poisoned e.line = true ∧ t.halted = true ∧
      t.image = (if e.firmware = some true then .damaged s.drawn else s.image) ∧ t.agenda = .event (.warmStart s.ownReport) :: s.agenda) ∧
  ∀ (s : State) (row : Nat) (upset : Bool), let r := SMap.look RowCount.zero s.rows row
    let n := min 4095 (r.count.toNat + 1)
    let good := parityOf r.count = (r.parity ^^ upset)
    ∃ t, exec (.neighbourRefresh row upset) s = .next t ∧
      (s.rowLimit ≤ n ∨ 4095 ≤ n ∨ ¬ good → SMap.look RowCount.zero t.rows row = RowCount.zero) ∧
      (n < s.rowLimit → n < 4095 → good →
        SMap.look RowCount.zero t.rows row = { count := BitVec.ofNat 12 n, parity := parityOf (BitVec.ofNat 12 n) }) ∧
      (∀ m, m ≠ row → SMap.look RowCount.zero t.rows m = SMap.look RowCount.zero s.rows m) ∧
      ∀ d, s.die? (rowDie row) = some d → ∃ y, t.die? (rowDie row) = some y ∧ y.logSeq = d.logSeq + if good then 0 else 1

/-- (R170): the entries of Remap whose slice has retired are given the live slices in turn, cyclically from the lowest, in ascending order of the
entries; the other entries stand. The table is made anew from the list of retired slices when an evacuation is done.
Completes: sliceRemap. -/
def Obligations.RemapTable : Prop :=
  (∀ gone : List Nat, let live := (List.range 64).filter fun x => decide (x ∉ gone)
    let lost := (List.range 64).filter fun x => decide (x ∈ gone)
    (remapOf gone).length = 64 ∧ (∀ k, k < 64 → k ∉ gone → (remapOf gone)[k]? = some k) ∧
      (live ≠ [] → ∀ n k, lost[n]? = some k → (remapOf gone)[k]? = live[n % live.length]?)) ∧
  (∀ k, k < 64 → (remapOf [56])[k]? = some (if k = 56 then 0 else k)) ∧
  ∀ (s : State) (n : Nat) (d : Die), s.die? n = some d → d.evacuating ≠ [] →
    ∃ t e, exec (.sliceRemap n) s = .next t ∧ t.die? n = some e ∧ e.retiredSlices = d.retiredSlices ++ d.evacuating ∧
      e.remap = remapOf (d.retiredSlices ++ d.evacuating)

/-- (R191, R196, R298, R300, R306, R307, R331): writes and indivisible operations of the host and of peers change the bytes that they name and no other; reads give
what memory holds, with the mark of an uncorrectable line; a lost port carries nothing more: no line of a peer travels on it.
Completes: hostWrite, hostRead, peerWrite, hostAtomicCas, peerRead, peerBankOperation, stoendPortLoss.
Choices of the model: log entries 2, 59. -/
def Obligations.OutsideAccess : Prop :=
  (∀ (s : State) (pa : Nat) (bs : List Byte), s.dead = false → hostCan pa bs.length = true →
    ∃ t, exec (.hostWrite pa bs) s = .next t ∧ (∀ k, k < bs.length → t.memByte (pa + k) = bs.getD k 0) ∧
      (∀ key, key < pa ∨ pa + bs.length ≤ key → t.memByte key = s.memByte key) ∧ t.cores = s.cores ∧ t.crews = s.crews) ∧
  (∀ (s : State) (pa : Nat) (bs : List Byte), s.dead = false → inDevice pa bs.length = true →
    ∃ t, exec (.peerWrite pa bs) s = .next t ∧ (∀ k, k < bs.length → t.memByte (pa + k) = bs.getD k 0) ∧
      (∀ key, key < pa ∨ pa + bs.length ≤ key → t.memByte key = s.memByte key) ∧ t.cores = s.cores ∧ t.crews = s.crews) ∧
  (∀ (s : State) (pa n : Nat), s.dead = false → hostCan pa n = true →
    exec (.hostRead pa n) s = .next { s with readBack := s.readMem pa n, readPoison := s.anyPoison pa n }) ∧
  (∀ (s : State) (pa n : Nat), s.dead = false → inDevice pa n = true →
    exec (.peerRead pa n) s = .next { s with readBack := s.readMem pa n, readPoison := s.anyPoison pa n }) ∧
  (∀ (s : State) (pa : Nat) (wide : Bool) (old new : DWord), let n := if wide then 8 else 4
    s.dead = false → s.port = .pcie → inDevice pa n = true → pa % n = 0 → s.anyPoison pa n = false →
    ∃ t, exec (.hostAtomicCas pa wide old new) s = .next t ∧ fromBytes t.readBack = s.readNat pa n ∧
      t.readNat pa n = (if s.readNat pa n = old.toNat % 2 ^ (8 * n) then new.toNat % 2 ^ (8 * n) else s.readNat pa n) ∧
      ∀ key, key < pa ∨ pa + n ≤ key → t.memByte key = s.memByte key) ∧
  (∀ (s : State) (pa : Nat) (wide : Bool) (old new : DWord), s.port = .cxl → exec (.hostAtomicCas pa wide old new) s = .next s) ∧
  (∀ (s : State) (pa : Nat) (op : BitVec 3) (ty : Ty) (b c : DWord), let n := tySize ty
    s.dead = false → bankTypeOk op ty = true → inDevice pa n = true → pa % n = 0 → s.anyPoison pa n = false →
    ∃ t, exec (.peerBankOperation (.atom op ty) pa b c) s = .next t ∧ fromBytes t.readBack = s.readNat pa n ∧
      t.readNat pa n = (bankOp op ty (BitVec.ofNat 64 (s.readNat pa n)) b).toNat % 2 ^ (8 * n) ∧
      ∀ key, key < pa ∨ pa + n ≤ key → t.memByte key = s.memByte key) ∧
  (∀ (s : State) (pa : Nat) (ty : Ty) (b c : DWord), let n := tySize ty
    s.dead = false → ty = .b32 ∨ ty = .s32 ∨ ty = .n32 ∨ ty = .s64 ∨ ty = .n64 → inDevice pa n = true → pa % n = 0 →
    s.anyPoison pa n = false →
    ∃ t, exec (.peerBankOperation (.cas ty) pa b c) s = .next t ∧ fromBytes t.readBack = s.readNat pa n ∧
      t.readNat pa n = (if s.readNat pa n = b.toNat % 2 ^ ty.width then c.toNat % 2 ^ (8 * n) else s.readNat pa n) ∧
      ∀ key, key < pa ∨ pa + n ≤ key → t.memByte key = s.memByte key) ∧
  ∀ (s : State) (port : Nat), port < 12 → ∃ t, exec (.stoendPortLoss port) s = .next t ∧ t = { s with livePorts := t.livePorts } ∧
    (∀ k, t.livePorts.getLsbD k = (s.livePorts.getLsbD k && decide (k ≠ port))) ∧
    ∀ (p : Partition) (peer addr : Nat), t.peerPort p peer addr ≠ some port
end

