-- ==== Sys2Proof/Laws/State.lean ====
section
/-! SUPPORT. What each update of the state does to each of its fields. -/
namespace Sys2Proof.Machine

variable (s : State)

/-! ### tick -/

@[simp] theorem State.tick_port (n : Nat) : (s.tick n).port = s.port := rfl
@[simp] theorem State.tick_dead (n : Nat) : (s.tick n).dead = s.dead := rfl
@[simp] theorem State.tick_starting (n : Nat) : (s.tick n).starting = s.starting := rfl
@[simp] theorem State.tick_recovery (n : Nat) : (s.tick n).recovery = s.recovery := rfl
@[simp] theorem State.tick_image (n : Nat) : (s.tick n).image = s.image := rfl
@[simp] theorem State.tick_mbw (n : Nat) : (s.tick n).mbw = s.mbw := rfl
@[simp] theorem State.tick_mbBusy (n : Nat) : (s.tick n).mbBusy = s.mbBusy := rfl
@[simp] theorem State.tick_mbResult (n : Nat) : (s.tick n).mbResult = s.mbResult := rfl
@[simp] theorem State.tick_mbWait (n : Nat) : (s.tick n).mbWait = s.mbWait := rfl
@[simp] theorem State.tick_repSeq (n : Nat) : (s.tick n).repSeq = s.repSeq := rfl
@[simp] theorem State.tick_warm (n : Nat) : (s.tick n).warm = s.warm := rfl
@[simp] theorem State.tick_boxCopied (n : Nat) : (s.tick n).boxCopied = s.boxCopied := rfl
@[simp] theorem State.tick_readBack (n : Nat) : (s.tick n).readBack = s.readBack := rfl
@[simp] theorem State.tick_readPoison (n : Nat) : (s.tick n).readPoison = s.readPoison := rfl
@[simp] theorem State.tick_cycle (n : Nat) : (s.tick n).cycle = s.cycle + BitVec.ofNat 64 n := rfl
@[simp] theorem State.tick_refTime (n : Nat) : (s.tick n).refTime = s.refTime + (s.refPart + n) / s.mhz := rfl
@[simp] theorem State.tick_refPart (n : Nat) : (s.tick n).refPart = (s.refPart + n) % s.mhz := rfl
@[simp] theorem State.tick_mhz (n : Nat) : (s.tick n).mhz = s.mhz := rfl
@[simp] theorem State.tick_halted (n : Nat) : (s.tick n).halted = s.halted := rfl
@[simp] theorem State.tick_lastStep (n : Nat) : (s.tick n).lastStep = s.lastStep := rfl
@[simp] theorem State.tick_livePorts (n : Nat) : (s.tick n).livePorts = s.livePorts := rfl
@[simp] theorem State.tick_dies (n : Nat) : (s.tick n).dies = s.dies := rfl
@[simp] theorem State.tick_cores (n : Nat) : (s.tick n).cores = s.cores := rfl
@[simp] theorem State.tick_homeTable (n : Nat) : (s.tick n).homeTable = s.homeTable := rfl
@[simp] theorem State.tick_quads (n : Nat) : (s.tick n).quads = s.quads := rfl
@[simp] theorem State.tick_nearMap (n : Nat) : (s.tick n).nearMap = s.nearMap := rfl
@[simp] theorem State.tick_lost (n : Nat) : (s.tick n).lost = s.lost := rfl
@[simp] theorem State.tick_rows (n : Nat) : (s.tick n).rows = s.rows := rfl
@[simp] theorem State.tick_rowLimit (n : Nat) : (s.tick n).rowLimit = s.rowLimit := rfl
@[simp] theorem State.tick_mem (n : Nat) : (s.tick n).mem = s.mem := rfl
@[simp] theorem State.tick_poison (n : Nat) : (s.tick n).poison = s.poison := rfl
@[simp] theorem State.tick_found (n : Nat) : (s.tick n).found = s.found := rfl
@[simp] theorem State.tick_watched (n : Nat) : (s.tick n).watched = s.watched := rfl
@[simp] theorem State.tick_records (n : Nat) : (s.tick n).records = s.records := rfl
@[simp] theorem State.tick_pkgWrites (n : Nat) : (s.tick n).pkgWrites = s.pkgWrites := rfl
@[simp] theorem State.tick_fences (n : Nat) : (s.tick n).fences = s.fences := rfl
@[simp] theorem State.tick_partitions (n : Nat) : (s.tick n).partitions = s.partitions := rfl
@[simp] theorem State.tick_contexts (n : Nat) : (s.tick n).contexts = s.contexts := rfl
@[simp] theorem State.tick_queues (n : Nat) : (s.tick n).queues = s.queues := rfl
@[simp] theorem State.tick_faults (n : Nat) : (s.tick n).faults = s.faults := rfl
@[simp] theorem State.tick_grids (n : Nat) : (s.tick n).grids = s.grids := rfl
@[simp] theorem State.tick_nextGrid (n : Nat) : (s.tick n).nextGrid = s.nextGrid := rfl
@[simp] theorem State.tick_crews (n : Nat) : (s.tick n).crews = if (s.refPart + n) / s.mhz = 0 then s.crews else modWhere Crew.ages (fun c => { c with wdCount := c.wdCount + (s.refPart + n) / s.mhz }) s.crews := rfl
@[simp] theorem State.tick_nextId (n : Nat) : (s.tick n).nextId = s.nextId := rfl
@[simp] theorem State.tick_agenda (n : Nat) : (s.tick n).agenda = s.agenda := rfl
@[simp] theorem State.tick_cur (n : Nat) : (s.tick n).cur = s.cur := rfl
@[simp] theorem State.tick_drawn (n : Nat) : (s.tick n).drawn = s.drawn := rfl

/-! ### modCrew -/

@[simp] theorem State.modCrew_port (r : CrewRef) (f : Crew → Crew) : (s.modCrew r f).port = s.port := rfl
@[simp] theorem State.modCrew_dead (r : CrewRef) (f : Crew → Crew) : (s.modCrew r f).dead = s.dead := rfl
@[simp] theorem State.modCrew_starting (r : CrewRef) (f : Crew → Crew) : (s.modCrew r f).starting = s.starting := rfl
@[simp] theorem State.modCrew_recovery (r : CrewRef) (f : Crew → Crew) : (s.modCrew r f).recovery = s.recovery := rfl
@[simp] theorem State.modCrew_image (r : CrewRef) (f : Crew → Crew) : (s.modCrew r f).image = s.image := rfl
@[simp] theorem State.modCrew_mbw (r : CrewRef) (f : Crew → Crew) : (s.modCrew r f).mbw = s.mbw := rfl
@[simp] theorem State.modCrew_mbBusy (r : CrewRef) (f : Crew → Crew) : (s.modCrew r f).mbBusy = s.mbBusy := rfl
@[simp] theorem State.modCrew_mbResult (r : CrewRef) (f : Crew → Crew) : (s.modCrew r f).mbResult = s.mbResult := rfl
@[simp] theorem State.modCrew_mbWait (r : CrewRef) (f : Crew → Crew) : (s.modCrew r f).mbWait = s.mbWait := rfl
@[simp] theorem State.modCrew_repSeq (r : CrewRef) (f : Crew → Crew) : (s.modCrew r f).repSeq = s.repSeq := rfl
@[simp] theorem State.modCrew_warm (r : CrewRef) (f : Crew → Crew) : (s.modCrew r f).warm = s.warm := rfl
@[simp] theorem State.modCrew_boxCopied (r : CrewRef) (f : Crew → Crew) : (s.modCrew r f).boxCopied = s.boxCopied := rfl
@[simp] theorem State.modCrew_readBack (r : CrewRef) (f : Crew → Crew) : (s.modCrew r f).readBack = s.readBack := rfl
@[simp] theorem State.modCrew_readPoison (r : CrewRef) (f : Crew → Crew) : (s.modCrew r f).readPoison = s.readPoison := rfl
@[simp] theorem State.modCrew_cycle (r : CrewRef) (f : Crew → Crew) : (s.modCrew r f).cycle = s.cycle := rfl
@[simp] theorem State.modCrew_refTime (r : CrewRef) (f : Crew → Crew) : (s.modCrew r f).refTime = s.refTime := rfl
@[simp] theorem State.modCrew_refPart (r : CrewRef) (f : Crew → Crew) : (s.modCrew r f).refPart = s.refPart := rfl
@[simp] theorem State.modCrew_mhz (r : CrewRef) (f : Crew → Crew) : (s.modCrew r f).mhz = s.mhz := rfl
@[simp] theorem State.modCrew_halted (r : CrewRef) (f : Crew → Crew) : (s.modCrew r f).halted = s.halted := rfl
@[simp] theorem State.modCrew_lastStep (r : CrewRef) (f : Crew → Crew) : (s.modCrew r f).lastStep = s.lastStep := rfl
@[simp] theorem State.modCrew_livePorts (r : CrewRef) (f : Crew → Crew) : (s.modCrew r f).livePorts = s.livePorts := rfl
@[simp] theorem State.modCrew_dies (r : CrewRef) (f : Crew → Crew) : (s.modCrew r f).dies = s.dies := rfl
@[simp] theorem State.modCrew_cores (r : CrewRef) (f : Crew → Crew) : (s.modCrew r f).cores = s.cores := rfl
@[simp] theorem State.modCrew_homeTable (r : CrewRef) (f : Crew → Crew) : (s.modCrew r f).homeTable = s.homeTable := rfl
@[simp] theorem State.modCrew_quads (r : CrewRef) (f : Crew → Crew) : (s.modCrew r f).quads = s.quads := rfl
@[simp] theorem State.modCrew_nearMap (r : CrewRef) (f : Crew → Crew) : (s.modCrew r f).nearMap = s.nearMap := rfl
@[simp] theorem State.modCrew_lost (r : CrewRef) (f : Crew → Crew) : (s.modCrew r f).lost = s.lost := rfl
@[simp] theorem State.modCrew_rows (r : CrewRef) (f : Crew → Crew) : (s.modCrew r f).rows = s.rows := rfl
@[simp] theorem State.modCrew_rowLimit (r : CrewRef) (f : Crew → Crew) : (s.modCrew r f).rowLimit = s.rowLimit := rfl
@[simp] theorem State.modCrew_mem (r : CrewRef) (f : Crew → Crew) : (s.modCrew r f).mem = s.mem := rfl
@[simp] theorem State.modCrew_poison (r : CrewRef) (f : Crew → Crew) : (s.modCrew r f).poison = s.poison := rfl
@[simp] theorem State.modCrew_found (r : CrewRef) (f : Crew → Crew) : (s.modCrew r f).found = s.found := rfl
@[simp] theorem State.modCrew_watched (r : CrewRef) (f : Crew → Crew) : (s.modCrew r f).watched = s.watched := rfl
@[simp] theorem State.modCrew_records (r : CrewRef) (f : Crew → Crew) : (s.modCrew r f).records = s.records := rfl
@[simp] theorem State.modCrew_pkgWrites (r : CrewRef) (f : Crew → Crew) : (s.modCrew r f).pkgWrites = s.pkgWrites := rfl
@[simp] theorem State.modCrew_fences (r : CrewRef) (f : Crew → Crew) : (s.modCrew r f).fences = s.fences := rfl
@[simp] theorem State.modCrew_partitions (r : CrewRef) (f : Crew → Crew) : (s.modCrew r f).partitions = s.partitions := rfl
@[simp] theorem State.modCrew_contexts (r : CrewRef) (f : Crew → Crew) : (s.modCrew r f).contexts = s.contexts := rfl
@[simp] theorem State.modCrew_queues (r : CrewRef) (f : Crew → Crew) : (s.modCrew r f).queues = s.queues := rfl
@[simp] theorem State.modCrew_faults (r : CrewRef) (f : Crew → Crew) : (s.modCrew r f).faults = s.faults := rfl
@[simp] theorem State.modCrew_grids (r : CrewRef) (f : Crew → Crew) : (s.modCrew r f).grids = s.grids := rfl
@[simp] theorem State.modCrew_nextGrid (r : CrewRef) (f : Crew → Crew) : (s.modCrew r f).nextGrid = s.nextGrid := rfl
@[simp] theorem State.modCrew_crews (r : CrewRef) (f : Crew → Crew) : (s.modCrew r f).crews = modWhere (fun x => x.grid = r.grid && x.idx = r.idx) f s.crews := rfl
@[simp] theorem State.modCrew_nextId (r : CrewRef) (f : Crew → Crew) : (s.modCrew r f).nextId = s.nextId := rfl
@[simp] theorem State.modCrew_agenda (r : CrewRef) (f : Crew → Crew) : (s.modCrew r f).agenda = s.agenda := rfl
@[simp] theorem State.modCrew_cur (r : CrewRef) (f : Crew → Crew) : (s.modCrew r f).cur = s.cur := rfl
@[simp] theorem State.modCrew_drawn (r : CrewRef) (f : Crew → Crew) : (s.modCrew r f).drawn = s.drawn := rfl

/-! ### modStrand -/

@[simp] theorem State.modStrand_port (r : StrandRef) (f : Strand → Strand) : (s.modStrand r f).port = s.port := rfl
@[simp] theorem State.modStrand_dead (r : StrandRef) (f : Strand → Strand) : (s.modStrand r f).dead = s.dead := rfl
@[simp] theorem State.modStrand_starting (r : StrandRef) (f : Strand → Strand) : (s.modStrand r f).starting = s.starting := rfl
@[simp] theorem State.modStrand_recovery (r : StrandRef) (f : Strand → Strand) : (s.modStrand r f).recovery = s.recovery := rfl
@[simp] theorem State.modStrand_image (r : StrandRef) (f : Strand → Strand) : (s.modStrand r f).image = s.image := rfl
@[simp] theorem State.modStrand_mbw (r : StrandRef) (f : Strand → Strand) : (s.modStrand r f).mbw = s.mbw := rfl
@[simp] theorem State.modStrand_mbBusy (r : StrandRef) (f : Strand → Strand) : (s.modStrand r f).mbBusy = s.mbBusy := rfl
@[simp] theorem State.modStrand_mbResult (r : StrandRef) (f : Strand → Strand) : (s.modStrand r f).mbResult = s.mbResult := rfl
@[simp] theorem State.modStrand_mbWait (r : StrandRef) (f : Strand → Strand) : (s.modStrand r f).mbWait = s.mbWait := rfl
@[simp] theorem State.modStrand_repSeq (r : StrandRef) (f : Strand → Strand) : (s.modStrand r f).repSeq = s.repSeq := rfl
@[simp] theorem State.modStrand_warm (r : StrandRef) (f : Strand → Strand) : (s.modStrand r f).warm = s.warm := rfl
@[simp] theorem State.modStrand_boxCopied (r : StrandRef) (f : Strand → Strand) : (s.modStrand r f).boxCopied = s.boxCopied := rfl
@[simp] theorem State.modStrand_readBack (r : StrandRef) (f : Strand → Strand) : (s.modStrand r f).readBack = s.readBack := rfl
@[simp] theorem State.modStrand_readPoison (r : StrandRef) (f : Strand → Strand) : (s.modStrand r f).readPoison = s.readPoison := rfl
@[simp] theorem State.modStrand_cycle (r : StrandRef) (f : Strand → Strand) : (s.modStrand r f).cycle = s.cycle := rfl
@[simp] theorem State.modStrand_refTime (r : StrandRef) (f : Strand → Strand) : (s.modStrand r f).refTime = s.refTime := rfl
@[simp] theorem State.modStrand_refPart (r : StrandRef) (f : Strand → Strand) : (s.modStrand r f).refPart = s.refPart := rfl
@[simp] theorem State.modStrand_mhz (r : StrandRef) (f : Strand → Strand) : (s.modStrand r f).mhz = s.mhz := rfl
@[simp] theorem State.modStrand_halted (r : StrandRef) (f : Strand → Strand) : (s.modStrand r f).halted = s.halted := rfl
@[simp] theorem State.modStrand_lastStep (r : StrandRef) (f : Strand → Strand) : (s.modStrand r f).lastStep = s.lastStep := rfl
@[simp] theorem State.modStrand_livePorts (r : StrandRef) (f : Strand → Strand) : (s.modStrand r f).livePorts = s.livePorts := rfl
@[simp] theorem State.modStrand_dies (r : StrandRef) (f : Strand → Strand) : (s.modStrand r f).dies = s.dies := rfl
@[simp] theorem State.modStrand_cores (r : StrandRef) (f : Strand → Strand) : (s.modStrand r f).cores = s.cores := rfl
@[simp] theorem State.modStrand_homeTable (r : StrandRef) (f : Strand → Strand) : (s.modStrand r f).homeTable = s.homeTable := rfl
@[simp] theorem State.modStrand_quads (r : StrandRef) (f : Strand → Strand) : (s.modStrand r f).quads = s.quads := rfl
@[simp] theorem State.modStrand_nearMap (r : StrandRef) (f : Strand → Strand) : (s.modStrand r f).nearMap = s.nearMap := rfl
@[simp] theorem State.modStrand_lost (r : StrandRef) (f : Strand → Strand) : (s.modStrand r f).lost = s.lost := rfl
@[simp] theorem State.modStrand_rows (r : StrandRef) (f : Strand → Strand) : (s.modStrand r f).rows = s.rows := rfl
@[simp] theorem State.modStrand_rowLimit (r : StrandRef) (f : Strand → Strand) : (s.modStrand r f).rowLimit = s.rowLimit := rfl
@[simp] theorem State.modStrand_mem (r : StrandRef) (f : Strand → Strand) : (s.modStrand r f).mem = s.mem := rfl
@[simp] theorem State.modStrand_poison (r : StrandRef) (f : Strand → Strand) : (s.modStrand r f).poison = s.poison := rfl
@[simp] theorem State.modStrand_found (r : StrandRef) (f : Strand → Strand) : (s.modStrand r f).found = s.found := rfl
@[simp] theorem State.modStrand_watched (r : StrandRef) (f : Strand → Strand) : (s.modStrand r f).watched = s.watched := rfl
@[simp] theorem State.modStrand_records (r : StrandRef) (f : Strand → Strand) : (s.modStrand r f).records = s.records := rfl
@[simp] theorem State.modStrand_pkgWrites (r : StrandRef) (f : Strand → Strand) : (s.modStrand r f).pkgWrites = s.pkgWrites := rfl
@[simp] theorem State.modStrand_fences (r : StrandRef) (f : Strand → Strand) : (s.modStrand r f).fences = s.fences := rfl
@[simp] theorem State.modStrand_partitions (r : StrandRef) (f : Strand → Strand) : (s.modStrand r f).partitions = s.partitions := rfl
@[simp] theorem State.modStrand_contexts (r : StrandRef) (f : Strand → Strand) : (s.modStrand r f).contexts = s.contexts := rfl
@[simp] theorem State.modStrand_queues (r : StrandRef) (f : Strand → Strand) : (s.modStrand r f).queues = s.queues := rfl
@[simp] theorem State.modStrand_faults (r : StrandRef) (f : Strand → Strand) : (s.modStrand r f).faults = s.faults := rfl
@[simp] theorem State.modStrand_grids (r : StrandRef) (f : Strand → Strand) : (s.modStrand r f).grids = s.grids := rfl
@[simp] theorem State.modStrand_nextGrid (r : StrandRef) (f : Strand → Strand) : (s.modStrand r f).nextGrid = s.nextGrid := rfl
@[simp] theorem State.modStrand_crews (r : StrandRef) (f : Strand → Strand) : (s.modStrand r f).crews = modWhere (fun x => x.grid = r.crew.grid && x.idx = r.crew.idx) (fun c => c.modStrand r.strand f) s.crews := rfl
@[simp] theorem State.modStrand_nextId (r : StrandRef) (f : Strand → Strand) : (s.modStrand r f).nextId = s.nextId := rfl
@[simp] theorem State.modStrand_agenda (r : StrandRef) (f : Strand → Strand) : (s.modStrand r f).agenda = s.agenda := rfl
@[simp] theorem State.modStrand_cur (r : StrandRef) (f : Strand → Strand) : (s.modStrand r f).cur = s.cur := rfl
@[simp] theorem State.modStrand_drawn (r : StrandRef) (f : Strand → Strand) : (s.modStrand r f).drawn = s.drawn := rfl

/-! ### modGrid -/

@[simp] theorem State.modGrid_port (g : Nat) (f : Grid → Grid) : (s.modGrid g f).port = s.port := rfl
@[simp] theorem State.modGrid_dead (g : Nat) (f : Grid → Grid) : (s.modGrid g f).dead = s.dead := rfl
@[simp] theorem State.modGrid_starting (g : Nat) (f : Grid → Grid) : (s.modGrid g f).starting = s.starting := rfl
@[simp] theorem State.modGrid_recovery (g : Nat) (f : Grid → Grid) : (s.modGrid g f).recovery = s.recovery := rfl
@[simp] theorem State.modGrid_image (g : Nat) (f : Grid → Grid) : (s.modGrid g f).image = s.image := rfl
@[simp] theorem State.modGrid_mbw (g : Nat) (f : Grid → Grid) : (s.modGrid g f).mbw = s.mbw := rfl
@[simp] theorem State.modGrid_mbBusy (g : Nat) (f : Grid → Grid) : (s.modGrid g f).mbBusy = s.mbBusy := rfl
@[simp] theorem State.modGrid_mbResult (g : Nat) (f : Grid → Grid) : (s.modGrid g f).mbResult = s.mbResult := rfl
@[simp] theorem State.modGrid_mbWait (g : Nat) (f : Grid → Grid) : (s.modGrid g f).mbWait = s.mbWait := rfl
@[simp] theorem State.modGrid_repSeq (g : Nat) (f : Grid → Grid) : (s.modGrid g f).repSeq = s.repSeq := rfl
@[simp] theorem State.modGrid_warm (g : Nat) (f : Grid → Grid) : (s.modGrid g f).warm = s.warm := rfl
@[simp] theorem State.modGrid_boxCopied (g : Nat) (f : Grid → Grid) : (s.modGrid g f).boxCopied = s.boxCopied := rfl
@[simp] theorem State.modGrid_readBack (g : Nat) (f : Grid → Grid) : (s.modGrid g f).readBack = s.readBack := rfl
@[simp] theorem State.modGrid_readPoison (g : Nat) (f : Grid → Grid) : (s.modGrid g f).readPoison = s.readPoison := rfl
@[simp] theorem State.modGrid_cycle (g : Nat) (f : Grid → Grid) : (s.modGrid g f).cycle = s.cycle := rfl
@[simp] theorem State.modGrid_refTime (g : Nat) (f : Grid → Grid) : (s.modGrid g f).refTime = s.refTime := rfl
@[simp] theorem State.modGrid_refPart (g : Nat) (f : Grid → Grid) : (s.modGrid g f).refPart = s.refPart := rfl
@[simp] theorem State.modGrid_mhz (g : Nat) (f : Grid → Grid) : (s.modGrid g f).mhz = s.mhz := rfl
@[simp] theorem State.modGrid_halted (g : Nat) (f : Grid → Grid) : (s.modGrid g f).halted = s.halted := rfl
@[simp] theorem State.modGrid_lastStep (g : Nat) (f : Grid → Grid) : (s.modGrid g f).lastStep = s.lastStep := rfl
@[simp] theorem State.modGrid_livePorts (g : Nat) (f : Grid → Grid) : (s.modGrid g f).livePorts = s.livePorts := rfl
@[simp] theorem State.modGrid_dies (g : Nat) (f : Grid → Grid) : (s.modGrid g f).dies = s.dies := rfl
@[simp] theorem State.modGrid_cores (g : Nat) (f : Grid → Grid) : (s.modGrid g f).cores = s.cores := rfl
@[simp] theorem State.modGrid_homeTable (g : Nat) (f : Grid → Grid) : (s.modGrid g f).homeTable = s.homeTable := rfl
@[simp] theorem State.modGrid_quads (g : Nat) (f : Grid → Grid) : (s.modGrid g f).quads = s.quads := rfl
@[simp] theorem State.modGrid_nearMap (g : Nat) (f : Grid → Grid) : (s.modGrid g f).nearMap = s.nearMap := rfl
@[simp] theorem State.modGrid_lost (g : Nat) (f : Grid → Grid) : (s.modGrid g f).lost = s.lost := rfl
@[simp] theorem State.modGrid_rows (g : Nat) (f : Grid → Grid) : (s.modGrid g f).rows = s.rows := rfl
@[simp] theorem State.modGrid_rowLimit (g : Nat) (f : Grid → Grid) : (s.modGrid g f).rowLimit = s.rowLimit := rfl
@[simp] theorem State.modGrid_mem (g : Nat) (f : Grid → Grid) : (s.modGrid g f).mem = s.mem := rfl
@[simp] theorem State.modGrid_poison (g : Nat) (f : Grid → Grid) : (s.modGrid g f).poison = s.poison := rfl
@[simp] theorem State.modGrid_found (g : Nat) (f : Grid → Grid) : (s.modGrid g f).found = s.found := rfl
@[simp] theorem State.modGrid_watched (g : Nat) (f : Grid → Grid) : (s.modGrid g f).watched = s.watched := rfl
@[simp] theorem State.modGrid_records (g : Nat) (f : Grid → Grid) : (s.modGrid g f).records = s.records := rfl
@[simp] theorem State.modGrid_pkgWrites (g : Nat) (f : Grid → Grid) : (s.modGrid g f).pkgWrites = s.pkgWrites := rfl
@[simp] theorem State.modGrid_fences (g : Nat) (f : Grid → Grid) : (s.modGrid g f).fences = s.fences := rfl
@[simp] theorem State.modGrid_partitions (g : Nat) (f : Grid → Grid) : (s.modGrid g f).partitions = s.partitions := rfl
@[simp] theorem State.modGrid_contexts (g : Nat) (f : Grid → Grid) : (s.modGrid g f).contexts = s.contexts := rfl
@[simp] theorem State.modGrid_queues (g : Nat) (f : Grid → Grid) : (s.modGrid g f).queues = s.queues := rfl
@[simp] theorem State.modGrid_faults (g : Nat) (f : Grid → Grid) : (s.modGrid g f).faults = s.faults := rfl
@[simp] theorem State.modGrid_grids (g : Nat) (f : Grid → Grid) : (s.modGrid g f).grids = modWhere (fun x => x.id = g) f s.grids := rfl
@[simp] theorem State.modGrid_nextGrid (g : Nat) (f : Grid → Grid) : (s.modGrid g f).nextGrid = s.nextGrid := rfl
@[simp] theorem State.modGrid_crews (g : Nat) (f : Grid → Grid) : (s.modGrid g f).crews = s.crews := rfl
@[simp] theorem State.modGrid_nextId (g : Nat) (f : Grid → Grid) : (s.modGrid g f).nextId = s.nextId := rfl
@[simp] theorem State.modGrid_agenda (g : Nat) (f : Grid → Grid) : (s.modGrid g f).agenda = s.agenda := rfl
@[simp] theorem State.modGrid_cur (g : Nat) (f : Grid → Grid) : (s.modGrid g f).cur = s.cur := rfl
@[simp] theorem State.modGrid_drawn (g : Nat) (f : Grid → Grid) : (s.modGrid g f).drawn = s.drawn := rfl

/-! ### modQueue -/

@[simp] theorem State.modQueue_port (q : Nat) (f : Queue → Queue) : (s.modQueue q f).port = s.port := rfl
@[simp] theorem State.modQueue_dead (q : Nat) (f : Queue → Queue) : (s.modQueue q f).dead = s.dead := rfl
@[simp] theorem State.modQueue_starting (q : Nat) (f : Queue → Queue) : (s.modQueue q f).starting = s.starting := rfl
@[simp] theorem State.modQueue_recovery (q : Nat) (f : Queue → Queue) : (s.modQueue q f).recovery = s.recovery := rfl
@[simp] theorem State.modQueue_image (q : Nat) (f : Queue → Queue) : (s.modQueue q f).image = s.image := rfl
@[simp] theorem State.modQueue_mbw (q : Nat) (f : Queue → Queue) : (s.modQueue q f).mbw = s.mbw := rfl
@[simp] theorem State.modQueue_mbBusy (q : Nat) (f : Queue → Queue) : (s.modQueue q f).mbBusy = s.mbBusy := rfl
@[simp] theorem State.modQueue_mbResult (q : Nat) (f : Queue → Queue) : (s.modQueue q f).mbResult = s.mbResult := rfl
@[simp] theorem State.modQueue_mbWait (q : Nat) (f : Queue → Queue) : (s.modQueue q f).mbWait = s.mbWait := rfl
@[simp] theorem State.modQueue_repSeq (q : Nat) (f : Queue → Queue) : (s.modQueue q f).repSeq = s.repSeq := rfl
@[simp] theorem State.modQueue_warm (q : Nat) (f : Queue → Queue) : (s.modQueue q f).warm = s.warm := rfl
@[simp] theorem State.modQueue_boxCopied (q : Nat) (f : Queue → Queue) : (s.modQueue q f).boxCopied = s.boxCopied := rfl
@[simp] theorem State.modQueue_readBack (q : Nat) (f : Queue → Queue) : (s.modQueue q f).readBack = s.readBack := rfl
@[simp] theorem State.modQueue_readPoison (q : Nat) (f : Queue → Queue) : (s.modQueue q f).readPoison = s.readPoison := rfl
@[simp] theorem State.modQueue_cycle (q : Nat) (f : Queue → Queue) : (s.modQueue q f).cycle = s.cycle := rfl
@[simp] theorem State.modQueue_refTime (q : Nat) (f : Queue → Queue) : (s.modQueue q f).refTime = s.refTime := rfl
@[simp] theorem State.modQueue_refPart (q : Nat) (f : Queue → Queue) : (s.modQueue q f).refPart = s.refPart := rfl
@[simp] theorem State.modQueue_mhz (q : Nat) (f : Queue → Queue) : (s.modQueue q f).mhz = s.mhz := rfl
@[simp] theorem State.modQueue_halted (q : Nat) (f : Queue → Queue) : (s.modQueue q f).halted = s.halted := rfl
@[simp] theorem State.modQueue_lastStep (q : Nat) (f : Queue → Queue) : (s.modQueue q f).lastStep = s.lastStep := rfl
@[simp] theorem State.modQueue_livePorts (q : Nat) (f : Queue → Queue) : (s.modQueue q f).livePorts = s.livePorts := rfl
@[simp] theorem State.modQueue_dies (q : Nat) (f : Queue → Queue) : (s.modQueue q f).dies = s.dies := rfl
@[simp] theorem State.modQueue_cores (q : Nat) (f : Queue → Queue) : (s.modQueue q f).cores = s.cores := rfl
@[simp] theorem State.modQueue_homeTable (q : Nat) (f : Queue → Queue) : (s.modQueue q f).homeTable = s.homeTable := rfl
@[simp] theorem State.modQueue_quads (q : Nat) (f : Queue → Queue) : (s.modQueue q f).quads = s.quads := rfl
@[simp] theorem State.modQueue_nearMap (q : Nat) (f : Queue → Queue) : (s.modQueue q f).nearMap = s.nearMap := rfl
@[simp] theorem State.modQueue_lost (q : Nat) (f : Queue → Queue) : (s.modQueue q f).lost = s.lost := rfl
@[simp] theorem State.modQueue_rows (q : Nat) (f : Queue → Queue) : (s.modQueue q f).rows = s.rows := rfl
@[simp] theorem State.modQueue_rowLimit (q : Nat) (f : Queue → Queue) : (s.modQueue q f).rowLimit = s.rowLimit := rfl
@[simp] theorem State.modQueue_mem (q : Nat) (f : Queue → Queue) : (s.modQueue q f).mem = s.mem := rfl
@[simp] theorem State.modQueue_poison (q : Nat) (f : Queue → Queue) : (s.modQueue q f).poison = s.poison := rfl
@[simp] theorem State.modQueue_found (q : Nat) (f : Queue → Queue) : (s.modQueue q f).found = s.found := rfl
@[simp] theorem State.modQueue_watched (q : Nat) (f : Queue → Queue) : (s.modQueue q f).watched = s.watched := rfl
@[simp] theorem State.modQueue_records (q : Nat) (f : Queue → Queue) : (s.modQueue q f).records = s.records := rfl
@[simp] theorem State.modQueue_pkgWrites (q : Nat) (f : Queue → Queue) : (s.modQueue q f).pkgWrites = s.pkgWrites := rfl
@[simp] theorem State.modQueue_fences (q : Nat) (f : Queue → Queue) : (s.modQueue q f).fences = s.fences := rfl
@[simp] theorem State.modQueue_partitions (q : Nat) (f : Queue → Queue) : (s.modQueue q f).partitions = s.partitions := rfl
@[simp] theorem State.modQueue_contexts (q : Nat) (f : Queue → Queue) : (s.modQueue q f).contexts = s.contexts := rfl
@[simp] theorem State.modQueue_queues (q : Nat) (f : Queue → Queue) : (s.modQueue q f).queues = modWhere (fun x => x.id = q) f s.queues := rfl
@[simp] theorem State.modQueue_faults (q : Nat) (f : Queue → Queue) : (s.modQueue q f).faults = s.faults := rfl
@[simp] theorem State.modQueue_grids (q : Nat) (f : Queue → Queue) : (s.modQueue q f).grids = s.grids := rfl
@[simp] theorem State.modQueue_nextGrid (q : Nat) (f : Queue → Queue) : (s.modQueue q f).nextGrid = s.nextGrid := rfl
@[simp] theorem State.modQueue_crews (q : Nat) (f : Queue → Queue) : (s.modQueue q f).crews = s.crews := rfl
@[simp] theorem State.modQueue_nextId (q : Nat) (f : Queue → Queue) : (s.modQueue q f).nextId = s.nextId := rfl
@[simp] theorem State.modQueue_agenda (q : Nat) (f : Queue → Queue) : (s.modQueue q f).agenda = s.agenda := rfl
@[simp] theorem State.modQueue_cur (q : Nat) (f : Queue → Queue) : (s.modQueue q f).cur = s.cur := rfl
@[simp] theorem State.modQueue_drawn (q : Nat) (f : Queue → Queue) : (s.modQueue q f).drawn = s.drawn := rfl

/-! ### modCore -/

@[simp] theorem State.modCore_port (n : Nat) (f : Core → Core) : (s.modCore n f).port = s.port := rfl
@[simp] theorem State.modCore_dead (n : Nat) (f : Core → Core) : (s.modCore n f).dead = s.dead := rfl
@[simp] theorem State.modCore_starting (n : Nat) (f : Core → Core) : (s.modCore n f).starting = s.starting := rfl
@[simp] theorem State.modCore_recovery (n : Nat) (f : Core → Core) : (s.modCore n f).recovery = s.recovery := rfl
@[simp] theorem State.modCore_image (n : Nat) (f : Core → Core) : (s.modCore n f).image = s.image := rfl
@[simp] theorem State.modCore_mbw (n : Nat) (f : Core → Core) : (s.modCore n f).mbw = s.mbw := rfl
@[simp] theorem State.modCore_mbBusy (n : Nat) (f : Core → Core) : (s.modCore n f).mbBusy = s.mbBusy := rfl
@[simp] theorem State.modCore_mbResult (n : Nat) (f : Core → Core) : (s.modCore n f).mbResult = s.mbResult := rfl
@[simp] theorem State.modCore_mbWait (n : Nat) (f : Core → Core) : (s.modCore n f).mbWait = s.mbWait := rfl
@[simp] theorem State.modCore_repSeq (n : Nat) (f : Core → Core) : (s.modCore n f).repSeq = s.repSeq := rfl
@[simp] theorem State.modCore_warm (n : Nat) (f : Core → Core) : (s.modCore n f).warm = s.warm := rfl
@[simp] theorem State.modCore_boxCopied (n : Nat) (f : Core → Core) : (s.modCore n f).boxCopied = s.boxCopied := rfl
@[simp] theorem State.modCore_readBack (n : Nat) (f : Core → Core) : (s.modCore n f).readBack = s.readBack := rfl
@[simp] theorem State.modCore_readPoison (n : Nat) (f : Core → Core) : (s.modCore n f).readPoison = s.readPoison := rfl
@[simp] theorem State.modCore_cycle (n : Nat) (f : Core → Core) : (s.modCore n f).cycle = s.cycle := rfl
@[simp] theorem State.modCore_refTime (n : Nat) (f : Core → Core) : (s.modCore n f).refTime = s.refTime := rfl
@[simp] theorem State.modCore_refPart (n : Nat) (f : Core → Core) : (s.modCore n f).refPart = s.refPart := rfl
@[simp] theorem State.modCore_mhz (n : Nat) (f : Core → Core) : (s.modCore n f).mhz = s.mhz := rfl
@[simp] theorem State.modCore_halted (n : Nat) (f : Core → Core) : (s.modCore n f).halted = s.halted := rfl
@[simp] theorem State.modCore_lastStep (n : Nat) (f : Core → Core) : (s.modCore n f).lastStep = s.lastStep := rfl
@[simp] theorem State.modCore_livePorts (n : Nat) (f : Core → Core) : (s.modCore n f).livePorts = s.livePorts := rfl
@[simp] theorem State.modCore_dies (n : Nat) (f : Core → Core) : (s.modCore n f).dies = s.dies := rfl
@[simp] theorem State.modCore_cores (n : Nat) (f : Core → Core) : (s.modCore n f).cores = modNth s.cores n f := rfl
@[simp] theorem State.modCore_homeTable (n : Nat) (f : Core → Core) : (s.modCore n f).homeTable = s.homeTable := rfl
@[simp] theorem State.modCore_quads (n : Nat) (f : Core → Core) : (s.modCore n f).quads = s.quads := rfl
@[simp] theorem State.modCore_nearMap (n : Nat) (f : Core → Core) : (s.modCore n f).nearMap = s.nearMap := rfl
@[simp] theorem State.modCore_lost (n : Nat) (f : Core → Core) : (s.modCore n f).lost = s.lost := rfl
@[simp] theorem State.modCore_rows (n : Nat) (f : Core → Core) : (s.modCore n f).rows = s.rows := rfl
@[simp] theorem State.modCore_rowLimit (n : Nat) (f : Core → Core) : (s.modCore n f).rowLimit = s.rowLimit := rfl
@[simp] theorem State.modCore_mem (n : Nat) (f : Core → Core) : (s.modCore n f).mem = s.mem := rfl
@[simp] theorem State.modCore_poison (n : Nat) (f : Core → Core) : (s.modCore n f).poison = s.poison := rfl
@[simp] theorem State.modCore_found (n : Nat) (f : Core → Core) : (s.modCore n f).found = s.found := rfl
@[simp] theorem State.modCore_watched (n : Nat) (f : Core → Core) : (s.modCore n f).watched = s.watched := rfl
@[simp] theorem State.modCore_records (n : Nat) (f : Core → Core) : (s.modCore n f).records = s.records := rfl
@[simp] theorem State.modCore_pkgWrites (n : Nat) (f : Core → Core) : (s.modCore n f).pkgWrites = s.pkgWrites := rfl
@[simp] theorem State.modCore_fences (n : Nat) (f : Core → Core) : (s.modCore n f).fences = s.fences := rfl
@[simp] theorem State.modCore_partitions (n : Nat) (f : Core → Core) : (s.modCore n f).partitions = s.partitions := rfl
@[simp] theorem State.modCore_contexts (n : Nat) (f : Core → Core) : (s.modCore n f).contexts = s.contexts := rfl
@[simp] theorem State.modCore_queues (n : Nat) (f : Core → Core) : (s.modCore n f).queues = s.queues := rfl
@[simp] theorem State.modCore_faults (n : Nat) (f : Core → Core) : (s.modCore n f).faults = s.faults := rfl
@[simp] theorem State.modCore_grids (n : Nat) (f : Core → Core) : (s.modCore n f).grids = s.grids := rfl
@[simp] theorem State.modCore_nextGrid (n : Nat) (f : Core → Core) : (s.modCore n f).nextGrid = s.nextGrid := rfl
@[simp] theorem State.modCore_crews (n : Nat) (f : Core → Core) : (s.modCore n f).crews = s.crews := rfl
@[simp] theorem State.modCore_nextId (n : Nat) (f : Core → Core) : (s.modCore n f).nextId = s.nextId := rfl
@[simp] theorem State.modCore_agenda (n : Nat) (f : Core → Core) : (s.modCore n f).agenda = s.agenda := rfl
@[simp] theorem State.modCore_cur (n : Nat) (f : Core → Core) : (s.modCore n f).cur = s.cur := rfl
@[simp] theorem State.modCore_drawn (n : Nat) (f : Core → Core) : (s.modCore n f).drawn = s.drawn := rfl

/-! ### modDie -/

@[simp] theorem State.modDie_port (n : Nat) (f : Die → Die) : (s.modDie n f).port = s.port := rfl
@[simp] theorem State.modDie_dead (n : Nat) (f : Die → Die) : (s.modDie n f).dead = s.dead := rfl
@[simp] theorem State.modDie_starting (n : Nat) (f : Die → Die) : (s.modDie n f).starting = s.starting := rfl
@[simp] theorem State.modDie_recovery (n : Nat) (f : Die → Die) : (s.modDie n f).recovery = s.recovery := rfl
@[simp] theorem State.modDie_image (n : Nat) (f : Die → Die) : (s.modDie n f).image = s.image := rfl
@[simp] theorem State.modDie_mbw (n : Nat) (f : Die → Die) : (s.modDie n f).mbw = s.mbw := rfl
@[simp] theorem State.modDie_mbBusy (n : Nat) (f : Die → Die) : (s.modDie n f).mbBusy = s.mbBusy := rfl
@[simp] theorem State.modDie_mbResult (n : Nat) (f : Die → Die) : (s.modDie n f).mbResult = s.mbResult := rfl
@[simp] theorem State.modDie_mbWait (n : Nat) (f : Die → Die) : (s.modDie n f).mbWait = s.mbWait := rfl
@[simp] theorem State.modDie_repSeq (n : Nat) (f : Die → Die) : (s.modDie n f).repSeq = s.repSeq := rfl
@[simp] theorem State.modDie_warm (n : Nat) (f : Die → Die) : (s.modDie n f).warm = s.warm := rfl
@[simp] theorem State.modDie_boxCopied (n : Nat) (f : Die → Die) : (s.modDie n f).boxCopied = s.boxCopied := rfl
@[simp] theorem State.modDie_readBack (n : Nat) (f : Die → Die) : (s.modDie n f).readBack = s.readBack := rfl
@[simp] theorem State.modDie_readPoison (n : Nat) (f : Die → Die) : (s.modDie n f).readPoison = s.readPoison := rfl
@[simp] theorem State.modDie_cycle (n : Nat) (f : Die → Die) : (s.modDie n f).cycle = s.cycle := rfl
@[simp] theorem State.modDie_refTime (n : Nat) (f : Die → Die) : (s.modDie n f).refTime = s.refTime := rfl
@[simp] theorem State.modDie_refPart (n : Nat) (f : Die → Die) : (s.modDie n f).refPart = s.refPart := rfl
@[simp] theorem State.modDie_mhz (n : Nat) (f : Die → Die) : (s.modDie n f).mhz = s.mhz := rfl
@[simp] theorem State.modDie_halted (n : Nat) (f : Die → Die) : (s.modDie n f).halted = s.halted := rfl
@[simp] theorem State.modDie_lastStep (n : Nat) (f : Die → Die) : (s.modDie n f).lastStep = s.lastStep := rfl
@[simp] theorem State.modDie_livePorts (n : Nat) (f : Die → Die) : (s.modDie n f).livePorts = s.livePorts := rfl
@[simp] theorem State.modDie_dies (n : Nat) (f : Die → Die) : (s.modDie n f).dies = modNth s.dies n f := rfl
@[simp] theorem State.modDie_cores (n : Nat) (f : Die → Die) : (s.modDie n f).cores = s.cores := rfl
@[simp] theorem State.modDie_homeTable (n : Nat) (f : Die → Die) : (s.modDie n f).homeTable = s.homeTable := rfl
@[simp] theorem State.modDie_quads (n : Nat) (f : Die → Die) : (s.modDie n f).quads = s.quads := rfl
@[simp] theorem State.modDie_nearMap (n : Nat) (f : Die → Die) : (s.modDie n f).nearMap = s.nearMap := rfl
@[simp] theorem State.modDie_lost (n : Nat) (f : Die → Die) : (s.modDie n f).lost = s.lost := rfl
@[simp] theorem State.modDie_rows (n : Nat) (f : Die → Die) : (s.modDie n f).rows = s.rows := rfl
@[simp] theorem State.modDie_rowLimit (n : Nat) (f : Die → Die) : (s.modDie n f).rowLimit = s.rowLimit := rfl
@[simp] theorem State.modDie_mem (n : Nat) (f : Die → Die) : (s.modDie n f).mem = s.mem := rfl
@[simp] theorem State.modDie_poison (n : Nat) (f : Die → Die) : (s.modDie n f).poison = s.poison := rfl
@[simp] theorem State.modDie_found (n : Nat) (f : Die → Die) : (s.modDie n f).found = s.found := rfl
@[simp] theorem State.modDie_watched (n : Nat) (f : Die → Die) : (s.modDie n f).watched = s.watched := rfl
@[simp] theorem State.modDie_records (n : Nat) (f : Die → Die) : (s.modDie n f).records = s.records := rfl
@[simp] theorem State.modDie_pkgWrites (n : Nat) (f : Die → Die) : (s.modDie n f).pkgWrites = s.pkgWrites := rfl
@[simp] theorem State.modDie_fences (n : Nat) (f : Die → Die) : (s.modDie n f).fences = s.fences := rfl
@[simp] theorem State.modDie_partitions (n : Nat) (f : Die → Die) : (s.modDie n f).partitions = s.partitions := rfl
@[simp] theorem State.modDie_contexts (n : Nat) (f : Die → Die) : (s.modDie n f).contexts = s.contexts := rfl
@[simp] theorem State.modDie_queues (n : Nat) (f : Die → Die) : (s.modDie n f).queues = s.queues := rfl
@[simp] theorem State.modDie_faults (n : Nat) (f : Die → Die) : (s.modDie n f).faults = s.faults := rfl
@[simp] theorem State.modDie_grids (n : Nat) (f : Die → Die) : (s.modDie n f).grids = s.grids := rfl
@[simp] theorem State.modDie_nextGrid (n : Nat) (f : Die → Die) : (s.modDie n f).nextGrid = s.nextGrid := rfl
@[simp] theorem State.modDie_crews (n : Nat) (f : Die → Die) : (s.modDie n f).crews = s.crews := rfl
@[simp] theorem State.modDie_nextId (n : Nat) (f : Die → Die) : (s.modDie n f).nextId = s.nextId := rfl
@[simp] theorem State.modDie_agenda (n : Nat) (f : Die → Die) : (s.modDie n f).agenda = s.agenda := rfl
@[simp] theorem State.modDie_cur (n : Nat) (f : Die → Die) : (s.modDie n f).cur = s.cur := rfl
@[simp] theorem State.modDie_drawn (n : Nat) (f : Die → Die) : (s.modDie n f).drawn = s.drawn := rfl

/-! ### setByte -/

@[simp] theorem State.setByte_port (k : Nat) (b : Byte) : (s.setByte k b).port = s.port := rfl
@[simp] theorem State.setByte_dead (k : Nat) (b : Byte) : (s.setByte k b).dead = s.dead := rfl
@[simp] theorem State.setByte_starting (k : Nat) (b : Byte) : (s.setByte k b).starting = s.starting := rfl
@[simp] theorem State.setByte_recovery (k : Nat) (b : Byte) : (s.setByte k b).recovery = s.recovery := rfl
@[simp] theorem State.setByte_image (k : Nat) (b : Byte) : (s.setByte k b).image = s.image := rfl
@[simp] theorem State.setByte_mbw (k : Nat) (b : Byte) : (s.setByte k b).mbw = s.mbw := rfl
@[simp] theorem State.setByte_mbBusy (k : Nat) (b : Byte) : (s.setByte k b).mbBusy = s.mbBusy := rfl
@[simp] theorem State.setByte_mbResult (k : Nat) (b : Byte) : (s.setByte k b).mbResult = s.mbResult := rfl
@[simp] theorem State.setByte_mbWait (k : Nat) (b : Byte) : (s.setByte k b).mbWait = s.mbWait := rfl
@[simp] theorem State.setByte_repSeq (k : Nat) (b : Byte) : (s.setByte k b).repSeq = s.repSeq := rfl
@[simp] theorem State.setByte_warm (k : Nat) (b : Byte) : (s.setByte k b).warm = s.warm := rfl
@[simp] theorem State.setByte_boxCopied (k : Nat) (b : Byte) : (s.setByte k b).boxCopied = s.boxCopied := rfl
@[simp] theorem State.setByte_readBack (k : Nat) (b : Byte) : (s.setByte k b).readBack = s.readBack := rfl
@[simp] theorem State.setByte_readPoison (k : Nat) (b : Byte) : (s.setByte k b).readPoison = s.readPoison := rfl
@[simp] theorem State.setByte_cycle (k : Nat) (b : Byte) : (s.setByte k b).cycle = s.cycle := rfl
@[simp] theorem State.setByte_refTime (k : Nat) (b : Byte) : (s.setByte k b).refTime = s.refTime := rfl
@[simp] theorem State.setByte_refPart (k : Nat) (b : Byte) : (s.setByte k b).refPart = s.refPart := rfl
@[simp] theorem State.setByte_mhz (k : Nat) (b : Byte) : (s.setByte k b).mhz = s.mhz := rfl
@[simp] theorem State.setByte_halted (k : Nat) (b : Byte) : (s.setByte k b).halted = s.halted := rfl
@[simp] theorem State.setByte_lastStep (k : Nat) (b : Byte) : (s.setByte k b).lastStep = s.lastStep := rfl
@[simp] theorem State.setByte_livePorts (k : Nat) (b : Byte) : (s.setByte k b).livePorts = s.livePorts := rfl
@[simp] theorem State.setByte_dies (k : Nat) (b : Byte) : (s.setByte k b).dies = s.dies := rfl
@[simp] theorem State.setByte_cores (k : Nat) (b : Byte) : (s.setByte k b).cores = s.cores := rfl
@[simp] theorem State.setByte_homeTable (k : Nat) (b : Byte) : (s.setByte k b).homeTable = s.homeTable := rfl
@[simp] theorem State.setByte_quads (k : Nat) (b : Byte) : (s.setByte k b).quads = s.quads := rfl
@[simp] theorem State.setByte_nearMap (k : Nat) (b : Byte) : (s.setByte k b).nearMap = s.nearMap := rfl
@[simp] theorem State.setByte_lost (k : Nat) (b : Byte) : (s.setByte k b).lost = s.lost := rfl
@[simp] theorem State.setByte_rows (k : Nat) (b : Byte) : (s.setByte k b).rows = s.rows := rfl
@[simp] theorem State.setByte_rowLimit (k : Nat) (b : Byte) : (s.setByte k b).rowLimit = s.rowLimit := rfl
@[simp] theorem State.setByte_mem (k : Nat) (b : Byte) : (s.setByte k b).mem = SMap.put 0 s.mem k (b ^^^ s.lostAt k) := rfl
@[simp] theorem State.setByte_poison (k : Nat) (b : Byte) : (s.setByte k b).poison = s.poison := rfl
@[simp] theorem State.setByte_found (k : Nat) (b : Byte) : (s.setByte k b).found = s.found := rfl
@[simp] theorem State.setByte_watched (k : Nat) (b : Byte) : (s.setByte k b).watched = s.watched := rfl
@[simp] theorem State.setByte_records (k : Nat) (b : Byte) : (s.setByte k b).records = s.records := rfl
@[simp] theorem State.setByte_pkgWrites (k : Nat) (b : Byte) : (s.setByte k b).pkgWrites = s.pkgWrites := rfl
@[simp] theorem State.setByte_fences (k : Nat) (b : Byte) : (s.setByte k b).fences = s.fences := rfl
@[simp] theorem State.setByte_partitions (k : Nat) (b : Byte) : (s.setByte k b).partitions = s.partitions := rfl
@[simp] theorem State.setByte_contexts (k : Nat) (b : Byte) : (s.setByte k b).contexts = s.contexts := rfl
@[simp] theorem State.setByte_queues (k : Nat) (b : Byte) : (s.setByte k b).queues = s.queues := rfl
@[simp] theorem State.setByte_faults (k : Nat) (b : Byte) : (s.setByte k b).faults = s.faults := rfl
@[simp] theorem State.setByte_grids (k : Nat) (b : Byte) : (s.setByte k b).grids = s.grids := rfl
@[simp] theorem State.setByte_nextGrid (k : Nat) (b : Byte) : (s.setByte k b).nextGrid = s.nextGrid := rfl
@[simp] theorem State.setByte_crews (k : Nat) (b : Byte) : (s.setByte k b).crews = s.crews := rfl
@[simp] theorem State.setByte_nextId (k : Nat) (b : Byte) : (s.setByte k b).nextId = s.nextId := rfl
@[simp] theorem State.setByte_agenda (k : Nat) (b : Byte) : (s.setByte k b).agenda = s.agenda := rfl
@[simp] theorem State.setByte_cur (k : Nat) (b : Byte) : (s.setByte k b).cur = s.cur := rfl
@[simp] theorem State.setByte_drawn (k : Nat) (b : Byte) : (s.setByte k b).drawn = s.drawn := rfl

/-! ### lose -/

@[simp] theorem State.lose_port (k n : Nat) : (s.lose k n).port = s.port := rfl
@[simp] theorem State.lose_dead (k n : Nat) : (s.lose k n).dead = s.dead := rfl
@[simp] theorem State.lose_starting (k n : Nat) : (s.lose k n).starting = s.starting := rfl
@[simp] theorem State.lose_recovery (k n : Nat) : (s.lose k n).recovery = s.recovery := rfl
@[simp] theorem State.lose_image (k n : Nat) : (s.lose k n).image = s.image := rfl
@[simp] theorem State.lose_mbw (k n : Nat) : (s.lose k n).mbw = s.mbw := rfl
@[simp] theorem State.lose_mbBusy (k n : Nat) : (s.lose k n).mbBusy = s.mbBusy := rfl
@[simp] theorem State.lose_mbResult (k n : Nat) : (s.lose k n).mbResult = s.mbResult := rfl
@[simp] theorem State.lose_mbWait (k n : Nat) : (s.lose k n).mbWait = s.mbWait := rfl
@[simp] theorem State.lose_repSeq (k n : Nat) : (s.lose k n).repSeq = s.repSeq := rfl
@[simp] theorem State.lose_warm (k n : Nat) : (s.lose k n).warm = s.warm := rfl
@[simp] theorem State.lose_boxCopied (k n : Nat) : (s.lose k n).boxCopied = s.boxCopied := rfl
@[simp] theorem State.lose_readBack (k n : Nat) : (s.lose k n).readBack = s.readBack := rfl
@[simp] theorem State.lose_readPoison (k n : Nat) : (s.lose k n).readPoison = s.readPoison := rfl
@[simp] theorem State.lose_cycle (k n : Nat) : (s.lose k n).cycle = s.cycle := rfl
@[simp] theorem State.lose_refTime (k n : Nat) : (s.lose k n).refTime = s.refTime := rfl
@[simp] theorem State.lose_refPart (k n : Nat) : (s.lose k n).refPart = s.refPart := rfl
@[simp] theorem State.lose_mhz (k n : Nat) : (s.lose k n).mhz = s.mhz := rfl
@[simp] theorem State.lose_halted (k n : Nat) : (s.lose k n).halted = s.halted := rfl
@[simp] theorem State.lose_lastStep (k n : Nat) : (s.lose k n).lastStep = s.lastStep := rfl
@[simp] theorem State.lose_livePorts (k n : Nat) : (s.lose k n).livePorts = s.livePorts := rfl
@[simp] theorem State.lose_dies (k n : Nat) : (s.lose k n).dies = s.dies := rfl
@[simp] theorem State.lose_cores (k n : Nat) : (s.lose k n).cores = s.cores := rfl
@[simp] theorem State.lose_homeTable (k n : Nat) : (s.lose k n).homeTable = s.homeTable := rfl
@[simp] theorem State.lose_quads (k n : Nat) : (s.lose k n).quads = s.quads := rfl
@[simp] theorem State.lose_nearMap (k n : Nat) : (s.lose k n).nearMap = s.nearMap := rfl
@[simp] theorem State.lose_lost (k n : Nat) : (s.lose k n).lost = (k, n, s.drawn) :: s.lost := rfl
@[simp] theorem State.lose_rows (k n : Nat) : (s.lose k n).rows = s.rows := rfl
@[simp] theorem State.lose_rowLimit (k n : Nat) : (s.lose k n).rowLimit = s.rowLimit := rfl
@[simp] theorem State.lose_mem (k n : Nat) : (s.lose k n).mem = s.mem := rfl
@[simp] theorem State.lose_poison (k n : Nat) : (s.lose k n).poison = s.poison := rfl
@[simp] theorem State.lose_found (k n : Nat) : (s.lose k n).found = s.found := rfl
@[simp] theorem State.lose_watched (k n : Nat) : (s.lose k n).watched = s.watched := rfl
@[simp] theorem State.lose_records (k n : Nat) : (s.lose k n).records = s.records := rfl
@[simp] theorem State.lose_pkgWrites (k n : Nat) : (s.lose k n).pkgWrites = s.pkgWrites := rfl
@[simp] theorem State.lose_fences (k n : Nat) : (s.lose k n).fences = s.fences := rfl
@[simp] theorem State.lose_partitions (k n : Nat) : (s.lose k n).partitions = s.partitions := rfl
@[simp] theorem State.lose_contexts (k n : Nat) : (s.lose k n).contexts = s.contexts := rfl
@[simp] theorem State.lose_queues (k n : Nat) : (s.lose k n).queues = s.queues := rfl
@[simp] theorem State.lose_faults (k n : Nat) : (s.lose k n).faults = s.faults := rfl
@[simp] theorem State.lose_grids (k n : Nat) : (s.lose k n).grids = s.grids := rfl
@[simp] theorem State.lose_nextGrid (k n : Nat) : (s.lose k n).nextGrid = s.nextGrid := rfl
@[simp] theorem State.lose_crews (k n : Nat) : (s.lose k n).crews = s.crews := rfl
@[simp] theorem State.lose_nextId (k n : Nat) : (s.lose k n).nextId = s.nextId := rfl
@[simp] theorem State.lose_agenda (k n : Nat) : (s.lose k n).agenda = s.agenda := rfl
@[simp] theorem State.lose_cur (k n : Nat) : (s.lose k n).cur = s.cur := rfl
@[simp] theorem State.lose_drawn (k n : Nat) : (s.lose k n).drawn = s.drawn + 1 := rfl

end Sys2Proof.Machine
end

