-- ==== Sys2Proof/Laws/Lookup.lean ====
section
/-! SUPPORT. What the lookups of crews, strands and grids give after an update. -/
namespace Sys2Proof.Machine

/-- Finding in a list whose elements have been changed without changing what is looked for. -/
theorem find?_modWhere {α : Type} (l : List α) (p q : α → Bool) (f : α → α) (h : ∀ x, p (f x) = p x) :
    (modWhere q f l).find? p = (l.find? p).map fun x => if q x then f x else x := by
  unfold modWhere
  rw [List.find?_map]
  congr 1
  congr 1
  funext x
  by_cases hq : q x <;> simp [Function.comp, hq, h]

/-- A crew after a change that keeps its name. -/
theorem crew?_modCrew (s : State) (r q : CrewRef) (f : Crew → Crew) (h : ∀ c, (f c).grid = c.grid ∧ (f c).idx = c.idx) :
    (s.modCrew r f).crew? q = (s.crew? q).map fun c => if c.grid = r.grid && c.idx = r.idx then f c else c := by
  unfold State.crew?
  rw [State.modCrew_crews, find?_modWhere _ _ _ _ fun c => by simp [h c]]

theorem crew?_spec {s : State} {r : CrewRef} {c : Crew} (h : s.crew? r = some c) : c.grid = r.grid ∧ c.idx = r.idx := by
  have := List.find?_some h
  simpa using this

theorem crew?_modCrew_same (s : State) (r : CrewRef) (f : Crew → Crew) (h : ∀ c, (f c).grid = c.grid ∧ (f c).idx = c.idx) :
    (s.modCrew r f).crew? r = (s.crew? r).map f := by
  rw [crew?_modCrew s r r f h]
  cases hc : s.crew? r with
  | none => rfl
  | some c => simp [(crew?_spec hc).1, (crew?_spec hc).2]

theorem crew?_modCrew_other (s : State) (r q : CrewRef) (f : Crew → Crew) (h : ∀ c, (f c).grid = c.grid ∧ (f c).idx = c.idx)
    (hq : q ≠ r) : (s.modCrew r f).crew? q = s.crew? q := by
  rw [crew?_modCrew s r q f h]
  cases hc : s.crew? q with
  | none => rfl
  | some c =>
    have hs := crew?_spec hc
    have : ¬(c.grid = r.grid ∧ c.idx = r.idx) := fun hh => hq (by cases q; cases r; simp_all)
    by_cases h1 : c.grid = r.grid <;> by_cases h2 : c.idx = r.idx <;> simp_all

theorem Crew.strand?_modStrand_same (c : Crew) (n : Nat) (f : Strand → Strand) (h : ∀ t, (f t).idx = t.idx) :
    (c.modStrand n f).strand? n = (c.strand? n).map f := by
  unfold Crew.strand? Crew.modStrand
  rw [find?_modWhere _ _ _ _ fun t => by simp [h t]]
  cases hc : c.strands.find? fun x => decide (x.idx = n) with
  | none => simp
  | some t => have := List.find?_some hc; simp_all

theorem Crew.strand?_modStrand_other (c : Crew) (n k : Nat) (f : Strand → Strand) (h : ∀ t, (f t).idx = t.idx) (hk : k ≠ n) :
    (c.modStrand n f).strand? k = c.strand? k := by
  unfold Crew.strand? Crew.modStrand
  rw [find?_modWhere _ _ _ _ fun t => by simp [h t]]
  cases hc : c.strands.find? fun x => decide (x.idx = k) with
  | none => simp
  | some t => have := List.find?_some hc; simp_all

/-- A strand after a change that keeps its name. -/
theorem strand?_modStrand_same (s : State) (r : StrandRef) (f : Strand → Strand) (h : ∀ t, (f t).idx = t.idx) :
    (s.modStrand r f).strand? r = (s.strand? r).map f := by
  unfold State.strand? State.modStrand
  rw [crew?_modCrew_same s r.crew (fun c => c.modStrand r.strand f) fun c => ⟨rfl, rfl⟩]
  cases s.crew? r.crew with
  | none => rfl
  | some c => exact Crew.strand?_modStrand_same c r.strand f h

theorem strand?_modStrand_other (s : State) (r q : StrandRef) (f : Strand → Strand) (h : ∀ t, (f t).idx = t.idx) (hq : q ≠ r) :
    (s.modStrand r f).strand? q = s.strand? q := by
  unfold State.strand? State.modStrand
  by_cases hc : q.crew = r.crew
  · rw [hc, crew?_modCrew_same s r.crew (fun c => c.modStrand r.strand f) fun c => ⟨rfl, rfl⟩]
    cases s.crew? r.crew with
    | none => rfl
    | some c =>
      exact Crew.strand?_modStrand_other c r.strand q.strand f h fun e => hq (by cases q; cases r; simp_all)
  · rw [crew?_modCrew_other s r.crew q.crew (fun c => c.modStrand r.strand f) (fun c => ⟨rfl, rfl⟩) hc]

theorem crew?_modStrand_same (s : State) (r : StrandRef) (f : Strand → Strand) :
    (s.modStrand r f).crew? r.crew = (s.crew? r.crew).map fun c => c.modStrand r.strand f :=
  crew?_modCrew_same s r.crew (fun c => c.modStrand r.strand f) fun _ => ⟨rfl, rfl⟩

theorem crew?_modStrand_other (s : State) (r : StrandRef) (q : CrewRef) (f : Strand → Strand) (h : q ≠ r.crew) :
    (s.modStrand r f).crew? q = s.crew? q :=
  crew?_modCrew_other s r.crew q (fun c => c.modStrand r.strand f) (fun _ => ⟨rfl, rfl⟩) h

/-- A crew after cycles have passed: its watchdog may have counted on. -/
theorem crew?_tick (s : State) (n : Nat) (r : CrewRef) :
    ∃ w : Crew → Nat, (s.tick n).crew? r = (s.crew? r).map fun c => { c with wdCount := w c } := by
  by_cases h : (s.refPart + n) / s.mhz = 0
  · refine ⟨fun c => c.wdCount, ?_⟩
    have : (s.tick n).crew? r = s.crew? r := by unfold State.crew?; rw [State.tick_crews, if_pos h]
    rw [this]
    cases s.crew? r <;> rfl
  · refine ⟨fun c => if c.ages then c.wdCount + (s.refPart + n) / s.mhz else c.wdCount, ?_⟩
    unfold State.crew?
    rw [State.tick_crews, if_neg h, find?_modWhere]
    · congr 1
      funext c
      by_cases hc : c.ages <;> simp [hc]
    · intro c; rfl

@[simp] theorem strand?_tick (s : State) (n : Nat) (r : StrandRef) : (s.tick n).strand? r = s.strand? r := by
  obtain ⟨w, h⟩ := crew?_tick s n r.crew
  unfold State.strand?
  rw [h]
  cases s.crew? r.crew <;> rfl

theorem grid?_modGrid_same (s : State) (g : Nat) (f : Grid → Grid) (h : ∀ x, (f x).id = x.id) :
    (s.modGrid g f).grid? g = (s.grid? g).map f := by
  unfold State.grid?
  rw [State.modGrid_grids, find?_modWhere _ _ _ _ fun x => by simp [h x]]
  cases hc : s.grids.find? fun x => decide (x.id = g) with
  | none => rfl
  | some x => have := List.find?_some hc; simp_all

theorem grid?_modGrid_other (s : State) (g k : Nat) (f : Grid → Grid) (h : ∀ x, (f x).id = x.id) (hk : k ≠ g) :
    (s.modGrid g f).grid? k = s.grid? k := by
  unfold State.grid?
  rw [State.modGrid_grids, find?_modWhere _ _ _ _ fun x => by simp [h x]]
  cases hc : s.grids.find? fun x => decide (x.id = k) with
  | none => rfl
  | some x => have := List.find?_some hc; simp_all

@[simp] theorem crew?_modGrid (s : State) (g : Nat) (f : Grid → Grid) (r : CrewRef) : (s.modGrid g f).crew? r = s.crew? r := rfl
@[simp] theorem crew?_modCore (s : State) (n : Nat) (f : Core → Core) (r : CrewRef) : (s.modCore n f).crew? r = s.crew? r := rfl
@[simp] theorem crew?_modDie (s : State) (n : Nat) (f : Die → Die) (r : CrewRef) : (s.modDie n f).crew? r = s.crew? r := rfl
@[simp] theorem crew?_modQueue (s : State) (n : Nat) (f : Queue → Queue) (r : CrewRef) : (s.modQueue n f).crew? r = s.crew? r := rfl
@[simp] theorem crew?_setByte (s : State) (k : Nat) (b : Byte) (r : CrewRef) : (s.setByte k b).crew? r = s.crew? r := rfl

end Sys2Proof.Machine
end

