-- ==== Sys2Proof/Laws/Lanes.lean ====
section
/-! SUPPORT. Laws of lane masks. -/
namespace Sys2Proof.Machine

theorem hasLane_lt {m : Mask} {l : Nat} (h : hasLane m l = true) : l < 32 := by
  by_contra hl
  simp [hasLane, BitVec.getLsbD_of_ge m l (by omega)] at h

@[simp] theorem mem_lanes {l : Nat} : l ∈ lanes ↔ l < 32 := by simp [lanes]

@[simp] theorem mem_lanesOf {m : Mask} {l : Nat} : l ∈ lanesOf m ↔ hasLane m l = true := by
  simp only [lanesOf, List.mem_filter, mem_lanes]
  exact ⟨And.right, fun h => ⟨hasLane_lt h, h⟩⟩

theorem hasLane_or (m n : Mask) (l : Nat) : hasLane (m ||| n) l = (hasLane m l || hasLane n l) := by simp [hasLane]
theorem hasLane_and (m n : Mask) (l : Nat) : hasLane (m &&& n) l = (hasLane m l && hasLane n l) := by simp [hasLane]
@[simp] theorem hasLane_zero (l : Nat) : hasLane 0#32 l = false := by simp [hasLane]

theorem hasLane_one (k l : Nat) (hk : k < 32) : hasLane (1#32 <<< k) l = decide (l = k) := by
  simp only [hasLane, BitVec.getLsbD_shiftLeft, BitVec.getLsbD_one]
  by_cases h : l = k
  · subst h; simp [hk]
  · by_cases h1 : l < k
    · simp [h1, h]
    · have : l - k ≠ 0 := by omega
      simp [this, h]

theorem hasLane_not (m : Mask) (l : Nat) : hasLane (~~~m) l = (decide (l < 32) && !(hasLane m l)) := by simp [hasLane]

theorem hasLane_foldl (p : Nat → Bool) (ls : List Nat) (m : Mask) (l : Nat) (h : ∀ k ∈ ls, k < 32) :
    hasLane (ls.foldl (fun m k => if p k then m ||| (1#32 <<< k) else m) m) l =
      (hasLane m l || (decide (l ∈ ls) && p l)) := by
  induction ls generalizing m with
  | nil => simp
  | cons k t ih =>
    rw [List.foldl_cons, ih _ fun x hx => h x (List.mem_cons_of_mem _ hx)]
    have hk : k < 32 := h k (List.mem_cons_self ..)
    by_cases hp : p k
    · rw [if_pos hp, hasLane_or, hasLane_one k l hk]
      by_cases hl : l = k
      · subst hl; simp [hp]
      · simp [hl]
    · rw [if_neg hp]
      by_cases hl : l = k
      · subst hl; simp [hp]
      · simp [hl]

@[simp] theorem hasLane_maskOf (p : Nat → Bool) (l : Nat) : hasLane (maskOf p) l = (decide (l < 32) && p l) := by
  rw [maskOf, hasLane_foldl p lanes 0#32 l fun k hk => by simpa using hk]
  simp

/-- Masks with the same lanes are the same. -/
theorem mask_ext {m n : Mask} (h : ∀ l, l < 32 → hasLane m l = hasLane n l) : m = n := by
  apply BitVec.eq_of_getLsbD_eq
  intro i hi
  exact h i hi

theorem mask_ne_zero {m : Mask} : m ≠ 0#32 ↔ ∃ l, hasLane m l = true := by
  constructor
  · intro h
    by_contra hn
    exact h (mask_ext fun l _ => by simpa using fun hl => hn ⟨l, hl⟩)
  · rintro ⟨l, hl⟩ rfl
    simp at hl

theorem lowest_mem {m : Mask} (h : m ≠ 0#32) : hasLane m (lowest m) = true := by
  obtain ⟨l, hl⟩ := mask_ne_zero.mp h
  have hne : lanesOf m ≠ [] := fun he => by have := mem_lanesOf.mpr hl; simp [he] at this
  obtain ⟨x, t, hx⟩ := List.exists_cons_of_ne_nil hne
  have hm : x ∈ lanesOf m := by rw [hx]; exact List.mem_cons_self ..
  have : lowest m = x := by simp [lowest, lowest?, hx]
  rw [this]
  exact mem_lanesOf.mp hm

end Sys2Proof.Machine
end

