-- ==== Sys2Proof/Laws/Maps.lean ====
section
/-! SUPPORT. Laws of the sparse tables: what a lookup gives after a write, and that writes keep the canonical form. -/
namespace Sys2Proof

variable {α : Type}

@[simp] theorem SMap.look_nil (d : α) (n : Nat) : SMap.look d [] n = d := rfl

theorem SMap.look_drop (d : α) (m : SMap α) (n k : Nat) :
    SMap.look d (SMap.drop m n) k = if k = n then d else SMap.look d m k := by
  induction m with
  | nil => simp [SMap.drop, SMap.look]
  | cons x t ih =>
    obtain ⟨a, v⟩ := x
    by_cases h : n = a <;> by_cases h' : k = a <;> simp_all [SMap.drop, SMap.look]
    intro hk
    exact absurd hk.symm (by simpa [eq_comm] using h)

theorem SMap.look_list (d : α) (m : SMap α) (n k : Nat) (v : α) :
    SMap.look d (SMap.list m n v) k = if k = n then v else SMap.look d m k := by
  induction m with
  | nil => simp [SMap.list, SMap.look]
  | cons x t ih =>
    obtain ⟨a, w⟩ := x
    by_cases h : n = a
    · by_cases h' : k = a <;> simp_all [SMap.list, SMap.look]
    · by_cases h2 : n < a
      · by_cases h' : k = n <;> simp_all [SMap.list, SMap.look]
      · rw [SMap.list, if_neg h, if_neg h2]
        by_cases h' : k = a
        · subst h'; simp [SMap.look, Ne.symm h]
        · simp [SMap.look, h', ih]

/-- What a lookup gives after a write. -/
theorem SMap.look_put [DecidableEq α] (d : α) (m : SMap α) (n k : Nat) (v : α) :
    SMap.look d (SMap.put d m n v) k = if k = n then v else SMap.look d m k := by
  unfold SMap.put
  split
  · rename_i h; rw [SMap.look_drop, h]
  · exact SMap.look_list d m n k v

@[simp] theorem SMap.look_put_same [DecidableEq α] (d : α) (m : SMap α) (n : Nat) (v : α) :
    SMap.look d (SMap.put d m n v) n = v := by simp [SMap.look_put]

theorem SMap.look_put_other [DecidableEq α] (d : α) (m : SMap α) {n k : Nat} (v : α) (h : k ≠ n) :
    SMap.look d (SMap.put d m n v) k = SMap.look d m k := by simp [SMap.look_put, h]

/-- A key that no entry of the list names keeps its value. -/
theorem SMap.look_putAll_other [DecidableEq α] (d : α) (l : List (Nat × α)) (m : SMap α) (k : Nat)
    (h : ∀ x ∈ l, x.1 ≠ k) : SMap.look d (SMap.putAll d m l) k = SMap.look d m k := by
  induction l generalizing m with
  | nil => rfl
  | cons x t ih =>
    obtain ⟨a, v⟩ := x
    have ha : a ≠ k := h (a, v) (List.mem_cons_self ..)
    rw [SMap.putAll, ih _ fun y hy => h y (List.mem_cons_of_mem _ hy), SMap.look_put_other d m v (Ne.symm ha)]

/-- A table of a function over distinct keys gives the function's value. -/
theorem SMap.look_putAll_map [DecidableEq α] (d : α) (l : List Nat) (f : Nat → α) (m : SMap α) (k : Nat) :
    SMap.look d (SMap.putAll d m (l.map fun x => (x, f x))) k = if k ∈ l then f k else SMap.look d m k := by
  induction l generalizing m with
  | nil => simp [SMap.putAll]
  | cons x t ih =>
    simp only [List.map_cons, SMap.putAll, ih, SMap.look_put, List.mem_cons]
    by_cases h : k ∈ t <;> by_cases h' : k = x <;> simp_all

/-! ## The canonical form -/

theorem SMap.wfFrom_drop [DecidableEq α] (d : α) (m : SMap α) (n : Nat) (b : Option Nat) (h : SMap.wfFrom d b m = true) :
    SMap.wfFrom d b (SMap.drop m n) = true := by
  have weaken : ∀ (l : SMap α) (a c : Nat) (b : Option Nat), SMap.wfFrom d (some a) l = true →
      (∀ x, b = some x → x < a) → c = c → SMap.wfFrom d b l = true := by
    intro l a c b hl hb _
    cases l with
    | nil => rfl
    | cons x t =>
      obtain ⟨k, v⟩ := x
      simp only [SMap.wfFrom, Bool.and_eq_true, decide_eq_true_eq] at hl ⊢
      refine ⟨⟨?_, hl.1.2⟩, hl.2⟩
      cases b with
      | none => trivial
      | some x => simpa using lt_trans (hb x rfl) hl.1.1
  induction m generalizing b with
  | nil => rfl
  | cons x t ih =>
    obtain ⟨k, v⟩ := x
    simp only [SMap.wfFrom, Bool.and_eq_true, decide_eq_true_eq] at h
    simp only [SMap.drop]
    split
    · refine weaken _ k 0 b (ih _ h.2) ?_ rfl
      intro y hy; subst hy; simpa using h.1.1
    · simp only [SMap.wfFrom, Bool.and_eq_true, decide_eq_true_eq]
      exact ⟨h.1, ih _ h.2⟩

theorem SMap.wfFrom_list [DecidableEq α] (d : α) (m : SMap α) (n : Nat) (v : α) (b : Option Nat)
    (h : SMap.wfFrom d b m = true) (hv : v ≠ d) (hb : ∀ x, b = some x → x < n) :
    SMap.wfFrom d b (SMap.list m n v) = true := by
  induction m generalizing b with
  | nil =>
    cases b with
    | none => simp [SMap.list, SMap.wfFrom, hv]
    | some x => simp [SMap.list, SMap.wfFrom, hv, hb x rfl]
  | cons x t ih =>
    obtain ⟨k, w⟩ := x
    simp only [SMap.wfFrom, Bool.and_eq_true, decide_eq_true_eq] at h
    simp only [SMap.list]
    split
    · rename_i hk; subst hk
      simp only [SMap.wfFrom, Bool.and_eq_true, decide_eq_true_eq]
      exact ⟨⟨h.1.1, hv⟩, h.2⟩
    · split
      · rename_i _ hlt
        simp only [SMap.wfFrom, Bool.and_eq_true, decide_eq_true_eq]
        refine ⟨⟨?_, hv⟩, ⟨by simpa using hlt, h.1.2⟩, h.2⟩
        cases b with
        | none => trivial
        | some x => simpa using hb x rfl
      · rename_i hne hlt
        simp only [SMap.wfFrom, Bool.and_eq_true, decide_eq_true_eq]
        refine ⟨h.1, ih _ h.2 ?_⟩
        intro y hy
        injection hy with hy
        omega

/-- Every write keeps the canonical form. -/
theorem SMap.wf_put [DecidableEq α] (d : α) (m : SMap α) (n : Nat) (v : α) (h : SMap.wf d m = true) :
    SMap.wf d (SMap.put d m n v) = true := by
  unfold SMap.put SMap.wf
  split
  · exact SMap.wfFrom_drop d m n none h
  · exact SMap.wfFrom_list d m n v none h ‹_› (by simp)

theorem SMap.wf_putAll [DecidableEq α] (d : α) (l : List (Nat × α)) (m : SMap α) (h : SMap.wf d m = true) :
    SMap.wf d (SMap.putAll d m l) = true := by
  induction l generalizing m with
  | nil => exact h
  | cons x t ih => exact ih _ (SMap.wf_put d m x.1 x.2 h)

theorem SMap.wfFrom_filter [DecidableEq α] (d : α) (p : Nat × α → Bool) (m : SMap α) (b : Option Nat)
    (h : SMap.wfFrom d b m = true) : SMap.wfFrom d b (m.filter p) = true := by
  induction m generalizing b with
  | nil => rfl
  | cons x t ih =>
    obtain ⟨k, v⟩ := x
    simp only [SMap.wfFrom, Bool.and_eq_true, decide_eq_true_eq] at h
    have hup : SMap.wfFrom d b t = true := by
      cases t with
      | nil => rfl
      | cons y u =>
        obtain ⟨j, w⟩ := y
        have h2 := h.2
        simp only [SMap.wfFrom, Bool.and_eq_true, decide_eq_true_eq] at h2 ⊢
        refine ⟨⟨?_, h2.1.2⟩, h2.2⟩
        cases b with
        | none => trivial
        | some x => simp at h ⊢; omega
    by_cases hp : p (k, v) = true
    · rw [List.filter_cons_of_pos hp]
      simp only [SMap.wfFrom, Bool.and_eq_true, decide_eq_true_eq]
      exact ⟨h.1, ih _ h.2⟩
    · rw [List.filter_cons_of_neg hp]; exact ih _ hup

/-- A part of a table in canonical form is in canonical form. -/
theorem SMap.wf_filter [DecidableEq α] (d : α) (p : Nat × α → Bool) (m : SMap α) (h : SMap.wf d m = true) :
    SMap.wf d (m.filter p) = true := SMap.wfFrom_filter d p m none h

/-- The empty table is in canonical form. -/
theorem SMap.wf_nil [DecidableEq α] (d : α) : SMap.wf d ([] : SMap α) = true := rfl

end Sys2Proof
end

