-- ==== Sys2Proof/Laws/Registers.lean ====
section
/-! SUPPORT. What a register write does, and nothing else (R47 to R49, R59, R60). -/
namespace Sys2Proof.Machine

theorem look_writeLanes_aux (f : Nat → Word) (n : Nat) (ls : List Nat) (v : SMap Word) (k : Nat) :
    SMap.look 0 (ls.foldl (fun m l => SMap.put 0 m (32 * n + l) (f l)) v) k =
      if ∃ l ∈ ls, k = 32 * n + l then f (k - 32 * n) else SMap.look 0 v k := by
  induction ls generalizing v with
  | nil => simp
  | cons l t ih =>
    rw [List.foldl_cons, ih, SMap.look_put]
    by_cases h : ∃ x ∈ t, k = 32 * n + x
    · have h' : ∃ x ∈ l :: t, k = 32 * n + x := by
        obtain ⟨x, hx, e⟩ := h; exact ⟨x, List.mem_cons_of_mem _ hx, e⟩
      rw [if_pos h, if_pos h']
    · rw [if_neg h]
      by_cases hk : k = 32 * n + l
      · rw [if_pos hk, if_pos ⟨l, List.mem_cons_self .., hk⟩]
        congr 1; omega
      · rw [if_neg hk, if_neg]
        rintro ⟨x, hx, e⟩
        rcases List.mem_cons.mp hx with rfl | hx
        · exact hk e
        · exact h ⟨x, hx, e⟩

theorem look_writeLanes (v : SMap Word) (act : Mask) (n m l : Nat) (f : Nat → Word) (hl : l < 32) :
    SMap.look 0 (writeLanes v act n f) (32 * m + l) =
      if m = n ∧ hasLane act l = true then f l else SMap.look 0 v (32 * m + l) := by
  rw [writeLanes, look_writeLanes_aux]
  by_cases h : m = n ∧ hasLane act l = true
  · rw [if_pos h, if_pos ⟨l, mem_lanesOf.mpr h.2, by rw [h.1]⟩, h.1]
    congr 1; omega
  · rw [if_neg h, if_neg]
    rintro ⟨x, hx, e⟩
    have hx' := hasLane_lt (mem_lanesOf.mp hx)
    exact h ⟨by omega, by rw [show l = x by omega]; exact mem_lanesOf.mp hx⟩

/-- A v register after a write under a mask. -/
theorem vAt_writeV (t : Strand) (act : Mask) (n m l : Nat) (f : Nat → Word) (hl : l < 32) :
    (t.writeV act n f).vAt m l = if m = n ∧ hasLane act l = true then f l else t.vAt m l := by
  unfold Strand.writeV
  by_cases h : act = 0
  · subst h; simp
  · simp only [if_neg h, Strand.vAt]
    exact look_writeLanes t.v act n m l f hl

@[simp] theorem sAt_writeV (t : Strand) (act : Mask) (n m : Nat) (f : Nat → Word) : (t.writeV act n f).sAt m = t.sAt m := by
  unfold Strand.writeV; split <;> rfl
@[simp] theorem pAt_writeV (t : Strand) (act : Mask) (n m l : Nat) (f : Nat → Word) : (t.writeV act n f).pAt m l = t.pAt m l := by
  unfold Strand.writeV; split <;> rfl

@[simp] theorem sAt_writeS (t : Strand) (n m : Nat) (x : Word) : (t.writeS n x).sAt m = if m = n then x else t.sAt m := by
  simp [Strand.writeS, Strand.sAt, SMap.look_put]
@[simp] theorem vAt_writeS (t : Strand) (n m l : Nat) (x : Word) : (t.writeS n x).vAt m l = t.vAt m l := rfl
@[simp] theorem pAt_writeS (t : Strand) (n m l : Nat) (x : Word) : (t.writeS n x).pAt m l = t.pAt m l := rfl

/-- A p register after a write under a mask. -/
theorem pAt_writeP (t : Strand) (act : Mask) (n m l : Nat) (f : Nat → Bool) :
    (t.writeP act n f).pAt m l = if m = n ∧ n ≠ 7 ∧ hasLane act l = true then f l else t.pAt m l := by
  unfold Strand.writeP
  by_cases h7 : n = 7
  · simp [h7]
  · simp only [if_neg h7, Strand.pAt]
    by_cases hm : m = 7
    · have : ¬(7 = n) := fun e => h7 e.symm
      simp [hm, this]
    · simp only [if_neg hm, SMap.look_put]
      by_cases hn : m = n
      · subst hn
        simp only [if_true, hasLane_or, hasLane_and, hasLane_not, hasLane_maskOf]
        by_cases ha : hasLane act l = true
        · simp [ha, hasLane_lt ha, h7]
        · by_cases hl : l < 32
          · simp [ha, hl]
          · have : ∀ x : Mask, hasLane x l = false := fun x => by
              by_contra hc; exact hl (hasLane_lt (by simpa using hc))
            simp [this]
      · simp [hn]
@[simp] theorem vAt_writeP (t : Strand) (act : Mask) (n m l : Nat) (f : Nat → Bool) : (t.writeP act n f).vAt m l = t.vAt m l := by
  unfold Strand.writeP; split <;> rfl
@[simp] theorem sAt_writeP (t : Strand) (act : Mask) (n m : Nat) (f : Nat → Bool) : (t.writeP act n f).sAt m = t.sAt m := by
  unfold Strand.writeP; split <;> rfl

/-- A result reaches its destination. -/
theorem wrote_writeD (t : Strand) (act : Mask) (o : Opd) (wide : Bool) (f : Nat → DWord) (ha : act ≠ 0) :
    Wrote o wide act f (t.writeD act o wide f) := by
  cases o with
  | v n =>
    intro l hl
    have hlt := hasLane_lt hl
    constructor
    · unfold Strand.writeD
      by_cases hw : wide = true
      · simp only [hw, if_true]
        rw [vAt_writeV _ _ _ _ _ _ hlt, if_neg (by omega), vAt_writeV _ _ _ _ _ _ hlt, if_pos ⟨rfl, hl⟩]
      · simp only [hw, Bool.false_eq_true, if_false]
        rw [vAt_writeV _ _ _ _ _ _ hlt, if_pos ⟨rfl, hl⟩]
    · intro hw
      simp only [Strand.writeD, hw, if_true]
      rw [vAt_writeV _ _ _ _ _ _ hlt, if_pos ⟨rfl, hl⟩]
  | s n =>
    constructor
    · simp only [Strand.writeD, if_neg ha]; by_cases hw : wide = true <;> simp [hw]
    · intro hw; simp only [Strand.writeD, if_neg ha]; simp [hw]
  | p n =>
    intro l hl
    simp only [Strand.writeD, pAt_writeP]
    by_cases h7 : n = 7
    · subst h7; simp [Strand.pAt]
    · have : n.toNat ≠ 7 := fun e => h7 (BitVec.eq_of_toNat_eq (by simpa using e))
      rw [if_neg h7, if_pos ⟨trivial, this, hl⟩]
  | _ => trivial

/-- Nothing but the destination changes. -/
theorem onlyWrote_writeD (t : Strand) (act : Mask) (o : Opd) (wide : Bool) (f : Nat → DWord) :
    OnlyWrote o wide act t (t.writeD act o wide f) := by
  refine ⟨fun n l hl hh => ?_, fun n hh => ?_, fun n l hh => ?_⟩
  · cases o with
    | v m =>
      simp only [hitsV, Bool.and_eq_false_iff, Bool.or_eq_false_iff, decide_eq_false_iff_not] at hh
      by_cases hw : wide = true
      · simp only [Strand.writeD, hw, if_true]
        rw [vAt_writeV _ _ _ _ _ _ hl, vAt_writeV _ _ _ _ _ _ hl, if_neg, if_neg]
        · rintro ⟨rfl, h⟩; rcases hh with hh | ⟨hh, _⟩ <;> simp_all
        · rintro ⟨rfl, h⟩; rcases hh with hh | ⟨_, hh⟩ <;> simp_all
      · simp only [Strand.writeD, hw, Bool.false_eq_true, if_false]
        rw [vAt_writeV _ _ _ _ _ _ hl, if_neg]
        rintro ⟨rfl, h⟩; rcases hh with hh | ⟨hh, _⟩ <;> simp_all
    | s m => unfold Strand.writeD; by_cases ha : act = 0#32 <;> by_cases hw : wide = true <;> simp [ha, hw]
    | p m => simp [Strand.writeD]
    | _ => rfl
  · cases o with
    | v m => unfold Strand.writeD; by_cases hw : wide = true <;> simp [hw]
    | s m =>
      simp only [hitsS, Bool.or_eq_false_iff, Bool.and_eq_false_iff, decide_eq_false_iff_not] at hh
      unfold Strand.writeD
      by_cases ha : act = 0#32
      · simp [ha]
      · by_cases hw : wide = true
        · rcases hh.2 with h2 | h2
          · simp_all
          · simp [ha, hw, hh.1, h2]
        · simp [ha, hw, hh.1]
    | p m => simp [Strand.writeD]
    | _ => rfl
  · cases o with
    | v m => unfold Strand.writeD; by_cases hw : wide = true <;> simp [hw]
    | s m => unfold Strand.writeD; by_cases ha : act = 0#32 <;> by_cases hw : wide = true <;> simp [ha, hw]
    | p m =>
      simp only [Strand.writeD, pAt_writeP]
      rw [if_neg]
      rintro ⟨rfl, h7, h⟩
      simp [hitsP, h, h7] at hh
    | _ => rfl

/-! ## Everything but the registers stands -/

/-- The parts of a strand that no register write touches. -/
def Strand.rest (t : Strand) : Strand := { t with v := [], s := [], p := [], forms := [] }

@[simp] theorem rest_writeV (t : Strand) (act : Mask) (n : Nat) (f : Nat → Word) : (t.writeV act n f).rest = t.rest := by
  unfold Strand.writeV; split <;> rfl
@[simp] theorem rest_writeS (t : Strand) (n : Nat) (x : Word) : (t.writeS n x).rest = t.rest := rfl
@[simp] theorem rest_writeP (t : Strand) (act : Mask) (n : Nat) (f : Nat → Bool) : (t.writeP act n f).rest = t.rest := by
  unfold Strand.writeP; split <;> rfl
@[simp] theorem rest_writeD (t : Strand) (act : Mask) (o : Opd) (wide : Bool) (f : Nat → DWord) :
    (t.writeD act o wide f).rest = t.rest := by
  cases o <;> simp only [Strand.writeD] <;> (repeat' split) <;> simp
@[simp] theorem rest_put (t : Strand) (w : RegWrite) : (t.put w).rest = t.rest := by simp [Strand.put]

theorem rest_foldl_put (ws : List RegWrite) (t : Strand) : (ws.foldl Strand.put t).rest = t.rest := by
  induction ws generalizing t with
  | nil => rfl
  | cons w ws ih => rw [List.foldl_cons, ih, rest_put]

/-- A table of a function over the lanes of a mask gives the function's value. -/
theorem look_tableOf (m : Mask) (f : Nat → DWord) (l : Nat) (h : hasLane m l = true) : SMap.look 0 (tableOf m f) l = f l := by
  rw [tableOf, SMap.look_putAll_map, if_pos (mem_lanesOf.mpr h)]

end Sys2Proof.Machine
end

