-- ==== Sys2Proof/Laws/Issue.lean ====
section
/-! SUPPORT. What an issue comes to when nothing holds it back, and what results that enter the pipeline leave in the registers. -/
namespace Sys2Proof.Machine

/-! ## Acquires and the memory system leave crews and grids alone -/

theorem core?_some_or (s : State) (n : Nat) : s.core? n = none ∨ ∃ c, s.core? n = some c := by
  cases s.core? n <;> simp

@[simp] theorem crews_writeBack (s : State) (core : Nat) (sel : L1Line → Bool) : (s.writeBack core sel).crews = s.crews := by
  unfold State.writeBack; split <;> rfl
@[simp] theorem grids_writeBack (s : State) (core : Nat) (sel : L1Line → Bool) : (s.writeBack core sel).grids = s.grids := by
  unfold State.writeBack; split <;> rfl
@[simp] theorem mem_writeBack (s : State) (core : Nat) (sel : L1Line → Bool) : (s.writeBack core sel).mem = s.mem := by
  unfold State.writeBack; split <;> rfl
@[simp] theorem crews_invalidate (s : State) (core : Nat) (sel : L1Line → Bool) : (s.invalidate core sel).crews = s.crews := by
  simp [State.invalidate]
@[simp] theorem grids_invalidate (s : State) (core : Nat) (sel : L1Line → Bool) : (s.invalidate core sel).grids = s.grids := by
  simp [State.invalidate]
@[simp] theorem lost_writeBack (s : State) (core : Nat) (sel : L1Line → Bool) : (s.writeBack core sel).lost = s.lost := by
  unfold State.writeBack; split <;> rfl
@[simp] theorem lost_invalidate (s : State) (core : Nat) (sel : L1Line → Bool) : (s.invalidate core sel).lost = s.lost := by
  simp [State.invalidate]
@[simp] theorem mem_invalidate (s : State) (core : Nat) (sel : L1Line → Bool) : (s.invalidate core sel).mem = s.mem := by
  simp [State.invalidate]

theorem foldl_setByte_frame {α : Type} (l : List α) (f : α → Nat × Byte) (s : State) :
    let t := l.foldl (fun s x => s.setByte (f x).1 (f x).2) s
    t.crews = s.crews ∧ t.grids = s.grids ∧ t.lost = s.lost ∧ t.poison = s.poison := by
  induction l generalizing s with
  | nil => exact ⟨rfl, rfl, rfl, rfl⟩
  | cons x t ih => exact ih (s.setByte (f x).1 (f x).2)

theorem putBytes_frame (bs : List Byte) (s : State) (key : Nat) :
    (s.putBytes key bs).crews = s.crews ∧ (s.putBytes key bs).grids = s.grids ∧ (s.putBytes key bs).lost = s.lost := by
  induction bs generalizing s key with
  | nil => exact ⟨rfl, rfl, rfl⟩
  | cons b t ih => exact ih (s.setByte key b) (key + 1)

/-- A message that reaches its resolution point changes bytes of memory alone, with their poison and their watches. -/
theorem perform_frame (s : State) (m : Message) :
    (s.perform m).crews = s.crews ∧ (s.perform m).grids = s.grids ∧ (s.perform m).lost = s.lost := by
  cases m with
  | write line d m p =>
    have h := foldl_setByte_frame (maskBytes m) (fun b => (128 * line + b, lineByte d b)) s
    simp only [State.perform, State.writeLine, State.noteWrite]
    split <;> split <;> exact ⟨h.1, h.2.1, h.2.2.1⟩
  | red key op ty b p =>
    have h := putBytes_frame (toBytes (tySize ty) (bankOp op ty (BitVec.ofNat 64 (s.readNat key (tySize ty))) b).toNat) s key
    simp only [State.perform]
    split
    · exact ⟨rfl, rfl, rfl⟩
    · simp only [State.writeNat, State.writeMem, State.noteWrite]
      split <;> split <;> exact h

/-- A core's writes on their way, performed, leave crews and grids alone. -/
theorem drain_frame (s : State) (core : Nat) :
    (s.drain core).crews = s.crews ∧ (s.drain core).grids = s.grids ∧ (s.drain core).lost = s.lost := by
  have key : ∀ (l : List Message) (s : State), let t := l.foldl (fun s m => s.perform m) s
      t.crews = s.crews ∧ t.grids = s.grids ∧ t.lost = s.lost := by
    intro l
    induction l with
    | nil => exact fun s => ⟨rfl, rfl, rfl⟩
    | cons m t ih =>
      intro s
      obtain ⟨h1, h2, h3⟩ := ih (s.perform m)
      obtain ⟨k1, k2, k3⟩ := perform_frame s m
      exact ⟨h1.trans k1, h2.trans k2, h3.trans k3⟩
  simp only [State.drain]
  split
  · exact ⟨rfl, rfl, rfl⟩
  · exact key _ s

@[simp] theorem crews_drain (s : State) (core : Nat) : (s.drain core).crews = s.crews := (drain_frame s core).1
@[simp] theorem grids_drain (s : State) (core : Nat) : (s.drain core).grids = s.grids := (drain_frame s core).2.1
@[simp] theorem lost_drain (s : State) (core : Nat) : (s.drain core).lost = s.lost := (drain_frame s core).2.2

@[simp] theorem crews_refresh (s : State) (core : Nat) (sel : L1Line → Bool) : (s.refresh core sel).crews = s.crews := by simp [State.refresh]
@[simp] theorem grids_refresh (s : State) (core : Nat) (sel : L1Line → Bool) : (s.refresh core sel).grids = s.grids := by simp [State.refresh]
@[simp] theorem lost_refresh (s : State) (core : Nat) (sel : L1Line → Bool) : (s.refresh core sel).lost = s.lost := by simp [State.refresh]

@[simp] theorem crews_acquire (s : State) (core : Nat) (sc : Scope) : (s.acquire core sc).crews = s.crews := by
  simp only [State.acquire]; split <;> simp
@[simp] theorem grids_acquire (s : State) (core : Nat) (sc : Scope) : (s.acquire core sc).grids = s.grids := by
  simp only [State.acquire]; split <;> simp
@[simp] theorem lost_acquire (s : State) (core : Nat) (sc : Scope) : (s.acquire core sc).lost = s.lost := by
  simp only [State.acquire]; split <;> simp

theorem acquireAll (core : Nat) (l : List Scope) (s : State) :
    let t := l.foldl (fun s sc => if sc = .none then s else s.acquire core sc) s
    t.crews = s.crews ∧ t.grids = s.grids ∧ t.lost = s.lost := by
  induction l generalizing s with
  | nil => exact ⟨rfl, rfl, rfl⟩
  | cons x l ih =>
    simp only [List.foldl_cons]
    have := ih (if x = .none then s else s.acquire core x)
    split at this <;> simp_all

/-- The acquires of R147 change neither crews nor grids. -/
theorem acquireHands_s (c : Ctx) : c.acquireHands.s.crews = c.s.crews ∧ c.acquireHands.s.grids = c.s.grids ∧
    c.acquireHands.s.lost = c.s.lost := acquireAll _ _ _

/-- An instruction that names no hand-off value makes no acquire. -/
theorem acquireHands_none {c : Ctx} (h : c.f.specs.any isHand = false) : c.acquireHands = c := by
  have hl : (c.f.specs.flatMap fun o =>
      if isHand o then (lanesOf c.act).filterMap fun l => (c.handOff o l).map (·.2) else []) = [] := by
    rw [List.flatMap_eq_nil_iff]
    intro o ho
    have : isHand o = false := by
      have := List.any_eq_false.mp h o ho
      simpa using this
    simp [this]
  unfold Ctx.acquireHands
  simp only [hl, List.foldl_nil]

/-! ## The context -/

theorem strand?_of_crews {s t : State} (h : t.crews = s.crews) (r : StrandRef) : t.strand? r = s.strand? r := by
  unfold State.strand? State.crew?; rw [h]
theorem crew?_of_crews {s t : State} (h : t.crews = s.crews) (r : CrewRef) : t.crew? r = s.crew? r := by
  unfold State.crew?; rw [h]

theorem memByte_of {s t : State} (hm : t.mem = s.mem) (hl : t.lost = s.lost) (key : Nat) : t.memByte key = s.memByte key := by
  unfold State.memByte State.lostAt; rw [hm, hl]

/-- A context sees the memory of its state. -/
theorem ctxOf_mem {s : State} {f : Form} {c : Ctx} (h : s.ctxOf f = some c) : c.s.mem = s.mem ∧ c.s.lost = s.lost := by
  unfold State.ctxOf at h
  cases hc : s.cur with
  | none => simp [hc] at h
  | some iss =>
    simp only [hc] at h
    split at h
    · injection h with h; subst h; exact ⟨rfl, rfl⟩
    · exact absurd h (by simp)

/-- A context names the grid, crew and strand that its state holds, and the form that it was made for. -/
theorem ctxOf_spec {s : State} {f : Form} {c : Ctx} (h : s.ctxOf f = some c) :
    c.s.grid? c.r.crew.grid = some c.g ∧ c.s.crew? c.r.crew = some c.c ∧ c.s.strand? c.r = some c.t ∧ c.f = f ∧
      c.flying = false ∧ s.cur = some c.iss := by
  unfold State.ctxOf at h
  cases hc : s.cur with
  | none => simp [hc] at h
  | some iss =>
    simp only [hc] at h
    split at h
    · rename_i g k t hg hk ht
      injection h with h
      subst h
      exact ⟨hg, hk, ht, rfl, rfl, rfl⟩
    · exact absurd h (by simp)

/-- What holds of the context of an issue that runs. -/
theorem Runs.spec {s : State} {f : Form} {c : Ctx} (h : Runs s f c) :
    c.s.grid? c.r.crew.grid = some c.g ∧ c.s.crew? c.r.crew = some c.c ∧ c.s.strand? c.r = some c.t ∧ c.f = f ∧
      c.flying = false ∧ c.act ≠ 0 := by
  obtain ⟨d, hd, hf, rfl⟩ := h
  obtain ⟨h1, h2, h3, h4, h5, -⟩ := ctxOf_spec hd
  have ha := acquireHands_s d
  refine ⟨?_, ?_, ?_, h4, h5, ?_⟩
  · have : d.acquireHands.s.grid? d.r.crew.grid = d.s.grid? d.r.crew.grid := by unfold State.grid?; rw [ha.2.1]
    exact this.trans h1
  · exact (crew?_of_crews ha.1 _).trans h2
  · exact (strand?_of_crews ha.1 _).trans h3
  · simp only [Ctx.free, Bool.and_eq_true, decide_eq_true_eq] at hf
    exact hf.1.1.2

/-- The memory of the context of an issue that runs is that of the state, where the instruction names no hand-off value. -/
theorem Runs.memByte {s : State} {f : Form} {c : Ctx} (h : Runs s f c) (hf : f.specs.any isHand = false) (key : Nat) :
    c.s.memByte key = s.memByte key := by
  obtain ⟨d, hd, -, rfl⟩ := h
  have he : d.f = f := (ctxOf_spec hd).2.2.2.1
  rw [acquireHands_none (he ▸ hf), memByte_of (ctxOf_mem hd).1 (ctxOf_mem hd).2]

/-- An issue that runs comes to what its meaning answers. -/
theorem issue_runs {s : State} {f : Form} {c : Ctx} (body : Ctx → Eff) (h : Runs s f c) :
    issue f body s = .next (c.settle 0 (body c)) := by
  obtain ⟨d, hd, hf, rfl⟩ := h
  simp only [Ctx.free, Bool.and_eq_true, decide_eq_true_eq, Option.isNone_iff_eq_none, List.isEmpty_iff, Bool.not_eq_true'] at hf
  obtain ⟨⟨⟨⟨⟨⟨h1, h2⟩, h3⟩, h4⟩, h5⟩, h6⟩, h7⟩ := hf
  have hz : (maskOf fun l => hasLane d.act l && d.waitsHand l) = 0 := by
    apply mask_ext
    intro l hl
    rw [hasLane_maskOf]
    by_cases ha : hasLane d.act l = true
    · have := List.all_eq_true.mp h7 l (mem_lanesOf.mpr ha)
      simp only [Bool.not_eq_true'] at this
      simp [this]
    · simp [ha]
  have ha : d.act ≠ 0 := h5
  unfold issue
  rw [hd]
  dsimp only
  unfold Ctx.run
  simp only [h2, h3, h4, h6, hz, Bool.false_eq_true, if_false, if_true, ha, decide_false, Bool.false_and]

/-! ## Results in the pipeline -/

theorem SameRegs.writeV {t u : Strand} (h : SameRegs t u) (act : Mask) (n : Nat) (f : Nat → Word) :
    SameRegs (t.writeV act n f) (u.writeV act n f) := by
  obtain ⟨h1, h2, h3, h4⟩ := h
  unfold Strand.writeV SameRegs
  split <;> simp_all

theorem SameRegs.writeS {t u : Strand} (h : SameRegs t u) (n : Nat) (x : Word) : SameRegs (t.writeS n x) (u.writeS n x) := by
  obtain ⟨h1, h2, h3, h4⟩ := h; simp_all [Strand.writeS, SameRegs]

theorem SameRegs.writeP {t u : Strand} (h : SameRegs t u) (act : Mask) (n : Nat) (f : Nat → Bool) :
    SameRegs (t.writeP act n f) (u.writeP act n f) := by
  obtain ⟨h1, h2, h3, h4⟩ := h
  unfold Strand.writeP SameRegs
  split <;> simp_all

theorem SameRegs.writeD {t u : Strand} (h : SameRegs t u) (act : Mask) (o : Opd) (w : Bool) (f : Nat → DWord) :
    SameRegs (t.writeD act o w f) (u.writeD act o w f) := by
  cases o with
  | v n =>
    simp only [Strand.writeD]
    split
    · exact (h.writeV _ _ _).writeV _ _ _
    · exact h.writeV _ _ _
  | s n =>
    simp only [Strand.writeD]
    split
    · exact h
    · split
      · exact (h.writeS _ _).writeS _ _
      · exact h.writeS _ _
  | p n => exact h.writeP _ _ _
  | _ => exact h

theorem SameRegs.puts {t u : Strand} (h : SameRegs t u) (ws : List RegWrite) :
    SameRegs (ws.foldl Strand.put t) (ws.foldl Strand.put u) := by
  induction ws generalizing t u with
  | nil => exact h
  | cons w ws ih => exact ih (h.writeD _ _ _ _)

theorem SameRegs.orFlags {t u : Strand} (h : SameRegs t u) (f : Flags) : SameRegs (t.orFlags f) (u.orFlags f) := by
  obtain ⟨h1, h2, h3, h4⟩ := h; simp_all [Strand.orFlags, SameRegs]

theorem SameRegs.complete {t u : Strand} (h : SameRegs t u) (x : InFlight) : SameRegs (t.complete x) (u.complete x) := by
  unfold Strand.complete
  split
  · have := (h.puts ‹_›).orFlags ‹_›
    split <;> exact this
  · exact h

theorem SameRegs.completes {t u : Strand} (h : SameRegs t u) (l : List InFlight) :
    SameRegs (l.foldl Strand.complete t) (l.foldl Strand.complete u) := by
  induction l generalizing t u with
  | nil => exact h
  | cons x l ih => exact ih (h.complete x)

theorem isDue_last (x : InFlight) (due : DWord) (ws : List RegWrite) (fl : BitVec 6) (ck : Option DWord)
    (h : x.state = .pipe due ws fl ck) : x.isDue (BitVec.allOnes 64) = true := by
  have : due.toNat < 2 ^ 64 := due.isLt
  simp only [InFlight.isDue, h, decide_eq_true_eq, BitVec.toNat_allOnes]
  omega

/-- Results that stand last in the pipeline are what the registers hold in the end. -/
theorem final_append {t u : Strand} (x : InFlight) (due : DWord) (ws : List RegWrite) (fl : BitVec 6) (ck : Option DWord)
    (hu : SameRegs u t) (hx : x.state = .pipe due ws fl ck) (hi : u.inflight = t.inflight ++ [x]) :
    SameRegs u.final ((ws.foldl Strand.put t.final).orFlags fl) := by
  have hd := isDue_last x due ws fl ck hx
  have h1 : u.final = { (((t.inflight.filter (InFlight.isDue (BitVec.allOnes 64))) ++ [x]).foldl Strand.complete u) with
      inflight := u.inflight.filter fun x => !(x.isDue (BitVec.allOnes 64)) } := by
    have hf : [x].filter (InFlight.isDue (BitVec.allOnes 64)) = [x] := by simp only [List.filter, hd]
    have hg : u.inflight.filter (InFlight.isDue (BitVec.allOnes 64)) =
        t.inflight.filter (InFlight.isDue (BitVec.allOnes 64)) ++ [x] := by rw [hi, List.filter_append, hf]
    unfold Strand.final Strand.retire
    rw [hg]
  have h2 : SameRegs t.final ((t.inflight.filter (InFlight.isDue (BitVec.allOnes 64))).foldl Strand.complete t) := ⟨rfl, rfl, rfl, rfl⟩
  have h3 := (hu.completes (t.inflight.filter (InFlight.isDue (BitVec.allOnes 64)))).complete x
  have h4 : SameRegs u.final (((t.inflight.filter (InFlight.isDue (BitVec.allOnes 64))).foldl Strand.complete u).complete x) := by
    rw [h1, List.foldl_append]; exact ⟨rfl, rfl, rfl, rfl⟩
  have h5 : SameRegs (((t.inflight.filter (InFlight.isDue (BitVec.allOnes 64))).foldl Strand.complete t).complete x)
      ((ws.foldl Strand.put t.final).orFlags fl) := by
    have := ((show SameRegs ((t.inflight.filter (InFlight.isDue (BitVec.allOnes 64))).foldl Strand.complete t) t.final from
      ⟨rfl, rfl, rfl, rfl⟩).puts ws).orFlags fl
    unfold Strand.complete
    rw [hx]
    simp only
    split <;> exact this
  exact ⟨h4.1.trans (h3.1.trans h5.1), h4.2.1.trans (h3.2.1.trans h5.2.1), h4.2.2.1.trans (h3.2.2.1.trans h5.2.2.1),
    h4.2.2.2.trans (h3.2.2.2.trans h5.2.2.2)⟩

/-! ## Leaving -/

theorem move_fields (t : Strand) (m l : Mask) (pc : Word) (st : Path → Path) (dst : Nat → Word) (now : DWord) (rd : Path → Bool) :
    ∃ a b, t.move m l pc st dst now rd = { t with splits := a, stack := b } := ⟨_, _, rfl⟩

/-- Where an issue leaves every lane, its strand keeps all but its paths and the entries to re-inject. -/
theorem leave_strand (c : Ctx) (s : State) (u : Strand) (st : Path → Path) (dst : Option (Nat → Word)) (n : Nat)
    (h : s.strand? c.r = some u) :
    ∃ a b e, (c.leave s 0 st dst n).strand? c.r = some { u with splits := a, stack := b, reinject := e } := by
  unfold Ctx.leave
  by_cases hq : c.iss.queued = true
  · simp only [hq, if_true]
    rw [strand?_modStrand_same]
    · simp only [strand?_tick, h, Option.map_some]
      cases dst with
      | some f => exact ⟨_, _, _, rfl⟩
      | none =>
        by_cases hz : (0 : Mask) = 0
        · exact ⟨_, _, _, rfl⟩
        · exact absurd rfl hz
    · intro t
      cases dst <;> rfl
  · simp only [hq, Bool.false_eq_true, if_false]
    rw [strand?_modStrand_same _ _ _ (by intro t; rfl)]
    simp only [strand?_tick, h, Option.map_some]
    exact ⟨_, _, u.reinject, rfl⟩

/-! ## Frames -/

theorem FrameOf.refl (r : StrandRef) (s : State) : FrameOf r s s := ⟨⟨_, _, _, _, _, rfl⟩, fun _ _ => rfl, fun _ => rfl⟩

theorem FrameOf.trans {r : StrandRef} {s t u : State} (h : FrameOf r s t) (k : FrameOf r t u) : FrameOf r s u := by
  obtain ⟨⟨l, cy, rp, rt, n, rfl⟩, h2, h3⟩ := h
  obtain ⟨⟨l', cy', rp', rt', n', rfl⟩, k2, k3⟩ := k
  exact ⟨⟨l', cy', rp', rt', n', rfl⟩, fun q hq => (k2 q hq).trans (h2 q hq), fun q => (k3 q).trans (h3 q)⟩

theorem FrameOf.tick (r : StrandRef) (s : State) (n : Nat) : FrameOf r s (s.tick n) := by
  refine ⟨⟨_, _, _, _, _, rfl⟩, fun q _ => strand?_tick s n q, fun q => ?_⟩
  obtain ⟨w, hw⟩ := crew?_tick s n q
  rw [hw]
  cases s.crew? q <;> rfl

theorem FrameOf.modStrand (r : StrandRef) (s : State) (f : Strand → Strand) (h : ∀ t, (f t).idx = t.idx) : FrameOf r s (s.modStrand r f) := by
  refine ⟨⟨_, _, _, _, _, rfl⟩, fun q hq => strand?_modStrand_other s r q f h hq, fun q => ?_⟩
  by_cases hq : q = r.crew
  · subst hq
    rw [crew?_modStrand_same]
    cases s.crew? r.crew <;> rfl
  · rw [crew?_modStrand_other s r q f hq]

theorem FrameOf.leave (c : Ctx) (s : State) (st : Path → Path) (dst : Option (Nat → Word)) (n : Nat) : FrameOf c.r s (c.leave s 0 st dst n) := by
  refine (FrameOf.tick c.r s n).trans ?_
  unfold Ctx.leave
  by_cases hq : c.iss.queued = true
  · simp only [hq, if_true]
    exact FrameOf.modStrand _ _ _ (by intro t; cases dst <;> rfl)
  · simp only [hq, Bool.false_eq_true, if_false]
    exact FrameOf.modStrand _ _ _ (by intro t; rfl)

theorem FrameOf.mem {r : StrandRef} {s t : State} (h : FrameOf r s t) : t.mem = s.mem ∧ t.lost = s.lost := by
  obtain ⟨⟨l, cy, rp, rt, n, rfl⟩, -, -⟩ := h; exact ⟨rfl, rfl⟩

/-- The strand of an issue whose results have entered the pipeline, and what has not moved. -/
theorem pipe_strand (c : Ctx) (ws : List RegWrite) (fl : BitVec 6) (lat extra : Nat) (ck : Option DWord)
    (h : c.s.strand? c.r = some c.t) :
    ∃ u x due, (c.settle 0 (.pipe ws fl lat extra ck)).strand? c.r = some u ∧ u.inflight = c.t.inflight ++ [x] ∧
      x.state = .pipe due ws fl ck ∧ SameRegs u c.t ∧ Strand.sameHeld c.t u ∧
        FrameOf c.r c.s (c.settle 0 (.pipe ws fl lat extra ck)) := by
  simp only [Ctx.settle]
  have he : (c.enter c.s ws fl lat (c.beats + extra + (ws.map fun w => c.t.expandBeats w.act w.d w.wide).foldl (· + ·) 0) ck).strand? c.r =
      some { c.t with inflight := c.t.inflight ++ [
        { id := c.s.nextId, entry := c.entry c.act false,
          state := .pipe (c.s.cycle + BitVec.ofNat 64 (c.beats + extra + (ws.map fun w => c.t.expandBeats w.act w.d w.wide).foldl (· + ·) 0 - 1 + lat)) ws fl ck
          phase := c.c.phase, handler := c.c.handler, universal := false, lines := [] }] } := by
    have := strand?_modStrand_same c.s c.r (fun t : Strand => { t with inflight := t.inflight ++ [
        { id := c.s.nextId, entry := c.entry c.act false,
          state := .pipe (c.s.cycle + BitVec.ofNat 64 (c.beats + extra + (ws.map fun w => c.t.expandBeats w.act w.d w.wide).foldl (· + ·) 0 - 1 + lat)) ws fl ck
          phase := c.c.phase, handler := c.c.handler, universal := false, lines := [] }] }) fun _ => rfl
    rw [h] at this
    exact this
  have hf : FrameOf c.r c.s (c.enter c.s ws fl lat (c.beats + extra + (ws.map fun w => c.t.expandBeats w.act w.d w.wide).foldl (· + ·) 0) ck) := by
    refine (FrameOf.modStrand c.r c.s _ ?_).trans ⟨⟨_, _, _, _, _, rfl⟩, fun _ _ => rfl, fun _ => rfl⟩
    intro t; rfl
  obtain ⟨a, b, e, hl⟩ := leave_strand c _ _ (fun p => if (0 : Mask) = 0 then p
    else
      { p with
        held := .handOff
        entry := c.iss.replay.map fun _ => c.entry 0 false
        stood := some { c.entry 0 false with fresh := true } }) none
    (c.beats + extra + (ws.map fun w => c.t.expandBeats w.act w.d w.wide).foldl (· + ·) 0) he
  exact ⟨_, _, _, hl, rfl, rfl, ⟨rfl, rfl, rfl, rfl⟩, ⟨rfl, rfl, rfl, rfl, rfl, rfl, rfl, rfl, rfl, rfl⟩, hf.trans (FrameOf.leave c _ _ _ _)⟩

theorem Wrote.congr {o : Opd} {w : Bool} {act : Mask} {f g : Nat → DWord} {u : Strand} (ha : act ≠ 0)
    (h : ∀ l, hasLane act l = true → f l = g l) (hw : Wrote o w act f u) : Wrote o w act g u := by
  cases o with
  | v n => intro l hl; rw [← h l hl]; exact hw l hl
  | s n => have := h _ (lowest_mem ha); simp only [Wrote] at hw ⊢; rw [← this]; exact hw
  | p n => intro l hl; rw [← h l hl]; exact hw l hl
  | _ => trivial

theorem Wrote.same {o : Opd} {w : Bool} {act : Mask} {f : Nat → DWord} {t u : Strand} (h : SameRegs u t) (hw : Wrote o w act f t) :
    Wrote o w act f u := by
  obtain ⟨h1, h2, h3, -⟩ := h
  cases o <;> simp only [Wrote, Strand.vAt, Strand.sAt, Strand.pAt] at hw ⊢ <;> simp_all

theorem OnlyWrote.same {o : Opd} {w : Bool} {act : Mask} {t u u' : Strand} (h : SameRegs u' u) (hw : OnlyWrote o w act t u) :
    OnlyWrote o w act t u' := by
  obtain ⟨h1, h2, h3, -⟩ := h
  simp only [OnlyWrote, Strand.vAt, Strand.sAt, Strand.pAt] at hw ⊢
  simp_all

/-- An instruction whose meaning, where `ok` holds, is one result for each lane and its flags, written through the pipeline. -/
theorem writesIf_of_pipe {i : Instr} {f : Form} {ok : Ctx → Prop} {x : Ctx → Nat → DWord × Flags} (body : Ctx → Eff)
    (he : ∀ s, exec i s = issue f body s)
    (hb : ∀ c : Ctx, c.f = f → c.act ≠ 0 → ok c → ∃ lat extra ck fl, body c = .pipe [c.result fun l => (x c l).1] fl lat extra ck ∧
      fl = flagsOf c.act fun l => (x c l).2) : WritesIf i f ok x := by
  intro s c hr hok
  obtain ⟨-, -, hs, hf, -, ha⟩ := hr.spec
  obtain ⟨lat, extra, ck, fl, hbc, hfl⟩ := hb c hf ha hok
  obtain ⟨u, y, due, h1, h2, h3, h4, h5, h6⟩ := pipe_strand c [c.result fun l => (x c l).1] fl lat extra ck hs
  have hfin := final_append y due _ fl ck h4 h3 h2
  refine ⟨_, u, (he s).trans ((issue_runs body hr).trans (by rw [hbc])), h1, ?_, ?_, ?_, ?_, hr.memByte, h6, h5⟩
  · subst hf
    refine Wrote.same hfin ?_
    have hw := wrote_writeD c.t.final c.act c.f.e.d c.f.dstWide (SMap.look 0 (tableOf c.act fun l => (x c l).1)) ha
    have hw := hw.congr ha (g := fun l => (x c l).1) fun l hl => look_tableOf _ _ _ hl
    exact hw.same ⟨rfl, rfl, rfl, rfl⟩
  · subst hf
    refine OnlyWrote.same hfin ?_
    exact (onlyWrote_writeD c.t.final c.act c.f.e.d c.f.dstWide (SMap.look 0 (tableOf c.act fun l => (x c l).1))).same ⟨rfl, rfl, rfl, rfl⟩
  · rw [hfin.2.2.2, ← hfl]
    have : (([c.result fun l => (x c l).1].foldl Strand.put c.t.final)).fp = c.t.final.fp := by
      have := congrArg Strand.fp (rest_foldl_put [c.result fun l => (x c l).1] c.t.final)
      exact this
    simp only [Strand.orFlags, this]
  · intro key
    rw [memByte_of h6.mem.1 h6.mem.2]

theorem flagsOf_zero (act : Mask) : (flagsOf act fun _ => (0 : Flags)) = 0 := by
  unfold flagsOf
  induction lanesOf act with
  | nil => rfl
  | cons a l ih => simp

/-- An instruction that writes one value for each lane and raises no flag. -/
theorem writes_plain {i : Instr} {f : Form} {x : Ctx → Nat → DWord} (n : Nat) (g : Ctx → Nat → DWord)
    (he : ∀ s, exec i s = issue f (fun c => c.write n (g c)) s) (hg : ∀ c, g c = x c) : Writes i f (plainly x) := by
  refine writesIf_of_pipe (fun c => c.write n (g c)) he ?_
  intro c hf ha _
  refine ⟨n, 0, none, 0, ?_, (flagsOf_zero _).symm⟩
  simp only [Ctx.write, plainly, hg]

/-- An instruction that writes one value for each lane and raises the flags of all of them. -/
theorem writes_flags {i : Instr} {f : Form} {x : Ctx → Nat → DWord × Flags} (n : Nat) (g : Ctx → Nat → DWord × Flags)
    (he : ∀ s, exec i s = issue f (fun c => c.writeF n (g c)) s) (hg : ∀ c, g c = x c) : Writes i f x := by
  refine writesIf_of_pipe (fun c => c.writeF n (g c)) he ?_
  intro c hf ha _
  exact ⟨n, 0, none, flagsOf c.act fun l => (x c l).2, by simp only [Ctx.writeF, hg, flagsOf], rfl⟩

/-- An instruction whose meaning, where `ok` holds, is an effect after which its lanes go on. -/
theorem does_of_go {i : Instr} {f : Form} {ok : Ctx → Prop} {eff : Ctx → State} {dst : Ctx → Option (Nat → Word)} {extra : Ctx → Nat}
    (body : Ctx → Eff) (he : ∀ s, exec i s = issue f body s)
    (hb : ∀ c : Ctx, c.f = f → c.act ≠ 0 → ok c → body c = .go (eff c) (dst c) (extra c)) : Does i f ok eff dst extra := by
  intro s c hr hok
  obtain ⟨-, -, -, hf, -, ha⟩ := hr.spec
  rw [he s, issue_runs body hr, hb c hf ha hok]
  rfl

end Sys2Proof.Machine
end

