-- ==== Sys2Proof/Laws/Memory.lean ====
section
/-! SUPPORT. Laws of memory: what a byte reads as after a write, and that every write keeps the listing's canonical form. -/
namespace Sys2Proof.Machine

open Sys2Proof

/-- Two states agree on all that memory consists of but the listed bytes. -/
theorem lostAt_congr {s t : State} (h : t.lost = s.lost) (key : Nat) : t.lostAt key = s.lostAt key := by
  unfold State.lostAt; rw [h]

@[simp] theorem setByte_lost (s : State) (key : Nat) (b : Byte) : (s.setByte key b).lost = s.lost := rfl
@[simp] theorem setByte_poison (s : State) (key : Nat) (b : Byte) : (s.setByte key b).poison = s.poison := rfl

/-- A write of one byte changes that byte alone. -/
theorem memByte_setByte (s : State) (key k : Nat) (b : Byte) :
    (s.setByte key b).memByte k = if k = key then b else s.memByte k := by
  have hl := lostAt_congr (setByte_lost s key b) k
  unfold State.memByte
  rw [hl]
  simp only [State.setByte, SMap.look_put]
  split
  · rename_i h; subst h; rw [BitVec.xor_assoc, BitVec.xor_self, BitVec.xor_zero]
  · rfl

/-- A write of one byte keeps the canonical form. -/
theorem wf_setByte (s : State) (key : Nat) (b : Byte) (h : Memory.wf s.mem = true) : Memory.wf (s.setByte key b).mem = true :=
  SMap.wf_put 0 s.mem key _ h

/-- Bytes written from a key on are read back there, and no other byte changes. -/
theorem memByte_putBytes (bs : List Byte) (s : State) (key k : Nat) :
    (s.putBytes key bs).memByte k = if key ≤ k ∧ k < key + bs.length then bs.getD (k - key) 0 else s.memByte k := by
  induction bs generalizing s key with
  | nil => simp [State.putBytes]
  | cons b t ih =>
    rw [State.putBytes, ih, memByte_setByte]
    simp only [List.length_cons]
    by_cases hk : k = key
    · subst hk; simp
    · by_cases h1 : key + 1 ≤ k ∧ k < key + 1 + t.length
      · obtain ⟨j, rfl⟩ : ∃ j, k = key + 1 + j := ⟨k - (key + 1), by omega⟩
        have e1 : key + 1 + j - (key + 1) = j := by omega
        have e2 : key + 1 + j - key = j + 1 := by omega
        rw [if_pos h1, if_pos (by omega), e1, e2]; rfl
      · rw [if_neg h1, if_neg hk, if_neg (by omega)]

theorem lost_putBytes (bs : List Byte) (s : State) (key : Nat) : (s.putBytes key bs).lost = s.lost := by
  induction bs generalizing s key with
  | nil => rfl
  | cons b t ih => rw [State.putBytes, ih]; rfl

theorem wf_putBytes (bs : List Byte) (s : State) (key : Nat) (h : Memory.wf s.mem = true) :
    Memory.wf (s.putBytes key bs).mem = true := by
  induction bs generalizing s key with
  | nil => exact h
  | cons b t ih => exact ih _ _ (wf_setByte s key b h)

/-- The bytes of memory depend on the listing and on what is not kept. -/
theorem memByte_congr {s t : State} (hm : t.mem = s.mem) (hl : t.lost = s.lost) (key : Nat) : t.memByte key = s.memByte key := by
  unfold State.memByte; rw [hm, lostAt_congr hl]

/-- A write noticed by those who watch its line changes no byte. -/
@[simp] theorem noteWrite_mem (s : State) (sel : Nat → Bool) : (s.noteWrite sel).mem = s.mem := by
  unfold State.noteWrite; split <;> rfl
@[simp] theorem noteWrite_lost (s : State) (sel : Nat → Bool) : (s.noteWrite sel).lost = s.lost := by
  unfold State.noteWrite; split <;> rfl
@[simp] theorem noteWrite_poison (s : State) (sel : Nat → Bool) : (s.noteWrite sel).poison = s.poison := by
  unfold State.noteWrite; split <;> rfl

theorem writeMem_mem (s : State) (key : Nat) (bs : List Byte) : (s.writeMem key bs).mem = (s.putBytes key bs).mem := by
  simp only [State.writeMem]; split <;> simp

theorem writeMem_lost (s : State) (key : Nat) (bs : List Byte) : (s.writeMem key bs).lost = (s.putBytes key bs).lost := by
  simp only [State.writeMem]; split <;> simp

/-- What a write at its coherence point leaves in memory. -/
theorem memByte_writeMem (s : State) (key k : Nat) (bs : List Byte) :
    (s.writeMem key bs).memByte k = if key ≤ k ∧ k < key + bs.length then bs.getD (k - key) 0 else s.memByte k := by
  rw [memByte_congr (writeMem_mem s key bs) (writeMem_lost s key bs), memByte_putBytes]

theorem wf_writeMem (s : State) (key : Nat) (bs : List Byte) (h : Memory.wf s.mem = true) :
    Memory.wf (s.writeMem key bs).mem = true := by
  rw [writeMem_mem]; exact wf_putBytes bs s key h

theorem wf_writeNat (s : State) (key n v : Nat) (h : Memory.wf s.mem = true) : Memory.wf (s.writeNat key n v).mem = true :=
  wf_writeMem s key _ h

/-- Single bytes written one after the other keep the canonical form. -/
theorem wf_foldl_setByte {α : Type} (l : List α) (f : α → Nat × Byte) (s : State) (h : Memory.wf s.mem = true) :
    Memory.wf (l.foldl (fun s x => s.setByte (f x).1 (f x).2) s).mem = true := by
  induction l generalizing s with
  | nil => exact h
  | cons x t ih => exact ih _ (wf_setByte s _ _ h)

theorem wf_writeBytes (s : State) (l : List (Nat × Byte)) (h : Memory.wf s.mem = true) : Memory.wf (s.writeBytes l).mem = true := by
  have := wf_foldl_setByte l id s h
  simp only [State.writeBytes, State.coverPoison]
  split <;> simpa using this

theorem wf_writeLine (s : State) (line : Nat) (d : BitVec 1024) (m : BitVec 128) (h : Memory.wf s.mem = true) :
    Memory.wf (s.writeLine line d m).mem = true := by
  have := wf_foldl_setByte (maskBytes m) (fun b => (128 * line + b, lineByte d b)) s h
  simp only [State.writeLine]
  split <;> simpa using this

/-- A message performed keeps the canonical form. -/
theorem wf_perform (s : State) (m : Message) (h : Memory.wf s.mem = true) : Memory.wf (s.perform m).mem = true := by
  cases m with
  | write line d m p => exact wf_writeLine s line d m h
  | red key op ty b p =>
    simp only [State.perform]
    split
    · exact h
    · exact wf_writeNat s key _ _ h

theorem wf_drain (s : State) (core : Nat) (h : Memory.wf s.mem = true) : Memory.wf (s.drain core).mem = true := by
  have key : ∀ (l : List Message) (s : State), Memory.wf s.mem = true → Memory.wf (l.foldl (fun s m => s.perform m) s).mem = true := by
    intro l
    induction l with
    | nil => exact fun s h => h
    | cons m t ih => exact fun s h => ih _ (wf_perform s m h)
  simp only [State.drain]
  split
  · exact h
  · exact key _ s h

/-- The listing at reset is canonical. -/
theorem wf_reset : Memory.wf State.reset.mem = true := rfl

end Sys2Proof.Machine
end

