-- ==== Sys2Proof/Laws/Step.lean ====
section
/-! SUPPORT. What a step is: whose turn it takes. -/
namespace Sys2Proof.Machine

/-- What happens of itself is the meaning of the happening of that name. -/
theorem Act.run_eq_exec {a : Act} {i : Instr} (h : a.names i) (s : State) : a.run s = exec i s := by
  cases a <;> cases h <;> rfl

/-- Every act names a happening. -/
theorem Act.exists_names (a : Act) : ∃ i, a.names i := by
  cases a <;> exact ⟨_, rfl⟩

@[simp] theorem actBy_none (act : Instr → State → Host.Outcome State Fault Refusal) (x : State) : actBy act (x, none) = .next x := rfl
@[simp] theorem actBy_some (act : Instr → State → Host.Outcome State Fault Refusal) (x : State) (i : Instr) : actBy act (x, some i) = act i x := rfl

/-- A step with a turn on the agenda. -/
theorem step_agenda {s : State} {t : Turn} {rest : List Turn} (h : s.agenda = t :: rest) :
    step s = actBy exec ({ s with agenda := rest }.turn exec t) := by
  unfold step
  rw [h]

/-- A step in which something happens of itself. -/
theorem step_happening {s : State} {a : Act} (h : s.agenda = []) (ha : s.happening = some a) : step s = a.run s := by
  unfold step
  rw [h, ha]

/-- A step in which nothing happens of itself. -/
theorem step_own {s : State} (h : s.agenda = []) (ha : s.happening = none) : step s = actBy exec (s.ownTurn exec) := by
  unfold step
  rw [h, ha]

/-- What a step can do: a turn that acts or is all, or a happening of the opcode table. -/
theorem step_cases (s : State) : (∃ x, step s = actBy exec x) ∨ ∃ i, step s = exec i s := by
  cases h : s.agenda with
  | cons t rest => exact .inl ⟨_, step_agenda h⟩
  | nil =>
    cases ha : s.happening with
    | none => exact .inl ⟨_, step_own h ha⟩
    | some a =>
      obtain ⟨i, hi⟩ := a.exists_names
      exact .inr ⟨i, (step_happening h ha).trans (a.run_eq_exec hi s)⟩

end Sys2Proof.Machine
end

