-- ==== Sys2Proof/Tests/Slice0.lean ====
section
/-! SUPPORT. Our own tests: words written out from the encoding tables, ill-formed terms, single steps, and for the statements a state
and operands that meet their hypotheses. Expected values come from the manual's tables and rules, cited beside them. -/
namespace Sys2Proof.Tests

open Sys2Proof Sys2Proof.Machine

-- One evaluation at a time: side by side they take more memory than the sandbox has.
set_option Elab.async false

/-! ## Words (R89 to R107) -/

/-- The unguarded guard (R94). -/
def g7 : Guard := { reg := 7, neg := false }

/-- A base form (R93). -/
def bs (d a : BitVec 8) (m : BitVec 2 := 0) : Base := { g := g7, d := d, a := a, m := m }

/-- An extended form with its operands and type, every other field zero (R98). -/
def ex (d a b c : Opd) (ty : Ty) : Ext :=
  { g := g7, d := d, a := a, b := b, c := c, ty := ty, rnd := 0, scope := .none, mod := 0, view := none, aux := 0, imm := 0, lit := none }

/-- An operand position that is not used (R101). -/
abbrev no : Opd := .v 0

/-- A base word from the fields of R93. -/
def word (op d a m : Nat) : Nat := op * 2 ^ 2 + 7 * 2 ^ 10 + d * 2 ^ 14 + a * 2 ^ 22 + m * 2 ^ 30

/-- A 96-bit word from the fields of R98 with L = 1; the operands are specs of R99: class 01 starts at 0x100, class 10 at 0x200. -/
def long (op d a b c ty rnd sc md vw aux imm : Nat) : Nat :=
  1 + op * 2 ^ 2 + 7 * 2 ^ 10 + d * 2 ^ 14 + a * 2 ^ 24 + b * 2 ^ 34 + c * 2 ^ 44 + ty * 2 ^ 54 + rnd * 2 ^ 58 + sc * 2 ^ 61 + md * 2 ^ 64 +
    vw * 2 ^ 68 + aux * 2 ^ 72 + imm * 2 ^ 80

/-- Base words: integers, moves, bits, floats, loads, stores (R95, R96, R107). -/
theorem test_decode_base :
    decodeNat (word 0x20 2 4 0) = .iadd (bs 2 4) ∧ decodeNat (word 0x25 2 4 2) = .idiv (bs 2 4 2) ∧ decodeNat (word 0x2F 9 0xFF 0) = .movi (bs 9 0xFF) ∧
    decodeNat (word 0x37 2 4 1) = .sar (bs 2 4 1) ∧ decodeNat (word 0x40 2 4 2) = .fadd (bs 2 4 2) ∧ decodeNat (word 0x70 2 4 0) = .ldG (bs 2 4) ∧
    decodeNat (word 0x76 2 4 3) = .stL (bs 2 4 3) := by decide +kernel

/-- Plain and branch words, with the offset in bits 31 to 14 (R95, R97), and UDF. -/
theorem test_decode_control :
    decodeNat (word 0x00 0 0 0) = .nop g7 ∧ decodeNat (0x01 * 2 ^ 2 + 3 * 2 ^ 10 + 2 ^ 13 + 5 * 2 ^ 14) = .bra { reg := 3, neg := true } 5 ∧
    decodeNat (0x03 * 2 ^ 2 + 7 * 2 ^ 10 + 0x20000 * 2 ^ 14) = .call g7 0x20000 ∧ decodeNat (word 0x05 0 0 0) = .ret g7 ∧
    decodeNat (word 0x06 0 0 0) = .exit g7 ∧ decodeNat (word 0xFF 0 0 0) = .udf g7 0 := by decide +kernel

/-- Literals: L = 2 is a base word and 64 bits (R89), L = 3 an extended form and 64 bits that 0x380 names (R99, R100). -/
theorem test_decode_literals :
    decodeNat (word 0x20 2 4 2 + 2 + 0x1122334455667788 * 2 ^ 32) = .iaddExt (.lit (bs 2 4 2) 0x1122334455667788) ∧
    decodeNat (long 0x2E 2 0x380 0 0 4 0 0 0 0 0 0 + 2 + 7 * 2 ^ 96) =
      .movExt { ex (.v 2) .lit no no .n64 with lit := some 7 } := by decide +kernel

/-- Extended words of the row families: predicates, shuffles, IMAD, FFMA, conversions (R102, R103, R399). -/
theorem test_decode_alu :
    decodeNat (long 0x10 0x121 0x122 0x123 0 0 0 0 1 0 0 0) = .pand { ex (.p 1) (.p 2) (.p 3) no .b32 with mod := 1 } ∧
    decodeNat (long 0x1B 2 4 0x301 0 0 0 0 0 0 5 0) = .shflXor { ex (.v 2) (.v 4) (.imm 1) no .b32 with aux := 5 } ∧
    decodeNat (long 0x24 2 4 6 8 1 0 0 8 0 0 0) = .imad { ex (.v 2) (.v 4) (.v 6) (.v 8) .s32 with mod := 8 } ∧
    decodeNat (long 0x43 2 4 6 8 5 1 0 0 0 0 0) = .ffma { ex (.v 2) (.v 4) (.v 6) (.v 8) .f32 with rnd := 1 } ∧
    decodeNat (long 0xE0 2 4 6 0 6 0 0 0 0 0 0) = .faddX2 (ex (.v 2) (.v 4) (.v 6) no .f16) := by decide +kernel

/-- Hand-offs and memory: slot and distance of class 10 (R99), SCOPE (R104), the cohort bits of AUX8. -/
theorem test_decode_memory :
    decodeNat (long 0x20 2 (0x200 + 5 + 2 * 8) 6 0 1 0 0 0 0 0 0) = .iaddExt (.ext (ex (.v 2) (.h 5 2) (.v 6) no .s32)) ∧
    decodeNat (long 0x74 2 4 0x300 0 0 0 1 0 0 0 0) = .ldAcq { ex (.v 2) (.v 4) (.imm 0) no .b32 with scope := .crew } ∧
    decodeNat (long 0x79 0 4 6 0 2 0 0 1 0 0 0) = .atom { ex no (.v 4) (.v 6) no .n32 with mod := 1 } ∧
    decodeNat (long 0x60 0 4 0 0 0 0 0 0 0 3 0) = .hput { ex no (.v 4) no no .b32 with aux := 3 } := by decide +kernel

/-- Views, copies, tiles, system registers (R98, R213, R278): VIEW 0b1nnn, tags in AUX8, IMM16. -/
theorem test_decode_engines :
    decodeNat (long 0x80 0 0x300 0 0 0 0 0 0 (8 + 3) 0 0) = .vdef { ex no (.imm 0) no no .b32 with view := some 3 } ∧
    decodeNat (long 0x90 0x128 0x129 0 0 0 0 0 0 0 9 0) = .cpy { ex (.w 0) (.w 1) no no .b32 with aux := 9 } ∧
    decodeNat (long 0xA1 0x131 0 0 0 0 0 0 0 0 0 0) = .mzero (ex (.t 1) no no no .b32) ∧
    decodeNat (long 0xC0 0x105 0 0 0 0 0 0 0 0 0 0x12) = .csrr { ex (.s 5) no no no .b32 with imm := 0x12 } ∧
    decodeNat (long 0xC2 0 0 0 0 0 0 0 0 0 0 0x77) = .trap { ex no no no no .b32 with imm := 0x77 } := by decide +kernel

/-- Words that no row allows are kept and trap: an empty cell, a reserved TYPE position, a reserved class 01 value (R99, R106, R107). -/
theorem test_decode_reserved :
    decodeNat (word 0x09 0 0 0) = .reservedCell { l := 0, bits := BitVec.ofNat 160 (word 0x09 0 0 0) } ∧
    decodeNat (long 0x1E 2 4 0 0 4 0 0 7 0 0 0) = .reservedCell { l := 1, bits := BitVec.ofNat 160 (long 0x1E 2 4 0 0 4 0 0 7 0 0 0) } ∧
    decodeNat (long 0x2E 2 0x138 0 0 0 0 0 0 0 0 0) = .reservedCell { l := 1, bits := BitVec.ofNat 160 (long 0x2E 2 0x138 0 0 0 0 0 0 0 0 0) } := by
  decide +kernel

/-- A table word goes the same way, the words laid out lowest first (R88). -/
theorem test_table_word : decodeTableWord 32 (word 0x20 2 4 0) = some (.iadd (bs 2 4)) := by decide +kernel

/-! ## Ill-formed terms: one for each check -/

/-- Operand classes, pairs, types, conditions, fields that must be zero, literals, lengths (R47, R95, R97, R100, R101, R106). -/
theorem test_ill_formed :
    [Instr.iadd (bs 3 4 2), .idiv (bs 2 5 3), .ldG (bs 2 5), .fadd (bs 2 4 3), .iaddExt (.lit (bs 3 4 2) 1), .movi (bs 3 0 2),
      .moviLit g7 3 2 1, .braLit g7 2,
      .iaddExt (.ext (ex (.t 0) (.v 4) (.v 6) no .s32)), .iaddExt (.ext (ex (.v 2) (.v 4) (.v 6) (.v 1) .s32)),
      .iaddExt (.ext (ex (.v 2) (.v 4) (.v 6) no .f32)), .iaddExt (.ext (ex (.v 3) (.v 4) (.v 6) no .s64)),
      .iaddExt (.ext { ex (.v 2) (.v 4) (.v 6) no .s32 with rnd := 1 }), .iaddExt (.ext { ex (.v 2) (.v 4) (.v 6) no .s32 with scope := .crew }),
      .iaddExt (.ext { ex (.v 2) (.v 4) (.v 6) no .s32 with aux := 1 }), .iaddExt (.ext { ex (.v 2) (.v 4) (.v 6) no .s32 with imm := 1 }),
      .iaddExt (.ext { ex (.v 2) (.v 4) (.v 6) no .s32 with view := some 0 }), .iaddExt (.ext { ex (.v 2) (.v 4) (.v 6) no .s32 with mod := 1 }),
      .iaddExt (.ext { ex (.v 2) (.v 4) (.v 6) no .s32 with lit := some 1 }), .iaddExt (.ext (ex (.v 2) .lit (.v 6) no .s32)),
      .iaddExt (.ext (ex (.v 2) (.imm 0x80) (.v 6) no .s32)), .pand (ex (.p 1) (.h 0 0) (.p 3) no .b32),
      .iset { ex (.p 1) (.v 4) (.v 6) no .s32 with rnd := 7 }, .vdef (ex no (.v 4) no no .b32), .ldAcq (ex (.v 2) (.v 4) (.imm 0) no .b32),
      .bar { ex no no no no .b32 with scope := .sys }, .shflXor { ex (.v 2) (.v 4) (.v 6) no .b32 with aux := 7 },
      .udfExt { l := 1, bits := 0 }, .reservedCell { l := 0, bits := BitVec.ofNat 160 (word 0x20 2 4 0) }].all (fun i => !i.wf) = true := by
  decide +kernel

/-- The same forms with the fault mended are well formed. -/
theorem test_well_formed :
    [Instr.iadd (bs 2 4 2), .idiv (bs 2 4 3), .ldG (bs 2 4), .fadd (bs 2 4 2), .iaddExt (.lit (bs 2 4 2) 1), .movi (bs 2 0 2), .moviLit g7 2 2 1,
      .braLit g7 4, .iaddExt (.ext (ex (.v 2) (.v 4) (.v 6) no .s32)), .iaddExt (.ext { ex (.v 2) (.v 4) .lit no .s32 with lit := some 1 }),
      .pand (ex (.p 1) (.p 2) (.p 3) no .b32), .vdef { ex no (.v 4) no no .b32 with view := some 0 },
      .ldAcq { ex (.v 2) (.v 4) (.imm 0) no .b32 with scope := .crew }, .bar { ex no no no no .b32 with scope := .crew }].all Instr.wf = true := by
  decide +kernel

/-! ## Statements: instructions that run freely -/

/-- A crew with one strand of 32 items (log entry 4), an instruction before it that all items issue together. -/
def start (i : Instr) : State :=
  { State.reset.loaded [] with
    agenda := [], cur := some { strand := { crew := { grid := 0, idx := 0 }, strand := 0 }, mask := 0xFFFFFFFF#32, pc := 0x80, instr := i,
                                replay := none, queued := false } }

/-- In that state, prepared, the instruction runs freely, and its context meets a condition. -/
def ready (i : Instr) (f : Form) (prep : State → State) (ok : Ctx → Bool) : Bool :=
  match (prep (start i)).ctxOf f with | some d => d.free && ok d.acquireHands | none => false

/-- `ready` without a preparation or a condition, for a base form, a literal and an extended form, and an extended form alone. -/
def rb (mk : Base → Instr) (op : Nat) : Bool := ready (mk (bs 2 4)) (Form.ofBase op (bs 2 4)) id fun _ => true
def re (mk : Ext → Instr) (op : Nat) (e : Ext) : Bool := ready (mk e) (Form.ofExt op e) id fun _ => true
def rl (mk : Long → Instr) (op : Nat) (e : Ext) : Bool :=
  ready (mk (.ext e)) (Form.ofLong op (.ext e)) id (fun _ => true) &&
    ready (mk (.lit (bs 2 4) 6)) (Form.ofLong op (.lit (bs 2 4) 6)) id fun _ => true

theorem runs_IntegerResults :
    [rb .iadd 0x20, rl .iaddExt 0x20 (ex (.v 2) (.v 4) (.v 6) no .s32), rb .isub 0x21,
      rl .isubExt 0x21 (ex (.v 2) (.v 4) (.v 6) no .s32), rb .imul 0x22, rl .imulExt 0x22 (ex (.v 2) (.v 4) (.v 6) no .s32),
      rb .imulh 0x23, rl .imulhExt 0x23 (ex (.v 2) (.v 4) (.v 6) no .s32), rb .imin 0x29,
      rl .iminExt 0x29 (ex (.v 2) (.v 4) (.v 6) no .s32), rb .imax 0x2A, rl .imaxExt 0x2A (ex (.v 2) (.v 4) (.v 6) no .s32),
      rb .ineg 0x27, re .inegExt 0x27 (ex (.v 2) (.v 4) no no .s32), rb .iabs 0x28, re .iabsExt 0x28 (ex (.v 2) (.v 4) no no .s32),
      re .imad 0x24 (ex (.v 2) (.v 4) (.v 6) (.v 8) .s32)].all id = true := by decide +kernel

theorem runs_DivisionResults :
    [rb .idiv 0x25, rl .idivExt 0x25 (ex (.v 2) (.v 4) (.v 6) no .s32), rb .irem 0x26,
      rl .iremExt 0x26 (ex (.v 2) (.v 4) (.v 6) no .s32)].all id = true := by decide +kernel

theorem runs_MovesAndSelects :
    [rb .mov 0x2E, re .movExt 0x2E (ex (.v 2) (.v 4) no no .s32), re .sel 0x2D (ex (.v 2) (.v 4) (.v 6) (.v 8) .s32),
      re .iset 0x2B (ex (.v 2) (.v 4) (.v 6) no .s32)].all id = true := by decide +kernel

theorem runs_BitwiseResults :
    [rb .andW 0x30, rl .andExt 0x30 (ex (.v 2) (.v 4) (.v 6) no .s32), rb .andn 0x31,
      rl .andnExt 0x31 (ex (.v 2) (.v 4) (.v 6) no .s32), rb .orW 0x32, rl .orExt 0x32 (ex (.v 2) (.v 4) (.v 6) no .s32),
      rb .xorW 0x33, rl .xorExt 0x33 (ex (.v 2) (.v 4) (.v 6) no .s32), rb .shl 0x35,
      rl .shlExt 0x35 (ex (.v 2) (.v 4) (.v 6) no .s32), rb .shr 0x36, rl .shrExt 0x36 (ex (.v 2) (.v 4) (.v 6) no .s32),
      rb .sar 0x37, rl .sarExt 0x37 (ex (.v 2) (.v 4) (.v 6) no .s32), rb .rol 0x38,
      rl .rolExt 0x38 (ex (.v 2) (.v 4) (.v 6) no .s32), rb .notW 0x34, re .notExt 0x34 (ex (.v 2) (.v 4) no no .s32)].all id = true := by decide +kernel

theorem runs_BitCounts :
    [rb .clz 0x39, re .clzExt 0x39 (ex (.v 2) (.v 4) no no .s32), rb .ctz 0x3A, re .ctzExt 0x3A (ex (.v 2) (.v 4) no no .s32),
      rb .popc 0x3B, re .popcExt 0x3B (ex (.v 2) (.v 4) no no .s32), rb .brev 0x3C, re .brevExt 0x3C (ex (.v 2) (.v 4) no no .s32)].all id = true := by decide +kernel

theorem runs_FieldResults :
    [re .bfx 0x3D (ex (.v 2) (.v 4) (.v 6) no .s32), re .bfi 0x3E (ex (.v 2) (.v 4) (.v 6) (.v 8) .s32),
      re .prmt 0x3F (ex (.v 2) (.v 4) (.v 6) (.v 8) .b32)].all id = true := by decide +kernel

theorem runs_PredicateResults :
    [re .pand 0x10 (ex (.v 2) (.v 4) (.v 6) no .b32), re .por 0x11 (ex (.v 2) (.v 4) (.v 6) no .b32),
      re .pxor 0x12 (ex (.v 2) (.v 4) (.v 6) no .b32), re .pnot 0x13 (ex (.v 2) (.v 4) no no .b32),
      re .pmov 0x14 (ex (.v 2) (.v 4) no no .b32), re .voteAll 0x15 (ex (.v 2) (.v 4) no no .b32),
      re .voteAny 0x16 (ex (.v 2) (.v 4) no no .b32), re .voteBallot 0x17 (ex (.v 2) (.v 4) no no .b32)].all id = true := by decide +kernel

theorem runs_ShuffleResults :
    [re .shflIdx 0x18 (ex (.v 2) (.v 4) (.v 6) no .b32), re .shflUp 0x19 (ex (.v 2) (.v 4) (.v 6) no .b32),
      re .shflDown 0x1A (ex (.v 2) (.v 4) (.v 6) no .b32), re .shflXor 0x1B (ex (.v 2) (.v 4) (.v 6) no .b32),
      re .matchAny 0x1C (ex (.v 2) (.v 4) no no .b32), re .matchAll 0x1D (ex (.v 2) (.v 4) no no .b32)].all id = true := by decide +kernel

theorem runs_ReductionResults :
    [re .reds 0x1E (ex (.v 2) (.v 4) no no .s32), re .scan 0x1F (ex (.v 2) (.v 4) no no .s32)].all id = true := by decide +kernel

theorem runs_FloatResults :
    [rb .fadd 0x40, rl .faddExt 0x40 (ex (.v 2) (.v 4) (.v 6) no .f32), rb .fsub 0x41,
      rl .fsubExt 0x41 (ex (.v 2) (.v 4) (.v 6) no .f32), rb .fmul 0x42, rl .fmulExt 0x42 (ex (.v 2) (.v 4) (.v 6) no .f32),
      rb .fdiv 0x44, rl .fdivExt 0x44 (ex (.v 2) (.v 4) (.v 6) no .f32), rb .fmin 0x4C,
      rl .fminExt 0x4C (ex (.v 2) (.v 4) (.v 6) no .f32), rb .fmax 0x4D, rl .fmaxExt 0x4D (ex (.v 2) (.v 4) (.v 6) no .f32),
      re .ffma 0x43 (ex (.v 2) (.v 4) (.v 6) (.v 8) .f32)].all id = true := by decide +kernel

theorem runs_FloatFunctionResults :
    [rb .fsqrt 0x45, re .fsqrtExt 0x45 (ex (.v 2) (.v 4) no no .f32), rb .frcp 0x46, re .frcpExt 0x46 (ex (.v 2) (.v 4) no no .f32),
      rb .frsq 0x47, re .frsqExt 0x47 (ex (.v 2) (.v 4) no no .f32), rb .fexp2 0x48, re .fexp2Ext 0x48 (ex (.v 2) (.v 4) no no .f32),
      rb .flog2 0x49, re .flog2Ext 0x49 (ex (.v 2) (.v 4) no no .f32), rb .fsin 0x4A, re .fsinExt 0x4A (ex (.v 2) (.v 4) no no .f32),
      rb .fcos 0x4B, re .fcosExt 0x4B (ex (.v 2) (.v 4) no no .f32), rb .fabs 0x50, re .fabsExt 0x50 (ex (.v 2) (.v 4) no no .f32),
      rb .fneg 0x51, re .fnegExt 0x51 (ex (.v 2) (.v 4) no no .f32), re .fset 0x4E (ex (.v 2) (.v 4) (.v 6) no .f32),
      re .fclass 0x4F (ex (.v 2) (.v 4) (.v 6) no .f32), re .frnd 0x52 (ex (.v 2) (.v 4) no no .f32),
      re .fscale 0x53 (ex (.v 2) (.v 4) (.v 6) no .f32), re .fdot2 0x54 (ex (.v 2) (.v 4) (.v 6) (.v 8) .f16)].all id = true := by decide +kernel

theorem runs_ConversionResults :
    [re .fcvt 0x55 { ex (.v 2) (.v 4) no no .f32 with mod := 5 }, re .cvt 0x56 { ex (.v 2) (.v 4) no no .s32 with mod := 1 }].all id = true := by decide +kernel

theorem runs_PackedResults :
    [re .iaddX2 0xD0 (ex (.v 2) (.v 4) (.v 6) no .s16), re .isubX2 0xD1 (ex (.v 2) (.v 4) (.v 6) no .s16),
      re .imulX2 0xD2 (ex (.v 2) (.v 4) (.v 6) no .s16), re .imadX2 0xD3 (ex (.v 2) (.v 4) (.v 6) (.v 8) .s16),
      re .iminX2 0xD4 (ex (.v 2) (.v 4) (.v 6) no .s16), re .imaxX2 0xD5 (ex (.v 2) (.v 4) (.v 6) no .s16),
      re .iabsX2 0xD6 (ex (.v 2) (.v 4) no no .s16), re .inegX2 0xD7 (ex (.v 2) (.v 4) no no .s16),
      re .iaddX4 0xDB (ex (.v 2) (.v 4) (.v 6) no .s8), re .isubX4 0xDC (ex (.v 2) (.v 4) (.v 6) no .s8),
      re .iminX4 0xDD (ex (.v 2) (.v 4) (.v 6) no .s8), re .imaxX4 0xDE (ex (.v 2) (.v 4) (.v 6) no .s8),
      re .iabsX4 0xDF (ex (.v 2) (.v 4) no no .s8), re .shlX2 0xD8 (ex (.v 2) (.v 4) (.v 6) no .s16),
      re .shrX2 0xD9 (ex (.v 2) (.v 4) (.v 6) no .s16), re .sarX2 0xDA (ex (.v 2) (.v 4) (.v 6) no .s16),
      re .faddX2 0xE0 (ex (.v 2) (.v 4) (.v 6) no .f16), re .fsubX2 0xE1 (ex (.v 2) (.v 4) (.v 6) no .f16),
      re .fmulX2 0xE2 (ex (.v 2) (.v 4) (.v 6) no .f16), re .ffmaX2 0xE3 (ex (.v 2) (.v 4) (.v 6) (.v 8) .f16),
      re .fminX2 0xE4 (ex (.v 2) (.v 4) (.v 6) no .f16), re .fmaxX2 0xE5 (ex (.v 2) (.v 4) (.v 6) no .f16),
      re .fabsX2 0xE6 (ex (.v 2) (.v 4) no no .f16), re .fnegX2 0xE7 (ex (.v 2) (.v 4) no no .f16),
      re .frndX2 0xE8 (ex (.v 2) (.v 4) no no .f16)].all id = true := by decide +kernel

theorem runs_StateReads :
    [re .lea 0x7E (ex (.v 2) (.v 4) (.v 6) no .s32), re .lstat 0xB7 (ex (.v 2) no no no .b32)].all id = true := by decide +kernel

/-! ## Statements: conditions on the context -/

/-- The strand of that crew, and changes of parts of its state. -/
def r0 : StrandRef := { crew := { grid := 0, idx := 0 }, strand := 0 }
def onStrand (f : Strand → Strand) (s : State) : State := s.modStrand r0 f
def onCrew (f : Crew → Crew) (s : State) : State := s.modCrew r0.crew f
def onGrid (f : Grid → Grid) (s : State) : State := s.modGrid 0 f

/-- A register with its lanes' values, or with one in every lane; predicate p1 with the lanes of a mask. -/
def vregs (n : Nat) (x : Nat → Nat) (s : State) : State := onStrand (fun t => t.writeV 0xFFFFFFFF#32 n fun l => BitVec.ofNat 32 (x l)) s
def vreg (n x : Nat) (s : State) : State := onStrand (fun t => t.writeV 0xFFFFFFFF#32 n fun _ => BitVec.ofNat 32 x) s
def p1 (m : Mask) (s : State) : State := onStrand (fun t => t.writeP 0xFFFFFFFF#32 1 (hasLane m)) s

/-- Only lane 0 acts. -/
def one (s : State) : State := p1 1 s
def g1 : Guard := { reg := 1, neg := false }

/-- The line of an address of the loaded pages in core 0's L1, and in its constant cache. -/
def inL1 (va : Nat) (s : State) : State := s.fillL1 0 ((0x200000 + va) / 128) 0 (va / 128) .crew (loadedXlate (va / 65536))
def inK (va : Nat) (s : State) : State :=
  let line := (0x200000 + va) / 128
  s.modCore 0 fun k => { k with kcache := [{ line := line, ctx := 0, vline := va / 128, data := s.memLine line, bad := false, moment := 0 }] }

/-- Views of 64 32-bit elements in device memory, and of 8 in local store. -/
def gv : View :=
  { base := 0x10000, rank := 1, isLocal := false, right := 3, ty := .b32, fill := 0, extent := [64, 0, 0, 0], stride := [4, 0, 0, 0],
    origin := [0, 0, 0, 0], universal := false }
def lv : View := { gv with base := 0, isLocal := true, extent := [8, 0, 0, 0] }
def view (n : Nat) (v : View) (s : State) : State := onCrew (fun c => { c with views := putNth c.views n (some v) }) s

/-- A captured instruction, and a strand in its handler with it in the replay queue. -/
def entry0 : ReplayEntry :=
  { instr := .nop g7, pc := 0x80, mask := 0xFFFFFFFF#32, captured := 0xFFFFFFFF#32, trapping := true, skip := false, opA := [], opB := [],
    opC := [], opD := [], ea := [], fresh := false, left := 0, num := 0, parked := none, half := false }
def frame0 : Frame := { splits := [], stack := [], queue := [entry0], cause := 0, addr := 0, pc := 0x80, mask := 0xFFFFFFFF#32 }
def inHandler (s : State) : State := onStrand (fun t => { t with handler := some frame0 }) s

/-- Every active lane. -/
def every (c : Ctx) (p : Nat → Bool) : Bool := (lanesOf c.act).all p

/-- Translations at issue succeed, and what they give meets a condition. -/
def translates (c : Ctx) (a : Right) (ls : List Nat) (p : State → List LaneKeys → Bool) : Bool :=
  match c.translateLanes c.s a c.bytes ls with | (s', .inl lk) => p s' lk | _ => false

def csr (n : Nat) (ok : Ctx → Bool) : Bool :=
  let e := { ex (.v 2) no no no .b32 with imm := BitVec.ofNat 16 n }
  ready (.csrr e) (Form.ofExt 0xC0 e) id ok

theorem meets_SpecialRegisters :
    ([0, 1, 2, 3, 4, 5, 6, 7, 8, 9, 0xA, 0xC, 0xD, 0xE, 0x10, 0x12, 0x13, 0x14, 0x15, 0x16, 0x17, 0x18, 0x19, 0x1A, 0x1B, 0x1C].all
        fun n => csr n fun _ => true) = true ∧ csr 0xB (fun c => decide (8 ≤ (c.s.clusterOf c.c c.t).width)) = true ∧
      csr 0xF (fun c => !c.clockComing) = true ∧ csr 0x11 (fun c => !c.flagsComing) = true := by decide +kernel

def rx (mk : Ext → Instr) (op : Nat) (e : Ext) (prep : State → State) (ok : Ctx → Bool) : Bool :=
  ready (mk e) (Form.ofExt op e) prep ok

def e1 : Ext := ex (.v 2) (.v 4) (.v 6) no .s32
/-- Extended forms that name view register w0. -/
def ev (d a b c : Opd) (ty : Ty) : Ext := { ex d a b c ty with view := some 0 }

theorem meets_StateReads :
    [re .lea 0x7E e1, re .lstat 0xB7 (ex (.v 2) no no no .b32),
      rx .hops 0xBB e1 id fun c => every c fun l => decide ((loWord (c.a l)).toNat < c.g.dieRec.vphys.length) &&
        decide ((loWord (c.b l)).toNat < c.g.dieRec.vphys.length),
      rx .hgen 0x62 (ex (.v 2) no no no .b32) id fun c => c.g.record.chained && decide (c.g.mode c.slot ≠ 0),
      rx .hstat 0x63 (ex (.v 2) no no no .b32) id fun c => c.g.record.chained && decide (c.g.mode c.slot ≠ 0) &&
        c.g.dist c.slot ((c.f.e.aux >>> 3).toNat + 1),
      rx .vmeet 0x85 (ev (.p 1) (.w 1) no no .b32) (view 1 lv ∘ view 0 gv) fun c => c.view?.isSome && (c.c.view? 1).isSome,
      rx .vqry 0x86 (ev (.v 2) no no no .b32) (view 0 gv) fun c =>
        match c.view? with | some v => (v.field (c.s.locksOf c.c) c.viewReg (c.f.e.aux &&& 0x3F#8).toNat).isSome | none => false,
      rx .vaddr 0x87 (ev (.v 2) (.imm 1) (.imm 0) (.imm 0) .b32) (view 0 gv) fun c =>
        match c.view? with | some v => every c fun l => v.inBounds (c.viewIndex l) | none => false,
      rx .rplq 0xC5 (ex (.v 2) (.imm 0) no no .b32) inHandler fun c => c.replayEntry.isSome && decide (c.replaySel < 8),
      rx .rplq 0xC5 { ex (.v 2) (.imm 0) no no .b32 with aux := 14 }
        (onStrand fun t => { t with handler := some { frame0 with queue := [{ entry0 with instr := .ldG (bs 2 4), ea := [(0, 1)] }] } })
        fun c => match c.replayEntry with
          | some x => decide (8 ≤ c.replaySel) && decide (c.replaySel < 16) && (x.2.lane c.replaySel 0).isSome | none => false].all id = true := by
  decide +kernel

/-- The Bool form of `Ctx.linesAtHand` and of `Ctx.storesAtHand`. -/
def atHand (c : Ctx) : Bool :=
  !c.overlaps && decide (c.space ≠ .localStore) &&
    every c fun l => match c.keys? c.s .read l with | some ks => c.atHand ks && ks.all (fun k => !(c.pathByte k.1).2) | none => false
def storeLines (c : Ctx) : Bool :=
  decide (c.space = .localStore) ||
    every c fun l => match c.keys? c.s .write l with
      | some ks => ks.all fun k => ((c.s.core? c.core).bind fun d => d.l1? (k.1 / 128)).isSome | none => true
def storeAtHand (c : Ctx) : Bool := !c.overlaps && storeLines c

def mb (mk : Base → Instr) (op : Nat) (prep : State → State) (ok : Ctx → Bool) : Bool :=
  ready (mk (bs 2 4)) (Form.ofBase op (bs 2 4)) prep ok
def ml (mk : Long → Instr) (op : Nat) (e : Ext) (prep : State → State) (ok : Ctx → Bool) : Bool :=
  ready (mk (.ext e)) (Form.ofLong op (.ext e)) prep ok

/-- v4 holds the address 0x10100, whose line is in L1; private bytes of lane 0 are at 0x20000. -/
def near1 : State → State := inL1 0x10100 ∘ vreg 4 0x10100
def ptr (ty : Ty) : Ext := ex (.v 2) (.v 4) (.imm 0) no ty

theorem meets_PlainLoads :
    let hit (c : Ctx) : Bool := (c.accessTrap false).isNone && atHand c
    let near (c : Ctx) : Bool := (c.accessTrap false).isNone && !c.overlaps
    [mb .ldG 0x70 near1 hit, ml .ldGExt 0x70 (ptr .n8) near1 hit, mb .ldK 0x73 (inK 0x10100 ∘ vreg 4 0x10100) hit,
      ml .ldKExt 0x73 (ptr .s64) (inK 0x10100 ∘ vreg 4 0x10100) hit, mb .ldL 0x71 (vreg 4 65532) near,
      ml .ldLExt 0x71 (ptr .s64) (vreg 4 65528) near,
      ready (.ldP { bs 2 4 with g := g1 }) (Form.ofBase 0x72 { bs 2 4 with g := g1 }) (inL1 0x20000 ∘ one) hit,
      ml .ldPExt 0x72 { ptr .n8 with g := g1 } (inL1 0x20000 ∘ one) hit,
      rx .ldv 0x88 (ev (.v 2) (.imm 1) (.imm 0) (.imm 0) .b32) (inL1 0x10000 ∘ view 0 gv) fun c =>
        !c.throughUniversal && match c.view? with | some v => (c.viewAccessTrap v false).isNone && !v.isLocal && atHand c | none => false,
      rx .ldv 0x88 (ev (.v 2) (.imm 1) (.imm 0) (.imm 0) .b32) (inL1 0x10000 ∘ view 0 { gv with universal := true }) fun c =>
        c.throughUniversal && (match c.view? with | some v => (c.viewAccessTrap v false).isNone && !v.isLocal && atHand c | none => false) &&
          every c fun l => ((c.keys? c.s .read l).getD []).all fun k => !((c.s.flushCore c.core).poisoned (k.1 / 128)),
      rx .ldv 0x88 (ev (.v 2) (.imm 1) (.imm 0) (.imm 0) .b32) (view 0 lv) fun c =>
        match c.view? with | some v => (c.viewAccessTrap v false).isNone && v.isLocal && !c.overlaps | none => false].all id = true := by
  decide +kernel

/-- Two lanes act, the first on a line in L1, the other on a page that has no translation. -/
def twoPages : State → State := inL1 0x10100 ∘ vregs 4 (fun l => if l = 0 then 0x10100 else 0x90100) ∘ p1 3
def bg : Base := { bs 2 4 with g := g1 }
/-- A store form of lane 0, or of the lanes of p1. -/
def st (ty : Ty) : Ext := { ptr ty with d := no, c := .v 6 }
def stg (ty : Ty) : Ext := { st ty with g := g1 }

theorem meets_PlainStores :
    let ok (c : Ctx) : Bool := (c.accessTrap true).isNone && storeAtHand c
    let part (c : Ctx) : Bool := ok c && decide (c.storeReady ≠ c.act) && decide (c.storeReady ≠ 0)
    [mb .stG 0x75 near1 ok, ml .stGExt 0x75 (st .n8) near1 ok, mb .stL 0x76 (vreg 4 65532) ok, ml .stLExt 0x76 (st .b32) (vreg 4 0) ok,
      ready (.stP bg) (Form.ofBase 0x77 bg) (inL1 0x20000 ∘ one) ok, ml .stPExt 0x77 (stg .n8) (inL1 0x20000 ∘ one) ok,
      rx .stv 0x89 (ev (.v 2) (.imm 1) (.imm 0) (.imm 0) .b32) (inL1 0x10000 ∘ view 0 gv) fun c =>
        match c.view? with | some v => !c.throughUniversal && (c.viewAccessTrap v true).isNone && storeAtHand c | none => false,
      rx .stv 0x89 (ev (.v 2) (.imm 1) (.imm 0) (.imm 0) .b32) (inL1 0x10000 ∘ view 0 { gv with universal := true }) fun c =>
        match c.view? with
          | some v => c.throughUniversal && (c.viewAccessTrap v true).isNone && storeAtHand c && decide (c.space ≠ .localStore) && decide (c.storeReady = c.act)
          | none => false,
      ready (.stG bg) (Form.ofBase 0x75 bg) twoPages part, ml .stGExt 0x75 (stg .b32) twoPages part].all id = true := by decide +kernel

theorem meets_AccessesFly :
    let flies (c : Ctx) : Bool := !c.overlaps && decide (c.space ≠ .localStore) &&
      (lanesOf c.act).any fun l => match c.keys? c.s .read l with | some ks => !c.atHand ks | none => true
    let fly (c : Ctx) : Bool := (c.accessTrap false).isNone && flies c
    let room (c : Ctx) : Bool := fly c && c.entriesFor c.s c.act (fun _ => true)
    let full (s : State) : State := onStrand (fun t => { t with inflight := t.inflight }) s
    let two (c : Ctx) : Bool := (c.accessTrap true).isNone && !c.overlaps && decide (c.act = 1#32 <<< 0 ||| 1#32 <<< 1) &&
      (match c.keys? c.s .write 0 with
        | some ks => (ks.all fun k => ((c.s.core? c.core).bind fun d => d.l1? (k.1 / 128)).isSome) && decide (ks.map (·.1)).Nodup
        | none => false) && (c.keys? c.s .write 1).isNone
    let far : State → State := vreg 4 0x90100
    [mb .ldG 0x70 (full ∘ far) room, ml .ldGExt 0x70 (ptr .n8) far room, mb .ldK 0x73 far fly, ml .ldKExt 0x73 (ptr .s64) far fly,
      ready (.ldP bg) (Form.ofBase 0x72 bg) one room, ml .ldPExt 0x72 { ptr .n8 with g := g1 } one room, mb .ldG 0x70 (vreg 4 0x10100) room,
      rx .ldv 0x88 (ev (.v 2) (.imm 1) (.imm 0) (.imm 0) .b32) (view 0 gv) fun c =>
        match c.view? with | some v => (c.viewAccessTrap v false).isNone && flies c | none => false,
      ready (.stG bg) (Form.ofBase 0x75 bg) twoPages two, ml .stGExt 0x75 (stg .b32) twoPages two].all id = true := by
  decide +kernel

/-- A tile operation that stores to a view: it holds its write lock until it ends. -/
def lockView (v : View) (s : State) : State :=
  s.modCore 0 fun k =>
    { k with tileQ := [{ id := 0, crew := r0.crew, strand := 0, lane := 0, kind := .msta { reg := 1, view := v } .b32 0 false false,
                         td := 7, ts := 0, follow := none, phase := 0, pages := [], olds := [] }] }

/-- Lane 5 holds one value, the others another; one LDV by it. -/
def lane5 (n x y : Nat) : State → State := vregs n fun l => if l = 5 then y else x
def ldvAt : Ext := ev (.v 2) (.v 4) (.imm 0) (.imm 0) .b32
def viewIs (ok : Ctx → View → Bool) (c : Ctx) : Bool := match c.view? with | some v => ok c v | none => false

theorem meets_AccessTraps :
    let trap (w : Bool) (c : Ctx) : Bool := (c.accessTrap w).isSome
    let mis : State → State := vreg 4 0x10101
    [mb .ldG 0x70 mis (trap false), ml .ldGExt 0x70 (ptr .s64) mis (trap false), mb .ldL 0x71 mis (trap false), ml .ldLExt 0x71 (ptr .s64) mis (trap false),
      mb .ldP 0x72 mis (trap false), ml .ldPExt 0x72 (ptr .s64) mis (trap false), mb .ldK 0x73 mis (trap false), ml .ldKExt 0x73 (ptr .s64) mis (trap false),
      rx .ldAcq 0x74 { ptr .b32 with scope := .crew } mis (trap false), mb .stG 0x75 mis (trap true), ml .stGExt 0x75 (st .s64) mis (trap true),
      mb .stL 0x76 mis (trap true), ml .stLExt 0x76 (st .s64) mis (trap true), mb .stP 0x77 mis (trap true), ml .stPExt 0x77 (st .s64) mis (trap true),
      rx .stRel 0x78 { st .b32 with scope := .crew } mis (trap true),
      rx .ldv 0x88 ldvAt (vreg 4 64 ∘ view 0 gv) (viewIs fun c v => (c.viewAccessTrap v false).isSome),
      rx .stv 0x89 ldvAt (vreg 4 64 ∘ view 0 gv) (viewIs fun c v => (c.viewAccessTrap v true).isSome)].all id = true := by
  decide +kernel

/-- The checks: the last word below 2^57 passes, the next one does not; the same of the local store and of private memory. -/
theorem meets_AccessTraps_checks :
    let gives (t : Trap) (a : Nat) (l : Nat) (w : Bool) (c : Ctx) : Bool := decide (c.accessTrap w = some (t, BitVec.ofNat 64 a, l))
    let inside (c : Ctx) : Bool := every c fun k => !(c.outside k)
    [ml .ldGExt 0x70 (ptr .b32) (lane5 5 0x1FFFFFF 0x2000000 ∘ lane5 4 0xFFFFFFFC 0) fun c => decide (c.space = .global) && gives .permission (2 ^ 57) 5 false c,
      mb .ldL 0x71 (lane5 4 65532 65536) fun c => decide (c.space = .localStore) && decide (c.g.header.localBytes = 65536) && gives .permission 65536 5 false c,
      mb .stP 0x77 (lane5 4 260 253) fun c => !c.flying && gives .privateLimit 253 0 true c && decide (c.ea 0 = 260) && decide (c.ea 5 = 253) &&
        decide (c.g.header.privBytes = 256),
      mb .ldG 0x70 (lane5 4 0x10100 0x10101) fun c => inside c && gives .misalign 0x10101 5 false c,
      mb .ldG 0x70 (lockView gv ∘ lane5 4 0x10800 0x10000) fun c => inside c && (every c fun l => decide (c.ea l % (c.size : Int) = 0)) &&
        !(c.locked false 4) && c.locked false 5 && gives .viewLocked 0x10000 5 false c,
      rx .ldv 0x88 ldvAt (lane5 4 63 64 ∘ view 0 gv) (viewIs fun c v => decide (c.viewAccessTrap v false = some (.viewBounds, 0, 5)) &&
        v.inBounds (c.viewIndex 4) && !(v.inBounds (c.viewIndex 5))),
      rx .stv 0x89 ldvAt (lockView { gv with base := 0x10020, extent := [1, 0, 0, 0] } ∘ lane5 4 0 2 ∘ view 0 gv) (viewIs fun c v =>
        (every c fun k => v.inBounds (c.viewIndex k)) && v.canWrite && decide (c.f.e.ty = v.ty) && !(c.locked true 4) && c.locked true 5 &&
          decide (c.viewAccessTrap v true = some (.viewLocked, 0x10020, 5)))].all id = true := by
  decide +kernel

/-- A store of lane 0 that is under way, its page not yet walked. -/
def storeOut : InFlight :=
  { id := 0, entry := { entry0 with instr := .stG (bs 2 4), mask := 1, captured := 1, trapping := false, opA := [(0, 0x90100)], ea := [(0, 0x90100)] },
    state := .outstanding, phase := 0, handler := 0, universal := false, lines := [] }

theorem meets_AcquireRelease :
    let acq (sc : Scope) : Ext := { ptr .b32 with scope := sc, g := g1 }
    let two : State → State := near1 ∘ p1 3
    [rx .ldAcq 0x74 (acq .crew) two fun c => (c.accessTrap false).isNone && !c.overlaps && !(beyondL1 c.f.e.scope) &&
        translates c .read (lanesOf c.act) fun s' lk => c.entriesOf s' lk (fun _ => true),
      rx .ldAcq 0x74 (acq .grid) two fun c => (c.accessTrap false).isNone && !c.overlaps && beyondL1 c.f.e.scope && decide (c.act = 3) &&
        translates c .read (lanesOf c.act) fun s' lk => c.entriesOf s' lk (fun _ => true) && (c.scopeFail s' lk).isNone && lk.all fun x => x.2.all fun k => !(s'.poisoned (k.1 / 128)),
      rx .ldAcq 0x74 (acq .crew) (vreg 4 0x10100 ∘ p1 3 ∘ onStrand fun t => { t with inflight := [{ storeOut with lines := span 1000000 256 }] }) fun c =>
        (c.accessTrap false).isNone && !c.overlaps && !c.flying && translates c .read (lanesOf c.act) fun s' lk => !(c.entriesOf s' lk fun _ => true),
      rx .stRel 0x78 { st .b32 with scope := .crew } near1 fun c => (c.accessTrap true).isNone && c.quiet && !(beyondL1 c.f.e.scope) &&
        translates c .write (lanesOf c.act) fun s' lk => (c.scopeFail s' lk).isNone,
      rx .stRel 0x78 { st .b32 with scope := .sys } near1 fun c => (c.accessTrap true).isNone && c.quiet && beyondL1 c.f.e.scope &&
        translates c .write (lanesOf c.act) fun s' lk => (c.scopeFail s' lk).isNone].all id = true := by decide +kernel

theorem meets_BankInstructions :
    let at1 (d c : Opd) (sc : Scope) : Ext := { ex d (.v 4) (.v 6) c .n32 with scope := sc }
    let ok (c : Ctx) : Bool := c.bankTrap.isNone && !c.overlaps && (decide (c.f.e.scope = .none) || c.quiet) &&
      translates c .both (lanesOf c.act) fun s' lk => (lk.all fun x => x.2.all fun k => decide (k.2.target ≠ 1)) && (c.scopeFail s' lk).isNone &&
        decide (poisonedLanes (lk.foldl (fun s x => c.flush s x.2) s') lk = 0)
    [rx .atom 0x79 (at1 no no .none) near1 ok, rx .atomRet 0x7A (at1 (.v 2) no .grid) near1 ok, rx .cas 0x7B (at1 (.v 2) (.v 8) .crew) near1 ok,
      rx .red 0x7C (at1 no no .none) near1 ok, rx .red 0x7C (at1 no no .sys) near1 ok].all id = true := by decide +kernel

theorem meets_FencesAndInvalidation :
    [rx .prf 0x7D (ex no (.v 4) (.imm 0) no .b32) near1 fun c => every c fun l => !(lockHit (c.s.locksOf c.c) false (c.prfFoot l)),
      rx .prf 0x7D (ex no (.v 4) (.imm 0) no .b32) (lockView gv ∘ lane5 4 0x10800 0x10000) fun c =>
        (lanesOf c.act).all (fun k => decide (5 ≤ k) || !(lockHit (c.s.locksOf c.c) false (c.prfFoot k))) && hasLane c.act 5 &&
          lockHit (c.s.locksOf c.c) false (c.prfFoot 5),
      re .pfence 0x7F (ex no no no no .b32), rx .pfence 0x7F { ex no no no no .b32 with scope := .sys } id Ctx.quiet,
      re .tlbi 0xC8 (ex no (.v 4) (.v 6) no .b32), rx .icinv 0xC9 (ex no (.v 4) (.v 6) no .b32) id Ctx.quiet,
      rx .icinv 0xC9 (ex no (.v 4) (.v 6) no .b32) (onStrand fun t => { t with inflight := [storeOut] }) fun c => !c.quiet].all id = true := by
  decide +kernel

/-- A form that is the guard alone. -/
def pl (i : Instr) (op n : Nat) (prep : State → State) (ok : Ctx → Bool) : Bool := ready i (Form.plain op g7 n) prep ok

theorem meets_Branches :
    let brx : Ext := ex no (.v 4) no no .b32
    let loop : Ext := { ex (.s 2) no no no .b32 with imm := 0xFFFF }
    let s2 (n : Nat) : State → State := onStrand fun t => t.writeS 2 (BitVec.ofNat 32 n)
    [pl (.nop g7) 0 1 id fun _ => true, pl (.bra g7 0x3FFFF) 1 1 id fun _ => true, pl (.braLit g7 8) 1 3 id fun _ => true,
      rx .brx 2 brx (vreg 4 0x100) fun c => every c fun l => decide ((loWord (c.a l)).toNat % 4 = 0),
      rx .brx 2 brx (vreg 4 0x102) fun c => hasLane c.act 0 && decide ((loWord (c.a 0)).toNat % 4 ≠ 0),
      rx .loop 7 loop (s2 0) fun c => decide (c.t.sAt 2 ≠ 1), rx .loop 7 loop (s2 2) fun c => decide (c.t.sAt 2 ≠ 1),
      rx .loop 7 loop (s2 1) fun c => decide (c.t.sAt 2 = 1)].all id = true := by decide +kernel

/-- The paths of a strand that starts are in order. -/
theorem meets_LanesMove : Strand.pathsOk (Strand.start 0 0xFFFFFFFF#32 0x80 0 0 0) := by
  simp [Strand.pathsOk, Strand.start, Path.at, Strand.live]

/-- No page is in a TLB of the core or of its die. -/
def bare (s : State) : State := (s.modCore 0 fun k => { k with tlb := [] }).modDie 0 fun d => { d with tlb := [] }

theorem meets_CallsAndReturns :
    let may (c : Ctx) : Bool := !c.half && !c.overlaps && every c fun l => decide (4 ≤ c.cp l) && !(c.locked true l)
    let room (c : Ctx) : Bool := may c && decide (c.mapped c.s .write c.act = c.act)
    let aged (c : Ctx) (s' : State) (n : Nat) : Bool := if s'.isAged (c.rejection s').1 then decide (n < (c.rejection s').2) else true
    let e : Ext := { ex no (.v 4) no no .b32 with g := g1 }
    [ready (.call g1 4) (Form.plain 3 g1 1) one room, ready (.call g1 4) (Form.plain 3 g1 1) (bare ∘ one) fun c => may c && decide (c.mapped c.s .write c.act = 0),
      ready (.callLit g1 8) (Form.plain 3 g1 3) one room,
      rx .callx 4 e one fun c => room c && every c fun l => decide ((loWord (c.a l)).toNat % 4 = 0),
      ready (.call g1 4) (Form.plain 3 g1 1) (one ∘ onStrand fun t => { t with depth := [(0, 253)] }) fun c => !c.half && hasLane c.act 0 && decide (c.cp 0 < 4),
      ready (.ret g1) (Form.plain 5 g1 1) (inL1 0x20000 ∘ one ∘ onStrand fun t => { t with depth := [(0, 4)] }) fun c =>
        !c.overlaps && (every c fun l => decide (c.cp l + 4 ≤ c.g.header.privBytes) && !(c.locked false l)) &&
          translates c .read (lanesOf c.act) fun s' lk => let x := c.loadLanes s' lk
            c.entriesOf s' lk (aged c s') && decide (x.2.2 = 0) && every c fun l => decide ((loWord (SMap.look 0 (SMap.putAll 0 [] x.2.1) l)).toNat % 4 = 0),
      ready (.ret g1) (Form.plain 5 g1 1) (inL1 0x20000 ∘ (fun s => { s with poison := span (0x220000 / 128) 64 }) ∘ one ∘ onStrand fun t => { t with depth := [(0, 4)] })
        fun c => !c.overlaps && (every c fun l => decide (c.cp l + 4 ≤ c.g.header.privBytes) && !(c.locked false l)) &&
          translates c .read (lanesOf c.act) fun s' lk =>
            c.entriesOf s' lk (aged c s') && decide ((c.loadLanes s' lk).2.2 ≠ 0)].all id = true := by
  decide +kernel

theorem meets_ExitEnds : pl (.exit g7) 6 1 id (fun _ => true) = true := by decide +kernel

theorem meets_SystemWrites :
    let csrw (n : BitVec 16) : Ext := { ex no (.v 4) no no .b32 with imm := n }
    let x (c : Ctx) : Word := loWord (c.a c.low)
    let u : Ext := ex no (.v 4) no no .b32
    [rx .csrw 0xC1 (csrw 0x11) (vreg 4 0x1FB) fun c => decide (x c &&& 0xFFFFFE04#32 = 0),
      rx .csrw 0xC1 (csrw 0x11) (vreg 4 4) fun c => decide (x c &&& 0xFFFFFE04#32 ≠ 0),
      rx .csrw 0xC1 (csrw 0x12) (vreg 4 0) fun c => decide ((x c).toNat ≤ c.c.initPrio.toNat),
      rx .csrw 0xC1 (csrw 0x12) (vreg 4 1) fun c => decide (c.c.initPrio.toNat < (x c).toNat),
      rx .csrw 0xC1 (csrw 0x13) (vreg 4 0x80) fun c => decide ((x c).toNat % 4 = 0) && decide (0x80 ≤ (x c).toNat),
      rx .csrw 0xC1 (csrw 0x13) (vreg 4 0) fun c => decide (x c = 0),
      rx .csrw 0xC1 (csrw 0x13) (vreg 4 0x7C) fun c => decide (x c ≠ 0) && decide ((x c).toNat < 0x80),
      rx .csrw 0xC1 (csrw 0x10) id fun _ => true,
      rx .prio 0xBA u id fun c => decide ((x c).toNat ≤ c.c.initPrio.toNat), rx .prio 0xBA u (vreg 4 1) fun c => decide (c.c.initPrio.toNat < (x c).toNat),
      rx .wdog 0xC7 u (vreg 4 10000000) fun c => decide (1 ≤ (x c).toNat) && decide ((x c).toNat ≤ 10000000),
      rx .wdog 0xC7 u id fun c => decide ((x c).toNat = 0), rx .wdog 0xC7 u (vreg 4 10000001) fun c => decide (10000000 < (x c).toNat),
      pl (.yield g7) 0xB8 1 id fun _ => true, rx .sleep 0xB9 u id fun c => !c.slept,
      rx .sleep 0xB9 u (onStrand fun t => { t with splits := t.splits.map fun p => { p with wait := .sleep 0 } }) Ctx.slept].all id = true := by
  decide +kernel

/-! ## Statements: traps -/

/-- The Bool form of `Ctx.trapFits`. -/
def fits (c : Ctx) : Bool :=
  !c.t.busy && decide (c.c.handler ≠ 0) && c.t.handler.isNone && c.t.deferred.isEmpty && 
    decide (c.t.inflight.length + (c.others.filterMap Path.parkedEntry).length + c.waiting.length ≤ 15) &&
    c.waiting.all fun e => decide ({ e with trapping := true } ≠ { c.entry c.act true with trapping := true })
def withHandler (s : State) : State := onCrew (fun c => { c with handler := 0x100 }) s
def ctxIs (i : Instr) (f : Form) (prep : State → State) (ok : Ctx → Bool) : Bool :=
  match (prep (start i)).ctxOf f with | some c => ok c | none => false

theorem meets_TrapsEnter :
    let raw (w : Nat) : Raw := { l := BitVec.ofNat 2 w, bits := BitVec.ofNat 160 w }
    let rawForm (r : Raw) : Form := Form.plain 0xFF (guardOf r.bits.toNat) (lengthWords r.l.toNat)
    let same (c : Ctx) : Bool := decide (c.s.strand? c.r = some c.t) && (c.s.crew? c.r.crew).isSome && fits c
    [rx .trap 0xC2 { ex no no no no .b32 with imm := 7 } withHandler fits, pl (.bkpt g7) 0xC4 1 withHandler fits,
      ctxIs (.udf g7 0) (Form.plain 0xFF g7 1) withHandler fits, ctxIs (.udfExt (raw 1)) (rawForm (raw 1)) withHandler fits,
      ctxIs (.reservedCell (raw (word 9 0 0 0))) (rawForm (raw (word 9 0 0 0))) withHandler fits,
      ctxIs (.udf g7 0) (Form.plain 0xFF g7 1) withHandler same].all id = true := by decide +kernel

/-- A partition in the state. -/
def part0 : Partition :=
  { entry := 0x400000, cores := List.replicate 9 0xFFFFFFFFF#36, ways := List.replicate 9 0xFFFF#16, qWeight := 1, nWeight := 1, cls := 1,
    ports := 0xFFF#12, peers := List.replicate 14 0xFFF#12, fring := 0x500000, flog := 4, fwptr := 0, frptr := 0, nextFault := 0, stopped := false }
def withPart (s : State) : State := { s with partitions := putNth s.partitions 0 (some part0) }

theorem meets_UnhandledTrap :
    (ctxIs (.udf g7 0) (Form.plain 0xFF g7 1) withPart fun c => decide (c.s.strand? c.r = some c.t) && decide (c.s.crew? c.r.crew = some c.c) &&
      decide (c.s.grid? c.r.crew.grid = some c.g) && (c.s.part? c.g.part).isSome && !c.t.busy && decide (c.c.handler = 0)) = true := by
  decide +kernel

theorem meets_TrapReturn :
    let e : Ext := ex no no no no .b32
    let half (s : State) : State :=
      { inHandler (onStrand (fun t => { t with splits := [Path.at 0x80 0x0000FFFF#32 0, Path.at 0x90 0xFFFF0000#32 0] }) s) with
        cur := s.cur.map fun i => { i with mask := 0x0000FFFF#32 } }
    [rx .trapret 0xC3 e id fun c => c.t.handler.isNone,
      rx .trapret 0xC3 e inHandler fun c => c.t.handler.isSome && decide (c.t.splits.length = 1) && c.t.stack.isEmpty &&
        c.t.splits.all fun p => hasLane p.mask (lowest c.iss.mask),
      rx .trapret 0xC3 e half fun c => c.t.handler.isSome && c.t.splits.any fun p => !(hasLane p.mask (lowest c.iss.mask)) && decide (p.wait = .none) &&
        !c.iss.queued && (c.t.splitOf? (lowest c.iss.mask)).isSome,
      rx .rplw 0xC6 (ex no (.imm 0) (.imm 1) no .b32) inHandler fun c => match c.replayEntry with
        | some x => (x.2.written c.replaySel c.act fun l => loWord (c.b l)).isSome | none => false].all id = true := by decide +kernel

/-! ## Statements: views, copies, tiles, synchronising -/

/-- Bytes of the crew's local store, and of memory at an address of the loaded pages. -/
def local1 (off : Nat) (b : List Byte) (s : State) : State :=
  onCrew (fun c => { c with store := SMap.putAll 0 c.store ((span off b.length).zip b) }) s
def words (l : List Nat) : List Byte := l.flatMap fun w => toBytes 4 w
def memory (va : Nat) (l : List Nat) (s : State) : State := s.writeMem (0x200000 + va) (words l)

/-- The descriptor of `gv` as R202 lays it out. -/
def desc : List Nat := [0x10000, 0, 0x301, 0, 64, 0, 0, 0, 4, 0, 0, 0, 0, 0, 0, 0]

/-- A view of the flag's word, in another register. -/
def fv : View := { gv with base := 0x10800, extent := [1, 0, 0, 0] }

/-- The word of a flag in L1, read by lane 0 alone. -/
def flag (x : Nat) : State → State := vreg 6 0 ∘ inL1 0x10800 ∘ memory 0x10800 [x] ∘ vreg 4 0x10800 ∘ one
def ef (ty : Ty) (sc : Scope) : Ext := { ex no (.v 4) (.v 6) no ty with scope := sc, view := some 0, g := g1 }
def untouched (c : Ctx) : Bool := c.view?.isSome && !c.viewLocked && !c.viewInUse

theorem meets_ViewRegisters :
    let e : Ext := ev no (.v 4) no no .b32
    let defOk (c : Ctx) : Bool := !c.viewLocked && !c.viewInUse && decide ((loWord (c.a c.low)).toNat % 16 = 0) &&
      match viewOfBytes ((span (loWord (c.a c.low)).toNat 64).map (SMap.look 0 c.c.store)) with
      | some v => (v.check c.g.header.localBytes).isNone | none => false
    let setOk (c : Ctx) : Bool := untouched c && match c.view? with
      | some v => (match v.setField c.viewSel (loWord (c.a c.low)) with | some w => (w.check c.g.header.localBytes).isNone | none => false) | none => false
    let may (c : Ctx) : Bool := !c.viewLocked && decide (c.again.ea c.low % 4 = 0) && c.quiet && !(c.again.locked true c.low)
    let flagCtx (c : Ctx) (v : View) : Ctx := { c.again with s := c.releaseOver c.s v }
    let ret (c : Ctx) : Bool := may c && match c.view? with
      | some v => let a := flagCtx c v
        translates a .write [c.low] fun s' lk => (a.scopeFail s' lk).isNone && decide (lk.map (·.1) = [c.low])
      | none => false
    let parks (c : Ctx) : Bool := may c && !c.again.flying && match c.view? with
      | some v => let a := flagCtx c v
        match (a.translateLanes a.s .write a.bytes [c.low]).2 with | .inr _ => true | _ => false
      | none => false
    [rx .vdef 0x80 e (local1 0 (words desc)) defOk, rx .vdef 0x80 e (vreg 4 65472 ∘ local1 65472 (words desc)) defOk,
      rx .vdef 0x80 e (vreg 4 8) fun c => !c.viewLocked && !c.viewInUse && decide ((loWord (c.a c.low)).toNat % 16 ≠ 0),
      rx .vset 0x81 { e with aux := 3 } (vreg 4 7 ∘ view 0 gv) setOk, rx .vdrop 0x82 e (view 0 gv) fun c => c.view?.isSome && !c.viewLocked,
      rx .vdrop 0x82 e id fun c => c.view?.isNone, rx .vret 0x83 (ef .b32 .crew) (flag 0 ∘ view 0 gv) ret,
      rx .vret 0x83 (ef .b32 .grid) (flag 0 ∘ view 0 gv) ret,
      rx .vret 0x83 (ef .b32 .crew) (vreg 4 0x90800 ∘ flag 0 ∘ view 0 gv) parks,
      rx .vret 0x83 (ef .b32 .crew) (lockView fv ∘ flag 0 ∘ view 0 gv) fun c => c.view?.isSome && !c.viewLocked &&
        decide (c.again.ea c.low % 4 = 0) && c.again.locked true c.low].all id = true := by decide +kernel

theorem meets_FlagWaits :
    let reads (e : Ext) (holds : Bool) (c : Ctx) : Bool := let a := c.again
      decide (a.ea c.low % 4 = 0) && !a.flagBusy && !(a.locked false c.low) &&
      translates a .read [c.low] fun s' lk => (a.scopeFail s' lk).isNone && decide (lk.map (·.1) = [c.low]) && lk.all fun x =>
        let r := a.readFlag s' x.2; !r.2.2 && decide (intCond e.rnd.toNat e.ty (BitVec.ofNat 64 r.2.1) (a.b c.low) = holds)
    let both (mk : Ext → Instr) (op : Nat) (sc : Scope) : Bool := rx mk op (ef .s32 sc) (flag 0 ∘ view 0 gv) (reads (ef .s32 sc) true) &&
      rx mk op (ef .s32 sc) (flag 5 ∘ view 0 gv) (reads (ef .s32 sc) false)
    let bad (c : Ctx) : Bool := decide (c.again.ea c.low % 4 ≠ 0)
    [both .vacq 0x84 .crew, both .vacq 0x84 .grid, both .waitm 0xB2 .crew, both .waitm 0xB2 .sys,
      rx .waitm 0xB2 (ef .s32 .crew) (vreg 4 0x10102 ∘ one) bad,
      rx .vacq 0x84 (ef .s32 .crew) (vreg 4 0x10102 ∘ view 0 gv ∘ one) fun c => c.view?.isSome && bad c,
      rx .vacq 0x84 (ef .s32 .crew) (lockView fv ∘ flag 0 ∘ view 0 gv) fun c => c.view?.isSome && !(bad c) && c.again.locked false c.low].all id = true := by
  decide +kernel

/-- A tag made DONE. -/
def doneTag (n : Nat) (err : Bool) (s : State) : State :=
  onCrew (fun c => { c with tags := putNth c.tags n { Tag.unused with state := .done, errPend := err } }) s

/-- Views of 4 and 2 rows of bf16 in device memory and in local store. -/
def nb : View :=
  { base := 0x30000, rank := 2, isLocal := false, right := 1, ty := .bf16, fill := 0, extent := [4, 2, 0, 0], stride := [1, 4, 0, 0],
    origin := [0, 0, 0, 0], universal := false }
def nx : View := { nb with base := 0, isLocal := true, rank := 1, extent := [4, 0, 0, 0], stride := [1, 0, 0, 0] }
def ny : View := { nx with base := 0x100, right := 3, extent := [2, 0, 0, 0] }
def nearPage (s : State) : State := s.tlbFill 0 0 0x30000 { loadedXlate 3 with near := true, big := true }

/-- A view of a tile in local store. -/
def tv (ty : Ty) (at1 : Nat) : View :=
  { base := BitVec.ofNat 64 at1, rank := 2, isLocal := true, right := 3, ty := ty, fill := 0, extent := [128, 128, 0, 0],
    stride := [1, 128, 0, 0], origin := [0, 0, 0, 0], universal := false }
/-- A format block of s8 operands without scales (R230), and a follow-on block that names it (R216). -/
def s8Block : List Nat := [0, 0, 0, 0, 0x0A0A, 0, 0, 0]
def s8Follow : List Nat := [0x9000, 0x0A020101, 0, 0]

theorem meets_CopiesStart :
    let e : Ext := ex (.w 0) (.w 1) (.v 6) no .b32
    let base (c : Ctx) : Bool := !c.copyStalls && decide (c.tagNo < c.c.tags.length)
    let copy (c : Ctx) : Bool := base c && match c.viewUse e.d, c.viewUse e.a with
      | some d, some a => decide (a.view.ty = d.view.ty) && decide (d.view.count ≤ 16777215) && a.view.canRead && d.view.canWrite
      | _, _ => false
    let follows (c : Ctx) : Bool := copy c && match c.followOn c.s.nextId with | .inl _ => true | .inr _ => false
    let parks (c : Ctx) : Bool := base c && match c.viewUse e.a with
      | some a => decide (a.view.count * elemSize a.view.ty ≤ 65536) && a.view.canRead && decide (1 ≤ (loWord (c.b c.low)).toNat) &&
          decide ((loWord (c.b c.low)).toNat ≤ 255) && match c.s.die? (dieOf c.core) with
            | some d => (d.slots.findIdx? fun x => x.use.isNone).isSome | none => false
      | none => false
    let nmv (c : Ctx) : Bool := base c && match c.viewUse (.w 0), c.viewUse (.w 1), c.viewUse (.w 2) with
      | some wy, some wb, some wx => (match c.nmvBlock wb.view with
        | .inl fb => nmvShape .bf16 wb.view wx.view wy.view fb && wb.view.canRead && wx.view.canRead && wy.view.canWrite &&
            let v := c.s.touchPages c.core c.ctx .read (pagesOf [wb.view.source])
            (v.nmvStray c.core c.ctx wb.view).isNone &&
              match v.transAll c.core c.ctx [(.read, pagesOf (wb.view.source :: nmvScales wb.view fb)), (.read, pagesOf [wx.view.source]),
                (.write, pagesOf [wy.view.source])] with | (_, .inl _) => true | _ => false
        | .inr _ => false)
      | _, _, _ => false
    [rx .cpy 0x90 e (view 1 gv ∘ view 0 lv) copy,
      rx .cpy 0x90 { e with mod := 1 } (vreg 6 0x8000 ∘ local1 0x8000 (words s8Follow) ∘ local1 0x9000 (words s8Block) ∘
        view 2 (tv .s8 0x4000) ∘ view 1 (tv .s8 0) ∘ view 0 (tv .s8 0)) follows,
      rx .cpym 0x91 (ex (.v 2) (.w 1) (.v 6) no .b32) (vreg 6 255 ∘ view 1 gv) parks,
      rx .cdrain 0x92 (ex (.w 0) (.v 4) no no .b32) (view 0 gv) fun c => base c && match c.viewUse (.w 0) with
        | some d => decide (d.view.count ≤ 16777215) && d.view.canWrite | none => false,
      rx .nmv 0xA7 (ex (.w 0) (.w 1) (.w 2) no .bf16) (nearPage ∘ view 0 ny ∘ view 1 nb ∘ view 2 nx) nmv].all id = true := by decide +kernel

theorem meets_CopyTags :
    let e : Ext := ex no (.v 4) no no .b32
    let p : Ext := ex (.p 1) (.v 4) no no .b32
    let named (c : Ctx) : List Nat := (List.range 64).filter fun n => (c.a c.low).getLsbD n
    let is (st : TagState) (c : Ctx) (n : Nat) : Bool := decide ((c.c.tag n).state = st)
    let allDone (c : Ctx) : Bool := (named c).all (is .done c)
    let anyDone (c : Ctx) : Bool := (named c).any (is .done c)
    let quietly (c : Ctx) : Bool := (c.doneTags (c.a c.low)).all fun n => !(c.c.tag n).errPend
    let two : State → State := doneTag 0 false ∘ doneTag 31 false ∘ vreg 4 0x80000001
    let fail : State → State := doneTag 0 false ∘ doneTag 31 true ∘ vreg 4 0x80000001
    [rx .cwaitAll 0x93 e two fun c => allDone c && quietly c, rx .cwaitAny 0x94 e (doneTag 31 false ∘ vreg 4 0x80000001) fun c => anyDone c && quietly c,
      rx .cwaitAll 0x93 e (vreg 4 1) fun c => !(allDone c), rx .cwaitAny 0x94 e (vreg 4 0) fun c => decide (c.a c.low = 0) && quietly c,
      rx .cwaitAny 0x94 e (vreg 4 1) fun c => decide (c.a c.low ≠ 0) && !(anyDone c),
      rx .cwaitAny 0x94 e fail fun c => (c.doneTags (c.a c.low)).contains 31 && (c.c.tag 31).errPend && !(c.c.tag 0).errPend,
      rx .cwaitAll 0x93 e fail fun c => allDone c && (c.doneTags (c.a c.low)).contains 31 && (c.c.tag 31).errPend && !(c.c.tag 0).errPend,
      rx .ctestAll 0x96 p two allDone, rx .ctestAll 0x96 p (vreg 4 1) fun c => !(allDone c),
      rx .ctestAny 0x97 p (vreg 4 1) fun c => (c.doneTags (c.a c.low)).isEmpty, rx .ctestAny 0x97 p two fun c => !(c.doneTags (c.a c.low)).isEmpty,
      rx .cfind 0x95 (ex (.v 2) (.v 4) no no .b32) (vreg 4 1) fun c => (c.doneTags (c.a c.low)).isEmpty,
      rx .cfind 0x95 (ex (.v 2) (.v 4) no no .b32) two fun c => decide ((c.doneTags (c.a c.low)).head? = some 0), rx .ckill 0x98 e two fun _ => true,
      rx .ckill 0x98 e two fun c => decide ((c.c.tag 0).state = .done) && decide ((c.c.tag 0).doneAt = c.s.cycle),
      rx .ckill 0x98 e ((fun s => { s with cycle := 9 }) ∘ two) fun c => decide ((c.c.tag 0).state = .done) && decide ((c.c.tag 0).doneAt ≠ c.s.cycle),
      rx .ckill 0x98 e two fun c => match c.s.crew? c.r.crew with
        | some k => decide (0 < k.tags.length) && decide ((c.c.tag 0).state = .done) && decide ((c.c.tag 1).state = .free) && decide (1 < k.tags.length) | none => false,
      rx .ckill 0x98 e (onCrew (fun c => { c with tags := putNth c.tags 63 { Tag.unused with state := .busy } }) ∘ vreg 4 1) fun c =>
        decide ((c.c.tag 63).state = .busy)].all id = true := by decide +kernel

/-- A tile operation of strand 0 of the starting crew. -/
def tileOp0 : TileOp :=
  { id := 0, crew := r0.crew, strand := 0, lane := 0, kind := .mzero, td := 7, ts := 0, follow := none, phase := 0, pages := [], olds := [] }

theorem meets_TilesQueue :
    let ok (kind : Ctx → TileKind) (c : Ctx) : Bool := !c.tileStalls && (c.s.core? c.core).isSome &&
      match (c.s.transPages c.core c.ctx (kind c).pages.2 (kind c).pages.1).2 with | .inl _ => true | .inr _ => false
    let shape (o : Opd) (ty : Ty) (w : Bool) (c : Ctx) : Bool := match c.viewUse o with
      | some u => u.view.tileShape ty && (if w then u.view.canWrite else u.view.canRead) | none => false
    let one1 : ViewUse := { reg := 1, view := tv .s32 0 }
    [rx .mzero 0xA1 (ex (.t 7) no no no .b32) id (ok fun _ => .mzero), rx .mtrn 0xA4 (ex (.t 1) (.t 2) no no .b32) id (ok fun _ => .mtrn),
      rx .mred 0xA6 (ex (.t 1) (.t 2) no no .s64) id (ok fun _ => .mred true),
      rx .mperm 0xA5 (ex (.t 1) (.t 2) (.v 6) no .b32) (vreg 6 65408) fun c => (offsetTrap (loWord (c.b c.low)).toNat 128 c.g.header.localBytes).isNone &&
        ok (fun _ => .mperm []) c,
      rx .mlda 0xA2 (ex (.t 1) (.w 1) no no .s32) (view 1 (tv .s32 0)) fun c => shape (.w 1) .s32 false c && ok (fun _ => .mlda one1 .s32) c,
      rx .msta 0xA3 (ex (.w 0) (.t 2) no no .s32) (view 0 (tv .s32 0)) fun c => shape (.w 0) .s32 true c && ok (fun _ => .msta one1 .s32 0 false false) c,
      rx .mma 0xA0 (ex (.t 1) (.w 1) (.w 2) (.v 8) .s8)
        (vreg 8 0x9000 ∘ local1 0x9000 (words s8Block) ∘ view 2 (tv .s8 0x4000) ∘ view 1 (tv .s8 0)) fun c =>
        match c.viewUse (.w 1), c.viewUse (.w 2) with
        | some wa, some wb => (offsetTrap (loWord (c.cc c.low)).toNat 32 c.g.header.localBytes).isNone &&
            (mmaTrap .s8 wa.view wb.view (formatOf (c.c.block (loWord (c.cc c.low)).toNat)) c.g.header.localBytes).isNone && 
              ok (fun c => .mma wa wb (formatOf (c.c.block 0x9000)).1 .s8) c
        | _, _ => false,
      rx .mzero 0xA1 (ex (.t 7) no no no .b32) (fun s => s.modCore 0 fun k => { k with tileQ := List.replicate 16 tileOp0 }) Ctx.tileStalls].all id = true := by
  decide +kernel

/-- The operation ends: its crew, its tile and its views are there, with the lines of a view in device memory. -/
theorem meets_TileResults :
    let s (prep : State → State) : State := prep (start (.nop g7))
    let has (prep : State → State) (o : TileOp) (ok : State → Crew → Bool) : Bool := (s prep).crews.any fun c =>
      decide ((s prep).crew? c.ref = some c) && decide (o.td < c.tiles.length) && ok (s prep) c
    let msta (v : View) : TileOp := { tileOp0 with kind := .msta { reg := 1, view := v } .s32 0 false false, pages := [(1, loadedXlate 1)] }
    let small : View := { tv .s32 0x10000 with isLocal := false, extent := [4, 4, 0, 0] }
    let fb : FormatBlock := (formatOf ((words s8Block))).1
    [has id tileOp0 fun _ _ => true, has id { tileOp0 with kind := .mlda { reg := 1, view := tv .s32 0 } .s32 } fun _ _ => true,
      has id { tileOp0 with kind := .mma { reg := 1, view := tv .s8 0 } { reg := 2, view := tv .s8 0 } fb .s8 } fun _ _ =>
        decide (fb.fmtA = .s8) && decide (fb.fmtB = .s8) && decide (fb.blkA = 0) && decide (fb.blkB = 0),
      has id (msta (tv .s32 0)) fun _ _ => true,
      has (inL1 0x10000 ∘ inL1 0x10200 ∘ inL1 0x10400 ∘ inL1 0x10600) (msta small) fun s c => !small.isLocal && small.source.addrs.all fun a =>
        (span a 4).all fun b => match transOf (msta small).pages b with
          | some e => ((s.drain c.core).core? c.core).any fun k => (k.l1? (physKey e b / 128)).isSome | none => false].all id = true ∧
    -- the numbers: a tile of zeros, rows that add up within range, codes of 32 bits, signed bytes
    a80Sat (tileAt [] 0 0) = false ∧ a80Int (tileAt [] 0 0) = 0 ∧ (∀ k, k < 128 → a80Sat (tileAt [] 127 k) = false) ∧
      (0xFFFFFFFF#64).toNat < 2 ^ 32 ∧ snapBad (some (0xFF#64, 0)) = false := by
  refine ⟨by decide +kernel, by decide +kernel, by decide +kernel, by decide +kernel, by decide, by decide⟩

theorem meets_BarriersAndPhases :
    let bar : Ext := { ex no no no no .b32 with scope := .crew }
    let whole (c : Ctx) : Bool := decide (c.t.live &&& ~~~c.iss.mask = 0)
    let came (g : Nat) : State → State := onStrand fun t => { t with arrivals := [{ key := { scope := .crew 0, n := 0 }, gen := g, byBarc := true }] }
    let half (s : State) : State :=
      { onStrand (fun t => { t with splits := [Path.at 0x80 0x0000FFFF#32 0, Path.at 0x90 0xFFFF0000#32 0] }) s with
        cur := s.cur.map fun i => { i with mask := 0x0000FFFF#32 } }
    let is (same : Bool) (c : Ctx) : Bool := whole c && match c.arrival with | some a => decide ((c.generation c.s = a.gen) = same) | none => false
    let w : Ext := ex no (.v 4) (.v 6) no .b32
    let empty (mk : Ext → Instr) (op : Nat) (ok : Ctx → Bool) : Bool :=
      match (p1 0 (start (mk { bar with g := g1 }))).ctxOf (Form.ofExt op { bar with g := g1 }) with
      | some d => decide (d.act = 0) && !d.iss.queued && d.t.deferred.isEmpty && !d.held && d.decodeTrap.isNone && ok d.acquireHands &&
          d.acquireHands.arrival.isNone && d.acquireHands.quiet
      | none => false
    [rx .bar 0xB0 bar id fun c => whole c && c.arrival.isNone && c.quiet, rx .bar 0xB0 bar (came 5) (is false), rx .bar 0xB0 bar (came 0) (is true),
      rx .bar 0xB0 bar half fun c => !(whole c), rx .barc 0xB1 bar id fun c => whole c && c.arrival.isNone && c.quiet,
      rx .barc 0xB1 bar (came 5) fun c => is false c && c.quiet, rx .barc 0xB1 bar (came 0) (is true),
      -- with no active lane
      empty .bar 0xB0 whole, empty .barc 0xB1 whole,
      rx .phase 0xB3 (ex (.v 2) no no no .b32) id Ctx.quiet,
      rx .phwait 0xB4 w (vreg 6 0xFFFFFFFF) fun c => decide ((loWord (c.a c.low)).toNat < c.g.dieRec.vphys.length) &&
        c.s.phaseReached c.g (loWord (c.a c.low)).toNat (loWord (c.b c.low)),
      rx .phwait 0xB4 w id fun c => !(c.s.phasesOn c.g 0).isEmpty,
      rx .phwait 0xB4 w (vreg 4 1) fun c => decide (c.g.dieRec.vphys.length ≤ (loWord (c.a c.low)).toNat)].all id = true := by decide +kernel

/-- A launch record of 32 items in one strand (R255). -/
def record : List Nat := [0x10000, 0, 0, 0, 32, 0, 1, 0, 0, 0, 0, 0, 0, 0, 0, 0]

theorem meets_Launches :
    let e : Ext := { ex no (.v 4) no no .b32 with g := g1 }
    let reads (good room : Bool) (c : Ctx) : Bool := let a := c.again
      (match c.parkedOn with | some (.launch _ _) => false | _ => true) && decide (a.ea c.low % 64 = 0) && c.quiet &&
      translates a .read [c.low] fun s' lk => decide (lk.map (·.1) = [c.low]) && lk.all fun x =>
      let t := a.fillLines (s'.release c.core .sys) (a.bytes c.low) x.2
      decide (recordOk (x.2.map fun k => (t.l1Byte c.core k.1).1) = good) && (x.2.all fun k => !(t.l1Byte c.core k.1).2) &&
        decide (decide (c.c.pending.length < pendingRoom) = room)
    let one1 : LaunchEntry := { record := recordOf [], prio := 0, phase := 0, ctx := 0, part := 0, queue := 0, since := 0 }
    let full : State → State := onCrew fun c => { c with pending := List.replicate pendingRoom one1 }
    let at1 : State → State := vreg 4 0x10100 ∘ memory 0x10100 record ∘ one
    let parked : State → State := onStrand fun t => { t with splits := t.splits.map fun p => { p with wait := .launch (recordOf []) 2 } }
    let waits (room : Bool) (c : Ctx) : Bool := decide (c.parkedOn = some (.launch (recordOf []) 2)) && decide (decide (c.c.pending.length < pendingRoom) = room)
    [rx .launch 0xB5 e at1 (reads true true), rx .launchTry 0xB6 { e with d := .v 2 } at1 (reads true true),
      rx .launchTry 0xB6 { e with d := .v 2 } (full ∘ at1) (reads true false), rx .launch 0xB5 e (full ∘ at1) (reads true false),
      rx .launch 0xB5 e (parked ∘ at1) (waits true), rx .launch 0xB5 e (parked ∘ full ∘ at1) (waits false),
      rx .launch 0xB5 e (memory 0x10100 [1] ∘ at1) (reads false true),
      rx .launch 0xB5 e (vreg 4 0x10120 ∘ at1) fun c => (match c.parkedOn with | some (.launch _ _) => false | _ => true) &&
        decide (c.again.ea c.low % 64 ≠ 0)].all id = true := by decide +kernel

theorem meets_HandOffs :
    let e : Ext := ex no (.v 4) no no .b32
    let on (c : Ctx) : Bool := c.g.record.chained && decide (c.g.mode c.slot ≠ 0)
    let off : State → State := onGrid fun g => { g with record := { g.record with chained := false } }
    let modeless : State → State := onGrid fun g => { g with header := { g.header with chain := List.replicate 8 (0, 0) } }
    [rx .hput 0x60 { e with g := g1 } one fun c => on c && c.sealedLane.isNone && decide (((lanesOf c.act).foldl c.publishLane (c.s, 0)).2 = 0) &&
        (c.t.splits.all fun p => p.pend.isEmpty),
      rx .hput 0x60 { e with g := g1, scope := .grid } one fun c => on c && c.sealedLane.isNone && c.quiet &&
        decide (((lanesOf c.act).foldl c.publishLane (c.s.release c.core c.f.e.scope, 0)).2 = 0),
      rx .hseal 0x61 (ex no no no no .b32) id on, rx .hput 0x60 e off fun c => !c.g.record.chained,
      rx .hseal 0x61 (ex no no no no .b32) modeless fun c => c.g.record.chained && decide (c.g.mode c.slot = 0),
      rx .hput 0x60 e (onStrand fun t => { t with sealedBy := [(0, 8)] }) fun c => on c && decide (c.sealedLane = some 3)].all id = true := by decide +kernel

/-! ## Statements: issue, step, and what happens of itself -/

/-- The state after an instruction or an event. -/
def after (i : Instr) (s : State) : State := match exec i s with | .next t => t | _ => s
def nexts (i : Instr) (s : State) : Bool := match exec i s with | .next _ => true | _ => false

/-- An addition of v4 and hand-off slot 0, distance 1. -/
def addH : Ext := { ex (.v 2) (.v 4) (.h 0 0) no .s32 with g := g1 }
def add : Form := Form.ofExt 0x20 e1
/-- A watchdog trap that is deferred. -/
def dog : Deferred := { trap := .watchdog, handler := 0, addr := 0, lane := 0, pc := 0x80, mask := 0xFFFFFFFF#32, entry := none }
/-- A load in flight to v4. -/
def load0 (st : FlightState) : InFlight := { id := 7, entry := { entry0 with instr := .ldG (bs 4 6) }, state := st, phase := 0, handler := 0, universal := false, lines := [] }
def flying (st : FlightState) : State → State := onStrand fun t => { t with inflight := [load0 st] }

theorem meets_IssueOrder :
    let at1 (f : Form) (prep : State → State) (ok : Ctx → Bool) : Bool :=
      match (prep (start (.nop g7))).ctxOf f with | some c => ok c | none => false
    let calm (c : Ctx) : Bool := c.t.deferred.isEmpty && !c.held
    let hand : Form := Form.ofExt 0x20 addH
    [at1 add (onStrand fun t => { t with deferred := [dog] }) fun c => !c.t.deferred.isEmpty && !c.t.busy,
      at1 add (flying .outstanding) fun c => c.t.deferred.isEmpty && c.held,
      at1 add (onGrid fun g => { g with header := { g.header with vregs := 4 } }) fun c => calm c && c.decodeTrap.isSome,
      at1 { add with e := { e1 with g := g1 } } (p1 0) fun c => calm c && c.decodeTrap.isNone && decide (c.act = 0) && !(actsEmpty add.op),
      at1 hand (p1 2 ∘ onGrid fun g => { g with record := { g.record with chained := false } }) fun c =>
        calm c && c.decodeTrap.isNone && decide (c.act ≠ 0) && c.chainTrap.isSome,
      at1 hand (p1 2) fun c => calm c && c.decodeTrap.isNone && decide (c.act ≠ 0) && c.chainTrap.isNone && every c fun l => c.waitsHand l].all id = true := by
  decide +kernel

/-- The device with a partition, a context and a queue, and no launch. -/
def ctx0 : Context := { root := 0x1000, dieRec := loadedDies, saveArea := 0, saveSize := 0x100000, part := 0, suspended := false, failed := false }
def queue0 : Queue :=
  { id := 0, desc := 0x600000, ctx := 0, part := 0, prio := 0, logSize := 4, ring := 0x40000, cring := 0x50000, wptr := 1, rptr := 0, rung := none, rungMet := none,
    readable := 0, phase := 0, stopped := false, destroy := .none, packets := [], parked := none }
def withCtx (s : State) : State := { withPart s with contexts := putNth s.contexts 0 (some ctx0) }
def withQueue (q : Queue) (s : State) : State := { withCtx s with queues := [q] }
/-- The loaded crew as it runs, its words NOPs. -/
def running : State := { withCtx (State.reset.loaded []) with agenda := [] }

theorem meets_StepRuns :
    let r : SplitRef := { strand := r0, lane := 0 }
    let l := running.look exec
    let s0 := if l.goes exec r then l.unyield r else l
    let s1 := (s0.settleStack r0).swapHeld r0
    ((match s0.grid? 0, s0.crew? r0.crew, s0.strand? r0 with
      | some g, some c, some t => s0.canIssue c t && t.deferred.isEmpty && t.reinject.isEmpty && match s1.strand? r0 with
        | some u => (match u.splitOf? 0 with | some p => s1.splitReady g r0 u p && !(u.stalledBut p) | none => false) &&
            let s2 := s1.modStrand r0 fun t => t.mergeInto 0 (s1.pathReady r0)
            match s2.strand? r0 with
            | some v => match v.splitOf? 0 with
              | some q => s2.waitOver g v q && q.entry.isNone && match (s2.fetch g c q.pc).2 with | .words _ => true | _ => false
              | none => false
            | none => false
        | none => false
      | _, _, _ => false) && decide (l.nextSplit (l.goes exec) = some r)) = true := by decide +kernel

/-- An entry to re-inject in the same strand. -/
theorem meets_StepRuns_reinjected :
    let s := onStrand (fun t => { t with reinject := [entry0] }) running
    let s0 := s.lookAll (s.goes exec)
    (match s0.crew? r0.crew, s0.strand? r0 with
      | some c, some t => s0.canIssue c t && t.deferred.isEmpty && decide (t.reinject = entry0 :: []) | _, _ => false) = true := by decide +kernel

theorem meets_StepRuns_events :
    (encode (.doorbell 0 0)).isNone = true ∧ State.reset.agenda = [] ∧ State.reset.happening = none ∧ (State.reset.lookAll (State.reset.goes exec)).nextSplit ((State.reset.lookAll (State.reset.goes exec)).goes exec) = none ∧
      (State.reset.modCore 323 fun k => { k with outbox := [.write 5 0 1 []] }).happening = some (.storeArrival 323) := by decide +kernel

/-- The act of that happening is the row STORE_ARRIVAL. -/
theorem meets_StepRuns_names : (Act.storeArrival 323).names (.storeArrival 323) := rfl

theorem meets_MemoryFormKept : Memory.wf State.reset.mem = true ∧ (match step State.reset with | .next _ => true | _ => false) = true := by
  decide +kernel

/-! ## Statements: the mailbox -/

/-- A command with its words, submitted. -/
def asks (l : List Nat) (s : State) : State := { s with mbw := (l ++ List.replicate (16 - l.length) 0).map (BitVec.ofNat 32), mbBusy := true }
def askedB (s : State) (code : Nat) : Bool :=
  s.mbBusy && s.mbWait.isNone && s.starting.isNone && !s.recovery && decide (s.mbCode = code) && decide (nthWord s.mbw 0 >>> 8 = 0)

/-- What the tests of a start find on a device without a defect, and on one with a die that fails. -/
def sound : StartReport := { meshOk := true, cxl := false, rowLimit := 1024, dies := [], lanes := [], banks := [] }
def lostDie : StartReport := { sound with dies := [4] }

theorem meets_Starts :
    let im : State := { State.reset with recovery := true, mbBusy := true, mbw := [0x80, 0x600000, 0, 16] }
    im.starting = none ∧ State.reset.starting ≠ some (true, sound) ∧ State.reset.starting ≠ some (false, sound) ∧
      { State.reset with starting := some (true, sound) }.starting = some (true, sound) ∧ { State.reset with starting := some (false, lostDie) }.starting = some (false, lostDie) ∧
      sound.meshOk = true ∧ { sound with meshOk := false }.meshOk = false ∧ im.mbCode = 0x80 ∧ nthWord im.mbw 0 >>> 8 = 0 ∧
      (im.stagedImage (im.arg64 1) (im.arg 3)).isSome = true ∧ (im.stagedImage (2 ^ 45) 16) = none ∧
      State.reset.dead = false ∧ State.reset.recovery = false ∧ (State.reset.dies.all fun d => decide (d.log.length ≤ 4096)) = true ∧
      (State.reset.die? 4).isSome = true ∧ { State.reset with refTime := 1000 }.copyDue = true ∧ { State.reset with refTime := 999 }.copyDue = false ∧
      State.reset.lastStep = none ∧ 350 ≤ State.reset.mhz - 50 ∧ { State.reset with mhz := 650 }.mhz + 50 ≤ 700 := by decide +kernel

theorem meets_MailboxProtocol :
    State.reset.mbw.length = 16 ∧ State.reset.dead = false ∧ State.reset.mbBusy = false ∧ { State.reset with dead := true }.dead = true ∧
      (asks [0x105] State.reset).mbCode = 5 ∧ nthWord (asks [0x105] State.reset).mbw 0 >>> 8 ≠ 0 ∧
      (asks [9] State.reset).mbCode = 9 ∧ nthWord (asks [255] State.reset).mbw 0 >>> 8 = 0 ∧ (asks [0] State.reset).mbCode = 0 ∧
      (asks [9] State.reset).mbBusy = true ∧ (asks [9] State.reset).mbWait = none ∧ State.reset.starting = none ∧ (asks [9] State.reset).starting = none ∧ (asks [9] State.reset).recovery = false := by decide +kernel

/-- The structures that commands read, as the host lays them out at 0x600000 of memory: a partition (R305), contexts (R286), a queue (R254). -/
def partBytes : List Nat :=
  [0x2, 0, 0, 0, 0, 0, 0, 0, 0, 0, 0, 0, 0, 0, 0, 0, 0, 0, 1, 0, 0, 0, 0x01110000, 0xFFF, 0x500000, 0, 4, 0, 0, 0, 0, 0]
def ctxBytes (valid : Nat) : List Nat := [0x610000, 0, 0, 0, 0, 0, 0x10000, 0, 0x100 * valid, 0, 0, 0, 0, 0, 0, 0]
def queueBytes : List Nat := [0x40000, 0, 0x50000, 0, 4, 0, 0, 0, 0, 0, 0, 0, 0, 0, 0, 0]
def cmd (l : List Nat) (data : List Nat) (s : State) : State := asks l (memory 0x400000 data s)
def fault0 : Fault32 :=
  { id := 3, part := 0, va := 0x10000, kernid := 0, ctx := 0, vdie := 0, kind := false, access := 0, source := 0, reason := 0, crew := 0, resume := 0,
    written := true }

/-- A copy of the loaded crew from one local view to another, with a page taken at its issue. -/
def op0 : CopyOp :=
  { id := 0, kind := .copy, src := some { reg := 0, view := lv }, dst := some { reg := 1, view := { lv with base := 64 } }, aux := none, granule := 0,
    olds := [], pages := [(1, loadedXlate 1)], parked := none, cancelled := none, strand := 0, phase := 0, core := 0 }

theorem meets_MailboxCommands :
    let p0 := withPart State.reset
    let c0 := withCtx State.reset
    let posted (s : State) : Option Fault32 :=
      s.faults.find? fun f => f.part = s.arg 1 && f.id.toNat = s.arg 2 && !f.kind && f.written
    let read (s : State) (n : Nat) : List Byte := (s.physRead (s.arg64 2) n).getD []
    [(let s := cmd [1, 15, 0x600000] partBytes State.reset
      let b := read s 128
      askedB s 1 && decide (s.arg 1 < 16) && decide (s.partitions.length = 16) && (s.physRead (s.arg64 2) 128).isSome && partOk b &&
        match s.peersOf b with
        | some peers => !(s.coresTaken 15 (partitionOf (s.arg64 2) b peers 0)) && !(s.queues.any fun q => decide (q.part = 15) && s.queueLives q)
        | none => false),
      (let s := cmd [2, 63, 0x600000] (ctxBytes 1) p0
      let b := read s 64
      askedB s 2 && decide (s.arg 1 < 64) && decide (s.contexts.length = 64) && (s.physRead (s.arg64 2) 64).isSome && ctxOk b &&
        decide (field b 0x21 1 % 2 = 1) && match s.part? (field b 0x20 1 % 16) with
          | some p => decide (field b 8 8 = 0) && (s.builtDies p).isSome | none => false),
      (let s := cmd [2, 0, 0x600000] (ctxBytes 0) c0
      let b := read s 64
      askedB s 2 && decide (s.arg 1 < 64) && (s.physRead (s.arg64 2) 64).isSome && ctxOk b && decide (field b 0x21 1 % 2 = 0) &&
        !(s.queues.any fun q => decide (q.ctx = 0) && s.queueLives q)),
      (let s := cmd [3, 65535, 0x600000] queueBytes c0
      let b := read s 64
      askedB s 3 && decide (s.arg 1 < 65536) && (s.physRead (s.arg64 2) 64).isSome && descOk b && (s.queue? 65535).isNone &&
        match s.ctx? (queueOf 65535 (s.arg64 2) b).ctx with
        | some c => !c.failed && decide (c.part = (queueOf 65535 (s.arg64 2) b).part) && (s.part? c.part).isSome | none => false),
      (let s := asks [4, 0, 1] (withQueue { queue0 with wptr := 0 } State.reset)
      askedB s 4 && match s.queue? 0 with
        | some q => decide (s.arg 2 ≤ 1) && decide (q.destroy = .none) && !((s.destroyQueue true q).gridsLeft 0) | none => false),
      (let s := asks [4, 0, 0] (withQueue { queue0 with wptr := 0 } running)
      askedB s 4 && match s.queue? 0 with
        | some q => decide (q.destroy = .none) && (s.destroyQueue false q).gridsLeft 0 | none => false),
      (let s := asks [5, 1, 1] (State.reset.tlbFill 0 0 0x30000 (loadedXlate 3))
      askedB s 5 && decide (s.arg 1 ≤ 411983) && decide (s.arg 2 ≤ 1) && s.segMapped (s.arg 1)),
      (let s := asks [5, 411983, 0] State.reset
      askedB s 5 && decide (s.arg 1 ≤ 411983) && (s.nearMap.contains (s.arg 1) == decide (s.arg 2 = 1)) && !(s.segMapped (s.arg 1))),
      (let s := asks [5, 411983, 1] State.reset
      askedB s 5 && decide (s.arg 1 ≤ 411983) && (s.nearMap.contains (s.arg 1) == !(decide (s.arg 2 = 1))) && !(s.segMapped (s.arg 1))),
      (let s := asks [6, 15, 4, 1] { p0 with faults := [{ fault0 with part := 15, id := 4, written := false }] }
      askedB s 6 && decide (s.arg 1 ≤ 15) && decide (s.arg 3 ≤ 1) && (posted s).isNone),
      (let s := asks [6, 0, 3, 0] { p0 with faults := [fault0] }
      askedB s 6 && decide (s.arg 1 ≤ 15) && decide (posted s = some fault0) && s.queues.isEmpty),
      (let s := asks [7, 63, 0, 0, 0] State.reset
      askedB s 7 && decide (s.arg 1 ≤ 63) && !((s.dropTlb 63 true 0 0).usesOld 63 true 0 0)),
      (let s := asks [7, 0, 0, 0, 0] (onCrew (fun c => { c with tags := putNth c.tags 3 { Tag.unused with state := .busy, op := some op0 } }) running)
      askedB s 7 && decide (s.arg 1 ≤ 63) && (s.dropTlb 0 true 0 0).usesOld 0 true 0 0),
      (let s := asks [8, 0, 0] c0
      askedB s 8 && match s.ctx? 0 with | some x => s.allFit 0 x | none => false),
      (let s := asks [8, 0, 1] c0
      askedB s 8 && (s.ctx? 0).isSome && decide (s.arg 2 = 1)),
      (let s := asks [8, 0, 1] { c0 with contexts := c0.contexts.map fun x => x.map fun y => { y with suspended := true } }
      askedB s 8 && (s.ctx? 0).any fun x => x.suspended)].all id = true := by decide +kernel

/-- A crew whose one access is parked, one whose copy is, and a queue whose next packet is. -/
theorem meets_MailboxCommands_faults :
    let s := onStrand (fun t => { t with inflight := [load0 (.parked 3)] }) running
    let q : Queue := { queue0 with parked := some (3, .reading none) }
    let u := onCrew (fun c => { c with tags := putNth c.tags 3 { Tag.unused with state := .busy, op := some { op0 with parked := some 3 } } }) running
    (match s.crew? r0.crew, s.strand? r0 with
      | some c, some t => decide (c.ref = r0.crew) && decide (t.idx = 0) && !t.isOver && t.reinject.isEmpty && decide (t.inflight = [load0 (.parked 3)]) &&
          (s.ctxOfFlight r0 (load0 (.parked 3))).isSome && t.splits.all fun p => decide (p.wait = .none)
      | _, _ => false) = true ∧
      (match u.tagCtx? r0.crew 3 with | some x => decide (x.c.ref = r0.crew) && !x.c.over | none => false) = true ∧
      (withQueue q State.reset).queue? q.id = some q ∧ q.destroy = .none ∧ q.parked = some (3, .reading none) ∧ firstSettled q.packets = none := by
  decide +kernel

/-! ## Statements: queues and launches -/

/-- What the witnesses of the front end take for granted of the page tables, whose format the manual leaves open (log entry 3): under
ROOT 0x1000 each page of 64 KiB is mapped 0x200000 further on, and no walk reads an uncorrectable line. -/
def mapped : Prop :=
  ∀ mem p, Config.bigPage mem 0x1000 (p / 32) = none ∧ Config.smallPage mem 0x1000 p = some (loadedXlate p) ∧ Config.walkLines mem 0x1000 p = []

/-- The pages of addresses that the front end can name there. -/
def inReach (s : State) (l : List Nat) : Bool := l.all fun va => decide (va < 2 ^ 57) && s.frameOk (loadedXlate (pageOf va))

theorem front_walk (h : mapped) (s : State) (hc : s.ctx? 0 = some ctx0) (a : Right) (va : Nat) (hv : va < 2 ^ 57)
    (hf : s.frameOk (loadedXlate (pageOf va)) = true) : s.walk 0 va a = .inl (loadedXlate (pageOf va)) := by
  have hr : ctx0.root = 0x1000 := rfl
  have hg : grants (loadedXlate (pageOf va)) a = true := by cases a <;> rfl
  have hlost : s.walkLost 0 va = none := by
    simp only [State.walkLost, hc, Option.bind_some, hr, (h s.mem (pageOf va)).2.2, List.find?_nil]
  have he : s.pageEntry ctx0.root (pageOf va) = some (loadedXlate (pageOf va)) := by
    simp only [State.pageEntry, hr, (h s.mem (pageOf va)).1, (h s.mem (pageOf va)).2.1]; rfl
  simp only [State.walk, hc, hlost, he]
  rw [if_neg (by simp only [Option.isSome_none, Bool.false_eq_true, or_false]; omega)]
  simp only [hg, hf, Bool.not_true, Bool.false_eq_true, if_false, if_true]

theorem front_keys (h : mapped) (s : State) (hc : s.ctx? 0 = some ctx0) (a : Right) (l : List Nat) (hl : inReach s l = true) :
    s.frontKeys 0 a l = .inl (l.map fun va => (physKey (loadedXlate (pageOf va)) va, loadedXlate (pageOf va))) := by
  induction l with
  | nil => rfl
  | cons va t ih =>
    simp only [inReach, List.all_cons, Bool.and_eq_true, decide_eq_true_eq] at hl
    simp only [State.frontKeys, front_walk h s hc a va hl.1.1 hl.1.2, List.map_cons]
    rw [ih hl.2]

/-- Without an entry in the TLBs there is no translation, and without a context no walk finds one. -/
theorem no_tlb (s : State) (hc : (s.core? 0).map (·.tlb) = some []) (hd : (s.die? (dieOf 0)).map (·.tlb) = some []) (va : Nat) :
    s.tlbLook 0 0 va .read = none := by
  unfold State.tlbLook
  cases h : s.core? 0 with
  | none => simp [h] at hc
  | some k =>
    cases h' : s.die? (dieOf 0) with
    | none => simp [h'] at hd
    | some d =>
      simp only [h, h', Option.map_some, Option.some.injEq] at hc hd
      simp [hc, hd, tlbFind]

theorem no_ctx (s : State) (hx : s.ctx? 0 = none) (va : Nat) : s.walk 0 va .read = .inr 0 := by simp only [State.walk, hx]

/-- Bytes of memory as the front end then reads them. -/
def seen (s : State) (va n : Nat) : List Byte := (span va n).map fun va => s.memByte (physKey (loadedXlate (pageOf va)) va)

theorem front_read (h : mapped) (s : State) (hc : s.ctx? 0 = some ctx0) (va n : Nat) (hl : inReach s (span va n) = true)
    (hp : ((span va n).any fun va => s.poisoned (physKey (loadedXlate (pageOf va)) va / 128)) = false) :
    s.frontRead 0 va n = .ok (seen s va n) := by
  simp only [State.frontRead, front_keys h s hc .read _ hl, List.any_map]
  rw [if_neg (by simpa [Function.comp_def] using hp)]
  simp [seen, Function.comp_def]

theorem front_put (h : mapped) (s : State) (hc : s.ctx? 0 = some ctx0) (a : Right) (b : Bool) (va n : Nat) (f : List Byte → List Byte)
    (hl : inReach s (span va n) = true) : ∃ s', s.frontPut 0 a b va n f = .inl s' := by
  simp only [State.frontPut, front_keys h s hc a _ hl]
  exact ⟨_, rfl⟩

/-- A packet at the head of the ring of `queue0`. -/
def ring (l : List Nat) : State := memory 0x40000 l (withQueue queue0 State.reset)
def gridPacket : List Nat := [0x1, 0, 0x41000, 0]
def graphPacket : List Nat := [0x2, 0, 0x42000, 0, 0x43000, 0, 1]
def barrierPacket : List Nat := [0x4, 0, 1, 0, 0x44000, 0, 9]
def packet0 (l : List Nat) (idx : Word) : Packet := packetOf idx (words l ++ List.replicate (64 - 4 * l.length) 0) 0
/-- The queue with packets already read. -/
def queueOf2 (l : List Packet) : Queue := { queue0 with rptr := 1, wptr := 1, packets := l }
def signal0 : Packet := { packet0 [0x3, 0, 0x45000, 0, 1, 0, 1] 0 with state := .started }

theorem meets_QueuesAndPackets_doorbell :
    let s := withQueue queue0 State.reset
    s.queue? 0 = some queue0 ∧ s.dead = false ∧ s.halted = false ∧ s.part? 0 = some part0 ∧
      s.poisoned ((queue0.desc.toNat + 0x18) / 128) = false ∧ { s with poison := [0x600000 / 128] }.poisoned ((queue0.desc.toNat + 0x18) / 128) = true ∧
      queue0.stopped = false ∧ part0.stopped = false ∧ queue0.canRead = true ∧ { queue0 with wptr := 0 }.canRead = false ∧
      queue0.desc.toNat + 0x18 < 2 ^ 64 ∧ ({ queue0 with wptr := 16 } : Queue).overrun = false ∧ ({ queue0 with wptr := 17 } : Queue).overrun = true := by decide +kernel

/-- What `takes` asks apart from the bytes. -/
theorem meets_QueuesAndPackets_takes (h : mapped) :
    (ring gridPacket).takes 0 queue0 (seen (ring gridPacket) 0x40000 64) 1 ∧ (ring graphPacket).takes 0 queue0 (seen (ring graphPacket) 0x40000 64) 2 ∧
      (ring barrierPacket).takes 0 queue0 (seen (ring barrierPacket) 0x40000 64) 4 := by
  refine ⟨?_, ?_, ?_⟩
  · refine ⟨by decide +kernel, by decide +kernel, by decide +kernel, by decide +kernel, ?_, by decide +kernel, by decide +kernel⟩
    exact front_read h _ (by decide +kernel) 0x40000 64 (by decide +kernel) (by decide +kernel)
  · refine ⟨by decide +kernel, by decide +kernel, by decide +kernel, by decide +kernel, ?_, by decide +kernel, by decide +kernel⟩
    exact front_read h _ (by decide +kernel) 0x40000 64 (by decide +kernel) (by decide +kernel)
  · refine ⟨by decide +kernel, by decide +kernel, by decide +kernel, by decide +kernel, ?_, by decide +kernel, by decide +kernel⟩
    exact front_read h _ (by decide +kernel) 0x40000 64 (by decide +kernel) (by decide +kernel)

/-- A packet that starts at once, one that waits for an earlier one, and the record that a GRID names. -/
theorem meets_QueuesAndPackets_grid (h : mapped) :
    let p := packet0 gridPacket 0
    packetOf 0 (seen (ring gridPacket) 0x40000 64) 0 = p ∧ ({ queueOf2 [p] with rptr := 1 } : Queue).holds p = false ∧ p.phase = queue0.phase ∧
      (queueOf2 [signal0, { packet0 [0x101, 0, 0x41000, 0] 1 with idx := 1 }]).holds { packet0 [0x101, 0, 0x41000, 0] 1 with idx := 1 } = true ∧
      (ring gridPacket).frontRead 0 p.addr.toNat 64 = .ok (seen (ring gridPacket) 0x41000 64) :=
  ⟨by decide +kernel, by decide +kernel, by decide +kernel, by decide +kernel,
    front_read h _ (by decide +kernel) 0x41000 64 (by decide +kernel) (by decide +kernel)⟩

theorem meets_QueuesAndPackets_graph (h : mapped) :
    let p := packet0 graphPacket 0
    let s1 := (ring graphPacket).pushPacket 0 p
    packetOf 0 (seen (ring graphPacket) 0x40000 64) 0 = p ∧ ((ring graphPacket).queue? 0).bind Queue.graphDue = none ∧
      (queueOf2 [p]).holds p = false ∧ p.phase = queue0.phase ∧ ∃ gr, p.graph = some gr ∧ ∃ preds, s1.predsOf 0 gr (List.range gr.nnodes) = .ok preds ∧
        ∃ s', s1.frontPut 0 .write false gr.counters.toNat (2 * gr.nnodes) (fun _ => preds.flatMap (toBytes 2)) = .inl s' := by
  refine ⟨by decide +kernel, by decide +kernel, by decide +kernel, by decide +kernel, _, rfl, [field (seen ((ring graphPacket).pushPacket 0
    (packet0 graphPacket 0)) 0x42040 2) 0 2 % 4096], ?_, ?_⟩
  · have hr := front_read h ((ring graphPacket).pushPacket 0 (packet0 graphPacket 0)) (by decide +kernel) 0x42040 2 (by decide +kernel)
      (by decide +kernel)
    show ((State.frontRead _ 0 0x42040 2).bind _) = _
    rw [hr]; rfl
  · exact front_put h _ (by decide +kernel) .write false 0x43000 2 _ (by decide +kernel)

theorem meets_QueuesAndPackets_signal (h : mapped) :
    let s := withQueue (queueOf2 [signal0]) State.reset
    s.signalDue 0 = some (queueOf2 [signal0], signal0) ∧ ∃ s', s.frontPut 0 .both true signal0.addr.toNat 8
      (fun b => toBytes 8 ((BitVec.ofNat 64 (fromBytes b) + signal0.value).toNat)) = .inl s' :=
  ⟨by decide +kernel, front_put h _ (by decide +kernel) .both true 0x45000 8 _ (by decide +kernel)⟩

/-- The word that a BARRIER_AND watches below its threshold, and at it. -/
theorem meets_QueuesAndPackets_barrier (h : mapped) :
    let p : Packet := { packet0 barrierPacket 0 with state := .started }
    let s := withQueue (queueOf2 [p]) State.reset
    s.barrierOf 0 = some (queueOf2 [p], p) ∧ s.watchMet 0 p.watch = .ok false ∧ (memory 0x44000 [9] s).watchMet 0 p.watch = .ok true := by
  have hw : ({ packet0 barrierPacket 0 with state := .started } : Packet).watch = [(0x44000, 9)] := by decide +kernel
  refine ⟨by decide +kernel, ?_, ?_⟩
  · rw [hw]
    have hr := front_read h (withQueue (queueOf2 [{ packet0 barrierPacket 0 with state := .started }]) State.reset) (by decide +kernel) 0x44000 4
      (by decide +kernel) (by decide +kernel)
    show ((State.frontRead _ 0 0x44000 4).bind _) = _
    rw [hr]; simp only [Got.bind]; rw [if_neg (by decide +kernel)]
  · rw [hw]
    have hr := front_read h (memory 0x44000 [9] (withQueue (queueOf2 [{ packet0 barrierPacket 0 with state := .started }]) State.reset))
      (by decide +kernel) 0x44000 4 (by decide +kernel) (by decide +kernel)
    show ((State.frontRead _ 0 0x44000 4).bind _) = _
    rw [hr]; simp only [Got.bind]; rw [if_pos (by decide +kernel)]; rfl

theorem meets_QueuesAndPackets_rest (h : mapped) :
    let q := queueOf2 [signal0]
    let w := queueOf2 [packet0 gridPacket 0]
    let s := withQueue w State.reset
    (withQueue { queue0 with wptr := 17 } State.reset).frontOpen { queue0 with wptr := 17 } = true ∧ ({ queue0 with wptr := 17 } : Queue).overrun = true ∧
      queue0.overrun = false ∧ queue0.canRead = true ∧ (ring [5]).packetBytes queue0 0 = .ok (seen (ring [5]) 0x40000 64) ∧
      packetOk (seen (ring [5]) 0x40000 64) = false ∧
      w.waiting? = some (packet0 gridPacket 0) ∧ s.frontOpen w = true ∧ w.holds (packet0 gridPacket 0) = false ∧ s.queueFirst w = true ∧
      q.parked = none ∧ ∃ s', ((withQueue q State.reset).modPacket 0 0 fun p => { p with state := .settled 0 0 0 }).frontPut 0 .write false 0x50000 32
        (fun _ => recordBytes { signal0 with state := .settled 0 0 0 } 0 0 0) = .inl s' := by
  refine ⟨by decide +kernel, by decide +kernel, by decide +kernel, by decide +kernel, ?_, by decide +kernel, by decide +kernel, by decide +kernel,
    by decide +kernel, by decide +kernel, by decide +kernel, ?_⟩
  · exact front_read h _ (by decide +kernel) 0x40000 64 (by decide +kernel) (by decide +kernel)
  · exact front_put h _ (by decide +kernel) .write false 0x50000 32 _ (by decide +kernel)

/-- A read that succeeds. -/
theorem got_ok {α : Type} (x : Got α) (h : (match x with | .ok _ => true | _ => false) = true) : ∃ a, x = .ok a := by
  cases x with
  | ok a => exact ⟨a, rfl⟩
  | fault _ _ => simp at h
  | bad => simp at h

/-- A kernel header of a program that needs little (R254), and a launch of it that waits. -/
def header0 : List Nat := [1, 0x80, 0, 0x00000000 + 8, 0, 0, 0, 0, 0, 0, 0, 0, 0, 0, 0, 0]
def waiting0 : Grid :=
  { loadedGrid 0 with state := .waiting, headerRead := false, record := recordOf (words record), dispatched := [], ncrew := 1, origin := .packet 0 0 }
def waiting : State := memory 0x10000 header0 { withQueue (queueOf2 [signal0]) State.reset with grids := [waiting0], nextGrid := 1 }

theorem meets_LaunchesRun_start (h : mapped) :
    waiting.grid? 0 = some waiting0 ∧ waiting.queue? 0 = some (queueOf2 [signal0]) ∧ waiting.ctx? 0 = some ctx0 ∧
      waiting.launchReady waiting0 = true ∧ waiting0.headerRead = false ∧ ∃ i, waiting.startChecks 0 0 waiting0.record = .ok i := by
  refine ⟨by decide +kernel, by decide +kernel, by decide +kernel, by decide +kernel, rfl, ?_⟩
  have hr := front_read h waiting (by decide +kernel) 0x10000 128 (by decide +kernel) (by decide +kernel)
  have hk : waiting0.record.kernel.toNat = 0x10000 := by decide +kernel
  simp only [State.startChecks, State.readHeader, hk, hr]
  exact got_ok _ (by decide +kernel)

/-- The same launch over a header of zeros is bad. -/
theorem meets_LaunchesRun_bad (h : mapped) :
    let s : State := { withQueue (queueOf2 [signal0]) State.reset with grids := [waiting0] }
    s.launchReady waiting0 = true ∧ waiting0.headerRead = false ∧ s.startChecks 0 0 waiting0.record = .bad := by
  refine ⟨by decide +kernel, rfl, ?_⟩
  have hr := front_read h { withQueue (queueOf2 [signal0]) State.reset with grids := [waiting0] } (by decide +kernel) 0x10000 128 (by decide +kernel)
    (by decide +kernel)
  have hk : waiting0.record.kernel.toNat = 0x10000 := by decide +kernel
  have hi : headerOf (seen { withQueue (queueOf2 [signal0]) State.reset with grids := [waiting0] } 0x10000 128) = none := by decide +kernel
  simp only [State.startChecks, State.readHeader, hk, hr, Got.bind, hi]

/-- Launches that are over, and launches on their way. -/
def entry1 : LaunchEntry := { record := recordOf (words record), prio := 0, phase := 0, ctx := 0, part := 0, queue := 0, since := 0 }
theorem meets_LaunchesRun_rest :
    let g : Grid := { loadedGrid 0 with record := { loadedRecord with chained := false }, origin := .device 0 }
    let s : State := { withQueue (queueOf2 []) State.reset with grids := [g] }
    let p := onCrew (fun c => { c with pending := [entry1] }) running
    let d : State := { withQueue (queueOf2 []) State.reset with dies := putNth State.reset.dies 8 { Die.full with queue := [entry1] } }
    s.grid? 0 = some g ∧ s.gridOver g = true ∧ s.gridFree g = true ∧ g.acts = 0 ∧ g.record.chained = false ∧ g.record.done = 0 ∧
      ((p.crew? r0.crew).any fun c => decide (c.pending = [entry1]) && (p.die? (dieOf c.core)).any fun x => decide (x.queue.length < 256)) = true ∧
      (d.die? 8).isSome = true ∧ d.frontFirst (d.dieKey 8 entry1) = true ∧ d.halted = false ∧ d.queue? 0 = some (queueOf2 []) := by decide +kernel

theorem meets_LaunchesRun_done (h : mapped) :
    let g : Grid := { loadedGrid 0 with record := { loadedRecord with done := 0x46000 } }
    g.record.done ≠ 0 ∧ g.record.done.toNat % 8 = 0 ∧ ∃ ks, (withCtx State.reset).frontKeys g.ctx .both (span g.record.done.toNat 8) = .inl ks ∧
      (ks.map (·.1)).Nodup :=
  ⟨by decide, by decide, _, front_keys h _ (by decide +kernel) .both (span 0x46000 8) (by decide +kernel), by decide +kernel⟩

/-! ## Statements: what happens of itself -/

theorem meets_CrewEvents :
    let free : State := { onGrid (fun g => { g with dispatched := [] }) running with crews := [] }
    let is (st : CrewState) (w : Bool) : State := onCrew (fun c => { c with state := st, woken := w, wakes := [.launch] }) running
    let dies : DieRec := { vphys := [0, 1], glog := 0, share := List.replicate 64 0 }
    let plain (g : Grid) : Grid := { g with record := { g.record with chained := false }, ncrew := 2, dispatched := [], dieRec := dies }
    let two : State := { onGrid plain running with crews := [] }
    let back (s : State) : Bool := match s.crew? r0.crew, s.grid? 0 with
      | some c, some g => s.returnable c && s.isNextPlaced g { ref := c.ref, fresh := false } && (s.roomFor g { ref := c.ref, fresh := false }).isSome
      | _, _ => false
    [(free.grid? 0).any fun g => free.dispatchable g 0 && free.isNextPlaced g { ref := r0.crew, fresh := true } &&
        (free.roomFor g { ref := r0.crew, fresh := true }).any fun x => (x.1.crew? r0.crew).isNone && (x.1.grid? 0).isSome,
      back (is .swapped true), back (is .preempted false), ((is .swapped false).crew? r0.crew).any (is .swapped false).wakeDue,
      (two.grid? 0).any fun g => (two.stealDue g 1 0).isSome,
      ({ loadedGrid 0 with transit := [(0, 1)], given := [0], stolen := [(0, 1)], dieRec := dies } : Grid).onItsWay 1 == some 0,
      (running.crew? r0.crew).any fun c => c.follows.isEmpty && (running.grid? c.grid).isSome,
      ((onCrew (fun c => { c with killAsked := true }) running).crew? r0.crew).any fun c => c.killAsked && decide (c.state ≠ .ended)].all id = true := by
  decide +kernel

/-- HPUT of slot 0 by item 0. -/
def put0 : Ext := { ex no (.v 4) no no .b32 with g := g1 }
/-- A crew whose path stands at that HPUT, which found no room before. -/
def pressed : State :=
  one { onStrand (fun t => { t with splits := t.splits.map fun p =>
      { p with held := .backPressure, stood := some { entry0 with instr := .hput put0, mask := 1, captured := 1, fresh := true } } })
    (withCtx (State.reset.loaded (toBytes 12 (wordsOf (.hput put0))))) with agenda := [] }

theorem meets_StrandEvents :
    let r : SplitRef := { strand := r0, lane := 0 }
    let waits (w : Wait) (n : Nat) : State := { onStrand (fun t => { t with splits := t.splits.map fun p => { p with wait := w } }) running with
      cycle := BitVec.ofNat 64 n }
    let dogs : State := onCrew (fun c => { c with wdCount := c.wdLimit }) running
    let defers : State := onStrand (fun t => { t with deferred := [dog] }) running
    let late : State := onCrew (fun c => { c with phase := 1 }) running
    let sent : State := after (.hput put0) (one (start (.hput put0)))
    [((waits .none 1024).splitAt? r).any fun x => !x.2.2.2.asleep && (waits .none 1024).splitReady x.1 r0 x.2.2.1 x.2.2.2 &&
        decide (1024 ≤ ((waits .none 1024).cycle - x.2.2.2.since).toNat),
      ((waits (.sleep 5) 5).splitAt? r).any fun x => decide (x.2.2.2.wait = .sleep 5) && decide (x.2.2.2.since.toNat < 5),
      (dogs.crew? r0.crew).any Crew.dogDue, defers.deferredDue r0, (running.crew? r0.crew).isSome,
      ((pressed.splitAt? r).any fun x => decide (x.2.2.2.held = .backPressure) && pressed.pathReady r0 x.2.2.2) &&
        (match pressed.beginIssue r with
          | (x, some (.hput e)) => decide (e.scope = .none) && (match x.ctxOf (Form.ofExt 0x60 e) with
            | some d => d.free && d.g.record.chained && decide (d.g.mode d.slot ≠ 0) && d.sealedLane.isNone &&
                decide (((lanesOf d.act).foldl d.publishLane (d.acquireHands.s, 0)).2 = 0)
            | none => false)
          | _ => false),
      ((waits (.waitm 0x202 false 1) 1).splitAt? r).any fun x => (waits (.waitm 0x202 false 1) 1).recheckDue x.2.1 x.2.2.2,
      ((waits (.waitm 0x202 false 0) 65536).splitAt? r).any fun x => (waits (.waitm 0x202 false 0) 65536).recheckDue x.2.1 x.2.2.2,
      (late.grid? 0).any fun g => late.counterReady g 0 && decide (0 < g.dieRec.vphys.length) && decide (g.counters.length = g.dieRec.vphys.length),
      (sent.grid? 0).any fun g => (g.pub? 0 0 0).any (sent.deliveryDue g)].all id = true := by decide +kernel

/-- The load in flight by lane 0 alone of the word at an address, and that strand with it in the loaded state. -/
def at1 (va : Nat) (st : FlightState) : InFlight :=
  { load0 st with entry := { (load0 st).entry with mask := 1, captured := 1, opA := [(0, BitVec.ofNat 64 va)], ea := [(0, BitVec.ofNat 64 va)] } }
def flight (x : InFlight) (s : State) : State := onStrand (fun t => { t with inflight := [x] }) s
/-- A store so, and a RED. -/
def as1 (i : Instr) (va : Nat) (st : FlightState) : InFlight := { at1 va st with entry := { (at1 va st).entry with instr := i } }
/-- The context of the access, where it meets a condition. -/
def flies (x : InFlight) (s : State) (ok : State → Ctx → Bool) : Bool :=
  let t := flight x s
  decide (t.flight? r0 x.id = some x) && match t.ctxOfFlight r0 x with | some c => decide (c.act ≠ 0) && ok t c | none => false
/-- The Bool form of `Ctx.lanesIn`. -/
def lanesAt (c : Ctx) : Bool :=
  decide (c.space ≠ .localStore) &&
    every c fun l => match c.keys? c.s .read l with | some ks => c.atHand ks && ks.all (fun k => !(c.pathByte k.1).2) | none => false
/-- Its bytes lie in one page that the TLBs do not hold. -/
def missing (x : InFlight) (va : Nat) (s : State) (c : Ctx) : Bool :=
  decide ((c.bytes c.low).head? = some va) && (every c fun l => (c.bytes l).all fun a => pageOf a = pageOf va) &&
    (s.tlbLook c.core c.ctx va x.right).isNone && (s.core? c.core).isSome
def redAt : Ext := { ex no (.v 4) (.v 6) no .n32 with g := g7 }
/-- The device without a context, so that no page is found. -/
def noCtx : State := withPart { State.reset.loaded [] with agenda := [] }

/-- The flag store of a VRET, made once its page is there. -/
theorem meets_ViewRegisters_walked :
    let e : Ext := { ex no (.v 4) (.v 6) no .b32 with scope := .crew, view := some 0 }
    let x : InFlight := as1 (.vret e) 0x10800 (.parked 3)
    flies x (inL1 0x10800 (view 0 gv running)) (fun s c => s.walkDue r0 x && x.isWhole && decide (c.f = Form.ofExt 0x83 e) &&
      decide (c.c.state ≠ .ended) && translates c .write [c.low] fun s' lk => (c.scopeFail s' lk).isNone && decide (lk.map (·.1) = [c.low])) = true := by
  decide +kernel

theorem meets_AccessEvents :
    let late (st : FlightState) : State := { flight (at1 0x10100 st) running with cycle := 64 }
    let key : Nat := 0x210100
    [decide ((late (.rejected 0)).flight? r0 7 = some (at1 0x10100 (.rejected 0))) && decide (64 ≤ ((late (.rejected 0)).cycle - 0).toNat),
      (late (.rejected 0)).slotFor r0 (at1 0x10100 (.rejected 0)), (late .aged).slotFor r0 (at1 0x10100 .aged),
      flies (at1 0x10100 .outstanding) (inL1 0x10100 running) fun s c => lanesAt c && !(s.bankStops r0),
      flies (at1 0x10100 .outstanding) running fun s c => decide (c.space = .global) && !(s.bankStops r0) &&
        (every c fun l => match c.keys? s .read l with | some ks => ks.all fun y => y.1 / 128 = key / 128 | none => false) &&
        (s.core? c.core).any fun k => (k.l1? (key / 128)).isNone && k.outbox.isEmpty && decide (k.l1.length < s.l1Lines c.core) &&
          !(s.poisoned (key / 128)) && c.entriesFor s (c.loadReady s) (fun _ => true),
      flies (as1 (.stG (bs 2 4)) 0x10100 .outstanding) (inL1 0x10100 running) fun s c => (as1 (.stG (bs 2 4)) 0x10100 .outstanding).isStore &&
        !(s.bankStops r0) && !(as1 (.stG (bs 2 4)) 0x10100 .outstanding).universal &&
        decide (c.c.state ≠ .ended) && decide (c.space = .global) && decide (c.mapped s .write c.act = c.act) && storeLines c,
      flies (at1 0x90100 .outstanding) noCtx fun s c => s.walkDue r0 (at1 0x90100 .outstanding) && missing (at1 0x90100 .outstanding) 0x90100 s c &&
        decide (s.walk c.ctx 0x90100 .read = .inr 0) && (s.part? c.g.part).isSome,
      flies (as1 (.red redAt) 0x10100 .outstanding) running fun s c => s.walkDue r0 (as1 (.red redAt) 0x10100 .outstanding) &&
        (as1 (.red redAt) 0x10100 .outstanding).isWhole && decide (c.c.state ≠ .ended) && match wholeAgain c with | .go _ _ _ => true | _ => false,
      ((running.modCore 0 fun k => { k with outbox := [.write 5 0 1 []] }).core? 0).any fun k => !k.outbox.isEmpty,
      ((running.modCore 0 fun k => { k with outbox := [.red 0x210100 0 .n32 1 []] }).core? 0).any fun k => !k.outbox.isEmpty,
      (State.reset.core? 323).any fun k => k.outbox.isEmpty,
      ((withPart State.reset).part? 0).any fun p => !((withPart State.reset).poisoned ((p.entry.toNat + 0x74) / 128)),
      { withPart State.reset with poison := [(0x400000 + 0x74) / 128] }.poisoned ((part0.entry.toNat + 0x74) / 128),
      decide ((part0.fwptr - BitVec.ofNat 32 ((withPart State.reset).readNat (part0.entry.toNat + 0x74) 4)).toNat ≠ 2 ^ part0.flog) &&
        decide (part0.entry.toNat + 0x74 ≤ part0.fring.toNat + 32 * (part0.fwptr.toNat % 2 ^ part0.flog))].all id = true := by decide +kernel

/-- A walk that finds its page. -/
theorem meets_AccessEvents_walk (h : mapped) :
    let s := flight (at1 0x90100 .outstanding) running
    s.walk 0 0x90100 .read = .inl (loadedXlate 9) ∧
      flies (at1 0x90100 .outstanding) running (fun s c => s.walkDue r0 (at1 0x90100 .outstanding) && missing (at1 0x90100 .outstanding) 0x90100 s c &&
        decide (c.ctx = 0)) = true :=
  ⟨front_walk h _ (by decide +kernel) .read 0x90100 (by decide +kernel) (by decide +kernel), by decide +kernel⟩

/-- The Bool form of `allGood`. -/
def goodNow (j : Job) (now : Snap) : Bool := (j.pairs.zip now).all fun y => y.1.2.isNone || match y.2 with | some (_, m) => decide (m = 0) | _ => false
/-- The copy has the elements of its issue still. -/
def steadyB (s : State) (x : TagCtx) (j : Job) : Bool :=
  let now := s.jobElems j x.c.store (fun va => s.tlbLook x.o.core x.g.ctx va .read)
  decide (x.o.olds = [now]) && goodNow j now && decide (x.o.granule = 0) && !x.c.over
/-- Copies of 8 elements into local store and out of it, one whose source has no translation, and one into a holding slot. -/
def small : View := { gv with extent := [8, 0, 0, 0] }
def cpy1 : Ext := ex (.w 0) (.w 1) (.v 6) no .b32
def copyIn : State := after (.cpy cpy1) (view 1 small (view 0 lv (start (.cpy cpy1))))
def copyOut : State := after (.cpy cpy1) (view 1 lv (view 0 small (start (.cpy cpy1))))
def stuck : State := after (.cpy cpy1) (view 1 { small with base := 0x90000 } (view 0 lv (start (.cpy cpy1))))
def cpym1 : Ext := ex (.v 2) (.w 1) (.v 6) no .b32
def parks : State := after (.cpym cpym1) (vreg 6 1 (view 1 small (start (.cpym cpym1))))
def taken (x : Host.Outcome State Fault Refusal) : State := match x with | .next t => t | _ => State.reset
/-- A drain of that parking, its slot filled, and one of a slot that holds nothing. -/
def cdrain1 : Ext := { ex (.w 0) (.v 2) no no .b32 with aux := 1 }
def again (i : Instr) (s : State) : State := { s with agenda := [], cur := (start i).cur }
def drains : State := after (.cdrain cdrain1) (again (.cdrain cdrain1) (view 0 lv (taken (execCpymParked r0.crew 0 parks))))
def drainsNone : State := after (.cdrain cdrain1) (again (.cdrain cdrain1) (view 0 lv (start (.cdrain cdrain1))))
/-- An NMV of one stripe in NEAR memory, a product that follows a copy, and a queued tile operation. -/
def nmv1 : Ext := ex (.w 0) (.w 1) (.w 2) no .bf16
def nmvs : State := after (.nmv nmv1) (nearPage (view 0 ny (view 1 nb (view 2 nx (start (.nmv nmv1))))))
def follows : State :=
  let f : Ext := { cpy1 with mod := 1 }
  onCrew (fun k => { k with follows := k.follows.map fun f => { f with copyDone := true } })
    (after (.cpy f) ((vreg 6 0x8000 ∘ local1 0x8000 (words s8Follow) ∘ local1 0x9000 (words s8Block) ∘
      view 2 (tv .s8 0x4000) ∘ view 1 (tv .s8 0) ∘ view 0 (tv .s8 0)) (start (.cpy f))))
def mzero1 : Ext := ex (.t 7) no no no .b32
def tiles : State := after (.mzero mzero1) (start (.mzero mzero1))

theorem meets_EngineEvents :
    let c : CrewRef := r0.crew
    let cut : State := after (.ckill (ex no (.v 4) no no .b32)) (again (.ckill (ex no (.v 4) no no .b32)) (vreg 4 1 copyIn))
    [(copyIn.copyReady c 0).any fun x => x.2.2.isLocal && steadyB copyIn x.1 (copyJob x.2.1 x.2.2),
      (copyOut.copyReady c 0).any fun x => !x.2.2.isLocal && steadyB copyOut x.1 (copyJob x.2.1 x.2.2) &&
        let j := copyJob x.2.1 x.2.2
        (movedBytes j.size (copyMoves j (copyOut.jobElems j x.1.c.store (copyOut.trans x.1.o.core x.1.g.ctx .read)))).all
          fun b => (copyOut.tlbLook x.1.o.core x.1.g.ctx b.1 .write).isSome,
      (stuck.runCopy c 0).tagParked c 0,
      (parks.parkReady c 0).any fun x => steadyB parks x.1 (parkJob x.2.2.2) && (parks.slot? x.2.1 x.2.2.1.slot.toNat).any fun k =>
        k.holds x.1.g.ctx x.2.2.1 && decide (k.dtag ≠ some 0),
      (drains.drainReady c 1).any fun x => (drains.slotOf x.1 x.2.1).any fun k => k.ready && decide (k.ty = x.2.2.2.ty) && x.2.2.2.isLocal &&
        decide (x.1.o.granule = 0) && !x.1.c.over && (x.2.2.1 || decide (k.accept ≠ 0)) && !(drains.slotKilled k (x.1.slotDie x.2.1) x.2.1),
      (drainsNone.drainReady c 1).any fun x => (drainsNone.slotOf x.1 x.2.1).isNone && decide (x.1.o.granule = 0) && !x.1.c.over,
      (nmvs.nmvReady c 0).any fun x => x.2.2.1.isLocal && x.2.2.2.1.isLocal && decide (x.1.o.granule = 0) && !x.1.c.over && !x.1.o.olds.isEmpty &&
        ((nmvs.core? x.1.o.core).any fun k => k.outbox.isEmpty) && decide (nmvs.nmvPick x.1 x.2.1 x.2.2.1 x.2.2.2.2.1 = (nmvs.drawn, x.1.o.olds)) &&
        decide (x.2.1.n 1 ≤ x.2.2.2.1.count) &&
        let el (i : Nat) : Elems := (x.1.o.olds.getD i []).toArray
        (nmvRows x.2.1 x.2.2.1 x.2.2.2.1 x.2.2.2.2.1 (rmOf x.2.2.2.2.2.1) x.2.2.2.2.2.2 (el 0) (el 1) (el 2) (el 3) none).all fun z => !(snapBad z.1.data),
      (cut.tagCtx? c 0).any fun x => x.o.cancelled.isSome && !x.c.over,
      (follows.followOf c 0).any fun x => (follows.core? x.2.1.core).isSome &&
        match (follows.transPages x.2.1.core x.1.ctx .read (TileKind.mma x.2.2.wa x.2.2.wb x.2.2.fb x.2.2.ty).pages.1).2 with | .inl _ => true | _ => false,
      (tiles.core? 0).any fun k => k.tileQ.any fun o => (tiles.tileReady 0 o.id).any fun x => !(tiles.ctxOff x.2.1) && !(tiles.displaced x.2.1) &&
        ((tiles.doTile x.2.1 x.1.ctx x.2.2).crew? x.2.1.ref).any fun d => !d.over,
      (copyIn.crew? c).any fun k => decide (63 < k.tags.length) && !k.over, decide (7 < lv.count)].all id = true := by decide +kernel

/-- A copy whose first element no translation reaches, for want of a context; a product of which that is so. -/
theorem meets_EngineEvents_parked :
    let bare : State := ((onCrew (fun k => { k with tags := k.tags.map fun t => { t with op := t.op.map fun o => { o with olds := [List.replicate 8 none] } } })
      copyIn).modCore 0 fun k => { k with tlb := [] }).modDie 0 fun d => { d with tlb := [] }
    let far : State := onCrew (fun k => { k with follows := k.follows.map fun f => { f with wa := { f.wa with view := { tv .s8 0x90000 with isLocal := false } } } }) follows
    ((bare.copyReady r0.crew 0).any (fun x => x.2.2.isLocal && !x.2.1.isLocal && decide (x.1.o.granule = 0) && decide (x.1.o.core = 0) && decide (x.1.g.ctx = 0) &&
      (match (copyJob x.2.1 x.2.2).pairs with | (_, some _) :: _ => true | _ => false) && !(copyJob x.2.1 x.2.2).meets &&
      decide (x.1.o.olds ≠ []) && (x.1.o.olds.headD []).all fun e => e.isNone)) = true ∧
    (∀ va, bare.tlbLook 0 0 va .read = none ∧ ∃ why, bare.walk 0 va .read = .inr why) ∧
    ((far.followOf r0.crew 0).any fun x => match (far.transPages x.2.1.core x.1.ctx .read (TileKind.mma x.2.2.wa x.2.2.wb x.2.2.fb x.2.2.ty).pages.1).2 with
      | .inr _ => true | _ => false) = true := by
  refine ⟨by decide +kernel, fun va => ?_, by decide +kernel⟩
  have hc : ((((onCrew (fun k => { k with tags := k.tags.map fun t => { t with op := t.op.map fun o => { o with olds := [List.replicate 8 none] } } })
      copyIn).modCore 0 fun k => { k with tlb := [] }).modDie 0 fun d => { d with tlb := [] }).core? 0).map (·.tlb) = some [] := by decide +kernel
  have hd : ((((onCrew (fun k => { k with tags := k.tags.map fun t => { t with op := t.op.map fun o => { o with olds := [List.replicate 8 none] } } })
      copyIn).modCore 0 fun k => { k with tlb := [] }).modDie 0 fun d => { d with tlb := [] }).die? (dieOf 0)).map (·.tlb) = some [] := by decide +kernel
  have hx : (((onCrew (fun k => { k with tags := k.tags.map fun t => { t with op := t.op.map fun o => { o with olds := [List.replicate 8 none] } } })
      copyIn).modCore 0 fun k => { k with tlb := [] }).modDie 0 fun d => { d with tlb := [] }).ctx? 0 = none := by decide +kernel
  exact ⟨no_tlb _ hc hd va, 0, no_ctx _ hx va⟩

theorem meets_Reliability :
    let s := State.reset
    let worn (n : Nat) : State := s.modCore 323 fun k => { k with banks := { k.banks with errors := SMap.put 0 k.banks.errors (s.bankKey 95) n } }
    let noSpare : State := (worn 15).modCore 323 fun k => { k with banks := { k.banks with retired := [98, 99] } }
    let copying : State := s.modCore 323 fun k => { k with banks := { k.banks with copying := [(95, 98)] } }
    let moving : State := { s with dies := putNth s.dies 8 { Die.full with evacuating := [63] } }
    let twice : State := { s with quads := putNth s.quads 71 { Quadrant.full with retired := [0, 63] } }
    let copyQ : State := { s with quads := putNth s.quads 71 { Quadrant.full with copying := some 63 } }
    let failing (t : State) (ok : Core → Bool) : Bool := t.crews.isEmpty && (t.core? 323).any fun k => k.hasBank 95 &&
      decide (15 ≤ SMap.look 0 k.banks.errors (t.bankKey 95)) && !(k.banks.retired.contains 95) &&
      (k.banks.served ++ k.banks.copying).all (fun x => x.1 ≠ 95) && ok k
    let plain : ErrorSite := { line := 0x10000, dirtyOf := none, firmware := none }
    let owned : ErrorSite := { plain with dirtyOf := some 0 }
    let table : ErrorSite := { plain with line := 0x400000 / 128 }
    [((s.core? 323).any fun k => (k.clusters[3]?).any fun c => decide (c.live &&& (1#34 <<< 33) ≠ 0)) && s.crews.isEmpty,
      (s.core? 323).any fun k => match k.columns[0]? with | some m => m.getLsbD 129 | none => false,
      ((copying.core? 323).any fun k => k.banks.copying.contains (95, 98)) && copying.crews.all fun c => c.core ≠ 323,
      ((worn 14).core? 323).any fun k => k.hasBank 95 && decide (SMap.look 0 k.banks.errors ((worn 14).bankKey 95) < 15),
      failing (worn 15) fun k => decide (k.banks.freeSpare (bankHalf 95) = some 98), failing noSpare fun k => (k.banks.freeSpare (bankHalf 95)).isNone,
      (s.die? 8).any fun d => !((d.retiredSlices ++ d.evacuating).contains 63), (moving.die? 8).any fun d => !d.evacuating.isEmpty,
      (s.quads[71]?).any fun q => !(q.retired.contains 63) && q.copying.isNone && !q.dead && decide (q.retired.length < 2),
      (twice.quads[71]?).any fun q => !(q.retired.contains 1) && q.copying.isNone && !q.dead && decide (2 ≤ q.retired.length),
      (copyQ.quads[71]?).any fun q => decide (q.copying = some 63),
      !(firmwareLost plain) && (s.partitionLine plain.line).isNone && (s.dirtyOwner plain).isNone,
      (withCtx s).queues.isEmpty && !(firmwareLost owned) && ((withCtx s).partitionLine owned.line).isNone && decide ((withCtx s).dirtyOwner owned = some 0) &&
        ((withCtx s).ctx? 0).isSome,
      (withPart s).queues.isEmpty && !(firmwareLost table) && decide ((withPart s).partitionLine table.line = some 0) && ((withPart s).part? 0).isSome,
      firmwareLost { plain with line := 0 }, firmwareLost { plain with firmware := some true },
      -- an activation below the limit, one that reaches it, and one whose parity fails
      decide ((0 : Nat) + 1 < s.rowLimit) && decide (parityOf RowCount.zero.count = (RowCount.zero.parity ^^ false)),
      decide (s.rowLimit ≤ 1023 + 1), !(decide (parityOf RowCount.zero.count = (RowCount.zero.parity ^^ true)))].all id = true := by decide +kernel

theorem meets_OutsideAccess :
    State.reset.dead = false ∧ State.reset.port = .pcie ∧ { State.reset with port := .cxl }.port = .cxl ∧ hostCan 863993069567 1 = true ∧
      hostCan (2 ^ 64) 8 = true ∧ inDevice (2 ^ 40) 8 = true ∧
      State.reset.anyPoison 0x1000 8 = false ∧ bankTypeOk 0 .s64 = true ∧ bankTypeOk 6 .f32 = true ∧ 0x1000 % 8 = 0 := by decide +kernel

/-! ## Statements: numbers, words, carries and indexed registers -/

theorem meets_numbers :
    (Ty.isAnyInt .s64 && decide (Ty.width .s64 ≤ 64)) = true ∧ (Ty.isAnyInt .s4 && decide (Ty.width .s4 ≤ 64)) = true ∧
      (0 : Nat) < 2 ^ 0 ∧ (2 ^ 64 - 1 : Nat) < 2 ^ 64 ∧ (63 : Nat) < 64 ∧ (2 ^ 32 - 1 : Nat) < 2 ^ 32 ∧ (31 : Nat) < 32 ∧ (1#32 : Mask) ≠ 0 := by decide

theorem meets_RoundTrip :
    (Instr.iaddExt (.ext e1)).wf = true ∧ (encode (.iaddExt (.ext e1))).isSome = true ∧
      (Instr.iaddExt (.lit (bs 2 4) 0xFFFFFFFFFFFFFFFF)).wf = true ∧ (encode (.iaddExt (.lit (bs 2 4) 0xFFFFFFFFFFFFFFFF))).isSome = true ∧
      (Instr.ldv (ev (.v 2) (.imm 1) (.imm 0) (.imm 0xFF) .b32)).wf = true ∧ (encode (.ldv (ev (.v 2) (.imm 1) (.imm 0) (.imm 0xFF) .b32))).isSome = true := by
  decide +kernel

theorem meets_CarryChain :
    let e : Ext := { ex (.v 2) (.v 4) (.v 6) (.p 1) .n32 with mod := 1 }
    (rx .iaddc 0x2C e id fun c => decide (c.f.e.c = .p 1) && match c.f.e.d with | .p _ => false | _ => true) = true := by decide +kernel

theorem meets_IndexedRegisters :
    let r : Ext := ex (.v 2) (.v 4) no no .b32
    let w : Ext := ex no (.v 4) (.v 6) no .b32
    [rx .vxr 0xE9 r (vreg 4 255) fun c => c.badIndex.isNone, rx .vxw 0xEA w (vreg 4 255) fun c => c.badIndex.isNone && decide (c.g.header.vregs ≤ 256),
      rx .vxr 0xE9 r (vreg 4 256) fun c => decide (c.badIndex = some 0), rx .vxw 0xEA w (vreg 4 256) fun c => decide (c.badIndex = some 0)].all id = true := by
  decide +kernel

/-! ## Single steps, their results worked out by hand from the rules -/

/-- The strand of the loaded crew after an instruction, its pipeline drained. -/
def ran (i : Instr) (prep : State → State) : Option Strand := ((after i (prep (start i))).strand? r0).map Strand.final

/-- R353: 0x7FFFFFFF + 1 wraps without .sat and stays with it (MOD[3]); lane 31 has the result as lane 0 does. -/
theorem test_add_wraps :
    (ran (.iaddExt (.ext e1)) (vreg 4 0x7FFFFFFF ∘ vreg 6 1)).map (fun t => (t.vAt 2 0, t.vAt 2 31)) = some (0x80000000, 0x80000000) ∧
      (ran (.iaddExt (.ext { e1 with mod := 8 })) (vreg 4 0x7FFFFFFF ∘ vreg 6 1)).map (fun t => t.vAt 2 0) = some 0x7FFFFFFF := by decide +kernel

/-- R73, R359: -7 / 2 is -3 with remainder -1; a division by 0 gives all ones. -/
theorem test_division :
    (ran (.idivExt (.ext e1)) (vreg 4 0xFFFFFFF9 ∘ vreg 6 2)).map (fun t => t.vAt 2 0) = some 0xFFFFFFFD ∧
      (ran (.iremExt (.ext e1)) (vreg 4 0xFFFFFFF9 ∘ vreg 6 2)).map (fun t => t.vAt 2 0) = some 0xFFFFFFFF ∧
      (ran (.idivExt (.ext e1)) (vreg 4 5)).map (fun t => t.vAt 2 0) = some 0xFFFFFFFF := by decide +kernel

/-- R395: a shift by the width or more gives 0, SAR the sign. -/
theorem test_shift_far :
    (ran (.shlExt (.ext e1)) (vreg 4 0xFFFFFFFF ∘ vreg 6 32)).map (fun t => t.vAt 2 0) = some 0 ∧
      (ran (.sarExt (.ext e1)) (vreg 4 0x80000000 ∘ vreg 6 32)).map (fun t => t.vAt 2 0) = some 0xFFFFFFFF := by decide +kernel

/-- R69, R342: 1.0 + 2^-24 in f32 rounds to 1.0 (to even) and is inexact (bit 4 of %fpmode, R57). -/
theorem test_float_add :
    let e : Ext := ex (.v 2) (.v 4) (.v 6) no .f32
    (ran (.faddExt (.ext e)) (vreg 4 0x3F800000 ∘ vreg 6 0x33800000)).map (fun t => t.vAt 2 0) = some 0x3F800000 ∧
      (ran (.fdivExt (.ext e)) (vreg 4 0x3F800000)).map (fun t => t.vAt 2 0) = some 0x7F800000 := by decide +kernel

/-- R49: a lane whose guard is clear keeps its register. -/
theorem test_guard :
    (ran (.iaddExt (.ext { e1 with g := g1 })) (vreg 2 9 ∘ vreg 4 3 ∘ p1 1)).map (fun t => (t.vAt 2 0, t.vAt 2 1)) = some (3, 9) := by decide +kernel

/-- R67, R388: a field of 4 bits at bit 28, taken as signed. -/
theorem test_field :
    (ran (.bfx e1) (vreg 4 0xF0000000 ∘ vreg 6 0x041C)).map (fun t => t.vAt 2 0) = some 0xFFFFFFFF := by decide +kernel

/-- R364: bytes of local store come in little-endian order. -/
theorem test_load_order :
    ((after (.ldL (bs 2 4)) (local1 65532 [1, 2, 3, 4] (vreg 4 65532 (start (.ldL (bs 2 4)))))).strand? r0).map (fun t => t.final.vAt 2 5) =
      some 0x04030201 := by decide +kernel

/-- R275: a trap with a handler saves the pc of the path, and the strand stands at the handler with every item that has not ended. -/
theorem test_trap :
    let t : Option Strand := (after (.bkpt g7) (withHandler (start (.bkpt g7)))).strand? r0
    t.map (fun t => (t.splits.map fun p => (p.pc, p.mask), t.handler.map fun h => h.pc)) = some ([(0x100, 0xFFFFFFFF)], some 0x80) := by decide +kernel

/-- Log entry 4: the first step after reset runs the placed word: IADD of v4 to v2 under p7, whose result is 0 and whose strand moves on. -/
theorem test_fetch_word :
    (match step (State.reset.withFetchWord 32 (word 0x20 2 4 0)) with
      | .next t => (t.strand? r0).map fun u => u.splits.map fun p => p.pc
      | _ => none) = some [0x84] := by decide +kernel

theorem meets_RemapTable :
    (List.range 64).filter (fun x => decide (x ∈ [0, 63])) = [0, 63] ∧ (List.range 64).filter (fun x => decide (x ∉ List.range 63)) = [63] ∧
      ({ State.reset with dies := putNth State.reset.dies 8 { Die.full with evacuating := [63] } }.die? 8).any (fun d : Die => !d.evacuating.isEmpty) = true := by
  decide +kernel

end Sys2Proof.Tests
end

