-- ==== Sys2Proof/Proofs/IndexedRegisters.lean ====
section
/-! SUPPORT. VXR and VXW (R62): their trap, VXR as one result through the pipeline, and VXW as a list of register writes that
together store each active lane's value in the register that the lane names. -/
namespace Sys2Proof.Machine

/-! ## The index of a lane -/

/-- The v register that a lane of VXR or VXW names: the whole word of its index. -/
def Ctx.namedReg (c : Ctx) (l : Nat) : Nat := (loWord (c.a l)).toNat

/-- Where the bounds check passes, every active lane names a register of the kernel. -/
theorem namedReg_lt_of_badIndex_none {c : Ctx} {l : Nat} (hb : c.badIndex = none) (hl : hasLane c.act l = true) :
    c.namedReg l < c.g.header.vregs := by
  have := List.find?_eq_none.mp hb l (mem_lanesOf.mpr hl)
  simpa [Ctx.namedReg] using this

/-! ## VXR -/

/-- VXR writes to D, in each active lane, what the register that the lane names held at issue. -/
theorem vxr_writesIf (e : Ext) : WritesIf (.vxr e) (Form.ofExt 0xE9 e) (fun c => c.badIndex = none)
    (plainly fun c l => (c.t.vAt (c.namedReg l) l).setWidth 64) := by
  refine writesIf_of_pipe _ (fun _ => rfl) fun c _ _ hb => ?_
  rw [hb]
  exact ⟨4, _, none, 0, rfl, (flagsOf_zero _).symm⟩

/-- VXR with an index that is no register takes REG_RANGE before any effect. -/
theorem vxr_traps {e : Ext} {s : State} {c : Ctx} {l : Nat} (hr : Runs s (Form.ofExt 0xE9 e) c) (hb : c.badIndex = some l) :
    exec (.vxr e) s = .next (c.trap .regRange 0 l c.s) := by
  change execVxr e s = _
  rw [execVxr, issue_runs _ hr, hb]
  rfl

/-! ## VXW -/

/-- The active lanes that name register `n`. -/
def Ctx.naming (c : Ctx) (n : Nat) : Mask := maskOf fun l => hasLane c.act l && decide (c.namedReg l = n)

/-- What VXW writes in register `n`. -/
def Ctx.indexedWrite (c : Ctx) (n : Nat) : RegWrite :=
  { d := .v (BitVec.ofNat 8 n), wide := false, act := c.naming n, vals := tableOf (c.naming n) fun l => c.b l }

/-- The registers that active lanes name, each once. -/
def Ctx.namedRegs (c : Ctx) : List Nat := ((lanesOf c.act).map c.namedReg).eraseDups

/-- Where the bounds check passes, VXW is one write of each register that is named, through the pipeline. -/
theorem vxw_settles {e : Ext} {s : State} {c : Ctx} (hr : Runs s (Form.ofExt 0xEA e) c) (hb : c.badIndex = none) :
    ∃ extra, exec (.vxw e) s = .next (c.settle 0 (.pipe (c.namedRegs.map c.indexedWrite) 0 4 extra none)) := by
  change ∃ extra, execVxw e s = _
  rw [execVxw, issue_runs _ hr, hb]
  exact ⟨_, rfl⟩

/-- VXW with an index that is no register takes REG_RANGE before any effect. -/
theorem vxw_traps {e : Ext} {s : State} {c : Ctx} {l : Nat} (hr : Runs s (Form.ofExt 0xEA e) c) (hb : c.badIndex = some l) :
    exec (.vxw e) s = .next (c.trap .regRange 0 l c.s) := by
  change execVxw e s = _
  rw [execVxw, issue_runs _ hr, hb]
  rfl

theorem hasLane_naming {c : Ctx} {n l : Nat} : hasLane (c.naming n) l = true ↔ hasLane c.act l = true ∧ c.namedReg l = n := by
  simp only [Ctx.naming, hasLane_maskOf, Bool.and_eq_true, decide_eq_true_eq]
  exact ⟨And.right, fun h => ⟨hasLane_lt h.1, h⟩⟩

theorem mem_namedRegs {c : Ctx} {n : Nat} : n ∈ c.namedRegs ↔ ∃ l, hasLane c.act l = true ∧ c.namedReg l = n := by
  simp [Ctx.namedRegs]

/-- The write of register `n` stores in the lanes that name it, and in no other register. -/
theorem vAt_put_indexedWrite (c : Ctx) (t : Strand) {n : Nat} (hn : n < 256) (m l : Nat) (hl : l < 32) :
    (t.put (c.indexedWrite n)).vAt m l =
      if m = n ∧ hasLane c.act l = true ∧ c.namedReg l = n then loWord (c.b l) else t.vAt m l := by
  change (t.writeV (c.naming n) (BitVec.ofNat 8 n).toNat fun k => loWord (SMap.look 0 (tableOf (c.naming n) fun l => c.b l) k)).vAt m l = _
  rw [vAt_writeV _ _ _ _ _ _ hl, BitVec.toNat_ofNat, Nat.mod_eq_of_lt hn]
  simp only [hasLane_naming]
  split
  · rename_i h
    rw [look_tableOf _ _ _ (hasLane_naming.mpr h.2)]
  · rfl

@[simp] theorem sAt_put_indexedWrite (c : Ctx) (t : Strand) (n m : Nat) : (t.put (c.indexedWrite n)).sAt m = t.sAt m :=
  sAt_writeV _ _ _ _ _
@[simp] theorem pAt_put_indexedWrite (c : Ctx) (t : Strand) (n m l : Nat) : (t.put (c.indexedWrite n)).pAt m l = t.pAt m l :=
  pAt_writeV _ _ _ _ _ _

/-- The writes of several registers, one after the other: a lane's value stands in the register that it names, where that is among
them. Each writes a register of its own, so that their order does not matter. -/
theorem vAt_puts_indexedWrite (c : Ctx) (ns : List Nat) (hns : ∀ n ∈ ns, n < 256) (t : Strand) (m l : Nat) (hl : l < 32) :
    ((ns.map c.indexedWrite).foldl Strand.put t).vAt m l =
      if hasLane c.act l = true ∧ c.namedReg l = m ∧ m ∈ ns then loWord (c.b l) else t.vAt m l := by
  induction ns generalizing t with
  | nil => simp
  | cons n ns ih =>
    have hn : n < 256 := hns n (List.mem_cons_self ..)
    rw [List.map_cons, List.foldl_cons, ih (fun k hk => hns k (List.mem_cons_of_mem _ hk)), vAt_put_indexedWrite c t hn m l hl]
    by_cases hm : m = n
    · subst hm
      by_cases h : hasLane c.act l = true ∧ c.namedReg l = m
      · simp [h]
      · simp [h, ← and_assoc]
    · simp [hm]

theorem sAt_puts_indexedWrite (c : Ctx) (ns : List Nat) (t : Strand) (m : Nat) :
    ((ns.map c.indexedWrite).foldl Strand.put t).sAt m = t.sAt m := by
  induction ns generalizing t with
  | nil => rfl
  | cons n ns ih => rw [List.map_cons, List.foldl_cons, ih, sAt_put_indexedWrite]

theorem pAt_puts_indexedWrite (c : Ctx) (ns : List Nat) (t : Strand) (m l : Nat) :
    ((ns.map c.indexedWrite).foldl Strand.put t).pAt m l = t.pAt m l := by
  induction ns generalizing t with
  | nil => rfl
  | cons n ns ih => rw [List.map_cons, List.foldl_cons, ih, pAt_put_indexedWrite]

/-- Strands with the same registers read alike. -/
theorem SameRegs.reads {t u : Strand} (h : SameRegs t u) :
    (∀ n l, t.vAt n l = u.vAt n l) ∧ (∀ n, t.sAt n = u.sAt n) ∧ ∀ n l, t.pAt n l = u.pAt n l := by
  obtain ⟨hv, hs, hp, -⟩ := h
  simp only [Strand.vAt, Strand.sAt, Strand.pAt, hv, hs, hp, implies_true, and_self]

/-- VXW stores each active lane's value in the register that the lane names; every other register stands. -/
theorem vxw_writes {e : Ext} {s : State} {c : Ctx} (hr : Runs s (Form.ofExt 0xEA e) c) (hb : c.badIndex = none)
    (hv : c.g.header.vregs ≤ 256) :
    ∃ (t : State) (u : Strand), exec (.vxw e) s = .next t ∧ t.strand? c.r = some u ∧
      (∀ n l, l < 32 → u.final.vAt n l =
        if hasLane c.act l = true ∧ c.namedReg l = n then loWord (c.b l) else c.t.final.vAt n l) ∧
      (∀ n, u.final.sAt n = c.t.final.sAt n) ∧ ∀ n l, u.final.pAt n l = c.t.final.pAt n l := by
  obtain ⟨-, -, hs, -⟩ := hr.spec
  obtain ⟨extra, hx⟩ := vxw_settles hr hb
  obtain ⟨u, x, due, hu, hi, hst, hsame, -⟩ := pipe_strand c (c.namedRegs.map c.indexedWrite) 0 4 extra none hs
  obtain ⟨hV, hS, hP⟩ := (final_append x due _ 0 none hsame hst hi).reads
  have hlt : ∀ n ∈ c.namedRegs, n < 256 := by
    intro n hn
    obtain ⟨l, hl, rfl⟩ := mem_namedRegs.mp hn
    exact (namedReg_lt_of_badIndex_none hb hl).trans_le hv
  refine ⟨_, u, hx, hu, fun n l hl => ?_, fun n => ?_, fun n l => ?_⟩
  · refine (hV n l).trans ((vAt_puts_indexedWrite c c.namedRegs hlt c.t.final n l hl).trans ?_)
    exact if_congr ⟨fun h => ⟨h.1, h.2.1⟩, fun h => ⟨h.1, h.2, mem_namedRegs.mpr ⟨l, h⟩⟩⟩ rfl rfl
  · exact (hS n).trans (sAt_puts_indexedWrite c _ _ n)
  · exact (hP n l).trans (pAt_puts_indexedWrite c _ _ n l)

/-! ## R62 -/

/-- Settles O18: VXR is one result through the pipeline, VXW the writes of the registers named, and the bounds check traps before
either. -/
theorem indexedRegisters : Obligations.IndexedRegisters := by
  refine ⟨fun e s c hr hb => ?_, fun e s c hr hb hv => vxw_writes hr hb hv, fun i e s c l hi hb => ?_⟩
  · obtain ⟨t, u, ht, hu, hw, ho, -⟩ := vxr_writesIf e s c hr hb
    exact ⟨t, u, ht, hu, hw, ho⟩
  · rcases hi with ⟨rfl, hr⟩ | ⟨rfl, hr⟩
    · exact vxr_traps hr hb
    · exact vxw_traps hr hb

end Sys2Proof.Machine
end

