-- ==== Sys2Proof/Proofs/Division.lean ====
section
/-! SUPPORT. The binary integer instructions (R355, R359) write the exact result of their operation as its destination takes it; the
quotient and the remainder (R73) are two of them. -/
namespace Sys2Proof.Machine

/-! ## The result of a lane -/

/-- The integer that a binary operation gives in a lane, wrapped or clamped for its destination. -/
def Ctx.intOut (op : IntOp) (c : Ctx) (l : Nat) : DWord :=
  intResult c.f.e.ty c.sat (op.exact c.f.e.ty (c.int (c.a l)) (c.int (c.b l)))

/-- R73: a quotient truncates toward zero; for a zero divisor it is -1, whose code has every bit set. -/
theorem intOut_div : Ctx.intOut .div = fun c l =>
    intResult c.f.e.ty c.sat (if c.int (c.b l) = 0 then -1 else Int.tdiv (c.int (c.a l)) (c.int (c.b l))) := rfl

/-- R73: a remainder takes the sign of the dividend; for a zero divisor it is the dividend. -/
theorem intOut_rem : Ctx.intOut .rem = fun c l =>
    intResult c.f.e.ty c.sat (if c.int (c.b l) = 0 then c.int (c.a l) else Int.tmod (c.int (c.a l)) (c.int (c.b l))) := rfl

/-! ## Binary integer instructions -/

/-- A form whose meaning is a binary integer operation writes that operation's result in each lane and raises no flag. -/
theorem writes_intBody {i : Instr} {f : Form} (op : IntOp) (he : ∀ s, exec i s = issue f (intBody op) s) :
    Writes i f (plainly (Ctx.intOut op)) :=
  writes_plain 2 (Ctx.intOut op) he fun _ => rfl

/-- So do the base form and the literal and extended forms of its cell. -/
theorem bothForms_intBody {base : Base → Instr} {long : Long → Instr} {code : Nat} (op : IntOp)
    (hb : ∀ b s, exec (base b) s = issue (Form.ofBase code b) (intBody op) s)
    (hl : ∀ f s, exec (long f) s = issue (Form.ofLong code f) (intBody op) s) :
    BothForms base long code (plainly (Ctx.intOut op)) :=
  ⟨fun b => writes_intBody op (hb b), fun f => writes_intBody op (hl f)⟩

theorem idiv_writes : BothForms .idiv .idivExt 0x25 (plainly (Ctx.intOut .div)) :=
  bothForms_intBody .div (fun _ _ => rfl) fun _ _ => rfl

theorem irem_writes : BothForms .irem .iremExt 0x26 (plainly (Ctx.intOut .rem)) :=
  bothForms_intBody .rem (fun _ _ => rfl) fun _ _ => rfl

/-! ## R73 -/

/-- Settles O5: both instructions write the exact result of their operation, which is the truncated quotient or its remainder. -/
theorem divisionResults : Obligations.DivisionResults := by
  constructor
  · rw [← intOut_div]
    exact idiv_writes
  · rw [← intOut_rem]
    exact irem_writes

end Sys2Proof.Machine
end

