-- ==== Sys2Proof/Proofs/RemapTable.lean ====
section
/-! SUPPORT. The Remap table (R170): what the list of retired slices makes of each entry, and that nothing after the table is made anew
changes it. -/
namespace Sys2Proof.Machine

/-! ## The entries of the table -/

@[simp] theorem length_remapFrom (retired live : List Nat) (n : Nat) (ks : List Nat) :
    (remapFrom retired live n ks).length = ks.length := by
  induction ks generalizing n with
  | nil => rfl
  | cons k ks ih =>
    rw [remapFrom]
    split <;> simp [ih]

/-- The entry of a slice that has not retired stands. -/
theorem getElem?_remapFrom_of_notMem {retired : List Nat} (live : List Nat) (n : Nat) {ks : List Nat} {i k : Nat}
    (hk : ks[i]? = some k) (hr : k ∉ retired) : (remapFrom retired live n ks)[i]? = some k := by
  induction ks generalizing n i with
  | nil => simp at hk
  | cons j ks ih =>
    rw [remapFrom]
    cases i with
    | zero =>
      obtain rfl : j = k := by simpa using hk
      simp [hr]
    | succ i =>
      rw [List.getElem?_cons_succ] at hk
      split
      · exact ih (n + 1) hk
      · exact ih n hk

/-- Of the entries whose slices have retired, the `m`th takes the `m`th live slice in turn, counted on from `n`. -/
theorem getElem?_remapFrom_of_mem {retired : List Nat} (live : List Nat) (n : Nat) {ks : List Nat} {m k : Nat}
    (hk : (ks.filter fun x => decide (x ∈ retired))[m]? = some k) :
    ∃ i : Nat, ks[i]? = some k ∧ (remapFrom retired live n ks)[i]? = some (live.getD ((n + m) % live.length) k) := by
  induction ks generalizing n m with
  | nil => simp at hk
  | cons j ks ih =>
    by_cases hj : j ∈ retired
    · rw [List.filter_cons_of_pos (by simpa using hj)] at hk
      cases m with
      | zero =>
        obtain rfl : j = k := by simpa using hk
        exact ⟨0, by simp, by simp [remapFrom, hj]⟩
      | succ m =>
        obtain ⟨i, hi, hv⟩ := ih (n + 1) hk
        refine ⟨i + 1, hi, ?_⟩
        simpa [remapFrom, hj, Nat.add_right_comm n 1 m, Nat.add_assoc] using hv
    · rw [List.filter_cons_of_neg (by simpa using hj)] at hk
      obtain ⟨i, hi, hv⟩ := ih n hk
      exact ⟨i + 1, hi, by simpa [remapFrom, hj] using hv⟩

/-- The slices that have not retired, in ascending number. -/
def liveSlices (retired : List Nat) : List Nat := (List.range 64).filter fun x => decide (x ∉ retired)

/-- The slices that have retired, in ascending number. -/
def lostSlices (retired : List Nat) : List Nat := (List.range 64).filter fun x => decide (x ∈ retired)

theorem remapOf_eq (retired : List Nat) : remapOf retired = remapFrom retired (liveSlices retired) 0 (List.range 64) := by
  simp [remapOf, liveSlices]

@[simp] theorem length_remapOf (retired : List Nat) : (remapOf retired).length = 64 := by
  simp [remapOf_eq]

/-- R170: the other entries are unchanged. -/
theorem getElem?_remapOf_of_notMem {retired : List Nat} {k : Nat} (hk : k < 64) (hr : k ∉ retired) :
    (remapOf retired)[k]? = some k :=
  getElem?_remapFrom_of_notMem _ 0 (List.getElem?_range hk) hr

/-- R170: the entries whose slices have retired take the live slices cyclically, in ascending order of both. -/
theorem getElem?_remapOf_of_mem {retired : List Nat} (hl : liveSlices retired ≠ []) {n k : Nat}
    (hk : (lostSlices retired)[n]? = some k) :
    (remapOf retired)[k]? = (liveSlices retired)[n % (liveSlices retired).length]? := by
  obtain ⟨i, hi, hv⟩ := getElem?_remapFrom_of_mem (liveSlices retired) 0 hk
  obtain rfl : i = k := by
    obtain ⟨_, h⟩ := List.getElem?_eq_some_iff.mp hi
    simpa using h
  have hlt := Nat.mod_lt n (List.length_pos_iff.mpr hl)
  rw [remapOf_eq, hv, Nat.zero_add, List.getD_eq_getElem _ _ hlt, List.getElem?_eq_getElem hlt]

/-- R170: the table where slice 56 alone has retired. -/
theorem getElem?_remapOf_56 {k : Nat} (hk : k < 64) : (remapOf [56])[k]? = some (if k = 56 then 0 else k) := by
  by_cases h : k = 56
  · subst h
    exact getElem?_remapOf_of_mem (n := 0) (by decide) (by decide)
  · rw [if_neg h]
    exact getElem?_remapOf_of_notMem hk (by simpa using h)

/-! ## A die's table in the state -/

/-- What R170 speaks of: the retired slices of a die and its Remap. -/
def State.remapping (s : State) (n : Nat) : Option (List Nat × List Nat) := (s.die? n).map fun d => (d.retiredSlices, d.remap)

theorem remapping_congr {s t : State} (h : t.dies = s.dies) (n : Nat) : t.remapping n = s.remapping n := by
  unfold State.remapping State.die?; rw [h]

theorem getElem?_modNth {α : Type} (l : List α) (n m : Nat) (f : α → α) :
    (modNth l n f)[m]? = if m = n then l[m]?.map f else l[m]? := by
  induction l generalizing n m with
  | nil => simp [modNth]
  | cons x l ih => cases n <;> cases m <;> simp [modNth, ih]

theorem die?_modDie (s : State) (n m : Nat) (f : Die → Die) :
    (s.modDie n f).die? m = if m = n then (s.die? m).map f else s.die? m :=
  getElem?_modNth s.dies n m f

/-- A change of a die that leaves its retired slices and its Remap leaves every die's. -/
theorem remapping_modDie (s : State) (n m : Nat) (f : Die → Die) (hr : ∀ d, (f d).retiredSlices = d.retiredSlices)
    (hm : ∀ d, (f d).remap = d.remap) : (s.modDie n f).remapping m = s.remapping m := by
  unfold State.remapping
  rw [die?_modDie]
  split
  · simp [Function.comp_def, hr, hm]
  · rfl

/-- A fill takes and drops lines of L2; no die's table changes. -/
@[simp] theorem remapping_l2Fill (s : State) (d : Nat) (mask : BitVec 16) (line m : Nat) :
    (s.l2Fill d mask line).remapping m = s.remapping m := by
  unfold State.l2Fill
  split
  · rfl
  · split
    · rfl
    · dsimp only
      split
      · exact remapping_modDie s d m _ (fun _ => rfl) fun _ => rfl
      · split
        · rfl
        · exact (remapping_congr rfl m).trans (remapping_modDie s d m _ (fun _ => rfl) fun _ => rfl)

theorem remapping_foldl_l2Fill (s : State) (d : Nat) (mask : BitVec 16) (lines : List Nat) (m : Nat) :
    (lines.foldl (fun s l => s.l2Fill d mask l) s).remapping m = s.remapping m := by
  induction lines generalizing s with
  | nil => rfl
  | cons l lines ih => rw [List.foldl_cons, ih, remapping_l2Fill]

/-- Clearing the lines of a die's black box changes the lines of L2 and the scope records alone. -/
@[simp] theorem remapping_clearBox (s : State) (d m : Nat) : (s.clearBox d).remapping m = s.remapping m := by
  unfold State.clearBox
  split
  · exact (remapping_congr rfl m).trans (remapping_modDie s d m _ (fun _ => rfl) fun _ => rfl)
  · rfl

theorem putBytes_dies (bs : List Byte) (s : State) (key : Nat) : (s.putBytes key bs).dies = s.dies := by
  induction bs generalizing s key with
  | nil => rfl
  | cons b bs ih => rw [State.putBytes, ih, State.setByte_dies]

@[simp] theorem noteWrite_dies (s : State) (sel : Nat → Bool) : (s.noteWrite sel).dies = s.dies := by
  unfold State.noteWrite; split <;> rfl

theorem writeMem_dies (s : State) (key : Nat) (bs : List Byte) : (s.writeMem key bs).dies = s.dies := by
  simp only [State.writeMem]; split <;> simp [putBytes_dies]

theorem putReport_dies (s : State) (r : Report) : (s.putReport r).dies = s.dies := by
  unfold State.putReport
  induction r generalizing s with
  | nil => rfl
  | cons x r ih => rw [List.foldl_cons, ih, writeMem_dies]

/-- The table that SLICE_REMAP makes is the one that the step leaves. -/
theorem sliceRemap_remapping {s : State} {n : Nat} {d : Die} (hd : s.die? n = some d) (he : d.evacuating ≠ []) :
    ∃ t, exec (.sliceRemap n) s = .next t ∧
      t.remapping n = some (d.retiredSlices ++ d.evacuating, remapOf (d.retiredSlices ++ d.evacuating)) := by
  refine ⟨_, rfl, ?_⟩
  simp only [hd, List.isEmpty_iff, he, if_false]
  rw [remapping_congr (putReport_dies _ _), remapping_clearBox, remapping_foldl_l2Fill, State.remapping, die?_modDie, if_pos rfl, hd]
  rfl

/-! ## R170 -/

/-- Settles O59: the entries by induction on the entries that are left, and the table's making as the last change of it in
SLICE_REMAP. -/
theorem remapTable : Obligations.RemapTable := by
  refine ⟨fun gone => ⟨length_remapOf gone, fun k => getElem?_remapOf_of_notMem, fun hl n k => getElem?_remapOf_of_mem hl⟩,
    fun k => getElem?_remapOf_56, fun s n d hd he => ?_⟩
  obtain ⟨t, ht, hm⟩ := sliceRemap_remapping hd he
  obtain ⟨e, hte, hv⟩ := Option.map_eq_some_iff.mp hm
  obtain ⟨hr, hp⟩ := Prod.mk.inj hv
  exact ⟨t, e, ht, hte, hr, hp⟩

end Sys2Proof.Machine
end

