-- ==== Sys2Proof/Proofs/Encoding.lean ====
section
/-! SUPPORT. The encoder and the decoder are inverses of each other (R88 to R107): each field of a packed number is read back at its
place, and each cell's row of the encoder is its row of the decoder. -/
namespace Sys2Proof

open Machine

/-! ## Operand specs -/

/-- The operand has a code of its own: the immediate 0x80 names the literal (R99). -/
def Opd.coded (o : Opd) : Prop := o ≠ .imm 0x80

theorem coded_of_srcOk {c : Cls} {w : Bool} {o : Opd} (h : srcOk c w o = true) : Opd.coded o := by
  rintro rfl
  simp [srcOk] at h

theorem coded_of_dstOk {p w : Bool} {o : Opd} (h : dstOk p w o = true) : Opd.coded o := by rintro rfl; cases h
theorem coded_of_unused {o : Opd} (h : unused o = true) : Opd.coded o := by rintro rfl; cases h
theorem coded_of_isV {o : Opd} (h : isV o = true) : Opd.coded o := by rintro rfl; cases h
theorem coded_of_isS {o : Opd} (h : isS o = true) : Opd.coded o := by rintro rfl; cases h
theorem coded_of_isP {o : Opd} (h : isP o = true) : Opd.coded o := by rintro rfl; cases h
theorem coded_of_isW {o : Opd} (h : isW o = true) : Opd.coded o := by rintro rfl; cases h
theorem coded_of_isT {o : Opd} (h : isT o = true) : Opd.coded o := by rintro rfl; cases h

theorem opdCode_lt (o : Opd) : opdCode o < 1024 := by
  cases o <;> simp only [opdCode] <;> bv_omega

/-- The code stands in the low ten bits. -/
theorem opdOf_mod (x : Nat) : opdOf (x % 1024) = opdOf x := by
  unfold opdOf
  rw [show x % 1024 / 256 % 4 = x / 256 % 4 by omega, show x % 1024 % 256 = x % 256 by omega]

theorem opdOf_imm : ∀ b : BitVec 8, b ≠ 0x80 → opdOf (768 + b.toNat) = some (.imm b) := by decide
theorem opdOf_v : ∀ n : BitVec 8, opdOf n.toNat = some (.v n) := by decide
theorem opdOf_h : ∀ a b : BitVec 3, opdOf (512 + a.toNat + 8 * b.toNat) = some (.h a b) := by decide

/-- An operand with a code of its own is read back from it. -/
theorem opdOf_of_mod {x : Nat} {o : Opd} (ho : Opd.coded o) (hx : x % 1024 = opdCode o) : opdOf x = some o := by
  rw [← opdOf_mod, hx]
  cases o with
  | v n => exact opdOf_v n
  | s n => clear ho hx; revert n; decide
  | p n => clear ho hx; revert n; decide
  | w n => clear ho hx; revert n; decide
  | t n => clear ho hx; revert n; decide
  | h a b => exact opdOf_h a b
  | imm b => exact opdOf_imm b fun h => ho (congrArg _ h)
  | lit => rfl

/-- A code that names an operand is that operand's. -/
theorem opdCode_of_opdOf {x : Nat} {o : Opd} (h : opdOf x = some o) : opdCode o = x % 1024 := by
  have hx : x % 1024 = 256 * (x / 256 % 4) + x % 256 := by omega
  have hc : x / 256 % 4 < 4 := Nat.mod_lt _ (by decide)
  have hv : x % 256 < 256 := Nat.mod_lt _ (by decide)
  rw [hx]
  unfold opdOf at h
  generalize x % 256 = v at h hv
  generalize x / 256 % 4 = c at h hc
  dsimp only at h
  split at h
  next => cases h; simp only [opdCode, BitVec.toNat_ofNat]; omega
  next => split_ifs at h <;> cases h <;> simp only [opdCode, BitVec.toNat_ofNat] <;> omega
  next => split_ifs at h; cases h; simp only [opdCode, BitVec.toNat_ofNat]; omega
  next h0 h1 h2 =>
    have h0 : c ≠ 0 := h0
    have h1 : c ≠ 1 := h1
    have h2 : c ≠ 2 := h2
    split_ifs at h <;> cases h <;> simp only [opdCode, BitVec.toNat_ofNat] <;> omega

/-! ## The other fields -/

theorem code_lt (t : Ty) : t.code < 16 := by cases t <;> decide
theorem ofCode_code (t : Ty) : Ty.ofCode t.code = t := by cases t <;> rfl
theorem code_ofCode : ∀ n, n < 16 → (Ty.ofCode n).code = n := by decide

theorem scopeCode_lt (s : Scope) : scopeCode s < 8 := by cases s <;> decide
theorem scopeOf_scopeCode (s : Scope) : scopeOf (scopeCode s) = some s := by cases s <;> rfl
theorem scopeCode_of_scopeOf {x : Nat} {s : Scope} (h : scopeOf x = some s) : scopeCode s = x := by
  unfold scopeOf at h
  split at h <;> cases h <;> rfl

/-- The code of VIEW (R98). -/
def viewCode (v : Option (BitVec 3)) : Nat := match v with | none => 0 | some n => 8 + n.toNat

theorem viewCode_lt (v : Option (BitVec 3)) : viewCode v < 16 := by
  cases v with
  | none => decide
  | some n => have := n.isLt; simp only [viewCode]; omega

theorem viewOf_viewCode (v : Option (BitVec 3)) : viewOf (viewCode v) = some v := by
  cases v with
  | none => rfl
  | some n => revert n; decide

theorem viewCode_of_viewOf {x : Nat} {v : Option (BitVec 3)} (hx : x < 16) (h : viewOf x = some v) : viewCode v = x := by
  unfold viewOf at h
  split_ifs at h with h0 h8 <;> cases h
  · exact h0.symm
  · simp only [viewCode, BitVec.toNat_ofNat]; omega

/-- A field of the width of a value is the value. -/
theorem ofNat_of_mod {n : Nat} {x : Nat} {b : BitVec n} (h : x % 2 ^ n = b.toNat) : BitVec.ofNat n x = b :=
  BitVec.eq_of_toNat_eq (by rw [BitVec.toNat_ofNat, h])

/-! ## The head of a word -/

theorem packHead_lt {l op : Nat} (g : Guard) (hl : l < 4) (hop : op < 256) : packHead l op g < 2 ^ 14 := by
  have := g.reg.isLt
  unfold packHead
  split <;> omega

/-- L, OP and the guard are read back from the low 14 bits. -/
theorem head_of_mod {w l op : Nat} {g : Guard} (hl : l < 4) (hop : op < 256) (h : w % 2 ^ 14 = packHead l op g) :
    lOf w = l ∧ opOf w = op ∧ guardOf w = g := by
  obtain ⟨r, n⟩ := g
  have hr := r.isLt
  have hn : (if n = true then 2 ^ 13 else 0) = 2 ^ 13 * n.toNat := by cases n <;> rfl
  have hb : n.toNat < 2 := Bool.toNat_lt n
  simp only [packHead, hn] at h
  refine ⟨by unfold lOf; omega, by unfold opOf; omega, ?_⟩
  have h1 : BitVec.ofNat 3 (w / 2 ^ 10) = r := ofNat_of_mod (by omega)
  have h2 : w / 2 ^ 13 % 2 = n.toNat := by omega
  simp only [guardOf, h1, h2]
  cases n <;> rfl

/-- The head of a word is its low 14 bits. -/
theorem packHead_of (w : Nat) : packHead (lOf w) (opOf w) (guardOf w) = w % 2 ^ 14 := by
  simp only [packHead, lOf, opOf, guardOf, BitVec.toNat_ofNat, decide_eq_true_eq]
  split <;> omega

/-! ## Base words -/

theorem packBase_lt {op l : Nat} (b : Base) (hl : l < 4) (hop : op < 256) : packBase op l b < 2 ^ 32 := by
  have := packHead_lt b.g hl hop
  have := b.d.isLt
  have := b.a.isLt
  have := b.m.isLt
  unfold packBase
  omega

/-- The fields of a base word are read back from its low 32 bits. -/
theorem base_of_mod {w l op : Nat} {b : Base} (hl : l < 4) (hop : op < 256) (h : w % 2 ^ 32 = packBase op l b) :
    lOf w = l ∧ opOf w = op ∧ baseOf w = b := by
  obtain ⟨g, d, a, m⟩ := b
  have hh := packHead_lt g hl hop
  have hd := d.isLt
  have ha := a.isLt
  have hm := m.isLt
  simp only [packBase] at h
  obtain ⟨h1, h2, h3⟩ := head_of_mod (w := w) hl hop (g := g) (by omega)
  refine ⟨h1, h2, ?_⟩
  simp only [baseOf, h3, Base.mk.injEq, true_and]
  exact ⟨ofNat_of_mod (by omega), ofNat_of_mod (by omega), ofNat_of_mod (by omega)⟩

theorem packBase_of (w : Nat) : packBase (opOf w) (lOf w) (baseOf w) = w % 2 ^ 32 := by
  have := packHead_of w
  simp only [packBase, baseOf, this, BitVec.toNat_ofNat]
  omega

/-- A word of the plain or branch shape is read back from its low 32 bits. -/
theorem plain_of_mod {w op : Nat} {g : Guard} {off : BitVec 18} (hop : op < 256) (h : w % 2 ^ 32 = packPlain op g off.toNat) :
    lOf w = 0 ∧ opOf w = op ∧ guardOf w = g ∧ offOf w = off := by
  have hh := packHead_lt g (show 0 < 4 by decide) hop
  have ho := off.isLt
  simp only [packPlain] at h
  obtain ⟨h1, h2, h3⟩ := head_of_mod (w := w) (l := 0) (by decide) hop (g := g) (by omega)
  exact ⟨h1, h2, h3, ofNat_of_mod (by omega)⟩

theorem packPlain_lt {op : Nat} (g : Guard) (off : BitVec 18) (hop : op < 256) : packPlain op g off.toNat < 2 ^ 32 := by
  have := packHead_lt g (show 0 < 4 by decide) hop
  have := off.isLt
  unfold packPlain
  omega

theorem packPlain_of {w : Nat} (hl : lOf w = 0) : packPlain (opOf w) (guardOf w) (offOf w).toNat = w % 2 ^ 32 := by
  have := packHead_of w
  rw [hl] at this
  simp only [packPlain, offOf, this, BitVec.toNat_ofNat]
  omega

/-! ## Extended forms -/

/-- Every operand of an extended form has a code of its own. -/
def Ext.coded (e : Ext) : Prop := Opd.coded e.d ∧ Opd.coded e.a ∧ Opd.coded e.b ∧ Opd.coded e.c


theorem coded_and_isSome_of_extOk01 {op : Nat} {e : Ext} (h : extOk01 op e = true) :
    Ext.coded e ∧ (extInstr op e).isSome = true := by
  unfold extOk01 at h
  split at h <;> simp only [Bool.and_eq_true, Bool.false_eq_true] at h <;>
    exact ⟨by grind [Ext.coded, coded_of_srcOk, coded_of_dstOk, coded_of_unused, coded_of_isS], rfl⟩

theorem coded_and_isSome_of_extOk23 {op : Nat} {e : Ext} (h : extOk23 op e = true) :
    Ext.coded e ∧ (extInstr op e).isSome = true := by
  unfold extOk23 binOk unOk at h
  split at h <;> simp only [Bool.and_eq_true, Bool.false_eq_true] at h <;>
    exact ⟨by grind [Ext.coded, coded_of_srcOk, coded_of_dstOk, coded_of_unused, coded_of_isP], rfl⟩

theorem coded_and_isSome_of_extOk45 {op : Nat} {e : Ext} (h : extOk45 op e = true) :
    Ext.coded e ∧ (extInstr op e).isSome = true := by
  unfold extOk45 binOk unOk at h
  split at h <;> simp only [Bool.and_eq_true, Bool.false_eq_true] at h <;>
    exact ⟨by grind [Ext.coded, coded_of_srcOk, coded_of_dstOk, coded_of_unused, coded_of_isP], rfl⟩

theorem coded_and_isSome_of_extOk67 {op : Nat} {e : Ext} (h : extOk67 op e = true) :
    Ext.coded e ∧ (extInstr op e).isSome = true := by
  unfold extOk67 addrOk at h
  split at h <;> simp only [Bool.and_eq_true, Bool.false_eq_true] at h <;>
    exact ⟨by grind [Ext.coded, coded_of_srcOk, coded_of_dstOk, coded_of_unused, coded_of_isP], rfl⟩

theorem coded_and_isSome_of_extOk89 {op : Nat} {e : Ext} (h : extOk89 op e = true) :
    Ext.coded e ∧ (extInstr op e).isSome = true := by
  unfold extOk89 idxOk at h
  split at h <;> simp only [Bool.and_eq_true, Bool.false_eq_true] at h <;>
    exact ⟨by grind [Ext.coded, coded_of_srcOk, coded_of_dstOk, coded_of_unused, coded_of_isP, coded_of_isW], rfl⟩

theorem coded_and_isSome_of_extOkAC {op : Nat} {e : Ext} (h : extOkAC op e = true) :
    Ext.coded e ∧ (extInstr op e).isSome = true := by
  unfold extOkAC at h
  split at h <;> simp only [Bool.and_eq_true, Bool.false_eq_true] at h <;>
    exact ⟨by grind [Ext.coded, coded_of_srcOk, coded_of_dstOk, coded_of_unused, coded_of_isP, coded_of_isW, coded_of_isT], rfl⟩

theorem coded_and_isSome_of_extOkDE {op : Nat} {e : Ext} (h : extOkDE op e = true) :
    Ext.coded e ∧ (extInstr op e).isSome = true := by
  unfold extOkDE at h
  split at h <;> simp only [Bool.and_eq_true, Bool.false_eq_true] at h <;>
    exact ⟨by grind [Ext.coded, coded_of_srcOk, coded_of_dstOk, coded_of_unused, coded_of_isV], rfl⟩

/-- A legal extended form has operands with codes of their own, and is an instruction. -/
theorem coded_and_isSome_of_extOk {op : Nat} {e : Ext} (h : extOk op e = true) :
    Ext.coded e ∧ (extInstr op e).isSome = true := by
  simp only [extOk, Bool.and_eq_true] at h
  obtain ⟨-, h⟩ := h
  split at h
  · exact coded_and_isSome_of_extOk01 h
  · exact coded_and_isSome_of_extOk01 h
  · exact coded_and_isSome_of_extOk23 h
  · exact coded_and_isSome_of_extOk23 h
  · exact coded_and_isSome_of_extOk45 h
  · exact coded_and_isSome_of_extOk45 h
  · exact coded_and_isSome_of_extOk67 h
  · exact coded_and_isSome_of_extOk67 h
  · exact coded_and_isSome_of_extOk89 h
  · exact coded_and_isSome_of_extOk89 h
  · exact coded_and_isSome_of_extOkDE h
  · exact coded_and_isSome_of_extOkDE h
  · exact coded_and_isSome_of_extOkAC h

/-- Each field of an extended form stands at its place. -/
theorem fields_of_sum {h d a b c t r s m v x i y : Nat} (hh : h < 2 ^ 14) (hd : d < 1024) (ha : a < 1024) (hb : b < 1024)
    (hc : c < 1024) (ht : t < 16) (hr : r < 8) (hs : s < 8) (hm : m < 16) (hv : v < 16) (hx : x < 256) (hi : i < 65536) {w : Nat}
    (hw : w = h + 2 ^ 14 * d + 2 ^ 24 * a + 2 ^ 34 * b + 2 ^ 44 * c + 2 ^ 54 * t + 2 ^ 58 * r + 2 ^ 61 * s + 2 ^ 64 * m + 2 ^ 68 * v +
      2 ^ 72 * x + 2 ^ 80 * i + 2 ^ 96 * y) :
    (w % 2 ^ 14 = h ∧ w / 2 ^ 14 % 1024 = d ∧ w / 2 ^ 24 % 1024 = a ∧ w / 2 ^ 34 % 1024 = b ∧ w / 2 ^ 44 % 1024 = c) ∧
      (w / 2 ^ 54 % 16 = t ∧ w / 2 ^ 58 % 2 ^ 3 = r ∧ w / 2 ^ 61 % 8 = s ∧ w / 2 ^ 64 % 2 ^ 4 = m) ∧
        w / 2 ^ 68 % 16 = v ∧ w / 2 ^ 72 % 2 ^ 8 = x ∧ w / 2 ^ 80 % 2 ^ 16 = i ∧ w / 2 ^ 96 = y := by
  subst hw
  refine ⟨⟨?_, ?_, ?_, ?_, ?_⟩, ⟨?_, ?_, ?_, ?_⟩, ?_, ?_, ?_, ?_⟩ <;> omega

/-- The value of a literal, 0 where there is none. -/
def litValue (l : Option DWord) : Nat := match l with | none => 0 | some y => y.toNat

/-- The length field of an extended form. -/
def Ext.lengthField (e : Ext) : Nat := if e.lit.isSome then 3 else 1

theorem lengthField_lt (e : Ext) : e.lengthField < 4 := by unfold Ext.lengthField; split <;> decide

theorem litValue_lt (e : Ext) : litValue e.lit < 2 ^ 64 ∧ (e.lengthField = 1 → litValue e.lit = 0) := by
  obtain ⟨g, d, a, b, c, ty, rnd, sc, mod, view, aux, imm, lit⟩ := e
  cases lit with
  | none => exact ⟨by simp [litValue], fun _ => rfl⟩
  | some y => exact ⟨y.isLt, nofun⟩

/-- The number that an extended form's words form, as one sum. -/
def packSum (l op : Nat) (e : Ext) (y : Nat) : Nat :=
  packHead l op e.g + 2 ^ 14 * opdCode e.d + 2 ^ 24 * opdCode e.a + 2 ^ 34 * opdCode e.b + 2 ^ 44 * opdCode e.c +
    2 ^ 54 * e.ty.code + 2 ^ 58 * e.rnd.toNat + 2 ^ 61 * scopeCode e.scope + 2 ^ 64 * e.mod.toNat + 2 ^ 68 * viewCode e.view +
    2 ^ 72 * e.aux.toNat + 2 ^ 80 * e.imm.toNat + 2 ^ 96 * y

theorem packExt_eq (op : Nat) (e : Ext) :
    packExt op e = (lengthWords e.lengthField, packSum e.lengthField op e (litValue e.lit)) := by
  obtain ⟨g, d, a, b, c, ty, rnd, sc, mod, view, aux, imm, lit⟩ := e
  cases lit <;> cases view <;> rfl

/-- An extended form whose operands have codes of their own is read back from its words. -/
theorem ext_of_packSum {w op : Nat} {e : Ext} (hop : op < 256) (hc : e.coded) (hw : w = packSum e.lengthField op e (litValue e.lit)) :
    lOf w = e.lengthField ∧ opOf w = op ∧ extOf w = some e := by
  obtain ⟨hcd, hca, hcb, hcc⟩ := hc
  obtain ⟨⟨fh, fd, fa, fb, fc⟩, ⟨ft, fr, fs, fm⟩, fv, fx, fi, fy⟩ := fields_of_sum (packHead_lt e.g (lengthField_lt e) hop)
    (opdCode_lt e.d) (opdCode_lt e.a) (opdCode_lt e.b) (opdCode_lt e.c) (code_lt e.ty) e.rnd.isLt (scopeCode_lt e.scope)
    e.mod.isLt (viewCode_lt e.view) e.aux.isLt e.imm.isLt hw
  obtain ⟨hl, ho, hg⟩ := head_of_mod (lengthField_lt e) hop fh
  refine ⟨hl, ho, ?_⟩
  have hlit : (if w % 4 = 3 then some (BitVec.ofNat 64 (w / 2 ^ 96)) else none) = e.lit := by
    rw [show w % 4 = e.lengthField from hl, fy]
    obtain ⟨g, d, a, b, c, ty, rnd, sc, mod, view, aux, imm, lit⟩ := e
    cases lit with
    | none => rfl
    | some y => simp [Ext.lengthField, litValue]
  simp only [extOf, opdOf_of_mod hcd fd, opdOf_of_mod hca fa, opdOf_of_mod hcb fb, opdOf_of_mod hcc fc, fs, scopeOf_scopeCode, fv,
    viewOf_viewCode, hg, ft, ofCode_code, ofNat_of_mod fr, ofNat_of_mod fm, ofNat_of_mod fx, ofNat_of_mod fi, hlit]

theorem packSum_lt {op : Nat} (e : Ext) (hop : op < 256) :
    packSum e.lengthField op e (litValue e.lit) < 2 ^ (32 * lengthWords e.lengthField) := by
  have h1 := packHead_lt e.g (lengthField_lt e) hop
  have h2 := opdCode_lt e.d
  have h3 := opdCode_lt e.a
  have h4 := opdCode_lt e.b
  have h5 := opdCode_lt e.c
  have h6 := code_lt e.ty
  have h7 := e.rnd.isLt
  have h8 := scopeCode_lt e.scope
  have h9 := e.mod.isLt
  have h10 := viewCode_lt e.view
  have h11 := e.aux.isLt
  have h12 := e.imm.isLt
  obtain ⟨h13, h14⟩ := litValue_lt e
  unfold packSum
  generalize litValue e.lit = y at *
  have hl : e.lengthField = 1 ∨ e.lengthField = 3 := by unfold Ext.lengthField; split <;> simp
  rcases hl with hl | hl
  · have := h14 hl
    simp only [hl, lengthWords] at *
    omega
  · simp only [hl, lengthWords] at *
    omega

/-- The fields of an extended form make up its low 96 bits. -/
theorem sum_of_fields (w : Nat) :
    w % 2 ^ 14 + 2 ^ 14 * (w / 2 ^ 14 % 1024) + 2 ^ 24 * (w / 2 ^ 24 % 1024) + 2 ^ 34 * (w / 2 ^ 34 % 1024) +
      2 ^ 44 * (w / 2 ^ 44 % 1024) + 2 ^ 54 * (w / 2 ^ 54 % 16) + 2 ^ 58 * (w / 2 ^ 58 % 2 ^ 3) + 2 ^ 61 * (w / 2 ^ 61 % 8) +
      2 ^ 64 * (w / 2 ^ 64 % 2 ^ 4) + 2 ^ 68 * (w / 2 ^ 68 % 16) + 2 ^ 72 * (w / 2 ^ 72 % 2 ^ 8) + 2 ^ 80 * (w / 2 ^ 80 % 2 ^ 16) =
    w % 2 ^ 96 := by omega

/-- The fields read from a number make up the number again. -/
theorem packSum_of_extOf {w : Nat} {e : Ext} (h : extOf w = some e) (y : Nat) :
    packSum (lOf w) (opOf w) e y = w % 2 ^ 96 + 2 ^ 96 * y ∧
      e.lit = if lOf w = 3 then some (BitVec.ofNat 64 (w / 2 ^ 96)) else none := by
  unfold extOf at h
  split at h
  case h_2 => cases h
  next d a b c sc v hd ha hb hc hs hv =>
    obtain rfl := Option.some.inj h
    refine ⟨?_, rfl⟩
    simp only [packSum, BitVec.toNat_ofNat, packHead_of, opdCode_of_opdOf hd, opdCode_of_opdOf ha, opdCode_of_opdOf hb,
      opdCode_of_opdOf hc, scopeCode_of_scopeOf hs, viewCode_of_viewOf (Nat.mod_lt _ (by decide)) hv,
      code_ofCode _ (Nat.mod_lt _ (show 0 < 16 by decide))]
    rw [sum_of_fields]

/-- The words that an extended form was read from are its words. -/
theorem packExt_of_extOf {w : Nat} {e : Ext} (hl : lOf w = 1 ∨ lOf w = 3) (h : extOf w = some e) :
    packExt (opOf w) e = (lengthWords (lOf w), w % 2 ^ (32 * lengthWords (lOf w))) := by
  obtain ⟨hsum, hlit⟩ := packSum_of_extOf h (litValue e.lit)
  have hlen : e.lengthField = lOf w := by
    unfold Ext.lengthField
    rcases hl with hl | hl <;> simp [hlit, hl]
  rw [packExt_eq, hlen, hsum]
  refine Prod.ext rfl ?_
  rcases hl with hl | hl
  · simp [hlit, hl, litValue, lengthWords]
  · simp only [hlit, hl, litValue, lengthWords, if_true, BitVec.toNat_ofNat]
    omega

/-! ## From an instruction to its words and back -/

/-- The instruction is well formed, and its words are legal and decode to it. -/
def RoundTrips (i : Instr) : Prop :=
  ∀ n w : Nat, i.wf = true → encode i = some (n, w) → decodeNat w = i ∧ n = lengthWords (lOf w) ∧ w < 2 ^ (32 * n)

theorem roundTrips_of_none {i : Instr} (h : encode i = none) : RoundTrips i := fun _ _ _ he => by rw [h] at he; cases he

theorem decodeNat_legal {w : Nat} {i : Instr} (ho : opOf w ≠ 0xFF) (hl : (cellLengths (opOf w)).contains (lOf w) = true)
    (hk : operandsOk w = true) (hi : legalInstr w = some i) : decodeNat w = i := by
  have hw : legalWords w = true := by simp only [legalWords, badOpcode, hl, hk, ho, decide_false]; rfl
  rw [decodeNat, if_neg ho, if_pos hw, hi]
  rfl

theorem contains_of_extOk {op : Nat} {e : Ext} (h : extOk op e = true) : (cellLengths op).contains e.lengthField = true := by
  simp only [extOk, Bool.and_eq_true] at h
  exact h.1.1

theorem contains_of_baseOk {op l : Nat} {b : Base} (h : baseOk op l b = true) : (cellLengths op).contains l = true := by
  simp only [baseOk, Bool.and_eq_true] at h
  exact h.1

theorem roundTrips_packExt {i : Instr} {op : Nat} {e : Ext} (hop : op < 255) (hk : extOk op e = true) (hi : extInstr op e = some i) :
    decodeNat (packExt op e).2 = i ∧ (packExt op e).1 = lengthWords (lOf (packExt op e).2) ∧
      (packExt op e).2 < 2 ^ (32 * (packExt op e).1) := by
  rw [packExt_eq]
  obtain ⟨hl, ho, hx⟩ := ext_of_packSum (show op < 256 by omega) (coded_and_isSome_of_extOk hk).1 rfl
  refine ⟨?_, by rw [hl], packSum_lt e (by omega)⟩
  generalize packSum e.lengthField op e (litValue e.lit) = w at hl ho hx ⊢
  have hlen : e.lengthField = 1 ∨ e.lengthField = 3 := by unfold Ext.lengthField; split <;> simp
  refine decodeNat_legal (by rw [ho]; omega) (by rw [ho, hl]; exact contains_of_extOk hk) ?_ ?_
  · rcases hlen with h | h <;> simpa only [operandsOk, hl, h, hx, ho] using hk
  · rcases hlen with h | h <;> simpa only [legalInstr, hl, h, hx, ho] using hi

theorem roundTrips_ext {i : Instr} {op : Nat} {e : Ext} (hop : op < 255) (hw : i.wf = extOk op e) (he : encode i = some (packExt op e))
    (hi : extInstr op e = some i) : RoundTrips i := by
  intro n w hwf hnw
  rw [he] at hnw
  obtain ⟨rfl, rfl⟩ := Prod.mk.inj (Option.some.inj hnw)
  exact roundTrips_packExt hop (hw ▸ hwf) hi

/-- The cell has base forms with registers (R95). -/
def regCell (op : Nat) : Bool := decide (op < 255) && !(isPlainCell op) && !(isBranchCell op) 

theorem regCell_iff {op : Nat} : regCell op = true ↔ op < 255 ∧ isPlainCell op = false ∧ isBranchCell op = false := by
  simp [regCell, and_assoc]

theorem roundTrips_base {i : Instr} {op : Nat} {b : Base} (hop : regCell op = true) (hw : i.wf = baseOk op 0 b)
    (he : encode i = some (1, packBase op 0 b)) (hi : baseInstr op b = some i) : RoundTrips i := by
  intro n w hwf hnw
  rw [he] at hnw
  obtain ⟨rfl, rfl⟩ := Prod.mk.inj (Option.some.inj hnw)
  obtain ⟨hop, hp, hb⟩ := regCell_iff.mp hop
  have hlt := packBase_lt b (show 0 < 4 by decide) (show op < 256 by omega)
  obtain ⟨hl, ho, hx⟩ := base_of_mod (w := packBase op 0 b) (show 0 < 4 by decide) (show op < 256 by omega) (Nat.mod_eq_of_lt hlt)
  refine ⟨decodeNat_legal (by omega) (by rw [ho, hl]; exact contains_of_baseOk (hw ▸ hwf)) ?_ ?_, by rw [hl]; rfl, hlt⟩
  · simpa only [operandsOk, hl, ho, hx, hp, hb] using hw ▸ hwf
  · have h1 : op ≠ 0x01 := by rintro rfl; cases hb
    have h3 : op ≠ 0x03 := by rintro rfl; cases hb
    simpa only [legalInstr, hl, ho, hx, hp, h1, h3, Bool.false_eq_true, if_false] using hi

/-- A base word with its literal is read back. -/
theorem lit_of_sum {w op : Nat} {b : Base} {x : DWord} (hop : op < 256) (hw : w = packBase op 2 b + 2 ^ 32 * x.toNat) :
    lOf w = 2 ∧ opOf w = op ∧ baseOf w = b ∧ lit2Of w = x ∧ w < 2 ^ 96 := by
  have hlt := packBase_lt b (show 2 < 4 by decide) hop
  have hx := x.isLt
  obtain ⟨hl, ho, hb⟩ := base_of_mod (w := w) (show 2 < 4 by decide) hop (b := b) (by omega)
  exact ⟨hl, ho, hb, ofNat_of_mod (by omega), by omega⟩

theorem decodeNat_lit {i : Instr} {op w : Nat} {b : Base} {x : DWord} (hop : regCell op = true) (hk : baseOk op 2 b = true)
    (hw : w = packBase op 2 b + 2 ^ 32 * x.toNat) (hi : (if op = 0x2F then some (.moviLit b.g b.d b.m x) else litInstr op b x) = some i) :
    decodeNat w = i ∧ 3 = lengthWords (lOf w) ∧ w < 2 ^ (32 * 3) := by
  obtain ⟨hop, hp, hb⟩ := regCell_iff.mp hop
  obtain ⟨hl, ho, hx, hy, hlt⟩ := lit_of_sum (show op < 256 by omega) hw
  refine ⟨decodeNat_legal (by omega) (by rw [ho, hl]; exact contains_of_baseOk hk) ?_ ?_, by rw [hl]; rfl, hlt⟩
  · simpa only [operandsOk, hl, ho, hx, hb, Bool.false_eq_true, if_false] using hk
  · have h1 : op ≠ 0x01 := by rintro rfl; cases hb
    have h3 : op ≠ 0x03 := by rintro rfl; cases hb
    have hg : guardOf w = b.g := by rw [← hx]; rfl
    simpa only [legalInstr, hl, ho, hx, hy, hg, h1, h3, if_false] using hi

theorem roundTrips_long {i : Instr} {op : Nat} {f : Long} (hop : regCell op = true) (hw : i.wf = longOk op f)
    (he : encode i = some (packLong op f))
    (hi : (match f with | .lit b x => if op = 0x2F then some (.moviLit b.g b.d b.m x) else litInstr op b x | .ext e => extInstr op e) = some i) :
    RoundTrips i := by
  intro n w hwf hnw
  rw [he] at hnw
  cases f with
  | lit b x =>
    obtain ⟨rfl, rfl⟩ := Prod.mk.inj (Option.some.inj hnw)
    exact decodeNat_lit hop (hw.symm.trans hwf) rfl hi
  | ext e => exact roundTrips_ext (regCell_iff.mp hop).1 hw he hi n w hwf (he.trans hnw)

/-- A word of the plain or branch shape is read back. -/
theorem decodeNat_plain {i : Instr} {op : Nat} {g : Guard} {off : BitVec 18} (hop : op < 255) (hc : (cellLengths op).contains 0 = true)
    (hs : isPlainCell op = true ∧ off = 0 ∨ isPlainCell op = false ∧ isBranchCell op = true)
    (hi : (if isPlainCell op then plainInstr op g else if op = 0x01 then some (.bra g off) else some (.call g off)) = some i) :
    let w := packPlain op g off.toNat
    decodeNat w = i ∧ 1 = lengthWords (lOf w) ∧ w < 2 ^ (32 * 1) := by
  intro w
  have hlt : w < 2 ^ 32 := packPlain_lt g off (show op < 256 by omega)
  obtain ⟨hl, ho, hg, hf⟩ := plain_of_mod (w := w) (show op < 256 by omega) (Nat.mod_eq_of_lt hlt)
  refine ⟨decodeNat_legal (by omega) (by rw [ho, hl]; exact hc) ?_ ?_, by rw [hl]; rfl, hlt⟩
  · rcases hs with ⟨hp, rfl⟩ | ⟨hp, hb⟩
    · simp [operandsOk, hl, ho, hp, hf]
    · simp [operandsOk, hl, ho, hp, hb]
  · rcases hs with ⟨hp, rfl⟩ | ⟨hp, hb⟩
    · simpa only [legalInstr, hl, ho, hg, hf, hp, if_true] using hi
    · have : op = 0x01 ∨ op = 0x03 := by simpa [isBranchCell] using hb
      rcases this with rfl | rfl <;> simpa [legalInstr, hl, ho, hg, hf, isPlainCell] using hi

/-- A branch with a literal is read back. -/
theorem decodeNat_braLit {i : Instr} {op : Nat} {g : Guard} {x : DWord} (hop : op = 0x01 ∨ op = 0x03) (hx : x.toNat % 4 = 0)
    (hi : (if op = 0x01 then some (.braLit g x) else some (.callLit g x)) = some i) :
    decodeNat (packLit op g x) = i ∧ 3 = lengthWords (lOf (packLit op g x)) ∧ packLit op g x < 2 ^ (32 * 3) := by
  have hop' : op < 256 := by omega
  have hlt := packHead_lt g (show 2 < 4 by decide) hop'
  have hlt' := x.isLt
  have hw : packLit op g x = packHead 2 op g + 2 ^ 32 * x.toNat := rfl
  generalize packLit op g x = w at hw ⊢
  obtain ⟨hl, ho, hg⟩ := head_of_mod (w := w) (show 2 < 4 by decide) hop' (g := g) (by omega)
  have hf : offOf w = 0 := ofNat_of_mod (by simp; omega)
  have hy : lit2Of w = x := ofNat_of_mod (by omega)
  have h4 : w / 2 ^ 32 % 4 = 0 := by omega
  refine ⟨decodeNat_legal (by omega) ?_ ?_ ?_, by rw [hl]; rfl, by omega⟩
  · rw [ho, hl]; rcases hop with rfl | rfl <;> rfl
  · rcases hop with rfl | rfl <;> simp only [operandsOk, hl, ho, hf, h4] <;> rfl
  · rcases hop with rfl | rfl <;> simpa [legalInstr, hl, ho, hg, hy] using hi

theorem lOf_raw {r : Raw} (h : rawWf r = true) :
    lOf r.bits.toNat = r.l.toNat ∧ rawOf r.bits.toNat = r ∧ r.bits.toNat < 2 ^ (32 * lengthWords r.l.toNat) := by
  simp only [rawWf, Bool.and_eq_true, decide_eq_true_eq] at h
  obtain ⟨hl, hb⟩ := h
  have hl' : lOf r.bits.toNat = r.l.toNat := hl
  refine ⟨hl', ?_, hb⟩
  obtain ⟨l, bits⟩ := r
  simp only [rawOf, hl', Nat.mod_eq_of_lt hb, BitVec.ofNat_toNat, BitVec.setWidth_eq, Raw.mk.injEq, and_true]
  exact ofNat_of_mod hl

theorem roundTrips_udfExt (r : Raw) : RoundTrips (.udfExt r) := by
  intro n w hwf hnw
  obtain ⟨rfl, rfl⟩ := Prod.mk.inj (Option.some.inj hnw)
  simp only [Instr.wf, Bool.and_eq_true, decide_eq_true_eq] at hwf
  obtain ⟨⟨hr, h0⟩, ho⟩ := hwf
  obtain ⟨hl, hraw, hlt⟩ := lOf_raw hr
  have h0' : lOf r.bits.toNat ≠ 0 := fun h => h0 (BitVec.eq_of_toNat_eq (hl.symm.trans h))
  exact ⟨by rw [decodeNat, if_pos ho, if_neg h0', hraw], by rw [hl], hlt⟩

theorem roundTrips_reservedCell (r : Raw) : RoundTrips (.reservedCell r) := by
  intro n w hwf hnw
  obtain ⟨rfl, rfl⟩ := Prod.mk.inj (Option.some.inj hnw)
  simp only [Instr.wf, Bool.and_eq_true, decide_eq_true_eq, Bool.not_eq_true'] at hwf
  obtain ⟨⟨hr, ho⟩, hk⟩ := hwf
  obtain ⟨hl, hraw, hlt⟩ := lOf_raw hr
  exact ⟨by rw [decodeNat, if_neg ho, if_neg (by simp [hk]), hraw], by rw [hl], hlt⟩

theorem roundTrips_udf (g : Guard) (off : BitVec 18) : RoundTrips (.udf g off) := by
  intro n w _ hnw
  obtain ⟨rfl, rfl⟩ := Prod.mk.inj (Option.some.inj hnw)
  have hlt := packPlain_lt g off (show 0xFF < 256 by decide)
  obtain ⟨hl, ho, hg, hf⟩ := plain_of_mod (show 0xFF < 256 by decide) (Nat.mod_eq_of_lt hlt)
  exact ⟨by rw [decodeNat, if_pos ho, if_pos hl, hg, hf], by rw [hl]; rfl, hlt⟩

theorem roundTrips (i : Instr) : RoundTrips i := by
  cases i with
  | coldStart _ | warmStart _ | imageLoad | doorbell _ _ | registerWrite _ _ | partSet | ctxSet | queueCreate | queueDestroy
  | nearSet | faultResp | tlbInval | ctxSuspend | mailboxUnknown | grid _ | graph _ | signal _ | barrierAnd _
  | barrierAndComplete _ | badpacket _ | packetStart _ | launchStart _ | gridCompletion _ | pendingLaunchDrain _ | dieQueueStart _
  | abortKill _ | crewDispatch _ | wakeUp _ | crewSwapIn _ | stealRequest _ _ _ | stealAnswer _ _ | splitBoost _ | priorityAgeing _
  | sleepExpiry _ | watchdog _ | deferredTrap _ | restore _ | laneSelfCheck _ _ | bankCopyDone _ _ | sliceRetirement _ _
  | sliceRemap _ | pseudoChannelRetirement _ _ | pcmapUpdate _ | uncorrectableError _ | neighbourRefresh _ _ | accessAged _ _
  | pageWalk _ _ | faultRingPoll _ | loadDataReturn _ _ | storeArrival _ | writeBack _ _ _ | copyComplete _ _ | copyPark _ _
  | cancelEnd _ _ _ | followOnIssue _ _ | cpymParked _ _ | drainComplete _ _ | tileOpEnd _ _ | nmvComplete _ _
  | handoffDelivery _ _ _ _ | heldPathReady _ | backPressurePublish _ | phaseCounterAdvance _ _ | waitmRecheck _ | blackboxCopy
  | throttleChange _ | hostWrite _ _ | hostRead _ _ | peerWrite _ _ | correctedError _ _ | hostAtomicCas _ _ _ _ | peerRead _ _
  | peerBankOperation _ _ _ _ | debuggerHalt _ _ | stoendPortLoss _ => exact roundTrips_of_none rfl
  | brx e | callx e | loop e | pand e | por e | pxor e | pnot e | pmov e | voteAll e | voteAny e | voteBallot e | shflIdx e
  | shflUp e | shflDown e | shflXor e | matchAny e | matchAll e | reds e | scan e | imad e | inegExt e | iabsExt e | iset e
  | iaddc e | sel e | movExt e | notExt e | clzExt e | ctzExt e | popcExt e | brevExt e | bfx e | bfi e | prmt e | ffma e
  | fsqrtExt e | frcpExt e | frsqExt e | fexp2Ext e | flog2Ext e | fsinExt e | fcosExt e | fset e | fclass e | fabsExt e
  | fnegExt e | frnd e | fscale e | fdot2 e | fcvt e | cvt e | hput e | hseal e | hgen e | hstat e | ldAcq e | stRel e | atom e
  | atomRet e | cas e | red e | prf e | lea e | pfence e | vdef e | vset e | vdrop e | vret e | vacq e | vmeet e | vqry e | vaddr e
  | ldv e | stv e | cpy e | cpym e | cdrain e | cwaitAll e | cwaitAny e | cfind e | ctestAll e | ctestAny e | ckill e | mma e
  | mzero e | mlda e | msta e | mtrn e | mperm e | mred e | nmv e | bar e | barc e | waitm e | phase e | phwait e | launch e
  | launchTry e | lstat e | sleep e | prio e | hops e | csrr e | csrw e | trap e | trapret e | rplq e | rplw e | wdog e | tlbi e
  | icinv e | iaddX2 e | isubX2 e | imulX2 e | imadX2 e | iminX2 e | imaxX2 e | iabsX2 e | inegX2 e | shlX2 e | shrX2 e | sarX2 e
  | iaddX4 e | isubX4 e | iminX4 e | imaxX4 e | iabsX4 e | faddX2 e | fsubX2 e | fmulX2 e | ffmaX2 e | fminX2 e | fmaxX2 e
  | fabsX2 e | fnegX2 e | frndX2 e | vxr e | vxw e => exact roundTrips_ext (by decide) rfl rfl rfl
  | iadd b | isub b | imul b | imulh b | idiv b | irem b | ineg b | iabs b | imin b | imax b | mov b | movi b | andW b | andn b
  | orW b | xorW b | notW b | shl b | shr b | sar b | rol b | clz b | ctz b | popc b | brev b | fadd b | fsub b | fmul b | fdiv b
  | fsqrt b | frcp b | frsq b | fexp2 b | flog2 b | fsin b | fcos b | fmin b | fmax b | fabs b | fneg b | ldG b | ldL b | ldP b
  | ldK b | stG b | stL b | stP b => exact roundTrips_base (by decide) rfl rfl rfl
  | iaddExt f | isubExt f | imulExt f | imulhExt f | idivExt f | iremExt f | iminExt f | imaxExt f | andExt f | andnExt f | orExt f
  | xorExt f | shlExt f | shrExt f | sarExt f | rolExt f | faddExt f | fsubExt f | fmulExt f | fdivExt f | fminExt f | fmaxExt f
  | ldGExt f | ldLExt f | ldPExt f | ldKExt f | stGExt f | stLExt f | stPExt f => exact roundTrips_long (by decide) rfl rfl (by cases f <;> rfl)
  | nop g | ret g | exit g | yield g | bkpt g =>
    intro n w _ hnw
    obtain ⟨rfl, rfl⟩ := Prod.mk.inj (Option.some.inj hnw)
    exact decodeNat_plain (off := 0) (by decide) rfl (.inl ⟨rfl, rfl⟩) rfl
  | bra g off | call g off =>
    intro n w _ hnw
    obtain ⟨rfl, rfl⟩ := Prod.mk.inj (Option.some.inj hnw)
    exact decodeNat_plain (by decide) rfl (.inr ⟨rfl, rfl⟩) rfl
  | braLit g x | callLit g x =>
    intro n w hwf hnw
    obtain ⟨rfl, rfl⟩ := Prod.mk.inj (Option.some.inj hnw)
    exact decodeNat_braLit (by decide) (of_decide_eq_true hwf) rfl
  | moviLit g d m x =>
    intro n w hwf hnw
    obtain ⟨rfl, rfl⟩ := Prod.mk.inj (Option.some.inj hnw)
    exact decodeNat_lit (b := { g := g, d := d, a := 0, m := m }) (x := x) (by decide) hwf (by rw [Nat.mul_comm]) rfl
  | udf g off => exact roundTrips_udf g off
  | udfExt r => exact roundTrips_udfExt r
  | reservedCell r => exact roundTrips_reservedCell r

/-- Settles O2: every constructor's row of the encoder is its row of the decoder, and each shape of word is read back field by field. -/
theorem roundTrip : Obligations.RoundTrip := roundTrips

/-! ## From words to an instruction and back -/

/-- The instruction of an extended form in its cell has that form. -/
def HasExt (op : Nat) (e : Ext) (i : Instr) : Prop := i.wf = extOk op e ∧ encode i = some (packExt op e)

theorem hasExt_of_extInstr0 {op : Nat} {e : Ext} {i : Instr} (h : extInstr0 op e = some i) : HasExt op e i := by
  unfold extInstr0 at h
  split at h <;> cases h <;> exact ⟨rfl, rfl⟩

theorem hasExt_of_extInstr1 {op : Nat} {e : Ext} {i : Instr} (h : extInstr1 op e = some i) : HasExt op e i := by
  unfold extInstr1 at h
  split at h <;> cases h <;> exact ⟨rfl, rfl⟩

theorem hasExt_of_extInstr2 {op : Nat} {e : Ext} {i : Instr} (h : extInstr2 op e = some i) : HasExt op e i := by
  unfold extInstr2 at h
  split at h <;> cases h <;> exact ⟨rfl, rfl⟩

theorem hasExt_of_extInstr {op : Nat} {e : Ext} {i : Instr} (h : extInstr op e = some i) : HasExt op e i := by
  unfold extInstr at h
  split_ifs at h
  · exact hasExt_of_extInstr0 h
  · exact hasExt_of_extInstr1 h
  · exact hasExt_of_extInstr2 h

theorem base_of_baseInstr {op : Nat} {b : Base} {i : Instr} (h : baseInstr op b = some i) :
    i.wf = baseOk op 0 b ∧ encode i = some (1, packBase op 0 b) := by
  unfold baseInstr at h
  split at h <;> cases h <;> exact ⟨rfl, rfl⟩

theorem lit_of_litInstr {op : Nat} {b : Base} {x : DWord} {i : Instr} (h : litInstr op b x = some i) :
    i.wf = baseOk op 2 b ∧ encode i = some (3, packBase op 2 b + 2 ^ 32 * x.toNat) := by
  unfold litInstr at h
  split at h <;> cases h <;> exact ⟨rfl, rfl⟩

/-! ## Every legal form of a cell is an instruction -/

theorem isSome_extInstr_of_extOk {op : Nat} {e : Ext} (h : extOk op e = true) : (extInstr op e).isSome = true :=
  (coded_and_isSome_of_extOk h).2

theorem isSome_baseInstr (op : Nat) (b b' : Base) : (baseInstr op b).isSome = (baseInstr op b').isSome := by
  unfold baseInstr
  split <;> rfl

theorem isSome_litInstr (op : Nat) (b b' : Base) (x x' : DWord) : (litInstr op b x).isSome = (litInstr op b' x').isSome := by
  unfold litInstr
  split <;> rfl

/-- The base word of zeros. -/
def zeroBase : Base := { g := { reg := 0, neg := false }, d := 0, a := 0, m := 0 }

/-- The cells that allow the base form have an instruction of that form: row by row of R107. -/
theorem base_rows : ∀ r, r < 16 → ∀ c, c < 16 → regCell (16 * r + c) = true → (cellLengths (16 * r + c)).contains 0 = true →
    (baseInstr (16 * r + c) zeroBase).isSome = true := by decide

theorem lit_rows : ∀ r, r < 16 → ∀ c, c < 16 → regCell (16 * r + c) = true → 16 * r + c ≠ 0x2F →
    (cellLengths (16 * r + c)).contains 2 = true → (litInstr (16 * r + c) zeroBase 0).isSome = true := by decide

/-- Plain cells have the length of one word alone. -/
theorem plain_rows : ∀ r, r < 16 → ∀ c, c < 16 → isPlainCell (16 * r + c) = true → (cellLengths (16 * r + c)).contains 2 = false := by
  decide

theorem eq_row (op : Nat) : 16 * (op / 16) + op % 16 = op := by omega

theorem isSome_baseInstr_of_baseOk {op : Nat} {b : Base} (hop : regCell op = true) (h : baseOk op 0 b = true) :
    (baseInstr op b).isSome = true := by
  have := (regCell_iff.mp hop).1
  have := base_rows (op / 16) (by omega) (op % 16) (by omega)
  rw [eq_row] at this
  exact (isSome_baseInstr op b zeroBase).trans (this hop (contains_of_baseOk h))

theorem isSome_litInstr_of_baseOk {op : Nat} {b : Base} {x : DWord} (hop : regCell op = true) (hm : op ≠ 0x2F)
    (h : baseOk op 2 b = true) : (litInstr op b x).isSome = true := by
  have := (regCell_iff.mp hop).1
  have := lit_rows (op / 16) (by omega) (op % 16) (by omega)
  rw [eq_row] at this
  exact (isSome_litInstr op b zeroBase x 0).trans (this hop hm (contains_of_baseOk h))

/-! ## The decoder is faithful -/

/-- The instruction is well formed, and its words are those of `w`. -/
def Faithful (w : Nat) (i : Instr) : Prop :=
  i.wf = true ∧ encode i = some (lengthWords (lOf w), w % 2 ^ (32 * lengthWords (lOf w)))

theorem rawWf_rawOf (w : Nat) : rawWf (rawOf w) = true ∧ rawWords (rawOf w) = (lengthWords (lOf w), w % 2 ^ (32 * lengthWords (lOf w))) ∧
    (rawOf w).l.toNat = lOf w := by
  have hl : (BitVec.ofNat 2 w).toNat = lOf w := BitVec.toNat_ofNat ..
  have hb : w % 2 ^ (32 * lengthWords (lOf w)) < 2 ^ 160 := by
    refine (Nat.mod_lt _ (by positivity)).trans_le (Nat.pow_le_pow_right (by decide) ?_)
    unfold lengthWords
    split <;> decide
  have ht : (BitVec.ofNat 160 (w % 2 ^ (32 * lengthWords (lOf w)))).toNat = w % 2 ^ (32 * lengthWords (lOf w)) := by
    rw [BitVec.toNat_ofNat, Nat.mod_eq_of_lt hb]
  have h4 : 4 ∣ 2 ^ (32 * lengthWords (lOf w)) := by
    refine (show (4 : Nat) = 2 ^ 2 by rfl) ▸ Nat.pow_dvd_pow 2 ?_
    unfold lengthWords
    split <;> decide
  refine ⟨?_, ?_, hl⟩
  · simp only [rawWf, rawOf, ht, hl, Bool.and_eq_true, decide_eq_true_eq]
    exact ⟨Nat.mod_mod_of_dvd w h4, Nat.mod_lt _ (by positivity)⟩
  · simp only [rawWords, rawOf, ht, hl]

theorem ofNat_congr {n x y : Nat} (h : x % 2 ^ n = y % 2 ^ n) : BitVec.ofNat n x = BitVec.ofNat n y :=
  ofNat_of_mod (by rw [h, BitVec.toNat_ofNat])

theorem opdOf_congr {x y : Nat} (h : x % 1024 = y % 1024) : opdOf x = opdOf y := by rw [← opdOf_mod, h, opdOf_mod]

theorem head_congr {v w : Nat} (h : v % 2 ^ 14 = w % 2 ^ 14) : lOf v = lOf w ∧ opOf v = opOf w ∧ guardOf v = guardOf w := by
  refine ⟨by unfold lOf; omega, by unfold opOf; omega, ?_⟩
  have hn : v / 2 ^ 13 % 2 = w / 2 ^ 13 % 2 := by omega
  simp only [guardOf, hn, ofNat_congr (show v / 2 ^ 10 % 2 ^ 3 = w / 2 ^ 10 % 2 ^ 3 by omega)]

theorem base_congr {v w : Nat} (h : v % 2 ^ 32 = w % 2 ^ 32) : baseOf v = baseOf w ∧ offOf v = offOf w := by
  have hg := (head_congr (v := v) (w := w) (by omega)).2.2
  refine ⟨?_, ofNat_congr (by omega)⟩
  simp only [baseOf, hg, ofNat_congr (show v / 2 ^ 14 % 2 ^ 8 = w / 2 ^ 14 % 2 ^ 8 by omega),
    ofNat_congr (show v / 2 ^ 22 % 2 ^ 8 = w / 2 ^ 22 % 2 ^ 8 by omega), ofNat_congr (show v / 2 ^ 30 % 2 ^ 2 = w / 2 ^ 30 % 2 ^ 2 by omega)]

/-- An extended form is read from its words alone. -/
theorem ext_congr {v w : Nat} (h : v % 2 ^ 96 = w % 2 ^ 96) (h3 : w % 4 = 3 → v % 2 ^ 160 = w % 2 ^ 160) : extOf v = extOf w := by
  have hg := (head_congr (v := v) (w := w) (by omega)).2.2
  have hl : (if v % 4 = 3 then some (BitVec.ofNat 64 (v / 2 ^ 96)) else none) =
      if w % 4 = 3 then some (BitVec.ofNat 64 (w / 2 ^ 96)) else none := by
    rw [show v % 4 = w % 4 by omega]
    split_ifs with hw
    · have := h3 hw
      rw [ofNat_congr (show v / 2 ^ 96 % 2 ^ 64 = w / 2 ^ 96 % 2 ^ 64 by omega)]
    · rfl
  simp only [extOf, hg, hl, opdOf_congr (show v / 2 ^ 14 % 1024 = w / 2 ^ 14 % 1024 by omega),
    opdOf_congr (show v / 2 ^ 24 % 1024 = w / 2 ^ 24 % 1024 by omega), opdOf_congr (show v / 2 ^ 34 % 1024 = w / 2 ^ 34 % 1024 by omega),
    opdOf_congr (show v / 2 ^ 44 % 1024 = w / 2 ^ 44 % 1024 by omega), show v / 2 ^ 61 % 8 = w / 2 ^ 61 % 8 by omega,
    show v / 2 ^ 68 % 16 = w / 2 ^ 68 % 16 by omega, show v / 2 ^ 54 % 16 = w / 2 ^ 54 % 16 by omega,
    ofNat_congr (show v / 2 ^ 58 % 2 ^ 3 = w / 2 ^ 58 % 2 ^ 3 by omega), ofNat_congr (show v / 2 ^ 64 % 2 ^ 4 = w / 2 ^ 64 % 2 ^ 4 by omega),
    ofNat_congr (show v / 2 ^ 72 % 2 ^ 8 = w / 2 ^ 72 % 2 ^ 8 by omega), ofNat_congr (show v / 2 ^ 80 % 2 ^ 16 = w / 2 ^ 80 % 2 ^ 16 by omega)]

/-- Whether words are legal is decided by as many of them as their length field asks for. -/
theorem legalWords_mod (w : Nat) : legalWords (w % 2 ^ (32 * lengthWords (lOf w))) = legalWords w := by
  have hl : lOf w = 0 ∨ lOf w = 1 ∨ lOf w = 2 ∨ lOf w = 3 := by unfold lOf; omega
  rcases hl with hl | hl | hl | hl <;> simp only [hl, lengthWords]
  · generalize hv : w % 2 ^ (32 * 1) = v
    obtain ⟨h1, h2, -⟩ := head_congr (v := v) (w := w) (by omega)
    obtain ⟨h3, h4⟩ := base_congr (v := v) (w := w) (by omega)
    simp only [legalWords, badOpcode, operandsOk, h1, h2, h3, h4, hl]
  · generalize hv : w % 2 ^ (32 * 3) = v
    obtain ⟨h1, h2, -⟩ := head_congr (v := v) (w := w) (by omega)
    have h5 := ext_congr (v := v) (w := w) (by omega) (fun h => absurd (hl.symm.trans h) (by decide))
    simp only [legalWords, badOpcode, operandsOk, h1, h2, h5, hl]
  · generalize hv : w % 2 ^ (32 * 3) = v
    obtain ⟨h1, h2, -⟩ := head_congr (v := v) (w := w) (by omega)
    obtain ⟨h3, h4⟩ := base_congr (v := v) (w := w) (by omega)
    simp only [legalWords, badOpcode, operandsOk, h1, h2, h3, h4, hl, show v / 2 ^ 32 % 4 = w / 2 ^ 32 % 4 by omega]
  · generalize hv : w % 2 ^ (32 * 5) = v
    obtain ⟨h1, h2, -⟩ := head_congr (v := v) (w := w) (by omega)
    have h5 := ext_congr (v := v) (w := w) (by omega) (fun _ => by omega)
    simp only [legalWords, badOpcode, operandsOk, h1, h2, h5, hl]

theorem bits_rawOf (w : Nat) : (rawOf w).bits.toNat = w % 2 ^ (32 * lengthWords (lOf w)) := congrArg Prod.snd (rawWf_rawOf w).2.1

theorem opOf_rawOf (w : Nat) : opOf (rawOf w).bits.toNat = opOf w := by
  have h14 : 2 ^ 14 ∣ 2 ^ (32 * lengthWords (lOf w)) := by
    refine Nat.pow_dvd_pow 2 ?_
    unfold lengthWords
    split <;> decide
  rw [bits_rawOf]
  exact (head_congr (Nat.mod_mod_of_dvd w h14)).2.1

theorem faithful_reserved {w : Nat} (ho : opOf w ≠ 0xFF) (hk : legalWords w = false) : Faithful w (.reservedCell (rawOf w)) := by
  obtain ⟨hw, he, -⟩ := rawWf_rawOf w
  refine ⟨?_, congrArg some he⟩
  simp [Instr.wf, hw, opOf_rawOf, ho]
  rw [bits_rawOf, legalWords_mod, hk]

theorem faithful_udfExt {w : Nat} (ho : opOf w = 0xFF) (hl : lOf w ≠ 0) : Faithful w (.udfExt (rawOf w)) := by
  obtain ⟨hw, he, hr⟩ := rawWf_rawOf w
  have h0 : (rawOf w).l ≠ 0 := fun h => hl (hr.symm.trans (congrArg BitVec.toNat h))
  refine ⟨?_, congrArg some he⟩
  simpa [Instr.wf, hw, opOf_rawOf, ho] using h0

theorem faithful_udf {w : Nat} (ho : opOf w = 0xFF) (hl : lOf w = 0) : Faithful w (.udf (guardOf w) (offOf w)) := by
  have := packPlain_of hl
  rw [ho] at this
  exact ⟨rfl, by rw [hl]; exact congrArg (fun x => some (1, x)) this⟩

theorem faithful_ext {w : Nat} {e : Ext} {i : Instr} (hl : lOf w = 1 ∨ lOf w = 3) (he : extOf w = some e) (hk : extOk (opOf w) e = true)
    (hi : extInstr (opOf w) e = some i) : Faithful w i := by
  obtain ⟨h1, h2⟩ := hasExt_of_extInstr hi
  exact ⟨h1.trans hk, h2.trans (congrArg some (packExt_of_extOf hl he))⟩

theorem faithful_base {w : Nat} {i : Instr} (hl : lOf w = 0) (hk : baseOk (opOf w) 0 (baseOf w) = true)
    (hi : baseInstr (opOf w) (baseOf w) = some i) : Faithful w i := by
  obtain ⟨h1, h2⟩ := base_of_baseInstr hi
  have := packBase_of w
  rw [hl] at this
  exact ⟨h1.trans hk, h2.trans (by rw [hl]; exact congrArg (fun x => some (1, x)) this)⟩

theorem faithful_lit {w : Nat} {i : Instr} (hl : lOf w = 2) (hk : baseOk (opOf w) 2 (baseOf w) = true)
    (hi : litInstr (opOf w) (baseOf w) (lit2Of w) = some i) : Faithful w i := by
  obtain ⟨h1, h2⟩ := lit_of_litInstr hi
  have hb := packBase_of w
  rw [hl] at hb
  have hx : (lit2Of w).toNat = w / 2 ^ 32 % 2 ^ 64 := BitVec.toNat_ofNat ..
  refine ⟨h1.trans hk, h2.trans ?_⟩
  rw [hl, hb, hx]
  exact congrArg (fun x => some (3, x)) (by simp only [lengthWords]; omega)

/-- MOVI with its literal leaves the A field zero. -/
theorem faithful_movi {w : Nat} (hl : lOf w = 2) (hm : opOf w = 0x2F) (hk : baseOk 0x2F 2 (baseOf w) = true) :
    Faithful w (.moviLit (guardOf w) (baseOf w).d (baseOf w).m (lit2Of w)) := by
  have ha : (baseOf w).a = 0 := by
    have h := (Bool.and_eq_true_iff.mp hk).2
    simp [baseTy] at h
    exact h.2
  have hb : ({ g := guardOf w, d := (baseOf w).d, a := 0, m := (baseOf w).m } : Base) = baseOf w := by rw [← ha]; rfl
  have hp := packBase_of w
  have hx : (lit2Of w).toNat = w / 2 ^ 32 % 2 ^ 64 := BitVec.toNat_ofNat ..
  rw [hl, hm] at hp
  refine ⟨by simp only [Instr.wf, hb, hk], ?_⟩
  simp only [encode, hb, hp, hx, hl, lengthWords]
  exact congrArg (fun x => some (3, x)) (by omega)

/-- A plain or branch word. -/
theorem faithful_plain {w : Nat} {i : Instr} (hl : lOf w = 0) (hw : i.wf = true)
    (he : encode i = some (1, packPlain (opOf w) (guardOf w) (offOf w).toNat)) : Faithful w i :=
  ⟨hw, by rw [he, hl, packPlain_of hl]; rfl⟩

theorem faithful_braLit {w : Nat} {i : Instr} (hl : lOf w = 2) (hw : i.wf = true) (ho : offOf w = 0)
    (he : encode i = some (3, packLit (opOf w) (guardOf w) (lit2Of w))) : Faithful w i := by
  have hh := packHead_of w
  have hx : (lit2Of w).toNat = w / 2 ^ 32 % 2 ^ 64 := BitVec.toNat_ofNat ..
  have ho' : w / 2 ^ 14 % 2 ^ 18 = 0 := (BitVec.toNat_ofNat ..).symm.trans (congrArg BitVec.toNat ho)
  rw [hl] at hh
  refine ⟨hw, he.trans ?_⟩
  rw [packLit, hl, hh, hx]
  exact congrArg (fun x => some (3, x)) (by simp only [lengthWords]; omega)

theorem exists_plainInstr {op : Nat} (g : Guard) (h : isPlainCell op = true) :
    ∃ i, plainInstr op g = some i ∧ i.wf = true ∧ encode i = some (1, packPlain op g 0) := by
  have : op = 0x00 ∨ op = 0x05 ∨ op = 0x06 ∨ op = 0xB8 ∨ op = 0xC4 := by simpa [isPlainCell, or_assoc] using h
  rcases this with rfl | rfl | rfl | rfl | rfl <;> exact ⟨_, rfl, rfl, rfl⟩

/-- Legal words are an instruction that has them. -/
theorem faithful_legal {w : Nat} (ho : opOf w ≠ 0xFF) (hc : (cellLengths (opOf w)).contains (lOf w) = true) (hk : operandsOk w = true) :
    ∃ i, legalInstr w = some i ∧ Faithful w i := by
  have hop : opOf w < 255 := by have : opOf w < 256 := Nat.mod_lt _ (by decide); omega
  have hl : lOf w = 0 ∨ lOf w = 2 ∨ lOf w = 1 ∨ lOf w = 3 := by unfold lOf; omega
  rcases hl with hl | hl | hl
  · simp only [operandsOk, hl] at hk
    simp only [legalInstr, hl]
    by_cases hp : isPlainCell (opOf w) = true
    · obtain ⟨i, hi, hw, he⟩ := exists_plainInstr (guardOf w) hp
      have h0 : offOf w = 0 := by simpa [hp] using hk
      exact ⟨i, by rw [if_pos hp, hi], faithful_plain hl hw (by rw [h0]; exact he)⟩
    · have hp : isPlainCell (opOf w) = false := by simpa using hp
      by_cases h1 : opOf w = 0x01
      · exact ⟨.bra (guardOf w) (offOf w), by simp [h1, isPlainCell], faithful_plain hl rfl (by rw [h1]; rfl)⟩
      · by_cases h3 : opOf w = 0x03
        · exact ⟨.call (guardOf w) (offOf w), by simp [h3, isPlainCell], faithful_plain hl rfl (by rw [h3]; rfl)⟩
        · have hb : isBranchCell (opOf w) = false := by simp [isBranchCell, h1, h3]
          simp only [hp, hb, Bool.false_eq_true, if_false] at hk
          obtain ⟨i, hi⟩ := Option.isSome_iff_exists.mp (isSome_baseInstr_of_baseOk (regCell_iff.mpr ⟨hop, hp, hb⟩) hk)
          exact ⟨i, by simp [hp, h1, h3, hi], faithful_base hl hk hi⟩
  · simp only [operandsOk, hl] at hk
    simp only [legalInstr, hl]
    by_cases hb : isBranchCell (opOf w) = true
    · simp only [hb, if_true, Bool.and_eq_true, decide_eq_true_eq] at hk
      have hx : (lit2Of w).toNat = w / 2 ^ 32 % 2 ^ 64 := BitVec.toNat_ofNat ..
      have h4 : (lit2Of w).toNat % 4 = 0 := by rw [hx]; omega
      have : opOf w = 0x01 ∨ opOf w = 0x03 := by simpa [isBranchCell] using hb
      rcases this with h | h
      · exact ⟨.braLit (guardOf w) (lit2Of w), by simp [h], faithful_braLit hl (decide_eq_true h4) hk.1 (by rw [h]; rfl)⟩
      · exact ⟨.callLit (guardOf w) (lit2Of w), by simp [h], faithful_braLit hl (decide_eq_true h4) hk.1 (by rw [h]; rfl)⟩
    · have hb : isBranchCell (opOf w) = false := by simpa using hb
      have h1 : opOf w ≠ 0x01 := fun h => by simp [h, isBranchCell] at hb
      have h3 : opOf w ≠ 0x03 := fun h => by simp [h, isBranchCell] at hb
      simp only [hb, Bool.false_eq_true, if_false] at hk
      have hp : isPlainCell (opOf w) = false := by
        by_contra hp
        have := plain_rows (opOf w / 16) (by omega) (opOf w % 16) (by omega)
        rw [eq_row] at this
        rw [hl, this (by simpa using hp)] at hc
        cases hc
      by_cases hm : opOf w = 0x2F
      · rw [hm] at hk
        exact ⟨_, by simp [hm], faithful_movi hl hm hk⟩
      · obtain ⟨i, hi⟩ := Option.isSome_iff_exists.mp (isSome_litInstr_of_baseOk (x := lit2Of w) (regCell_iff.mpr ⟨hop, hp, hb⟩) hm hk)
        exact ⟨i, by simp [h1, h3, hm, hi], faithful_lit hl hk hi⟩
  · obtain ⟨e, he, hk⟩ : ∃ e, extOf w = some e ∧ extOk (opOf w) e = true := by
      cases he : extOf w with
      | none => rcases hl with hl | hl <;> simp [operandsOk, hl, he] at hk
      | some e => exact ⟨e, rfl, by rcases hl with hl | hl <;> simpa [operandsOk, hl, he] using hk⟩
    obtain ⟨i, hi⟩ := Option.isSome_iff_exists.mp (isSome_extInstr_of_extOk hk)
    exact ⟨i, by rcases hl with hl | hl <;> simp [legalInstr, hl, he, hi], faithful_ext hl he hk hi⟩

theorem faithful_decodeNat (w : Nat) : Faithful w (decodeNat w) := by
  unfold decodeNat
  split_ifs with ho hl hk
  · exact faithful_udf ho hl
  · exact faithful_udfExt ho hl
  · simp only [legalWords, badOpcode, Bool.and_eq_true, Bool.not_eq_true', Bool.or_eq_false_iff, Bool.not_eq_false'] at hk
    obtain ⟨⟨-, hc⟩, hk⟩ := hk
    obtain ⟨i, hi, hf⟩ := faithful_legal ho hc hk
    rw [hi]
    exact hf
  · exact faithful_reserved ho (by simpa using hk)

/-! ## Bytes -/

@[simp] theorem length_toBytes (n v : Nat) : (toBytes n v).length = n := by
  induction n generalizing v with
  | zero => rfl
  | succ n ih => simp [toBytes, ih]

theorem fromBytes_toBytes (n v : Nat) : fromBytes (toBytes n v) = v % 256 ^ n := by
  induction n generalizing v with
  | zero => simp [toBytes, fromBytes, Nat.mod_one]
  | succ n ih => rw [toBytes, fromBytes, ih, BitVec.toNat_ofNat, show 256 ^ (n + 1) = 256 * 256 ^ n from Nat.pow_succ']; exact Nat.mod_mul.symm

/-- The first byte of an instruction tells its length. -/
theorem decodeLength_toBytes (w : Nat) : decodeLength (BitVec.ofNat 8 w) = 4 * lengthWords (lOf w) := by
  rw [decodeLength, BitVec.toNat_ofNat, Nat.mod_mod_of_dvd w (by decide)]
  rfl

theorem decode_toBytes (w : Nat) (rest : List Byte) :
    decode (toBytes (4 * lengthWords (lOf w)) w ++ rest) = some (decodeNat (w % 2 ^ (32 * lengthWords (lOf w))), rest) := by
  have hn : ∃ m, 4 * lengthWords (lOf w) = m + 1 := by unfold lengthWords; split <;> exact ⟨_, rfl⟩
  have hlen := length_toBytes (4 * lengthWords (lOf w)) w
  have hval := fromBytes_toBytes (4 * lengthWords (lOf w)) w
  obtain ⟨m, hm⟩ := hn
  have hd := decodeLength_toBytes w
  have hp : 256 ^ (4 * lengthWords (lOf w)) = 2 ^ (32 * lengthWords (lOf w)) := by
    rw [show (256 : Nat) = 2 ^ 8 by rfl, ← Nat.pow_mul, ← Nat.mul_assoc]
  rw [hp] at hval
  rw [hm] at hlen hval hd ⊢
  simp only [decode, toBytes, List.cons_append, hd]
  rw [← List.cons_append, ← toBytes, if_neg (by simp; omega), List.take_left' hlen, List.drop_left' hlen, hval]

theorem decode_encodeBytes {i : Instr} (rest : List Byte) (hw : i.wf = true) (he : (encode i).isSome = true) :
    decode (encodeBytes i ++ rest) = some (i, rest) := by
  obtain ⟨⟨n, w⟩, hnw⟩ := Option.isSome_iff_exists.mp he
  obtain ⟨hd, rfl, hlt⟩ := roundTrips i n w hw hnw
  rw [encodeBytes, hnw]
  exact (decode_toBytes w rest).trans (by rw [Nat.mod_eq_of_lt hlt, hd])

/-- Settles O3: by the shape of the words, each of which is made up again of the fields read from it; and on bytes by O2. -/
theorem decodeIsFaithful : Obligations.DecodeIsFaithful := ⟨faithful_decodeNat, fun _ => decode_encodeBytes⟩

/-- Settles O1: the decoder evaluated on the five words. -/
theorem decodeWords : Obligations.DecodeWords := ⟨rfl, rfl, rfl, rfl, rfl⟩

end Sys2Proof
end

