-- ==== Sys2Proof/Proofs/Results.lean ====
section
/-! SUPPORT. The forms whose meaning is one result for each lane, written through the pipeline: from the base form and the long form of a
cell to what both write, without flags and with them. -/
namespace Sys2Proof.Machine

/-! ## Both forms of a cell -/

/-- The base form and the literal and extended forms write one value for each lane and raise no flag. -/
theorem bothForms_plain {base : Base → Instr} {long : Long → Instr} {op : Nat} {x : Ctx → Nat → DWord} (n : Nat) (g : Ctx → Nat → DWord)
    (hb : ∀ b s, exec (base b) s = issue (Form.ofBase op b) (fun c => c.write n (g c)) s)
    (hl : ∀ f s, exec (long f) s = issue (Form.ofLong op f) (fun c => c.write n (g c)) s) (hg : ∀ c, g c = x c) :
    BothForms base long op (plainly x) :=
  ⟨fun b => writes_plain n g (hb b) hg, fun f => writes_plain n g (hl f) hg⟩

/-- The base form and the extended form of a unary cell write one value for each lane and raise no flag. -/
theorem bothUnary_plain {base : Base → Instr} {ext : Ext → Instr} {op : Nat} {x : Ctx → Nat → DWord} (n : Nat) (g : Ctx → Nat → DWord)
    (hb : ∀ b s, exec (base b) s = issue (Form.ofBase op b) (fun c => c.write n (g c)) s)
    (hl : ∀ e s, exec (ext e) s = issue (Form.ofExt op e) (fun c => c.write n (g c)) s) (hg : ∀ c, g c = x c) :
    BothUnary base ext op (plainly x) :=
  ⟨fun b => writes_plain n g (hb b) hg, fun e => writes_plain n g (hl e) hg⟩

/-- The base form and the literal and extended forms write one value for each lane and raise its flags. -/
theorem bothForms_flags {base : Base → Instr} {long : Long → Instr} {op : Nat} {x : Ctx → Nat → DWord × Flags} (n : Nat)
    (hb : ∀ b s, exec (base b) s = issue (Form.ofBase op b) (fun c => c.writeF n (x c)) s)
    (hl : ∀ f s, exec (long f) s = issue (Form.ofLong op f) (fun c => c.writeF n (x c)) s) : BothForms base long op x :=
  ⟨fun b => writes_flags n x (hb b) fun _ => rfl, fun f => writes_flags n x (hl f) fun _ => rfl⟩

/-- The base form and the extended form of a unary cell write one value for each lane and raise its flags. -/
theorem bothUnary_flags {base : Base → Instr} {ext : Ext → Instr} {op : Nat} {x : Ctx → Nat → DWord × Flags} (n : Nat)
    (hb : ∀ b s, exec (base b) s = issue (Form.ofBase op b) (fun c => c.writeF n (x c)) s)
    (hl : ∀ e s, exec (ext e) s = issue (Form.ofExt op e) (fun c => c.writeF n (x c)) s) : BothUnary base ext op x :=
  ⟨fun b => writes_flags n x (hb b) fun _ => rfl, fun e => writes_flags n x (hl e) fun _ => rfl⟩

/-- An instruction that writes one value for each lane, with an extra beat or a latency of its own, and raises no flag. -/
theorem writes_pipe {i : Instr} {f : Form} {x : Ctx → Nat → DWord} (g : Ctx → Nat → DWord) (lat : Nat) (extra : Ctx → Nat)
    (he : ∀ s, exec i s = issue f (fun c => .pipe [c.result (g c)] 0 lat (extra c) none) s) (hg : ∀ c, g c = x c) :
    Writes i f (plainly x) :=
  writesIf_of_pipe _ he fun c _ _ _ => ⟨lat, extra c, none, 0, by simp only [plainly, hg], (flagsOf_zero _).symm⟩

/-! ## The integer of a lane -/

/-- The lesser of two operands, as the model picks it. -/
theorem intOut_min : Ctx.intOut .min = fun c l => intResult c.f.e.ty c.sat (min (c.int (c.a l)) (c.int (c.b l))) := by
  funext c l
  simp only [Ctx.intOut, IntOp.exact]
  congr 1
  split <;> omega

theorem intOut_max : Ctx.intOut .max = fun c l => intResult c.f.e.ty c.sat (max (c.int (c.a l)) (c.int (c.b l))) := by
  funext c l
  simp only [Ctx.intOut, IntOp.exact]
  congr 1
  split <;> omega

/-! ## What a destination keeps of an integer (R66, R72) -/

/-- The code that an integer leaves at width `w` is its remainder. -/
theorem wrap_eq (w : Nat) (x : Int) : ((wrap w x : Nat) : Int) = x % ((2 ^ w : Nat) : Int) :=
  Int.toNat_of_nonneg (Int.emod_nonneg _ (by positivity))

theorem wrap_lt (w : Nat) (x : Int) : wrap w x < 2 ^ w := by
  have := wrap_eq w x
  have := Int.emod_lt_of_pos x (show (0 : Int) < ((2 ^ w : Nat) : Int) by positivity)
  omega

theorem ofNat_wrap (w : Nat) (x : Int) : BitVec.ofNat w (wrap w x) = BitVec.ofInt w x := by
  apply BitVec.eq_of_toNat_eq
  rw [BitVec.toNat_ofNat, Nat.mod_eq_of_lt (wrap_lt w x), BitVec.toNat_ofInt]
  rfl

/-- A sign-extended code is the balanced remainder of its value. -/
theorem sext_eq_bmod {w : Nat} (hw : 0 < w) (x : Nat) : sext w x = Int.bmod x (2 ^ w) := by
  obtain ⟨v, rfl⟩ : ∃ v, w = v + 1 := ⟨w - 1, by omega⟩
  have hp : 2 ^ (v + 1) = 2 * 2 ^ v := Nat.pow_succ'
  have hc : (((x % 2 ^ (v + 1) : Nat) : Nat) : Int) = (x : Int) % ((2 ^ (v + 1) : Nat) : Int) := Int.natCast_emod ..
  simp only [sext, Int.bmod, Nat.add_sub_cancel, ← hc]
  have : (((2 ^ (v + 1) : Nat) : Int) + 1) / 2 = ((2 ^ v : Nat) : Int) := by rw [hp]; push_cast; omega
  simp only [this, Nat.cast_lt]

theorem bmod_emod {v w : Nat} (h : v ≤ w) (x : Int) : Int.bmod (x % ((2 ^ w : Nat) : Int)) (2 ^ v) = Int.bmod x (2 ^ v) := by
  have hd : ((2 ^ v : Nat) : Int) ∣ ((2 ^ w : Nat) : Int) := Int.natCast_dvd_natCast.mpr (Nat.pow_dvd_pow 2 h)
  rw [← Int.emod_bmod, Int.emod_emod_of_dvd x hd, Int.emod_bmod]

theorem pos_width (t : Ty) : 0 < t.width := by cases t <;> decide

/-- The value of what a destination of an integer type keeps of an integer is its remainder, balanced where the type has a sign. -/
theorem intVal_placeInt {t : Ty} (ht : t.isAnyInt = true) (x : Int) :
    intVal t (placeInt t x).toNat = if t.isSigned then Int.bmod x (2 ^ t.width) else x % ((2 ^ t.width : Nat) : Int) := by
  have h64 : t.is64 = true → t.width = 64 := by cases t <;> decide
  have h32 : t.is64 = false → t.width ≤ 32 := by revert ht; cases t <;> decide
  have hlt : ∀ {w : Nat} (y : Int), w ≤ 64 → (BitVec.ofNat 64 (wrap w y)).toNat = wrap w y := fun {w} y hw => by
    rw [BitVec.toNat_ofNat, Nat.mod_eq_of_lt ((wrap_lt w y).trans_le (Nat.pow_le_pow_right (by decide) hw))]
  unfold intVal placeInt
  by_cases hs : t.isSigned = true
  · simp only [hs, if_true, sext_eq_bmod (pos_width t)]
    by_cases h6 : t.is64 = true
    · rw [if_pos h6, hlt x (by decide), wrap_eq, bmod_emod (h64 h6).le]
    · have hw := h32 (by simpa using h6)
      rw [if_neg h6, hlt _ (by decide), wrap_eq, bmod_emod hw, Int.bmod_bmod, wrap_eq, bmod_emod (le_refl _)]
  · simp only [if_neg hs]
    by_cases h6 : t.is64 = true
    · rw [if_pos h6, hlt x (by decide), Int.natCast_emod, wrap_eq, h64 h6, Int.emod_emod]
    · have hw := h32 (by simpa using h6)
      rw [if_neg h6, hlt x (by omega), Int.natCast_emod, wrap_eq, Int.emod_emod]

/-- The range of an integer type holds just the values that its codes keep. -/
theorem intVal_placeInt_of_range {t : Ty} (ht : t.isAnyInt = true) {x : Int} (hl : (rangeOf t).1 ≤ x) (hu : x ≤ (rangeOf t).2) :
    intVal t (placeInt t x).toNat = x := by
  rw [intVal_placeInt ht]
  obtain ⟨v, hv⟩ : ∃ v, t.width = v + 1 := ⟨t.width - 1, by have := pos_width t; omega⟩
  have hp : 2 ^ (v + 1) = 2 * 2 ^ v := Nat.pow_succ'
  have h1 : 0 < 2 ^ v := by positivity
  unfold rangeOf at hl hu
  rw [hv] at hl hu ⊢
  split_ifs at hl hu ⊢ with hs
  · simp only [Nat.add_sub_cancel] at hl hu
    refine Int.bmod_eq_of_le ?_ ?_ <;> rw [hp] <;> omega
  · rw [hp] at hu ⊢
    exact Int.emod_eq_of_lt hl (by simp only at hu; omega)

theorem intVal_placeInt_emod {t : Ty} (ht : t.isAnyInt = true) (x : Int) :
    (intVal t (placeInt t x).toNat - x) % ((2 ^ t.width : Nat) : Int) = 0 := by
  rw [intVal_placeInt ht]
  split_ifs
  · rw [Int.sub_emod, Int.bmod_emod, sub_self, Int.zero_emod]
  · rw [Int.sub_emod, Int.emod_emod, sub_self, Int.zero_emod]

theorem clampTo_range (t : Ty) (x : Int) : (rangeOf t).1 ≤ (clampTo t x).1 ∧ (clampTo t x).1 ≤ (rangeOf t).2 := by
  have h : (rangeOf t).1 ≤ (rangeOf t).2 := by cases t <;> decide
  simp only [clampTo]
  split_ifs <;> exact ⟨by omega, by omega⟩

theorem loWord_ofNat (n : Nat) : loWord (BitVec.ofNat 64 n) = BitVec.ofNat 32 n := by
  apply BitVec.eq_of_toNat_eq
  simp only [loWord, BitVec.toNat_setWidth, BitVec.toNat_ofNat]
  omega

/-- A 32-bit destination of a 32-bit type keeps the integer modulo `2 ^ 32`. -/
theorem loWord_placeInt {t : Ty} (h6 : t.is64 = false) (hw : t.width = 32) (x : Int) : loWord (placeInt t x) = BitVec.ofInt 32 x := by
  unfold placeInt
  rw [if_neg (by simp [h6]), hw]
  split_ifs
  · rw [loWord_ofNat, ofNat_wrap, sext_eq_bmod (by decide), wrap_eq, bmod_emod (le_refl _)]
    exact BitVec.eq_of_toInt_eq (by rw [BitVec.toInt_ofInt, BitVec.toInt_ofInt, Int.bmod_bmod])
  · rw [loWord_ofNat, ofNat_wrap]

theorem placeInt_s64 (x : Int) : placeInt .s64 x = BitVec.ofInt 64 x := ofNat_wrap 64 x

/-! ## R72, R353, R355, R360 -/

/-- Settles O4: each form writes the exact result of its operation, and a destination keeps of it the remainder at its width. -/
theorem integerResults : Obligations.IntegerResults := by
  refine ⟨⟨bothForms_intBody .add (fun _ _ => rfl) fun _ _ => rfl, bothForms_intBody .sub (fun _ _ => rfl) fun _ _ => rfl,
    bothForms_intBody .mul (fun _ _ => rfl) fun _ _ => rfl, bothForms_intBody .mulh (fun _ _ => rfl) fun _ _ => rfl, ?_, ?_,
    fun e => writes_plain 2 _ (fun _ => rfl) fun _ => rfl, bothUnary_plain 2 _ (fun _ _ => rfl) (fun _ _ => rfl) fun _ => rfl,
    bothUnary_plain 2 _ (fun _ _ => rfl) (fun _ _ => rfl) fun _ => rfl⟩, fun x y => ?_, fun x y => ?_, fun x y => ?_, fun t x ht _ => ?_,
    fun x => ?_, fun x => ?_⟩
  · rw [← intOut_min]
    exact bothForms_intBody .min (fun _ _ => rfl) fun _ _ => rfl
  · rw [← intOut_max]
    exact bothForms_intBody .max (fun _ _ => rfl) fun _ _ => rfl
  · rw [intResult, if_neg (by decide), loWord_placeInt rfl rfl, BitVec.ofInt_add, BitVec.ofInt_toInt, BitVec.ofInt_toInt]
  · rw [intResult, if_neg (by decide), loWord_placeInt rfl rfl]
    apply BitVec.eq_of_toNat_eq
    rw [BitVec.toNat_ofInt, BitVec.toNat_sub]
    have := x.isLt
    have := y.isLt
    omega
  · rw [intResult, if_neg (by decide), placeInt_s64, BitVec.ofInt_mul, BitVec.ofInt_toInt, BitVec.ofInt_toInt]
  · exact ⟨intVal_placeInt_of_range ht (clampTo_range t x).1 (clampTo_range t x).2, intVal_placeInt_emod ht x⟩
  · simp only [clampTo, rangeOf, Ty.isSigned, Ty.width]
    split_ifs <;> simp at * <;> omega
  · simp only [clampTo, rangeOf, Ty.isSigned, Ty.width]
    split_ifs <;> simp at * <;> omega

/-! ## Moves and selects -/

/-- Settles O6: one value for each lane, as its form places it. -/
theorem movesAndSelects : Obligations.MovesAndSelects := by
  refine ⟨bothUnary_plain 2 _ (fun _ _ => rfl) (fun _ _ => rfl) fun _ => rfl, fun b => writes_plain 2 _ (fun _ => rfl) fun _ => rfl,
    fun g d m x => writes_plain 2 _ (fun _ => rfl) fun _ => rfl, fun e => writes_plain 2 _ (fun _ => rfl) fun c => ?_,
    fun e => writes_plain 2 _ (fun _ => rfl) fun _ => rfl⟩
  funext l
  rw [ite_not]

end Sys2Proof.Machine
end

