-- ==== Sys2Proof/Proofs/Bits.lean ====
section
/-! SUPPORT. The bit operations of row 0x3: what each makes of every bit of the type (R316, R325, R330, R379, R385, R395, R415). -/
namespace Sys2Proof.Machine

/-! ## Bitwise operations and shifts on words -/

theorem uval_eq (t : Ty) (x : DWord) : uval t x = x.toNat % 2 ^ t.width := rfl

theorem toNat_narrow (t : Ty) (x : DWord) : (narrow t x).toNat = x.toNat % 2 ^ t.width := by
  rw [narrow, BitVec.toNat_ofNat, Nat.mod_eq_of_lt ((Nat.mod_le _ _).trans_lt x.isLt)]

/-- Words are equal where their bits are. -/
theorem dword_ext {x y : DWord} (h : ∀ k, k < 64 → x.toNat.testBit k = y.toNat.testBit k) : x = y :=
  BitVec.eq_of_getLsbD_eq fun k hk => h k hk

theorem testBit_ofNat (n k : Nat) (hk : k < 64) : (BitVec.ofNat 64 n).toNat.testBit k = n.testBit k := by
  rw [BitVec.toNat_ofNat, Nat.testBit_mod_two_pow]
  simp [hk]

theorem testBit_narrow (t : Ty) (x : DWord) (k : Nat) :
    (narrow t x).toNat.testBit k = (decide (k < t.width) && x.getLsbD k) := by
  rw [toNat_narrow, Nat.testBit_mod_two_pow]
  rfl

theorem testBit_uval (t : Ty) (x : DWord) (k : Nat) : (uval t x).testBit k = (decide (k < t.width) && x.getLsbD k) := by
  rw [uval, Nat.testBit_mod_two_pow]
  rfl

theorem uval_lt (t : Ty) (x : DWord) : uval t x < 2 ^ t.width := Nat.mod_lt _ (by positivity)

theorem apply_and (t : Ty) (x y : DWord) : BitVec.ofNat 64 (BitOp.apply .and t.width (uval t x) (uval t y)) = narrow t (x &&& y) := by
  refine dword_ext fun k hk => ?_
  rw [testBit_ofNat _ _ hk, testBit_narrow]
  simp only [BitOp.apply, Nat.testBit_land, testBit_uval, BitVec.getLsbD_and]
  cases decide (k < t.width) <;> simp

theorem apply_or (t : Ty) (x y : DWord) : BitVec.ofNat 64 (BitOp.apply .or t.width (uval t x) (uval t y)) = narrow t (x ||| y) := by
  refine dword_ext fun k hk => ?_
  rw [testBit_ofNat _ _ hk, testBit_narrow]
  simp only [BitOp.apply, Nat.testBit_lor, testBit_uval, BitVec.getLsbD_or]
  cases decide (k < t.width) <;> simp

theorem apply_xor (t : Ty) (x y : DWord) : BitVec.ofNat 64 (BitOp.apply .xor t.width (uval t x) (uval t y)) = narrow t (x ^^^ y) := by
  refine dword_ext fun k hk => ?_
  rw [testBit_ofNat _ _ hk, testBit_narrow]
  simp only [BitOp.apply, Nat.testBit_xor, testBit_uval, BitVec.getLsbD_xor]
  cases decide (k < t.width) <;> simp

/-- The complement of a value at a width. -/
theorem testBit_ones_sub {w n : Nat} (hn : n < 2 ^ w) (k : Nat) : (2 ^ w - 1 - n).testBit k = (decide (k < w) && !(n.testBit k)) := by
  rw [Nat.sub_sub, Nat.add_comm, Nat.testBit_two_pow_sub_succ hn]

theorem apply_andn (t : Ty) (x y : DWord) :
    BitVec.ofNat 64 (BitOp.apply .andn t.width (uval t x) (uval t y)) = narrow t (x &&& ~~~y) := by
  refine dword_ext fun k hk => ?_
  rw [testBit_ofNat _ _ hk, testBit_narrow]
  simp only [BitOp.apply, Nat.testBit_land, Nat.mod_eq_of_lt (uval_lt t y), testBit_ones_sub (uval_lt t y), testBit_uval, BitVec.getLsbD_and,
    BitVec.getLsbD_not, hk]
  cases decide (k < t.width) <;> simp

theorem apply_not (t : Ty) (x : DWord) : BitVec.ofNat 64 (BitFn.apply .not t.width (uval t x)) = narrow t (~~~x) := by
  refine dword_ext fun k hk => ?_
  rw [testBit_ofNat _ _ hk, testBit_narrow]
  simp only [BitFn.apply, Nat.mod_eq_of_lt (uval_lt t x), testBit_ones_sub (uval_lt t x), testBit_uval, BitVec.getLsbD_not, hk]
  cases decide (k < t.width) <;> simp

theorem apply_shl (t : Ty) (x : DWord) (n : Nat) : BitVec.ofNat 64 (BitOp.apply .shl t.width (uval t x) n) = narrow t (x <<< n) := by
  refine dword_ext fun k hk => ?_
  rw [testBit_ofNat _ _ hk, testBit_narrow]
  simp only [BitOp.apply, BitVec.getLsbD_shiftLeft, hk]
  split_ifs with hn
  · simp only [Nat.zero_testBit]
    by_cases h : k < t.width
    · simp [show k < n by omega]
    · simp [h]
  · rw [Nat.testBit_mod_two_pow, Nat.testBit_mul_two_pow, testBit_uval]
    by_cases h : k < t.width
    · by_cases h' : n ≤ k
      · simp [h, h', show k - n < t.width by omega, Nat.not_lt.mpr h']
      · simp [h, h', Nat.lt_of_not_le h']
    · simp [h]

theorem apply_shr (t : Ty) (x : DWord) (n : Nat) : BitVec.ofNat 64 (BitOp.apply .shr t.width (uval t x) n) = narrow t x >>> n := by
  refine dword_ext fun k hk => ?_
  rw [testBit_ofNat _ _ hk, BitVec.toNat_ushiftRight, Nat.testBit_shiftRight, testBit_narrow]
  simp only [BitOp.apply]
  split_ifs with hn
  · simp [show ¬ n + k < t.width by omega]
  · rw [Nat.testBit_div_two_pow, testBit_uval, Nat.add_comm]

/-- A sign-extended value lies in its range, and is negative where its highest bit is set. -/
theorem sext_of_lt {w a : Nat} (hw : 0 < w) (ha : a < 2 ^ w) :
    if a / 2 ^ (w - 1) % 2 = 1 then sext w a < 0 ∧ -((2 ^ w : Nat) : Int) ≤ sext w a else 0 ≤ sext w a ∧ sext w a < ((2 ^ w : Nat) : Int) := by
  obtain ⟨v, rfl⟩ : ∃ v, w = v + 1 := ⟨w - 1, by omega⟩
  have hp : 2 ^ (v + 1) = 2 * 2 ^ v := Nat.pow_succ'
  have hd : a / 2 ^ v < 2 := (Nat.div_lt_iff_lt_mul (by positivity)).mpr (by omega)
  have hlt : a / 2 ^ v = 0 ↔ a < 2 ^ v := Nat.div_eq_zero_iff_lt (by positivity)
  simp only [sext, Nat.add_sub_cancel, Nat.mod_eq_of_lt ha]
  generalize a / 2 ^ v = q at hd hlt ⊢
  by_cases h : a < 2 ^ v
  · have h0 := hlt.mpr h
    rw [if_neg (by omega), if_pos h]
    omega
  · have h1 : q = 1 := by omega
    rw [if_pos (by omega), if_neg h]
    omega

theorem wrap_neg_one (w : Nat) : wrap w (-1) = 2 ^ w - 1 := by
  have hp : 0 < 2 ^ w := by positivity
  have h : (-1 : Int) % ((2 ^ w : Nat) : Int) = ((2 ^ w : Nat) : Int) - 1 := by
    rw [← Int.add_emod_right, Int.emod_eq_of_lt (by omega) (by omega)]
    omega
  rw [wrap, h]
  omega

theorem apply_sar (t : Ty) (x : DWord) (n : Nat) : BitVec.ofNat 64 (BitOp.apply .sar t.width (uval t x) n) =
    BitVec.ofNat 64 (wrap t.width (sext t.width x.toNat / ((2 ^ n : Nat) : Int))) := by
  have hs : sext t.width (uval t x) = sext t.width x.toNat := by simp only [sext, uval, Nat.mod_mod]
  have hr := sext_of_lt (pos_width t) (uval_lt t x)
  simp only [BitOp.apply]
  rw [← hs]
  split_ifs at hr ⊢ with hn hb
  · have hp : 2 ^ t.width ≤ 2 ^ n := Nat.pow_le_pow_right (by decide) hn
    rw [Int.ediv_eq_neg_one_of_neg_of_le hr.1 (by omega)]
    rw [wrap_neg_one]
  · have hp : 2 ^ t.width ≤ 2 ^ n := Nat.pow_le_pow_right (by decide) hn
    rw [Int.ediv_eq_zero_of_lt hr.1 (by omega)]
    rfl
  · rfl
  · rfl

theorem apply_rol (t : Ty) (x : DWord) (n : Nat) : BitVec.ofNat 64 (BitOp.apply .rol t.width (uval t x) n) =
    narrow t (x <<< (n % t.width)) ||| (narrow t x >>> (t.width - n % t.width)) := by
  refine dword_ext fun k hk => ?_
  have hm : n % t.width < t.width := Nat.mod_lt _ (pos_width t)
  rw [testBit_ofNat _ _ hk, BitVec.toNat_or, Nat.testBit_lor, testBit_narrow, BitVec.toNat_ushiftRight, Nat.testBit_shiftRight, testBit_narrow]
  simp only [BitOp.apply, Nat.testBit_lor, Nat.testBit_mod_two_pow, Nat.testBit_mul_two_pow, Nat.testBit_div_two_pow, testBit_uval,
    BitVec.getLsbD_shiftLeft, hk, Nat.add_comm (t.width - n % t.width) k]
  congr 1
  by_cases h : k < t.width
  · by_cases h' : n % t.width ≤ k
    · simp [h, h', show k - n % t.width < t.width by omega, Nat.not_lt.mpr h']
    · simp [h, h', Nat.lt_of_not_le h']
  · simp [h]

/-! ## R316, R379, R395, R415 -/

/-- A bitwise operation writes what `x` says in both forms. -/
theorem bothForms_bitBody {base : Base → Instr} {long : Long → Instr} {code : Nat} {x : Ctx → Nat → DWord} (op : BitOp)
    (hb : ∀ b s, exec (base b) s = issue (Form.ofBase code b) (bitBody op) s)
    (hl : ∀ f s, exec (long f) s = issue (Form.ofLong code f) (bitBody op) s)
    (hx : ∀ c l, BitVec.ofNat 64 (op.apply c.f.e.ty.width (uval c.f.e.ty (c.a l))
      (if op.isShift then (loWord (c.b l)).toNat else uval c.f.e.ty (c.b l))) = x c l) : BothForms base long code (plainly x) :=
  bothForms_plain 2 _ hb hl fun c => funext fun l => hx c l

/-- Settles O8: each operation bit by bit. -/
theorem bitwiseResults : Obligations.BitwiseResults :=
  ⟨⟨bothForms_bitBody .and (fun _ _ => rfl) (fun _ _ => rfl) fun _ _ => apply_and _ _ _,
    bothForms_bitBody .andn (fun _ _ => rfl) (fun _ _ => rfl) fun _ _ => apply_andn _ _ _,
    bothForms_bitBody .or (fun _ _ => rfl) (fun _ _ => rfl) fun _ _ => apply_or _ _ _,
    bothForms_bitBody .xor (fun _ _ => rfl) (fun _ _ => rfl) fun _ _ => apply_xor _ _ _,
    bothUnary_plain 2 _ (fun _ _ => rfl) (fun _ _ => rfl) fun _ => funext fun _ => apply_not _ _⟩,
    bothForms_bitBody .shl (fun _ _ => rfl) (fun _ _ => rfl) fun _ _ => apply_shl _ _ _,
    bothForms_bitBody .shr (fun _ _ => rfl) (fun _ _ => rfl) fun _ _ => apply_shr _ _ _,
    bothForms_bitBody .sar (fun _ _ => rfl) (fun _ _ => rfl) fun _ _ => apply_sar _ _ _,
    bothForms_bitBody .rol (fun _ _ => rfl) (fun _ _ => rfl) fun _ _ => apply_rol _ _ _⟩

/-! ## Counts and reversal -/

theorem ofNat_uval (t : Ty) (x : DWord) : uval t x = (narrow t x).toNat := (toNat_narrow t x).symm

theorem bothUnary_bitFnBody {base : Base → Instr} {ext : Ext → Instr} {code : Nat} (fn : BitFn)
    (hb : ∀ b s, exec (base b) s = issue (Form.ofBase code b) (bitFnBody fn) s)
    (he : ∀ e s, exec (ext e) s = issue (Form.ofExt code e) (bitFnBody fn) s) :
    BothUnary base ext code (plainly fun c l => BitVec.ofNat 64 (fn.apply c.f.e.ty.width (narrow c.f.e.ty (c.a l)).toNat)) :=
  bothUnary_plain 2 _ hb he fun c => funext fun l => by rw [ofNat_uval]

theorem clz_bounds {w a : Nat} (ha : a < 2 ^ w) (h0 : a ≠ 0) :
    BitFn.apply .clz w a < w ∧ 2 ^ (w - 1 - BitFn.apply .clz w a) ≤ a ∧ a < 2 ^ (w - BitFn.apply .clz w a) := by
  have hlog : Nat.log2 a < w := (Nat.log2_lt h0).mpr ha
  have e1 : w - 1 - (w - 1 - Nat.log2 a) = Nat.log2 a := by omega
  have e2 : w - (w - 1 - Nat.log2 a) = Nat.log2 a + 1 := by omega
  simp only [BitFn.apply, if_neg h0, e1, e2]
  exact ⟨by omega, Nat.log2_self_le h0, Nat.lt_log2_self⟩

theorem bitsEqual_true (w a : Nat) : bitsEqual w a true = (List.range w).filter fun k => a.testBit k := by
  simp [bitsEqual]

/-- The lowest set bit is where CTZ stops counting. -/
theorem ctz_spec {w a : Nat} (ha : a < 2 ^ w) (h0 : a ≠ 0) :
    a % 2 ^ BitFn.apply .ctz w a = 0 ∧ a / 2 ^ BitFn.apply .ctz w a % 2 = 1 := by
  obtain ⟨i, hi⟩ : ∃ i, a.testBit i = true := Nat.exists_testBit_of_ne_zero h0
  have hiw : i < w := by
    by_contra h
    rw [Nat.testBit_lt_two_pow (ha.trans_le (Nat.pow_le_pow_right (by decide) (Nat.le_of_not_lt h)))] at hi
    cases hi
  obtain ⟨k, hk⟩ : ∃ k, (List.range w).find? (fun k => a.testBit k) = some k :=
    Option.isSome_iff_exists.mp (List.find?_isSome.mpr ⟨i, List.mem_range.mpr hiw, hi⟩)
  have hc : BitFn.apply .ctz w a = k := by rw [BitFn.apply, bitsEqual_true, List.head?_filter, hk]; rfl
  obtain ⟨hbit, -, hlow⟩ := List.find?_range_eq_some.mp hk
  rw [hc]
  constructor
  · refine Nat.eq_of_testBit_eq fun j => ?_
    rw [Nat.testBit_mod_two_pow, Nat.zero_testBit]
    by_cases hj : j < k
    · simpa [hj] using hlow j hj
    · simp [hj]
  · simpa [Nat.testBit_eq_decide_div_mod_eq] using hbit

/-- The bits of the lowest `m` positions, reversed, stand at the top. -/
theorem brev_from {w a : Nat} (m : Nat) (hm : m ≤ w) : ∃ r : Nat,
    (bitsEqual m a true).foldl (fun x k => x + 2 ^ (w - 1 - k)) 0 = 2 ^ (w - m) * r ∧
      ∀ j, r.testBit j = (decide (j < m) && a.testBit (m - 1 - j)) := by
  induction m with
  | zero => exact ⟨0, by simp [bitsEqual], fun j => by simp⟩
  | succ m ih =>
    obtain ⟨r, hr, hb⟩ := ih (by omega)
    rw [bitsEqual_true] at hr
    have hp : 2 ^ (w - m) = 2 * 2 ^ (w - (m + 1)) := by rw [← Nat.pow_succ']; congr 1; omega
    have he : w - 1 - m = w - (m + 1) := by omega
    refine ⟨2 * r + (a.testBit m).toNat, ?_, fun j => ?_⟩
    · rw [bitsEqual_true, List.range_succ, List.filter_append, List.foldl_append, hr, hp]
      cases ha : a.testBit m <;> simp [ha, he] <;> ring
    · cases j with
      | zero => cases ha : a.testBit m <;> simp [Nat.testBit_zero, ha]
      | succ j =>
        have h2 : (2 * r + (a.testBit m).toNat) / 2 = r := by have := Bool.toNat_lt (a.testBit m); omega
        rw [Nat.testBit_succ, h2, hb]
        simp [show m - (j + 1) = m - 1 - j by omega]

theorem testBit_brev {w a k : Nat} (hk : k < w) : (BitFn.apply .brev w a).testBit k = a.testBit (w - 1 - k) := by
  obtain ⟨r, hr, hb⟩ := brev_from (w := w) (a := a) w (le_refl w)
  rw [BitFn.apply, hr, Nat.sub_self, Nat.pow_zero, Nat.one_mul, hb]
  simp [hk]

/-- Settles O9: the counts and the reversal. -/
theorem bitCounts : Obligations.BitCounts :=
  ⟨⟨bothUnary_bitFnBody .clz (fun _ _ => rfl) fun _ _ => rfl, bothUnary_bitFnBody .ctz (fun _ _ => rfl) fun _ _ => rfl,
    bothUnary_bitFnBody .popc (fun _ _ => rfl) fun _ _ => rfl, bothUnary_bitFnBody .brev (fun _ _ => rfl) fun _ _ => rfl⟩,
    fun w a ha => ⟨⟨by simp [BitFn.apply], by simp [BitFn.apply, bitsEqual]⟩, clz_bounds ha, ctz_spec ha,
      by rw [BitFn.apply, bitsEqual_true], fun _ => testBit_brev⟩⟩

/-! ## Bit fields (R325) -/

theorem fieldOf_32 (ctl : Nat) :
    fieldOf 32 ctl = (ctl % 256, if 32 ≤ ctl % 256 then 0 else min (ctl / 256 % 256) (32 - ctl % 256)) := rfl

/-- A field taken out of a value. -/
theorem testBit_bfx {a ctl pos len k : Nat} (hf : fieldOf 32 ctl = (pos, len)) (hk : k < 32) :
    (bfx .n32 a ctl).toNat.testBit k = (decide (k < len) && a.testBit (pos + k)) := by
  simp only [bfx, Ty.width, hf, Ty.isSigned, Bool.false_eq_true, if_false]
  split_ifs with h0
  · simp [h0]
  · rw [testBit_ofNat _ _ (by omega), Nat.testBit_mod_two_pow, Nat.testBit_div_two_pow, Nat.add_comm]

/-- A field put into a value. -/
theorem testBit_bfi {a b ctl pos len k : Nat} (hf : fieldOf 32 ctl = (pos, len)) (hk : k < 32) :
    (bfi .b32 a b ctl).toNat.testBit k = if pos ≤ k ∧ k < pos + len then b.testBit (k - pos) else a.testBit k := by
  simp only [bfi, Ty.width, hf]
  by_cases h0 : len = 0
  · rw [if_pos h0, testBit_ofNat _ _ (by omega), if_neg (by omega)]
  · have hs : a % 2 ^ pos + b % 2 ^ len * 2 ^ pos + a / 2 ^ (pos + len) * 2 ^ (pos + len) =
        2 ^ pos * (2 ^ len * (a / 2 ^ (pos + len)) + b % 2 ^ len) + a % 2 ^ pos := by rw [Nat.pow_add]; ring
    rw [if_neg h0, testBit_ofNat _ _ (by omega), hs, Nat.testBit_two_pow_mul_add _ (Nat.mod_lt _ (by positivity)),
      Nat.testBit_two_pow_mul_add _ (Nat.mod_lt _ (by positivity))]
    simp only [Nat.testBit_mod_two_pow, Nat.testBit_div_two_pow]
    by_cases h1 : k < pos
    · simp [h1, Nat.not_le.mpr h1]
    · by_cases h2 : k - pos < len
      · simp [h1, h2, show pos ≤ k ∧ k < pos + len by omega]
      · simp [h1, h2, show ¬(pos ≤ k ∧ k < pos + len) by omega, show k - pos - len + (pos + len) = k by omega]

/-- Settles O10: the forms lane by lane, and their fields bit by bit. -/
theorem fieldResults : Obligations.FieldResults :=
  ⟨⟨fun e => writes_plain 2 _ (fun _ => rfl) fun c => funext fun l => by rw [ofNat_uval],
    fun e => writes_plain 2 _ (fun _ => rfl) fun c => funext fun l => by rw [ofNat_uval, ofNat_uval],
    fun e => writes_plain 2 _ (fun _ => rfl) fun _ => rfl⟩,
    fun _ _ ctl _ _ _ hk => ⟨testBit_bfx (fieldOf_32 ctl) hk, testBit_bfi (fieldOf_32 ctl) hk⟩⟩

end Sys2Proof.Machine
end

