-- ==== Sys2Proof/Proofs/LanesTogether.lean ====
section
/-! SUPPORT. Predicates, votes, shuffles, matches, reductions, and the carry chain: rows 0x1 and IADDC (R86, R356, R372, R381, R391, R392,
R398, R399, R411). -/
namespace Sys2Proof.Machine

/-! ## Votes -/

theorem hasLane_voted (c : Ctx) (l : Nat) : hasLane c.voted l = (hasLane c.act l && c.truthOf (c.a l) 0) := by
  rw [Ctx.voted, hasLane_maskOf]
  by_cases h : hasLane c.act l = true
  · simp [h, hasLane_lt h]
  · simp [h]

/-- Every active lane has voted for it where the votes are all of Active(). -/
theorem voted_eq_act (c : Ctx) : decide (c.voted = c.act) = (lanesOf c.act).all fun l => c.truthOf (c.a l) 0 := by
  rw [Bool.eq_iff_iff, decide_eq_true_eq, List.all_eq_true]
  constructor
  · intro h l hl
    have := hasLane_voted c l
    rw [h, mem_lanesOf.mp hl] at this
    simpa using this.symm
  · intro h
    refine mask_ext fun l _ => ?_
    rw [hasLane_voted]
    by_cases hl : hasLane c.act l = true
    · simp [hl, h l (mem_lanesOf.mpr hl)]
    · simp [hl]

theorem voted_ne_zero (c : Ctx) : decide (c.voted ≠ 0) = (lanesOf c.act).any fun l => c.truthOf (c.a l) 0 := by
  rw [Bool.eq_iff_iff, decide_eq_true_eq, List.any_eq_true]
  refine mask_ne_zero.trans ⟨?_, ?_⟩
  · rintro ⟨l, hl⟩
    rw [hasLane_voted, Bool.and_eq_true] at hl
    exact ⟨l, mem_lanesOf.mpr hl.1, hl.2⟩
  · rintro ⟨l, hl, ht⟩
    exact ⟨l, by rw [hasLane_voted, mem_lanesOf.mp hl, ht]; rfl⟩

/-- Settles O11: a predicate operation is its truth value lane by lane, a vote is read off the mask of the lanes that hold. -/
theorem predicateResults : Obligations.PredicateResults :=
  ⟨fun _ => writes_plain 2 _ (fun _ => rfl) fun _ => rfl, fun _ => writes_plain 2 _ (fun _ => rfl) fun _ => rfl,
    fun _ => writes_plain 2 _ (fun _ => rfl) fun _ => rfl, fun _ => writes_plain 2 _ (fun _ => rfl) fun _ => rfl,
    fun _ => writes_plain 2 _ (fun _ => rfl) fun _ => rfl,
    fun _ => writes_plain 4 _ (fun _ => rfl) fun c => funext fun _ => congrArg truth (voted_eq_act c),
    fun _ => writes_plain 4 _ (fun _ => rfl) fun c => funext fun _ => congrArg truth (voted_ne_zero c),
    fun _ => writes_plain 4 _ (fun _ => rfl) fun _ => rfl⟩

/-! ## Shuffles and matches -/

/-- What a lane of SHFL takes. -/
def Ctx.shuffled (m : Nat) (c : Ctx) (l : Nat) : DWord :=
  match shflSource m (c.f.e.aux.getLsbD 3) (c.f.e.aux &&& 7#8).toNat l (loWord (c.b l)).toNat with
  | some k => if hasLane c.act k then c.a k else if c.f.e.aux.getLsbD 4 then 0 else c.a l
  | none => if c.f.e.aux.getLsbD 4 then 0 else c.a l

theorem writes_shflBody {i : Instr} {f : Form} (m : Nat) (he : ∀ s, exec i s = issue f (shflBody m) s) :
    Writes i f (plainly (Ctx.shuffled m)) := by
  refine writes_pipe _ 4 _ he fun c => funext fun l => ?_
  unfold Ctx.shuffled
  dsimp only
  cases shflSource m (c.f.e.aux.getLsbD 3) (c.f.e.aux &&& 7#8).toNat l (loWord (c.b l)).toNat with
  | none => rfl
  | some k => by_cases h : hasLane c.act k = true <;> simp [h]

/-- Settles O12: every source is read from the context of the issue, before any lane is written. -/
theorem shuffleResults : Obligations.ShuffleResults :=
  ⟨fun _ => writes_shflBody 0 fun _ => rfl, fun _ => writes_shflBody 1 fun _ => rfl, fun _ => writes_shflBody 2 fun _ => rfl,
    fun _ => writes_shflBody 3 fun _ => rfl, fun _ => writes_pipe _ 4 Ctx.spanBeat (fun _ => rfl) fun _ => rfl,
    fun _ => writes_pipe _ 4 Ctx.spanBeat (fun _ => rfl) fun _ => rfl⟩

/-! ## Reductions -/

/-- The sum of the words that are present in a list. -/
def wordSum : List (Option DWord) → Word
  | [] => 0
  | none :: t => wordSum t
  | some x :: t => loWord x + wordSum t

section
variable {op : DWord → DWord → DWord × Flags} (hop : ∀ x y, loWord (op x y).1 = loWord x + loWord y)
include hop

theorem wordSum_pairUp (l : List (Option DWord)) : wordSum (pairUp op l).1 = wordSum l := by
  match l with
  | [] => rfl
  | [_] => rfl
  | none :: y :: t => cases y <;> simp [pairUp, wordSum, wordSum_pairUp t]
  | some x :: none :: t => simp [pairUp, wordSum, wordSum_pairUp t]
  | some x :: some y :: t => simp [pairUp, wordSum, wordSum_pairUp t, hop, BitVec.add_assoc]

theorem wordSum_treeLevels (n : Nat) (l : List (Option DWord)) : wordSum (treeLevels op n l).1 = wordSum l := by
  induction n generalizing l with
  | zero => rfl
  | succ n ih => rw [treeLevels, ih, wordSum_pairUp hop]

end

theorem length_pairUp (op : DWord → DWord → DWord × Flags) (l : List (Option DWord)) : (pairUp op l).1.length = (l.length + 1) / 2 := by
  match l with
  | [] => rfl
  | [_] => simp [pairUp]
  | a :: b :: t =>
    have ih := length_pairUp op t
    cases a <;> cases b <;> simp only [pairUp, List.length_cons, ih] <;> omega

theorem any_pairUp (op : DWord → DWord → DWord × Flags) (l : List (Option DWord)) :
    (pairUp op l).1.any Option.isSome = l.any Option.isSome := by
  match l with
  | [] => rfl
  | [_] => rfl
  | a :: b :: t => cases a <;> cases b <;> simp [pairUp, any_pairUp op t]

theorem any_treeLevels (op : DWord → DWord → DWord × Flags) (n : Nat) (l : List (Option DWord)) :
    (treeLevels op n l).1.any Option.isSome = l.any Option.isSome := by
  induction n generalizing l with
  | zero => rfl
  | succ n ih => rw [treeLevels, ih, any_pairUp]

theorem length_treeLevels (op : DWord → DWord → DWord × Flags) (n : Nat) (l : List (Option DWord)) (hl : l.length = 2 ^ n) :
    (treeLevels op n l).1.length = 1 := by
  induction n generalizing l with
  | zero => exact hl
  | succ n ih => rw [treeLevels, ih]; rw [length_pairUp, hl, Nat.pow_succ]; omega

/-- The words of the lanes of a mask, present in their places. -/
theorem wordSum_map (m : Mask) (x : Nat → Word) (ls : List Nat) (a : Word) :
    a + wordSum (ls.map fun l => if hasLane m l then some ((x l).setWidth 64) else none) = (ls.filter (hasLane m)).foldl (fun a l => a + x l) a := by
  induction ls generalizing a with
  | nil => simp [wordSum]
  | cons l ls ih =>
    by_cases h : hasLane m l = true
    · rw [List.map_cons, if_pos h, List.filter_cons_of_pos h, List.foldl_cons, ← ih, wordSum, BitVec.add_assoc]
      simp [loWord]
    · rw [List.map_cons, if_neg h, List.filter_cons_of_neg h, ← ih, wordSum]

theorem loWord_redsOp_add (x y : DWord) : loWord (redsOp 0 .n32 .rn x y).1 = loWord x + loWord y := by
  change loWord (intResult .n32 false (intVal .n32 x.toNat + intVal .n32 y.toNat)) = _
  rw [intResult, if_neg (by decide), loWord_placeInt rfl rfl]
  have hv (a : Nat) : intVal .n32 a = ((a % 2 ^ 32 : Nat) : Int) := rfl
  rw [hv, hv, ← Int.natCast_add, ← BitVec.toNat_setWidth, ← BitVec.toNat_setWidth, BitVec.ofInt_natCast, BitVec.ofNat_add,
    BitVec.ofNat_toNat, BitVec.ofNat_toNat, BitVec.setWidth_eq, BitVec.setWidth_eq]
  rfl

/-- On words whose sum wraps, the tree gives the sum of those that are present. -/
theorem loWord_treeCombine_add {m : Mask} (x : Nat → Word) (hm : m ≠ 0) :
    loWord (treeCombine (redsOp 0 .n32 .rn) (fun k => (x k).setWidth 64) m).1 = (lanesOf m).foldl (fun a l => a + x l) 0 := by
  have hsum := wordSum_map m x lanes 0
  simp only [treeCombine]
  generalize hl : (lanes.map fun l => if hasLane m l then some ((x l).setWidth 64) else none) = l at hsum ⊢
  have hlen := length_treeLevels (redsOp 0 .n32 .rn) 5 l (by rw [← hl]; rfl)
  have hany := any_treeLevels (redsOp 0 .n32 .rn) 5 l
  have hval := wordSum_treeLevels loWord_redsOp_add 5 l
  have hs : l.any Option.isSome = true := by
    obtain ⟨k, hk⟩ := mask_ne_zero.mp hm
    rw [← hl, List.any_eq_true]
    exact ⟨_, List.mem_map_of_mem (mem_lanes.mpr (hasLane_lt hk)), by rw [if_pos hk]; rfl⟩
  rw [hs] at hany
  obtain ⟨o, ho⟩ := List.length_eq_one_iff.mp hlen
  rw [ho] at hany hval ⊢
  cases o with
  | none => cases hany
  | some v =>
    rw [lanesOf, ← hsum, ← hval]
    simp [wordSum]

/-- Settles O13: both forms combine in the tree, which on wrapping sums is the sum. -/
theorem reductionResults : Obligations.ReductionResults :=
  ⟨⟨fun _ => writesIf_of_pipe _ (fun _ => rfl) fun _ _ _ _ => ⟨8, _, none, _, rfl, rfl⟩,
    fun _ => writesIf_of_pipe _ (fun _ => rfl) fun _ _ _ _ => ⟨8, _, none, _, rfl, rfl⟩⟩, fun _ x => loWord_treeCombine_add x⟩

/-! ## The carry chain -/

/-- The carry or borrow out of a lane. -/
def Ctx.carryOut (c : Ctx) (l : Nat) : Bool := decide (c.carrySum l < 0) || decide (((2 ^ c.f.e.ty.width : Nat) : Int) ≤ c.carrySum l)

/-- The two writes of IADDC: the sum to D, the carry out to C. -/
def Ctx.carryWrites (c : Ctx) : List RegWrite :=
  [c.result fun l => placeInt c.f.e.ty (c.carrySum l), { d := c.f.e.c, wide := false, act := c.act, vals := tableOf c.act fun l => truth (c.carryOut l) }]

theorem loWord_truth_ne_zero (b : Bool) : decide (loWord (truth b) ≠ 0) = b := by cases b <;> rfl

/-- A result that goes to no predicate stands after a write of a predicate. -/
theorem Wrote.writeP {o : Opd} {w : Bool} {act : Mask} {f : Nat → DWord} {t : Strand} (n : BitVec 3) (a : Mask) (g : Nat → Bool)
    (ho : ∀ m, o ≠ .p m) (h : Wrote o w act f t) : Wrote o w act f (t.writeP a n.toNat g) := by
  cases o with
  | v m => exact fun l hl => by simpa using h l hl
  | s m => simpa [Wrote] using h
  | p m => exact (ho m rfl).elim
  | _ => trivial

/-- Settles O7: D and the predicate of C are two writes of one pipeline entry, each of a register of its own. -/
theorem carryChain : Obligations.CarryChain := by
  intro e s c n hr hc hn hd
  obtain ⟨-, -, hs, hf, -, ha⟩ := hr.spec
  have he : c.f.e = e := by rw [hf]; rfl
  have hw : c.f.dstWide = e.ty.is64 := by rw [hf]; rfl
  obtain ⟨u, y, due, hu, hi, hst, hsame, -⟩ := pipe_strand c c.carryWrites 0 2 0 none hs
  have hfin := final_append y due _ 0 none hsame hst hi
  have hx : exec (.iaddc e) s = .next (c.settle 0 (.pipe c.carryWrites 0 2 0 none)) :=
    issue_runs (fun c : Ctx => .pipe c.carryWrites 0 2 0 none) hr
  have hputs : c.carryWrites.foldl Strand.put c.t.final =
      (c.t.final.put (c.result fun l => placeInt c.f.e.ty (c.carrySum l))).writeP c.act n.toNat
        fun l => decide (loWord (SMap.look 0 (tableOf c.act fun l => truth (c.carryOut l)) l) ≠ 0) := by
    simp only [Ctx.carryWrites, List.foldl_cons, List.foldl_nil, he, hc]
    rfl
  refine ⟨_, u, hx, hu, ?_, fun l hl => ?_⟩
  · refine Wrote.same hfin (Wrote.same (t := c.carryWrites.foldl Strand.put c.t.final) ⟨rfl, rfl, rfl, ?_⟩ ?_)
    · simp [Strand.orFlags]
    · rw [hputs]
      refine Wrote.writeP n _ _ hd ?_
      have hput := wrote_writeD c.t.final c.act c.f.e.d c.f.dstWide (SMap.look 0 (tableOf c.act fun l => placeInt c.f.e.ty (c.carrySum l))) ha
      rw [hw] at hput
      subst he
      simp only [Strand.put, Ctx.result, hw]
      exact hput.congr ha fun l hl => look_tableOf _ _ _ hl
  · have hq : u.final.p = (c.carryWrites.foldl Strand.put c.t.final).p := hfin.2.2.1
    have hn7 : n.toNat ≠ 7 := fun h => hn (BitVec.eq_of_toNat_eq h)
    calc u.final.pAt n.toNat l = (c.carryWrites.foldl Strand.put c.t.final).pAt n.toNat l := by simp only [Strand.pAt, hq]
      _ = c.carryOut l := by
        rw [hputs, pAt_writeP, if_pos ⟨rfl, hn7, hl⟩, look_tableOf _ _ _ hl, loWord_truth_ne_zero]
      _ = _ := by simp only [Ctx.carryOut, Ctx.carrySum, he]

end Sys2Proof.Machine
end

