-- ==== Sys2Proof/Proofs/Floats.lean ====
section
/-! SUPPORT. Floating point, conversions and packed forms: every lane, or every element of a lane, alone (R70, R71, R109, R335 to R350, R362,
R395). -/
namespace Sys2Proof.Machine

/-- Settles O14: each form writes the float of its lane and raises the flags of its lanes. -/
theorem floatResults : Obligations.FloatResults :=
  ⟨bothForms_flags 4 (fun _ _ => rfl) fun _ _ => rfl, bothForms_flags 4 (fun _ _ => rfl) fun _ _ => rfl,
    bothForms_flags 4 (fun _ _ => rfl) fun _ _ => rfl, bothForms_flags 24 (fun _ _ => rfl) fun _ _ => rfl,
    bothForms_flags 4 (fun _ _ => rfl) fun _ _ => rfl, bothForms_flags 4 (fun _ _ => rfl) fun _ _ => rfl,
    fun _ => writes_flags 4 _ (fun _ => rfl) fun _ => rfl⟩

/-- A correctly rounded function, in both forms of its cell. -/
theorem bothUnary_floatFn {base : Base → Instr} {ext : Ext → Instr} {op : Nat} (fn : Fn)
    (hb : ∀ b s, exec (base b) s = issue (Form.ofBase op b) (floatFnBody fn) s)
    (hl : ∀ e s, exec (ext e) s = issue (Form.ofExt op e) (floatFnBody fn) s) :
    BothUnary base ext op fun c l => floatOut (ffun (fmtOf c.f.e.ty) c.rm fn (c.fl (c.a l))) := bothUnary_flags 24 hb hl

/-- Settles O15: the functions raise the flags of their lanes; the operations on the sign and the class raise none. -/
theorem floatFunctionResults : Obligations.FloatFunctionResults :=
  ⟨bothUnary_floatFn .sqrt (fun _ _ => rfl) fun _ _ => rfl, bothUnary_floatFn .rcp (fun _ _ => rfl) fun _ _ => rfl,
    bothUnary_floatFn .rsq (fun _ _ => rfl) fun _ _ => rfl, bothUnary_floatFn .exp2 (fun _ _ => rfl) fun _ _ => rfl,
    bothUnary_floatFn .log2 (fun _ _ => rfl) fun _ _ => rfl, bothUnary_floatFn .sin (fun _ _ => rfl) fun _ _ => rfl,
    bothUnary_floatFn .cos (fun _ _ => rfl) fun _ _ => rfl, bothUnary_plain 4 _ (fun _ _ => rfl) (fun _ _ => rfl) fun _ => rfl,
    bothUnary_plain 4 _ (fun _ _ => rfl) (fun _ _ => rfl) fun _ => rfl, fun _ => writes_flags 4 _ (fun _ => rfl) fun _ => rfl,
    fun _ => writes_plain 4 _ (fun _ => rfl) fun _ => rfl, fun _ => writes_flags 4 _ (fun _ => rfl) fun _ => rfl,
    fun _ => writes_flags 4 _ (fun _ => rfl) fun _ => rfl, fun _ => writes_flags 4 _ (fun _ => rfl) fun _ => rfl⟩

/-- Settles O16: both forms are the conversion of each lane with its flags. -/
theorem conversionResults : Obligations.ConversionResults :=
  ⟨fun _ => writes_flags 4 _ (fun _ => rfl) fun _ => rfl, fun _ => writes_flags 4 _ (fun _ => rfl) fun _ => rfl⟩

/-! ## Packed forms -/

/-- The integer result of a lane, element by element, from the elements' integers. -/
def Ctx.packedOut (n : Nat) (f : Int → Int → Int → Int) (c : Ctx) (l : Nat) : DWord × Flags :=
  packed c.f.e.ty.width n fun k =>
    ((intResult c.f.e.ty c.sat
      (f (intVal c.f.e.ty (element c.f.e.ty.width k (c.a l))) (intVal c.f.e.ty (element c.f.e.ty.width k (c.b l)))
        (intVal c.f.e.ty (element c.f.e.ty.width k (c.cc l))))).toNat, 0)

theorem writes_packedInt {i : Instr} {f : Form} (n : Nat) (g h : Int → Int → Int → Int) (hgh : g = h)
    (he : ∀ s, exec i s = issue f (packedInt n g) s) : Writes i f (Ctx.packedOut n h) :=
  writes_flags 4 _ he fun _ => by rw [← hgh]; rfl

theorem least_eq_min : (fun a b _ => if a < b then a else b : Int → Int → Int → Int) = fun a b _ => min a b := by
  funext a b _
  split <;> omega

theorem greatest_eq_max : (fun a b _ => if a < b then b else a : Int → Int → Int → Int) = fun a b _ => max a b := by
  funext a b _
  split <;> omega

/-- Settles O17: each lane packs the results of its elements. -/
theorem packedResults : Obligations.PackedResults :=
  ⟨⟨fun _ => writes_packedInt 2 _ (fun a b _ => a + b) rfl fun _ => rfl, fun _ => writes_packedInt 2 _ (fun a b _ => a - b) rfl fun _ => rfl,
    fun _ => writes_packedInt 2 _ (fun a b _ => a * b) rfl fun _ => rfl, fun _ => writes_packedInt 2 _ (fun a b c => a * b + c) rfl fun _ => rfl,
    fun _ => writes_packedInt 2 _ (fun a b _ => min a b) least_eq_min fun _ => rfl,
    fun _ => writes_packedInt 2 _ (fun a b _ => max a b) greatest_eq_max fun _ => rfl,
    fun _ => writes_packedInt 2 _ (fun a _ _ => (a.natAbs : Int)) rfl fun _ => rfl,
    fun _ => writes_packedInt 2 _ (fun a _ _ => -a) rfl fun _ => rfl, fun _ => writes_packedInt 4 _ (fun a b _ => a + b) rfl fun _ => rfl,
    fun _ => writes_packedInt 4 _ (fun a b _ => a - b) rfl fun _ => rfl,
    fun _ => writes_packedInt 4 _ (fun a b _ => min a b) least_eq_min fun _ => rfl,
    fun _ => writes_packedInt 4 _ (fun a b _ => max a b) greatest_eq_max fun _ => rfl,
    fun _ => writes_packedInt 4 _ (fun a _ _ => (a.natAbs : Int)) rfl fun _ => rfl⟩,
   fun _ => writes_flags 4 _ (fun _ => rfl) fun _ => rfl, fun _ => writes_flags 4 _ (fun _ => rfl) fun _ => rfl,
   fun _ => writes_flags 4 _ (fun _ => rfl) fun _ => rfl, fun _ => writes_flags 4 _ (fun _ => rfl) fun _ => rfl,
   fun _ => writes_flags 4 _ (fun _ => rfl) fun _ => rfl, fun _ => writes_flags 4 _ (fun _ => rfl) fun _ => rfl,
   fun _ => writes_flags 4 _ (fun _ => rfl) fun _ => rfl, fun _ => writes_flags 4 _ (fun _ => rfl) fun _ => rfl,
   fun _ => writes_flags 4 _ (fun _ => rfl) fun _ => rfl, fun _ => writes_flags 4 _ (fun _ => rfl) fun _ => rfl,
   fun _ => writes_flags 4 _ (fun _ => rfl) fun _ => rfl, fun _ => writes_flags 4 _ (fun _ => rfl) fun _ => rfl⟩

end Sys2Proof.Machine
end

