-- ==== Sys2Proof/Proofs/MachineReads.lean ====
section
/-! SUPPORT. The instructions that read state into a register: CSRR and the readers of views, hand-offs and the replay queue (R54, R144, R208, R249,
R268, R279, R334, R370). -/
namespace Sys2Proof.Machine

/-- An instruction that runs freely, by the effect that its meaning gives. -/
theorem exec_of_body {i : Instr} {f : Form} {s : State} {c : Ctx} {e : Eff} (body : Ctx → Eff) (he : exec i s = issue f body s)
    (hr : Runs s f c) (hb : body c = e) : exec i s = .next (c.settle 0 e) := by
  rw [he, issue_runs body hr, hb]

/-- An instruction whose meaning, where `ok` holds, is one value for each lane. -/
theorem writesIf_plain {i : Instr} {f : Form} {ok : Ctx → Prop} {x : Ctx → Nat → DWord} (n : Nat) (body : Ctx → Eff)
    (he : ∀ s, exec i s = issue f body s) (hb : ∀ c : Ctx, c.f = f → c.act ≠ 0 → ok c → body c = c.write n (x c)) :
    WritesIf i f ok (plainly x) :=
  writesIf_of_pipe body he fun c hf ha hok => ⟨n, 0, none, 0, hb c hf ha hok, (flagsOf_zero _).symm⟩

/-! ## Special registers -/

/-- CSRR of an index writes the value of that register, where no write of it is on its way. -/
theorem writesIf_csrr {e : Ext} {ok : Ctx → Prop} (idx : Nat) (x : Ctx → Nat → Nat) (hi : e.imm.toNat = idx)
    (hx : ∀ c l, c.special idx l = some (x c l))
    (hok : ∀ c, ok c → (idx = 0x11 → c.flagsComing = false) ∧ (idx = 0x0F → c.clockComing = false)) :
    WritesIf (.csrr e) (Form.ofExt 0xC0 e) ok (plainly fun c l => BitVec.ofNat 64 (x c l)) := by
  refine writesIf_of_pipe csrrBody (fun _ => rfl) fun c hf _ hc => ?_
  have hs : c.srIndex = idx := by rw [Ctx.srIndex, hf]; exact hi
  obtain ⟨h11, h0f⟩ := hok c hc
  have h1 : (decide (c.srIndex = 0x11) && c.flagsComing) = false := by
    rw [hs, Bool.and_eq_false_imp, decide_eq_true_eq]; exact h11
  have h2 : (decide (c.srIndex = 0x0F) && c.clockComing) = false := by
    rw [hs, Bool.and_eq_false_imp, decide_eq_true_eq]; exact h0f
  refine ⟨2, 0, if c.srIndex = 0x0E then some c.s.cycle else none, 0, ?_, (flagsOf_zero _).symm⟩
  simp only [csrrBody, h1, h2, Bool.false_eq_true, if_false, plainly]
  simp only [hs, hx, Option.getD_some]

/-- `writesIf_csrr` for a register that no instruction in flight writes. -/
theorem writes_csrr {e : Ext} (idx : Nat) (x : Ctx → Nat → Nat) (hi : e.imm.toNat = idx) (hx : ∀ c l, c.special idx l = some (x c l))
    (h11 : idx ≠ 0x11) (h0f : idx ≠ 0x0F) : Writes (.csrr e) (Form.ofExt 0xC0 e) (plainly fun c l => BitVec.ofNat 64 (x c l)) :=
  writesIf_csrr idx x hi hx fun _ _ => ⟨fun h => (h11 h).elim, fun h => (h0f h).elim⟩

theorem foldl_congr {α β : Type} (f g : β → α → β) (h : ∀ b a, f b a = g b a) (l : List α) (b : β) : l.foldl f b = l.foldl g b := by
  rw [show f = g from funext fun b => funext fun a => h b a]

theorem cohortsWord_eq (ms : List Nat) : cohortsWord ms =
    (List.range 4).foldl (fun w m => w + (match ms[m]? with | some k => k % 256 | none => 255) * 2 ^ (8 * m)) 0 := by
  refine foldl_congr _ _ (fun w m => ?_) _ _
  rw [List.getD_eq_getElem?_getD]
  cases ms[m]? <;> rfl

theorem ctags_eq (k : Crew) (hi : Bool) : k.ctags hi =
    (List.range 32).foldl (fun w n => w + if (k.tag ((if hi then 32 else 0) + n)).state = .done then 2 ^ n else 0) 0 := by
  refine foldl_congr _ _ (fun w n => ?_) _ _
  cases hi <;> simp only [Bool.false_eq_true, if_true, if_false, Nat.zero_add] <;> split <;> rfl

theorem launchq_eq (g : Grid) : g.launchq = g.queue % 2 ^ 16 + match g.origin with | .device _ => 2 ^ 16 | _ => 0 := rfl

theorem beatsOfWidth_eq {w : Nat} (h : 8 ≤ w) : beatsOfWidth w = (32 + min w 32 - 1) / min w 32 := by
  rw [beatsOfWidth, if_neg (by omega), ceilDiv, Nat.add_sub_assoc (by omega)]

/-- %beats where the cluster has a width. -/
theorem writesIf_beats {e : Ext} (hi : e.imm.toNat = 0x0B) :
    WritesIf (.csrr e) (Form.ofExt 0xC0 e) (fun c => 8 ≤ (c.s.clusterOf c.c c.t).width) (plainly fun c _ =>
      BitVec.ofNat 64 ((32 + min (c.s.clusterOf c.c c.t).width 32 - 1) / min (c.s.clusterOf c.c c.t).width 32)) := by
  intro s c hr hok
  have h := writes_csrr (e := e) 0x0B (fun c _ => beatsOfWidth (c.s.clusterOf c.c c.t).width) hi (fun _ _ => rfl) (by decide) (by decide) s c hr
    trivial
  simpa only [plainly, beatsOfWidth_eq hok] using h

theorem special_reserved (c : Ctx) (idx l : Nat) (h : 0x1C ≤ idx) : c.special idx l = none := by
  obtain ⟨k, rfl⟩ := Nat.exists_eq_add_of_le' h
  rfl

/-- Settles O19: one value for each index; a reserved index fails the check. -/
theorem specialRegisters : Obligations.SpecialRegisters := by
  unfold Obligations.SpecialRegisters
  dsimp only
  exact ⟨fun _ h => writes_csrr 0x00 _ (congrArg BitVec.toNat h) (fun _ _ => rfl) (by decide) (by decide),
    fun _ h => writes_csrr 0x01 _ (congrArg BitVec.toNat h) (fun _ _ => rfl) (by decide) (by decide),
    fun _ h => writes_csrr 0x02 _ (congrArg BitVec.toNat h) (fun _ _ => rfl) (by decide) (by decide),
    fun _ h => writes_csrr 0x03 _ (congrArg BitVec.toNat h) (fun _ _ => rfl) (by decide) (by decide),
    fun _ h => writes_csrr 0x04 _ (congrArg BitVec.toNat h) (fun _ _ => rfl) (by decide) (by decide),
    fun _ h => writes_csrr 0x05 _ (congrArg BitVec.toNat h) (fun _ _ => rfl) (by decide) (by decide),
    fun _ h => writes_csrr 0x06 _ (congrArg BitVec.toNat h) (fun _ _ => rfl) (by decide) (by decide),
    fun _ h => writes_csrr 0x07 _ (congrArg BitVec.toNat h) (fun c _ => congrArg some (cohortsWord_eq (c.g.memberships c.c.idx))) (by decide) (by decide),
    fun _ h => writes_csrr 0x08 _ (congrArg BitVec.toNat h) (fun _ _ => rfl) (by decide) (by decide),
    fun _ h => writes_csrr 0x09 _ (congrArg BitVec.toNat h) (fun _ _ => rfl) (by decide) (by decide),
    fun _ h => writes_csrr 0x0A _ (congrArg BitVec.toNat h) (fun _ _ => rfl) (by decide) (by decide),
    fun _ h => writesIf_beats (congrArg BitVec.toNat h),
    fun _ h => writes_csrr 0x0C _ (congrArg BitVec.toNat h) (fun c _ => congrArg some (ctags_eq c.c false)) (by decide) (by decide),
    fun _ h => writes_csrr 0x0D _ (congrArg BitVec.toNat h) (fun c _ => congrArg some (ctags_eq c.c true)) (by decide) (by decide),
    fun _ h => writes_csrr 0x0E _ (congrArg BitVec.toNat h) (fun _ _ => rfl) (by decide) (by decide),
    fun _ h => writesIf_csrr 0x0F _ (congrArg BitVec.toNat h) (fun _ _ => rfl) fun _ hc => ⟨fun h => by simp at h, fun _ => hc⟩,
    fun _ h => writes_csrr 0x10 _ (congrArg BitVec.toNat h) (fun _ _ => rfl) (by decide) (by decide),
    fun _ h => writesIf_csrr 0x11 _ (congrArg BitVec.toNat h) (fun _ _ => rfl) fun _ hc => ⟨fun _ => hc, fun h => by simp at h⟩,
    fun _ h => writes_csrr 0x12 _ (congrArg BitVec.toNat h) (fun _ _ => rfl) (by decide) (by decide),
    fun _ h => writes_csrr 0x13 _ (congrArg BitVec.toNat h) (fun _ _ => rfl) (by decide) (by decide),
    fun _ h => writes_csrr 0x14 _ (congrArg BitVec.toNat h) (fun _ _ => rfl) (by decide) (by decide),
    fun _ h => writes_csrr 0x15 _ (congrArg BitVec.toNat h) (fun _ _ => rfl) (by decide) (by decide),
    fun _ h => writes_csrr 0x16 _ (congrArg BitVec.toNat h) (fun _ _ => rfl) (by decide) (by decide),
    fun _ h => writes_csrr 0x17 _ (congrArg BitVec.toNat h) (fun _ _ => rfl) (by decide) (by decide),
    fun _ h => writes_csrr 0x18 _ (congrArg BitVec.toNat h) (fun _ _ => rfl) (by decide) (by decide),
    fun _ h => writes_csrr 0x19 _ (congrArg BitVec.toNat h) (fun _ _ => rfl) (by decide) (by decide),
    fun _ h => writes_csrr 0x1A _ (congrArg BitVec.toNat h) (fun _ _ => rfl) (by decide) (by decide),
    fun _ h => writes_csrr 0x1B _ (congrArg BitVec.toNat h) (fun _ _ => rfl) (by decide) (by decide),
    fun e s c hr h => exec_of_body csrrBody rfl hr (by
      obtain ⟨-, -, -, hf, -⟩ := hr.spec
      rw [csrrBody, Ctx.srIndex, hf, show (Form.ofExt 0xC0 e).e.imm.toNat = e.imm.toNat from rfl, special_reserved c _ 0 h])⟩

/-! ## Readers of state -/

theorem slotTrap_none {c : Ctx} (h1 : c.g.record.chained = true) (h2 : c.g.mode c.slot ≠ 0) : c.slotTrap none = none := by
  simp [Ctx.slotTrap, h1, h2]

theorem slotTrap_some {c : Ctx} {k : Nat} (h1 : c.g.record.chained = true) (h2 : c.g.mode c.slot ≠ 0) (h3 : c.g.dist c.slot k = true) :
    c.slotTrap (some k) = none := by
  simp [Ctx.slotTrap, h1, h2, h3]

theorem firstLane_none {m : Mask} {p : Nat → Bool} (h : ∀ l, hasLane m l = true → p l = false) : firstLane m p = none := by
  rw [firstLane, List.find?_eq_none]
  exact fun l hl => by rw [h l (mem_lanesOf.mp hl)]; exact Bool.false_ne_true

theorem hopsBetween_eq (p q : Nat) :
    hopsBetween p q = ((p / 3 : Nat) - (q / 3 : Nat) : Int).natAbs + ((p % 3 : Nat) - (q % 3 : Nat) : Int).natAbs := by
  rw [hopsBetween]
  omega

/-- Settles O20: each reads its state where its check passes and places it lane by lane. -/
theorem stateReads : Obligations.StateReads := by
  refine ⟨fun e => writesIf_plain 4 _ (fun _ => rfl) fun c hf _ _ => ?_, fun e => writesIf_plain 4 _ (fun _ => rfl) fun c hf _ hok => ?_,
    fun e => writesIf_plain 4 _ (fun _ => rfl) fun c hf _ _ => ?_, fun e => writesIf_plain 4 _ (fun _ => rfl) fun c hf _ hok => ?_,
    fun e => writesIf_plain 4 _ (fun _ => rfl) fun c hf _ hok => ?_, fun e y hy => writesIf_plain 4 _ (fun _ => rfl) fun c hf _ hok => ?_,
    fun e => writesIf_plain 4 _ (fun _ => rfl) fun c hf _ hok => ?_, fun e => writesIf_plain 4 _ (fun _ => rfl) fun c hf _ hok => ?_,
    fun e => writesIf_plain 4 rplqBody (fun _ => rfl) fun c hf _ hok => ?_⟩
  · rw [hf]; rfl
  · have hn : firstLane c.act (fun l => decide (c.g.dieRec.vphys.length ≤ (loWord (c.a l)).toNat) ||
        decide (c.g.dieRec.vphys.length ≤ (loWord (c.b l)).toNat)) = none :=
      firstLane_none fun l hl => by have := hok l hl; simp only [Bool.or_eq_false_iff, decide_eq_false_iff_not]; omega
    simp only [hn, hopsBetween_eq]
  · cases c.s.die? (dieOf c.core) <;> rfl
  · simp only [slotTrap_none hok.1 hok.2]
  · obtain ⟨h1, h2, h3⟩ := hok
    have haux : c.f.e.aux = e.aux := by rw [hf]; rfl
    simp only [haux, slotTrap_some h1 h2 h3]
  · obtain ⟨h1, h2⟩ := hok
    obtain ⟨v, hv⟩ := Option.isSome_iff_exists.mp h1
    obtain ⟨w, hw⟩ := Option.isSome_iff_exists.mp h2
    have ha : c.f.e.a = .w y := by rw [hf]; exact hy
    simp only [ha, hv, hw]
  · obtain ⟨v, hv, h⟩ := hok
    obtain ⟨x, hx⟩ := Option.isSome_iff_exists.mp h
    have haux : c.viewSel = (e.aux &&& 0x3F#8).toNat := by rw [Ctx.viewSel, hf]; rfl
    simp only [Ctx.withView, hv, haux, hx, Option.getD_some]
  · obtain ⟨v, hv, h⟩ := hok
    have hn : c.unbound v = none := firstLane_none fun l hl => by rw [h l hl]; rfl
    simp only [Ctx.withView, hv, hn]
  · obtain ⟨x, hx, hsel⟩ := hok
    simp only [rplqBody, hx]
    rcases hsel with h | ⟨h, hd, hl⟩
    · simp only [if_pos h]
    · by_cases h8 : c.replaySel < 8
      · simp only [if_pos h8]
      · have he : c.f.e.d = e.d := by rw [hf]; rfl
        simp [h8, he, hd, Nat.not_le.mpr h, Option.isSome_iff_ne_none.mp hl]

end Sys2Proof.Machine
end

