-- ==== Sys2Proof/Proofs/Paths.lean ====
section
/-! SUPPORT. The paths of a strand as a division of lanes: what merging, stacking and moving keep (R21, R22, R23). -/
namespace Sys2Proof.Machine

/-- A path of the list holds lane `l` at `w`. -/
def Holds (ps : List Path) (l : Nat) (w : Word) : Prop := ∃ p ∈ ps, hasLane p.mask l = true ∧ p.pc = w

/-- No two paths of the list share a lane. -/
def Apart (ps : List Path) : Prop := ps.Pairwise fun p q => p.mask &&& q.mask = 0

/-- Paths made from others by reordering and by merging two that stand at one place. -/
inductive Joined : List Path → List Path → Prop where
  | perm {ps qs : List Path} : ps.Perm qs → Joined ps qs
  | merge {p q : Path} {ps : List Path} : q.pc = p.pc → Joined (p :: q :: ps) (mergePaths p q :: ps)
  | trans {ps qs rs : List Path} : Joined ps qs → Joined qs rs → Joined ps rs

theorem Joined.refl (ps : List Path) : Joined ps ps := .perm (.refl ps)

theorem mask_disjoint {m n : Mask} : m &&& n = 0 ↔ ∀ l, hasLane m l = true → hasLane n l = false := by
  constructor
  · intro h l hl
    have hz : hasLane (m &&& n) l = false := by rw [h]; exact hasLane_zero l
    rwa [hasLane_and, hl, Bool.true_and] at hz
  · intro h
    refine mask_ext fun l _ => ?_
    rw [hasLane_and, show hasLane (0 : Mask) l = false from hasLane_zero l]
    cases hl : hasLane m l with
    | false => rfl
    | true => rw [h l hl]; rfl

/-- Two paths of a division are disjoint. -/
theorem Apart.disjoint {ps : List Path} {p q : Path} (h : Apart ps) (hp : p ∈ ps) (hq : q ∈ ps) (hne : p ≠ q) : p.mask &&& q.mask = 0 := by
  have : Std.Symm fun p q : Path => p.mask &&& q.mask = 0 := ⟨fun p q h => by rw [BitVec.and_comm]; exact h⟩
  exact List.Pairwise.forall h hp hq hne

theorem holds_cons {p : Path} {ps : List Path} {l : Nat} {w : Word} :
    Holds (p :: ps) l w ↔ (hasLane p.mask l = true ∧ p.pc = w) ∨ Holds ps l w := by
  simp [Holds]

theorem holds_append {ps qs : List Path} {l : Nat} {w : Word} : Holds (ps ++ qs) l w ↔ Holds ps l w ∨ Holds qs l w := by
  simp [Holds, or_and_right, exists_or]

theorem Joined.holds {ps qs : List Path} (h : Joined ps qs) (l : Nat) (w : Word) : Holds qs l w ↔ Holds ps l w := by
  induction h with
  | perm h => simp only [Holds, h.mem_iff]
  | @merge p q ps h =>
    simp only [holds_cons, mergePaths, hasLane_or, Bool.or_eq_true, h, or_and_right, or_assoc]
  | trans _ _ ih1 ih2 => rw [ih2, ih1]

theorem Joined.apart {ps qs : List Path} (h : Joined ps qs) (hp : Apart ps) : Apart qs := by
  induction h with
  | perm h => exact h.pairwise hp fun {p q} h => by rw [BitVec.and_comm]; exact h
  | @merge p q ps _ =>
    obtain ⟨h1, h2⟩ := List.pairwise_cons.mp hp
    obtain ⟨h3, h4⟩ := List.pairwise_cons.mp h2
    refine List.pairwise_cons.mpr ⟨fun r hr => mask_disjoint.mpr fun l hl => ?_, h4⟩
    rw [mergePaths, hasLane_or, Bool.or_eq_true] at hl
    rcases hl with hl | hl
    · exact mask_disjoint.mp (h1 r (List.mem_cons_of_mem _ hr)) l hl
    · exact mask_disjoint.mp (h3 r hr) l hl
  | trans _ _ ih1 ih2 => exact ih2 (ih1 hp)

theorem Joined.nonempty {ps qs : List Path} (h : Joined ps qs) (hp : ∀ p ∈ ps, p.mask ≠ 0) : ∀ q ∈ qs, q.mask ≠ 0 := by
  induction h with
  | perm h => exact fun q hq => hp q (h.mem_iff.mpr hq)
  | @merge p q ps _ =>
    intro r hr
    rcases List.mem_cons.mp hr with rfl | hr
    · obtain ⟨l, hl⟩ := mask_ne_zero.mp (hp p (List.mem_cons_self ..))
      exact mask_ne_zero.mpr ⟨l, by rw [mergePaths, hasLane_or, hl, Bool.true_or]⟩
    · exact hp r (List.mem_cons_of_mem _ (List.mem_cons_of_mem _ hr))
  | trans _ _ ih1 ih2 => exact ih2 (ih1 hp)

/-! ## Settling -/

/-- The entry that is found is in the list, and what stands around it. -/
theorem modNth_findIdx {α : Type} (f : α → α) (test : α → Bool) (l : List α) (h : l.any test = true) :
    ∃ a x b, l = a ++ x :: b ∧ test x = true ∧ modNth l (l.findIdx test) f = a ++ f x :: b := by
  induction l with
  | nil => cases h
  | cons y t ih =>
    by_cases hy : test y = true
    · exact ⟨[], y, t, rfl, hy, by simp [List.findIdx_cons, hy, modNth]⟩
    · have ht : t.any test = true := by simpa [hy] using h
      obtain ⟨a, x, b, h1, h2, h3⟩ := ih ht
      refine ⟨y :: a, x, b, by rw [h1]; rfl, h2, ?_⟩
      simp only [List.findIdx_cons, hy, cond_false, modNth, h3, List.cons_append]

theorem mergeable_pc {p q : Path} (h : mergeable p q = true) : p.pc = q.pc := by
  simp only [mergeable, Bool.and_eq_true, decide_eq_true_eq] at h
  exact h.1.1

/-- One step of `absorbStack`: an entry of the stack joins a split that stands at its place, or stays. -/
def absorbOne (acc : List Path × List Path) (e : Path) : List Path × List Path :=
  if acc.1.any (mergeable e) then (modNth acc.1 (acc.1.findIdx (mergeable e)) fun p => mergePaths p e, acc.2) else (acc.1, acc.2 ++ [e])

theorem absorbStack_eq (splits stack : List Path) : absorbStack splits stack = stack.foldl absorbOne (splits, []) := rfl

theorem joined_absorbOne (acc : List Path × List Path) (e : Path) (rest : List Path) :
    Joined (acc.1 ++ acc.2 ++ e :: rest) ((absorbOne acc e).1 ++ (absorbOne acc e).2 ++ rest) := by
  by_cases h : acc.1.any (mergeable e) = true
  · obtain ⟨a, p, b, h1, h2, h3⟩ := modNth_findIdx (fun p => mergePaths p e) (mergeable e) acc.1 h
    rw [absorbOne, if_pos h, h3, h1]
    refine .trans (.perm ?_) (.trans (.merge (p := p) (q := e) (ps := a ++ (b ++ (acc.2 ++ rest))) (mergeable_pc h2)) (.perm ?_))
    · have he := List.perm_middle (a := e) (l₁ := a ++ p :: (b ++ acc.2)) (l₂ := rest)
      have hp := ((List.perm_middle (a := p) (l₁ := a) (l₂ := b ++ acc.2 ++ rest)).cons e).trans (.swap ..)
      simp only [List.append_assoc, List.cons_append] at he hp ⊢
      exact he.trans hp
    · have := (List.perm_middle (a := mergePaths p e) (l₁ := a) (l₂ := b ++ acc.2 ++ rest)).symm
      simpa using this
  · rw [absorbOne, if_neg h]
    simpa using Joined.refl (acc.1 ++ (acc.2 ++ e :: rest))

theorem joined_absorbStack (splits stack : List Path) :
    Joined (splits ++ stack) ((absorbStack splits stack).1 ++ (absorbStack splits stack).2) := by
  have step (acc : List Path × List Path) (l : List Path) :
      Joined (acc.1 ++ acc.2 ++ l) ((l.foldl absorbOne acc).1 ++ (l.foldl absorbOne acc).2) := by
    induction l generalizing acc with
    | nil => simpa using Joined.refl (acc.1 ++ acc.2)
    | cons e l ih => exact (joined_absorbOne acc e l).trans (ih _)
  simpa [absorbStack_eq] using step (splits, []) stack

theorem length_modNth {α : Type} (l : List α) (n : Nat) (f : α → α) : (modNth l n f).length = l.length := by
  induction l generalizing n with
  | nil => rfl
  | cons x t ih => cases n <;> simp [modNth, ih]

theorem length_absorbStack (splits stack : List Path) : (absorbStack splits stack).1.length = splits.length := by
  have step (acc : List Path × List Path) (l : List Path) : (l.foldl absorbOne acc).1.length = acc.1.length := by
    induction l generalizing acc with
    | nil => rfl
    | cons e l ih =>
      rw [List.foldl_cons, ih, absorbOne]
      split
      · exact length_modNth ..
      · rfl
  exact step (splits, []) stack

/-- The held entry with the lowest lane, as `popStack` chooses it. -/
def lowestHeld (m : Option Path) (p : Path) : Option Path :=
  match m with
  | none => some p
  | some q => if lowest p.mask < lowest q.mask then some p else m

theorem lowestHeld_mem (l : List Path) (m : Option Path) (p : Path) (h : l.foldl lowestHeld m = some p) : p ∈ l ∨ m = some p := by
  induction l generalizing m with
  | nil => exact .inr h
  | cons q l ih =>
    rcases ih _ h with h | h
    · exact .inl (List.mem_cons_of_mem _ h)
    · have hq : some q = some p → p ∈ q :: l := fun h => by injection h with h; rw [h]; exact List.mem_cons_self ..
      cases m with
      | none => exact .inl (hq h)
      | some r =>
        simp only [lowestHeld] at h
        split at h
        · exact .inl (hq h)
        · exact .inr h

/-- `popStack` moves entries of the stack to the splits, while there are fewer than four. -/
theorem popStack_keeps (ready : Path → Bool) (fuel : Nat) (x : List Path × List Path) :
    Joined (x.1 ++ x.2) ((popStack ready fuel x).1 ++ (popStack ready fuel x).2) ∧
      (x.1.length ≤ 4 → (popStack ready fuel x).1.length ≤ 4) := by
  induction fuel generalizing x with
  | zero => exact ⟨.refl _, id⟩
  | succ fuel ih =>
    obtain ⟨splits, stack⟩ := x
    have take {p : Path} (hp : p ∈ stack) (h4 : ¬4 ≤ splits.length) :
        Joined (splits ++ stack) ((popStack ready fuel (splits ++ [p], stack.erase p)).1 ++ (popStack ready fuel (splits ++ [p], stack.erase p)).2) ∧
          (splits.length ≤ 4 → (popStack ready fuel (splits ++ [p], stack.erase p)).1.length ≤ 4) := by
      obtain ⟨h1, h2⟩ := ih (splits ++ [p], stack.erase p)
      refine ⟨.trans (.perm ?_) h1, fun _ => h2 (by simp only [List.length_append, List.length_singleton]; omega)⟩
      simpa using (List.perm_cons_erase hp).append_left splits
    rw [popStack]
    split
    · exact ⟨.refl _, id⟩
    · rename_i h4
      dsimp only
      split
      · rename_i p hp
        have hm : p ∈ stack.filter fun p => p.isHeld && ready p :=
          (lowestHeld_mem _ none p hp).elim id fun h => nomatch h
        exact take (List.mem_of_mem_filter hm) h4
      · split
        · rename_i p hp
          exact take (List.mem_of_find?_eq_some hp) h4
        · exact ⟨.refl _, id⟩

theorem joined_settlePaths (ready : Path → Bool) (splits stack : List Path) :
    Joined (splits ++ stack) ((settlePaths ready splits stack).1 ++ (settlePaths ready splits stack).2) :=
  (joined_absorbStack splits stack).trans (popStack_keeps ready 28 _).1

theorem length_settlePaths (ready : Path → Bool) (splits stack : List Path) (h : splits.length ≤ 4) :
    (settlePaths ready splits stack).1.length ≤ 4 :=
  (popStack_keeps ready 28 _).2 (by rw [length_absorbStack]; exact h)

/-! ## Lanes that go -/

theorem mem_dropLanes {gone : Mask} {ps : List Path} {q : Path} :
    q ∈ dropLanes gone ps ↔ q.mask ≠ 0 ∧ ∃ p ∈ ps, q = { p with mask := p.mask &&& ~~~gone } := by
  simp only [dropLanes, List.mem_filter, List.mem_map, decide_eq_true_eq]
  constructor
  · rintro ⟨⟨p, hp, rfl⟩, h⟩; exact ⟨h, p, hp, rfl⟩
  · rintro ⟨h, p, hp, rfl⟩; exact ⟨⟨p, hp, rfl⟩, h⟩

theorem dropLanes_append (gone : Mask) (ps qs : List Path) : dropLanes gone (ps ++ qs) = dropLanes gone ps ++ dropLanes gone qs := by
  simp [dropLanes]

theorem holds_dropLanes {gone : Mask} {ps : List Path} {l : Nat} {w : Word} (hl : l < 32) :
    Holds (dropLanes gone ps) l w ↔ Holds ps l w ∧ hasLane gone l = false := by
  constructor
  · rintro ⟨q, hq, hm, hw⟩
    obtain ⟨-, p, hp, rfl⟩ := mem_dropLanes.mp hq
    rw [hasLane_and, hasLane_not, Bool.and_eq_true] at hm
    refine ⟨⟨p, hp, hm.1, hw⟩, ?_⟩
    simpa [hl] using hm.2
  · rintro ⟨⟨p, hp, hm, hw⟩, hg⟩
    have h : hasLane (p.mask &&& ~~~gone) l = true := by rw [hasLane_and, hasLane_not, hm, hg]; simp [hl]
    exact ⟨_, mem_dropLanes.mpr ⟨mask_ne_zero.mpr ⟨l, h⟩, p, hp, rfl⟩, h, hw⟩

theorem apart_dropLanes {ps : List Path} (gone : Mask) (h : Apart ps) : Apart (dropLanes gone ps) := by
  refine List.Pairwise.filter _ (List.Pairwise.map _ (fun p q hpq => mask_disjoint.mpr fun l hl => ?_) h)
  rw [hasLane_and, Bool.and_eq_true] at hl
  rw [hasLane_and, mask_disjoint.mp hpq l hl.1, Bool.false_and]

theorem length_dropLanes (gone : Mask) (ps : List Path) : (dropLanes gone ps).length ≤ ps.length := by
  rw [dropLanes]
  exact (List.length_filter_le _ _).trans (by rw [List.length_map])

/-! ## Lanes that go on -/

theorem perm_insertPath (p : Path) (ps : List Path) : (insertPath p ps).Perm (p :: ps) := by
  induction ps with
  | nil => exact .refl _
  | cons q t ih =>
    rw [insertPath]
    split
    · exact .refl _
    · exact (ih.cons q).trans (.swap ..)

/-- One step of `partsOf`: lane `l` joins the part at its target or makes one. -/
def partStep (dst : Nat → Word) (since : DWord) (ps : List Path) (l : Nat) : List Path :=
  if ps.any (fun p => p.pc = dst l) then ps.map fun p => if p.pc = dst l then { p with mask := p.mask ||| (1#32 <<< l) } else p
  else insertPath (Path.at (dst l) (1#32 <<< l) since) ps

/-- The parts stand at different places. -/
def Distinct (ps : List Path) : Prop := ps.Pairwise fun p q => p.pc ≠ q.pc

theorem partStep_spec (dst : Nat → Word) (since : DWord) (ps : List Path) (l : Nat) (hl : l < 32) (hd : Distinct ps) :
    Distinct (partStep dst since ps l) ∧ ∀ k w, Holds (partStep dst since ps l) k w ↔ Holds ps k w ∨ (k = l ∧ w = dst l) := by
  rw [partStep]
  split
  · rename_i h
    obtain ⟨q, hq, hqp⟩ := List.any_eq_true.mp h
    rw [decide_eq_true_eq] at hqp
    refine ⟨List.Pairwise.map _ (fun p q h => ?_) hd, fun k w => ?_⟩
    · split <;> split <;> exact h
    · constructor
      · rintro ⟨x, hx, hk, hw⟩
        obtain ⟨p, hp, rfl⟩ := List.mem_map.mp hx
        split at hk
        · rename_i hpc
          rw [if_pos hpc] at hw
          rw [hasLane_or, Bool.or_eq_true, hasLane_one _ _ hl, decide_eq_true_eq] at hk
          exact hk.elim (fun hk => .inl ⟨p, hp, hk, hw⟩) fun hk => .inr ⟨hk, by rw [← hw, ← hpc]⟩
        · rename_i hpc
          rw [if_neg hpc] at hw
          exact .inl ⟨p, hp, hk, hw⟩
      · rintro (⟨p, hp, hk, hw⟩ | ⟨rfl, rfl⟩)
        · refine ⟨_, List.mem_map.mpr ⟨p, hp, rfl⟩, ?_, ?_⟩
          · split
            · rw [hasLane_or, hk, Bool.true_or]
            · exact hk
          · split <;> exact hw
        · refine ⟨_, List.mem_map.mpr ⟨q, hq, rfl⟩, ?_, ?_⟩
          · rw [if_pos hqp, hasLane_or, hasLane_one _ _ hl]; simp
          · rw [if_pos hqp]; exact hqp
  · rename_i h
    have hperm := perm_insertPath (Path.at (dst l) (1#32 <<< l) since) ps
    refine ⟨hperm.symm.pairwise (List.pairwise_cons.mpr ⟨fun p hp he => h ?_, hd⟩) fun {p q} h => Ne.symm h, fun k w => ?_⟩
    · exact List.any_eq_true.mpr ⟨p, hp, decide_eq_true he.symm⟩
    · rw [(Joined.perm hperm.symm).holds, holds_cons]
      simp only [Path.at, hasLane_one l k hl, decide_eq_true_eq, eq_comm (b := w)]
      exact Or.comm

theorem partsOf_spec (mask : Mask) (dst : Nat → Word) (since : DWord) :
    Distinct (partsOf mask dst since) ∧ ∀ k w, Holds (partsOf mask dst since) k w ↔ hasLane mask k = true ∧ w = dst k := by
  have step (ls : List Nat) (ps : List Path) (hls : ∀ l ∈ ls, l < 32) (hd : Distinct ps) :
      Distinct (ls.foldl (partStep dst since) ps) ∧
        ∀ k w, Holds (ls.foldl (partStep dst since) ps) k w ↔ Holds ps k w ∨ (k ∈ ls ∧ w = dst k) := by
    induction ls generalizing ps with
    | nil => exact ⟨hd, fun k w => by simp⟩
    | cons l ls ih =>
      obtain ⟨h1, h2⟩ := partStep_spec dst since ps l (hls l (List.mem_cons_self ..)) hd
      obtain ⟨h3, h4⟩ := ih _ (fun k hk => hls k (List.mem_cons_of_mem _ hk)) h1
      refine ⟨h3, fun k w => ?_⟩
      rw [List.foldl_cons, h4, h2, List.mem_cons]
      constructor
      · rintro ((h | ⟨rfl, rfl⟩) | ⟨h, rfl⟩)
        · exact .inl h
        · exact .inr ⟨.inl rfl, rfl⟩
        · exact .inr ⟨.inr h, rfl⟩
      · rintro (h | ⟨rfl | h, rfl⟩)
        · exact .inl (.inl h)
        · exact .inl (.inr ⟨rfl, rfl⟩)
        · exact .inr ⟨h, rfl⟩
  obtain ⟨h1, h2⟩ := step (lanesOf mask) [] (fun l hl => hasLane_lt (mem_lanesOf.mp hl)) .nil
  refine ⟨h1, fun k w => (h2 k w).trans ?_⟩
  simp [Holds, mem_lanesOf]

/-- Lanes at different places belong to different parts. -/
theorem apart_partsOf (mask : Mask) (dst : Nat → Word) (since : DWord) : Apart (partsOf mask dst since) := by
  obtain ⟨hd, hh⟩ := partsOf_spec mask dst since
  refine List.Pairwise.imp_of_mem (fun {p q} hp hq hne => mask_disjoint.mpr fun l hl => ?_) hd
  by_contra hc
  have h1 := (hh l p.pc).mp ⟨p, hp, hl, rfl⟩
  have h2 := (hh l q.pc).mp ⟨q, hq, by simpa using hc, rfl⟩
  exact hne (h1.2.trans h2.2.symm)

/-! ## Where a lane stands -/

theorem placeOf_eq_some {t : Strand} (ha : Apart (t.splits ++ t.stack)) {l : Nat} {w : Word} :
    t.placeOf l = some w ↔ Holds (t.splits ++ t.stack) l w := by
  rw [Strand.placeOf]
  generalize t.splits ++ t.stack = ps at ha
  induction ps with
  | nil => simp [Holds]
  | cons p ps ih =>
    obtain ⟨h1, h2⟩ := List.pairwise_cons.mp ha
    rw [holds_cons]
    by_cases hp : hasLane p.mask l = true
    · rw [List.find?_cons_of_pos (p := fun p : Path => hasLane p.mask l) hp, Option.map_some, Option.some_inj]
      constructor
      · exact fun h => .inl ⟨hp, h⟩
      · rintro (h | ⟨q, hq, hl, -⟩)
        · exact h.2
        · rw [mask_disjoint.mp (h1 q hq) l hp] at hl; cases hl
    · rw [List.find?_cons_of_neg (p := fun p : Path => hasLane p.mask l) hp, ih h2]
      exact ⟨.inr, fun h => h.elim (fun h => (hp h.1).elim) id⟩

/-- Two strands whose paths hold the same lanes at the same places have the same place for a lane. -/
theorem placeOf_ext {t : Strand} (ha : Apart (t.splits ++ t.stack)) {l : Nat} {o : Option Word}
    (h : ∀ w, Holds (t.splits ++ t.stack) l w ↔ o = some w) : t.placeOf l = o := by
  refine Option.ext fun w => ?_
  rw [placeOf_eq_some ha, h]

/-! ## Moving a split -/

/-- The paths of a strand whose lanes of `p` are leaving: the others, the parts that they make, the stack. -/
def Strand.moving (t : Strand) (p : Path) (dst : Nat → Word) (now : DWord) : List Path :=
  dropLanes t.ended ((t.splits.filter fun q => decide (q.mask &&& p.mask = 0)) ++ partsOf (p.mask &&& ~~~0 &&& t.live) dst now ++ t.stack)

theorem joined_move (t : Strand) (p : Path) (dst : Nat → Word) (now : DWord) (rd : Path → Bool) :
    Joined (t.moving p dst now) ((t.move p.mask 0 p.pc id dst now rd).splits ++ (t.move p.mask 0 p.pc id dst now rd).stack) := by
  have h := joined_settlePaths rd
    (dropLanes t.ended (placePaths (t.splits.filter fun q => decide (q.mask &&& p.mask = 0)) t.stack (partsOf (p.mask &&& ~~~0 &&& t.live) dst now)).1)
    (dropLanes t.ended (placePaths (t.splits.filter fun q => decide (q.mask &&& p.mask = 0)) t.stack (partsOf (p.mask &&& ~~~0 &&& t.live) dst now)).2)
  rw [← dropLanes_append, placePaths, List.append_assoc, ← List.append_assoc (List.take _ _), List.take_append_drop, ← List.append_assoc] at h
  exact h

theorem length_move (t : Strand) (p : Path) (dst : Nat → Word) (now : DWord) (rd : Path → Bool) (h4 : t.splits.length ≤ 4) :
    (t.move p.mask 0 p.pc id dst now rd).splits.length ≤ 4 := by
  refine length_settlePaths rd _ _ ((length_dropLanes _ _).trans ?_)
  have := List.length_filter_le (fun q : Path => decide (q.mask &&& p.mask = 0)) t.splits
  simp only [placePaths, List.length_append, List.length_take]
  omega

/-! ## What a move keeps -/

/-- The paths of a strand hold lanes that have not ended. -/
theorem live_of_pathsOk {t : Strand} (hok : t.pathsOk) {q : Path} (hq : q ∈ t.splits ++ t.stack) {l : Nat} (h : hasLane q.mask l = true) :
    hasLane t.live l = true := by
  obtain ⟨-, hm, -⟩ := hok
  have := mask_disjoint.mp (hm q hq).2 l h
  rw [hasLane_not] at this
  simpa [hasLane_lt h] using this

section
variable {t : Strand} {p : Path} (hok : t.pathsOk) (hp : p ∈ t.splits)
include hok hp

/-- The lanes of the split go to their targets, the other lanes stay. -/
theorem holds_moving (dst : Nat → Word) (now : DWord) {l : Nat} (hl : l < 32) (w : Word) :
    Holds (t.moving p dst now) l w ↔
      (hasLane p.mask l = true ∧ w = dst l) ∨ (hasLane p.mask l = false ∧ Holds (t.splits ++ t.stack) l w) := by
  have hlive {q : Path} (hq : q ∈ t.splits ++ t.stack) {l : Nat} := live_of_pathsOk hok hq (l := l)
  obtain ⟨ha, -, -⟩ := hok
  obtain ⟨-, -, hss⟩ := List.pairwise_append.mp ha
  have hend {l : Nat} (h : hasLane t.live l = true) : hasLane t.ended l = false := by
    rw [Strand.live, hasLane_and, hasLane_not, Bool.and_eq_true, Bool.and_eq_true] at h
    simpa using h.2.2
  have hmem : p ∈ t.splits ++ t.stack := List.mem_append_left _ hp
  rw [Strand.moving, holds_dropLanes hl, holds_append, holds_append, (partsOf_spec _ dst now).2, holds_append]
  simp only [hasLane_and, hasLane_not, show hasLane (0 : Mask) l = false from hasLane_zero l, hl, Bool.and_eq_true, decide_true, Bool.not_false,
    and_self, and_true]
  constructor
  · rintro ⟨(⟨q, hq, h, hw⟩ | ⟨h, hw⟩) | ⟨q, hq, h, hw⟩, -⟩
    · obtain ⟨hq, hd⟩ := List.mem_filter.mp hq
      exact .inr ⟨mask_disjoint.mp (of_decide_eq_true hd) l h, .inl ⟨q, hq, h, hw⟩⟩
    · exact .inl ⟨h.1, hw⟩
    · refine .inr ⟨?_, .inr ⟨q, hq, h, hw⟩⟩
      have hd := hss p hp q hq
      rw [BitVec.and_comm] at hd
      exact mask_disjoint.mp hd l h
  · rintro (⟨h, hw⟩ | ⟨h, ⟨q, hq, hl, hw⟩ | ⟨q, hq, hl, hw⟩⟩)
    · exact ⟨.inl (.inr ⟨⟨h, hlive hmem h⟩, hw⟩), hend (hlive hmem h)⟩
    · refine ⟨.inl (.inl ⟨q, List.mem_filter.mpr ⟨hq, decide_eq_true (mask_disjoint.mpr fun k hk => ?_)⟩, hl, hw⟩),
        hend (hlive (List.mem_append_left _ hq) hl)⟩
      by_contra hc
      have hpq : q ≠ p := by rintro rfl; rw [hl] at h; cases h
      rw [Bool.not_eq_false] at hc
      have hd := Apart.disjoint ha (List.mem_append_left _ hq) hmem hpq
      rw [mask_disjoint.mp hd k hk] at hc
      cases hc
    · exact ⟨.inr ⟨q, hq, hl, hw⟩, hend (hlive (List.mem_append_right _ hq) hl)⟩

theorem apart_moving (dst : Nat → Word) (now : DWord) : Apart (t.moving p dst now) := by
  obtain ⟨ha, -, -⟩ := hok
  obtain ⟨hs, hk, hss⟩ := List.pairwise_append.mp ha
  have hpart {q : Path} (hq : q ∈ partsOf (p.mask &&& ~~~0 &&& t.live) dst now) {l : Nat} (hl : hasLane q.mask l = true) :
      hasLane p.mask l = true := by
    have := (((partsOf_spec _ dst now).2 l q.pc).mp ⟨q, hq, hl, rfl⟩).1
    rw [hasLane_and, hasLane_and, Bool.and_eq_true, Bool.and_eq_true] at this
    exact this.1.1
  refine apart_dropLanes _ (List.pairwise_append.mpr ⟨List.pairwise_append.mpr ⟨hs.filter _, apart_partsOf _ _ _, ?_⟩, hk, ?_⟩)
  · intro q hq r hr
    refine mask_disjoint.mpr fun l hl => ?_
    by_contra hc
    have h1 := mask_disjoint.mp (of_decide_eq_true (List.mem_filter.mp hq).2) l hl
    rw [hpart hr (by simpa using hc)] at h1
    cases h1
  · intro q hq r hr
    rcases List.mem_append.mp hq with hq | hq
    · exact hss q (List.mem_of_mem_filter hq) r hr
    · exact mask_disjoint.mpr fun l hl => mask_disjoint.mp (hss p hp r hr) l (hpart hq hl)

/-- Lanes of a split leave it: the paths divide the lanes as before, and each lane of the split stands at its target. -/
theorem move_spec (dst : Nat → Word) (now : DWord) (rd : Path → Bool) :
    (t.move p.mask 0 p.pc id dst now rd).pathsOk ∧
      ∀ l, l < 32 → (t.move p.mask 0 p.pc id dst now rd).placeOf l = if hasLane p.mask l then some (dst l) else t.placeOf l := by
  have hj := joined_move t p dst now rd
  have hm := apart_moving hok hp dst now
  have ha := hj.apart hm
  have hh {l : Nat} (hl : l < 32) (w : Word) := (hj.holds l w).trans (holds_moving hok hp dst now hl w)
  have hlive {q : Path} (hq : q ∈ t.splits ++ t.stack) {l : Nat} := live_of_pathsOk hok hq (l := l)
  obtain ⟨hok1, -, hok3⟩ := hok
  refine ⟨⟨ha, fun q hq => ⟨hj.nonempty (fun q hq => (mem_dropLanes.mp hq).1) q hq, mask_disjoint.mpr fun l hl => ?_⟩,
    length_move t p dst now rd hok3⟩, fun l hl => placeOf_ext ha fun w => ?_⟩
  · rw [hasLane_not, show (t.move p.mask 0 p.pc id dst now rd).live = t.live from rfl]
    rcases (hh (hasLane_lt hl) q.pc).mp ⟨q, hq, hl, rfl⟩ with ⟨h, -⟩ | ⟨-, r, hr, h, -⟩
    · rw [hlive (List.mem_append_left _ hp) h]; simp
    · rw [hlive hr h]; simp
  · rw [hh hl w]
    by_cases h : hasLane p.mask l = true
    · simp [h, eq_comm (a := w)]
    · simp only [h, Bool.false_eq_true, if_false, false_and, false_or, true_and, placeOf_eq_some hok1]

end

/-- Settles O29: `move` by what its parts hold; `leave` by its two cases, the queue of re-injected entries and the paths. -/
theorem lanesMove : Obligations.LanesMove := by
  refine ⟨fun t p dst now rd hok hp => move_spec hok hp dst now rd, fun c s u dst n hu => ⟨FrameOf.leave c s id dst n, ?_, ?_⟩⟩
  · unfold Ctx.leave
    dsimp only
    split <;> rfl
  · obtain ⟨a, b, e, hv⟩ := leave_strand c s u id dst n hu
    refine ⟨_, hv, rfl, fun hq => ?_⟩
    unfold Ctx.leave at hv
    simp only [hq, Bool.false_eq_true, if_false] at hv
    rw [strand?_modStrand_same _ _ _ (by intro t; rfl)] at hv
    simp only [strand?_tick, hu, Option.map_some, Option.some_inj] at hv
    exact ⟨(congrArg Strand.reinject hv).symm, (congrArg Strand.splits hv).symm⟩

end Sys2Proof.Machine
end

