-- ==== Sys2Proof/Proofs/Exits.lean ====
section
/-! SUPPORT. Control flow without the call stack: NOP, branches, LOOP and EXIT (R29, R329, R339, R371, R378). -/
namespace Sys2Proof.Machine

/-! ## Branches -/

/-- A signed count of words, in bytes. -/
theorem signExtend_shl_two {n : Nat} (x : BitVec n) : x.signExtend 32 <<< 2 = BitVec.ofInt 32 (4 * x.toInt) := by
  rw [BitVec.signExtend, BitVec.shiftLeft_eq_mul_twoPow, BitVec.ofInt_mul, BitVec.mul_comm]
  rfl

/-- An instruction that runs freely and whose meaning is a trap. -/
theorem exec_of_trap {i : Instr} {f : Form} {s s' : State} {c : Ctx} {t : Trap} {a : DWord} {l : Nat} (body : Ctx → Eff)
    (he : exec i s = issue f body s) (hr : Runs s f c) (hb : body c = .trap t a l s') : exec i s = .next (c.trap t a l s') :=
  exec_of_body body he hr hb

theorem does_branch {i : Instr} {f : Form} {dst dst' : Ctx → Nat → Word} (he : ∀ s, exec i s = issue f (branchBody dst) s) (hd : dst = dst') :
    Does i f (fun _ => True) (fun c => c.s) (fun c => some (dst' c)) fun _ => 0 :=
  does_of_go _ he fun _ _ _ _ => by rw [hd]; rfl

/-- The counter of LOOP where the destination is an s register. -/
theorem counted_of_s {c : Ctx} {e : Ext} {n : BitVec 5} (hf : c.f = Form.ofExt 0x07 e) (hd : e.d = .s n) : c.counted = c.t.sAt n.toNat - 1 := by
  rw [Ctx.counted, hf, show (Form.ofExt 0x07 e).e.d = e.d from rfl, hd]

theorem firstLane_some {m : Mask} {p : Nat → Bool} {l : Nat} (hl : hasLane m l = true) (hp : p l = true)
    (hb : ∀ k, hasLane m k = true → k < l → p k = false) : firstLane m p = some l := by
  rw [firstLane, lanesOf, List.find?_filter, lanes, List.find?_range_eq_some]
  refine ⟨by simp [hl, hp], List.mem_range.mpr (hasLane_lt hl), fun k hk => ?_⟩
  cases hm : hasLane m k with
  | false => rfl
  | true => simp [hb k hm hk]

/-- Settles O28: a branch is its target, BRX checks its lanes in their order, LOOP's two cases are its counter's. -/
theorem branches : Obligations.Branches := by
  refine ⟨fun g => does_of_go _ (fun _ => rfl) fun _ _ _ _ => rfl, fun g off => does_branch (fun _ => rfl) ?_, fun g x => does_branch (fun _ => rfl) rfl,
    fun e => does_of_go _ (fun _ => rfl) fun c hf _ hok => ?_, fun e s c l hr hl h4 hb => exec_of_trap _ rfl hr ?_,
    fun e n hd => does_of_go _ (fun _ => rfl) fun c hf _ hok => ?_, fun e n hd => does_of_go _ (fun _ => rfl) fun c hf _ hok => ?_⟩
  · funext c l
    rw [Ctx.rel, offBytes, signExtend_shl_two]
  · have hn : firstLane c.act c.oddTarget = none := firstLane_none fun l hl => by
      rw [Ctx.oddTarget, decide_eq_false_iff_not, not_not]; exact hok l hl
    simp only [hn]
    rfl
  · have hn : firstLane c.act c.oddTarget = some l := firstLane_some hl (decide_eq_true h4) fun k hk hkl =>
      decide_eq_false (not_not.mpr (hb k hk hkl))
    simp only [hn]
    rfl
  · have hz : c.t.sAt n.toNat - 1 ≠ 0 := fun h => hok (by bv_omega)
    have hi : c.f.e.imm = e.imm := by rw [hf]; rfl
    simp only [counted_of_s hf hd, if_neg hz, hi, signExtend_shl_two]
    rfl
  · have hz : c.counted = 0 := by rw [counted_of_s hf hd, hok]; rfl
    simp only [hz, if_true]
    rfl

/-! ## The end of items -/

/-- Two strands that differ in what their splits wait for. -/
def Strand.stands (t u : Strand) : Prop := u = { t with splits := u.splits } ∧ u.splits.map Path.mask = t.splits.map Path.mask

theorem Strand.stands_refl (t : Strand) : t.stands t := ⟨rfl, rfl⟩

/-- Every strand that is there stays there, with its lanes on its paths. -/
def Stands (s s' : State) : Prop := ∀ r t, s.strand? r = some t → ∃ u, s'.strand? r = some u ∧ t.stands u

theorem Stands.refl (s : State) : Stands s s := fun _ t h => ⟨t, h, t.stands_refl⟩

theorem Stands.trans {s s' s'' : State} (h1 : Stands s s') (h2 : Stands s' s'') : Stands s s'' := by
  intro r t ht
  obtain ⟨u, hu, e1, m1⟩ := h1 r t ht
  obtain ⟨v, hv, e2, m2⟩ := h2 r u hu
  exact ⟨v, hv, by rw [e2, e1], m2.trans m1⟩

theorem stands_of_crews {s s' : State} (h : s'.crews = s.crews) : Stands s s' := fun r t ht => ⟨t, by rw [strand?_of_crews h, ht], t.stands_refl⟩

/-- Crews changed one by one, each keeping its name and its strands as they stand. -/
theorem stands_modWhere {s s' : State} (q : Crew → Bool) (f : Crew → Crew) (h : s'.crews = modWhere q f s.crews)
    (hname : ∀ c, (f c).grid = c.grid ∧ (f c).idx = c.idx)
    (hf : ∀ c n t, c.strand? n = some t → ∃ u, (f c).strand? n = some u ∧ t.stands u) : Stands s s' := by
  intro r t ht
  simp only [State.strand?, State.crew?] at ht ⊢
  rw [h, find?_modWhere _ _ _ _ fun c => by simp [hname c]]
  cases hc : s.crews.find? fun x => x.grid = r.crew.grid && x.idx = r.crew.idx with
  | none => simp [hc] at ht
  | some c =>
    simp only [hc] at ht
    simp only [Option.map_some]
    split
    · exact hf c _ t ht
    · exact ⟨t, ht, t.stands_refl⟩

theorem stands_modCrew (s : State) (r : CrewRef) (f : Crew → Crew) (hname : ∀ c, (f c).grid = c.grid ∧ (f c).idx = c.idx)
    (hf : ∀ c, (f c).strands = c.strands) : Stands s (s.modCrew r f) :=
  stands_modWhere _ f rfl hname fun c n t ht => ⟨t, by rw [Crew.strand?, hf]; exact ht, t.stands_refl⟩

theorem find?_map_idx (ts : List Strand) (f : Strand → Strand) (h : ∀ t, (f t).idx = t.idx) (n : Nat) :
    (ts.map f).find? (fun x => decide (x.idx = n)) = (ts.find? fun x => decide (x.idx = n)).map f := by
  rw [List.find?_map]
  congr 2
  funext t
  simp [h]

theorem stands_wakeBarriers (s : State) (g : Grid) (k : BarKey) : Stands s (s.wakeBarriers g k) := by
  refine stands_modWhere _ _ rfl (fun _ => ⟨rfl, rfl⟩) fun c n t ht => ?_
  rw [Crew.strand?] at ht ⊢
  rw [find?_map_idx _ _ (by intro t; rfl), ht]
  refine ⟨_, rfl, rfl, ?_⟩
  simp only [modWhere, List.map_map]
  refine List.map_congr_left fun p _ => ?_
  simp only [Function.comp]
  split <;> rfl

theorem stands_barrierStep (s : State) (gid : Nat) (k : BarKey) : Stands s (s.barrierStep gid k) := by
  unfold State.barrierStep
  split
  · exact .refl s
  · dsimp only
    split
    · exact (stands_of_crews rfl).trans (stands_wakeBarriers _ _ _)
    · exact .refl s

theorem stands_barrierSweep (s : State) (gid : Nat) : Stands s (s.barrierSweep gid) := by
  unfold State.barrierSweep
  split
  · exact .refl s
  · rename_i g hg
    clear hg
    generalize g.barriers.map (·.key) = ks
    induction ks generalizing s with
    | nil => exact .refl s
    | cons k ks ih => exact (stands_barrierStep s gid k).trans (ih _)

theorem crews_tidyChain (s : State) (gid : Nat) : (s.tidyChain gid).crews = s.crews := by
  unfold State.tidyChain
  split
  · rfl
  · split <;> rfl

theorem stands_settleCrew (s : State) (r : CrewRef) : Stands s (s.settleCrew r) := by
  unfold State.settleCrew
  split
  · exact .refl s
  · split
    · exact .refl s
    · have h1 := stands_modCrew s r
        (fun c => match c.state with
          | .resident => { c with state := .draining, follows := c.follows.filter c.followDue }
          | .swapped | .preempted => { c with follows := [] }
          | _ => c)
        (fun c => by cases c.state <;> exact ⟨rfl, rfl⟩) fun c => by cases c.state <;> rfl
      dsimp only
      split
      · exact h1
      · refine h1.trans ((stands_modCrew _ r
          (fun c => { c with state := .ended, store := [], tiles := [], tags := [], views := [], wakes := [] })
          (fun _ => ⟨rfl, rfl⟩) fun _ => rfl).trans (stands_of_crews ?_))
        exact crews_writeBack _ _ _

theorem stands_afterEnd (s : State) (r : StrandRef) : Stands s (s.afterEnd r) := by
  unfold State.afterEnd
  refine Stands.trans ?_ ((stands_barrierSweep _ _).trans ((stands_of_crews (crews_tidyChain _ _)).trans (stands_settleCrew _ _)))
  refine stands_modWhere _ _ rfl (fun _ => ⟨rfl, rfl⟩) fun c n t ht => ?_
  rw [Crew.strand?] at ht ⊢
  rw [Crew.modStrand, find?_modWhere _ _ _ _ (by intro t; rfl), ht]
  refine ⟨_, rfl, ?_, ?_⟩ <;> dsimp only
  · split <;> rfl
  · split
    · simp only [modWhere, List.map_map]
      refine List.map_congr_left fun p _ => ?_
      simp only [Function.comp]
      split <;> rfl
    · rfl

/-- A strand whose items `act` have ended, its other lanes as they were. -/
def Strand.rid (t u : Strand) (act : Mask) : Prop :=
  u.ended = t.ended ||| (act &&& t.present) ∧ u.present = t.present ∧ (∀ p ∈ u.splits ++ u.stack, p.mask &&& act = 0) ∧ SameRegs u t

theorem Strand.rid.stands {t u v : Strand} {act : Mask} (h : t.rid u act) (hs : u.stands v) : t.rid v act := by
  obtain ⟨h1, h2, h3, h4⟩ := h
  obtain ⟨he, hm⟩ := hs
  refine ⟨by rw [he]; exact h1, by rw [he]; exact h2, fun p hp => ?_, by rw [he]; exact h4⟩
  rcases List.mem_append.mp hp with hp | hp
  · obtain ⟨q, hq, hqp⟩ := List.mem_map.mp (hm ▸ List.mem_map_of_mem (f := Path.mask) hp)
    rw [← hqp]
    exact h3 q (List.mem_append_left _ hq)
  · rw [he] at hp
    exact h3 p (List.mem_append_right _ hp)

theorem Strand.rid.update {t u v : Strand} {act : Mask} (h : t.rid u act) (h1 : v.ended = u.ended) (h2 : v.present = u.present)
    (h3 : v.splits = u.splits) (h4 : v.stack = u.stack) (h5 : SameRegs v u) : t.rid v act := by
  obtain ⟨e1, e2, e3, e4⟩ := h
  exact ⟨h1.trans e1, h2.trans e2, by rw [h3, h4]; exact e3,
    ⟨h5.1.trans e4.1, h5.2.1.trans e4.2.1, h5.2.2.1.trans e4.2.2.1, h5.2.2.2.trans e4.2.2.2⟩⟩

/-- The paths that are left where lanes have been dropped hold none of them. -/
theorem mask_of_dropLanes {gone act : Mask} {ps : List Path} (ha : act &&& ~~~gone = 0) : ∀ p ∈ dropLanes gone ps, p.mask &&& act = 0 := by
  intro p hp
  obtain ⟨-, q, -, rfl⟩ := mem_dropLanes.mp hp
  refine mask_disjoint.mpr fun l hl => ?_
  rw [hasLane_and, Bool.and_eq_true] at hl
  by_contra hc
  have := mask_disjoint.mp ha l (by simpa using hc)
  rw [hl.2] at this
  cases this

theorem Joined.free {ps qs : List Path} {act : Mask} (h : Joined ps qs) (hp : ∀ p ∈ ps, p.mask &&& act = 0) : ∀ q ∈ qs, q.mask &&& act = 0 := by
  intro q hq
  refine mask_disjoint.mpr fun l hl => ?_
  obtain ⟨p, hp', hpl, -⟩ := (h.holds l q.pc).mp ⟨q, hq, hl, rfl⟩
  exact mask_disjoint.mp (hp p hp') l hpl

/-- Every lane of Active() is present and has not ended. -/
theorem Runs.act_present {s : State} {f : Form} {c : Ctx} (h : Runs s f c) : c.act &&& ~~~c.t.present = 0 := by
  obtain ⟨d, hd, -, rfl⟩ := h
  change d.act &&& ~~~d.t.present = 0
  refine mask_disjoint.mpr fun l hl => ?_
  have hlive : hasLane d.t.live l = true := by
    unfold State.ctxOf at hd
    split at hd
    · cases hd
    · dsimp only at hd
      split at hd
      · injection hd with hd
        subst hd
        dsimp only at hl ⊢
        split at hl
        · rw [hasLane_and, Bool.and_eq_true] at hl; exact hl.2
        · rw [Strand.guarded, hasLane_maskOf, hasLane_and] at hl
          simp only [Bool.and_eq_true] at hl
          exact hl.2.1.2
      · cases hd
  rw [Strand.live, hasLane_and, Bool.and_eq_true] at hlive
  rw [hasLane_not, hlive.1]
  simp

theorem gone_of_ended {e act present : Mask} (ha : act &&& ~~~present = 0) : act &&& ~~~(e ||| (act &&& present)) = 0 := by
  refine mask_disjoint.mpr fun l hl => ?_
  have hpr := mask_disjoint.mp ha l hl
  rw [hasLane_not] at hpr
  rw [hasLane_not, hasLane_or, hasLane_and, hl]
  simp_all [hasLane_lt hl]

section
variable {s : State} {r : StrandRef} {t : Strand} (ht : s.strand? r = some t) {act : Mask} (ha : act &&& ~~~t.present = 0)
include ht ha

theorem endLanes_rid : ∃ u, (s.endLanes r act).strand? r = some u ∧ t.rid u act := by
  have hgone := gone_of_ended (e := t.ended) ha
  have h1 : ((s.endItems r act).modStrand r fun t => t.withoutLanes act).strand? r =
      some (({ t with ended := t.ended ||| (act &&& t.present) } : Strand).withoutLanes act) := by
    rw [strand?_modStrand_same _ _ _ (by intro t; rfl), State.endItems, strand?_modStrand_same _ _ _ (by intro t; rfl), ht]
    rfl
  unfold State.endLanes
  simp only [h1]
  have hself : act &&& ~~~act = 0 := by simp
  split
  · unfold State.thaw
    rw [strand?_modStrand_same _ _ _ (by intro t; cases t.handler <;> rfl), h1]
    refine ⟨_, rfl, ?_⟩
    dsimp only [Strand.withoutLanes]
    cases t.handler with
    | none =>
      refine ⟨rfl, rfl, fun p hp => ?_, rfl, rfl, rfl, rfl⟩
      exact (List.mem_append.mp hp).elim (mask_of_dropLanes hself p) (mask_of_dropLanes hself p)
    | some fr =>
      refine ⟨rfl, rfl, Joined.free (joined_settlePaths _ _ _) fun p hp => ?_, rfl, rfl, rfl, rfl⟩
      exact (List.mem_append.mp hp).elim (mask_of_dropLanes hgone p) (mask_of_dropLanes hgone p)
  · refine ⟨_, h1, rfl, rfl, fun p hp => ?_, rfl, rfl, rfl, rfl⟩
    exact (List.mem_append.mp hp).elim (mask_of_dropLanes hself p) (mask_of_dropLanes hself p)

end

/-- What the lanes that are left do keeps the lanes that have ended away. -/
theorem leave_rid {c : Ctx} {s : State} {u : Strand} {act : Mask} (hu : s.strand? c.r = some u) (ha : act &&& ~~~c.t.present = 0)
    (h : c.t.rid u act) (n : Nat) : ∃ v, (c.leave s 0 id none n).strand? c.r = some v ∧ c.t.rid v act := by
  obtain ⟨h1, h2, h3, h4⟩ := h
  have hgone : act &&& ~~~u.ended = 0 := by rw [h1]; exact gone_of_ended ha
  unfold Ctx.leave
  dsimp only
  split
  · rw [strand?_modStrand_same _ _ _ (by intro t; rfl), strand?_tick, hu]
    refine ⟨_, rfl, h1, h2, fun p hp => ?_, h4⟩
    rcases List.mem_append.mp hp with hp | hp
    · obtain ⟨q, hq, rfl⟩ := List.mem_map.mp hp
      exact h3 q (List.mem_append_left _ hq)
    · exact h3 p (List.mem_append_right _ hp)
  · rw [strand?_modStrand_same _ _ _ (by intro t; rfl), strand?_tick, hu]
    refine ⟨_, rfl, h1, h2, Joined.free (joined_settlePaths _ _ _) fun p hp => ?_, h4⟩
    exact (List.mem_append.mp hp).elim (mask_of_dropLanes hgone p) (mask_of_dropLanes hgone p)

/-- Settles O31: the items end, the handler thaws where it has none left, and what follows the end keeps them off every path. -/
theorem exitEnds : Obligations.ExitEnds := by
  intro g s c hr
  obtain ⟨-, -, hs, -⟩ := hr.spec
  have ha := hr.act_present
  obtain ⟨u1, hu1, h1⟩ := endLanes_rid hs ha
  have hu2 : ((c.s.endLanes c.r c.act).modStrand c.r Strand.atEnd).strand? c.r = some u1.atEnd := by
    rw [strand?_modStrand_same _ _ _ (by intro t; unfold Strand.atEnd; split <;> rfl), hu1]
    rfl
  have h2 : c.t.rid u1.atEnd c.act := by
    unfold Strand.atEnd
    split
    · exact h1.update rfl rfl rfl rfl ⟨rfl, rfl, rfl, rfl⟩
    · exact h1
  obtain ⟨u3, hu3, h3⟩ := stands_afterEnd _ c.r _ _ hu2
  obtain ⟨u, hu, h4⟩ := leave_rid hu3 ha (h2.stands h3) (c.beats + 0)
  exact ⟨_, u, exec_of_body _ rfl hr rfl, hu, h4.1, h4.2.2.1, h4.2.2.2⟩

end Sys2Proof.Machine
end

