-- ==== Sys2Proof/Proofs/IssueOrder.lean ====
section
/-! SUPPORT. What stands before an instruction's effect at its issue (R49, R50, R106, R140, R274). -/
namespace Sys2Proof.Machine

theorem issue_of_ctx {f : Form} {body : Ctx → Eff} {s : State} {c : Ctx} (h : s.ctxOf f = some c) : issue f body s = .next (c.run body) := by
  rw [issue, h]

section
variable {c : Ctx} {body : Ctx → Eff}

theorem run_deferred {d : Deferred} {l : List Deferred} (hd : c.t.deferred = d :: l) (hb : c.t.busy = false) :
    c.run body = (c.s.tick 1).takeDeferred c.r d := by
  simp only [Ctx.run, hd, hb, Bool.false_eq_true, if_false]

section
variable (hd : c.t.deferred = [])
include hd

theorem run_held (hh : c.held = true) : c.run body = c.stall .retry := by
  simp only [Ctx.run, hd, hh, if_true]

section
variable (hh : c.held = false)
include hh

theorem run_decodeTrap {t : Trap} (ht : c.decodeTrap = some t) :
    c.run body = c.trap t 0 (lowest (if c.act = 0 then c.iss.mask else c.act)) c.s := by
  simp only [Ctx.run, hd, hh, ht, Bool.false_eq_true, if_false]

section
variable (ht : c.decodeTrap = none)
include ht

theorem run_empty (ha : c.act = 0) (he : actsEmpty c.f.op = false) : c.run body = c.leave c.s 0 id none c.beats := by
  simp [Ctx.run, hd, hh, ht, ha, he]

section
variable (ha : c.act ≠ 0)
include ha

theorem run_chainTrap {t : Trap} (hc : c.chainTrap = some t) : c.run body = c.trap t 0 c.low c.s := by
  simp only [Ctx.run, hd, hh, ht, hc, ha, Bool.false_eq_true, decide_false, Bool.false_and, if_false]

/-- The path of a split whose lanes all wait for a hand-off value. -/
def Ctx.heldForHands (c : Ctx) (p : Path) : Path :=
  { p with
    held := .handOff
    entry := c.iss.replay.map fun _ => c.entry c.act false
    stood := some { c.entry c.act false with fresh := true } }

theorem run_allWait (hc : c.chainTrap = none) (hw : ∀ l ∈ lanesOf c.act, c.waitsHand l = true) (h1 : ∀ t a l s', body c ≠ .trap t a l s')
    (h2 : ∀ s' w, body c ≠ .stay s' w) : c.run body = c.leave c.s c.act c.heldForHands none 1 := by
  have hu : (maskOf fun l => hasLane c.act l && c.waitsHand l) = c.act := by
    refine mask_ext fun l hl => ?_
    rw [hasLane_maskOf]
    by_cases h : hasLane c.act l = true
    · simp [h, hl, hw l (mem_lanesOf.mpr h)]
    · simp [h]
  have hz : (decide (c.act &&& ~~~c.act = 0) || c.f.undivided) = true := by simp
  simp only [Ctx.run, hd, hh, ht, hc, hu, ha, hz, if_true, Bool.false_eq_true, decide_false, Bool.false_and, if_false]
  rfl

end
end
end
end
end

/-- Settles O45: the clauses are the branches of `Ctx.run` in their order. -/
theorem issueOrder : Obligations.IssueOrder := by
  intro f body s c hc
  have hf : c.f = f := (ctxOf_spec hc).2.2.2.1
  refine ⟨fun d l hd hb => ?_, fun hd hh => ?_, fun hd hh t ht => ?_, fun hd hh ht ha he => ?_, fun hd hh ht ha t hct => ?_,
    fun hd hh ht ha hct hw h1 h2 => ⟨c.heldForHands, fun p => ⟨rfl, rfl, rfl⟩, ?_⟩, fun hfree => ?_⟩
  · rw [issue_of_ctx hc, run_deferred hd hb]
  · rw [issue_of_ctx hc, run_held hd hh]
  · rw [issue_of_ctx hc, run_decodeTrap hd hh ht]
  · rw [issue_of_ctx hc, run_empty hd hh ht ha (by rw [hf]; exact he)]
  · rw [issue_of_ctx hc, run_chainTrap hd hh ht ha hct]
  · rw [issue_of_ctx hc, run_allWait hd hh ht ha hct hw h1 h2]
  · exact issue_runs body ⟨c, hc, hfree, rfl⟩

end Sys2Proof.Machine
end

