-- ==== Sys2Proof/Proofs/StepRuns.lean ====
section
/-! SUPPORT. A step runs the decoded instruction of the split that has the turn (log entries 1, 92). -/
namespace Sys2Proof.Machine

section
variable {s : State} {r : SplitRef} {g : Grid} {c : Crew} {t : Strand} (hg : s.grid? r.strand.crew.grid = some g)
  (hc : s.crew? r.strand.crew = some c) (ht : s.strand? r.strand = some t) (hi : s.canIssue c t = true) (hd : t.deferred = [])
include hg hc ht hi hd

/-- The first entry that a strand re-injects issues as it was captured. -/
theorem beginIssue_reinject {e : ReplayEntry} {es : List ReplayEntry} (he : t.reinject = e :: es) :
    s.beginIssue r =
      ({ s with cur := some { strand := r.strand, mask := e.mask, pc := e.pc, instr := e.instr, replay := some e, queued := true } },
        some e.instr) := by
  simp only [State.beginIssue, hg, hc, ht, hi, hd, he, Bool.not_true, Bool.false_eq_true, if_false]

/-- The split that has the turn issues the words at its program counter, the splits that stand there having joined it. -/
theorem beginIssue_words (he : t.reinject = []) {u v : Strand} {p q : Path} {w : Nat}
    (hu : ((s.settleStack r.strand).swapHeld r.strand).strand? r.strand = some u) (hp : u.splitOf? r.lane = some p)
    (hrd : ((s.settleStack r.strand).swapHeld r.strand).splitReady g r.strand u p = true) (hst : u.stalledBut p = false)
    {s2 : State} (hs2 : s2 = ((s.settleStack r.strand).swapHeld r.strand).modStrand r.strand fun t =>
      t.mergeInto r.lane (((s.settleStack r.strand).swapHeld r.strand).pathReady r.strand))
    (hv : s2.strand? r.strand = some v) (hq : v.splitOf? r.lane = some q) (hw : s2.waitOver g v q = true) (hqe : q.entry = none)
    (hf : (s2.fetch g c q.pc).2 = .words w) :
    s.beginIssue r =
      ({ (s2.fetch g c q.pc).1 with
          cur := some { strand := r.strand, mask := q.mask, pc := q.pc, instr := decodeNat w, replay := none, queued := false } },
        some (decodeNat w)) := by
  simp only [State.beginIssue, hg, hc, ht, hi, hd, he, hu, hp, hrd, hst, ← hs2, hv, hq, hw, Bool.not_true, Bool.or_self, Bool.false_eq_true,
    if_false, if_true]
  simp only [State.present, hqe, hf]

end

theorem step_issue {s : State} {r : SplitRef} {rest : List Turn} (h : s.agenda = .issue r :: rest) :
    step s = actBy exec (({ s with agenda := rest }.look exec).giveTurn exec r) := step_agenda h

theorem agenda_nil {s : State} (h : s.agenda = []) : { s with agenda := [] } = s := by
  cases s
  cases h
  rfl

/-- Settles O46: the turn by its kind, and of the issue of a split the words or the entry that it begins with. -/
theorem stepRuns : Obligations.StepRuns := by
  refine ⟨fun s r rest g c t u v p q w ha => ?_, fun s r rest g c t e es ha => ?_, fun s i rest ha hi => ?_, fun s n rest ha => ?_,
    fun s a i ha hh hn => ?_, fun s r ha hh hr => ?_, fun s ha hh hr => ?_⟩
  · intro s0 hg hc ht hi hd he s1 hu hp hrd hst s2 hv hq hw hqe hf
    rw [step_issue ha, State.giveTurn, beginIssue_words hg hc ht hi hd he hu hp hrd hst rfl hv hq hw hqe hf]
    rfl
  · intro s0 hg hc ht hi hd he
    rw [step_issue ha, State.giveTurn, beginIssue_reinject hg hc ht hi hd he]
    rfl
  · rw [step_agenda ha, State.turn, hi]
    rfl
  · rw [step_agenda ha]
    rfl
  · rw [step_happening ha hh, a.run_eq_exec hn]
  · rw [step_own ha hh, step_issue (s := { s with agenda := [.issue r] }) rfl, agenda_nil ha]
    simp only [State.ownTurn, hr]
  · rw [step_own ha hh]
    simp only [State.ownTurn, hr]
    rfl

end Sys2Proof.Machine
end

