-- ==== Sys2Proof/Proofs/ResetAndMailbox.lean ====
section
/-! SUPPORT. The state that reset leaves, and the mailbox's registers (R290, R301, R303, R310, R311). -/
namespace Sys2Proof.Machine

/-! ## Reset -/

theorem reset_mem : State.reset.mem = [] := rfl
theorem reset_lost : State.reset.lost = [] := rfl
theorem reset_homeTable_eq : State.reset.homeTable = (List.range 64).map (· % 9) := rfl
theorem reset_quads : State.reset.quads = List.replicate 72 Quadrant.full := rfl
theorem reset_partitions : State.reset.partitions = List.replicate 16 none := rfl
theorem reset_contexts : State.reset.contexts = List.replicate 64 none := rfl

theorem join_replicate_none {α : Type} (k n : Nat) : ((List.replicate k (none : Option α))[n]?).join = none := by
  rw [List.getElem?_replicate]
  split <;> rfl

theorem memByte_reset (key : Nat) : State.reset.memByte key = resetByte key := by
  simp [State.memByte, State.lostAt, reset_mem, reset_lost]

theorem reset_homeTable {k : Nat} (hk : k < 64) : State.reset.reportByte (0x40 + k) = BitVec.ofNat 8 (k % 9) := by
  have hlt : 0x40 + k < 0x80 := by omega
  have h1 : (0x40 + k - 0) % 0x80 = 64 + k := by omega
  simp only [State.reportByte, if_pos hlt, h1, State.headTable]
  rw [List.getD_eq_getElem?_getD, List.getElem?_append_right (by rw [length_toBytes]; omega), length_toBytes, Nat.add_sub_cancel_left]
  simp [reset_homeTable_eq, hk]

theorem reset_pcMap {q n : Nat} (hq : q < 72) (hn : n < 2048) :
    State.reset.reportByte (0x140000 + 4096 * q + 2 * n) = BitVec.ofNat 8 (n / 32) := by
  have hge (k : Nat) (hk : k ≤ 0x140000) : ¬0x140000 + 4096 * q + 2 * n < k := by omega
  have hlt : 0x140000 + 4096 * q + 2 * n < 0x188000 := by omega
  have h1 : (0x140000 + 4096 * q + 2 * n - 0x140000) / 2 = 2048 * q + n := by omega
  have h2 : (0x140000 + 4096 * q + 2 * n - 0x140000) % 2 = 0 := by omega
  have h3 : (2048 * q + n) / 2048 = q := by omega
  have h4 : (2048 * q + n) % 2048 = n := by omega
  have hquad : State.reset.quads.getD q Quadrant.full = Quadrant.full := by
    rw [reset_quads, List.getD_eq_getElem?_getD, List.getElem?_replicate, if_pos hq]; rfl
  simp only [State.reportByte, hge _ (show 0x80 ≤ 0x140000 by decide), hge _ (show 0x2C0 ≤ 0x140000 by decide),
    hge _ (show 0x400 ≤ 0x140000 by decide), hge _ (show 0x1600 ≤ 0x140000 by decide), hge _ (show 0x2000 ≤ 0x140000 by decide),
    hge _ (show 0x16400 ≤ 0x140000 by decide), hge _ (show 0x18000 ≤ 0x140000 by decide), hge _ (show 0x18050 ≤ 0x140000 by decide),
    hge _ (show 0x18800 ≤ 0x140000 by decide), hge _ (show 0x18F01 ≤ 0x140000 by decide), hge _ (show 0x19000 ≤ 0x140000 by decide),
    hge _ (show 0x19504 ≤ 0x140000 by decide), hge _ (show 0x20000 ≤ 0x140000 by decide), hge _ (Nat.le_refl _), hlt, if_true, if_false, h1, h2,
    h3, h4, State.pcmapEntry, hquad]
  simp [Quadrant.placeOf, Quadrant.full, toBytes]

/-- Settles O47: every clause is a field of `State.reset`, or a byte of its report. -/
theorem resetFacts : Obligations.ResetFacts := by
  refine ⟨rfl, rfl, rfl, rfl, rfl, fun n => ⟨?_, ?_, rfl⟩, rfl, rfl, rfl, memByte_reset, fun key h => ?_, fun k hk => ?_, fun q n hq hn => ?_, rfl,
    fun k hk => ?_⟩
  · rw [State.part?, reset_partitions]; exact join_replicate_none ..
  · rw [State.ctx?, reset_contexts]; exact join_replicate_none ..
  · rw [memByte_reset, resetByte, if_neg (by omega)]
  · rw [memByte_reset, resetByte, if_pos (by omega), reset_homeTable hk]
  · rw [memByte_reset, resetByte, if_pos (by omega), reset_pcMap hq hn]
  · rw [List.eq_of_mem_replicate hk]
    exact ⟨rfl, rfl, rfl, rfl, rfl⟩

/-! ## The mailbox -/

theorem nthWord_modNth (l : List Word) (n m : Nat) (v : Word) (hn : n < l.length) :
    nthWord (modNth l n fun _ => v) m = if m = n then v else nthWord l m := by
  rw [nthWord, nthWord, List.getD_eq_getElem?_getD, List.getD_eq_getElem?_getD, getElem?_modNth]
  by_cases h : m = n
  · subst h
    simp [hn]
  · simp [h]

/-- A dead device takes no doorbell. -/
theorem ringBell_dead {s : State} (h : s.dead = true) (q : Nat) : s.ringBell q = s := by
  unfold State.ringBell
  split
  · rfl
  · simp [h]

/-- A command of the code that is submitted with a bit of MBW0[31:8] set is REJECTED. -/
theorem command_rejected {s : State} {code : Nat} (body : State) (h1 : s.mbBusy = true) (h2 : s.starting = none) (h3 : s.mbWait = none)
    (h4 : s.recovery = false) (h5 : s.mbCode = code) (h6 : nthWord s.mbw 0 >>> 8 ≠ 0) : s.command code body = s.answer .rejected := by
  have hno : (!s.mbBusy || s.starting.isSome || s.mbWait.isSome || s.recovery || decide (s.mbCode ≠ code)) = false := by
    simp [h1, h2, h3, h4, h5]
  rw [State.command, hno, if_neg Bool.false_ne_true, if_pos h6]

theorem mailboxUnknown_of_free {s : State} (h1 : s.mbBusy = true) (h2 : s.starting = none) (h3 : s.mbWait = none) (h4 : s.recovery = false)
    (h5 : s.mbCode = 0 ∨ 8 < s.mbCode) :
    exec .mailboxUnknown s = .next (if nthWord s.mbw 0 >>> 8 ≠ 0 then s.answer .rejected else s.answer .unknown) := by
  have h : (decide (1 ≤ s.mbCode) && decide (s.mbCode ≤ 8)) = false := by
    rw [Bool.and_eq_false_iff, decide_eq_false_iff_not, decide_eq_false_iff_not]; omega
  simp only [exec, execMailboxUnknown, h1, h2, h3, h4, h, Bool.not_true, Option.isSome_none, Bool.or_self, Bool.false_eq_true, if_false]

/-- Settles O50: the register's address decides what the write is; the codes of commands and their answers one by one. -/
theorem mailboxProtocol : Obligations.MailboxProtocol := by
  refine ⟨fun n v s hn hl hd hb => ?_, fun v s hd hb => ?_, fun q v s hq => ?_, fun off v s h => ?_, fun s code i h1 h2 h3 h4 h5 h6 hi => ?_,
    fun s h1 h2 h3 h4 h5 h6 => ?_⟩
  · have hb1 : ¬(0x100000 ≤ 0x1000 + 4 * n ∧ 0x1000 + 4 * n < 0x180000 ∧ (0x1000 + 4 * n) % 8 = 0) := by omega
    have hb2 : 0x1000 ≤ 0x1000 + 4 * n ∧ 0x1000 + 4 * n < 0x1040 ∧ (0x1000 + 4 * n) % 4 = 0 := by omega
    have hb3 : (0x1000 + 4 * n - 0x1000) / 4 = n := by omega
    refine ⟨{ s with mbw := modNth s.mbw n fun _ => v }, ?_, rfl, ?_, fun m hm => ?_⟩
    · simp only [exec, execRegisterWrite, hd, hb, hb1, hb2, hb3, Bool.false_eq_true, if_false, and_self, if_true]
    · exact (nthWord_modNth _ n n v (by omega)).trans (if_pos rfl)
    · exact (nthWord_modNth _ n m v (by omega)).trans (if_neg hm)
  · refine ⟨_, _, ?_, rfl, rfl⟩
    simp [exec, execRegisterWrite, hd, hb]
    rfl
  · have hb1 : 0x100000 ≤ 0x100000 + 8 * q ∧ 0x100000 + 8 * q < 0x180000 ∧ (0x100000 + 8 * q) % 8 = 0 := by omega
    have hb2 : (0x100000 + 8 * q - 0x100000) / 8 = q := by omega
    simp only [exec, execRegisterWrite, execDoorbell, hb1, hb2, and_self, if_true]
    by_cases hd : s.dead = true
    · rw [if_pos hd, ringBell_dead hd]
    · rw [if_neg hd]
  · rcases h with h | ⟨h, ho⟩
    · simp only [exec, execRegisterWrite, h, if_true]
    · have hb1 : ¬(0x100000 ≤ off ∧ off < 0x180000 ∧ off % 8 = 0) := by omega
      simp only [exec, execRegisterWrite, h, hb1, if_false, if_true, ite_self]
  · refine ⟨_, ?_, rfl⟩
    subst hi
    have hc (k : Nat) (hk : code = k) (body : State) := command_rejected body h1 h2 h3 h4 (h5.trans hk) h6
    match code, h5, hc with
    | 0, h5, _ => exact (mailboxUnknown_of_free h1 h2 h3 h4 (.inl h5)).trans (by rw [if_pos h6]; rfl)
    | 1, _, hc => exact congrArg _ (hc 1 rfl _)
    | 2, _, hc => exact congrArg _ (hc 2 rfl _)
    | 3, _, hc => exact congrArg _ (hc 3 rfl _)
    | 4, _, hc => exact congrArg _ (hc 4 rfl _)
    | 5, _, hc => exact congrArg _ (hc 5 rfl _)
    | 6, _, hc => exact congrArg _ (hc 6 rfl _)
    | 7, _, hc => exact congrArg _ (hc 7 rfl _)
    | 8, _, hc => exact congrArg _ (hc 8 rfl _)
    | n + 9, h5, _ => exact (mailboxUnknown_of_free h1 h2 h3 h4 (.inr (by omega))).trans (by rw [if_pos h6]; rfl)
  · exact ⟨_, (mailboxUnknown_of_free h1 h2 h3 h4 h5).trans (by rw [if_neg (not_not.mpr h6)]; rfl), rfl⟩

end Sys2Proof.Machine
end

