-- ==== Sys2Proof/Proofs/SystemWrites.lean ====
section
/-! SUPPORT. The writes of system registers, with what they refuse (R55, R57, R266, R290, R334, R387, R400). -/
namespace Sys2Proof.Machine

/-- What CSRW writes: the low word of the lowest active lane. -/
def Ctx.written (c : Ctx) : Word := loWord (c.a c.low)

section
variable {e : Ext} {c : Ctx} (hf : c.f = Form.ofExt 0xC1 e)
include hf

theorem csrw_index (n : Nat) (h : e.imm.toNat = n) : c.srIndex = n := by rw [Ctx.srIndex, hf]; exact h

theorem csrwBody_fpmode (h : e.imm = 0x11) : csrwBody c =
    if c.written &&& 0xFFFFFE04#32 ≠ 0 then c.fail .illegalOperand else .go (c.onStrand c.s fun t => { t with fp := c.written }) none 0 := by
  rw [csrwBody, csrw_index hf 0x11 (congrArg BitVec.toNat h)]; rfl

theorem csrwBody_prio (h : e.imm = 0x12) : csrwBody c = c.setPrio c.written := by
  rw [csrwBody, csrw_index hf 0x12 (congrArg BitVec.toNat h)]; rfl

theorem csrwBody_handler (h : e.imm = 0x13) : csrwBody c =
    if c.written ≠ 0 && !(codeOffsetOk c.written.toNat) then c.fail .illegalOperand
    else .go (c.onCrew c.s fun k => { k with handler := c.written }) none 0 := by
  rw [csrwBody, csrw_index hf 0x13 (congrArg BitVec.toNat h)]; rfl

theorem csrwBody_readOnly (h1 : e.imm ≠ 0x11) (h2 : e.imm ≠ 0x12) (h3 : e.imm ≠ 0x13) : csrwBody c = c.fail .illegalOperand := by
  have hne {n : Nat} (k : BitVec 16) (hk : k.toNat = n) (h : e.imm ≠ k) : c.srIndex ≠ n := by
    rw [csrw_index hf _ rfl, ← hk]
    exact fun he => h (BitVec.eq_of_toNat_eq he)
  unfold csrwBody
  dsimp only
  split
  · rename_i he; exact (hne 0x11 rfl h1 he).elim
  · rename_i he; exact (hne 0x12 rfl h2 he).elim
  · rename_i he; exact (hne 0x13 rfl h3 he).elim
  · rfl

end

theorem setPrio_ok {c : Ctx} {x : Word} (h : x.toNat ≤ c.c.initPrio.toNat) :
    c.setPrio x = .go (c.s.modCrew c.r.crew fun k => { k with prio := x.setWidth 2 }) none 0 := by
  rw [Ctx.setPrio, Crew.prioOk, decide_eq_true h, if_pos rfl, Ctx.onCrew]

theorem setPrio_fails {c : Ctx} {x : Word} (h : c.c.initPrio.toNat < x.toNat) : c.setPrio x = c.fail .illegalOperand := by
  rw [Ctx.setPrio, Crew.prioOk, decide_eq_false (by omega), if_neg Bool.false_ne_true]

/-- A handler offset that %traphandler takes: none, or a code offset. -/
theorem handlerOk_iff (x : Word) : (decide (x ≠ 0) && !(codeOffsetOk x.toNat)) = true ↔ x ≠ 0 ∧ (x.toNat % 4 ≠ 0 ∨ x.toNat < 0x80) := by
  simp only [codeOffsetOk, Bool.and_eq_true, decide_eq_true_eq, Bool.not_eq_true', Bool.and_eq_false_iff, decide_eq_false_iff_not, Nat.not_le]

/-- An instruction that fails a check of its own where `ok` holds. -/
theorem fails_of_body {i : Instr} {f : Form} {ok : Ctx → Prop} (body : Ctx → Eff) (he : ∀ s, exec i s = issue f body s)
    (hb : ∀ c : Ctx, c.f = f → ok c → body c = c.fail .illegalOperand) (s : State) (c : Ctx) (hr : Runs s f c) (hok : ok c) :
    exec i s = .next (c.trap .illegalOperand 0 c.low c.s) :=
  exec_of_trap body (he s) hr (hb c hr.spec.2.2.2.1 hok)

/-- An instruction that runs freely and whose meaning is to wait. -/
theorem exec_of_stay {i : Instr} {f : Form} {s s' : State} {c : Ctx} {w : Wait} (body : Ctx → Eff) (he : exec i s = issue f body s)
    (hr : Runs s f c) (hb : body c = .stay s' w) : exec i s = .next (c.waitFor s' w) :=
  exec_of_body body he hr hb

/-- Settles O32: CSRW by its index; each writer goes on where its check passes and fails where it does not. -/
theorem systemWrites : Obligations.SystemWrites := by
  refine ⟨fun e h => does_of_go csrwBody (fun _ => rfl) fun c hf _ hok => ?_, fun e h => fails_of_body csrwBody (fun _ => rfl) fun c hf hok => ?_,
    fun e h => does_of_go csrwBody (fun _ => rfl) fun c hf _ hok => ?_, fun e h => fails_of_body csrwBody (fun _ => rfl) fun c hf hok => ?_,
    fun e h => does_of_go csrwBody (fun _ => rfl) fun c hf _ hok => ?_, fun e h => fails_of_body csrwBody (fun _ => rfl) fun c hf hok => ?_,
    fun e h1 h2 h3 => fails_of_body csrwBody (fun _ => rfl) fun c hf _ => csrwBody_readOnly hf h1 h2 h3,
    fun e => does_of_go _ (fun _ => rfl) fun c _ _ hok => setPrio_ok hok, fun e => fails_of_body _ (fun _ => rfl) fun c _ hok => setPrio_fails hok,
    fun e => does_of_go _ (fun _ => rfl) fun c _ _ hok => ?_, fun e => fails_of_body _ (fun _ => rfl) fun c _ hok => ?_,
    fun g s c hr => ⟨_, exec_of_body _ rfl hr rfl, rfl⟩, fun e s c hr hs => exec_of_stay _ rfl hr (if_neg (hs ▸ Bool.false_ne_true)),
    fun e => does_of_go _ (fun _ => rfl) fun c _ _ hok => if_pos hok⟩
  · exact (csrwBody_fpmode hf h).trans (if_neg (not_not.mpr hok))
  · exact (csrwBody_fpmode hf h).trans (if_pos hok)
  · exact (csrwBody_prio hf h).trans (setPrio_ok hok)
  · exact (csrwBody_prio hf h).trans (setPrio_fails hok)
  · refine (csrwBody_handler hf h).trans (if_neg fun hc => ?_)
    obtain ⟨h0, hbad⟩ := (handlerOk_iff _).mp hc
    rcases hok with hok | ⟨h4, h80⟩
    · exact h0 hok
    · exact hbad.elim (fun h => h h4) (Nat.not_lt.mpr h80)
  · exact (csrwBody_handler hf h).trans (if_pos ((handlerOk_iff _).mpr hok))
  · exact if_neg (by dsimp only at hok; omega)
  · exact if_pos hok

end Sys2Proof.Machine
end

