-- ==== Sys2Proof/Proofs/Barriers.lean ====
section
/-! SUPPORT. Barriers and phases: arriving, passing, waiting (R194, R195, R322, R323, R324). -/
namespace Sys2Proof.Machine

/-! ## An instruction that waits with the operands of its first read -/

/-- Only what issues differs. -/
theorem again_eq (c : Ctx) : c.again = { c with iss := { c.iss with replay := c.again.iss.replay } } := by
  unfold Ctx.again
  split <;> rfl

@[simp] theorem again_s (c : Ctx) : c.again.s = c.s := by rw [again_eq]
@[simp] theorem again_g (c : Ctx) : c.again.g = c.g := by rw [again_eq]
@[simp] theorem again_c (c : Ctx) : c.again.c = c.c := by rw [again_eq]
@[simp] theorem again_t (c : Ctx) : c.again.t = c.t := by rw [again_eq]
@[simp] theorem again_f (c : Ctx) : c.again.f = c.f := by rw [again_eq]
@[simp] theorem again_act (c : Ctx) : c.again.act = c.act := by rw [again_eq]
@[simp] theorem again_flying (c : Ctx) : c.again.flying = c.flying := by rw [again_eq]
@[simp] theorem again_r (c : Ctx) : c.again.r = c.r := by rw [again_eq]; rfl
@[simp] theorem again_low (c : Ctx) : c.again.low = c.low := by simp [Ctx.low]
@[simp] theorem again_core (c : Ctx) : c.again.core = c.core := by simp [Ctx.core]

/-! ## What a release keeps -/

@[simp] theorem crews_release (s : State) (core : Nat) (sc : Scope) : (s.release core sc).crews = s.crews := by simp [State.release]
@[simp] theorem grids_release (s : State) (core : Nat) (sc : Scope) : (s.release core sc).grids = s.grids := by simp [State.release]
@[simp] theorem lost_release (s : State) (core : Nat) (sc : Scope) : (s.release core sc).lost = s.lost := by simp [State.release]

/-! ## An instruction that acts with Active() empty -/

/-- What `Arrives` says of the parts of the context. -/
theorem Arrives.spec {s : State} {f : Form} {c : Ctx} (h : Arrives s f c) :
    c.s.grid? c.r.crew.grid = some c.g ∧ c.s.crew? c.r.crew = some c.c ∧ c.s.strand? c.r = some c.t ∧ c.f = f := by
  rcases h with h | ⟨d, hd, -, -, -, -, -, rfl⟩
  · obtain ⟨h1, h2, h3, h4, -⟩ := h.spec
    exact ⟨h1, h2, h3, h4⟩
  · obtain ⟨h1, h2, h3, h4, -⟩ := ctxOf_spec hd
    obtain ⟨hc, hg, -⟩ := acquireHands_s d
    refine ⟨?_, ?_, ?_, h4⟩
    · rw [State.grid?, hg]; exact h1
    · exact (crew?_of_crews hc _).trans h2
    · exact (strand?_of_crews hc _).trans h3

/-- An instruction that acts with Active() empty takes its effect then as it does with lanes that act. -/
theorem issue_arrives {s : State} {f : Form} {c : Ctx} (body : Ctx → Eff) (ha : actsEmpty f.op = true) (h : Arrives s f c) :
    issue f body s = .next (c.settle 0 (body c)) := by
  rcases h with h | ⟨d, hd, h0, hq, hdef, hh, ht, rfl⟩
  · exact issue_runs body h
  · have hf : d.f = f := (ctxOf_spec hd).2.2.2.1
    have hz : (maskOf fun l => hasLane d.act l && d.waitsHand l) = 0 := by
      refine mask_ext fun l _ => ?_
      rw [hasLane_maskOf, h0, show hasLane (0 : Mask) l = false from hasLane_zero l, Bool.false_and, Bool.and_false]
    rw [issue_of_ctx hd]
    simp only [Ctx.run, hdef, hh, ht, hq, hf, ha, hz, if_pos h0, Bool.not_true, Bool.or_self, Bool.and_false, Bool.false_eq_true, if_false, if_true]

theorem exec_arrives {i : Instr} {f : Form} {s : State} {c : Ctx} {e : Eff} (body : Ctx → Eff) (he : exec i s = issue f body s)
    (ha : actsEmpty f.op = true) (hr : Arrives s f c) (hb : body c = e) : exec i s = .next (c.settle 0 e) := by
  rw [he, issue_arrives body ha hr, hb]

/-! ## The arrival -/

theorem grid?_id {s : State} {n : Nat} {g : Grid} (h : s.grid? n = some g) : g.id = n := by
  have := List.find?_some h
  simpa using this

theorem barrier_setBarrier (g : Grid) (b : Barrier) : (g.setBarrier b).barrier b.key = b := by
  simp [Grid.setBarrier, Grid.barrier]

theorem barrier_key (g : Grid) (k : BarKey) : (g.barrier k).key = k := by
  rw [Grid.barrier]
  cases h : g.barriers.find? fun b => b.key = k with
  | none => rfl
  | some b => simpa using List.find?_some h

/-- The generation completes or the arrivals stand; nothing else of the barrier changes. -/
theorem barrierStep_barrier {s : State} {gid : Nat} {g : Grid} (hg : s.grid? gid = some g) (k : BarKey) :
    ∃ g', (s.barrierStep gid k).grid? gid = some g' ∧
      (g'.barrier k = g.barrier k ∨ ((g'.barrier k).gen = (g.barrier k).gen + 1 ∧ (g'.barrier k).arrived = [])) := by
  unfold State.barrierStep
  simp only [hg]
  split
  · have h : (s.modGrid gid fun g' => g'.setBarrier { g.barrier k with gen := (g.barrier k).gen + 1, arrived := [] }).grid? gid =
        some (g.setBarrier { g.barrier k with gen := (g.barrier k).gen + 1, arrived := [] }) := by
      rw [grid?_modGrid_same _ _ _ (by intro x; rfl), hg]
      rfl
    refine ⟨_, h, .inr ?_⟩
    have hb := barrier_setBarrier g { g.barrier k with gen := (g.barrier k).gen + 1, arrived := [] }
    rw [show ({ g.barrier k with gen := (g.barrier k).gen + 1, arrived := [] } : Barrier).key = k from barrier_key g k] at hb
    rw [hb]
    exact ⟨rfl, rfl⟩
  · exact ⟨g, hg, .inl rfl⟩

theorem barrierStep_frame (s : State) (gid : Nat) (k : BarKey) :
    (s.barrierStep gid k).mem = s.mem ∧ (s.barrierStep gid k).lost = s.lost ∧ (s.barrierStep gid k).cores = s.cores := by
  unfold State.barrierStep
  split
  · exact ⟨rfl, rfl, rfl⟩
  · dsimp only
    split <;> exact ⟨rfl, rfl, rfl⟩

/-- The state in which the strand has arrived, before the generation completes where it was the last. -/
def Ctx.arriving (c : Ctx) (byBarc : Bool) : State :=
  c.onStrand ((c.clearArrival (c.s.release c.core c.f.e.scope)).modGrid c.g.id fun x =>
      x.setBarrier { x.barrier c.barKey with arrived := (c.c.idx, c.t.idx) :: (x.barrier c.barKey).arrived })
    fun t => { t with arrivals := { key := c.barKey, gen := c.generation (c.s.release c.core c.f.e.scope), byBarc := byBarc } :: t.arrivals }

/-- The state in which the strand has arrived. -/
def Ctx.arrived (c : Ctx) (byBarc : Bool) : State := (c.arriving byBarc).barrierStep c.g.id c.barKey

theorem generation_release (c : Ctx) : c.generation (c.s.release c.core c.f.e.scope) = c.generation c.s := by
  simp only [Ctx.generation, State.grid?, grids_release]

theorem arrive_quiet {c : Ctx} (wait : Bool) (hq : c.quiet = true) : c.arrive wait c.s =
    if !wait then .go (c.arrived (!wait)) none 0
    else if c.generation (c.arrived (!wait)) ≠ c.generation (c.s.release c.core c.f.e.scope) then c.pass (c.arrived (!wait))
    else .stay (c.arrived (!wait)) .barrier := by
  rw [Ctx.arrive, hq]
  rfl

section
variable {c : Ctx} (hg : c.s.grid? c.r.crew.grid = some c.g) (ht : c.s.strand? c.r = some c.t) (byBarc : Bool)

theorem arriving_frame : (c.arriving byBarc).mem = (c.s.release c.core c.f.e.scope).mem ∧
    (c.arriving byBarc).lost = (c.s.release c.core c.f.e.scope).lost ∧ (c.arriving byBarc).cores = (c.s.release c.core c.f.e.scope).cores := by
  simp only [Ctx.arriving, Ctx.onStrand, Ctx.clearArrival, State.modStrand_mem, State.modGrid_mem, State.modStrand_lost, State.modGrid_lost,
    State.modStrand_cores, State.modGrid_cores, and_self]

theorem arrived_memByte (key : Nat) : (c.arrived byBarc).memByte key = (c.s.release c.core c.f.e.scope).memByte key := by
  obtain ⟨hm, hl, -⟩ := barrierStep_frame (c.arriving byBarc) c.g.id c.barKey
  obtain ⟨hm', hl', -⟩ := arriving_frame (c := c) byBarc
  exact memByte_of (hm.trans hm') (hl.trans hl') key

theorem arrived_cores : (c.arrived byBarc).cores = (c.s.release c.core c.f.e.scope).cores := by
  obtain ⟨-, -, hc⟩ := barrierStep_frame (c.arriving byBarc) c.g.id c.barKey
  obtain ⟨-, -, hc'⟩ := arriving_frame (c := c) byBarc
  exact hc.trans hc'

include ht in
theorem arrived_strand : ∃ u, (c.arrived byBarc).strand? c.r = some u ∧ SameRegs u c.t ∧
    u.arrivals.head? = some { key := c.barKey, gen := c.generation c.s, byBarc := byBarc } := by
  have h0 : (c.s.release c.core c.f.e.scope).strand? c.r = some c.t := (strand?_of_crews (crews_release _ _ _) _).trans ht
  have h1 : ((c.clearArrival (c.s.release c.core c.f.e.scope)).modGrid c.g.id fun x =>
      x.setBarrier { x.barrier c.barKey with arrived := (c.c.idx, c.t.idx) :: (x.barrier c.barKey).arrived }).strand? c.r =
        some { c.t with arrivals := c.t.arrivals.filter fun a => a.key ≠ c.barKey } := by
    refine (strand?_of_crews rfl _).trans ((strand?_modStrand_same _ _ _ (by intro t; rfl)).trans ?_)
    rw [h0]
    rfl
  obtain ⟨u, hu, he, -⟩ := stands_barrierStep _ c.g.id c.barKey c.r _ ((strand?_modStrand_same _ c.r
    (fun t => { t with arrivals := { key := c.barKey, gen := c.generation (c.s.release c.core c.f.e.scope), byBarc := byBarc } :: t.arrivals })
    (by intro t; rfl)).trans (congrArg _ h1))
  refine ⟨u, hu, ?_, ?_⟩
  · rw [he]; exact ⟨rfl, rfl, rfl, rfl⟩
  · rw [he, ← generation_release c]; rfl

include hg in
theorem arrived_grid : ∃ g, (c.arrived byBarc).grid? c.g.id = some g ∧
    ((g.barrier c.barKey).gen = c.generation c.s ∧ (c.c.idx, c.t.idx) ∈ (g.barrier c.barKey).arrived ∨
      (g.barrier c.barKey).gen = c.generation c.s + 1 ∧ (g.barrier c.barKey).arrived = []) := by
  have hid : c.s.grid? c.g.id = some c.g := by rw [grid?_id hg]; exact hg
  have h1 : (c.arriving byBarc).grid? c.g.id =
      some (c.g.setBarrier { c.g.barrier c.barKey with arrived := (c.c.idx, c.t.idx) :: (c.g.barrier c.barKey).arrived }) := by
    refine (grid?_modGrid_same (c.clearArrival (c.s.release c.core c.f.e.scope)) c.g.id _ (by intro x; rfl)).trans ?_
    rw [show (c.clearArrival (c.s.release c.core c.f.e.scope)).grid? c.g.id = some c.g from ?_]
    · rfl
    · exact (congrArg (List.find? _) (grids_release _ _ _)).trans hid
  have hb := barrier_setBarrier c.g { c.g.barrier c.barKey with arrived := (c.c.idx, c.t.idx) :: (c.g.barrier c.barKey).arrived }
  rw [show ({ c.g.barrier c.barKey with arrived := (c.c.idx, c.t.idx) :: (c.g.barrier c.barKey).arrived } : Barrier).key = c.barKey from
    barrier_key c.g _] at hb
  have hgen : c.generation c.s = (c.g.barrier c.barKey).gen := by rw [Ctx.generation, hid]
  obtain ⟨g, h2, h3⟩ := barrierStep_barrier h1 c.barKey
  refine ⟨g, h2, ?_⟩
  rw [hb] at h3
  rw [hgen]
  rcases h3 with h3 | ⟨h3, h4⟩
  · rw [h3]; exact .inl ⟨rfl, List.mem_cons_self ..⟩
  · exact .inr ⟨h3, h4⟩

end

/-! ## BAR and BARC -/

theorem arrived_spec {c : Ctx} {op : Nat} {e : Ext} (hg : c.s.grid? c.r.crew.grid = some c.g) (ht : c.s.strand? c.r = some c.t)
    (hf : c.f = Form.ofExt op e) (byBarc : Bool) :
    (∀ key, (c.arrived byBarc).memByte key = (c.s.release c.core e.scope).memByte key) ∧
      (c.arrived byBarc).cores = (c.s.release c.core e.scope).cores ∧
      (∃ u, (c.arrived byBarc).strand? c.r = some u ∧ SameRegs u c.t ∧
        u.arrivals.head? = some { key := c.barKey, gen := c.generation c.s, byBarc := byBarc }) ∧
      ∃ g, (c.arrived byBarc).grid? c.g.id = some g ∧
        ((g.barrier c.barKey).gen = c.generation c.s ∧ (c.c.idx, c.t.idx) ∈ (g.barrier c.barKey).arrived ∨
          (g.barrier c.barKey).gen = c.generation c.s + 1 ∧ (g.barrier c.barKey).arrived = []) := by
  have he : c.f.e.scope = e.scope := by rw [hf]; rfl
  rw [← he]
  exact ⟨arrived_memByte byBarc, arrived_cores byBarc, arrived_strand ht byBarc, arrived_grid hg byBarc⟩

section
variable {c : Ctx} {wait : Bool}

theorem barBody_others (h : c.t.live &&& ~~~c.iss.mask ≠ 0) : barBody wait c = .stay c.s .barrier := if_pos h

section
variable (h : c.t.live &&& ~~~c.iss.mask = 0)
include h

theorem barBody_first (ha : c.arrival = none) : barBody wait c = c.arrive wait c.s := by
  rw [barBody, if_neg (not_not.mpr h), ha]

theorem barBody_waits {a : Arrival} (ha : c.arrival = some a) (hg : c.generation c.s = a.gen) : barBody wait c = .stay c.s .barrier := by
  rw [barBody, if_neg (not_not.mpr h), ha]
  exact if_pos hg

theorem barBody_passed {a : Arrival} (ha : c.arrival = some a) (hg : c.generation c.s ≠ a.gen) :
    barBody wait c = if wait then c.pass c.s else c.arrive false c.s := by
  rw [barBody, if_neg (not_not.mpr h), ha]
  exact if_neg hg

end
end

/-- Settles O42: BAR and BARC by the pending arrival; PHASE and PHWAIT by their conditions. -/
theorem barriersAndPhases : Obligations.BarriersAndPhases := by
  refine ⟨fun e s c hr hm ha hq => ?_, fun e s c a hr hm ha hg => ?_, fun e s c a hr hm ha hg => ?_, fun e s c hr hm => ?_,
    fun e s c hr hm ha hq => ?_, fun e s c a hr hm ha hg => ?_, fun e => does_of_go _ (fun _ => rfl) fun c hf _ hok => ?_,
    fun e => does_of_go _ (fun _ => rfl) fun c hf _ hok => ?_, fun g s v b hp => ?_, fun e s c hr hn => exec_of_trap _ rfl hr ?_⟩
  · obtain ⟨hg, -, ht, hf⟩ := hr.spec
    have hsc : c.f.e.scope = e.scope := by rw [hf]; rfl
    refine ⟨c.arrived false, arrived_spec hg ht hf false, (exec_arrives (barBody true) rfl rfl hr
      ((barBody_first hm ha).trans (arrive_quiet true hq))).trans ?_⟩
    simp only [Bool.not_true, Bool.false_eq_true, if_false, generation_release, ite_not]
    split
    · rfl
    · rw [← hsc]; rfl
  · have hsc : c.f.e.scope = e.scope := by rw [hr.spec.2.2.2]; rfl
    rw [← hsc]
    exact exec_arrives (barBody true) rfl rfl hr (barBody_passed hm ha hg)
  · exact exec_arrives (barBody true) rfl rfl hr (barBody_waits hm ha hg)
  · exact exec_arrives (barBody true) rfl rfl hr (barBody_others hm)
  · obtain ⟨hg, -, ht, hf⟩ := hr.spec
    have hb : barBody false c = c.arrive false c.s := by
      cases h : c.arrival with
      | none => exact barBody_first hm h
      | some a => exact barBody_passed hm h (ha a h)
    exact ⟨c.arrived true, arrived_spec hg ht hf true, exec_arrives (barBody false) rfl rfl hr (hb.trans (arrive_quiet false hq))⟩
  · exact exec_arrives (barBody false) rfl rfl hr (barBody_waits hm ha hg)
  · simp only [hok, Bool.not_true, Bool.false_eq_true, if_false]
    rfl
  · obtain ⟨h1, h2⟩ := hok
    simp only [again_s, again_g, again_low, again_core, if_neg (Nat.not_le.mpr h1), if_pos h2]
  · rw [State.phaseReached, if_neg, decide_eq_true_eq]
    simpa using hp
  · simp only [again_g, again_low, if_pos hn, Ctx.fail, again_s]

end Sys2Proof.Machine
end

