-- ==== Sys2Proof/Proofs/HandOffs.lean ====
section
/-! SUPPORT. Hand-offs: what HPUT publishes and what HSEAL seals (R138, R142 to R144, R148). -/
namespace Sys2Proof.Machine

/-! ## What a chain keeps of a published generation -/

/-- A published generation without the places of its copies. -/
def Pub.core (p : Pub) : Pub := { p with places := [] }

/-- Copies are given places; a generation of another name stays, and so does what is being placed. -/
theorem core_mem_fillPlaces (s : State) (g : Grid) (need : List Nat) (pubs : List Pub) (p x : Pub) (hx : x ∈ pubs.map Pub.core)
    (hk : x = p.core ∨ (x.item, x.slot, x.gen) ≠ (p.item, p.slot, p.gen)) : x ∈ ((s.fillPlaces g pubs p need).1).map Pub.core := by
  induction need generalizing pubs p with
  | nil => exact hx
  | cons r need ih =>
    rw [State.fillPlaces]
    split
    · exact ih pubs p hx hk
    · split
      · refine ih _ _ ?_ hk
        obtain ⟨y, hy, rfl⟩ := List.mem_map.mp hx
        rw [putPub, modWhere, List.map_map]
        refine List.mem_map.mpr ⟨y, hy, ?_⟩
        simp only [Function.comp]
        split
        · rename_i hkey
          simp only [Bool.and_eq_true, decide_eq_true_eq] at hkey
          rcases hk with hk | hk
          · rw [hk]; rfl
          · exact (hk (by simp [Pub.core, hkey.1.1, hkey.1.2, hkey.2])).elim
        · rfl
      · exact ih pubs p hx hk

/-- Publishing adds the generation to the chain and keeps those of other names. -/
theorem publish_spec {s s' : State} {gid item h gen member : Nat} {x : Word} {scope : Scope} {g : Grid} (hg : s.grid? gid = some g)
    (hp : s.publish gid item h gen x scope member = some s') :
    ∃ pubs, s' = (s.modGrid gid fun g => { g with chain := g.chain.withPubs pubs }) ∧
      (∃ p ∈ pubs, p.core =
        { item := item, slot := h, gen := gen, value := x, scope := scope, member := member, places := [], delivered := false }) ∧
      ∀ q ∈ g.chain.pubs.map Pub.core,
        q = { item := item, slot := h, gen := gen, value := x, scope := scope, member := member, places := [], delivered := false } ∨
          (q.item, q.slot, q.gen) ≠ (item, h, gen) → q ∈ pubs.map Pub.core := by
  unfold State.publish at hp
  simp only [hg] at hp
  split at hp
  · injection hp with hp
    refine ⟨_, hp.symm, List.mem_map.mp (core_mem_fillPlaces _ _ _ _ _ _ ?_ (.inl rfl)), fun q hq hk => ?_⟩
    · rw [List.map_append]
      exact List.mem_append_right _ (List.mem_singleton.mpr rfl)
    · refine core_mem_fillPlaces _ _ _ _ _ _ ?_ hk
      rw [List.map_append]
      exact List.mem_append_left _ hq
  · cases hp

/-- Freeing places keeps every published generation. -/
theorem tidyChain_spec {s : State} {gid : Nat} {g : Grid} (hg : s.grid? gid = some g) :
    ∃ g', (s.tidyChain gid).grid? gid = some g' ∧ g'.chain.pubs.map Pub.core = g.chain.pubs.map Pub.core := by
  unfold State.tidyChain
  simp only [hg]
  split
  · exact ⟨g, hg, rfl⟩
  · refine ⟨_, (grid?_modGrid_same _ _ _ (by intro x; rfl)).trans (congrArg _ hg), ?_⟩
    simp only [Chain.withPubs, List.map_map]
    exact List.map_congr_left fun p _ => rfl

theorem tidyChain_frame (s : State) (gid : Nat) : (s.tidyChain gid).mem = s.mem ∧ (s.tidyChain gid).lost = s.lost := by
  unfold State.tidyChain
  split
  · exact ⟨rfl, rfl⟩
  · split <;> exact ⟨rfl, rfl⟩

/-! ## The lanes of HPUT -/

/-- What a lane publishes. -/
def Ctx.pubOf (c : Ctx) (l : Nat) : Pub :=
  { item := c.item l, slot := c.slot, gen := (SMap.look 0 c.t.gen (32 * c.slot + l)).toNat, value := c.toPublish l, scope := c.f.e.scope
    member := c.member, places := [], delivered := false }

/-- The lanes `ls` have published since `s`, and no other. -/
structure Ctx.Published (c : Ctx) (s : State) (ls : List Nat) (t : State) : Prop where
  mem : t.mem = s.mem
  lost : t.lost = s.lost
  strand : ∃ m, t.strand? c.r = some { c.t with gen := m } ∧
    ∀ k, SMap.look 0 m k = if ∃ l ∈ ls, k = 32 * c.slot + l then SMap.look 0 c.t.gen k + 1 else SMap.look 0 c.t.gen k
  pubs : ∃ g, t.grid? c.g.id = some g ∧ ∀ l ∈ ls, c.pubOf l ∈ g.chain.pubs.map Pub.core

theorem published_step {c : Ctx} {s t t' : State} {ls : List Nat} {l : Nat} (h : c.Published s ls t)
    (hp : t.publish c.g.id (c.item l) c.slot (SMap.look 0 c.t.gen (32 * c.slot + l)).toNat (c.toPublish l) c.f.e.scope c.member = some t') :
    c.Published s (l :: ls)
      (c.onStrand t' fun u => { u with gen := SMap.put 0 u.gen (32 * c.slot + l) (SMap.look 0 c.t.gen (32 * c.slot + l) + 1) }) := by
  obtain ⟨hm, hlost, ⟨m, hs, hlook⟩, g, hg, hpubs⟩ := h
  obtain ⟨pubs, rfl, ⟨p, hpm, hpc⟩, hkeep⟩ := publish_spec hg hp
  refine ⟨hm, hlost, ⟨SMap.put 0 m (32 * c.slot + l) (SMap.look 0 c.t.gen (32 * c.slot + l) + 1), ?_, fun k => ?_⟩,
    { g with chain := g.chain.withPubs pubs }, ?_, fun k hk => ?_⟩
  · rw [Ctx.onStrand, strand?_modStrand_same _ _ _ (by intro u; rfl)]
    exact congrArg _ hs
  · rw [SMap.look_put]
    by_cases hk : k = 32 * c.slot + l
    · rw [if_pos hk, if_pos ⟨l, List.mem_cons_self .., hk⟩, hk]
    · rw [if_neg hk, hlook]
      simp only [List.mem_cons, exists_eq_or_imp, hk, false_or]
  · refine (grid?_modGrid_same t c.g.id (fun g => { g with chain := g.chain.withPubs pubs }) (by intro x; rfl)).trans ?_
    rw [hg]
    rfl
  · rcases List.mem_cons.mp hk with rfl | hk
    · exact List.mem_map.mpr ⟨p, hpm, hpc⟩
    · refine hkeep _ (hpubs k hk) ?_
      by_cases hkl : k = l
      · exact .inl (by rw [hkl]; rfl)
      · refine .inr fun he => hkl ?_
        have hi : c.item k = c.item l := congrArg Prod.fst he
        simp only [Ctx.item, itemOf] at hi
        omega

theorem mask_or_eq_zero {m n : Mask} (h : m ||| n = 0) : m = 0 ∧ n = 0 := by
  have hz (l : Nat) : (hasLane m l || hasLane n l) = false := by rw [← hasLane_or, h]; exact hasLane_zero l
  simp only [Bool.or_eq_false_iff] at hz
  exact ⟨mask_ext fun l _ => (hz l).1.trans (hasLane_zero l).symm, mask_ext fun l _ => (hz l).2.trans (hasLane_zero l).symm⟩

/-- Once a lane stays, it stays. -/
theorem publishLanes_stay (c : Ctx) (ls : List Nat) (x : State × Mask) (h : (ls.foldl c.publishLane x).2 = 0) : x.2 = 0 := by
  induction ls generalizing x with
  | nil => exact h
  | cons l ls ih =>
    have h2 := ih _ h
    unfold Ctx.publishLane at h2
    dsimp only at h2
    split at h2
    · exact h2
    · exact (mask_or_eq_zero h2).1

theorem publishLanes_spec {c : Ctx} {s : State} (ls done : List Nat) (hls : ∀ l ∈ ls, l < 32) {t t' : State}
    (h : c.Published s done t) (hf : ls.foldl c.publishLane (t, 0) = (t', 0)) :
    ∃ all, c.Published s all t' ∧ ∀ l, l ∈ all ↔ l ∈ done ∨ l ∈ ls := by
  induction ls generalizing done t with
  | nil =>
    cases hf
    exact ⟨done, h, fun l => by simp⟩
  | cons l ls ih =>
    have hz := publishLanes_stay c ls _ (congrArg Prod.snd hf)
    rw [List.foldl_cons] at hf
    unfold Ctx.publishLane at hz hf
    dsimp only at hz hf
    split at hz
    · rename_i t1 hp
      rw [hp] at hf
      obtain ⟨all, h1, h2⟩ := ih (l :: done) (fun k hk => hls k (List.mem_cons_of_mem _ hk)) (published_step h hp) hf
      refine ⟨all, h1, fun k => (h2 k).trans ?_⟩
      simp only [List.mem_cons]
      tauto
    · have hone : hasLane (1#32 <<< l) l = true := by rw [hasLane_one _ _ (hls l (List.mem_cons_self ..)), decide_eq_true rfl]
      rw [(mask_or_eq_zero hz).2] at hone
      cases (hasLane_zero l).symm.trans hone

/-! ## HPUT and HSEAL -/

/-- A lane whose path holds no value for back-pressure publishes operand A. -/
theorem toPublish_of_none {c : Ctx} (l : Nat) (h : ∀ p ∈ c.t.splits, p.pend = []) : c.toPublish l = loWord (c.a l) := by
  have hn : ((c.t.splitOf? l).bind fun p => p.pend.find? fun x => x.1 = l) = none := by
    rw [Option.bind_eq_none_iff]
    intro p hp
    rw [h p (List.mem_of_find?_eq_some hp)]
    rfl
  rw [Ctx.toPublish, hn]

theorem slotTrap_off {c : Ctx} (k : Option Nat) (h : c.g.record.chained = false) : c.slotTrap k = some .chainOff := by
  simp [Ctx.slotTrap, h]

theorem slotTrap_mode {c : Ctx} (k : Option Nat) (h1 : c.g.record.chained = true) (h2 : c.g.mode c.slot = 0) :
    c.slotTrap k = some .chainMode := by
  simp [Ctx.slotTrap, h1, h2]

/-- Where every check passes and every lane publishes, HPUT goes on. -/
theorem hputBody_go {c : Ctx} {t : State} (h1 : c.g.record.chained = true) (h2 : c.g.mode c.slot ≠ 0) (h3 : c.sealedLane = none)
    (hq : c.f.e.scope = .none ∨ c.quiet = true)
    (hf : (lanesOf c.act).foldl c.publishLane (if c.f.e.scope = .none then c.s else c.s.release c.core c.f.e.scope, 0) = (t, 0)) :
    hputBody c = .go (t.tidyChain c.g.id) none 0 := by
  have hno : (decide (c.f.e.scope ≠ .none) && !c.quiet) = false := by
    rcases hq with hq | hq <;> simp [hq]
  simp only [hputBody, slotTrap_none h1 h2, h3, hno, hf, Bool.false_eq_true, if_false, if_true]

/-- What the strand, the chain and memory are after HPUT. -/
theorem published_leave {c : Ctx} {s t : State} {ls : List Nat} (h : c.Published s ls t) :
    ∃ (u : Strand) (g : Grid), (c.leave (t.tidyChain c.g.id) 0 id none (c.beats + 0)).strand? c.r = some u ∧ SameRegs u c.t ∧
      (c.leave (t.tidyChain c.g.id) 0 id none (c.beats + 0)).grid? c.g.id = some g ∧
      (∀ k, SMap.look 0 u.gen k = if ∃ l ∈ ls, k = 32 * c.slot + l then SMap.look 0 c.t.gen k + 1 else SMap.look 0 c.t.gen k) ∧
      (∀ l ∈ ls, c.pubOf l ∈ g.chain.pubs.map Pub.core) ∧
      ∀ key, (c.leave (t.tidyChain c.g.id) 0 id none (c.beats + 0)).memByte key = s.memByte key := by
  obtain ⟨hm, hl, ⟨m, hs, hlook⟩, g, hg, hpubs⟩ := h
  obtain ⟨g', hg', hpubs'⟩ := tidyChain_spec hg
  obtain ⟨hm', hl'⟩ := tidyChain_frame t c.g.id
  have hs' : (t.tidyChain c.g.id).strand? c.r = some { c.t with gen := m } := (strand?_of_crews (crews_tidyChain _ _) _).trans hs
  obtain ⟨a, b, e, hv⟩ := leave_strand c _ _ id none (c.beats + 0) hs'
  have hfr := FrameOf.leave c (t.tidyChain c.g.id) id none (c.beats + 0)
  refine ⟨_, g', hv, ⟨rfl, rfl, rfl, rfl⟩, ?_, hlook, fun l hl => hpubs' ▸ hpubs l hl, fun key => ?_⟩
  · obtain ⟨⟨_, _, _, _, _, he⟩, -, -⟩ := hfr
    rw [he]
    exact hg'
  · obtain ⟨hm2, hl2⟩ := hfr.mem
    exact memByte_of (hm2.trans (hm'.trans hm)) (hl2.trans (hl'.trans hl)) key

/-- The state in which HSEAL has sealed the slot of its lanes. -/
def Ctx.sealed (c : Ctx) : State :=
  (c.onStrand c.s fun t => { t with sealedBy := SMap.put 0 t.sealedBy c.slot (SMap.look 0 t.sealedBy c.slot ||| c.act) }).tidyChain c.g.id

/-- Settles O44: HPUT by the lanes that have published, HSEAL by its table, the traps by the slot's checks. -/
theorem handOffs : Obligations.HandOffs := by
  refine ⟨fun e s c t' hr h1 h2 h3 hq => ?_, fun c l h => toPublish_of_none l h, fun e s c hr h1 h2 => ?_,
    fun e s c hr h => exec_of_trap hputBody rfl hr (by rw [hputBody, slotTrap_off none h]; rfl),
    fun e s c hr h1 h2 => exec_of_trap _ rfl hr (by rw [slotTrap_mode none h1 h2]; rfl),
    fun e s c l hr h1 h2 h3 => exec_of_trap hputBody rfl hr (by rw [hputBody, slotTrap_none h1 h2, h3]; rfl)⟩
  · intro from1 hfold
    obtain ⟨hg, -, hs, hf, -⟩ := hr.spec
    have hsc : c.f.e.scope = e.scope := by rw [hf]; rfl
    have hfrom : from1 = if c.f.e.scope = .none then c.s else c.s.release c.core c.f.e.scope := by rw [hsc]
    have hid : c.s.grid? c.g.id = some c.g := by rw [grid?_id hg]; exact hg
    have h0 : c.Published from1 [] from1 := by
      have hc : from1.crews = c.s.crews ∧ from1.grids = c.s.grids := by
        rw [hfrom]; split
        · exact ⟨rfl, rfl⟩
        · exact ⟨crews_release _ _ _, grids_release _ _ _⟩
      refine ⟨rfl, rfl, ⟨c.t.gen, (strand?_of_crews hc.1 _).trans hs, fun k => by simp⟩, c.g, ?_, fun l hl => by cases hl⟩
      exact (congrArg (List.find? _) hc.2).trans hid
    obtain ⟨all, hpub, hall⟩ := publishLanes_spec (lanesOf c.act) [] (fun l hl => hasLane_lt (mem_lanesOf.mp hl)) h0 hfold
    have hmem (l : Nat) : l ∈ all ↔ hasLane c.act l = true := by rw [hall, mem_lanesOf]; simp
    obtain ⟨u, g, hu, hregs, hgr, hgen, hpubs, hbytes⟩ := published_leave hpub
    refine ⟨_, u, g, exec_of_body hputBody rfl hr (hputBody_go h1 h2 h3 (by rw [hsc]; exact hq) (hfrom ▸ hfold)), hu, hregs, hgr, fun l hl => ?_,
      fun l hl => ?_, hbytes⟩
    · rw [hgen]
      by_cases ha : hasLane c.act l = true
      · rw [if_pos ⟨l, (hmem l).mpr ha, rfl⟩, if_pos ha]
      · rw [if_neg, if_neg ha, add_zero]
        rintro ⟨k, hk, he⟩
        rw [show k = l by omega] at hk
        exact ha ((hmem l).mp hk)
    · obtain ⟨p, hp, hpc⟩ := List.mem_map.mp (hpubs l ((hmem l).mpr hl))
      refine ⟨p, hp, congrArg Pub.item hpc, congrArg Pub.slot hpc, congrArg Pub.gen hpc, congrArg Pub.value hpc, ?_, congrArg Pub.delivered hpc⟩
      exact (congrArg Pub.scope hpc).trans hsc
  · obtain ⟨-, -, hs, -⟩ := hr.spec
    have hs' : c.sealed.strand? c.r =
          some { c.t with sealedBy := SMap.put 0 c.t.sealedBy c.slot (SMap.look 0 c.t.sealedBy c.slot ||| c.act) } := by
      refine (strand?_of_crews (crews_tidyChain _ _) _).trans ((strand?_modStrand_same _ _ _ (by intro t; rfl)).trans ?_)
      rw [hs]
      rfl
    obtain ⟨a, b, x, hv⟩ := leave_strand c _ _ id none (c.beats + 0) hs'
    refine ⟨_, _, exec_of_body (e := .go c.sealed none 0) _ rfl hr ?_, hv, ⟨rfl, rfl, rfl, rfl⟩, SMap.look_put_same ..⟩
    rw [slotTrap_none h1 h2]
    rfl

end Sys2Proof.Machine
end

