-- ==== Sys2Proof/Proofs/MemSide.lean ====
section
/-! SUPPORT. The memory side of the machine: what accesses, write-backs, fills and translations leave alone. -/
namespace Sys2Proof.Machine

/-- `t` is `s` but for the caches, the dies, memory with what is noted of its lines, and the count of free values drawn. -/
def MemSide (s t : State) : Prop :=
  ∃ (dies : List Die) (cores : List Core) (mem : SMap Byte) (poison : List Nat) (watched : SMap Nat) (records : List ScopeRec)
    (pkg : List PkgWrite) (drawn : Nat),
    t = { s with dies := dies, cores := cores, mem := mem, poison := poison, watched := watched, records := records, pkgWrites := pkg, drawn := drawn }

theorem MemSide.refl (s : State) : MemSide s s := ⟨_, _, _, _, _, _, _, _, rfl⟩

theorem MemSide.trans {s t u : State} (h : MemSide s t) (k : MemSide t u) : MemSide s u := by
  obtain ⟨_, _, _, _, _, _, _, _, rfl⟩ := h
  obtain ⟨_, _, _, _, _, _, _, _, rfl⟩ := k
  exact ⟨_, _, _, _, _, _, _, _, rfl⟩

section
variable {s t : State} (h : MemSide s t)
include h

theorem MemSide.crews : t.crews = s.crews := by obtain ⟨_, _, _, _, _, _, _, _, rfl⟩ := h; rfl
theorem MemSide.grids : t.grids = s.grids := by obtain ⟨_, _, _, _, _, _, _, _, rfl⟩ := h; rfl
theorem MemSide.lost : t.lost = s.lost := by obtain ⟨_, _, _, _, _, _, _, _, rfl⟩ := h; rfl
theorem MemSide.cycle : t.cycle = s.cycle := by obtain ⟨_, _, _, _, _, _, _, _, rfl⟩ := h; rfl
theorem MemSide.port : t.port = s.port := by obtain ⟨_, _, _, _, _, _, _, _, rfl⟩ := h; rfl
theorem MemSide.contexts : t.contexts = s.contexts := by obtain ⟨_, _, _, _, _, _, _, _, rfl⟩ := h; rfl
theorem MemSide.partitions : t.partitions = s.partitions := by obtain ⟨_, _, _, _, _, _, _, _, rfl⟩ := h; rfl
theorem MemSide.faults : t.faults = s.faults := by obtain ⟨_, _, _, _, _, _, _, _, rfl⟩ := h; rfl
theorem MemSide.quads : t.quads = s.quads := by obtain ⟨_, _, _, _, _, _, _, _, rfl⟩ := h; rfl
theorem MemSide.strand? (r : StrandRef) : t.strand? r = s.strand? r := strand?_of_crews h.crews r
theorem MemSide.crew? (r : CrewRef) : t.crew? r = s.crew? r := crew?_of_crews h.crews r
theorem MemSide.grid? (n : Nat) : t.grid? n = s.grid? n := by rw [State.grid?, h.grids]; rfl

end

/-- A loop of steps of the memory side. -/
theorem memSide_foldl {α : Type} (f : State → α → State) (hf : ∀ s a, MemSide s (f s a)) (l : List α) (s : State) : MemSide s (l.foldl f s) := by
  induction l generalizing s with
  | nil => exact .refl s
  | cons a l ih => exact (hf s a).trans (ih _)

theorem memSide_modCore (s : State) (n : Nat) (f : Core → Core) : MemSide s (s.modCore n f) := ⟨_, _, _, _, _, _, _, _, rfl⟩
theorem memSide_modDie (s : State) (n : Nat) (f : Die → Die) : MemSide s (s.modDie n f) := ⟨_, _, _, _, _, _, _, _, rfl⟩
theorem memSide_setByte (s : State) (k : Nat) (b : Byte) : MemSide s (s.setByte k b) := ⟨_, _, _, _, _, _, _, _, rfl⟩

theorem memSide_noteWrite (s : State) (sel : Nat → Bool) : MemSide s (s.noteWrite sel) := by
  unfold State.noteWrite
  split
  · exact .refl s
  · exact ⟨_, _, _, _, _, _, _, _, rfl⟩

theorem memSide_putBytes (bs : List Byte) (s : State) (key : Nat) : MemSide s (s.putBytes key bs) := by
  induction bs generalizing s key with
  | nil => exact .refl s
  | cons b bs ih => exact (memSide_setByte s key b).trans (ih _ _)

theorem memSide_writeMem (s : State) (key : Nat) (bs : List Byte) : MemSide s (s.writeMem key bs) := by
  unfold State.writeMem
  dsimp only
  split
  · exact (memSide_putBytes bs s key).trans (memSide_noteWrite _ _)
  · exact ((memSide_putBytes bs s key).trans (memSide_noteWrite _ _)).trans ⟨_, _, _, _, _, _, _, _, rfl⟩

theorem memSide_writeNat (s : State) (key n v : Nat) : MemSide s (s.writeNat key n v) := memSide_writeMem s key _

theorem memSide_writeLine (s : State) (line : Nat) (d : BitVec 1024) (m : BitVec 128) : MemSide s (s.writeLine line d m) := by
  refine ((memSide_foldl (fun s b => s.setByte (128 * line + b) (lineByte d b)) (fun s b => memSide_setByte s _ _) (maskBytes m) s).trans
    (memSide_noteWrite _ fun k => decide (k = watchKey line none))).trans ?_
  unfold State.writeLine
  dsimp only
  split
  · exact ⟨_, _, _, _, _, _, _, _, rfl⟩
  · exact .refl _

theorem memSide_perform (s : State) (m : Message) : MemSide s (s.perform m) := by
  cases m with
  | write line d m p => exact memSide_writeLine s line d m
  | red key op ty b p =>
    unfold State.perform
    dsimp only
    split
    · exact .refl s
    · exact memSide_writeNat _ _ _ _

theorem memSide_drain (s : State) (core : Nat) : MemSide s (s.drain core) := by
  unfold State.drain
  split
  · exact .refl s
  · exact (memSide_foldl _ memSide_perform _ s).trans (memSide_modCore _ _ _)

theorem memSide_l2Fill (s : State) (d : Nat) (mask : BitVec 16) (line : Nat) : MemSide s (s.l2Fill d mask line) := by
  unfold State.l2Fill
  split
  · exact .refl s
  · split
    · exact .refl s
    · dsimp only
      split
      · exact memSide_modDie s _ _
      · split
        · exact .refl s
        · exact ⟨_, _, _, _, _, _, _, _, rfl⟩

theorem memSide_l2Access (s : State) (ctx line : Nat) (x : Xlate) : MemSide s (s.l2Access ctx line x) := by
  unfold State.l2Access
  split
  · exact memSide_l2Fill _ _ _ _
  · exact .refl s

theorem memSide_writeBack (s : State) (core : Nat) (sel : L1Line → Bool) : MemSide s (s.writeBack core sel) := by
  unfold State.writeBack
  split
  · exact .refl s
  · exact ⟨_, _, _, _, _, _, _, _, rfl⟩

theorem memSide_invalidate (s : State) (core : Nat) (sel : L1Line → Bool) : MemSide s (s.invalidate core sel) :=
  (memSide_writeBack s core sel).trans (memSide_modCore _ _ _)

theorem memSide_release (s : State) (core : Nat) (sc : Scope) : MemSide s (s.release core sc) :=
  (memSide_writeBack s core _).trans (memSide_drain _ _)

theorem memSide_refresh (s : State) (core : Nat) (sel : L1Line → Bool) : MemSide s (s.refresh core sel) :=
  (memSide_drain s core).trans (memSide_modCore _ _ _)

theorem memSide_acquire (s : State) (core : Nat) (sc : Scope) : MemSide s (s.acquire core sc) := by
  unfold State.acquire
  dsimp only
  split
  · exact memSide_invalidate _ _ _
  · exact (memSide_invalidate _ _ _).trans (memSide_refresh _ _ _)

theorem memSide_shrinkL1 (s : State) (core n : Nat) : MemSide s (s.shrinkL1 core n) := by
  unfold State.shrinkL1
  split
  · exact .refl s
  · dsimp only
    split
    · exact .refl s
    · exact memSide_invalidate _ _ _

theorem memSide_fillL1 (s : State) (core line ctx vline : Nat) (sc : Scope) (x : Xlate) : MemSide s (s.fillL1 core line ctx vline sc x) :=
  ((memSide_drain s core).trans (memSide_l2Access _ _ _ _)).trans ((memSide_shrinkL1 _ _ _).trans (memSide_modCore _ _ _))

theorem memSide_storeL1 (s : State) (core slot line ctx vline : Nat) (x : Xlate) (bs : List (Nat × Byte)) :
    MemSide s (s.storeL1 core slot line ctx vline x bs) := by
  unfold State.storeL1
  refine MemSide.trans ?_ ((memSide_noteWrite _ _).trans (memSide_modCore _ _ _))
  split
  · exact .refl s
  · exact memSide_fillL1 _ _ _ _ _ _ _

theorem memSide_touchL1 (s : State) (core line ctx vline : Nat) : MemSide s (s.touchL1 core line ctx vline) := by
  unfold State.touchL1
  split
  · exact .refl s
  · split
    · exact .refl s
    · exact memSide_modCore _ _ _

theorem memSide_notePkg (s : State) (w : PkgWrite) : MemSide s (s.notePkg w) := by
  unfold State.notePkg
  split
  · exact .refl s
  · exact ⟨_, _, _, _, _, _, _, _, rfl⟩

theorem memSide_fillK (s : State) (core ctx line : Nat) : MemSide s (s.fillK core ctx line) := by
  unfold State.fillK
  split
  · exact .refl s
  · exact (memSide_drain _ _).trans (memSide_modCore _ _ _)

theorem memSide_fillLines (c : Ctx) (s : State) (va : List Nat) (ks : List (Nat × Xlate)) : MemSide s (c.fillLines s va ks) := by
  refine memSide_foldl _ (fun s x => ?_) _ s
  dsimp only
  split
  · exact memSide_fillK _ _ _ _
  · split
    · exact memSide_touchL1 _ _ _ _ _
    · exact memSide_fillL1 _ _ _ _ _ _ _

theorem memSide_flushCore (s : State) (core : Nat) : MemSide s (s.flushCore core) := (memSide_writeBack _ _ _).trans (memSide_drain _ _)

theorem memSide_settleCore (s : State) (core : Nat) : MemSide s (s.settleCore core) := (memSide_flushCore _ _).trans (memSide_refresh _ _ _)

theorem memSide_flushLine (s : State) (core line : Nat) : MemSide s (s.flushLine core line) := (memSide_writeBack _ _ _).trans (memSide_drain _ _)

theorem memSide_flush (c : Ctx) (s : State) (ks : List (Nat × Xlate)) : MemSide s (c.flush s ks) := by
  rw [Ctx.flush]
  exact memSide_foldl (α := Nat × Xlate) _ (fun s k => memSide_flushLine s c.core k.1) (linesOf ks) s

theorem memSide_setRecord (s : State) (line : Nat) (i : Inst) : MemSide s (s.setRecord line i) := ⟨_, _, _, _, _, _, _, _, rfl⟩

theorem memSide_setRecords (c : Ctx) (s : State) (ks : List (Nat × Xlate)) : MemSide s (c.setRecords s ks) := by
  unfold Ctx.setRecords
  split
  · refine memSide_foldl _ (fun s k => ?_) _ s
    split
    · exact (memSide_l2Access _ _ _ _).trans (memSide_setRecord _ _ _)
    · exact .refl s
  · exact .refl s

/-! ## Translation -/

theorem memSide_tlbFill (s : State) (core ctx va : Nat) (x : Xlate) : MemSide s (s.tlbFill core ctx va x) :=
  (memSide_modCore _ _ _).trans (memSide_modDie _ _ _)

theorem memSide_translate (s : State) (core ctx va : Nat) (a : Right) : MemSide s (s.translate core ctx va a).1 := by
  unfold State.translate
  split
  · exact .refl s
  · split
    · exact memSide_tlbFill _ _ _ _ _
    · exact .refl s

theorem memSide_keysOf (l : List Nat) (s : State) (core ctx : Nat) (a : Right) : MemSide s (s.keysOf core ctx a l).1 := by
  induction l generalizing s with
  | nil => exact .refl s
  | cons va l ih =>
    have h := memSide_translate s core ctx va a
    unfold State.keysOf
    dsimp only
    split
    · exact h
    · split
      · exact h.trans (ih _)
      · exact h.trans (ih _)

theorem memSide_translateLanes (c : Ctx) (ls : List Nat) (s : State) (a : Right) (bytes : Nat → List Nat) :
    MemSide s (c.translateLanes s a bytes ls).1 := by
  induction ls generalizing s with
  | nil => exact .refl s
  | cons l ls ih =>
    have h := memSide_keysOf (bytes l) s c.core c.ctx a
    unfold Ctx.translateLanes
    dsimp only
    split
    · exact h
    · split
      · exact h.trans (ih _)
      · exact h.trans (ih _)

/-- The state after a translation. -/
theorem memSide_of_translated {c : Ctx} {a : Right} {lanes : List Nat} {s : State} {lk : List LaneKeys} (h : c.translated a lanes s lk) :
    MemSide c.s s := by
  have := memSide_translateLanes c lanes c.s a c.bytes
  rw [h] at this
  exact this

end Sys2Proof.Machine
end

