-- ==== Sys2Proof/Proofs/Launching.lean ====
section
/-! SUPPORT. LAUNCH and LAUNCH.try: the record that is read, and its push (R264, R267, R269). -/
namespace Sys2Proof.Machine

@[simp] theorem again_quiet (c : Ctx) : c.again.quiet = c.quiet := by simp [Ctx.quiet]
@[simp] theorem again_parkedOn (c : Ctx) : c.again.parkedOn = c.parkedOn := by rw [again_eq]; rfl
@[simp] theorem again_iss_strand (c : Ctx) : c.again.iss.strand = c.iss.strand := by rw [again_eq]
@[simp] theorem again_put (c : Ctx) (s : State) (f : Nat → DWord) : c.again.put s f = c.put s f := by
  rw [again_eq]; rfl
@[simp] theorem again_grow (c : Ctx) : c.again.grow = c.grow := by simp [Ctx.grow]
@[simp] theorem again_pushLaunch (c : Ctx) (s : State) (r : LaunchRec) (p : BitVec 2) : c.again.pushLaunch s r p = c.pushLaunch s r p := by
  rw [again_eq]; rfl

/-- Only the register files differ. -/
def Strand.RegsOnly (t u : Strand) : Prop := ∃ v fm sr p, u = { t with v := v, forms := fm, s := sr, p := p }

theorem Strand.RegsOnly.refl (t : Strand) : t.RegsOnly t := ⟨_, _, _, _, rfl⟩

theorem Strand.RegsOnly.trans {t u v : Strand} (h : t.RegsOnly u) (k : u.RegsOnly v) : t.RegsOnly v := by
  obtain ⟨_, _, _, _, rfl⟩ := h
  obtain ⟨_, _, _, _, rfl⟩ := k
  exact ⟨_, _, _, _, rfl⟩

theorem regsOnly_writeV (t : Strand) (act : Mask) (n : Nat) (f : Nat → Word) : t.RegsOnly (t.writeV act n f) := by
  unfold Strand.writeV
  split
  · exact .refl t
  · exact ⟨_, _, _, _, rfl⟩

theorem regsOnly_writeD (t : Strand) (act : Mask) (o : Opd) (w : Bool) (f : Nat → DWord) : t.RegsOnly (t.writeD act o w f) := by
  unfold Strand.writeD
  split
  · dsimp only
    split
    · exact (regsOnly_writeV ..).trans (regsOnly_writeV ..)
    · exact regsOnly_writeV ..
  · split
    · exact .refl t
    · dsimp only
      split <;> exact ⟨_, _, _, _, rfl⟩
  · unfold Strand.writeP
    split
    · exact .refl t
    · exact ⟨_, _, _, _, rfl⟩
  · exact .refl t

theorem put_idx (t : Strand) (w : RegWrite) : (t.put w).idx = t.idx := by
  obtain ⟨_, _, _, _, h⟩ := regsOnly_writeD t w.act w.d w.wide (SMap.look 0 w.vals)
  rw [Strand.put, h]

/-- A result written at once reaches its destination. -/
theorem wrote_put {c : Ctx} (ha : c.act ≠ 0) (t : Strand) (f : Nat → DWord) : Wrote c.f.e.d c.f.dstWide c.act f (t.put (c.result f)) :=
  (wrote_writeD t c.act c.f.e.d c.f.dstWide (SMap.look 0 (tableOf c.act f)) ha).congr ha fun _ hl => look_tableOf _ _ _ hl

section
variable {c : Ctx} {s' x : State} {ks : List (Nat × Xlate)} {b : List Byte}
  (hp : ∀ r p, c.parkedOn ≠ some (.launch r p)) (ha : c.again.ea c.low % 64 = 0) (hq : c.quiet = true)
  (ht : c.again.translated .read [c.low] s' [(c.low, ks)]) (hx : x = c.again.fillLines (s'.release c.core .sys) (c.again.bytes c.low) ks)
  (hb : b = ks.map fun k => (x.l1Byte c.core k.1).1) (hg : ∀ k ∈ ks, (x.l1Byte c.core k.1).2 = false)
include hp ha hq ht hx hb hg

/-- A record that is read whole: it is bad, or it is pushed. -/
theorem launchBody_reads (try1 : Bool) : launchBody try1 c =
    if !(recordOk b) then .trap .launchBad (c.again.va c.low) c.low x else launchPush try1 c.again x (recordOf b) c.c.prio := by
  have hany : (ks.map fun k => x.l1Byte c.core k.1).any (·.2) = false := by
    rw [List.any_eq_false]
    intro y hy
    obtain ⟨k, hk, rfl⟩ := List.mem_map.mp hy
    rw [hg k hk]
    exact Bool.false_ne_true
  unfold launchBody
  dsimp only
  split
  · rename_i r p h
    exact (hp r p (by rw [← again_parkedOn]; exact h)).elim
  · rw [again_low, if_neg (not_not.mpr ha), again_quiet, hq]
    simp only [Ctx.whole, again_s] at ht ⊢
    rw [show c.again.translateLanes c.s .read c.again.bytes [c.low] = _ from by simpa only [Ctx.translated, again_s] using ht]
    simp only [Bool.not_true, Bool.false_eq_true, if_false, launchRecord, List.map_cons, List.map_nil, List.flatten_cons, List.flatten_nil,
      List.append_nil, again_core, again_low, ← hx, hany, again_c, List.map_map]
    rw [hb]
    rfl

end

/-- The states of the memory side that a record is read in hold the crew as it was. -/
theorem memSide_record {c : Ctx} {s' x : State} {ks : List (Nat × Xlate)} (ht : c.again.translated .read [c.low] s' [(c.low, ks)])
    (hx : x = c.again.fillLines (s'.release c.core .sys) (c.again.bytes c.low) ks) : MemSide c.s x := by
  have h := memSide_of_translated ht
  rw [again_s] at h
  rw [hx]
  exact h.trans ((memSide_release _ _ _).trans (memSide_fillLines _ _ _ _))

/-- The record stands last in the crew's queue. -/
theorem pushLaunch_leave {c : Ctx} {x : State} (hc : x.crew? c.r.crew = some c.c) (r : LaunchRec) (p : BitVec 2) (f : State → State) (n : Nat)
    (hf : ∀ s, FrameOf c.r s (f s)) : ∃ k, (c.leave (f (c.pushLaunch x r p)) 0 id none n).crew? c.r.crew = some k ∧
      k.pending = c.c.pending ++ [{ record := r, prio := p, phase := c.g.phase, ctx := c.g.ctx, part := c.g.part, queue := c.g.queue, since := x.cycle }] := by
  have h1 : (c.pushLaunch x r p).crew? c.r.crew = some { c.c with
      pending := c.c.pending ++
        [{ record := r, prio := p, phase := c.g.phase, ctx := c.g.ctx, part := c.g.part, queue := c.g.queue, since := x.cycle }] } := by
    rw [Ctx.pushLaunch, Ctx.onCrew, crew?_modCrew_same _ _ _ (by intro k; exact ⟨rfl, rfl⟩), hc]
    rfl
  obtain ⟨-, -, hbare⟩ := (hf (c.pushLaunch x r p)).trans (FrameOf.leave c (f (c.pushLaunch x r p)) id none n)
  have h2 := hbare c.r.crew
  rw [h1] at h2
  obtain ⟨k, hk, he⟩ := Option.map_eq_some_iff.mp h2
  exact ⟨k, hk, congrArg Crew.pending he⟩

theorem strand?_pushLaunch {c : Ctx} {x : State} (hc : c.s.crew? c.r.crew = some c.c) (hx : MemSide c.s x) (ht : c.s.strand? c.r = some c.t) (r : LaunchRec)
    (p : BitVec 2) : (c.pushLaunch x r p).strand? c.r = some c.t := by
  rw [State.strand?, Ctx.pushLaunch, Ctx.onCrew, crew?_modCrew_same _ _ _ (by intro k; exact ⟨rfl, rfl⟩), hx.crew?, hc]
  rw [State.strand?, hc] at ht
  exact ht

section
variable {e : Ext} {s : State} {c : Ctx} {s' x : State} {ks : List (Nat × Xlate)} {b : List Byte}
  (hp : ∀ r p, c.parkedOn ≠ some (.launch r p)) (ha : c.again.ea c.low % 64 = 0) (hq : c.quiet = true)
  (ht : c.again.translated .read [c.low] s' [(c.low, ks)]) (hx : x = c.again.fillLines (s'.release c.core .sys) (c.again.bytes c.low) ks)
  (hb : b = ks.map fun k => (x.l1Byte c.core k.1).1) (hg : ∀ k ∈ ks, (x.l1Byte c.core k.1).2 = false)
include hp ha hq ht hx hb hg

/-- A good record where the crew's queue has room is pushed. -/
theorem launchBody_pushes (hok : recordOk b = true) (hroom : c.c.pending.length < pendingRoom) (try1 : Bool) : launchBody try1 c =
    if try1 then .go (c.put (c.pushLaunch x (recordOf b) c.c.prio) fun _ => 1) none c.grow
    else .go (c.pushLaunch x (recordOf b) c.c.prio) none 0 := by
  rw [launchBody_reads hp ha hq ht hx hb hg, hok, launchPush, again_c, if_neg (Nat.not_le.mpr hroom)]
  simp

/-- A good record where the queue is full: LAUNCH.try gives 0, LAUNCH waits. -/
theorem launchBody_full (hok : recordOk b = true) (hfull : pendingRoom ≤ c.c.pending.length) (try1 : Bool) : launchBody try1 c =
    if try1 then .go (c.put x fun _ => 0) none c.grow else .stay x (.launch (recordOf b) c.c.prio) := by
  rw [launchBody_reads hp ha hq ht hx hb hg, hok, launchPush, again_c, if_pos hfull]
  simp

end

/-- A LAUNCH that waited has read its record: it pushes it once there is room. -/
theorem launchBody_parked {c : Ctx} {r : LaunchRec} {p : BitVec 2} (hp : c.parkedOn = some (.launch r p)) : launchBody false c =
    if pendingRoom ≤ c.c.pending.length then .stay c.s (.launch r p) else .go (c.pushLaunch c.s r p) none 0 := by
  unfold launchBody
  dsimp only
  rw [again_parkedOn, hp]
  simp [launchPush]

/-- Settles O43: the record by what is read of it, the push by the room of the crew's queue. -/
theorem launches : Obligations.Launches := by
  refine ⟨fun e s c s' ks x b hr hrd hok hroom => ?_, fun e s c s' ks x b hr hrd hok hroom => ?_, fun e s c s' ks x b hr hrd hok hroom => ?_,
    fun e s c s' ks x b hr hrd hok hroom => ?_, fun e s c r p hr hp => ⟨fun hroom => ?_, fun hroom => ?_⟩,
    fun e s c s' ks x b hr hrd hok => ?_, fun e s c hr hp ha => ?_⟩
  · obtain ⟨hp, ha, hq, ht, hx, hb, hg⟩ := hrd
    obtain ⟨k, hk⟩ := pushLaunch_leave (((memSide_record ht hx).crew? _).trans hr.spec.2.1) (recordOf b) c.c.prio id (c.beats + 0)
      fun s => FrameOf.refl _ s
    exact ⟨_, exec_of_body (launchBody false) rfl hr (launchBody_pushes hp ha hq ht hx hb hg hok hroom false), k, hk⟩
  · obtain ⟨hp, ha, hq, ht, hx, hb, hg⟩ := hrd
    obtain ⟨-, hc, hs, hf, -, hact⟩ := hr.spec
    have hm := memSide_record ht hx
    obtain ⟨k, hk⟩ := pushLaunch_leave ((hm.crew? _).trans hc) (recordOf b) c.c.prio (fun s => c.put s fun _ => 1) (c.beats + c.grow)
      fun s => FrameOf.modStrand _ s _ fun t => put_idx t _
    have hst : (c.put (c.pushLaunch x (recordOf b) c.c.prio) fun _ => 1).strand? c.r = some (c.t.put (c.result fun _ => 1)) := by
      rw [Ctx.put, Ctx.onStrand, strand?_modStrand_same _ _ _ fun t => put_idx t _, strand?_pushLaunch hc hm hs]
      rfl
    obtain ⟨u1, u2, u3, hu⟩ := leave_strand c _ _ id none (c.beats + c.grow) hst
    have hw := wrote_put hact c.t fun _ => 1
    rw [hf] at hw
    exact ⟨_, _, exec_of_body (launchBody true) rfl hr (launchBody_pushes hp ha hq ht hx hb hg hok hroom true), ⟨k, hk⟩, hu,
      hw.same ⟨rfl, rfl, rfl, rfl⟩⟩
  · obtain ⟨hp, ha, hq, ht, hx, hb, hg⟩ := hrd
    exact exec_of_body (launchBody true) rfl hr (launchBody_full hp ha hq ht hx hb hg hok hroom true)
  · obtain ⟨hp, ha, hq, ht, hx, hb, hg⟩ := hrd
    exact exec_of_stay (launchBody false) rfl hr (launchBody_full hp ha hq ht hx hb hg hok hroom false)
  · obtain ⟨k, hk⟩ := pushLaunch_leave hr.spec.2.1 r p id (c.beats + 0) fun s => FrameOf.refl _ s
    exact ⟨_, exec_of_body (launchBody false) rfl hr ((launchBody_parked hp).trans (if_neg (Nat.not_le.mpr hroom))), k, hk⟩
  · exact exec_of_stay (launchBody false) rfl hr ((launchBody_parked hp).trans (if_pos hroom))
  · obtain ⟨hp, ha, hq, ht, hx, hb, hg⟩ := hrd
    refine exec_of_trap (launchBody false) rfl hr ((launchBody_reads hp ha hq ht hx hb hg false).trans ?_)
    rw [hok]
    rfl
  · refine exec_of_trap (launchBody false) rfl hr ?_
    unfold launchBody
    dsimp only
    split
    · rename_i r p h
      exact (hp r p (by rw [← again_parkedOn]; exact h)).elim
    · rw [again_low, if_pos ha, Ctx.raise, again_s]

end Sys2Proof.Machine
end

