-- ==== Sys2Proof/Proofs/AccessChecks.lean ====
section
/-! SUPPORT. The checks of plain accesses, in their order (R206, R367, R403, R405), and where they trap. -/
namespace Sys2Proof.Machine

theorem withView_some {c : Ctx} {v : View} (h : c.view? = some v) (body : View → Eff) : c.withView body = body v := by rw [Ctx.withView, h]

/-! ## The checks -/

theorem accessTrap_outside {c : Ctx} {w : Bool} {l : Nat} (hs : c.space ≠ .priv) (h : firstLane c.act c.outside = some l) :
    c.accessTrap w = some (.permission, BitVec.ofInt 64 (c.ea l), l) := by
  rw [Ctx.accessTrap, h]
  exact if_neg hs

theorem accessTrap_priv {c : Ctx} {w : Bool} {l : Nat} (hs : c.space = .priv) (h : firstLane c.act c.outside = some l) :
    c.accessTrap w = some (.privateLimit, c.lowestOffset c.outside, l) := by
  rw [Ctx.accessTrap, h]
  exact if_pos hs

section
variable {c : Ctx} {w : Bool} (hin : ∀ k, hasLane c.act k = true → c.outside k = false)
include hin

theorem accessTrap_misalign {l : Nat} (h : firstLane c.act (fun l => decide (c.ea l % (c.size : Int) ≠ 0)) = some l) :
    c.accessTrap w = some (.misalign, BitVec.ofInt 64 (c.ea l), l) := by
  rw [Ctx.accessTrap, firstLane_none hin, h]

theorem accessTrap_locked {l : Nat} (ha : ∀ k, hasLane c.act k = true → c.ea k % (c.size : Int) = 0)
    (h : firstLane c.act (c.locked w) = some l) : c.accessTrap w = some (.viewLocked, BitVec.ofInt 64 (c.ea l), l) := by
  have hn : firstLane c.act (fun l => decide (c.ea l % (c.size : Int) ≠ 0)) = none :=
    firstLane_none fun k hk => decide_eq_false (not_not.mpr (ha k hk))
  rw [Ctx.accessTrap, firstLane_none hin, hn, h]

end

theorem outside_global {c : Ctx} (h : c.space = .global) (l : Nat) : c.outside l = decide ((2 ^ 57 : Int) < c.ea l + c.size) := by
  simp only [Ctx.outside, h]

theorem outside_local {c : Ctx} (h : c.space = .localStore) (l : Nat) :
    c.outside l = decide (c.ea l < 0 ∨ (c.g.header.localBytes : Int) < c.ea l + c.size) := by
  simp only [Ctx.outside, h, Bool.decide_or]

theorem outside_priv {c : Ctx} (h : c.space = .priv) (l : Nat) :
    c.outside l = decide (c.ea l < 0 ∨ (c.g.header.privBytes : Int) < c.ea l + c.size) := by
  simp only [Ctx.outside, h, Bool.decide_or]

/-- The offsets of a load or store of the PRIVATE space are far from the end of the range that %trapaddr is sought in. -/
theorem ea_priv_lt {c : Ctx} (hf : c.flying = false) (ho : c.f.op = 0x72 ∨ c.f.op = 0x77) (l : Nat) : c.ea l ≤ 2 ^ 62 := by
  have h : c.ea l = (loWord (c.a l)).toNat + (loWord (c.b l)).toInt := by
    rcases ho with ho | ho <;> simp [Ctx.ea, hf, ho]
  have h1 := (loWord (c.a l)).isLt
  have h2 := (loWord (c.b l)).toInt_lt
  rw [h]
  omega

/-- A minimum taken over a list, from a start that is not below any of it. -/
theorem foldl_min_eq {f : Nat → Int} {m : Int} : ∀ (ls : List Nat) (a : Int), m ≤ a → (∀ l ∈ ls, m ≤ f l) → (a = m ∨ ∃ l ∈ ls, f l = m) →
    ls.foldl (fun x l => min x (f l)) a = m
  | [], a, _, _, h => h.resolve_right fun ⟨l, hl, _⟩ => (List.not_mem_nil hl)
  | x :: ls, a, ha, hf, h => by
    have hx := hf x List.mem_cons_self
    rw [List.foldl_cons]
    refine foldl_min_eq ls _ (le_min ha hx) (fun l hl => hf l (List.mem_cons_of_mem _ hl)) ?_
    rcases h with rfl | ⟨l, hl, he⟩
    · exact .inl (min_eq_left hx)
    · rcases List.mem_cons.mp hl with rfl | hl
      · exact .inl (by rw [he]; exact min_eq_right ha)
      · exact .inr ⟨l, hl, he⟩

theorem lowestOffset_eq {c : Ctx} {bad : Nat → Bool} {m : Nat} (hb : c.ea m ≤ 2 ^ 62) (hm : hasLane c.act m = true) (ho : bad m = true)
    (hle : ∀ k, hasLane c.act k = true → bad k = true → c.ea m ≤ c.ea k) : c.lowestOffset bad = BitVec.ofInt 64 (c.ea m) := by
  rw [Ctx.lowestOffset, foldl_min_eq _ _ hb]
  · intro l hl
    obtain ⟨h1, h2⟩ := List.mem_filter.mp hl
    exact hle l (mem_lanesOf.mp h1) h2
  · exact .inr ⟨m, List.mem_filter.mpr ⟨mem_lanesOf.mpr hm, ho⟩, rfl⟩

/-! ## Where they trap -/

/-- A load that fails a check traps. -/
theorem load_traps {i : Instr} {f : Form} (he : ∀ s, exec i s = issue f loadBody s) (s : State) (c : Ctx) (t : Trap) (a : DWord) (l : Nat)
    (hr : Runs s f c) (h : c.accessTrap false = some (t, a, l)) : exec i s = .next (c.trap t a l c.s) :=
  exec_of_trap loadBody (he s) hr (by rw [loadBody, h]; rfl)

/-- A store that fails a check traps. -/
theorem store_traps {i : Instr} {f : Form} (he : ∀ s, exec i s = issue f storeBody s) (s : State) (c : Ctx) (t : Trap) (a : DWord) (l : Nat)
    (hr : Runs s f c) (h : c.accessTrap true = some (t, a, l)) : exec i s = .next (c.trap t a l c.s) :=
  exec_of_trap storeBody (he s) hr (by rw [storeBody, h]; rfl)

/-- Settles O24: each form answers its checks first, and the checks stand in their order. -/
theorem accessTraps : Obligations.AccessTraps := by
  refine ⟨fun b => load_traps fun _ => rfl, fun f => load_traps fun _ => rfl, fun b => load_traps fun _ => rfl, fun f => load_traps fun _ => rfl,
    fun b => load_traps fun _ => rfl, fun f => load_traps fun _ => rfl, fun b => load_traps fun _ => rfl, fun f => load_traps fun _ => rfl,
    fun e s c t a l hr h => exec_of_trap _ rfl hr (by rw [h]; rfl),
    fun b => store_traps fun _ => rfl, fun f => store_traps fun _ => rfl, fun b => store_traps fun _ => rfl, fun f => store_traps fun _ => rfl,
    fun b => store_traps fun _ => rfl, fun f => store_traps fun _ => rfl,
    fun e s c t a l hr h => exec_of_trap _ rfl hr (by rw [h]; rfl),
    fun e s c v t a l hr hv h => exec_of_trap _ rfl hr ((withView_some hv _).trans (by rw [h]; rfl)),
    fun e s c v t a l hr hv h => exec_of_trap _ rfl hr ((withView_some hv _).trans (by rw [h]; rfl)),
    fun c w l hs hb hl ho => ?_, fun c w l hs hb hl ho => ?_, fun c w l m => ?_,
    fun c w l hin hb hl ho => ?_, fun c w l hin ha hb hl ho => ?_, fun c v w l hb hl ho => ?_, fun c v w l hin hty hrw hb hl ho => ?_⟩
  · refine accessTrap_outside (by rw [hs]; decide) (firstLane_some hl ?_ fun k hk hkl => ?_)
    · rw [outside_global hs]; exact decide_eq_true ho
    · rw [outside_global hs]; exact decide_eq_false (not_lt.mpr (hb k hk hkl))
  · refine accessTrap_outside (by rw [hs]; decide) (firstLane_some hl ?_ fun k hk hkl => ?_)
    · rw [outside_local hs]; exact decide_eq_true ho
    · have := hb k hk hkl
      rw [outside_local hs]; exact decide_eq_false (by omega)
  · intro out hf hop hb hl ho hm hom hle
    have hs : c.space = .priv := by rcases hop with h | h <;> simp [Ctx.space, h]
    rw [accessTrap_priv hs (l := l), lowestOffset_eq (ea_priv_lt hf hop m) hm]
    · rw [outside_priv hs]; exact decide_eq_true hom
    · intro k hk hk'
      rw [outside_priv hs] at hk'
      exact hle k hk (of_decide_eq_true hk')
    · refine firstLane_some hl ?_ fun k hk hkl => ?_
      · rw [outside_priv hs]; exact decide_eq_true ho
      · rw [outside_priv hs]; exact decide_eq_false (hb k hk hkl)
  · exact accessTrap_misalign hin (firstLane_some hl (decide_eq_true ho) fun k hk hkl => decide_eq_false (not_not.mpr (hb k hk hkl)))
  · exact accessTrap_locked hin ha (firstLane_some hl ho hb)
  · have hu : c.unbound v = some l := firstLane_some hl (by rw [ho]; rfl) fun k hk hkl => by rw [hb k hk hkl]; rfl
    rw [Ctx.viewAccessTrap, hu]
  · have hu : c.unbound v = none := firstLane_none fun k hk => by rw [hin k hk]; rfl
    have hlk : firstLane c.act (c.locked w) = some l := firstLane_some hl ho hb
    rw [Ctx.viewAccessTrap, hu]
    simp only [hty, hrw, hlk, ne_eq, not_true_eq_false, if_false, Bool.not_true, Bool.false_eq_true, Option.map_some]

end Sys2Proof.Machine
end

