-- ==== Sys2Proof/Proofs/Traps.lean ====
section
/-! SUPPORT. Taking a trap: the replay queue, the frozen paths, and what an unhandled one stops (R274 to R276, R282). -/
namespace Sys2Proof.Machine

/-- A strand replaced by one of its name. -/
theorem strand?_replace {s : State} {r : StrandRef} {t u : Strand} (hs : s.strand? r = some t) (hi : u.idx = t.idx) :
    (s.modStrand r fun _ => u).strand? r = some u := by
  have hidx : t.idx = r.strand := by
    unfold State.strand? at hs
    split at hs
    · have h := List.find?_some (p := fun x : Strand => decide (x.idx = r.strand)) hs
      exact of_decide_eq_true h
    · cases hs
  have hf : (s.modStrand r fun _ => u) = s.modStrand r fun x => if x.idx = r.strand then u else x := by
    simp only [State.modStrand, Crew.modStrand, modWhere, decide_eq_true_eq]
    congr 2
    funext c
    congr 1
    refine List.map_congr_left fun x _ => ?_
    split <;> rfl
  rw [hf, strand?_modStrand_same _ _ _ fun x => ?_, hs, Option.map_some, if_pos hidx]
  split
  · rename_i hx
    rw [hi, hidx, hx]
  · rfl

/-! ## Entries in issue order -/

theorem perm_insertEntry (e : ReplayEntry) (l : List ReplayEntry) : (insertEntry e l).Perm (e :: l) := by
  induction l with
  | nil => exact .refl _
  | cons x l ih =>
    rw [insertEntry]
    split
    · exact .refl _
    · exact (ih.cons x).trans (.swap e x l)

theorem perm_inIssueOrder (l : List ReplayEntry) : (inIssueOrder l).Perm l := by
  have h (m : List ReplayEntry) : (l.foldl (fun m e => insertEntry e m) m).Perm (m ++ l) := by
    induction l generalizing m with
    | nil => rw [List.append_nil]; exact .refl _
    | cons e l ih => exact (ih _).trans (((perm_insertEntry e m).append_right l).trans List.perm_middle.symm)
  exact h []

/-! ## The strand behind its trapping instruction -/

/-- The strand as a trap of the issue finds it: the split stands behind the instruction, or the entry has left the queue. -/
def Ctx.behindTrap (c : Ctx) (t : Strand) : Strand :=
  if c.iss.queued then { t with reinject := t.reinject.drop 1 }
  else t.modSplit (lowest c.iss.mask) fun p => { p with pc := c.next, wait := .none, held := .none, entry := none, stood := none }

/-- The trap of the issue, as it is taken. -/
def Ctx.taken (c : Ctx) (code : Trap) (addr : DWord) (lane : Nat) : Deferred :=
  { trap := code, handler := c.c.handler, addr := addr, lane := lane, pc := c.iss.pc, mask := c.trapMask, entry := some (c.entry c.act true) }

theorem behindTrap_idx (c : Ctx) (t : Strand) : (c.behindTrap t).idx = t.idx := by
  unfold Ctx.behindTrap
  split <;> rfl

theorem trap_eq {c : Ctx} (hb : c.t.busy = false) (code : Trap) (addr : DWord) (lane : Nat) (s : State) :
    c.trap code addr lane s = ((s.tick 1).modStrand c.r c.behindTrap).enterTrap c.r (c.taken code addr lane) [] := by
  rw [Ctx.trap, hb]
  rfl

theorem behindTrap_reinject (c : Ctx) : (c.behindTrap c.t).reinject = c.waiting := by
  unfold Ctx.behindTrap Ctx.waiting
  split <;> rfl

/-- Beside its paths and its queue the strand is as it was. -/
theorem behindTrap_same (c : Ctx) (t : Strand) : ∃ a b, c.behindTrap t = { t with splits := a, reinject := b } := by
  unfold Ctx.behindTrap
  split
  · exact ⟨_, _, rfl⟩
  · exact ⟨_, _, rfl⟩

theorem behindTrap_stack (c : Ctx) (t : Strand) : (c.behindTrap t).stack = t.stack := by obtain ⟨a, b, h⟩ := behindTrap_same c t; rw [h]
theorem behindTrap_handler (c : Ctx) (t : Strand) : (c.behindTrap t).handler = t.handler := by obtain ⟨a, b, h⟩ := behindTrap_same c t; rw [h]
theorem behindTrap_deferred (c : Ctx) (t : Strand) : (c.behindTrap t).deferred = t.deferred := by obtain ⟨a, b, h⟩ := behindTrap_same c t; rw [h]
theorem behindTrap_inflight (c : Ctx) (t : Strand) : (c.behindTrap t).inflight = t.inflight := by obtain ⟨a, b, h⟩ := behindTrap_same c t; rw [h]
theorem behindTrap_live (c : Ctx) (t : Strand) : (c.behindTrap t).live = t.live := by obtain ⟨a, b, h⟩ := behindTrap_same c t; rw [h]; rfl

theorem mem_others_behind {c : Ctx} {p : Path} (h : p ∈ c.others) : p ∈ (c.behindTrap c.t).splits := by
  obtain ⟨hp, hx⟩ := List.mem_filter.mp h
  unfold Ctx.behindTrap
  split
  · exact hp
  · rename_i hq
    have : hasLane p.mask (lowest c.iss.mask) = false := by simpa [hq] using hx
    exact List.mem_map.mpr ⟨p, hp, if_neg (ne_true_of_eq_false this)⟩

theorem mem_split_behind {c : Ctx} (hq : c.iss.queued = false) {p : Path} (hp : p ∈ c.t.splits) (hl : hasLane p.mask (lowest c.iss.mask) = true) :
    { p with pc := c.next, wait := .none, held := .none, entry := none, stood := none } ∈ (c.behindTrap c.t).splits := by
  rw [Ctx.behindTrap, hq]
  exact List.mem_map.mpr ⟨p, hp, by rw [if_pos hl]⟩

/-- Of the paths that a trap finds, those whose access is parked are among the others: the instruction's own waits no more. -/
theorem parked_behind (c : Ctx) : (c.behindTrap c.t).splits.filterMap Path.parkedEntry = c.others.filterMap Path.parkedEntry := by
  unfold Ctx.behindTrap Ctx.others
  by_cases hq : c.iss.queued = true
  · simp [hq]
  · rw [if_neg hq, Strand.modSplit, modWhere, List.filterMap_map, List.filterMap_filter]
    refine List.filterMap_congr fun p _ => ?_
    by_cases hl : hasLane p.mask (lowest c.iss.mask) = true
    · simp [hl, hq, Path.parkedEntry]
    · simp [hl]

/-! ## The entry into the handler -/

/-- The replay queue that a trap of an issue makes of a strand: what was in flight, what was parked, what waited, and the instruction. -/
def Strand.trapQueue (t : Strand) (e : ReplayEntry) : List ReplayEntry :=
  (inIssueOrder (t.captured ++ t.splits.filterMap Path.parkedEntry) ++ t.reinject).map (fun (e : ReplayEntry) => { e with trapping := false }) ++
    [{ e with trapping := true }]

/-- The frame that a trap saves. -/
def Strand.trapFrame (t : Strand) (d : Deferred) (e : ReplayEntry) : Frame :=
  { splits := t.takeParked.1.splits.map freeze, stack := t.stack.map freeze, queue := t.trapQueue e,
    cause := BitVec.ofNat 32 (trapCode d.trap + 256 * d.lane), addr := d.addr, pc := d.pc, mask := d.mask }

section
variable {s : State} {r : StrandRef} {t : Strand} {d : Deferred} {e : ReplayEntry}
  (hc : (s.crew? r.crew).isSome = true) (hs : s.strand? r = some t)
include hc hs

theorem enterTrap_handled (hh : d.handler ≠ 0) (hn : t.handler = none) (hd : t.deferred = []) (he : d.entry = some e)
    (hre : ∀ x ∈ t.reinject, { x with trapping := true } ≠ e) (hq : (t.trapQueue e).length ≤ 16) :
    s.enterTrap r d [] = s.modStrand r fun _ =>
      { t.takeParked.1 with
        handler := some (t.trapFrame d e), splits := [Path.at d.handler (d.mask &&& t.live) s.cycle], stack := [], reinject := [], inflight := [],
        deferred := [] } := by
  obtain ⟨k, hk⟩ := Option.isSome_iff_exists.mp hc
  have hbefore : t.reinject.filter (fun x => decide (some e ≠ some { x with trapping := true })) = t.reinject :=
    List.filter_eq_self.mpr fun x hx => decide_eq_true fun h => hre x hx (Option.some.inj h).symm
  have h1 : t.takeParked.1.deferred = [] := hd
  have h2 : t.takeParked.1.reinject = t.reinject := rfl
  have h3 : t.takeParked.1.captured = t.captured := rfl
  have h4 : t.takeParked.1.inHandler = false := by rw [show t.takeParked.1.inHandler = t.handler.isSome from rfl, hn]; rfl
  have h5 : t.takeParked.2 = t.splits.filterMap Path.parkedEntry := rfl
  unfold State.enterTrap
  rw [hk, hs]
  simp only [h1, h2, h3, h4, h5, he, List.filterMap_nil, List.filter_nil, Option.toList_some, List.map_cons, List.map_nil, hbefore, List.append_nil]
  rw [← Strand.trapQueue, if_neg]
  · rfl
  · simp only [Bool.or_false, Bool.or_eq_true, decide_eq_true_eq, not_or]
    exact ⟨hh, by omega⟩

theorem enterTrap_stops (hh : d.handler = 0 ∨ t.handler.isSome = true) (w : List ReplayEntry) : s.enterTrap r d w = s.stopCrew r d := by
  obtain ⟨k, hk⟩ := Option.isSome_iff_exists.mp hc
  unfold State.enterTrap
  rw [hk, hs]
  dsimp only
  rw [if_pos]
  simp only [Bool.or_eq_true, decide_eq_true_eq]
  exact .inl (hh.imp id id)

end

/-! ## What the handler finds -/

theorem takeParked_kept {t : Strand} {p : Path} (hp : p ∈ t.splits) (hn : p.parkedEntry = none) : p ∈ t.takeParked.1.splits :=
  List.mem_map.mpr ⟨p, hp, by rw [hn]⟩

theorem entry_trapping (c : Ctx) (m : Mask) (b : Bool) : (c.entry m b).trapping = b := by
  unfold Ctx.entry Ctx.entryOver
  dsimp only
  split <;> rfl

theorem entry_trapping_eq (c : Ctx) (m : Mask) : { c.entry m true with trapping := true } = c.entry m true := by
  have h := entry_trapping c m true
  generalize c.entry m true = e at h
  cases e
  dsimp only at h
  rw [h]

/-- With no access under way, all that is in flight is captured. -/
theorem captured_eq {t : Strand} (h : t.busy = false) : t.captured = t.inflight.map InFlight.caught := by
  rw [Strand.captured, ← List.filterMap_eq_map]
  refine List.filterMap_congr fun x hx => ?_
  have hx' := List.any_eq_false.mp h x hx
  rw [decide_eq_true_eq] at hx'
  cases hst : x.state <;> simp_all

section
variable {t : Strand} {e : ReplayEntry}

theorem length_trapQueue (hb : t.busy = false) :
    (t.trapQueue e).length = t.inflight.length + (t.splits.filterMap Path.parkedEntry).length + t.reinject.length + 1 := by
  rw [Strand.trapQueue, List.length_append, List.length_map, List.length_append, (perm_inIssueOrder _).length_eq, captured_eq hb,
    List.length_append, List.length_map]
  rfl

theorem caught_mem_trapQueue (hb : t.busy = false) {x : InFlight} (hx : x ∈ t.inflight) : x.caught ∈ t.trapQueue e := by
  refine List.mem_append_left _ (List.mem_map.mpr ⟨x.caught, List.mem_append_left _ ((perm_inIssueOrder _).mem_iff.mpr ?_), rfl⟩)
  rw [captured_eq hb]
  exact List.mem_append_left _ (List.mem_map_of_mem hx)

theorem reinject_mem_trapQueue {x : ReplayEntry} (hx : x ∈ t.reinject) : { x with trapping := false } ∈ t.trapQueue e :=
  List.mem_append_left _ (List.mem_map.mpr ⟨x, List.mem_append_right _ hx, rfl⟩)

end

/-- Every trap of an issue enters the handler, where the strand can. -/
theorem entered_of_fits {c : Ctx} (code : Trap) (addr : DWord) (lane : Nat) (hs : c.s.strand? c.r = some c.t)
    (hc : (c.s.crew? c.r.crew).isSome = true) (hf : c.trapFits) : Entered c code addr lane (c.trap code addr lane c.s) := by
  obtain ⟨hb, hh, hn, hd, hlen, hne⟩ := hf
  have hbusy : (c.behindTrap c.t).busy = false := by rw [Strand.busy, behindTrap_inflight]; exact hb
  have hs' : ((c.s.tick 1).modStrand c.r c.behindTrap).strand? c.r = some (c.behindTrap c.t) := by
    rw [strand?_modStrand_same _ _ _ (behindTrap_idx c), strand?_tick, hs]
    rfl
  have hc' : (((c.s.tick 1).modStrand c.r c.behindTrap).crew? c.r.crew).isSome = true := by
    obtain ⟨w, hw⟩ := crew?_tick c.s 1 c.r.crew
    rw [crew?_modStrand_same, hw, Option.isSome_map, Option.isSome_map, hc]
  have hq : ((c.behindTrap c.t).trapQueue (c.entry c.act true)).length ≤ 16 := by
    rw [length_trapQueue hbusy, behindTrap_inflight, parked_behind, behindTrap_reinject]
    omega
  rw [trap_eq hb, enterTrap_handled hc' hs' hh ((behindTrap_handler c _).trans hn) ((behindTrap_deferred c _).trans hd) rfl
    (by rw [behindTrap_reinject, ← entry_trapping_eq]; exact hne) hq]
  refine ⟨_, _, strand?_replace hs' rfl, rfl, rfl, rfl, rfl, rfl, List.getLast?_concat, hq,
    fun x hx => caught_mem_trapQueue hbusy (by rw [behindTrap_inflight]; exact hx),
    fun x hx => reinject_mem_trapQueue (by rw [behindTrap_reinject]; exact hx),
    fun p hp hp' => List.mem_map_of_mem (takeParked_kept (mem_others_behind hp) hp'), congrArg _ (behindTrap_stack c _), fun hiq p hp hl => ?_,
    ?_, rfl, rfl, ?_⟩
  · exact ⟨_, List.mem_map_of_mem (takeParked_kept (mem_split_behind hiq hp hl) rfl), rfl, rfl⟩
  · dsimp only
    rw [behindTrap_live]
    rfl
  · obtain ⟨a, b, h⟩ := behindTrap_same c c.t
    rw [h]
    exact ⟨rfl, rfl, rfl, rfl⟩

theorem exec_of_issueTrap {i : Instr} {f : Form} {t : Trap} {s : State} {c : Ctx} (he : exec i s = issueTrap f t s) (hc : s.ctxOf f = some c)
    (hf : c.trapFits) : ∃ u, exec i s = .next u ∧ Entered c t 0 (lowest (if c.act = 0 then c.iss.mask else c.act)) u := by
  obtain ⟨-, h2, h3, -⟩ := ctxOf_spec hc
  refine ⟨_, he.trans ?_, entered_of_fits t 0 _ h3 (by rw [h2]; rfl) hf⟩
  obtain ⟨-, -, -, hd, -⟩ := hf
  rw [issueTrap, hc]
  dsimp only
  rw [hd]

theorem exec_entered {i : Instr} {f : Form} {s : State} {c : Ctx} {code : Trap} {a : DWord} {l : Nat} (body : Ctx → Eff)
    (he : exec i s = issue f body s) (hr : Runs s f c) (hb : body c = .trap code a l c.s) (hf : c.trapFits) :
    ∃ t, exec i s = .next t ∧ Entered c code a l t := by
  obtain ⟨-, h2, h3, -⟩ := hr.spec
  exact ⟨_, exec_of_trap body he hr hb, entered_of_fits code a l h3 (by rw [h2]; rfl) hf⟩

/-- Settles O33: each form by the trap that it raises, and that every trap that fits enters. -/
theorem trapsEnter : Obligations.TrapsEnter := by
  refine ⟨⟨fun e s c hr hf => exec_entered _ rfl hr ?_ hf, fun g s c hr hf => exec_entered _ rfl hr rfl hf,
    fun g x s c hc hf => exec_of_issueTrap rfl hc hf, fun r s c hc hf => exec_of_issueTrap rfl hc hf,
    fun r s c hc hf => exec_of_issueTrap rfl hc hf⟩, fun c code a l hs hc hf => entered_of_fits code a l hs hc hf⟩
  rw [hr.spec.2.2.2.1]
  rfl

/-! ## Fault records -/

/-- `t` is `s` but for the memory side, the partitions, the fault records and the errors that have been met. -/
def FaultSide (s t : State) : Prop :=
  ∃ (u : State) (ps : List (Option Partition)) (fs : List Fault32) (es : List ErrorSite),
    MemSide s u ∧ t = { u with partitions := ps, faults := fs, found := es }

theorem FaultSide.trans {s t u : State} (h : FaultSide s t) (k : FaultSide t u) : FaultSide s u := by
  obtain ⟨_, _, _, _, ⟨_, _, _, _, _, _, _, _, rfl⟩, rfl⟩ := h
  obtain ⟨_, _, _, _, ⟨_, _, _, _, _, _, _, _, rfl⟩, rfl⟩ := k
  exact ⟨_, _, _, _, ⟨_, _, _, _, _, _, _, _, rfl⟩, rfl⟩

theorem MemSide.faultSide {s t : State} (h : MemSide s t) : FaultSide s t := by
  refine ⟨t, t.partitions, t.faults, t.found, h, rfl⟩

theorem FaultSide.refl (s : State) : FaultSide s s := (MemSide.refl s).faultSide

section
variable {s t : State} (h : FaultSide s t)
include h

theorem FaultSide.crews : t.crews = s.crews := by obtain ⟨_, _, _, _, h, rfl⟩ := h; exact h.crews
theorem FaultSide.grids : t.grids = s.grids := by obtain ⟨_, _, _, _, h, rfl⟩ := h; exact h.grids
theorem FaultSide.cycle : t.cycle = s.cycle := by obtain ⟨_, _, _, _, h, rfl⟩ := h; exact h.cycle
theorem FaultSide.contexts : t.contexts = s.contexts := by obtain ⟨_, _, _, _, h, rfl⟩ := h; exact h.contexts

end

theorem faultSide_meet (s : State) (e : ErrorSite) : FaultSide s (s.meet e) := by
  unfold State.meet
  split
  · exact .refl s
  · exact ⟨s, _, _, _, .refl s, rfl⟩

theorem faultSide_writeFaults (part : Nat) (frptr : Word) (fuel : Nat) (s : State) : FaultSide s (s.writeFaults part frptr fuel) := by
  induction fuel generalizing s with
  | zero => exact .refl s
  | succ fuel ih =>
    unfold State.writeFaults
    split
    · split
      · exact .refl s
      · refine FaultSide.trans ?_ (ih _)
        exact ⟨_, _, _, _, (memSide_writeMem _ _ _).trans (memSide_writeNat _ _ _ _), rfl⟩
    · exact .refl s

theorem faultSide_pollFaults (s : State) (part : Nat) : FaultSide s (s.pollFaults part) := by
  unfold State.pollFaults
  split
  · exact .refl s
  · dsimp only
    split
    · exact faultSide_meet _ _
    · exact (faultSide_writeFaults _ _ _ _).trans ⟨_, _, _, _, .refl _, rfl⟩

/-- The number that the next fault of a partition takes. -/
def State.nextId? (s : State) (part : Nat) : Option Word := (s.part? part).map (·.nextFault)

theorem nextId?_of_partitions {s t : State} (h : t.partitions = s.partitions) (n : Nat) : t.nextId? n = s.nextId? n := by
  rw [State.nextId?, State.nextId?, State.part?, State.part?, h]

theorem nextId?_modNth (s t : State) (n : Nat) (f : Partition → Partition) (h : t.partitions = modNth s.partitions n fun x => x.map f) :
    t.nextId? n = (s.part? n).map fun p => (f p).nextFault := by
  rw [State.nextId?, State.part?, State.part?, h, getElem?_modNth, if_pos rfl]
  cases s.partitions[n]? with
  | none => rfl
  | some o => cases o <;> rfl

theorem nextId?_writeFaults (part : Nat) (frptr : Word) (fuel : Nat) (s : State) :
    (s.writeFaults part frptr fuel).nextId? part = s.nextId? part := by
  induction fuel generalizing s with
  | zero => rfl
  | succ fuel ih =>
    unfold State.writeFaults
    split
    · rename_i p f hp hf
      split
      · rfl
      · rw [ih, nextId?_modNth _ _ part (fun p => { p with fwptr := _, frptr := frptr }) rfl]
        rw [State.nextId?, State.part?, (memSide_writeNat _ _ _ _).partitions, (memSide_writeMem _ _ _).partitions]
        rfl
    · rfl

theorem nextId?_meet (s : State) (e : ErrorSite) (n : Nat) : (s.meet e).nextId? n = s.nextId? n := by
  unfold State.meet
  split <;> rfl

theorem nextId?_pollFaults (s : State) (part : Nat) : (s.pollFaults part).nextId? part = s.nextId? part := by
  unfold State.pollFaults
  split
  · rfl
  · dsimp only
    split
    · exact nextId?_meet _ _ _
    · exact nextId?_writeFaults part _ _ _

theorem faultSide_postFault (s : State) (f : Fault32) : FaultSide s (s.postFault f).1 := by
  unfold State.postFault
  split
  · exact .refl s
  · dsimp only
    refine FaultSide.trans ?_ (faultSide_pollFaults _ _)
    split
    · split
      · exact ⟨s, _, _, s.found, .refl s, rfl⟩
      · exact FaultSide.trans ⟨s, _, _, s.found, .refl s, rfl⟩ (faultSide_meet _ _)
    · exact ⟨s, _, _, s.found, .refl s, rfl⟩

theorem nextId?_postFault (s : State) (f : Fault32) : (s.postFault f).1.nextId? f.part = (s.nextId? f.part).map (· + 1) := by
  unfold State.postFault
  split
  · rename_i h
    rw [State.nextId?, h]; rfl
  · rename_i p h
    refine (nextId?_pollFaults _ _).trans ?_
    have h0 : (s.part? f.part).map (fun p => p.nextFault + 1) = (s.nextId? f.part).map (· + 1) := by rw [State.nextId?, Option.map_map]; rfl
    split
    · split
      · rw [nextId?_modNth s _ _ (fun p => { p with nextFault := p.nextFault + 1 }) rfl, h0]
      · rw [nextId?_meet, nextId?_modNth s _ _ (fun p => { p with nextFault := p.nextFault + 1 }) rfl, h0]
    · rw [nextId?_modNth s _ _ (fun p => { p with nextFault := p.nextFault + 1 }) rfl, h0]

/-- A page fault is one that stands, or is posted. -/
theorem faultSide_pageFault (s : State) (f : Fault32) : FaultSide s (s.pageFault f).1 := by
  unfold State.pageFault
  split
  · exact .refl s
  · exact faultSide_postFault s f

/-! ## A crew that a trap stops -/

/-- A strand stopped for good. -/
def Strand.Over (u : Strand) : Prop := u.ended = u.present ∧ u.splits = [] ∧ u.stack = []

/-- Crew and launch count as trapped, and every strand of the crew is over. -/
def StoppedIn (s : State) (r : CrewRef) : Prop :=
  (∃ k, s.crew? r = some k ∧ k.trapped = true ∧ ∀ u ∈ k.strands, u.Over) ∧ ∃ g, s.grid? r.grid = some g ∧ g.trapped = true

theorem StoppedIn.of_same {s t : State} {r : CrewRef} (h : StoppedIn s r) (hc : t.crews = s.crews) (hg : t.grids = s.grids) : StoppedIn t r := by
  obtain ⟨⟨k, hk, h1⟩, g, hg', h2⟩ := h
  exact ⟨⟨k, (crew?_of_crews hc r).trans hk, h1⟩, g, (congrArg (List.find? _) hg).trans hg', h2⟩

/-- Crews changed that keep their names, whether they trapped, and that their strands are over. -/
theorem StoppedIn.modCrews {s t : State} {r : CrewRef} (h : StoppedIn s r) (q : Crew → Bool) (f : Crew → Crew) (hc : t.crews = modWhere q f s.crews)
    (hg : t.grids = s.grids) (hf : ∀ c, (f c).grid = c.grid ∧ (f c).idx = c.idx ∧ (f c).trapped = c.trapped)
    (hs : ∀ c : Crew, (∀ u ∈ c.strands, u.Over) → ∀ u ∈ (f c).strands, u.Over) : StoppedIn t r := by
  obtain ⟨⟨k, hk, h1, h1'⟩, g, hg', h2⟩ := h
  refine ⟨?_, g, (congrArg (List.find? _) hg).trans hg', h2⟩
  have hk' : t.crew? r = some (if q k then f k else k) := by
    rw [State.crew?, hc, find?_modWhere _ _ _ _ fun c => by rw [(hf c).1, (hf c).2.1]]
    rw [State.crew?] at hk
    rw [hk]
    rfl
  refine ⟨_, hk', ?_⟩
  split
  · exact ⟨(hf k).2.2.trans h1, hs k h1'⟩
  · exact ⟨h1, h1'⟩

theorem StoppedIn.modCrew {s : State} {r : CrewRef} (h : StoppedIn s r) (x : CrewRef) (f : Crew → Crew)
    (hf : ∀ c, (f c).grid = c.grid ∧ (f c).idx = c.idx ∧ (f c).trapped = c.trapped) (hs : ∀ c, (f c).strands = c.strands) : StoppedIn (s.modCrew x f) r :=
  h.modCrews _ f rfl rfl hf fun c hu => by rw [hs]; exact hu

theorem StoppedIn.modGrid {s : State} {r : CrewRef} (h : StoppedIn s r) (n : Nat) (f : Grid → Grid) (hf : ∀ g, (f g).id = g.id ∧ (f g).trapped = g.trapped) :
    StoppedIn (s.modGrid n f) r := by
  obtain ⟨h1, g, hg, h2⟩ := h
  refine ⟨h1, if decide (g.id = n) then f g else g, ?_, by split; exact (hf g).2.trans h2; exact h2⟩
  rw [State.grid?, State.modGrid_grids, find?_modWhere _ _ _ _ fun g => by rw [(hf g).1]]
  rw [State.grid?] at hg
  rw [hg]
  rfl

/-- Paths changed one by one leave a strand that is over so. -/
theorem Strand.Over.modWhere {u : Strand} (h : u.Over) (q : Path → Bool) (f : Path → Path) : ({ u with splits := Machine.modWhere q f u.splits } : Strand).Over := by
  obtain ⟨h1, h2, h3⟩ := h
  exact ⟨h1, by rw [h2]; rfl, h3⟩

theorem stopped_wakeBarriers {s : State} {r : CrewRef} (h : StoppedIn s r) (g : Grid) (k : BarKey) : StoppedIn (s.wakeBarriers g k) r := by
  refine h.modCrews _ _ rfl rfl (fun _ => ⟨rfl, rfl, rfl⟩) fun c hc u hu => ?_
  obtain ⟨t, ht, rfl⟩ := List.mem_map.mp hu
  exact (hc t ht).modWhere _ _

theorem stopped_barrierStep {s : State} {r : CrewRef} (h : StoppedIn s r) (gid : Nat) (k : BarKey) : StoppedIn (s.barrierStep gid k) r := by
  unfold State.barrierStep
  split
  · exact h
  · dsimp only
    split
    · exact stopped_wakeBarriers (h.modGrid _ _ (by intro x; exact ⟨rfl, rfl⟩)) _ _
    · exact h

theorem stopped_barrierSweep {s : State} {r : CrewRef} (h : StoppedIn s r) (gid : Nat) : StoppedIn (s.barrierSweep gid) r := by
  unfold State.barrierSweep
  split
  · exact h
  · rename_i g hg
    clear hg
    generalize g.barriers.map (·.key) = ks
    induction ks generalizing s with
    | nil => exact h
    | cons k ks ih => exact ih (stopped_barrierStep h gid k)

theorem stopped_tidyChain {s : State} {r : CrewRef} (h : StoppedIn s r) (gid : Nat) : StoppedIn (s.tidyChain gid) r := by
  unfold State.tidyChain
  split
  · exact h
  · split
    · exact h
    · exact h.modGrid _ _ (by intro x; exact ⟨rfl, rfl⟩)

theorem MemSide.stopped {s t : State} {r : CrewRef} (hm : MemSide s t) (h : StoppedIn s r) : StoppedIn t r := h.of_same hm.crews hm.grids

theorem memSide_cleanSlot (s : State) (core slot : Nat) : MemSide s (s.cleanSlot core slot) :=
  (memSide_writeBack _ _ _).trans (memSide_modCore _ _ _)

theorem stopped_settleCrew {s : State} {r : CrewRef} (h : StoppedIn s r) (x : CrewRef) : StoppedIn (s.settleCrew x) r := by
  unfold State.settleCrew
  split
  · exact h
  · split
    · exact h
    · have h1 := h.modCrew x
        (fun c => match c.state with
          | .resident => { c with state := .draining, follows := c.follows.filter c.followDue }
          | .swapped | .preempted => { c with follows := [] }
          | _ => c)
        (fun c => by cases c.state <;> exact ⟨rfl, rfl, rfl⟩) fun c => by cases c.state <;> rfl
      dsimp only
      split
      · exact h1
      · exact ((memSide_cleanSlot _ _ _).stopped (h1.modCrew x
          (fun c => { c with state := .ended, store := [], tiles := [], tags := [], views := [], wakes := [] }) (fun _ => ⟨rfl, rfl, rfl⟩)
          fun _ => rfl)).modGrid _ _ (by intro x; exact ⟨rfl, rfl⟩)

theorem stopped_afterEnd {s : State} {r : CrewRef} (h : StoppedIn s r) (x : StrandRef) : StoppedIn (s.afterEnd x) r := by
  unfold State.afterEnd
  refine stopped_settleCrew (stopped_tidyChain (stopped_barrierSweep ?_ _) _) _
  refine h.modCrews _ _ rfl rfl (fun _ => ⟨rfl, rfl, rfl⟩) fun c hc u hu => ?_
  obtain ⟨t, ht, rfl⟩ := List.mem_map.mp hu
  dsimp only
  split
  · exact (hc t ht).modWhere _ _
  · exact hc t ht

theorem partitions_barrierSweep (s : State) (gid : Nat) : (s.barrierSweep gid).partitions = s.partitions := by
  have step (s : State) (k : BarKey) : (s.barrierStep gid k).partitions = s.partitions := by
    unfold State.barrierStep
    split
    · rfl
    · dsimp only
      split <;> rfl
  unfold State.barrierSweep
  split
  · rfl
  · rename_i g hg
    clear hg
    generalize g.barriers.map (·.key) = ks
    induction ks generalizing s with
    | nil => rfl
    | cons k ks ih => exact (ih _).trans (step s k)

theorem partitions_settleCrew (s : State) (r : CrewRef) : (s.settleCrew r).partitions = s.partitions := by
  unfold State.settleCrew
  split
  · rfl
  · split
    · rfl
    · dsimp only
      split
      · rfl
      · exact (memSide_cleanSlot _ _ _).partitions

theorem partitions_tidyChain (s : State) (gid : Nat) : (s.tidyChain gid).partitions = s.partitions := by
  unfold State.tidyChain
  split
  · rfl
  · split <;> rfl

theorem partitions_afterEnd (s : State) (r : StrandRef) : (s.afterEnd r).partitions = s.partitions := by
  unfold State.afterEnd
  exact (partitions_settleCrew _ _).trans ((partitions_tidyChain _ _).trans (partitions_barrierSweep _ _))

theorem over_halt (t : Strand) : t.halt.Over := ⟨rfl, rfl, rfl⟩

theorem memSide_logKernel (s : State) (die kind unit addr : Nat) (k : DWord) : MemSide s (s.logKernel die kind unit addr k) :=
  memSide_modDie _ _ _

/-- The crew as an unhandled trap leaves it: trapped, every strand halted. -/
def Crew.haltAll (c : Crew) : Crew := { c with trapped := true, strands := c.strands.map Strand.halt, wakes := [] }

/-- The launch as an unhandled trap leaves it. -/
def Grid.trap (g : Grid) : Grid := { g with trapped := true }

/-- Crew and launch stopped. -/
def State.haltCrew (s : State) (r : CrewRef) : State := (s.modCrew r Crew.haltAll).modGrid r.grid Grid.trap

theorem stopped_haltCrew {s : State} {r : CrewRef} {g : Grid} {k : Crew} (hg : s.grid? r.grid = some g) (hk : s.crew? r = some k) :
    StoppedIn (s.haltCrew r) r := by
  have h1 : (s.haltCrew r).crew? r = some k.haltAll := (crew?_modCrew_same s r Crew.haltAll fun _ => ⟨rfl, rfl⟩).trans (congrArg _ hk)
  have h2 : (s.haltCrew r).grid? r.grid = some g.trap :=
    (grid?_modGrid_same (s.modCrew r Crew.haltAll) r.grid Grid.trap fun _ => rfl).trans (congrArg _ hg)
  refine ⟨⟨_, h1, rfl, fun u hu => ?_⟩, _, h2, rfl⟩
  obtain ⟨t, -, rfl⟩ := List.mem_map.mp hu
  exact over_halt t

section
variable {s : State} {r : StrandRef} {g : Grid} {k : Crew} (hg : s.grid? r.crew.grid = some g) (hk : s.crew? r.crew = some k) (d : Deferred)
include hg hk

theorem stopCrew_eq : ∃ f : Fault32, f.part = g.part ∧ s.stopCrew r d =
    (((s.postFault f).1.haltCrew r.crew).logKernel (dieOf k.core) 8 k.idx d.pc.toNat g.header.kernid).afterEnd r := by
  refine ⟨{ faultOf g k with
    va := d.pc.setWidth 64, kind := true, reason := BitVec.ofNat 8 (trapCode d.trap)
    access := ((match d.entry with
      | some e => accessOf (opOf (wordsOf e.instr))
      | none => if d.trap = .faultUnresolved then Right.fetch else Right.read) : Right).code }, rfl, ?_⟩
  rw [State.stopCrew, hg, hk]
  rfl

/-- An unhandled trap stops the crew, and takes the next number of its partition's faults. -/
theorem stopCrew_spec : StoppedIn (s.stopCrew r d) r.crew ∧ (s.stopCrew r d).nextId? g.part = (s.nextId? g.part).map (· + 1) := by
  obtain ⟨f, hf, he⟩ := stopCrew_eq hg hk d
  have hf' := faultSide_postFault s f
  rw [he]
  constructor
  · refine stopped_afterEnd ((memSide_logKernel _ _ _ _ _ _).stopped (stopped_haltCrew (g := g) (k := k) ?_ ?_)) r
    · exact (congrArg (List.find? _) hf'.grids).trans hg
    · exact (crew?_of_crews hf'.crews r.crew).trans hk
  · rw [← hf, nextId?_of_partitions (partitions_afterEnd _ r), nextId?_of_partitions (memSide_logKernel _ _ _ _ _ _).partitions]
    exact nextId?_postFault s f

end

/-- Settles O34: the trap is not entered, and what follows the stop keeps the crew stopped. -/
theorem unhandledTrap : Obligations.UnhandledTrap := by
  intro c code addr lane p hs hc hg hp hb hh
  have hs' : ((c.s.tick 1).modStrand c.r c.behindTrap).strand? c.r = some (c.behindTrap c.t) := by
    rw [strand?_modStrand_same _ _ _ (behindTrap_idx c), strand?_tick, hs]
    rfl
  obtain ⟨w, hw⟩ := crew?_tick c.s 1 c.r.crew
  have hc' : ((c.s.tick 1).modStrand c.r c.behindTrap).crew? c.r.crew =
      some (Crew.modStrand { c.c with wdCount := w c.c } c.r.strand c.behindTrap) := by
    rw [crew?_modStrand_same, hw, hc]
    rfl
  have hg' : ((c.s.tick 1).modStrand c.r c.behindTrap).grid? c.r.crew.grid = some c.g := hg
  rw [show c.trap code addr lane c.s = _ from (trap_eq hb code addr lane c.s).trans
    (enterTrap_stops (d := c.taken code addr lane) (by rw [hc']; rfl) hs' (hh.imp id fun h => by rw [behindTrap_handler]; exact h) [])]
  obtain ⟨⟨⟨k, hk, h1, h2⟩, g, hgr, h3⟩, h4⟩ := stopCrew_spec hg' hc' (c.taken code addr lane)
  refine ⟨⟨k, hk, h1, h2⟩, ⟨g, hgr, h3⟩, ?_⟩
  have hp' : ((c.s.tick 1).modStrand c.r c.behindTrap).part? c.g.part = some p := hp
  rw [State.nextId?, State.nextId?, hp'] at h4
  obtain ⟨q, hq, he⟩ := Option.map_eq_some_iff.mp h4
  exact ⟨q, hq, he⟩

/-! ## The return from a trap -/

/-- The strand with its split standing at the TRAPRET. -/
def Ctx.atReturn (c : Ctx) (skip : Bool) : Strand := c.t.modSplit (lowest c.iss.mask) fun p => { p with wait := .trapret skip }

/-- The entries that a return re-injects. -/
def Frame.resumed (fr : Frame) (skip : Bool) : List ReplayEntry :=
  (fr.queue.map fun x => if skip && x.trapping then { x with skip := true } else x).filter fun x => !x.skip

/-- The paths of a frame as they thaw. -/
def Frame.thawed (fr : Frame) (gone : Mask) (now : DWord) (ready : Path → Bool) : List Path × List Path :=
  settlePaths ready (dropLanes gone (fr.splits.map fun p => { p with since := now })) (dropLanes gone (fr.stack.map fun p => { p with since := now }))

theorem strand?_thaw {s : State} {r : StrandRef} {t : Strand} {fr : Frame} (hs : s.strand? r = some t) (hh : t.handler = some fr)
    (queue : List ReplayEntry) : (s.thaw r queue).strand? r =
      some { t with
        handler := none, splits := (fr.thawed t.ended s.cycle (s.pathReady r)).1, stack := (fr.thawed t.ended s.cycle (s.pathReady r)).2,
        reinject := queue.filter fun e => !e.skip } := by
  unfold State.thaw
  rw [strand?_modStrand_same _ _ _ (by intro t; cases t.handler <;> rfl), hs]
  simp only [Option.map_some, hh]
  rfl

theorem trapReturn_eq {s : State} {r : StrandRef} {t : Strand} {fr : Frame} (hs : s.strand? r = some t) (hh : t.handler = some fr) (skip : Bool) :
    s.trapReturn r skip = s.thaw r (fr.queue.map fun x => if skip && x.trapping then { x with skip := true } else x) := by
  rw [State.trapReturn, hs]
  dsimp only
  rw [hh]

/-- The lanes of a frame that have not ended stand where they stopped. -/
theorem placeOf_thawed {fr : Frame} {gone : Mask} {now : DWord} {ready : Path → Bool} {u : Strand}
    (h1 : u.splits = (fr.thawed gone now ready).1) (h2 : u.stack = (fr.thawed gone now ready).2)
    (ha : (fr.splits ++ fr.stack).Pairwise fun p q => p.mask &&& q.mask = 0) {q : Path} (hq : q ∈ fr.splits ++ fr.stack) {l : Nat} (hl : l < 32)
    (hm : hasLane q.mask l = true) (hg : hasLane gone l = false) : u.placeOf l = some q.pc := by
  have hj := joined_settlePaths ready (dropLanes gone (fr.splits.map fun p => { p with since := now }))
    (dropLanes gone (fr.stack.map fun p => { p with since := now }))
  rw [← dropLanes_append, ← List.map_append] at hj
  have ha' : Apart ((fr.splits ++ fr.stack).map fun p => { p with since := now }) := List.pairwise_map.mpr ha
  rw [placeOf_eq_some (by rw [h1, h2]; exact hj.apart (apart_dropLanes _ ha')), h1, h2]
  exact (hj.holds l q.pc).mpr ((holds_dropLanes hl).mpr ⟨⟨_, List.mem_map_of_mem hq, hm, rfl⟩, hg⟩)

/-- What the return from a trap makes of the strand. -/
theorem trapReturn_spec {s : State} {r : StrandRef} {t : Strand} {fr : Frame} (hs : s.strand? r = some t) (hh : t.handler = some fr) (skip : Bool) :
    ∃ (u : Strand) (ready : Path → Bool), (s.trapReturn r skip).strand? r = some u ∧ u.handler = none ∧ u.reinject = fr.resumed skip ∧
      SameRegs u t ∧ (u.splits, u.stack) = fr.thawed t.ended (s.trapReturn r skip).cycle ready ∧
      ((fr.splits ++ fr.stack).Pairwise (fun p q => p.mask &&& q.mask = 0) →
        ∀ q ∈ fr.splits ++ fr.stack, ∀ l, l < 32 → hasLane q.mask l = true → hasLane t.ended l = false → u.placeOf l = some q.pc) := by
  rw [trapReturn_eq hs hh]
  exact ⟨_, _, strand?_thaw hs hh _, rfl, rfl, ⟨rfl, rfl, rfl, rfl⟩, rfl, fun ha q hq l h1 h2 h3 => placeOf_thawed rfl rfl ha hq h1 h2 h3⟩

section
variable {c : Ctx} {fr : Frame} (hs : c.s.strand? c.r = some c.t)
include hs

theorem strand?_atReturn (skip : Bool) :
    (c.onStrand c.s fun t => t.modSplit (lowest c.iss.mask) fun p => { p with wait := .trapret skip }).strand? c.r = some (c.atReturn skip) := by
  rw [Ctx.onStrand, strand?_modStrand_same _ _ _ (by intro t; rfl), hs]
  rfl

variable (hh : c.t.handler = some fr)
include hh

/-- Where every item stands at a TRAPRET, the strand leaves its handler. -/
theorem trapretBody_returns (hg : (c.atReturn (c.f.e.mod.getLsbD 0)).gathered = true) : trapretBody c =
    .done (((c.onStrand c.s fun t => t.modSplit (lowest c.iss.mask) fun p => { p with wait := .trapret (c.f.e.mod.getLsbD 0) }).tick c.beats).trapReturn
      c.r (c.atReturn (c.f.e.mod.getLsbD 0)).lowestSkip) := by
  unfold trapretBody
  dsimp only
  rw [Strand.inHandler, hh, strand?_atReturn hs]
  simp only [Option.isSome_some, Bool.not_true, Bool.false_eq_true, if_false]
  rw [if_pos hg]

/-- Where one does not, the split stands at it. -/
theorem trapretBody_stands (hg : (c.atReturn (c.f.e.mod.getLsbD 0)).gathered = false) :
    trapretBody c = .stay c.s (.trapret (c.f.e.mod.getLsbD 0)) := by
  unfold trapretBody
  dsimp only
  rw [Strand.inHandler, hh, strand?_atReturn hs]
  simp only [Option.isSome_some, Bool.not_true, Bool.false_eq_true, if_false]
  rw [if_neg (ne_true_of_eq_false hg)]

end

theorem trapretBody_outside {c : Ctx} (hn : c.t.handler = none) (ha : c.act ≠ 0) : trapretBody c = c.fail .illegalOperand := by
  unfold trapretBody
  rw [Strand.inHandler, hn]
  exact (if_pos rfl).trans (if_neg ha)

/-- A split that stays keeps its place and its lanes. -/
theorem stay_strand {c : Ctx} (hq : c.iss.queued = false) {s : State} {t : Strand} (hs : s.strand? c.r = some t) (parked : Bool) (upd : Path → Path) :
    ∃ f : Path → Path, (∀ p, ∃ since stood, f p = upd { p with since := since, boosted := false, stood := stood }) ∧
      (c.stay s parked upd).strand? c.r = some (t.modSplit (lowest c.iss.mask) f) := by
  unfold Ctx.stay
  dsimp only
  rw [hq, if_neg Bool.false_ne_true, strand?_modStrand_same _ _ _ (by intro t; rfl)]
  refine ⟨_, ?_, congrArg _ hs⟩
  exact fun p => ⟨_, _, rfl⟩

theorem splitOf?_modSplit {t : Strand} {l : Nat} {o : Path} (f : Path → Path) (hf : ∀ p, (f p).mask = p.mask) (h : t.splitOf? l = some o) :
    (t.modSplit l f).splitOf? l = some (f o) := by
  have hl : hasLane o.mask l = true := List.find?_some (p := fun p : Path => hasLane p.mask l) h
  rw [Strand.splitOf?, Strand.modSplit, find?_modWhere _ _ _ _ fun p => by rw [hf]]
  rw [Strand.splitOf?] at h
  rw [h, Option.map_some, if_pos hl]

/-- An entry of the replay queue replaced. -/
def Strand.replaceEntry (n : Nat) (y : ReplayEntry) (t : Strand) : Strand :=
  { t with handler := t.handler.map fun (fr : Frame) => { fr with queue := putNth fr.queue n y } }

/-- Settles O35: what the return finds at the TRAPRET, and the entry that RPLW replaces. -/
theorem trapReturn : Obligations.TrapReturn := by
  refine ⟨fun e s c hr hn => exec_of_trap trapretBody rfl hr (trapretBody_outside hn hr.spec.2.2.2.2.2), fun e s c fr p hr hh hsp hst hl => ?_,
    fun e s c o p hr hh hq ho hp hl hw => ?_, fun e s c fr x y hr hh hx hy => ?_⟩
  · obtain ⟨-, -, hs, hf, -⟩ := hr.spec
    have hskip : c.f.e.mod.getLsbD 0 = e.mod.getLsbD 0 := by rw [hf]; rfl
    have hat : (c.atReturn (c.f.e.mod.getLsbD 0)) = { c.t with splits := [{ p with wait := .trapret (e.mod.getLsbD 0) }] } := by
      rw [Ctx.atReturn, Strand.modSplit, hsp, hskip, modWhere, List.map_cons, List.map_nil, if_pos hl]
    have hgath : (c.atReturn (c.f.e.mod.getLsbD 0)).gathered = true := by rw [hat, Strand.gathered, hst]; rfl
    have hs1 : ((c.onStrand c.s fun t => t.modSplit (lowest c.iss.mask) fun p => { p with wait := .trapret (c.f.e.mod.getLsbD 0) }).tick
        c.beats).strand? c.r = some (c.atReturn (c.f.e.mod.getLsbD 0)) := (strand?_tick _ _ _).trans (strand?_atReturn hs _)
    have hh1 : (c.atReturn (c.f.e.mod.getLsbD 0)).handler = some fr := hh
    have hlow : (c.atReturn (c.f.e.mod.getLsbD 0)).lowestSkip = e.mod.getLsbD 0 := by rw [hat]; rfl
    obtain ⟨u, ready, hu, h1, h2, h3, h4, h5⟩ := trapReturn_spec hs1 hh1 (c.atReturn (c.f.e.mod.getLsbD 0)).lowestSkip
    rw [hlow] at h2
    exact ⟨_, u, ready, exec_of_body trapretBody rfl hr (trapretBody_returns hs hh hgath), hu, h1, h2, h3, h4, h5⟩
  · obtain ⟨fr, hfr⟩ := Option.isSome_iff_exists.mp hh
    obtain ⟨-, -, hs, hf, -⟩ := hr.spec
    have hskip : c.f.e.mod.getLsbD 0 = e.mod.getLsbD 0 := by rw [hf]; rfl
    have hgath : (c.atReturn (c.f.e.mod.getLsbD 0)).gathered = false := by
      rw [Strand.gathered, Bool.and_eq_false_iff]
      refine .inr (List.all_eq_false.mpr ⟨p, List.mem_map.mpr ⟨p, hp, if_neg (ne_true_of_eq_false hl)⟩, ?_⟩)
      rw [hw]
      exact Bool.false_ne_true
    obtain ⟨f, hf, hst⟩ := stay_strand hq (s := c.s.tick 1) ((strand?_tick _ _ _).trans hs) false fun p => { p with wait := .trapret (e.mod.getLsbD 0) }
    obtain ⟨since, stood, ho'⟩ := hf o
    refine ⟨c.waitFor c.s (.trapret (e.mod.getLsbD 0)), c.t.modSplit (lowest c.iss.mask) f, f o, exec_of_stay trapretBody rfl hr ((trapretBody_stands hs hfr hgath).trans (by rw [hskip])), hst, rfl,
      splitOf?_modSplit f (fun p => ?_) ho, ?_, ?_, ?_, rfl, rfl, rfl, rfl⟩
    · obtain ⟨_, _, h⟩ := hf p
      rw [h]
    all_goals rw [ho']
  · obtain ⟨-, -, hs, -⟩ := hr.spec
    have hx' : x.1 < fr.queue.length := by
      rw [Ctx.replayEntry, hh] at hx
      obtain ⟨z, hz, rfl⟩ := Option.map_eq_some_iff.mp hx
      exact (List.getElem?_eq_some_iff.mp hz).1
    have hst : (c.onStrand c.s (Strand.replaceEntry x.1 y)).strand? c.r =
        some { c.t with handler := some { fr with queue := putNth fr.queue x.1 y } } := by
      rw [Ctx.onStrand, strand?_modStrand_same _ _ _ (by intro t; rfl), hs, Option.map_some, Strand.replaceEntry, hh]
      rfl
    obtain ⟨a, b, d, hu⟩ := leave_strand c _ _ id none (c.beats + 0) hst
    refine ⟨_, _, _, exec_of_body (e := .go (c.onStrand c.s (Strand.replaceEntry x.1 y)) none 0) rplwBody rfl hr ?_, hu, rfl, rfl, length_modNth _ _ _, ?_, fun n hn => ?_⟩
    · rw [rplwBody, hx]
      dsimp only
      rw [hy]
      rfl
    · dsimp only
      rw [putNth, getElem?_modNth, if_pos rfl, List.getElem?_eq_getElem hx']
      rfl
    · dsimp only
      rw [putNth, getElem?_modNth, if_neg hn]

end Sys2Proof.Machine
end

