-- ==== Sys2Proof/Proofs/Flights.lean ====
section
/-! SUPPORT. What enters flight is not the entry that the issue would capture, where the issue re-injects an entry that is marked as the
store of a CALL: its mark goes (R283, R329). No run leads to such an entry with a load or a store in it; the two statements ask for it in every
state. -/
namespace Sys2Proof.Machine

/-- A crew with one strand of 32 items, an instruction before it. -/
def witness (i : Instr) : State :=
  { State.reset.loaded [] with
    agenda := []
    cur := some { strand := { crew := { grid := 0, idx := 0 }, strand := 0 }, mask := 0xFFFFFFFF#32, pc := 0x80, instr := i, replay := none,
                  queued := false } }

/-- In a state the form runs freely, and its context meets a condition. -/
def runsWith (s : State) (f : Form) (ok : Ctx → Bool) : Bool :=
  match s.ctxOf f with
  | some d => d.free && ok d.acquireHands
  | none => false

theorem runs_of_runsWith {s : State} {f : Form} {ok : Ctx → Bool} (h : runsWith s f ok = true) : ∃ c, Runs s f c ∧ ok c = true := by
  unfold runsWith at h
  split at h
  · rename_i d hd
    rw [Bool.and_eq_true] at h
    exact ⟨_, ⟨d, hd, h.1, rfl⟩, h.2⟩
  · cases h

/-- The unguarded base form with v2 as D and v4 as A. -/
def plainBase : Base := { g := { reg := 7, neg := false }, d := 2, a := 4, m := 0 }

/-- The entry of lane 0 of an access to a page that has no translation, marked as the store of a CALL. -/
def markedEntry (i : Instr) : ReplayEntry :=
  { instr := i, pc := 0x80, mask := 1, captured := 1, trapping := false, skip := false, opA := [(0, 0x90100)], opB := [], opC := [], opD := [],
    ea := [], fresh := false, left := 0, num := 0, parked := none, half := true }

/-- The issue re-injects the marked entry. -/
def markHalf (i : Instr) : State :=
  { witness i with cur := (witness i).cur.map fun (x : Issue) => { x with replay := some (markedEntry i) } }

/-- After the instruction the last access in flight of the strand has lost the mark that its capture would keep. -/
def losesMark (i : Instr) (s : State) (c : Ctx) : Bool :=
  match exec i s with
  | .next t =>
    match t.strand? c.r with
    | some u => match u.inflight.getLast? with | some x => !x.entry.half && (c.entry c.act false).half | none => false
    | none => false
  | _ => false

theorem losesMark_spec {i : Instr} {s t : State} {c : Ctx} {u : Strand} {l : List InFlight} {x : InFlight} {m : Mask} (h : losesMark i s c = true)
    (he : exec i s = .next t) (hu : t.strand? c.r = some u) (hx : u.inflight = l ++ [x]) : x.entry ≠ c.entry m false := by
  rw [losesMark, he] at h
  dsimp only at h
  rw [hu] at h
  dsimp only at h
  rw [hx, List.getLast?_concat] at h
  simp only [Bool.and_eq_true, Bool.not_eq_true'] at h
  intro hc
  have hm : (c.entry m false).half = (c.entry c.act false).half := by
    unfold Ctx.entry Ctx.entryOver
    dsimp only
    split <;> rfl
  rw [hc, hm, h.2] at h
  exact absurd h.1 (by decide)

theorem ldG_loses_mark : runsWith (markHalf (.ldG plainBase)) (Form.ofBase 0x70 plainBase) (fun c =>
    (c.accessTrap false).isNone && !c.overlaps && decide (c.space ≠ .localStore) && hasLane c.act 0 && (c.keys? c.s .read 0).isNone &&
      losesMark (.ldG plainBase) (markHalf (.ldG plainBase)) c) = true := by decide +kernel

theorem stG_loses_mark : runsWith (markHalf (.stG plainBase)) (Form.ofBase 0x75 plainBase) (fun c =>
    (c.accessTrap true).isNone && !c.overlaps && (lanesOf c.act).all (fun l => (c.keys? c.s .write l).isNone) &&
      decide (c.storeReady ≠ c.act) && losesMark (.stG plainBase) (markHalf (.stG plainBase)) c) = true := by decide +kernel

/-- Refutes O22: a store whose page is not translated is in flight without the mark of the entry that is re-injected. -/
theorem not_plainStores : ¬ Obligations.PlainStores := by
  rintro ⟨h, -⟩
  obtain ⟨c, hr, hok⟩ := runs_of_runsWith stG_loses_mark
  simp only [Bool.and_eq_true, Option.isNone_iff_eq_none, Bool.not_eq_true', decide_eq_true_eq, List.all_eq_true] at hok
  obtain ⟨⟨⟨⟨h1, h2⟩, h4⟩, h5⟩, h6⟩ := hok
  obtain ⟨t, u, he, ⟨hu, -⟩, -, -, hfly⟩ := h plainBase _ c hr h1 ⟨h2, fun _ l hl ks hks => by rw [h4 l (mem_lanesOf.mpr hl)] at hks; cases hks⟩
  obtain ⟨x, hx, -, hent⟩ := hfly h5
  exact losesMark_spec h6 he hu hx hent

/-- Refutes O23: a load whose page is not translated is in flight without the mark of the entry that is re-injected. -/
theorem not_accessesFly : ¬ Obligations.AccessesFly := by
  rintro ⟨h, -⟩
  obtain ⟨c, hr, hok⟩ := runs_of_runsWith ldG_loses_mark
  simp only [Bool.and_eq_true, Option.isNone_iff_eq_none, Bool.not_eq_true', decide_eq_true_eq] at hok
  obtain ⟨⟨⟨⟨⟨h1, h2⟩, h3⟩, h4⟩, h5⟩, h6⟩ := hok
  obtain ⟨t, u, x, he, hu, -, -, hx, hent, -⟩ := h plainBase _ c hr h1 h2 h3 ⟨0, h4, fun ks hks => by rw [h5] at hks; cases hks⟩
  exact losesMark_spec h6 he hu hx hent

end Sys2Proof.Machine
end

