-- ==== Sys2Proof/Proofs/CoreView.lean ====
section
/-! SUPPORT. What a core has written and not yet brought to memory: the messages on their way, the dirty bytes of its L1, and the byte that
memory holds once all of it has arrived (R161, R162, R189). -/
namespace Sys2Proof.Machine

/-! ## Memory alone -/

/-- Two states hold the same memory, with the same lines uncorrectable. -/
def SameMem (s t : State) : Prop := t.mem = s.mem ∧ t.lost = s.lost ∧ t.poison = s.poison ∧ t.quads = s.quads

theorem SameMem.refl (s : State) : SameMem s s := ⟨rfl, rfl, rfl, rfl⟩

theorem SameMem.trans {s t u : State} (h : SameMem s t) (k : SameMem t u) : SameMem s u := by
  obtain ⟨h1, h2, h3, h4⟩ := h
  obtain ⟨k1, k2, k3, k4⟩ := k
  exact ⟨k1.trans h1, k2.trans h2, k3.trans h3, k4.trans h4⟩

section
variable {s t : State} (h : SameMem s t)
include h

theorem SameMem.memByte (k : Nat) : t.memByte k = s.memByte k := memByte_congr h.1 h.2.1 k

theorem SameMem.poisoned (l : Nat) : t.poisoned l = s.poisoned l := by
  obtain ⟨-, -, h3, h4⟩ := h
  rw [State.poisoned, State.poisoned, State.quadDead, State.quadDead, h3, h4]

theorem SameMem.readMem (k n : Nat) : t.readMem k n = s.readMem k n := List.map_congr_left fun k _ => h.memByte k

theorem SameMem.readNat (k n : Nat) : t.readNat k n = s.readNat k n := by rw [State.readNat, State.readNat, h.readMem]

theorem SameMem.memLine (l : Nat) : t.memLine l = s.memLine l := by rw [State.memLine, State.memLine, h.readMem]

theorem SameMem.setByte (k : Nat) (b : Byte) : SameMem (s.setByte k b) (t.setByte k b) := by
  obtain ⟨h1, h2, h3, h4⟩ := h
  refine ⟨?_, h2, h3, h4⟩
  simp only [State.setByte, h1, lostAt_congr h2]

end

theorem sameMem_noteWrite (s : State) (sel : Nat → Bool) : SameMem s (s.noteWrite sel) := by
  unfold State.noteWrite
  split
  · exact .refl s
  · exact ⟨rfl, rfl, rfl, rfl⟩

theorem SameMem.symm {s t : State} (h : SameMem s t) : SameMem t s := ⟨h.1.symm, h.2.1.symm, h.2.2.1.symm, h.2.2.2.symm⟩

theorem SameMem.noteWrite {s t : State} (h : SameMem s t) (p q : Nat → Bool) : SameMem (s.noteWrite p) (t.noteWrite q) :=
  (sameMem_noteWrite s p).symm.trans (h.trans (sameMem_noteWrite t q))

theorem SameMem.foldl_setByte {α : Type} (f : α → Nat × Byte) (l : List α) {s t : State} (h : SameMem s t) :
    SameMem (l.foldl (fun s x => s.setByte (f x).1 (f x).2) s) (l.foldl (fun s x => s.setByte (f x).1 (f x).2) t) := by
  induction l generalizing s t with
  | nil => exact h
  | cons x l ih => exact ih (h.setByte _ _)

theorem SameMem.putBytes (bs : List Byte) {s t : State} (h : SameMem s t) (key : Nat) : SameMem (s.putBytes key bs) (t.putBytes key bs) := by
  induction bs generalizing s t key with
  | nil => exact h
  | cons b bs ih => exact ih (h.setByte _ _) _

theorem SameMem.writeMem {s t : State} (h : SameMem s t) (key : Nat) (bs : List Byte) : SameMem (s.writeMem key bs) (t.writeMem key bs) := by
  obtain ⟨h1, h2, h3, h4⟩ := (h.putBytes bs key).noteWrite
    (fun k => decide (k % 512 = 0) && decide (key / 128 ≤ k / 512) && decide (128 * (k / 512) < key + bs.length))
    (fun k => decide (k % 512 = 0) && decide (key / 128 ≤ k / 512) && decide (128 * (k / 512) < key + bs.length))
  unfold State.writeMem
  dsimp only
  rw [h3]
  split
  · exact ⟨h1, h2, h3, h4⟩
  · exact ⟨h1, h2, rfl, h4⟩

theorem SameMem.writeLine {s t : State} (h : SameMem s t) (line : Nat) (d : BitVec 1024) (m : BitVec 128) :
    SameMem (s.writeLine line d m) (t.writeLine line d m) := by
  obtain ⟨h1, h2, h3, h4⟩ := (h.foldl_setByte (fun b => (128 * line + b, lineByte d b)) (maskBytes m)).noteWrite
    (fun k => decide (k = watchKey line none)) (fun k => decide (k = watchKey line none))
  unfold State.writeLine
  dsimp only
  split
  · exact ⟨h1, h2, by dsimp only; rw [h3], h4⟩
  · exact ⟨h1, h2, h3, h4⟩

theorem SameMem.perform {s t : State} (h : SameMem s t) (m : Message) : SameMem (s.perform m) (t.perform m) := by
  cases m with
  | write line d b p => exact h.writeLine line d b
  | red key op ty b p =>
    unfold State.perform
    dsimp only
    rw [h.poisoned]
    split
    · exact h
    · rw [h.readNat]
      exact h.writeMem _ _

theorem SameMem.foldl_perform (ms : List Message) {s t : State} (h : SameMem s t) : SameMem (ms.foldl State.perform s) (ms.foldl State.perform t) := by
  induction ms generalizing s t with
  | nil => exact h
  | cons m ms ih => exact ih (h.perform m)

theorem sameMem_modCore (s : State) (n : Nat) (f : Core → Core) : SameMem s (s.modCore n f) := ⟨rfl, rfl, rfl, rfl⟩
theorem sameMem_modDie (s : State) (n : Nat) (f : Die → Die) : SameMem s (s.modDie n f) := ⟨rfl, rfl, rfl, rfl⟩

theorem sameMem_l2Fill (s : State) (d : Nat) (mask : BitVec 16) (line : Nat) : SameMem s (s.l2Fill d mask line) := by
  unfold State.l2Fill
  split
  · exact .refl s
  · split
    · exact .refl s
    · dsimp only
      split
      · exact sameMem_modDie _ _ _
      · split
        · exact .refl s
        · exact ⟨rfl, rfl, rfl, rfl⟩

theorem sameMem_l2Access (s : State) (ctx line : Nat) (x : Xlate) : SameMem s (s.l2Access ctx line x) := by
  unfold State.l2Access
  split
  · exact sameMem_l2Fill _ _ _ _
  · exact .refl s

theorem sameMem_writeBack (s : State) (core : Nat) (sel : L1Line → Bool) : SameMem s (s.writeBack core sel) := by
  unfold State.writeBack
  split
  · exact .refl s
  · exact ⟨rfl, rfl, rfl, rfl⟩

theorem sameMem_invalidate (s : State) (core : Nat) (sel : L1Line → Bool) : SameMem s (s.invalidate core sel) :=
  (sameMem_writeBack s core sel).trans (sameMem_modCore _ _ _)

theorem sameMem_shrinkL1 (s : State) (core n : Nat) : SameMem s (s.shrinkL1 core n) := by
  unfold State.shrinkL1
  split
  · exact .refl s
  · dsimp only
    split
    · exact .refl s
    · exact sameMem_invalidate _ _ _

theorem sameMem_setRecord (s : State) (line : Nat) (i : Inst) : SameMem s (s.setRecord line i) := ⟨rfl, rfl, rfl, rfl⟩

/-! ## What a message leaves alone -/

/-- Only memory, its poison and the counts of watched places differ. -/
def OnlyMem (s t : State) : Prop := ∃ m p w, t = { s with mem := m, poison := p, watched := w }

theorem OnlyMem.refl (s : State) : OnlyMem s s := ⟨_, _, _, rfl⟩

theorem OnlyMem.trans {s t u : State} (h : OnlyMem s t) (k : OnlyMem t u) : OnlyMem s u := by
  obtain ⟨_, _, _, rfl⟩ := h
  obtain ⟨_, _, _, rfl⟩ := k
  exact ⟨_, _, _, rfl⟩

theorem onlyMem_foldl {α : Type} (f : State → α → State) (hf : ∀ s a, OnlyMem s (f s a)) (l : List α) (s : State) : OnlyMem s (l.foldl f s) := by
  induction l generalizing s with
  | nil => exact .refl s
  | cons a l ih => exact (hf s a).trans (ih _)

theorem onlyMem_noteWrite (s : State) (sel : Nat → Bool) : OnlyMem s (s.noteWrite sel) := by
  unfold State.noteWrite
  split
  · exact .refl s
  · exact ⟨_, _, _, rfl⟩

theorem onlyMem_putBytes (bs : List Byte) (s : State) (key : Nat) : OnlyMem s (s.putBytes key bs) := by
  induction bs generalizing s key with
  | nil => exact .refl s
  | cons b bs ih => exact OnlyMem.trans (t := s.setByte key b) ⟨_, _, _, rfl⟩ (ih _ _)

theorem onlyMem_writeMem (s : State) (key : Nat) (bs : List Byte) : OnlyMem s (s.writeMem key bs) := by
  have h := (onlyMem_putBytes bs s key).trans (onlyMem_noteWrite (s.putBytes key bs) fun k =>
    decide (k % 512 = 0) && decide (key / 128 ≤ k / 512) && decide (128 * (k / 512) < key + bs.length))
  unfold State.writeMem
  dsimp only
  split
  · exact h
  · exact h.trans ⟨_, _, _, rfl⟩

theorem onlyMem_writeLine (s : State) (line : Nat) (d : BitVec 1024) (m : BitVec 128) : OnlyMem s (s.writeLine line d m) := by
  have h := (onlyMem_foldl (fun s b => s.setByte (128 * line + b) (lineByte d b)) (fun _ _ => ⟨_, _, _, rfl⟩) (maskBytes m) s).trans
    (onlyMem_noteWrite _ fun k => decide (k = watchKey line none))
  unfold State.writeLine
  dsimp only
  split
  · exact h.trans ⟨_, _, _, rfl⟩
  · exact h

theorem onlyMem_perform (s : State) (m : Message) : OnlyMem s (s.perform m) := by
  cases m with
  | write line d b p => exact onlyMem_writeLine s line d b
  | red key op ty b p =>
    unfold State.perform
    dsimp only
    split
    · exact .refl s
    · exact onlyMem_writeMem s _ _

theorem onlyMem_foldl_perform (ms : List Message) (s : State) : OnlyMem s (ms.foldl State.perform s) := onlyMem_foldl _ onlyMem_perform ms s

section
variable {s t : State} (h : OnlyMem s t)
include h

theorem OnlyMem.core? (n : Nat) : t.core? n = s.core? n := by obtain ⟨_, _, _, rfl⟩ := h; rfl
theorem OnlyMem.dies : t.dies = s.dies := by obtain ⟨_, _, _, rfl⟩ := h; rfl
theorem OnlyMem.cores : t.cores = s.cores := by obtain ⟨_, _, _, rfl⟩ := h; rfl
theorem OnlyMem.quads : t.quads = s.quads := by obtain ⟨_, _, _, rfl⟩ := h; rfl

end

/-! ## A line written to memory -/

theorem lineByte_getLsbD (d : BitVec 1024) (b i : Nat) (hi : i < 8) : (lineByte d b).getLsbD i = d.getLsbD (8 * b + i) := by
  simp [lineByte, hi]

theorem lineByte_setLineByte (d : BitVec 1024) (b c : Nat) (x : Byte) (hb : b < 128) (hc : c < 128) :
    lineByte (setLineByte d b x) c = if c = b then x else lineByte d c := by
  refine BitVec.eq_of_getLsbD_eq fun i hi => ?_
  rw [lineByte_getLsbD _ _ _ hi]
  have hin : 8 * c + i < 1024 := by omega
  have h255 (j : Nat) : (0xFF#1024).getLsbD j = decide (j < 8) := by
    rw [show (0xFF#1024).getLsbD j = (BitVec.ofNat 1024 (2 ^ 8 - 1)).getLsbD j from rfl, BitVec.getLsbD_ofNat, Nat.testBit_two_pow_sub_one]
    by_cases hj : j < 8
    · simp [hj, Nat.lt_of_lt_of_le hj (by decide : 8 ≤ 1024)]
    · simp [hj]
  simp only [setLineByte, BitVec.getLsbD_or, BitVec.getLsbD_and, BitVec.getLsbD_not, BitVec.getLsbD_shiftLeft, hin, decide_true, Bool.true_and, h255,
    BitVec.getLsbD_setWidth]
  by_cases h : c = b
  · subst h
    have h1 : ¬ (8 * c + i < 8 * c) := by omega
    have h2 : 8 * c + i - 8 * c = i := by omega
    simp [h1, h2, hi]
    omega
  · rw [if_neg h, lineByte_getLsbD _ _ _ hi]
    rcases Nat.lt_or_gt_of_ne h with hlt | hgt
    · have h1 : 8 * c + i < 8 * b := by omega
      simp [h1]
    · have h1 : ¬ (8 * c + i < 8 * b) := by omega
      have h2 : ¬ (8 * c + i - 8 * b < 8) := by omega
      have h3 : x.getLsbD (8 * c + i - 8 * b) = false := BitVec.getLsbD_of_ge x _ (by omega)
      simp [h1, h2, h3]

theorem mem_maskBytes {m : BitVec 128} {b : Nat} : b ∈ maskBytes m ↔ m.getLsbD b = true := by
  simp only [maskBytes, List.mem_filter, List.mem_range]
  exact ⟨fun h => h.2, fun h => ⟨BitVec.lt_of_getLsbD h, h⟩⟩

theorem memByte_foldl_line (bs : List Nat) (s : State) (line : Nat) (d : BitVec 1024) (k : Nat) (hb : ∀ b ∈ bs, b < 128) :
    (bs.foldl (fun s b => s.setByte (128 * line + b) (lineByte d b)) s).memByte k =
      if k / 128 = line ∧ k % 128 ∈ bs then lineByte d (k % 128) else s.memByte k := by
  induction bs generalizing s with
  | nil => simp
  | cons b bs ih =>
    have hb1 : b < 128 := hb b List.mem_cons_self
    rw [List.foldl_cons, ih _ fun c hc => hb c (List.mem_cons_of_mem _ hc), memByte_setByte]
    by_cases hl : k / 128 = line
    · by_cases hm : k % 128 ∈ bs
      · simp [hl, hm]
      · by_cases he : k % 128 = b
        · have hk : k = 128 * line + b := by omega
          rw [if_neg fun h => hm h.2, if_pos hk, if_pos ⟨hl, List.mem_cons.mpr (.inl he)⟩, he]
        · have hk : k ≠ 128 * line + b := by omega
          simp [hl, hm, he, hk]
    · have hk : k ≠ 128 * line + b := by omega
      simp [hl, hk]

/-- A write of a line's masked bytes changes these bytes alone. -/
theorem memByte_writeLine (s : State) (line : Nat) (d : BitVec 1024) (m : BitVec 128) (k : Nat) :
    (s.writeLine line d m).memByte k = if k / 128 = line ∧ m.getLsbD (k % 128) = true then lineByte d (k % 128) else s.memByte k := by
  have h : (s.writeLine line d m).memByte k = ((maskBytes m).foldl (fun s b => s.setByte (128 * line + b) (lineByte d b)) s).memByte k := by
    unfold State.writeLine
    dsimp only
    split
    · exact (sameMem_noteWrite _ _).memByte k
    · exact (sameMem_noteWrite _ _).memByte k
  rw [h, memByte_foldl_line _ _ _ _ _ fun b hb => BitVec.lt_of_getLsbD (mem_maskBytes.mp hb)]
  simp only [mem_maskBytes]

/-! ## Dirty bytes -/

/-- The line holds the byte of a key, dirty. -/
def L1Line.holds (k : Nat) (l : L1Line) : Bool := decide (l.line = k / 128) && l.dirty.getLsbD (k % 128)

/-- The byte that lines of L1 bring to a key when they are written back in their order. -/
def lastDirty (ls : List L1Line) (k : Nat) : Option Byte := (ls.reverse.find? (L1Line.holds k)).map fun l => lineByte l.data (k % 128)

theorem holds_dirty {k : Nat} {l : L1Line} (h : l.holds k = true) : l.dirty ≠ 0 := by
  simp only [L1Line.holds, Bool.and_eq_true, decide_eq_true_eq] at h
  intro h0
  rw [h0] at h
  simp at h

theorem lastDirty_eq_none {ls : List L1Line} {k : Nat} : lastDirty ls k = none ↔ ∀ l ∈ ls, l.holds k = false := by
  simp [lastDirty]

theorem lastDirty_append (a b : List L1Line) (k : Nat) : lastDirty (a ++ b) k = (lastDirty b k).or (lastDirty a k) := by
  simp only [lastDirty, List.reverse_append, List.find?_append]
  cases (b.reverse.find? (L1Line.holds k)) <;> rfl

/-- Lines that hold nothing of a key, or what another line holds, may go or change. -/
theorem lastDirty_filter (ls : List L1Line) (p : L1Line → Bool) (k : Nat) (h : ∀ l ∈ ls, l.holds k = true → p l = true) :
    lastDirty (ls.filter p) k = lastDirty ls k := by
  rw [lastDirty, lastDirty, ← List.filter_reverse, List.find?_filter]
  congr 1
  refine List.find?_congr fun l hl => ?_
  by_cases hk : l.holds k = true
  · simp [hk, h l (List.mem_reverse.mp hl) hk]
  · simp [hk]

/-- The last of some messages that writes a key, if any does. -/
def Message.writes (k : Nat) : Message → Bool
  | .write line _ m _ => decide (line = k / 128) && m.getLsbD (k % 128)
  | .red _ _ _ _ _ => false

/-- A message is a write. -/
def Message.isWrite : Message → Bool
  | .write _ _ _ _ => true
  | .red _ _ _ _ _ => false

/-- The message that writes a line's dirty bytes back. -/
def L1Line.message (pkg : List PkgWrite) (core : Nat) (l : L1Line) : Message := .write l.line l.data l.dirty (pkgOf pkg core l.line)

/-- Lines written back in their order bring memory what is dirty in them. -/
theorem memByte_foldl_message (pkg : List PkgWrite) (core : Nat) (ls : List L1Line) (s : State) (k : Nat) :
    ((ls.map (L1Line.message pkg core)).foldl State.perform s).memByte k = (lastDirty ls k).getD (s.memByte k) := by
  induction ls generalizing s with
  | nil => rfl
  | cons l ls ih =>
    rw [List.map_cons, List.foldl_cons, ih, show l :: ls = [l] ++ ls from rfl, lastDirty_append]
    have h1 : (s.perform (L1Line.message pkg core l)).memByte k = if l.holds k = true then lineByte l.data (k % 128) else s.memByte k := by
      rw [L1Line.message, State.perform, memByte_writeLine]
      simp only [L1Line.holds, Bool.and_eq_true, decide_eq_true_eq, eq_comm (a := l.line)]
    have h2 : lastDirty [l] k = if l.holds k = true then some (lineByte l.data (k % 128)) else none := by
      rw [lastDirty, List.reverse_singleton, List.find?_singleton]
      split <;> rfl
    rw [h1, h2]
    cases lastDirty ls k with
    | some b => rfl
    | none => split <;> rfl

/-! ## The byte that memory will hold -/

theorem core?_modCore (s : State) (n m : Nat) (f : Core → Core) : (s.modCore n f).core? m = if m = n then (s.core? m).map f else s.core? m :=
  getElem?_modNth s.cores n m f

theorem core?_modCore_same (s : State) (n : Nat) (f : Core → Core) : (s.modCore n f).core? n = (s.core? n).map f := by
  rw [core?_modCore, if_pos rfl]

theorem core?_modCore_other (s : State) {n m : Nat} (f : Core → Core) (h : m ≠ n) : (s.modCore n f).core? m = s.core? m := by
  rw [core?_modCore, if_neg h]

/-- The byte that memory holds once the writes on their way and the dirty bytes of a core have reached it. -/
def State.settled (s : State) (core k : Nat) : Byte :=
  match s.core? core with
  | none => s.memByte k
  | some c => (lastDirty c.l1 k).getD ((c.outbox.foldl State.perform s).memByte k)

theorem settled_some {s : State} {core : Nat} {c : Core} (h : s.core? core = some c) (k : Nat) :
    s.settled core k = (lastDirty c.l1 k).getD ((c.outbox.foldl State.perform s).memByte k) := by rw [State.settled, h]

theorem settled_none {s : State} {core : Nat} (h : s.core? core = none) (k : Nat) : s.settled core k = s.memByte k := by rw [State.settled, h]

/-- It depends on memory, on what is on its way and on what is dirty. -/
theorem settled_congr {s t : State} {core : Nat} (hm : SameMem s t)
    (hc : (t.core? core).map (fun c => (c.outbox, lastDirty c.l1)) = (s.core? core).map fun c => (c.outbox, lastDirty c.l1)) (k : Nat) :
    t.settled core k = s.settled core k := by
  unfold State.settled
  cases hs : s.core? core <;> cases ht : t.core? core <;> rw [hs, ht] at hc
  · exact hm.memByte k
  · cases hc
  · cases hc
  · obtain ⟨h1, h2⟩ := Prod.mk.inj (Option.some.inj hc)
    dsimp only
    rw [h1, h2, (hm.foldl_perform _).memByte]

theorem core?_drain_same (s : State) (core : Nat) : (s.drain core).core? core = (s.core? core).map fun c => { c with outbox := [] } := by
  unfold State.drain
  cases h : s.core? core with
  | none => exact h
  | some c =>
    dsimp only
    rw [core?_modCore_same, (onlyMem_foldl_perform c.outbox s).core?, h]

theorem core?_drain_other (s : State) {core n : Nat} (h : n ≠ core) : (s.drain core).core? n = s.core? n := by
  unfold State.drain
  split
  · rfl
  · rw [core?_modCore_other _ _ h]
    exact (onlyMem_foldl_perform _ s).core? n

theorem sameMem_drain {s : State} {core : Nat} {c : Core} (h : s.core? core = some c) : SameMem (c.outbox.foldl State.perform s) (s.drain core) := by
  rw [State.drain, h]
  exact sameMem_modCore _ _ _

/-- Where all that was on its way has arrived and nothing of a key is dirty, memory holds the byte. -/
theorem settled_clean {s : State} {core k : Nat} (h : ∀ c, s.core? core = some c → c.outbox = [] ∧ lastDirty c.l1 k = none) :
    s.settled core k = s.memByte k := by
  cases hc : s.core? core with
  | none => exact settled_none hc k
  | some c =>
    obtain ⟨h1, h2⟩ := h c hc
    rw [settled_some hc, h1, h2]
    rfl

theorem settled_drain (s : State) (core k : Nat) : (s.drain core).settled core k = s.settled core k := by
  cases hc : s.core? core with
  | none => rw [State.drain, hc]
  | some c =>
    rw [settled_some (s := s.drain core) ((core?_drain_same s core).trans (congrArg _ hc)), settled_some hc]
    exact congrArg _ ((sameMem_drain hc).memByte k)

/-- The lines that a write-back sends, and how it leaves them. -/
def L1Line.cleaned (sel : L1Line → Bool) (l : L1Line) : L1Line := if sel l && decide (l.dirty ≠ 0) then { l with dirty := 0, writers := 0 } else l

theorem core?_writeBack_same {s : State} {core : Nat} {c : Core} (h : s.core? core = some c) (sel : L1Line → Bool) :
    (s.writeBack core sel).core? core = some { c with
      outbox := c.outbox ++ (c.l1.filter fun l => sel l && decide (l.dirty ≠ 0)).map (L1Line.message s.pkgWrites core)
      l1 := c.l1.map (L1Line.cleaned sel) } := by
  rw [State.writeBack, h]
  exact (core?_modCore_same s core _).trans (congrArg _ h)

theorem core?_writeBack_other (s : State) {core n : Nat} (sel : L1Line → Bool) (h : n ≠ core) : (s.writeBack core sel).core? n = s.core? n := by
  unfold State.writeBack
  split
  · rfl
  · exact core?_modCore_other s _ h

theorem holds_cleaned (sel : L1Line → Bool) (k : Nat) (l : L1Line) : (l.cleaned sel).holds k = (l.holds k && !(sel l)) := by
  unfold L1Line.cleaned
  split
  · rename_i h
    rw [Bool.and_eq_true] at h
    simp [h.1, L1Line.holds]
  · rename_i h
    by_cases hk : l.holds k = true
    · have hs : sel l = false := by
        rw [decide_eq_true (holds_dirty hk), Bool.and_true] at h
        exact Bool.eq_false_iff.mpr h
      simp [hk, hs]
    · simp [hk]

theorem data_cleaned (sel : L1Line → Bool) (l : L1Line) : (l.cleaned sel).data = l.data := by
  unfold L1Line.cleaned
  split <;> rfl

theorem line_cleaned (sel : L1Line → Bool) (l : L1Line) : (l.cleaned sel).line = l.line := by
  unfold L1Line.cleaned
  split <;> rfl

/-- A write-back of whole lines changes nothing of what memory will hold. -/
theorem settled_writeBack (s : State) (core : Nat) (p : Nat → Bool) (k : Nat) :
    (s.writeBack core fun l => p l.line).settled core k = s.settled core k := by
  cases hc : s.core? core with
  | none => rw [State.writeBack, hc]
  | some c =>
    rw [settled_some (core?_writeBack_same hc _), settled_some hc]
    dsimp only
    rw [List.foldl_append, memByte_foldl_message,
      ((sameMem_writeBack s core fun l => p l.line).foldl_perform c.outbox).memByte k]
    have hline (l : L1Line) (h : l.holds k = true) : l.line = k / 128 := by
      simp only [L1Line.holds, Bool.and_eq_true, decide_eq_true_eq] at h
      exact h.1
    by_cases hp : p (k / 128) = true
    · have h1 : lastDirty (c.l1.map (L1Line.cleaned fun l => p l.line)) k = none := by
        rw [lastDirty_eq_none]
        intro l hl
        obtain ⟨m, -, rfl⟩ := List.mem_map.mp hl
        rw [holds_cleaned]
        by_cases hm : m.holds k = true
        · simp [hline m hm, hp]
        · simp [hm]
      have h2 : lastDirty (c.l1.filter fun l => p l.line && decide (l.dirty ≠ 0)) k = lastDirty c.l1 k :=
        lastDirty_filter _ _ k fun l _ hl => by rw [hline l hl, hp]; exact decide_eq_true (holds_dirty hl)
      rw [h1, h2]
      rfl
    · have h1 : lastDirty (c.l1.map (L1Line.cleaned fun l => p l.line)) k = lastDirty c.l1 k := by
        simp only [lastDirty, ← List.map_reverse, List.find?_map]
        rw [Option.map_map]
        have : (L1Line.holds k ∘ L1Line.cleaned fun l => p l.line) = L1Line.holds k := by
          funext l
          rw [Function.comp, holds_cleaned]
          by_cases hl : l.holds k = true
          · simp [hline l hl, hp]
          · simp [hl]
        rw [this]
        congr 1
        funext l
        rw [Function.comp, data_cleaned]
      have h2 : lastDirty (c.l1.filter fun l => p l.line && decide (l.dirty ≠ 0)) k = none := by
        rw [lastDirty_eq_none]
        intro l hl
        by_contra hh
        have := (List.mem_filter.mp hl).2
        simp [hline l (by simpa using hh), hp] at this
      rw [h1, h2]
      rfl

/-! ## Lines that leave and come -/

/-- Every dirty line of the core in `t` was a dirty line of it in `s`. -/
def LessDirty (core : Nat) (s t : State) : Prop :=
  ∀ d, t.core? core = some d → ∃ c, s.core? core = some c ∧ ∀ l ∈ d.l1, l.dirty ≠ 0 → ∃ m ∈ c.l1, m.line = l.line ∧ m.dirty ≠ 0

theorem LessDirty.refl (core : Nat) (s : State) : LessDirty core s s := fun d hd => ⟨d, hd, fun l hl h => ⟨l, hl, rfl, h⟩⟩

theorem LessDirty.trans {core : Nat} {s t u : State} (h : LessDirty core s t) (k : LessDirty core t u) : LessDirty core s u := by
  intro d hd
  obtain ⟨c, hc, h1⟩ := k d hd
  obtain ⟨b, hb, h2⟩ := h c hc
  refine ⟨b, hb, fun l hl hd => ?_⟩
  obtain ⟨m, hm, e1, n1⟩ := h1 l hl hd
  obtain ⟨n, hn, e2, n2⟩ := h2 m hm n1
  exact ⟨n, hn, e2.trans e1, n2⟩

/-- No line of that number is dirty in the core's L1. -/
def CleanAt (s : State) (core n : Nat) : Prop := ∀ c, s.core? core = some c → ∀ l ∈ c.l1, l.line = n → l.dirty = 0

theorem CleanAt.mono {core n : Nat} {s t : State} (h : CleanAt s core n) (k : LessDirty core s t) : CleanAt t core n := by
  intro d hd l hl hn
  by_contra hne
  obtain ⟨c, hc, h1⟩ := k d hd
  obtain ⟨m, hm, e, h2⟩ := h1 l hl hne
  exact h2 (h c hc m hm (e.trans hn))

theorem CleanAt.lastDirty {s : State} {core k : Nat} (h : CleanAt s core (k / 128)) {c : Core} (hc : s.core? core = some c) :
    lastDirty c.l1 k = none := by
  rw [lastDirty_eq_none]
  intro l hl
  by_contra hh
  have hk : l.holds k = true := by simpa using hh
  have hline : l.line = k / 128 := by
    simp only [L1Line.holds, Bool.and_eq_true, decide_eq_true_eq] at hk
    exact hk.1
  exact holds_dirty hk (h c hc l hl hline)

theorem lessDirty_of_core {core : Nat} {s t : State} (h : t.core? core = s.core? core) : LessDirty core s t :=
  fun d hd => ⟨d, h ▸ hd, fun l hl hd => ⟨l, hl, rfl, hd⟩⟩

theorem lessDirty_drain (s : State) (core : Nat) : LessDirty core s (s.drain core) := by
  intro d hd
  rw [core?_drain_same] at hd
  obtain ⟨c, hc, rfl⟩ := Option.map_eq_some_iff.mp hd
  exact ⟨c, hc, fun l hl h => ⟨l, hl, rfl, h⟩⟩

theorem dirty_cleaned {sel : L1Line → Bool} {l : L1Line} (h : (l.cleaned sel).dirty ≠ 0) : sel l = false ∧ l.dirty ≠ 0 := by
  unfold L1Line.cleaned at h
  split at h
  · exact (h rfl).elim
  · rename_i hs
    refine ⟨?_, h⟩
    rw [decide_eq_true h, Bool.and_true] at hs
    exact Bool.eq_false_iff.mpr hs

theorem lessDirty_writeBack (s : State) (core : Nat) (sel : L1Line → Bool) : LessDirty core s (s.writeBack core sel) := by
  intro d hd
  cases hc : s.core? core with
  | none => rw [State.writeBack, hc] at hd; cases hc.symm.trans hd
  | some c =>
    obtain rfl := Option.some.inj ((core?_writeBack_same hc sel).symm.trans hd)
    refine ⟨c, rfl, fun l hl h => ?_⟩
    obtain ⟨m, hm, rfl⟩ := List.mem_map.mp hl
    exact ⟨m, hm, (line_cleaned sel m).symm, (dirty_cleaned h).2⟩

/-- What a write-back names is clean. -/
theorem clean_writeBack (s : State) (core n : Nat) (sel : L1Line → Bool) (hsel : ∀ l : L1Line, l.line = n → sel l = true) :
    CleanAt (s.writeBack core sel) core n := by
  intro d hd l hl hn
  cases hc : s.core? core with
  | none => rw [State.writeBack, hc] at hd; cases hc.symm.trans hd
  | some c =>
    obtain rfl := Option.some.inj ((core?_writeBack_same hc sel).symm.trans hd)
    obtain ⟨m, hm, rfl⟩ := List.mem_map.mp hl
    by_contra hne
    have h := (dirty_cleaned hne).1
    rw [hsel m ((line_cleaned sel m).symm.trans hn)] at h
    cases h

theorem lessDirty_modCore {s : State} {core : Nat} (f : Core → Core) (h : ∀ c, ∀ l ∈ (f c).l1, l.dirty ≠ 0 → ∃ m ∈ c.l1, m.line = l.line ∧ m.dirty ≠ 0) :
    LessDirty core s (s.modCore core f) := by
  intro d hd
  rw [core?_modCore_same] at hd
  obtain ⟨c, hc, rfl⟩ := Option.map_eq_some_iff.mp hd
  exact ⟨c, hc, h c⟩

theorem lessDirty_invalidate (s : State) (core : Nat) (sel : L1Line → Bool) : LessDirty core s (s.invalidate core sel) :=
  (lessDirty_writeBack s core sel).trans (lessDirty_modCore _ fun _ l hl h => ⟨l, (List.mem_filter.mp hl).1, rfl, h⟩)

/-- Lines that leave by their numbers, written back first, change nothing of what memory will hold. -/
theorem settled_invalidate (s : State) (core : Nat) (p : Nat → Bool) (k : Nat) :
    (s.invalidate core fun l => p l.line).settled core k = s.settled core k := by
  rw [← settled_writeBack s core p k]
  refine settled_congr (sameMem_modCore _ _ _) ?_ k
  rw [core?_modCore_same]
  cases hc : s.core? core with
  | none => rw [State.writeBack, hc, hc]; rfl
  | some c =>
    rw [core?_writeBack_same hc]
    simp only [Option.map_some, Option.some.injEq, Prod.mk.injEq, true_and]
    funext k
    refine lastDirty_filter _ _ k fun l hl hk => ?_
    obtain ⟨m, -, rfl⟩ := List.mem_map.mp hl
    rw [holds_cleaned, Bool.and_eq_true] at hk
    rw [line_cleaned]
    exact hk.2

theorem settled_shrinkL1 (s : State) (core n k : Nat) : (s.shrinkL1 core n).settled core k = s.settled core k := by
  unfold State.shrinkL1
  split
  · rfl
  · dsimp only
    split
    · rfl
    · exact settled_invalidate s core _ k

theorem lessDirty_shrinkL1 (s : State) (core n : Nat) : LessDirty core s (s.shrinkL1 core n) := by
  unfold State.shrinkL1
  split
  · exact .refl _ _
  · dsimp only
    split
    · exact .refl _ _
    · exact lessDirty_invalidate _ _ _

theorem cores_l2Fill (s : State) (d : Nat) (mask : BitVec 16) (line : Nat) : (s.l2Fill d mask line).cores = s.cores := by
  unfold State.l2Fill
  split
  · rfl
  · split
    · rfl
    · dsimp only
      split
      · rfl
      · split <;> rfl

theorem cores_l2Access (s : State) (ctx line : Nat) (x : Xlate) : (s.l2Access ctx line x).cores = s.cores := by
  unfold State.l2Access
  split
  · exact cores_l2Fill _ _ _ _
  · rfl

theorem core?_of_cores {s t : State} (h : t.cores = s.cores) (n : Nat) : t.core? n = s.core? n := by rw [State.core?, h]; rfl

theorem settled_of_cores {s t : State} (hm : SameMem s t) (h : t.cores = s.cores) (core k : Nat) : t.settled core k = s.settled core k :=
  settled_congr hm (by rw [core?_of_cores h]) k

/-- The state in which `fillL1` puts its line. -/
def State.roomL1 (s : State) (core line ctx : Nat) (x : Xlate) : State :=
  ((s.drain core).l2Access ctx line x).shrinkL1 core (((s.drain core).l2Access ctx line x).l1Lines core - 1)

/-- The line that `fillL1` puts. -/
def State.newLine (s : State) (line ctx vline : Nat) (sc : Scope) (x : Xlate) : L1Line :=
  { line := line, data := s.memLine line, dirty := 0, sc := sc, writers := 0, ctx := ctx,
    sysFill := decide (x.reach = .sys), pkg := decide (x.reach = .pkg), vline := some vline, bad := s.poisoned line }

theorem fillL1_eq (s : State) (core line ctx vline : Nat) (sc : Scope) (x : Xlate) : s.fillL1 core line ctx vline sc x =
    (s.roomL1 core line ctx x).modCore core fun c =>
      { c with l1 := c.l1.filter (fun k => k.line ≠ line) ++ [(s.roomL1 core line ctx x).newLine line ctx vline sc x] } := rfl

theorem settled_roomL1 (s : State) (core line ctx : Nat) (x : Xlate) (k : Nat) : (s.roomL1 core line ctx x).settled core k = s.settled core k :=
  (settled_shrinkL1 _ _ _ k).trans ((settled_of_cores (sameMem_l2Access _ _ _ _) (cores_l2Access _ _ _ _) core k).trans (settled_drain s core k))

theorem lessDirty_roomL1 (s : State) (core line ctx : Nat) (x : Xlate) : LessDirty core s (s.roomL1 core line ctx x) :=
  (lessDirty_drain s core).trans ((lessDirty_of_core (core?_of_cores (cores_l2Access _ _ _ _) core)).trans (lessDirty_shrinkL1 _ _ _))

theorem lessDirty_fillL1 (s : State) (core line ctx vline : Nat) (sc : Scope) (x : Xlate) :
    LessDirty core s (s.fillL1 core line ctx vline sc x) := by
  rw [fillL1_eq]
  refine (lessDirty_roomL1 s core line ctx x).trans (lessDirty_modCore _ fun c l hl h => ?_)
  rcases List.mem_append.mp hl with hl | hl
  · exact ⟨l, (List.mem_filter.mp hl).1, rfl, h⟩
  · rw [List.mem_singleton.mp hl] at h
    exact (h rfl).elim

/-- A fill of a line that is not dirty changes nothing of what memory will hold. -/
theorem settled_fillL1 {s : State} {core line : Nat} (h : CleanAt s core line) (ctx vline : Nat) (sc : Scope) (x : Xlate) (k : Nat) :
    (s.fillL1 core line ctx vline sc x).settled core k = s.settled core k := by
  rw [← settled_roomL1 s core line ctx x k, fillL1_eq]
  refine settled_congr (sameMem_modCore _ _ _) ?_ k
  rw [core?_modCore_same]
  cases hc : (s.roomL1 core line ctx x).core? core with
  | none => rfl
  | some c =>
    simp only [Option.map_some, Option.some.injEq, Prod.mk.injEq, true_and]
    funext k
    have h1 : lastDirty [(s.roomL1 core line ctx x).newLine line ctx vline sc x] k = none := by
      rw [lastDirty_eq_none]
      intro l hl
      rw [List.mem_singleton.mp hl]
      simp [L1Line.holds, State.newLine]
    rw [lastDirty_append, h1, Option.none_or]
    refine lastDirty_filter _ _ k fun l hl hk => ?_
    refine decide_eq_true fun he => holds_dirty hk ?_
    exact h.mono (lessDirty_roomL1 s core line ctx x) c hc l hl he

/-! ## Lines brought to memory -/

theorem settled_flushLine (s : State) (core line k : Nat) : (s.flushLine core line).settled core k = s.settled core k :=
  (settled_drain _ core k).trans (settled_writeBack s core (fun n => decide (n = line)) k)

theorem lessDirty_flushLine (s : State) (core line : Nat) : LessDirty core s (s.flushLine core line) :=
  (lessDirty_writeBack _ _ _).trans (lessDirty_drain _ _)

theorem clean_flushLine (s : State) (core line : Nat) : CleanAt (s.flushLine core line) core line :=
  (clean_writeBack s core line (fun l => decide (l.line = line)) fun _ h => decide_eq_true h).mono (lessDirty_drain _ _)

/-- Nothing is on its way from the core. -/
def Empty (s : State) (core : Nat) : Prop := ∀ c, s.core? core = some c → c.outbox = []

theorem empty_drain (s : State) (core : Nat) : Empty (s.drain core) core := by
  intro d hd
  rw [core?_drain_same] at hd
  obtain ⟨c, -, rfl⟩ := Option.map_eq_some_iff.mp hd
  rfl

theorem memByte_of_clean {s : State} {core k : Nat} (h : CleanAt s core (k / 128)) (he : Empty s core) : s.memByte k = s.settled core k :=
  (settled_clean fun c hc => ⟨he c hc, h.lastDirty hc⟩).symm

end Sys2Proof.Machine
end

