-- ==== Sys2Proof/Proofs/Acquires.lean ====
section
/-! SUPPORT. LD.acq and ST.rel: the lanes' values as the resolution point holds them, and the acquire and release beside them (R161, R163, R368,
R404). -/
namespace Sys2Proof.Machine

/-! ## The values of lanes written to D -/

theorem nodup_lanesOf (m : Mask) : (lanesOf m).Nodup := List.nodup_range.filter _

/-- What is written of the lanes' values: all of them, or to an s register that of the lowest lane. -/
def takenFor (o : Opd) (low : Nat) (vals : List (Nat × DWord)) : List (Nat × DWord) := if isS o then vals.filter fun v => v.1 = low else vals

/-- A register write of values by lanes. -/
def lanesWrite (o : Opd) (wide : Bool) (vals : List (Nat × DWord)) : RegWrite :=
  { d := o, wide := wide, act := maskOf fun l => vals.any fun x => x.1 = l, vals := SMap.putAll 0 [] vals }

theorem filter_lane {m : Mask} {l : Nat} (h : hasLane m l = true) (g : Nat → DWord) :
    ((lanesOf m).map fun l => (l, g l)).filter (fun v => v.1 = l) = [(l, g l)] := by
  have h1 : (lanesOf m).filter (fun k => k = l) = [l] := by
    rw [show (fun k : Nat => decide (k = l)) = (· == l) by funext k; by_cases h : k = l <;> simp [h], List.filter_beq,
      List.count_eq_one_of_mem (nodup_lanesOf m) (mem_lanesOf.mpr h)]
    rfl
  rw [List.filter_map]
  exact congrArg (List.map fun l => (l, g l)) h1

theorem mask_of_lanes (m : Mask) (g : Nat → DWord) : (maskOf fun l => ((lanesOf m).map fun l => (l, g l)).any fun x => x.1 = l) = m := by
  refine mask_ext fun l hl => ?_
  rw [hasLane_maskOf, decide_eq_true hl, Bool.true_and, Bool.eq_iff_iff, List.any_eq_true]
  simp

theorem look_lanes {m : Mask} (g : Nat → DWord) {l : Nat} (h : hasLane m l = true) :
    SMap.look 0 (SMap.putAll 0 [] ((lanesOf m).map fun l => (l, g l))) l = g l := by
  rw [SMap.look_putAll_map, if_pos (mem_lanesOf.mpr h)]

/-- The lanes' values reach the destination, and nothing else changes. -/
theorem wrote_lanes {act : Mask} (ha : act ≠ 0) (o : Opd) (wide : Bool) (t : Strand) (g : Nat → DWord) :
    Wrote o wide act g (t.put (lanesWrite o wide (takenFor o (lowest act) ((lanesOf act).map fun l => (l, g l))))) ∧
      OnlyWrote o wide act t (t.put (lanesWrite o wide (takenFor o (lowest act) ((lanesOf act).map fun l => (l, g l))))) := by
  have hall (hn : isS o = false) : lanesWrite o wide (takenFor o (lowest act) ((lanesOf act).map fun l => (l, g l))) =
      { d := o, wide := wide, act := act, vals := SMap.putAll 0 [] ((lanesOf act).map fun l => (l, g l)) } := by
    rw [takenFor, hn, if_neg Bool.false_ne_true, lanesWrite, mask_of_lanes]
  have hv (hn : isS o = false) : Wrote o wide act g (t.put (lanesWrite o wide (takenFor o (lowest act) ((lanesOf act).map fun l => (l, g l))))) ∧
      OnlyWrote o wide act t (t.put (lanesWrite o wide (takenFor o (lowest act) ((lanesOf act).map fun l => (l, g l))))) := by
    rw [hall hn]
    exact ⟨(wrote_writeD t act o wide _ ha).congr ha fun l hl => look_lanes g hl, onlyWrote_writeD t act o wide _⟩
  cases o with
  | s n =>
    have hm : (maskOf fun l => [(lowest act, g (lowest act))].any fun x => x.1 = l) ≠ 0 :=
      mask_ne_zero.mpr ⟨lowest act, by rw [hasLane_maskOf, decide_eq_true (hasLane_lt (lowest_mem ha))]; simp⟩
    have hlow : lowest (maskOf fun l => [(lowest act, g (lowest act))].any fun x => x.1 = l) = lowest act := by
      have h := lowest_mem hm
      rw [hasLane_maskOf, Bool.and_eq_true] at h
      simpa [eq_comm] using h.2
    have hval : SMap.look 0 (SMap.putAll 0 [] [(lowest act, g (lowest act))]) (lowest act) = g (lowest act) := by
      rw [SMap.putAll, SMap.putAll, SMap.look_put_same]
    rw [takenFor, isS, if_pos rfl, filter_lane (lowest_mem ha)]
    have hw := wrote_writeD t _ (.s n) wide (SMap.look 0 (SMap.putAll 0 [] [(lowest act, g (lowest act))])) hm
    have ho := onlyWrote_writeD t (maskOf fun l => [(lowest act, g (lowest act))].any fun x => x.1 = l) (.s n) wide
      (SMap.look 0 (SMap.putAll 0 [] [(lowest act, g (lowest act))]))
    simp only [Wrote, hlow, hval] at hw
    exact ⟨hw, ho⟩
  | _ => exact hv rfl

theorem writeLoaded_eq (c : Ctx) (s : State) (vals : List (Nat × DWord)) :
    c.writeLoaded s vals = c.onStrand s fun t => t.put (lanesWrite c.f.e.d c.f.dstWide vals) := rfl

/-! ## Lanes translated at issue -/

theorem lanes_translateLanes (c : Ctx) (a : Right) (bytes : Nat → List Nat) (ls : List Nat) (s s' : State) (lk : List LaneKeys)
    (h : c.translateLanes s a bytes ls = (s', .inl lk)) : lk.map (·.1) = ls := by
  induction ls generalizing s s' lk with
  | nil =>
    obtain ⟨-, h⟩ := Prod.mk.inj h
    rw [← Sum.inl.inj h]
    rfl
  | cons l ls ih =>
    unfold Ctx.translateLanes at h
    dsimp only at h
    split at h
    · cases h
    · split at h
      · rename_i rest hr
        obtain ⟨-, h⟩ := Prod.mk.inj h
        rw [← Sum.inl.inj h, List.map_cons]
        exact congrArg (l :: ·) (ih _ _ _ (Prod.ext rfl hr))
      · cases h

theorem lanes_of_translated {c : Ctx} {a : Right} {ls : List Nat} {s : State} {lk : List LaneKeys} (h : c.translated a ls s lk) : lk.map (·.1) = ls :=
  lanes_translateLanes c a c.bytes ls c.s s lk h

theorem wholeFly_translated {c : Ctx} {a : Right} {s : State} {lk : List LaneKeys} (h : c.translated a (lanesOf c.act) s lk)
    (body : State → List LaneKeys → Eff) : c.wholeFly a body = body s lk := by
  unfold Ctx.wholeFly Ctx.flyOn
  dsimp only
  rw [show c.translateLanes c.s a c.bytes (lanesOf c.act) = (s, .inl lk) from h]

/-- The keys of a lane. -/
def laneKeys (lk : List LaneKeys) (l : Nat) : List (Nat × Xlate) := ((lk.find? fun y => y.1 = l).map (·.2)).getD []

/-- Lanes and what is computed of their keys, by lane. -/
theorem map_lanes {β : Type} {m : Mask} {lk : List LaneKeys} (h : lk.map (·.1) = lanesOf m) (G : List (Nat × Xlate) → β) :
    lk.map (fun y => (y.1, G y.2)) = (lanesOf m).map fun l => (l, G (laneKeys lk l)) := by
  have hn : (lk.map (·.1)).Nodup := h ▸ nodup_lanesOf m
  rw [← h, List.map_map]
  refine List.map_congr_left fun y hy => ?_
  have hf : lk.find? (fun z => z.1 = y.1) = some y := by
    clear h
    induction lk with
    | nil => cases hy
    | cons z lk ih =>
      rw [List.map_cons, List.nodup_cons] at hn
      rcases List.mem_cons.mp hy with rfl | hy'
      · rw [List.find?_cons_of_pos (by simp)]
      · have hne : z.1 ≠ y.1 := fun he => hn.1 (he ▸ List.mem_map_of_mem hy')
        rw [List.find?_cons_of_neg (by simpa using hne)]
        exact ih hn.2 hy'
  simp only [Function.comp, laneKeys, hf, Option.map_some, Option.getD_some]

/-! ## A scoped load of one lane -/

/-- Lines become poisoned nowhere. -/
def PoisonLess (s t : State) : Prop := ∀ l, s.poisoned l = false → t.poisoned l = false

theorem PoisonLess.trans {s t u : State} (h : PoisonLess s t) (k : PoisonLess t u) : PoisonLess s u := fun l hl => k l (h l hl)

theorem SameMem.poisonLess {s t : State} (h : SameMem s t) : PoisonLess s t := fun l hl => (h.poisoned l).trans hl

theorem poisonLess_of_sub {s t : State} (hq : t.quads = s.quads) (hp : ∀ l, t.poison.contains l = true → s.poison.contains l = true) : PoisonLess s t := by
  intro l hl
  rw [State.poisoned, Bool.or_eq_false_iff] at hl ⊢
  refine ⟨?_, ?_⟩
  · by_contra hc
    rw [hp l (by simpa using hc)] at hl
    exact absurd hl.1 (by decide)
  · rw [← hl.2, State.quadDead, State.quadDead, hq]

theorem poisonLess_foldl {α : Type} (f : State → α → State) (hf : ∀ s a, PoisonLess s (f s a)) (l : List α) (s : State) : PoisonLess s (l.foldl f s) := by
  induction l generalizing s with
  | nil => exact fun l hl => hl
  | cons a l ih => exact (hf s a).trans (ih _)

theorem contains_of_filter {l : List Nat} {p : Nat → Bool} {n : Nat} (h : (l.filter p).contains n = true) : l.contains n = true :=
  List.contains_iff_mem.mpr (List.mem_filter.mp (List.contains_iff_mem.mp h)).1

theorem poison_putBytes (bs : List Byte) (s : State) (key : Nat) : (s.putBytes key bs).poison = s.poison := by
  induction bs generalizing s key with
  | nil => rfl
  | cons b bs ih => exact ih _ _

theorem poisonLess_writeMem (s : State) (key : Nat) (bs : List Byte) : PoisonLess s (s.writeMem key bs) := by
  have hq : (s.writeMem key bs).quads = s.quads := (onlyMem_writeMem s key bs).quads
  have h1 : ((s.putBytes key bs).noteWrite fun k => decide (k % 512 = 0) && decide (key / 128 ≤ k / 512) && decide (128 * (k / 512) < key + bs.length)).poison =
      s.poison := by
    rw [noteWrite_poison]
    exact poison_putBytes bs s key
  refine poisonLess_of_sub hq fun l hl => ?_
  unfold State.writeMem at hl
  dsimp only at hl
  split at hl
  · rw [h1] at hl; exact hl
  · have := contains_of_filter hl
    rw [h1] at this
    exact this

theorem poisonLess_writeLine (s : State) (line : Nat) (d : BitVec 1024) (m : BitVec 128) : PoisonLess s (s.writeLine line d m) := by
  have h1 : (((maskBytes m).foldl (fun s b => s.setByte (128 * line + b) (lineByte d b)) s).noteWrite fun k => decide (k = watchKey line none)).poison =
      s.poison := by
    rw [noteWrite_poison]
    exact (foldl_setByte_frame (maskBytes m) (fun b => (128 * line + b, lineByte d b)) s).2.2.2
  refine poisonLess_of_sub (onlyMem_writeLine s line d m).quads fun l hl => ?_
  unfold State.writeLine at hl
  dsimp only at hl
  split at hl
  · have := contains_of_filter hl
    rw [h1] at this
    exact this
  · rw [h1] at hl; exact hl

theorem poisonLess_perform (s : State) (m : Message) : PoisonLess s (s.perform m) := by
  cases m with
  | write line d b p => exact poisonLess_writeLine s line d b
  | red key op ty b p =>
    unfold State.perform
    dsimp only
    split
    · exact fun l hl => hl
    · exact poisonLess_writeMem s _ _

theorem poisonLess_drain (s : State) (core : Nat) : PoisonLess s (s.drain core) := by
  unfold State.drain
  split
  · exact fun l hl => hl
  · exact (poisonLess_foldl _ poisonLess_perform _ s).trans (sameMem_modCore _ _ _).poisonLess

theorem poisonLess_flushLine (s : State) (core line : Nat) : PoisonLess s (s.flushLine core line) :=
  (sameMem_writeBack _ _ _).poisonLess.trans (poisonLess_drain _ _)

theorem poisonLess_fillL1 (s : State) (core line ctx vline : Nat) (sc : Scope) (x : Xlate) : PoisonLess s (s.fillL1 core line ctx vline sc x) :=
  (poisonLess_drain s core).trans
    (((sameMem_l2Access _ _ _ _).trans ((sameMem_shrinkL1 _ _ _).trans (sameMem_modCore _ _ _))).poisonLess)

/-- What a core has stored, and the poison of lines, as a scoped access leaves them. -/
def Kept (core : Nat) (s t : State) : Prop := (∀ k, t.settled core k = s.settled core k) ∧ LessDirty core s t ∧ PoisonLess s t

theorem Kept.refl (core : Nat) (s : State) : Kept core s s := ⟨fun _ => rfl, .refl _ _, fun _ h => h⟩

theorem Kept.trans {core : Nat} {s t u : State} (h : Kept core s t) (k : Kept core t u) : Kept core s u := by
  obtain ⟨h1, h2, h3⟩ := h
  obtain ⟨k1, k2, k3⟩ := k
  exact ⟨fun x => (k1 x).trans (h1 x), h2.trans k2, h3.trans k3⟩

theorem kept_foldl {α : Type} {core : Nat} (f : State → α → State) (hf : ∀ s a, Kept core s (f s a)) (l : List α) (s : State) :
    Kept core s (l.foldl f s) := by
  induction l generalizing s with
  | nil => exact .refl _ s
  | cons a l ih => exact (hf s a).trans (ih _)

theorem kept_flushLine (s : State) (core line : Nat) : Kept core s (s.flushLine core line) :=
  ⟨settled_flushLine s core line, lessDirty_flushLine s core line, poisonLess_flushLine s core line⟩

/-- The lines of some keys, none of them dirty. -/
def CleanKeys (s : State) (core : Nat) (ks : List (Nat × Xlate)) : Prop := ∀ k ∈ ks, CleanAt s core (k.1 / 128)

theorem CleanKeys.mono {core : Nat} {s t : State} {ks : List (Nat × Xlate)} (h : CleanKeys s core ks) (k : Kept core s t) : CleanKeys t core ks :=
  fun x hx => (h x hx).mono k.2.1

theorem mem_linesOf {ks : List (Nat × Xlate)} {k : Nat × Xlate} (h : k ∈ ks) : (k.1 / 128, k.2) ∈ linesOf ks := by
  rw [linesOf, List.mem_eraseDups]
  exact List.mem_map_of_mem (f := fun k : Nat × Xlate => (k.1 / 128, k.2)) h

section
variable (c : Ctx)

theorem kept_flush (s : State) (ks : List (Nat × Xlate)) : Kept c.core s (c.flush s ks) := 
  kept_foldl (fun s (k : Nat × Xlate) => s.flushLine c.core k.1) (fun s k => kept_flushLine s c.core k.1) (linesOf ks) s

/-- After the flush the lines of the keys are clean, and memory holds what the core has stored there. -/
theorem clean_flush (s : State) (ks : List (Nat × Xlate)) : CleanKeys (c.flush s ks) c.core ks ∧ (ks ≠ [] → Empty (c.flush s ks) c.core) := by
  have key : ∀ (ls : List (Nat × Xlate)) (s : State), (∀ x ∈ ls, CleanAt (ls.foldl (fun s k => s.flushLine c.core k.1) s) c.core x.1) ∧
      (ls ≠ [] → Empty (ls.foldl (fun s k => s.flushLine c.core k.1) s) c.core) := by
    intro ls
    induction ls with
    | nil => exact fun s => ⟨fun x hx => (List.not_mem_nil hx).elim, fun h => (h rfl).elim⟩
    | cons y ls ih =>
      intro s
      obtain ⟨h1, h2⟩ := ih (s.flushLine c.core y.1)
      refine ⟨fun x hx => ?_, fun _ => ?_⟩
      · rcases List.mem_cons.mp hx with rfl | hx
        · exact (clean_flushLine s c.core _).mono (kept_foldl (fun s (k : Nat × Xlate) => s.flushLine c.core k.1) (fun s k => kept_flushLine s c.core k.1) ls _).2.1
        · exact h1 x hx
      · by_cases hl : ls = []
        · subst hl; exact empty_drain _ _
        · exact h2 hl
  obtain ⟨h1, h2⟩ := key (linesOf ks) s
  refine ⟨fun k hk => h1 _ (mem_linesOf hk), fun hne => h2 fun hc => ?_⟩
  obtain ⟨k, hk⟩ := List.exists_mem_of_ne_nil _ hne
  have := mem_linesOf hk
  rw [hc] at this
  cases this

theorem memByte_flush (s : State) (ks : List (Nat × Xlate)) {k : Nat × Xlate} (hk : k ∈ ks) : (c.flush s ks).memByte k.1 = s.settled c.core k.1 := by
  obtain ⟨h1, h2⟩ := clean_flush c s ks
  rw [memByte_of_clean (h1 k hk) (h2 fun h => by rw [h] at hk; cases hk), (kept_flush c s ks).1]

theorem kept_setRecords (s : State) (ks : List (Nat × Xlate)) : Kept c.core s (c.setRecords s ks) := by
  unfold Ctx.setRecords
  split
  · refine kept_foldl _ (fun s k => ?_) _ s
    split
    · have hm : SameMem s ((s.l2Access c.ctx k.1 k.2).setRecord k.1 c.inst) := (sameMem_l2Access _ _ _ _).trans (sameMem_setRecord _ _ _)
      have hc : ((s.l2Access c.ctx k.1 k.2).setRecord k.1 c.inst).cores = s.cores := cores_l2Access _ _ _ _
      exact ⟨settled_of_cores hm hc c.core, lessDirty_of_core (core?_of_cores hc _), hm.poisonLess⟩
    · exact .refl _ s
  · exact .refl _ s

/-- The lines that a scoped load brings in. -/
def Ctx.fillScoped (s : State) (va : List Nat) (ks : List (Nat × Xlate)) : State :=
  (va.zip ks).foldl (fun s x => s.fillL1 c.core (x.2.1 / 128) c.ctx (x.1 / 128) c.f.e.scope x.2.2) s

theorem kept_fillScoped (va : List Nat) (ks : List (Nat × Xlate)) (s : State) (h : CleanKeys s c.core ks) : Kept c.core s (c.fillScoped s va ks) := by
  induction va generalizing ks s with
  | nil => exact .refl _ s
  | cons v va ih =>
    cases ks with
    | nil => exact .refl _ s
    | cons k ks =>
      have h1 : Kept c.core s (s.fillL1 c.core (k.1 / 128) c.ctx (v / 128) c.f.e.scope k.2) :=
        ⟨settled_fillL1 (h k List.mem_cons_self) _ _ _ _, lessDirty_fillL1 _ _ _ _ _ _ _, poisonLess_fillL1 _ _ _ _ _ _ _⟩
      exact h1.trans (ih ks _ (CleanKeys.mono (fun x hx => h x (List.mem_cons_of_mem _ hx)) h1))

/-- A scoped load of a lane takes what memory holds once the core's own writes have reached it. -/
theorem loadScoped_spec (s : State) (va : List Nat) (ks : List (Nat × Xlate)) (hp : ∀ k ∈ ks, s.poisoned (k.1 / 128) = false) :
    Kept c.core s (c.loadScoped s va ks).1 ∧ (c.loadScoped s va ks).2.1 = fromBytes (ks.map fun k => s.settled c.core k.1) ∧
      (c.loadScoped s va ks).2.2 = false := by
  have hf := kept_flush c s ks
  refine ⟨(hf.trans (kept_fillScoped c va ks _ (clean_flush c s ks).1)).trans (kept_setRecords c _ ks), ?_, ?_⟩
  · exact congrArg fromBytes (List.map_congr_left fun k hk => memByte_flush c s ks hk)
  · exact List.any_eq_false.mpr fun k hk => ne_true_of_eq_false (hf.2.2 _ (hp k hk))

end

theorem memSide_loadScoped (c : Ctx) (s : State) (va : List Nat) (ks : List (Nat × Xlate)) : MemSide s (c.loadScoped s va ks).1 :=
  (memSide_flush c s ks).trans ((memSide_foldl (α := Nat × Nat × Xlate) _ (fun s x => memSide_fillL1 s c.core (x.2.1 / 128) c.ctx (x.1 / 128) c.f.e.scope x.2.2)
    (va.zip ks) _).trans (memSide_setRecords c _ ks))

/-! ## LD.acq at the resolution point -/

/-- One step of a wide LD.acq: a lane's value, or its place among those that are uncorrectable. -/
def Ctx.scopedStep (c : Ctx) (acc : State × List (Nat × DWord) × Mask) (y : LaneKeys) : State × List (Nat × DWord) × Mask :=
  let v := c.loadScoped acc.1 (c.bytes y.1) y.2
  if v.2.2 then (v.1, acc.2.1, acc.2.2 ||| (1#32 <<< y.1)) else (v.1, acc.2.1 ++ [(y.1, loadPlace c.f.e.ty v.2.1)], acc.2.2)

/-- The value of a lane by its keys, as memory holds it once the core's writes have arrived. -/
def Ctx.settledValue (c : Ctx) (s : State) (ks : List (Nat × Xlate)) : DWord :=
  loadPlace c.f.e.ty (fromBytes (ks.map fun k => s.settled c.core k.1))

/-- The lanes one after the other take what memory holds once the core's writes have arrived. -/
theorem foldl_scopedStep (c : Ctx) (s0 : State) (lk : List LaneKeys) (hp : ∀ y ∈ lk, ∀ k ∈ y.2, s0.poisoned (k.1 / 128) = false) (s : State)
    (vals : List (Nat × DWord)) (m : Mask) (hk : Kept c.core s0 s) : ∃ x, lk.foldl c.scopedStep (s, vals, m) =
      (x, vals ++ lk.map (fun y => (y.1, c.settledValue s0 y.2)), m) ∧ MemSide s x := by
  induction lk generalizing s vals with
  | nil => exact ⟨s, by rw [List.map_nil, List.append_nil]; rfl, .refl s⟩
  | cons y lk ih =>
    obtain ⟨h1, h2, h3⟩ := loadScoped_spec c s (c.bytes y.1) y.2 fun k hk' => hk.2.2 _ (hp y List.mem_cons_self k hk')
    have hv : (c.loadScoped s (c.bytes y.1) y.2).2.1 = fromBytes (y.2.map fun k => s0.settled c.core k.1) := by
      rw [h2]
      exact congrArg fromBytes (List.map_congr_left fun k _ => hk.1 k.1)
    obtain ⟨x, hx, hm⟩ := ih (fun z hz => hp z (List.mem_cons_of_mem _ hz)) (c.loadScoped s (c.bytes y.1) y.2).1
      (vals ++ [(y.1, c.settledValue s0 y.2)]) (hk.trans h1)
    refine ⟨x, ?_, (memSide_loadScoped c s _ _).trans hm⟩
    rw [List.foldl_cons, List.map_cons, ← List.append_cons] at *
    rw [← hx, Ctx.scopedStep]
    dsimp only
    rw [h3, if_neg Bool.false_ne_true, hv]
    rfl

theorem flushCore_memByte (s : State) (core k : Nat) : (s.flushCore core).memByte k = s.settled core k := by
  rw [State.flushCore]
  have hc : CleanAt (s.writeBack core fun _ => true) core (k / 128) := clean_writeBack s core _ _ fun _ _ => rfl
  rw [memByte_of_clean (hc.mono (lessDirty_drain _ _)) (empty_drain _ _), settled_drain]
  exact settled_writeBack s core (fun _ => true) k

/-- The acquire leaves no line of a narrower SC. -/
theorem sc_acquire {s : State} {core : Nat} {sc : Scope} {k : Core} (hk : (s.acquire core sc).core? core = some k) :
    ∀ l ∈ k.l1, scopeRank sc ≤ scopeRank l.sc := by
  have hinv : ∀ d, (s.invalidate core fun l => decide (scopeRank l.sc < scopeRank sc) || (decide (sc = .sys) && l.sysFill)).core? core = some d →
      ∀ l ∈ d.l1, scopeRank sc ≤ scopeRank l.sc := by
    intro d hd l hl
    rw [State.invalidate, core?_modCore_same] at hd
    obtain ⟨e, -, rfl⟩ := Option.map_eq_some_iff.mp hd
    have h := (List.mem_filter.mp hl).2
    simp only [Bool.not_eq_true', Bool.or_eq_false_iff, decide_eq_false_iff_not, Nat.not_lt] at h
    exact h.1
  unfold State.acquire at hk
  dsimp only at hk
  split at hk
  · exact hinv k hk
  · rw [State.refresh, core?_modCore_same, core?_drain_same] at hk
    obtain ⟨d, hd, rfl⟩ := Option.map_eq_some_iff.mp hk
    obtain ⟨e, he, rfl⟩ := Option.map_eq_some_iff.mp hd
    intro l hl
    obtain ⟨m, hm, rfl⟩ := List.mem_map.mp hl
    exact hinv e he m hm

/-! ## The instructions -/

section
variable {e : Ext} {s : State} {c : Ctx} {s' : State} {lk : List LaneKeys}

theorem core?_leave (c : Ctx) (s : State) (st : Path → Path) (n k : Nat) : (c.leave s 0 st none n).core? k = s.core? k := by
  obtain ⟨⟨_, _, _, _, _, h⟩, -, -⟩ := FrameOf.leave c s st none n
  rw [h]
  rfl

theorem ldAcq_translated (hr : Runs s (Form.ofExt 0x74 e) c) (ht : c.accessTrap false = none) (ho : c.overlaps = false)
    (hl : c.translated .read (lanesOf c.act) s' lk) : exec (.ldAcq e) s = .next (c.settle 0 (acquireGo c s' lk)) := by
  refine exec_of_body _ rfl hr ?_
  rw [ht]
  dsimp only
  rw [ho, if_neg Bool.false_ne_true, wholeFly_translated hl]

theorem stRel_translated (hr : Runs s (Form.ofExt 0x78 e) c) (ht : c.accessTrap true = none) (hq : c.quiet = true)
    (hl : c.translated .write (lanesOf c.act) s' lk) : exec (.stRel e) s = .next (c.settle 0 (storeRelease c s' lk)) := by
  refine exec_of_body _ rfl hr ?_
  rw [ht]
  dsimp only
  rw [hq, Bool.not_true, if_neg Bool.false_ne_true, wholeFly_translated hl]

/-- What a wide LD.acq does once its lanes have been read. -/
def Ctx.scopedEnd (c : Ctx) (x : State × List (Nat × DWord) × Mask) : Eff :=
  let s := (c.writeLoaded x.1 (takenFor c.f.e.d c.low x.2.1)).acquire c.core c.f.e.scope
  .go (if x.2.2 = 0 then s else c.deferOn s .uncorrectable x.2.2 (c.va (lowest x.2.2))) none c.grow

theorem loadAcquire_beyond (hb : beyondL1 c.f.e.scope = true) (hf : c.scopeFail s' lk = none) :
    loadAcquire c s' lk = c.scopedEnd (lk.foldl c.scopedStep (s', [], 0)) := by
  unfold loadAcquire
  rw [if_pos hb, hf]
  rfl

theorem loadAcquire_wide {x : State} {vals : List (Nat × DWord)} (hb : beyondL1 c.f.e.scope = true) (hf : c.scopeFail s' lk = none)
    (hx : lk.foldl c.scopedStep (s', [], 0) = (x, vals, 0)) : loadAcquire c s' lk =
      .go ((c.writeLoaded x (takenFor c.f.e.d c.low vals)).acquire c.core c.f.e.scope) none c.grow := by
  rw [loadAcquire_beyond hb hf, hx]
  rfl

end

/-- Settles O25: each form by its translated lanes; a wide LD.acq lane by lane. -/
theorem acquireRelease : Obligations.AcquireRelease := by
  refine ⟨fun e s c s' lk hr ht ho hl he hb => ?_, fun e s c s' lk hr ht ho hl he hb hf hp => ?_, fun e s c s' lk hr ht ho hfl hl he => ?_,
    fun e s c s' lk hr ht hq hl hf hb => ?_, fun e s c s' lk hr ht hq hl hf hb => ?_⟩
  · have hsc : c.f.e.scope = e.scope := by rw [hr.spec.2.2.2.1]; rfl
    rw [ldAcq_translated hr ht ho hl, acquireGo, he, if_pos rfl, loadAcquire, hsc, hb]
    rfl
  · intro seen keys
    obtain ⟨-, -, hs, hfm, -, hact⟩ := hr.spec
    have hsc : c.f.e.scope = e.scope := by rw [hfm]; rfl
    obtain ⟨x, hx, hm⟩ := foldl_scopedStep c s' lk hp s' [] 0 (.refl _ _)
    rw [List.nil_append, map_lanes (lanes_of_translated hl)] at hx
    have hw := (wrote_lanes hact c.f.e.d c.f.dstWide c.t fun l => c.settledValue s' (laneKeys lk l)).1
    have hst : ((c.writeLoaded x (takenFor c.f.e.d c.low ((lanesOf c.act).map fun l => (l, c.settledValue s' (laneKeys lk l))))).acquire c.core
        e.scope).strand? c.r = some (c.t.put (lanesWrite c.f.e.d c.f.dstWide (takenFor c.f.e.d c.low ((lanesOf c.act).map fun l =>
          (l, c.settledValue s' (laneKeys lk l)))))) := by
      rw [(memSide_acquire _ _ _).strand?, writeLoaded_eq, Ctx.onStrand, strand?_modStrand_same _ _ _ fun t => put_idx t _,
        ((memSide_of_translated hl).trans hm).strand?, hs]
      rfl
    obtain ⟨a, b, d, hu⟩ := leave_strand c _ _ id none (c.beats + c.grow) hst
    refine ⟨_, _, _, ?_, rfl, hu, ?_, fun k hk => ?_⟩
    · rw [ldAcq_translated hr ht ho hl, acquireGo, he, if_pos rfl, loadAcquire_wide (by rw [hsc]; exact hb) hf hx, hsc]
      rfl
    · have hd : Wrote e.d (Form.ofExt 0x74 e).dstWide = Wrote c.f.e.d c.f.dstWide := by rw [hfm]; rfl
      rw [hd]
      refine (hw.congr hact fun l _ => ?_).same ⟨rfl, rfl, rfl, rfl⟩
      rw [Ctx.settledValue, hfm]
      exact congrArg (fun bs => loadPlace e.ty (fromBytes bs)) (List.map_congr_left fun k _ => (flushCore_memByte s' c.core k.1).symm)
    · exact sc_acquire (s := c.writeLoaded x _) ((core?_leave _ _ _ _ _).symm.trans hk)
  · rw [ldAcq_translated hr ht ho hl, acquireGo, he, if_neg Bool.false_ne_true, hfl, if_neg Bool.false_ne_true]
    rfl
  · have hsc : c.f.e.scope = e.scope := by rw [hr.spec.2.2.2.1]; rfl
    rw [stRel_translated hr ht hq hl, storeRelease, hf]
    dsimp only
    rw [hsc, hb, if_neg Bool.false_ne_true]
    rfl
  · intro keys
    have hsc : c.f.e.scope = e.scope := by rw [hr.spec.2.2.2.1]; rfl
    rw [stRel_translated hr ht hq hl, storeRelease, hf]
    dsimp only
    rw [hsc, hb, if_pos rfl]
    rfl

end Sys2Proof.Machine
end

