-- ==== Sys2Proof/Proofs/BanksAndFences.lean ====
section
/-! SUPPORT. Operations at the bank, fences, and what invalidations keep (R172, R319, R357, R382, R386, R390, R406). -/
namespace Sys2Proof.Machine

/-! ## One lane at the bank -/

theorem sameMem_setRecords (c : Ctx) (s : State) (ks : List (Nat × Xlate)) : SameMem s (c.setRecords s ks) := by
  unfold Ctx.setRecords
  split
  · generalize linesOf ks = ls
    induction ls generalizing s with
    | nil => exact .refl s
    | cons k ls ih =>
      refine SameMem.trans ?_ (ih _)
      dsimp only
      split
      · exact (sameMem_l2Access _ _ _ _).trans (sameMem_setRecord _ _ _)
      · exact .refl s
  · exact .refl s

theorem readMem_writeMem (s : State) (key : Nat) (bs : List Byte) : (s.writeMem key bs).readMem key bs.length = bs := by
  refine List.ext_getElem (by simp [State.readMem, span]) fun n h1 h2 => ?_
  simp only [State.readMem, span, List.map_map, List.getElem_map, List.getElem_range, Function.comp]
  rw [memByte_writeMem, if_pos ⟨Nat.le_add_right _ _, by omega⟩, Nat.add_sub_cancel_left, List.getD_eq_getElem?_getD, List.getElem?_eq_getElem h2]
  rfl

/-- A number written is read back, as far as its bytes hold it. -/
theorem readNat_writeNat (s : State) (key n v : Nat) : (s.writeNat key n v).readNat key n = v % 2 ^ (8 * n) := by
  have h := readMem_writeMem s key (toBytes n v)
  rw [length_toBytes] at h
  rw [State.readNat, State.writeNat, h, fromBytes_toBytes, Nat.pow_mul]

theorem memByte_writeNat_other (s : State) (key n v k : Nat) (h : k < key ∨ key + n ≤ k) : (s.writeNat key n v).memByte k = s.memByte k := by
  rw [State.writeNat, memByte_writeMem, length_toBytes, if_neg (by omega)]

theorem toNat_setWidth_word (x : Word) : (x.setWidth 64).toNat % 2 ^ 32 = x.toNat := by
  rw [BitVec.toNat_setWidth_of_le (by decide), Nat.mod_eq_of_lt x.isLt]

theorem ofNat_word (x : Word) : BitVec.ofNat 64 x.toNat = x.setWidth 64 := by
  rw [BitVec.ofNat_toNat]

theorem sext_word (x : Word) : sext 32 x.toNat = x.toInt := by
  rw [sext_eq_bmod (by decide), BitVec.toInt_eq_toNat_bmod]

/-- The operations on 32-bit words. -/
theorem bankOp_word (old b : Word) :
    bankOp 0 .n32 (old.setWidth 64) (b.setWidth 64) = (old + b).setWidth 64 ∧
    bankOp 1 .n32 (old.setWidth 64) (b.setWidth 64) = (if old.toNat < b.toNat then old else b).setWidth 64 ∧
    bankOp 2 .n32 (old.setWidth 64) (b.setWidth 64) = (if old.toNat < b.toNat then b else old).setWidth 64 ∧
    bankOp 1 .s32 (old.setWidth 64) (b.setWidth 64) = (if old.toInt < b.toInt then old else b).setWidth 64 ∧
    bankOp 3 .b32 (old.setWidth 64) (b.setWidth 64) = (old &&& b).setWidth 64 ∧
    bankOp 4 .b32 (old.setWidth 64) (b.setWidth 64) = (old ||| b).setWidth 64 ∧
    bankOp 5 .b32 (old.setWidth 64) (b.setWidth 64) = (old ^^^ b).setWidth 64 ∧
    bankOp 6 .b32 (old.setWidth 64) (b.setWidth 64) = b.setWidth 64 := by
  have pick (p : Prop) [Decidable p] (x y : Word) : BitVec.ofNat 64 (if p then x.toNat else y.toNat) = (if p then x else y).setWidth 64 := by
    split <;> exact ofNat_word _
  refine ⟨?_, ?_, ?_, ?_, ?_, ?_, ?_, ?_⟩ <;>
    simp only [bankOp, Ty.width, Ty.isSigned, toNat_setWidth_word, reduceCtorEq, if_false, Bool.false_eq_true, if_true, sext_word, decide_eq_true_eq]
  · rw [← ofNat_word, BitVec.toNat_add]; rfl
  · exact pick _ _ _
  · exact pick _ _ _
  · exact pick _ _ _
  · rw [← ofNat_word, BitVec.toNat_and]; rfl
  · rw [← ofNat_word, BitVec.toNat_or]; rfl
  · rw [← ofNat_word, BitVec.toNat_xor]; rfl
  · exact ofNat_word b

/-! ## The instructions -/

section
variable {c : Ctx} {host : Bool} {s : State} {lk : List LaneKeys}

theorem bankChecked_passes {s0 : State} (hh : host = true → s0.port = .pcie → ∀ x ∈ lk, ∀ k ∈ x.2, k.2.target ≠ 1) (hf : c.scopeFail s0 lk = none)
    (hs : s = lk.foldl (fun s x => c.flush s x.2) s0) (hp : poisonedLanes s lk = 0) (body : State → Eff) :
    c.bankChecked host s0 lk body = body s := by
  have h0 : (host && decide (s0.port = .pcie) && (lk.find? fun x => x.2.any fun k => k.2.target = 1).isSome) = false := by
    by_contra hc
    simp only [Bool.not_eq_false, Bool.and_eq_true, decide_eq_true_eq, List.find?_isSome, List.any_eq_true] at hc
    obtain ⟨⟨h1, h2⟩, x, hx, k, hk, he⟩ := hc
    exact hh h1 h2 x hx k hk he
  unfold Ctx.bankChecked
  dsimp only
  rw [h0, if_neg Bool.false_ne_true, hf]
  dsimp only
  rw [← hs, hp, if_neg (not_not.mpr rfl)]

theorem bankBody_ready (h : c.bankReady host s lk) (body : Ctx → List LaneKeys → State → Eff) : bankBody host body c = body c lk s := by
  obtain ⟨h1, h2, h3, s0, h4, h5, h6, h7, h8⟩ := h
  have hq : (decide (c.f.e.scope ≠ .none) && !c.quiet) = false := by
    rcases h3 with h | h <;> simp [h]
  unfold bankBody
  rw [h1]
  dsimp only
  rw [h2, hq, Bool.or_false, if_neg Bool.false_ne_true, wholeFly_translated h4]
  exact bankChecked_passes h5 h6 h7 h8 _

end

/-- Settles O26: the checks passed, each form by its lanes; one lane by what the bank holds. -/
theorem bankInstructions : Obligations.BankInstructions := by
  refine ⟨⟨fun e s c s' lk hr hb => ?_, fun e s c s' lk hr hb => ?_, fun e s c s' lk hr hb => ?_, fun e s c s' lk hr hb hn => ?_, fun e s c s' lk hr hb hn => ?_⟩,
    fun c new s l key ks hk => ?_, bankOp_word, fun c old l => rfl⟩
  · rw [exec_of_body (bankBody true (atomLanes false Ctx.atomNew)) rfl hr (bankBody_ready hb _), atomLanes]
    rfl
  · have hf := hr.spec.2.2.2.1
    rw [exec_of_body (bankBody true (atomLanes true Ctx.atomNew)) rfl hr (bankBody_ready hb _), atomLanes, hf]
    rfl
  · have hf := hr.spec.2.2.2.1
    rw [exec_of_body (bankBody false (atomLanes true Ctx.casNew)) rfl hr (bankBody_ready hb _), atomLanes, hf]
    rfl
  · have hsc : c.f.e.scope = e.scope := by rw [hr.spec.2.2.2.1]; rfl
    rw [exec_of_body (bankBody true redLanes) rfl hr (bankBody_ready hb _), redLanes, hsc, if_pos hn]
    rfl
  · have hsc : c.f.e.scope = e.scope := by rw [hr.spec.2.2.2.1]; rfl
    rw [exec_of_body (bankBody true redLanes) rfl hr (bankBody_ready hb _), redLanes, hsc, if_neg hn, Ctx.fenced, hsc, if_neg hn]
    rfl
  · intro before old x
    subst hk
    exact ⟨readNat_writeNat _ _ _ _, rfl, fun k hk => (memByte_writeNat_other _ _ _ _ _ hk).trans ((sameMem_setRecords c _ ks).memByte k)⟩

/-! ## What an invalidation writes back -/

theorem cleaned_of_not {sel : L1Line → Bool} {l : L1Line} (h : sel l = false) : l.cleaned sel = l := by
  rw [L1Line.cleaned, h]
  rfl

theorem cores_leave (c : Ctx) (s : State) (st : Path → Path) (n : Nat) : (c.leave s 0 st none n).cores = s.cores := by
  obtain ⟨⟨_, _, _, _, _, h⟩, -, -⟩ := FrameOf.leave c s st none n
  rw [h]

theorem memByte_leave (c : Ctx) (s : State) (st : Path → Path) (n k : Nat) : (c.leave s 0 st none n).memByte k = s.memByte k := by
  obtain ⟨h1, h2⟩ := (FrameOf.leave c s st none n).mem
  exact memByte_congr h1 h2 k

/-- Beside what is on its way and what L1 holds, a core is as it was. -/
theorem icache_writeBack_drain (s : State) (core n : Nat) (sel : L1Line → Bool) :
    (((s.writeBack core sel).drain core).core? n).map Core.icache = (s.core? n).map Core.icache := by
  by_cases h : n = core
  · subst h
    rw [core?_drain_same]
    cases hc : s.core? n with
    | none => rw [State.writeBack, hc, hc]; rfl
    | some c => rw [core?_writeBack_same hc]; rfl
  · rw [core?_drain_other _ h, core?_writeBack_other _ _ h]

theorem length_drain (s : State) (core : Nat) : (s.drain core).cores.length = s.cores.length := by
  unfold State.drain
  split
  · rfl
  · rw [State.modCore_cores, length_modNth, (onlyMem_foldl_perform _ s).cores]

theorem length_writeBack (s : State) (core : Nat) (sel : L1Line → Bool) : (s.writeBack core sel).cores.length = s.cores.length := by
  unfold State.writeBack
  split
  · rfl
  · exact length_modNth _ _ _

/-- The dirty byte of a line that is written back, no other line having its number, is in memory after it. -/
theorem memByte_writeBack_drain {s : State} {core : Nat} {x : Core} {l : L1Line} {b : Nat} (sel : L1Line → Bool) (hx : s.core? core = some x)
    (hl : l ∈ x.l1) (hu : ∀ m ∈ x.l1, m.line = l.line → m = l) (hb : b < 128) (hd : l.dirty.getLsbD b = true) (hs : sel l = true) :
    ((s.writeBack core sel).drain core).memByte (128 * l.line + b) = lineByte l.data b := by
  have h1 : (128 * l.line + b) / 128 = l.line := by omega
  have h2 : (128 * l.line + b) % 128 = b := by omega
  have hold : l.holds (128 * l.line + b) = true := by simp [L1Line.holds, h1, h2, hd]
  have hlast : lastDirty (x.l1.filter fun l => sel l && decide (l.dirty ≠ 0)) (128 * l.line + b) = some (lineByte l.data b) := by
    have hmem : l ∈ (x.l1.filter fun l => sel l && decide (l.dirty ≠ 0)).reverse := by
      rw [List.mem_reverse, List.mem_filter, hs, Bool.true_and]
      exact ⟨hl, decide_eq_true (holds_dirty hold)⟩
    obtain ⟨m, hm⟩ := Option.isSome_iff_exists.mp (List.find?_isSome.mpr ⟨l, hmem, hold⟩)
    have hml : m = l := by
      have h3 := List.find?_some hm
      simp only [L1Line.holds, Bool.and_eq_true, decide_eq_true_eq, h1] at h3
      exact hu m (List.mem_filter.mp (List.mem_reverse.mp (List.mem_of_find?_eq_some hm))).1 h3.1
    rw [lastDirty, hm, hml, h2]
    rfl
  have hc := core?_writeBack_same hx sel
  rw [(sameMem_drain hc).memByte, List.foldl_append, memByte_foldl_message, hlast]
  rfl

/-- The state in which ICINV has written back what meets its range and emptied the instruction caches of it. -/
def Ctx.invalidated (c : Ctx) : State :=
  let s := (c.s.writeBack c.core fun l => l.meetsRange c.ctx c.range.1 c.range.2.1 c.range.2.2).drain c.core
  { s with
    cores := s.cores.map fun k =>
      { k with icache := k.icache.filter fun l => !(l.meetsRange c.ctx c.range.1 c.range.2.1 c.range.2.2) } }

theorem core?_invalidated {c : Ctx} {n : Nat} {y : Core} (h : c.invalidated.core? n = some y) :
    ∃ z, ((c.s.writeBack c.core fun l => l.meetsRange c.ctx c.range.1 c.range.2.1 c.range.2.2).drain c.core).core? n = some z ∧
      y = { z with icache := z.icache.filter fun l => !(l.meetsRange c.ctx c.range.1 c.range.2.1 c.range.2.2) } := by
  rw [State.core?, Ctx.invalidated, List.getElem?_map] at h
  obtain ⟨z, hz, rfl⟩ := Option.map_eq_some_iff.mp h
  exact ⟨z, hz, rfl⟩

/-- Settles O27: each form by what it does; ICINV by what it writes back and what each cache keeps. -/
theorem fencesAndInvalidation : Obligations.FencesAndInvalidation := by
  refine ⟨fun e => does_of_go _ (fun _ => rfl) fun c hf _ hok => ?_, fun e s c l hr hl hh hb => exec_of_trap _ rfl hr ?_,
    fun e hn => does_of_go _ (fun _ => rfl) fun c hf _ _ => ?_, fun e hn => does_of_go _ (fun _ => rfl) fun c hf _ hq => ?_,
    fun e => does_of_go _ (fun _ => rfl) fun c hf _ _ => rfl, fun e s c hr hq => exec_of_stay _ rfl hr ?_, fun e s c hr hq => ?_⟩
  · have hn : (firstLane c.act fun l => lockHit (c.s.locksOf c.c) false (c.prfFoot l)) = none := firstLane_none hok
    rw [hn]
  · have hn : (firstLane c.act fun l => lockHit (c.s.locksOf c.c) false (c.prfFoot l)) = some l := firstLane_some hl hh hb
    rw [hn]
    rfl
  · rw [hf]
    exact if_pos hn
  · have hsc : c.f.e.scope = e.scope := by rw [hf]; rfl
    rw [hsc, if_neg hn, hq]
    rfl
  · rw [hq]
    rfl
  · intro n lo hi meets
    have hex : exec (.icinv e) s = .next (c.leave c.invalidated 0 id none (c.beats + 0)) := by
      refine exec_of_body (e := .go c.invalidated none 0) _ rfl hr ?_
      rw [hq]
      rfl
    refine ⟨_, hex, ?_, fun k x y hx hy => ?_, fun y hy => ?_, fun x l b hx hl hu hb hd hv => ?_⟩
    · rw [cores_leave]
      exact (List.length_map _).trans ((length_drain _ _).trans (length_writeBack _ _ _))
    · rw [core?_leave] at hy
      obtain ⟨z, hz, rfl⟩ := core?_invalidated hy
      have hi := icache_writeBack_drain c.s c.core k fun l => l.meetsRange c.ctx c.range.1 c.range.2.1 c.range.2.2
      rw [hz, hx] at hi
      rw [← Option.some.inj hi]
      rfl
    · rw [core?_leave] at hy
      obtain ⟨z, hz, rfl⟩ := core?_invalidated hy
      refine ⟨empty_drain _ _ z hz, fun l hl hne => ?_⟩
      rw [core?_drain_same] at hz
      obtain ⟨w, hw, rfl⟩ := Option.map_eq_some_iff.mp hz
      have hsel : l.meetsRange c.ctx c.range.1 c.range.2.1 c.range.2.2 = false := by
        cases hc : c.s.core? c.core with
        | none => rw [State.writeBack, hc] at hw; cases hc.symm.trans hw
        | some d =>
          obtain rfl := Option.some.inj ((core?_writeBack_same hc _).symm.trans hw)
          obtain ⟨m, -, rfl⟩ := List.mem_map.mp hl
          have h := (dirty_cleaned hne).1
          rw [cleaned_of_not h]
          exact h
      unfold L1Line.meetsRange at hsel
      split at hsel
      · cases hsel
      · rename_i v hv
        refine ⟨by rw [hv]; rfl, fun u hu hctx => ?_⟩
        obtain rfl := Option.some.inj (hv.symm.trans hu)
        rw [hctx, decide_eq_true rfl, Bool.true_and] at hsel
        exact hsel
    · rw [memByte_leave]
      have hmem : l ∈ x.l1 := List.mem_of_find?_eq_some hl
      have hsel : l.meetsRange c.ctx c.range.1 c.range.2.1 c.range.2.2 = true := by
        rcases hv with hv | ⟨v, hv, hctx, hm⟩
        · rw [L1Line.meetsRange, hv]
        · rw [L1Line.meetsRange, hv, hctx]
          dsimp only
          rw [decide_eq_true rfl, Bool.true_and]
          exact hm
      have h1 : (128 * l.line + b) / 128 = l.line := by omega
      have h2 : (128 * l.line + b) % 128 = b := by omega
      have hbyte : (c.s.l1Byte c.core (128 * l.line + b)).1 = lineByte l.data b := by
        rw [State.l1Byte, hx, Option.bind_some, h1, hl, h2]
      rw [hbyte]
      exact memByte_writeBack_drain _ hx hmem hu hb hd hsel

end Sys2Proof.Machine
end

