-- ==== Sys2Proof/Proofs/Loads.lean ====
section
/-! SUPPORT. Plain loads whose lines are at hand (R4, R173, R202, R209, R365, R366, R369). -/
namespace Sys2Proof.Machine

/-! ## A line of memory, byte by byte -/

theorem fromBytes_div (bs : List Byte) (b : Nat) : fromBytes bs / 2 ^ (8 * b) % 2 ^ 8 = (bs.getD b 0).toNat := by
  induction bs generalizing b with
  | nil => simp [fromBytes]
  | cons x t ih =>
    cases b with
    | zero =>
      have := x.isLt
      simp only [fromBytes, Nat.mul_zero, Nat.pow_zero, Nat.div_one, List.getD_cons_zero]
      omega
    | succ b =>
      have h1 : 2 ^ (8 * (b + 1)) = 256 * 2 ^ (8 * b) := by rw [Nat.mul_add, Nat.pow_add]; omega
      have h2 : (x.toNat + 256 * fromBytes t) / 256 = fromBytes t := by have := x.isLt; omega
      rw [fromBytes, h1, ← Nat.div_div_eq_div_mul, h2, ih, List.getD_cons_succ]

theorem lineByte_lineOf (bs : List Byte) {b : Nat} (hb : b < 128) : lineByte (lineOf bs) b = bs.getD b 0 := by
  refine BitVec.eq_of_getLsbD_eq fun i hi => ?_
  have h : (fromBytes bs).testBit (8 * b + i) = (fromBytes bs / 2 ^ (8 * b) % 2 ^ 8).testBit i := by
    rw [Nat.testBit_mod_two_pow, Nat.testBit_div_two_pow, decide_eq_true hi, Bool.true_and, Nat.add_comm]
  rw [lineByte_getLsbD _ _ _ hi, lineOf, BitVec.getLsbD_ofNat, decide_eq_true (by omega : 8 * b + i < 1024), Bool.true_and, h, fromBytes_div]
  rfl

theorem lineByte_memLine (s : State) (k : Nat) : lineByte (s.memLine (k / 128)) (k % 128) = s.memByte k := by
  have hb : k % 128 < 128 := Nat.mod_lt _ (by decide)
  rw [State.memLine, lineByte_lineOf _ hb, State.readMem, List.getD_eq_getElem?_getD, List.getElem?_map, span, List.getElem?_map,
    List.getElem?_range hb]
  simp only [Option.map_some, Option.getD_some]
  congr 1
  omega

/-! ## Cores but for the virtual lines of L1 -/

/-- From `s` to `t` only L1 lines of one core have forgotten their virtual lines. -/
def Quietly (core : Nat) (s t : State) : Prop :=
  t = { s with cores := t.cores } ∧ t.cores.map Core.plain = s.cores.map Core.plain ∧ ∀ n, n ≠ core → t.core? n = s.core? n

theorem Quietly.refl (core : Nat) (s : State) : Quietly core s s := ⟨rfl, rfl, fun _ _ => rfl⟩

theorem Quietly.trans {core : Nat} {s t u : State} (h : Quietly core s t) (k : Quietly core t u) : Quietly core s u := by
  obtain ⟨h1, h2, h3⟩ := h
  obtain ⟨k1, k2, k3⟩ := k
  refine ⟨?_, k2.trans h2, fun n hn => (k3 n hn).trans (h3 n hn)⟩
  rw [k1, h1]

theorem l1?_plain (k : Core) (n : Nat) : k.plain.l1? n = (k.l1? n).map fun l => { l with vline := none } := by
  rw [Core.l1?, Core.plain, List.find?_map]
  rfl

/-- What L1 gives a key, and whether a line is at hand, are read of the core but for its virtual lines. -/
theorem l1Byte_plain (s : State) (core key : Nat) : s.l1Byte core key =
    match ((s.core? core).map Core.plain).bind fun c => c.l1? (key / 128) with
    | some l => (lineByte l.data (key % 128), l.bad)
    | none => (s.memByte key, s.poisoned (key / 128)) := by
  unfold State.l1Byte
  cases s.core? core with
  | none => rfl
  | some k =>
    simp only [Option.bind_some, Option.map_some, l1?_plain]
    cases k.l1? (key / 128) <;> rfl

theorem kByte_plain (s : State) (core ctx key : Nat) : s.kByte core ctx key =
    match ((s.core? core).map Core.plain).bind fun c => lineIn? c.kcache (key / 128) ctx with
    | some l => (lineByte l.data (key % 128), l.bad)
    | none => (s.memByte key, s.poisoned (key / 128)) := by
  unfold State.kByte
  cases s.core? core <;> rfl

theorem lineAtHand_plain (c : Ctx) (s : State) (line : Nat) : c.lineAtHand s line =
    match (s.core? c.core).map Core.plain with
    | none => false
    | some d => if c.space = .const then (lineIn? d.kcache line c.ctx).isSome else (d.l1? line).isSome := by
  unfold Ctx.lineAtHand
  cases s.core? c.core with
  | none => rfl
  | some k =>
    simp only [Option.map_some, l1?_plain, Option.isSome_map]
    rfl

section
variable {core : Nat} {s t : State} (h : Quietly core s t)
include h

theorem Quietly.sameMem : SameMem s t := by
  rw [h.1]
  exact ⟨rfl, rfl, rfl, rfl⟩

theorem Quietly.core? (n : Nat) : (t.core? n).map Core.plain = (s.core? n).map Core.plain := by
  have h2 := congrArg (·[n]?) h.2.1
  rw [List.getElem?_map, List.getElem?_map] at h2
  exact h2

theorem Quietly.l1Byte (n key : Nat) : t.l1Byte n key = s.l1Byte n key := by
  rw [l1Byte_plain, l1Byte_plain, h.core?, h.sameMem.memByte, h.sameMem.poisoned]

theorem Quietly.kByte (n ctx key : Nat) : t.kByte n ctx key = s.kByte n ctx key := by
  rw [kByte_plain, kByte_plain, h.core?, h.sameMem.memByte, h.sameMem.poisoned]

theorem Quietly.lineAtHand (c : Ctx) (line : Nat) : c.lineAtHand t line = c.lineAtHand s line := by
  rw [lineAtHand_plain, lineAtHand_plain, h.core?]

end

theorem map_modNth_same {α β : Type} (l : List α) (n : Nat) (f : α → α) (g : α → β) (h : ∀ x, g (f x) = g x) : (modNth l n f).map g = l.map g := by
  induction l generalizing n with
  | nil => rfl
  | cons x l ih => cases n <;> simp [modNth, h, ih]

theorem quietly_touchL1 (s : State) (core line ctx vline : Nat) : Quietly core s (s.touchL1 core line ctx vline) := by
  unfold State.touchL1
  split
  · exact .refl _ s
  · split
    · exact .refl _ s
    · refine ⟨rfl, map_modNth_same _ _ _ _ fun k => ?_, fun n hn => core?_modCore_other s _ hn⟩
      simp only [Core.plain, modWhere, List.map_map]
      congr 1
      refine List.map_congr_left fun l _ => ?_
      simp only [Function.comp]
      split <;> rfl

/-! ## Lanes whose lines are at hand -/

section
variable (c : Ctx)

/-- A byte on the path of the load, in a state. -/
def Ctx.seenByte (s : State) (key : Nat) : Byte × Bool := if c.space = .const then s.kByte c.core c.ctx key else s.l1Byte c.core key

theorem Quietly.seenByte {s t : State} (h : Quietly c.core s t) (key : Nat) : c.seenByte t key = c.seenByte s key := by
  rw [Ctx.seenByte, Ctx.seenByte, h.kByte, h.l1Byte]

theorem quietly_fillLines (va : List Nat) (ks : List (Nat × Xlate)) (s : State) (h : ∀ k ∈ ks, c.lineAtHand s (k.1 / 128) = true) :
    Quietly c.core s (c.fillLines s va ks) := by
  unfold Ctx.fillLines
  induction va generalizing ks s with
  | nil => exact .refl _ s
  | cons v va ih =>
    cases ks with
    | nil => exact .refl _ s
    | cons k ks =>
      rw [List.zip_cons_cons, List.foldl_cons]
      have hk := h k List.mem_cons_self
      have h1 : Quietly c.core s (if c.space = .const then s.fillK c.core c.ctx (k.1 / 128) else
          match (s.core? c.core).bind fun d => d.l1? (k.1 / 128) with
          | some _ => s.touchL1 c.core (k.1 / 128) c.ctx (v / 128)
          | none => s.fillL1 c.core (k.1 / 128) c.ctx (v / 128) .crew k.2) := by
        unfold Ctx.lineAtHand at hk
        cases hd : s.core? c.core with
        | none => rw [hd] at hk; cases hk
        | some d =>
          rw [hd] at hk
          dsimp only at hk
          by_cases hsp : c.space = .const
          · rw [if_pos hsp] at hk
            rw [if_pos hsp, State.fillK, hd, Option.bind_some]
            obtain ⟨l, hl⟩ := Option.isSome_iff_exists.mp hk
            rw [hl]
            exact .refl _ s
          · rw [if_neg hsp] at hk
            rw [if_neg hsp, Option.bind_some]
            obtain ⟨l, hl⟩ := Option.isSome_iff_exists.mp hk
            rw [hl]
            exact quietly_touchL1 _ _ _ _ _
      exact h1.trans (ih ks _ fun x hx => (h1.lineAtHand c _).trans (h x (List.mem_cons_of_mem _ hx)))

/-- The bytes of a lane by its keys, as a number. -/
def Ctx.seenBytes (s : State) (y : LaneKeys) : Nat := fromBytes (y.2.map fun k => (c.seenByte s k.1).1)

/-- The keys of a lane find their lines at hand, and no byte of them is uncorrectable. -/
def Ctx.hitKeys (s : State) (ks : List (Nat × Xlate)) : Prop :=
  (∀ k ∈ ks, c.lineAtHand s (k.1 / 128) = true) ∧ ∀ k ∈ ks, (c.seenByte s k.1).2 = false

theorem loadLane_hit (hsp : c.space ≠ .localStore) {s0 s : State} (hq : Quietly c.core s0 s) (l : Nat) {ks : List (Nat × Xlate)}
    (h : c.hitKeys s0 ks) : ∃ t, Quietly c.core s0 t ∧ c.loadLane s l ks = (t, fromBytes (ks.map fun k => (c.seenByte s0 k.1).1), false) := by
  have hf : Quietly c.core s0 (c.fillLines s (c.bytes l) ks) :=
    hq.trans (quietly_fillLines c _ _ s fun k hk => (hq.lineAtHand c _).trans (h.1 k hk))
  refine ⟨_, hf, ?_⟩
  have hb : (ks.map fun k => c.seenByte (c.fillLines s (c.bytes l) ks) k.1) = ks.map fun k => c.seenByte s0 k.1 :=
    List.map_congr_left fun k _ => hf.seenByte c k.1
  rw [Ctx.loadLane, if_neg hsp]
  dsimp only
  rw [show (fun k : Nat × Xlate => if c.space = .const then (c.fillLines s (c.bytes l) ks).kByte c.core c.ctx k.1
    else (c.fillLines s (c.bytes l) ks).l1Byte c.core k.1) = fun k => c.seenByte (c.fillLines s (c.bytes l) ks) k.1 from rfl, hb, List.map_map]
  refine Prod.ext rfl (Prod.ext rfl (List.any_eq_false.mpr fun x hx => ?_))
  obtain ⟨k, hk, rfl⟩ := List.mem_map.mp hx
  exact ne_true_of_eq_false (h.2 k hk)

/-- Lanes that take their values one after the other, none of them uncorrectable. -/
theorem loadLanes_all (v : LaneKeys → Nat) (s0 : State) (lk : List LaneKeys)
    (h : ∀ y ∈ lk, ∀ s, Quietly c.core s0 s → ∃ t, Quietly c.core s0 t ∧ c.loadLane s y.1 y.2 = (t, v y, false)) :
    ∃ t, Quietly c.core s0 t ∧ c.loadLanes s0 lk = (t, lk.map fun y => (y.1, loadPlace c.f.e.ty (v y)), 0) := by
  have key : ∀ (lk : List LaneKeys), (∀ y ∈ lk, ∀ s, Quietly c.core s0 s → ∃ t, Quietly c.core s0 t ∧ c.loadLane s y.1 y.2 = (t, v y, false)) →
      ∀ (s : State) (vals : List (Nat × DWord)), Quietly c.core s0 s →
      ∃ t, Quietly c.core s0 t ∧ lk.foldl
        (fun acc y =>
          let x := c.loadLane acc.1 y.1 y.2
          if x.2.2 then (x.1, acc.2.1, acc.2.2 ||| (1#32 <<< y.1)) else (x.1, acc.2.1 ++ [(y.1, loadPlace c.f.e.ty x.2.1)], acc.2.2))
        (s, vals, 0) = (t, vals ++ lk.map fun y => (y.1, loadPlace c.f.e.ty (v y)), 0) := by
    intro lk
    induction lk with
    | nil => exact fun _ s vals hq => ⟨s, hq, by rw [List.map_nil, List.append_nil]; rfl⟩
    | cons y lk ih =>
      intro h s vals hq
      obtain ⟨t, ht, he⟩ := h y List.mem_cons_self s hq
      obtain ⟨u, hu, hx⟩ := ih (fun z hz => h z (List.mem_cons_of_mem _ hz)) t (vals ++ [(y.1, loadPlace c.f.e.ty (v y))]) ht
      refine ⟨u, hu, ?_⟩
      rw [List.foldl_cons, List.map_cons]
      dsimp only
      rw [he]
      dsimp only
      rw [if_neg Bool.false_ne_true, hx, List.append_assoc]
      rfl
  exact key lk h s0 [] (.refl _ _)

theorem lowest_tlbKeys (s : State) (m : Mask) : lowest (maskOf fun l => (c.tlbKeys s m).any fun y => y.1 = l) = lowest m := by
  have h : (maskOf fun l => (c.tlbKeys s m).any fun y => y.1 = l) = m := by
    refine mask_ext fun l hl => ?_
    rw [hasLane_maskOf, decide_eq_true hl, Bool.true_and, Bool.eq_iff_iff, List.any_eq_true]
    simp [Ctx.tlbKeys]
  rw [h]

/-- The lanes of a load, performed one after the other. -/
theorem performLoad_all (v : LaneKeys → Nat) (s0 : State)
    (h : ∀ l, hasLane c.act l = true → ∀ s, Quietly c.core s0 s → ∃ t, Quietly c.core s0 t ∧
      c.loadLane s l ((c.keys? s0 .read l).getD []) = (t, v (l, (c.keys? s0 .read l).getD []), false)) :
    ∃ t, Quietly c.core s0 t ∧ c.performLoad s0 c.act = c.writeLoaded t (takenFor c.f.e.d c.low
      ((lanesOf c.act).map fun l => (l, loadPlace c.f.e.ty (v (l, (c.keys? s0 .read l).getD []))))) := by
  obtain ⟨t, ht, he⟩ := loadLanes_all c v s0 (c.tlbKeys s0 c.act) fun y hy => by
    obtain ⟨l, hl, rfl⟩ := List.mem_map.mp hy
    exact h l (mem_lanesOf.mp hl)
  refine ⟨t, ht, ?_⟩
  rw [Ctx.tlbKeys, List.map_map] at he
  rw [Ctx.performLoad, Ctx.performKeys, lowest_tlbKeys, Ctx.tlbKeys, he]
  rfl

/-- The lanes of a load whose lines are at hand, performed. -/
theorem performLoad_hit (hsp : c.space ≠ .localStore) (s0 : State)
    (h : ∀ l, hasLane c.act l = true → c.hitKeys s0 ((c.keys? s0 .read l).getD [])) :
    ∃ t, Quietly c.core s0 t ∧ c.performLoad s0 c.act = c.writeLoaded t (takenFor c.f.e.d c.low
      ((lanesOf c.act).map fun l => (l, loadPlace c.f.e.ty (c.seenBytes s0 (l, (c.keys? s0 .read l).getD []))))) :=
  performLoad_all c (c.seenBytes s0) s0 fun l hl _ hq => loadLane_hit c hsp hq l (h l hl)

/-- The lanes of a load of the local store, performed. -/
theorem performLoad_local (hsp : c.space = .localStore) (hc : c.s.crew? c.r.crew = some c.c) :
    ∃ t, Quietly c.core c.s t ∧
      c.performLoad c.s c.act = c.writeLoaded t (takenFor c.f.e.d c.low ((lanesOf c.act).map fun l => (l, c.loadedLocal l))) := by
  refine performLoad_all c (fun y => fromBytes ((span (c.ea y.1).toNat c.size).map (SMap.look 0 c.c.store))) c.s fun l _ s hq => ⟨s, hq, ?_⟩
  have hcs : s.crew? c.r.crew = some c.c := by rw [← hc, hq.1]; rfl
  have hb : c.bytes l = span (c.ea l).toNat c.size := by
    unfold Ctx.bytes
    rw [hsp]
    rfl
  rw [Ctx.loadLane, if_pos hsp, hb, hcs]

end

/-! ## The end of a plain load -/

/-- The state after a load that has written its values. -/
def Ctx.loadEnd (c : Ctx) (t : State) (x : Nat → DWord) : State :=
  c.leave (c.writeLoaded t (takenFor c.f.e.d c.low ((lanesOf c.act).map fun l => (l, x l)))) 0 id none (c.beats + c.grow)

theorem Strand.RegsOnly.held {t u : Strand} (h : t.RegsOnly u) : u.fp = t.fp ∧ u.inflight = t.inflight ∧ Strand.sameHeld t u := by
  obtain ⟨_, _, _, _, rfl⟩ := h
  exact ⟨rfl, rfl, rfl, rfl, rfl, rfl, rfl, rfl, rfl, rfl, rfl, rfl⟩

theorem regsOnly_put (t : Strand) (w : RegWrite) : t.RegsOnly (t.put w) := regsOnly_writeD _ _ _ _ _

section
variable {f : Form} {s : State} {c : Ctx} (hr : Runs s f c) {t : State}
include hr

/-- The strand of a load that has written its values. -/
theorem loadEnd_strand (ht : t.strand? c.r = some c.t) (x : Nat → DWord) :
    ∃ u, (c.loadEnd t x).strand? c.r = some u ∧ Wrote f.e.d f.dstWide c.act x u ∧ OnlyWrote f.e.d f.dstWide c.act c.t u ∧ u.fp = c.t.fp ∧
      u.inflight = c.t.inflight ∧ Strand.sameHeld c.t u := by
  obtain ⟨-, -, -, hf, -, ha⟩ := hr.spec
  subst hf
  obtain ⟨hw, ho⟩ := wrote_lanes ha c.f.e.d c.f.dstWide c.t x
  have hst : (c.writeLoaded t (takenFor c.f.e.d c.low ((lanesOf c.act).map fun l => (l, x l)))).strand? c.r =
      some (c.t.put (lanesWrite c.f.e.d c.f.dstWide (takenFor c.f.e.d c.low ((lanesOf c.act).map fun l => (l, x l))))) := by
    rw [writeLoaded_eq, Ctx.onStrand, strand?_modStrand_same _ _ _ fun t => put_idx t _, ht]
    rfl
  obtain ⟨a, b, d, hu⟩ := leave_strand c _ _ id none (c.beats + c.grow) hst
  exact ⟨_, hu, hw.same ⟨rfl, rfl, rfl, rfl⟩, ho.same ⟨rfl, rfl, rfl, rfl⟩, (regsOnly_put c.t _).held⟩

end

theorem frameOf_loadEnd (c : Ctx) (t : State) (x : Nat → DWord) : FrameOf c.r t (c.loadEnd t x) :=
  (FrameOf.modStrand c.r t _ fun t => put_idx t _).trans (FrameOf.leave c _ _ _ _)

theorem cores_loadEnd (c : Ctx) (t : State) (x : Nat → DWord) : (c.loadEnd t x).cores = t.cores := by
  obtain ⟨⟨_, _, _, _, _, h⟩, -, -⟩ := frameOf_loadEnd c t x
  rw [h]

theorem memByte_loadEnd (c : Ctx) (t : State) (x : Nat → DWord) (k : Nat) : (c.loadEnd t x).memByte k = t.memByte k := by
  obtain ⟨h1, h2⟩ := (frameOf_loadEnd c t x).mem
  exact memByte_congr h1 h2 k

/-- A load that writes its values, L1 lines alone having forgotten their virtual lines. -/
theorem loads_of {i : Instr} {f : Form} {ok : Ctx → Prop} {x : Ctx → Nat → DWord}
    (h : ∀ s c, Runs s f c → ok c → ∃ t, Quietly c.core c.s t ∧ exec i s = .next (c.loadEnd t (x c))) : Loads i f ok x := by
  intro s c hr hok
  obtain ⟨t, hq, he⟩ := h s c hr hok
  have hst : t.strand? c.r = some c.t := by rw [← hr.spec.2.2.1, hq.1]; rfl
  obtain ⟨u, hu, hw, ho, hfp, hin, hh⟩ := loadEnd_strand hr hst (x c)
  refine ⟨_, u, he, hu, hw, ho, hfp, hin, hh, fun key => ?_, fun hn key => hr.memByte hn key, ?_, ?_⟩
  · rw [memByte_loadEnd, hq.sameMem.memByte]
  · rw [cores_loadEnd, ← hq.1]
    exact frameOf_loadEnd c t _
  · rw [cores_loadEnd]
    exact hq.2.1

/-! ## Loads that hit -/

theorem seenByte_here (c : Ctx) : c.seenByte c.s = c.pathByte := rfl

theorem hitKeys_of_lanesIn {c : Ctx} (h : c.lanesIn) {l : Nat} (hl : hasLane c.act l = true) : c.hitKeys c.s ((c.keys? c.s .read l).getD []) := by
  obtain ⟨ks, hks, ha, hb⟩ := h.2 l hl
  rw [hks]
  exact ⟨fun k hk => List.all_eq_true.mp ha k hk, hb⟩

theorem allAtHand {c : Ctx} (h : c.lanesIn) :
    ((lanesOf c.act).all fun l => match c.keys? c.s .read l with | some ks => c.atHand ks | none => false) = true := by
  refine List.all_eq_true.mpr fun l hl => ?_
  obtain ⟨ks, hks, ha, -⟩ := h.2 l (mem_lanesOf.mp hl)
  rw [hks]
  exact ha

/-- A load whose lines are at hand is performed at once. -/
theorem loadGo_hit {c : Ctx} (h : c.linesAtHand) : loadGo c = .go (c.loadOrdered c.s c.throughUniversal c.act) none c.grow := by
  rw [loadGo, h.1, if_neg Bool.false_ne_true]
  refine (if_pos (Bool.or_eq_true_iff.mpr (.inr (allAtHand h.2)))).trans ?_
  rw [decide_eq_true h.2.1, Bool.and_true]

theorem loadGo_local {c : Ctx} (ho : c.overlaps = false) (hs : c.space = .localStore) :
    loadGo c = .go (c.performLoad c.s c.act) none c.grow := by
  rw [loadGo, ho, if_neg Bool.false_ne_true, if_pos (by rw [decide_eq_true hs, Bool.true_or]), Ctx.loadOrdered, hs]
  simp

theorem loads_hit {i : Instr} {f : Form} {ok : Ctx → Prop} (body : Ctx → Eff) (he : ∀ s, exec i s = issue f body s)
    (hb : ∀ s c, Runs s f c → ok c → body c = loadGo c ∧ c.linesAtHand ∧ c.throughUniversal = false) : Loads i f ok Ctx.loaded := by
  refine loads_of fun s c hr hok => ?_
  obtain ⟨h1, h2, h3⟩ := hb s c hr hok
  obtain ⟨t, hq, ht⟩ := performLoad_hit c h2.2.1 c.s fun l hl => hitKeys_of_lanesIn h2.2 hl
  refine ⟨t, hq, ?_⟩
  rw [exec_of_body body (he s) hr (h1.trans (loadGo_hit h2)), h3, Ctx.loadOrdered, Bool.false_and, if_neg Bool.false_ne_true, ht]
  rfl

theorem loads_local {i : Instr} {f : Form} {ok : Ctx → Prop} (body : Ctx → Eff) (he : ∀ s, exec i s = issue f body s)
    (hb : ∀ s c, Runs s f c → ok c → body c = loadGo c ∧ c.overlaps = false ∧ c.space = .localStore) : Loads i f ok Ctx.loadedLocal := by
  refine loads_of fun s c hr hok => ?_
  obtain ⟨h1, h2, h3⟩ := hb s c hr hok
  obtain ⟨t, hq, ht⟩ := performLoad_local c h3 hr.spec.2.1
  refine ⟨t, hq, ?_⟩
  rw [exec_of_body body (he s) hr (h1.trans (loadGo_local h2 h3)), ht]
  rfl

theorem op_ofLong {op : Nat} (f : Long) : (Form.ofLong op f).op = op := by cases f <;> rfl

theorem loadBody_go {c : Ctx} (h : c.accessTrap false = none) : loadBody c = loadGo c := by rw [loadBody, h]

theorem loads_plain {i : Instr} {f : Form} (he : ∀ s, exec i s = issue f loadBody s) (op : Nat) (hop : f.op = op) (h1 : op ≠ 0x88)
    (h2 : op ≠ 0x89) :
    Loads i f (fun c => c.accessTrap false = none ∧ c.linesAtHand) Ctx.loaded := by
  refine loads_hit loadBody he fun s c hr ⟨ht, hl⟩ => ⟨loadBody_go ht, hl, ?_⟩
  rw [Ctx.throughUniversal, hr.spec.2.2.2.1, hop, decide_eq_false h1, decide_eq_false h2]
  rfl

theorem loads_store {i : Instr} {f : Form} (he : ∀ s, exec i s = issue f loadBody s) (h1 : f.op = 0x71) :
    Loads i f (fun c => c.accessTrap false = none ∧ c.overlaps = false) Ctx.loadedLocal :=
  loads_local loadBody he fun s c hr ⟨ht, hl⟩ => ⟨loadBody_go ht, hl, by simp [Ctx.space, hr.spec.2.2.2.1, h1]⟩

theorem space_view {c : Ctx} {v : View} (hop : c.f.op = 0x88) (hf : c.flying = false) (hv : c.view? = some v) :
    c.space = if v.isLocal then .localStore else .global := by
  unfold Ctx.space
  rw [hop, hf, hv]
  rfl

/-! ## Through a universal view -/

/-- The core once all it has stored has reached memory and its L1 has been read again. -/
theorem core?_settleCore {s : State} {core : Nat} {k : Core} (h : s.core? core = some k) : (s.settleCore core).core? core = some { k with
    outbox := [], l1 := k.l1.map fun l => L1Line.renew ((s.flushCore core).drain core) (l.cleaned fun _ => true) } := by
  rw [State.settleCore, State.refresh, core?_modCore_same, core?_drain_same, State.flushCore, core?_drain_same, core?_writeBack_same h]
  simp only [Option.map_some, modWhere, List.map_map, if_true]
  rfl

theorem core?_settleCore_other (s : State) {core n : Nat} (h : n ≠ core) : (s.settleCore core).core? n = s.core? n := by
  rw [State.settleCore, State.refresh, core?_modCore_other _ _ h, core?_drain_other _ h, State.flushCore, core?_drain_other _ h,
    core?_writeBack_other _ _ h]

theorem core?_settleCore_none {s : State} {core : Nat} (h : s.core? core = none) : (s.settleCore core).core? core = none := by
  have hw : (s.writeBack core fun _ => true).core? core = none := by rw [State.writeBack, h]; exact h
  rw [State.settleCore, State.refresh, core?_modCore_same, core?_drain_same, State.flushCore, core?_drain_same, hw]
  rfl

/-- A second drain carries nothing. -/
theorem sameMem_drain_flush (s : State) (core : Nat) : SameMem (s.flushCore core) ((s.flushCore core).drain core) := by
  cases hc : (s.flushCore core).core? core with
  | none => rw [State.drain, hc]; exact .refl _
  | some c =>
    have h := sameMem_drain hc
    rwa [empty_drain _ _ c hc] at h

theorem sameMem_settleCore (s : State) (core : Nat) : SameMem (s.flushCore core) (s.settleCore core) :=
  (sameMem_drain_flush s core).trans (sameMem_modCore _ _ _)

theorem dirty_cleaned_all (l : L1Line) : (l.cleaned fun _ => true).dirty = 0 := by
  unfold L1Line.cleaned
  split
  · rfl
  · rename_i h
    simpa using h

theorem maskBytes_zero : maskBytes 0 = [] := by decide

theorem renew_cleaned (s : State) (l : L1Line) : L1Line.renew s (l.cleaned fun _ => true) =
    { l.cleaned fun _ => true with data := s.memLine l.line, bad := s.poisoned l.line } := by
  unfold L1Line.renew
  rw [dirty_cleaned_all, maskBytes_zero, line_cleaned]
  simp [line_cleaned, dirty_cleaned_all]

theorem dies_drain (s : State) (core : Nat) : (s.drain core).dies = s.dies := by
  unfold State.drain
  split
  · rfl
  · exact (onlyMem_foldl_perform _ s).dies

theorem dies_writeBack (s : State) (core : Nat) (sel : L1Line → Bool) : (s.writeBack core sel).dies = s.dies := by
  unfold State.writeBack
  split <;> rfl

theorem dies_settleCore (s : State) (core : Nat) : (s.settleCore core).dies = s.dies :=
  (dies_drain _ _).trans ((dies_drain _ _).trans (dies_writeBack _ _ _))

/-- Translations are read of the TLBs alone. -/
theorem keys?_congr (c : Ctx) {s t : State} (hc : (t.core? c.core).map Core.tlb = (s.core? c.core).map Core.tlb) (hd : t.dies = s.dies)
    (a : Right) (l : Nat) : c.keys? t a l = c.keys? s a l := by
  have h : ∀ va, t.tlbLook c.core c.ctx va a = s.tlbLook c.core c.ctx va a := fun va => by
    have hb (u : State) : ((u.core? c.core).bind fun d => tlbFind d.tlb c.ctx va a) =
        ((u.core? c.core).map Core.tlb).bind fun d => tlbFind d c.ctx va a := by cases u.core? c.core <;> rfl
    rw [State.tlbLook, State.tlbLook, hb, hb, hc, State.die?, State.die?, hd]
  unfold Ctx.keys?
  simp only [h]

/-- What a load reads of L1 once the core has been settled is what memory then holds. -/
theorem seenByte_settled {c : Ctx} (hs : c.space = .global) {k : Nat}
    (hp : (c.s.flushCore c.core).poisoned (k / 128) = false) :
    c.seenByte (c.s.settleCore c.core) k = ((c.s.flushCore c.core).memByte k, false) := by
  have hm := sameMem_settleCore c.s c.core
  have hmd := sameMem_drain_flush c.s c.core
  rw [Ctx.seenByte, hs, if_neg (by decide), State.l1Byte]
  cases hd : c.s.core? c.core with
  | none =>
    rw [core?_settleCore_none hd, Option.bind_none]
    dsimp only
    rw [hm.memByte, hm.poisoned, hp]
  | some d =>
    rw [core?_settleCore hd, Option.bind_some]
    cases hl : Core.l1? _ (k / 128) with
    | none =>
      dsimp only
      rw [hm.memByte, hm.poisoned, hp]
    | some l =>
      obtain ⟨m, -, rfl⟩ := List.mem_map.mp (List.mem_of_find?_eq_some hl)
      have hline := List.find?_some hl
      rw [renew_cleaned] at hline ⊢
      dsimp only at hline ⊢
      rw [line_cleaned, decide_eq_true_eq] at hline
      rw [hline, lineByte_memLine, hmd.memByte, hmd.poisoned, hp]

theorem lineAtHand_settled {c : Ctx} (hs : c.space = .global) {n : Nat} (h : c.lineAtHand c.s n = true) :
    c.lineAtHand (c.s.settleCore c.core) n = true := by
  unfold Ctx.lineAtHand at h ⊢
  cases hd : c.s.core? c.core with
  | none => rw [hd] at h; cases h
  | some d =>
    rw [hd] at h
    rw [core?_settleCore hd]
    dsimp only at h ⊢
    rw [hs, if_neg (by decide)] at h ⊢
    rw [Core.l1?, List.find?_isSome] at h ⊢
    obtain ⟨l, hl, he⟩ := h
    refine ⟨_, List.mem_map_of_mem hl, ?_⟩
    rw [renew_cleaned]
    dsimp only
    rwa [line_cleaned]

theorem keys?_settled (c : Ctx) (a : Right) (l : Nat) : c.keys? (c.s.settleCore c.core) a l = c.keys? c.s a l := by
  refine keys?_congr c ?_ (dies_settleCore _ _) a l
  cases hd : c.s.core? c.core with
  | none => rw [core?_settleCore_none hd]
  | some d => rw [core?_settleCore hd]; rfl

/-- Nothing is on its way from a settled core, and nothing in its L1 is dirty. -/
theorem settled_clean_core (s : State) (core : Nat) {k : Core} (h : (s.settleCore core).core? core = some k) :
    k.outbox = [] ∧ ∀ l ∈ k.l1, l.dirty = 0 := by
  cases hd : s.core? core with
  | none => rw [core?_settleCore_none hd] at h; cases h
  | some d =>
    rw [core?_settleCore hd] at h
    obtain rfl := Option.some.inj h
    refine ⟨rfl, fun l hl => ?_⟩
    obtain ⟨m, -, rfl⟩ := List.mem_map.mp hl
    rw [renew_cleaned]
    exact dirty_cleaned_all m

/-- L1 lines that forget their virtual lines stay clean. -/
theorem Quietly.clean {core : Nat} {s t : State} (h : Quietly core s t)
    (hs : ∀ k, s.core? core = some k → k.outbox = [] ∧ ∀ l ∈ k.l1, l.dirty = 0) {k : Core} (hk : t.core? core = some k) :
    k.outbox = [] ∧ ∀ l ∈ k.l1, l.dirty = 0 := by
  have h2 := h.core? core
  rw [hk] at h2
  obtain ⟨d, hd, he⟩ := Option.map_eq_some_iff.mp h2.symm
  obtain ⟨h3, h4⟩ := hs d hd
  refine ⟨(congrArg Core.outbox he).symm.trans h3, fun l hl => ?_⟩
  have hl1 : ({ l with vline := none } : L1Line) ∈ d.plain.l1 := by
    rw [he]
    exact List.mem_map_of_mem (f := fun l : L1Line => { l with vline := none }) hl
  obtain ⟨m, hm, hx⟩ := List.mem_map.mp hl1
  exact (congrArg L1Line.dirty hx).symm.trans (h4 m hm)

/-- A load through a universal view whose lines are at hand: what the core has stored is in memory, and the values are read there. -/
theorem universal_load {e : Ext} {s : State} {c : Ctx} {v : View} (hr : Runs s (Form.ofExt 0x88 e) c) (hv : c.view? = some v)
    (ht : c.viewAccessTrap v false = none) (hu : c.throughUniversal = true) (hloc : v.isLocal = false) (hl : c.linesAtHand)
    (hp : ∀ l, hasLane c.act l = true → ∀ ks, c.keys? c.s .read l = some ks → ∀ k ∈ ks, (c.s.flushCore c.core).poisoned (k.1 / 128) = false) :
    ∃ t, Quietly c.core (c.s.settleCore c.core) t ∧ exec (.ldv e) s = .next (c.loadEnd t fun l =>
      loadPlace e.ty (fromBytes (((c.keys? c.s .read l).getD []).map fun k => (c.s.flushCore c.core).memByte k.1))) := by
  obtain ⟨-, -, -, hf, hfl, ha⟩ := hr.spec
  have hsp : c.space = .global := by rw [space_view (by rw [hf]; rfl) hfl hv, hloc]; rfl
  have hsee : ∀ l, hasLane c.act l = true → ∀ k ∈ (c.keys? c.s .read l).getD [],
      c.seenByte (c.s.settleCore c.core) k.1 = ((c.s.flushCore c.core).memByte k.1, false) := by
    intro l hla k hk
    obtain ⟨ks, hks, -, -⟩ := hl.2.2 l hla
    rw [hks] at hk
    exact seenByte_settled hsp (hp l hla ks hks k hk)
  obtain ⟨t, hq, hx⟩ := performLoad_hit c hl.2.1 (c.s.settleCore c.core) fun l hla => by
    rw [keys?_settled]
    exact ⟨fun k hk => lineAtHand_settled hsp ((hitKeys_of_lanesIn hl.2 hla).1 k hk), fun k hk => by rw [hsee l hla k hk]⟩
  refine ⟨t, hq, ?_⟩
  have hb : (c.withView fun v => match c.viewAccessTrap v false with
      | some (t, a, l) => c.raise t a l
      | none => loadGo c) = loadGo c := by rw [withView_some hv, ht]
  rw [exec_of_body _ rfl hr (hb.trans (loadGo_hit hl)), hu, Ctx.loadOrdered, decide_eq_true ha, Bool.and_true, if_pos rfl, hx]
  have he : ((lanesOf c.act).map fun l => (l, loadPlace c.f.e.ty (c.seenBytes (c.s.settleCore c.core)
      (l, (c.keys? (c.s.settleCore c.core) .read l).getD [])))) = (lanesOf c.act).map fun l =>
      (l, loadPlace e.ty (fromBytes (((c.keys? c.s .read l).getD []).map fun k => (c.s.flushCore c.core).memByte k.1))) := by
    refine List.map_congr_left fun l hla => ?_
    rw [keys?_settled, Ctx.seenBytes, hf]
    exact congrArg (fun b => (l, loadPlace e.ty (fromBytes b)))
      (List.map_congr_left fun k hk => congrArg Prod.fst (hsee l (mem_lanesOf.mp hla) k hk))
  rw [he]
  rfl

theorem withView_load {c : Ctx} {v : View} (hv : c.view? = some v) (ht : c.viewAccessTrap v false = none) :
    (c.withView fun v => match c.viewAccessTrap v false with
      | some (t, a, l) => c.raise t a l
      | none => loadGo c) = loadGo c := by rw [withView_some hv, ht]

theorem strand?_settleCore (s : State) (core : Nat) (r : StrandRef) : (s.settleCore core).strand? r = s.strand? r :=
  ((memSide_writeBack s core _).trans ((memSide_drain _ core).trans (memSide_refresh _ core _))).strand? r

/-- Settles O21: by the form's path; through a universal view in the state whose core has been settled. -/
theorem plainLoads : Obligations.PlainLoads := by
  refine ⟨fun b => loads_plain (fun _ => rfl) 0x70 rfl (by decide) (by decide), fun b => loads_plain (fun _ => rfl) 0x70 (op_ofLong b) (by decide) (by decide),
    fun b => loads_plain (fun _ => rfl) 0x72 rfl (by decide) (by decide), fun b => loads_plain (fun _ => rfl) 0x72 (op_ofLong b) (by decide) (by decide),
    fun b => loads_plain (fun _ => rfl) 0x73 rfl (by decide) (by decide), fun b => loads_plain (fun _ => rfl) 0x73 (op_ofLong b) (by decide) (by decide),
    fun b => loads_store (fun _ => rfl) rfl, fun b => loads_store (fun _ => rfl) (op_ofLong b), fun e => ?_, fun e => ?_, ?_⟩
  · refine loads_hit _ (fun _ => rfl) fun s c hr ⟨hu, v, hv, ht, hloc, hl⟩ => ⟨withView_load hv ht, hl, hu⟩
  · refine loads_local _ (fun _ => rfl) fun s c hr ⟨v, hv, ht, hloc, ho⟩ => ⟨withView_load hv ht, ho, ?_⟩
    obtain ⟨-, -, -, hf, hfl, -⟩ := hr.spec
    rw [space_view (by rw [hf]; rfl) hfl hv, hloc]
    rfl
  · intro e s c v hr hv ht hu hloc hl seen hp
    obtain ⟨t, hq, he⟩ := universal_load hr hv ht hu hloc hl hp
    have hst : t.strand? c.r = some c.t := by
      rw [show t.strand? c.r = (c.s.settleCore c.core).strand? c.r by rw [hq.1]; rfl, strand?_settleCore]
      exact hr.spec.2.2.1
    obtain ⟨u, hu, hw, ho, hfp, hin, -⟩ := loadEnd_strand hr hst _
    refine ⟨_, u, he, hu, hw, ho, hfp, hin, fun key => ?_, fun n hn => ?_, fun k hk => ?_⟩
    · rw [memByte_loadEnd, hq.sameMem.memByte]
      exact (sameMem_settleCore c.s c.core).memByte key
    · rw [core?_of_cores (cores_loadEnd c t _), hq.2.2 n hn, core?_settleCore_other _ hn]
    · rw [core?_of_cores (cores_loadEnd c t _)] at hk
      exact hq.clean (fun d hd => settled_clean_core _ _ hd) hk

end Sys2Proof.Machine
end

