-- ==== Sys2Proof/Proofs/Calls.lean ====
section
/-! SUPPORT. CALL, CALLX and RET on the call stack (R328, R329, R393). -/
namespace Sys2Proof.Machine

section
variable {c : Ctx}

/-- The return addresses of some lanes stored on their call stacks. -/
def Ctx.pushLanes (c : Ctx) (m : Mask) (s : State) : State :=
  (lanesOf m).foldl
    (fun s l => c.storeKeys s (c.bytes l) ((c.keys? s .write l).getD []) (toBytes 4 (c.next.setWidth 64 : DWord).toNat)) s

theorem performStore_call (hop : c.f.op = 0x03 ∨ c.f.op = 0x04) (m : Mask) (s : State) : c.performStore s m = c.pushLanes m s := by
  have h : c.storeLane = fun s l =>
      c.storeKeys s (c.bytes l) ((c.keys? s .write l).getD []) (toBytes 4 (c.next.setWidth 64 : DWord).toNat) := by
    funext s l
    rcases hop with hop | hop <;> simp [Ctx.storeLane, Ctx.space, Ctx.size, Ctx.stored, hop]
  rw [Ctx.performStore, h, Ctx.pushLanes]

/-- The return addresses of a call pushed: those of the translated lanes are stored, the others fly. -/
def Ctx.pushed (c : Ctx) : State :=
  let ready := c.mapped c.s .write c.act
  let s := c.pushLanes ready c.s
  if ready = c.act then s else c.launchFlight s (c.act &&& ~~~ready) .outstanding

theorem storeGo_call (hop : c.f.op = 0x03 ∨ c.f.op = 0x04) (ho : c.overlaps = false) : storeGo c = .go c.pushed none 0 := by
  have hs : c.space ≠ .localStore := by rcases hop with hop | hop <;> simp [Ctx.space, hop]
  have hu : c.throughUniversal = false := by rcases hop with hop | hop <;> simp [Ctx.throughUniversal, hop]
  rw [storeGo, ho, if_neg Bool.false_ne_true, if_neg hs]
  dsimp only
  rw [Ctx.storeOrdered, hu, Bool.false_and, if_neg Bool.false_ne_true, performStore_call hop, Ctx.pushed]
  split <;> rfl

theorem callTrap_none {reg : Bool} (h1 : ∀ l, hasLane c.act l = true → 4 ≤ c.cp l ∧ c.locked true l = false)
    (h2 : ∀ l, hasLane c.act l = true → (reg && c.oddTarget l) = false) : c.callTrap reg = none := by
  have hf : firstLane c.act (fun l => (reg && c.oddTarget l) || decide (c.cp l < 4)) = none :=
    firstLane_none fun l hl => by rw [h2 l hl, Bool.false_or]; exact decide_eq_false (by have := (h1 l hl).1; omega)
  have hl : firstLane c.act (c.locked true) = none := firstLane_none fun l hl => (h1 l hl).2
  rw [Ctx.callTrap, hf, hl]
  rfl

/-- A call that passes its checks pushes and branches. -/
theorem callBody_go {reg : Bool} {dst : Ctx → Nat → Word} (hop : c.f.op = 0x03 ∨ c.f.op = 0x04) (hh : c.half = false)
    (ht : c.callTrap reg = none) (ho : c.overlaps = false) : callBody reg dst c = .go (c.moveCp c.pushed 4) (some (dst c)) 0 := by
  rw [callBody, hh, if_neg Bool.false_ne_true, ht, storeGo_call hop ho]

end

/-- Settles O30: the checks pass, then the push and the branch, or the load and the branch. -/
theorem callsAndReturns : Obligations.CallsAndReturns := by
  refine ⟨fun g off s c hr hh h ho => ?_, fun g x s c hr hh h ho => ?_, fun e s c hr hh h ho => ?_, fun g off s c l hr hh hl hc hb => ?_,
    fun g s c s' lk hr h ho hl he => ?_⟩
  · have hop : c.f.op = 0x03 := by rw [hr.spec.2.2.2.1]; rfl
    rw [exec_of_body _ rfl hr (callBody_go (.inl hop) hh (callTrap_none h fun _ _ => rfl) ho)]
    have hd : (c.rel (offBytes off)) = fun _ => c.iss.pc + BitVec.ofInt 32 (4 * off.toInt) := by
      funext
      rw [Ctx.rel, offBytes, signExtend_shl_two]
    rw [hd]
    rfl
  · have hop : c.f.op = 0x03 := by rw [hr.spec.2.2.2.1]; rfl
    rw [exec_of_body _ rfl hr (callBody_go (.inl hop) hh (callTrap_none h fun _ _ => rfl) ho)]
    rfl
  · have hop : c.f.op = 0x04 := by rw [hr.spec.2.2.2.1]; rfl
    have ht : c.callTrap true = none := callTrap_none (fun l hl => ⟨(h l hl).1, (h l hl).2.1⟩) fun l hl => by
      rw [Bool.true_and]
      exact decide_eq_false (not_not.mpr (h l hl).2.2)
    rw [exec_of_body _ rfl hr (callBody_go (.inr hop) hh ht ho)]
    rfl
  · have hf : firstLane c.act (fun l => (false && c.oddTarget l) || decide (c.cp l < 4)) = some l :=
      firstLane_some hl (decide_eq_true hc) fun k hk hkl => decide_eq_false (by have := hb k hk hkl; omega)
    refine exec_of_trap _ rfl hr ?_
    rw [callBody, hh, if_neg Bool.false_ne_true, Ctx.callTrap, hf]
    rfl
  · have h1 : firstLane c.act (fun l => decide ((c.g.header.privBytes : Int) < c.cp l + 4)) = none :=
      firstLane_none fun l hl => decide_eq_false (by have := (h l hl).1; omega)
    have h2 : firstLane c.act (c.locked false) = none := firstLane_none fun l hl => (h l hl).2
    have hret : exec (.ret g) s = .next (c.settle 0 (retLanes c s' lk)) := by
      refine exec_of_body _ rfl hr ?_
      rw [h1, h2]
      dsimp only
      rw [ho, if_neg Bool.false_ne_true, Ctx.whole]
      rw [show c.translateLanes c.s .read c.bytes (lanesOf c.act) = (s', .inl lk) from hl]
      exact if_pos he
    intro x dst
    refine ⟨fun hz hodd => ?_, fun hz => ?_⟩
    · have h3 : firstLane c.act (fun l => decide ((dst l).toNat % 4 ≠ 0)) = none :=
        firstLane_none fun l hl => decide_eq_false (not_not.mpr (hodd l hl))
      have hx : retLanes c s' lk = .go (c.moveCp x.1 (-4)) (some dst) 0 := by
        refine (if_neg (not_not.mpr hz)).trans ?_
        rw [h3]
      rw [hret, hx]
      rfl
    · rw [hret, show retLanes c s' lk = .done _ from if_pos hz]
      rfl

end Sys2Proof.Machine
end

