-- ==== Sys2Proof/Proofs/Views.lean ====
section
/-! SUPPORT. View registers and flag words (R206 to R211, R270, R410). -/
namespace Sys2Proof.Machine

section
variable {c : Ctx}

@[simp] theorem again_viewLocked : c.again.viewLocked = c.viewLocked := by rw [again_eq]; rfl
@[simp] theorem again_view? : c.again.view? = c.view? := by rw [again_eq]; rfl
@[simp] theorem again_releaseOver (s : State) (v : View) : c.again.releaseOver s v = c.releaseOver s v := by rw [again_eq]; rfl

theorem again_setView (x s : State) (v : Option View) : ({ c.again with s := x } : Ctx).setView s v = c.setView s v := by rw [again_eq]; rfl

/-! ## VRET -/

/-- VRET on a live, unlocked view passes its checks and stores its flag once the release is done. -/
theorem vretBody_go {v : View} (hv : c.view? = some v) (hl : c.viewLocked = false) (ha : c.again.ea c.low % 4 = 0)
    (hk : c.again.locked true c.low = false) (hq : c.quiet = true) : vretBody c = c.again.flagFly (c.releaseOver c.s v) := by
  rw [vretBody]
  rw [withView_some (by rw [again_view?, hv]), again_viewLocked, hl, if_neg Bool.false_ne_true, Ctx.flagTrap, again_low, if_neg (not_not.mpr ha), hk,
    if_neg Bool.false_ne_true]
  dsimp only
  rw [again_quiet, hq, Bool.not_true, if_neg Bool.false_ne_true, again_releaseOver, again_s]

theorem vretBody_locked {v : View} (hv : c.view? = some v) (hl : c.viewLocked = false) (ha : c.again.ea c.low % 4 = 0)
    (hk : c.again.locked true c.low = true) :
    vretBody c = .trap .viewLocked (BitVec.ofInt 64 (c.again.ea c.low)) c.low c.s := by
  rw [vretBody]
  rw [withView_some (by rw [again_view?, hv]), again_viewLocked, hl, if_neg Bool.false_ne_true, Ctx.flagTrap, again_low, if_neg (not_not.mpr ha), hk,
    if_pos rfl]
  dsimp only
  rw [Ctx.raise, again_s]

/-- The flag's store of one translated lane at its scope, and the drop of the view. -/
theorem flagStore_one {s : State} {ks : List (Nat × Xlate)} (hs : c.scopeFail s [(c.low, ks)] = none) :
    flagStore c s [(c.low, ks)] = .go (c.setView (if beyondL1 c.f.e.scope then c.storeScoped s ks (toBytes 4 (loWord (c.b c.low)).toNat)
      else c.storeKeys s (c.bytes c.low) ks (toBytes 4 (loWord (c.b c.low)).toNat)) none) none 0 := by
  rw [flagStore, hs]
  simp only [List.map_cons, List.map_nil, List.flatten_cons, List.flatten_nil, List.append_nil]

theorem flyOn_translated {a : Right} {ls : List Nat} {s : State} {lk : List LaneKeys} (h : c.translated a ls s lk)
    (body : State → List LaneKeys → Eff) : c.flyOn a ls body = body s lk := by
  unfold Ctx.flyOn
  rw [show c.translateLanes c.s a c.bytes ls = (s, .inl lk) from h]

/-- Without a translation the access is in flight, parked on its fault. -/
theorem flyOn_parked {a : Right} {ls : List Nat} {va : Nat} {why : BitVec 8} (hf : c.flying = false)
    (h : (c.translateLanes c.s a c.bytes ls).2 = .inr (va, why)) (body : State → List LaneKeys → Eff) :
    c.flyOn a ls body =
      .go (c.launchFlight ((c.translateLanes c.s a c.bytes ls).1.pageFault (c.faultRec a 0 va why)).1 c.act
        (.parked ((c.translateLanes c.s a c.bytes ls).1.pageFault (c.faultRec a 0 va why)).2)) none c.growD := by
  unfold Ctx.flyOn
  dsimp only
  rw [h]
  dsimp only
  rw [hf, if_neg Bool.false_ne_true]

theorem growD_vret (h : c.f.op = 0x83) : c.growD = 0 := by
  rw [Ctx.growD, h]
  exact if_neg (by decide)

end

/-- The page of a VRET's flag has come: the store is made again, and the access leaves flight. -/
theorem walkFlight_vret {s s' : State} {r : StrandRef} {x : InFlight} {c : Ctx} {ks : List (Nat × Xlate)} (hx : s.flight? r x.id = some x)
    (hd : s.walkDue r x = true) (hw : x.isWhole = true) (hc : s.ctxOfFlight r x = some c) (hop : c.f.op = 0x83) (he : c.c.state ≠ .ended)
    (ht : c.translated .write [c.low] s' [(c.low, ks)]) (hs : c.scopeFail s' [(c.low, ks)] = none) :
    s.walkFlight r x.id = (c.setView (if beyondL1 c.f.e.scope then c.storeScoped s' ks (toBytes 4 (loWord (c.b c.low)).toNat)
      else c.storeKeys s' (c.bytes c.low) ks (toBytes 4 (loWord (c.b c.low)).toNat)) none).dropFlight r x.id := by
  have hw' : wholeAgain c = flagStore c s' [(c.low, ks)] := by
    unfold wholeAgain
    rw [hop]
    exact flyOn_translated ht _
  rw [State.walkFlight, hx]
  dsimp only
  rw [hd, Bool.not_true, if_neg Bool.false_ne_true, hc]
  dsimp only
  rw [hw, if_pos rfl, State.walkWhole, hw', flagStore_one hs]
  exact if_neg he

/-- Settles O36: each instruction's checks pass or trap, and its effect follows. -/
theorem viewRegisters : Obligations.ViewRegisters := by
  refine ⟨fun e s c v hr hl hu => ?_, fun e s c hr hl hu h => ?_, fun e s c v w hr hv hl hu hw hc => ?_, fun e s c hr hv hl => ?_,
    fun e s c hr hv => ?_, fun e s c v s' ks hr hv hl ha hk hq => ?_, fun e s c v va why hr hv hl ha hk hq hf => ?_,
    fun e s s' r x c ks hx hd hw hc hfm he ht hs => ?_, fun e s c hr hv hl ha hk => ?_⟩
  · intro off h16 hloc hvw hck
    rw [exec_of_body (e := .go (c.setView c.s (some { v with universal := !c.armatureFree })) none 0) vdefBody rfl hr]
    · rfl
    · rw [vdefBody, hl, if_neg Bool.false_ne_true, hu, if_neg Bool.false_ne_true]
      dsimp only
      rw [if_neg (not_not.mpr h16), if_neg (by omega), hvw]
      dsimp only
      rw [hck]
  · refine exec_of_trap vdefBody rfl hr ?_
    rw [vdefBody, hl, if_neg Bool.false_ne_true, hu, if_neg Bool.false_ne_true]
    dsimp only
    rw [if_pos h, Ctx.raise, BitVec.ofNat_toNat]
  · rw [exec_of_body (e := .go (c.setView c.s (some w)) none 0) vsetBody rfl hr]
    · rfl
    · rw [vsetBody, withView_some hv, hl, if_neg Bool.false_ne_true, hu, if_neg Bool.false_ne_true, hw]
      dsimp only
      rw [hc]
  · obtain ⟨v, hv⟩ := Option.isSome_iff_exists.mp hv
    rw [exec_of_body (e := .go (c.setView c.s none) none 0) _ rfl hr]
    · rfl
    · rw [withView_some hv, hl, if_neg Bool.false_ne_true]
  · refine exec_of_trap _ rfl hr ?_
    rw [Ctx.withView, hv]
    rfl
  · intro a ht hs flag put
    have hfm : a.f = Form.ofExt 0x83 e := (again_f c).trans hr.spec.2.2.2.1
    have hlow : a.low = c.low := again_low c
    rw [exec_of_body vretBody rfl hr ((vretBody_go hv hl ha hk hq).trans
      ((flyOn_translated (c := a) (by rw [hlow]; exact ht) _).trans (flagStore_one (c := a) (by rw [hlow]; exact hs))))]
    rw [hfm, hlow, again_setView]
    rfl
  · intro a x hx y
    have hlow : a.low = c.low := again_low c
    have hop : a.f.op = 0x83 := by rw [show a.f = Form.ofExt 0x83 e from (again_f c).trans hr.spec.2.2.2.1]; rfl
    rw [exec_of_body vretBody rfl hr ((vretBody_go hv hl ha hk hq).trans (flyOn_parked (c := a) hf (by rw [hlow]; exact hx) _)), growD_vret hop, hlow]
    rfl
  · intro flag put
    have h := walkFlight_vret hx hd hw hc (by rw [hfm]; rfl) he ht hs
    rw [hfm] at h
    exact congrArg Host.Outcome.next h
  · obtain ⟨v, hv⟩ := Option.isSome_iff_exists.mp hv
    exact exec_of_trap vretBody rfl hr (vretBody_locked hv hl ha hk)

/-! ## VACQ and WAITM -/

section
variable {c : Ctx} {generic : Bool} {done : State → Eff} {wait : State → Nat → Eff}

theorem pollFlag_odd (h : c.again.ea c.low % 4 ≠ 0) :
    c.pollFlag generic done wait = .trap .misalign (BitVec.ofInt 64 (c.again.ea c.low)) c.low c.s := by
  rw [Ctx.pollFlag]
  dsimp only
  rw [again_low, if_pos h, Ctx.raise, again_s]

theorem pollFlag_locked (h : c.again.ea c.low % 4 = 0) (hk : c.again.locked false c.low = true) :
    c.pollFlag true done wait = .trap .viewLocked (BitVec.ofInt 64 (c.again.ea c.low)) c.low c.s := by
  rw [Ctx.pollFlag]
  dsimp only
  rw [again_low, if_neg (not_not.mpr h), hk, Bool.true_and, if_pos rfl, Ctx.raise, again_s]

/-- A flag word that is read: what follows when the condition holds, or does not. -/
theorem pollFlag_read {s' : State} {ks : List (Nat × Xlate)} {holds : Bool} (hg : (generic && c.again.locked false c.low) = false)
    (h : c.again.ea c.low % 4 = 0) (hb : c.again.flagBusy = false) (ht : c.again.translated .read [c.low] s' [(c.low, ks)])
    (hs : c.again.scopeFail s' [(c.low, ks)] = none) (hu : (c.again.readFlag s' ks).2.2 = false)
    (hc : intCond c.f.e.rnd.toNat c.f.e.ty (BitVec.ofNat 64 (c.again.readFlag s' ks).2.1) (c.again.b c.low) = holds) :
    c.pollFlag generic done wait = if holds then done (c.again.readFlag s' ks).1
      else wait (c.again.readFlag s' ks).1 ((ks.head?.map (·.1)).getD 0 / 128) := by
  rw [Ctx.pollFlag]
  dsimp only
  rw [again_low, if_neg (not_not.mpr h), hg, if_neg Bool.false_ne_true, hb, if_neg Bool.false_ne_true, Ctx.whole]
  rw [show c.again.translateLanes c.again.s .read c.again.bytes [c.low] = (s', .inl [(c.low, ks)]) from ht]
  dsimp only
  rw [hs]
  simp only [List.map_cons, List.map_nil, List.flatten_cons, List.flatten_nil, List.append_nil]
  rw [hu, if_neg Bool.false_ne_true, again_f, hc]

end

/-- Settles O37: one turn of the loop, by whether the word can be read and what it holds. -/
theorem flagWaits : Obligations.FlagWaits := by
  refine ⟨fun e s c v s' ks hr hv hk ⟨ha, hb, ht, hs, hu, hc⟩ => ?_, fun e s c v s' ks hr hv hk ⟨ha, hb, ht, hs, hu, hc⟩ => ?_,
    fun e s c hr hv ha => ?_, fun e s c hr hv ha hk => ?_, fun e s c s' ks hr ⟨ha, hb, ht, hs, hu, hc⟩ => ?_,
    fun e s c s' ks hr ⟨ha, hb, ht, hs, hu, hc⟩ => ?_, fun e s c hr ha => exec_of_trap _ rfl hr (pollFlag_odd ha)⟩
  · have hfm := hr.spec.2.2.2.1
    rw [exec_of_body _ rfl hr ((withView_some hv _).trans (pollFlag_read (holds := true) (by rw [hk]; rfl) ha hb ht hs hu (by rw [hfm]; exact hc)))]
    rfl
  · have hfm := hr.spec.2.2.2.1
    rw [exec_of_body _ rfl hr ((withView_some hv _).trans (pollFlag_read (holds := false) (by rw [hk]; rfl) ha hb ht hs hu (by rw [hfm]; exact hc)))]
    rfl
  · obtain ⟨v, hv⟩ := Option.isSome_iff_exists.mp hv
    exact exec_of_trap _ rfl hr ((withView_some hv _).trans (pollFlag_odd ha))
  · obtain ⟨v, hv⟩ := Option.isSome_iff_exists.mp hv
    exact exec_of_trap _ rfl hr ((withView_some hv _).trans (pollFlag_locked ha hk))
  · have hfm := hr.spec.2.2.2.1
    rw [exec_of_body _ rfl hr (pollFlag_read (holds := true) rfl ha hb ht hs hu (by rw [hfm]; exact hc)), hfm]
    rfl
  · intro line inL1 y
    have hfm := hr.spec.2.2.2.1
    rw [exec_of_body _ rfl hr (pollFlag_read (holds := false) rfl ha hb ht hs hu (by rw [hfm]; exact hc)), hfm]
    rfl

end Sys2Proof.Machine
end

