-- ==== Sys2Proof/Proofs/CopyTags.lean ====
section
/-! SUPPORT. Waiting for, testing, finding and killing copy tags (R217 to R219, R226). -/
namespace Sys2Proof.Machine

/-! ## Tags -/

/-- `f` applied to a tag of a crew. -/
def Crew.withTag (c : Crew) (n : Nat) (f : Tag → Tag) : Crew := { c with tags := modNth c.tags n f }

theorem Crew.length_withTag (c : Crew) (n : Nat) (f : Tag → Tag) : (c.withTag n f).tags.length = c.tags.length := length_modNth _ _ _

theorem crew?_modTag {s : State} {r : CrewRef} {c : Crew} (h : s.crew? r = some c) (n : Nat) (f : Tag → Tag) :
    (s.modTag r n f).crew? r = some (c.withTag n f) := by
  exact (crew?_modCrew_same s r (fun c => c.withTag n f) fun _ => ⟨rfl, rfl⟩).trans (congrArg _ h)

theorem tag_modNth (c : Crew) (n m : Nat) (f : Tag → Tag) :
    (c.withTag n f).tag m = if m = n ∧ m < c.tags.length then f (c.tag m) else c.tag m := by
  rw [Crew.withTag, Crew.tag, Crew.tag, List.getD_eq_getElem?_getD, List.getD_eq_getElem?_getD, getElem?_modNth]
  by_cases h : m = n
  · by_cases hl : m < c.tags.length
    · rw [if_pos h, if_pos ⟨h, hl⟩, List.getElem?_eq_getElem hl]
      rfl
    · rw [if_pos h, if_neg fun x => hl x.2, List.getElem?_eq_none (Nat.not_lt.mp hl)]
      rfl
  · rw [if_neg h, if_neg fun x => h x.1]

/-- A tag beyond those of the crew is not DONE. -/
theorem tag_lt_of_done {c : Crew} {n : Nat} (h : (c.tag n).state = .done) : n < c.tags.length := by
  by_contra hn
  rw [Crew.tag, List.getD_eq_getElem?_getD, List.getElem?_eq_none (Nat.not_lt.mp hn)] at h
  cases h

/-- A tag whose error has been seen. -/
def Tag.seen (t : Tag) : Tag := { t with errPend := false }

theorem Tag.seen_seen (t : Tag) : t.seen.seen = t.seen := rfl

/-- The error marks of some tags are taken away. -/
def State.seeErrors (s : State) (r : CrewRef) (l : List Nat) : State := l.foldl (fun s k => s.modTag r k Tag.seen) s

theorem crew?_seeErrors (l : List Nat) (s : State) (r : CrewRef) {c : Crew} (h : s.crew? r = some c) :
    ∃ k, (s.seeErrors r l).crew? r = some k ∧ k.tags.length = c.tags.length ∧
      ∀ m, k.tag m = if m ∈ l ∧ m < c.tags.length then (c.tag m).seen else c.tag m := by
  induction l generalizing s c with
  | nil => exact ⟨c, h, rfl, fun m => by simp⟩
  | cons n l ih =>
    obtain ⟨k, hk, hlen, ht⟩ := ih (s.modTag r n Tag.seen) (crew?_modTag h n _)
    refine ⟨k, hk, hlen.trans (c.length_withTag n _), fun m => ?_⟩
    rw [ht, tag_modNth, c.length_withTag]
    by_cases hm : m = n
    · subst hm
      by_cases hl : m < c.tags.length <;> by_cases hin : m ∈ l <;> simp [hl, hin, Tag.seen_seen]
    · simp [hm]

/-! ## Masks -/

section
variable {c : Ctx}

@[simp] theorem again_doneTags (m : DWord) : c.again.doneTags m = c.doneTags m := by simp [Ctx.doneTags]
@[simp] theorem again_observe (s : State) (l : List Nat) : c.again.observe s l = c.observe s l := by simp [Ctx.observe]

theorem mem_doneTags {mask : DWord} {n : Nat} : n ∈ c.doneTags mask ↔ n < 64 ∧ mask.getLsbD n = true ∧ (c.c.tag n).state = .done := by
  simp [Ctx.doneTags]

theorem doneTags_eq_filter (mask : DWord) : c.doneTags mask = (maskTags mask).filter fun n => (c.c.tag n).state = .done := by
  rw [maskTags, List.filter_filter, Ctx.doneTags]
  exact List.filter_congr fun n _ => Bool.and_comm _ _

/-- As many tags are DONE as the mask names: all of them are. -/
theorem tagsHold_all : c.tagsHold true = true ↔ ∀ n, n < 64 → c.tagMask.getLsbD n = true → (c.c.tag n).state = .done := by
  rw [Ctx.tagsHold, if_pos rfl, decide_eq_true_eq, doneTags_eq_filter, List.length_filter_eq_length_iff]
  simp [maskTags]

theorem tagsHold_any : c.tagsHold false = true ↔ c.doneTags c.tagMask ≠ [] := by simp [Ctx.tagsHold]

/-- The lowest tag of a mask whose error has not been seen stands first among them. -/
theorem errors_head {mask : DWord} {n : Nat} (hn : n ∈ c.doneTags mask) (he : (c.c.tag n).errPend = true)
    (hb : ∀ m ∈ c.doneTags mask, m < n → (c.c.tag m).errPend = false) :
    ∃ rest, (c.doneTags mask).filter (fun n => (c.c.tag n).errPend) = n :: rest := by
  obtain ⟨h1, h2, h3⟩ := mem_doneTags.mp hn
  rw [← List.head?_eq_some_iff, List.head?_filter, Ctx.doneTags, List.find?_filter, List.find?_range_eq_some]
  refine ⟨by simp [h2, h3, he], List.mem_range.mpr h1, fun k hk => ?_⟩
  by_cases hd : k ∈ c.doneTags mask
  · simp [hb k hd hk]
  · have hd' : ¬(mask.getLsbD k = true ∧ (c.c.tag k).state = .done) := fun h => hd (mem_doneTags.mpr ⟨Nat.lt_trans hk h1, h⟩)
    simp only [not_and] at hd'
    by_cases hm : mask.getLsbD k = true
    · simp [hd' hm]
    · simp [hm]

theorem errors_none {mask : DWord} (h : ∀ n ∈ c.doneTags mask, (c.c.tag n).errPend = false) :
    (c.doneTags mask).filter (fun n => (c.c.tag n).errPend) = [] :=
  List.filter_eq_nil_iff.mpr fun n hn => ne_true_of_eq_false (h n hn)

/-! ## CWAIT -/

theorem again_errors (m : DWord) :
    (c.again.doneTags m).filter (fun n => (c.again.c.tag n).errPend) = (c.doneTags m).filter fun n => (c.c.tag n).errPend := by simp

theorem cwaitBody_go {all : Bool} (hc : c.again.tagsHold all = true ∨ (all = false ∧ c.again.tagMask = 0))
    (hq : ∀ n ∈ c.doneTags c.again.tagMask, (c.c.tag n).errPend = false) :
    cwaitBody all c = .go (c.observe c.s (c.doneTags c.again.tagMask)) none 0 := by
  have h1 : (!(c.again.tagsHold all) && (all || decide (c.again.tagMask ≠ 0))) = false := by
    rcases hc with hc | ⟨hc, hm⟩
    · rw [hc]; rfl
    · rw [hc, hm]; simp
  rw [cwaitBody]
  dsimp only
  rw [h1, if_neg Bool.false_ne_true, again_errors, errors_none hq]
  simp only [again_observe, again_s, again_doneTags]

theorem cwaitBody_wait {all : Bool} (hc : c.again.tagsHold all = false) (hm : all = true ∨ c.again.tagMask ≠ 0) :
    cwaitBody all c = .stay c.s .cwait := by
  have h1 : (!(c.again.tagsHold all) && (all || decide (c.again.tagMask ≠ 0))) = true := by
    rw [hc]
    rcases hm with hm | hm
    · rw [hm]; rfl
    · rw [decide_eq_true hm, Bool.or_true]; rfl
  rw [cwaitBody]
  dsimp only
  rw [h1, if_pos rfl, again_s]

/-- An error that no one has seen traps, the marks of the mask's DONE tags being taken away. -/
theorem cwaitBody_trap {all : Bool} {n : Nat} (hs : c.s.crew? c.r.crew = some c.c) (hc : c.again.tagsHold all = true)
    (hn : n ∈ c.doneTags c.again.tagMask) (he : (c.c.tag n).errPend = true)
    (hb : ∀ m ∈ c.doneTags c.again.tagMask, m < n → (c.c.tag m).errPend = false) :
    ∃ s' k, cwaitBody all c = .trap .tagError (c.c.tag n).addr c.low s' ∧ s'.crew? c.r.crew = some k ∧
      ∀ m, k.tag m = if m ∈ c.doneTags c.again.tagMask then (c.c.tag m).seen else c.c.tag m := by
  obtain ⟨rest, hrest⟩ := errors_head hn he hb
  obtain ⟨k, hk, -, ht⟩ := crew?_seeErrors (n :: rest) c.s c.r.crew hs
  refine ⟨_, k, ?_, hk, fun m => ?_⟩
  · rw [cwaitBody]
    dsimp only
    rw [hc, Bool.not_true, Bool.false_and, if_neg Bool.false_ne_true, again_errors, hrest]
    dsimp only
    rw [again_c, again_low, again_s, again_r]
    rfl
  · rw [ht, ← hrest]
    simp only [List.mem_filter]
    by_cases hm : m ∈ c.doneTags c.again.tagMask
    · have hl := tag_lt_of_done (mem_doneTags.mp hm).2.2
      by_cases hp : (c.c.tag m).errPend = true
      · simp [hm, hp, hl]
      · have hp : (c.c.tag m).errPend = false := Bool.eq_false_iff.mpr hp
        simp only [hm, hp, Bool.false_eq_true, and_false, false_and, if_false, if_true]
        rw [Tag.seen, ← hp]
    · simp [hm]

end

theorem again_tagMask (c : Ctx) : c.again.tagMask = c.again.a c.low := by rw [Ctx.tagMask, again_low]

/-! ## CKILL -/

/-- Where one tag of a crew is changed, the others stand. -/
theorem tag_modTag {s : State} {r : CrewRef} {k : Crew} {n : Nat} (hs : s.crew? r = some k) (hn : n < k.tags.length) (f : Tag → Tag) :
    ∃ k', (s.modTag r n f).crew? r = some k' ∧ (∀ m, m ≠ n → k'.tag m = k.tag m) ∧ k'.tag n = f (k.tag n) := by
  refine ⟨_, crew?_modTag hs n f, fun m hm => ?_, ?_⟩
  · rw [tag_modNth, if_neg fun h => hm h.1]
  · rw [tag_modNth, if_pos ⟨rfl, hn⟩]

theorem killTag_spec (c : Ctx) (s : State) (n : Nat) (k : Crew) (hs : s.crew? c.r.crew = some k) (hn : n < k.tags.length) :
    ((c.c.tag n).state = .free → c.killTag s n = s) ∧
      ((c.c.tag n).state = .done → (c.c.tag n).doneAt = c.s.cycle → c.killTag s n = s) ∧
      ∃ k', (c.killTag s n).crew? c.r.crew = some k' ∧ (∀ m, m ≠ n → k'.tag m = k.tag m) ∧
        ((c.c.tag n).state = .done → (c.c.tag n).doneAt ≠ c.s.cycle → k'.tag n = Tag.unused) ∧
          ((c.c.tag n).state = .busy →
            k'.tag n = { k.tag n with op := (k.tag n).op.map fun o => { o with cancelled := some (o.cancelled.getD s.cycle) } }) := by
  unfold Ctx.killTag
  dsimp only
  cases (c.c.tag n).state with
  | free => exact ⟨fun _ => rfl, fun _ _ => rfl, k, hs, fun _ _ => rfl, fun h => (by cases h), fun h => (by cases h)⟩
  | busy =>
    obtain ⟨k', h1, h2, h3⟩ := tag_modTag hs hn fun t => { t with op := t.op.map fun o => { o with cancelled := some (o.cancelled.getD s.cycle) } }
    exact ⟨fun h => (by cases h), fun h => (by cases h), k', h1, h2, fun h => (by cases h), fun _ => h3⟩
  | done =>
    dsimp only
    by_cases hd : (c.c.tag n).doneAt = c.s.cycle
    · rw [if_pos hd]
      exact ⟨fun _ => rfl, fun _ _ => rfl, k, hs, fun _ _ => rfl, fun _ h => (h hd).elim, fun h => (by cases h)⟩
    · rw [if_neg hd]
      obtain ⟨k', h1, h2, h3⟩ := tag_modTag hs hn fun _ => Tag.unused
      exact ⟨fun h => (by cases h), fun _ h => (hd h).elim, k', h1, h2, fun _ _ => h3, fun h => (by cases h)⟩

/-- Settles O39: each instruction by which of its tags are DONE. -/
theorem copyTags : Obligations.CopyTags := by
  unfold Obligations.CopyTags
  intro done named mask met quietly traps firstError allDone
  have hold : ∀ c : Ctx, allDone c ↔ c.again.tagsHold true = true := fun c => by
    rw [tagsHold_all, again_tagMask, again_c]
  have htrap : ∀ (i : Instr) (f : Form) (all : Bool) (s : State) (c : Ctx) (n : Nat), (∀ s, exec i s = issue f (cwaitBody all) s) → Runs s f c →
      c.again.tagsHold all = true → firstError c n → ∃ t, exec i s = .next t ∧ traps c n t := by
    rintro i f all s c n hi hr hh ⟨hn, he, hb⟩
    simp only [met, mask, ← again_tagMask] at hn hb
    obtain ⟨s', k, h1, h2, h3⟩ := cwaitBody_trap hr.spec.2.1 hh hn he hb
    refine ⟨_, exec_of_trap _ (hi s) hr h1, s', k, rfl, h2, fun m => ?_⟩
    rw [h3, again_tagMask]
    rfl
  refine ⟨fun e => does_of_go (cwaitBody true) (fun _ => rfl) fun c _ _ ⟨h1, h2⟩ => ?_,
    fun e => does_of_go (cwaitBody false) (fun _ => rfl) fun c _ _ ⟨h1, h2⟩ => ?_,
    fun e s c hr h => exec_of_stay (cwaitBody true) rfl hr (cwaitBody_wait (Bool.eq_false_iff.mpr fun hc => h ((hold c).mpr hc)) (.inl rfl)),
    fun e s c hr hm h => exec_of_stay (cwaitBody false) rfl hr (cwaitBody_wait (Bool.eq_false_iff.mpr fun hc => ?_) (.inr ?_)),
    fun e s c n hr h1 h2 => htrap _ _ true s c n (fun _ => rfl) hr ((hold c).mp h1) h2,
    fun e s c n hr h => htrap _ _ false s c n (fun _ => rfl) hr (tagsHold_any.mpr ?_) h,
    fun e => does_of_go (ctestBody true) (fun _ => rfl) fun c _ _ h => ?_, fun e => does_of_go (ctestBody true) (fun _ => rfl) fun c _ _ h => ?_,
    fun e => does_of_go (ctestBody false) (fun _ => rfl) fun c _ _ h => ?_, fun e => does_of_go (ctestBody false) (fun _ => rfl) fun c _ _ h => ?_,
    fun e => does_of_go _ (fun _ => rfl) fun c _ _ h => ?_, fun e n => does_of_go _ (fun _ => rfl) fun c _ _ h => ?_,
    fun e => does_of_go _ (fun _ => rfl) fun c _ _ _ => rfl, fun c s n k hs hn => killTag_spec c s n k hs hn⟩
  · simp only [quietly, met, mask, ← again_tagMask] at h2 ⊢
    exact cwaitBody_go (.inl ((hold c).mp h1)) h2
  · simp only [quietly, met, mask, ← again_tagMask] at h1 h2 ⊢
    refine cwaitBody_go ?_ h2
    exact h1.imp (fun h => tagsHold_any.mpr (by rw [again_doneTags]; exact h)) fun h => ⟨rfl, h⟩
  · rw [tagsHold_any, again_doneTags, again_tagMask] at hc
    exact hc h
  · rw [again_tagMask]
    exact hm
  · rw [again_doneTags, again_tagMask]
    exact List.ne_nil_of_mem h.1
  · have hp : c.tagsHold true = true := tagsHold_all.mpr fun n hn hb => h n (List.mem_filter.mpr ⟨List.mem_range.mpr hn, hb⟩)
    rw [ctestBody, hp]
    rfl
  · obtain ⟨n, hn, hb⟩ := h
    obtain ⟨hn1, hn2⟩ := List.mem_filter.mp hn
    have hp : c.tagsHold true = false := Bool.eq_false_iff.mpr fun hp => hb (tagsHold_all.mp hp n (List.mem_range.mp hn1) hn2)
    rw [ctestBody, hp]
    rfl
  · have hp : c.tagsHold false = false := Bool.eq_false_iff.mpr fun hp => tagsHold_any.mp hp h
    rw [ctestBody, hp]
    rfl
  · have hp : c.tagsHold false = true := tagsHold_any.mpr h
    rw [ctestBody, hp]
    rfl
  · rw [show c.doneTags c.tagMask = [] from h]
  · obtain ⟨rest, hx⟩ := List.head?_eq_some_iff.mp h
    rw [show c.doneTags c.tagMask = n :: rest from hx]
    rfl

end Sys2Proof.Machine
end

