-- ==== Sys2Proof/Proofs/Copies.lean ====
section
/-! SUPPORT. The issue of copy-engine and tile operations (R213 to R223, R228 to R245): what a write-back, a translation and a fill of operand
buffers leave of the slots and tile queues, and what a strand's place depends on. -/
namespace Sys2Proof.Machine

/-! ## Hand-off values and held paths are read of crews and grids -/

section
variable {s t : State} (hc : t.crews = s.crews)
include hc

theorem strandOfItem?_congr (g : Grid) (i : Nat) : t.strandOfItem? g i = s.strandOfItem? g i := strand?_of_crews hc _

theorem genOf_congr (g : Grid) (i h : Nat) : t.genOf g i h = s.genOf g i h := by rw [State.genOf, strandOfItem?_congr hc]; rfl

theorem itemEnded_congr (g : Grid) (i : Nat) : t.itemEnded g i = s.itemEnded g i := by rw [State.itemEnded, strandOfItem?_congr hc]; rfl

theorem itemSealed_congr (g : Grid) (i h : Nat) : t.itemSealed g i h = s.itemSealed g i h := by
  rw [State.itemSealed, strandOfItem?_congr hc]; rfl

theorem itemResident_congr (g : Grid) (i : Nat) : t.itemResident g i = s.itemResident g i := by rw [State.itemResident, crew?_of_crews hc]; rfl

theorem lastValue_congr (g : Grid) (r i h n : Nat) : t.lastValue g r i h n = s.lastValue g r i h n := by
  rw [State.lastValue, itemSealed_congr hc]; rfl

theorem finalFor_congr (g : Grid) (r h : Nat) (n : Nat) (j : Int) : t.finalFor g r h n j = s.finalFor g r h n j := by
  induction n generalizing j with
  | zero => rfl
  | succ n ih => simp only [State.finalFor, genOf_congr hc, lastValue_congr hc, ih]

theorem handOffFrom_congr (g : Grid) (r h k : Nat) (n : Nat) (j : Int) : t.handOffFrom g r h k n j = s.handOffFrom g r h k n j := by
  induction n generalizing j with
  | zero => rfl
  | succ n ih => simp only [State.handOffFrom, genOf_congr hc, itemSealed_congr hc, finalFor_congr hc, ih]

theorem handOff_congr (g : Grid) (i h k : Nat) : t.handOff g i h k = s.handOff g i h k := by
  rw [State.handOff, genOf_congr hc, handOffFrom_congr hc]; rfl

theorem passNeeders_congr (g : Grid) (h k : Nat) (n c : Nat) : t.passNeeders g h k n c = s.passNeeders g h k n c := by
  induction n generalizing c with
  | zero => rfl
  | succ n ih => simp only [State.passNeeders, genOf_congr hc, itemEnded_congr hc, itemSealed_congr hc, ih]

theorem needOnce_congr (g : Grid) (i h k : Nat) : t.needOnce g i h k = s.needOnce g i h k := by
  simp only [State.needOnce, State.needers, passNeeders_congr hc, genOf_congr hc, itemEnded_congr hc, itemSealed_congr hc]

theorem placeFor_congr (g : Grid) (pubs : List Pub) (p : Pub) (r : Nat) : t.placeFor g pubs p r = s.placeFor g pubs p r := by
  rw [State.placeFor, itemResident_congr hc]; rfl

theorem fillPlaces_congr (g : Grid) (rs : List Nat) (pubs : List Pub) (p : Pub) : t.fillPlaces g pubs p rs = s.fillPlaces g pubs p rs := by
  induction rs generalizing pubs p with
  | nil => rfl
  | cons r rs ih => simp only [State.fillPlaces, placeFor_congr hc, ih]

end

theorem grid?_congr {s t : State} (hg : t.grids = s.grids) (n : Nat) : t.grid? n = s.grid? n := by rw [State.grid?, hg]; rfl

section
variable {s t : State} (hc : t.crews = s.crews) (hg : t.grids = s.grids)
include hc hg

theorem hputRoom_congr (g : Grid) (i h : Nat) : t.hputRoom g i h = s.hputRoom g i h := by
  rw [State.hputRoom, State.hputRoom, State.publish, State.publish, grid?_congr hg, genOf_congr hc]
  cases s.grid? g.id with
  | none => rfl
  | some x =>
    simp only [needOnce_congr hc, fillPlaces_congr hc]
    split <;> rfl

theorem pathReady_congr (r : StrandRef) : t.pathReady r = s.pathReady r := by
  funext p
  simp only [State.pathReady, grid?_congr hg, hputRoom_congr hc hg, handOff_congr hc]

end

/-! ## An issue passes, whatever the memory side has done -/

/-- The crews, grids and clock of two states are the same. -/
def SameTime (s t : State) : Prop :=
  t.crews = s.crews ∧ t.grids = s.grids ∧ t.cycle = s.cycle ∧ t.refPart = s.refPart ∧ t.mhz = s.mhz

theorem MemSide.sameTime {s t : State} (h : MemSide s t) : SameTime s t := by
  obtain ⟨_, _, _, _, _, _, _, _, rfl⟩ := h
  exact ⟨rfl, rfl, rfl, rfl, rfl⟩

theorem crews_modStrand_congr {s t : State} (h : t.crews = s.crews) (r : StrandRef) (f : Strand → Strand) :
    (t.modStrand r f).crews = (s.modStrand r f).crews := by
  unfold State.modStrand State.modCrew
  rw [h]

theorem crews_leave_congr (c : Ctx) {s t : State} (h : SameTime s t) (left : Mask) (st : Path → Path) (dst : Option (Nat → Word)) (n : Nat) :
    (c.leave t left st dst n).crews = (c.leave s left st dst n).crews := by
  obtain ⟨h1, h2, h3, h4, h5⟩ := h
  have hcr : (t.tick n).crews = (s.tick n).crews := by unfold State.tick; rw [h1, h4, h5]
  have hcy : (t.tick n).cycle = (s.tick n).cycle := by unfold State.tick; rw [h3]
  have hpr := pathReady_congr hcr (show (t.tick n).grids = (s.tick n).grids from h2) c.r
  unfold Ctx.leave
  dsimp only
  rw [hcy, hpr]
  split <;> exact crews_modStrand_congr hcr _ _

/-! ## What stands of slots and tile queues -/

/-- From `s` to `t` the memory side has moved, slots and tile queues having stood. -/
def SideKept (s t : State) : Prop :=
  MemSide s t ∧ (∀ n, (t.die? n).map Die.slots = (s.die? n).map Die.slots) ∧ ∀ n, (t.core? n).map Core.tileQ = (s.core? n).map Core.tileQ

theorem SideKept.refl (s : State) : SideKept s s := ⟨.refl s, fun _ => rfl, fun _ => rfl⟩

theorem SideKept.trans {s t u : State} (h : SideKept s t) (k : SideKept t u) : SideKept s u :=
  ⟨h.1.trans k.1, fun n => (k.2.1 n).trans (h.2.1 n), fun n => (k.2.2 n).trans (h.2.2 n)⟩

theorem sideKept_foldl {α : Type} (f : State → α → State) (hf : ∀ s a, SideKept s (f s a)) (l : List α) (s : State) : SideKept s (l.foldl f s) := by
  induction l generalizing s with
  | nil => exact .refl s
  | cons a l ih => exact (hf s a).trans (ih _)

theorem sideKept_modCore (s : State) (n : Nat) (f : Core → Core) (hf : ∀ k, (f k).tileQ = k.tileQ) : SideKept s (s.modCore n f) := by
  refine ⟨memSide_modCore s n f, fun _ => rfl, fun m => ?_⟩
  rw [core?_modCore]
  split
  · rw [Option.map_map]
    cases s.core? m with
    | none => rfl
    | some k => exact congrArg some (hf k)
  · rfl

theorem sideKept_modDie (s : State) (n : Nat) (f : Die → Die) (hf : ∀ d, (f d).slots = d.slots) : SideKept s (s.modDie n f) := by
  refine ⟨memSide_modDie s n f, fun m => ?_, fun _ => rfl⟩
  rw [die?_modDie]
  split
  · rw [Option.map_map]
    cases s.die? m with
    | none => rfl
    | some d => exact congrArg some (hf d)
  · rfl

theorem OnlyMem.sideKept {s t : State} (h : OnlyMem s t) (hm : MemSide s t) : SideKept s t :=
  ⟨hm, fun n => by rw [State.die?, h.dies]; rfl, fun n => by rw [h.core?]⟩

theorem sideKept_drain (s : State) (core : Nat) : SideKept s (s.drain core) := by
  unfold State.drain
  split
  · exact .refl s
  · exact ((onlyMem_foldl_perform _ s).sideKept (memSide_foldl _ memSide_perform _ s)).trans (sideKept_modCore _ _ _ (by intro k; rfl))

theorem sideKept_writeBack (s : State) (core : Nat) (sel : L1Line → Bool) : SideKept s (s.writeBack core sel) := by
  refine ⟨memSide_writeBack s core sel, fun n => by rw [State.die?, dies_writeBack]; rfl, fun n => ?_⟩
  by_cases hn : n = core
  · subst hn
    cases hc : s.core? n with
    | none => rw [State.writeBack, hc]; exact congrArg _ hc
    | some k => rw [core?_writeBack_same hc]; rfl
  · rw [core?_writeBack_other s sel hn]

theorem sideKept_translate (s : State) (core ctx va : Nat) (a : Right) : SideKept s (s.translate core ctx va a).1 := by
  unfold State.translate
  split
  · exact .refl s
  · split
    · exact (sideKept_modCore _ _ _ (by intro k; rfl)).trans (sideKept_modDie _ _ _ (by intro d; rfl))
    · exact .refl s

theorem sideKept_touchPages (s : State) (core ctx : Nat) (a : Right) (ps : List Nat) : SideKept s (s.touchPages core ctx a ps) :=
  sideKept_foldl (fun s p => (s.translate core ctx (p * 65536) a).1) (fun s p => sideKept_translate s core ctx (p * 65536) a) ps s

theorem sideKept_transPages (ps : List Nat) (s : State) (core ctx : Nat) (a : Right) : SideKept s (s.transPages core ctx a ps).1 := by
  induction ps generalizing s with
  | nil => exact .refl s
  | cons p ps ih =>
    have h := sideKept_translate s core ctx (p * 65536) a
    unfold State.transPages
    dsimp only
    split
    · exact h
    · split <;> exact h.trans (ih _)

theorem sideKept_transAll (xs : List (Right × List Nat)) (s : State) (core ctx : Nat) : SideKept s (s.transAll core ctx xs).1 := by
  induction xs generalizing s with
  | nil => exact .refl s
  | cons x xs ih =>
    have h := sideKept_transPages x.2 s core ctx x.1
    unfold State.transAll
    dsimp only
    split
    · exact h
    · split <;> exact h.trans (ih _)

theorem sideKept_flushMeeting (s : State) (core ctx : Nat) (v : View) : SideKept s (s.flushMeeting core ctx v) := by
  unfold State.flushMeeting
  split
  · exact .refl s
  · exact (sideKept_writeBack _ _ _).trans (sideKept_drain _ _)

theorem sideKept_fillOp (s : State) (core ctx line : Nat) : SideKept s (s.fillOp core ctx line) := by
  unfold State.fillOp
  split
  · exact .refl s
  · exact sideKept_modCore _ _ _ (by intro k; rfl)

theorem sideKept_fillOperands (s : State) (core ctx : Nat) (pages : List (Nat × Xlate)) (xs : List Source) :
    SideKept s (s.fillOperands core ctx pages xs) :=
  (sideKept_drain s core).trans (sideKept_foldl (fun s l => s.fillOp core ctx l) (fun s l => sideKept_fillOp s core ctx l) _ _)

theorem sideKept_firstSeen (c : Ctx) (s : State) (v : View) (l : List (Option Nat)) : SideKept s (c.firstSeen s v l).1 :=
  sideKept_touchPages _ _ _ _ _

/-! ## Tags and strands of a crew -/

theorem strand?_modCrew_keep {s : State} {r : StrandRef} (f : Crew → Crew) (hf : ∀ c, (f c).grid = c.grid ∧ (f c).idx = c.idx)
    (hs : ∀ c, (f c).strands = c.strands) : (s.modCrew r.crew f).strand? r = s.strand? r := by
  rw [State.strand?, State.strand?, crew?_modCrew_same s r.crew f hf]
  cases s.crew? r.crew with
  | none => rfl
  | some c => exact congrArg (List.find? _) (hs c)

theorem strand?_modTag (s : State) (r : StrandRef) (n : Nat) (f : Tag → Tag) : (s.modTag r.crew n f).strand? r = s.strand? r :=
  strand?_modCrew_keep _ (by intro c; exact ⟨rfl, rfl⟩) (by intro c; rfl)

/-- What a crew is but for its strands after an issue has passed. -/
theorem bare_leave {c : Ctx} {s : State} {k : Crew} (h : s.crew? c.r.crew = some k) (n : Nat) :
    ∃ k', (c.leave s 0 id none n).crew? c.r.crew = some k' ∧ k'.bare = k.bare := by
  have hb := (FrameOf.leave c s id none n).2.2 c.r.crew
  rw [h] at hb
  exact Option.map_eq_some_iff.mp hb

theorem tag_of_bare {k k' : Crew} (h : k'.bare = k.bare) (n : Nat) : k'.tag n = k.tag n := by
  have ht : k'.tags = k.tags := (congrArg Crew.tags h : k'.bare.tags = k.bare.tags)
  rw [Crew.tag, Crew.tag, ht]

/-- A BUSY tag with its operation. -/
def Tag.started (o : CopyOp) : Tag := { Tag.unused with state := .busy, op := some o }

theorem startOp_eq (c : Ctx) (s : State) (n : Nat) (o : CopyOp) : c.startOp s n o = s.modTag c.r.crew n fun _ => Tag.started o := rfl

/-- What an operation has seen at its issue may be forgotten; the operation is the same. -/
theorem seen_cases (c : Ctx) (s : State) (o : CopyOp) : ∃ l, c.seen s o = { o with olds := l } := by
  unfold Ctx.seen
  split
  · exact ⟨[], rfl⟩
  · exact ⟨o.olds, rfl⟩

section
variable {c : Ctx}

/-- The crew of an issue that has made a tag BUSY: that tag holds the operation, the others stand. -/
theorem crew?_startOp {s : State} (h : s.crew? c.r.crew = some c.c) (o : CopyOp) :
    (c.startOp s c.tagNo o).crew? c.r.crew = some (c.c.withTag c.tagNo fun _ => Tag.started o) := crew?_modTag h _ _

theorem tag_started (hn : c.tagNo < c.c.tags.length) (o : CopyOp) : (c.c.withTag c.tagNo fun _ => Tag.started o).tag c.tagNo = Tag.started o := by
  rw [tag_modNth, if_pos ⟨rfl, hn⟩]

theorem tag_started_other {n : Nat} (h : n ≠ c.tagNo) (o : CopyOp) : (c.c.withTag c.tagNo fun _ => Tag.started o).tag n = c.c.tag n := by
  rw [tag_modNth, if_neg fun x => h x.1]

/-- The strand of an issue whose effect has left the registers as they were. -/
theorem strand_leave {s : State} (h : s.strand? c.r = some c.t) (n : Nat) :
    ∃ u, (c.leave s 0 id none n).strand? c.r = some u ∧ SameRegs u c.t := by
  obtain ⟨a, b, e, hu⟩ := leave_strand c s c.t id none n h
  exact ⟨_, hu, rfl, rfl, rfl, rfl⟩

/-! ## CPY -/

/-- The state before the pages of a CPY's source are looked up. -/
def Ctx.copyFlushed (c : Ctx) (src dst : ViewUse) : State := (c.s.flushMeeting c.core c.ctx src.view).flushMeeting c.core c.ctx dst.view

/-- The state in which a CPY has seen its source. -/
def Ctx.copySeen (c : Ctx) (src dst : ViewUse) : State × Snap :=
  c.firstSeen (c.copyFlushed src dst) src.view ((copyPairs src.view dst.view).map (·.2))

theorem sideKept_copySeen (src dst : ViewUse) : SideKept c.s (c.copySeen src dst).1 :=
  ((sideKept_flushMeeting _ _ _ _).trans (sideKept_flushMeeting _ _ _ _)).trans (sideKept_firstSeen c _ _ _)

/-- The operation of a CPY. -/
def Ctx.copyOp (c : Ctx) (src dst : ViewUse) : CopyOp :=
  c.seen (c.copySeen src dst).1 (c.newOp (c.copySeen src dst).1 .copy (some src) (some dst) [(c.copySeen src dst).2])

/-- The state of a CPY that has issued. -/
def Ctx.copyIssued (c : Ctx) (src dst : ViewUse) (f : Option FollowOn) : State :=
  (c.onCrew (c.startOp (c.copySeen src dst).1 c.tagNo (c.copyOp src dst)) fun k => { k with follows := k.follows ++ f.toList }).bumpId

theorem issueCopy_eq (src dst : ViewUse) (f : Option FollowOn) : c.issueCopy src dst f = .go (c.copyIssued src dst f) none 0 := rfl

theorem cpyBody_issue {src dst : ViewUse} (hs : c.copyStalls = false) (hd : c.viewUse c.f.e.d = some dst) (ha : c.viewUse c.f.e.a = some src)
    (hty : src.view.ty = dst.view.ty) (hn : dst.view.count ≤ 16777215) (hr : src.view.canRead = true) (hw : dst.view.canWrite = true) :
    cpyBody c = if c.f.e.mod.getLsbD 0 then
        match c.followOn c.s.nextId with
        | .inr (t, a) => c.raise t a c.low
        | .inl f => c.issueCopy src dst (some f)
      else c.issueCopy src dst none := by
  rw [cpyBody, hs, if_neg Bool.false_ne_true, hd, ha]
  dsimp only
  rw [if_neg (by rintro (h | h); exacts [h hty, absurd hn (Nat.not_le.mpr h)]), hr, hw, if_neg (by decide)] <;> rfl

theorem crew?_copyIssued (h : c.s.crew? c.r.crew = some c.c) (src dst : ViewUse) (f : Option FollowOn) :
    (c.copyIssued src dst f).crew? c.r.crew =
      some { c.c.withTag c.tagNo (fun _ => Tag.started (c.copyOp src dst)) with follows := c.c.follows ++ f.toList } := by
  have h1 : (c.copySeen src dst).1.crew? c.r.crew = some c.c := by rw [(sideKept_copySeen src dst).1.crew?, h]
  exact (crew?_modCrew_same _ c.r.crew (fun k => { k with follows := k.follows ++ f.toList }) (by intro k; exact ⟨rfl, rfl⟩)).trans
    (congrArg _ (crew?_startOp h1 _))

theorem strand?_copyIssued (h : c.s.strand? c.r = some c.t) (src dst : ViewUse) (f : Option FollowOn) :
    (c.copyIssued src dst f).strand? c.r = some c.t := by
  have h1 := strand?_modCrew_keep (s := c.startOp (c.copySeen src dst).1 c.tagNo (c.copyOp src dst)) (r := c.r)
    (fun k => { k with follows := k.follows ++ f.toList }) (by intro k; exact ⟨rfl, rfl⟩) (by intro k; rfl)
  rw [startOp_eq, strand?_modTag, (sideKept_copySeen src dst).1.strand?, h] at h1
  exact h1

/-- A CPY that has issued: its tag and the follow-on products, then what else stands. -/
theorem copyIssued_spec (hc : c.s.crew? c.r.crew = some c.c) (hn : c.tagNo < c.c.tags.length) (src dst : ViewUse) (f : Option FollowOn) (n : Nat) :
    ∃ k o, (c.leave (c.copyIssued src dst f) 0 id none n).crew? c.r.crew = some k ∧ k.tag c.tagNo = Tag.started o ∧ o.kind = .copy ∧
      o.src = some src ∧ o.dst = some dst ∧ (o.strand = c.t.idx ∧ o.core = c.core ∧ o.phase = c.c.phase) ∧
        k.follows = c.c.follows ++ f.toList ∧ ∀ n, n ≠ c.tagNo → k.tag n = c.c.tag n := by
  obtain ⟨k, hk, hb⟩ := bare_leave (crew?_copyIssued hc src dst f) n
  obtain ⟨l, ho⟩ := seen_cases c (c.copySeen src dst).1 (c.newOp (c.copySeen src dst).1 .copy (some src) (some dst) [(c.copySeen src dst).2])
  refine ⟨k, c.copyOp src dst, hk, (tag_of_bare hb _).trans (tag_started hn _), ?_⟩
  rw [show c.copyOp src dst = _ from ho]
  exact ⟨rfl, rfl, rfl, ⟨rfl, rfl, rfl⟩, congrArg Crew.follows hb, fun n hn => (tag_of_bare hb n).trans (tag_started_other hn _)⟩

/-! ## CPYM -/

/-- The state in which a CPYM has seen its source. -/
def Ctx.parkSeen (c : Ctx) (src : ViewUse) : State × Snap :=
  c.firstSeen (c.s.flushMeeting c.core c.ctx src.view) src.view ((List.range src.view.count).map fun j => some (src.view.elemAddr j))

theorem sideKept_parkSeen (src : ViewUse) : SideKept c.s (c.parkSeen src).1 := (sideKept_flushMeeting _ _ _ _).trans (sideKept_firstSeen c _ _ _)

/-- The slot of a parking that has begun. -/
def Ctx.parkSlot (c : Ctx) (src : ViewUse) (n : Nat) (id : SlotId) : Slot :=
  { seq := id.seq, use := some (c.ctx, c.r.crew), data := [], ready := false, ty := src.view.ty, fill := src.view.fill,
    accept := n, drains := n, dtag := none }

/-- The state in which the slot of a CPYM is taken. -/
def Ctx.slotTaken (c : Ctx) (src : ViewUse) (n k : Nat) (id : SlotId) : State := (c.parkSeen src).1.modSlot (dieOf c.core) k fun _ => c.parkSlot src n id

/-- The operation of a CPYM. -/
def Ctx.parkOp (c : Ctx) (src : ViewUse) (n k : Nat) (id : SlotId) : CopyOp :=
  c.seen (c.slotTaken src n k id) (c.newOp (c.slotTaken src n k id) (.park (dieOf c.core) id) (some src) none [(c.parkSeen src).2])

/-- The state of a CPYM that has issued. -/
def Ctx.parkIssued (c : Ctx) (src : ViewUse) (n k : Nat) (id : SlotId) : State :=
  (c.startOp (c.slotTaken src n k id) c.tagNo (c.parkOp src n k id)).bumpId

/-- The id of a parking in a slot. -/
def Ctx.slotId (c : Ctx) (k : Nat) (slot : Slot) : SlotId := { seq := slot.seq + 1, vdie := BitVec.ofNat 4 c.c.vdie, slot := BitVec.ofNat 5 k }

theorem issueMulticast_eq (hd : c.dtag? = none) (src : ViewUse) (n k : Nat) (slot : Slot) : c.issueMulticast src n k slot =
    .go (c.put (c.parkIssued src n k (c.slotId k slot)) fun _ => (c.slotId k slot).word.setWidth 64) none c.grow := by
  unfold Ctx.issueMulticast
  simp only [hd]
  rfl

theorem cpymBody_issue {src : ViewUse} {d : Die} {k : Nat} (hs : c.copyStalls = false) (hd : c.dtag? = none) (ha : c.viewUse c.f.e.a = some src)
    (hn : src.view.count * elemSize src.view.ty ≤ 65536) (h1 : 1 ≤ (loWord (c.b c.low)).toNat) (h2 : (loWord (c.b c.low)).toNat ≤ 255)
    (hr : src.view.canRead = true) (hdie : c.s.die? (dieOf c.core) = some d) (hk : (d.slots.findIdx? fun x => x.use.isNone) = some k) :
    cpymBody c = c.issueMulticast src (loWord (c.b c.low)).toNat k (d.slots.getD k Slot.free) := by
  rw [cpymBody, hs, hd, Bool.false_or, if_neg Bool.false_ne_true, ha]
  dsimp only
  rw [if_neg (by omega), hr, Bool.not_true, if_neg Bool.false_ne_true, hdie]
  dsimp only
  rw [hk]

theorem memSide_slotTaken (src : ViewUse) (n k : Nat) (id : SlotId) : MemSide c.s (c.slotTaken src n k id) :=
  (sideKept_parkSeen src).1.trans (memSide_modDie _ _ _)

theorem slot?_slotTaken {d : Die} {k : Nat} (hdie : c.s.die? (dieOf c.core) = some d) (hk : k < d.slots.length) (src : ViewUse) (n : Nat)
    (id : SlotId) : (c.slotTaken src n k id).slot? (dieOf c.core) k = some (c.parkSlot src n id) := by
  have h := (sideKept_parkSeen (c := c) src).2.1 (dieOf c.core)
  rw [hdie] at h
  obtain ⟨d', hd', hs⟩ := Option.map_eq_some_iff.mp h
  rw [State.slot?, Ctx.slotTaken, State.modSlot, die?_modDie, if_pos rfl, hd']
  dsimp only [Option.map_some, Option.bind_some]
  rw [getElem?_modNth, if_pos rfl, hs, List.getElem?_eq_getElem hk]
  rfl

end

/-- A slot is read of the dies. -/
theorem slot?_congr {s t : State} (h : t.dies = s.dies) (d k : Nat) : t.slot? d k = s.slot? d k := by rw [State.slot?, State.die?, h]; rfl

section
variable {c : Ctx}

theorem crew?_parkIssued (h : c.s.crew? c.r.crew = some c.c) (src : ViewUse) (n k : Nat) (id : SlotId) :
    (c.parkIssued src n k id).crew? c.r.crew = some (c.c.withTag c.tagNo fun _ => Tag.started (c.parkOp src n k id)) :=
  crew?_startOp (((memSide_slotTaken src n k id).crew? _).trans h) _

theorem strand?_parkIssued (h : c.s.strand? c.r = some c.t) (src : ViewUse) (n k : Nat) (id : SlotId) :
    (c.parkIssued src n k id).strand? c.r = some c.t := by
  have h1 := strand?_modTag (c.slotTaken src n k id) c.r c.tagNo fun _ => Tag.started (c.parkOp src n k id)
  rw [(memSide_slotTaken src n k id).strand?, h] at h1
  exact h1

/-- What a crew is but for its strands, where a strand has been written. -/
theorem bare_modStrand {s : State} {r : StrandRef} {k : Crew} (h : s.crew? r.crew = some k) (f : Strand → Strand) :
    ∃ k', (s.modStrand r f).crew? r.crew = some k' ∧ k'.bare = k.bare :=
  ⟨_, (crew?_modStrand_same s r f).trans (congrArg _ h), rfl⟩

theorem dies_leave (c : Ctx) (s : State) (st : Path → Path) (n : Nat) : (c.leave s 0 st none n).dies = s.dies := by
  obtain ⟨⟨_, _, _, _, _, h⟩, -, -⟩ := FrameOf.leave c s st none n
  rw [h]

theorem dies_put_parkIssued (src : ViewUse) (n k : Nat) (p : SlotId) (f : Nat → DWord) :
    (c.put (c.parkIssued src n k p) f).dies = (c.slotTaken src n k p).dies := rfl

/-- A CPYM that has issued: its register, its tag and its slot. -/
theorem parkIssued_spec (hc : c.s.crew? c.r.crew = some c.c) (hs : c.s.strand? c.r = some c.t) (ha : c.act ≠ 0)
    (hn : c.tagNo < c.c.tags.length) {d : Die} {k : Nat} (hdie : c.s.die? (dieOf c.core) = some d) (hk : k < d.slots.length) (src : ViewUse)
    (n : Nat) (p : SlotId) (beats : Nat) :
    ∃ (t : State) (u : Strand), t = c.leave (c.put (c.parkIssued src n k p) fun _ => p.word.setWidth 64) 0 id none beats ∧ t.strand? c.r = some u ∧
      Wrote c.f.e.d c.f.dstWide c.act (fun _ => p.word.setWidth 64) u ∧
      (∃ k' o, t.crew? c.r.crew = some k' ∧ k'.tag c.tagNo = Tag.started o ∧ o.kind = .park (dieOf c.core) p ∧ o.src = some src ∧
        o.strand = c.t.idx ∧ o.core = c.core ∧ o.phase = c.c.phase) ∧
      t.slot? (dieOf c.core) k = some (c.parkSlot src n p) := by
  have hst : (c.put (c.parkIssued src n k p) fun _ => p.word.setWidth 64).strand? c.r = some (c.t.put (c.result fun _ => p.word.setWidth 64)) := by
    rw [Ctx.put, Ctx.onStrand, strand?_modStrand_same _ _ _ fun t => put_idx t _, strand?_parkIssued hs]
    rfl
  obtain ⟨a, b, e, hu⟩ := leave_strand c _ _ id none beats hst
  obtain ⟨k1, hk1, hb1⟩ := bare_modStrand (r := c.r) (crew?_parkIssued hc src n k p) fun t => t.put (c.result fun _ => p.word.setWidth 64)
  obtain ⟨k2, hk2, hb2⟩ := bare_leave (s := c.put (c.parkIssued src n k p) fun _ => p.word.setWidth 64) hk1 beats
  obtain ⟨l, ho⟩ := seen_cases c (c.slotTaken src n k p) (c.newOp (c.slotTaken src n k p) (.park (dieOf c.core) p) (some src) none [(c.parkSeen src).2])
  refine ⟨_, _, rfl, hu, (wrote_put ha c.t _).same ⟨rfl, rfl, rfl, rfl⟩, ⟨k2, c.parkOp src n k p, hk2,
    (tag_of_bare (hb2.trans hb1) _).trans (tag_started hn _), ?_⟩, ?_⟩
  · rw [show c.parkOp src n k p = _ from ho]
    exact ⟨rfl, rfl, rfl, rfl, rfl⟩
  · rw [slot?_congr ((dies_leave c _ id beats).trans (dies_put_parkIssued src n k p _))]
    exact slot?_slotTaken hdie hk src n p

/-! ## CDRAIN -/

/-- The state in which the destination of a CDRAIN has been written back. -/
def Ctx.drainFlushed (c : Ctx) (dst : ViewUse) : State := c.s.flushMeeting c.core c.ctx dst.view

/-- The operation of a CDRAIN. -/
def Ctx.drainOp (c : Ctx) (dst : ViewUse) : CopyOp :=
  c.newOp (c.drainFlushed dst) (.drain ((slotIdOf (loWord (c.a c.low))).getD { seq := 0, vdie := 15, slot := 0 }) false) none (some dst) []

/-- The state of an operation that has issued. -/
def Ctx.opIssued (c : Ctx) (s : State) (o : CopyOp) : State := (c.startOp s c.tagNo o).bumpId

theorem cdrainBody_issue {dst : ViewUse} (hs : c.copyStalls = false) (hd : c.viewUse c.f.e.d = some dst) (hn : dst.view.count ≤ 16777215)
    (hw : dst.view.canWrite = true) : cdrainBody c = .go (c.opIssued (c.drainFlushed dst) (c.drainOp dst)) none 0 := by
  rw [cdrainBody, hs, if_neg Bool.false_ne_true, hd]
  dsimp only
  rw [if_neg (Nat.not_lt.mpr hn), hw, Bool.not_true, if_neg Bool.false_ne_true]
  rfl

/-- An operation that has issued: its tag is BUSY with it, and the registers stand. -/
theorem opIssued_spec (hc : c.s.crew? c.r.crew = some c.c) (hs : c.s.strand? c.r = some c.t) (hn : c.tagNo < c.c.tags.length) {s : State}
    (hm : MemSide c.s s) (o : CopyOp) (n : Nat) :
    ∃ u k, (c.leave (c.opIssued s o) 0 id none n).strand? c.r = some u ∧ SameRegs u c.t ∧
      (c.leave (c.opIssued s o) 0 id none n).crew? c.r.crew = some k ∧ k.tag c.tagNo = Tag.started o := by
  have h1 : (c.opIssued s o).strand? c.r = some c.t := by
    have h := strand?_modTag s c.r c.tagNo fun _ => Tag.started o
    rw [hm.strand?, hs] at h
    exact h
  obtain ⟨u, hu, hr⟩ := strand_leave h1 n
  obtain ⟨k, hk, hb⟩ := bare_leave (s := c.opIssued s o) (crew?_startOp ((hm.crew? _).trans hc) o) n
  exact ⟨u, k, hu, hr, hk, (tag_of_bare hb _).trans (tag_started hn _)⟩

/-! ## NMV -/

/-- An NMV whose pages have been translated: what meets its views is written back, and the operands have been taken. -/
def Ctx.nmvReady (c : Ctx) (s : State) (pages : List (Nat × Xlate)) (wb wx wy : ViewUse) (fb : Option FormatBlock) : State :=
  (((s.flushMeeting c.core c.ctx wb.view).flushMeeting c.core c.ctx wx.view).flushMeeting c.core c.ctx wy.view).fillOperands c.core c.ctx pages
    (nmvScales wb.view fb)

theorem memSide_nmvReady (s : State) (pages : List (Nat × Xlate)) (wb wx wy : ViewUse) (fb : Option FormatBlock) :
    MemSide s (c.nmvReady s pages wb wx wy fb) :=
  ((((sideKept_flushMeeting _ _ _ _).trans (sideKept_flushMeeting _ _ _ _)).trans (sideKept_flushMeeting _ _ _ _)).trans
    (sideKept_fillOperands _ _ _ _ _)).1

/-- The operation of an NMV. -/
def Ctx.nmvOp (c : Ctx) (s : State) (pages : List (Nat × Xlate)) (wb wx wy : ViewUse) (fb : Option FormatBlock) (rnd : BitVec 2) : CopyOp :=
  { c.newOp (c.nmvReady s pages wb wx wy fb) (.nmv fb rnd (c.f.e.mod.getLsbD 3)) (some wb) (some wy)
      (([wb.view.source, wx.view.source].map fun y => y.read c.c.store (transOf pages) (c.nmvReady s pages wb wx wy fb).copyByte) ++
        (nmvScales wb.view fb).map fun y => y.read c.c.store (transOf pages) ((c.nmvReady s pages wb wx wy fb).opByte c.core c.ctx true)) with
    aux := some wx
    pages := pages.filter fun p => (pagesOf (wb.view.source :: nmvScales wb.view fb)).contains p.1 }

theorem Runs.unresolved {s : State} {f : Form} (hr : Runs s f c) : c.unresolved? = none := by
  obtain ⟨d, hd, hf, rfl⟩ := hr
  simp only [Ctx.free, Bool.and_eq_true, Option.isNone_iff_eq_none] at hf
  exact hf.1.1.1.1.1.1

theorem issueNmv_go {wb wx wy : ViewUse} {fb : Option FormatBlock} {s' : State} {pages : List (Nat × Xlate)} {rnd : BitVec 2}
    (hu : c.unresolved? = none)
    (ht : c.s.transAll c.core c.ctx
      [(.read, pagesOf (wb.view.source :: nmvScales wb.view fb)), (.read, pagesOf [wx.view.source]), (.write, pagesOf [wy.view.source])] =
        (s', .inl pages)) :
    c.issueNmv wb wx wy fb rnd = .go (c.opIssued (c.nmvReady s' pages wb wx wy fb)
      (c.seen (c.nmvReady s' pages wb wx wy fb) (c.nmvOp s' pages wb wx wy fb rnd))) none 0 := by
  rw [Ctx.issueNmv, hu]
  dsimp only
  rw [ht]
  rfl

theorem nmvBody_issue {wb wx wy : ViewUse} {fb : Option FormatBlock} {s' : State} {pages : List (Nat × Xlate)} (hu : c.unresolved? = none)
    (hs : c.copyStalls = false) (hd : c.viewUse c.f.e.d = some wy) (ha : c.viewUse c.f.e.a = some wb) (hb : c.viewUse c.f.e.b = some wx)
    (hfb : c.nmvBlock wb.view = .inl fb) (hsh : nmvShape c.f.e.ty wb.view wx.view wy.view fb = true)
    (hst : (c.s.touchPages c.core c.ctx .read (pagesOf [wb.view.source])).nmvStray c.core c.ctx wb.view = none)
    (h1 : wb.view.canRead = true) (h2 : wx.view.canRead = true) (h3 : wy.view.canWrite = true)
    (ht : (c.s.touchPages c.core c.ctx .read (pagesOf [wb.view.source])).transAll c.core c.ctx
      [(.read, pagesOf (wb.view.source :: nmvScales wb.view fb)), (.read, pagesOf [wx.view.source]), (.write, pagesOf [wy.view.source])] =
        (s', .inl pages)) :
    nmvBody c = .go (c.opIssued (c.nmvReady s' pages wb wx wy fb)
      (c.seen (c.nmvReady s' pages wb wx wy fb) (c.nmvOp s' pages wb wx wy fb c.rmCode))) none 0 := by
  have hi := issueNmv_go (c := { c with s := c.s.touchPages c.core c.ctx .read (pagesOf [wb.view.source]) }) (fb := fb) (rnd := c.rmCode) hu ht
  rw [nmvBody, hs, if_neg Bool.false_ne_true, hd, ha, hb]
  dsimp only
  rw [hfb]
  dsimp only
  rw [hsh, Bool.not_true, if_neg Bool.false_ne_true, hst]
  dsimp only
  rw [h1, h2, h3, if_neg (by decide)]
  exact hi

end

/-- Settles O38: the checks pass, and the issue makes the tag BUSY. -/
theorem copiesStart : Obligations.CopiesStart := by
  unfold Obligations.CopiesStart
  intro started
  refine ⟨fun e s c src dst hr hs hn hd ha hty hcnt h1 h2 hm => ?_, fun e s c src dst f hr hs hn hd ha hty hcnt h1 h2 hm hf => ?_,
    fun e s c src d k hr hs hn hi ha hsz hb1 hb2 h1 hdie hk => ?_, fun e s c dst hr hs hn hd hcnt h2 => ?_,
    fun e s c wb wx wy fb s' pages hr hs hn hd ha hb hfb hsh => ?_⟩
  · obtain ⟨-, hc, hst, hfm, -, -⟩ := hr.spec
    have hbody : cpyBody c = c.issueCopy src dst none := by
      rw [cpyBody_issue hs (by rw [hfm]; exact hd) (by rw [hfm]; exact ha) hty hcnt h1 h2, if_neg (by rw [hfm]; exact ne_true_of_eq_false hm)]
    obtain ⟨u, hu, hru⟩ := strand_leave (strand?_copyIssued hst src dst none) (c.beats + 0)
    obtain ⟨k, o, hk, ht, ho1, ho2, ho3, ho4, hfo, hoth⟩ := copyIssued_spec hc hn src dst none (c.beats + 0)
    refine ⟨_, u, exec_of_body cpyBody rfl hr (hbody.trans (issueCopy_eq src dst none)), hu, hru,
      ⟨k, o, hk, by rw [ht]; rfl, by rw [ht]; rfl, ⟨ho1, ho2, ho3⟩, ho4⟩, fun k' hk' => ?_⟩
    obtain rfl := Option.some.inj (hk'.symm.trans hk)
    exact ⟨hfo.trans (List.append_nil _), hoth⟩
  · obtain ⟨-, hc, hst, hfm, -, -⟩ := hr.spec
    have hbody : cpyBody c = c.issueCopy src dst (some f) := by
      rw [cpyBody_issue hs (by rw [hfm]; exact hd) (by rw [hfm]; exact ha) hty hcnt h1 h2, if_pos (by rw [hfm]; exact hm), hf]
    obtain ⟨k, o, hk, ht, ho1, ho2, ho3, ho4, hfo, hoth⟩ := copyIssued_spec hc hn src dst (some f) (c.beats + 0)
    refine ⟨_, exec_of_body cpyBody rfl hr (hbody.trans (issueCopy_eq src dst _)),
      ⟨k, o, hk, by rw [ht]; rfl, by rw [ht]; rfl, ⟨ho1, ho2, ho3⟩, ho4⟩, fun k' hk' => ?_⟩
    obtain rfl := Option.some.inj (hk'.symm.trans hk)
    exact hfo
  · intro p
    obtain ⟨-, hc, hst, hfm, -, hact⟩ := hr.spec
    have hdt : c.dtag? = none := by rw [Ctx.dtag?, hfm]; exact if_neg (ne_true_of_eq_false hi)
    have hlt : k < d.slots.length := (List.findIdx?_eq_some_iff_getElem.mp hk).1
    have hbody := (cpymBody_issue hs hdt (by rw [hfm]; exact ha) hsz hb1 hb2 h1 hdie hk).trans (issueMulticast_eq hdt src _ k _)
    obtain ⟨t, u, ht, hu, hw, ⟨k', o, hk', htag, ho⟩, hslot⟩ :=
      parkIssued_spec hc hst hact hn hdie hlt src (loWord (c.b c.low)).toNat p (c.beats + c.grow)
    have hdw : Wrote e.d (Form.ofExt 0x91 e).dstWide = Wrote c.f.e.d c.f.dstWide := by rw [hfm]; rfl
    refine ⟨t, u, (exec_of_body cpymBody rfl hr hbody).trans (by rw [ht]; rfl), hu, by rw [hdw]; exact hw,
      ⟨k', o, hk', by rw [htag]; rfl, by rw [htag]; rfl, ⟨ho.1, ho.2.1⟩, ho.2.2⟩, _, hslot, ?_, rfl, rfl⟩
    rw [Slot.holds, Ctx.parkSlot, decide_eq_true rfl]
    exact decide_eq_true rfl
  · obtain ⟨-, hc, hst, hfm, -, -⟩ := hr.spec
    obtain ⟨u, k, hu, hru, hk, htag⟩ := opIssued_spec hc hst hn (sideKept_flushMeeting c.s c.core c.ctx dst.view).1 (c.drainOp dst) (c.beats + 0)
    refine ⟨_, u, exec_of_body cdrainBody rfl hr (cdrainBody_issue hs (by rw [hfm]; exact hd) hcnt h2), hu, hru,
      k, c.drainOp dst, hk, by rw [htag]; rfl, by rw [htag]; rfl, ⟨rfl, _, rfl, fun i hi => ?_⟩, rfl, rfl, rfl⟩
    rw [hi]
    rfl
  · intro v hst h1 h2 h3 ht
    obtain ⟨-, hc, hss, hfm, -, -⟩ := hr.spec
    have hms : MemSide c.s s' := by
      have h := sideKept_transAll [(.read, pagesOf (wb.view.source :: nmvScales wb.view fb)), (.read, pagesOf [wx.view.source]),
        (.write, pagesOf [wy.view.source])] v c.core c.ctx
      rw [ht] at h
      exact ((sideKept_touchPages _ _ _ _ _).trans h).1
    obtain ⟨l, hl⟩ := seen_cases c (c.nmvReady s' pages wb wx wy fb) (c.nmvOp s' pages wb wx wy fb c.rmCode)
    obtain ⟨u, k, hu, hru, hk, htag⟩ := opIssued_spec hc hss hn (hms.trans (memSide_nmvReady s' pages wb wx wy fb))
      (c.seen (c.nmvReady s' pages wb wx wy fb) (c.nmvOp s' pages wb wx wy fb c.rmCode)) (c.beats + 0)
    refine ⟨_, exec_of_body nmvBody rfl hr (nmvBody_issue hr.unresolved hs (by rw [hfm]; exact hd) (by rw [hfm]; exact ha) (by rw [hfm]; exact hb) hfb
      (by rw [hfm]; exact hsh) hst h1 h2 h3 ht), k, _, hk, by rw [htag]; rfl, by rw [htag]; rfl, ?_⟩
    rw [hl]
    have hm : c.f.e.mod = e.mod := by rw [hfm]; rfl
    exact ⟨⟨congrArg (fun m : BitVec 4 => CopyKind.nmv fb c.rmCode (m.getLsbD 3)) hm, rfl, rfl, rfl⟩, rfl, rfl, rfl⟩

end Sys2Proof.Machine
end

