-- ==== Sys2Proof/Proofs/Tiles.lean ====
section
/-! SUPPORT. Tile operations: their issue into the queue of their core, and what they do at their end (R228 to R241). -/
namespace Sys2Proof.Machine

/-! ## The queue -/

section
variable {c : Ctx}

/-- A tile operation with its operands. -/
def Ctx.tileOp (c : Ctx) (n : Nat) (kind : TileKind) (td ts : Nat) (pages : List (Nat × Xlate)) (olds : List Snap) : TileOp :=
  { id := n, crew := c.r.crew, strand := c.t.idx, lane := c.low, kind := kind, td := td, ts := ts, follow := none, phase := c.c.phase,
    pages := pages, olds := olds }

/-- A tile operation whose pages are translated enters the queue; whether it has seen its operands depends on the earlier locks. -/
theorem queueOp_go (hu : c.unresolved? = none) {kind : TileKind} {td ts : Nat} {pages : List (Nat × Xlate)}
    (ht : (c.s.transPages c.core c.ctx kind.pages.2 kind.pages.1).2 = .inl pages) :
    ∃ s n olds, SideKept c.s s ∧ c.queueOp kind td ts = .go (s.queueTile c.core (c.tileOp n kind td ts pages olds)).bumpId none 0 := by
  have hk := sideKept_transPages kind.pages.1 c.s c.core c.ctx kind.pages.2
  rw [Ctx.queueOp, hu]
  dsimp only
  rw [ht]
  dsimp only
  split
  · exact ⟨_, _, _, hk, rfl⟩
  · exact ⟨_, _, _, hk.trans (sideKept_fillOperands _ _ _ _ _), rfl⟩

theorem sameTime_queued (s : State) (core : Nat) (o : TileOp) : SameTime s (s.queueTile core o).bumpId := ⟨rfl, rfl, rfl, rfl, rfl⟩

theorem SameTime.trans {s t u : State} (h : SameTime s t) (k : SameTime t u) : SameTime s u := by
  obtain ⟨h1, h2, h3, h4, h5⟩ := h
  obtain ⟨k1, k2, k3, k4, k5⟩ := k
  exact ⟨k1.trans h1, k2.trans h2, k3.trans h3, k4.trans h4, k5.trans h5⟩

/-- The queue of a core to which an operation has been added. -/
theorem core?_queued {s : State} {k : Core} (h : SideKept c.s s) (hc : c.s.core? c.core = some k) (o : TileOp) (n : Nat) :
    ∃ k', (c.leave (s.queueTile c.core o).bumpId 0 id none n).core? c.core = some k' ∧ k'.tileQ = k.tileQ ++ [o] := by
  have h1 := h.2.2 c.core
  rw [hc] at h1
  obtain ⟨k1, hk1, hq⟩ := Option.map_eq_some_iff.mp h1
  refine ⟨{ k1 with tileQ := k1.tileQ ++ [o] }, ?_, congrArg (· ++ [o]) hq⟩
  rw [core?_leave]
  exact (core?_modCore_same s c.core _).trans (congrArg _ hk1)

end

/-- A tile instruction whose checks pass queues its operation. -/
theorem queues_of {i : Instr} {f : Form} {ok : Ctx → Prop} {kind : Ctx → TileKind} {td ts : Nat} (body : Ctx → Eff)
    (he : ∀ s, exec i s = issue f (tileBody body) s) (hb : ∀ c : Ctx, c.f = f → ok c → body c = c.queueOp (kind c) td ts) :
    Queues i f ok kind td ts := by
  intro s c k pages hr hok hst hk ht
  obtain ⟨-, -, hs, hf, -, -⟩ := hr.spec
  obtain ⟨s', n, olds, hkept, hq⟩ := queueOp_go hr.unresolved (td := td) (ts := ts) ht
  have hbody : tileBody body c = .go (s'.queueTile c.core (c.tileOp n (kind c) td ts pages olds)).bumpId none 0 := by
    rw [tileBody, hst, if_neg Bool.false_ne_true, hb c hf hok, hq]
  have htime := hkept.1.sameTime.trans (sameTime_queued s' c.core (c.tileOp n (kind c) td ts pages olds))
  obtain ⟨k', hk', htq⟩ := core?_queued hkept hk (c.tileOp n (kind c) td ts pages olds) (c.beats + 0)
  obtain ⟨a, b, e, hu⟩ := leave_strand c (s'.queueTile c.core (c.tileOp n (kind c) td ts pages olds)).bumpId c.t id none (c.beats + 0)
    ((strand?_of_crews htime.1 _).trans hs)
  refine ⟨_, k', _, _, exec_of_body _ (he s) hr hbody, hk', htq, rfl, rfl, rfl, rfl, rfl, rfl, hu, ⟨rfl, rfl, rfl, rfl⟩, rfl, fun v hv => ?_⟩
  rw [← strand?_of_crews (crews_leave_congr c htime 0 id none c.beats)] at hv
  obtain rfl := Option.some.inj (hv.symm.trans hu)
  exact ⟨rfl, rfl, rfl⟩

theorem tileNo_t {o : Opd} {n : BitVec 3} (h : o = .t n) : tileNo o = n.toNat := by rw [h]; rfl

theorem tileViewTrap_none {t : Ty} {v : View} {right : Bool} (h : v.tileShape t = true) (hr : right = true) : tileViewTrap t v right = none := by
  rw [tileViewTrap, h, hr]
  rfl

/-- Settles O40: each form's checks pass, and the operation is queued. -/
theorem tilesQueue : Obligations.TilesQueue := by
  unfold Obligations.TilesQueue
  intro size
  refine ⟨fun e d hd => queues_of _ (fun _ => rfl) fun c hf _ => ?_, fun e d a hd ha => queues_of _ (fun _ => rfl) fun c hf _ => ?_,
    fun e d a hd ha => queues_of _ (fun _ => rfl) fun c hf _ => ?_, fun e d a hd ha => queues_of mpermBody (fun _ => rfl) fun c hf h => ?_,
    fun e d w hd => queues_of _ (fun _ => rfl) fun c hf ⟨h1, h2, h3⟩ => ?_, fun e a w ha => queues_of _ (fun _ => rfl) fun c hf ⟨h1, h2, h3⟩ => ?_,
    fun e d wa wb hd => queues_of mmaBody (fun _ => rfl) fun c hf ⟨h1, h2, h3, h4⟩ => ?_,
    fun e s c hr h => exec_of_stay _ rfl hr (if_pos h)⟩
  · rw [hf, tileNo_t (o := (Form.ofExt 0xA1 e).e.d) hd]
  · rw [hf, tileNo_t (o := (Form.ofExt 0xA4 e).e.d) hd, tileNo_t (o := (Form.ofExt 0xA4 e).e.a) ha]
  · rw [hf, tileNo_t (o := (Form.ofExt 0xA6 e).e.d) hd, tileNo_t (o := (Form.ofExt 0xA6 e).e.a) ha]
    rfl
  · rw [mpermBody, h, hf, tileNo_t (o := (Form.ofExt 0xA5 e).e.d) hd, tileNo_t (o := (Form.ofExt 0xA5 e).e.a) ha]
  · rw [hf]
    rw [show c.viewUse (Form.ofExt 0xA2 e).e.a = some w from h1]
    dsimp only
    rw [tileViewTrap_none (t := (Form.ofExt 0xA2 e).e.ty) h2 h3, tileNo_t (o := (Form.ofExt 0xA2 e).e.d) hd]
    rfl
  · rw [hf]
    rw [show c.viewUse (Form.ofExt 0xA3 e).e.d = some w from h1]
    dsimp only
    rw [tileViewTrap_none (t := (Form.ofExt 0xA3 e).e.ty) h2 h3, tileNo_t (o := (Form.ofExt 0xA3 e).e.a) ha, Ctx.rmCode, hf]
    rfl
  · rw [mmaBody, hf]
    rw [show c.viewUse (Form.ofExt 0xA0 e).e.a = some wa from h1, show c.viewUse (Form.ofExt 0xA0 e).e.b = some wb from h2]
    dsimp only
    rw [h3]
    dsimp only
    rw [show mmaTrap (Form.ofExt 0xA0 e).e.ty wa.view wb.view _ _ = none from h4, tileNo_t (o := (Form.ofExt 0xA0 e).e.d) hd]
    rfl

end Sys2Proof.Machine
end

