-- ==== Sys2Proof/Proofs/TileResults.lean ====
section
/-! SUPPORT. What tile operations do at their end (R79 to R84, R235 to R241). -/
namespace Sys2Proof.Machine

/-! ## Tables of a function -/

theorem look_filterMap (f : Nat → A80) (n k : Nat) :
    SMap.look 0 ((List.range n).filterMap fun k => let x := f k; if x = 0 then none else some (k, x)) k = if k < n then f k else 0 := by
  have key : ∀ (l : List Nat) , SMap.look 0 (l.filterMap fun k => let x := f k; if x = 0 then none else some (k, x)) k =
      if k ∈ l then f k else 0 := by
    intro l
    induction l with
    | nil => rfl
    | cons a l ih =>
      by_cases ha : f a = 0
      · rw [List.filterMap_cons_none (by simp [ha]), ih]
        by_cases hk : k = a
        · subst hk
          by_cases hl : k ∈ l <;> simp [hl, ha]
        · simp [hk]
      · rw [List.filterMap_cons_some (b := (a, f a)) (by simpa using ha), SMap.look, ih]
        by_cases hk : k = a
        · subst hk; simp
        · simp [hk]
  rw [key]
  simp

theorem tileAt_tileOf (f : Nat → Nat → A80) {i j : Nat} (hi : i < 128) (hj : j < 128) : tileAt (tileOf f) i j = f i j := by
  rw [tileAt, tileOf, look_filterMap (fun k => f (k / 128) (k % 128)), if_pos (by omega)]
  congr 1 <;> omega

/-! ## Entries in integer mode -/

theorem sext_eq_self {v : Int} (w : Nat) (hw : 0 < w) (h1 : -((2 ^ (w - 1) : Nat) : Int) ≤ v) (h2 : v < ((2 ^ (w - 1) : Nat) : Int)) (n : Nat)
    (hn : (n : Int) % ((2 ^ w : Nat) : Int) = v % ((2 ^ w : Nat) : Int)) : sext w n = v := by
  rw [sext_eq_bmod hw, ← Int.emod_bmod, hn, Int.emod_bmod]
  obtain ⟨u, rfl⟩ : ∃ u, w = u + 1 := ⟨w - 1, by omega⟩
  have hp : ((2 ^ (u + 1) : Nat) : Int) = 2 * ((2 ^ u : Nat) : Int) := by rw [Nat.pow_succ]; push_cast; ring
  rw [Nat.add_sub_cancel] at h1 h2
  exact Int.bmod_eq_of_le (by rw [hp]; omega) (by rw [hp]; omega)

theorem a80Int_ofNat (n : Nat) : a80Int (BitVec.ofNat 80 n) = sext 64 n := by
  rw [a80Int, BitVec.toNat_ofNat, sext, sext]
  have : n % 2 ^ 80 % 2 ^ 64 = n % 2 ^ 64 := Nat.mod_mod_of_dvd _ (by decide)
  rw [this]

theorem a80Int_range (x : A80) : -(2 ^ 63 : Int) ≤ a80Int x ∧ a80Int x < 2 ^ 63 := by
  rw [a80Int, sext]
  have := Nat.mod_lt x.toNat (show 0 < 2 ^ 64 by decide)
  split <;> omega

theorem a80Sat_ofNat (n : Nat) : a80Sat (BitVec.ofNat 80 n) = decide (n / 2 ^ 64 % 2 = 1) := by
  rw [a80Sat, BitVec.getLsbD_ofNat, Nat.testBit_eq_decide_div_mod_eq]
  rfl

/-- A sum within the range is kept as it is. -/
theorem a80OfInt_fits {v : Int} (h1 : -(2 ^ 63 : Int) < v) (h2 : v < 2 ^ 63) (sat : Bool) :
    a80Int (a80OfInt sat v) = v ∧ a80Sat (a80OfInt sat v) = sat := by
  have hw : (if v > ((2 ^ 63 - 1 : Nat) : Int) then ((2 ^ 63 - 1 : Nat) : Int) else if v < -((2 ^ 63 - 1 : Nat) : Int) then
      -((2 ^ 63 - 1 : Nat) : Int) else v) = v := by rw [if_neg (by omega), if_neg (by omega)]
  have ho : a80OfInt sat v = BitVec.ofNat 80 (wrap 64 v + if sat then 2 ^ 64 else 0) := by
    rw [a80OfInt, hw]
    simp
  have hr := wrap_lt 64 v
  refine ⟨?_, ?_⟩
  · rw [ho, a80Int_ofNat]
    refine sext_eq_self 64 (by decide) (by omega) (by omega) _ ?_
    have := wrap_eq 64 v
    cases sat <;> simp only [Bool.false_eq_true, if_false, if_true] <;> omega
  · rw [ho, a80Sat_ofNat]
    cases sat
    · exact decide_eq_false (by simp only [Bool.false_eq_true, if_false]; omega)
    · exact decide_eq_true (by simp only [if_true]; omega)

/-- A sum beyond the range sets the flag, and a set flag stays. -/
theorem a80Sat_a80OfInt {sat : Bool} {v : Int} (h : sat = true ∨ ¬(-(2 ^ 63 : Int) < v ∧ v < 2 ^ 63)) : a80Sat (a80OfInt sat v) = true := by
  have hd : ∀ w : Int, (sat || decide (w ≠ v)) = true → a80Sat (BitVec.ofNat 80 (wrap 64 w + if sat || decide (w ≠ v) then 2 ^ 64 else 0)) = true := by
    intro w hw
    have hr := wrap_lt 64 w
    rw [hw, if_pos rfl, a80Sat_ofNat]
    exact decide_eq_true (by omega)
  refine hd _ ?_
  rcases h with h | h
  · rw [h, Bool.true_or]
  · rw [Bool.or_eq_true]
    refine .inr (decide_eq_true fun he => h ?_)
    split at he
    · omega
    · split at he <;> omega

/-! ## MRED -/

/-- The sum of the first entries of a row. -/
def rowSum (t : Tile) (i : Nat) (n : Nat) : Int := (List.range (n + 1)).foldl (fun a k => a + a80Int (tileAt t i k)) 0

/-- The entry of a row's sum after some of its addends. -/
def rowEntry (t : Tile) (i n : Nat) : A80 :=
  (List.range n).foldl
    (fun acc k => a80OfInt (a80Sat acc || a80Sat (tileAt t i (k + 1))) (a80Int acc + a80Int (tileAt t i (k + 1))))
    (BitVec.ofNat 80 ((tileAt t i 0).toNat % 2 ^ 65))

theorem rowSum_succ (t : Tile) (i n : Nat) : rowSum t i (n + 1) = rowSum t i n + a80Int (tileAt t i (n + 1)) := by
  rw [rowSum, List.range_succ, List.foldl_append]
  rfl

theorem rowEntry_succ (t : Tile) (i n : Nat) : rowEntry t i (n + 1) =
    a80OfInt (a80Sat (rowEntry t i n) || a80Sat (tileAt t i (n + 1))) (a80Int (rowEntry t i n) + a80Int (tileAt t i (n + 1))) := by
  rw [rowEntry, List.range_succ, List.foldl_append]
  rfl

theorem tileAt_reduceRows (t : Tile) {i : Nat} (hi : i < 128) : tileAt (reduceRows true t) i 0 = rowEntry t i 127 := by
  rw [reduceRows, tileAt_tileOf _ hi (by decide), if_neg (by decide)]
  simp only [if_true]
  rfl

/-- Where no addend has its flag set, the sum is exact, or its flag is set. -/
theorem rowEntry_spec {t : Tile} {i : Nat} (h : ∀ k, k < 128 → a80Sat (tileAt t i k) = false) (n : Nat) (hn : n < 128) :
    a80Sat (rowEntry t i n) = true ∨ a80Sat (rowEntry t i n) = false ∧ a80Int (rowEntry t i n) = rowSum t i n ∧ (0 < n → -(2 ^ 63 : Int) < rowSum t i n) := by
  induction n with
  | zero =>
    refine .inr ⟨?_, ?_, fun hn => absurd hn (Nat.lt_irrefl 0)⟩
    · have h0 := h 0 (by decide)
      rw [a80Sat, BitVec.getLsbD, Nat.testBit_eq_decide_div_mod_eq, decide_eq_false_iff_not] at h0
      rw [rowEntry, List.range_zero, List.foldl_nil, a80Sat_ofNat]
      exact decide_eq_false (by omega)
    · have hm : (tileAt t i 0).toNat % 2 ^ 65 % 2 ^ 64 = (tileAt t i 0).toNat % 2 ^ 64 := Nat.mod_mod_of_dvd _ (by decide)
      have hs : rowSum t i 0 = a80Int (tileAt t i 0) := by simp [rowSum]
      rw [rowEntry, List.range_zero, List.foldl_nil, a80Int_ofNat, hs, a80Int, sext, sext, hm]
  | succ n ih =>
    rw [rowEntry_succ, h (n + 1) hn, Bool.or_false, rowSum_succ]
    rcases ih (Nat.lt_of_succ_lt hn) with hs | ⟨hs, hv, -⟩
    · exact .inl (a80Sat_a80OfInt (.inl hs))
    · rw [hs, hv]
      by_cases hf : -(2 ^ 63 : Int) < rowSum t i n + a80Int (tileAt t i (n + 1)) ∧ rowSum t i n + a80Int (tileAt t i (n + 1)) < 2 ^ 63
      · obtain ⟨h1, h2⟩ := a80OfInt_fits hf.1 hf.2 false
        exact .inr ⟨h2, h1, fun _ => hf.1⟩
      · exact .inl (a80Sat_a80OfInt (.inr hf))

theorem reduceRows_sum {t : Tile} {i : Nat} (hi : i < 128) (h : ∀ k, k < 128 → a80Sat (tileAt t i k) = false) :
    a80Int (tileAt (reduceRows true t) i 0) = a80Int (a80OfInt false (rowSum t i 127)) ∨ a80Sat (tileAt (reduceRows true t) i 0) = true := by
  rw [tileAt_reduceRows t hi]
  rcases rowEntry_spec h 127 (by decide) with hs | ⟨-, hv, hlo⟩
  · exact .inr hs
  · refine .inl ?_
    have hr := a80Int_range (rowEntry t i 127)
    rw [hv] at hr ⊢
    exact (a80OfInt_fits (hlo (by decide)) hr.2 false).1.symm

/-! ## MMA of signed bytes -/

theorem sext_byte_range (n : Nat) : -128 ≤ sext 8 n ∧ sext 8 n ≤ 127 := by
  rw [sext]
  have := Nat.mod_lt n (show 0 < 2 ^ 8 by decide)
  split <;> omega

theorem product_range (a b : Nat) : -(2 ^ 14 : Int) ≤ sext 8 a * sext 8 b ∧ sext 8 a * sext 8 b ≤ 2 ^ 14 := by
  obtain ⟨h1, h2⟩ := sext_byte_range a
  obtain ⟨h3, h4⟩ := sext_byte_range b
  constructor <;> nlinarith

/-- The sum of an entry and the products of its row and column. -/
def dotSum (x : ProductIn) (z : Int) (i j n : Nat) : Int :=
  (List.range n).foldl
    (fun z k => z + sext 8 (snapVal (x.a.getD (k + 128 * i) none)) * sext 8 (snapVal (x.b.getD (j + 128 * k) none))) z

theorem dotSum_succ (x : ProductIn) (z : Int) (i j n : Nat) : dotSum x z i j (n + 1) =
    dotSum x z i j n + sext 8 (snapVal (x.a.getD (n + 128 * i) none)) * sext 8 (snapVal (x.b.getD (j + 128 * n) none)) := by
  rw [dotSum, List.range_succ, List.foldl_append]
  rfl

/-- One addend of a product. -/
def ProductIn.addend (x : ProductIn) (i j : Nat) (acc : A80 × Bool) (k : Nat) : A80 × Bool :=
  let int := decide (x.fb.fmtA = .s8)
  let sa := scaleAt x.fb.blkA x.sa 128 i k
  let sb := scaleAt x.fb.blkB x.sb 128 j k
  let bad := acc.2 || sa.2 || sb.2
  if sa.1 = -128 ∨ sb.1 = -128 then (acc.1, bad)
  else
    let a := elemCode x.fb.fmtA x.a (k + 128 * i)
    let b := elemCode x.fb.fmtB x.b (j + 128 * k)
    (if int then a80OfInt (a80Sat acc.1) (a80Int acc.1 + sext 8 a.1 * sext 8 b.1)
     else a80Add acc.1 (roundedProduct x.fb.fmtA x.fb.fmtB a.1 b.1 sa.1 sb.1),
     bad || a.2 || b.2)

theorem entry_eq (x : ProductIn) (old : A80) (i j : Nat) : x.entry old i j =
    if ((List.range 128).foldl (x.addend i j) (old, false)).2 then (if decide (x.fb.fmtA = .s8) then BitVec.ofNat 80 (2 ^ 64) else a80Nan)
    else ((List.range 128).foldl (x.addend i j) (old, false)).1 := rfl

section
variable {x : ProductIn} (h1 : x.fb.fmtA = .s8) (h2 : x.fb.fmtB = .s8) (h3 : x.fb.blkA = 0) (h4 : x.fb.blkB = 0)
include h1 h2 h3 h4

theorem addend_bytes (i j k : Nat) (acc : A80 × Bool) : x.addend i j acc k =
    (a80OfInt (a80Sat acc.1) (a80Int acc.1 + sext 8 (snapVal (x.a.getD (k + 128 * i) none)) * sext 8 (snapVal (x.b.getD (j + 128 * k) none))),
      acc.2 || snapBad (x.a.getD (k + 128 * i) none) || snapBad (x.b.getD (j + 128 * k) none)) := by
  unfold ProductIn.addend
  rw [h1, h2, h3, h4]
  simp [scaleAt, elemCode]

/-- The products are added exactly: no sum leaves the range. -/
theorem addends_spec {old : A80} {i j : Nat} (hs : a80Sat old = false) (hlo : -(2 ^ 62 : Int) ≤ a80Int old) (hhi : a80Int old ≤ 2 ^ 62)
    (hb : ∀ k, k < 128 → snapBad (x.a.getD (k + 128 * i) none) = false ∧ snapBad (x.b.getD (j + 128 * k) none) = false) (n : Nat) (hn : n ≤ 128) :
    ∃ y, (List.range n).foldl (x.addend i j) (old, false) = (y, false) ∧ a80Sat y = false ∧ a80Int y = dotSum x (a80Int old) i j n ∧
      -(2 ^ 62 : Int) - n * 2 ^ 14 ≤ dotSum x (a80Int old) i j n ∧ dotSum x (a80Int old) i j n ≤ 2 ^ 62 + n * 2 ^ 14 := by
  induction n with
  | zero => exact ⟨old, rfl, hs, rfl, by simpa [dotSum] using hlo, by simpa [dotSum] using hhi⟩
  | succ n ih =>
    obtain ⟨y, hy, hys, hyv, hl, hh⟩ := ih (Nat.le_of_succ_le hn)
    obtain ⟨hb1, hb2⟩ := hb n hn
    obtain ⟨hp1, hp2⟩ := product_range (snapVal (x.a.getD (n + 128 * i) none)) (snapVal (x.b.getD (j + 128 * n) none))
    have hn' : (n : Int) ≤ 127 := by omega
    rw [List.range_succ, List.foldl_append, hy, List.foldl_cons, List.foldl_nil, addend_bytes h1 h2 h3 h4, hb1, hb2, hys, hyv, ← dotSum_succ,
      Bool.or_false, Bool.or_false]
    rw [← hyv, hyv] at *
    have hd := dotSum_succ x (a80Int old) i j n
    obtain ⟨hf1, hf2⟩ := a80OfInt_fits (v := dotSum x (a80Int old) i j (n + 1)) (by omega) (by omega) false
    exact ⟨_, rfl, hf2, hf1, by push_cast; omega, by push_cast; omega⟩

theorem product_bytes {t : Tile} {i j : Nat} (hi : i < 128) (hj : j < 128) (hs : a80Sat (tileAt t i j) = false)
    (hlo : -(2 ^ 62 : Int) ≤ a80Int (tileAt t i j)) (hhi : a80Int (tileAt t i j) ≤ 2 ^ 62)
    (hb : ∀ k, k < 128 → snapBad (x.a.getD (k + 128 * i) none) = false ∧ snapBad (x.b.getD (j + 128 * k) none) = false) :
    a80Sat (tileAt (x.product t) i j) = false ∧ a80Int (tileAt (x.product t) i j) = dotSum x (a80Int (tileAt t i j)) i j 128 := by
  obtain ⟨y, hy, hys, hyv, -, -⟩ := addends_spec h1 h2 h3 h4 hs hlo hhi hb 128 (Nat.le_refl _)
  rw [ProductIn.product, tileAt_tileOf _ hi hj, entry_eq, hy, if_neg Bool.false_ne_true]
  exact ⟨hys, hyv⟩

end

/-! ## Elements of views -/

theorem getD_read (x : Source) (store : SMap Byte) (tr : Trans) (by1 : Nat → Byte × Bool) {k : Nat} (hk : k < x.addrs.length) :
    (x.read store tr by1).getD k none = x.elem store tr by1 x.addrs[k] := by
  rw [Source.read, List.getD_eq_getElem?_getD, List.getElem?_map, List.getElem?_eq_getElem hk]
  rfl

theorem getD_source (v : View) (store : SMap Byte) (tr : Trans) (by1 : Nat → Byte × Bool) {k : Nat} (hk : k < v.count) :
    (v.source.read store tr by1).getD k none = v.source.elem store tr by1 (v.elemAddr k) := by
  have hl : k < v.source.addrs.length := by rw [View.source, List.length_map, List.length_range]; exact hk
  rw [getD_read v.source store tr by1 hl]
  congr 1
  simp [View.source]

/-! ## MLDA -/

theorem tileAt_loadTile {ty : Ty} (x : Elems) {i j : Nat} (hi : i < 128) (hj : j < 128) (ht : ty ≠ .a80) :
    tileAt (loadTile ty x) i j = loadedEntry ty (elemCode ty x (j + 128 * i)) := by
  rw [loadTile, tileAt_tileOf _ hi hj, if_neg ht]

theorem toInt_range (w : Word) : -(2 ^ 31 : Int) ≤ w.toInt ∧ w.toInt < 2 ^ 31 := by
  have h1 := BitVec.le_toInt w
  have h2 := BitVec.toInt_lt (x := w)
  exact ⟨by simpa using h1, by simpa using h2⟩

theorem a80Int_loadTile {x : Elems} {i j : Nat} {w : DWord} (hi : i < 128) (hj : j < 128) (hw : w.toNat < 2 ^ 32)
    (hx : x.getD (j + 128 * i) none = some (w, 0)) : a80Int (tileAt (loadTile .s32 x) i j) = (loWord w).toInt := by
  have hv : intVal .s32 w.toNat = (loWord w).toInt := by
    rw [← sext_word, loWord, BitVec.toNat_setWidth, Nat.mod_eq_of_lt hw]
    rfl
  have hr := toInt_range (loWord w)
  have hc : elemCode .s32 x (j + 128 * i) = (w.toNat, false) := by
    rw [elemCode, if_neg (by decide), hx]
    rfl
  rw [tileAt_loadTile x hi hj (by decide), hc, loadedEntry, if_pos (by decide), if_neg Bool.false_ne_true, hv, a80Int_ofNat]
  refine sext_eq_self 64 (by decide) (by omega) (by omega) _ ?_
  rw [wrap_eq, Int.emod_emod_of_dvd _ (dvd_refl _)]

/-! ## MSTA: the codes -/

/-- An entry of rows listed one after the other. -/
theorem getD_rows {α : Type} (g : Nat → Nat → α) (d : α) (w : Nat) {n i j : Nat} (hi : i < n) (hj : j < w) :
    ((List.range n).flatMap fun i => (List.range w).map (g i)).getD (j + w * i) d = g i j := by
  have hlen : ∀ n, ((List.range n).flatMap fun i => (List.range w).map (g i)).length = w * n := by
    intro n
    induction n with
    | zero => simp
    | succ n ih => rw [List.range_succ, List.flatMap_append, List.length_append, ih]; simp [Nat.mul_succ]
  induction n with
  | zero => exact absurd hi (Nat.not_lt_zero _)
  | succ n ih =>
    rw [List.range_succ, List.flatMap_append, List.getD_eq_getElem?_getD]
    by_cases hin : i < n
    · have hlt : j + w * i < w * n := by
        have := Nat.mul_le_mul_left w hin
        rw [Nat.mul_succ] at this
        omega
      rw [List.getElem?_append_left (by rw [hlen]; exact hlt), ← List.getD_eq_getElem?_getD, ih hin]
    · obtain rfl : i = n := by omega
      rw [List.getElem?_append_right (by rw [hlen]; omega), hlen, Nat.add_sub_cancel]
      simp [List.getElem?_range hj]

theorem storeTile_code {ty : Ty} (rm : Rm) (sat int : Bool) (t : Tile) {i j : Nat} (hi : i < 128) (hj : j < 128) (h1 : ty ≠ .a80) (h2 : ty ≠ .dt6) :
    (storeTile ty rm sat int t).1.getD (j + 128 * i) 0 = (storedCode ty rm sat int (tileAt t i j)).1 := by
  rw [storeTile, if_neg h1]
  dsimp only
  rw [if_neg h2]
  dsimp only
  rw [List.flatMap_map]
  simp only [List.map_map]
  exact getD_rows (fun i j => (storedCode ty rm sat int (tileAt t i j)).1) 0 128 hi hj

theorem storeTile_words (rm : Rm) (sat int : Bool) (t : Tile) {i n : Nat} (hi : i < 128) (hn : n < 512) :
    (storeTile .a80 rm sat int t).1.getD (n + 512 * i) 0 = (tileAt t i (n / 4)).toNat / 2 ^ (32 * (n % 4)) % 2 ^ 32 := by
  rw [storeTile, if_pos rfl]
  dsimp only
  exact getD_rows (fun i n => (tileAt t i (n / 4)).toNat / 2 ^ (32 * (n % 4)) % 2 ^ 32) 0 512 hi hn

/-! ## Operands at the end: the value at issue, or a later one -/

/-- Every element taken is one seen now or one seen at issue. -/
def Picked (olds now : Snap) (x : List (Option Elem)) : Prop :=
  x.length = now.length ∧ ∀ i, i < now.length → x.getD i none = now.getD i none ∨ x.getD i none = olds.getD i none

theorem pickElem_cases (n : Nat) (o x : Option Elem) : (pickElem n o x).2 = x ∨ (pickElem n o x).2 = o := by
  unfold pickElem
  split
  · exact .inl rfl
  · exact .inr rfl
  · split
    · exact .inr rfl
    · dsimp only
      split
      · exact .inl rfl
      · exact .inr rfl

theorem picked_pickSnap (n : Nat) (olds now : Snap) : Picked olds now (pickSnap n olds now).2 := by
  induction olds generalizing n now with
  | nil => cases now <;> exact ⟨rfl, fun _ _ => .inl rfl⟩
  | cons o os ih =>
    cases now with
    | nil => exact ⟨rfl, fun i hi => absurd hi (Nat.not_lt_zero i)⟩
    | cons x xs =>
      obtain ⟨h1, h2⟩ := ih (pickElem n o x).1 xs
      refine ⟨by rw [pickSnap, List.length_cons, List.length_cons, h1], fun i hi => ?_⟩
      cases i with
      | zero => exact pickElem_cases n o x
      | succ i => exact h2 i (Nat.lt_of_succ_lt_succ hi)

/-- Sources are picked one after the other. -/
theorem foldl_pickSnap (l : List (Snap × Snap)) (acc : Nat × List Elems) :
    ∃ m L, l.foldl (fun (acc : Nat × List Elems) y => let z := pickSnap acc.1 y.1 y.2; (z.1, acc.2 ++ [z.2.toArray])) acc = (m, acc.2 ++ L) ∧
      L.length = l.length ∧ ∀ (i : Nat) (y : Snap × Snap), l[i]? = some y → ∃ n, L[i]? = some (pickSnap n y.1 y.2).2.toArray := by
  induction l generalizing acc with
  | nil => exact ⟨acc.1, [], by rw [List.append_nil]; rfl, rfl, fun i y h => by simp at h⟩
  | cons y l ih =>
    obtain ⟨m, L, h1, h2, h3⟩ := ih ((pickSnap acc.1 y.1 y.2).1, acc.2 ++ [(pickSnap acc.1 y.1 y.2).2.toArray])
    refine ⟨m, (pickSnap acc.1 y.1 y.2).2.toArray :: L, ?_, by rw [List.length_cons, h2]; rfl, fun i z hz => ?_⟩
    · rw [List.foldl_cons]
      exact h1.trans (by rw [List.append_assoc]; rfl)
    · cases i with
      | zero =>
        obtain rfl := Option.some.inj hz
        exact ⟨acc.1, rfl⟩
      | succ i => exact h3 i z hz

/-- The operands that a tile operation held at its issue, or holds now where it could not issue before. -/
def State.tileOlds (s : State) (c : Crew) (ctx : Nat) (o : TileOp) : List Snap :=
  if o.olds.isEmpty then (s.drain c.core).operands c ctx o.pages true o.kind.sources else o.olds

/-- What a tile operation's sources hold now. -/
def State.tileNow (s : State) (c : Crew) (ctx : Nat) (o : TileOp) : List Snap := (s.drain c.core).operands c ctx o.pages false o.kind.sources

theorem length_tileNow (s : State) (c : Crew) (ctx : Nat) (o : TileOp) : (s.tileNow c ctx o).length = o.kind.sources.length := List.length_map _

theorem length_tileOlds (s : State) (c : Crew) (ctx : Nat) (o : TileOp) {n : Nat} (hn : o.kind.sources.length = n)
    (h : o.olds = [] ∨ n ≤ o.olds.length) : n ≤ (s.tileOlds c ctx o).length := by
  unfold State.tileOlds
  rcases h with h | h
  · rw [h, List.isEmpty_nil, if_pos rfl, State.operands, List.length_map, hn]
  · split
    · rw [State.operands, List.length_map, hn]
    · exact h

theorem pickOperands_spec (s : State) (c : Crew) (ctx : Nat) (o : TileOp) {n : Nat} (hn : o.kind.sources.length = n)
    (h : o.olds = [] ∨ n ≤ o.olds.length) {i : Nat} (hi : i < n) :
    ∃ l, (s.pickOperands c ctx o).2.getD i #[] = List.toArray l ∧ Picked ((s.tileOlds c ctx o).getD i []) ((s.tileNow c ctx o).getD i []) l := by
  obtain ⟨m, L, h1, h2, h3⟩ := foldl_pickSnap ((s.tileOlds c ctx o).zip (s.tileNow c ctx o)) ((s.drain c.core).drawn, [])
  have ho : i < (s.tileOlds c ctx o).length := Nat.lt_of_lt_of_le hi (length_tileOlds s c ctx o hn h)
  have hw : i < (s.tileNow c ctx o).length := by rw [length_tileNow, hn]; exact hi
  obtain ⟨k, hk⟩ := h3 i ((s.tileOlds c ctx o)[i], (s.tileNow c ctx o)[i]) (by
    rw [List.getElem?_eq_getElem (by rw [List.length_zip]; omega), List.getElem_zip])
  refine ⟨_, ?_, picked_pickSnap k _ _⟩
  have hp : (s.pickOperands c ctx o).2 = L := (congrArg Prod.snd h1).trans (List.nil_append L)
  rw [hp, List.getD_eq_getElem?_getD, hk, List.getD_eq_getElem?_getD, List.getD_eq_getElem?_getD, List.getElem?_eq_getElem ho,
    List.getElem?_eq_getElem hw]
  rfl

/-- An operand as the statement asks for it. -/
theorem picked_array {olds now : Snap} {l : List (Option Elem)} (h : Picked olds now l) :
    l.toArray.size = now.length ∧ ∀ i, i < now.length → l.toArray.getD i none = now.getD i none ∨ l.toArray.getD i none = olds.getD i none := by
  refine ⟨h.1, fun i hi => ?_⟩
  have hg : l.toArray.getD i none = l.getD i none := by simp
  rw [hg]
  exact h.2 i hi

/-! ## Tiles and stores of the crew -/

theorem crew?_pickOperands (s : State) (c : Crew) (ctx : Nat) (o : TileOp) (r : CrewRef) : (s.pickOperands c ctx o).1.crew? r = s.crew? r :=
  (memSide_drain s c.core).crew? r

theorem crew?_putTile {s : State} {r : CrewRef} {c : Crew} (h : s.crew? r = some c) (n : Nat) (t : Tile) :
    (s.putTile r n t).crew? r = some { c with tiles := putNth c.tiles n t } := by
  rw [State.putTile, crew?_modCrew_same s r (fun c => { c with tiles := putNth c.tiles n t }) (by intro c; exact ⟨rfl, rfl⟩), h]
  rfl

theorem putAll_append {d : Byte} (a b : List (Nat × Byte)) (m : SMap Byte) : SMap.putAll d m (a ++ b) = SMap.putAll d (SMap.putAll d m a) b := by
  induction a generalizing m with
  | nil => rfl
  | cons x a ih => exact ih _

theorem lastByte_append (l m : List (Nat × Byte)) (a : Nat) : lastByte (l ++ m) a = (lastByte m a).or (lastByte l a) := by
  rw [lastByte, lastByte, lastByte, List.reverse_append, List.find?_append]
  cases List.find? _ m.reverse <;> rfl

theorem lastByte_one (x : Nat × Byte) (a : Nat) : lastByte [x] a = if x.1 = a then some x.2 else none := by
  rw [lastByte, List.reverse_singleton, List.find?_cons]
  by_cases h : x.1 = a <;> simp [h]

theorem look_putAll (l : List (Nat × Byte)) (m : SMap Byte) (a : Nat) : SMap.look 0 (SMap.putAll 0 m l) a = (lastByte l a).getD (SMap.look 0 m a) := by
  induction l generalizing m with
  | nil => rfl
  | cons x l ih =>
    rw [SMap.putAll, ih, ← List.singleton_append, lastByte_append, lastByte_one, SMap.look_put]
    cases lastByte l a with
    | some b => rfl
    | none =>
      by_cases h : a = x.1
      · simp [h]
      · simp [h, Ne.symm h]

/-- The bytes of one element stored. -/
def elemBytes (v : View) (z : Nat × Nat) : List (Nat × Byte) := (span z.1 (elemSize v.ty)).zip (toBytes (elemSize v.ty) z.2)

theorem crew?_storeElems_local {c : Crew} {ctx : Nat} {o : TileOp} {v : View} (hv : v.isLocal = true) (zs : List (Nat × Nat)) (s : State) {k : Crew}
    (h : s.crew? c.ref = some k) : (zs.foldl (fun s z => s.storeElem c ctx o v z.1 z.2) s).crew? c.ref =
      some { k with store := SMap.putAll 0 k.store (zs.flatMap (elemBytes v)) } := by
  induction zs generalizing s k with
  | nil => exact h
  | cons z zs ih =>
    have h1 : (s.storeElem c ctx o v z.1 z.2).crew? c.ref = some { k with store := SMap.putAll 0 k.store (elemBytes v z) } := by
      rw [State.storeElem, hv]
      exact (crew?_modCrew_same s c.ref (fun c => { c with store := SMap.putAll 0 c.store (elemBytes v z) }) (by intro c; exact ⟨rfl, rfl⟩)).trans
        (congrArg _ h)
    rw [List.foldl_cons, ih _ h1, List.flatMap_cons, putAll_append]

/-! ## Elements stored in L1 -/

/-- One translated byte of an MSTA stored in L1. -/
def State.storeByte (s : State) (c : Crew) (ctx : Nat) (o : TileOp) (b : Nat × Byte) : State :=
  match transOf o.pages b.1 with
  | none => s
  | some e =>
    let key := physKey e b.1
    let s := s.storeL1 c.core c.slot (key / 128) ctx (b.1 / 128) e [(key % 128, b.2)]
    if e.reach = .pkg then
      s.notePkg { grid := c.grid, vdie := c.vdie, crew := c.idx, phase := o.phase, core := c.core, line := key / 128 }
    else s

theorem memSide_storeByte (s : State) (c : Crew) (ctx : Nat) (o : TileOp) (b : Nat × Byte) : MemSide s (s.storeByte c ctx o b) := by
  unfold State.storeByte
  split
  · exact .refl s
  · dsimp only
    split
    · exact (memSide_storeL1 _ _ _ _ _ _ _ _).trans (memSide_notePkg _ _)
    · exact memSide_storeL1 _ _ _ _ _ _ _ _

theorem storeElem_global {v : View} (hv : v.isLocal = false) (s : State) (c : Crew) (ctx : Nat) (o : TileOp) (z : Nat × Nat) :
    s.storeElem c ctx o v z.1 z.2 = (elemBytes v z).foldl (fun s b => s.storeByte c ctx o b) s := by
  rw [State.storeElem, hv]
  rfl

theorem storeElems_global {v : View} (hv : v.isLocal = false) (c : Crew) (ctx : Nat) (o : TileOp) (zs : List (Nat × Nat)) (s : State) :
    zs.foldl (fun s z => s.storeElem c ctx o v z.1 z.2) s = (zs.flatMap (elemBytes v)).foldl (fun s b => s.storeByte c ctx o b) s := by
  induction zs generalizing s with
  | nil => rfl
  | cons z zs ih => rw [List.foldl_cons, List.flatMap_cons, List.foldl_append, ih, storeElem_global hv]

/-- From `d` to `t` the bytes of a list have been stored in the L1 of a core, every line being there. -/
def StoredIn (core : Nat) (d t : State) (l : List (Nat × Byte)) : Prop :=
  (∀ key, (t.l1Byte core key).1 = (lastByte l key).getD (d.l1Byte core key).1) ∧ (∀ key, t.memByte key = d.memByte key) ∧
    ∀ line, ((t.core? core).bind fun k => k.l1? line).isSome = ((d.core? core).bind fun k => k.l1? line).isSome

/-- A line of L1 in which a byte has been stored. -/
def L1Line.stored (slot ctx vline i : Nat) (b : Byte) (l : L1Line) : L1Line :=
  { l with
    data := setLineByte l.data i b, dirty := l.dirty ||| (1#128 <<< i), sc := .crew, writers := l.writers ||| (1#16 <<< slot), ctx := ctx
    vline := if l.ctx = ctx && l.vline = some vline then l.vline else none
    bad := l.bad && decide (l.dirty ||| (1#128 <<< i) ≠ BitVec.allOnes 128) }

/-- A byte stored in a line that L1 holds. -/
theorem storedIn_storeL1 {s : State} {core key : Nat} (h : ((s.core? core).bind fun k => k.l1? (key / 128)).isSome = true) (slot ctx vline : Nat)
    (x : Xlate) (b : Byte) : StoredIn core s (s.storeL1 core slot (key / 128) ctx vline x [(key % 128, b)]) [(key, b)] := by
  obtain ⟨l, hl⟩ := Option.isSome_iff_exists.mp h
  obtain ⟨k, hk, hkl⟩ := Option.bind_eq_some_iff.mp hl
  have hc : (s.storeL1 core slot (key / 128) ctx vline x [(key % 128, b)]).core? core =
      some { k with l1 := modWhere (fun l => l.line = key / 128) (L1Line.stored slot ctx vline (key % 128) b) k.l1 } := by
    rw [State.storeL1, hl, core?_modCore_same, (onlyMem_noteWrite s _).core?, hk]
    rfl
  have hm : SameMem s (s.storeL1 core slot (key / 128) ctx vline x [(key % 128, b)]) := by
    rw [State.storeL1, hl]
    exact (sameMem_noteWrite s _).trans (sameMem_modCore _ _ _)
  have hl1 (n : Nat) : ({ k with l1 := modWhere (fun l => l.line = key / 128) (L1Line.stored slot ctx vline (key % 128) b) k.l1 } : Core).l1? n =
      (k.l1? n).map fun l => if l.line = key / 128 then l.stored slot ctx vline (key % 128) b else l := by
    rw [Core.l1?, find?_modWhere k.l1 _ _ (L1Line.stored slot ctx vline (key % 128) b) (by intro l; rfl)]
    simp only [decide_eq_true_eq]
    rfl
  refine ⟨fun j => ?_, hm.memByte, fun n => ?_⟩
  · rw [lastByte_one, State.l1Byte, State.l1Byte, hc, hk, Option.bind_some, Option.bind_some, hl1]
    dsimp only
    cases hj : k.l1? (j / 128) with
    | none =>
      have hne : key ≠ j := fun he => by rw [he, hj] at hkl; cases hkl
      rw [if_neg hne]
      exact hm.memByte j
    | some m =>
      have hml : m.line = j / 128 := by
        have h := List.find?_some hj
        exact of_decide_eq_true h
      rw [Option.map_some]
      dsimp only
      by_cases hlk : m.line = key / 128
      · rw [if_pos hlk]
        by_cases he : key = j
        · subst he
          rw [if_pos rfl]
          exact (lineByte_setLineByte _ _ _ _ (Nat.mod_lt _ (by decide)) (Nat.mod_lt _ (by decide))).trans (if_pos rfl)
        · rw [if_neg he]
          exact (lineByte_setLineByte _ _ _ _ (Nat.mod_lt _ (by decide)) (Nat.mod_lt _ (by decide))).trans (if_neg (by omega))
      · rw [if_neg hlk, if_neg fun he => hlk (by rw [hml, he])]
        rfl
  · rw [hc, hk, Option.bind_some, Option.bind_some, hl1, Option.isSome_map]

theorem StoredIn.refl (core : Nat) (s : State) : StoredIn core s s [] := ⟨fun _ => rfl, fun _ => rfl, fun _ => rfl⟩

theorem StoredIn.append {core : Nat} {s t u : State} {a b : List (Nat × Byte)} (h : StoredIn core s t a) (k : StoredIn core t u b) :
    StoredIn core s u (a ++ b) := by
  obtain ⟨h1, h2, h3⟩ := h
  obtain ⟨k1, k2, k3⟩ := k
  refine ⟨fun key => ?_, fun key => (k2 key).trans (h2 key), fun n => (k3 n).trans (h3 n)⟩
  rw [k1, h1, lastByte_append]
  cases lastByte b key <;> rfl

theorem StoredIn.notePkg {core : Nat} {s t : State} {l : List (Nat × Byte)} (h : StoredIn core s t l) (w : PkgWrite) :
    StoredIn core s (t.notePkg w) l := by
  unfold State.notePkg
  split
  · exact h
  · exact h

/-- A byte with its key, where its page is translated. -/
def keyedBytes (o : TileOp) (l : List (Nat × Byte)) : List (Nat × Byte) := l.filterMap fun b => (transOf o.pages b.1).map fun e => (physKey e b.1, b.2)

theorem storedIn_storeByte {s : State} {c : Crew} {o : TileOp} {b : Nat × Byte}
    (h : ∀ x ∈ keyedBytes o [b], ((s.core? c.core).bind fun k => k.l1? (x.1 / 128)).isSome = true) (ctx : Nat) :
    StoredIn c.core s (s.storeByte c ctx o b) (keyedBytes o [b]) := by
  unfold State.storeByte
  cases he : transOf o.pages b.1 with
  | none =>
    rw [show keyedBytes o [b] = [] by simp [keyedBytes, he]]
    exact .refl _ s
  | some e =>
    have hk : keyedBytes o [b] = [(physKey e b.1, b.2)] := by simp [keyedBytes, he]
    rw [hk] at h ⊢
    have h1 := storedIn_storeL1 (h _ (List.mem_singleton.mpr rfl)) c.slot ctx (b.1 / 128) e b.2
    dsimp only
    split
    · exact h1.notePkg _
    · exact h1

theorem keyedBytes_cons (o : TileOp) (b : Nat × Byte) (l : List (Nat × Byte)) : keyedBytes o (b :: l) = keyedBytes o [b] ++ keyedBytes o l := by
  unfold keyedBytes
  rw [← List.filterMap_append]
  rfl

theorem storedIn_storeBytes {c : Crew} {ctx : Nat} {o : TileOp} (l : List (Nat × Byte)) (s : State)
    (h : ∀ x ∈ keyedBytes o l, ((s.core? c.core).bind fun k => k.l1? (x.1 / 128)).isSome = true) :
    StoredIn c.core s (l.foldl (fun s b => s.storeByte c ctx o b) s) (keyedBytes o l) := by
  induction l generalizing s with
  | nil => exact .refl _ s
  | cons b l ih =>
    rw [keyedBytes_cons] at h ⊢
    have h1 := storedIn_storeByte (fun x hx => h x (List.mem_append_left _ hx)) ctx
    exact h1.append (ih _ fun x hx => (h1.2.2 _).trans (h x (List.mem_append_right _ hx)))

/-! ## The operations -/

section
variable {s : State} {c : Crew} {ctx : Nat} {o : TileOp}

/-- The stores of an MSTA. -/
def State.storeTileOf (s : State) (c : Crew) (ctx : Nat) (o : TileOp) (v : View) (xs : List Nat) : State :=
  (v.source.addrs.zip xs).foldl (fun s z => s.storeElem c ctx o v z.1 z.2) (s.pickOperands c ctx o).1

theorem doTile_msta {w : ViewUse} {ty : Ty} {rnd : BitVec 2} {sat int : Bool} (h : o.kind = .msta w ty rnd sat int) :
    s.doTile c ctx o = (s.storeTileOf c ctx o w.view (storeTile ty (rmOf rnd) sat int (c.tiles.getD o.ts [])).1).modStrand
      { crew := c.ref, strand := o.strand } fun t => t.orFlags (storeTile ty (rmOf rnd) sat int (c.tiles.getD o.ts [])).2 := by
  rw [State.doTile, h]
  rfl

theorem crew?_storeTileOf_global (hs : s.crew? c.ref = some c) {v : View} (hv : v.isLocal = false) (xs : List Nat) :
    (s.storeTileOf c ctx o v xs).crew? c.ref = some c := by
  rw [State.storeTileOf, storeElems_global hv]
  rw [(memSide_foldl (fun s b => s.storeByte c ctx o b) (fun s b => memSide_storeByte s c ctx o b) _ _).crew?, crew?_pickOperands, hs]

theorem crew?_storeTileOf_local (hs : s.crew? c.ref = some c) {v : View} (hv : v.isLocal = true) (xs : List Nat) :
    (s.storeTileOf c ctx o v xs).crew? c.ref = some { c with store := SMap.putAll 0 c.store ((v.source.addrs.zip xs).flatMap (elemBytes v)) } :=
  crew?_storeElems_local hv _ _ (by rw [crew?_pickOperands, hs])

theorem crew?_orFlags {x : State} {r : CrewRef} {k : Crew} (h : x.crew? r = some k) (n : Nat) (f : BitVec 6) :
    ∃ k', (x.modStrand { crew := r, strand := n } fun t => t.orFlags f).crew? r = some k' ∧ k'.tiles = k.tiles ∧ k'.store = k.store :=
  ⟨_, (crew?_modStrand_same x { crew := r, strand := n } _).trans (congrArg _ h), rfl, rfl⟩

/-- The crew of an operation is there still. -/
theorem crew?_doTile (hs : s.crew? c.ref = some c) : ∃ k, (s.doTile c ctx o).crew? c.ref = some k := by
  have hp : (s.pickOperands c ctx o).1.crew? c.ref = some c := by rw [crew?_pickOperands, hs]
  cases hk : o.kind with
  | msta w ty rnd sat int =>
    rw [doTile_msta hk]
    by_cases hv : w.view.isLocal = true
    · obtain ⟨k, h, -⟩ := crew?_orFlags (crew?_storeTileOf_local (ctx := ctx) (o := o) hs hv
        (storeTile ty (rmOf rnd) sat int (c.tiles.getD o.ts [])).1) o.strand (storeTile ty (rmOf rnd) sat int (c.tiles.getD o.ts [])).2
      exact ⟨k, h⟩
    · obtain ⟨k, h, -⟩ := crew?_orFlags (crew?_storeTileOf_global (ctx := ctx) (o := o) hs (Bool.eq_false_iff.mpr hv)
        (storeTile ty (rmOf rnd) sat int (c.tiles.getD o.ts [])).1) o.strand (storeTile ty (rmOf rnd) sat int (c.tiles.getD o.ts [])).2
      exact ⟨k, h⟩
  | _ =>
    rw [State.doTile, hk]
    exact ⟨_, crew?_putTile hp _ _⟩

/-- An operation that writes its tile. -/
theorem tiles_doTile (hs : s.crew? c.ref = some c) {t : Tile} (h : s.doTile c ctx o = (s.pickOperands c ctx o).1.putTile c.ref o.td t) {k : Crew}
    (hk : (s.doTile c ctx o).crew? c.ref = some k) : k.tiles = putNth c.tiles o.td t := by
  rw [h, crew?_putTile (c := c) (by rw [crew?_pickOperands, hs])] at hk
  rw [← Option.some.inj hk]

end

/-- Settles O41: each function of tiles by its entries, and each operation by what it writes. -/
theorem tileResults : Obligations.TileResults := by
  unfold Obligations.TileResults
  intro picked now olds bytes
  refine ⟨fun f i j hi hj => tileAt_tileOf f hi hj, fun t i j hi hj => tileAt_tileOf _ hi hj, fun p t i j hi hj => tileAt_tileOf _ hi hj,
    fun int t i j hi h1 hj => ?_, fun t i hi h => reduceRows_sum hi h, fun v store tr by1 k hk => ⟨fun hl => ?_, fun hl ks hks => ?_⟩,
    fun s core ctx key => ?_, fun ty x i j hi hj ht => tileAt_loadTile x hi hj ht, fun x i j w hi hj hw hx => a80Int_loadTile hi hj hw hx,
    fun x t i j hi hj h1 h2 h3 h4 hs hlo hhi hb => product_bytes h1 h2 h3 h4 hi hj hs hlo hhi hb,
    fun ty rm sat int t i j hi hj h1 h2 => storeTile_code rm sat int t hi hj h1 h2, fun rm sat int t i n hi hn => storeTile_words rm sat int t hi hn,
    fun s c ctx o hs ht => ?_, fun s c ctx o w ty rnd sat int hs hk hv => ?_, fun s c ctx o w ty rnd sat int hs hk hv => ?_⟩
  · rw [reduceRows, tileAt_tileOf _ hi hj, if_pos (by omega)]
  · rw [getD_source v store tr by1 hk, Source.elem]
    exact if_pos hl
  · rw [getD_source v store tr by1 hk, Source.elem]
    refine (if_neg (ne_true_of_eq_false hl)).trans ?_
    rw [show keysAt tr (v.elemAddr k) v.source.size = some ks from hks]
    rfl
  · rw [State.opByte, if_neg Bool.false_ne_true]
    dsimp only
    rw [State.genericLine, State.l1Byte]
    cases (s.core? core).bind fun k => k.l1? (key / 128) with
    | some l => rfl
    | none => exact lineByte_memLine s key
  · obtain ⟨k, hk⟩ := crew?_doTile (ctx := ctx) (o := o) hs
    refine ⟨k, hk, fun h => tiles_doTile hs ?_ hk, fun h => tiles_doTile hs ?_ hk, fun p h => tiles_doTile hs ?_ hk, fun b h => tiles_doTile hs ?_ hk,
      fun w ty h hl => ?_, fun a b fb ty h hl => ?_⟩
    · rw [State.doTile, h]
    · rw [State.doTile, h]
    · rw [State.doTile, h]
    · rw [State.doTile, h]
    · have hn : o.kind.sources.length = 1 := by rw [h]; rfl
      have ho : o.olds = [] ∨ 1 ≤ o.olds.length := by
        cases o.olds with
        | nil => exact .inl rfl
        | cons x l => exact .inr (by rw [List.length_cons]; omega)
      obtain ⟨l, hx, hp⟩ := pickOperands_spec s c ctx o hn ho (i := 0) (by decide)
      refine ⟨l.toArray, picked_array hp, tiles_doTile hs ?_ hk⟩
      rw [State.doTile, h]
      dsimp only
      rw [hx]
    · have hn : o.kind.sources.length = 4 := by rw [h]; rfl
      have ho : o.olds = [] ∨ 4 ≤ o.olds.length := hl.imp id fun h => h.ge
      obtain ⟨l0, hx0, hp0⟩ := pickOperands_spec s c ctx o hn ho (i := 0) (by decide)
      obtain ⟨l1, hx1, hp1⟩ := pickOperands_spec s c ctx o hn ho (i := 1) (by decide)
      obtain ⟨l2, hx2, hp2⟩ := pickOperands_spec s c ctx o hn ho (i := 2) (by decide)
      obtain ⟨l3, hx3, hp3⟩ := pickOperands_spec s c ctx o hn ho (i := 3) (by decide)
      refine ⟨{ fb := fb, a := l0.toArray, b := l1.toArray, sa := l2.toArray, sb := l3.toArray }, rfl, picked_array hp0, picked_array hp1,
        picked_array hp2, picked_array hp3, tiles_doTile hs ?_ hk⟩
      rw [State.doTile, h]
      dsimp only
      rw [hx0, hx1, hx2, hx3]
  · obtain ⟨k, h1, h2, h3⟩ := crew?_orFlags (crew?_storeTileOf_local (ctx := ctx) (o := o) hs hv
      (storeTile ty (rmOf rnd) sat int (c.tiles.getD o.ts [])).1) o.strand (storeTile ty (rmOf rnd) sat int (c.tiles.getD o.ts [])).2
    refine ⟨k, by rw [doTile_msta hk]; exact h1, h2, fun a => ?_⟩
    rw [h3]
    exact look_putAll _ _ a
  · intro d stored hin t
    have hst : StoredIn c.core d (s.storeTileOf c ctx o w.view (storeTile ty (rmOf rnd) sat int (c.tiles.getD o.ts [])).1) stored := by
      rw [State.storeTileOf, storeElems_global hv]
      exact storedIn_storeBytes _ (s.pickOperands c ctx o).1 hin
    have ht : t = _ := doTile_msta hk
    exact ⟨fun key => by rw [ht]; exact hst.1 key, fun key => by rw [ht]; exact hst.2.1 key⟩

end Sys2Proof.Machine
end

