-- ==== Sys2Proof/Proofs/OutsideAccess.lean ====
section
/-! SUPPORT. What the host and peers do to memory (R191, R196, R298, R300, R306, R307, R331). -/
namespace Sys2Proof.Machine

/-! ## Writes -/

theorem sameMem_setSysRecord (s : State) (line : Nat) : SameMem s (s.setSysRecord line) :=
  (sameMem_l2Fill _ _ _ _).trans (sameMem_setRecord _ _ _)

theorem memSide_setSysRecord (s : State) (line : Nat) : MemSide s (s.setSysRecord line) :=
  (memSide_l2Fill _ _ _ _).trans ⟨_, _, _, _, _, _, _, _, rfl⟩

theorem cores_setSysRecord (s : State) (line : Nat) : (s.setSysRecord line).cores = s.cores := cores_l2Fill _ _ _ _

/-- Scope records change no byte. -/
theorem sameMem_sysRecords (s : State) (key n : Nat) : SameMem s (s.sysRecords key n) := by
  unfold State.sysRecords
  split
  · exact .refl s
  · next h =>
    clear h
    generalize span (key / 128) _ = ls
    induction ls generalizing s with
    | nil => exact .refl s
    | cons l ls ih => exact (sameMem_setSysRecord s l).trans (ih _)

theorem memSide_sysRecords (s : State) (key n : Nat) : MemSide s (s.sysRecords key n) := by
  unfold State.sysRecords
  split
  · exact .refl s
  · exact memSide_foldl _ memSide_setSysRecord _ s

theorem cores_sysRecords (s : State) (key n : Nat) : (s.sysRecords key n).cores = s.cores := by
  unfold State.sysRecords
  split
  · rfl
  · next h =>
    clear h
    generalize span (key / 128) _ = ls
    induction ls generalizing s with
    | nil => rfl
    | cons l ls ih => exact (ih _).trans (cores_setSysRecord s l)

theorem cores_putBytes (bs : List Byte) (s : State) (key : Nat) : (s.putBytes key bs).cores = s.cores := by
  induction bs generalizing s key with
  | nil => rfl
  | cons b bs ih => exact ih _ _

theorem cores_noteWrite (s : State) (sel : Nat → Bool) : (s.noteWrite sel).cores = s.cores := by
  unfold State.noteWrite
  split <;> rfl

theorem cores_writeMem (s : State) (key : Nat) (bs : List Byte) : (s.writeMem key bs).cores = s.cores := by
  unfold State.writeMem
  dsimp only
  split <;> exact (cores_noteWrite _ _).trans (cores_putBytes bs s key)

theorem memSide_outsideWrite (s : State) (key : Nat) (bs : List Byte) : MemSide s (s.outsideWrite key bs) :=
  (memSide_writeMem s key bs).trans (memSide_sysRecords _ _ _)

theorem cores_outsideWrite (s : State) (key : Nat) (bs : List Byte) : (s.outsideWrite key bs).cores = s.cores :=
  (cores_sysRecords _ _ _).trans (cores_writeMem s key bs)

/-- A write from outside changes the bytes that it names. -/
theorem memByte_outsideWrite (s : State) (key k : Nat) (bs : List Byte) :
    (s.outsideWrite key bs).memByte k = if key ≤ k ∧ k < key + bs.length then bs.getD (k - key) 0 else s.memByte k :=
  ((sameMem_sysRecords _ _ _).memByte k).trans (memByte_writeMem s key k bs)

/-- The bytes that a write from outside leaves, and all the rest. -/
theorem outsideWrite_spec (s : State) (pa : Nat) (bs : List Byte) : let t := s.outsideWrite pa bs
    (∀ k, k < bs.length → t.memByte (pa + k) = bs.getD k 0) ∧
      (∀ key, key < pa ∨ pa + bs.length ≤ key → t.memByte key = s.memByte key) ∧ t.cores = s.cores ∧ t.crews = s.crews := by
  refine ⟨fun k hk => ?_, fun key hk => ?_, cores_outsideWrite s pa bs, (memSide_outsideWrite s pa bs).crews⟩
  · rw [memByte_outsideWrite, if_pos ⟨Nat.le_add_right _ _, by omega⟩, Nat.add_sub_cancel_left]
  · rw [memByte_outsideWrite, if_neg (by omega)]

/-! ## Indivisible operations -/

theorem fromBytes_lt (bs : List Byte) : fromBytes bs < 2 ^ (8 * bs.length) := by
  induction bs with
  | nil => exact Nat.one_pos
  | cons b bs ih =>
    have hb := b.isLt
    rw [fromBytes, List.length_cons, show 8 * (bs.length + 1) = 8 * bs.length + 8 by omega, Nat.pow_add]
    omega

theorem readNat_lt (s : State) (key n : Nat) : s.readNat key n < 2 ^ (8 * n) := by
  have h := fromBytes_lt (s.readMem key n)
  rwa [show (s.readMem key n).length = n by simp [State.readMem, span]] at h

/-- A number that fits in a doubleword is what the doubleword holds. -/
theorem toNat_ofNat_readNat (s : State) (key : Nat) {n : Nat} (hn : n ≤ 8) : (BitVec.ofNat 64 (s.readNat key n)).toNat = s.readNat key n :=
  (BitVec.toNat_ofNat _ _).trans (Nat.mod_eq_of_lt ((readNat_lt s key n).trans_le (Nat.pow_le_pow_right (by decide) (by omega))))

/-- An indivisible operation on good lines: the old value comes back, the new one is left, and no other byte changes. -/
theorem outsideOp_spec (s : State) (pa n : Nat) (f : DWord → DWord) (hp : s.anyPoison pa n = false) : let t := s.outsideOp pa n f
    fromBytes t.readBack = s.readNat pa n ∧
      t.readNat pa n = (f (BitVec.ofNat 64 (s.readNat pa n))).toNat % 2 ^ (8 * n) ∧
      ∀ key, key < pa ∨ pa + n ≤ key → t.memByte key = s.memByte key := by
  have e : s.outsideOp pa n f = (s.outsideRead pa n).outsideWrite pa (toBytes n (f (BitVec.ofNat 64 (s.readNat pa n))).toNat) := by
    unfold State.outsideOp
    exact if_neg (by rw [show (s.outsideRead pa n).readPoison = false from hp]; exact Bool.false_ne_true)
  rw [e]
  refine ⟨?_, ?_, fun key hk => ?_⟩
  · obtain ⟨_, _, _, _, _, _, _, _, ht⟩ := memSide_outsideWrite (s.outsideRead pa n) pa (toBytes n (f (BitVec.ofNat 64 (s.readNat pa n))).toNat)
    rw [ht]; rfl
  · exact ((sameMem_sysRecords _ _ _).readNat pa n).trans (readNat_writeNat _ _ _ _)
  · have h := memByte_outsideWrite (s.outsideRead pa n) pa key (toBytes n (f (BitVec.ofNat 64 (s.readNat pa n))).toNat)
    rw [length_toBytes, if_neg (by omega)] at h
    exact h

/-- A compare and swap of `n` bytes. -/
theorem outsideOp_cas (s : State) (pa : Nat) {n : Nat} (hn : n ≤ 8) (old : Nat) (new : DWord) (hp : s.anyPoison pa n = false) :
    let t := s.outsideOp pa n fun v => if v.toNat = old then new else v
    fromBytes t.readBack = s.readNat pa n ∧
      t.readNat pa n = (if s.readNat pa n = old then new.toNat % 2 ^ (8 * n) else s.readNat pa n) ∧
      ∀ key, key < pa ∨ pa + n ≤ key → t.memByte key = s.memByte key := by
  obtain ⟨h1, h2, h3⟩ := outsideOp_spec s pa n (fun v => if v.toNat = old then new else v) hp
  refine ⟨h1, h2.trans ?_, h3⟩
  rw [toNat_ofNat_readNat s pa hn]
  split
  · rfl
  · rw [toNat_ofNat_readNat s pa hn, Nat.mod_eq_of_lt (readNat_lt s pa n)]

/-! ## Ports -/

/-- The ports that live after one is lost. -/
theorem livePorts_lost (live : BitVec 12) {port : Nat} (hp : port < 12) (k : Nat) :
    (live &&& ~~~(1#12 <<< port)).getLsbD k = (live.getLsbD k && decide (k ≠ port)) := by
  rw [BitVec.getLsbD_and, BitVec.getLsbD_not, BitVec.getLsbD_shiftLeft, BitVec.getLsbD_one]
  by_cases hk : k < 12
  · rcases Nat.lt_trichotomy k port with h | rfl | h
    · simp [hk, h, h.ne]
    · simp
    · simp [hk, h.ne', h.not_gt, Nat.sub_eq_zero_iff_le, h.not_ge]
  · simp [BitVec.getLsbD_of_ge live k (by omega)]

/-- The port that a line travels on lives. -/
theorem live_of_peerPort {s : State} {p : Partition} {peer addr port : Nat} (h : s.peerPort p peer addr = some port) :
    s.livePorts.getLsbD port = true := by
  have hm := (List.mem_filter.mp (List.mem_of_getElem? h)).2
  rw [BitVec.getLsbD_and, Bool.and_eq_true] at hm
  exact hm.2

/-- Settles O60: a write from outside is a write of memory with scope records, and a port that is lost lives no more. -/
theorem outsideAccess : Obligations.OutsideAccess := by
  unfold Obligations.OutsideAccess
  refine ⟨fun s pa bs hd hc => ⟨_, ?_, outsideWrite_spec s pa bs⟩, fun s pa bs hd hc => ⟨_, ?_, outsideWrite_spec s pa bs⟩,
    fun s pa n hd hc => ?_, fun s pa n hd hc => ?_, ?_, fun s pa wide old new hp => ?_, ?_, ?_, fun s port hp => ⟨_, rfl, rfl, ?_, ?_⟩⟩
  · exact congrArg Host.Outcome.next (if_neg (by rw [hd, hc]; decide))
  · exact congrArg Host.Outcome.next (if_neg (by rw [hd, hc]; decide))
  · exact congrArg Host.Outcome.next (if_neg (by rw [hd, hc]; decide))
  · exact congrArg Host.Outcome.next (if_neg (by rw [hd, hc]; decide))
  · intro s pa wide old new n hd hport hc ha hp
    refine ⟨_, ?_, outsideOp_cas s pa (by cases wide <;> decide) (old.toNat % 2 ^ (8 * n)) new hp⟩
    refine congrArg Host.Outcome.next (if_neg ?_)
    simp [hd, hport, show inDevice pa (if wide = true then 8 else 4) = true from hc, show pa % (if wide = true then 8 else 4) = 0 from ha]
  · refine congrArg Host.Outcome.next (if_pos ?_)
    simp [hp]
  · intro s pa op ty b c n hd hok hc ha hp
    refine ⟨_, ?_, outsideOp_spec s pa n (fun old => bankOp op ty old b) hp⟩
    refine congrArg Host.Outcome.next (if_neg ?_)
    simp [hd, hok, show inDevice pa (tySize ty) = true from hc, show pa % tySize ty = 0 from ha]
  · intro s pa ty b c n hd hty hc ha hp
    have hn : n ≤ 8 := by rcases hty with h | h | h | h | h <;> subst h <;> decide
    refine ⟨_, ?_, outsideOp_cas s pa hn (b.toNat % 2 ^ ty.width) c hp⟩
    refine congrArg Host.Outcome.next (if_neg ?_)
    rcases hty with h | h | h | h | h <;> subst h <;>
      simp [hd, show inDevice pa (tySize _) = true from hc, show pa % tySize _ = 0 from ha]
  · exact livePorts_lost s.livePorts hp
  · intro p peer addr h
    have hl := live_of_peerPort h
    rw [livePorts_lost s.livePorts hp] at hl
    simp at hl

end Sys2Proof.Machine
end

