-- ==== Sys2Proof/Proofs/FrontCases.lean ====
section
/-! SUPPORT. A launch of a crew whose queue has been destroyed does not enter the die's queue: it is discarded (R271). The statement about the
drain of pending launches does not leave it out. -/
namespace Sys2Proof.Machine

/-- A launch record of no kernel. -/
def emptyRecord : LaunchRec :=
  { kernel := 0, args := 0, items := 1, nstrand := 1, chained := false, carryIn := false, ncohort := 0, userTag := 0, chainArea := 0, cohorts := 0,
    privArea := 0, done := 0 }

/-- A launch that a crew has made for queue 0. -/
def madeLaunch : LaunchEntry := { record := emptyRecord, prio := 0, phase := 0, ctx := 0, part := 0, queue := 0, since := 0 }

/-- The crew's only pending launch is of queue 0, which an abort has destroyed. -/
def voidPending : State :=
  { witness .mailboxUnknown with
    crews := (witness .mailboxUnknown).crews.map fun c => { c with pending := [madeLaunch] }
    queues := [{ queueOf 0 0 [] with destroy := .abort }] }

/-- The drain of the crew's launch finds room in the queue of its die, which is empty and stays so. -/
theorem voidPending_discarded :
    (match voidPending.crews.head? with
    | some c =>
      decide (voidPending.crew? c.ref = some c) && decide (c.pending = [madeLaunch]) && decide ((voidPending.die? (dieOf c.core)).map (·.queue) = some []) &&
        match exec (.pendingLaunchDrain c.ref) voidPending with
        | .next t => decide ((t.die? (dieOf c.core)).map (·.queue) = some [])
        | _ => false
    | none => false) = true := by decide +kernel

/-- Refutes O53: the entry of a destroyed queue is discarded, and no entry joins the queue of the die. -/
theorem not_launchesRun : ¬ Obligations.LaunchesRun := by
  rintro ⟨-, -, -, -, -, h, -⟩
  have w := voidPending_discarded
  split at w
  case h_2 => cases w
  case h_1 c hc =>
    simp only [Bool.and_eq_true, decide_eq_true_eq] at w
    obtain ⟨⟨⟨hcrew, hpend⟩, hdie⟩, hrun⟩ := w
    obtain ⟨d, hd, hq⟩ := Option.map_eq_some_iff.mp hdie
    obtain ⟨t, ht, -, hdt⟩ := h _ c madeLaunch [] d hcrew hpend hd (by rw [hq]; decide)
    rw [ht] at hrun
    simp only [hdt, Option.map_some, hq, decide_eq_true_eq] at hrun
    cases hrun

end Sys2Proof.Machine
end

