-- ==== Sys2Proof/Proofs/Reliability.lean ====
section
/-! SUPPORT. What retires, and how errors are confined (R121, R125 to R128, R170, R171, R295 to R299). -/
namespace Sys2Proof.Machine

/-! ## What the events leave alone -/

theorem memSide_putReport (s : State) (r : Report) : MemSide s (s.putReport r) :=
  memSide_foldl (fun s (x : Nat × List Byte) => s.writeMem x.1 x.2) (fun s x => memSide_writeMem s x.1 x.2) r s

theorem cores_putReport (s : State) (r : Report) : (s.putReport r).cores = s.cores := by
  unfold State.putReport
  induction r generalizing s with
  | nil => rfl
  | cons x r ih => exact (ih _).trans (cores_writeMem _ _ _)

theorem memSide_logEvent (s : State) (die kind unit addr : Nat) : MemSide s (s.logEvent die kind unit addr) := memSide_modDie s _ _

/-- No crew leaves a core that has none. -/
theorem moveOut_of_none {s : State} {core : Nat} (h : ∀ c ∈ s.crews, c.core ≠ core) : s.moveOut core = s := by
  unfold State.moveOut
  rw [List.filter_eq_nil_iff.mpr fun c hc => by simpa using h c hc]
  rfl

theorem moveOut_of_empty {s : State} (h : s.crews = []) (core : Nat) : s.moveOut core = s :=
  moveOut_of_none fun c hc => by rw [h] at hc; cases hc

/-! ## Lanes (R121, R125, R126) -/

/-- A cluster without a lane. -/
def Cluster.loseLane (now : DWord) (c : Cluster) (lane : Nat) : Cluster := { live := c.live &&& ~~~(1#34 <<< lane), retCycle := now }

theorem live_loseLanes (now : DWord) (bs : List Nat) (c : Cluster) {i : Nat} (hi : i < 34) :
    (bs.foldl (Cluster.loseLane now) c).live.getLsbD i = (c.live.getLsbD i && !(bs.contains i)) := by
  induction bs generalizing c with
  | nil => simp
  | cons b bs ih =>
    rw [List.foldl_cons, ih]
    have hb : (c.loseLane now b).live.getLsbD i = (c.live.getLsbD i && !(i == b)) := by
      simp only [Cluster.loseLane, BitVec.getLsbD_and, BitVec.getLsbD_not, BitVec.getLsbD_shiftLeft, BitVec.getLsbD_one, hi, decide_true, Bool.true_and]
      rcases Nat.lt_trichotomy i b with h | rfl | h
      · simp [h, h.ne]
      · simp
      · simp [h.ne', h.not_gt, Nat.sub_eq_zero_iff_le, h.not_ge]
    rw [hb, List.contains_cons, Bool.not_or, Bool.and_assoc]

theorem retCycle_loseLanes (now : DWord) (bs : List Nat) (c : Cluster) (h : bs ≠ []) : (bs.foldl (Cluster.loseLane now) c).retCycle = now := by
  induction bs generalizing c with
  | nil => exact absurd rfl h
  | cons b bs ih =>
    rw [List.foldl_cons]
    cases bs with
    | nil => rfl
    | cons b' bs => exact ih _ (List.cons_ne_nil _ _)

/-- The live lanes among those that fail a check. -/
def failing (c : Cluster) (lanes : BitVec 34) : List Nat := (List.range 34).filter fun b => (c.live &&& lanes).getLsbD b

theorem live_failing (now : DWord) (c : Cluster) (lanes : BitVec 34) :
    ((failing c lanes).foldl (Cluster.loseLane now) c).live = c.live &&& ~~~lanes := by
  refine BitVec.eq_of_getLsbD_eq fun i hi => ?_
  have hm : (failing c lanes).contains i = (c.live.getLsbD i && lanes.getLsbD i) := by
    rw [Bool.eq_iff_iff, List.contains_iff_mem]
    simp [failing, hi]
  rw [live_loseLanes now _ c hi, hm, BitVec.getLsbD_and, BitVec.getLsbD_not]
  cases c.live.getLsbD i <;> cases lanes.getLsbD i <;> simp [hi]

theorem failing_ne_nil {c : Cluster} {lanes : BitVec 34} (h : c.live &&& lanes ≠ 0) : failing c lanes ≠ [] := by
  intro he
  refine h (BitVec.eq_of_getLsbD_eq fun i hi => ?_)
  have := List.filter_eq_nil_iff.mp he i (List.mem_range.mpr hi)
  simpa using this

/-- A core without a lane of a cluster. -/
def Core.loseLane (now : DWord) (n : Nat) (k : Core) (lane : Nat) : Core := { k with clusters := modNth k.clusters n fun c => c.loseLane now lane }

theorem core?_retireLane (s : State) (r : ClusterRef) (lane : Nat) :
    (s.retireLane r lane).core? r.core = (s.core? r.core).map fun k => k.loseLane s.cycle r.cluster lane :=
  core?_modCore_same s r.core _

theorem memSide_retireLane (s : State) (r : ClusterRef) (lane : Nat) : MemSide s (s.retireLane r lane) :=
  (memSide_modCore s _ _).trans (memSide_logEvent _ _ _ _ _)

theorem core?_retireLanes (bs : List Nat) {s : State} {r : ClusterRef} {k : Core} (h : s.core? r.core = some k) :
    (bs.foldl (fun s b => s.retireLane r b) s).core? r.core = some (bs.foldl (Core.loseLane s.cycle r.cluster) k) := by
  induction bs generalizing s k with
  | nil => exact h
  | cons b bs ih =>
    have hb := (core?_retireLane s r b).trans (congrArg _ h)
    rw [List.foldl_cons, List.foldl_cons, ih hb, (memSide_retireLane s r b).cycle]

theorem loseLanes_spec (now : DWord) (n : Nat) (bs : List Nat) (k : Core) : let j := bs.foldl (Core.loseLane now n) k
    j = { k with clusters := j.clusters } ∧ ∀ c, k.clusters[n]? = some c → j.clusters[n]? = some (bs.foldl (Cluster.loseLane now) c) := by
  induction bs generalizing k with
  | nil => exact ⟨rfl, fun _ h => h⟩
  | cons b bs ih =>
    obtain ⟨h1, h2⟩ := ih (k.loseLane now n b)
    refine ⟨h1, fun c hc => h2 _ ?_⟩
    rw [Core.loseLane, getElem?_modNth, if_pos rfl, hc]
    rfl

/-! ## Columns (R128) -/

/-- A core without a column of a matrix unit. -/
def Core.loseColumn (k : Core) (x : Nat × Nat) : Core := { k with columns := modNth k.columns x.1 fun m => m &&& ~~~(1#130 <<< x.2) }

theorem getLsbD_and_not_bit (m : BitVec 130) (col i : Nat) (hi : i < 130) :
    (m &&& ~~~(1#130 <<< col)).getLsbD i = (m.getLsbD i && !(i == col)) := by
  simp only [BitVec.getLsbD_and, BitVec.getLsbD_not, BitVec.getLsbD_shiftLeft, BitVec.getLsbD_one, hi, decide_true, Bool.true_and]
  rcases Nat.lt_trichotomy i col with h | rfl | h
  · simp [h, h.ne]
  · simp
  · simp [h.ne', h.not_gt, Nat.sub_eq_zero_iff_le, h.not_ge]

theorem and_not_bit_of_clear {m : BitVec 130} {col : Nat} (h : m.getLsbD col = false) : m &&& ~~~(1#130 <<< col) = m := by
  refine BitVec.eq_of_getLsbD_eq fun i hi => ?_
  rw [getLsbD_and_not_bit m col i hi]
  by_cases hc : i = col
  · subst hc; simp [h]
  · simp [hc]

theorem modNth_eq_self {α : Type} {l : List α} {n : Nat} {f : α → α} (h : ∀ x, l[n]? = some x → f x = x) : modNth l n f = l := by
  refine List.ext_getElem? fun i => ?_
  rw [getElem?_modNth]
  split
  · next hi =>
    subst hi
    cases hx : l[i]? with
    | none => rfl
    | some x => exact congrArg some (h x hx)
  · rfl

/-- A column that is live no more is retired already. -/
theorem core?_retireColumn {s : State} {core : Nat} {k : Core} (h : s.core? core = some k) (x : Nat × Nat) :
    (s.retireColumn core x.1 x.2).core? core = some (k.loseColumn x) := by
  unfold State.retireColumn
  rw [h, Option.bind_some]
  split
  · next m hm =>
    split
    · exact (core?_modCore_same s core _).trans (congrArg _ h)
    · next hc =>
      have hself : k.loseColumn x = k := by
        rw [Core.loseColumn, modNth_eq_self fun y hy => by
          rw [hm] at hy; cases hy
          exact and_not_bit_of_clear (Bool.eq_false_of_not_eq_true hc)]
      rw [hself, h]
  · next hm =>
    have hself : k.loseColumn x = k := by
      rw [Core.loseColumn, modNth_eq_self fun y hy => by rw [hm] at hy; cases hy]
    rw [hself, h]

theorem memSide_retireColumn (s : State) (core unit col : Nat) : MemSide s (s.retireColumn core unit col) := by
  unfold State.retireColumn
  split
  · split
    · exact (memSide_modCore s _ _).trans (memSide_logEvent _ _ _ _ _)
    · exact .refl s
  · exact .refl s

theorem core?_retireColumns (xs : List (Nat × Nat)) {s : State} {core : Nat} {k : Core} (h : s.core? core = some k) :
    (xs.foldl (fun s x => s.retireColumn core x.1 x.2) s).core? core = some (xs.foldl Core.loseColumn k) := by
  induction xs generalizing s k with
  | nil => exact h
  | cons x xs ih => exact ih (core?_retireColumn h x)

theorem loseColumns_spec (xs : List (Nat × Nat)) (k : Core) : let j := xs.foldl Core.loseColumn k
    j = { k with columns := j.columns } ∧ j.columns.length = k.columns.length ∧
      ∀ (n : Nat) (m w : BitVec 130), k.columns[n]? = some m → j.columns[n]? = some w →
        ∀ col, col < 130 → w.getLsbD col = (m.getLsbD col && !(xs.contains (n, col))) := by
  induction xs generalizing k with
  | nil =>
    refine ⟨rfl, rfl, fun n m w hm hw col _ => ?_⟩
    rw [show k.columns[n]? = some w from hw] at hm
    cases hm
    simp
  | cons x xs ih =>
    obtain ⟨h1, h2, h3⟩ := ih (k.loseColumn x)
    refine ⟨h1, h2.trans (length_modNth _ _ _), fun n m w hm hw col hcol => ?_⟩
    have hx : (k.loseColumn x).columns[n]? = some (if n = x.1 then m &&& ~~~(1#130 <<< x.2) else m) := by
      rw [Core.loseColumn, getElem?_modNth, hm]
      split <;> rfl
    have hpair : ((n, col) == x) = (n == x.1 && col == x.2) := by obtain ⟨a, b⟩ := x; rfl
    rw [h3 n _ w hx hw col hcol, List.contains_cons, hpair]
    by_cases hn : n = x.1
    · rw [if_pos hn, getLsbD_and_not_bit m x.2 col hcol, Bool.not_or, hn, beq_self_eq_true, Bool.true_and, Bool.and_assoc]
    · rw [if_neg hn, beq_eq_false_iff_ne.mpr hn, Bool.false_and, Bool.false_or]

/-! ## Self-checks -/

/-- A core whose clusters have all retired has retired (R121). -/
def Core.checked (k : Core) : Core := { k with retired := k.retired || k.liveClusters.isEmpty }

/-- What a self-check that finds no bank leaves of its core. -/
theorem laneSelfCheck_core {s : State} {r : ClusterRef} {k : Core} {c : Cluster} {f : CheckReport} (hk : s.core? r.core = some k)
    (hc : k.clusters[r.cluster]? = some c) (hb : f.banks = []) (hcrews : s.crews = []) :
    ∃ t, exec (.laneSelfCheck r f) s = .next t ∧
      t.core? r.core = some (f.columns.foldl Core.loseColumn ((failing c f.lanes).foldl (Core.loseLane s.cycle r.cluster) k)).checked := by
  let s1 := (failing c f.lanes).foldl (fun s b => s.retireLane r b) s
  let s2 := f.columns.foldl (fun s x => s.retireColumn r.core x.1 x.2) s1
  have hm : MemSide s s2 := (memSide_foldl _ (fun s b => memSide_retireLane s r b) _ s).trans
    (memSide_foldl _ (fun s (x : Nat × Nat) => memSide_retireColumn s r.core x.1 x.2) _ s1)
  have hmove : (s2.checkCore r.core).moveOut r.core = s2.checkCore r.core := 
    moveOut_of_empty ((memSide_modCore s2 _ _).crews.trans (hm.crews.trans hcrews)) _
  have hcore := core?_retireColumns f.columns (core?_retireLanes (failing c f.lanes) hk)
  have hchecked : (s2.checkCore r.core).core? r.core = _ := (core?_modCore_same s2 r.core _).trans (congrArg _ hcore)
  have hexec : exec (.laneSelfCheck r f) s = .next (if c.live &&& f.lanes = 0 then s2.checkCore r.core
      else (s2.checkCore r.core).putReport ((s2.checkCore r.core).reportCluster (4 * r.core + r.cluster))) := by
    rw [exec, execLaneSelfCheck, hk, Option.bind_some, hc]
    dsimp only
    rw [hb, List.foldl_nil, ← hmove]
    rfl
  refine ⟨_, hexec, ?_⟩
  split
  · exact hchecked
  · exact (core?_of_cores (cores_putReport _ _) _).trans hchecked

end Sys2Proof.Machine
end

