-- ==== Sys2Proof/Proofs/Retirement.lean ====
section
/-! SUPPORT. Banks, slices and pseudo-channels that retire, and the confinement of errors (R127, R170, R171, R295 to R299). -/
namespace Sys2Proof.Machine

/-! ## Banks (R127) -/

theorem Banks.freeSpare_congr {b b' : Banks} {half : Nat} (hr : ∀ k, 96 ≤ k → (k ∈ b'.retired ↔ k ∈ b.retired))
    (hs : ∀ k, 96 ≤ k → ((∃ x ∈ b'.served ++ b'.copying, x.2 = k) ↔ ∃ x ∈ b.served ++ b.copying, x.2 = k)) : b'.freeSpare half = b.freeSpare half := by
  unfold Banks.freeSpare
  refine List.find?_congr fun k hk => ?_
  have hk96 : 96 ≤ k := by
    simp only [span, List.mem_map, List.mem_range] at hk
    obtain ⟨i, -, rfl⟩ := hk
    omega
  have h1 : b'.retired.contains k = b.retired.contains k := by rw [Bool.eq_iff_iff]; simpa using hr k hk96
  have h2 : ((b'.served ++ b'.copying).any fun x => decide (x.2 = k)) = (b.served ++ b.copying).any fun x => decide (x.2 = k) := by
    rw [Bool.eq_iff_iff, List.any_eq_true, List.any_eq_true]
    simpa only [decide_eq_true_eq] using hs k hk96
  rw [h1, h2]

/-- A bank, not a spare, retires: the next spare of its half takes its copy. -/
theorem Banks.retire_bank (b : Banks) {bank : Nat} (h : bank < 96) :
    (b.retire bank).retired = b.retired ++ [bank] ∧
      (∀ sp, b.freeSpare (bankHalf bank) = some sp → (bank, sp) ∈ (b.retire bank).copying) ∧
      (b.freeSpare (bankHalf bank) = none → (∀ x ∈ b.served ++ b.copying, x.1 ≠ bank) → (b.retire bank).spent = true) := by
  let b1 : Banks := { b with
    retired := b.retired ++ [bank], served := b.served.filter fun x => decide (x.2 ≠ bank), copying := b.copying.filter fun x => decide (x.2 ≠ bank) }
  have hspare : b1.freeSpare (bankHalf bank) = b.freeSpare (bankHalf bank) := by
    refine Banks.freeSpare_congr (fun k hk => ?_) fun k hk => ?_
    · show k ∈ b.retired ++ [bank] ↔ _
      simp; omega
    · show (∃ x ∈ (b.served.filter fun x => decide (x.2 ≠ bank)) ++ b.copying.filter fun x => decide (x.2 ≠ bank), x.2 = k) ↔ _
      rw [← List.filter_append]
      exact ⟨fun ⟨x, hx, hk⟩ => ⟨x, List.mem_of_mem_filter hx, hk⟩, fun ⟨x, hx, hxk⟩ => ⟨x, List.mem_filter.mpr ⟨hx, by simp; omega⟩, hxk⟩⟩
  have he : b.retire bank = match b.freeSpare (bankHalf bank) with
      | some sp => { b1 with copying := b1.copying ++ [(bank, sp)] } | none => b1 := by
    rw [← hspare]
    unfold Banks.retire
    dsimp only
    rw [if_pos h] <;> rfl
  rw [he]
  cases hf : b.freeSpare (bankHalf bank) with
  | some sp => exact ⟨rfl, fun sp' hs => by cases hs; exact List.mem_append_right _ (List.mem_singleton_self _), fun hn => by cases hn⟩
  | none =>
    refine ⟨rfl, fun _ hs => (by cases hs), fun _ hno => ?_⟩
    refine List.any_eq_true.mpr ⟨bank, List.mem_append_right _ (List.mem_singleton_self _), ?_⟩
    rw [Bool.and_eq_true, Bool.not_eq_true', List.any_eq_false]
    refine ⟨decide_eq_true h, fun x hx => ?_⟩
    rw [show b1.served ++ b1.copying = (b.served ++ b.copying).filter fun x => decide (x.2 ≠ bank) from (List.filter_append ..).symm] at hx
    simpa using hno x (List.mem_of_mem_filter hx)

theorem retireBank_core {s : State} {n bank : Nat} {k : Core} (hk : s.core? n = some k) (hb : k.hasBank bank = true) (hr : bank ∉ k.banks.retired)
    (hcrews : s.crews = []) :
    (s.retireBank n bank).core? n = some { k with banks := k.banks.retire bank, retired := k.retired || (k.banks.retire bank).spent } := by
  unfold State.retireBank
  rw [hk]
  dsimp only
  rw [if_neg (by simp [hb, hr]), moveOut_of_empty (by exact hcrews)]
  exact (core?_modCore_same s n _).trans (congrArg _ hk)

/-- An error counted. -/
def Core.counted (k : Core) (key n : Nat) : Core := { k with banks := { k.banks with errors := SMap.put 0 k.banks.errors key n } }

theorem correctedError_eq {s : State} {n bank : Nat} {k : Core} (hk : s.core? n = some k) (hb : k.hasBank bank = true) :
    ∃ t : State, t.core? n = some (k.counted (s.bankKey bank) (SMap.look 0 k.banks.errors (s.bankKey bank) + 1)) ∧ t.crews = s.crews ∧
      exec (.correctedError n bank) s = .next (if 16 ≤ SMap.look 0 k.banks.errors (s.bankKey bank) + 1 then t.retireBank n bank else t) := by
  refine ⟨((s.modCore n fun c => c.counted (s.bankKey bank) (SMap.look 0 k.banks.errors (s.bankKey bank) + 1))).logEvent (dieOf n) 6 n bank, ?_, rfl, ?_⟩
  · exact (core?_modCore_same s n _).trans (congrArg _ hk)
  · rw [exec, execCorrectedError, hk]
    dsimp only
    rw [if_neg (by simp [hb])]
    rfl

/-! ## Slices (R170, R171) -/

/-- Some slice lives where fewer than 64 have retired. -/
theorem liveSlices_ne_nil {gone : List Nat} (h : gone.length < 64) : liveSlices gone ≠ [] := by
  intro hl
  have hall : List.range 64 ⊆ gone := fun k hk => by
    have := List.filter_eq_nil_iff.mp hl k hk
    simpa using this
  have := (List.subperm_of_subset List.nodup_range hall).length_le
  rw [List.length_range] at this
  omega

/-- A slice to which Remap sends has not retired, where one lives. -/
theorem getD_remapOf_notMem {gone : List Nat} (h : gone.length < 64) {k : Nat} (hk : k < 64) : (remapOf gone).getD k 0 ∉ gone := by
  rw [List.getD_eq_getElem?_getD]
  by_cases hm : k ∈ gone
  · obtain ⟨n, hn⟩ := List.mem_iff_getElem?.mp (List.mem_filter.mpr ⟨List.mem_range.mpr hk, decide_eq_true hm⟩ : k ∈ lostSlices gone)
    have hl := liveSlices_ne_nil h
    rw [getElem?_remapOf_of_mem hl hn]
    have hlt : n % (liveSlices gone).length < (liveSlices gone).length := Nat.mod_lt _ (List.length_pos_iff.mpr hl)
    rw [List.getElem?_eq_getElem hlt, Option.getD_some]
    have := (List.mem_filter.mp (List.getElem_mem hlt)).2
    simpa using this
  · rw [getElem?_remapOf_of_notMem hk hm]
    exact hm

theorem bits_lt (x hi lo : Nat) : bits x hi lo < 2 ^ (hi + 1 - lo) := by
  unfold bits
  exact Nat.mod_lt _ (Nat.two_pow_pos _)

theorem sliceHash_lt (pa : Nat) : sliceHash pa < 64 := by
  unfold sliceHash
  have h (hi lo : Nat) (h6 : hi + 1 - lo = 6) : bits pa hi lo < 2 ^ 6 := h6 ▸ bits_lt pa hi lo
  exact Nat.xor_lt_two_pow (Nat.xor_lt_two_pow (Nat.xor_lt_two_pow (Nat.xor_lt_two_pow (Nat.xor_lt_two_pow (Nat.xor_lt_two_pow
    (h _ _ rfl) (h _ _ rfl)) (h _ _ rfl)) (h _ _ rfl)) (h _ _ rfl))
    (h _ _ rfl)) (h _ _ rfl)

/-- A die is another but for the lines of its L2, none of which lies in a slice of `gone`. -/
def Die.Cleared (gone : List Nat) (d e : Die) : Prop := e = { d with l2 := e.l2 } ∧ ∀ l ∈ e.l2, l.slice ∉ gone

/-- Fills bring lines to the slices to which Remap sends. -/
theorem cleared_l2Fill {s : State} {n : Nat} {d e : Die} {gone : List Nat} (he : s.die? n = some e) (hc : Die.Cleared gone d e)
    (hr : ∀ pa, d.slice pa ∉ gone) (mask : BitVec 16) (line : Nat) :
    ∃ f, (s.l2Fill n mask line).die? n = some f ∧ Die.Cleared gone d f := by
  obtain ⟨h1, h2⟩ := hc
  have hslice : e.slice (128 * line) = d.slice (128 * line) := by rw [h1]; rfl
  have hnew (w : Nat) (rest : List L2Line) (hrest : ∀ l ∈ rest, l ∈ e.l2) : Die.Cleared gone d
      { e with l2 := { line := line, slice := e.slice (128 * line), set := l2SetOf line, way := w, filled := s.memLine line } :: rest } := by
    refine ⟨by rw [h1], fun l hl => ?_⟩
    rcases List.mem_cons.mp hl with rfl | hl
    · exact hslice ▸ hr _
    · exact h2 l (hrest l hl)
  unfold State.l2Fill
  rw [he]
  dsimp only
  split
  · exact ⟨e, he, h1, h2⟩
  · split
    · exact ⟨_, (die?_modDie s n n _).trans ((if_pos rfl).trans (congrArg _ he)), hnew _ _ fun l hl => hl⟩
    · split
      · exact ⟨e, he, h1, h2⟩
      · exact ⟨_, (die?_modDie s n n _).trans ((if_pos rfl).trans (congrArg _ he)), hnew _ _ fun l hl => List.mem_of_mem_filter hl⟩

theorem cleared_foldl_l2Fill (lines : List Nat) {s : State} {n : Nat} {d e : Die} {gone : List Nat} (he : s.die? n = some e)
    (hc : Die.Cleared gone d e) (hr : ∀ pa, d.slice pa ∉ gone) (mask : BitVec 16) :
    ∃ f, (lines.foldl (fun s l => s.l2Fill n mask l) s).die? n = some f ∧ Die.Cleared gone d f := by
  induction lines generalizing s e with
  | nil => exact ⟨e, he, hc⟩
  | cons l lines ih =>
    obtain ⟨f, hf, hcf⟩ := cleared_l2Fill he hc hr mask l
    exact ih hf hcf

theorem cleared_clearBox {s : State} {n : Nat} {d e : Die} {gone : List Nat} (he : s.die? n = some e) (hc : Die.Cleared gone d e) :
    ∃ f, (s.clearBox n).die? n = some f ∧ Die.Cleared gone d f := by
  unfold State.clearBox
  split
  · refine ⟨_, (die?_modDie s n n _).trans ((if_pos rfl).trans (congrArg _ he)), by rw [hc.1], fun l hl => hc.2 l (List.mem_of_mem_filter hl)⟩
  · exact ⟨e, he, hc⟩

end Sys2Proof.Machine
end

