-- ==== Sys2Proof/Proofs/Confinement.lean ====
section
/-! SUPPORT. Quadrants that retire, and how errors are confined (R292, R295 to R299). -/
namespace Sys2Proof.Machine

/-! ## Quadrants (R296, R297) -/

/-- The places that the hit entries take: each its own, in order. -/
theorem find?_zip {hit : List Nat} (hn : hit.Nodup) (places : List (Nat × Nat)) {m k : Nat} {x : Nat × Nat} (hk : hit[m]? = some k)
    (hx : places[m]? = some x) : (hit.zip places).find? (fun y => decide (y.1 = k)) = some (k, x) := by
  induction hit generalizing places m with
  | nil => simp at hk
  | cons h hit ih =>
    cases places with
    | nil => simp at hx
    | cons p places =>
      rw [List.zip_cons_cons]
      obtain ⟨hh, hn'⟩ := List.nodup_cons.mp hn
      cases m with
      | zero =>
        obtain rfl : h = k := by simpa using hk
        obtain rfl : p = x := by simpa using hx
        exact List.find?_cons_of_pos (by simp)
      | succ m =>
        rw [List.getElem?_cons_succ] at hk hx
        have hne : h ≠ k := fun he => hh (he ▸ List.mem_of_getElem? hk)
        rw [List.find?_cons_of_neg (by simpa using hne)]
        exact ih hn' places hk hx

/-- The entries of PcMap that name a pseudo-channel, ascending. -/
def Quadrant.hits (q : Quadrant) (chan : Nat) : List Nat := (List.range 2048).filter fun n => decide ((q.placeOf n).1 = chan)

/-- An entry that does not name the channel stands. -/
theorem placeOf_retire_other (q : Quadrant) (chan : Nat) {k : Nat} (hk : (q.placeOf k).1 ≠ chan) : (q.retire chan).placeOf k = q.placeOf k := by
  let given := (q.hits chan).zip (q.reserve (q.retired ++ [chan]))
  have hgiven : ∀ y ∈ given, y.1 ≠ k := fun y hy he => by
    have hm := (List.mem_filter.mp (List.of_mem_zip hy).1).2
    rw [decide_eq_true_eq, he] at hm
    exact hk hm
  have hfind : (q.retire chan).moved.find? (fun x => decide (x.1 = k)) = q.moved.find? fun x => decide (x.1 = k) := by
    show (given ++ q.moved.filter fun x => !(given.any fun y => decide (y.1 = x.1))).find? (fun x => decide (x.1 = k)) = _
    rw [List.find?_append, List.find?_eq_none.mpr fun y hy => by simpa using hgiven y hy, Option.none_or, List.find?_filter]
    refine List.find?_congr fun x _ => ?_
    by_cases hx : x.1 = k
    · have hno : (given.any fun y => decide (y.1 = x.1)) = false := List.any_eq_false.mpr fun y hy => by simpa [hx] using hgiven y hy
      simp only [hno]
      simp [hx]
    · simp [hx]
  unfold Quadrant.placeOf
  rw [hfind]

/-- The hit entries take the reserve places in turn. -/
theorem placeOf_retire_hit (q : Quadrant) (chan : Nat) {m k : Nat} {x : Nat × Nat} (hk : (q.hits chan)[m]? = some k)
    (hx : (q.reserve (q.retired ++ [chan]))[m]? = some x) : (q.retire chan).placeOf k = x := by
  have hfind : (q.retire chan).moved.find? (fun y => decide (y.1 = k)) = some (k, x) := by
    show ((q.hits chan).zip (q.reserve (q.retired ++ [chan])) ++ _).find? (fun y => decide (y.1 = k)) = _
    rw [List.find?_append, find?_zip (show (q.hits chan).Nodup from List.nodup_range.filter _) _ hk hx, Option.some_or]
  unfold Quadrant.placeOf
  rw [hfind]

theorem quads_putReport (s : State) (r : Report) : (s.putReport r).quads = s.quads := (memSide_putReport s r).quads

/-- The frames of a quadrant that has retired are out of service, and its lines poisoned. -/
theorem quadDead_of {s : State} {n : Nat} {q : Quadrant} (hq : s.quads[n]? = some q) (hd : q.dead = true) {pa : Nat} (hpa : inHbm pa = true)
    (hn : quadOf (segOf pa) = n) : s.quadDead pa = true := by
  rw [State.quadDead, hpa, hn, hq]
  exact hd

theorem frameOk_of_quadDead {s : State} {n : Nat} {x : Xlate} (h : ∀ pa, inHbm pa = true → quadOf (segOf pa) = n → s.quadDead pa = true)
    (hx : inQuad n x = true) : s.frameOk x = false := by
  rw [inQuad, Bool.and_eq_true, Bool.and_eq_true, decide_eq_true_eq, decide_eq_true_eq] at hx
  obtain ⟨⟨ht, hb⟩, hq⟩ := hx
  unfold State.frameOk
  dsimp only
  rw [if_neg (by rw [ht]; exact fun h => h rfl), h _ hb hq, Bool.not_true, Bool.and_false, Bool.false_and]

/-! ## Poison (R298) -/

theorem poisoned_poisonLine (s : State) (line l : Nat) : (s.poisonLine line).poisoned l = (decide (l = line) || s.poisoned l) := by
  have hq : (s.poisonLine line).quads = s.quads := by unfold State.poisonLine; split <;> rfl
  have hp : (s.poisonLine line).poison.contains l = (decide (l = line) || s.poison.contains l) := by
    unfold State.poisonLine
    split
    · next h =>
      by_cases hl : l = line
      · subst hl; simp only [h, Bool.or_true]
      · rw [decide_eq_false hl, Bool.false_or]
    · rw [List.contains_cons]; rfl
  rw [State.poisoned, State.poisoned, hp, State.quadDead, State.quadDead, hq, Bool.or_assoc]

/-! ## Confinement (R299) -/

/-- The state in which an error is confined: what waited for it is over. -/
def State.metError (s : State) (e : ErrorSite) : State :=
  { s with
    found := s.found.filter (· ≠ e)
    queues := modWhere (fun (q : Queue) => decide ((q.desc.toNat + 0x18) / 128 = e.line)) (fun q => { q with rungMet := none }) s.queues }

/-- A doorbell's error plays no part in what holds a line. -/
theorem partitionLine_metError (s : State) (e : ErrorSite) (line : Nat) : (s.metError e).partitionLine line = s.partitionLine line := by
  have hfind : ((s.metError e).queues.find? fun q => (s.metError e).queueLives q &&
        (lineAmong line q.desc.toNat 64 || (s.metError e).inRing q line)).map (·.part) =
      (s.queues.find? fun q => s.queueLives q && (lineAmong line q.desc.toNat 64 || s.inRing q line)).map (·.part) := by
    refine (congrArg (Option.map Queue.part) (find?_modWhere s.queues
      (fun q => s.queueLives q && (lineAmong line q.desc.toNat 64 || s.inRing q line))
      (fun (q : Queue) => decide ((q.desc.toNat + 0x18) / 128 = e.line)) (fun q => { q with rungMet := none }) fun q => rfl)).trans ?_
    rw [Option.map_map]
    congr 1
    funext q
    simp only [Function.comp]
    split <;> rfl
  unfold State.partitionLine
  exact congrArg (fun x => _ <|> x) hfind

/-- The error's line poisoned and the event in the log. -/
def State.noted (s : State) (e : ErrorSite) : State := ((s.metError e).poisonLine e.line).logEvent ((s.metError e).lineDie e.line) 7 0 e.line

theorem noted_eq (s : State) (e : ErrorSite) : ∃ poison dies, s.noted e = { s.metError e with poison := poison, dies := dies } := by
  unfold State.noted State.poisonLine
  split
  · exact ⟨_, _, rfl⟩
  · exact ⟨_, _, rfl⟩

theorem poisoned_noted (s : State) (e : ErrorSite) (l : Nat) : (s.noted e).poisoned l = (decide (l = e.line) || s.poisoned l) :=
  poisoned_poisonLine (s.metError e) e.line l

theorem uncorrectableError_kept {s : State} {e : ErrorSite} (hf : firmwareLost e = false) : exec (.uncorrectableError e) s = .next
    (match s.partitionLine e.line with
      | some part => ((s.noted e).spoilL1 e.line).failPartition part
      | none =>
        match s.dirtyOwner e with
        | some ctx => ((s.noted e).spoilL1 e.line).failContext ctx
        | none => s.noted e) := by
  rw [← partitionLine_metError s e]
  exact congrArg Host.Outcome.next (if_neg (by rw [hf]; exact Bool.false_ne_true))

theorem failContext_eq {s : State} (h : s.queues = []) (ctx : Nat) :
    s.failContext ctx = { s with contexts := modNth s.contexts ctx fun x => x.map fun (c : Context) => { c with failed := true } } := by
  unfold State.failContext
  simp only [h, List.filter_nil, List.foldl_nil]

theorem ctx?_modNth (s : State) (n m : Nat) (f : Context → Context) :
    (({ s with contexts := modNth s.contexts n fun x => x.map f } : State)).ctx? m = if m = n then (s.ctx? m).map f else s.ctx? m := by
  show ((modNth s.contexts n fun x => x.map f)[m]?).join = _
  rw [getElem?_modNth]
  split
  · rw [State.ctx?]
    cases s.contexts[m]? with
    | none => rfl
    | some x => rfl
  · rfl

theorem part?_modNth (s : State) (n m : Nat) (f : Partition → Partition) :
    (({ s with partitions := modNth s.partitions n fun x => x.map f } : State)).part? m = if m = n then (s.part? m).map f else s.part? m := by
  show ((modNth s.partitions n fun x => x.map f)[m]?).join = _
  rw [getElem?_modNth]
  split
  · rw [State.part?]
    cases s.partitions[m]? with
    | none => rfl
    | some x => rfl
  · rfl

/-- The contexts of a list fail, where no queue stands. -/
theorem failContexts_spec (ns : List Nat) {s : State} (h : s.queues = []) :
    ∃ cs, ns.foldl State.failContext s = { s with contexts := cs } ∧
      ∀ n, (ns.foldl State.failContext s).ctx? n = if n ∈ ns then (s.ctx? n).map fun c => { c with failed := true } else s.ctx? n := by
  induction ns generalizing s with
  | nil => exact ⟨_, rfl, fun n => by simp⟩
  | cons m ns ih =>
    rw [List.foldl_cons, failContext_eq h]
    obtain ⟨cs, h1, h2⟩ := ih (s := { s with contexts := modNth s.contexts m fun x => x.map fun (c : Context) => { c with failed := true } }) h
    refine ⟨cs, h1, fun n => (h2 n).trans ?_⟩
    rw [ctx?_modNth]
    by_cases hn : n = m
    · subst hn
      rw [if_pos rfl, if_pos (List.mem_cons_self ..)]
      split
      · rw [Option.map_map]; rfl
      · rfl
    · rw [if_neg hn]
      simp only [List.mem_cons, hn, false_or]

/-! ## The events -/

theorem mem_liveClusters (k : Core) {n : Nat} (hn : n < 4) {x : Cluster} (hx : k.clusters[n]? = some x) :
    n ∈ k.liveClusters ↔ 8 ≤ ((List.range 34).filter fun b => x.live.getLsbD b).length := by
  unfold Core.liveClusters
  rw [List.mem_filter, List.getD_eq_getElem?_getD, hx, decide_eq_true_eq]
  exact and_iff_right (List.mem_range.mpr hn)

theorem sliceRemap_spec {s : State} {n : Nat} {d : Die} (hd : s.die? n = some d) (he : d.evacuating ≠ []) :
    ∃ t e, exec (.sliceRemap n) s = .next t ∧ t.die? n = some e ∧ e.evacuating = [] ∧ e.retiredSlices = d.retiredSlices ++ d.evacuating ∧
      e.remap = remapOf e.retiredSlices ∧
      (d.retiredSlices.length + d.evacuating.length < 64 → ∀ l ∈ e.l2, l.slice ∉ d.evacuating) := by
  let gone := d.retiredSlices ++ d.evacuating
  let d1 : Die := { d with
    retiredSlices := gone, evacuating := [], remap := remapOf gone, l2 := d.l2.filter fun e => !(d.evacuating.contains e.slice) }
  let s1 := s.modDie n fun d =>
    { d with
      retiredSlices := gone, evacuating := [], remap := remapOf gone, l2 := d.l2.filter fun e => !(d.evacuating.contains e.slice) }
  have h1 : s1.die? n = some d1 := (die?_modDie s n n _).trans ((if_pos rfl).trans (congrArg _ hd))
  -- the slices that a line of L2 then lies in, as far as a slice lives
  let out : List Nat := if gone.length < 64 then d.evacuating else []
  have hout : Die.Cleared out d1 d1 := by
    refine ⟨rfl, fun l hl hm => ?_⟩
    have hin : l.slice ∈ d.evacuating := by
      by_cases hg : gone.length < 64
      · rwa [show out = d.evacuating from if_pos hg] at hm
      · rw [show out = [] from if_neg hg] at hm; cases hm
    have := (List.mem_filter.mp hl).2
    rw [List.contains_iff_mem.mpr hin] at this
    cases this
  have hslice (pa : Nat) : d1.slice pa ∉ out := by
    by_cases hg : gone.length < 64
    · rw [show out = d.evacuating from if_pos hg]
      exact fun hm => getD_remapOf_notMem hg (sliceHash_lt pa) (List.mem_append_right _ hm)
    · rw [show out = [] from if_neg hg]
      exact List.not_mem_nil
  let left := (d.l2.filter fun e => d.evacuating.contains e.slice).map (·.line)
  obtain ⟨e2, he2, hc2⟩ := cleared_foldl_l2Fill (left.filter fun l => s1.records.any fun r => r.line = l) h1 hout hslice (BitVec.allOnes 16)
  obtain ⟨e3, he3, heq, hl2⟩ := cleared_clearBox he2 hc2
  have hexec : exec (.sliceRemap n) s = .next ((((left.filter fun l => s1.records.any fun r => r.line = l).foldl
      (fun s l => s.l2Fill n (BitVec.allOnes 16) l) s1).clearBox n).putReport
      ((((left.filter fun l => s1.records.any fun r => r.line = l).foldl
      (fun s l => s.l2Fill n (BitVec.allOnes 16) l) s1).clearBox n).reportRemap n)) := by
    rw [exec, execSliceRemap, hd]
    exact congrArg Host.Outcome.next (if_neg (by simpa using he))
  refine ⟨_, e3, hexec, ?_, ?_, ?_, ?_, fun hlen => ?_⟩
  · rw [State.die?, putReport_dies]; exact he3
  · rw [heq]
  · rw [heq]
  · rw [heq]
  · rwa [show out = d.evacuating from if_pos (by rw [List.length_append]; exact hlen)] at hl2

theorem pseudoChannel_spec {s : State} {n chan : Nat} {q : Quadrant} (hq : s.quads[n]? = some q) (hc : chan < 64) (hr : chan ∉ q.retired)
    (hcopy : q.copying = none) (hdead : q.dead = false) : exec (.pseudoChannelRetirement n chan) s = .next
      (if q.retired.length < 2 then
        { s.logEvent (linkDie n) 5 n chan with quads := modNth s.quads n fun q => { q with copying := some chan } }
      else { s.logEvent (linkDie n) 5 n chan with quads := modNth s.quads n fun q => { q with dead := true } }.dropQuad n) := by
  rw [exec, execPseudoChannelRetirement, hq]
  exact congrArg Host.Outcome.next (if_neg (by simp [hr, hcopy, hdead]; omega))

theorem neighbourRefresh_spec (s : State) (row : Nat) (upset : Bool) : let r := SMap.look RowCount.zero s.rows row
    let n := min 4095 (r.count.toNat + 1)
    let good := parityOf r.count = (r.parity ^^ upset)
    ∃ t, exec (.neighbourRefresh row upset) s = .next t ∧
      (s.rowLimit ≤ n ∨ 4095 ≤ n ∨ ¬ good → SMap.look RowCount.zero t.rows row = RowCount.zero) ∧
      (n < s.rowLimit → n < 4095 → good →
        SMap.look RowCount.zero t.rows row = { count := BitVec.ofNat 12 n, parity := parityOf (BitVec.ofNat 12 n) }) ∧
      (∀ m, m ≠ row → SMap.look RowCount.zero t.rows m = SMap.look RowCount.zero s.rows m) ∧
      ∀ d, s.die? (rowDie row) = some d → ∃ y, t.die? (rowDie row) = some y ∧ y.logSeq = d.logSeq + if good then 0 else 1 := by
  intro r n good
  by_cases hg : good
  · have hb : (parityOf r.count == (r.parity ^^ upset)) = true := beq_iff_eq.mpr hg
    refine ⟨{ s with rows := SMap.put RowCount.zero s.rows row <|
      if s.rowLimit ≤ n ∨ 4095 ≤ n then RowCount.zero else { count := BitVec.ofNat 12 n, parity := parityOf (BitVec.ofNat 12 n) } },
      ?_, fun h => ?_, fun h1 h2 _ => ?_, fun m hm => ?_, fun d hd => ⟨d, hd, ?_⟩⟩
    · rw [exec, execNeighbourRefresh]
      simp only [show (parityOf (SMap.look RowCount.zero s.rows row).count == ((SMap.look RowCount.zero s.rows row).parity ^^ upset)) = true from hb,
        Bool.not_true, Bool.false_eq_true, or_false, if_true]
      rfl
    · show SMap.look RowCount.zero (SMap.put RowCount.zero s.rows row _) _ = _
      rw [SMap.look_put, if_pos rfl, if_pos (by rcases h with h | h | h; exacts [.inl h, .inr h, absurd hg h])]
    · show SMap.look RowCount.zero (SMap.put RowCount.zero s.rows row _) _ = _
      rw [SMap.look_put, if_pos rfl, if_neg (by omega)]
    · show SMap.look RowCount.zero (SMap.put RowCount.zero s.rows row _) _ = _
      rw [SMap.look_put, if_neg hm]
    · rw [if_pos hg]; exact (BitVec.add_zero _).symm
  · have hb : (parityOf r.count == (r.parity ^^ upset)) = false := beq_eq_false_iff_ne.mpr hg
    refine ⟨{ s.logEvent (rowDie row) 6 2 row with rows := SMap.put RowCount.zero s.rows row RowCount.zero },
      ?_, fun _ => ?_, fun _ _ h => absurd h hg, fun m hm => ?_, fun d hd => ⟨_, (die?_modDie s _ _ _).trans ((if_pos rfl).trans (congrArg _ hd)), ?_⟩⟩
    · rw [exec, execNeighbourRefresh]
      simp only [show (parityOf (SMap.look RowCount.zero s.rows row).count == ((SMap.look RowCount.zero s.rows row).parity ^^ upset)) = false from hb,
        Bool.not_false, or_true, if_true]
      rfl
    · exact (SMap.look_put RowCount.zero s.rows row row RowCount.zero).trans (if_pos rfl)
    · exact (SMap.look_put RowCount.zero s.rows row m RowCount.zero).trans (if_neg hm)
    · rw [if_neg hg]

/-- Settles O58: event by event, from what each leaves of its core, die or quadrant. -/
theorem reliability : Obligations.Reliability := by
  unfold Obligations.Reliability
  refine ⟨?_, ?_, ?_, ?_, ?_, ?_, ?_, ?_, ?_, ?_, ?_, ?_, ?_, neighbourRefresh_spec⟩
  · intro s r k c f hk hc hb hcol hcrews
    obtain ⟨t, ht, hcore⟩ := laneSelfCheck_core hk hc hb hcrews
    rw [hcol] at hcore
    obtain ⟨-, hcl⟩ := loseLanes_spec s.cycle r.cluster (failing c f.lanes) k
    exact ⟨t, _, _, ht, hcore, hcl c hc, live_failing s.cycle c f.lanes, fun h => retCycle_loseLanes s.cycle _ c (failing_ne_nil h)⟩
  · intro s r k c f hk hc hb hcrews
    obtain ⟨t, ht, hcore⟩ := laneSelfCheck_core hk hc hb hcrews
    obtain ⟨hl, -⟩ := loseLanes_spec s.cycle r.cluster (failing c f.lanes) k
    obtain ⟨hj, hlen, hbits⟩ := loseColumns_spec f.columns ((failing c f.lanes).foldl (Core.loseLane s.cycle r.cluster) k)
    have hcolumns : ((failing c f.lanes).foldl (Core.loseLane s.cycle r.cluster) k).columns = k.columns := by rw [hl]
    have hretired : (f.columns.foldl Core.loseColumn ((failing c f.lanes).foldl (Core.loseLane s.cycle r.cluster) k)).retired = k.retired := by
      rw [hj, hl]
    refine ⟨t, _, ht, hcore, hlen.trans (congrArg _ hcolumns), fun n m w hm hw => hbits n m w (by rw [hcolumns]; exact hm) hw,
      fun n x hn hx => mem_liveClusters _ hn hx, ?_⟩
    exact congrArg (· || _) hretired
  · intro s n bank sp k hk hm hcrews
    refine ⟨_, _, congrArg Host.Outcome.next (moveOut_of_none hcrews), (core?_modCore_same s n _).trans (congrArg _ hk), rfl, ?_, ?_, rfl⟩
    · exact List.mem_append_right _ (List.mem_filter.mpr ⟨hm, decide_eq_true rfl⟩)
    · exact fun x hx => of_decide_eq_true (List.mem_filter.mp hx).2
  · intro s n bank k hk hb he
    obtain ⟨t, ht, -, hexec⟩ := correctedError_eq hk hb
    rw [if_neg (by omega)] at hexec
    exact ⟨t, _, hexec, ht, by rw [Core.counted, SMap.look_put, if_pos rfl], rfl, rfl⟩
  · intro s n bank k hk hb hbank hcrews he hr hno
    obtain ⟨t, ht, htc, hexec⟩ := correctedError_eq hk hb
    rw [if_pos (by omega)] at hexec
    obtain ⟨h1, h2, h3⟩ := Banks.retire_bank (k.counted (s.bankKey bank) (SMap.look 0 k.banks.errors (s.bankKey bank) + 1)).banks hbank
    refine ⟨_, _, hexec, retireBank_core ht hb hr (htc.trans hcrews), h1, h2, fun hnone => ?_⟩
    show (_ || _) = true
    rw [h3 hnone hno, Bool.or_true]
  · intro s n slice d hd hslice hr
    have he := (die?_modDie s n n fun d => { d with evacuating := d.evacuating ++ [slice] }).trans ((if_pos rfl).trans (congrArg _ hd))
    refine ⟨(s.modDie n fun d => { d with evacuating := d.evacuating ++ [slice] }).logEvent n 4 slice 0, _, ?_,
      (die?_modDie _ n n _).trans ((if_pos rfl).trans (congrArg _ he)), rfl, rfl⟩
    rw [exec, execSliceRetirement, hd]
    exact congrArg Host.Outcome.next (if_neg (by rw [List.contains_iff_mem, not_or]; exact ⟨by omega, hr⟩))
  · exact fun s n d hd he => sliceRemap_spec hd he
  · intro s n chan q hq hc hr hcopy hdead
    have hexec := pseudoChannel_spec hq hc hr hcopy hdead
    refine ⟨fun h2 => ?_, fun h2 => ?_⟩
    · rw [if_pos h2] at hexec
      refine ⟨_, hexec, ?_, rfl⟩
      exact (getElem?_modNth _ _ _ _).trans ((if_pos rfl).trans (congrArg _ hq))
    · rw [if_neg (by omega)] at hexec
      have hquad : (modNth s.quads n fun q => { q with dead := true })[n]? = some { q with dead := true } :=
        (getElem?_modNth _ _ _ _).trans ((if_pos rfl).trans (congrArg _ hq))
      have hgone (pa : Nat) (hpa : inHbm pa = true) (hn : quadOf (segOf pa) = n) :=
        quadDead_of (s := { s.logEvent (linkDie n) 5 n chan with quads := modNth s.quads n fun q => { q with dead := true } }.dropQuad n)
          hquad rfl hpa hn
      refine ⟨_, hexec, hquad, fun line hl hn => ?_, fun k hk e he => ?_, fun x hx _ => frameOk_of_quadDead hgone hx⟩
      · rw [State.poisoned, hgone _ hl hn, Bool.or_true]
      · obtain ⟨k', -, rfl⟩ := List.mem_map.mp hk
        have := (List.mem_filter.mp he).2
        simpa using this
  · intro s n chan q hq hcopy
    refine ⟨{ s with quads := modNth s.quads n fun q => q.retire chan }.putReport
      (({ s with quads := modNth s.quads n fun q => q.retire chan } : State).reportQuad n), q.retire chan, ?_, ?_, rfl, rfl, fun k _ hk => placeOf_retire_other q chan hk, fun m k x hk hx => placeOf_retire_hit q chan hk hx⟩
    · rw [exec, execPcmapUpdate, hq, Option.bind_some, hcopy]
    · rw [quads_putReport]
      exact (getElem?_modNth _ _ _ _).trans ((if_pos rfl).trans (congrArg _ hq))
  · intro s e hf hp hd
    refine ⟨s.noted e, ?_, ?_, fun l hl => ?_, ?_⟩
    · rw [uncorrectableError_kept hf, hp, hd]
    · rw [poisoned_noted, decide_eq_true rfl, Bool.true_or]
    · rw [poisoned_noted, decide_eq_false hl, Bool.false_or]
    · obtain ⟨_, _, h⟩ := noted_eq s e
      rw [h]
      exact ⟨rfl, rfl, rfl, rfl, rfl⟩
  · intro s e ctx x hq hf hp hd hx
    obtain ⟨poison, dies, hn⟩ := noted_eq s e
    have hqueues : ((s.noted e).spoilL1 e.line).queues = [] := by
      rw [hn]; show modWhere _ _ s.queues = []; rw [hq]; rfl
    have hctx (n : Nat) : ((s.noted e).spoilL1 e.line).ctx? n = s.ctx? n := by rw [hn]; rfl
    refine ⟨((s.noted e).spoilL1 e.line).failContext ctx, ?_, ?_, ?_, fun n hne => ?_, ?_, ?_⟩
    · rw [uncorrectableError_kept hf, hp, hd]
    · rw [failContext_eq hqueues]
      exact (poisoned_noted s e e.line).trans (by rw [decide_eq_true rfl, Bool.true_or])
    · rw [failContext_eq hqueues, ctx?_modNth, if_pos rfl, hctx, hx]; rfl
    · rw [failContext_eq hqueues, ctx?_modNth, if_neg hne, hctx]
    · rw [failContext_eq hqueues, hn]; rfl
    · rw [failContext_eq hqueues]
      intro k hk l hl he
      obtain ⟨k', -, rfl⟩ := List.mem_map.mp hk
      obtain ⟨l', -, rfl⟩ := List.mem_map.mp hl
      by_cases hline : l'.line = e.line
      · rw [if_pos (decide_eq_true hline)]; exact ⟨rfl, rfl⟩
      · rw [if_neg (by simpa using hline)] at he; exact absurd he hline
  · intro s e part p hq hf hp hpart
    obtain ⟨poison, dies, hn⟩ := noted_eq s e
    let t := (s.noted e).spoilL1 e.line
    have hqueues : t.queues = [] := by show ((s.noted e).spoilL1 e.line).queues = []; rw [hn]; show modWhere _ _ s.queues = []; rw [hq]; rfl
    have hctx (n : Nat) : t.ctx? n = s.ctx? n := by show ((s.noted e).spoilL1 e.line).ctx? n = _; rw [hn]; rfl
    have hparts (n : Nat) : t.part? n = s.part? n := by show ((s.noted e).spoilL1 e.line).part? n = _; rw [hn]; rfl
    let ns := (List.range 64).filter fun n => match t.ctx? n with | some c => decide (c.part = part) | none => false
    obtain ⟨cs, h1, h2⟩ := failContexts_spec ns hqueues
    have hfail : t.failPartition part =
        { { t with contexts := cs } with partitions := modNth t.partitions part fun x => x.map fun (p : Partition) => { p with stopped := true } } :=
      congrArg (fun (u : State) => { u with
        partitions := modNth u.partitions part fun x => x.map fun (p : Partition) => { p with stopped := true } }) h1
    have hpart' := part?_modNth { t with contexts := cs } part
    refine ⟨t.failPartition part, ?_, ?_, ?_, fun n hne => ?_, fun n hn64 => ?_⟩
    · rw [uncorrectableError_kept hf, hp]
    · rw [hfail]
      exact (poisoned_noted s e e.line).trans (by rw [decide_eq_true rfl, Bool.true_or])
    · rw [hfail, hpart' part, if_pos rfl]
      exact (congrArg _ (hparts part)).trans (congrArg _ hpart)
    · rw [hfail, hpart' n, if_neg hne]
      exact hparts n
    · have hmem : n ∈ ns ↔ ∃ c, s.ctx? n = some c ∧ c.part = part := by
        rw [List.mem_filter, List.mem_range, hctx]
        cases s.ctx? n with
        | none => simp
        | some c => simp [hn64]
      rw [show (t.failPartition part).ctx? n = (ns.foldl State.failContext t).ctx? n from rfl, h2, hctx]
      cases hc : s.ctx? n with
      | none => simp
      | some c =>
        by_cases hcp : c.part = part
        · rw [if_pos (hmem.mpr ⟨c, hc, hcp⟩), Option.map_some, Option.map_some, if_pos hcp]
        · rw [if_neg (fun h => by obtain ⟨c', h1, h2⟩ := hmem.mp h; rw [hc] at h1; cases h1; exact hcp h2), Option.map_some, if_neg hcp]
  · intro s e hf
    refine ⟨_, congrArg Host.Outcome.next (if_pos hf), ?_, rfl, rfl, rfl⟩
    exact (poisoned_noted s e e.line).trans (by rw [decide_eq_true rfl, Bool.true_or])

end Sys2Proof.Machine
end

