-- ==== Sys2Proof/Proofs/StrandEvents.lean ====
section
/-! SUPPORT. What happens to strands, hand-offs and counters while no split issues (R143, R149, R154, R195, R265, R266, R270, R289, R290). -/
namespace Sys2Proof.Machine

/-! ## Splits -/

/-- A split in its strand. -/
theorem splitAt?_spec {s : State} {r : SplitRef} {g : Grid} {c : Crew} {t : Strand} {p : Path} (h : s.splitAt? r = some (g, c, t, p)) :
    s.strand? r.strand = some t ∧ t.splitOf? r.lane = some p := by
  unfold State.splitAt? at h
  split at h
  · next hg hc hs =>
    obtain ⟨q, hq, he⟩ := Option.map_eq_some_iff.mp h
    cases he
    exact ⟨hs, hq⟩
  · cases h

/-- A change of a split that keeps its lanes changes its strand's splits alone. -/
theorem modPath_spec {s : State} {r : SplitRef} {g : Grid} {c : Crew} {t : Strand} {p : Path} (h : s.splitAt? r = some (g, c, t, p))
    (f : Path → Path) (hf : ∀ p, (f p).mask = p.mask) : ∃ u, (s.modPath r f).strand? r.strand = some u ∧ u = { t with splits := u.splits } ∧
      u.splitOf? r.lane = some (f p) := by
  obtain ⟨hs, hp⟩ := splitAt?_spec h
  exact ⟨_, (strand?_modStrand_same s r.strand _ (by intro t; rfl)).trans (congrArg _ hs), rfl, splitOf?_modSplit f hf hp⟩

/-! ## The watchdog (R290) -/

/-- A strand that has not ended takes the trap at its next boundary. -/
def Strand.bitten (handler : Word) (t : Strand) : Strand :=
  if t.isOver then t
  else
    { t with
      deferred := t.deferred ++
        [{ trap := .watchdog, handler := handler, addr := 0, lane := lowest t.live, pc := 0, mask := t.live, entry := none }] }

/-- A crew whose watchdog has run out. -/
def Crew.bitten (c : Crew) : Crew := { c with wdCount := 0, strands := c.strands.map (Strand.bitten c.handler) }

theorem crew?_wake {s : State} {r : CrewRef} {c : Crew} (h : s.crew? r = some c) :
    (s.wake r).crew? r = some { c with woken := true, since := if s.returnable c then c.since else s.cycle } :=
  (crew?_modCrew_same s r _ (by intro c; exact ⟨rfl, rfl⟩)).trans (congrArg _ h)

theorem watchdog_spec {s : State} {c : Crew} (hc : s.crew? c.ref = some c) (hd : c.dogDue = true) :
    ∃ t k, exec (.watchdog c.ref) s = .next t ∧ t.crew? c.ref = some k ∧ k.wdCount = 0 ∧ k.woken = (c.woken || decide (c.state = .swapped)) ∧
      k.strands = c.strands.map (Strand.bitten c.handler) := by
  let s1 := s.modCrew c.ref fun k => { k with wdCount := 0, strands := k.strands.map (Strand.bitten c.handler) }
  have h1 : s1.crew? c.ref = some c.bitten := (crew?_modCrew_same s c.ref _ (by intro c; exact ⟨rfl, rfl⟩)).trans (congrArg _ hc)
  have hexec : exec (.watchdog c.ref) s = .next (if c.state = .swapped && !c.woken then s1.wake c.ref else s1) := by
    rw [exec, execWatchdog, hc]
    exact if_neg (by rw [hd]; exact Bool.false_ne_true)
  by_cases hw : (decide (c.state = .swapped) && !c.woken) = true
  · rw [if_pos hw] at hexec
    rw [Bool.and_eq_true] at hw
    exact ⟨_, _, hexec, crew?_wake h1, rfl, by rw [hw.1, Bool.or_true], rfl⟩
  · rw [if_neg hw] at hexec
    refine ⟨_, _, hexec, h1, rfl, ?_, rfl⟩
    show c.woken = _
    cases hwk : c.woken
    · rw [hwk, Bool.not_false, Bool.and_true] at hw
      rw [Bool.eq_false_of_not_eq_true hw]; rfl
    · rfl

/-! ## Deliveries (R148, R149) -/

/-- What the chain holds under a name, its places apart. -/
def foundAs (pubs : List Pub) (item h gen : Nat) : Option Pub := (pubs.find? fun p => p.item = item && p.slot = h && p.gen = gen).map Pub.core

/-- Placing copies of a generation leaves what is found under its name. -/
theorem foundAs_putPub {pubs : List Pub} {p : Pub} (h : (foundAs pubs p.item p.slot p.gen).isSome = true) :
    foundAs (putPub pubs p) p.item p.slot p.gen = some p.core := by
  obtain ⟨y, hy⟩ := Option.isSome_iff_exists.mp h
  obtain ⟨q, hq, -⟩ := Option.map_eq_some_iff.mp hy
  have hk := List.find?_some (p := fun x : Pub => decide (x.item = p.item) && decide (x.slot = p.slot) && decide (x.gen = p.gen)) hq
  have hfind : (putPub pubs p).find? (fun x => decide (x.item = p.item) && decide (x.slot = p.slot) && decide (x.gen = p.gen)) = some p := by
    have hself : (decide (p.item = p.item) && decide (p.slot = p.slot) && decide (p.gen = p.gen)) = true := by simp
    unfold putPub modWhere
    rw [List.find?_map]
    have hcomp : ((fun x : Pub => decide (x.item = p.item) && decide (x.slot = p.slot) && decide (x.gen = p.gen)) ∘ fun x : Pub =>
        if decide (x.item = p.item) && decide (x.slot = p.slot) && decide (x.gen = p.gen) then p else x) =
        fun x => decide (x.item = p.item) && decide (x.slot = p.slot) && decide (x.gen = p.gen) := by
      funext x
      simp only [Function.comp]
      split
      · next hx => rw [hself, hx]
      · rfl
    rw [hcomp, hq, Option.map_some, if_pos hk]
  rw [foundAs, hfind, Option.map_some]

theorem foundAs_fillPlaces (s : State) (g : Grid) (need : List Nat) (pubs : List Pub) (p : Pub)
    (h : foundAs pubs p.item p.slot p.gen = some p.core) : foundAs (s.fillPlaces g pubs p need).1 p.item p.slot p.gen = some p.core := by
  induction need generalizing pubs p with
  | nil => exact h
  | cons r need ih =>
    rw [State.fillPlaces]
    split
    · exact ih pubs p h
    · split
      · next pl _ => exact ih _ { p with places := p.places ++ [(r, pl)] } (foundAs_putPub (p := { p with places := p.places ++ [(r, pl)] }) (by
          show (foundAs pubs p.item p.slot p.gen).isSome = true
          rw [h]; rfl))
      · exact ih pubs p h

/-- Freeing places leaves what is found under a name. -/
theorem foundAs_tidyChain {s : State} {gid : Nat} {g : Grid} (hg : s.grid? gid = some g) (item h gen : Nat) :
    ∃ g', (s.tidyChain gid).grid? gid = some g' ∧ foundAs g'.chain.pubs item h gen = foundAs g.chain.pubs item h gen := by
  unfold State.tidyChain
  simp only [hg]
  split
  · exact ⟨g, hg, rfl⟩
  · refine ⟨_, (grid?_modGrid_same _ _ _ (by intro x; rfl)).trans (congrArg _ hg), ?_⟩
    simp only [Chain.withPubs, foundAs, List.find?_map, Option.map_map]
    rfl

theorem crews_deliver (s : State) (gid item h gen : Nat) : (s.deliver gid item h gen).crews = s.crews := by
  unfold State.deliver
  split
  · rfl
  · split
    · rfl
    · exact crews_tidyChain _ _

/-- A generation that arrives is found delivered. -/
theorem deliver_spec {s : State} {gid item h gen : Nat} {g : Grid} {p : Pub} (hg : s.grid? gid = some g) (hp : g.pub? item h gen = some p) :
    ∃ g' q, (s.deliver gid item h gen).grid? gid = some g' ∧ g'.pub? item h gen = some q ∧ q.core = { p.core with delivered := true } := by
  have hkey := List.find?_some (p := fun p : Pub => decide (p.item = item) && decide (p.slot = h) && decide (p.gen = gen)) hp
  simp only [Bool.and_eq_true, decide_eq_true_eq] at hkey
  obtain ⟨⟨rfl, rfl⟩, rfl⟩ := hkey
  unfold State.deliver
  simp only [hg, hp]
  let moved := p.places.map fun x => if x.2 = .spill && s.itemResident g x.1 && decide (weltCount g.chain.pubs x.1 p.slot < 4) then (x.1, Place.welt) else x
  let p1 : Pub := { p with delivered := true, places := moved }
  have hput : foundAs (putPub g.chain.pubs p1) p1.item p1.slot p1.gen = some p1.core :=
    foundAs_putPub (p := p1) (Option.isSome_map.trans (Option.isSome_iff_exists.mpr ⟨p, hp⟩))
  have hfill := foundAs_fillPlaces s g (s.needers g p.item p.slot p.gen) _ p1 hput
  obtain ⟨g', hg', hf⟩ := foundAs_tidyChain
    ((grid?_modGrid_same s gid (fun g' => { g' with chain := g'.chain.withPubs (s.fillPlaces g (putPub g.chain.pubs p1) p1 (s.needers g p.item p.slot p.gen)).1 })
      (by intro x; rfl)).trans (congrArg _ hg)) p.item p.slot p.gen
  obtain ⟨q, hq, hqc⟩ := Option.map_eq_some_iff.mp (hf.trans hfill)
  exact ⟨g', q, hg', hq, hqc⟩

/-! ## The events -/

/-- Settles O55: each event changes one split, one crew or one grid; a publication is that of HPUT. -/
theorem strandEvents : Obligations.StrandEvents := by
  unfold Obligations.StrandEvents
  refine ⟨?_, ?_, ?_, ?_, ?_, fun s r => rfl, ?_, ?_, ?_, ?_⟩
  · intro s r g c t p h hsleep hready hage
    obtain ⟨u, hu⟩ := modPath_spec h (fun p => { p with boosted := true }) fun _ => rfl
    refine ⟨_, u, ?_, rfl, hu⟩
    rw [exec, execSplitBoost, h]
    exact congrArg Host.Outcome.next (if_pos (by rw [hsleep, hready, decide_eq_true hage]; rfl))
  · intro s r g c t p due h hw hdue hsince
    obtain ⟨u, hu⟩ := modPath_spec h (fun p => { p with since := BitVec.ofNat 64 due }) fun _ => rfl
    refine ⟨_, u, ?_, rfl, hu⟩
    rw [exec, execSleepExpiry, h]
    dsimp only
    rw [hw]
    exact congrArg Host.Outcome.next (if_pos ⟨hdue, hsince⟩)
  · intro s c hc hd
    obtain ⟨t, k, ht, hk, h0, hw, hst⟩ := watchdog_spec hc hd
    refine ⟨t, k, ht, hk, h0, hw, by rw [hst, List.length_map], fun n u v hu hv => ?_⟩
    rw [hst, List.getElem?_map, hu, Option.map_some, Option.some_inj] at hv
    subst hv
    unfold Strand.bitten
    split
    · rfl
    · exact ⟨_, rfl, rfl, rfl, rfl⟩
  · intro s r h
    exact congrArg Host.Outcome.next (if_pos h)
  · intro s c b hc
    refine ⟨_, _, rfl, (crew?_modCrew_same s c.ref _ (by intro c; exact ⟨rfl, rfl⟩)).trans (congrArg _ hc), rfl, fun hb => ?_⟩
    subst hb
    refine ⟨Bool.and_false _, fun u => ?_⟩
    simp [State.canIssue]
  · intro s x r g c t p e h hheld hready hissue
    have hexec : exec (.backPressurePublish r) s = exec (.hput e) x := by
      rw [exec, execBackPressurePublish, h]
      dsimp only
      rw [hheld, hready, hissue]
      rfl
    refine ⟨hexec, fun d x' hr h1 h2 h3 hscope hfold => ?_⟩
    obtain ⟨put, -⟩ := handOffs
    obtain ⟨y, u, g', hy, hu, hregs, hg', hgen, hpubs, -⟩ := put e x d x' hr h1 h2 h3 (.inl hscope) (by rw [if_pos hscope]; exact hfold)
    refine ⟨y, u, g', hexec.trans hy, hu, hregs, hg', hgen, fun l hl => ?_⟩
    obtain ⟨q, hq, hi, hs, hgn, hv, -⟩ := hpubs l hl
    exact ⟨q, hq, hi, hs, hgn, hv⟩
  · intro s r g c t p h hdue
    obtain ⟨u, hu⟩ := modPath_spec h (fun p => { p with wait := .reread, since := s.cycle }) fun _ => rfl
    refine ⟨_, u, ?_, rfl, hu⟩
    rw [exec, execWaitmRecheck, h]
    exact congrArg Host.Outcome.next (if_pos hdue)
  · intro s g v hg hv hready hlen
    have hnth (w : Nat) : nthWord (modNth g.counters v (· + 1)) w = if w = v then nthWord g.counters v + 1 else nthWord g.counters w := by
      unfold nthWord
      rw [List.getD_eq_getElem?_getD, getElem?_modNth, List.getD_eq_getElem?_getD, List.getD_eq_getElem?_getD]
      split
      · next h =>
        subst h
        rw [List.getElem?_eq_getElem (by omega)]
        rfl
      · rfl
    refine ⟨_, _, ?_, (grid?_modGrid_same s g.id (fun g => { g with counters := modNth g.counters v (· + 1) }) (by intro x; rfl)).trans
      (congrArg _ hg), (hnth v).trans (if_pos rfl), fun w hw => (hnth w).trans (if_neg hw), rfl⟩
    rw [exec, execPhaseCounterAdvance, hg]
    exact congrArg Host.Outcome.next (if_pos (by rw [hready, decide_eq_true hv]; rfl))
  · intro s g item gen slot p hg hp hdue
    obtain ⟨g', q, hg', hq, hcore⟩ := deliver_spec hg hp
    refine ⟨s.deliver g.id item slot.toNat gen, g', ?_, hg', crews_deliver _ _ _ _ _, q, hq, congrArg Pub.delivered hcore,
      show q.core.value = p.core.value by rw [hcore], show q.core.scope = p.core.scope by rw [hcore]⟩
    rw [exec, execHandoffDelivery, hg, Option.bind_some, hp]
    exact congrArg Host.Outcome.next (if_pos hdue)

end Sys2Proof.Machine
end

