-- ==== Sys2Proof/Proofs/CrewEvents.lean ====
section
/-! SUPPORT. What the Clicker does with crews: dispatch, return, wake-up, stealing, and kills (R20, R26, R28, R38, R39, R250 to R252, R264, R271, R288). -/
namespace Sys2Proof.Machine

/-! ## Placing -/

theorem admits_of_coreChoice {s : State} {g : Grid} {n die core : Nat} (h : s.coreChoice g n die = some core) :
    s.admits core (s.crewsOn core) n g.header (crewBytes g) = true := by
  unfold State.coreChoice at h
  split at h
  · cases h
  · next p _ =>
    -- every core that is chosen on the way admits the crew
    suffices hs : ∀ (l : List Nat) (best : Option Nat), (∀ b, best = some b → s.admits b (s.crewsOn b) n g.header (crewBytes g) = true) →
        ∀ b, l.foldl (fun best k =>
          if p.hasCore k && s.admits k (s.crewsOn k) n g.header (crewBytes g) then
            match best with
            | none => some k
            | some b => if s.strandsOn k * s.widthOf b < s.strandsOn b * s.widthOf k then some k else some b
          else best) best = some b → s.admits b (s.crewsOn b) n g.header (crewBytes g) = true from
      hs _ none (fun _ hb => nomatch hb) core h
    intro l
    induction l with
    | nil => exact fun best hbest b hb => hbest b hb
    | cons k l ih =>
      refine fun best hbest => ih _ fun b hb => ?_
      dsimp only at hb
      split at hb
      · next hk =>
        rw [Bool.and_eq_true] at hk
        split at hb
        · cases hb; exact hk.2
        · next b' =>
          split at hb
          · cases hb; exact hk.2
          · exact hbest b hb
      · exact hbest b hb

theorem coreChoice_of_roomFor {s s' : State} {g : Grid} {x : Placing} {core : Nat} (h : s.roomFor g x = some (s', core)) :
    s'.coreChoice g (s.strandsFor g x) (s.dieFor g x) = some core := by
  unfold State.roomFor at h
  dsimp only at h
  split at h
  · next k hk => cases h; exact hk
  · obtain ⟨t, -, ht⟩ := Option.bind_eq_some_iff.mp h
    obtain ⟨k, hk, he⟩ := Option.map_eq_some_iff.mp ht
    cases he
    exact hk

theorem core_of_roomFor {s s' : State} {g : Grid} {x : Placing} {core : Nat} (h : s.roomFor g x = some (s', core)) : ∃ k, s'.core? core = some k := by
  have ha := admits_of_coreChoice (coreChoice_of_roomFor h)
  unfold State.admits at ha
  split at ha
  · cases ha
  · next k hk => exact ⟨k, hk⟩

theorem length_placeStrands (alive : List Nat) (n : Nat) (used : List Nat) : (placeStrands alive n used).length = n := by
  induction n generalizing used with
  | zero => rfl
  | succ n ih => rw [placeStrands, List.length_cons, ih]

theorem length_clustersFor {s : State} {core : Nat} {k : Core} (h : s.core? core = some k) (n : Nat) : (s.clustersFor core n).length = n := by
  rw [State.clustersFor, h]
  exact length_placeStrands _ _ _

theorem memSide_freshCore (s : State) (core ctx : Nat) : MemSide s (s.freshCore core ctx) :=
  ((memSide_invalidate s core _).trans (memSide_modCore _ _ _)).trans (memSide_modCore _ _ _)

/-! ## What moves in -/

/-- Which crews of a launch have been dispatched. -/
def State.sentOf (s : State) (gid : Nat) : Option (List Nat) := (s.grid? gid).map (·.dispatched)

theorem sentOf_modGrid (s : State) (n gid : Nat) (f : Grid → Grid) (hf : ∀ g, (f g).id = g.id ∧ (f g).dispatched = g.dispatched) :
    (s.modGrid n f).sentOf gid = s.sentOf gid := by
  unfold State.sentOf
  by_cases h : gid = n
  · subst h
    rw [grid?_modGrid_same s gid f fun g => (hf g).1, Option.map_map]
    exact congrArg (Option.map · _) (funext fun g => (hf g).2)
  · rw [grid?_modGrid_other s n gid f (fun g => (hf g).1) h]

theorem sentOf_tidyChain (s : State) (n gid : Nat) : (s.tidyChain n).sentOf gid = s.sentOf gid := by
  unfold State.tidyChain
  split
  · rfl
  · split
    · rfl
    · exact sentOf_modGrid s n gid _ (by intro g; exact ⟨rfl, rfl⟩)

theorem sentOf_deliver (s : State) (n item h gen gid : Nat) : (s.deliver n item h gen).sentOf gid = s.sentOf gid := by
  unfold State.deliver
  split
  · rfl
  · split
    · rfl
    · exact (sentOf_tidyChain _ _ _).trans (sentOf_modGrid s n gid _ (by intro g; exact ⟨rfl, rfl⟩))

/-- Values that move into the Welt change neither crews nor what has been dispatched. -/
theorem moveIn_spec (s : State) (n : Nat) : (s.moveIn n).crews = s.crews ∧ ∀ gid, (s.moveIn n).sentOf gid = s.sentOf gid := by
  unfold State.moveIn
  split
  · exact ⟨rfl, fun _ => rfl⟩
  · next g _ =>
    generalize g.chain.pubs.filter _ = ps
    suffices hs : ∀ (ps : List Pub) (s : State), let t := ps.foldl (fun s p => s.deliver n p.item p.slot p.gen) s
        t.crews = s.crews ∧ ∀ gid, t.sentOf gid = s.sentOf gid from hs ps s
    intro ps
    induction ps with
    | nil => exact fun s => ⟨rfl, fun _ => rfl⟩
    | cons p ps ih =>
      intro s
      obtain ⟨h1, h2⟩ := ih (s.deliver n p.item p.slot p.gen)
      exact ⟨h1.trans (crews_deliver _ _ _ _ _), fun gid => (h2 gid).trans (sentOf_deliver _ _ _ _ _ _)⟩

/-! ## Dispatch (R20, R26, R28) -/

/-- The strands of a crew as it is dispatched. -/
def State.startStrands (s : State) (g : Grid) (idx core : Nat) : List Strand :=
  ((g.strandsAt idx).zip (s.clustersFor core (g.strandsAt idx).length)).map fun x =>
    Strand.start x.1 (presentMask g idx x.1) g.header.entry g.record.args x.2 s.cycle

theorem startStrands_idx {s : State} {core : Nat} {k : Core} (h : s.core? core = some k) (g : Grid) (idx : Nat) :
    (s.startStrands g idx core).map (·.idx) = g.strandsAt idx := by
  unfold State.startStrands
  rw [List.map_map]
  exact List.map_fst_zip (length_clustersFor h _).ge

theorem sAt_start (idx : Nat) (present : Mask) (entry : Word) (args : DWord) (cluster : Nat) (now : DWord) (n : Nat) :
    (Strand.start idx present entry args cluster now).sAt n = if n = 0 then loWord args else if n = 1 then hiWord args else 0 := by
  show SMap.look 0 (SMap.put 0 (SMap.put 0 [] 0 (loWord args)) 1 (hiWord args)) n = _
  rw [SMap.look_put, SMap.look_put]
  by_cases h1 : n = 1
  · rw [if_pos h1, if_neg (by omega), if_pos h1]
  · rw [if_neg h1, if_neg h1]
    rfl

/-- The crew is there once it is dispatched, and its launch counts it. -/
theorem dispatchOn_spec {s : State} {g h : Grid} {idx core : Nat} (hno : s.crew? { grid := g.id, idx := idx } = none) (hg : s.grid? g.id = some h) :
    (s.dispatchOn g idx core).crew? { grid := g.id, idx := idx } =
        some (Crew.start g idx core (s.freeCrewSlot core) (g.ownerOf idx) (s.startStrands g idx core) s.cycle) ∧
      ∃ h', (s.dispatchOn g idx core).grid? g.id = some h' ∧ h'.dispatched = h.dispatched ++ [idx] := by
  let c := Crew.start g idx core (s.freeCrewSlot core) (g.ownerOf idx) (s.startStrands g idx core) s.cycle
  let s1 := match g.origin with
    | .device _ => s.freshCore core g.ctx
    | _ => s.modCore core fun k => { k with icache := k.icache.filter fun l => l.ctx ≠ g.ctx }
  have hm : MemSide s s1 := by
    show MemSide s (match g.origin with
      | .device _ => s.freshCore core g.ctx
      | _ => s.modCore core fun k => { k with icache := k.icache.filter fun l => l.ctx ≠ g.ctx })
    split
    · exact memSide_freshCore _ _ _
    · exact memSide_modCore _ _ _
  let f : Grid → Grid := fun g' => { g' with
    dispatched := g'.dispatched ++ [idx], transit := g'.transit.filter fun x => x.1 ≠ idx, offered := if g'.record.chained then s1.cycle else g'.offered }
  let s2 := ({ s1 with crews := s1.crews ++ [c] } : State).modGrid g.id f
  have heq : s.dispatchOn g idx core = (s2.shrinkL1 core (s2.l1Lines core)).moveIn g.id := rfl
  have hm2 := memSide_shrinkL1 s2 core (s2.l1Lines core)
  obtain ⟨hcrews, hsent⟩ := moveIn_spec (s2.shrinkL1 core (s2.l1Lines core)) g.id
  have hg2 : s2.grid? g.id = some (f h) :=
    (grid?_modGrid_same _ g.id f (by intro x; rfl)).trans (congrArg _ ((hm.grid? g.id).trans hg))
  rw [heq]
  constructor
  · refine (crew?_of_crews (hcrews.trans hm2.crews) _).trans ?_
    show (s1.crews ++ [c]).find? _ = _
    rw [List.find?_append, hm.crews]
    rw [State.crew?] at hno
    rw [hno, Option.none_or]
    exact List.find?_cons_of_pos (by simp [c, Crew.start])
  · have : ((s2.shrinkL1 core (s2.l1Lines core)).moveIn g.id).sentOf g.id = some (h.dispatched ++ [idx]) := by
      rw [hsent, State.sentOf, hm2.grid?, hg2]
      rfl
    exact Option.map_eq_some_iff.mp this

theorem hasLane_presentMask (g : Grid) (crew strand l : Nat) (hl : l < 32) :
    hasLane (presentMask g crew strand) l = decide ((crew * g.record.nstrand + strand) * 32 + l < g.items) := by
  rw [presentMask, hasLane_maskOf, decide_eq_true hl, Bool.true_and]
  rfl

theorem place_eq {s s' : State} {g : Grid} {x : Placing} {core : Nat} (hn : s.isNextPlaced g x = true) (hr : s.roomFor g x = some (s', core)) :
    s.place g x = if x.fresh then s'.dispatchOn g x.ref.idx core else s'.putOn x.ref core := by
  rw [State.place, hn, hr]
  rfl

/-! ## The way back (R39, R288) -/

theorem placeAgain_spec (f : Nat → Strand → Strand) (ts : List Strand) (ks : List Nat) : (placeAgain f ts ks).length = ts.length ∧
    ∀ (n : Nat) (u v : Strand), ts[n]? = some u → (placeAgain f ts ks)[n]? = some v → v = u ∨ ∃ k, v = f k u := by
  induction ts generalizing ks with
  | nil => exact ⟨rfl, fun n u v hu => by cases hu⟩
  | cons t ts ih =>
    have tail (t' : Strand) (ks' : List Nat) (ht : t' = t ∨ ∃ k, t' = f k t) : (t' :: placeAgain f ts ks').length = (t :: ts).length ∧
        ∀ (n : Nat) (u v : Strand), (t :: ts)[n]? = some u → (t' :: placeAgain f ts ks')[n]? = some v → v = u ∨ ∃ k, v = f k u := by
      obtain ⟨h1, h2⟩ := ih ks'
      refine ⟨congrArg (· + 1) h1, fun n u v hu hv => ?_⟩
      cases n with
      | zero => cases hu; cases hv; exact ht
      | succ n => exact h2 n u v hu hv
    cases ks with
    | nil => exact tail t [] (.inl rfl)
    | cons k ks =>
      rw [placeAgain]
      split
      · exact tail t (k :: ks) (.inl rfl)
      · exact tail (f k t) ks (.inr ⟨k, rfl⟩)

theorem absSleep_pc_mask (now : Nat) (p : Path) : ((absSleep now p).pc, (absSleep now p).mask) = (p.pc, p.mask) := by
  unfold absSleep
  split <;> rfl

/-- A strand that is placed again stands where it stood. -/
theorem enter_spec (now : DWord) (k : Nat) (u : Strand) : let v := Strand.enter now k u
    v = { u with cluster := v.cluster, splits := v.splits, stack := v.stack, handler := v.handler } ∧
      v.splits.map (fun p => (p.pc, p.mask)) = u.splits.map (fun p => (p.pc, p.mask)) ∧
      v.stack.map (fun p => (p.pc, p.mask)) = u.stack.map (fun p => (p.pc, p.mask)) ∧ v.handler.isSome = u.handler.isSome := by
  refine ⟨rfl, ?_, ?_, ?_⟩
  · simp only [Strand.enter, Strand.mapPaths, List.map_map]
    exact List.map_congr_left fun p _ => absSleep_pc_mask _ p
  · simp only [Strand.enter, Strand.mapPaths, List.map_map]
    exact List.map_congr_left fun p _ => absSleep_pc_mask _ p
  · simp only [Strand.enter, Strand.mapPaths]
    exact Option.isSome_map

theorem putOn_spec {s : State} {g : Grid} {c : Crew} {core : Nat} (hc : s.crew? c.ref = some c) (hg : s.grid? c.grid = some g) (hf : c.follows = []) :
    (s.putOn c.ref core).crew? c.ref = some { c with
      state := .resident, core := core, slot := s.freeCrewSlot core, woken := false, wakes := []
      strands := placeAgain (Strand.enter s.cycle) c.strands (s.clustersFor core c.liveStrands.length) } := by
  let s1 := if core = c.core then s else s.freshCore core g.ctx
  have hm : MemSide s s1 := by
    show MemSide s (if core = c.core then s else s.freshCore core g.ctx)
    split
    · exact .refl s
    · exact memSide_freshCore _ _ _
  let f : Crew → Crew := fun c' => { c' with
    state := .resident, core := core, slot := s.freeCrewSlot core, woken := false, wakes := []
    strands := placeAgain (Strand.enter s1.cycle) c'.strands (s.clustersFor core c.liveStrands.length)
    follows := modWhere c'.followDue (fun x => { x with first := true }) c'.follows }
  let s2 := s1.modCrew c.ref f
  have heq : s.putOn c.ref core = (s2.shrinkL1 core (s2.l1Lines core)).moveIn c.grid := by
    unfold State.putOn
    rw [hc, show c.ref.grid = c.grid from rfl, hg]
    dsimp only
    rw [hf]
    rfl
  have h2 : s2.crew? c.ref = some (f c) :=
    (crew?_modCrew_same s1 c.ref f (by intro c; exact ⟨rfl, rfl⟩)).trans (congrArg _ ((hm.crew? c.ref).trans hc))
  have hfc : f c = { c with
      state := .resident, core := core, slot := s.freeCrewSlot core, woken := false, wakes := []
      strands := placeAgain (Strand.enter s.cycle) c.strands (s.clustersFor core c.liveStrands.length) } := by
    show ({ c with
      state := .resident, core := core, slot := s.freeCrewSlot core, woken := false, wakes := []
      strands := placeAgain (Strand.enter s1.cycle) c.strands (s.clustersFor core c.liveStrands.length)
      follows := modWhere c.followDue (fun x => { x with first := true }) c.follows } : Crew) = _
    rw [hm.cycle, hf]
    obtain ⟨⟩ := c
    cases hf
    rfl
  rw [heq]
  exact (crew?_of_crews ((moveIn_spec _ _).1.trans (memSide_shrinkL1 _ _ _).crews) _).trans (h2.trans (congrArg _ hfc))

/-! ## Kills (R271) -/

/-- A strand stopped for good, with nothing left to take. -/
def Strand.Dead (u : Strand) : Prop := u.isOver = true ∧ u.splits = [] ∧ u.stack = [] ∧ u.reinject = [] ∧ u.deferred = []

/-- A crew that has been killed: what ran for it is cancelled, and it waits for nothing. -/
def Crew.Killed (k : Crew) : Prop := k.killed = true ∧ k.killAsked = false ∧ k.follows = [] ∧ k.wakes = [] ∧ (∀ u ∈ k.strands, u.Dead) ∧
  ∀ (n : Nat) (x : Tag) (o : CopyOp), n < 64 → k.tags[n]? = some x → x.op = some o → o.cancelled.isSome = true

/-- A crew has been killed, its tile operations have left their queue, and its launch counts a killed one. -/
def KilledIn (s : State) (r : CrewRef) (core : Nat) : Prop :=
  (∃ k, s.crew? r = some k ∧ k.Killed) ∧ (∀ d, s.core? core = some d → ∀ o ∈ d.tileQ, o.crew ≠ r) ∧ ∀ g, s.grid? r.grid = some g → g.killed = true

section
variable {s t : State} {r : CrewRef} {core : Nat} (h : KilledIn s r core)
include h

theorem KilledIn.modCrews (q : Crew → Bool) (f : Crew → Crew) (hc : t.crews = modWhere q f s.crews) (hk : t.cores = s.cores) (hg : t.grids = s.grids)
    (hf : ∀ c, (f c).grid = c.grid ∧ (f c).idx = c.idx) (hs : ∀ c : Crew, c.Killed → (f c).Killed) : KilledIn t r core := by
  obtain ⟨⟨k, hk1, hk2⟩, h2, h3⟩ := h
  refine ⟨⟨if q k then f k else k, ?_, ?_⟩, fun d hd => h2 d ((core?_of_cores hk.symm core).trans hd),
    fun g hg' => h3 g ((congrArg (List.find? _) hg.symm).trans hg')⟩
  · rw [State.crew?, hc, find?_modWhere _ _ _ _ fun c => by rw [(hf c).1, (hf c).2]]
    rw [State.crew?] at hk1
    rw [hk1]
    rfl
  · split
    · exact hs k hk2
    · exact hk2

theorem KilledIn.modGrid (n : Nat) (f : Grid → Grid) (hf : ∀ g, (f g).id = g.id ∧ (f g).killed = g.killed) : KilledIn (s.modGrid n f) r core := by
  obtain ⟨h1, h2, h3⟩ := h
  refine ⟨h1, h2, fun g hg => ?_⟩
  by_cases hn : r.grid = n
  · rw [hn, grid?_modGrid_same s n f fun g => (hf g).1] at hg
    obtain ⟨g', hg', rfl⟩ := Option.map_eq_some_iff.mp hg
    exact (hf g').2.trans (h3 g' (hn ▸ hg'))
  · rw [grid?_modGrid_other s n r.grid f (fun g => (hf g).1) hn] at hg
    exact h3 g hg

theorem KilledIn.sideKept (hm : SideKept s t) : KilledIn t r core := by
  obtain ⟨⟨k, hk1, hk2⟩, h2, h3⟩ := h
  obtain ⟨hmem, -, hq⟩ := hm
  refine ⟨⟨k, (hmem.crew? r).trans hk1, hk2⟩, fun d hd => ?_, fun g hg => h3 g ((hmem.grid? r.grid).symm.trans hg)⟩
  have hqc := hq core
  rw [hd, Option.map_some] at hqc
  obtain ⟨d', hd', he⟩ := Option.map_eq_some_iff.mp hqc.symm
  rw [← he]
  exact h2 d' hd'

theorem KilledIn.wakeBarriers (g : Grid) (k : BarKey) : KilledIn (s.wakeBarriers g k) r core := by
  refine h.modCrews _ _ rfl rfl rfl (fun _ => ⟨rfl, rfl⟩) fun c hc => ?_
  obtain ⟨h1, h2, h3, h4, h5, h6⟩ := hc
  refine ⟨h1, h2, h3, h4, fun u hu => ?_, h6⟩
  obtain ⟨t, ht, rfl⟩ := List.mem_map.mp hu
  obtain ⟨d1, d2, d3, d4, d5⟩ := h5 t ht
  exact ⟨d1, by rw [d2]; rfl, d3, d4, d5⟩

theorem KilledIn.barrierStep (gid : Nat) (k : BarKey) : KilledIn (s.barrierStep gid k) r core := by
  unfold State.barrierStep
  split
  · exact h
  · dsimp only
    split
    · exact (h.modGrid _ _ (by intro x; exact ⟨rfl, rfl⟩)).wakeBarriers _ _
    · exact h

theorem KilledIn.tidyChain (gid : Nat) : KilledIn (s.tidyChain gid) r core := by
  unfold State.tidyChain
  split
  · exact h
  · split
    · exact h
    · exact h.modGrid _ _ (by intro x; exact ⟨rfl, rfl⟩)

end

theorem KilledIn.barrierSweep {s : State} {r : CrewRef} {core : Nat} (h : KilledIn s r core) (gid : Nat) : KilledIn (s.barrierSweep gid) r core := by
  unfold State.barrierSweep
  split
  · exact h
  · next g hg =>
    clear hg
    generalize g.barriers.map (·.key) = ks
    induction ks generalizing s with
    | nil => exact h
    | cons k ks ih => exact ih (h.barrierStep gid k)

theorem sideKept_cleanSlot (s : State) (core slot : Nat) : SideKept s (s.cleanSlot core slot) :=
  (sideKept_writeBack _ _ _).trans (sideKept_modCore _ _ _ fun _ => rfl)

theorem KilledIn.settleCrew {s : State} {r : CrewRef} {core : Nat} (h : KilledIn s r core) (x : CrewRef) : KilledIn (s.settleCrew x) r core := by
  unfold State.settleCrew
  split
  · exact h
  · split
    · exact h
    · have h1 : KilledIn (s.modCrew x fun c => match c.state with
          | .resident => { c with state := .draining, follows := c.follows.filter c.followDue }
          | .swapped | .preempted => { c with follows := [] }
          | _ => c) r core := by
        refine h.modCrews _ _ rfl rfl rfl (fun c => by cases c.state <;> exact ⟨rfl, rfl⟩) fun c hc => ?_
        obtain ⟨k1, k2, k3, k4, k5, k6⟩ := hc
        split
        · exact ⟨k1, k2, by rw [k3]; rfl, k4, k5, k6⟩
        · exact ⟨k1, k2, rfl, k4, k5, k6⟩
        · exact ⟨k1, k2, rfl, k4, k5, k6⟩
        · exact ⟨k1, k2, k3, k4, k5, k6⟩
      dsimp only
      split
      · exact h1
      · refine KilledIn.modGrid (KilledIn.sideKept ?_ (sideKept_cleanSlot _ _ _)) _ _ (by intro x; exact ⟨rfl, rfl⟩)
        refine h1.modCrews _ _ rfl rfl rfl (fun _ => ⟨rfl, rfl⟩) fun c hc => ?_
        obtain ⟨k1, k2, k3, -, k5, -⟩ := hc
        exact ⟨k1, k2, k3, rfl, k5, fun n x o _ hx => by cases hx⟩

/-- The copies of a crew are cancelled, tag by tag: `done` are the tags that have been looked at. -/
def Crew.CancelledIn (c c' : Crew) (done : List Nat) : Prop := c' = { c with tags := c'.tags } ∧
  ∀ (n : Nat) (x : Tag), c'.tags[n]? = some x → (∃ y, c.tags[n]? = some y ∧ (y.op = none → x.op = none)) ∧
    (n ∈ done → ∀ o, x.op = some o → o.cancelled.isSome = true)

theorem cancelAll_spec {r : CrewRef} {c : Crew} (ns done : List Nat) {s : State} {c' : Crew} (hc : s.crew? r = some c') (h : c.CancelledIn c' done) :
    let t := ns.foldl (fun s n => match (c.tag n).op with | some _ => s.cancelOp r n | none => s) s
    (∃ k, t.crew? r = some k ∧ c.CancelledIn k (done ++ ns)) ∧ t.cores = s.cores ∧ t.grids = s.grids := by
  induction ns generalizing s c' done with
  | nil => exact ⟨⟨c', hc, by rwa [List.append_nil]⟩, rfl, rfl⟩
  | cons n ns ih =>
    rw [List.foldl_cons, show done ++ n :: ns = (done ++ [n]) ++ ns by simp]
    obtain ⟨heq, htags⟩ := h
    split
    · next o _ =>
      let f : Tag → Tag := fun t => { t with op := t.op.map fun o => { o with cancelled := some (o.cancelled.getD s.cycle) } }
      refine ih (done ++ [n]) (s := s.cancelOp r n) (crew?_modTag hc n f) ⟨by rw [heq]; rfl, fun m x hx => ?_⟩
      rw [Crew.withTag, getElem?_modNth] at hx
      by_cases hm : m = n
      · subst hm
        rw [if_pos rfl] at hx
        obtain ⟨y, hy, rfl⟩ := Option.map_eq_some_iff.mp hx
        obtain ⟨⟨z, hz, hzy⟩, -⟩ := htags m y hy
        refine ⟨⟨z, hz, fun h => congrArg (Option.map _) (hzy h)⟩, fun _ o ho => ?_⟩
        obtain ⟨o', -, rfl⟩ := Option.map_eq_some_iff.mp ho
        rfl
      · rw [if_neg hm] at hx
        obtain ⟨h1, h2⟩ := htags m x hx
        exact ⟨h1, fun hd => h2 (by simpa [hm] using hd)⟩
    · next hnone =>
      refine ih (done ++ [n]) hc ⟨heq, fun m x hx => ?_⟩
      obtain ⟨h1, h2⟩ := htags m x hx
      refine ⟨h1, fun hd o ho => ?_⟩
      by_cases hm : m = n
      · subst hm
        obtain ⟨y, hy, hyx⟩ := h1
        rw [Crew.tag, List.getD_eq_getElem?_getD, hy] at hnone
        rw [hyx hnone] at ho
        cases ho
      · exact h2 (by simpa [hm] using hd) o ho

theorem dead_halt (t : Strand) : t.halt.Dead := by
  refine ⟨decide_eq_true ?_, rfl, rfl, rfl, rfl⟩
  show t.present &&& ~~~t.present = 0
  simp

theorem killCrew_spec {s : State} {c : Crew} (hc : s.crew? c.ref = some c) : KilledIn (s.killCrew c.ref) c.ref c.core := by
  let s1 := (List.range 64).foldl (fun s n => match (c.tag n).op with | some _ => s.cancelOp c.ref n | none => s) s
  obtain ⟨⟨k, hk, heq, htags⟩, hcores, hgrids⟩ := cancelAll_spec (List.range 64) [] hc
    ⟨rfl, fun n x hx => ⟨⟨x, hx, fun h => h⟩, fun h => by cases h⟩⟩
  let s2 := s1.modCore c.core fun k => { k with tileQ := k.tileQ.filter fun o => o.crew ≠ c.ref }
  let f : Crew → Crew := fun c => { c with killed := true, killAsked := false, follows := [], wakes := [], strands := c.strands.map Strand.halt }
  let s3 := (s2.modCrew c.ref f).modGrid c.ref.grid fun g => { g with killed := true }
  have hkill : s.killCrew c.ref = ((s3.barrierSweep c.ref.grid).tidyChain c.ref.grid).settleCrew c.ref := by
    rw [State.killCrew, hc] <;> rfl
  have hcrew : s3.crew? c.ref = some (f k) := (crew?_modCrew_same s2 c.ref f (by intro c; exact ⟨rfl, rfl⟩)).trans (congrArg _ hk)
  have h3 : KilledIn s3 c.ref c.core := by
    refine ⟨⟨f k, hcrew, rfl, rfl, rfl, rfl, fun u hu => ?_, fun n x o hn hx => (htags n x hx).2 (List.mem_range.mpr hn) o⟩, fun d hd o ho => ?_,
      fun g hg => ?_⟩
    · obtain ⟨t, -, rfl⟩ := List.mem_map.mp hu
      exact dead_halt t
    · obtain ⟨d', -, rfl⟩ := Option.map_eq_some_iff.mp ((core?_modCore_same s1 c.core _).symm.trans hd)
      simpa using (List.mem_filter.mp ho).2
    · obtain ⟨g', -, rfl⟩ := Option.map_eq_some_iff.mp ((grid?_modGrid_same (s2.modCrew c.ref f) c.ref.grid _ (by intro x; rfl)).symm.trans hg)
      rfl
  rw [hkill]
  exact ((h3.barrierSweep _).tidyChain _).settleCrew _

/-! ## The events -/

theorem ref_eq {s : State} {r : CrewRef} {g : Grid} (hg : s.grid? r.grid = some g) : ({ grid := g.id, idx := r.idx } : CrewRef) = r := by
  rw [grid?_id hg]

/-- Settles O54: a crew as it starts, as it comes back, and as it is killed; steals change a launch alone. -/
theorem crewEvents : Obligations.CrewEvents := by
  unfold Obligations.CrewEvents
  refine ⟨?_, fun g crew strand l hl => hasLane_presentMask g crew strand l hl, ?_, ?_, ?_, ?_, ?_, ?_, fun s c prio since => ⟨rfl, rfl⟩⟩
  · intro s s' g h r core hg hd hn hr hno hh
    obtain ⟨k, hk⟩ := core_of_roomFor hr
    have hid := ref_eq hg
    obtain ⟨hcrew, h', hh', hsent⟩ := dispatchOn_spec (core := core) (by rw [hid]; exact hno) ((congrArg s'.grid? (grid?_id hg)).trans hh)
    rw [hid] at hcrew
    rw [grid?_id hg] at hh'
    refine ⟨s'.dispatchOn g r.idx core, _, h', ?_, hcrew, hh', hsent, rfl, rfl, rfl, rfl, rfl, rfl, rfl, rfl, rfl, rfl, rfl, rfl, rfl, rfl, rfl, rfl, rfl,
      rfl, rfl, rfl, rfl, startStrands_idx hk g r.idx, fun u hu => ?_⟩
    · rw [exec, execCrewDispatch, hg]
      exact congrArg Host.Outcome.next ((if_pos hd).trans (place_eq hn hr))
    · obtain ⟨x, -, rfl⟩ := List.mem_map.mp hu
      exact ⟨rfl, rfl, rfl, rfl, rfl, sAt_start _ _ _ _ _ _, rfl, rfl, rfl, rfl, rfl, rfl, rfl, rfl, rfl, rfl, rfl⟩
  · intro s s' g c core hc hg hret hn hr
    have hback (st : CrewState) (hst : c.state = st) : s.comeBack c.ref st = s'.putOn c.ref core := by
      rw [State.comeBack, hc, show c.ref.grid = c.grid from rfl, hg]
      exact (if_pos (by rw [hret, decide_eq_true hst]; rfl)).trans (place_eq hn hr)
    exact ⟨fun h => congrArg Host.Outcome.next (hback _ h), fun h => congrArg Host.Outcome.next (hback _ h)⟩
  · intro s g c core hc hg hf
    obtain ⟨hlen, hstr⟩ := placeAgain_spec (Strand.enter s.cycle) c.strands (s.clustersFor core c.liveStrands.length)
    refine ⟨_, putOn_spec hc hg hf, rfl, hlen, fun n u v hu hv => ?_⟩
    rcases hstr n u v hu hv with rfl | ⟨k, rfl⟩
    · exact ⟨rfl, rfl, rfl, rfl⟩
    · exact enter_spec s.cycle k u
  · intro s c hc hdue
    refine ⟨s.wake c.ref, ?_, crew?_wake hc, fun r hr => crew?_modCrew_other s c.ref r _ (by intro c; exact ⟨rfl, rfl⟩) hr⟩
    rw [exec, execWakeUp, hc]
    exact congrArg Host.Outcome.next (if_pos hdue)
  · intro s g thief victim i hg hdue
    let f : Grid → Grid := fun g => { g with
      transit := ((i, thief) :: (i, victim) :: g.transit).eraseDups, given := i :: g.given
      stolen := (i, thief) :: g.stolen.filter fun x => x.1 ≠ i }
    refine ⟨s.modGrid g.id f, f g, ?_, (grid?_modGrid_same s g.id f (by intro x; rfl)).trans (congrArg _ hg), ?_, List.mem_cons_self .., rfl, rfl⟩
    · rw [exec, execStealRequest, hg]
      dsimp only
      rw [hdue]
    · unfold Grid.ownerOf
      rw [List.find?_cons_of_pos (by simp)]
  · intro s g thief i hg hway
    let f : Grid → Grid := fun g => { g with given := g.given.filter (· ≠ i) }
    refine ⟨s.modGrid g.id f, f g, ?_, (grid?_modGrid_same s g.id f (by intro x; rfl)).trans (congrArg _ hg), rfl, ?_, ?_, rfl⟩
    · rw [exec, execStealAnswer, hg, Option.bind_some, hway]
    · exact of_decide_eq_true (List.find?_some (p := fun i => decide (g.ownerOf i = thief)) hway)
    · simp [f]
  · intro s c hc hask hend
    obtain ⟨⟨k, hk, h1, h2, h3, h4, h5, h6⟩, hq, hg⟩ := killCrew_spec hc
    refine ⟨s.killCrew c.ref, k, ?_, hk, h1, h2, h3, h4, h5, h6, hq, hg⟩
    rw [exec, execAbortKill, hc]
    exact congrArg Host.Outcome.next (if_pos (by rw [hask, decide_eq_true hend]; rfl))

end Sys2Proof.Machine
end

