-- ==== Sys2Proof/Proofs/TagEnds.lean ====
section
/-! SUPPORT. The end of a copy-engine operation, as its tag shows it (R213, R217, R219, R225): what an operation does on its way leaves the tags of
its crew alone, and its end settles its own. -/
namespace Sys2Proof.Machine

/-! ## The operation of a tag -/

theorem ref_of_crew? {s : State} {r : CrewRef} {c : Crew} (h : s.crew? r = some c) : c.ref = r := by
  rw [Crew.ref, (crew?_spec h).1, (crew?_spec h).2]

/-- The operation of a BUSY tag, and where it stands. -/
theorem tagCtx?_spec {s : State} {r : CrewRef} {n : Nat} {x : TagCtx} (h : s.tagCtx? r n = some x) :
    s.grid? r.grid = some x.g ∧ s.crew? r = some x.c ∧ x.c.ref = r ∧ x.c.tags[n]? = some x.tag ∧ x.tag.op = some x.o := by
  rw [State.tagCtx?] at h
  split at h
  case h_2 => cases h
  case h_1 g c hg hc =>
    cases ht : c.tags[n]? with
    | none => rw [ht] at h; cases h
    | some t =>
      rw [ht] at h
      dsimp only at h
      cases ho : t.op with
      | none => rw [ho] at h; cases h
      | some o =>
        rw [ho] at h
        obtain rfl := Option.some.inj h
        exact ⟨hg, hc, ref_of_crew? hc, ht, ho⟩

/-! ## A tag of a crew that is not over -/

/-- Tag `n` of a crew that is not over is `T`. -/
def HasTag (s : State) (r : CrewRef) (n : Nat) (T : Tag) : Prop := ∃ k, s.crew? r = some k ∧ k.over = false ∧ k.tags[n]? = some T

theorem HasTag.tag {k : Crew} {n : Nat} {T : Tag} (h : k.tags[n]? = some T) : k.tag n = T := by
  rw [Crew.tag, List.getD_eq_getElem?_getD, h]
  rfl

/-- Every tag of a crew that is not over stands. -/
def TagsKept (s t : State) : Prop := ∀ r n T, HasTag s r n T → HasTag t r n T

theorem TagsKept.refl (s : State) : TagsKept s s := fun _ _ _ h => h

theorem TagsKept.trans {s t u : State} (h : TagsKept s t) (k : TagsKept t u) : TagsKept s u := fun r n T x => k r n T (h r n T x)

theorem tagsKept_of_crews {s t : State} (h : t.crews = s.crews) : TagsKept s t :=
  fun r _ _ ⟨k, hk, hx⟩ => ⟨k, (crew?_of_crews h r).trans hk, hx⟩

theorem MemSide.tagsKept {s t : State} (h : MemSide s t) : TagsKept s t := tagsKept_of_crews h.crews

theorem tagsKept_foldl {α : Type} (f : State → α → State) (hf : ∀ s a, TagsKept s (f s a)) (l : List α) (s : State) : TagsKept s (l.foldl f s) := by
  induction l generalizing s with
  | nil => exact .refl s
  | cons a l ih => exact (hf s a).trans (ih _)

/-- A crew changed beside its strands and tags. -/
theorem tagsKept_modCrew (s : State) (q : CrewRef) (f : Crew → Crew)
    (hf : ∀ c, (f c).grid = c.grid ∧ (f c).idx = c.idx ∧ (f c).strands = c.strands ∧ (f c).tags = c.tags) : TagsKept s (s.modCrew q f) := by
  rintro r n T ⟨k, hk, ho, ht⟩
  by_cases hr : r = q
  · subst hr
    refine ⟨f k, ?_, ?_, by rw [(hf k).2.2.2]; exact ht⟩
    · rw [crew?_modCrew_same s r f fun c => ⟨(hf c).1, (hf c).2.1⟩, hk]
      rfl
    · rw [Crew.over, (hf k).2.2.1]
      exact ho
  · exact ⟨k, (crew?_modCrew_other s q r f (fun c => ⟨(hf c).1, (hf c).2.1⟩) hr).trans hk, ho, ht⟩

/-- Another tag, or another crew, changes. -/
theorem hasTag_modTag_other {s : State} {r q : CrewRef} {n m : Nat} {T : Tag} (h : HasTag s r n T) (f : Tag → Tag) (hne : ¬ (r = q ∧ n = m)) :
    HasTag (s.modTag q m f) r n T := by
  obtain ⟨k, hk, ho, ht⟩ := h
  by_cases hr : r = q
  · subst hr
    refine ⟨_, crew?_modTag hk m f, ho, ?_⟩
    rw [Crew.withTag, getElem?_modNth, if_neg fun hm => hne ⟨rfl, hm⟩]
    exact ht
  · exact ⟨k, (crew?_modCrew_other s q r _ (by intro c; exact ⟨rfl, rfl⟩) hr).trans hk, ho, ht⟩

theorem hasTag_modTag_same {s : State} {r : CrewRef} {n : Nat} {T : Tag} (h : HasTag s r n T) (f : Tag → Tag) : HasTag (s.modTag r n f) r n (f T) := by
  obtain ⟨k, hk, ho, ht⟩ := h
  refine ⟨_, crew?_modTag hk n f, ho, ?_⟩
  rw [Crew.withTag, getElem?_modNth, if_pos rfl, ht]
  rfl

theorem settleCrew_of_alive {s : State} {r : CrewRef} {c : Crew} (h : s.crew? r = some c) (ho : c.over = false) : s.settleCrew r = s := by
  rw [State.settleCrew, h]
  simp [ho]

/-- A crew that is over settles: no other crew's tags change. -/
theorem tagsKept_settleCrew (s : State) (q : CrewRef) : TagsKept s (s.settleCrew q) := by
  intro r n T h
  by_cases hr : r = q
  · subst hr
    obtain ⟨k, hk, ho, ht⟩ := h
    rw [settleCrew_of_alive hk ho]
    exact ⟨k, hk, ho, ht⟩
  · have other (s : State) (f : Crew → Crew) (hf : ∀ c, (f c).grid = c.grid ∧ (f c).idx = c.idx) (h : HasTag s r n T) : HasTag (s.modCrew q f) r n T := by
      obtain ⟨k, hk, hx⟩ := h
      exact ⟨k, (crew?_modCrew_other s q r f hf hr).trans hk, hx⟩
    unfold State.settleCrew
    split
    · exact h
    · split
      · exact h
      · have h1 := other s
          (fun c => match c.state with
            | .resident => { c with state := .draining, follows := c.follows.filter c.followDue }
            | .swapped | .preempted => { c with follows := [] }
            | _ => c) (fun c => by cases c.state <;> exact ⟨rfl, rfl⟩) h
        dsimp only
        split
        · exact h1
        · exact tagsKept_of_crews (t := State.modGrid _ _ _) rfl r n T ((memSide_cleanSlot _ _ _).tagsKept r n T (other _ _ (by intro c; exact ⟨rfl, rfl⟩) h1))

/-! ## The end of an operation -/

/-- A tag whose operation, issued by a strand, has ended. -/
def Tag.ended (t : Tag) (strand : Nat) (now : DWord) (code : Nat) (addr : DWord) (read filled : Nat) : Tag :=
  { t with
    state := .done, code := BitVec.ofNat 8 code, read := BitVec.ofNat 24 read, filled := BitVec.ofNat 24 filled
    errPend := code = 1 || code = 2 || code = 4, addr := if code = 1 then addr else 0, op := none, flagStrand := strand, doneAt := now }

/-- A crew with its follow-on products as the end of an operation leaves them (R221). -/
def Crew.afterTag (c : Crew) (id n code : Nat) : Crew :=
  { c with
    follows :=
      if code = 0 then modWhere (fun (f : FollowOn) => f.id = id) (fun f => { f with copyDone := true }) c.follows
      else c.follows.filter fun f => !(decide (f.id = id) || f.after.getLsbD n) }

section
variable {s : State} {r : CrewRef} {c : Crew} {T : Tag} {n : Nat} (hc : s.crew? r = some c) (ho : c.over = false) (ht : c.tags[n]? = some T)
  (code : Nat) (addr : DWord) (read filled : Nat)
include hc

/-- The crew once its operation has ended. -/
theorem crew?_ended (strand : Nat) (id : Nat) :
    ((s.modTag r n fun t => t.ended strand s.cycle code addr read filled).modCrew r fun c => c.afterTag id n code).crew? r =
      some ((c.withTag n fun t => t.ended strand s.cycle code addr read filled).afterTag id n code) := by
  rw [crew?_modCrew_same _ r _ (by intro c; exact ⟨rfl, rfl⟩), crew?_modTag hc]
  rfl

include ht ho

/-- Of a crew that is not over, only the tag and the follow-on products change. -/
theorem finishTag_eq : s.finishTag r n code addr read filled =
    (s.modTag r n fun t => t.ended (T.op.elim 0 (·.strand)) s.cycle code addr read filled).modCrew r fun c => c.afterTag (T.op.elim 0 (·.id)) n code := by
  unfold State.finishTag
  rw [hc, Option.bind_some, ht]
  exact settleCrew_of_alive (crew?_ended hc code addr read filled (T.op.elim 0 (·.strand)) (T.op.elim 0 (·.id))) ho

theorem crew?_finishTag : (s.finishTag r n code addr read filled).crew? r =
    some ((c.withTag n fun t => t.ended (T.op.elim 0 (·.strand)) s.cycle code addr read filled).afterTag (T.op.elim 0 (·.id)) n code) := by
  rw [finishTag_eq hc ho ht]
  exact crew?_ended hc code addr read filled _ _

end

theorem hasTag_finishTag {s : State} {r : CrewRef} {n : Nat} {T : Tag} (h : HasTag s r n T) (code : Nat) (addr : DWord) (read filled : Nat) :
    HasTag (s.finishTag r n code addr read filled) r n (T.ended (T.op.elim 0 (·.strand)) s.cycle code addr read filled) := by
  obtain ⟨k, hk, ho, ht⟩ := h
  refine ⟨_, crew?_finishTag hk ho ht code addr read filled, ho, ?_⟩
  rw [Crew.afterTag, Crew.withTag, getElem?_modNth, if_pos rfl, ht]
  rfl

/-- The end of another operation. -/
theorem hasTag_finishTag_other {s : State} {r q : CrewRef} {n m : Nat} {T : Tag} (h : HasTag s r n T) (hne : ¬ (r = q ∧ n = m)) (code : Nat)
    (addr : DWord) (read filled : Nat) : HasTag (s.finishTag q m code addr read filled) r n T :=
  tagsKept_settleCrew _ _ r n T
    (tagsKept_modCrew _ q _ (by intro c; exact ⟨rfl, rfl, rfl, rfl⟩) r n T (hasTag_modTag_other h _ hne))

/-! ## What an operation does on its way -/

theorem tagsKept_modSlot (s : State) (die n : Nat) (f : Slot → Slot) : TagsKept s (s.modSlot die n f) := tagsKept_of_crews rfl

theorem memSide_writeBytes (s : State) (l : List (Nat × Byte)) : MemSide s (s.writeBytes l) := by
  refine ((memSide_foldl (fun s (x : Nat × Byte) => s.setByte x.1 x.2) (fun s x => memSide_setByte s x.1 x.2) l s).trans (memSide_noteWrite _ fun k => l.any fun x => decide (k = watchKey (x.1 / 128) none))).trans ?_
  rw [State.writeBytes, State.coverPoison]
  split
  · exact .refl _
  · exact ⟨_, _, _, _, _, _, _, _, rfl⟩

theorem tagsKept_putDest (s : State) (d : Dest) (bs : List (Nat × Byte)) : TagsKept s (s.putDest d bs) := by
  unfold State.putDest
  split
  · exact tagsKept_modCrew s _ _ (by intro c; exact ⟨rfl, rfl, rfl, rfl⟩)
  · exact (memSide_writeBytes s _).tagsKept

theorem tagsKept_moveGranules (d : Dest) (ms : List Move) (l : List Nat) (n : Nat) (s : State) : TagsKept s (s.moveGranules d ms l n).1 := by
  induction l generalizing s n with
  | nil => exact .refl s
  | cons g l ih =>
    cases n with
    | zero => exact .refl s
    | succ n =>
      unfold State.moveGranules
      dsimp only
      split
      · exact .refl s
      · exact (tagsKept_putDest s d _).trans (ih _ _)

theorem memSide_dropMeeting (s : State) (core ctx : Nat) (v : View) (lines : List Nat) : MemSide s (s.dropMeeting core ctx v lines) := by
  unfold State.dropMeeting
  split
  · exact .refl s
  · exact (memSide_invalidate _ _ _).trans (memSide_modCore _ _ _)

theorem memSide_dropDest (s : State) (x : TagCtx) (v : View) (ms : List Move) : MemSide s (s.dropDest x v ms) :=
  (memSide_dropMeeting _ _ _ _ _).trans (memSide_dropMeeting _ _ _ _ _)

theorem sideKept_flushOp (s : State) (x : TagCtx) : SideKept s (s.flushOp x) := by
  have one (s : State) (v : Option ViewUse) : SideKept s (match v with
      | some u => (s.flushMeeting x.o.core x.g.ctx u.view).flushMeeting x.c.core x.g.ctx u.view
      | none => s) := by
    cases v with
    | none => exact .refl s
    | some u => exact (sideKept_flushMeeting _ _ _ _).trans (sideKept_flushMeeting _ _ _ _)
  exact (one s _).trans ((one _ _).trans (one _ _))

theorem sideKept_beginOp (s : State) (x : TagCtx) : SideKept s (s.beginOp x) := by
  unfold State.beginOp
  split
  · exact sideKept_flushOp s x
  · exact .refl s

theorem sideKept_touchJob (s : State) (x : TagCtx) (j : Job) (dst : Option View) : SideKept s (s.touchJob x j dst) := by
  cases dst with
  | none => exact sideKept_touchPages _ _ _ _ _
  | some v => exact (sideKept_touchPages _ _ _ _ _).trans (sideKept_touchPages _ _ _ _ _)

/-! ## Ends of operations -/

/-- A tag that has become DONE with a code. -/
def Tag.Settled (T : Tag) (code : Nat) : Prop :=
  T.state = .done ∧ T.code = BitVec.ofNat 8 code ∧ T.errPend = (code = 1 || code = 2 || code = 4) ∧ T.op = none

/-- Tag `n` of a crew that is not over has become DONE with a code. -/
def Settles (s : State) (r : CrewRef) (n code : Nat) : Prop := ∃ T, HasTag s r n T ∧ T.Settled code

theorem settles_finishTag {s : State} {r : CrewRef} {n : Nat} {T : Tag} (h : HasTag s r n T) (code : Nat) (addr : DWord) (read filled : Nat) :
    Settles (s.finishTag r n code addr read filled) r n code :=
  ⟨_, hasTag_finishTag h code addr read filled, rfl, rfl, rfl, rfl⟩

theorem settles_endMove {s : State} {x : TagCtx} {n : Nat} {T : Tag} (h : HasTag s x.c.ref n T) (v : View) (ms : List Move) (q code : Nat) :
    Settles (s.endMove x n v ms q code) x.c.ref n code :=
  settles_finishTag ((memSide_dropDest s x v ms).tagsKept _ _ _ h) _ _ _ _

/-- A tag without an operation is no slot's drain tag that waits. -/
theorem hasTag_drained {s : State} {r : CrewRef} {n : Nat} {T : Tag} (h : HasTag s r n T) (ho : T.op = none) (x : TagCtx) (id : SlotId) :
    HasTag (s.drained x id) r n T := by
  unfold State.drained
  split
  · exact h
  · dsimp only
    split
    · exact tagsKept_modSlot _ _ _ _ r n T h
    · have hf : HasTag (s.freeSlot (x.slotDie id) id) r n T := tagsKept_modSlot _ _ _ _ r n T h
      split
      case h_2 => exact hf
      case h_1 u d hu hd =>
        split
        case h_2 => exact hf
        case h_1 y hy =>
          split
          · refine hasTag_finishTag_other hf (fun ⟨hr, hn⟩ => ?_) _ _ _ _
            obtain ⟨k, hk, -, ht⟩ := hf
            subst hr hn
            obtain ⟨-, hc, -, hyt, hyo⟩ := tagCtx?_spec hy
            obtain rfl := Option.some.inj (hc.symm.trans hk)
            obtain rfl := Option.some.inj (hyt.symm.trans ht)
            cases ho.symm.trans hyo
          · exact hf

theorem Settles.drained {s : State} {r : CrewRef} {n code : Nat} (h : Settles s r n code) (x : TagCtx) (id : SlotId) : Settles (s.drained x id) r n code := by
  obtain ⟨T, hT, hs⟩ := h
  exact ⟨T, hasTag_drained hT hs.2.2.2 x id, hs⟩

section
variable {s : State} {x : TagCtx} {n : Nat} {T : Tag} (h : HasTag s x.c.ref n T) (m code : Nat)
include h

theorem settles_moveCopy (src dst : View) : Settles (s.moveCopy x n src dst m (some code)) x.c.ref n code := by
  unfold State.moveCopy
  exact settles_endMove (tagsKept_moveGranules _ _ _ _ _ _ _ _ (((sideKept_beginOp s x).trans (sideKept_touchJob _ _ _ _)).1.trans
    ⟨_, _, _, _, _, _, _, _, rfl⟩ |>.tagsKept _ _ _ h)) _ _ _ _

theorem settles_moveDrain (id : SlotId) (v : View) (k : Slot) : Settles (s.moveDrain x n id v k m (some code)) x.c.ref n code := by
  unfold State.moveDrain
  exact (settles_endMove (tagsKept_moveGranules _ _ _ _ _ _ _ _ ((sideKept_touchPages _ _ _ _ _).1.tagsKept _ _ _ h)) _ _ _ _).drained x id

theorem settles_moveNmv (b vx y : View) (fb : Option FormatBlock) (rnd : BitVec 2) (sat : Bool) :
    Settles (s.moveNmv x n b vx y fb rnd sat m (some code)) x.c.ref n code := by
  unfold State.moveNmv
  apply settles_finishTag
  apply (memSide_dropDest _ _ _ _).tagsKept
  apply hasTag_modTag_same
  apply tagsKept_moveGranules
  exact ((((sideKept_beginOp s x).trans (sideKept_drain _ _)).trans (sideKept_touchPages _ _ _ _ _)).trans (sideKept_touchPages _ _ _ _ _)).1.trans
    ⟨_, _, _, _, _, _, _, _, rfl⟩ |>.tagsKept _ _ _ h

theorem settles_endDrain (v : View) : Settles (s.endDrain x n v code) x.c.ref n code := by
  unfold State.endDrain
  dsimp only
  split
  · exact settles_finishTag h _ _ _ _
  · exact settles_endMove h _ _ _ _

/-- An operation that stops before its end leaves its tag DONE with the code (R219, R225). -/
theorem settles_endEarly : Settles (s.endEarly x n m code) x.c.ref n code := by
  unfold State.endEarly
  dsimp only
  split
  · exact settles_moveCopy h _ _ _ _
  · split
    · exact settles_moveDrain h _ _ _ _ _
    · exact (settles_endDrain h _ _).drained _ _
    · exact settles_finishTag h _ _ _ _
  · exact settles_moveNmv h _ _ _ _ _ _ _ _
  · exact settles_finishTag (tagsKept_modSlot _ _ _ _ _ _ _ h) _ _ _ _
  · exact settles_finishTag (tagsKept_modSlot _ _ _ _ _ _ _ h) _ _ _ _
  · exact settles_finishTag h _ _ _ _

end

theorem hasTag_of_tagCtx {s : State} {r : CrewRef} {n : Nat} {x : TagCtx} (h : s.tagCtx? r n = some x) (ho : x.c.over = false) :
    HasTag s x.c.ref n x.tag := by
  obtain ⟨-, hc, hr, ht, -⟩ := tagCtx?_spec h
  exact ⟨x.c, by rw [hr]; exact hc, ho, ht⟩

end Sys2Proof.Machine
end

