-- ==== Sys2Proof/Proofs/Mailbox.lean ====
section
/-! SUPPORT. What each mailbox command does (R225, R285, R286, R293, R303, R305, R308). -/
namespace Sys2Proof.Machine

/-! ## Commands -/

theorem command_of_asked {s : State} {code : Nat} (h : s.asked code) (body : State) : s.command code body = body := by
  obtain ⟨hb, hs, hw, hr, hc, h0⟩ := h
  simp [State.command, hb, hs, hw, hr, hc, h0]

theorem memByte_answer (s : State) (a : Answer) (key : Nat) : (s.answer a).memByte key = s.memByte key := rfl

/-! ## Numbered places -/

theorem join_putNth {α : Type} (l : List (Option α)) (n m : Nat) (v : Option α) :
    ((putNth l n v)[m]?).join = if m = n ∧ m < l.length then v else (l[m]?).join := by
  rw [putNth, getElem?_modNth]
  by_cases h : m = n
  · by_cases hl : m < l.length
    · rw [if_pos h, if_pos ⟨h, hl⟩, List.getElem?_eq_getElem hl]
      rfl
    · rw [if_pos h, if_neg fun x => hl x.2, List.getElem?_eq_none (Nat.not_lt.mp hl)]
      rfl
  · rw [if_neg h, if_neg fun x => h x.1]

theorem queue?_modQueue (s : State) (n m : Nat) (f : Queue → Queue) (hf : ∀ q, (f q).id = q.id) :
    (s.modQueue n f).queue? m = if m = n then (s.queue? m).map f else s.queue? m := by
  rw [State.queue?, State.modQueue, find?_modWhere _ _ _ _ fun q => by rw [hf]]
  cases h : s.queue? m with
  | none =>
    rw [State.queue?] at h
    rw [h]
    simp
  | some q =>
    have hi : q.id = m := by simpa using List.find?_some h
    rw [State.queue?] at h
    rw [h]
    simp only [Option.map_some, hi, decide_eq_true_eq]
    split <;> rfl

/-! ## PART_SET, CTX_SET, QUEUE_CREATE -/

/-- The partition that PART_SET makes of its entry (R308). -/
def State.partitionSet (s : State) (b : List Byte) (peers : List (BitVec 12)) : Partition :=
  partitionOf (s.arg64 2) b peers (match s.part? (s.arg 1) with | some o => o.nextFault | none => 0)

theorem partSet_takes {s : State} {b : List Byte} {peers : List (BitVec 12)} (h16 : s.arg 1 < 16) (hr : s.physRead (s.arg64 2) 128 = some b)
    (hok : partOk b = true) (hp : s.peersOf b = some peers) (hc : s.coresTaken (s.arg 1) (s.partitionSet b peers) = false)
    (hq : (s.queues.any fun q => decide (q.part = s.arg 1) && s.queueLives q) = false) :
    s.partSet = { s with partitions := putNth s.partitions (s.arg 1) (some (s.partitionSet b peers)) }.answer .ok := by
  unfold State.partSet
  simp only [if_pos h16, hr, if_pos hok, hp, hq, Bool.and_false]
  exact (if_neg fun h => Bool.false_ne_true (hc.symm.trans h)).trans (if_neg Bool.false_ne_true)

/-- A context as CTX_SET makes it from its entry (R305). -/
def State.contextOf (s : State) (b : List Byte) (d : DieRec) : Context :=
  { root := BitVec.ofNat 64 (field b 0 8), dieRec := d, saveArea := BitVec.ofNat 64 (field b 0x10 8), saveSize := BitVec.ofNat 64 (field b 0x18 8),
    part := field b 0x20 1 % 16, suspended := match s.ctx? (s.arg 1) with | some x => x.suspended | none => false
    failed := false }

theorem ctxSet_takes {s : State} {b : List Byte} {p : Partition} {d : DieRec} (h64 : s.arg 1 < 64) (hr : s.physRead (s.arg64 2) 64 = some b)
    (hok : ctxOk b = true) (hv : field b 0x21 1 % 2 = 1) (hp : s.part? (field b 0x20 1 % 16) = some p)
    (hd : (if field b 8 8 = 0 then s.builtDies p else (s.physRead (field b 8 8) 48).bind (s.diesOf p)) = some d) :
    s.ctxSet = { s with contexts := putNth s.contexts (s.arg 1) (some (s.contextOf b d)) }.answer .ok := by
  unfold State.ctxSet
  simp only [if_pos h64, hr, hok, hv, hp, Option.bind_some, hd]
  rfl

theorem ctxSet_drops {s : State} {b : List Byte} (h64 : s.arg 1 < 64) (hr : s.physRead (s.arg64 2) 64 = some b) (hok : ctxOk b = true)
    (hv : field b 0x21 1 % 2 = 0) (hq : (s.queues.any fun q => decide (q.ctx = s.arg 1) && s.queueLives q) = false) :
    s.ctxSet = ({ s with contexts := putNth s.contexts (s.arg 1) none }.dropTlb (s.arg 1) true 0 0).answer .ok := by
  unfold State.ctxSet
  simp only [if_pos h64, hr, hok, hv, hq]
  rfl

/-- No translation of the context is left, as far as the range goes. -/
theorem mem_tlbDrop {l : List TlbEntry} {ctx lo hi : Nat} {all : Bool} {e : TlbEntry} (h : e ∈ tlbDrop l ctx all lo hi) (hc : e.ctx = ctx) :
    all = false ∧ ((e.page + e.x.pages) * 65536 ≤ lo ∨ hi ≤ e.page * 65536) := by
  have := (List.mem_filter.mp h).2
  simp [hc] at this
  exact ⟨this.1, this.2.symm⟩

theorem cores_dropTlb {s : State} {ctx lo hi : Nat} {all : Bool} {k : Core} (h : k ∈ (s.dropTlb ctx all lo hi).cores) {e : TlbEntry} (he : e ∈ k.tlb)
    (hc : e.ctx = ctx) : all = false ∧ ((e.page + e.x.pages) * 65536 ≤ lo ∨ hi ≤ e.page * 65536) := by
  obtain ⟨k', -, rfl⟩ := List.mem_map.mp h
  exact mem_tlbDrop he hc

theorem dies_dropTlb {s : State} {ctx lo hi : Nat} {all : Bool} {d : Die} (h : d ∈ (s.dropTlb ctx all lo hi).dies) {e : TlbEntry} (he : e ∈ d.tlb)
    (hc : e.ctx = ctx) : all = false ∧ ((e.page + e.x.pages) * 65536 ≤ lo ∨ hi ≤ e.page * 65536) := by
  obtain ⟨d', -, rfl⟩ := List.mem_map.mp h
  exact mem_tlbDrop he hc

theorem queueCreate_takes {s : State} {b : List Byte} {c : Context} (h : s.arg 1 < 65536) (hr : s.physRead (s.arg64 2) 64 = some b)
    (hok : descOk b = true) (hn : s.queue? (s.arg 1) = none) (hc : s.ctx? (queueOf (s.arg 1) (s.arg64 2) b).ctx = some c) (hf : c.failed = false)
    (hp : c.part = (queueOf (s.arg 1) (s.arg64 2) b).part) (hl : (s.part? c.part).isSome = true) :
    s.queueCreate =
      { s with queues := s.queues.filter (fun (o : Queue) => o.id ≠ s.arg 1) ++ [queueOf (s.arg 1) (s.arg64 2) b] }.answer .ok := by
  unfold State.queueCreate
  rw [hp] at hl
  simp only [if_pos h, hr, hok, hn, hc, hf, hp, hl]
  simp

/-- A queue in the place of those of its number. -/
theorem queue?_replaced (s t : State) (q : Queue) (h : t.queues = s.queues.filter (fun (o : Queue) => o.id ≠ q.id) ++ [q]) (m : Nat) :
    t.queue? m = if m = q.id then some q else s.queue? m := by
  rw [State.queue?, h, List.find?_append, List.find?_filter]
  by_cases hm : m = q.id
  · subst hm
    rw [List.find?_eq_none.mpr fun o _ => by simp]
    simp
  · rw [if_neg hm, List.find?_cons_of_neg (by simpa using Ne.symm hm), List.find?_nil, Option.or_none, State.queue?]
    refine congrArg (List.find? · s.queues) (funext fun o => ?_)
    by_cases ho : o.id = m
    · simp [ho, hm]
    · simp [ho]

/-- A QUEUE_DESTROY is answered once no grid of its queue is left (R303). -/
theorem settleMailbox_waiting (s : State) (n : Nat) : ({ s with mbWait := some n } : State).settleMailbox =
    if s.gridsLeft n then { s with mbWait := some n } else { s with mbWait := none, mbBusy := false, mbResult := 0 } := rfl

/-! ## NEAR_SET -/

theorem memByte_lose {s : State} {key a n : Nat} (h : key < a ∨ a + n ≤ key) : (s.lose a n).memByte key = s.memByte key := by
  have hl : (s.lose a n).lostAt key = s.lostAt key := by
    unfold State.lostAt State.lose
    rw [List.find?_cons_of_neg (by simp; omega)]
  rw [State.memByte, hl]
  rfl

/-- NEAR_SET on a segment whose bit changes (R293). -/
def State.nearChanged (s : State) : State :=
  { s with nearMap := if s.arg 2 = 1 then s.arg 1 :: s.nearMap else s.nearMap.filter (· ≠ s.arg 1) }.lose (s.arg 1 * 2097152) 2097152

section
variable {s : State} (hn : ¬ (411983 < s.arg 1 ∨ 1 < s.arg 2))
include hn

theorem nearSet_mapped (hm : s.segMapped (s.arg 1) = true) : s.nearSet = s.answer .inUse := by
  unfold State.nearSet
  simp only [if_neg hn, if_pos hm]

theorem nearSet_stands (hm : s.segMapped (s.arg 1) = false) (hc : s.nearMap.contains (s.arg 1) = decide (s.arg 2 = 1)) : s.nearSet = s.answer .ok := by
  unfold State.nearSet
  simp only [if_neg hn, hm, hc, beq_self_eq_true, Bool.false_eq_true, if_false, if_true]

theorem nearSet_changes (hm : s.segMapped (s.arg 1) = false) (hc : s.nearMap.contains (s.arg 1) = !(decide (s.arg 2 = 1))) :
    s.nearSet = s.nearChanged.answer .ok := by
  unfold State.nearSet
  have hb : ((!(decide (s.arg 2 = 1))) == decide (s.arg 2 = 1)) = false := by simp
  simp only [if_neg hn, hm, hc, hb, Bool.false_eq_true, if_false]
  rfl

end

theorem contains_nearChanged (s : State) : s.nearChanged.nearMap.contains (s.arg 1) = decide (s.arg 2 = 1) := by
  show (if s.arg 2 = 1 then s.arg 1 :: s.nearMap else s.nearMap.filter (· ≠ s.arg 1)).contains (s.arg 1) = _
  split <;> simp [*]

theorem contains_nearChanged_other (s : State) {n : Nat} (hn : n ≠ s.arg 1) : s.nearChanged.nearMap.contains n = s.nearMap.contains n := by
  show (if s.arg 2 = 1 then s.arg 1 :: s.nearMap else s.nearMap.filter (· ≠ s.arg 1)).contains n = _
  split <;> simp [hn]

theorem memByte_nearChanged {s : State} {key : Nat} (h : segOf key ≠ s.arg 1) : s.nearChanged.memByte key = s.memByte key := by
  unfold segOf at h
  exact memByte_lose (s := { s with nearMap := if s.arg 2 = 1 then s.arg 1 :: s.nearMap else s.nearMap.filter (· ≠ s.arg 1) }) (by omega)

/-! ## Faults that are settled -/

theorem FaultSide.queues {s t : State} (h : FaultSide s t) : t.queues = s.queues := by
  obtain ⟨_, _, _, _, ⟨_, _, _, _, _, _, _, _, rfl⟩, rfl⟩ := h
  rfl

theorem MemSide.queue? {s t : State} (h : MemSide s t) (n : Nat) : t.queue? n = s.queue? n := by
  rw [State.queue?, h.faultSide.queues]
  rfl

/-- A queue that has stopped and is not destroyed. -/
def StoppedQueue (s : State) (n : Nat) : Prop := ∃ q, s.queue? n = some q ∧ q.destroy = .none ∧ q.stopped = true

theorem StoppedQueue.modQueue {s : State} {n : Nat} (h : StoppedQueue s n) (m : Nat) (f : Queue → Queue)
    (hf : ∀ q, (f q).id = q.id ∧ (f q).destroy = q.destroy ∧ (f q).stopped = q.stopped) : StoppedQueue (s.modQueue m f) n := by
  obtain ⟨q, hq, hd, hs⟩ := h
  refine ⟨if n = m then f q else q, ?_, ?_, ?_⟩
  · rw [queue?_modQueue _ _ _ _ fun q => (hf q).1, hq]
    split <;> rfl
  · split
    · exact (hf q).2.1.trans hd
    · exact hd
  · split
    · exact (hf q).2.2.trans hs
    · exact hs

theorem StoppedQueue.of_queues {s t : State} {n : Nat} (h : StoppedQueue s n) (hq : t.queues = s.queues) : StoppedQueue t n := by
  obtain ⟨q, hs, hx⟩ := h
  exact ⟨q, (congrArg (List.find? _) hq).trans hs, hx⟩

theorem queues_l2Access (s : State) (ctx line : Nat) (x : Xlate) : (s.l2Access ctx line x).queues = s.queues := (memSide_l2Access s ctx line x).faultSide.queues

theorem memSide_frontPut {s t : State} {ctx va n : Nat} {a : Right} {sync : Bool} {f : List Byte → List Byte} (h : s.frontPut ctx a sync va n f = .inl t) :
    MemSide s t := by
  unfold State.frontPut at h
  split at h
  case h_1 => cases h
  case h_2 ks hk =>
    obtain rfl := Sum.inl.inj h
    refine (memSide_writeBytes s ((ks.map (·.1)).zip (f ((ks.map (·.1)).map s.memByte)))).trans ?_
    split
    · refine memSide_foldl _ (fun s k => ?_) _ _
      split
      · exact (memSide_l2Access _ _ _ _).trans (memSide_setRecord _ _ _)
      · exact .refl s
    · exact .refl _

theorem stoppedQueue_flush {n : Nat} (m : Nat) (fuel : Nat) {s : State} (h : StoppedQueue s n) : StoppedQueue (s.flush m fuel) n := by
  induction fuel generalizing s with
  | zero => exact h
  | succ fuel ih =>
    unfold State.flush
    split
    · exact h
    · split
      · dsimp only
        split
        · exact (h.of_queues (faultSide_postFault s _).queues).modQueue _ _ (by intro q; exact ⟨rfl, rfl, rfl⟩)
        case h_2 t ht => exact ih ((h.of_queues (memSide_frontPut ht).faultSide.queues).modQueue _ _ (by intro q; exact ⟨rfl, rfl, rfl⟩))
      · exact h

theorem stoppedQueue_flushAll {s : State} {n : Nat} (h : StoppedQueue s n) (m : Nat) : StoppedQueue (s.flushAll m) n := by
  unfold State.flushAll
  split
  · exact stoppedQueue_flush m _ h
  · exact h

/-- A packet that fails stops its queue (R255, R285). -/
theorem stoppedQueue_failPacket {s : State} {n : Nat} {q : Queue} (hq : s.queue? n = some q) (hd : q.destroy = .none) (idx : Word) (a b : Nat) :
    StoppedQueue (s.failPacket n idx a b) n := by
  refine stoppedQueue_flushAll (StoppedQueue.modQueue ?_ _ _ (by intro q; exact ⟨rfl, rfl, rfl⟩)) _
  refine ⟨{ q with stopped := true }, ?_, hd, rfl⟩
  rw [queue?_modQueue _ _ _ _ (by intro q; rfl), if_pos rfl, hq]
  rfl

theorem queue?_pushPacket {s : State} {n : Nat} {q : Queue} (hq : s.queue? n = some q) (p : Packet) :
    (s.pushPacket n p).queue? n = some { q with rptr := q.rptr + 1, packets := q.packets ++ [p], readable := s.cycle } := by
  have hm : (s.modQueue n fun q => { q with rptr := q.rptr + 1, packets := q.packets ++ [p], readable := s.cycle }).queue? n =
      some { q with rptr := q.rptr + 1, packets := q.packets ++ [p], readable := s.cycle } := by
    rw [queue?_modQueue _ _ _ _ (by intro q; rfl), if_pos rfl, hq]
    rfl
  unfold State.pushPacket
  dsimp only
  rw [hm]
  exact ((memSide_writeNat _ _ _ _).queue? n).trans hm

theorem stoppedQueue_losePacket {s : State} {q : Queue} (hq : s.queue? q.id = some q) (hd : q.destroy = .none) : StoppedQueue (s.losePacket q) q.id :=
  stoppedQueue_failPacket (queue?_pushPacket hq _) hd _ _ _

/-- A queue that no destroy drops. -/
theorem dropAll_of_live {s : State} {n : Nat} {q : Queue} (hq : s.queue? n = some q) (hd : q.destroy = .none) : s.dropAll n = s := by
  unfold State.dropAll
  rw [hq]
  unfold State.dropQueue
  rw [hq]
  simp [hd]

/-- A queue all of whose completion records are written. -/
theorem flushAll_of_settled {s : State} {n : Nat} {q : Queue} (hq : s.queue? n = some q) (hs : firstSettled q.packets = none) : s.flushAll n = s := by
  unfold State.flushAll
  rw [hq]
  dsimp only
  cases q.packets.length with
  | zero => rfl
  | succ k =>
    unfold State.flush
    rw [hq]
    dsimp only
    rw [hs]
    cases q.parked <;> rfl

theorem settleQueue_reading {s : State} {q : Queue} {id : Nat} (hq : s.queue? q.id = some q) (hd : q.destroy = .none) (hp : q.parked = some (id, .reading none)) :
    (firstSettled q.packets = none → (s.settleQueue true q).queue? q.id = some { q with parked := none }) ∧
      ∃ u, (s.settleQueue false q).queue? q.id = some u ∧ u.stopped = true := by
  have hm : (s.modQueue q.id fun q => { q with parked := none }).queue? q.id = some { q with parked := none } := by
    rw [queue?_modQueue _ _ _ _ (by intro q; rfl), if_pos rfl, hq]
    rfl
  unfold State.settleQueue
  rw [hp]
  refine ⟨fun hs => ?_, ?_⟩
  · show (((s.modQueue q.id fun q => { q with parked := none }).flushAll q.id).dropAll q.id).queue? q.id = _
    rw [flushAll_of_settled hm hs, dropAll_of_live hm hd]
    exact hm
  · obtain ⟨u, hu, hud, hus⟩ := stoppedQueue_losePacket (q := { q with parked := none }) hm hd
    refine ⟨u, ?_, hus⟩
    show (((s.modQueue q.id fun q => { q with parked := none }).losePacket { q with parked := none }).dropAll q.id).queue? q.id = _
    rw [dropAll_of_live hu hud]
    exact hu

/-- The parties of a resolved fault go on, where no queue has parked on it (R285). -/
theorem settleFault_resolved {s : State} (f : Fault32) (hq : s.queues = []) :
    s.settleFault f true =
      { s with faults := s.faults.filter fun g => !(decide (g.part = f.part) && decide (g.id = f.id) && !g.kind) }.retryCrews f.part f.id.toNat := by
  unfold State.settleFault
  simp only [hq, List.filter_nil, List.foldl_nil]
  rfl

/-- The crew's launch is of the partition. -/
def State.crewIn (s : State) (part : Nat) (c : Crew) : Bool := match s.grid? c.grid with | some g => decide (g.part = part) | none => false

/-- A crew whose parties that are parked on a fault retry. -/
def Crew.retried (c : Crew) (id : Nat) : Crew :=
  { c with
    tags := c.tags.map fun t => { t with op := t.op.map fun (o : CopyOp) => if o.parked = some id then { o with parked := none } else o }
    follows := modWhere (fun (f : FollowOn) => f.parked = some id) (fun f => { f with parked := none }) c.follows }

theorem crews_retryCrews (s : State) (part id : Nat) :
    (s.retryCrews part id).crews = s.crews.map fun c => if s.crewIn part c then c.retried id else c := rfl

/-- Nothing of a crew that retries is parked on the fault. -/
theorem parked_retried (c : Crew) (id : Nat) :
    (∀ x ∈ (c.retried id).tags, ∀ o, x.op = some o → o.parked ≠ some id) ∧ ∀ x ∈ (c.retried id).follows, x.parked ≠ some id := by
  refine ⟨fun x hx o ho => ?_, fun x hx => ?_⟩
  · obtain ⟨t, -, rfl⟩ := List.mem_map.mp hx
    obtain ⟨o', -, rfl⟩ := Option.map_eq_some_iff.mp ho
    split
    · intro h; cases h
    · assumption
  · obtain ⟨f, -, rfl⟩ := List.mem_map.mp hx
    by_cases hf : f.parked = some id <;> simp [hf]

/-- No party of a crew of the partition is parked on a fault that has been resolved. -/
theorem parked_retryCrews {s : State} {part id : Nat} {c : Crew} (hc : c ∈ (s.retryCrews part id).crews) {g : Grid} (hg : s.grid? c.grid = some g)
    (hp : g.part = part) :
    (∀ x ∈ c.tags, ∀ o, x.op = some o → o.parked ≠ some id) ∧ ∀ x ∈ c.follows, x.parked ≠ some id := by
  rw [crews_retryCrews] at hc
  obtain ⟨k, -, rfl⟩ := List.mem_map.mp hc
  revert hg
  split
  · exact fun _ => parked_retried k id
  · rename_i hk
    intro hg
    rw [State.crewIn, hg] at hk
    exact absurd (by simpa using hp) hk

/-- What a strand's splits and captured entries learn of a fault that is unresolvable (R288). -/
def Strand.unresolved (handler : Word) (id : Nat) (va : DWord) (t : Strand) : Strand :=
  { t with
    splits := t.splits.map fun p =>
      match p.lostEntry id with
      | some e => p.past e
      | none => if p.wait = .xlate id then { p with wait := .unresolved va } else p
    deferred := t.deferred ++
      ((t.reinject.filter fun e => e.parked = some id) ++ t.splits.filterMap (Path.lostEntry id)).map fun e => e.lostTo handler va }

/-- The deferred trap of an access whose fault is unresolvable (R285). -/
def Ctx.unresolvable (k : Ctx) (va : DWord) : Deferred :=
  { trap := .faultUnresolved, handler := k.c.handler, addr := va, lane := lowest k.act, pc := k.iss.pc, mask := k.act,
    entry := some (k.entry k.act true) }

/-- An access whose fault is unresolvable becomes the entry of a deferred trap (R285). -/
theorem unresolveStrand_one {s : State} {c : Crew} {t : Strand} {x : InFlight} {k : Ctx} {id : Nat} (va : DWord)
    (hs : s.strand? { crew := c.ref, strand := t.idx } = some t) (ho : t.isOver = false) (hx : t.inflight = [x]) (hp : x.state = .parked id)
    (hk : s.ctxOfFlight { crew := c.ref, strand := t.idx } x = some k) (hw : ∀ p ∈ t.splits, p.wait ≠ .fetch id ∧ p.wait ≠ .xlate id)
    (he : ∀ e ∈ t.reinject, e.parked ≠ some id) :
    ∃ u d, (s.unresolveStrand c t id va).strand? { crew := c.ref, strand := t.idx } = some u ∧ u.inflight = [] ∧ u.deferred = t.deferred ++ [d] ∧
      SameRegs u t ∧ d.trap = .faultUnresolved ∧ d.addr = va ∧ d.mask = k.act ∧ d.entry = some (k.entry k.act true) := by
  have hkr : k.r = { crew := c.ref, strand := t.idx } := by
    unfold State.ctxOfFlight State.ctxOfEntry at hk
    rw [hs] at hk
    split at hk
    · obtain rfl := Option.some.inj hk
      rfl
    · cases hk
  have hsplit (p : Path) (hp : p ∈ t.splits) : p.lostEntry id = none := by rw [Path.lostEntry, if_neg (hw p hp).2]
  have h1 : (t.inflight.filter fun x => x.state = .parked id) = [x] := by rw [hx]; simp [hp]
  have h2 : (t.splits.filter fun p => p.wait = .fetch id) = [] := List.filter_eq_nil_iff.mpr fun p hp => by simpa using (hw p hp).1
  have h3 : ((t.reinject.filter fun e => e.parked = some id) ++ t.splits.filterMap (Path.lostEntry id)) = [] := by
    rw [List.filter_eq_nil_iff.mpr fun e h => by simpa using he e h, List.filterMap_eq_nil_iff.mpr hsplit]
    rfl
  unfold State.unresolveStrand
  simp only [h1, h2, List.foldl_cons, List.foldl_nil, hk, ho, Ctx.deferOn, Ctx.deferAt, Ctx.onStrand, hkr, State.dropFlight]
  rw [if_neg Bool.false_ne_true]
  have h := (strand?_modStrand_same (((s.modStrand { crew := c.ref, strand := t.idx } fun t =>
      { t with inflight := t.inflight.filter fun y => y.id ≠ x.id }).modStrand { crew := c.ref, strand := t.idx } fun u =>
      { u with deferred := u.deferred ++ [k.unresolvable va] }))
    { crew := c.ref, strand := t.idx } (Strand.unresolved c.handler id va) (by intro t; rfl)).trans (congrArg (Option.map _)
    ((strand?_modStrand_same _ _ _ (by intro t; rfl)).trans (congrArg (Option.map _)
      ((strand?_modStrand_same _ _ _ (by intro t; rfl)).trans (congrArg (Option.map _) hs)))))
  refine ⟨_, k.unresolvable va, h, ?_, ?_, ⟨rfl, rfl, rfl, rfl⟩, rfl, rfl, rfl, rfl⟩
  · show t.inflight.filter _ = []
    rw [hx]
    simp
  · show (t.deferred ++ [_]) ++ (_ : List ReplayEntry).map _ = _
    rw [h3]
    exact List.append_nil _

/-! ## CTX_SUSPEND -/

/-- The crew waits, and its launch is of the context. -/
def State.outOf (s : State) (ctx : Nat) (c : Crew) : Bool :=
  (decide (c.state = CrewState.swapped) || decide (c.state = CrewState.preempted)) &&
    match s.grid? c.grid with | some g => decide (g.ctx = ctx) | none => false

theorem outOf_iff (s : State) (ctx : Nat) (c : Crew) :
    s.outOf ctx c = true ↔ (c.state = .swapped ∨ c.state = .preempted) ∧ ∃ g, s.grid? c.grid = some g ∧ g.ctx = ctx := by
  unfold State.outOf
  cases hg : s.grid? c.grid with
  | none => simp
  | some g => simp

/-- The context is suspended no more, and what waits for it waits from now on (R264, R286). -/
def State.unsuspended (s : State) (ctx : Nat) (x : Context) : State :=
  { s with
    contexts := modNth s.contexts ctx fun x => x.map fun (c : Context) => { c with suspended := false }
    grids := modWhere (fun g => decide (g.ctx = ctx) && x.suspended) (fun g => { g with offered := s.cycle }) s.grids
    crews := modWhere
      (fun (c : Crew) => x.suspended && (decide (c.state = CrewState.swapped) || decide (c.state = CrewState.preempted)) &&
        match s.grid? c.grid with | some g => decide (g.ctx = ctx) | none => false)
      (fun c => { c with since := s.cycle }) s.crews }

theorem crews_unsuspended {s : State} {ctx : Nat} {x : Context} (h : x.suspended = true) :
    (s.unsuspended ctx x).crews = modWhere (s.outOf ctx) (fun c => { c with since := s.cycle }) s.crews := by
  refine List.map_congr_left fun c _ => ?_
  rw [h]
  rfl

theorem modWhere_false {α : Type} (p : α → Bool) (f : α → α) (l : List α) (h : ∀ x, p x = false) : modWhere p f l = l := by
  unfold modWhere
  exact (List.map_congr_left fun x _ => by rw [h]; rfl).trans (List.map_id l)

/-- Nothing waits for a context that was not suspended. -/
theorem unsuspended_of_live {s : State} {ctx : Nat} {x : Context} (h : x.suspended = false) :
    (s.unsuspended ctx x).crews = s.crews ∧ (s.unsuspended ctx x).grids = s.grids :=
  ⟨modWhere_false _ _ _ fun c => by rw [h]; rfl, modWhere_false _ _ _ fun g => by rw [h, Bool.and_false]⟩

theorem unsuspended_waits {s : State} {ctx : Nat} {x : Context} (h : x.suspended = true) :
    (s.unsuspended ctx x).grids = s.grids.map (fun g => if g.ctx = ctx then { g with offered := s.cycle } else g) ∧
      (s.unsuspended ctx x).crews = s.crews.map fun c =>
        if (c.state = .swapped ∨ c.state = .preempted) ∧ ∃ g, s.grid? c.grid = some g ∧ g.ctx = ctx then { c with since := s.cycle } else c := by
  refine ⟨List.map_congr_left fun g _ => ?_, (crews_unsuspended h).trans (List.map_congr_left fun c _ => ?_)⟩
  · by_cases hg : g.ctx = ctx <;> simp [h, hg]
  · exact if_congr (outOf_iff s ctx c) rfl rfl

/-- Settles O51: each command by what it makes of the state where its operands are good; a settled fault by its parties. -/
theorem mailboxCommands : Obligations.MailboxCommands := by
  unfold Obligations.MailboxCommands
  refine ⟨?_, ?_, ?_, ?_, ?_, ?_, ?_, ?_, ?_, ?_, ?_, ?_, ?_⟩
  · intro s b peers ha h16 hlen hr hok hp p hc hq
    refine ⟨_, congrArg Host.Outcome.next ((command_of_asked ha _).trans (partSet_takes h16 hr hok hp hc hq)), ?_, fun n hn => ?_, rfl, rfl, rfl⟩
    · exact (join_putNth s.partitions (s.arg 1) (s.arg 1) _).trans (if_pos ⟨rfl, by omega⟩)
    · exact (join_putNth s.partitions (s.arg 1) n _).trans (if_neg fun x => hn x.1)
  · intro s b p d ha h64 hlen hr hok hv hp hd
    refine ⟨_, s.contextOf b d, congrArg Host.Outcome.next ((command_of_asked ha _).trans (ctxSet_takes h64 hr hok hv hp hd)), ?_, rfl, rfl, rfl, rfl, rfl,
      fun n hn => ?_, rfl⟩
    · exact (join_putNth s.contexts (s.arg 1) (s.arg 1) _).trans (if_pos ⟨rfl, by omega⟩)
    · exact (join_putNth s.contexts (s.arg 1) n _).trans (if_neg fun x => hn x.1)
  · intro s b ha h64 hr hok hv hq
    refine ⟨_, congrArg Host.Outcome.next ((command_of_asked ha _).trans (ctxSet_drops h64 hr hok hv hq)), ?_, fun k hk e he hc => ?_, rfl, rfl⟩
    · refine (join_putNth s.contexts (s.arg 1) (s.arg 1) none).trans ?_
      split
      · rfl
      · rename_i hn
        rw [List.getElem?_eq_none (Nat.not_lt.mp fun hl => hn ⟨rfl, hl⟩)]
        rfl
    · cases (cores_dropTlb (s := { s with contexts := putNth s.contexts (s.arg 1) none }) hk he hc).1
  · intro s b c ha h hr hok hn q hc hf hp hl
    refine ⟨_, congrArg Host.Outcome.next ((command_of_asked ha _).trans (queueCreate_takes h hr hok hn hc hf hp hl)), ?_, fun m hm => ?_, rfl, rfl⟩
    · exact (queue?_replaced s _ q rfl (s.arg 1)).trans (if_pos rfl)
    · exact (queue?_replaced s _ q rfl m).trans (if_neg hm)
  · intro s q ha hq h2 hd d
    have he : exec .queueDestroy s = .next ({ d with mbWait := some q.id } : State).settleMailbox := by
      refine congrArg Host.Outcome.next ((command_of_asked ha _).trans ?_)
      unfold State.queueDestroy
      rw [hq]
      exact if_neg fun x => x.elim (by omega) fun y => y hd
    rw [he, settleMailbox_waiting]
    exact ⟨fun hg => congrArg Host.Outcome.next (if_neg fun x => Bool.false_ne_true (hg.symm.trans x)), fun hg => congrArg Host.Outcome.next (if_pos hg)⟩
  · intro s ha h1 h2
    have he (t : State) (h : s.nearSet = t) : exec .nearSet s = .next t := congrArg Host.Outcome.next ((command_of_asked ha _).trans h)
    have hn : ¬ (411983 < s.arg 1 ∨ 1 < s.arg 2) := fun x => x.elim (Nat.not_lt.mpr h1) (Nat.not_lt.mpr h2)
    refine ⟨fun hm => he _ (nearSet_mapped hn hm), fun hm hc => he _ (nearSet_stands hn hm hc), fun hm hc => ⟨_, he _ (nearSet_changes hn hm hc), ?_⟩⟩
    exact ⟨contains_nearChanged s, fun n hn => contains_nearChanged_other s hn, rfl, rfl, fun key hk => (memByte_answer _ _ key).trans (memByte_nearChanged hk)⟩
  · intro s ha h1 h3 posted
    have he (t : State) (h : s.faultResp = t) : exec .faultResp s = .next t := congrArg Host.Outcome.next ((command_of_asked ha _).trans h)
    have hn : ¬ (15 < s.arg 1 ∨ 1 < s.arg 3) := by omega
    refine ⟨fun hp => he _ ?_, fun f hf => he _ ?_⟩
    · rw [State.faultResp, if_neg hn, show s.faults.find? _ = none from hp]
    · rw [State.faultResp, if_neg hn, show s.faults.find? _ = some f from hf]
  · intro s f hq
    rw [settleFault_resolved f hq]
    exact ⟨rfl, rfl, fun c hc g hg hp => parked_retryCrews hc hg hp⟩
  · intro s c t x k id va r hs ho hx hp hk hw he
    exact unresolveStrand_one va hs ho hx hp hk hw he
  · intro s r n x addr hx hr ho
    obtain ⟨T, hT, hd, hc, hep, hop⟩ := settles_endEarly (hasTag_of_tagCtx hx ho) 0 1
    obtain ⟨k, hk, -, ht⟩ := hasTag_modTag_same hT fun t => { t with addr := addr }
    rw [hr] at hk
    have htag := HasTag.tag ht
    refine ⟨k, by rw [State.endUnresolved, hr]; exact hk, ?_, ?_, ?_, ?_, ?_⟩ <;> rw [htag]
    · exact hd
    · exact hc
    · exact hep
    · exact hop
  · intro s q id hq hd hp
    exact settleQueue_reading hq hd hp
  · intro s ha h t away
    have hmem {c : Nat} {e : TlbEntry} (h : decide (s.arg 4 = 0) = false ∧ ((e.page + e.x.pages) * 65536 ≤ s.arg64 2 ∨ s.arg64 2 + s.arg 4 ≤ e.page * 65536)) :
        s.arg 4 ≠ 0 ∧ ((e.page + e.x.pages) * 65536 ≤ s.arg64 2 ∨ s.arg64 2 + s.arg 4 ≤ e.page * 65536) := ⟨by simpa using h.1, h.2⟩
    refine ⟨fun k hk e he hc => hmem (c := 0) (cores_dropTlb hk he hc), fun d hd e he hc => hmem (c := 0) (dies_dropTlb hd he hc), fun hu => ?_, fun hu => ?_⟩
    · refine congrArg Host.Outcome.next ((command_of_asked ha _).trans ?_)
      rw [State.tlbInval]
      exact (if_neg (by omega)).trans (if_neg fun x => Bool.false_ne_true (hu.symm.trans x))
    · refine congrArg Host.Outcome.next ((command_of_asked ha _).trans ?_)
      rw [State.tlbInval]
      exact (if_neg (by omega)).trans (if_pos hu)
  · intro s x ha hx
    refine ⟨fun h2 hf => ?_, fun h2 => ⟨(s.unsuspended (s.arg 1) x).answer .ok, ?_, ?_, fun n hn => ?_, rfl, unsuspended_of_live, unsuspended_waits⟩⟩
    · refine congrArg Host.Outcome.next ((command_of_asked ha _).trans ?_)
      simp only [State.ctxSuspend, hx, h2, hf, if_true]
    · refine congrArg Host.Outcome.next ((command_of_asked ha _).trans ?_)
      simp only [State.ctxSuspend, hx, h2]
      rfl
    · exact (ctx?_modNth s (s.arg 1) (s.arg 1) _).trans ((if_pos rfl).trans (congrArg _ hx))
    · exact (ctx?_modNth s (s.arg 1) n _).trans (if_neg hn)

end Sys2Proof.Machine
end

