-- ==== Sys2Proof/Proofs/Returns.lean ====
section
/-! SUPPORT. Accesses in flight: their ageing, the data that come for a load, and the walk of a page that they wait for (R168, R283, R366). -/
namespace Sys2Proof.Machine

/-! ## An access in flight -/

theorem flight?_spec {s : State} {r : StrandRef} {id : Nat} {x : InFlight} (h : s.flight? r id = some x) :
    x.id = id ∧ ∃ t, s.strand? r = some t ∧ t.inflight.find? (fun y => y.id = id) = some x := by
  obtain ⟨t, ht, hx⟩ := Option.bind_eq_some_iff.mp h
  exact ⟨by simpa using List.find?_some hx, t, ht, hx⟩

/-- The strand with an access in flight replaced. -/
def Strand.withFlight (t : Strand) (x : InFlight) : Strand := { t with inflight := modWhere (fun y => y.id = x.id) (fun _ => x) t.inflight }

/-- The strand without an access in flight. -/
def Strand.withoutFlight (t : Strand) (id : Nat) : Strand := { t with inflight := t.inflight.filter fun y => y.id ≠ id }

theorem strand?_setFlight {s : State} {r : StrandRef} {t : Strand} (h : s.strand? r = some t) (x : InFlight) :
    (s.setFlight r x).strand? r = some (t.withFlight x) :=
  (strand?_modStrand_same s r (fun t => t.withFlight x) (by intro t; rfl)).trans (congrArg _ h)

theorem strand?_dropFlight {s : State} {r : StrandRef} {t : Strand} (h : s.strand? r = some t) (id : Nat) :
    (s.dropFlight r id).strand? r = some (t.withoutFlight id) :=
  (strand?_modStrand_same s r (fun t => t.withoutFlight id) (by intro t; rfl)).trans (congrArg _ h)

/-- The one that takes the place of an element is found there. -/
theorem find?_replaced {α : Type} (p : α → Bool) {y : α} (hy : p y = true) {l : List α} (h : (l.find? p).isSome = true) :
    (modWhere p (fun _ => y) l).find? p = some y := by
  induction l with
  | nil => cases h
  | cons a l ih =>
    rw [modWhere, List.map_cons]
    by_cases ha : p a = true
    · rw [if_pos ha, List.find?_cons_of_pos hy]
    · rw [if_neg ha, List.find?_cons_of_neg ha]
      rw [List.find?_cons_of_neg ha] at h
      exact ih h

theorem flight?_setFlight {s : State} {r : StrandRef} {x y : InFlight} (h : s.flight? r x.id = some x) (hy : y.id = x.id) :
    (s.setFlight r y).flight? r x.id = some y := by
  obtain ⟨-, t, ht, hx⟩ := flight?_spec h
  rw [State.flight?, strand?_setFlight ht, Option.bind_some, Strand.withFlight, hy]
  exact find?_replaced (fun z : InFlight => decide (z.id = x.id)) (decide_eq_true hy) (by rw [hx]; rfl)

theorem flight?_dropFlight (s : State) (r : StrandRef) (id : Nat) : (s.dropFlight r id).flight? r id = none := by
  unfold State.flight? State.dropFlight
  rw [strand?_modStrand_same s r _ (by intro t; rfl)]
  cases s.strand? r with
  | none => rfl
  | some t => exact List.find?_eq_none.mpr fun y hy => by simpa using (List.mem_filter.mp hy).2

/-- The context of an access in flight. -/
theorem ctxOfFlight_spec {s : State} {r : StrandRef} {x : InFlight} {c : Ctx} (h : s.ctxOfFlight r x = some c) :
    c.s = s ∧ c.r = r ∧ s.strand? r = some c.t ∧ c.act = x.entry.mask ∧ c.flying = true ∧ s.grid? r.crew.grid = some c.g ∧
      ∃ k, s.crew? r.crew = some k ∧ c.core = k.core := by
  obtain ⟨d, hd, rfl⟩ := Option.map_eq_some_iff.mp h
  unfold State.ctxOfEntry at hd
  split at hd
  case h_1 g k t hg hk ht =>
    obtain rfl := Option.some.inj hd
    exact ⟨rfl, rfl, ht, rfl, rfl, hg, k, hk, rfl⟩
  case h_2 => cases hd

/-! ## Ageing, and a rejected access that is served -/

theorem accessAged_due {s : State} {r : StrandRef} {x : InFlight} {n : DWord} (h : s.flight? r x.id = some x) (hn : x.state = .rejected n)
    (ha : 64 ≤ (s.cycle - n).toNat) : exec (.accessAged r x.id) s = .next (s.setFlight r { x with state := .aged }) := by
  show execAccessAged r x.id s = _
  rw [execAccessAged, h]
  refine congrArg Host.Outcome.next (if_pos ?_)
  rw [State.ageDue, hn]
  exact decide_eq_true ha

/-- A rejected access that is accepted. -/
def State.accepted (s : State) (r : StrandRef) (x : InFlight) : InFlight :=
  { x with state := .outstanding, lines := ((s.ctxOfFlight r x).map fun c => c.missed s c.act).getD [] }

theorem acceptFlight_eq (s : State) (r : StrandRef) (x : InFlight) : s.acceptFlight r x = s.setFlight r (s.accepted r x) := by
  unfold State.acceptFlight State.accepted
  cases s.ctxOfFlight r x <;> rfl

theorem loadReturn_accepts {s : State} {r : StrandRef} {x : InFlight} (h : s.flight? r x.id = some x) (hs : s.slotFor r x = true)
    (hx : x.state = .aged ∨ ∃ n, x.state = .rejected n) : s.loadReturn r x.id = s.setFlight r (s.accepted r x) := by
  rw [← acceptFlight_eq]
  unfold State.loadReturn State.loadDue
  rw [h]
  obtain hx | ⟨n, hx⟩ := hx <;> simp [hx, hs]

/-! ## The data of a load -/

/-- An access that is outstanding, and neither a store nor made as a whole. -/
theorem loadReturn_answers {s : State} {r : StrandRef} {x : InFlight} {c : Ctx} (h : s.flight? r x.id = some x) (hc : s.ctxOfFlight r x = some c)
    (ho : x.state = .outstanding) (hs : x.isStore = false) (hw : x.isWhole = false) (hb : s.bankStops r = false) (hm : c.loadReady s ≠ 0) :
    s.loadReturn r x.id = s.answerLoad r x := by
  unfold State.loadReturn State.loadDue State.standsParked
  rw [h]
  simp only [ho, hs, hw, hb, hc, Bool.not_false, Bool.true_and, decide_eq_true hm, Bool.not_true, Bool.false_eq_true, if_false]

/-- A load all of whose lanes can be performed. -/
theorem answerLoad_all {s : State} {r : StrandRef} {x : InFlight} {c : Ctx} (hc : s.ctxOfFlight r x = some c) (hu : x.universal = false)
    (hm : c.loadReady s = c.act) (ha : c.act ≠ 0) (he : c.entriesFor s c.act (fun _ => true) = true) :
    s.answerLoad r x = ((c.performLoad s c.act).dropFlight r x.id).modStrand r fun t => t.refit x.entry.captured c.f.e.d c.f.dstWide := by
  obtain ⟨-, -, -, hmask, -⟩ := ctxOfFlight_spec hc
  unfold State.answerLoad State.serveLoad
  simp only [hc, hm, he, if_true, if_neg ha, Ctx.loadOrdered, hu, Bool.false_and, State.doneLanes, ← hmask]
  simp

theorem refit_same (t : Strand) (m : Mask) (o : Opd) (w : Bool) : ∃ fm, t.refit m o w = { t with forms := fm } := by
  unfold Strand.refit
  split
  · split
    · split <;> exact ⟨_, rfl⟩
    · exact ⟨_, rfl⟩
  · exact ⟨_, rfl⟩

/-- The strand of a load in flight whose lanes have taken their values. -/
theorem strand?_served {s t : State} {r : StrandRef} {x : InFlight} {c : Ctx} (hc : s.ctxOfFlight r x = some c) (ha : c.act ≠ 0)
    (ht : t.strand? r = some c.t) (v : Nat → DWord) :
    ∃ u, (((c.writeLoaded t (takenFor c.f.e.d c.low ((lanesOf c.act).map fun l => (l, v l)))).dropFlight r x.id).modStrand r
        fun t => t.refit x.entry.captured c.f.e.d c.f.dstWide).strand? r = some u ∧
      u.inflight = c.t.inflight.filter (fun y => y.id ≠ x.id) ∧ Strand.sameHeld c.t u ∧ Wrote c.f.e.d c.f.dstWide c.act v u ∧
      OnlyWrote c.f.e.d c.f.dstWide c.act c.t u ∧ u.fp = c.t.fp := by
  obtain ⟨-, hr, -⟩ := ctxOfFlight_spec hc
  obtain ⟨hw, ho⟩ := wrote_lanes ha c.f.e.d c.f.dstWide c.t v
  have hst : (c.writeLoaded t (takenFor c.f.e.d c.low ((lanesOf c.act).map fun l => (l, v l)))).strand? r =
      some (c.t.put (lanesWrite c.f.e.d c.f.dstWide (takenFor c.f.e.d c.low ((lanesOf c.act).map fun l => (l, v l))))) := by
    rw [writeLoaded_eq, Ctx.onStrand, hr, strand?_modStrand_same _ _ _ fun t => put_idx t _, ht]
    rfl
  obtain ⟨hfp, hin, hheld⟩ := (regsOnly_put c.t (lanesWrite c.f.e.d c.f.dstWide (takenFor c.f.e.d c.low ((lanesOf c.act).map fun l => (l, v l))))).held
  refine ⟨_, (strand?_modStrand_same _ r _ fun t => by obtain ⟨_, h⟩ := refit_same t x.entry.captured c.f.e.d c.f.dstWide; rw [h]).trans
    (congrArg (Option.map _) (strand?_dropFlight hst x.id)), ?_⟩
  obtain ⟨fm, hf⟩ := refit_same ((c.t.put (lanesWrite c.f.e.d c.f.dstWide (takenFor c.f.e.d c.low ((lanesOf c.act).map fun l => (l, v l))))).withoutFlight x.id)
    x.entry.captured c.f.e.d c.f.dstWide
  dsimp only
  rw [hf]
  exact ⟨congrArg (List.filter _) hin, hheld, hw.same ⟨rfl, rfl, rfl, rfl⟩, ho.same ⟨rfl, rfl, rfl, rfl⟩, hfp⟩

/-- The state in which a load has been served. -/
def Ctx.served (c : Ctx) (t : State) (r : StrandRef) (x : InFlight) (v : Nat → DWord) : State :=
  ((c.writeLoaded t (takenFor c.f.e.d c.low ((lanesOf c.act).map fun l => (l, v l)))).dropFlight r x.id).modStrand r
    fun t => t.refit x.entry.captured c.f.e.d c.f.dstWide

theorem memByte_served (c : Ctx) (t : State) (r : StrandRef) (x : InFlight) (v : Nat → DWord) (key : Nat) :
    (c.served t r x v).memByte key = t.memByte key := rfl

theorem core?_served (c : Ctx) (t : State) (r : StrandRef) (x : InFlight) (v : Nat → DWord) (n : Nat) : (c.served t r x v).core? n = t.core? n := rfl

/-- Every lane is translated. -/
theorem mapped_all {c : Ctx} {s : State} {a : Right} (h : ∀ l, hasLane c.act l = true → (c.keys? s a l).isSome = true) : c.mapped s a c.act = c.act := by
  refine mask_ext fun l hl => ?_
  rw [Ctx.mapped, hasLane_maskOf, decide_eq_true hl, Bool.true_and]
  by_cases hh : hasLane c.act l = true
  · rw [hh, h l hh, Bool.and_self]
  · rw [Bool.not_eq_true] at hh
    rw [hh, Bool.false_and]

theorem loadReady_all {c : Ctx} {s : State} (h : ∀ l, hasLane c.act l = true → (c.keys? s .read l).isSome = true) : c.loadReady s = c.act := by
  unfold Ctx.loadReady
  rw [mapped_all h]
  simp

/-- Nothing that is at hand needs an entry. -/
theorem entriesFor_hit {c : Ctx} {s : State} {m : Mask} (h : ∀ l, hasLane m l = true → ∀ k ∈ (c.keys? s .read l).getD [], c.lineAtHand s (k.1 / 128) = true)
    (older : Nat → Bool) : c.entriesFor s m older = true := by
  have hm : c.missedOf s (c.tlbKeys s m) = [] := by
    unfold Ctx.missedOf
    rw [List.filter_eq_nil_iff.mpr]
    · rfl
    · intro n hn
      obtain ⟨y, hy, hn⟩ := List.mem_flatMap.mp hn
      obtain ⟨l, hl, rfl⟩ := List.mem_map.mp hy
      obtain ⟨z, hz, rfl⟩ := List.mem_map.mp hn
      obtain ⟨k, hk, rfl⟩ := List.mem_map.mp (List.mem_eraseDups.mp hz)
      rw [h l (mem_lanesOf.mp hl) k hk]
      simp
  unfold Ctx.entriesFor Ctx.entriesOf State.roomForLines
  rw [hm]
  simp

/-- The data of a load whose lines are at hand. -/
theorem loadReturn_hit {s : State} {r : StrandRef} {x : InFlight} {c : Ctx} (h : s.flight? r x.id = some x) (hc : s.ctxOfFlight r x = some c)
    (ho : x.state = .outstanding) (hs : x.isStore = false) (hw : x.isWhole = false) (hu : x.universal = false) (hb : s.bankStops r = false)
    (ha : c.act ≠ 0) (hl : c.lanesIn) : ∃ t, Quietly c.core s t ∧ s.loadReturn r x.id = c.served t r x c.loaded := by
  obtain ⟨hcs, -⟩ := ctxOfFlight_spec hc
  have hk (l : Nat) (hh : hasLane c.act l = true) : (c.keys? s .read l).isSome = true := by
    obtain ⟨ks, hks, -⟩ := hl.2 l hh
    rw [← hcs, hks]
    rfl
  have hr := loadReady_all hk
  have he : c.entriesFor s c.act (fun _ => true) = true := entriesFor_hit (fun l hh k hk => by
    have := (hitKeys_of_lanesIn hl hh).1
    rw [hcs] at this
    exact this k hk) _
  obtain ⟨t, ht, hp⟩ := performLoad_hit c hl.1 s fun l hh => by
    have := hitKeys_of_lanesIn hl hh
    rw [hcs] at this
    exact this
  refine ⟨t, ht, ?_⟩
  rw [loadReturn_answers h hc ho hs hw hb (by rw [hr]; exact ha), answerLoad_all hc hu hr ha he, hp]
  subst hcs
  rfl

/-! ## A line that is brought from memory -/

/-- Only the memory side has moved from `s` to `t`, memory stands, and the core's L1 holds the line as memory does. -/
def Brought (core line : Nat) (s t : State) : Prop :=
  MemSide s t ∧ SameMem s t ∧ ∃ j l, t.core? core = some j ∧ j.l1? line = some l ∧ l.data = s.memLine line ∧ l.bad = false

theorem Brought.quietly {core line : Nat} {s t u : State} (h : Brought core line s t) (q : Quietly core t u) : Brought core line s u := by
  obtain ⟨hm, hs, j, l, hj, hl, hd, hb⟩ := h
  have hc := q.core? core
  rw [hj] at hc
  cases hu : u.core? core with
  | none => rw [hu] at hc; cases hc
  | some i =>
    rw [hu] at hc
    have hp : (i.l1? line).map (fun l => ({ l with vline := none } : L1Line)) = some { l with vline := none } := by
      rw [← l1?_plain, Option.some.inj hc, l1?_plain, hl]
      rfl
    obtain ⟨m, hml, he⟩ := Option.map_eq_some_iff.mp hp
    exact ⟨hm.trans (by rw [q.1]; exact ⟨_, _, _, _, _, _, _, _, rfl⟩), hs.trans q.sameMem, i, m, hu, hml,
      (congrArg L1Line.data he).trans hd, (congrArg L1Line.bad he).trans hb⟩

/-- A fill finds room, and nothing of the core is on its way. -/
theorem brought_fillL1 {s : State} {core line : Nat} {k : Core} (hk : s.core? core = some k) (ho : k.outbox = []) (hr : k.l1.length < s.l1Lines core)
    (hp : s.poisoned line = false) (ctx vline : Nat) (sc : Scope) (x : Xlate) : Brought core line s (s.fillL1 core line ctx vline sc x) := by
  have hd : SameMem s (s.drain core) := by
    have := sameMem_drain hk
    rw [ho] at this
    exact this
  have hm : MemSide s ((s.drain core).l2Access ctx line x) := (memSide_drain s core).trans (memSide_l2Access _ _ _ _)
  have hc : ((s.drain core).l2Access ctx line x).core? core = some { k with outbox := [] } := by
    rw [core?_of_cores (cores_l2Access _ _ _ _), core?_drain_same, hk]
    rfl
  have hroom : s.roomL1 core line ctx x = (s.drain core).l2Access ctx line x := by
    have hl : ((s.drain core).l2Access ctx line x).l1Lines core = s.l1Lines core := by
      rw [State.l1Lines, hc, State.l1Lines, hk]
      obtain ⟨_, _, _, _, _, _, _, _, h⟩ := hm
      rw [h]
      rfl
    unfold State.roomL1
    rw [hl]
    unfold State.shrinkL1
    rw [hc]
    simp only [show k.l1.length - (s.l1Lines core - 1) = 0 by omega, List.take_zero, List.map_nil, List.isEmpty_nil, if_true]
  have hs : SameMem s (s.roomL1 core line ctx x) := by
    rw [hroom]
    exact hd.trans (sameMem_l2Access _ _ _ _)
  have hcore : (s.fillL1 core line ctx vline sc x).core? core = some
      { k with outbox := [], l1 := k.l1.filter (fun l => l.line ≠ line) ++ [(s.roomL1 core line ctx x).newLine line ctx vline sc x] } := by
    rw [fillL1_eq, core?_modCore_same, hroom, hc]
    rfl
  refine ⟨memSide_fillL1 _ _ _ _ _ _ _, hs.trans (sameMem_modCore _ _ _), _, (s.roomL1 core line ctx x).newLine line ctx vline sc x, hcore, ?_,
    hs.memLine line, (hs.poisoned line).trans hp⟩
  rw [Core.l1?, List.find?_append, List.find?_eq_none.mpr fun l hl => by simpa using (List.mem_filter.mp hl).2]
  simp [State.newLine]

theorem Brought.l1Byte {core line : Nat} {s t : State} (h : Brought core line s t) {key : Nat} (hk : key / 128 = line) :
    t.l1Byte core key = (s.memByte key, false) := by
  obtain ⟨-, -, j, l, hj, hl, hd, hb⟩ := h
  rw [State.l1Byte, hj, Option.bind_some, hk, hl]
  dsimp only
  rw [hd, hb, ← hk, lineByte_memLine]

section
variable {s : State} {c : Ctx} {k : Core} {line : Nat} (hsp : c.space = .global) (hk : s.core? c.core = some k) (hn : k.l1? line = none)
  (ho : k.outbox = []) (hr : k.l1.length < s.l1Lines c.core) (hp : s.poisoned line = false)
include hsp hk hn ho hr hp

/-- The lines of keys on one line, before or after the line has been brought. -/
theorem brought_fillLines (va : List Nat) (ks : List (Nat × Xlate)) (hl : ∀ y ∈ ks, y.1 / 128 = line) {t : State} (ht : t = s ∨ Brought c.core line s t) :
    (c.fillLines t va ks = s ∨ Brought c.core line s (c.fillLines t va ks)) ∧ (va ≠ [] → ks ≠ [] → Brought c.core line s (c.fillLines t va ks)) := by
  have hsc : c.space ≠ .const := by rw [hsp]; decide
  have one (a : Nat) (y : Nat × Xlate) (hy : y.1 / 128 = line) (t : State) (ht : t = s ∨ Brought c.core line s t) :
      Brought c.core line s (c.fillLines t [a] [y]) := by
    unfold Ctx.fillLines
    simp only [List.zip_cons_cons, List.zip_nil_right, List.foldl_cons, List.foldl_nil, if_neg hsc, hy]
    obtain rfl | ht := ht
    · rw [hk, Option.bind_some, hn]
      exact brought_fillL1 hk ho hr hp _ _ _ _
    · obtain ⟨j, l, hj, hjl⟩ : ∃ j l, t.core? c.core = some j ∧ j.l1? line = some l := by obtain ⟨-, -, j, l, hj, hl, -⟩ := ht; exact ⟨j, l, hj, hl⟩
      rw [hj, Option.bind_some, hjl]
      exact ht.quietly (quietly_touchL1 _ _ _ _ _)
  induction va generalizing ks t with
  | nil => exact ⟨ht, fun h => absurd rfl h⟩
  | cons a va ih =>
    cases ks with
    | nil => exact ⟨ht, fun _ h => absurd rfl h⟩
    | cons y ks =>
      have h1 := one a y (hl y List.mem_cons_self) t ht
      have h2 : Brought c.core line s (c.fillLines t (a :: va) (y :: ks)) := by
        by_cases hz : va ≠ [] ∧ ks ≠ []
        · exact (ih ks (fun z hz => hl z (List.mem_cons_of_mem _ hz)) (.inr h1)).2 hz.1 hz.2
        · have : va.zip ks = [] := by
            rw [List.zip_eq_nil_iff]
            by_contra h
            exact hz ⟨fun h' => h (.inl h'), fun h' => h (.inr h')⟩
          unfold Ctx.fillLines at h1 ⊢
          rw [List.zip_cons_cons, this]
          exact h1
      exact ⟨.inr h2, fun _ _ => h2⟩

/-- A lane whose bytes lie in the line takes them from memory. -/
theorem brought_loadLane (l : Nat) (ks : List (Nat × Xlate)) (hl : ∀ y ∈ ks, y.1 / 128 = line) (hb : c.bytes l ≠ []) (hks : ks ≠ []) {t : State}
    (ht : t = s ∨ Brought c.core line s t) :
    ∃ u, Brought c.core line s u ∧ c.loadLane t l ks = (u, fromBytes (ks.map fun y => s.memByte y.1), false) := by
  have hf := (brought_fillLines hsp hk hn ho hr hp (c.bytes l) ks hl ht).2 hb hks
  refine ⟨_, hf, ?_⟩
  have he : (ks.map fun y => (c.fillLines t (c.bytes l) ks).l1Byte c.core y.1) = ks.map fun y => (s.memByte y.1, false) :=
    List.map_congr_left fun y hy => hf.l1Byte (hl y hy)
  rw [Ctx.loadLane, if_neg (by rw [hsp]; decide)]
  simp only [if_neg (show c.space ≠ .const by rw [hsp]; decide), he, List.map_map]
  refine Prod.ext rfl (Prod.ext rfl (List.any_eq_false.mpr fun x hx => ?_))
  obtain ⟨y, -, rfl⟩ := List.mem_map.mp hx
  exact Bool.false_ne_true

end

/-- Lanes that take their values one after the other: what each keeps, and what each brings about. -/
theorem loadLanes_brings (c : Ctx) (P Q : State → Prop) (hq : ∀ t, Q t → P t) (v : LaneKeys → Nat) (lk : List LaneKeys)
    (h : ∀ y ∈ lk, ∀ s, P s → ∃ t, Q t ∧ c.loadLane s y.1 y.2 = (t, v y, false)) {s : State} (hs : P s) :
    ∃ t, (lk ≠ [] → Q t) ∧ c.loadLanes s lk = (t, lk.map fun y => (y.1, loadPlace c.f.e.ty (v y)), 0) := by
  have key : ∀ (lk : List LaneKeys), (∀ y ∈ lk, ∀ s, P s → ∃ t, Q t ∧ c.loadLane s y.1 y.2 = (t, v y, false)) →
      ∀ (s : State) (vals : List (Nat × DWord)), P s →
      ∃ t, (lk = [] → t = s) ∧ (lk ≠ [] → Q t) ∧ lk.foldl
        (fun acc y =>
          let x := c.loadLane acc.1 y.1 y.2
          if x.2.2 then (x.1, acc.2.1, acc.2.2 ||| (1#32 <<< y.1)) else (x.1, acc.2.1 ++ [(y.1, loadPlace c.f.e.ty x.2.1)], acc.2.2))
        (s, vals, 0) = (t, vals ++ lk.map fun y => (y.1, loadPlace c.f.e.ty (v y)), 0) := by
    intro lk
    induction lk with
    | nil => exact fun _ s vals _ => ⟨s, fun _ => rfl, fun h => absurd rfl h, by rw [List.map_nil, List.append_nil]; rfl⟩
    | cons y lk ih =>
      intro h s vals hs
      obtain ⟨t, ht, he⟩ := h y List.mem_cons_self s hs
      obtain ⟨u, hu0, hu, hx⟩ := ih (fun z hz => h z (List.mem_cons_of_mem _ hz)) t (vals ++ [(y.1, loadPlace c.f.e.ty (v y))]) (hq t ht)
      refine ⟨u, fun h => (by cases h), fun _ => ?_, ?_⟩
      · by_cases hl : lk = []
        · rw [hu0 hl]
          exact ht
        · exact hu hl
      · rw [List.foldl_cons, List.map_cons]
        dsimp only
        rw [he]
        dsimp only
        rw [if_neg Bool.false_ne_true, hx, List.append_assoc]
        rfl
  obtain ⟨t, -, ht, he⟩ := key lk h s [] hs
  exact ⟨t, ht, he⟩

theorem lanesOf_ne_nil {m : Mask} (h : m ≠ 0) : lanesOf m ≠ [] := by
  intro hn
  refine h (mask_ext fun l hl => ?_)
  by_cases hh : hasLane m l = true
  · exact absurd (hn ▸ mem_lanesOf.mpr hh) List.not_mem_nil
  · rw [Bool.not_eq_true] at hh
    rw [hh]
    simp [hasLane]

theorem tySize_pos (t : Ty) : 0 < tySize t := by cases t <;> decide

theorem size_pos (c : Ctx) : 0 < c.size := by
  unfold Ctx.size
  split
  · decide
  · decide
  · decide
  · decide
  · decide
  · decide
  · decide
  · decide
  · exact tySize_pos _

theorem bytes_ne_nil (c : Ctx) (l : Nat) : c.bytes l ≠ [] := by
  have h : (c.bytes l).length = c.size := by
    unfold Ctx.bytes
    dsimp only
    split <;> simp [span]
  intro hn
  rw [hn] at h
  exact absurd h.symm (size_pos c).ne'

theorem mapM_ne_nil {α β : Type} {f : α → Option β} {l : List α} (hl : l ≠ []) {k : List β} (h : l.mapM f = some k) : k ≠ [] := by
  cases l with
  | nil => exact absurd rfl hl
  | cons a l =>
    rw [List.mapM_cons] at h
    obtain ⟨b, -, h⟩ := Option.bind_eq_some_iff.mp h
    obtain ⟨r, -, h⟩ := Option.bind_eq_some_iff.mp h
    cases h
    exact List.cons_ne_nil _ _

/-- The data of a load whose lanes all read one line that L1 does not hold: it is brought from memory. -/
theorem loadReturn_miss {s : State} {r : StrandRef} {x : InFlight} {c : Ctx} {k : Core} {line : Nat} (h : s.flight? r x.id = some x)
    (hc : s.ctxOfFlight r x = some c) (hx : x.state = .outstanding) (hs : x.isStore = false) (hw : x.isWhole = false) (hu : x.universal = false)
    (hb : s.bankStops r = false) (hsp : c.space = .global) (ha : c.act ≠ 0)
    (hl : ∀ l, hasLane c.act l = true → ∃ ks, c.keys? s .read l = some ks ∧ ∀ y ∈ ks, y.1 / 128 = line)
    (hk : s.core? c.core = some k) (hn : k.l1? line = none) (ho : k.outbox = []) (hr : k.l1.length < s.l1Lines c.core) (hp : s.poisoned line = false)
    (he : c.entriesFor s (c.loadReady s) (fun _ => true) = true) :
    ∃ t, Brought c.core line s t ∧ s.loadReturn r x.id =
      c.served t r x fun l => loadPlace c.f.e.ty (fromBytes (((c.keys? s .read l).getD []).map fun y => s.memByte y.1)) := by
  have hready : c.loadReady s = c.act := loadReady_all fun l hh => by
    obtain ⟨ks, hks, -⟩ := hl l hh
    rw [hks]
    rfl
  obtain ⟨t, ht, hlanes⟩ := loadLanes_brings c (fun t => t = s ∨ Brought c.core line s t) (Brought c.core line s) (fun _ h => .inr h)
    (fun y => fromBytes (y.2.map fun z => s.memByte z.1)) (c.tlbKeys s c.act) (fun y hy t ht => by
      obtain ⟨l, hll, rfl⟩ := List.mem_map.mp hy
      obtain ⟨ks, hks, hline⟩ := hl l (mem_lanesOf.mp hll)
      dsimp only
      rw [hks]
      exact brought_loadLane hsp hk hn ho hr hp l ks hline (bytes_ne_nil c l) (mapM_ne_nil (bytes_ne_nil c l) hks) ht) (.inl rfl)
  refine ⟨t, ht ?_, ?_⟩
  · rw [Ctx.tlbKeys]
    exact fun h => lanesOf_ne_nil ha (List.map_eq_nil_iff.mp h)
  · rw [loadReturn_answers h hc hx hs hw hb (by rw [hready]; exact ha), answerLoad_all hc hu hready ha (by rw [← hready]; exact he), Ctx.performLoad,
      Ctx.performKeys, lowest_tlbKeys, hlanes, Ctx.tlbKeys, List.map_map]
    rfl

/-! ## A store in flight, and the walk of a page -/

/-- The context of an access whose record in flight has changed. -/
def Ctx.reflown (c : Ctx) (s : State) (y : InFlight) (ts : List Strand) : Ctx :=
  { c with s := s, t := c.t.withFlight y, c := { c.c with strands := ts } }

theorem ctxOfFlight_setFlight {s : State} {r : StrandRef} {x y : InFlight} {c : Ctx} (hc : s.ctxOfFlight r x = some c) (he : y.entry = x.entry)
    (hp : y.phase = x.phase) (hh : y.handler = x.handler) :
    ∃ ts, (s.setFlight r y).ctxOfFlight r y = some (c.reflown (s.setFlight r y) y ts) := by
  obtain ⟨d, hd, rfl⟩ := Option.map_eq_some_iff.mp hc
  unfold State.ctxOfEntry at hd
  split at hd
  case h_2 => cases hd
  case h_1 g k t hg hk ht =>
    obtain rfl := Option.some.inj hd
    refine ⟨(k.modStrand r.strand fun t => t.withFlight y).strands, ?_⟩
    have hk' : (s.setFlight r y).crew? r.crew = some (k.modStrand r.strand fun t => t.withFlight y) :=
      (crew?_modStrand_same s r fun t => t.withFlight y).trans (congrArg _ hk)
    have hg' : (s.setFlight r y).grid? r.crew.grid = some g := hg
    rw [State.ctxOfFlight, State.ctxOfEntry, hg', hk', strand?_setFlight ht, he, hp, hh]
    rfl

/-- A strand but for what it has in flight. -/
def Strand.still (t : Strand) : Strand := { t with inflight := [] }

section
variable {s t : State} (hs : ∀ q, (t.strand? q).map Strand.still = (s.strand? q).map Strand.still)
include hs

theorem genOf_still (g : Grid) (i h : Nat) : t.genOf g i h = s.genOf g i h := by
  have e (u : State) : u.genOf g i h = ((u.strandOfItem? g i).map Strand.still).elim 0 fun t => (SMap.look 0 t.gen (32 * h + i % 32)).toNat := by
    rw [State.genOf]
    cases u.strandOfItem? g i <;> rfl
  rw [e, e, State.strandOfItem?, hs]
  rfl

theorem itemSealed_still (g : Grid) (i h : Nat) : t.itemSealed g i h = s.itemSealed g i h := by
  have e (u : State) : u.itemSealed g i h = (decide (g.mode h ≠ 0) &&
      ((u.strandOfItem? g i).map Strand.still).elim false fun t => hasLane (t.ended ||| SMap.look 0 t.sealedBy h) (i % 32)) := by
    rw [State.itemSealed]
    cases u.strandOfItem? g i <;> rfl
  rw [e, e, State.strandOfItem?, hs]
  rfl

theorem lastValue_still (g : Grid) (r i h n : Nat) : t.lastValue g r i h n = s.lastValue g r i h n := by
  rw [State.lastValue, itemSealed_still hs]
  rfl

theorem finalFor_still (g : Grid) (r h : Nat) (n : Nat) (j : Int) : t.finalFor g r h n j = s.finalFor g r h n j := by
  induction n generalizing j with
  | zero => rfl
  | succ n ih => simp only [State.finalFor, genOf_still hs, lastValue_still hs, ih]

theorem handOff_still (g : Grid) (i h k : Nat) : t.handOff g i h k = s.handOff g i h k := by
  have from_still (k n : Nat) (j : Int) : t.handOffFrom g i h k n j = s.handOffFrom g i h k n j := by
    induction n generalizing j with
    | zero => rfl
    | succ n ih => simp only [State.handOffFrom, genOf_still hs, itemSealed_still hs, finalFor_still hs, ih]
  rw [State.handOff, genOf_still hs, from_still]
  rfl

end

theorem still_setFlight (s : State) (r q : StrandRef) (y : InFlight) :
    ((s.setFlight r y).strand? q).map Strand.still = (s.strand? q).map Strand.still := by
  by_cases h : q = r
  · subst h
    rw [State.setFlight, strand?_modStrand_same _ _ _ (by intro t; rfl), Option.map_map]
    rfl
  · rw [State.setFlight, strand?_modStrand_other _ _ _ _ (by intro t; rfl) h]

section
variable {c : Ctx} {s : State} (h : ∀ q, (s.strand? q).map Strand.still = (c.s.strand? q).map Strand.still) (y : InFlight) (ts : List Strand)
include h

theorem handOff_reflown (o : Opd) (l : Nat) : (c.reflown s y ts).handOff o l = c.handOff o l := by
  cases o with
  | h n d => exact handOff_still h _ _ _ _
  | _ => rfl

theorem get_reflown (p : Pos) (l : Nat) : (c.reflown s y ts).get p l = c.get p l := by
  unfold Ctx.get
  simp only [handOff_reflown h]
  rfl

theorem stored_reflown (l : Nat) : (c.reflown s y ts).stored l = c.stored l := by
  unfold Ctx.stored Ctx.cc
  rw [get_reflown h, get_reflown h]
  rfl

end

theorem ea_flying {c : Ctx} (hf : c.flying = true) {e : ReplayEntry} (hr : c.iss.replay = some e) (l : Nat) : c.ea l = (SMap.look 0 e.ea l).toNat := by
  unfold Ctx.ea
  rw [hf, hr]
  rfl

theorem space_reflown (c : Ctx) (s : State) (y : InFlight) (ts : List Strand) : (c.reflown s y ts).space = c.space := rfl

section
variable {c : Ctx} (hf : c.flying = true) {e : ReplayEntry} (hr : c.iss.replay = some e) (s : State) (y : InFlight) (ts : List Strand)
include hf hr

theorem bytes_reflown (l : Nat) : (c.reflown s y ts).bytes l = c.bytes l := by
  have he : (c.reflown s y ts).ea l = c.ea l := (ea_flying (c := c.reflown s y ts) hf hr l).trans (ea_flying hf hr l).symm
  unfold Ctx.bytes
  rw [he, space_reflown]
  rfl

theorem keys?_reflown (t : State) (a : Right) (l : Nat) : (c.reflown s y ts).keys? t a l = c.keys? t a l := by
  unfold Ctx.keys?
  rw [bytes_reflown hf hr]
  rfl

theorem mapped_reflown (t : State) (a : Right) (m : Mask) : (c.reflown s y ts).mapped t a m = c.mapped t a m := by
  unfold Ctx.mapped
  simp only [keys?_reflown hf hr]

theorem storeLane_reflown (h : ∀ q, (s.strand? q).map Strand.still = (c.s.strand? q).map Strand.still) (hsp : c.space ≠ .localStore) (t : State) (l : Nat) :
    (c.reflown s y ts).storeLane t l = c.storeLane t l := by
  unfold Ctx.storeLane
  simp only [stored_reflown h, keys?_reflown hf hr, bytes_reflown hf hr, space_reflown, if_neg hsp]
  rfl

theorem performStore_reflown (h : ∀ q, (s.strand? q).map Strand.still = (c.s.strand? q).map Strand.still) (hsp : c.space ≠ .localStore) (t : State) (m : Mask) :
    (c.reflown s y ts).performStore t m = c.performStore t m := by
  unfold Ctx.performStore
  exact congrArg (fun f => (lanesOf m).foldl f t) (funext fun t => funext fun l => storeLane_reflown hf hr s y ts h hsp t l)

end

/-! ## Stores into lines of L1 -/

/-- From `s` to `t` bytes have been stored in lines that L1 of a core holds; the TLBs stand. -/
def CoreStores (core : Nat) (s t : State) (l : List (Nat × Byte)) : Prop :=
  StoredIn core s t l ∧ MemSide s t ∧ t.dies = s.dies ∧ (t.core? core).map Core.tlb = (s.core? core).map Core.tlb

theorem CoreStores.refl (core : Nat) (s : State) : CoreStores core s s [] := ⟨.refl core s, .refl s, rfl, rfl⟩

theorem CoreStores.append {core : Nat} {s t u : State} {a b : List (Nat × Byte)} (h : CoreStores core s t a) (k : CoreStores core t u b) : CoreStores core s u (a ++ b) :=
  ⟨h.1.append k.1, h.2.1.trans k.2.1, k.2.2.1.trans h.2.2.1, k.2.2.2.trans h.2.2.2⟩

theorem stores_storeL1 {s : State} {core key : Nat} (h : ((s.core? core).bind fun k => k.l1? (key / 128)).isSome = true) (slot ctx vline : Nat) (x : Xlate)
    (b : Byte) : CoreStores core s (s.storeL1 core slot (key / 128) ctx vline x [(key % 128, b)]) [(key, b)] := by
  refine ⟨storedIn_storeL1 h slot ctx vline x b, memSide_storeL1 _ _ _ _ _ _ _ _, ?_, ?_⟩
  all_goals
    obtain ⟨l, hl⟩ := Option.isSome_iff_exists.mp h
    rw [State.storeL1, hl]
  · exact (onlyMem_noteWrite s _).dies
  · rw [core?_modCore_same, (onlyMem_noteWrite s _).core?, Option.map_map]
    rfl

theorem CoreStores.notePkg {core : Nat} {s t : State} {l : List (Nat × Byte)} (h : CoreStores core s t l) (w : PkgWrite) : CoreStores core s (t.notePkg w) l := by
  refine ⟨h.1.notePkg w, h.2.1.trans (memSide_notePkg t w), ?_, ?_⟩ <;> unfold State.notePkg <;> split
  · exact h.2.2.1
  · exact h.2.2.1
  · exact h.2.2.2
  · exact h.2.2.2

/-- Lines that L1 holds. -/
def LinesIn (core : Nat) (s : State) (ks : List (Nat × Xlate)) : Prop := ∀ k ∈ ks, ((s.core? core).bind fun d => d.l1? (k.1 / 128)).isSome = true

theorem CoreStores.linesIn {core : Nat} {s t : State} {l : List (Nat × Byte)} (h : CoreStores core s t l) {ks : List (Nat × Xlate)} (hk : LinesIn core s ks) :
    LinesIn core t ks := fun k hm => (h.1.2.2 _).trans (hk k hm)

theorem stores_storeKeys (c : Ctx) (va : List Nat) (ks : List (Nat × Xlate)) (bs : List Byte) (hlen : va.length = ks.length) (s : State)
    (h : LinesIn c.core s ks) : CoreStores c.core s (c.storeKeys s va ks bs) ((ks.map (·.1)).zip bs) := by
  induction va generalizing ks bs s with
  | nil =>
    obtain rfl := List.eq_nil_of_length_eq_zero hlen.symm
    exact .refl _ _
  | cons a va ih =>
    cases ks with
    | nil => cases hlen
    | cons k ks =>
      cases bs with
      | nil => exact .refl _ _
      | cons b bs =>
        have h1 : CoreStores c.core s (c.storeKeys s [a] [k] [b]) [(k.1, b)] := by
          unfold Ctx.storeKeys
          simp only [List.zip_cons_cons, List.zip_nil_right, List.foldl_cons, List.foldl_nil]
          have hs := stores_storeL1 (h k List.mem_cons_self) c.c.slot c.ctx (a / 128) k.2 b
          split
          · exact hs.notePkg _
          · exact hs
        exact h1.append (ih ks bs (Nat.succ.inj hlen) _ (h1.linesIn fun z hz => h z (List.mem_cons_of_mem _ hz)))

theorem length_mapM {α β : Type} {f : α → Option β} {l : List α} {k : List β} (h : l.mapM f = some k) : l.length = k.length := by
  induction l generalizing k with
  | nil =>
    rw [List.mapM_nil] at h
    cases h
    rfl
  | cons a l ih =>
    rw [List.mapM_cons] at h
    obtain ⟨b, -, h⟩ := Option.bind_eq_some_iff.mp h
    obtain ⟨r, hr, h⟩ := Option.bind_eq_some_iff.mp h
    cases h
    exact congrArg Nat.succ (ih hr)

/-- Lanes of a store beyond the local store, whose lines are in L1. -/
theorem stores_lanes {c : Ctx} (hsp : c.space ≠ .localStore) (ls : List Nat) (s : State)
    (hk : ∀ l ∈ ls, ∃ ks, c.keys? c.s .write l = some ks ∧ LinesIn c.core s ks) (hd : s.dies = c.s.dies)
    (ht : (s.core? c.core).map Core.tlb = (c.s.core? c.core).map Core.tlb) : CoreStores c.core s (ls.foldl c.storeLane s) (ls.flatMap c.laneStores) := by
  induction ls generalizing s with
  | nil => exact .refl _ _
  | cons l ls ih =>
    obtain ⟨ks, hks, hin⟩ := hk l List.mem_cons_self
    have h1 : CoreStores c.core s (c.storeLane s l) (c.laneStores l) := by
      unfold Ctx.storeLane Ctx.laneStores
      rw [if_neg hsp, if_neg hsp, keys?_congr c ht hd, hks]
      exact stores_storeKeys c _ ks _ (length_mapM hks) s hin
    refine h1.append (ih _ (fun z hz => ?_) (h1.2.2.1.trans hd) (h1.2.2.2.trans ht))
    obtain ⟨kz, hkz, hinz⟩ := hk z (List.mem_cons_of_mem _ hz)
    exact ⟨kz, hkz, h1.linesIn hinz⟩

/-! ## Pages that are walked -/

/-- Addresses that the TLBs hold change nothing. -/
theorem keysOf_hit {s : State} {core ctx : Nat} {a : Right} {l : List Nat} (h : ∀ va ∈ l, (s.tlbLook core ctx va a).isSome = true) :
    (s.keysOf core ctx a l).1 = s := by
  induction l with
  | nil => rfl
  | cons va l ih =>
    obtain ⟨e, he⟩ := Option.isSome_iff_exists.mp (h va List.mem_cons_self)
    have ht : s.translate core ctx va a = (s, .inl e) := by rw [State.translate, he]
    unfold State.keysOf
    rw [ht]
    dsimp only
    split <;> exact ih fun z hz => h z (List.mem_cons_of_mem _ hz)

theorem looks_of_mapM {α β : Type} {f : α → Option β} {l : List α} (h : (l.mapM f).isSome = true) : ∀ a ∈ l, (f a).isSome = true := by
  induction l with
  | nil => intro a ha; cases ha
  | cons b l ih =>
    obtain ⟨k, hk⟩ := Option.isSome_iff_exists.mp h
    rw [List.mapM_cons] at hk
    obtain ⟨x, hx, hk⟩ := Option.bind_eq_some_iff.mp hk
    obtain ⟨r, hr, -⟩ := Option.bind_eq_some_iff.mp hk
    intro a ha
    obtain rfl | ha := List.mem_cons.mp ha
    · rw [hx]; rfl
    · exact ih (by rw [hr]; rfl) a ha

theorem mapM_of_looks {α β : Type} {f : α → Option β} {l : List α} (h : ∀ a ∈ l, (f a).isSome = true) : (l.mapM f).isSome = true := by
  induction l with
  | nil => rfl
  | cons b l ih =>
    obtain ⟨x, hx⟩ := Option.isSome_iff_exists.mp (h b List.mem_cons_self)
    obtain ⟨r, hr⟩ := Option.isSome_iff_exists.mp (ih fun a ha => h a (List.mem_cons_of_mem _ ha))
    rw [List.mapM_cons, hx, hr]
    rfl

/-- A lane is translated just where the TLBs hold every byte of it. -/
theorem keys?_isSome {c : Ctx} {s : State} {a : Right} {l : Nat} :
    (c.keys? s a l).isSome = true ↔ ∀ va ∈ c.bytes l, (s.tlbLook c.core c.ctx va a).isSome = true := by
  unfold Ctx.keys?
  refine ⟨fun h va hva => ?_, fun h => mapM_of_looks fun va hva => ?_⟩
  · have := looks_of_mapM h va hva
    rwa [Option.isSome_map] at this
  · rw [Option.isSome_map]
    exact h va hva

theorem keys?_of_mapped {c : Ctx} {s : State} {a : Right} {m : Mask} {l : Nat} (h : c.mapped s a m = m) (hl : hasLane m l = true) :
    (c.keys? s a l).isSome = true := by
  have h32 : l < 32 := by
    by_contra hn
    have : hasLane m l = false := BitVec.getLsbD_of_ge _ _ (Nat.not_lt.mp hn)
    rw [this] at hl
    cases hl
  have : hasLane (c.mapped s a m) l = true := by rw [h]; exact hl
  rw [Ctx.mapped, hasLane_maskOf, decide_eq_true h32, Bool.true_and, hl, Bool.true_and] at this
  exact this

/-- The state once every page of an access has been walked. -/
def Ctx.walked (c : Ctx) (s : State) (a : Right) : State := (lanesOf c.act).foldl (fun s l => (s.keysOf c.core c.ctx a (c.bytes l)).1) s

theorem walked_hit {c : Ctx} {s : State} {a : Right} (h : ∀ l, hasLane c.act l = true → (c.keys? s a l).isSome = true) : c.walked s a = s := by
  have key (ls : List Nat) (hl : ∀ l ∈ ls, hasLane c.act l = true) : ls.foldl (fun s l => (s.keysOf c.core c.ctx a (c.bytes l)).1) s = s := by
    induction ls with
    | nil => rfl
    | cons l ls ih =>
      rw [List.foldl_cons, keysOf_hit (keys?_isSome.mp (h l (hl l List.mem_cons_self)))]
      exact ih fun z hz => hl z (List.mem_cons_of_mem _ hz)
  exact key _ fun l hl => mem_lanesOf.mp hl

theorem withFlight_withoutFlight (t : Strand) (y : InFlight) : (t.withFlight y).withoutFlight y.id = t.withoutFlight y.id := by
  unfold Strand.withFlight Strand.withoutFlight
  have : (modWhere (fun z : InFlight => z.id = y.id) (fun _ => y) t.inflight).filter (fun z => z.id ≠ y.id) = t.inflight.filter fun z => z.id ≠ y.id := by
    induction t.inflight with
    | nil => rfl
    | cons a l ih =>
      rw [modWhere, List.map_cons] at *
      by_cases ha : a.id = y.id
      · rw [if_pos (decide_eq_true ha), List.filter_cons_of_neg (by simp), List.filter_cons_of_neg (by simpa using ha)]
        exact ih
      · rw [if_neg (by simpa using ha), List.filter_cons_of_pos (by simpa using ha), List.filter_cons_of_pos (by simpa using ha), ih]
  rw [this]

theorem walkFlight_plain {s : State} {r : StrandRef} {x : InFlight} {c : Ctx} (h : s.flight? r x.id = some x) (hc : s.ctxOfFlight r x = some c)
    (hd : s.walkDue r x = true) (hw : x.isWhole = false) : s.walkFlight r x.id = s.walkPlain r x c := by
  unfold State.walkFlight
  rw [h]
  simp only [hd, hc, hw, Bool.not_true, Bool.false_eq_true, if_false]

/-- A store whose pages are walked stands outstanding, and its translated lanes are performed. -/
theorem walkPlain_store {s : State} {r : StrandRef} {x : InFlight} {c : Ctx} (hs : x.isStore = true) :
    s.walkPlain r x c =
      let y : InFlight := { x with state := .outstanding, lines := [] }
      let t := ((c.walked s x.right).setFlight r y).serveStore r y
      match t.flight? r x.id with
      | none => t
      | some z => match t.ctxOfFlight r z with | none => t | some d => t.parkFlight r z d := by
  unfold State.walkPlain
  rw [hs]
  rfl

theorem right_store {x : InFlight} (hs : x.isStore = true) : x.right = .write := by
  unfold InFlight.right
  rw [hs]
  rfl

/-- A store in flight all of whose lines are in L1. -/
theorem walkPlain_performs {s : State} {r : StrandRef} {x : InFlight} {c : Ctx} (hc : s.ctxOfFlight r x = some c)
    (hs : x.isStore = true) (hu : x.universal = false) (he : c.c.state ≠ .ended) (hsp : c.space ≠ .localStore) (hm : c.mapped s .write c.act = c.act)
    (hl : c.storeLinesIn) :
    ∃ t, CoreStores c.core (s.setFlight r { x with state := .outstanding, lines := [] }) t (c.storesOf c.act) ∧ s.walkPlain r x c = t.dropFlight r x.id := by
  obtain ⟨hcs, hr, ht, hmask, hfly, -⟩ := ctxOfFlight_spec hc
  have hrep : c.iss.replay = some x.entry := by
    obtain ⟨d, hd, rfl⟩ := Option.map_eq_some_iff.mp hc
    unfold State.ctxOfEntry at hd
    split at hd
    · obtain rfl := Option.some.inj hd
      rfl
    · cases hd
  obtain ⟨ts, hts⟩ := ctxOfFlight_setFlight (y := { x with state := .outstanding, lines := [] }) hc rfl rfl rfl
  have hk (l : Nat) (hll : hasLane c.act l = true) := keys?_of_mapped hm hll
  have hst := stores_lanes hsp (lanesOf c.act) (s.setFlight r { x with state := .outstanding, lines := [] })
    (fun l hll => by
      obtain ⟨ks, hks⟩ := Option.isSome_iff_exists.mp (hk l (mem_lanesOf.mp hll))
      rw [← hcs] at hks
      refine ⟨ks, hks, fun k hkk => ?_⟩
      have := hl hsp l (mem_lanesOf.mp hll) ks hks k hkk
      rw [hcs] at this
      exact this) (by rw [hcs]; rfl) (by rw [hcs]; rfl)
  refine ⟨_, hst, ?_⟩
  have hserve : (s.setFlight r { x with state := .outstanding, lines := [] }).serveStore r { x with state := .outstanding, lines := [] } =
      (c.performStore (s.setFlight r { x with state := .outstanding, lines := [] }) c.act).dropFlight r x.id := by
    have hm1 : (c.reflown (s.setFlight r { x with state := .outstanding, lines := [] }) { x with state := .outstanding, lines := [] } ts).mapped
        (s.setFlight r { x with state := .outstanding, lines := [] }) .write c.act = c.act := by
      rw [mapped_reflown hfly hrep]
      exact mapped_all fun l hll => hk l hll
    unfold State.serveStore
    rw [hts]
    dsimp only
    rw [show (c.reflown (s.setFlight r { x with state := .outstanding, lines := [] }) { x with state := .outstanding, lines := [] } ts).act = c.act from rfl,
      hm1, Ctx.storeOrdered]
    simp only [hu, Bool.false_and, Bool.false_eq_true, if_false]
    rw [performStore_reflown hfly hrep _ _ ts (fun q => by rw [hcs]; exact still_setFlight s r q _) hsp]
    refine (if_neg he).trans ?_
    unfold State.doneLanes
    rw [hmask]
    simp
  rw [walkPlain_store hs, right_store hs, walked_hit hk]
  dsimp only
  rw [hserve, flight?_dropFlight] <;> rfl

end Sys2Proof.Machine
end

