-- ==== Sys2Proof/Proofs/Walks.lean ====
section
/-! SUPPORT. The walk of a page that an access in flight waits for: the translation comes, or the access parks on a fault (R283, R285). -/
namespace Sys2Proof.Machine

/-! ## Addresses of one page -/

theorem tlbFind_page {l : List TlbEntry} {ctx a b : Nat} (h : pageOf a = pageOf b) (r : Right) : tlbFind l ctx a r = tlbFind l ctx b r := by
  unfold tlbFind TlbEntry.covers
  rw [h]

theorem tlbLook_page (s : State) (core ctx : Nat) {a b : Nat} (h : pageOf a = pageOf b) (r : Right) : s.tlbLook core ctx a r = s.tlbLook core ctx b r := by
  unfold State.tlbLook
  simp only [tlbFind_page h]

theorem walk_page (s : State) (ctx : Nat) {a b : Nat} (h : pageOf a = pageOf b) (r : Right) : s.walk ctx a r = s.walk ctx b r := by
  have h57 : (2 ^ 57 ≤ a) ↔ 2 ^ 57 ≤ b := by
    unfold pageOf at h
    omega
  unfold State.walk State.walkLost
  simp only [h, h57]

/-- An entry taken into the TLBs translates every address of its page. -/
theorem tlbLook_fill {s : State} {core : Nat} (hk : (s.core? core).isSome = true) (ctx : Nat) {va a : Nat} (h : pageOf a = pageOf va) {e : Xlate} {r : Right}
    (hg : grants e r = true) : (s.tlbFill core ctx va e).tlbLook core ctx a r = some e := by
  obtain ⟨k, hk⟩ := Option.isSome_iff_exists.mp hk
  have hp : 0 < e.pages := by unfold Xlate.pages; split <;> decide
  have hcov : (({ ctx := ctx, page := e.first va, x := e } : TlbEntry).covers ctx a && grants e r) = true := by
    unfold TlbEntry.covers Xlate.first
    rw [h, hg, show pageOf va = va / 65536 from rfl]
    have h1 := Nat.div_mul_le_self (va / 65536) e.pages
    have h2 := Nat.lt_div_mul_add (a := va / 65536) hp
    simp only [decide_true, Bool.true_and, Bool.and_true, Bool.and_eq_true, decide_eq_true_eq]
    omega
  have hc : ((s.tlbFill core ctx va e).core? core) = some
      { k with tlb := ({ ctx := ctx, page := e.first va, x := e } :: k.tlb.filter fun e => !(e.covers ctx va)).take 256 } := by
    unfold State.tlbFill
    exact (core?_modCore_same s core _).trans (congrArg _ hk)
  have hf : tlbFind (({ ctx := ctx, page := e.first va, x := e } :: k.tlb.filter fun e => !(e.covers ctx va)).take 256) ctx a r = some e := by
    rw [tlbFind, List.take_succ_cons]
    exact congrArg (Option.map _) (List.find?_cons_of_pos (p := fun e : TlbEntry => e.covers ctx a && grants e.x r) hcov)
  rw [State.tlbLook, hc, Option.bind_some, hf]

theorem grants_of_walk {s : State} {ctx va : Nat} {r : Right} {e : Xlate} (h : s.walk ctx va r = .inl e) : grants e r = true := by
  unfold State.walk at h
  split at h
  · cases h
  · split at h
    · cases h
    · split at h
      · cases h
      · split at h
        · cases h
        · rename_i hg
          split at h
          · cases h
            simpa using hg
          · cases h

/-! ## The walk succeeds -/

/-- The lanes of a mask, the lowest first. -/
theorem lanesOf_low {m : Mask} (h : m ≠ 0) : ∃ ls, lanesOf m = lowest m :: ls := by
  obtain ⟨l, ls, hl⟩ := List.exists_cons_of_ne_nil (lanesOf_ne_nil h)
  refine ⟨ls, ?_⟩
  rw [lowest, lowest?, hl]
  rfl

/-- The first byte of the lowest lane is walked, and every other finds its page. -/
theorem walked_fill {s : State} {c : Ctx} {va : Nat} {r : Right} {e : Xlate} (hh : (c.bytes c.low).head? = some va)
    (hp : ∀ l, hasLane c.act l = true → ∀ a ∈ c.bytes l, pageOf a = pageOf va) (ha : c.act ≠ 0) (hl : s.tlbLook c.core c.ctx va r = none)
    (hk : (s.core? c.core).isSome = true) (hw : s.walk c.ctx va r = .inl e) : c.walked s r = s.tlbFill c.core c.ctx va e := by
  have hit (l : Nat) (hlane : hasLane c.act l = true) (as : List Nat) (has : ∀ a ∈ as, a ∈ c.bytes l) :
      ((s.tlbFill c.core c.ctx va e).keysOf c.core c.ctx r as).1 = s.tlbFill c.core c.ctx va e :=
    keysOf_hit fun a hm => by rw [tlbLook_fill hk c.ctx (hp l hlane a (has a hm)) (grants_of_walk hw)]; rfl
  obtain ⟨ls, hls⟩ : ∃ ls, lanesOf c.act = c.low :: ls := lanesOf_low ha
  have hmem (l : Nat) (h : l ∈ c.low :: ls) : hasLane c.act l = true := mem_lanesOf.mp (by rw [hls]; exact h)
  obtain ⟨as, has⟩ : ∃ as, c.bytes c.low = va :: as := by
    cases hb : c.bytes c.low with
    | nil => rw [hb] at hh; cases hh
    | cons a as => rw [hb] at hh; cases hh; exact ⟨as, rfl⟩
  have hfirst : (s.keysOf c.core c.ctx r (c.bytes c.low)).1 = s.tlbFill c.core c.ctx va e := by
    have ht : s.translate c.core c.ctx va r = (s.tlbFill c.core c.ctx va e, .inl e) := by rw [State.translate, hl, hw]
    rw [has]
    unfold State.keysOf
    rw [ht]
    dsimp only
    have := hit c.low (hmem _ List.mem_cons_self) as fun a hm => by rw [has]; exact List.mem_cons_of_mem _ hm
    split <;> exact this
  have rest (l : List Nat) (hl : ∀ z ∈ l, z ∈ ls) :
      l.foldl (fun s l => (s.keysOf c.core c.ctx r (c.bytes l)).1) (s.tlbFill c.core c.ctx va e) = s.tlbFill c.core c.ctx va e := by
    induction l with
    | nil => rfl
    | cons z l ih =>
      rw [List.foldl_cons, hit z (hmem z (List.mem_cons_of_mem _ (hl z List.mem_cons_self))) _ fun _ h => h]
      exact ih fun y hy => hl y (List.mem_cons_of_mem _ hy)
  rw [Ctx.walked, hls, List.foldl_cons, hfirst]
  exact rest ls fun _ h => h

theorem right_load {x : InFlight} (hs : x.isStore = false) (hw : x.isWhole = false) : x.right = .read := by
  have h78 : x.op ≠ 0x78 := fun h => by rw [InFlight.isWhole, h] at hw; cases hw
  have h83 : x.op ≠ 0x83 := fun h => by rw [InFlight.isWhole, h] at hw; cases hw
  unfold InFlight.right
  rw [hs, hw, decide_eq_false h78, decide_eq_false h83]
  rfl

/-- A load whose page has come stands outstanding, or is rejected. -/
theorem walkPlain_load {s : State} {r : StrandRef} {x : InFlight} {c : Ctx} (hs : x.isStore = false)
    (hm : c.mapped (c.walked s x.right) x.right c.act = c.act) :
    ∃ y : InFlight, s.walkPlain r x c = (c.walked s x.right).setFlight r y ∧ y.id = x.id ∧ y.entry = x.entry ∧
      (y.state = .outstanding ∨ y.state = .rejected s.cycle) := by
  have hcyc : (c.walked s x.right).cycle = s.cycle :=
    (memSide_foldl (fun s l => (s.keysOf c.core c.ctx x.right (c.bytes l)).1) (fun s l => memSide_keysOf (c.bytes l) s _ _ _) (lanesOf c.act) s).cycle
  unfold State.walkPlain
  rw [hs]
  simp only [Bool.not_false, Bool.true_and, Bool.false_eq_true, if_false]
  by_cases he : c.entriesFor (c.walked s x.right) (c.loadReady (c.walked s x.right)) (fun _ => true) = true
  · refine ⟨{ x with state := .outstanding, lines := c.missed (c.walked s x.right) (c.loadReady (c.walked s x.right)) }, ?_, rfl, rfl, .inl rfl⟩
    rw [show (lanesOf c.act).foldl (fun s l => (s.keysOf c.core c.ctx x.right (c.bytes l)).1) s = c.walked s x.right from rfl, he]
    exact (if_neg Bool.false_ne_true).trans (if_pos (decide_eq_true hm))
  · refine ⟨{ x with state := .rejected s.cycle }, ?_, rfl, rfl, .inr rfl⟩
    rw [show (lanesOf c.act).foldl (fun s l => (s.keysOf c.core c.ctx x.right (c.bytes l)).1) s = c.walked s x.right from rfl,
      Bool.eq_false_iff.mpr he]
    rfl

/-! ## The walk fails -/

/-- A fault record stands, perhaps as written. -/
def Posted (s : State) (f : Fault32) : Prop := ∃ g ∈ s.faults, g = { f with written := g.written }

theorem posted_writeFaults {f : Fault32} (part : Nat) (frptr : Word) (fuel : Nat) {s : State} (h : Posted s f) : Posted (s.writeFaults part frptr fuel) f := by
  induction fuel generalizing s with
  | zero => exact h
  | succ fuel ih =>
    unfold State.writeFaults
    split
    · split
      · exact h
      · rename_i q g _ _ _
        refine ih ?_
        have hfs : ((s.writeMem (q.fring.toNat + 32 * (q.fwptr.toNat % 2 ^ q.flog)) (faultBytes g)).writeNat (q.entry.toNat + 0x70) 4 (q.fwptr + 1).toNat).faults = s.faults :=
          ((memSide_writeMem _ _ _).trans (memSide_writeNat _ _ _ _)).faults
        obtain ⟨z, hz, he⟩ := h
        refine ⟨_, List.mem_map.mpr ⟨z, by rw [hfs]; exact hz, rfl⟩, ?_⟩
        split
        · rw [he]
        · exact he
    · exact h

theorem posted_meet {s : State} {f : Fault32} (h : Posted s f) (e : ErrorSite) : Posted (s.meet e) f := by
  unfold State.meet
  split <;> exact h

theorem posted_pollFaults {s : State} {f : Fault32} (h : Posted s f) (hk : f.kind = false) (part : Nat) : Posted (s.pollFaults part) f := by
  unfold State.pollFaults
  split
  · exact h
  · dsimp only
    split
    · exact posted_meet h _
    · obtain ⟨g, hg, he⟩ := posted_writeFaults part _ _ h
      refine ⟨g, List.mem_filter.mpr ⟨hg, ?_⟩, he⟩
      rw [he, hk]
      rfl

theorem posted_postFault {s : State} {f : Fault32} {p : Partition} (hp : s.part? f.part = some p) (hk : f.kind = false) :
    ∃ g : Fault32, (∃ z ∈ (s.postFault f).1.faults, z = { g with written := z.written }) ∧ g = { f with id := p.nextFault, written := false } ∧
      (s.postFault f).2 = p.nextFault.toNat := by
  refine ⟨{ f with id := p.nextFault, written := false }, ?_, rfl, ?_⟩
  · unfold State.postFault
    rw [hp]
    dsimp only
    refine posted_pollFaults (f := { f with id := p.nextFault, written := false }) ?_ hk _
    have h0 (s' : State) (h : s'.faults = s.faults ++ [{ f with id := p.nextFault, written := false }]) : Posted s' { f with id := p.nextFault, written := false } :=
      ⟨_, by rw [h]; exact List.mem_append_right _ (List.mem_singleton_self _), rfl⟩
    split
    · split
      · exact h0 _ rfl
      · exact posted_meet (h0 _ rfl) _
    · exact h0 _ rfl
  · unfold State.postFault
    rw [hp]

/-- A page fault has its record, that of its page which stands or a new one (R284). -/
theorem pageFault_spec {s : State} {f : Fault32} {p : Partition} (hp : s.part? f.part = some p) (hk : f.kind = false) :
    ∃ g ∈ (s.pageFault f).1.faults, sameFault f g = true ∧ g.id.toNat = (s.pageFault f).2 := by
  unfold State.pageFault
  split
  · rename_i g hg
    exact ⟨g, List.mem_of_find?_eq_some hg, List.find?_some hg, rfl⟩
  · obtain ⟨g, ⟨z, hz, he⟩, hg, hid⟩ := posted_postFault hp hk
    refine ⟨z, hz, ?_, ?_⟩
    · rw [he, hg]
      simp [sameFault, hk]
    · rw [hid, he, hg]

theorem keysOf_miss {s : State} {core ctx a : Nat} {r : Right} {as : List Nat} {why : BitVec 8} (hl : s.tlbLook core ctx a r = none)
    (hw : s.walk ctx a r = .inr why) : s.keysOf core ctx r (a :: as) = (s, .inr (a, why)) := by
  have ht : s.translate core ctx a r = (s, .inr why) := by rw [State.translate, hl, hw]
  unfold State.keysOf
  rw [ht]

/-- No page of the access is translated. -/
structure Ctx.Astray (c : Ctx) (s : State) (r : Right) (va : Nat) (why : BitVec 8) : Prop where
  head : (c.bytes c.low).head? = some va
  page : ∀ l, hasLane c.act l = true → ∀ a ∈ c.bytes l, pageOf a = pageOf va
  look : s.tlbLook c.core c.ctx va r = none
  walk : s.walk c.ctx va r = .inr why

section
variable {c : Ctx} {s : State} {r : Right} {va : Nat} {why : BitVec 8} (h : c.Astray s r va why)
include h

theorem keysOf_astray {l : Nat} (hl : hasLane c.act l = true) : ∃ a, (c.bytes l).head? = some a ∧ s.keysOf c.core c.ctx r (c.bytes l) = (s, .inr (a, why)) := by
  cases hb : c.bytes l with
  | nil => exact absurd hb (bytes_ne_nil c l)
  | cons a as =>
    have hp := h.page l hl a (by rw [hb]; exact List.mem_cons_self)
    exact ⟨a, rfl, keysOf_miss ((tlbLook_page s _ _ hp r).trans h.look) ((walk_page s _ hp r).trans h.walk)⟩

theorem walked_astray : c.walked s r = s := by
  have key (ls : List Nat) (hl : ∀ l ∈ ls, hasLane c.act l = true) : ls.foldl (fun s l => (s.keysOf c.core c.ctx r (c.bytes l)).1) s = s := by
    induction ls with
    | nil => rfl
    | cons l ls ih =>
      obtain ⟨a, -, hk⟩ := keysOf_astray h (hl l List.mem_cons_self)
      rw [List.foldl_cons, hk]
      exact ih fun z hz => hl z (List.mem_cons_of_mem _ hz)
  exact key _ fun l hl => mem_lanesOf.mp hl

theorem mapped_astray : c.mapped s r c.act = 0 := by
  refine mask_ext fun l hl => ?_
  rw [Ctx.mapped, hasLane_maskOf, decide_eq_true hl, Bool.true_and]
  have hz : hasLane (0 : Mask) l = false := by simp [hasLane]
  rw [hz, Bool.and_eq_false_iff]
  by_cases hh : hasLane c.act l = true
  · right
    cases hb : c.bytes l with
    | nil => exact absurd hb (bytes_ne_nil c l)
    | cons a as =>
      have hp := h.page l hh a (by rw [hb]; exact List.mem_cons_self)
      refine Bool.eq_false_iff.mpr fun hs => ?_
      have := keys?_isSome.mp hs a (by rw [hb]; exact List.mem_cons_self)
      rw [tlbLook_page s _ _ hp, h.look] at this
      cases this
  · exact .inl (Bool.eq_false_iff.mpr hh)

/-- The access parks on the fault of its lowest lane's first byte. -/
theorem parkFlight_astray (ha : c.act ≠ 0) {q : StrandRef} {x : InFlight} (hx : x.right = r) :
    s.parkFlight q x c = (s.pageFault (c.faultRec r 0 va why)).1.setFlight q { x with state := .parked (s.pageFault (c.faultRec r 0 va why)).2 } := by
  obtain ⟨ls, hls⟩ : ∃ ls, lanesOf c.act = c.low :: ls := lanesOf_low ha
  obtain ⟨a, hah, hk⟩ := keysOf_astray h (l := c.low) (mem_lanesOf.mp (by rw [hls]; exact List.mem_cons_self))
  obtain rfl := Option.some.inj (hah.symm.trans h.head)
  unfold State.parkFlight
  rw [hls, List.findSome?_cons, hx, hk]

end

/-! ## The same access, after a step -/

/-- Where a crew runs. -/
def Crew.place (c : Crew) : Nat × Nat := (c.core, c.vdie)

/-- Two contexts are of one access: its lanes, its addresses, where it is made, and its fault record. -/
structure Alike (c d : Ctx) : Prop where
  act : d.act = c.act
  core : d.core = c.core
  ctx : d.ctx = c.ctx
  bytes : ∀ l, d.bytes l = c.bytes l
  fault : ∀ a n va why, d.faultRec a n va why = c.faultRec a n va why

theorem space_flying {c d : Ctx} (hc : c.flying = true) (hd : d.flying = true) (hf : d.f = c.f) : d.space = c.space := by
  unfold Ctx.space
  rw [hc, hd, hf]
  simp only [if_true]

/-- What the context of an access in flight is made of. -/
structure FlightCtx (s : State) (r : StrandRef) (x : InFlight) (c : Ctx) : Prop where
  flying : c.flying = true
  replay : c.iss.replay = some x.entry
  form : c.f = Form.ofInstr x.entry.instr
  act : c.act = x.entry.mask
  grid : s.grid? r.crew.grid = some c.g
  idx : c.c.idx = r.crew.idx
  strand : c.t.idx = r.strand
  place : (s.crew? r.crew).map Crew.place = some c.c.place

theorem strand?_idx {s : State} {r : StrandRef} {t : Strand} (h : s.strand? r = some t) : t.idx = r.strand := by
  unfold State.strand? at h
  split at h
  · exact of_decide_eq_true (List.find?_some (p := fun x : Strand => decide (x.idx = r.strand)) h)
  · cases h

theorem flightCtx_of {s : State} {r : StrandRef} {x : InFlight} {c : Ctx} (h : s.ctxOfFlight r x = some c) : FlightCtx s r x c := by
  obtain ⟨d, hd, rfl⟩ := Option.map_eq_some_iff.mp h
  unfold State.ctxOfEntry at hd
  split at hd
  case h_2 => cases hd
  case h_1 g k u hg hk hu =>
    obtain rfl := Option.some.inj hd
    exact ⟨rfl, rfl, rfl, rfl, hg, (crew?_spec hk).2, strand?_idx hu, congrArg (Option.map Crew.place) hk⟩

theorem alike_of_flight {s t : State} {r : StrandRef} {x z : InFlight} {c d : Ctx} (hc : s.ctxOfFlight r x = some c) (hd : t.ctxOfFlight r z = some d)
    (he : z.entry = x.entry) (hg : t.grids = s.grids) (hp : (t.crew? r.crew).map Crew.place = (s.crew? r.crew).map Crew.place) : Alike c d := by
  have h := flightCtx_of hc
  have k := flightCtx_of hd
  have hgrid : d.g = c.g := Option.some.inj (k.grid.symm.trans ((grid?_congr hg _).trans h.grid))
  have hplace : d.c.place = c.c.place := Option.some.inj (k.place.symm.trans (hp.trans h.place))
  have hcore : d.c.core = c.c.core := congrArg Prod.fst hplace
  have hvdie : d.c.vdie = c.c.vdie := congrArg Prod.snd hplace
  have hidx : d.c.idx = c.c.idx := k.idx.trans h.idx.symm
  have hform : d.f = c.f := by rw [k.form, h.form, he]
  refine ⟨by rw [k.act, h.act, he], hcore, by rw [Ctx.ctx, hgrid]; rfl, fun l => ?_, fun a n va why => ?_⟩
  · have hea : d.ea l = c.ea l := by rw [ea_flying k.flying k.replay, ea_flying h.flying h.replay, he]
    have hitem : d.item l = c.item l := by
      unfold Ctx.item
      rw [hgrid, hidx, k.strand, h.strand]
    have hsize : d.size = c.size := by
      unfold Ctx.size
      rw [hform]
    unfold Ctx.bytes
    rw [hea, hitem, hsize, hgrid, space_flying h.flying k.flying hform]
  · unfold Ctx.faultRec faultOf
    rw [hgrid, hvdie, hidx]

theorem Ctx.Astray.alike {c d : Ctx} {s t : State} {r : Right} {va : Nat} {why : BitVec 8} (h : c.Astray s r va why) (a : Alike c d)
    (hl : ∀ va, t.tlbLook c.core c.ctx va r = s.tlbLook c.core c.ctx va r) (hw : t.walk c.ctx va r = s.walk c.ctx va r) : d.Astray t r va why := by
  have hlow : d.low = c.low := by rw [Ctx.low, a.act]; rfl
  exact ⟨by rw [hlow, a.bytes]; exact h.head, fun l hh b hb => h.page l (by rw [← a.act]; exact hh) b (by rw [← a.bytes]; exact hb),
    by rw [a.core, a.ctx, hl]; exact h.look, by rw [a.ctx, hw]; exact h.walk⟩

theorem tlbLook_setFlight (s : State) (q : StrandRef) (y : InFlight) (core ctx va : Nat) (r : Right) :
    (s.setFlight q y).tlbLook core ctx va r = s.tlbLook core ctx va r := rfl

theorem walk_setFlight (s : State) (q : StrandRef) (y : InFlight) (ctx va : Nat) (r : Right) : (s.setFlight q y).walk ctx va r = s.walk ctx va r := rfl

theorem place_setFlight (s : State) (q : StrandRef) (y : InFlight) : ((s.setFlight q y).crew? q.crew).map Crew.place = (s.crew? q.crew).map Crew.place := by
  rw [State.setFlight, crew?_modStrand_same, Option.map_map]
  rfl

/-- What is set up of one step: the TLBs and what a walk finds are as before. -/
def SameWalks (s t : State) : Prop :=
  (∀ core ctx va r, t.tlbLook core ctx va r = s.tlbLook core ctx va r) ∧ ∀ ctx va r, t.walk ctx va r = s.walk ctx va r

theorem strand?_congr {s t : State} (h : t.crews = s.crews) (r : StrandRef) : t.strand? r = s.strand? r := by
  unfold State.strand? State.crew?
  rw [h]

theorem sameWalks_setFlight (s : State) (q : StrandRef) (y : InFlight) : SameWalks s (s.setFlight q y) := ⟨fun _ _ _ _ => rfl, fun _ _ _ => rfl⟩

theorem SameWalks.trans {s t u : State} (h : SameWalks s t) (k : SameWalks t u) : SameWalks s u :=
  ⟨fun a b c d => (k.1 a b c d).trans (h.1 a b c d), fun a b c => (k.2 a b c).trans (h.2 a b c)⟩

theorem sameWalks_modCore (s : State) (n : Nat) (f : Core → Core) (hf : ∀ c, (f c).tlb = c.tlb) : SameWalks s (s.modCore n f) := by
  refine ⟨fun core ctx va r => ?_, fun _ _ _ => rfl⟩
  unfold State.tlbLook
  have hc : ((s.modCore n f).core? core).bind (fun c => tlbFind c.tlb ctx va r) = (s.core? core).bind fun c => tlbFind c.tlb ctx va r := by
    by_cases hn : core = n
    · subst hn
      rw [core?_modCore_same]
      cases s.core? core with
      | none => rfl
      | some c => exact congrArg (fun l => tlbFind l ctx va r) (hf c)
    · rw [core?_modCore_other s f hn]
  rw [hc]
  rfl

theorem sameWalks_cleanSlot (s : State) (core slot : Nat) : SameWalks s (s.cleanSlot core slot) := by
  refine SameWalks.trans ?_ (sameWalks_modCore _ core _ fun _ => rfl)
  cases hc : s.core? core with
  | none =>
    rw [State.writeBack, hc]
    exact ⟨fun _ _ _ _ => rfl, fun _ _ _ => rfl⟩
  | some k =>
    obtain ⟨f, w, he, hf⟩ : ∃ f w, s.writeBack core (fun l => l.writers.getLsbD slot) = { s.modCore core f with pkgWrites := w } ∧ ∀ c : Core, (f c).tlb = c.tlb := by
      rw [State.writeBack, hc]
      exact ⟨_, _, rfl, fun _ => rfl⟩
    rw [he]
    exact (sameWalks_modCore s core f hf).trans ⟨fun _ _ _ _ => rfl, fun _ _ _ => rfl⟩

theorem ctxOfFlight_isSome {s : State} {r : StrandRef} {x : InFlight} :
    (s.ctxOfFlight r x).isSome = true ↔ (s.grid? r.crew.grid).isSome = true ∧ (s.crew? r.crew).isSome = true ∧ (s.strand? r).isSome = true := by
  unfold State.ctxOfFlight State.ctxOfEntry
  rw [Option.isSome_map]
  cases s.grid? r.crew.grid <;> cases s.crew? r.crew <;> cases s.strand? r <;> simp

/-- An access in flight of which nothing but its state and lines has changed since `s`, and no page. -/
structure Flown (s t : State) (r : StrandRef) (x z : InFlight) : Prop where
  flight : t.flight? r x.id = some z
  key : z.id = x.id
  entry : z.entry = x.entry
  right : z.right = x.right
  grids : t.grids = s.grids
  parts : t.partitions = s.partitions
  place : (t.crew? r.crew).map Crew.place = (s.crew? r.crew).map Crew.place
  strand : (t.strand? r).isSome = (s.strand? r).isSome
  walks : SameWalks s t

theorem flown_setFlight {s : State} {r : StrandRef} {x y : InFlight} (h : s.flight? r x.id = some x) (hy : y.id = x.id) (he : y.entry = x.entry)
    (hr : y.right = x.right) : Flown s (s.setFlight r y) r x y := by
  obtain ⟨t, ht⟩ : ∃ t, s.strand? r = some t := by
    obtain ⟨t, ht, -⟩ := Option.bind_eq_some_iff.mp h
    exact ⟨t, ht⟩
  exact ⟨flight?_setFlight h hy, hy, he, hr, rfl, rfl, place_setFlight s r y, by rw [strand?_setFlight ht, ht]; rfl, sameWalks_setFlight s r y⟩

theorem Flown.memSide {s t u : State} {r : StrandRef} {x z : InFlight} (h : Flown s t r x z) (k : MemSide t u) (hw : SameWalks t u) : Flown s u r x z :=
  ⟨by rw [State.flight?, k.strand? r]; exact h.flight, h.key, h.entry, h.right, k.grids.trans h.grids, k.partitions.trans h.parts,
    by rw [k.crew? r.crew]; exact h.place, by rw [k.strand? r]; exact h.strand, h.walks.trans hw⟩

/-- The context of an access that has flown on. -/
theorem Flown.ctx {s t : State} {r : StrandRef} {x z : InFlight} {c : Ctx} (h : Flown s t r x z) (hc : s.ctxOfFlight r x = some c) :
    ∃ d, t.ctxOfFlight r z = some d ∧ Alike c d := by
  obtain ⟨hg, hk, hs⟩ := ctxOfFlight_isSome.mp (Option.isSome_iff_exists.mpr ⟨c, hc⟩)
  have hk' : (t.crew? r.crew).isSome = true := by rw [← Option.isSome_map (f := Crew.place), h.place, Option.isSome_map]; exact hk
  obtain ⟨d, hd⟩ := Option.isSome_iff_exists.mp (ctxOfFlight_isSome.mpr ⟨by rw [grid?_congr h.grids]; exact hg, hk', by rw [h.strand]; exact hs⟩)
  exact ⟨d, hd, alike_of_flight hc hd h.entry h.grids h.place⟩

/-- It parks on a fault that has its record. -/
theorem Flown.parks {s t : State} {r : StrandRef} {x z : InFlight} {c d : Ctx} {va : Nat} {why : BitVec 8} {p : Partition} (h : Flown s t r x z)
    (ha : c.act ≠ 0) (hA : c.Astray s x.right va why) (al : Alike c d) (hp : s.part? c.g.part = some p) :
    ∃ y id, (t.parkFlight r z d).flight? r x.id = some y ∧ y.entry = x.entry ∧ y.state = .parked id ∧
      ∃ f ∈ (t.parkFlight r z d).faults, sameFault (c.faultRec x.right 0 va why) f = true ∧ f.id.toNat = id := by
  have hAd : d.Astray t x.right va why := hA.alike al (fun va => h.walks.1 _ _ _ _) (h.walks.2 _ _ _)
  have hpark := parkFlight_astray hAd (by rw [al.act]; exact ha) (q := r) h.right
  rw [al.fault] at hpark
  have hfs : FaultSide t (t.pageFault (c.faultRec x.right 0 va why)).1 := faultSide_pageFault _ _
  obtain ⟨g, hg, hsame, hid⟩ := pageFault_spec (s := t) (f := c.faultRec x.right 0 va why) (p := p) (by rw [State.part?, h.parts]; exact hp) rfl
  have hfl : (t.pageFault (c.faultRec x.right 0 va why)).1.flight? r z.id = some z := by
    rw [State.flight?, strand?_congr hfs.crews r, h.key]
    exact h.flight
  refine ⟨{ z with state := .parked (t.pageFault (c.faultRec x.right 0 va why)).2 }, _, ?_, h.entry, rfl, g, ?_, hsame, hid⟩
  · rw [hpark, ← h.key]
    exact flight?_setFlight hfl rfl
  · rw [hpark]
    exact hg

theorem lanesOf_zero : lanesOf 0 = [] := by decide

theorem loadReady_zero {c : Ctx} {s : State} (h : c.mapped s .read c.act = 0) : c.loadReady s = 0 := by
  unfold Ctx.loadReady
  rw [h]
  exact ite_self _

/-- A load of which no lane can be performed stays as it is. -/
theorem serveLoad_none {s : State} {r : StrandRef} {x : InFlight} {c : Ctx} (hc : s.ctxOfFlight r x = some c) (h : c.mapped s .read c.act = 0) :
    s.serveLoad r x = s := by
  unfold State.serveLoad
  rw [hc]
  exact if_pos (loadReady_zero h)

/-- A store of which no lane can be performed stays as it is. -/
theorem serveStore_none {s : State} {r : StrandRef} {x : InFlight} {c : Ctx} (hc : s.ctxOfFlight r x = some c) (h : c.mapped s .write c.act = 0)
    (ha : x.entry.mask ≠ 0) :
    s.serveStore r x = s.setFlight r x ∨ s.serveStore r x = (s.setFlight r x).cleanSlot c.core c.c.slot := by
  have hord : c.storeOrdered s x.universal 0 = s := by
    unfold Ctx.storeOrdered Ctx.performStore
    rw [lanesOf_zero]
    simp
  have hdone : s.doneLanes r x 0 x.state = s.setFlight r x := by
    have hz : x.entry.mask &&& ~~~(0 : Mask) = x.entry.mask := BitVec.and_allOnes
    unfold State.doneLanes
    rw [hz]
    exact if_neg ha
  unfold State.serveStore
  rw [hc]
  dsimp only
  rw [h, hord, hdone]
  split
  · exact .inr rfl
  · exact .inl rfl

/-- A walk that finds no page parks the access (R283). -/
theorem walkPlain_parks {s : State} {r : StrandRef} {x : InFlight} {c : Ctx} {va : Nat} {why : BitVec 8} {p : Partition} (h : s.flight? r x.id = some x)
    (hc : s.ctxOfFlight r x = some c) (hw : x.isWhole = false) (ha : c.act ≠ 0) (hA : c.Astray s x.right va why) (hp : s.part? c.g.part = some p) :
    ∃ y id, (s.walkPlain r x c).flight? r x.id = some y ∧ y.entry = x.entry ∧ y.state = .parked id ∧
      ∃ f ∈ (s.walkPlain r x c).faults, sameFault (c.faultRec x.right 0 va why) f = true ∧ f.id.toNat = id := by
  have hmask : x.entry.mask ≠ 0 := by rw [← (flightCtx_of hc).act]; exact ha
  cases hs : x.isStore with
  | false =>
    have hr : x.right = .read := right_load hs hw
    have hm : c.mapped s .read c.act = 0 := hr ▸ mapped_astray hA
    have hready := loadReady_zero hm
    have hent : c.entriesFor s 0 (fun _ => true) = true := entriesFor_hit (fun l hl => absurd hl (by rw [show (0 : Mask) = 0#32 from rfl, hasLane_zero]; exact Bool.false_ne_true)) _
    have fl : Flown s (s.setFlight r { x with state := .outstanding, lines := c.missed s 0 }) r x { x with state := .outstanding, lines := c.missed s 0 } :=
      flown_setFlight h rfl rfl rfl
    obtain ⟨d, hd, al⟩ := fl.ctx hc
    have hAd : d.Astray _ x.right va why := hA.alike al (fun va => fl.walks.1 _ _ _ _) (fl.walks.2 _ _ _)
    have hmd : d.mapped _ .read d.act = 0 := hr ▸ mapped_astray hAd
    have he : s.walkPlain r x c =
        (s.setFlight r { x with state := .outstanding, lines := c.missed s 0 }).parkFlight r { x with state := .outstanding, lines := c.missed s 0 } d := by
      unfold State.walkPlain
      rw [show (lanesOf c.act).foldl (fun s l => (s.keysOf c.core c.ctx x.right (c.bytes l)).1) s = c.walked s x.right from rfl, walked_astray hA, hs]
      simp only [hready, hent, Bool.not_true, Bool.not_false, Bool.true_and, Bool.false_eq_true, if_false]
      rw [serveLoad_none hd hmd]
      have hneg : ¬ decide (c.mapped (s.setFlight r { x with state := .outstanding, lines := c.missed s 0 }) x.right c.act = c.act) = true := by
        rw [decide_eq_true_eq]
        exact fun h => ha ((mapped_astray hA).symm.trans h).symm
      refine (if_neg hneg).trans ?_
      rw [fl.flight]
      dsimp only
      rw [hd]
    rw [he]
    exact fl.parks ha hA al hp
  | true =>
    have hr : x.right = .write := right_store hs
    have fl : Flown s (s.setFlight r { x with state := .outstanding, lines := [] }) r x { x with state := .outstanding, lines := [] } :=
      flown_setFlight h rfl rfl rfl
    obtain ⟨d, hd, al⟩ := fl.ctx hc
    have hAd : d.Astray _ x.right va why := hA.alike al (fun va => fl.walks.1 _ _ _ _) (fl.walks.2 _ _ _)
    have hmd : d.mapped _ .write d.act = 0 := hr ▸ mapped_astray hAd
    have fl2 : Flown s (((s.setFlight r { x with state := .outstanding, lines := [] })).serveStore r { x with state := .outstanding, lines := [] }) r x
        { x with state := .outstanding, lines := [] } := by
      have fl1 := flown_setFlight (y := { x with state := .outstanding, lines := [] }) fl.flight rfl rfl rfl
      have fl0 : Flown s ((s.setFlight r { x with state := .outstanding, lines := [] }).setFlight r { x with state := .outstanding, lines := [] }) r x
          { x with state := .outstanding, lines := [] } :=
        ⟨fl1.flight, rfl, rfl, rfl, rfl, rfl, fl1.place.trans fl.place, fl1.strand.trans fl.strand, fl.walks.trans fl1.walks⟩
      obtain h | h := serveStore_none hd hmd hmask
      · rw [h]
        exact fl0
      · rw [h]
        exact fl0.memSide (memSide_cleanSlot _ _ _) (sameWalks_cleanSlot _ _ _)
    obtain ⟨d2, hd2, al2⟩ := fl2.ctx hc
    have he : s.walkPlain r x c =
        ((s.setFlight r { x with state := .outstanding, lines := [] }).serveStore r { x with state := .outstanding, lines := [] }).parkFlight r
          { x with state := .outstanding, lines := [] } d2 := by
      rw [walkPlain_store hs, walked_astray hA]
      dsimp only
      rw [fl2.flight]
      dsimp only
      rw [hd2]
    rw [he]
    exact fl2.parks ha hA al2 hp

/-- A walk that finds the page leaves a load outstanding, or rejected for want of an entry (R168, R283). -/
theorem walkPlain_finds {s : State} {r : StrandRef} {x : InFlight} {c : Ctx} {va : Nat} {e : Xlate} (h : s.flight? r x.id = some x)
    (hs : x.isStore = false) (hh : (c.bytes c.low).head? = some va)
    (hp : ∀ l, hasLane c.act l = true → ∀ a ∈ c.bytes l, pageOf a = pageOf va) (ha : c.act ≠ 0) (hl : s.tlbLook c.core c.ctx va x.right = none)
    (hk : (s.core? c.core).isSome = true) (hw : s.walk c.ctx va x.right = .inl e) :
    ∃ y, (s.walkPlain r x c).tlbLook c.core c.ctx va x.right = some e ∧ (s.walkPlain r x c).flight? r x.id = some y ∧ y.entry = x.entry ∧
      (y.state = .outstanding ∨ y.state = .rejected s.cycle) ∧ ∀ key, (s.walkPlain r x c).memByte key = s.memByte key := by
  have hwalk := walked_fill hh hp ha hl hk hw
  have hm : c.mapped (c.walked s x.right) x.right c.act = c.act := by
    rw [hwalk]
    refine mapped_all fun l hll => keys?_isSome.mpr fun a hab => ?_
    rw [tlbLook_fill hk c.ctx (hp l hll a hab) (grants_of_walk hw)]
    rfl
  obtain ⟨y, hy, hid, he, hst⟩ := walkPlain_load (r := r) hs hm
  rw [hy, hwalk]
  have hfl : (s.tlbFill c.core c.ctx va e).flight? r x.id = some x := h
  refine ⟨y, tlbLook_fill hk c.ctx rfl (grants_of_walk hw), flight?_setFlight hfl hid, he, hst, fun key => rfl⟩

/-- An access made as a whole, made again, leaves flight (R283). -/
theorem walkFlight_whole {s t : State} {r : StrandRef} {x : InFlight} {c : Ctx} {dst : Option (Nat → Word)} {n : Nat} (h : s.flight? r x.id = some x)
    (hc : s.ctxOfFlight r x = some c) (hd : s.walkDue r x = true) (hw : x.isWhole = true) (hgo : wholeAgain c = .go t dst n) (he : c.c.state ≠ .ended) :
    s.walkFlight r x.id = t.dropFlight r x.id := by
  unfold State.walkFlight State.walkWhole
  rw [h]
  simp only [hd, hc, hw, hgo, Bool.not_true, Bool.false_eq_true, if_false, if_true]
  exact if_neg he

end Sys2Proof.Machine
end

