-- ==== Sys2Proof/Proofs/Arrivals.lean ====
section
/-! SUPPORT. Writes that arrive and lines that are written back (R162, R189), and the poll of a fault ring (R308); what becomes of accesses in flight. -/
namespace Sys2Proof.Machine

/-! ## Writes on their way -/

/-- The oldest write of a core arrives. -/
theorem storeArrival_head {s : State} {n : Nat} {k : Core} {m : Message} {rest : List Message} (h : s.core? n = some k) (ho : k.outbox = m :: rest) :
    ∃ t, exec (.storeArrival n) s = .next t ∧ t.core? n = some { k with outbox := rest } ∧ ∀ key, t.memByte key = (s.perform m).memByte key := by
  refine ⟨(s.perform m).modCore n fun c => { c with outbox := rest }, ?_, ?_, fun key => rfl⟩
  · show execStoreArrival n s = _
    unfold execStoreArrival
    rw [h]
    dsimp only
    rw [ho]
  · rw [core?_modCore_same, (onlyMem_perform s m).core?, h]
    rfl

/-- A core that has no write on its way. -/
theorem storeArrival_none {s : State} {n : Nat} (h : ∀ k, s.core? n = some k → k.outbox = []) : exec (.storeArrival n) s = .next s := by
  show execStoreArrival n s = _
  unfold execStoreArrival
  cases hc : s.core? n with
  | none => rfl
  | some k =>
    dsimp only
    rw [h k hc]

section
variable {s : State} {key : Nat} {op : BitVec 3} {ty : Ty} {b : DWord} {ps : List PkgWrite}

theorem perform_red_poisoned (h : s.poisoned (key / 128) = true) : s.perform (.red key op ty b ps) = s := by
  unfold State.perform
  exact if_pos h

theorem perform_red (h : s.poisoned (key / 128) = false) :
    s.perform (.red key op ty b ps) = s.writeNat key (tySize ty) (bankOp op ty (BitVec.ofNat 64 (s.readNat key (tySize ty))) b).toNat := by
  unfold State.perform
  exact if_neg (by rw [h]; exact Bool.false_ne_true)

theorem memByte_perform_red (a : Nat) (h : a < key ∨ key + tySize ty ≤ a) : (s.perform (.red key op ty b ps)).memByte a = s.memByte a := by
  cases hp : s.poisoned (key / 128) with
  | true => rw [perform_red_poisoned hp]
  | false => rw [perform_red hp, memByte_writeNat_other _ _ _ _ _ h]

end

/-! ## Lines written back -/

/-- Every message that waited waits, and each dirty line of the number is sent. -/
theorem sent_cleaned {s : State} {n : Nat} (k : Core) (line : Nat) :
    let out := k.outbox ++ (k.l1.filter fun l => decide (l.line = line) && decide (l.dirty ≠ 0)).map (L1Line.message s.pkgWrites n)
    out.take k.outbox.length = k.outbox ∧
      ∀ l ∈ k.l1, l.line = line → l.dirty ≠ 0 → .write line l.data l.dirty (pkgOf s.pkgWrites n line) ∈ out := by
  refine ⟨List.take_left, fun l hl he hd => List.mem_append_right _ (List.mem_map.mpr ⟨l, List.mem_filter.mpr ⟨hl, ?_⟩, ?_⟩)⟩
  · rw [decide_eq_true he, decide_eq_true hd]
    rfl
  · rw [L1Line.message, he]

theorem cleaned_line (sel : L1Line → Bool) (l : L1Line) : (l.cleaned sel).line = l.line := by
  unfold L1Line.cleaned
  split <;> rfl

theorem cleaned_data (sel : L1Line → Bool) (l : L1Line) : (l.cleaned sel).data = l.data := by
  unfold L1Line.cleaned
  split <;> rfl

theorem cleaned_dirty {sel : L1Line → Bool} {l : L1Line} (h : sel l = true) : (l.cleaned sel).dirty = 0 := by
  unfold L1Line.cleaned
  rw [h, Bool.true_and]
  split
  · rfl
  · rename_i hd
    simpa using hd

theorem core?_invalidate {s : State} {n : Nat} {k : Core} (h : s.core? n = some k) (sel : L1Line → Bool) :
    (s.invalidate n sel).core? n = some { k with
      outbox := k.outbox ++ (k.l1.filter fun l => sel l && decide (l.dirty ≠ 0)).map (L1Line.message s.pkgWrites n)
      l1 := (k.l1.map (L1Line.cleaned sel)).filter fun l => !(sel l) } := by
  unfold State.invalidate
  rw [core?_modCore_same, core?_writeBack_same h]
  rfl

/-! ## The fault ring -/

/-- The records of write faults that have been written are gone. -/
def State.unloaded (s : State) : State := { s with faults := s.faults.filter fun g => !(g.kind && g.written) }

theorem sameMem_unloaded (s : State) : SameMem s s.unloaded := ⟨rfl, rfl, rfl, rfl⟩

theorem part?_unloaded (s : State) (n : Nat) : s.unloaded.part? n = s.part? n := rfl

/-- A poll leaves no record of a write fault that has been written. -/
theorem pollFaults_writes {s : State} {n : Nat} {p : Partition} (hp : s.part? n = some p) (hb : s.poisoned ((p.entry.toNat + 0x74) / 128) = false) :
    s.pollFaults n = (s.writeFaults n (BitVec.ofNat 32 (s.readNat (p.entry.toNat + 0x74) 4)) s.faults.length).unloaded := by
  unfold State.pollFaults
  rw [hp]
  exact if_neg (by rw [hb]; exact Bool.false_ne_true)

theorem pollFaults_meets {s : State} {n : Nat} {p : Partition} (hp : s.part? n = some p) (hb : s.poisoned ((p.entry.toNat + 0x74) / 128) = true) :
    s.pollFaults n = s.meet { line := (p.entry.toNat + 0x74) / 128, dirtyOf := none, firmware := none } := by
  unfold State.pollFaults
  rw [hp]
  exact if_pos hb

theorem meet_spec (s : State) (e : ErrorSite) : s.meet e = { s with found := (s.meet e).found } ∧ e ∈ (s.meet e).found := by
  unfold State.meet
  split
  · rename_i h
    exact ⟨rfl, List.contains_iff_mem.mp h⟩
  · exact ⟨rfl, List.mem_append_right _ (List.mem_singleton_self e)⟩

/-- Where the next record of a partition is written. -/
def Partition.slotAt (p : Partition) : Nat := p.fring.toNat + 32 * (p.fwptr.toNat % 2 ^ p.flog)

/-- The bytes of a record written to its ring, and of the write pointer behind it. -/
def State.inked (s : State) (p : Partition) (f : Fault32) : State :=
  (s.writeMem p.slotAt (faultBytes f)).writeNat (p.entry.toNat + 0x70) 4 (p.fwptr + 1).toNat

/-- A partition notes that a record has been written. -/
def State.ringNoted (s : State) (n : Nat) (f : Fault32) (frptr : Word) : State :=
  { s with
    partitions := modNth s.partitions n fun x => x.map fun (p : Partition) => { p with fwptr := p.fwptr + 1, frptr := frptr }
    faults := modWhere (fun g => g.part = n && g.id = f.id) (fun g => { g with written := true }) s.faults }

theorem sameMem_ringNoted (s : State) (n : Nat) (f : Fault32) (frptr : Word) : SameMem s (s.ringNoted n f frptr) := ⟨rfl, rfl, rfl, rfl⟩

theorem part?_ringNoted (s : State) (n : Nat) (f : Fault32) (frptr : Word) :
    (s.ringNoted n f frptr).part? n = (s.part? n).map fun p => { p with fwptr := p.fwptr + 1, frptr := frptr } :=
  (part?_modNth s n n _).trans (if_pos rfl)

theorem faults_ringNoted (s : State) (n : Nat) (f : Fault32) (frptr : Word) :
    (s.ringNoted n f frptr).faults = modWhere (fun g => g.part = n && g.id = f.id) (fun g => { g with written := true }) s.faults := rfl

/-- A record written to its ring. -/
def State.recorded (s : State) (n : Nat) (p : Partition) (f : Fault32) (frptr : Word) : State := (s.inked p f).ringNoted n f frptr

theorem memSide_inked (s : State) (p : Partition) (f : Fault32) : MemSide s (s.inked p f) := (memSide_writeMem _ _ _).trans (memSide_writeNat _ _ _ _)

theorem length_faultBytes (f : Fault32) : (faultBytes f).length = 32 := by
  simp only [faultBytes, List.length_append, length_toBytes]

section
variable {s : State} {n : Nat} {p : Partition} {f : Fault32} {frptr : Word}

theorem writeFaults_one (hp : s.part? n = some p) (hf : s.faults = [f]) (hn : f.part = n) (hw : f.written = false)
    (hr : (p.fwptr - frptr).toNat ≠ 2 ^ p.flog) : s.writeFaults n frptr 1 = s.recorded n p f frptr := by
  have hfind : s.faults.find? (fun g => g.part = n && !g.written) = some f := by
    rw [hf]
    exact List.find?_cons_of_pos (p := fun g : Fault32 => decide (g.part = n) && !g.written) (by simp [hn, hw])
  unfold State.writeFaults
  rw [hp, hfind]
  exact if_neg hr

theorem readMem_recorded (h : p.slotAt + 32 ≤ p.entry.toNat + 0x70 ∨ p.entry.toNat + 0x74 ≤ p.slotAt) :
    (s.recorded n p f frptr).readMem p.slotAt 32 = faultBytes f := by
  unfold State.recorded
  have hr := readMem_writeMem s p.slotAt (faultBytes f)
  rw [length_faultBytes] at hr
  rw [(sameMem_ringNoted (s.inked p f) n f frptr).readMem]
  refine Eq.trans (List.map_congr_left fun k hk => ?_) hr
  obtain ⟨j, hj, rfl⟩ := List.mem_map.mp hk
  have := List.mem_range.mp hj
  exact memByte_writeNat_other _ _ _ _ _ (by omega)

theorem readNat_recorded : (s.recorded n p f frptr).readNat (p.entry.toNat + 0x70) 4 = (p.fwptr + 1).toNat := by
  unfold State.recorded
  rw [(sameMem_ringNoted (s.inked p f) n f frptr).readNat, State.inked, readNat_writeNat]
  exact Nat.mod_eq_of_lt (BitVec.isLt _)

theorem part?_recorded (hp : s.part? n = some p) : (s.recorded n p f frptr).part? n = some { p with fwptr := p.fwptr + 1, frptr := frptr } := by
  rw [State.recorded, part?_ringNoted, State.part?, (memSide_inked s p f).partitions]
  exact congrArg (Option.map _) hp

theorem faults_recorded (hf : s.faults = [f]) (hn : f.part = n) : (s.recorded n p f frptr).faults = [{ f with written := true }] := by
  rw [State.recorded, faults_ringNoted, (memSide_inked s p f).faults, hf, modWhere, List.map_cons, if_pos (by simp [hn])]
  rfl

end

/-! ## Accesses in flight, arrivals and write-backs -/

/-- A write-back that evicts. -/
theorem writeBack_evicts {s : State} {n : Nat} {k : Core} (line : Nat) (h : s.core? n = some k) :
    ∃ t j, exec (.writeBack n line true) s = .next t ∧ t.core? n = some j ∧ (j.outbox.take k.outbox.length = k.outbox ∧
      ∀ l ∈ k.l1, l.line = line → l.dirty ≠ 0 → .write line l.data l.dirty (pkgOf s.pkgWrites n line) ∈ j.outbox) ∧ (∀ l ∈ j.l1, l.line ≠ line) ∧
      ∀ key, t.memByte key = s.memByte key := by
  refine ⟨s.invalidate n fun l => l.line = line, _, rfl, core?_invalidate h _, sent_cleaned k line, fun l hl => ?_, fun key => (sameMem_invalidate s n _).memByte key⟩
  simpa using (List.mem_filter.mp hl).2

/-- A write-back that leaves the line clean. -/
theorem writeBack_cleans {s : State} {n : Nat} {k : Core} (line : Nat) (h : s.core? n = some k) :
    ∃ t j, exec (.writeBack n line false) s = .next t ∧ t.core? n = some j ∧ (j.outbox.take k.outbox.length = k.outbox ∧
      ∀ l ∈ k.l1, l.line = line → l.dirty ≠ 0 → .write line l.data l.dirty (pkgOf s.pkgWrites n line) ∈ j.outbox) ∧
      (∀ l ∈ j.l1, l.line = line → l.dirty = 0) ∧ j.l1.map (fun l => (l.line, l.data)) = k.l1.map (fun l => (l.line, l.data)) ∧
      ∀ key, t.memByte key = s.memByte key := by
  refine ⟨s.writeBack n fun l => l.line = line, _, rfl, core?_writeBack_same h _, sent_cleaned k line, fun l hl he => ?_, ?_, fun key => (sameMem_writeBack s n _).memByte key⟩
  · obtain ⟨z, hz, rfl⟩ := List.mem_map.mp hl
    rw [cleaned_line] at he
    exact cleaned_dirty (decide_eq_true he)
  · rw [List.map_map]
    exact List.map_congr_left fun l _ => by rw [Function.comp, cleaned_line, cleaned_data]

/-- The one record that waits is written (R308). -/
theorem pollFaults_one {s : State} {n : Nat} {p : Partition} {f : Fault32} {frptr : Word} (hp : s.part? n = some p)
    (hb : s.poisoned ((p.entry.toNat + 0x74) / 128) = false) (hf : s.faults = [f]) (hn : f.part = n) (hw : f.written = false)
    (hq : frptr = BitVec.ofNat 32 (s.readNat (p.entry.toNat + 0x74) 4)) (hr : (p.fwptr - frptr).toNat ≠ 2 ^ p.flog)
    (hd : p.slotAt + 32 ≤ p.entry.toNat + 0x70 ∨ p.entry.toNat + 0x74 ≤ p.slotAt) :
    (s.pollFaults n).readMem p.slotAt 32 = faultBytes f ∧ (s.pollFaults n).readNat (p.entry.toNat + 0x70) 4 = (p.fwptr + 1).toNat ∧
      (s.pollFaults n).part? n = some { p with fwptr := p.fwptr + 1, frptr := frptr } ∧
      (s.pollFaults n).faults = if f.kind then [] else [{ f with written := true }] := by
  have hone := writeFaults_one hp hf hn hw hr
  rw [pollFaults_writes hp hb, ← hq, show s.faults.length = 1 by rw [hf]; rfl, hone]
  refine ⟨((sameMem_unloaded _).readMem _ _).trans (readMem_recorded hd), ((sameMem_unloaded _).readNat _ _).trans readNat_recorded, (part?_unloaded _ n).trans (part?_recorded hp), ?_⟩
  rw [State.unloaded, faults_recorded hf hn]
  cases f.kind <;> rfl

/-- An outstanding store walks its pages. -/
theorem walkDue_store {s : State} {r : StrandRef} {x : InFlight} {c : Ctx} (hc : s.ctxOfFlight r x = some c) (ho : x.state = .outstanding)
    (hs : x.isStore = true) (hb : s.bankStops r = false) : s.walkDue r x = true := by
  unfold State.walkDue State.standsParked
  simp only [ho, hs, hb, hc, Bool.not_false, Bool.true_and, Bool.true_or]

/-- The strand of a store in flight that has been performed. -/
theorem strand?_performed {s t : State} {r : StrandRef} {y : InFlight} {u : Strand} (hu : s.strand? r = some u) (hm : MemSide (s.setFlight r y) t) :
    (t.dropFlight r y.id).strand? r = some (u.withoutFlight y.id) := by
  have ht : t.strand? r = some (u.withFlight y) := (hm.strand? r).trans (strand?_setFlight hu y)
  rw [strand?_dropFlight ht, withFlight_withoutFlight]

/-- Settles O56: the clauses are the lemmas on returning data, on walks, on arrivals and on the ring, each assembled for its happening. -/
theorem accessEvents : Obligations.AccessEvents := by
  unfold Obligations.AccessEvents
  intro left oneMissing
  refine ⟨?_, ?_, ?_, ?_, ?_, ?_, ?_, ?_, ?_, ?_, ?_, ?_, ?_, ?_, ?_⟩
  · intro s r x n h hn hd
    exact ⟨_, accessAged_due h hn hd, rfl, flight?_setFlight h rfl⟩
  · intro s r x h hs hx
    exact ⟨_, s.accepted r x, congrArg Host.Outcome.next (loadReturn_accepts h hs hx), rfl, flight?_setFlight h rfl, rfl⟩
  · intro s r x c h hc ho hs hw hu hb ha hl
    obtain ⟨t, hq, he⟩ := loadReturn_hit h hc ho hs hw hu hb ha hl
    have ht : t.strand? r = some c.t := by
      obtain ⟨-, -, hst, -⟩ := ctxOfFlight_spec hc
      rw [strand?_congr (s := s) (by rw [hq.1]), hst]
    obtain ⟨u, hu, hin, hheld, hwrote, honly, hfp⟩ := strand?_served (x := x) hc ha ht c.loaded
    exact ⟨_, u, congrArg Host.Outcome.next he, ⟨hu, hin, hheld⟩, hwrote, honly, hfp, fun key => (memByte_served c t r x c.loaded key).trans (hq.sameMem.memByte key)⟩
  · intro s r x c k line h hc ho hs hw hu hb hsp ha hl hk hn hout hroom hp he
    obtain ⟨t, ⟨hmem, hsame, j, l, hj, hjl, -⟩, he⟩ := loadReturn_miss h hc ho hs hw hu hb hsp ha hl hk hn hout hroom hp he
    have ht : t.strand? r = some c.t := by
      obtain ⟨-, -, hst, -⟩ := ctxOfFlight_spec hc
      rw [hmem.strand?, hst]
    obtain ⟨u, hu, hin, hheld, hwrote, honly, hfp⟩ := strand?_served (x := x) hc ha ht
      fun l => loadPlace c.f.e.ty (fromBytes (((c.keys? s .read l).getD []).map fun y => s.memByte y.1))
    exact ⟨_, u, congrArg Host.Outcome.next he, ⟨hu, hin, hheld⟩, hwrote, honly, hfp, fun key => (memByte_served c t r x _ key).trans (hsame.memByte key),
      j, hj, by rw [hjl]; rfl⟩
  · intro s r x c h hc ho hs hw hu hb he hsp hm hl
    obtain ⟨t, ⟨⟨hl1, hmem, -⟩, hside, -⟩, hperf⟩ := walkPlain_performs hc hs hu he hsp hm hl
    obtain ⟨-, -, hst, -⟩ := ctxOfFlight_spec hc
    exact ⟨_, c.t.withoutFlight x.id, congrArg Host.Outcome.next ((walkFlight_plain h hc (walkDue_store hc ho hs hb) hw).trans hperf),
      ⟨strand?_performed (y := { x with state := .outstanding, lines := [] }) hst hside, rfl, rfl, rfl, rfl, rfl, rfl, rfl, rfl, rfl, rfl, rfl⟩, ⟨rfl, rfl, rfl, rfl⟩, hmem, hl1⟩
  · intro s r x c va e h hc hd hs hw ⟨hh, hp, ha, hl, hk⟩ hwalk
    obtain ⟨y, hy⟩ := walkPlain_finds (r := r) h hs hh hp ha hl hk hwalk
    exact ⟨_, y, congrArg Host.Outcome.next (walkFlight_plain h hc hd hw), hy⟩
  · intro s r x c p va why h hc hd hw ⟨hh, hp, ha, hl, hk⟩ hwalk rec1 hpart
    obtain ⟨y, i, hy⟩ := walkPlain_parks h hc hw ha ⟨hh, hp, hl, hwalk⟩ hpart
    exact ⟨_, y, i, congrArg Host.Outcome.next (walkFlight_plain h hc hd hw), hy⟩
  · intro s t r x c dst n h hc hd hw hgo he
    exact congrArg Host.Outcome.next (walkFlight_whole h hc hd hw hgo he)
  · intro s n line k d m ps rest h ho
    obtain ⟨t, ht, hc, hm⟩ := storeArrival_head h ho
    exact ⟨t, ht, hc, fun key => (hm key).trans (memByte_writeLine s line d m key)⟩
  · intro s n key k op ty b ps rest h ho
    obtain ⟨t, ht, hc, hm⟩ := storeArrival_head h ho
    refine ⟨t, ht, hc, fun hp a => ?_, fun hp => ?_, fun a ha => ?_⟩
    · rw [hm, perform_red_poisoned hp]
    · have hread : t.readNat key (tySize ty) = (s.perform (.red key op ty b ps)).readNat key (tySize ty) :=
        congrArg fromBytes (List.map_congr_left fun k _ => hm k)
      rw [hread, perform_red hp, readNat_writeNat]
    · rw [hm, memByte_perform_red a ha]
  · intro s n h
    exact storeArrival_none h
  · intro s n line k h sent
    exact ⟨writeBack_evicts line h, writeBack_cleans line h⟩
  · intro s n p hp hb
    refine ⟨s.pollFaults n, rfl, (faultSide_pollFaults s n).crews, fun f hf ⟨hk, hw⟩ => ?_⟩
    rw [pollFaults_writes hp hb] at hf
    have := (List.mem_filter.mp hf).2
    rw [hk, hw] at this
    cases this
  · intro s n p hp hb
    have h := meet_spec s { line := (p.entry.toNat + 0x74) / 128, dirtyOf := none, firmware := none }
    exact ⟨_, congrArg Host.Outcome.next (pollFaults_meets hp hb), h⟩
  · intro s n p f hp hb hf hn hw read place hr hd
    exact ⟨s.pollFaults n, rfl, pollFaults_one hp hb hf hn hw rfl hr hd⟩

end Sys2Proof.Machine
end

