-- ==== Sys2Proof/Proofs/Granules.lean ====
section
/-! SUPPORT. Elements moved by granules (R215, R224): a move that nothing holds up writes every byte of its elements, in the order of the granules. -/
namespace Sys2Proof.Machine

/-! ## Bytes of a granule -/

theorem mem_span {a n b : Nat} : b ∈ span a n ↔ a ≤ b ∧ b < a + n := by
  unfold span
  rw [List.mem_map]
  constructor
  · rintro ⟨i, hi, rfl⟩
    have := List.mem_range.mp hi
    omega
  · exact fun ⟨h1, h2⟩ => ⟨b - a, List.mem_range.mpr (by omega), by omega⟩

theorem granule_of_byte {e a b : Nat} (he : e ≤ 256) (hb : b ∈ span a e) : (granulesOf e a).contains (b / 256) = true := by
  obtain ⟨h1, h2⟩ := mem_span.mp hb
  rw [List.contains_iff_mem, granulesOf, List.mem_eraseDups]
  have : b / 256 = a / 256 ∨ b / 256 = (a + (e - 1)) / 256 := by omega
  simpa using this

/-- The elements that do not touch a granule write no byte of it. -/
theorem granuleBytes_mine {e : Nat} (he : e ≤ 256) (g : Nat) (ms : List Move) :
    granuleBytes e g (ms.filter fun m => (granulesOf e m.addr).contains g) = granuleBytes e g ms := by
  induction ms with
  | nil => rfl
  | cons m ms ih =>
    unfold granuleBytes at ih ⊢
    by_cases hm : (granulesOf e m.addr).contains g = true
    · rw [List.filter_cons_of_pos (p := fun m : Move => (granulesOf e m.addr).contains g) hm, List.flatMap_cons, List.flatMap_cons, ih]
    · rw [List.filter_cons_of_neg (p := fun m : Move => (granulesOf e m.addr).contains g) hm, List.flatMap_cons, ih]
      have : ((span m.addr e).zip (toBytes e (snapVal m.data))).filter (fun x => decide (x.1 / 256 = g)) = [] := by
        refine List.filter_eq_nil_iff.mpr fun x hx hg => hm ?_
        rw [← of_decide_eq_true hg]
        exact granule_of_byte he (List.of_mem_zip hx).1
      rw [this, List.nil_append]

/-! ## Granules written one after the other -/

/-- An element whose data are there and good. -/
def Move.good (m : Move) : Prop := ∃ v, m.data = some (v, 0)

theorem moveHalt_local {s : State} {d : Dest} {g : Nat} {m : Move} (hd : d.isLocal = true) (hm : m.good) : s.moveHalt d g m = none := by
  obtain ⟨v, hv⟩ := hm
  unfold State.moveHalt
  rw [hv, hd]
  rfl

theorem moveHalt_translated {s : State} {d : Dest} {g : Nat} {m : Move} (hd : d.isLocal = false) (hm : m.good)
    (ht : ∀ va ∈ span m.addr d.size, (s.tlbLook d.core d.ctx va .write).isSome = true) : s.moveHalt d g m = none := by
  obtain ⟨v, hv⟩ := hm
  have hf : (span m.addr d.size).find? (fun va => decide (va / 256 = g) && (s.trans d.core d.ctx .write va).isNone) = none := by
    refine List.find?_eq_none.mpr fun va hva => ?_
    obtain ⟨e, he⟩ := Option.isSome_iff_exists.mp (ht va hva)
    rw [State.trans, he]
    simp
  unfold State.moveHalt
  rw [hv, hd, hf]
  rfl

/-- A granule that nothing holds up is written, and the move goes on. -/
theorem moveGranules_step {s : State} {d : Dest} {ms : List Move} {g : Nat} {l : List Nat} {n : Nat} (h : ∀ m ∈ ms, s.moveHalt d g m = none) :
    s.moveGranules d ms (g :: l) (n + 1) =
      let x := (s.putDest d (granuleBytes d.size g (ms.filter fun m => (granulesOf d.size m.addr).contains g))).moveGranules d ms l n
      (x.1, x.2.1 + 1, x.2.2) := by
  have hf : (ms.filter fun m => (granulesOf d.size m.addr).contains g).findSome? (s.moveHalt d g) = none :=
    List.findSome?_eq_none_iff.mpr fun m hm => h m (List.mem_of_mem_filter hm)
  rw [State.moveGranules]
  dsimp only
  rw [hf]

/-- From `s` to `t` a crew's local store has taken bytes, and nothing else has changed. -/
def StoreTakes (q : CrewRef) (bs : List (Nat × Byte)) (s t : State) : Prop :=
  t = { s with crews := t.crews } ∧ t.crew? q = (s.crew? q).map fun c => { c with store := SMap.putAll 0 c.store bs }

theorem StoreTakes.trans {q : CrewRef} {a b : List (Nat × Byte)} {s t u : State} (h : StoreTakes q a s t) (k : StoreTakes q b t u) : StoreTakes q (a ++ b) s u := by
  refine ⟨k.1.trans (by rw [h.1]), ?_⟩
  rw [k.2, h.2, Option.map_map]
  cases s.crew? q with
  | none => rfl
  | some c => exact congrArg (fun m => some { c with store := m }) (putAll_append a b c.store).symm

theorem storeTakes_nil (q : CrewRef) (s : State) : StoreTakes q [] s s := ⟨rfl, by cases s.crew? q <;> rfl⟩

theorem storeTakes_putDest {s : State} {d : Dest} (hd : d.isLocal = true) (bs : List (Nat × Byte)) : StoreTakes d.crew bs s (s.putDest d bs) := by
  unfold State.putDest
  rw [if_pos hd]
  exact ⟨rfl, crew?_modCrew_same s d.crew _ (by intro c; exact ⟨rfl, rfl⟩)⟩

theorem moveGranules_local {d : Dest} {ms : List Move} (hd : d.isLocal = true) (he : d.size ≤ 256) (hm : ∀ m ∈ ms, m.good) (l : List Nat) :
    ∀ (s : State) (n : Nat), l.length ≤ n →
      ∃ t, s.moveGranules d ms l n = (t, l.length, none) ∧ StoreTakes d.crew (l.flatMap fun g => granuleBytes d.size g ms) s t := by
  induction l with
  | nil => exact fun s n _ => ⟨s, by cases n <;> rfl, storeTakes_nil _ s⟩
  | cons g l ih =>
    intro s n hn
    obtain ⟨n, rfl⟩ : ∃ m, n = m + 1 := ⟨n - 1, by rw [List.length_cons] at hn; omega⟩
    obtain ⟨t, ht, hst⟩ := ih (s.putDest d (granuleBytes d.size g ms)) n (by rw [List.length_cons] at hn; omega)
    refine ⟨t, ?_, (storeTakes_putDest hd _).trans hst⟩
    rw [moveGranules_step fun m hmm => moveHalt_local hd (hm m hmm), granuleBytes_mine he, ht]
    rfl

/-! ## A destination in memory -/

theorem onlyMem_setByte (s : State) (k : Nat) (b : Byte) : OnlyMem s (s.setByte k b) := ⟨_, _, _, rfl⟩

theorem onlyMem_coverPoison (s : State) (keys : List Nat) : OnlyMem s (s.coverPoison keys) := by
  unfold State.coverPoison
  split
  · exact .refl s
  · exact ⟨_, _, _, rfl⟩

theorem memByte_coverPoison (s : State) (keys : List Nat) (k : Nat) : (s.coverPoison keys).memByte k = s.memByte k := by
  unfold State.coverPoison
  split <;> rfl

theorem onlyMem_writeBytes (s : State) (l : List (Nat × Byte)) : OnlyMem s (s.writeBytes l) := by
  have h := onlyMem_foldl (fun s (x : Nat × Byte) => s.setByte x.1 x.2) (fun s x => onlyMem_setByte s x.1 x.2) l s
  unfold State.writeBytes
  exact (h.trans (onlyMem_noteWrite _ _)).trans (onlyMem_coverPoison _ _)

/-- Of two bytes written to one place the later remains. -/
theorem memByte_writeBytes (s : State) (l : List (Nat × Byte)) (key : Nat) : (s.writeBytes l).memByte key = (lastByte l key).getD (s.memByte key) := by
  have hf (l : List (Nat × Byte)) (s : State) : (l.foldl (fun s x => s.setByte x.1 x.2) s).memByte key = (lastByte l key).getD (s.memByte key) := by
    induction l generalizing s with
    | nil => rfl
    | cons x l ih =>
      rw [List.foldl_cons, ih, ← List.singleton_append, lastByte_append, lastByte_one, memByte_setByte]
      cases lastByte l key with
      | some b => rfl
      | none =>
        by_cases hk : key = x.1
        · rw [if_pos hk, if_pos hk.symm]; rfl
        · rw [if_neg hk, if_neg (Ne.symm hk)]; rfl
  rw [← hf, State.writeBytes, memByte_coverPoison, (sameMem_noteWrite _ _).memByte]

/-- Where bytes of a destination lie in memory. -/
def Dest.keyed (d : Dest) (s : State) (bs : List (Nat × Byte)) : List (Nat × Byte) :=
  bs.filterMap fun x => (s.tlbLook d.core d.ctx x.1 .write).map fun e => (physKey e x.1, x.2)

theorem keyed_congr (d : Dest) {s t : State} (h : OnlyMem s t) (bs : List (Nat × Byte)) : d.keyed t bs = d.keyed s bs := by
  unfold Dest.keyed
  simp only [State.tlbLook, h.core?, State.die?, h.dies]

theorem keyed_append (d : Dest) (s : State) (a b : List (Nat × Byte)) : d.keyed s (a ++ b) = d.keyed s a ++ d.keyed s b := List.filterMap_append

/-- From `s` to `t` memory has taken bytes, and nothing else has changed. -/
def MemTakes (bs : List (Nat × Byte)) (s t : State) : Prop := OnlyMem s t ∧ ∀ key, t.memByte key = (lastByte bs key).getD (s.memByte key)

theorem MemTakes.trans {a b : List (Nat × Byte)} {s t u : State} (h : MemTakes a s t) (k : MemTakes b t u) : MemTakes (a ++ b) s u := by
  refine ⟨h.1.trans k.1, fun key => ?_⟩
  rw [k.2, h.2, lastByte_append]
  cases lastByte b key <;> rfl

theorem memTakes_putDest {s : State} {d : Dest} (hd : d.isLocal = false) {bs : List (Nat × Byte)}
    (ht : ∀ b ∈ bs, (s.tlbLook d.core d.ctx b.1 .write).isSome = true) : MemTakes (d.keyed s bs) s (s.putDest d bs) := by
  have hk : bs.filterMap (fun x => (s.trans d.core d.ctx .write x.1).map fun e => (physKey e x.1, x.2)) = d.keyed s bs := by
    refine List.filterMap_congr fun b hb => ?_
    obtain ⟨e, he⟩ := Option.isSome_iff_exists.mp (ht b hb)
    rw [State.trans, he]
  unfold State.putDest
  rw [if_neg (by rw [hd]; exact Bool.false_ne_true), hk]
  exact ⟨onlyMem_writeBytes s _, memByte_writeBytes s _⟩

theorem tlbLook_onlyMem {s t : State} (h : OnlyMem s t) (core ctx va : Nat) (r : Right) : t.tlbLook core ctx va r = s.tlbLook core ctx va r := by
  unfold State.tlbLook State.die?
  rw [h.core?, h.dies]

theorem moveGranules_global {d : Dest} {ms : List Move} (hd : d.isLocal = false) (he : d.size ≤ 256) (hm : ∀ m ∈ ms, m.good) (l : List Nat) :
    ∀ (s : State) (n : Nat), l.length ≤ n → (∀ m ∈ ms, ∀ va ∈ span m.addr d.size, (s.tlbLook d.core d.ctx va .write).isSome = true) →
      ∃ t, s.moveGranules d ms l n = (t, l.length, none) ∧ MemTakes (d.keyed s (l.flatMap fun g => granuleBytes d.size g ms)) s t := by
  induction l with
  | nil => exact fun s n _ _ => ⟨s, by cases n <;> rfl, .refl s, fun _ => rfl⟩
  | cons g l ih =>
    intro s n hn ht
    obtain ⟨n, rfl⟩ : ∃ m, n = m + 1 := ⟨n - 1, by rw [List.length_cons] at hn; omega⟩
    have hput : MemTakes (d.keyed s (granuleBytes d.size g ms)) s (s.putDest d (granuleBytes d.size g ms)) := by
      refine memTakes_putDest hd fun b hb => ?_
      obtain ⟨m, hmm, hb⟩ := List.mem_flatMap.mp hb
      exact ht m hmm b.1 (List.of_mem_zip (List.mem_of_mem_filter hb)).1
    obtain ⟨t, heq, hst⟩ := ih (s.putDest d (granuleBytes d.size g ms)) n (by rw [List.length_cons] at hn; omega) fun m hmm va hva => by
      rw [tlbLook_onlyMem hput.1]
      exact ht m hmm va hva
    refine ⟨t, ?_, ?_⟩
    · rw [moveGranules_step fun m hmm => moveHalt_translated hd (hm m hmm) (ht m hmm), granuleBytes_mine he, heq]
      rfl
    · rw [List.flatMap_cons, keyed_append]
      rw [keyed_congr d hput.1] at hst
      exact hput.trans hst

end Sys2Proof.Machine
end

