-- ==== Sys2Proof/Proofs/EngineMoves.lean ====
section
/-! SUPPORT. What an engine operation reads and finds translated (R215, R222): where its elements are as first seen, and the TLBs hold its pages,
an attempt takes them as they are and nothing is walked. -/
namespace Sys2Proof.Machine

/-! ## Pages that the TLBs hold -/

theorem elemSize_le (t : Ty) : elemSize t ≤ 256 := by cases t <;> decide

/-- Pages of which no walk changes anything. -/
theorem touchPages_same {s : State} {core ctx : Nat} {a : Right} {ps : List Nat} (h : ∀ p ∈ ps, (s.translate core ctx (p * 65536) a).1 = s) :
    s.touchPages core ctx a ps = s := by
  unfold State.touchPages
  induction ps with
  | nil => rfl
  | cons p ps ih =>
    rw [List.foldl_cons, h p List.mem_cons_self]
    exact ih fun q hq => h q (List.mem_cons_of_mem _ hq)

theorem translate_hit {s : State} {core ctx va : Nat} {a : Right} (h : (s.tlbLook core ctx va a).isSome = true) : (s.translate core ctx va a).1 = s := by
  obtain ⟨e, he⟩ := Option.isSome_iff_exists.mp h
  rw [State.translate, he]

theorem pagesOf_local {x : Source} (h : x.isLocal = true) : pagesOf [x] = [] := by
  unfold pagesOf
  simp [h]

/-- A source all of whose bytes the TLBs translate. -/
def Source.Held (x : Source) (s : State) (core ctx : Nat) (a : Right) : Prop :=
  x.isLocal = false → ∀ z ∈ x.addrs, ∀ va ∈ span z x.size, (s.tlbLook core ctx va a).isSome = true

theorem touchPages_held {x : Source} {s : State} {core ctx : Nat} {a : Right} (h : x.Held s core ctx a) (hs : 0 < x.size) :
    s.touchPages core ctx a (pagesOf [x]) = s := by
  cases hl : x.isLocal with
  | true => rw [pagesOf_local hl]; rfl
  | false =>
    refine touchPages_same fun p hp => translate_hit ?_
    have key (va : Nat) (hv : p = pageOf va) (hh : (s.tlbLook core ctx va a).isSome = true) : (s.tlbLook core ctx (p * 65536) a).isSome = true := by
      rw [tlbLook_page s core ctx (b := va) (by rw [hv]; exact Nat.mul_div_cancel _ (by decide))]
      exact hh
    unfold pagesOf at hp
    rw [List.mem_eraseDups, List.flatMap_singleton, hl, if_neg Bool.false_ne_true] at hp
    obtain ⟨z, hz, hp⟩ := List.mem_flatMap.mp hp
    obtain rfl | hp := List.mem_cons.mp hp
    · exact key z rfl (h hl z hz z (mem_span.mpr (by omega)))
    · obtain rfl := List.mem_singleton.mp hp
      exact key (z + (x.size - 1)) rfl (h hl z hz _ (mem_span.mpr (by omega)))

/-! ## Elements that are there -/

theorem keysAt_mono {tr tr' : Trans} (h : ∀ va e, tr va = some e → tr' va = some e) {a n : Nat} {ks : List Nat} (hk : keysAt tr a n = some ks) :
    keysAt tr' a n = some ks := by
  unfold keysAt at hk ⊢
  generalize span a n = l at hk ⊢
  induction l generalizing ks with
  | nil => exact hk
  | cons va l ih =>
    rw [List.mapM_cons] at hk ⊢
    obtain ⟨k, hk1, hk⟩ := Option.bind_eq_some_iff.mp hk
    obtain ⟨r, hr, hk⟩ := Option.bind_eq_some_iff.mp hk
    obtain ⟨e, he, rfl⟩ := Option.map_eq_some_iff.mp hk1
    rw [h va e he, ih hr]
    exact hk

theorem elem_mono {tr tr' : Trans} (h : ∀ va e, tr va = some e → tr' va = some e) {y : Source} {store : SMap Byte} {by1 : Nat → Byte × Bool} {a : Nat}
    {v : Elem} (hv : y.elem store tr by1 a = some v) : y.elem store tr' by1 a = some v := by
  unfold Source.elem at hv ⊢
  split at hv
  · next hl => rw [if_pos hl]; exact hv
  · next hl =>
    rw [if_neg hl]
    obtain ⟨ks, hk, rfl⟩ := Option.map_eq_some_iff.mp hv
    rw [keysAt_mono h hk]
    rfl

/-- Every byte of an element that is there is translated. -/
theorem held_of_elem {tr : Trans} {y : Source} {store : SMap Byte} {by1 : Nat → Byte × Bool} {a : Nat} (hl : y.isLocal = false)
    (hv : (y.elem store tr by1 a).isSome = true) : ∀ va ∈ span a y.size, (tr va).isSome = true := by
  unfold Source.elem at hv
  rw [if_neg (by rw [hl]; exact Bool.false_ne_true), Option.isSome_map] at hv
  intro va hva
  have := looks_of_mapM hv va hva
  rwa [Option.isSome_map] at this

theorem pickSnap_same (n : Nat) (l : Snap) : pickSnap n l l = (n, l) := by
  induction l generalizing n with
  | nil => rfl
  | cons o l ih =>
    have ho : pickElem n o o = (n, o) := by
      cases o with
      | none => rfl
      | some x => exact if_pos rfl
    unfold pickSnap
    rw [ho]
    dsimp only
    rw [ih]

theorem keepSnap_same (l : Snap) : keepSnap l l = l := by
  induction l with
  | nil => rfl
  | cons o l ih =>
    unfold keepSnap
    rw [ih]
    cases o <;> rfl

theorem settled_nil (j : Job) : j.settled [] = j.pairs.map fun _ => false := by
  unfold Job.settled
  rw [List.isEmpty_nil, Bool.not_true, Bool.and_false, if_neg Bool.false_ne_true]
  refine List.map_congr_left fun p _ => ?_
  have h (l : List Nat) : l.any ([] : List Nat).contains = false := List.any_eq_false.mpr fun a _ => by simp
  rw [h]
  cases p.2 with
  | none => rfl
  | some a => exact h _

/-- The move of one element of a job. -/
def Job.move (j : Job) (h : Nat × Option Nat → Option Elem) (p : Nat × Option Nat) : Move :=
  { addr := p.1, src := p.2, data := match p.2 with | some _ => h p | none => some (j.fill, 0) }

section
variable (j : Job) (h : Nat × Option Nat → Option Elem)

theorem copyMoves_map : copyMoves j (j.pairs.map h) = j.pairs.map (j.move h) := by
  unfold copyMoves
  have hz : j.pairs.zip (j.pairs.map h) = j.pairs.map fun p => (p, h p) := by
    rw [← List.zip_map', List.map_id']
  rw [hz, List.map_map]
  rfl

/-- An attempt on elements none of which has changed, before anything is written. -/
theorem attempt_map (s : State) (store : SMap Byte) (tr : Trans) (hj : s.jobElems j store tr = j.pairs.map h) :
    s.attempt j (j.pairs.map h) [] store tr = { moves := copyMoves j (j.pairs.map h), picked := j.pairs.map h, drawn := s.drawn } := by
  have hz {α β : Type} (f : Nat × Option Nat → α) (g : Nat × Option Nat → β) : (j.pairs.map f).zip (j.pairs.map g) = j.pairs.map fun p => (f p, g p) := List.zip_map'
  have hpick : ((j.settled []).zip ((j.pairs.map h).zip (j.pairs.map h))).map (fun y => if y.1 then y.2.1 else y.2.2) = j.pairs.map h := by
    rw [settled_nil, hz, hz, List.map_map]
    rfl
  have htouch : (j.pairs.map fun p => (granulesOf j.size p.1).any ([] : List Nat).contains) = j.pairs.map fun _ => false :=
    List.map_congr_left fun p _ => List.any_eq_false.mpr fun a _ => by simp
  have hdata : (((j.pairs.map fun _ => false).zip (j.pairs.map h)).zip (j.pairs.map h)).map (fun y => if y.1.1 || y.1.2.isSome then y.2 else none) =
      j.pairs.map h := by
    rw [hz, hz, List.map_map]
    refine List.map_congr_left fun p _ => ?_
    dsimp only [Function.comp]
    split
    · rfl
    · next hn => exact (Option.not_isSome_iff_eq_none.mp hn).symm
  unfold State.attempt
  dsimp only
  rw [hj, hpick, pickSnap_same]
  dsimp only
  rw [htouch, hdata]
  rfl

end

end Sys2Proof.Machine
end

