-- ==== Sys2Proof/Proofs/CopyRuns.lean ====
section
/-! SUPPORT. Copies, parkings and drains that run to their end (R215, R217, R222, R223). -/
namespace Sys2Proof.Machine

/-- A tag that has become DONE, its crew not being over (R213, R217). -/
theorem tagDone_finishTag {s : State} {r : CrewRef} {c : Crew} {n : Nat} (hc : s.crew? r = some c) (hn : n < c.tags.length) (ho : c.over = false)
    (code : Nat) (addr : DWord) (read filled : Nat) :
    TagDone (s.finishTag r n code addr read filled) r n code read filled ∧
      ∃ k, (s.finishTag r n code addr read filled).crew? r = some k ∧ k.strands = c.strands ∧ k.store = c.store ∧
        (k.tag n).addr = if code = 1 then addr else 0 := by
  obtain ⟨T, hT⟩ : ∃ T, c.tags[n]? = some T := ⟨_, List.getElem?_eq_getElem hn⟩
  have hk := crew?_finishTag hc ho hT code addr read filled
  have ht : (((c.withTag n fun t => t.ended (T.op.elim 0 (·.strand)) s.cycle code addr read filled).afterTag (T.op.elim 0 (·.id)) n code)).tag n =
      T.ended (T.op.elim 0 (·.strand)) s.cycle code addr read filled := by
    refine HasTag.tag ?_
    rw [Crew.afterTag, Crew.withTag, getElem?_modNth, if_pos rfl, hT]
    rfl
  refine ⟨⟨_, hk, ?_⟩, _, hk, rfl, rfl, by rw [ht]; rfl⟩
  rw [ht]
  exact ⟨rfl, rfl, rfl, rfl, rfl, rfl⟩

theorem memByte_finishTag {s : State} {r : CrewRef} {c : Crew} {n : Nat} (hc : s.crew? r = some c) (hn : n < c.tags.length) (ho : c.over = false)
    (code : Nat) (addr : DWord) (read filled : Nat) (key : Nat) : (s.finishTag r n code addr read filled).memByte key = s.memByte key := by
  rw [finishTag_eq hc ho (List.getElem?_eq_getElem hn)]
  rfl

theorem slot?_finishTag {s : State} {r : CrewRef} {c : Crew} {n : Nat} (hc : s.crew? r = some c) (hn : n < c.tags.length) (ho : c.over = false)
    (code : Nat) (addr : DWord) (read filled : Nat) (die k : Nat) : (s.finishTag r n code addr read filled).slot? die k = s.slot? die k := by
  rw [finishTag_eq hc ho (List.getElem?_eq_getElem hn)]
  rfl

/-! ## Counts -/

/-- With every granule written every element counts. -/
theorem movedCount_all (e : Nat) (ms : List Move) (fill : Bool) :
    movedCount e ms (granuleOrder e ms).length fill = (ms.filter fun m => m.src.isNone == fill).length := by
  unfold movedCount
  rw [List.take_length]
  refine congrArg List.length (List.filter_congr fun m hm => ?_)
  have hall : (granulesOf e m.addr).all (fun g => (granuleOrder e ms).contains g) = true := by
    refine List.all_eq_true.mpr fun g hg => List.contains_iff_mem.mpr ?_
    exact List.mem_eraseDups.mpr (List.mem_flatMap.mpr ⟨m, hm, hg⟩)
  rw [hall, Bool.and_true]

/-- What an element of a move has to find translated, its bytes are among those moved. -/
theorem mem_movedBytes {e : Nat} (he : e ≤ 256) {ms : List Move} {m : Move} (hm : m ∈ ms) {va : Nat} (hva : va ∈ span m.addr e) :
    ∃ b, (va, b) ∈ movedBytes e ms := by
  obtain ⟨i, hi, hiv⟩ := List.getElem_of_mem hva
  have hlen : (toBytes e (snapVal m.data)).length = (span m.addr e).length := by rw [length_toBytes, span, List.length_map, List.length_range]
  have hz : (va, (toBytes e (snapVal m.data))[i]'(by rw [hlen]; exact hi)) ∈ (span m.addr e).zip (toBytes e (snapVal m.data)) := by
    refine List.mem_iff_getElem.mpr ⟨i, by rw [List.length_zip, hlen, Nat.min_self]; exact hi, ?_⟩
    rw [List.getElem_zip, hiv]
  refine ⟨_, List.mem_flatMap.mpr ⟨va / 256, ?_, List.mem_flatMap.mpr ⟨m, hm, List.mem_filter.mpr ⟨hz, decide_eq_true rfl⟩⟩⟩⟩
  exact List.mem_eraseDups.mpr (List.mem_flatMap.mpr ⟨m, hm, List.contains_iff_mem.mp (granule_of_byte he hva)⟩)

/-! ## Elements unchanged since the issue -/

/-- The elements that a job reads now are all correctable, and those of the issue; nothing has been moved. -/
structure Steady (s : State) (x : TagCtx) (j : Job) (now : Snap) : Prop where
  read : now = s.jobElems j x.c.store fun va => s.tlbLook x.o.core x.g.ctx va .read
  olds : x.o.olds = [now]
  good : allGood j now
  granule : x.o.granule = 0
  alive : x.c.over = false

theorem trans_look {s : State} {va : Nat} {e : Xlate} (core ctx : Nat) (r : Right) (he : s.tlbLook core ctx va r = some e) : s.trans core ctx r va = some e := by
  rw [State.trans, he]

/-- The element that a pair of a job takes. -/
def Job.taken (j : Job) (s : State) (x : TagCtx) (p : Nat × Option Nat) : Option Elem :=
  p.2.bind (j.src.elem x.c.store (fun va => s.tlbLook x.o.core x.g.ctx va .read) s.copyByte)

section
variable {s : State} {x : TagCtx} {j : Job} {now : Snap} (h : Steady s x j now)
include h

theorem Steady.now_eq : now = j.pairs.map (j.taken s x) := h.read

theorem Steady.taken {p : Nat × Option Nat} (hp : p ∈ j.pairs) (hs : p.2.isSome = true) : ∃ v, j.taken s x p = some (v, 0) := by
  refine h.good (p, j.taken s x p) ?_ hs
  have hz : j.pairs.zip (j.pairs.map (j.taken s x)) = j.pairs.map fun p => (p, j.taken s x p) := by rw [← List.zip_map', List.map_id']
  rw [h.now_eq, hz]
  exact List.mem_map.mpr ⟨p, hp, rfl⟩

/-- Any translation that gives what the TLBs give reads the same. -/
theorem Steady.elems {tr : Trans} (ht : ∀ va e, s.tlbLook x.o.core x.g.ctx va .read = some e → tr va = some e) : s.jobElems j x.c.store tr = now := by
  rw [h.now_eq]
  refine List.map_congr_left fun p hp => ?_
  cases hs : p.2 with
  | none => rw [Job.taken, hs]; rfl
  | some a =>
    obtain ⟨v, hv⟩ := h.taken hp (by rw [hs]; rfl)
    rw [hv]
    rw [Job.taken, hs] at hv
    exact elem_mono ht hv

theorem Steady.held : ({ j.src with addrs := j.pairs.filterMap (·.2) } : Source).Held s x.o.core x.g.ctx .read := by
  intro hl z hz va hva
  obtain ⟨p, hp, ha⟩ := List.mem_filterMap.mp hz
  obtain ⟨v, hv⟩ := h.taken hp (by rw [ha]; rfl)
  rw [Job.taken, ha] at hv
  exact held_of_elem (y := j.src) hl (by rw [show j.src.elem _ _ _ z = some (v, 0) from hv]; rfl) va hva

theorem Steady.firstSeen : s.firstSeen x j now = now := by
  unfold State.firstSeen
  dsimp only
  rw [h.elems]
  · exact keepSnap_same now
  · intro va e he
    rw [trans_look _ _ _ he]

theorem Steady.attempt : s.attempt j now [] x.c.store (s.trans x.o.core x.g.ctx .read) = { moves := copyMoves j now, picked := now, drawn := s.drawn } := by
  have := attempt_map j (j.taken s x) s x.c.store (s.trans x.o.core x.g.ctx .read) ((h.elems fun va e he => trans_look _ _ _ he).trans h.now_eq)
  rwa [← h.now_eq] at this

theorem Steady.moves_good {m : Move} (hm : m ∈ copyMoves j now) : m.good := by
  rw [h.now_eq, copyMoves_map] at hm
  obtain ⟨p, hp, rfl⟩ := List.mem_map.mp hm
  cases hs : p.2 with
  | none => exact ⟨j.fill, by rw [Job.move]; dsimp only; rw [hs]⟩
  | some a =>
    obtain ⟨v, hv⟩ := h.taken hp (by rw [hs]; rfl)
    exact ⟨v, by rw [Job.move]; dsimp only; rw [hs]; exact hv⟩

theorem Steady.granules : granuleOrder j.size (copyMoves j now) = j.granules := by
  rw [h.now_eq, copyMoves_map]
  unfold granuleOrder Job.granules
  rw [List.flatMap_map]
  rfl

theorem Steady.count (read : Bool) : ((copyMoves j now).filter fun m => m.src.isNone == !read).length = (j.pairs.filter fun p => p.2.isSome == read).length := by
  rw [h.now_eq, copyMoves_map, List.filter_map, List.length_map]
  refine congrArg List.length (List.filter_congr fun p _ => ?_)
  rw [Function.comp, Job.move]
  cases p.2 <;> cases read <;> rfl

theorem Steady.beginOp : s.beginOp x = s := by
  unfold State.beginOp
  rw [h.olds]
  rfl

theorem Steady.touchJob (hs : 0 < j.src.size) {dst : Option View} (hd : ∀ v, dst = some v → v.source.Held s x.o.core x.g.ctx .write) :
    s.touchJob x j dst = s := by
  unfold State.touchJob
  rw [touchPages_held h.held hs]
  cases dst with
  | none => rfl
  | some v => exact touchPages_held (hd v rfl) (tySize_pos v.ty)

end

/-! ## A CPY runs to its end -/

section
variable {s : State} {x : TagCtx} {n : Nat} {src dst : View} {now : Snap} (h : Steady s x (copyJob src dst) now)
include h

theorem moveCopy_all {t : State} (hd : dst.source.Held s x.o.core x.g.ctx .write)
    (hm : s.moveGranules (x.dest dst) (copyMoves (copyJob src dst) now) (copyJob src dst).granules (copyJob src dst).granules.length =
      (t, (copyJob src dst).granules.length, none)) :
    s.moveCopy x n src dst (copyJob src dst).granules.length none = t.endMove x n dst (copyMoves (copyJob src dst) now) (copyJob src dst).granules.length 0 := by
  unfold State.moveCopy
  dsimp only
  rw [h.beginOp, h.touchJob (tySize_pos src.ty) (fun v hv => by cases hv; exact hd), h.olds, List.headD_cons, h.firstSeen, h.granule, List.take_zero,
    h.attempt, List.drop_zero, Nat.zero_add]
  dsimp only
  rw [hm]

end

/-- The copy of a ready tag. -/
theorem copyReady_spec {s : State} {r : CrewRef} {n : Nat} {x : TagCtx} {src dst : View} (h : s.copyReady r n = some (x, src, dst)) :
    s.tagCtx? r n = some x := by
  obtain ⟨y, hy, h⟩ := Option.bind_eq_some_iff.mp h
  split at h
  · split at h
    · cases h; exact hy
    · cases h
  · cases h

theorem tag_lt {s : State} {r : CrewRef} {n : Nat} {x : TagCtx} (h : s.tagCtx? r n = some x) : n < x.c.tags.length := by
  obtain ⟨-, -, -, ht, -⟩ := tagCtx?_spec h
  exact (List.getElem?_eq_some_iff.mp ht).1

theorem source_held_local {v : View} (hl : v.isLocal = true) (s : State) (core ctx : Nat) (a : Right) : v.source.Held s core ctx a := by
  intro h
  rw [show v.source.isLocal = v.isLocal from rfl, hl] at h
  cases h

theorem dropDest_local {s : State} {x : TagCtx} {v : View} (hl : v.isLocal = true) (ms : List Move) : s.dropDest x v ms = s := by
  unfold State.dropDest State.dropMeeting
  rw [hl]
  rfl

/-- A crew whose local store takes bytes, and whose operation then ends. -/
theorem store_finishTag {s t : State} {r : CrewRef} {c : Crew} {n : Nat} {bs : List (Nat × Byte)} (hc : s.crew? r = some c) (hn : n < c.tags.length)
    (ho : c.over = false) (ht : StoreTakes r bs s t) (code : Nat) (addr : DWord) (read filled : Nat) :
    TagDone (t.finishTag r n code addr read filled) r n code read filled ∧ ∃ k, (t.finishTag r n code addr read filled).crew? r = some k ∧
      (∀ a, SMap.look 0 k.store a = (lastByte bs a).getD (SMap.look 0 c.store a)) ∧
      ∀ key, (t.finishTag r n code addr read filled).memByte key = s.memByte key := by
  have hk : t.crew? r = some { c with store := SMap.putAll 0 c.store bs } := by rw [ht.2, hc]; rfl
  obtain ⟨hdone, k, hfin, -, hstore, -⟩ := tagDone_finishTag hk hn ho code addr read filled
  refine ⟨hdone, k, hfin, fun a => ?_, fun key => ?_⟩
  · rw [hstore]
    exact look_putAll bs c.store a
  · rw [memByte_finishTag hk hn ho, ht.1]
    rfl

theorem runCopy_ready {s : State} {r : CrewRef} {n : Nat} {x : TagCtx} {src dst : View} (h : s.copyReady r n = some (x, src, dst)) :
    s.runCopy r n = s.moveCopy x n src dst (copyJob src dst).granules.length none := by
  rw [State.runCopy, h]

/-- A copy into the local store. -/
theorem copy_local {s : State} {r : CrewRef} {n : Nat} {x : TagCtx} {src dst : View} {now : Snap} (hr : s.copyReady r n = some (x, src, dst))
    (h : Steady s x (copyJob src dst) now) (hl : dst.isLocal = true) :
    let j := copyJob src dst
    TagDone (s.runCopy r n) r n 0 (j.pairs.filter fun p => p.2.isSome == true).length (j.pairs.filter fun p => p.2.isSome == false).length ∧
      ∃ k, (s.runCopy r n).crew? r = some k ∧
        (∀ a, SMap.look 0 k.store a = (lastByte (movedBytes j.size (copyMoves j now)) a).getD (SMap.look 0 x.c.store a)) ∧
        ∀ key, (s.runCopy r n).memByte key = s.memByte key := by
  intro j
  have hx := copyReady_spec hr
  obtain ⟨-, hc, href, -⟩ := tagCtx?_spec hx
  obtain ⟨t, hm, ht⟩ := moveGranules_local (d := x.dest dst) (ms := copyMoves j now) hl (elemSize_le dst.ty) (fun m hm => h.moves_good hm) j.granules s _ le_rfl
  have hbytes : (j.granules.flatMap fun g => granuleBytes (x.dest dst).size g (copyMoves j now)) = movedBytes j.size (copyMoves j now) := by
    rw [movedBytes, h.granules]
    rfl
  rw [hbytes, show (x.dest dst).crew = x.c.ref from rfl, href] at ht
  rw [runCopy_ready hr, moveCopy_all h (source_held_local hl _ _ _ _) hm, State.endMove, dropDest_local hl, href]
  have hq : j.granules.length = (granuleOrder (elemSize dst.ty) (copyMoves j now)).length := congrArg List.length h.granules.symm
  rw [hq, movedCount_all, movedCount_all, ← h.count true, ← h.count false]
  exact store_finishTag hc (tag_lt hx) h.alive ht 0 0 _ _

/-- A copy to memory. -/
theorem copy_global {s : State} {r : CrewRef} {n : Nat} {x : TagCtx} {src dst : View} {now : Snap} (hr : s.copyReady r n = some (x, src, dst))
    (h : Steady s x (copyJob src dst) now) (hl : dst.isLocal = false)
    (hb : ∀ b ∈ movedBytes (copyJob src dst).size (copyMoves (copyJob src dst) now), (s.tlbLook x.o.core x.g.ctx b.1 .write).isSome = true) :
    let j := copyJob src dst
    TagDone (s.runCopy r n) r n 0 (j.pairs.filter fun p => p.2.isSome == true).length (j.pairs.filter fun p => p.2.isSome == false).length ∧
      ∀ key, (s.runCopy r n).memByte key =
        (lastByte ((movedBytes j.size (copyMoves j now)).filterMap fun b => (s.tlbLook x.o.core x.g.ctx b.1 .write).map fun e => (physKey e b.1, b.2)) key).getD
          (s.memByte key) := by
  intro j
  have hx := copyReady_spec hr
  obtain ⟨-, hc, href, -⟩ := tagCtx?_spec hx
  have hms (m : Move) (hm : m ∈ copyMoves j now) (va : Nat) (hva : va ∈ span m.addr (elemSize dst.ty)) : (s.tlbLook x.o.core x.g.ctx va .write).isSome = true := by
    obtain ⟨b, hmem⟩ := mem_movedBytes (elemSize_le dst.ty) hm hva
    exact hb (va, b) hmem
  have hheld : dst.source.Held s x.o.core x.g.ctx .write := by
    intro _ z hz va hva
    obtain ⟨k, hk, rfl⟩ := List.mem_map.mp hz
    obtain ⟨p, hp, hk⟩ : ∃ p ∈ j.pairs, p.1 = dst.elemAddr k := ⟨_, List.mem_map.mpr ⟨k, hk, rfl⟩, rfl⟩
    have hm : j.move (j.taken s x) p ∈ copyMoves j now := by
      rw [h.now_eq, copyMoves_map]
      exact List.mem_map_of_mem hp
    exact hms _ hm va (by rw [← hk] at hva; exact hva)
  obtain ⟨t, hm, ht⟩ := moveGranules_global (d := x.dest dst) (ms := copyMoves j now) hl (elemSize_le dst.ty) (fun m hm => h.moves_good hm) j.granules s _ le_rfl hms
  have hbytes : (j.granules.flatMap fun g => granuleBytes (x.dest dst).size g (copyMoves j now)) = movedBytes j.size (copyMoves j now) := by
    rw [movedBytes, h.granules]
    rfl
  rw [hbytes] at ht
  rw [runCopy_ready hr, moveCopy_all h hheld hm, State.endMove, href]
  have hq : j.granules.length = (granuleOrder (elemSize dst.ty) (copyMoves j now)).length := congrArg List.length h.granules.symm
  have hside : MemSide t (t.dropDest x dst (copyMoves j now)) := memSide_dropDest _ _ _ _
  have hcrews : t.crews = s.crews := by obtain ⟨⟨_, _, _, rfl⟩, -⟩ := ht; rfl
  have hk : (t.dropDest x dst (copyMoves j now)).crew? r = some x.c := by rw [hside.crew? r, crew?_of_crews hcrews]; exact hc
  have hsame : SameMem t (t.dropDest x dst (copyMoves j now)) := by
    unfold State.dropDest State.dropMeeting
    rw [hl]
    exact ((sameMem_invalidate _ _ _).trans (sameMem_modCore _ _ _)).trans ((sameMem_invalidate _ _ _).trans (sameMem_modCore _ _ _))
  rw [hq, movedCount_all, movedCount_all, ← h.count true, ← h.count false]
  refine ⟨(tagDone_finishTag hk (tag_lt hx) h.alive 0 0 _ _).1, fun key => ?_⟩
  rw [memByte_finishTag hk (tag_lt hx) h.alive, hsame.memByte]
  exact ht.2 key

end Sys2Proof.Machine
end

