-- ==== Sys2Proof/Proofs/ParkRuns.lean ====
section
/-! SUPPORT. Parkings, drains and vector products that run to their end, and a copy that a page fault holds up (R219, R222 to R224, R244). -/
namespace Sys2Proof.Machine

/-! ## Slots -/

theorem slot?_modSlot (s : State) (die n : Nat) (f : Slot → Slot) : (s.modSlot die n f).slot? die n = (s.slot? die n).map f := by
  unfold State.modSlot State.slot?
  rw [die?_modDie, if_pos rfl]
  cases s.die? die with
  | none => rfl
  | some d =>
    dsimp only [Option.map_some, Option.bind_some]
    rw [getElem?_modNth, if_pos rfl]

theorem parkReady_spec {s : State} {r : CrewRef} {n : Nat} {x : TagCtx} {die : Nat} {id : SlotId} {src : View}
    (h : s.parkReady r n = some (x, die, id, src)) : s.tagCtx? r n = some x := by
  obtain ⟨y, hy, h⟩ := Option.bind_eq_some_iff.mp h
  split at h
  · split at h
    · cases h; exact hy
    · cases h
  · cases h

theorem drainReady_spec {s : State} {r : CrewRef} {n : Nat} {x : TagCtx} {id : SlotId} {acc : Bool} {v : View}
    (h : s.drainReady r n = some (x, id, acc, v)) : s.tagCtx? r n = some x := by
  obtain ⟨y, hy, h⟩ := Option.bind_eq_some_iff.mp h
  split at h
  · split at h
    · cases h; exact hy
    · cases h
  · cases h

theorem nmvReady_spec {s : State} {r : CrewRef} {n : Nat} {x : TagCtx} {b vx y : View} {fb : Option FormatBlock} {rnd : BitVec 2} {sat : Bool}
    (h : s.nmvReady r n = some (x, b, vx, y, fb, rnd, sat)) : s.tagCtx? r n = some x := by
  obtain ⟨y, hy, h⟩ := Option.bind_eq_some_iff.mp h
  split at h
  · split at h
    · cases h; exact hy
    · cases h
  · cases h

/-! ## A CPYM -/

/-- Nothing holds a parking up whose elements are all good. -/
theorem parkHalt_none {s : State} {x : TagCtx} {e : Nat} {ms : List Move} (h : ∀ m ∈ ms, m.good) : parkHalt s x e ms = none := by
  refine List.findSome?_eq_none_iff.mpr fun m hm => ?_
  obtain ⟨v, hv⟩ := h m hm
  rw [hv]
  rfl

/-- A parking whose elements are all good fills its slot. -/
theorem runPark_fills {s : State} {r : CrewRef} {n : Nat} {x : TagCtx} {die : Nat} {id : SlotId} {src : View} {now : Snap} {k : Slot}
    (hx : s.tagCtx? r n = some x) (h : Steady s x (parkJob src) now) (hs : s.slot? die id.slot.toNat = some k) (hh : k.holds x.g.ctx id = true)
    (hd : k.dtag ≠ some n) :
    TagDone (s.runPark x n die id src) r n 0 src.count 0 ∧
      (s.runPark x n die id src).slot? die id.slot.toNat = some { k with data := now.map (fun e => BitVec.ofNat 64 (snapVal e)), ready := true } := by
  obtain ⟨-, hc, href, -⟩ := tagCtx?_spec hx
  have hdata : (copyMoves (parkJob src) now).map (fun m => BitVec.ofNat 64 (snapVal m.data)) = now.map fun e => BitVec.ofNat 64 (snapVal e) := by
    rw [h.now_eq, copyMoves_map, List.map_map, List.map_map]
    refine List.map_congr_left fun p hp => ?_
    obtain ⟨i, -, rfl⟩ := List.mem_map.mp hp
    rfl
  have hlen : (now.map fun e => BitVec.ofNat 64 (snapVal e)).length = src.count := by
    rw [h.now_eq, List.length_map, List.length_map, parkJob, List.length_map, List.length_range]
  have hrun : s.runPark x n die id src = s.parked x n die id (now.map fun e => BitVec.ofNat 64 (snapVal e)) := by
    unfold State.runPark
    dsimp only
    rw [h.beginOp, h.touchJob (tySize_pos src.ty) (by intro v hv; cases hv), h.olds, List.headD_cons, h.firstSeen, h.granule, List.take_zero, h.attempt]
    dsimp only
    rw [parkHalt_none fun m hm => h.moves_good hm, hdata]
  have hslot : (s.modSlot die id.slot.toNat fun k => { k with data := now.map fun e => BitVec.ofNat 64 (snapVal e), ready := true }).slot? die id.slot.toNat =
      some { k with data := now.map (fun e => BitVec.ofNat 64 (snapVal e)), ready := true } := by
    rw [slot?_modSlot, hs]
    rfl
  have hparked : s.parked x n die id (now.map fun e => BitVec.ofNat 64 (snapVal e)) =
      (s.modSlot die id.slot.toNat fun k => { k with data := now.map fun e => BitVec.ofNat 64 (snapVal e), ready := true }).finishTag r n 0 0 src.count 0 := by
    unfold State.parked
    rw [hs]
    simp only [hh, if_true, hslot, href, hlen, decide_eq_false hd, Bool.false_and, Bool.false_eq_true, if_false]
  have hcrew : (s.modSlot die id.slot.toNat fun k => { k with data := now.map fun e => BitVec.ofNat 64 (snapVal e), ready := true }).crew? r = some x.c := hc
  rw [hrun, hparked]
  exact ⟨(tagDone_finishTag hcrew (tag_lt hx) h.alive 0 0 _ _).1, (slot?_finishTag hcrew (tag_lt hx) h.alive 0 0 _ _ _ _).trans hslot⟩

/-! ## A copy that a page fault holds up -/

theorem elem_hole {y : Source} {store : SMap Byte} {tr : Trans} {by1 : Nat → Byte × Bool} (hl : y.isLocal = false) (hs : 0 < y.size)
    (ht : ∀ va, tr va = none) (a : Nat) : y.elem store tr by1 a = none := by
  refine Option.not_isSome_iff_eq_none.mp fun h => ?_
  have := held_of_elem hl h a (mem_span.mpr (by omega))
  rw [ht] at this
  cases this

theorem jobElems_hole {s : State} {j : Job} {store : SMap Byte} {tr : Trans} (hl : j.src.isLocal = false) (hs : 0 < j.src.size) (ht : ∀ va, tr va = none) :
    s.jobElems j store tr = j.pairs.map fun _ => none := by
  refine List.map_congr_left fun p _ => ?_
  cases p.2 with
  | none => rfl
  | some a => exact elem_hole hl hs ht a

theorem keepSnap_cons (l : Snap) (o : Option Elem) (xs : Snap) : ∃ p ps, keepSnap l (o :: xs) = p :: ps := by
  cases l with
  | nil => exact ⟨o, xs, rfl⟩
  | cons p ps => exact ⟨_, _, rfl⟩

section
variable {j : Job} {d a : Nat} {rest : List (Nat × Option Nat)} (hp : j.pairs = (d, some a) :: rest)
include hp

/-- The first element of a job finds no page: it has no data. -/
theorem attempt_hole {s : State} {olds nows : Snap} {store : SMap Byte} {tr : Trans} (hn : s.jobElems j store tr = none :: nows)
    (ho : ∃ p ps, olds = p :: ps) : ∃ ms, (s.attempt j olds [] store tr).moves = { addr := d, src := some a, data := none } :: ms := by
  obtain ⟨p, ps, rfl⟩ := ho
  have hf : (granulesOf j.size d).any ([] : List Nat).contains = false := List.any_eq_false.mpr fun a _ => by simp
  unfold State.attempt
  dsimp only
  rw [hn, settled_nil, hp]
  simp only [List.map_cons, List.zip_cons_cons, hf]
  unfold pickSnap
  exact ⟨_, rfl⟩

theorem granules_cons : ∃ gs, j.granules = d / 256 :: gs := by
  unfold Job.granules granulesOf
  rw [hp, List.flatMap_cons, List.eraseDups_cons, List.cons_append, List.eraseDups_cons]
  exact ⟨_, rfl⟩

end

theorem moveGranules_hole {s : State} {d : Dest} {a b : Nat} {ms : List Move} {gs : List Nat} {n : Nat} (hn : 0 < n) :
    ∃ va why, s.moveGranules d ({ addr := b, src := some a, data := none } :: ms) (b / 256 :: gs) n = (s, 0, some (.fault va .read why)) := by
  obtain ⟨n, rfl⟩ : ∃ m, n = m + 1 := ⟨n - 1, by omega⟩
  have hb : (granulesOf d.size b).contains (b / 256) = true := by
    rw [List.contains_iff_mem, granulesOf, List.mem_eraseDups]
    exact List.mem_cons_self
  rw [State.moveGranules, List.filter_cons_of_pos (p := fun m : Move => (granulesOf d.size m.addr).contains (b / 256)) hb, List.findSome?_cons]
  exact ⟨_, _, rfl⟩

/-- A copy of which no page of the source is translated stops at its first granule (R224). -/
theorem moveCopy_parks {s : State} {x : TagCtx} {n d a : Nat} {src dst : View} {rest : List (Nat × Option Nat)} (hd : dst.isLocal = true)
    (hs : src.isLocal = false) (hg : x.o.granule = 0) (hp : (copyJob src dst).pairs = (d, some a) :: rest) (hm : (copyJob src dst).meets = false)
    (ho : x.o.olds ≠ []) (hw : ∀ va, s.tlbLook x.o.core x.g.ctx va .read = none ∧ ∃ why, s.walk x.g.ctx va .read = .inr why) :
    ∃ w l va why, s.moveCopy x n src dst (copyJob src dst).granules.length none =
      (({ s with drawn := w } : State).modOp x.c.ref n fun o => { o with olds := l }).parkOp x n 1 0 va .read why := by
  have htr (va : Nat) : s.trans x.o.core x.g.ctx .read va = none := by
    obtain ⟨hl, why, hwhy⟩ := hw va
    rw [State.trans, hl, hwhy]
    rfl
  have hbegin : s.beginOp x = s := if_neg (by simpa using ho)
  have htouch : s.touchJob x (copyJob src dst) (some dst) = s := by
    have hread (ps : List Nat) : s.touchPages x.o.core x.g.ctx .read ps = s := touchPages_same fun p _ => by
      obtain ⟨hl, why, hwhy⟩ := hw (p * 65536)
      rw [State.translate, hl, hwhy]
    unfold State.touchJob
    dsimp only
    rw [hread, pagesOf_local (show dst.source.isLocal = true from hd)]
    rfl
  have hnow (tr : Trans) (h : ∀ va, tr va = none) : s.jobElems (copyJob src dst) x.c.store tr = none :: rest.map fun _ => none := by
    rw [jobElems_hole (j := copyJob src dst) hs (tySize_pos src.ty) h, hp]
    rfl
  have hseen : ∃ p ps, s.firstSeen x (copyJob src dst) (x.o.olds.headD []) = p :: ps := by
    unfold State.firstSeen
    dsimp only
    rw [hnow _ fun va => by rw [htr, hm]; rfl]
    exact keepSnap_cons _ _ _
  obtain ⟨ms, hms⟩ := attempt_hole hp (hnow _ htr) hseen
  obtain ⟨gs, hgs⟩ := granules_cons hp
  let seen := s.firstSeen x (copyJob src dst) (x.o.olds.headD [])
  let tried := s.attempt (copyJob src dst) seen [] x.c.store (s.trans x.o.core x.g.ctx .read)
  obtain ⟨va, why, hstop⟩ := moveGranules_hole (s := { s with drawn := tried.drawn }) (d := x.dest dst) (a := a) (b := d) (ms := ms) (gs := gs)
    (n := (d / 256 :: gs).length) (Nat.succ_pos _)
  refine ⟨tried.drawn, [(copyJob src dst).keep seen tried.picked []], va, why, ?_⟩
  unfold State.moveCopy
  dsimp only
  rw [hbegin, htouch, hg, List.take_zero, List.drop_zero, hms, hgs, hstop]
  rfl

end Sys2Proof.Machine
end

