-- ==== Sys2Proof/Proofs/DrainRuns.lean ====
section
/-! SUPPORT. How an operation stands parked, and drains and vector products that run to their end (R206, R222, R223, R224, R244). -/
namespace Sys2Proof.Machine

/-! ## Parked on a page fault -/

theorem crew?_modOp {s : State} {r : CrewRef} {c : Crew} {n : Nat} {T : Tag} {o : CopyOp} (hc : s.crew? r = some c) (ht : c.tags[n]? = some T)
    (ho : T.op = some o) (f : CopyOp → CopyOp) :
    ∃ k, (s.modOp r n f).crew? r = some k ∧ k.store = c.store ∧ k.strands = c.strands ∧ k.tags[n]? = some { T with op := some (f o) } := by
  refine ⟨_, crew?_modTag hc n _, rfl, rfl, ?_⟩
  rw [Crew.withTag, getElem?_modNth, if_pos rfl, ht, Option.map_some, ho]
  rfl

theorem parkOp_spec {s : State} {x : TagCtx} {c : Crew} {n : Nat} {T : Tag} {o : CopyOp} (hc : s.crew? x.c.ref = some c) (ht : c.tags[n]? = some T)
    (ho : T.op = some o) (source : BitVec 4) (q va : Nat) (a : Right) (why : BitVec 8) :
    ∃ k id, (s.parkOp x n source q va a why).crew? x.c.ref = some k ∧ k.store = c.store ∧
      k.tags[n]? = some { T with op := some { o with granule := q, parked := some id } } ∧ (s.parkOp x n source q va a why).grids = s.grids := by
  have hf : FaultSide s (s.postFault (engineFault x.g x.c x.o.core source q va a why)).1 := faultSide_postFault _ _
  obtain ⟨k, hk, hst, -, htag⟩ := crew?_modOp (s := (s.postFault (engineFault x.g x.c x.o.core source q va a why)).1) (r := x.c.ref)
    ((crew?_of_crews hf.crews _).trans hc) ht ho
    fun o => { o with granule := q, parked := some (s.postFault (engineFault x.g x.c x.o.core source q va a why)).2 }
  exact ⟨k, _, hk, hst, htag, hf.grids⟩

theorem tagCtx?_of {s : State} {r : CrewRef} {n : Nat} {g : Grid} {c : Crew} {T : Tag} {o : CopyOp} (hg : s.grid? r.grid = some g)
    (hc : s.crew? r = some c) (ht : c.tags[n]? = some T) (ho : T.op = some o) : s.tagCtx? r n = some { g := g, c := c, tag := T, o := o } := by
  rw [State.tagCtx?, hg, hc]
  dsimp only
  rw [ht]
  dsimp only
  rw [ho]

/-- A copy none of whose source pages is translated parks where it stands (R224). -/
theorem copyPark_parks {s : State} {r : CrewRef} {n : BitVec 6} {x : TagCtx} {src dst : View} {d a : Nat} {rest : List (Nat × Option Nat)}
    (hr : s.copyReady r n.toNat = some (x, src, dst)) (hd : dst.isLocal = true) (hs : src.isLocal = false) (hg : x.o.granule = 0)
    (hp : (copyJob src dst).pairs = (d, some a) :: rest) (hm : (copyJob src dst).meets = false) (ho : x.o.olds ≠ [])
    (hw : ∀ va, s.tlbLook x.o.core x.g.ctx va .read = none ∧ ∃ why, s.walk x.g.ctx va .read = .inr why) :
    ∃ t k o id, exec (.copyPark r n) s = .next t ∧ t.crew? r = some k ∧ (k.tag n.toNat).state = x.tag.state ∧
      (k.tag n.toNat).op = some o ∧ o.parked = some id ∧ o.granule = 0 ∧ k.store = x.c.store := by
  obtain ⟨hgrid, hc, href, htag, hop⟩ := tagCtx?_spec (copyReady_spec hr)
  obtain ⟨w, l, va, why, hrun⟩ := moveCopy_parks (n := n.toNat) hd hs hg hp hm ho hw
  rw [href] at hrun
  obtain ⟨k1, hk1, hst1, -, htag1⟩ := crew?_modOp (s := { s with drawn := w }) (r := r) hc htag hop fun o => { o with olds := l }
  obtain ⟨k, i, hk, hst, htag2, hgrids⟩ := parkOp_spec (x := x) (href ▸ hk1) htag1 rfl 1 0 va .read why
  rw [href] at hk hgrids
  have ht : s.runCopy r n.toNat = (({ s with drawn := w } : State).modOp r n.toNat fun o => { o with olds := l }).parkOp x n.toNat 1 0 va .read why := by
    rw [runCopy_ready hr, hrun]
  have hparked : (s.runCopy r n.toNat).tagParked r n.toNat = true := by
    rw [ht, State.tagParked, tagCtx?_of ((grid?_congr hgrids r.grid).trans hgrid) hk htag2 rfl]
    rfl
  refine ⟨s.runCopy r n.toNat, k, _, i, congrArg Host.Outcome.next (if_pos hparked), by rw [ht]; exact hk, ?_, by rw [HasTag.tag htag2], rfl, rfl, hst.trans hst1⟩
  rw [HasTag.tag htag2]

/-! ## Local stores stand -/

/-- The local store of every crew that is not over stands. -/
def KeepsStore (s t : State) : Prop := ∀ r k, s.crew? r = some k → k.over = false → ∃ j, t.crew? r = some j ∧ j.over = false ∧ j.store = k.store

theorem KeepsStore.trans {s t u : State} (h : KeepsStore s t) (g : KeepsStore t u) : KeepsStore s u := fun r k hk ho => by
  obtain ⟨j, hj, hjo, hjs⟩ := h r k hk ho
  obtain ⟨i, hi, hio, his⟩ := g r j hj hjo
  exact ⟨i, hi, hio, his.trans hjs⟩

theorem keepsStore_of_crews {s t : State} (h : t.crews = s.crews) : KeepsStore s t := fun r k hk ho => ⟨k, (crew?_of_crews h r).trans hk, ho, rfl⟩

theorem keepsStore_modCrew (s : State) (q : CrewRef) (f : Crew → Crew)
    (hf : ∀ c, (f c).grid = c.grid ∧ (f c).idx = c.idx ∧ (f c).strands = c.strands ∧ (f c).store = c.store) : KeepsStore s (s.modCrew q f) := by
  intro r k hk ho
  have hi : ∀ c, (f c).grid = c.grid ∧ (f c).idx = c.idx := fun c => ⟨(hf c).1, (hf c).2.1⟩
  obtain ⟨-, -, hstrands, hstore⟩ := hf k
  by_cases hr : r = q
  · subst hr
    refine ⟨f k, by rw [crew?_modCrew_same s r f hi, hk]; rfl, ?_, hstore⟩
    rw [Crew.over, hstrands]
    exact ho
  · exact ⟨k, (crew?_modCrew_other s q r f hi hr).trans hk, ho, rfl⟩

/-- The end of a crew changes no other crew. -/
theorem crew?_settleCrew_other (s : State) {r q : CrewRef} (hr : r ≠ q) : (s.settleCrew q).crew? r = s.crew? r := by
  unfold State.settleCrew
  split
  · rfl
  · split
    · rfl
    · have h1 := crew?_modCrew_other s q r
        (fun c => match c.state with
          | .resident => { c with state := .draining, follows := c.follows.filter c.followDue }
          | .swapped | .preempted => { c with follows := [] }
          | _ => c) (fun c => by cases c.state <;> exact ⟨rfl, rfl⟩) hr
      dsimp only
      split
      · exact h1
      · exact (((memSide_cleanSlot _ _ _).crew? r).trans (crew?_modCrew_other _ q r _ (by intro c; exact ⟨rfl, rfl⟩) hr)).trans h1

theorem keepsStore_settleCrew (s : State) (q : CrewRef) : KeepsStore s (s.settleCrew q) := by
  intro r k hk ho
  by_cases hr : r = q
  · subst hr
    rw [settleCrew_of_alive hk ho]
    exact ⟨k, hk, ho, rfl⟩
  · exact ⟨k, (crew?_settleCrew_other s hr).trans hk, ho, rfl⟩

theorem keepsStore_finishTag (s : State) (q : CrewRef) (n code : Nat) (addr : DWord) (read filled : Nat) :
    KeepsStore s (s.finishTag q n code addr read filled) :=
  ((keepsStore_modCrew s q _ (by intro c; exact ⟨rfl, rfl, rfl, rfl⟩)).trans (keepsStore_modCrew _ q _ (by intro c; exact ⟨rfl, rfl, rfl, rfl⟩))).trans
    (keepsStore_settleCrew _ q)

theorem dies_settleCrew (s : State) (q : CrewRef) : (s.settleCrew q).dies = s.dies := by
  unfold State.settleCrew
  split
  · rfl
  · split
    · rfl
    · dsimp only
      split
      · rfl
      · exact dies_writeBack _ _ _

theorem dies_finishTag (s : State) (q : CrewRef) (n code : Nat) (addr : DWord) (read filled : Nat) : (s.finishTag q n code addr read filled).dies = s.dies :=
  dies_settleCrew _ q

/-! ## The end of a drain -/

theorem slot?_slots (s : State) (die n : Nat) : s.slot? die n = ((s.die? die).map Die.slots).bind fun l => l[n]? := by
  unfold State.slot?
  cases s.die? die <;> rfl

theorem slotOf_spec {s : State} {x : TagCtx} {id : SlotId} {k : Slot} (h : s.slotOf x id = some k) :
    s.slot? (x.slotDie id) id.slot.toNat = some k ∧ k.holds x.g.ctx id = true := by
  obtain ⟨j, hj, h⟩ := Option.bind_eq_some_iff.mp h
  split at h
  · next hh => cases h; exact ⟨hj, hh⟩
  · cases h

theorem slotOf_of {s : State} {x : TagCtx} {id : SlotId} {k : Slot} (h : s.slot? (x.slotDie id) id.slot.toNat = some k) (hh : k.holds x.g.ctx id = true) :
    s.slotOf x id = some k := by
  rw [State.slotOf, h, Option.bind_some, if_pos hh]

/-- A drain that ends counts down its slot's drains, and frees the slot with the last. -/
theorem slot?_drained {s : State} {x : TagCtx} {id : SlotId} {k : Slot} (h : s.slotOf x id = some k) :
    ∃ q, (s.drained x id).slot? (x.slotDie id) id.slot.toNat = some q ∧ (1 < k.drains → q.drains = k.drains - 1 ∧ q.use = k.use) ∧
      (k.drains ≤ 1 → q.use = none) := by
  obtain ⟨hs, hh⟩ := slotOf_spec h
  have hseq : k.seq = id.seq := by
    unfold Slot.holds at hh
    exact of_decide_eq_true (Bool.and_eq_true_iff.mp hh).1
  unfold State.drained
  rw [h]
  dsimp only
  by_cases hd : 1 < k.drains
  · rw [if_pos hd]
    exact ⟨{ k with drains := k.drains - 1 }, by rw [slot?_modSlot, hs]; rfl, fun _ => ⟨rfl, rfl⟩, fun h => absurd hd (by omega)⟩
  · rw [if_neg hd]
    have hfree : (s.freeSlot (x.slotDie id) id).slot? (x.slotDie id) id.slot.toNat = some { Slot.free with seq := k.seq } := by
      rw [State.freeSlot, slot?_modSlot, hs, Option.map_some, if_pos hseq]
    refine ⟨{ Slot.free with seq := k.seq }, ?_, fun h => absurd h hd, fun _ => rfl⟩
    split
    · split
      · split
        · rw [slot?_congr (dies_finishTag _ _ _ _ _ _ _)]
          exact hfree
        · exact hfree
      · exact hfree
    · exact hfree

theorem keepsStore_drained (s : State) (x : TagCtx) (id : SlotId) : KeepsStore s (s.drained x id) := by
  have same (s t : State) (h : t.crews = s.crews) : KeepsStore s t := keepsStore_of_crews h
  unfold State.drained
  split
  · exact same _ _ rfl
  · dsimp only
    split
    · exact same _ _ rfl
    · have hfree : KeepsStore s (s.freeSlot (x.slotDie id) id) := same _ _ rfl
      split
      · split
        · split
          · exact hfree.trans (keepsStore_finishTag _ _ _ _ _ _ _)
          · exact hfree
        · exact hfree
      · exact hfree

/-! ## A drain into the local store -/

theorem tagDone_of_ended {s : State} {r : CrewRef} {n : Nat} {T : Tag} {strand code read filled : Nat} {now addr : DWord}
    (h : HasTag s r n (T.ended strand now code addr read filled)) : TagDone s r n code read filled := by
  obtain ⟨k, hk, -, ht⟩ := h
  refine ⟨k, hk, ?_⟩
  rw [HasTag.tag ht]
  exact ⟨rfl, rfl, rfl, rfl, rfl, rfl⟩

theorem length_eraseDups_le (l : List Nat) : l.eraseDups.length ≤ l.length := by
  induction hn : l.length using Nat.strongRecOn generalizing l with
  | _ n ih =>
    cases l with
    | nil => exact Nat.zero_le _
    | cons a l =>
      have hf := List.length_filter_le (fun b => !b == a) l
      have := ih _ (by rw [← hn, List.length_cons]; omega) (l.filter fun b => !b == a) rfl
      rw [List.eraseDups_cons, List.length_cons, ← hn, List.length_cons]
      omega

/-- Every element touches at most two granules. -/
theorem length_granuleOrder_le (e : Nat) (ms : List Move) : (granuleOrder e ms).length ≤ ms.length * 2 := by
  refine (length_eraseDups_le _).trans ?_
  induction ms with
  | nil => exact Nat.zero_le _
  | cons m ms ih =>
    have := length_eraseDups_le [m.addr / 256, (m.addr + (e - 1)) / 256]
    rw [List.flatMap_cons, List.length_append, List.length_cons]
    unfold granulesOf at ih ⊢
    rw [List.length_cons, List.length_cons, List.length_nil] at this
    omega

theorem drainMoves_good {v : View} {k : Slot} {m : Move} (hm : m ∈ drainMoves v k) : m.good := by
  obtain ⟨i, -, rfl⟩ := List.mem_map.mp hm
  cases k.data[i]? with
  | none => exact ⟨_, rfl⟩
  | some d => exact ⟨d, rfl⟩

theorem filter_isNone_true (ms : List Move) : (ms.filter fun m => m.src.isNone == true) = ms.filter fun m => m.src.isNone :=
  List.filter_congr fun m _ => by cases m.src <;> rfl

theorem filter_isNone_false (ms : List Move) : (ms.filter fun m => m.src.isNone == false) = ms.filter fun m => m.src.isSome :=
  List.filter_congr fun m _ => by cases m.src <;> rfl

/-- A drain whose elements are all there moves every granule, and ends (R223). -/
theorem moveDrain_all {s : State} {r : CrewRef} {x : TagCtx} {c : Crew} {n : Nat} {id : SlotId} {v : View} {k q : Slot} (hx : x.c.ref = r) (hc : s.crew? r = some c)
    (hn : n < c.tags.length) (ho : c.over = false) (hl : v.isLocal = true) (hg : x.o.granule = 0) (hq : s.slotOf x id = some q) :
    let ms := drainMoves v k
    let t := s.moveDrain x n id v k (v.count * 2) none
    TagDone t r n 0 (ms.filter fun m => m.src.isSome).length (ms.filter fun m => m.src.isNone).length ∧
      (∃ j, t.crew? r = some j ∧ ∀ a, SMap.look 0 j.store a = (lastByte (movedBytes (elemSize v.ty) ms) a).getD (SMap.look 0 c.store a)) ∧
      ∃ p, t.slot? (x.slotDie id) id.slot.toNat = some p ∧ (1 < q.drains → p.drains = q.drains - 1 ∧ p.use = q.use) ∧ (q.drains ≤ 1 → p.use = none) := by
  intro ms t
  have hlen : (granuleOrder (elemSize v.ty) ms).length ≤ v.count * 2 :=
    (length_granuleOrder_le _ _).trans (le_of_eq (by rw [show ms.length = v.count by rw [show ms = drainMoves v k from rfl, drainMoves, List.length_map, List.length_range]]))
  obtain ⟨u, hm, hu⟩ := moveGranules_local (d := x.dest v) (ms := ms) hl (elemSize_le v.ty) (fun m hm => drainMoves_good hm) (granuleOrder (elemSize v.ty) ms) s _ hlen
  have ht : t = (u.finishTag r n 0 0 (ms.filter fun m => m.src.isSome).length (ms.filter fun m => m.src.isNone).length).drained x id := by
    show s.moveDrain x n id v k (v.count * 2) none = _
    unfold State.moveDrain
    dsimp only
    rw [pagesOf_local (show v.source.isLocal = true from hl), show s.touchPages x.o.core x.g.ctx .write [] = s from rfl, hg, List.drop_zero, hm]
    dsimp only
    rw [State.endMove, dropDest_local hl, Nat.zero_add, hx]
    rw [movedCount_all, movedCount_all, filter_isNone_true, filter_isNone_false]
  rw [show (x.dest v).crew = x.c.ref from rfl, hx] at hu
  obtain ⟨hdone, j, hj, hstore, -⟩ := store_finishTag hc hn ho hu 0 0 (ms.filter fun m => m.src.isSome).length (ms.filter fun m => m.src.isNone).length
  have hslot : (u.finishTag r n 0 0 (ms.filter fun m => m.src.isSome).length (ms.filter fun m => m.src.isNone).length).slotOf x id = some q := by
    obtain ⟨hs, hh⟩ := slotOf_spec hq
    refine slotOf_of ?_ hh
    rw [slot?_congr ((dies_finishTag _ _ _ _ _ _ _).trans (by rw [hu.1]))]
    exact hs
  obtain ⟨T, hT⟩ : ∃ T, c.tags[n]? = some T := ⟨_, List.getElem?_eq_getElem hn⟩
  have hhas : HasTag u r n T := ⟨{ c with store := SMap.putAll 0 c.store _ }, by rw [hu.2, hc]; rfl, ho, hT⟩
  have hended := hasTag_finishTag hhas 0 0 (ms.filter fun m => m.src.isSome).length (ms.filter fun m => m.src.isNone).length
  have hover : j.over = false := by
    obtain ⟨i, hi, hio, -⟩ := hended
    rw [Option.some.inj (hj.symm.trans hi)]
    exact hio
  obtain ⟨i, hi, -, histore⟩ := keepsStore_drained _ x id r j hj hover
  rw [ht]
  refine ⟨tagDone_of_ended (hasTag_drained hended rfl x id), ⟨i, hi, fun a => ?_⟩, slot?_drained hslot⟩
  rw [histore]
  exact hstore a

/-- The drain of a ready tag, its slot accepting it where it has not yet (R223). -/
def State.admitDrain (s : State) (x : TagCtx) (n : Nat) (id : SlotId) (acc : Bool) (k : Slot) : State :=
  if acc then s else (s.flushOp x).acceptDrain x n id k

/-- A drain that its slot accepts: the crew and the slot's drains stand. -/
theorem admitDrain_spec {s : State} {r : CrewRef} {x : TagCtx} {n : Nat} {id : SlotId} (acc : Bool) {k : Slot} (hx : s.tagCtx? r n = some x)
    (hs : s.slotOf x id = some k) :
    ∃ c q, (s.admitDrain x n id acc k).crew? r = some c ∧ n < c.tags.length ∧ c.over = x.c.over ∧ c.store = x.c.store ∧
      (s.admitDrain x n id acc k).slotOf x id = some q ∧ q.drains = k.drains ∧ q.use = k.use := by
  obtain ⟨-, hc, href, htag, hop⟩ := tagCtx?_spec hx
  obtain ⟨hslot, hh⟩ := slotOf_spec hs
  unfold State.admitDrain
  cases acc with
  | true => exact ⟨x.c, k, hc, tag_lt hx, rfl, rfl, hs, rfl, rfl⟩
  | false =>
    have hf := sideKept_flushOp s x
    have hfc : ((s.flushOp x).modSlot (x.slotDie id) id.slot.toNat fun k => { k with accept := k.accept - 1 }).crew? r = some x.c :=
      (hf.1.crew? r).trans hc
    obtain ⟨c, hcc, hst, hstr, ht⟩ := crew?_modOp hfc htag hop fun o => { o with kind := .drain id true, olds := [k.data.map fun d => some (d, 0)] }
    have hfs : (s.flushOp x).slot? (x.slotDie id) id.slot.toNat = some k := by
      rw [← hslot, slot?_slots, slot?_slots, hf.2.1]
    refine ⟨c, { k with accept := k.accept - 1 }, ?_, (List.getElem?_eq_some_iff.mp ht).1, by rw [Crew.over, hstr]; rfl, hst, ?_, rfl, rfl⟩
    · rw [if_neg Bool.false_ne_true, State.acceptDrain, href]
      exact hcc
    · refine slotOf_of ?_ hh
      rw [if_neg Bool.false_ne_true, State.acceptDrain]
      exact (slot?_modSlot (s.flushOp x) _ _ _).trans (by rw [hfs]; rfl)

theorem runDrain_moves {s : State} {x : TagCtx} {n : Nat} {id : SlotId} {acc : Bool} {v : View} {k : Slot} (hs : s.slotOf x id = some k) (hr : k.ready = true)
    (ht : k.ty = v.ty) (ha : acc = false → k.accept ≠ 0 ∧ s.slotKilled k (x.slotDie id) id = false) :
    s.runDrain x n id acc v = (s.admitDrain x n id acc k).moveDrain x n id v k (v.count * 2) none := by
  have hview : s.drainView x id acc v = .moves k := by
    unfold State.drainView
    rw [hs]
    dsimp only
    cases acc with
    | true => simp [ht, hr]
    | false =>
      obtain ⟨h1, h2⟩ := ha rfl
      simp [ht, hr, h1, h2]
  unfold State.runDrain
  rw [hview]
  rfl

theorem runDrain_bad {s : State} {x : TagCtx} {n : Nat} {id : SlotId} {acc : Bool} {v : View} (hs : s.slotOf x id = none) (hg : x.o.granule = 0) :
    s.runDrain x n id acc v = s.finishTag x.c.ref n 4 0 0 0 := by
  have hview : s.drainView x id acc v = .bad := by
    unfold State.drainView
    rw [hs]
  unfold State.runDrain
  rw [hview]
  exact if_pos hg

/-! ## A vector product -/

theorem drain_empty {s : State} {core : Nat} {k : Core} (hk : s.core? core = some k) (ho : k.outbox = []) : s.drain core = s := by
  rw [State.drain, hk]
  dsimp only
  rw [ho, List.foldl_nil]
  have : modNth s.cores core (fun c : Core => { c with outbox := [] }) = s.cores := modNth_eq_self fun c hc => by
    rw [Option.some.inj (hc.symm.trans hk), ← ho]
  rw [State.modCore, this]

/-- Every row of a product whose operands are all there has its data. -/
theorem nmvRows_there {b x y : View} {fb : Option FormatBlock} {rm : Rm} {sat : Bool} {eb ex sb sx : Elems} {z : Move × Flags}
    (hz : z ∈ nmvRows b x y fb rm sat eb ex sb sx none) : z.1.src = some 0 ∧ ∃ v, z.1.data = some v := by
  obtain ⟨r, -, rfl⟩ := List.mem_map.mp hz
  exact ⟨rfl, _, rfl⟩

theorem length_nmvRows (b x y : View) (fb : Option FormatBlock) (rm : Rm) (sat : Bool) (eb ex sb sx : Elems) (hole : Option Nat) :
    (nmvRows b x y fb rm sat eb ex sb sx hole).length = b.n 1 := by
  rw [nmvRows, List.length_map, List.length_range]

theorem good_of_snap {m : Move} (h : ∃ v, m.data = some v) (hb : snapBad m.data = false) : m.good := by
  obtain ⟨⟨v, w⟩, hv⟩ := h
  rw [hv] at hb
  have hw : w = 0 := by simpa [snapBad] using hb
  exact ⟨v, by rw [hv, hw]⟩

/-- A vector product that nothing holds up writes its rows, and ends (R244). -/
theorem moveNmv_all {s : State} {r : CrewRef} {n : Nat} {x : TagCtx} {b vx y : View} {fb : Option FormatBlock} {rnd : BitVec 2} {sat : Bool} {k : Core}
    (hx : s.tagCtx? r n = some x) (hvx : vx.isLocal = true) (hy : y.isLocal = true) (hg : x.o.granule = 0) (ho : x.c.over = false) (hold : x.o.olds ≠ [])
    (hk : s.core? x.o.core = some k) (hout : k.outbox = []) (hpick : s.nmvPick x b vx fb = (s.drawn, x.o.olds)) (hb : b.n 1 ≤ y.count) :
    let el (i : Nat) : Elems := (x.o.olds.getD i []).toArray
    let rows := nmvRows b vx y fb (rmOf rnd) sat (el 0) (el 1) (el 2) (el 3) none
    (∀ z ∈ rows, snapBad z.1.data = false) →
    let t := s.moveNmv x n b vx y fb rnd sat (y.count * 2) none
    TagDone t r n 0 rows.length 0 ∧ ∃ j, t.crew? r = some j ∧
      ∀ a, SMap.look 0 j.store a = (lastByte (movedBytes (elemSize y.ty) (rows.map (·.1))) a).getD (SMap.look 0 x.c.store a) := by
  intro el rows hgood t
  obtain ⟨-, hc, href, -⟩ := tagCtx?_spec hx
  have hms (m : Move) (hm : m ∈ rows.map (·.1)) : m.good := by
    obtain ⟨z, hz, rfl⟩ := List.mem_map.mp hm
    exact good_of_snap (nmvRows_there hz).2 (hgood z hz)
  have hlen : (granuleOrder (elemSize y.ty) (rows.map (·.1))).length ≤ y.count * 2 := by
    refine (length_granuleOrder_le _ _).trans ?_
    rw [List.length_map, length_nmvRows]
    omega
  have hcount : ((rows.map (·.1)).filter fun m => m.src.isNone == false).length = rows.length := by
    rw [List.filter_eq_self.mpr, List.length_map]
    intro m hm
    obtain ⟨z, hz, rfl⟩ := List.mem_map.mp hm
    rw [(nmvRows_there hz).1]
    rfl
  obtain ⟨u, hm, hu⟩ := moveGranules_local (d := x.dest y) (ms := rows.map (·.1)) hy (elemSize_le y.ty) hms (granuleOrder (elemSize y.ty) (rows.map (·.1))) s _ hlen
  rw [show (x.dest y).crew = x.c.ref from rfl, href] at hu
  obtain ⟨f, ht⟩ : ∃ f, t = (u.modTag r n f).finishTag r n 0 0 rows.length 0 := by
    show ∃ f, s.moveNmv x n b vx y fb rnd sat (y.count * 2) none = _
    unfold State.moveNmv
    dsimp only
    have hbegin : s.beginOp x = s := if_neg (by simpa using hold)
    rw [hbegin, drain_empty hk hout, pagesOf_local (show vx.source.isLocal = true from hvx), pagesOf_local (show y.source.isLocal = true from hy),
      show (s.touchPages x.o.core x.g.ctx .read []).touchPages x.o.core x.g.ctx .write [] = s from rfl, hpick, hvx, hg, Bool.true_or, if_pos rfl,
      List.drop_zero, hm]
    dsimp only
    rw [dropDest_local hy, Nat.zero_add, movedCount_all, hcount, href]
    exact ⟨_, rfl⟩
  have hcu : u.crew? r = some { x.c with store := SMap.putAll 0 x.c.store (movedBytes (elemSize y.ty) (rows.map (·.1))) } := by
    rw [hu.2, hc]
    rfl
  have hcrew := crew?_modTag hcu n f
  obtain ⟨hdone, j, hj, -, hstore, -⟩ := tagDone_finishTag hcrew (by rw [Crew.length_withTag]; exact tag_lt hx) ho 0 0 rows.length 0
  rw [ht]
  refine ⟨hdone, j, hj, fun a => ?_⟩
  rw [hstore]
  exact look_putAll _ x.c.store a

end Sys2Proof.Machine
end

