-- ==== Sys2Proof/Proofs/TileEnds.lean ====
section
/-! SUPPORT. What tile operations leave alone as they end (R228): the crews' launches and contexts, and what of a core has retired; follow-on
products that enter a tile queue (R221); what the engines do, statement by statement. -/
namespace Sys2Proof.Machine

/-! ## What has retired stands -/

/-- What of a core has retired. -/
def Core.worn (k : Core) : Bool × List Cluster := (k.retired, k.clusters)

/-- What decides whether a crew is displaced or its context suspended stands, the crew apart. -/
def PlaceKept (s t : State) : Prop := t.grids = s.grids ∧ t.contexts = s.contexts ∧ ∀ n, (t.core? n).map Core.worn = (s.core? n).map Core.worn

theorem PlaceKept.refl (s : State) : PlaceKept s s := ⟨rfl, rfl, fun _ => rfl⟩

theorem PlaceKept.trans {s t u : State} (h : PlaceKept s t) (k : PlaceKept t u) : PlaceKept s u :=
  ⟨k.1.trans h.1, k.2.1.trans h.2.1, fun n => (k.2.2 n).trans (h.2.2 n)⟩

theorem placeKept_foldl {α : Type} (f : State → α → State) (hf : ∀ s a, PlaceKept s (f s a)) (l : List α) (s : State) : PlaceKept s (l.foldl f s) := by
  induction l generalizing s with
  | nil => exact .refl s
  | cons a l ih => exact (hf s a).trans (ih _)

theorem placeKept_modCore (s : State) (n : Nat) (f : Core → Core) (hf : ∀ k, (f k).worn = k.worn) : PlaceKept s (s.modCore n f) := by
  refine ⟨rfl, rfl, fun m => ?_⟩
  rw [core?_modCore]
  split
  · rw [Option.map_map]
    cases s.core? m with
    | none => rfl
    | some k => exact congrArg some (hf k)
  · rfl

theorem OnlyMem.placeKept {s t : State} (h : OnlyMem s t) : PlaceKept s t := by
  obtain ⟨_, _, _, rfl⟩ := h
  exact ⟨rfl, rfl, fun _ => rfl⟩

theorem placeKept_drain (s : State) (core : Nat) : PlaceKept s (s.drain core) := by
  unfold State.drain
  split
  · exact .refl s
  · exact (onlyMem_foldl_perform _ s).placeKept.trans (placeKept_modCore _ _ _ (by intro k; rfl))

theorem placeKept_writeBack (s : State) (core : Nat) (sel : L1Line → Bool) : PlaceKept s (s.writeBack core sel) := by
  have hm := memSide_writeBack s core sel
  refine ⟨hm.grids, hm.contexts, fun n => ?_⟩
  by_cases hn : n = core
  · subst hn
    cases hc : s.core? n with
    | none => rw [State.writeBack, hc]; exact congrArg _ hc
    | some k => rw [core?_writeBack_same hc]; rfl
  · rw [core?_writeBack_other s sel hn]

theorem placeKept_shrinkL1 (s : State) (core n : Nat) : PlaceKept s (s.shrinkL1 core n) := by
  unfold State.shrinkL1
  split
  · exact .refl s
  · dsimp only
    split
    · exact .refl s
    · exact (placeKept_writeBack _ _ _).trans (placeKept_modCore _ _ _ (by intro k; rfl))

theorem placeKept_l2Access (s : State) (ctx line : Nat) (x : Xlate) : PlaceKept s (s.l2Access ctx line x) := by
  have hm := memSide_l2Access s ctx line x
  refine ⟨hm.grids, hm.contexts, fun n => ?_⟩
  rw [State.core?, cores_l2Access]
  rfl

theorem placeKept_fillL1 (s : State) (core line ctx vline : Nat) (sc : Scope) (x : Xlate) : PlaceKept s (s.fillL1 core line ctx vline sc x) :=
  (((placeKept_drain _ _).trans (placeKept_l2Access _ _ _ _)).trans (placeKept_shrinkL1 _ _ _)).trans (placeKept_modCore _ _ _ (by intro k; rfl))

theorem placeKept_storeL1 (s : State) (core slot line ctx vline : Nat) (x : Xlate) (bytes : List (Nat × Byte)) :
    PlaceKept s (s.storeL1 core slot line ctx vline x bytes) := by
  have note (t : State) (sel : Nat → Bool) : PlaceKept t (t.noteWrite sel) := (onlyMem_noteWrite t sel).placeKept
  unfold State.storeL1
  refine PlaceKept.trans ?_ (placeKept_modCore _ _ _ (by intro k; rfl))
  split
  · exact note _ _
  · exact (placeKept_fillL1 _ _ _ _ _ _ _).trans (note _ _)

theorem placeKept_storeByte (s : State) (c : Crew) (ctx : Nat) (o : TileOp) (b : Nat × Byte) : PlaceKept s (s.storeByte c ctx o b) := by
  have note (t : State) (w : PkgWrite) : PlaceKept t (t.notePkg w) := by
    unfold State.notePkg
    split <;> exact ⟨rfl, rfl, fun _ => rfl⟩
  unfold State.storeByte
  split
  · exact .refl s
  · dsimp only
    split
    · exact (placeKept_storeL1 _ _ _ _ _ _ _ _).trans (note _ _)
    · exact placeKept_storeL1 _ _ _ _ _ _ _ _

theorem placeKept_storeElem (s : State) (c : Crew) (ctx : Nat) (o : TileOp) (v : View) (z : Nat × Nat) : PlaceKept s (s.storeElem c ctx o v z.1 z.2) := by
  cases hv : v.isLocal with
  | true =>
    unfold State.storeElem
    rw [hv]
    exact ⟨rfl, rfl, fun _ => rfl⟩
  | false =>
    rw [storeElem_global hv]
    exact placeKept_foldl _ (fun s b => placeKept_storeByte s c ctx o b) _ s

theorem placeKept_pickOperands (s : State) (c : Crew) (ctx : Nat) (o : TileOp) : PlaceKept s (s.pickOperands c ctx o).1 :=
  (placeKept_drain s c.core).trans ⟨rfl, rfl, fun _ => rfl⟩

theorem placeKept_doTile (s : State) (c : Crew) (ctx : Nat) (o : TileOp) : PlaceKept s (s.doTile c ctx o) := by
  have hp := placeKept_pickOperands s c ctx o
  unfold State.doTile
  cases o.kind with
  | msta w ty rnd sat int =>
    exact (hp.trans (placeKept_foldl (fun s (z : Nat × Nat) => s.storeElem c ctx o w.view z.1 z.2) (fun s z => placeKept_storeElem s c ctx o w.view z) _ _)).trans
      ⟨rfl, rfl, fun _ => rfl⟩
  | _ => exact hp.trans ⟨rfl, rfl, fun _ => rfl⟩

/-! ## The crew of a tile operation -/

/-- What of a strand decides whether its crew is displaced. -/
def Strand.berth (t : Strand) : Bool × Nat := (t.isOver, t.cluster)

/-- `d` is `c` but for its tiles, its store and what its strands hold. -/
structure CrewAlike (c d : Crew) : Prop where
  grid : d.grid = c.grid
  state : d.state = c.state
  core : d.core = c.core
  strands : d.strands.map Strand.berth = c.strands.map Strand.berth

theorem CrewAlike.over {c d : Crew} (h : CrewAlike c d) : d.over = c.over := by
  have key (l : List Strand) : l.all Strand.isOver = (l.map Strand.berth).all Prod.fst := by rw [List.all_map]; rfl
  rw [Crew.over, Crew.over, key, key, h.strands]

theorem displaced_alike {s t : State} {c d : Crew} (h : CrewAlike c d) (hp : PlaceKept s t) : t.displaced d = s.displaced c := by
  have hw := hp.2.2 c.core
  have key (l : List Strand) (k : Core) : (l.any fun t => !t.isOver && decide ((k.clusters.getD t.cluster Cluster.full).width < 8)) =
      (l.map Strand.berth).any fun b => !b.1 && decide ((k.clusters.getD b.2 Cluster.full).width < 8) := by
    rw [List.any_map]
    rfl
  unfold State.displaced
  rw [h.state, h.over, h.core]
  cases hs : s.core? c.core with
  | none =>
    rw [hs, Option.map_none, Option.map_eq_none_iff] at hw
    rw [hw]
  | some k =>
    rw [hs] at hw
    obtain ⟨j, hj, he⟩ := Option.map_eq_some_iff.mp hw
    have hr : j.retired = k.retired := congrArg Prod.fst he
    have hc : j.clusters = k.clusters := congrArg Prod.snd he
    rw [hj]
    dsimp only
    rw [hr, key, key, h.strands, hc]

theorem ctxOff_alike {s t : State} {c d : Crew} (h : CrewAlike c d) (hp : PlaceKept s t) : t.ctxOff d = s.ctxOff c := by
  unfold State.ctxOff State.ctx?
  rw [h.grid, grid?_congr hp.1, hp.2.1]

/-- Flags that a strand takes. -/
theorem alike_orFlags {c k : Crew} (h : CrewAlike c k) (n : Nat) (f : BitVec 6) : CrewAlike c (k.modStrand n fun t => t.orFlags f) := by
  refine ⟨h.grid, h.state, h.core, Eq.trans ?_ h.strands⟩
  unfold Crew.modStrand modWhere
  rw [List.map_map]
  refine List.map_congr_left fun t _ => ?_
  rw [Function.comp]
  split <;> rfl

theorem alike_doTile {s : State} {c d : Crew} {ctx : Nat} {o : TileOp} (hs : s.crew? c.ref = some c) (hd : (s.doTile c ctx o).crew? c.ref = some d) :
    CrewAlike c d := by
  have hp : (s.pickOperands c ctx o).1.crew? c.ref = some c := by rw [crew?_pickOperands, hs]
  have put (t : Tile) (h : (s.pickOperands c ctx o).1.putTile c.ref o.td t = s.doTile c ctx o) : CrewAlike c d := by
    rw [← h, crew?_putTile hp] at hd
    obtain rfl := Option.some.inj hd
    exact ⟨rfl, rfl, rfl, rfl⟩
  have flags {t : State} {k : Crew} (hk : t.crew? c.ref = some k) (ha : CrewAlike c k) (f : Flags)
      (h : (t.modStrand { crew := c.ref, strand := o.strand } fun t => t.orFlags f) = s.doTile c ctx o) : CrewAlike c d := by
    have hm := crew?_modStrand_same t { crew := c.ref, strand := o.strand } fun t => t.orFlags f
    rw [h, hd, hk] at hm
    rw [Option.some.inj hm]
    exact alike_orFlags ha _ _
  cases hk : o.kind with
  | msta w ty rnd sat int =>
    cases hv : w.view.isLocal with
    | true => exact flags (crew?_storeTileOf_local (ctx := ctx) (o := o) hs hv _) ⟨rfl, rfl, rfl, rfl⟩ _ (doTile_msta hk).symm
    | false => exact flags (crew?_storeTileOf_global (ctx := ctx) (o := o) hs hv _) ⟨rfl, rfl, rfl, rfl⟩ _ (doTile_msta hk).symm
  | mma wa wb fb ty => exact put _ (by rw [State.doTile, hk])
  | mzero => exact put _ (by rw [State.doTile, hk])
  | mlda w ty => exact put _ (by rw [State.doTile, hk])
  | mtrn => exact put _ (by rw [State.doTile, hk])
  | mperm p => exact put _ (by rw [State.doTile, hk])
  | mred int => exact put _ (by rw [State.doTile, hk])

theorem tileReady_spec {s : State} {n id : Nat} {g : Grid} {c : Crew} {o : TileOp} (h : s.tileReady n id = some (g, c, o)) :
    s.crew? c.ref = some c ∧ o.id = id := by
  obtain ⟨k, hk, h⟩ := Option.bind_eq_some_iff.mp h
  obtain ⟨p, hp, h⟩ := Option.bind_eq_some_iff.mp h
  split at h
  · cases h
  · next d hd =>
    obtain ⟨q, hq, h⟩ := Option.bind_eq_some_iff.mp h
    split at h
    · cases h
      rw [ref_of_crew? hd]
      exact ⟨hd, by simpa using List.find?_some hp⟩
    · cases h

/-- A tile operation that is ready makes its effect and leaves the queue (R228). -/
theorem tileOpEnd_ends {s : State} {n id : Nat} {g : Grid} {c d : Crew} {o : TileOp} (h : s.tileReady n id = some (g, c, o))
    (hd : (s.doTile c g.ctx o).crew? c.ref = some d) (ho : d.over = false) (hc : s.ctxOff c = false) (hs : s.displaced c = false) :
    exec (.tileOpEnd n id) s = .next (s.leaveTile n g c o) := by
  obtain ⟨hcrew, hid⟩ := tileReady_spec h
  have ha := alike_doTile hcrew hd
  have hp : PlaceKept s (s.leaveTile n g c o) := (placeKept_doTile s c g.ctx o).trans (placeKept_modCore _ _ _ (by intro k; rfl))
  have hleave : (s.leaveTile n g c o).crew? c.ref = some d := hd
  have hsave : (s.leaveTile n g c o).saveIfDue c.ref = s.leaveTile n g c o := by
    unfold State.saveIfDue
    rw [hleave]
    dsimp only
    rw [ctxOff_alike ha hp, displaced_alike ha hp, hc, hs]
    rfl
  show execTileOpEnd n id s = _
  unfold execTileOpEnd
  rw [h]
  dsimp only
  rw [State.endTile, settleCrew_of_alive hleave ho, hsave]

end Sys2Proof.Machine
end

