-- ==== Sys2Proof/Proofs/EngineEvents.lean ====
section
/-! SUPPORT. Follow-on products that enter a tile queue (R221), single elements (R198), and what the engines do, statement by statement. -/
namespace Sys2Proof.Machine

/-! ## Elements -/

theorem badBytes_none (ks : List Nat) {f : Nat → Bool} (h : ∀ k ∈ ks, f k = false) : badBytes (ks.map f) = 0 := by
  induction ks with
  | nil => rfl
  | cons k ks ih =>
    rw [List.map_cons, badBytes, ih fun z hz => h z (List.mem_cons_of_mem _ hz), h k List.mem_cons_self]
    rfl

theorem elem_local {y : Source} (h : y.isLocal = true) (store : SMap Byte) (tr : Trans) (by1 : Nat → Byte × Bool) (a : Nat) :
    y.elem store tr by1 a = some (BitVec.ofNat 64 (fromBytes ((span a y.size).map (SMap.look 0 store))), 0) := if_pos h

theorem elem_global {y : Source} (h : y.isLocal = false) (store : SMap Byte) {tr : Trans} (s : State) {a : Nat} {ks : List Nat}
    (hk : keysAt tr a y.size = some ks) (hp : ∀ k ∈ ks, s.poisoned (k / 128) = false) :
    y.elem store tr s.copyByte a = some (BitVec.ofNat 64 (fromBytes (ks.map s.memByte)), 0) := by
  unfold Source.elem
  rw [if_neg (by rw [h]; exact Bool.false_ne_true), hk, Option.map_some, elemOfKeys]
  exact congrArg some (Prod.ext rfl (badBytes_none ks hp))

/-- The source element of a destination element: one inside the extents of the source, or the fill (R215). -/
theorem copyPairs_get {src dst : View} {k : Nat} (h : k < dst.count) : ∃ a, (copyPairs src dst)[k]? = some (dst.elemAddr k, a) ∧
    (a = none ↔ ∃ j, j < 4 ∧ src.n j ≤ dst.index k j) := by
  refine ⟨_, by rw [copyPairs, List.getElem?_map, List.getElem?_range h, Option.map_some], ?_⟩
  have hall : ((List.range 4).all fun j => decide (dst.index k j < src.n j)) = true ↔ ∀ j, j < 4 → dst.index k j < src.n j := by
    rw [List.all_eq_true]
    exact ⟨fun h j hj => of_decide_eq_true (h j (List.mem_range.mpr hj)), fun h j hj => decide_eq_true (h j (List.mem_range.mp hj))⟩
  split
  · next ht =>
    refine ⟨fun h => (by cases h), fun ⟨j, hj, hle⟩ => ?_⟩
    have := hall.mp ht j hj
    omega
  · next ht =>
    refine ⟨fun _ => ?_, fun _ => rfl⟩
    by_contra hno
    refine ht (hall.mpr fun j hj => ?_)
    by_contra hle
    exact hno ⟨j, hj, by omega⟩

/-! ## Follow-on products -/

theorem followOf_spec {s : State} {r : CrewRef} {n : Nat} {g : Grid} {c : Crew} {f : FollowOn} (h : s.followOf r n = some (g, c, f)) :
    s.crew? c.ref = some c := by
  unfold State.followOf at h
  split at h
  · next k hg hk =>
    obtain ⟨f', -, h⟩ := Option.map_eq_some_iff.mp h
    cases h
    rw [ref_of_crew? hk]
    exact hk
  · cases h

/-- The follow-on product of a crew, as it enters the tile queue. -/
def FollowOn.tileOp (f : FollowOn) (c : Crew) (pages : List (Nat × Xlate)) : TileOp :=
  { id := f.id, crew := c.ref, strand := f.strand, lane := 0, kind := .mma f.wa f.wb f.fb f.ty, td := f.td, ts := 0, follow := some f.tag,
    phase := c.phase, pages := pages, olds := [] }

section
variable {s t : State} {g : Grid} {c : Crew} {f : FollowOn}

/-- An operation is queued behind the others, and its follow-on product leaves its crew. -/
theorem queue_leaves {u : State} {k : Core} {o : TileOp} (hc : u.crew? c.ref = some c) (hk : (u.core? c.core).map Core.tileQ = some k.tileQ) :
    ∃ j d, ((u.queueTile c.core o).modCrew c.ref fun c => { c with follows := c.follows.filter fun h => h.id ≠ f.id }).core? c.core = some j ∧
      j.tileQ = k.tileQ ++ [o] ∧
      ((u.queueTile c.core o).modCrew c.ref fun c => { c with follows := c.follows.filter fun h => h.id ≠ f.id }).crew? c.ref = some d ∧
      d.follows = c.follows.filter fun h => h.id ≠ f.id := by
  obtain ⟨i, hi, he⟩ := Option.map_eq_some_iff.mp hk
  refine ⟨{ i with tileQ := i.tileQ ++ [o] }, { c with follows := c.follows.filter fun h => h.id ≠ f.id }, ?_, by rw [← he], ?_, rfl⟩
  · exact (core?_modCore_same u c.core _).trans (congrArg _ hi)
  · exact (crew?_modCrew_same (u.queueTile c.core o) c.ref _ (by intro c; exact ⟨rfl, rfl⟩)).trans (congrArg _ hc)

/-- A follow-on product whose pages are all translated enters the queue of its core (R221). -/
theorem issueFollow_queues {k : Core} {pages : List (Nat × Xlate)} (hc : s.crew? c.ref = some c) (hk : s.core? c.core = some k)
    (hp : s.transPages c.core g.ctx .read (TileKind.mma f.wa f.wb f.fb f.ty).pages.1 = (t, .inl pages)) :
    ∃ j o d, (s.issueFollow g c f).core? c.core = some j ∧ j.tileQ = k.tileQ ++ [o] ∧ o.kind = .mma f.wa f.wb f.fb f.ty ∧ o.td = f.td ∧
      o.crew = c.ref ∧ o.follow = some f.tag ∧ o.pages = pages ∧ (s.issueFollow g c f).crew? c.ref = some d ∧
      d.follows = c.follows.filter fun h => h.id ≠ f.id := by
  have ht : SideKept s t := by
    have := sideKept_transPages (TileKind.mma f.wa f.wb f.fb f.ty).pages.1 s c.core g.ctx .read
    rwa [hp] at this
  have queued {u : State} (hu : SideKept s u) (o : TileOp) := queue_leaves (f := f) (k := k) (o := o) ((hu.1.crew? c.ref).trans hc)
    ((hu.2.2 c.core).trans (congrArg _ hk))
  unfold State.issueFollow
  dsimp only
  rw [show (TileKind.mma f.wa f.wb f.fb f.ty).pages.2 = .read from rfl, hp]
  dsimp only
  split
  · obtain ⟨j, d, hj, hq, hd, hf⟩ := queued ht (f.tileOp c pages)
    exact ⟨j, f.tileOp c pages, d, hj, hq, rfl, rfl, rfl, rfl, rfl, hd, hf⟩
  · obtain ⟨j, d, hj, hq, hd, hf⟩ := queued (ht.trans (sideKept_fillOperands t c.core g.ctx pages (TileKind.mma f.wa f.wb f.fb f.ty).sources))
      { f.tileOp c pages with
        olds := (t.fillOperands c.core g.ctx pages (TileKind.mma f.wa f.wb f.fb f.ty).sources).operands c g.ctx pages true (TileKind.mma f.wa f.wb f.fb f.ty).sources }
    exact ⟨j, _, d, hj, hq, rfl, rfl, rfl, rfl, rfl, hd, hf⟩

/-- One that finds a page without a translation parks (R224). -/
theorem issueFollow_parks {va : Nat} {why : BitVec 8} (hc : s.crew? c.ref = some c)
    (hp : s.transPages c.core g.ctx .read (TileKind.mma f.wa f.wb f.fb f.ty).pages.1 = (t, .inr (va, why))) :
    ∃ d, (s.issueFollow g c f).crew? c.ref = some d ∧ ∀ h ∈ d.follows, h.id = f.id → h.parked.isSome = true := by
  have ht : MemSide s t := by
    have := (sideKept_transPages (TileKind.mma f.wa f.wb f.fb f.ty).pages.1 s c.core g.ctx .read).1
    rwa [hp] at this
  unfold State.issueFollow
  dsimp only
  rw [show (TileKind.mma f.wa f.wb f.fb f.ty).pages.2 = .read from rfl, hp]
  dsimp only
  have hf := faultSide_postFault t { faultOf g c with va := BitVec.ofNat 64 va, access := Right.read.code, source := 3, reason := why }
  refine ⟨_, (crew?_modCrew_same _ c.ref _ (by intro c; exact ⟨rfl, rfl⟩)).trans (congrArg _ ((crew?_of_crews hf.crews c.ref).trans ((ht.crew? c.ref).trans hc))), ?_⟩
  intro h hh he
  obtain ⟨z, -, rfl⟩ := List.mem_map.mp hh
  by_cases hz : z.id = f.id
  · rw [if_pos (decide_eq_true hz)]
    rfl
  · rw [if_neg (by simpa using hz)] at he
    exact absurd he hz

end

/-- Settles O57: copies, parkings, drains and products each move all their granules, or stand where a page fault holds them up. -/
theorem engineEvents : Obligations.EngineEvents := by
  unfold Obligations.EngineEvents
  intro steady count
  have isSteady {s : State} {x : TagCtx} {j : Job} {now : Snap} (h : steady s x j now) : Steady s x j now := by
    obtain ⟨h1, h2, h3, h4, h5⟩ := h
    exact ⟨h1, h2, h3, h4, h5⟩
  refine ⟨?_, ?_, fun y store tr s a => ⟨fun h => elem_local h _ _ _ _, fun h ks hk hp => elem_global h _ _ hk hp⟩, ?_, ?_, ?_, ?_, ?_, ?_, ?_, ?_, ?_, ?_, ?_,
    fun src dst k h => copyPairs_get h⟩
  · intro s r n x src dst now hr j hst hl
    obtain ⟨hdone, k, hk, hstore, hmem⟩ := copy_local hr (isSteady hst) hl
    exact ⟨s.runCopy r n.toNat, k, rfl, hdone, hk, hstore, hmem⟩
  · intro s r n x src dst now hr j bytes stored hst hl hb
    exact ⟨s.runCopy r n.toNat, rfl, copy_global hr (isSteady hst) hl hb⟩
  · intro s r n h
    exact congrArg Host.Outcome.next (if_pos h)
  · intro s r n x src dst d a rest hr hd hs hg hp hm ho _ hw
    exact copyPark_parks hr hd hs hg hp hm ho hw
  · intro s r n x die i src now k hr hst hs hh hd
    refine ⟨s.runPark x n.toNat die i src, ?_, runPark_fills (parkReady_spec hr) (isSteady hst) hs hh hd⟩
    show execCpymParked r n s = _
    rw [execCpymParked, hr]
  · intro s r n x i acc v k hr hs hready hty ha hl hg ho ms
    have hx := drainReady_spec hr
    obtain ⟨-, -, href, -⟩ := tagCtx?_spec hx
    obtain ⟨c, q, hc, hn, hover, hstore, hq, hdr, huse⟩ := admitDrain_spec acc hx hs
    obtain ⟨hdone, ⟨j, hj, hbytes⟩, p, hp, h1, h2⟩ := moveDrain_all (k := k) href hc hn (hover.trans ho) hl hg hq
    refine ⟨s.runDrain x n.toNat i acc v, j, ?_, ?_⟩
    · show execDrainComplete r n s = _
      rw [execDrainComplete, hr]
    · rw [runDrain_moves hs hready hty ha]
      rw [hdr, huse] at h1
      rw [hdr] at h2
      rw [hstore] at hbytes
      exact ⟨hdone, hj, hbytes, p, hp, h1, h2⟩
  · intro s r n x i acc v hr hs hg ho
    have hx := drainReady_spec hr
    obtain ⟨-, hc, href, -⟩ := tagCtx?_spec hx
    refine ⟨s.runDrain x n.toNat i acc v, ?_, ?_⟩
    · show execDrainComplete r n s = _
      rw [execDrainComplete, hr]
    · rw [runDrain_bad hs hg, href]
      exact (tagDone_finishTag hc (tag_lt hx) ho 4 0 0 0).1
  · intro s r n x b vx y fb rnd sat k hr hvx hy hg ho hold hk hout hpick hb el rows hgood
    obtain ⟨hdone, j, hj, hbytes⟩ := moveNmv_all (rnd := rnd) (sat := sat) (nmvReady_spec hr) hvx hy hg ho hold hk hout hpick hb hgood
    refine ⟨s.moveNmv x n.toNat b vx y fb rnd sat (y.count * 2) none, j, ?_, hdone, hj, hbytes⟩
    show execNmvComplete r n s = _
    rw [execNmvComplete, hr]
  · intro s r n x k hx hcan ho
    obtain ⟨-, -, href, -⟩ := tagCtx?_spec hx
    obtain ⟨T, ⟨c', hc', -, hT⟩, hstate, hcode, herr, hop⟩ := settles_endEarly (hasTag_of_tagCtx hx ho) k 3
    have htag := HasTag.tag hT
    rw [href] at hc'
    refine ⟨s.endEarly x n.toNat k 3, c', ?_, rfl, hc', by rw [htag]; exact hstate, by rw [htag]; exact hcode, by rw [htag]; exact hop, by rw [htag]; exact herr⟩
    show execCancelEnd r n k s = _
    rw [execCancelEnd, hx]
    exact congrArg Host.Outcome.next (if_pos hcan)
  · intro s t r n g c f k pages hf hk hp
    obtain ⟨j, o, d, h⟩ := issueFollow_queues (followOf_spec hf) hk hp
    refine ⟨s.issueFollow g c f, j, o, d, ?_, h⟩
    show Host.Outcome.next (s.followIssue r n.toNat) = _
    rw [State.followIssue, hf]
  · intro s t r n g c f va why hf hp
    obtain ⟨d, hd, hall⟩ := issueFollow_parks (followOf_spec hf) hp
    refine ⟨s.issueFollow g c f, d, ?_, hd, hall⟩
    show Host.Outcome.next (s.followIssue r n.toNat) = _
    rw [State.followIssue, hf]
  · intro s n i g c d o h hd ho hc hs
    obtain ⟨-, hid⟩ := tileReady_spec h
    refine ⟨s.leaveTile n g c o, d, tileOpEnd_ends h hd ho hc hs, hd, rfl, rfl, rfl, fun j hj y hy => ?_⟩
    rw [State.leaveTile, core?_modCore_same] at hj
    obtain ⟨k, -, rfl⟩ := Option.map_eq_some_iff.mp hj
    rw [← hid]
    simpa using (List.mem_filter.mp hy).2
  · intro s r c n code read filled addr hc hn ho
    obtain ⟨hdone, k, hk, hstr, -, haddr⟩ := tagDone_finishTag hc hn ho code addr read filled
    exact ⟨hdone, k, hk, hstr, haddr⟩

end Sys2Proof.Machine
end

