-- ==== Sys2Proof/Proofs/MemForm.lean ====
section
/-! SUPPORT. The canonical form of the listing of memory (log entry 2), through the operations that write single bytes. -/
namespace Sys2Proof.Machine

/-- The listing of memory has its canonical form. -/
def State.Formed (s : State) : Prop := Memory.wf s.mem = true

/-- The state that an instruction is issued in has the form. -/
def Ctx.Formed (c : Ctx) : Prop := c.s.Formed

/-- The state that an effect carries has the form. -/
def Eff.Formed : Eff → Prop
  | .go s _ _ | .part s _ _ | .trap _ _ _ s | .stay s _ | .done s => s.Formed
  | .pipe _ _ _ _ _ | .defer _ _ _ _ => True

/-- The state that a step comes to has the form. -/
def FormedNext (o : Host.Outcome State Fault Refusal) : Prop := ∀ t, o = .next t → t.Formed

/-- The form is about memory alone. -/
theorem formed_of_mem {s t : State} (h : s.Formed) (ht : t.mem = s.mem) : t.Formed := by
  unfold State.Formed
  rw [ht]
  exact h

theorem formed_foldl {α : Type} {f : State → α → State} (hf : ∀ s a, s.Formed → (f s a).Formed) {l : List α} {s : State} (h : s.Formed) :
    (l.foldl f s).Formed := by
  induction l generalizing s with
  | nil => exact h
  | cons a l ih => exact ih (hf s a h)

/-- A fold that carries more than the state. -/
theorem formed_foldl_fst {α β : Type} {f : State × β → α → State × β} (hf : ∀ x a, x.1.Formed → (f x a).1.Formed) {l : List α}
    {x : State × β} (h : x.1.Formed) : (l.foldl f x).1.Formed := by
  induction l generalizing x with
  | nil => exact h
  | cons a l ih => exact ih (hf x a h)

theorem formedNext_next {s : State} (h : s.Formed) : FormedNext (.next s) := fun _ ht => by cases ht; exact h

theorem formed_noteWrite {s : State} {sel : Nat → Bool} (h : s.Formed) : (s.noteWrite sel).Formed := by
  unfold State.noteWrite
  split
  · exact h
  · exact h

theorem formed_writeMem {s : State} {key : Nat} {bs : List Byte} (h : s.Formed) : (s.writeMem key bs).Formed := wf_writeMem s key bs h

theorem formed_writeNat {s : State} {key n v : Nat} (h : s.Formed) : (s.writeNat key n v).Formed := wf_writeNat s key n v h

theorem formed_writeBytes {s : State} {l : List (Nat × Byte)} (h : s.Formed) : (s.writeBytes l).Formed := wf_writeBytes s l h

theorem formed_perform {s : State} {m : Message} (h : s.Formed) : (s.perform m).Formed := wf_perform s m h

theorem formed_drain {s : State} {core : Nat} (h : s.Formed) : (s.drain core).Formed := wf_drain s core h

theorem formed_modCore {s : State} {n : Nat} {f : Core → Core} (h : s.Formed) : (s.modCore n f).Formed := h

theorem formed_modPacket {s : State} {qid : Nat} {idx : Word} {f : Packet → Packet} (h : s.Formed) : (s.modPacket qid idx f).Formed := h

theorem formed_modGraph {s : State} {qid : Nat} {idx : Word} {f : Graph → Graph} (h : s.Formed) : (s.modGraph qid idx f).Formed := h

theorem formed_modGrid {s : State} {n : Nat} {f : Grid → Grid} (h : s.Formed) : (s.modGrid n f).Formed := h

theorem formed_modCrew {s : State} {r : CrewRef} {f : Crew → Crew} (h : s.Formed) : (s.modCrew r f).Formed := h

theorem formed_modStrand {s : State} {r : StrandRef} {f : Strand → Strand} (h : s.Formed) : (s.modStrand r f).Formed := h

theorem formed_modSlot {s : State} {die n : Nat} {f : Slot → Slot} (h : s.Formed) : (s.modSlot die n f).Formed := h

theorem formed_queueTile {s : State} {core : Nat} {o : TileOp} (h : s.Formed) : (s.queueTile core o).Formed := h

theorem formed_bumpId {s : State} (h : s.Formed) : s.bumpId.Formed := h

theorem formed_tick {s : State} {n : Nat} (h : s.Formed) : (s.tick n).Formed := h

theorem formed_onStrand {c : Ctx} {s : State} {f : Strand → Strand} (h : s.Formed) : (c.onStrand s f).Formed := h

theorem formed_onCrew {c : Ctx} {s : State} {f : Crew → Crew} (h : s.Formed) : (c.onCrew s f).Formed := h

theorem formed_put {c : Ctx} {s : State} {f : Nat → DWord} (h : s.Formed) : (c.put s f).Formed := h

end Sys2Proof.Machine
end

