-- ==== Sys2Proof/Proofs/FormFront.lean ====
section
/-! SUPPORT. The canonical form of memory (log entry 2), through starts, mailbox commands, packets and queues. -/
namespace Sys2Proof.Machine

theorem formed_actBy {act : Instr → State → Host.Outcome State Fault Refusal} {x : State × Option Instr}
    (hact : ∀ i s, s.Formed → FormedNext (act i s)) (hx : x.1.Formed) : FormedNext (actBy act x) := by
  unfold actBy
  split
  · exact formedNext_next hx
  · exact hact _ _ hx

theorem formed_started {s : State} {r : StartReport} {f : State → State} (hs : s.Formed) (hf : ∀ t, t.Formed → (f t).Formed) :
    (s.started r f).Formed := by
  unfold State.started
  split
  · exact hf _ hs
  · exact hs

theorem formed_logData {s : State} {die kind : Nat} {data : BitVec 128} (h : s.Formed) : (s.logData die kind data).Formed := h

theorem formed_logEvent {s : State} {die kind unit addr : Nat} (h : s.Formed) : (s.logEvent die kind unit addr).Formed := formed_logData h

theorem formed_logAll {s : State} {kind unit addr : Nat} (h : s.Formed) : (s.logAll kind unit addr).Formed := by
  unfold State.logAll
  refine formed_foldl ?_ h
  intro _ _ h1
  split
  · exact formed_logEvent h1
  · exact h1

theorem formed_putReport {s : State} {r : Report} (h : s.Formed) :
    (s.putReport r).Formed := formed_foldl (fun _ _ h1 => formed_writeMem h1) h

theorem formed_bootFirmware {s : State} (h : s.Formed) : s.bootFirmware.Formed := by
  have hlog : (s.logAll 10 0 0).Formed := formed_logAll h
  unfold State.bootFirmware
  dsimp only
  split
  · refine formed_putReport ?_
    dsimp only [State.Formed]
    exact hlog
  · dsimp only [State.Formed]
    exact hlog

theorem formed_setTables {s : State} {f : Nat → Cluster} (h : s.Formed) : (s.setTables f).Formed := by
  unfold State.setTables
  exact formed_putReport h

theorem formed_endCold {s : State} {r : StartReport} (h : s.Formed) : (s.endCold r).Formed := by
  unfold State.endCold
  refine formed_started h fun _ ht => formed_bootFirmware (formed_setTables (formed_foldl ?_ ht))
  exact fun _ _ hu => hu

theorem formed_upAgain {s : State} (h : s.Formed) : s.upAgain.Formed := h

theorem formed_loseLines {s : State} {lines : List Nat} (h : s.Formed) : (s.loseLines lines).Formed := h

theorem formed_discard {s : State} {cold : Bool} {r : StartReport} (h : s.Formed) : (s.discard cold r).Formed := by
  unfold State.discard
  refine formed_loseLines ?_
  show Memory.wf (if cold then _ else s.mem) = true
  split
  · exact SMap.wf_filter _ _ _ h
  · exact h

theorem formed_beginStart {s : State} {cold : Bool} {r : StartReport} (h : s.Formed) : (s.beginStart cold r).Formed :=
  formed_of_mem (formed_discard (s := { s with agenda := s.agendaOn }) (cold := cold) (r := r) h) rfl

theorem formed_endWarm {s : State} {r : StartReport} (h : s.Formed) :
    (s.endWarm r).Formed := formed_started h (fun _ h1 => formed_bootFirmware (formed_setTables h1))

theorem formed_answer {s : State} {a : Answer} (h : s.Formed) : (s.answer a).Formed := h

theorem formed_ringBell {s : State} {qid : Nat} (h : s.Formed) : (s.ringBell qid).Formed := by
  unfold State.ringBell
  split
  · exact h
  · dsimp only
    split
    · split
      · exact h
      · split
        · exact h
        · exact h
    · split
      · exact h
      · split
        · exact h
        · exact h

theorem formed_command {s : State} {code : Nat} {body : State} (hs : s.Formed) (hbody : body.Formed) : (s.command code body).Formed := by
  unfold State.command
  split
  · exact hs
  · split
    · exact formed_answer hs
    · exact hbody

theorem formed_meet {s : State} {e : ErrorSite} (h : s.Formed) : (s.meet e).Formed := by
  unfold State.meet
  split
  · exact h
  · exact h

theorem formed_physFail {s : State} {pa n : Nat} (h : s.Formed) : (s.physFail pa n).Formed := by
  unfold State.physFail
  exact formed_answer (formed_foldl (fun _ _ h1 => formed_meet h1) h)

theorem formed_partSet {s : State} (h : s.Formed) : s.partSet.Formed := by
  unfold State.partSet
  dsimp only
  split
  · exact formed_physFail h
  · split
    · exact formed_answer h
    · split
      · split
        · exact formed_answer h
        · split
          · split
            · exact formed_answer h
            · exact formed_answer h
          · split
            · exact formed_answer h
            · exact formed_answer h
      · split
        · exact formed_answer h
        · split
          · exact formed_answer h
          · exact formed_answer h

theorem formed_dropTlb {s : State} {ctx : Nat} {all : Bool} {lo hi : Nat} (h : s.Formed) : (s.dropTlb ctx all lo hi).Formed := h

theorem formed_ctxSet {s : State} (h : s.Formed) : s.ctxSet.Formed := by
  unfold State.ctxSet
  dsimp only
  split
  · exact formed_physFail h
  · split
    · exact formed_answer h
    · split
      · split
        · exact formed_answer h
        · exact formed_answer (formed_dropTlb h)
      · split
        · exact formed_answer h
        · exact formed_answer h

theorem formed_queueCreate {s : State} (h : s.Formed) : s.queueCreate.Formed := by
  unfold State.queueCreate
  dsimp only
  split
  · exact formed_physFail h
  · split
    · split
      · split
        · exact formed_answer h
        · exact formed_answer h
      · split
        · exact formed_answer h
        · exact formed_answer h
    · split
      · split
        · exact formed_answer h
        · exact formed_answer h
      · split
        · exact formed_answer h
        · exact formed_answer h

theorem formed_settleMailbox {s : State} (h : s.Formed) : s.settleMailbox.Formed := by
  unfold State.settleMailbox
  split
  · exact h
  · split
    · exact h
    · exact h

theorem formed_dropStarted {s : State} {abort : Bool} {q : Queue} {p : Packet} (h : s.Formed) : (s.dropStarted abort q p).Formed := by
  unfold State.dropStarted
  dsimp only
  split
  · exact h
  · exact h
  · split
    · exact h
    · split
      · exact h
      · exact h
    · exact h
    · exact h

theorem formed_tidyChain {s : State} {gid : Nat} (h : s.Formed) : (s.tidyChain gid).Formed := by
  unfold State.tidyChain
  split
  · exact h
  · split
    · exact h
    · exact h

theorem formed_wakeBarriers {s : State} {g : Grid} {k : BarKey} (h : s.Formed) : (s.wakeBarriers g k).Formed := h

theorem formed_barrierStep {s : State} {gid : Nat} {k : BarKey} (h : s.Formed) : (s.barrierStep gid k).Formed := by
  unfold State.barrierStep
  split
  · exact h
  · dsimp only
    split
    · exact formed_wakeBarriers h
    · exact h

theorem formed_barrierSweep {s : State} {gid : Nat} (h : s.Formed) : (s.barrierSweep gid).Formed := by
  unfold State.barrierSweep
  split
  · exact h
  · exact formed_foldl (fun _ _ h1 => formed_barrierStep h1) h

theorem formed_cutGrid {s : State} {abort : Bool} {g : Grid} (h : s.Formed) : (s.cutGrid abort g).Formed := by
  unfold State.cutGrid
  split
  · exact h
  · dsimp only
    refine formed_tidyChain ?_
    refine formed_barrierSweep ?_
    split
    · exact h
    · exact h
  · exact h

theorem formed_writeFaults {s : State} {part : Nat} {frptr : Word} {fuel : Nat} (h : s.Formed) :
    (s.writeFaults part frptr fuel).Formed := by
  induction fuel generalizing s with
  | zero => exact h
  | succ n ih =>
    unfold State.writeFaults
    split
    · dsimp only
      split
      · exact h
      · refine ih ?_
        dsimp only [State.Formed]
        exact formed_writeNat (formed_writeMem h)
    · exact h

theorem formed_pollFaults {s : State} {part : Nat} (h : s.Formed) : (s.pollFaults part).Formed := by
  unfold State.pollFaults
  split
  · exact h
  · dsimp only
    split
    · exact formed_meet h
    · exact formed_writeFaults h

theorem formed_postFault {s : State} {f : Fault32} (h : s.Formed) : (s.postFault f).1.Formed := by
  unfold State.postFault
  split
  · exact h
  · dsimp only
    refine formed_pollFaults ?_
    split
    · split
      · exact h
      · exact formed_meet h
    · exact h

theorem formed_frontFault {s : State} {q : Queue} {kernid : DWord} {x : Nat × BitVec 8} {a : Right} {w : FrontWork} (h : s.Formed) :
    (s.frontFault q kernid x a w).Formed := by
  unfold State.frontFault
  exact formed_postFault h

theorem formed_coverPoison {s : State} {keys : List Nat} (h : s.Formed) : (s.coverPoison keys).Formed := by
  unfold State.coverPoison
  split
  · exact h
  · exact h

theorem formed_setRecord {s : State} {line : Nat} {i : Inst} (h : s.Formed) : (s.setRecord line i).Formed := h

theorem formed_l2Fill {s : State} {d : Nat} {mask : BitVec 16} {line : Nat} (h : s.Formed) : (s.l2Fill d mask line).Formed := by
  unfold State.l2Fill
  split
  · exact h
  · split
    · exact h
    · dsimp only
      split
      · exact h
      · split
        · exact h
        · exact h

theorem formed_l2Access {s : State} {ctx line : Nat} {x : Xlate} (h : s.Formed) : (s.l2Access ctx line x).Formed := by
  unfold State.l2Access
  split
  · exact formed_l2Fill h
  · exact h

/-- Bytes that the front end writes. -/
theorem formed_frontPut {s t : State} {ctx : Nat} {a : Right} {sync : Bool} {va n : Nat} {f : List Byte → List Byte} (h : s.Formed)
    (ht : s.frontPut ctx a sync va n f = .inl t) : t.Formed := by
  unfold State.frontPut at ht
  split at ht
  · cases ht
  · obtain rfl := Sum.inl.inj ht
    split
    · refine formed_foldl ?_ (formed_writeBytes h)
      intro _ _ hu
      split
      · exact formed_setRecord (formed_l2Access hu)
      · exact hu
    · exact formed_writeBytes h

theorem formed_flush {s : State} {qid fuel : Nat} (h : s.Formed) : (s.flush qid fuel).Formed := by
  induction fuel generalizing s with
  | zero => exact h
  | succ n ih =>
    unfold State.flush
    split
    · exact h
    · split
      · dsimp only
        split
        · exact formed_frontFault h
        · rename_i hput
          have ht := formed_frontPut h hput
          exact ih ht
      · exact h

theorem formed_flushAll {s : State} {qid : Nat} (h : s.Formed) : (s.flushAll qid).Formed := by
  unfold State.flushAll
  split
  · exact formed_flush h
  · exact h

theorem formed_settlePacket {s : State} {qid : Nat} {idx : Word} {status dispatched completed : Nat} (h : s.Formed) :
    (s.settlePacket qid idx status dispatched completed).Formed := formed_flushAll h

theorem formed_failPacket {s : State} {qid : Nat} {idx : Word} {dispatched completed : Nat} (h : s.Formed) :
    (s.failPacket qid idx dispatched completed).Formed := formed_settlePacket h

theorem formed_addGrid {s : State} {q : Queue} {o : Origin} {r : LaunchRec} {prio : BitVec 2} {phase : BitVec 16} {st : GridState}
    (h : s.Formed) :
    (s.addGrid q o r prio phase st).Formed := by
  unfold State.addGrid
  exact h

theorem formed_dropPacket {s : State} {q : Queue} {p : Packet} (h : s.Formed) : (s.dropPacket q p).Formed := by
  unfold State.dropPacket
  split
  · exact formed_frontFault h
  · exact formed_failPacket h
  · exact formed_settlePacket h
  · exact formed_addGrid h

theorem formed_pushPacket {s : State} {qid : Nat} {p : Packet} (h : s.Formed) : (s.pushPacket qid p).Formed := by
  unfold State.pushPacket
  dsimp only
  split
  · exact formed_writeNat h
  · exact h

theorem formed_losePacket {s : State} {q : Queue} (h : s.Formed) : (s.losePacket q).Formed := formed_failPacket (formed_pushPacket h)

theorem formed_meetRing {s : State} {q : Queue} (h : s.Formed) : (s.meetRing q).Formed := by
  unfold State.meetRing
  split
  · exact formed_meet h
  · exact h

theorem formed_dropQueue {s : State} {qid fuel : Nat} (h : s.Formed) : (s.dropQueue qid fuel).Formed := by
  induction fuel generalizing s with
  | zero => exact h
  | succ n ih =>
    unfold State.dropQueue
    split
    · exact h
    · split
      · exact h
      · split
        · exact ih (formed_dropPacket h)
        · split
          · exact h
          · split
            · exact formed_frontFault h
            · exact ih (formed_losePacket (formed_meetRing h))
            · exact ih (formed_pushPacket h)

theorem formed_dropAll {s : State} {qid : Nat} (h : s.Formed) : (s.dropAll qid).Formed := by
  unfold State.dropAll
  split
  · exact formed_dropQueue h
  · exact h

/-- The counters of a node's successors, counted down. -/
theorem formed_countDown {s : State} {ctx : Nat} {gr : Graph} {b : List Byte} {x : State × Graph} (h : s.Formed)
    (hx : s.countDown ctx gr b = .inl x) : x.1.Formed := by
  unfold State.countDown at hx
  dsimp only at hx
  split at hx
  · cases hx
  · obtain rfl := Sum.inl.inj hx
    refine formed_foldl_fst ?_ h
    intro _ _ hy
    split
    · exact hy
    · exact formed_writeBytes hy

theorem formed_pumpGraph {s : State} {qid : Nat} {idx : Word} {fuel : Nat} (h : s.Formed) : (s.pumpGraph qid idx fuel).Formed := by
  induction fuel generalizing s with
  | zero => exact h
  | succ n ih =>
    unfold State.pumpGraph
    split
    · exact h
    · split
      · split
        · split
          · split
            · exact formed_settlePacket h
            · exact h
          · split
            · exact formed_frontFault h
            · exact formed_failPacket h
            · split
              · split
                · exact formed_failPacket h
                · split
                  · exact formed_frontFault h
                  · rename_i _ _ hdown
                    exact ih (formed_countDown h hdown)
              · exact ih (formed_modGraph (formed_addGrid h))
        · exact h
      · exact h

theorem formed_graphOn {s : State} {qid : Nat} (h : s.Formed) : (s.graphOn qid).Formed := by
  unfold State.graphOn
  split
  · exact formed_pumpGraph h
  · exact h

theorem formed_discardEntry {s : State} {e : LaunchEntry} (h : s.Formed) : (s.discardEntry e).Formed := by
  unfold State.discardEntry
  split
  · exact formed_addGrid h
  · exact h

theorem formed_dropEntries {s : State} {qid : Nat} (h : s.Formed) : (s.dropEntries qid).Formed := by
  unfold State.dropEntries
  exact formed_foldl (fun _ _ h1 => formed_discardEntry h1) h

theorem formed_destroyQueue {s : State} {abort : Bool} {q : Queue} (h : s.Formed) : (s.destroyQueue abort q).Formed := by
  unfold State.destroyQueue
  refine formed_dropAll (formed_graphOn (formed_flushAll (formed_dropEntries (formed_foldl ?_ (formed_foldl ?_ h)))))
  · exact fun _ _ ht => formed_cutGrid ht
  · exact fun _ _ ht => formed_dropStarted ht

theorem formed_queueDestroy {s : State} (h : s.Formed) : s.queueDestroy.Formed := by
  unfold State.queueDestroy
  split
  · exact formed_answer h
  · split
    · exact formed_answer h
    · refine formed_settleMailbox ?_
      dsimp only [State.Formed]
      exact formed_destroyQueue h

theorem formed_lose {s : State} {key n : Nat} (h : s.Formed) : (s.lose key n).Formed := h

theorem formed_nearSet {s : State} (h : s.Formed) : s.nearSet.Formed := by
  unfold State.nearSet
  dsimp only
  split
  · exact formed_answer h
  · split
    · exact formed_answer h
    · split
      · exact formed_answer h
      · exact formed_answer (formed_lose h)

theorem formed_retryCrews {s : State} {part id : Nat} (h : s.Formed) : (s.retryCrews part id).Formed := h

end Sys2Proof.Machine
end

