-- ==== Sys2Proof/Proofs/FormEngines.lean ====
section
/-! SUPPORT. The canonical form of memory (log entry 2), through the copy engine and the settling of faults. -/
namespace Sys2Proof.Machine

theorem formed_deferAt {c : Ctx} {s : State} {t : Trap} {m : Mask} {addr : DWord} {lane : Nat} (hs : s.Formed) :
    (c.deferAt s t m addr lane).Formed := hs

theorem formed_deferOn {c : Ctx} {s : State} {t : Trap} {m : Mask} {addr : DWord} (hs : s.Formed) :
    (c.deferOn s t m addr).Formed := formed_deferAt hs

theorem formed_fetchTrap {s : State} {r : SplitRef} {p : Path} {handler : Word} {trap : Trap} {va : Nat} (h : s.Formed) :
    (s.fetchTrap r p handler trap va).Formed := h

theorem formed_unresolveStrand {s : State} {c : Crew} {t : Strand} {id : Nat} {va : DWord} (h : s.Formed) :
    (s.unresolveStrand c t id va).Formed := by
  unfold State.unresolveStrand
  dsimp only
  refine formed_foldl (fun _ _ h1 => formed_fetchTrap h1) ?_
  refine formed_foldl ?_ h
  intro _ _ h1
  split
  · split
    · exact h1
    · exact formed_deferOn h1
  · exact h1

theorem formed_tlbFill {s : State} {core ctx va : Nat} {x : Xlate} (h : s.Formed) : (s.tlbFill core ctx va x).Formed := by
  unfold State.tlbFill
  exact h

theorem formed_translate {s : State} {core ctx va : Nat} {a : Right} (h : s.Formed) : (s.translate core ctx va a).1.Formed := by
  unfold State.translate
  split
  · exact h
  · split
    · exact formed_tlbFill h
    · exact h

theorem formed_touchPages {s : State} {core ctx : Nat} {a : Right} {pages : List Nat} (h : s.Formed) :
    (s.touchPages core ctx a pages).Formed := formed_foldl (fun _ _ h1 => formed_translate h1) h

theorem formed_touchJob {s : State} {x : TagCtx} {j : Job} {dst : Option View} (h : s.Formed) : (s.touchJob x j dst).Formed := by
  unfold State.touchJob
  dsimp only
  split
  · exact formed_touchPages (formed_touchPages h)
  · exact formed_touchPages h

theorem formed_writeBack {s : State} {core : Nat} {sel : L1Line → Bool} (h : s.Formed) : (s.writeBack core sel).Formed := by
  unfold State.writeBack
  split
  · exact h
  · exact h

theorem formed_flushMeeting {s : State} {core ctx : Nat} {v : View} (h : s.Formed) : (s.flushMeeting core ctx v).Formed := by
  unfold State.flushMeeting
  split
  · exact h
  · exact formed_drain (formed_writeBack h)

theorem formed_flushOp {s : State} {x : TagCtx} (h : s.Formed) : (s.flushOp x).Formed := by
  unfold State.flushOp
  refine formed_foldl ?_ h
  intro _ _ h1
  split
  · exact formed_flushMeeting (formed_flushMeeting h1)
  · exact h1

theorem formed_beginOp {s : State} {x : TagCtx} (h : s.Formed) : (s.beginOp x).Formed := by
  unfold State.beginOp
  split
  · exact formed_flushOp h
  · exact h

theorem formed_putDest {s : State} {d : Dest} {bs : List (Nat × Byte)} (h : s.Formed) : (s.putDest d bs).Formed := by
  unfold State.putDest
  split
  · exact h
  · exact formed_writeBytes h

theorem formed_moveGranules {s : State} {d : Dest} {ms : List Move} {gs : List Nat} {n : Nat} (h : s.Formed) :
    (s.moveGranules d ms gs n).1.Formed := by
  induction gs generalizing s n with
  | nil => cases n <;> exact h
  | cons g gs ih =>
    cases n with
    | zero => exact h
    | succ n =>
      unfold State.moveGranules
      dsimp only
      split
      · exact h
      · exact ih (formed_putDest h)

theorem formed_cleanSlot {s : State} {core slot : Nat} (h : s.Formed) : (s.cleanSlot core slot).Formed := formed_writeBack h

theorem formed_settleCrew {s : State} {r : CrewRef} (h : s.Formed) : (s.settleCrew r).Formed := by
  unfold State.settleCrew
  split
  · exact h
  · split
    · exact h
    · dsimp only
      split
      · exact h
      · exact formed_cleanSlot h

theorem formed_finishTag {s : State} {r : CrewRef} {n code : Nat} {addr : DWord} {read filled : Nat} (h : s.Formed) :
    (s.finishTag r n code addr read filled).Formed := by
  unfold State.finishTag
  exact formed_settleCrew h

theorem formed_invalidate {s : State} {core : Nat} {sel : L1Line → Bool} (h : s.Formed) :
    (s.invalidate core sel).Formed := formed_writeBack h

theorem formed_dropMeeting {s : State} {core ctx : Nat} {v : View} {lines : List Nat} (h : s.Formed) :
    (s.dropMeeting core ctx v lines).Formed := by
  unfold State.dropMeeting
  split
  · exact h
  · exact formed_invalidate h

theorem formed_dropDest {s : State} {x : TagCtx} {v : View} {ms : List Move} (h : s.Formed) : (s.dropDest x v ms).Formed := by
  unfold State.dropDest
  exact formed_dropMeeting (formed_dropMeeting h)

theorem formed_endMove {s : State} {x : TagCtx} {n : Nat} {v : View} {ms : List Move} {q code : Nat} (h : s.Formed) :
    (s.endMove x n v ms q code).Formed := by
  unfold State.endMove
  exact formed_finishTag (formed_dropDest h)

theorem formed_parkOp {s : State} {x : TagCtx} {n : Nat} {source : BitVec 4} {q va : Nat} {a : Right} {reason : BitVec 8} (h : s.Formed) :
    (s.parkOp x n source q va a reason).Formed := by
  unfold State.parkOp
  exact formed_postFault h

theorem formed_moveCopy {s : State} {x : TagCtx} {tag : Nat} {src dst : View} {n : Nat} {code : Option Nat} (h : s.Formed) :
    (s.moveCopy x tag src dst n code).Formed := by
  unfold State.moveCopy
  dsimp only
  split
  · exact formed_endMove (formed_moveGranules (formed_touchJob (formed_beginOp h)))
  · exact formed_endMove (formed_moveGranules (formed_touchJob (formed_beginOp h)))
  · exact formed_endMove (formed_moveGranules (formed_touchJob (formed_beginOp h)))
  · exact formed_parkOp (formed_moveGranules (formed_touchJob (formed_beginOp h)))

theorem formed_drained {s : State} {x : TagCtx} {id : SlotId} (h : s.Formed) : (s.drained x id).Formed := by
  unfold State.drained
  split
  · exact h
  · dsimp only
    split
    · exact h
    · split
      · split
        · split
          · exact formed_finishTag h
          · exact h
        · exact h
      · exact h

theorem formed_moveDrain {s : State} {x : TagCtx} {tag : Nat} {id : SlotId} {v : View} {k : Slot} {n : Nat} {code : Option Nat}
    (h : s.Formed) :
    (s.moveDrain x tag id v k n code).Formed := by
  unfold State.moveDrain
  dsimp only
  split
  · exact formed_parkOp (formed_moveGranules (formed_touchPages h))
  · exact formed_drained (formed_endMove (formed_moveGranules (formed_touchPages h)))
  · exact formed_drained (formed_endMove (formed_moveGranules (formed_touchPages h)))

theorem formed_endDrain {s : State} {x : TagCtx} {tag : Nat} {v : View} {code : Nat} (h : s.Formed) : (s.endDrain x tag v code).Formed := by
  unfold State.endDrain
  dsimp only
  split
  · exact formed_finishTag h
  · exact formed_endMove h

theorem formed_moveNmv {s : State} {x : TagCtx} {tag : Nat} {b vx y : View} {fb : Option FormatBlock} {rnd : BitVec 2} {sat : Bool}
    {n : Nat} {code : Option Nat} (h : s.Formed) :
    (s.moveNmv x tag b vx y fb rnd sat n code).Formed := by
  unfold State.moveNmv
  dsimp only
  split
  · exact formed_finishTag (formed_dropDest (formed_moveGranules (formed_touchPages (formed_touchPages (formed_drain (formed_beginOp h))))))
  · exact formed_finishTag (formed_dropDest (formed_moveGranules (formed_touchPages (formed_touchPages (formed_drain (formed_beginOp h))))))
  · exact formed_finishTag (formed_dropDest (formed_moveGranules (formed_touchPages (formed_touchPages (formed_drain (formed_beginOp h))))))
  · exact formed_parkOp (formed_moveGranules (formed_touchPages (formed_touchPages (formed_drain (formed_beginOp h)))))

theorem formed_endEarly {s : State} {x : TagCtx} {tag granules code : Nat} (h : s.Formed) : (s.endEarly x tag granules code).Formed := by
  unfold State.endEarly
  dsimp only
  split
  · exact formed_moveCopy h
  · split
    · exact formed_moveDrain h
    · exact formed_drained (formed_endDrain h)
    · exact formed_finishTag h
  · exact formed_moveNmv h
  · exact formed_finishTag h
  · exact formed_finishTag h
  · exact formed_finishTag h

theorem formed_endUnresolved {s : State} {x : TagCtx} {tag : Nat} {addr : DWord} (h : s.Formed) :
    (s.endUnresolved x tag addr).Formed := formed_endEarly h

theorem formed_unresolveTags {s : State} {c : Crew} {id : Nat} {va : DWord} (h : s.Formed) : (s.unresolveTags c id va).Formed := by
  unfold State.unresolveTags
  refine formed_foldl ?_ h
  intro _ _ h1
  split
  · split
    · exact formed_endUnresolved h1
    · exact h1
  · exact h1

theorem formed_unresolveCrew {s : State} {id : Nat} {va : DWord} {c : Crew} (h : s.Formed) : (s.unresolveCrew id va c).Formed := by
  have hs : (c.strands.foldl (fun s t => s.unresolveStrand c t id va) s).Formed := formed_foldl (fun _ _ ht => formed_unresolveStrand ht) h
  unfold State.unresolveCrew
  dsimp only
  exact formed_settleCrew (formed_modCrew (formed_unresolveTags hs))

theorem formed_loseEnding {s : State} {q : Queue} {g : Grid} (h : s.Formed) : (s.loseEnding q g).Formed := by
  unfold State.loseEnding
  dsimp only
  refine formed_settleMailbox ?_
  split
  · exact formed_failPacket h
  · split
    · exact formed_failPacket h
    · exact h
  · exact h

theorem formed_unresolveWork {s : State} {q : Queue} {w : FrontWork} (h : s.Formed) : (s.unresolveWork q w).Formed := by
  unfold State.unresolveWork
  split
  · exact formed_losePacket h
  · split
    · exact formed_failPacket h
    · exact h
  · split
    · exact formed_failPacket h
    · exact h
  · exact h
  · split
    · exact h
    · exact formed_loseEnding h
  · exact formed_flushAll h

theorem formed_settleQueue {s : State} {resolved : Bool} {q : Queue} (h : s.Formed) : (s.settleQueue resolved q).Formed := by
  unfold State.settleQueue
  split
  · exact h
  · dsimp only
    refine formed_dropAll ?_
    split
    · exact formed_flushAll h
    · exact formed_unresolveWork h

theorem formed_settleFault {s : State} {f : Fault32} {resolved : Bool} (h : s.Formed) : (s.settleFault f resolved).Formed := by
  unfold State.settleFault
  dsimp only
  refine formed_foldl (fun _ _ h1 => formed_settleQueue h1) ?_
  split
  · exact formed_retryCrews h
  · exact formed_foldl (fun _ _ h1 => formed_unresolveCrew h1) h

theorem formed_faultResp {s : State} (h : s.Formed) : s.faultResp.Formed := by
  unfold State.faultResp
  split
  · exact formed_answer h
  · split
    · exact formed_answer (formed_settleFault h)
    · exact formed_answer h

theorem formed_tlbInval {s : State} (h : s.Formed) : s.tlbInval.Formed := by
  unfold State.tlbInval
  dsimp only
  split
  · exact formed_answer h
  · split
    · exact formed_dropTlb h
    · exact formed_answer (formed_dropTlb h)

end Sys2Proof.Machine
end

