-- ==== Sys2Proof/Proofs/FormAccess.lean ====
section
/-! SUPPORT. The canonical form of memory (log entry 2), through accesses in flight and traps. -/
namespace Sys2Proof.Machine

theorem formed_doneLanes {s : State} {r : StrandRef} {x : InFlight} {m : Mask} {st : FlightState} (h : s.Formed) :
    (s.doneLanes r x m st).Formed := by
  unfold State.doneLanes
  dsimp only
  split
  · exact h
  · exact h

theorem formed_refresh {s : State} {core : Nat} {sel : L1Line → Bool} (h : s.Formed) : (s.refresh core sel).Formed := by
  unfold State.refresh
  exact formed_drain h

theorem formed_flushCore {s : State} {core : Nat} (h : s.Formed) : (s.flushCore core).Formed := formed_drain (formed_writeBack h)

theorem formed_settleCore {s : State} {core : Nat} (h : s.Formed) : (s.settleCore core).Formed := formed_refresh (formed_flushCore h)

theorem formed_shrinkL1 {s : State} {core n : Nat} (h : s.Formed) : (s.shrinkL1 core n).Formed := by
  unfold State.shrinkL1
  split
  · exact h
  · dsimp only
    split
    · exact h
    · exact formed_invalidate h

theorem formed_fillL1 {s : State} {core line ctx vline : Nat} {sc : Scope} {x : Xlate} (h : s.Formed) :
    (s.fillL1 core line ctx vline sc x).Formed := by
  unfold State.fillL1
  exact formed_shrinkL1 (formed_l2Access (formed_drain h))

theorem formed_storeL1 {s : State} {core slot line ctx vline : Nat} {x : Xlate} {bytes : List (Nat × Byte)} (h : s.Formed) :
    (s.storeL1 core slot line ctx vline x bytes).Formed := by
  unfold State.storeL1
  dsimp only
  refine formed_noteWrite ?_
  split
  · exact h
  · exact formed_fillL1 h

theorem formed_notePkg {s : State} {w : PkgWrite} (h : s.Formed) : (s.notePkg w).Formed := by
  unfold State.notePkg
  split
  · exact h
  · exact h

theorem formed_storeKeys {c : Ctx} {s : State} {va : List Nat} {ks : List (Nat × Xlate)} {bs : List Byte} (hs : s.Formed) :
    (c.storeKeys s va ks bs).Formed := by
  unfold Ctx.storeKeys
  refine formed_foldl ?_ hs
  intro _ _ h
  dsimp only
  split
  · exact formed_notePkg (formed_storeL1 h)
  · exact formed_storeL1 h

theorem formed_storeLane {c : Ctx} {s : State} {l : Nat} (hs : s.Formed) : (c.storeLane s l).Formed := by
  unfold Ctx.storeLane
  dsimp only
  split
  · exact hs
  · exact formed_storeKeys hs

theorem formed_performStore {c : Ctx} {s : State} {m : Mask} (hs : s.Formed) :
    (c.performStore s m).Formed := formed_foldl (fun _ _ h => formed_storeLane h) hs

theorem formed_storeOrdered {c : Ctx} {s : State} {universal : Bool} {m : Mask} (hs : s.Formed) :
    (c.storeOrdered s universal m).Formed := by
  unfold Ctx.storeOrdered
  split
  · exact formed_settleCore (formed_performStore (formed_settleCore hs))
  · exact formed_performStore hs

theorem formed_serveStore {s : State} {r : StrandRef} {x : InFlight} (h : s.Formed) : (s.serveStore r x).Formed := by
  unfold State.serveStore
  split
  · exact h
  · dsimp only
    split
    · exact formed_cleanSlot (formed_doneLanes (formed_storeOrdered h))
    · exact formed_doneLanes (formed_storeOrdered h)

theorem formed_fillK {s : State} {core ctx line : Nat} (h : s.Formed) : (s.fillK core ctx line).Formed := by
  unfold State.fillK
  split
  · exact h
  · exact formed_drain h

theorem formed_touchL1 {s : State} {core line ctx vline : Nat} (h : s.Formed) : (s.touchL1 core line ctx vline).Formed := by
  unfold State.touchL1
  split
  · exact h
  · split
    · exact h
    · exact h

theorem formed_fillLines {c : Ctx} {s : State} {va : List Nat} {ks : List (Nat × Xlate)} (hs : s.Formed) :
    (c.fillLines s va ks).Formed := by
  unfold Ctx.fillLines
  refine formed_foldl ?_ hs
  intro _ _ h
  dsimp only
  split
  · exact formed_fillK h
  · split
    · exact formed_touchL1 h
    · exact formed_fillL1 h

theorem formed_loadLane {c : Ctx} {s : State} {l : Nat} {ks : List (Nat × Xlate)} (hs : s.Formed) : (c.loadLane s l ks).1.Formed := by
  unfold Ctx.loadLane
  split
  · exact hs
  · exact formed_fillLines hs

theorem formed_loadLanes {c : Ctx} {s : State} {lk : List LaneKeys} (hs : s.Formed) : (c.loadLanes s lk).1.Formed := by
  unfold Ctx.loadLanes
  refine formed_foldl_fst ?_ hs
  intro _ _ h
  dsimp only
  split
  · exact formed_loadLane h
  · exact formed_loadLane h

theorem formed_writeLoaded {c : Ctx} {s : State} {vals : List (Nat × DWord)} (hs : s.Formed) : (c.writeLoaded s vals).Formed := by
  unfold Ctx.writeLoaded
  exact hs

theorem formed_performKeys {c : Ctx} {s : State} {lk : List LaneKeys} (hs : s.Formed) : (c.performKeys s lk).Formed := by
  unfold Ctx.performKeys
  dsimp only
  split
  · exact formed_writeLoaded (formed_loadLanes hs)
  · exact formed_deferOn (formed_writeLoaded (formed_loadLanes hs))

theorem formed_performLoad {c : Ctx} {s : State} {m : Mask} (hs : s.Formed) : (c.performLoad s m).Formed := formed_performKeys hs

theorem formed_loadOrdered {c : Ctx} {s : State} {universal : Bool} {m : Mask} (hs : s.Formed) : (c.loadOrdered s universal m).Formed := by
  unfold Ctx.loadOrdered
  refine formed_performLoad ?_
  split
  · exact formed_settleCore hs
  · exact hs

theorem formed_serveLoad {s : State} {r : StrandRef} {x : InFlight} (h : s.Formed) : (s.serveLoad r x).Formed := by
  unfold State.serveLoad
  split
  · exact h
  · dsimp only
    split
    · exact h
    · split
      · exact formed_doneLanes (formed_loadOrdered h)
      · exact formed_doneLanes (formed_loadOrdered h)

theorem formed_settleAccesses {s : State} {r : StrandRef} (h : s.Formed) : (s.settleAccesses r).Formed := by
  unfold State.settleAccesses
  split
  · exact h
  · refine formed_foldl ?_ h
    intro _ _ h1
    split
    · exact formed_serveStore h1
    · exact formed_serveLoad h1

theorem formed_logKernel {s : State} {die kind unit addr : Nat} {kernid : DWord} (h : s.Formed) :
    (s.logKernel die kind unit addr kernid).Formed := formed_logData h

theorem formed_afterEnd {s : State} {r : StrandRef} (h : s.Formed) : (s.afterEnd r).Formed := by
  unfold State.afterEnd
  exact formed_settleCrew (formed_tidyChain (formed_barrierSweep h))

theorem formed_stopCrew {s : State} {r : StrandRef} {d : Deferred} (h : s.Formed) : (s.stopCrew r d).Formed := by
  unfold State.stopCrew
  split
  · exact formed_afterEnd (formed_logKernel (formed_modGrid (formed_modCrew (formed_postFault h))))
  · exact h

theorem formed_enterTrap {s : State} {r : StrandRef} {d : Deferred} {waiting : List ReplayEntry} (h : s.Formed) :
    (s.enterTrap r d waiting).Formed := by
  unfold State.enterTrap
  split
  · dsimp only
    split
    · exact formed_stopCrew h
    · exact h
  · exact h

theorem formed_withdraw {s : State} {r : StrandRef} {es : List ReplayEntry} (h : s.Formed) : (s.withdraw r es).Formed := by
  unfold State.withdraw
  split
  · split
    · exact h
    · refine formed_foldl ?_ h
      exact fun _ _ ht => ht
  · exact h

theorem formed_takeDeferred {s : State} {r : StrandRef} {d : Deferred} (h : s.Formed) : (s.takeDeferred r d).Formed := by
  unfold State.takeDeferred
  split
  · exact h
  · dsimp only
    split
    · exact h
    · exact formed_enterTrap (formed_withdraw h)

theorem formed_trapFirst {s : State} {r : StrandRef} (h : s.Formed) : (s.trapFirst r).Formed := by
  unfold State.trapFirst
  dsimp only
  split
  · exact h
  · split
    · split
      · exact h
      · exact formed_takeDeferred h
    · exact h

theorem formed_settleStrand {s : State} {r : StrandRef} (h : s.Formed) : (s.settleStrand r).Formed := by
  unfold State.settleStrand
  exact formed_trapFirst (formed_settleAccesses (formed_trapFirst h))

end Sys2Proof.Machine
end

