-- ==== Sys2Proof/Proofs/FormCrews.lean ====
section
/-! SUPPORT. The canonical form of memory (log entry 2), through tile operations, launches and crews. -/
namespace Sys2Proof.Machine

theorem formed_pickOperands {s0 : State} {c : Crew} {ctx : Nat} {o : TileOp} (h : s0.Formed) : (s0.pickOperands c ctx o).1.Formed := by
  unfold State.pickOperands
  exact formed_drain h

theorem formed_storeElem {s : State} {c : Crew} {ctx : Nat} {o : TileOp} {v : View} {a x : Nat} (h : s.Formed) :
    (s.storeElem c ctx o v a x).Formed := by
  unfold State.storeElem
  dsimp only
  split
  · exact h
  · refine formed_foldl ?_ h
    intro _ _ h1
    split
    · exact h1
    · split
      · exact formed_notePkg (formed_storeL1 h1)
      · exact formed_storeL1 h1

theorem formed_doTile {s : State} {c : Crew} {ctx : Nat} {o : TileOp} (h : s.Formed) : (s.doTile c ctx o).Formed := by
  have hx : (s.pickOperands c ctx o).1.Formed := formed_pickOperands h
  unfold State.doTile
  dsimp only
  split
  · exact formed_of_mem hx rfl
  · exact formed_of_mem hx rfl
  · exact formed_of_mem hx rfl
  · refine formed_of_mem (formed_foldl ?_ hx) rfl
    exact fun _ _ ht => formed_storeElem ht
  · exact formed_of_mem hx rfl
  · exact formed_of_mem hx rfl
  · exact formed_of_mem hx rfl

theorem formed_leaveTile {s : State} {core : Nat} {g : Grid} {c : Crew} {o : TileOp} (h : s.Formed) :
    (s.leaveTile core g c o).Formed := formed_doTile h

theorem formed_endTiles {s : State} {r : CrewRef} (h : s.Formed) : (s.endTiles r).Formed := by
  unfold State.endTiles
  split
  · refine formed_foldl ?_ h
    intro _ _ h1
    split
    · split
      · exact formed_leaveTile h1
      · exact h1
    · exact h1
  · exact h

theorem formed_loseRange {s : State} {ctx va n : Nat} (h : s.Formed) : (s.loseRange ctx va n).Formed := by
  unfold State.loseRange
  refine formed_foldl ?_ h
  intro _ _ h1
  split
  · exact formed_lose h1
  · exact h1

theorem formed_takeOut {s : State} {r : CrewRef} {pre : Bool} (h : s.Formed) : (s.takeOut r pre).Formed := by
  unfold State.takeOut
  split
  · exact h
  · dsimp only
    split
    · split
      · exact formed_foldl (fun _ _ h1 => formed_settleStrand h1) (formed_endTiles h)
      · split
        · exact formed_loseRange (formed_drain (formed_cleanSlot (formed_foldl (fun _ _ h1 => formed_settleStrand h1) (formed_endTiles h))))
        · exact formed_drain (formed_cleanSlot (formed_foldl (fun _ _ h1 => formed_settleStrand h1) (formed_endTiles h)))
    · exact formed_foldl (fun _ _ h1 => formed_settleStrand h1) (formed_endTiles h)

theorem formed_saveIfDue {s : State} {r : CrewRef} (h : s.Formed) : (s.saveIfDue r).Formed := by
  unfold State.saveIfDue
  split
  · split
    · exact formed_takeOut h
    · exact h
  · exact h

theorem formed_suspend {s : State} {ctx : Nat} (h : s.Formed) : (s.suspend ctx).Formed := by
  unfold State.suspend
  dsimp only
  refine formed_foldl ?_ h
  intro _ _ h1
  split
  · exact h1
  · exact formed_saveIfDue h1

theorem formed_ctxSuspend {s : State} (h : s.Formed) : s.ctxSuspend.Formed := by
  unfold State.ctxSuspend
  dsimp only
  split
  · exact formed_answer h
  · split
    · split
      · exact formed_answer (formed_suspend h)
      · exact formed_answer h
    · exact formed_answer h
    · exact formed_answer h

theorem formed_changePhase {s : State} {q : Queue} {phase : BitVec 16} (h : s.Formed) : (s.changePhase q phase).Formed := by
  unfold State.changePhase
  refine formed_of_mem (formed_foldl ?_ h) rfl
  exact fun _ _ ht => formed_of_mem (formed_drain (formed_invalidate ht)) rfl

theorem formed_startGraph {s : State} {q : Queue} {p : Packet} {gr : Graph} (h : s.Formed) : (s.startGraph q p gr).Formed := by
  unfold State.startGraph
  split
  · exact formed_frontFault h
  · exact formed_failPacket h
  · split
    · exact formed_frontFault h
    · rename_i hput
      have ht := formed_frontPut h hput
      exact formed_pumpGraph ht

theorem formed_doSignal {s : State} {q : Queue} {p : Packet} (h : s.Formed) : (s.doSignal q p).Formed := by
  unfold State.doSignal
  dsimp only
  split
  · exact formed_failPacket h
  · split
    · exact formed_frontFault h
    · rename_i _ hput
      exact formed_settlePacket (formed_frontPut h hput)

theorem formed_trySignal {s : State} {qid : Nat} (h : s.Formed) : (s.trySignal qid).Formed := by
  unfold State.trySignal
  split
  · exact formed_doSignal h
  · exact h

/-- The state in which a packet starts: the phase is the queue's, or has changed. -/
theorem formed_inPhase {s : State} {q : Queue} {p : Prop} [Decidable p] {phase : BitVec 16} (h : s.Formed) :
    (if p then s else s.changePhase q phase).Formed := by
  split
  · exact h
  · exact formed_changePhase h

theorem formed_startPacket {s : State} {q : Queue} {p : Packet} (h : s.Formed) : (s.startPacket q p).Formed := by
  have hp := formed_inPhase (q := q) (p := p.phase = q.phase) (phase := p.phase) h
  unfold State.startPacket
  dsimp only
  split
  · split
    · exact formed_frontFault hp
    · exact formed_failPacket hp
    · exact formed_modPacket (formed_addGrid hp)
  · split
    · exact formed_startGraph hp
    · exact hp
  · exact formed_trySignal (formed_modPacket hp)

theorem formed_takePacket {s : State} {qid kind : Nat} (h : s.Formed) : (s.takePacket qid kind).Formed := by
  unfold State.takePacket
  split
  · exact h
  · split
    · exact h
    · split
      · exact formed_frontFault h
      · exact formed_losePacket (formed_meetRing h)
      · split
        · dsimp only
          split
          · split
            · exact formed_pushPacket h
            · exact formed_startPacket (formed_pushPacket h)
          · exact formed_pushPacket h
        · exact h

theorem formed_loseSpill {s : State} {g : Grid} (h : s.Formed) : (s.loseSpill g).Formed := by
  unfold State.loseSpill
  split
  · exact h
  · exact formed_loseRange h

theorem formed_endNode {s : State} {q : Queue} {idx : Word} {n : Nat} {g : Grid} (h : s.Formed) : (s.endNode q idx n g).Formed := by
  unfold State.endNode
  split
  · exact h
  · extract_lets gr
    split
    · exact formed_frontFault h
    · exact formed_failPacket (formed_modGrid h)
    · split
      · exact formed_failPacket (formed_modGrid h)
      · split
        · exact formed_frontFault h
        · rename_i hdown
          exact formed_modGrid (formed_modGraph (formed_countDown h hdown))

theorem formed_closeGrid {s : State} {g : Grid} (h : s.Formed) : (s.closeGrid g).Formed := by
  unfold State.closeGrid
  dsimp only
  refine formed_settleMailbox ?_
  split
  · exact formed_settlePacket (formed_loseSpill h)
  · exact formed_graphOn (formed_loseSpill h)
  · exact formed_loseSpill h

/-- The hand-off values of a chained launch that is over. -/
theorem formed_writeCarry {s t : State} {g : Grid} (h : s.Formed) (ht : s.writeCarry g = .inl t) : t.Formed := by
  unfold State.writeCarry at ht
  split at ht
  · obtain rfl := Sum.inl.inj ht
    exact h
  · dsimp only at ht
    split at ht
    · cases ht
    · rename_i _ hput
      exact formed_frontPut (formed_frontPut h hput) ht

/-- The DONE word of a launch that is over. -/
theorem formed_writeDone {s t : State} {g : Grid} (h : s.Formed) (ht : s.writeDone g = .inl t) : t.Formed := by
  unfold State.writeDone at ht
  dsimp only at ht
  split at ht
  · obtain rfl := Sum.inl.inj ht
    exact h
  · exact formed_frontPut h ht

theorem formed_endActions {s : State} {gid fuel : Nat} (h : s.Formed) : (s.endActions gid fuel).Formed := by
  induction fuel generalizing s with
  | zero => exact h
  | succ n ih =>
    unfold State.endActions
    split
    · exact h
    · split
      · exact h
      · dsimp only
        split
        · exact h
        · split
          · split
            · exact formed_frontFault h
            · rename_i hcarry
              have ht := formed_writeCarry h hcarry
              exact ih ht
          · split
            · exact formed_loseEnding h
            · split
              · exact formed_frontFault h
              · rename_i hdone
                have ht := formed_writeDone h hdone
                exact ih ht
          · split
            · exact ih (formed_endNode h)
            · exact ih h
          · split
            · exact h
            · exact formed_closeGrid h

theorem formed_drainGrid {s : State} {gid : Nat} (h : s.Formed) : (s.drainGrid gid).Formed := formed_foldl (fun _ _ h1 => formed_drain h1) h

theorem formed_cancelOp {s : State} {r : CrewRef} {n : Nat} (h : s.Formed) : (s.cancelOp r n).Formed := h

theorem formed_killCrew {s : State} {r : CrewRef} (h : s.Formed) : (s.killCrew r).Formed := by
  unfold State.killCrew
  split
  · exact h
  · dsimp only
    refine formed_settleCrew (formed_tidyChain (formed_barrierSweep (formed_modGrid (formed_modCrew (formed_modCore (formed_foldl ?_ h))))))
    intro _ _ ht
    split
    · exact formed_cancelOp ht
    · exact ht

theorem formed_preemptUntil {room : State → Option State} {s : State} {cs : List Crew}
    (hroom : ∀ s t, s.Formed → room s = some t → t.Formed) (h : s.Formed) : (State.preemptUntil room s cs).1.Formed := by
  induction cs generalizing s with
  | nil =>
    unfold State.preemptUntil
    split
    · exact hroom _ _ h (by assumption)
    · exact h
  | cons c cs ih =>
    unfold State.preemptUntil
    split
    · exact hroom _ _ h (by assumption)
    · refine ih ?_
      split
      · exact formed_takeOut h
      · exact h

theorem formed_pathFence {s : State} {core : Nat} (h : s.Formed) : (s.pathFence core).Formed := h

theorem formed_freshCore {s : State} {core ctx : Nat} (h : s.Formed) : (s.freshCore core ctx).Formed :=
  formed_of_mem (formed_invalidate (core := core) (sel := fun _ => true) h) rfl

theorem formed_deliver {s : State} {gid item slot gen : Nat} (h : s.Formed) : (s.deliver gid item slot gen).Formed := by
  unfold State.deliver
  split
  · exact h
  · split
    · exact h
    · exact formed_tidyChain h

theorem formed_moveIn {s : State} {gid : Nat} (h : s.Formed) : (s.moveIn gid).Formed := by
  unfold State.moveIn
  split
  · exact h
  · exact formed_foldl (fun _ _ h1 => formed_deliver h1) h

theorem formed_withCrew {s : State} {cs : List Crew} (h : s.Formed) : State.Formed { s with crews := cs } := h

theorem formed_dispatchOn {s : State} {g : Grid} {idx core : Nat} (h : s.Formed) : (s.dispatchOn g idx core).Formed := by
  unfold State.dispatchOn
  dsimp only
  split
  · exact formed_moveIn (formed_shrinkL1 (formed_modGrid (formed_withCrew (formed_freshCore h))))
  · exact formed_moveIn (formed_shrinkL1 h)

theorem formed_transPages {s : State} {core ctx : Nat} {a : Right} {ps : List Nat} (h : s.Formed) :
    (s.transPages core ctx a ps).1.Formed := by
  induction ps generalizing s with
  | nil => exact h
  | cons p ps ih =>
    unfold State.transPages
    dsimp only
    split
    · exact formed_translate h
    · split
      · exact ih (formed_translate h)
      · exact ih (formed_translate h)

theorem formed_fillOp {s : State} {core ctx line : Nat} (h : s.Formed) : (s.fillOp core ctx line).Formed := by
  unfold State.fillOp
  split
  · exact h
  · exact h

theorem formed_fillOperands {s : State} {core ctx : Nat} {pages : List (Nat × Xlate)} {xs : List Source} (h : s.Formed) :
    (s.fillOperands core ctx pages xs).Formed := by
  unfold State.fillOperands
  exact formed_foldl (fun _ _ h1 => formed_fillOp h1) (formed_drain h)

theorem formed_issueFollow {s : State} {g : Grid} {c : Crew} {f : FollowOn} (h : s.Formed) : (s.issueFollow g c f).Formed := by
  unfold State.issueFollow
  dsimp only
  split
  · exact formed_modCrew (formed_postFault (formed_transPages h))
  · refine formed_modCrew ?_
    split
    · exact formed_queueTile (formed_transPages h)
    · exact formed_queueTile (formed_fillOperands (formed_transPages h))

theorem formed_followIssue {s : State} {r : CrewRef} {tag : Nat} (h : s.Formed) : (s.followIssue r tag).Formed := by
  unfold State.followIssue
  split
  · exact formed_issueFollow h
  · exact h

theorem formed_putOn {s : State} {r : CrewRef} {core : Nat} (h : s.Formed) : (s.putOn r core).Formed := by
  unfold State.putOn
  split
  · dsimp only
    refine formed_foldl (fun _ _ ht => formed_followIssue ht) (formed_moveIn (formed_shrinkL1 ?_))
    split
    · exact h
    · exact formed_modCrew (formed_freshCore h)
  · exact h

/-- Crews that leave a core until one has room. -/
theorem formed_leaveUntil {s t : State} {g : Grid} {n core : Nat} {cs : List Crew} (h : s.Formed) (ht : s.leaveUntil g n core cs = some t) :
    t.Formed := by
  induction cs generalizing s with
  | nil =>
    unfold State.leaveUntil at ht
    split at ht
    · obtain rfl := Option.some.inj ht
      exact h
    · cases ht
  | cons c cs ih =>
    unfold State.leaveUntil at ht
    split at ht
    · obtain rfl := Option.some.inj ht
      exact h
    · split at ht
      · exact ih h ht
      · split at ht
        · exact ih (formed_takeOut h) ht
        · cases ht

theorem formed_swapRoom {s t : State} {g : Grid} {n die : Nat} (h : s.Formed) (ht : s.swapRoom g n die = some t) : t.Formed := by
  unfold State.swapRoom at ht
  dsimp only at ht
  split at ht
  · cases ht
  · exact formed_leaveUntil h ht

theorem formed_precedenceRoom {s t : State} {g : Grid} {idx n die : Nat} (h : s.Formed) (ht : s.precedenceRoom g idx n die = some t) :
    t.Formed := by
  have hfits : ∀ s t : State, s.Formed → (if (s.coreChoice g n die).isSome then some s else none) = some t → t.Formed := by
    intro s t hs hst
    split at hst
    · obtain rfl := Option.some.inj hst
      exact hs
    · cases hst
  unfold State.precedenceRoom at ht
  dsimp only at ht
  split at ht
  · obtain rfl := Option.some.inj ht
    exact formed_preemptUntil hfits h
  · split at ht
    · obtain rfl := Option.some.inj ht
      refine formed_preemptUntil ?_ (formed_preemptUntil hfits h)
      intro s t hs hst
      split at hst
      · rename_i _ hroom
        obtain rfl := Option.some.inj hst
        exact hfits _ _ hs hroom
      · exact formed_swapRoom hs hst
    · cases ht

/-- The state in which a crew has room. -/
theorem formed_roomFor {s : State} {g : Grid} {x : Placing} {y : State × Nat} (h : s.Formed)
    (hy : s.roomFor g x = some y) : y.1.Formed := by
  unfold State.roomFor at hy
  dsimp only at hy
  split at hy
  · obtain rfl := Option.some.inj hy
    exact h
  · obtain ⟨t, ht, hk⟩ := Option.bind_eq_some_iff.mp hy
    obtain ⟨k, -, rfl⟩ := Option.map_eq_some_iff.mp hk
    split at ht
    · cases ht
    · split at ht
      · exact formed_precedenceRoom h ht
      · exact formed_swapRoom h ht

theorem formed_place {s : State} {g : Grid} {x : Placing} (h : s.Formed) : (s.place g x).Formed := by
  unfold State.place
  split
  · exact h
  · split
    · exact h
    · rename_i _ hroom
      split
      · exact formed_dispatchOn (formed_roomFor h hroom)
      · exact formed_putOn (formed_roomFor h hroom)

theorem formed_wake {s : State} {r : CrewRef} (h : s.Formed) : (s.wake r).Formed := h

theorem formed_comeBack {s : State} {r : CrewRef} {st : CrewState} (h : s.Formed) : (s.comeBack r st).Formed := by
  unfold State.comeBack
  split
  · split
    · exact formed_place h
    · exact h
  · exact h

theorem formed_retireLane {s : State} {r : ClusterRef} {lane : Nat} (h : s.Formed) : (s.retireLane r lane).Formed := formed_logEvent h

theorem formed_retireColumn {s : State} {core unit col : Nat} (h : s.Formed) : (s.retireColumn core unit col).Formed := by
  unfold State.retireColumn
  split
  · split
    · exact formed_logEvent h
    · exact h
  · exact h

theorem formed_moveOut {s : State} {core : Nat} (h : s.Formed) :
    (s.moveOut core).Formed := formed_foldl (fun _ _ h1 => formed_saveIfDue h1) h

theorem formed_checkCore {s : State} {core : Nat} (h : s.Formed) : (s.checkCore core).Formed := h

theorem formed_retireBank {s : State} {core bank : Nat} (h : s.Formed) : (s.retireBank core bank).Formed := by
  unfold State.retireBank
  split
  · exact h
  · split
    · exact h
    · exact formed_moveOut (formed_logEvent h)

theorem formed_clearBox {s : State} {d : Nat} (h : s.Formed) : (s.clearBox d).Formed := by
  unfold State.clearBox
  split
  · exact h
  · exact h

theorem formed_dropQuad {s : State} {quad : Nat} (h : s.Formed) : (s.dropQuad quad).Formed := h

theorem formed_poisonLine {s : State} {line : Nat} (h : s.Formed) : (s.poisonLine line).Formed := by
  unfold State.poisonLine
  split
  · exact h
  · exact h

theorem formed_failContext {s : State} {ctx : Nat} (h : s.Formed) : (s.failContext ctx).Formed := by
  unfold State.failContext
  exact formed_foldl (fun _ _ h1 => formed_destroyQueue h1) h

theorem formed_failPartition {s : State} {part : Nat} (h : s.Formed) : (s.failPartition part).Formed := by
  unfold State.failPartition
  exact formed_foldl (fun _ _ h1 => formed_failContext h1) h

theorem formed_spoilL1 {s : State} {line : Nat} (h : s.Formed) : (s.spoilL1 line).Formed := h

end Sys2Proof.Machine
end

