-- ==== Sys2Proof/Proofs/FormWalks.lean ====
section
/-! SUPPORT. The canonical form of memory (log entry 2), through scoped accesses, page walks and the fetch. -/
namespace Sys2Proof.Machine

theorem formed_keysOf {s : State} {core ctx : Nat} {a : Right} {vas : List Nat} (h : s.Formed) : (s.keysOf core ctx a vas).1.Formed := by
  induction vas generalizing s with
  | nil => exact h
  | cons va vas ih =>
    unfold State.keysOf
    dsimp only
    split
    · exact formed_translate h
    · split
      · exact ih (formed_translate h)
      · exact ih (formed_translate h)

theorem formed_translateLanes {c : Ctx} {s : State} {a : Right} {bytes : Nat → List Nat} {ls : List Nat} (hs : s.Formed) :
    (c.translateLanes s a bytes ls).1.Formed := by
  induction ls generalizing s with
  | nil => exact hs
  | cons l ls ih =>
    unfold Ctx.translateLanes
    dsimp only
    split
    · exact formed_keysOf hs
    · split
      · exact ih (formed_keysOf hs)
      · exact ih (formed_keysOf hs)

theorem formed_pageFault {s : State} {f : Fault32} (h : s.Formed) : (s.pageFault f).1.Formed := by
  unfold State.pageFault
  split
  · exact h
  · exact formed_postFault h

theorem formed_launchFlight {c : Ctx} {s : State} {m : Mask} {st : FlightState} {lines : optParam (List Nat) []} (hs : s.Formed) :
    (c.launchFlight s m st lines).Formed := by
  unfold Ctx.launchFlight
  exact hs

theorem formed_flyOn {c : Ctx} {a : Right} {lanes : List Nat} {body : State → List LaneKeys → Eff} (hc : c.Formed)
    (hbody : ∀ t lk, t.Formed → (body t lk).Formed) :
    (c.flyOn a lanes body).Formed := by
  unfold Ctx.flyOn
  dsimp only
  split
  · exact hbody _ _ (formed_translateLanes hc)
  · split
    · exact formed_pageFault (formed_translateLanes hc)
    · exact formed_launchFlight (formed_pageFault (formed_translateLanes hc))

theorem formed_wholeFly {c : Ctx} {a : Right} {body : State → List LaneKeys → Eff} (hc : c.Formed)
    (hbody : ∀ t lk, t.Formed → (body t lk).Formed) :
    (c.wholeFly a body).Formed := formed_flyOn hc (fun _ _ h => hbody _ _ h)

theorem formed_mismatch {c : Ctx} {s : State} {l : Nat} (hs : s.Formed) : (c.mismatch s l).Formed := hs

theorem formed_flushLine {s : State} {core line : Nat} (h : s.Formed) : (s.flushLine core line).Formed := formed_drain (formed_writeBack h)

theorem formed_ctxFlush {c : Ctx} {s : State} {ks : List (Nat × Xlate)} (hs : s.Formed) :
    (c.flush s ks).Formed := formed_foldl (fun _ _ h => formed_flushLine h) hs

theorem formed_bankChecked {c : Ctx} {host : Bool} {s : State} {lk : List LaneKeys} {body : State → Eff} (hs : s.Formed)
    (hbody : ∀ t, t.Formed → (body t).Formed) :
    (c.bankChecked host s lk body).Formed := by
  unfold Ctx.bankChecked
  dsimp only
  split
  · exact hs
  · split
    · exact formed_mismatch hs
    · split
      · exact trivial
      · exact hbody _ (formed_foldl (fun _ _ h => formed_ctxFlush h) hs)

theorem formed_setRecords {c : Ctx} {s : State} {ks : List (Nat × Xlate)} (hs : s.Formed) : (c.setRecords s ks).Formed := by
  unfold Ctx.setRecords
  split
  · refine formed_foldl ?_ hs
    intro _ _ h
    split
    · exact formed_setRecord (formed_l2Access h)
    · exact h
  · exact hs

theorem formed_loadScoped {c : Ctx} {s : State} {va : List Nat} {ks : List (Nat × Xlate)} (hs : s.Formed) :
    (c.loadScoped s va ks).1.Formed := by
  unfold Ctx.loadScoped
  exact formed_setRecords (formed_foldl (fun _ _ h => formed_fillL1 h) (formed_ctxFlush hs))

theorem formed_acquire {s : State} {core : Nat} {sc : Scope} (h : s.Formed) : (s.acquire core sc).Formed := by
  unfold State.acquire
  dsimp only
  split
  · exact formed_invalidate h
  · exact formed_refresh (formed_invalidate h)

theorem formed_loadAcquire {c : Ctx} {s : State} {lk : List LaneKeys} (hs : s.Formed) : (loadAcquire c s lk).Formed := by
  unfold loadAcquire
  split
  · split
    · exact formed_mismatch hs
    · dsimp only
      split
      · refine formed_acquire ?_
        refine formed_writeLoaded ?_
        refine formed_foldl_fst ?_ hs
        intro x a h
        split
        · exact formed_loadScoped h
        · exact formed_loadScoped h
      · refine formed_deferOn ?_
        refine formed_acquire ?_
        refine formed_writeLoaded ?_
        refine formed_foldl_fst ?_ hs
        intro _ _ h
        split
        · exact formed_loadScoped h
        · exact formed_loadScoped h
  · exact formed_acquire (formed_performKeys (formed_refresh hs))

theorem formed_acquireGo {c : Ctx} {s : State} {lk : List LaneKeys} (hs : s.Formed) : (acquireGo c s lk).Formed := by
  unfold acquireGo
  split
  · exact formed_loadAcquire hs
  · split
    · exact hs
    · exact formed_launchFlight hs

theorem formed_release {s : State} {core : Nat} {sc : Scope} (h : s.Formed) :
    (s.release core sc).Formed := formed_drain (formed_writeBack h)

theorem formed_storeScoped {c : Ctx} {s : State} {ks : List (Nat × Xlate)} {bs : List Byte} (hs : s.Formed) :
    (c.storeScoped s ks bs).Formed := by
  unfold Ctx.storeScoped
  refine formed_foldl ?_ (formed_setRecords (formed_ctxFlush hs))
  exact fun _ _ ht => formed_of_mem (formed_noteWrite (formed_writeMem ht)) rfl

theorem formed_coverL1 {s : State} {core : Nat} {keys : List Nat} (h : s.Formed) : (s.coverL1 core keys).Formed := h

theorem formed_storeRelease {c : Ctx} {s : State} {lk : List LaneKeys} (hs : s.Formed) : (storeRelease c s lk).Formed := by
  unfold storeRelease
  split
  · exact formed_mismatch hs
  · dsimp only
    split
    · exact formed_coverL1 (formed_coverPoison (formed_foldl (fun _ _ h => formed_storeScoped h) (formed_release hs)))
    · exact formed_foldl (fun _ _ h => formed_storeKeys h) (formed_release hs)

theorem formed_setView {c : Ctx} {s : State} {v : Option View} (hs : s.Formed) : (c.setView s v).Formed := hs

theorem formed_flagStore {c : Ctx} {s : State} {lk : List LaneKeys} (hs : s.Formed) : (flagStore c s lk).Formed := by
  unfold flagStore
  split
  · exact hs
  · dsimp only
    refine formed_setView ?_
    split
    · exact formed_storeScoped hs
    · exact formed_storeKeys hs

theorem formed_fenced {c : Ctx} {acq : Bool} {s : State} {f : State → State} (hs : s.Formed) (hf : ∀ t, t.Formed → (f t).Formed) :
    (c.fenced acq s f).Formed := by
  unfold Ctx.fenced
  split
  · exact hf _ hs
  · dsimp only
    split
    · exact formed_acquire (hf _ (formed_release hs))
    · exact hf _ (formed_release hs)

theorem formed_bankLane {c : Ctx} {new : DWord → Nat → DWord} {acc : State × List (Nat × DWord)} {x : LaneKeys} (hacc : acc.1.Formed) :
    (c.bankLane new acc x).1.Formed := by
  unfold Ctx.bankLane
  exact formed_writeNat (formed_setRecords (formed_invalidate (formed_ctxFlush hacc)))

theorem formed_atomLanes {ret : Bool} {new : Ctx → DWord → Nat → DWord} {c : Ctx} {lk : List LaneKeys} {s : State} (hs : s.Formed) :
    (atomLanes ret new c lk s).Formed := by
  unfold atomLanes
  refine formed_fenced hs ?_
  intro _ h
  dsimp only
  split
  · exact formed_writeLoaded (formed_foldl_fst (fun _ _ h1 => formed_bankLane h1) h)
  · exact formed_foldl_fst (fun _ _ h1 => formed_bankLane h1) h

theorem formed_redLane {c : Ctx} {s : State} {x : LaneKeys} (hs : s.Formed) : (c.redLane s x).Formed := by
  unfold Ctx.redLane
  exact formed_invalidate hs

theorem formed_redLanes {c : Ctx} {lk : List LaneKeys} {s : State} (hs : s.Formed) : (redLanes c lk s).Formed := by
  unfold redLanes
  split
  · exact formed_foldl (fun _ _ h => formed_redLane h) hs
  · exact formed_fenced hs (fun _ h => formed_foldl_fst (fun _ _ h1 => formed_bankLane h1) h)

theorem formed_wholeAgain {c : Ctx} (h : c.Formed) : (wholeAgain c).Formed := by
  unfold wholeAgain
  dsimp only
  split
  · exact formed_wholeFly h (fun _ _ h1 => formed_acquireGo h1)
  · exact formed_wholeFly h (fun _ _ h1 => formed_storeRelease h1)
  · exact formed_flyOn h (fun _ _ h1 => formed_flagStore h1)
  · exact formed_wholeFly h (fun _ _ h1 => formed_bankChecked h1 (fun _ h2 => formed_atomLanes h2))
  · exact formed_wholeFly h (fun _ _ h1 => formed_bankChecked h1 (fun _ h2 => formed_atomLanes h2))
  · exact formed_wholeFly h (fun _ _ h1 => formed_bankChecked h1 (fun _ h2 => formed_atomLanes h2))
  · exact formed_wholeFly h (fun _ _ h1 => formed_bankChecked h1 (fun _ h2 => formed_redLanes h2))

theorem formed_walkWhole {s : State} {r : StrandRef} {x : InFlight} {c : Ctx} (hs : s.Formed) (hc : c.Formed) :
    (s.walkWhole r x c).Formed := by
  have hw := formed_wholeAgain hc
  unfold State.walkWhole
  cases h : wholeAgain c with
  | go t dst n =>
    rw [h] at hw
    dsimp only
    split
    · exact formed_cleanSlot hw
    · exact hw
  | trap k addr lane t => rw [h] at hw; exact formed_deferAt hw
  | defer k addr lane m => exact formed_deferAt hs
  | stay t w => rw [h] at hw; cases w <;> exact hw
  | pipe => exact hs
  | part => exact hs
  | done => exact hs

theorem formed_parkFlight {s : State} {r : StrandRef} {x : InFlight} {c : Ctx} (hs : s.Formed) : (s.parkFlight r x c).Formed := by
  unfold State.parkFlight
  split
  · exact hs
  · exact formed_pageFault hs

theorem formed_walkPlain {s : State} {r : StrandRef} {x : InFlight} {c : Ctx} (hs : s.Formed) : (s.walkPlain r x c).Formed := by
  unfold State.walkPlain
  dsimp only
  split
  · exact formed_foldl (fun _ _ h => formed_keysOf h) hs
  · split
    · split
      · exact formed_foldl (fun _ _ h => formed_keysOf h) hs
      · split
        · exact formed_serveStore (formed_foldl (fun _ _ h => formed_keysOf h) hs)
        · split
          · exact formed_serveStore (formed_foldl (fun _ _ h => formed_keysOf h) hs)
          · exact formed_parkFlight (formed_serveStore (formed_foldl (fun _ _ h => formed_keysOf h) hs))
    · split
      · exact formed_foldl (fun _ _ h => formed_keysOf h) hs
      · split
        · exact formed_serveLoad (formed_foldl (fun _ _ h => formed_keysOf h) hs)
        · split
          · exact formed_serveLoad (formed_foldl (fun _ _ h => formed_keysOf h) hs)
          · exact formed_parkFlight (formed_serveLoad (formed_foldl (fun _ _ h => formed_keysOf h) hs))

/-- The state that an access in flight goes on in. -/
theorem formed_ctxOfFlight {s : State} {r : StrandRef} {x : InFlight} {c : Ctx} (h : s.Formed)
    (hc : s.ctxOfFlight r x = some c) : c.Formed := by
  obtain ⟨hcs, -⟩ := ctxOfFlight_spec hc
  show c.s.Formed
  rw [hcs]
  exact h

theorem formed_walkFlight {s : State} {r : StrandRef} {id : Nat} (h : s.Formed) : (s.walkFlight r id).Formed := by
  unfold State.walkFlight
  split
  · exact h
  · split
    · exact h
    · split
      · exact h
      · rename_i _ hc
        split
        · exact formed_walkWhole h (formed_ctxOfFlight h hc)
        · exact formed_walkPlain h

theorem formed_acceptFlight {s : State} {r : StrandRef} {x : InFlight} (h : s.Formed) : (s.acceptFlight r x).Formed := h

theorem formed_answerLoad {s : State} {r : StrandRef} {x : InFlight} (h : s.Formed) : (s.answerLoad r x).Formed := by
  unfold State.answerLoad
  split
  · exact h
  · split
    · exact formed_serveLoad h
    · exact h

theorem formed_loadReturn {s : State} {r : StrandRef} {id : Nat} (h : s.Formed) : (s.loadReturn r id).Formed := by
  unfold State.loadReturn
  split
  · exact h
  · next x _ =>
    split
    · exact h
    · cases x.state with
      | rejected => exact formed_acceptFlight h
      | aged => exact formed_acceptFlight h
      | outstanding | parked | pipe => exact formed_answerLoad h

theorem formed_runCopy {s : State} {r : CrewRef} {n : Nat} (h : s.Formed) : (s.runCopy r n).Formed := by
  unfold State.runCopy
  split
  · exact formed_moveCopy h
  · exact h

theorem formed_parked {s : State} {x : TagCtx} {n die : Nat} {id : SlotId} {elems : List DWord} (h : s.Formed) :
    (s.parked x n die id elems).Formed := by
  unfold State.parked
  dsimp only
  split
  · split
    · split
      · split
        · exact h
        · exact h
      · refine formed_finishTag ?_
        split
        · exact h
        · exact h
    · split
      · split
        · exact h
        · exact h
      · refine formed_finishTag ?_
        split
        · exact h
        · exact h
  · split
    · split
      · split
        · exact h
        · exact h
      · refine formed_finishTag ?_
        split
        · exact h
        · exact h
    · split
      · split
        · exact h
        · exact h
      · refine formed_finishTag ?_
        split
        · exact h
        · exact h

theorem formed_runPark {s : State} {x : TagCtx} {n die : Nat} {id : SlotId} {src : View} (h : s.Formed) :
    (s.runPark x n die id src).Formed := by
  unfold State.runPark
  dsimp only
  split
  · exact formed_parked (formed_touchJob (formed_beginOp h))
  · exact formed_finishTag (formed_touchJob (formed_beginOp h))
  · exact formed_parkOp (formed_touchJob (formed_beginOp h))

theorem formed_acceptDrain {s : State} {x : TagCtx} {tag : Nat} {id : SlotId} {k : Slot} (h : s.Formed) :
    (s.acceptDrain x tag id k).Formed := h

theorem formed_runDrain {s : State} {x : TagCtx} {tag : Nat} {id : SlotId} {accepted : Bool} {v : View} (h : s.Formed) :
    (s.runDrain x tag id accepted v).Formed := by
  unfold State.runDrain
  split
  · exact formed_endDrain h
  · exact h
  · dsimp only
    refine formed_moveDrain ?_
    split
    · exact h
    · exact formed_acceptDrain (formed_flushOp h)

theorem formed_endTile {s : State} {core : Nat} {g : Grid} {c : Crew} {o : TileOp} (h : s.Formed) :
    (s.endTile core g c o).Formed := formed_saveIfDue (formed_settleCrew (formed_leaveTile h))

theorem formed_swapHeld {s : State} {r : StrandRef} (h : s.Formed) : (s.swapHeld r).Formed := by
  unfold State.swapHeld
  split
  · exact h
  · split
    · exact h
    · split
      · exact h
      · dsimp only
        split
        · exact h
        · exact h

theorem formed_settleStack {s : State} {r : StrandRef} (h : s.Formed) : (s.settleStack r).Formed := h

theorem formed_gatherLine {s : State} {line : Nat} (h : s.Formed) :
    (s.gatherLine line).Formed := formed_foldl (fun _ _ h1 => formed_drain (formed_writeBack h1)) h

theorem formed_takeCode {s : State} {core ctx : Nat} {ls : List CodeLine} (h : s.Formed) : (s.takeCode core ctx ls).Formed := by
  unfold State.takeCode
  exact formed_foldl (fun _ _ h1 => formed_l2Access h1) h

theorem formed_readCode {s : State} {core ctx : Nat} {ls : List (Nat × CodeLine)} (h : s.Formed) : (s.readCode core ctx ls).1.Formed := by
  unfold State.readCode
  dsimp only
  split
  · exact formed_foldl (fun _ _ h1 => formed_gatherLine h1) h
  · exact formed_takeCode (formed_foldl (fun _ _ h1 => formed_gatherLine h1) h)

/-- Code lines that are read where they are not held. -/
theorem formed_readCodeUnless {s : State} {p : Prop} {d : Decidable p} {core ctx : Nat} {ls : List (Nat × CodeLine)} (h : s.Formed) :
    (if p then (s, none) else s.readCode core ctx ls).1.Formed := by
  split
  · exact h
  · exact formed_readCode h

theorem formed_fetch {s : State} {g : Grid} {c : Crew} {pc : Word} (h : s.Formed) : (s.fetch g c pc).1.Formed := by
  unfold State.fetch
  extract_lets va x
  have hx : x.1.Formed := formed_translate h
  split
  · exact hx
  · extract_lets l y
    have hy : y.1.Formed := formed_readCodeUnless hx
    split
    · exact hy
    · split
      · exact hy
      · rename_i z _ _ _ _
        have hz : z.1.Formed := formed_translate hy
        split
        · exact hz
        · extract_lets m w
          have hw : w.1.Formed := formed_readCodeUnless hz
          split
          · exact hw
          · exact hw

theorem formed_parkFetch {s : State} {r : SplitRef} {g : Grid} {c : Crew} {va : Nat} {reason : BitVec 8} (h : s.Formed) :
    (s.parkFetch r g c va reason).Formed := by
  unfold State.parkFetch
  exact formed_pageFault h

theorem formed_present {s : State} {r : SplitRef} {g : Grid} {c : Crew} {p : Path} (h : s.Formed) : (s.present r g c p).1.Formed := by
  unfold State.present
  split
  · exact h
  · dsimp only
    split
    · exact formed_fetch h
    · exact formed_parkFetch (formed_fetch h)
    · exact formed_fetchTrap (formed_fetch h)

theorem formed_beginIssue {s : State} {r : SplitRef} (h : s.Formed) : (s.beginIssue r).1.Formed := by
  unfold State.beginIssue
  split
  · split
    · exact h
    · split
      · exact formed_trapFirst h
      · split
        · exact h
        · dsimp only
          split
          · exact formed_swapHeld (formed_settleStack h)
          · split
            · exact formed_swapHeld (formed_settleStack h)
            · split
              · exact formed_swapHeld (formed_settleStack h)
              · split
                · exact formed_swapHeld (formed_settleStack h)
                · split
                  · exact formed_swapHeld (formed_settleStack h)
                  · split
                    · exact formed_present (formed_swapHeld (formed_settleStack h))
                    · exact formed_swapHeld (formed_settleStack h)
  · exact h

end Sys2Proof.Machine
end

