-- ==== Sys2Proof/Proofs/FormIssue.lean ====
section
/-! SUPPORT. The canonical form of memory (log entry 2), through what an issue does. -/
namespace Sys2Proof.Machine

theorem formed_stay {c : Ctx} {s : State} {parked : Bool} {upd : Path → Path} (hs : s.Formed) : (c.stay s parked upd).Formed := by
  unfold Ctx.stay
  dsimp only
  split
  · split
    · exact hs
    · exact hs
  · exact hs

theorem formed_stall {c : Ctx} {w : Wait} (h : c.Formed) : (c.stall w).Formed := formed_stay h

theorem formed_trap {c : Ctx} {t : Trap} {addr : DWord} {lane : Nat} {s : State} (hc : c.Formed) (hs : s.Formed) :
    (c.trap t addr lane s).Formed := by
  unfold Ctx.trap
  split
  · exact formed_stall hc
  · exact formed_enterTrap hs

theorem formed_leave {c : Ctx} {s : State} {left : Mask} {stay : Path → Path} {dst : Option (Nat → Word)} {beats : Nat} (hs : s.Formed) :
    (c.leave s left stay dst beats).Formed := by
  unfold Ctx.leave
  dsimp only
  split
  · exact hs
  · exact hs

theorem formed_enter {c : Ctx} {s : State} {writes : List RegWrite} {flags : Flags} {latency beats : Nat} {clock : Option DWord}
    (hs : s.Formed) :
    (c.enter s writes flags latency beats clock).Formed := by
  unfold Ctx.enter
  exact hs

theorem formed_defer {c : Ctx} {t : Trap} {addr : DWord} {lane : Nat} {m : Mask} (h : c.Formed) : (c.defer t addr lane m).Formed := by
  unfold Ctx.defer
  exact formed_leave h

theorem formed_waitFor {c : Ctx} {s : State} {w : Wait} (hs : s.Formed) : (c.waitFor s w).Formed := by
  unfold Ctx.waitFor
  split
  · split
    · exact formed_stay hs
    · exact formed_leave hs
  · exact formed_stay hs
  · exact formed_stay hs
  · exact formed_stay hs
  · exact formed_stay hs
  · exact formed_stay hs

theorem formed_settle {c : Ctx} {unready : Mask} {e : Eff} (hc : c.Formed) (he : e.Formed) : (c.settle unready e).Formed := by
  cases e with
  | pipe ws fl lat extra ck =>
    unfold Ctx.settle
    exact formed_leave (formed_enter hc)
  | go s dst extra =>
    unfold Ctx.settle
    exact formed_leave he
  | part s left pend =>
    unfold Ctx.settle
    exact formed_leave he
  | trap t addr lane s => exact formed_trap hc he
  | defer t addr lane m => exact formed_defer hc
  | stay s w => exact formed_waitFor he
  | done s => exact he

theorem formed_acquireHands {c : Ctx} (h : c.Formed) : c.acquireHands.Formed := by
  unfold Ctx.acquireHands
  dsimp only
  refine formed_foldl ?_ h
  intro _ _ h1
  split
  · exact h1
  · exact formed_acquire h1

/-- A trap that was deferred is taken first. -/
theorem formed_takeFirst {c : Ctx} {d : Deferred}
    (hc : c.Formed) : (if c.t.busy then c.stall .retry else (c.s.tick 1).takeDeferred c.r d).Formed := by
  split
  · exact formed_stall hc
  · exact formed_takeDeferred hc

theorem formed_run {c : Ctx} {body : Ctx → Eff} (hc : c.Formed) (hbody : ∀ d, d.Formed → (body d).Formed) : (c.run body).Formed := by
  unfold Ctx.run
  split
  · exact formed_takeFirst hc
  · split
    · exact formed_stall hc
    · split
      · exact formed_trap hc hc
      · split
        · exact formed_leave hc
        · split
          · exact formed_trap hc hc
          · dsimp only
            split
            · exact formed_settle (formed_acquireHands hc) (hbody _ (formed_acquireHands hc))
            · have hb := hbody c hc
              split
              · rename_i heq
                rw [heq] at hb
                exact formed_trap hc hb
              · rename_i heq
                rw [heq] at hb
                exact formed_waitFor hb
              · split
                · exact formed_leave hc
                · have hd := formed_acquireHands (c := { c with act := c.act &&& ~~~(maskOf fun l => hasLane c.act l && c.waitsHand l) }) hc
                  exact formed_settle hd (hbody _ hd)

/-- The state that an issue begins in. -/
theorem formed_ctxOf {s : State} {f : Form} {c : Ctx} (h : s.Formed) (hc : s.ctxOf f = some c) : c.Formed := by
  unfold State.ctxOf at hc
  split at hc
  · cases hc
  · dsimp only at hc
    split at hc
    · obtain rfl := Option.some.inj hc
      exact h
    · cases hc

theorem formed_issue {f : Form} {body : Ctx → Eff} {s : State} (hbody : ∀ d, d.Formed → (body d).Formed) (hs : s.Formed) :
    FormedNext (issue f body s) := by
  unfold issue
  split
  · exact fun _ h => by cases h
  · rename_i _ hc
    exact formedNext_next (formed_run (formed_ctxOf hs hc) hbody)

/-- A value that is published. -/
theorem formed_publish {s t : State} {gid item h gen : Nat} {x : Word} {scope : Scope} {member : Nat} (hs : s.Formed)
    (ht : s.publish gid item h gen x scope member = some t) : t.Formed := by
  unfold State.publish at ht
  split at ht
  · cases ht
  · dsimp only at ht
    split at ht
    · obtain rfl := Option.some.inj ht
      exact hs
    · cases ht

theorem formed_publishLane {c : Ctx} {x : State × Mask} {l : Nat} (hx : x.1.Formed) : (c.publishLane x l).1.Formed := by
  unfold Ctx.publishLane
  dsimp only
  split
  · rename_i hpub
    exact formed_of_mem (formed_publish hx hpub) rfl
  · exact hx

theorem formed_hputBody {c : Ctx} (h : c.Formed) : (hputBody c).Formed := by
  unfold hputBody
  split
  · exact h
  · exact h
  · split
    · exact h
    · dsimp only
      split
      · split
        · exact formed_tidyChain (formed_foldl_fst (fun _ _ h1 => formed_publishLane h1) h)
        · exact formed_tidyChain (formed_foldl_fst (fun _ _ h1 => formed_publishLane h1) h)
      · split
        · exact formed_tidyChain (formed_foldl_fst (fun _ _ h1 => formed_publishLane h1) (formed_release h))
        · exact formed_tidyChain (formed_foldl_fst (fun _ _ h1 => formed_publishLane h1) (formed_release h))

theorem formed_setSysRecord {s : State} {line : Nat} (h : s.Formed) : (s.setSysRecord line).Formed := formed_setRecord (formed_l2Fill h)

theorem formed_sysRecords {s : State} {key n : Nat} (h : s.Formed) : (s.sysRecords key n).Formed := by
  unfold State.sysRecords
  split
  · exact h
  · exact formed_foldl (fun _ _ h1 => formed_setSysRecord h1) h

theorem formed_outsideWrite {s : State} {key : Nat} {bytes : List Byte} (h : s.Formed) :
    (s.outsideWrite key bytes).Formed := formed_sysRecords (formed_writeMem h)

theorem formed_outsideRead {s : State} {key n : Nat} (h : s.Formed) : (s.outsideRead key n).Formed := h

theorem formed_branchBody {dst : Ctx → Nat → Word} {c : Ctx} (h : c.Formed) : (branchBody dst c).Formed := h

theorem formed_storeGo {c : Ctx} (h : c.Formed) : (storeGo c).Formed := by
  unfold storeGo
  split
  · exact h
  · split
    · exact formed_performStore h
    · dsimp only
      split
      · exact formed_storeOrdered h
      · exact formed_launchFlight (formed_storeOrdered h)

theorem formed_storeBody {c : Ctx} (h : c.Formed) : (storeBody c).Formed := by
  unfold storeBody
  split
  · exact h
  · exact formed_storeGo h

theorem formed_moveCp {c : Ctx} {s : State} {d : Word} (hs : s.Formed) : (c.moveCp s d).Formed := hs

theorem formed_callBody {reg : Bool} {dst : Ctx → Nat → Word} {c : Ctx} (h : c.Formed) : (callBody reg dst c).Formed := by
  unfold callBody
  split
  · exact formed_storeBody h
  · split
    · exact h
    · have hgo := formed_storeGo h
      split
      · rename_i heq
        rw [heq] at hgo
        exact formed_moveCp hgo
      · exact hgo

theorem formed_parkOn {c : Ctx} {s : State} {a : Right} {source : BitVec 4} {va : Nat} {reason : BitVec 8} (hs : s.Formed) :
    (c.parkOn s a source va reason).Formed := by
  unfold Ctx.parkOn
  exact formed_pageFault hs

theorem formed_whole {c : Ctx} {a : Right} {lanes : List Nat} {body : State → List LaneKeys → Eff} (hc : c.Formed)
    (hbody : ∀ t lk, t.Formed → (body t lk).Formed) :
    (c.whole a lanes body).Formed := by
  unfold Ctx.whole
  dsimp only
  split
  · exact hbody _ _ (formed_translateLanes hc)
  · exact formed_parkOn (formed_translateLanes hc)

theorem formed_retLanes {c : Ctx} {s : State} {lk : List LaneKeys} (hs : s.Formed) : (retLanes c s lk).Formed := by
  unfold retLanes
  dsimp only
  split
  · exact formed_leave (formed_deferOn (formed_loadLanes hs))
  · split
    · exact formed_loadLanes hs
    · exact formed_moveCp (formed_loadLanes hs)

theorem formed_retLoad {c : Ctx} {s : State} {lk : List LaneKeys} (hs : s.Formed) : (retLoad c s lk).Formed := by
  unfold retLoad
  dsimp only
  split
  · split
    · exact formed_retLanes hs
    · exact hs
  · split
    · exact formed_retLanes hs
    · exact hs

theorem formed_endItems {s : State} {r : StrandRef} {m : Mask} (h : s.Formed) : (s.endItems r m).Formed := h

theorem formed_thaw {s : State} {r : StrandRef} {queue : List ReplayEntry} (h : s.Formed) : (s.thaw r queue).Formed := by
  unfold State.thaw
  exact h

theorem formed_endLanes {s : State} {r : StrandRef} {m : Mask} (h : s.Formed) : (s.endLanes r m).Formed := by
  unfold State.endLanes
  dsimp only
  split
  · split
    · exact formed_thaw (formed_modStrand (formed_endItems h))
    · exact formed_modStrand (formed_endItems h)
  · exact formed_modStrand (formed_endItems h)

theorem formed_predBody {f : Bool → Bool → Bool} {c : Ctx} : (predBody f c).Formed := trivial

theorem formed_voteBody {f : Mask → Mask → DWord} {c : Ctx} : (voteBody f c).Formed := trivial

theorem formed_shflBody {m : Nat} {c : Ctx} : (shflBody m c).Formed := by
  unfold shflBody
  exact trivial

theorem formed_redsBody {sub : Mask → Nat → Mask} {c : Ctx} : (redsBody sub c).Formed := by
  unfold redsBody
  exact trivial

theorem formed_intBody {op : IntOp} {c : Ctx} : (intBody op c).Formed := trivial

theorem formed_intFnBody {f : ℤ → ℤ} {c : Ctx} : (intFnBody f c).Formed := trivial

theorem formed_movBody {c : Ctx} : (movBody c).Formed := trivial

theorem formed_bitBody {op : BitOp} {c : Ctx} : (bitBody op c).Formed := trivial

theorem formed_bitFnBody {fn : BitFn} {c : Ctx} : (bitFnBody fn c).Formed := trivial

theorem formed_floatBody {latency : Nat} {f : Fmt → Rm → Nat → Nat → FRes} {c : Ctx} : (floatBody latency f c).Formed := trivial

theorem formed_floatFnBody {fn : Fn} {c : Ctx} : (floatFnBody fn c).Formed := trivial

theorem formed_signBody {negate : Bool} {c : Ctx} : (signBody negate c).Formed := trivial

theorem formed_convertBody {c : Ctx} : (convertBody c).Formed := trivial

theorem formed_loadGo {c : Ctx} (h : c.Formed) : (loadGo c).Formed := by
  unfold loadGo
  split
  · exact h
  · split
    · exact formed_loadOrdered h
    · split
      · exact formed_launchFlight h
      · exact formed_launchFlight h

theorem formed_loadBody {c : Ctx} (h : c.Formed) : (loadBody c).Formed := by
  unfold loadBody
  split
  · exact h
  · exact formed_loadGo h

theorem formed_bankBody {host : Bool} {body : Ctx → List LaneKeys → State → Eff} {c : Ctx}
    (hbody : ∀ d lk t, d.Formed → t.Formed → (body d lk t).Formed) (hc : c.Formed) :
    (bankBody host body c).Formed := by
  unfold bankBody
  split
  · exact hc
  · split
    · exact hc
    · exact formed_wholeFly hc (fun _ _ h => formed_bankChecked h (fun _ h1 => hbody _ _ _ hc h1))

theorem formed_prfLane {c : Ctx} {s : State} {l : Nat} (hs : s.Formed) : (c.prfLane s l).Formed := by
  unfold Ctx.prfLane
  dsimp only
  split
  · exact hs
  · split
    · exact hs
    · split
      · exact formed_translate hs
      · split
        · exact formed_l2Access (formed_translate hs)
        · split
          · exact formed_translate hs
          · exact formed_fillL1 (formed_translate hs)

theorem formed_vdefBody {c : Ctx} (h : c.Formed) : (vdefBody c).Formed := by
  unfold vdefBody
  split
  · exact h
  · split
    · exact h
    · dsimp only
      split
      · exact h
      · split
        · exact h
        · split
          · exact h
          · split
            · exact h
            · exact formed_setView h

theorem formed_withView {c : Ctx} {body : View → Eff} (hc : c.Formed) (hbody : ∀ (a : View), (body a).Formed) :
    (c.withView body).Formed := by
  unfold Ctx.withView
  split
  · exact hbody _
  · exact hc

theorem formed_vsetBody {c : Ctx} (h : c.Formed) : (vsetBody c).Formed := by
  unfold vsetBody
  refine formed_withView h ?_
  intro _
  split
  · exact h
  · split
    · exact h
    · split
      · exact h
      · split
        · exact h
        · exact formed_setView h

theorem formed_again {c : Ctx} (h : c.Formed) : c.again.Formed := by
  unfold Ctx.again
  split
  · exact h
  · exact h

theorem formed_flagFly {c : Ctx} {s : State} (hs : s.Formed) : (c.flagFly s).Formed := by
  unfold Ctx.flagFly
  exact formed_flyOn hs (fun _ _ h => formed_flagStore h)

theorem formed_releaseOver {c : Ctx} {s : State} {v : View} (hs : s.Formed) :
    (c.releaseOver s v).Formed := formed_drain (formed_writeBack hs)

theorem formed_vretBody {d : Ctx} (h : d.Formed) : (vretBody d).Formed := by
  unfold vretBody
  dsimp only
  refine formed_withView (formed_again h) ?_
  intro _
  split
  · exact formed_again h
  · split
    · exact formed_again h
    · split
      · exact formed_again h
      · exact formed_flagFly (formed_releaseOver (formed_again h))

theorem formed_readFlag {c : Ctx} {s : State} {ks : List (Nat × Xlate)} (hs : s.Formed) : (c.readFlag s ks).1.Formed := by
  unfold Ctx.readFlag
  split
  · exact formed_loadScoped hs
  · exact formed_fillLines (formed_refresh hs)

theorem formed_pollFlag {d : Ctx} {generic : Bool} {done : State → Eff} {wait : State → Nat → Eff} (hd : d.Formed)
    (hdone : ∀ t, t.Formed → (done t).Formed) (hwait : ∀ t n, t.Formed → (wait t n).Formed) :
    (d.pollFlag generic done wait).Formed := by
  unfold Ctx.pollFlag
  dsimp only
  split
  · exact formed_again hd
  · split
    · exact formed_again hd
    · split
      · exact formed_again hd
      · refine formed_whole (formed_again hd) ?_
        intro _ _ h
        split
        · exact h
        · split
          · exact trivial
          · split
            · exact hdone _ (formed_readFlag h)
            · exact hwait _ _ (formed_readFlag h)

theorem formed_acquireOver {c : Ctx} {s : State} {v : View} (hs : s.Formed) : (c.acquireOver s v).Formed := by
  unfold Ctx.acquireOver
  dsimp only
  split
  · exact formed_refresh (formed_invalidate hs)
  · exact formed_invalidate hs

theorem formed_ctxFirstSeen {c : Ctx} {s : State} {v : View} {addrs : List (Option Nat)} (hs : s.Formed) :
    (c.firstSeen s v addrs).1.Formed := by
  unfold Ctx.firstSeen
  exact formed_touchPages hs

theorem formed_startOp {c : Ctx} {s : State} {n : Nat} {o : CopyOp} (hs : s.Formed) : (c.startOp s n o).Formed := hs

theorem formed_issueCopy {c : Ctx} {src dst : ViewUse} {follow : Option FollowOn} (h : c.Formed) :
    (c.issueCopy src dst follow).Formed := by
  unfold Ctx.issueCopy
  dsimp only
  exact formed_bumpId (formed_onCrew (formed_startOp (formed_ctxFirstSeen (formed_flushMeeting (formed_flushMeeting h)))))

theorem formed_cpyBody {c : Ctx} (h : c.Formed) : (cpyBody c).Formed := by
  unfold cpyBody
  split
  · exact h
  · split
    · split
      · exact h
      · split
        · exact h
        · split
          · split
            · exact h
            · exact formed_issueCopy h
          · exact formed_issueCopy h
    · exact h

theorem formed_issueMulticast {c : Ctx} {src : ViewUse} {n k : Nat} {slot : Slot} (h : c.Formed) :
    (c.issueMulticast src n k slot).Formed := by
  unfold Ctx.issueMulticast
  dsimp only
  refine formed_put ?_
  split
  · split
    · exact formed_bumpId (formed_startOp (formed_modSlot (formed_ctxFirstSeen (formed_flushMeeting h))))
    · exact formed_bumpId (formed_startOp (formed_bumpId (formed_startOp (formed_modSlot (formed_ctxFirstSeen (formed_flushMeeting h))))))
  · exact formed_bumpId (formed_startOp (formed_modSlot (formed_ctxFirstSeen (formed_flushMeeting h))))

theorem formed_cpymBody {c : Ctx} (h : c.Formed) : (cpymBody c).Formed := by
  unfold cpymBody
  split
  · split
    · exact h
    · split
      · exact h
      · dsimp only
        split
        · exact h
        · split
          · exact h
          · split
            · exact h
            · split
              · exact h
              · exact formed_issueMulticast h
  · split
    · exact h
    · split
      · exact h
      · dsimp only
        split
        · exact h
        · split
          · exact h
          · split
            · exact h
            · split
              · exact h
              · exact formed_issueMulticast h

theorem formed_cdrainBody {c : Ctx} (h : c.Formed) : (cdrainBody c).Formed := by
  unfold cdrainBody
  split
  · exact h
  · split
    · exact h
    · split
      · exact h
      · split
        · exact h
        · exact formed_bumpId (formed_startOp (formed_flushMeeting h))

theorem formed_observe {c : Ctx} {s : State} {tags : List Nat} (hs : s.Formed) : (c.observe s tags).Formed := by
  unfold Ctx.observe
  refine formed_foldl ?_ hs
  intro _ _ h
  dsimp only
  split
  · exact h
  · exact h

theorem formed_cwaitBody {all : Bool} {c : Ctx} (h : c.Formed) : (cwaitBody all c).Formed := by
  unfold cwaitBody
  dsimp only
  split
  · exact formed_again h
  · split
    · refine formed_foldl ?_ (formed_again h)
      exact fun _ _ ht => ht
    · exact formed_observe (formed_again h)

theorem formed_ctestBody {all : Bool} {c : Ctx} (h : c.Formed) : (ctestBody all c).Formed := by
  unfold ctestBody
  dsimp only
  split
  · exact formed_observe h
  · exact h

theorem formed_killTag {c : Ctx} {s : State} {n : Nat} (hs : s.Formed) : (c.killTag s n).Formed := by
  unfold Ctx.killTag
  dsimp only
  split
  · split
    · exact hs
    · exact hs
  · exact formed_cancelOp hs
  · exact hs

theorem formed_tileBody {body : Ctx → Eff} {c : Ctx} (hbody : ∀ t, t.Formed → (body t).Formed) (hc : c.Formed) :
    (tileBody body c).Formed := by
  unfold tileBody
  split
  · exact hc
  · exact hbody _ hc

theorem formed_queueOp {c : Ctx} {kind : TileKind} {td ts : Nat} (h : c.Formed) : (c.queueOp kind td ts).Formed := by
  unfold Ctx.queueOp
  split
  · exact h
  · dsimp only
    split
    · exact formed_parkOn (formed_transPages h)
    · split
      · exact formed_transPages h
      · exact formed_fillOperands (formed_transPages h)

theorem formed_mmaBody {c : Ctx} (h : c.Formed) : (mmaBody c).Formed := by
  unfold mmaBody
  split
  · dsimp only
    split
    · exact h
    · split
      · exact h
      · exact formed_queueOp h
  · exact h

theorem formed_mpermBody {c : Ctx} (h : c.Formed) : (mpermBody c).Formed := by
  unfold mpermBody
  dsimp only
  split
  · exact h
  · exact formed_queueOp h

theorem formed_transAll {s : State} {core ctx : Nat} {as : List (Right × List Nat)} (h : s.Formed) : (s.transAll core ctx as).1.Formed := by
  induction as generalizing s with
  | nil => exact h
  | cons x as ih =>
    unfold State.transAll
    dsimp only
    split
    · exact formed_transPages h
    · split
      · exact ih (formed_transPages h)
      · exact ih (formed_transPages h)

theorem formed_issueNmv {c : Ctx} {wb wx wy : ViewUse} {fb : Option FormatBlock} {rnd : BitVec 2} (h : c.Formed) :
    (c.issueNmv wb wx wy fb rnd).Formed := by
  unfold Ctx.issueNmv
  split
  · exact h
  · dsimp only
    split
    · exact formed_parkOn (formed_transAll h)
    · exact formed_bumpId (formed_startOp (formed_fillOperands (formed_flushMeeting (formed_flushMeeting (formed_flushMeeting
        (formed_transAll h))))))

theorem formed_nmvBody {c : Ctx} (h : c.Formed) : (nmvBody c).Formed := by
  unfold nmvBody
  split
  · exact h
  · split
    · split
      · exact h
      · split
        · exact h
        · dsimp only
          split
          · exact formed_touchPages h
          · split
            · exact h
            · exact formed_issueNmv (formed_touchPages h)
    · exact h

theorem formed_clearArrival {c : Ctx} {s : State} (hs : s.Formed) : (c.clearArrival s).Formed := hs

theorem formed_pass {c : Ctx} {s : State} (hs : s.Formed) : (c.pass s).Formed := formed_acquire (formed_clearArrival hs)

theorem formed_arrive {c : Ctx} {wait : Bool} {s : State} (hs : s.Formed) : (c.arrive wait s).Formed := by
  have hr : (c.clearArrival (s.release c.core c.f.e.scope)).Formed := formed_clearArrival (formed_release hs)
  unfold Ctx.arrive
  split
  · exact hs
  · dsimp only
    split
    · exact formed_barrierStep (formed_onStrand (formed_modGrid hr))
    · split
      · exact formed_pass (formed_barrierStep (formed_onStrand (formed_modGrid hr)))
      · exact formed_barrierStep (formed_onStrand (formed_modGrid hr))

theorem formed_barBody {wait : Bool} {c : Ctx} (h : c.Formed) : (barBody wait c).Formed := by
  unfold barBody
  split
  · exact h
  · split
    · split
      · exact h
      · split
        · exact formed_pass h
        · exact formed_arrive h
    · exact formed_arrive h

theorem formed_watch {s : State} {core line : Nat} {inL1 : Bool} (h : s.Formed) : (s.watch core line inL1).Formed := h

theorem formed_pushLaunch {c : Ctx} {s : State} {r : LaunchRec} {prio : BitVec 2} (hs : s.Formed) : (c.pushLaunch s r prio).Formed := hs

theorem formed_launchPush {try1 : Bool} {c : Ctx} {s : State} {r : LaunchRec} {prio : BitVec 2} (hs : s.Formed) :
    (launchPush try1 c s r prio).Formed := by
  unfold launchPush
  split
  · split
    · exact hs
    · exact hs
  · dsimp only
    split
    · exact formed_put (formed_pushLaunch hs)
    · exact formed_pushLaunch hs

theorem formed_launchRecord {try1 : Bool} {c : Ctx} {s : State} {ks : List (Nat × Xlate)} (hs : s.Formed) :
    (launchRecord try1 c s ks).Formed := by
  unfold launchRecord
  dsimp only
  split
  · exact trivial
  · split
    · exact formed_fillLines (formed_release hs)
    · exact formed_launchPush (formed_fillLines (formed_release hs))

theorem formed_launchBody {try1 : Bool} {d : Ctx} (h : d.Formed) : (launchBody try1 d).Formed := by
  unfold launchBody
  dsimp only
  split
  · exact formed_launchPush (formed_again h)
  · split
    · exact formed_again h
    · split
      · exact formed_again h
      · exact formed_whole (formed_again h) (fun _ _ h1 => formed_launchRecord h1)

theorem formed_setPrio {c : Ctx} {x : Word} (h : c.Formed) : (c.setPrio x).Formed := by
  unfold Ctx.setPrio
  split
  · exact h
  · exact h

theorem formed_csrrBody {c : Ctx} (h : c.Formed) : (csrrBody c).Formed := by
  unfold csrrBody
  split
  · exact h
  · split
    · exact h
    · split
      · exact h
      · exact trivial

theorem formed_csrwBody {c : Ctx} (h : c.Formed) : (csrwBody c).Formed := by
  unfold csrwBody
  dsimp only
  split
  · split
    · exact h
    · exact h
  · exact formed_setPrio h
  · split
    · exact h
    · exact h
  · exact h

theorem formed_trapReturn {s : State} {r : StrandRef} {skip : Bool} (h : s.Formed) : (s.trapReturn r skip).Formed := by
  unfold State.trapReturn
  split
  · exact h
  · split
    · exact h
    · exact formed_thaw h

theorem formed_trapretBody {c : Ctx} (h : c.Formed) : (trapretBody c).Formed := by
  unfold trapretBody
  split
  · split
    · exact h
    · exact h
  · dsimp only
    split
    · split
      · exact formed_trapReturn h
      · exact h
    · exact h

theorem formed_rplqBody {c : Ctx} (h : c.Formed) : (rplqBody c).Formed := by
  unfold rplqBody
  split
  · exact h
  · dsimp only
    split
    · exact trivial
    · split
      · exact h
      · exact trivial

theorem formed_rplwBody {c : Ctx} (h : c.Formed) : (rplwBody c).Formed := by
  unfold rplwBody
  split
  · exact h
  · split
    · exact h
    · exact h

theorem formed_packedInt {n : Nat} {f : ℤ → ℤ → ℤ → ℤ} {c : Ctx} : (packedInt n f c).Formed := by
  unfold packedInt
  exact trivial

theorem formed_packedShift {op : BitOp} {c : Ctx} : (packedShift op c).Formed := trivial

theorem formed_packedFloat {f : Fmt → Rm → Nat → Nat → Nat → FRes} {c : Ctx} : (packedFloat f c).Formed := trivial

theorem formed_issueTrap {f : Form} {t : Trap} {s : State} (h : s.Formed) : FormedNext (issueTrap f t s) := by
  unfold issueTrap
  split
  · exact fun _ h => by cases h
  · rename_i _ hc
    have hcf := formed_ctxOf h hc
    split
    · exact formedNext_next (formed_takeFirst hcf)
    · exact formedNext_next (formed_trap hcf hcf)

theorem formed_outsideOp {s : State} {pa n : Nat} {f : DWord → DWord} (h : s.Formed) : (s.outsideOp pa n f).Formed := by
  unfold State.outsideOp
  dsimp only
  split
  · exact formed_outsideRead h
  · exact formed_outsideWrite (formed_outsideRead h)

theorem formed_clearYield {s : State} {core cluster : Nat} (h : s.Formed) : (s.clearYield core cluster).Formed := h

theorem formed_unyield {s : State} {r : SplitRef} (h : s.Formed) : (s.unyield r).Formed := by
  unfold State.unyield
  split
  · exact formed_clearYield h
  · exact h

theorem formed_giveTurn {act : Instr → State → Host.Outcome State Fault Refusal} {s : State} {r : SplitRef} (hs : s.Formed) :
    (State.giveTurn act s r).1.Formed := by
  unfold State.giveTurn
  refine formed_beginIssue ?_
  split
  · exact formed_unyield hs
  · exact hs

theorem formed_lookCrews {s : State} (h : s.Formed) : s.lookCrews.Formed := h

theorem formed_lookAll {s : State} {goes : SplitRef → Bool} (h : s.Formed) : (s.lookAll goes).Formed := h

theorem formed_look {act : Instr → State → Host.Outcome State Fault Refusal} {s : State} (hs : s.Formed) :
    (State.look act s).Formed := formed_lookCrews (formed_lookAll hs)

theorem formed_turn {act : Instr → State → Host.Outcome State Fault Refusal} {s : State} {t : Turn} (hs : s.Formed) :
    (State.turn act s t).1.Formed := by
  have hl : (s.look act).Formed := formed_look hs
  cases t with
  | issue r => exact formed_giveTurn hl
  | event i => exact hs
  | pass n => exact formed_tick hl

theorem formed_ownTurn {act : Instr → State → Host.Outcome State Fault Refusal} {s : State} (hs : s.Formed) :
    (State.ownTurn act s).1.Formed := by
  have hl : (s.look act).Formed := formed_look hs
  unfold State.ownTurn
  dsimp only
  split
  · exact formed_giveTurn hl
  · exact formed_tick hl

end Sys2Proof.Machine
end

