-- ==== Sys2Proof/Proofs/FormExec.lean ====
section
/-! SUPPORT. The canonical form of memory (log entry 2), through every instruction and event. -/
namespace Sys2Proof.Machine

theorem formed_execColdStart {r : StartReport} {s : State} (h : s.Formed) : FormedNext (execColdStart r s) := by
  unfold execColdStart
  refine formedNext_next ?_
  split
  · exact formed_endCold (formed_upAgain h)
  · exact formed_beginStart h

theorem formed_execWarmStart {r : StartReport} {s : State} (h : s.Formed) : FormedNext (execWarmStart r s) := by
  unfold execWarmStart
  refine formedNext_next ?_
  split
  · exact formed_endWarm (formed_upAgain h)
  · exact formed_beginStart h

theorem formed_execImageLoad {s : State} (h : s.Formed) : FormedNext (execImageLoad s) := by
  unfold execImageLoad
  refine formedNext_next ?_
  split
  · exact h
  · split
    · exact formed_answer h
    · split
      · exact formed_answer h
      · split
        · dsimp only [State.Formed]
          exact formed_answer h
        · exact formed_answer h

theorem formed_execRegisterWrite {off : Nat} {value : Word} {s : State} (h : s.Formed) : FormedNext (execRegisterWrite off value s) := by
  unfold execRegisterWrite
  refine formedNext_next ?_
  split
  · exact h
  · split
    · exact formed_ringBell h
    · split
      · exact h
      · split
        · exact h
        · split
          · exact h
          · exact h

theorem formed_execMailboxUnknown {s : State} (h : s.Formed) : FormedNext (execMailboxUnknown s) := by
  unfold execMailboxUnknown
  refine formedNext_next ?_
  split
  · split
    · exact h
    · split
      · exact formed_answer h
      · exact formed_answer h
  · split
    · exact h
    · split
      · exact formed_answer h
      · exact formed_answer h

theorem formed_execGraph {q : Nat} {s : State} (h : s.Formed) : FormedNext (execGraph q s) := by
  unfold execGraph
  refine formedNext_next ?_
  split
  · exact formed_graphOn h
  · exact formed_takePacket h

theorem formed_execSignal {q : Nat} {s : State} (h : s.Formed) : FormedNext (execSignal q s) := by
  unfold execSignal
  refine formedNext_next ?_
  split
  · exact formed_trySignal h
  · exact formed_takePacket h

theorem formed_execBarrierAndComplete {q : Nat} {s : State} (h : s.Formed) : FormedNext (execBarrierAndComplete q s) := by
  unfold execBarrierAndComplete
  refine formedNext_next ?_
  split
  · exact h
  · split
    · exact formed_frontFault h
    · exact formed_failPacket h
    · exact formed_settlePacket h
    · exact h

theorem formed_execBadpacket {qid : Nat} {s : State} (h : s.Formed) : FormedNext (execBadpacket qid s) := by
  unfold execBadpacket
  refine formedNext_next ?_
  split
  · exact h
  · split
    · exact h
    · split
      · exact formed_failPacket h
      · split
        · split
          · split
            · exact h
            · exact formed_failPacket (formed_pushPacket h)
          · exact h
        · exact h

theorem formed_execPacketStart {qid : Nat} {s : State} (h : s.Formed) : FormedNext (execPacketStart qid s) := by
  unfold execPacketStart
  refine formedNext_next ?_
  split
  · exact h
  · split
    · split
      · exact formed_startPacket h
      · exact h
    · exact h

theorem formed_execLaunchStart {grid : Nat} {s : State} (h : s.Formed) : FormedNext (execLaunchStart grid s) := by
  unfold execLaunchStart
  refine formedNext_next ?_
  split
  · exact h
  · split
    · split
      · exact h
      · split
        · exact formed_frontFault h
        · exact h
        · dsimp only
          split
          · exact formed_frontFault h
          · exact h
          · exact formed_loseSpill h
    · exact h

theorem formed_execGridCompletion {grid : Nat} {s : State} (h : s.Formed) : FormedNext (execGridCompletion grid s) := by
  unfold execGridCompletion
  refine formedNext_next ?_
  split
  · split
    · exact formed_endActions (formed_drainGrid h)
    · exact h
  · exact h

theorem formed_execPendingLaunchDrain {c : CrewRef} {s : State} (h : s.Formed) : FormedNext (execPendingLaunchDrain c s) := by
  unfold execPendingLaunchDrain
  refine formedNext_next ?_
  split
  · exact h
  · split
    · split
      · exact formed_discardEntry h
      · split
        · exact h
        · exact h
    · exact h

theorem formed_execDieQueueStart {die : Nat} {s : State} (h : s.Formed) : FormedNext (execDieQueueStart die s) := by
  unfold execDieQueueStart
  refine formedNext_next ?_
  split
  · exact h
  · split
    · exact h
    · dsimp only
      split
      · exact h
      · split
        · exact formed_addGrid h
        · exact formed_discardEntry h

theorem formed_execAbortKill {c : CrewRef} {s : State} (h : s.Formed) : FormedNext (execAbortKill c s) := by
  unfold execAbortKill
  split
  · refine formedNext_next ?_
    split
    · exact formed_killCrew h
    · exact h
  · exact formedNext_next h

theorem formed_execCrewDispatch {c : CrewRef} {s : State} (h : s.Formed) : FormedNext (execCrewDispatch c s) := by
  unfold execCrewDispatch
  split
  · refine formedNext_next ?_
    split
    · exact formed_place h
    · exact h
  · exact formedNext_next h

theorem formed_execWakeUp {c : CrewRef} {s : State} (h : s.Formed) : FormedNext (execWakeUp c s) := by
  unfold execWakeUp
  split
  · refine formedNext_next ?_
    split
    · exact formed_wake h
    · exact h
  · exact formedNext_next h

theorem formed_execStealRequest {grid thief victim : Nat} {s : State} (h : s.Formed) :
    FormedNext (execStealRequest grid thief victim s) := by
  unfold execStealRequest
  split
  · exact formedNext_next h
  · split
    · exact formedNext_next h
    · exact formedNext_next h

theorem formed_execStealAnswer {grid thief : Nat} {s : State} (h : s.Formed) : FormedNext (execStealAnswer grid thief s) := by
  unfold execStealAnswer
  split
  · exact formedNext_next h
  · exact formedNext_next h

theorem formed_execSplitBoost {r : SplitRef} {s : State} (h : s.Formed) : FormedNext (execSplitBoost r s) := by
  unfold execSplitBoost
  split
  · refine formedNext_next ?_
    split
    · exact h
    · exact h
  · exact formedNext_next h

theorem formed_execSleepExpiry {r : SplitRef} {s : State} (h : s.Formed) : FormedNext (execSleepExpiry r s) := by
  unfold execSleepExpiry
  split
  · split
    · refine formedNext_next ?_
      split
      · exact h
      · exact h
    · exact formedNext_next h
  · exact formedNext_next h

theorem formed_execWatchdog {c : CrewRef} {s : State} (h : s.Formed) : FormedNext (execWatchdog c s) := by
  unfold execWatchdog
  split
  · exact formedNext_next h
  · split
    · exact formedNext_next h
    · dsimp only
      refine formedNext_next ?_
      split
      · exact formed_wake h
      · exact h

theorem formed_execDeferredTrap {r : StrandRef} {s : State} (h : s.Formed) : FormedNext (execDeferredTrap r s) := by
  unfold execDeferredTrap
  refine formedNext_next ?_
  split
  · exact formed_trapFirst h
  · exact h

theorem formed_execLaneSelfCheck {r : ClusterRef} {f : CheckReport} {s : State} (h : s.Formed) : FormedNext (execLaneSelfCheck r f s) := by
  unfold execLaneSelfCheck
  refine formedNext_next ?_
  split
  · exact h
  · dsimp only
    split
    · exact formed_foldl (fun _ _ h1 => formed_retireBank h1) (formed_moveOut (formed_checkCore
        (formed_foldl (fun _ _ h1 => formed_retireColumn h1) (formed_foldl (fun _ _ h1 => formed_retireLane h1) h))))
    · exact formed_putReport (formed_foldl (fun _ _ h1 => formed_retireBank h1) (formed_moveOut (formed_checkCore
        (formed_foldl (fun _ _ h1 => formed_retireColumn h1) (formed_foldl (fun _ _ h1 => formed_retireLane h1) h)))))

theorem formed_execSliceRetirement {die slice : Nat} {s : State} (h : s.Formed) : FormedNext (execSliceRetirement die slice s) := by
  unfold execSliceRetirement
  refine formedNext_next ?_
  split
  · exact h
  · split
    · exact h
    · exact formed_logEvent h

theorem formed_execSliceRemap {die : Nat} {s : State} (h : s.Formed) : FormedNext (execSliceRemap die s) := by
  unfold execSliceRemap
  refine formedNext_next ?_
  split
  · exact h
  · split
    · exact h
    · exact formed_putReport (formed_clearBox (formed_foldl (fun _ _ h1 => formed_l2Fill h1) h))

theorem formed_execPseudoChannelRetirement {quad chan : Nat} {s : State} (h : s.Formed) :
    FormedNext (execPseudoChannelRetirement quad chan s) := by
  have hlog : (s.logEvent (linkDie quad) 5 quad chan).Formed := formed_logEvent h
  unfold execPseudoChannelRetirement
  refine formedNext_next ?_
  split
  · exact h
  · split
    · exact h
    · dsimp only
      split
      · exact formed_of_mem hlog rfl
      · exact formed_dropQuad (formed_of_mem hlog rfl)

theorem formed_execPcmapUpdate {quad : Nat} {s : State} (h : s.Formed) : FormedNext (execPcmapUpdate quad s) := by
  unfold execPcmapUpdate
  refine formedNext_next ?_
  split
  · exact h
  · exact formed_putReport h

theorem formed_execUncorrectableError {e : ErrorSite} {s : State} (h : s.Formed) : FormedNext (execUncorrectableError e s) := by
  unfold execUncorrectableError
  dsimp only
  refine formedNext_next ?_
  split
  · dsimp only [State.Formed]
    exact formed_logEvent (formed_poisonLine h)
  · split
    · exact formed_failPartition (formed_spoilL1 (formed_logEvent (formed_poisonLine h)))
    · split
      · exact formed_failContext (formed_spoilL1 (formed_logEvent (formed_poisonLine h)))
      · exact formed_logEvent (formed_poisonLine h)

theorem formed_execNeighbourRefresh {row : Nat} {upset : Bool} {s : State} (h : s.Formed) :
    FormedNext (execNeighbourRefresh row upset s) := by
  unfold execNeighbourRefresh
  dsimp only
  refine formedNext_next ?_
  split
  · exact h
  · dsimp only [State.Formed]
    exact formed_logEvent h

theorem formed_execAccessAged {r : StrandRef} {id : Nat} {s : State} (h : s.Formed) : FormedNext (execAccessAged r id s) := by
  unfold execAccessAged
  split
  · refine formedNext_next ?_
    split
    · exact h
    · exact h
  · exact formedNext_next h

theorem formed_execStoreArrival {core : Nat} {s : State} (h : s.Formed) : FormedNext (execStoreArrival core s) := by
  unfold execStoreArrival
  split
  · exact formedNext_next h
  · split
    · exact formedNext_next h
    · exact formedNext_next (formed_perform h)

theorem formed_execWriteBack {core line : Nat} {evict : Bool} {s : State} (h : s.Formed) :
    FormedNext (execWriteBack core line evict s) := by
  unfold execWriteBack
  refine formedNext_next ?_
  split
  · exact formed_invalidate h
  · exact formed_writeBack h

theorem formed_execCopyPark {c : CrewRef} {tag : BitVec 6} {s : State} (h : s.Formed) : FormedNext (execCopyPark c tag s) := by
  unfold execCopyPark
  dsimp only
  refine formedNext_next ?_
  split
  · exact formed_runCopy h
  · exact h

theorem formed_execCancelEnd {c : CrewRef} {tag : BitVec 6} {granules : Nat} {s : State} (h : s.Formed) :
    FormedNext (execCancelEnd c tag granules s) := by
  unfold execCancelEnd
  split
  · refine formedNext_next ?_
    split
    · exact formed_endEarly h
    · exact h
  · exact formedNext_next h

theorem formed_execCpymParked {c : CrewRef} {tag : BitVec 6} {s : State} (h : s.Formed) : FormedNext (execCpymParked c tag s) := by
  unfold execCpymParked
  split
  · exact formedNext_next (formed_runPark h)
  · exact formedNext_next h

theorem formed_execDrainComplete {c : CrewRef} {tag : BitVec 6} {s : State} (h : s.Formed) : FormedNext (execDrainComplete c tag s) := by
  unfold execDrainComplete
  split
  · exact formedNext_next (formed_runDrain h)
  · exact formedNext_next h

theorem formed_execTileOpEnd {core id : Nat} {s : State} (h : s.Formed) : FormedNext (execTileOpEnd core id s) := by
  unfold execTileOpEnd
  split
  · exact formedNext_next (formed_endTile h)
  · exact formedNext_next h

theorem formed_execNmvComplete {c : CrewRef} {tag : BitVec 6} {s : State} (h : s.Formed) : FormedNext (execNmvComplete c tag s) := by
  unfold execNmvComplete
  split
  · exact formedNext_next (formed_moveNmv h)
  · exact formedNext_next h

theorem formed_execHandoffDelivery {grid item : Nat} {slot : BitVec 3} {gen : Nat} {s : State} (h : s.Formed) :
    FormedNext (execHandoffDelivery grid item slot gen s) := by
  unfold execHandoffDelivery
  split
  · refine formedNext_next ?_
    split
    · exact formed_deliver h
    · exact h
  · exact formedNext_next h

theorem formed_execBackPressurePublish {r : SplitRef} {s : State} (h : s.Formed) : FormedNext (execBackPressurePublish r s) := by
  unfold execBackPressurePublish
  split
  · split
    · dsimp only
      split
      · exact formed_issue (fun _ hd => formed_hputBody hd) (formed_beginIssue h)
      · exact formedNext_next (formed_beginIssue h)
    · exact formedNext_next h
  · exact formedNext_next h

theorem formed_execPhaseCounterAdvance {grid vdie : Nat} {s : State} (h : s.Formed) : FormedNext (execPhaseCounterAdvance grid vdie s) := by
  unfold execPhaseCounterAdvance
  split
  · refine formedNext_next ?_
    split
    · exact h
    · exact h
  · exact formedNext_next h

theorem formed_execWaitmRecheck {r : SplitRef} {s : State} (h : s.Formed) : FormedNext (execWaitmRecheck r s) := by
  unfold execWaitmRecheck
  split
  · refine formedNext_next ?_
    split
    · exact h
    · exact h
  · exact formedNext_next h

theorem formed_execBlackboxCopy {s : State} (h : s.Formed) : FormedNext (execBlackboxCopy s) := by
  unfold execBlackboxCopy
  refine formedNext_next ?_
  split
  · exact formed_putReport h
  · exact h

theorem formed_execThrottleChange {up : Bool} {s : State} (h : s.Formed) : FormedNext (execThrottleChange up s) := by
  unfold execThrottleChange
  dsimp only
  refine formedNext_next ?_
  split
  · split
    · split
      · exact h
      · exact formed_logAll h
    · split
      · exact h
      · exact formed_logAll h
  · split
    · split
      · exact h
      · exact formed_logAll h
    · split
      · exact h
      · exact formed_logAll h

theorem formed_execHostWrite {pa : Nat} {bytes : List Byte} {s : State} (h : s.Formed) : FormedNext (execHostWrite pa bytes s) := by
  unfold execHostWrite
  refine formedNext_next ?_
  split
  · exact h
  · exact formed_outsideWrite h

theorem formed_execHostRead {pa n : Nat} {s : State} (h : s.Formed) : FormedNext (execHostRead pa n s) := by
  unfold execHostRead
  refine formedNext_next ?_
  split
  · exact h
  · exact formed_outsideRead h

theorem formed_execPeerWrite {pa : Nat} {bytes : List Byte} {s : State} (h : s.Formed) : FormedNext (execPeerWrite pa bytes s) := by
  unfold execPeerWrite
  refine formedNext_next ?_
  split
  · exact h
  · exact formed_outsideWrite h

theorem formed_execBrx {e : Ext} {s : State} (h : s.Formed) : FormedNext (execBrx e s) := by
  unfold execBrx
  refine formed_issue ?_ h
  intro _ h1
  split
  · exact h1
  · exact formed_branchBody h1

theorem formed_execRet {g : Guard} {s : State} (h : s.Formed) : FormedNext (execRet g s) := by
  unfold execRet
  refine formed_issue ?_ h
  intro _ h1
  split
  · exact h1
  · split
    · exact h1
    · split
      · exact h1
      · exact formed_whole h1 (fun _ _ h2 => formed_retLoad h2)

theorem formed_execLoop {e : Ext} {s : State} (h : s.Formed) : FormedNext (execLoop e s) := by
  unfold execLoop
  refine formed_issue ?_ h
  intro _ h1
  dsimp only
  split
  · exact h1
  · exact h1

theorem formed_execMatchAll {e : Ext} {s : State} (h : s.Formed) : FormedNext (execMatchAll e s) := by
  unfold execMatchAll
  refine formed_issue ?_ h
  intro _ _
  exact trivial

theorem formed_execIaddc {e : Ext} {s : State} (h : s.Formed) : FormedNext (execIaddc e s) := by
  unfold execIaddc
  refine formed_issue ?_ h
  intro _ _
  exact trivial

theorem formed_execHseal {e : Ext} {s : State} (h : s.Formed) : FormedNext (execHseal e s) := by
  unfold execHseal
  refine formed_issue ?_ h
  intro _ h1
  split
  · exact h1
  · exact formed_tidyChain h1

theorem formed_execHgen {e : Ext} {s : State} (h : s.Formed) : FormedNext (execHgen e s) := by
  unfold execHgen
  refine formed_issue ?_ h
  intro _ h1
  split
  · exact h1
  · exact trivial

theorem formed_execHstat {e : Ext} {s : State} (h : s.Formed) : FormedNext (execHstat e s) := by
  unfold execHstat
  refine formed_issue ?_ h
  intro _ h1
  dsimp only
  split
  · exact h1
  · exact trivial

theorem formed_execLdAcq {e : Ext} {s : State} (h : s.Formed) : FormedNext (execLdAcq e s) := by
  unfold execLdAcq
  refine formed_issue ?_ h
  intro _ h1
  split
  · exact h1
  · split
    · exact h1
    · exact formed_wholeFly h1 (fun _ _ h2 => formed_acquireGo h2)

theorem formed_execStRel {e : Ext} {s : State} (h : s.Formed) : FormedNext (execStRel e s) := by
  unfold execStRel
  refine formed_issue ?_ h
  intro _ h1
  split
  · exact h1
  · split
    · exact h1
    · exact formed_wholeFly h1 (fun _ _ h2 => formed_storeRelease h2)

theorem formed_execPrf {e : Ext} {s : State} (h : s.Formed) : FormedNext (execPrf e s) := by
  unfold execPrf
  refine formed_issue ?_ h
  intro _ h1
  split
  · exact h1
  · exact formed_foldl (fun _ _ h2 => formed_prfLane h2) h1

theorem formed_execPfence {e : Ext} {s : State} (h : s.Formed) : FormedNext (execPfence e s) := by
  unfold execPfence
  refine formed_issue ?_ h
  intro _ hd
  split
  · exact formed_pathFence hd
  · split
    · exact hd
    · dsimp only [Eff.Formed, State.Formed]
      exact formed_pathFence (formed_acquire (formed_release hd))

theorem formed_execVdrop {e : Ext} {s : State} (h : s.Formed) : FormedNext (execVdrop e s) := by
  unfold execVdrop
  refine formed_issue ?_ h
  intro _ h1
  refine formed_withView h1 ?_
  intro _
  split
  · exact h1
  · exact formed_setView h1

theorem formed_execVmeet {e : Ext} {s : State} (h : s.Formed) : FormedNext (execVmeet e s) := by
  unfold execVmeet
  refine formed_issue ?_ h
  intro _ h1
  dsimp only
  split
  · exact trivial
  · exact h1

theorem formed_execVqry {e : Ext} {s : State} (h : s.Formed) : FormedNext (execVqry e s) := by
  unfold execVqry
  refine formed_issue ?_ h
  intro _ h1
  refine formed_withView h1 ?_
  intro _
  split
  · exact trivial
  · exact h1

theorem formed_execVaddr {e : Ext} {s : State} (h : s.Formed) : FormedNext (execVaddr e s) := by
  unfold execVaddr
  refine formed_issue ?_ h
  intro _ h1
  refine formed_withView h1 ?_
  intro _
  split
  · exact h1
  · exact trivial

theorem formed_execLdv {e : Ext} {s : State} (h : s.Formed) : FormedNext (execLdv e s) := by
  unfold execLdv
  refine formed_issue ?_ h
  intro _ h1
  refine formed_withView h1 ?_
  intro _
  split
  · exact h1
  · exact formed_loadGo h1

theorem formed_execStv {e : Ext} {s : State} (h : s.Formed) : FormedNext (execStv e s) := by
  unfold execStv
  refine formed_issue ?_ h
  intro _ h1
  refine formed_withView h1 ?_
  intro _
  split
  · exact h1
  · exact formed_storeGo h1

theorem formed_execCfind {e : Ext} {s : State} (h : s.Formed) : FormedNext (execCfind e s) := by
  unfold execCfind
  refine formed_issue ?_ h
  intro _ h1
  split
  · exact h1
  · exact formed_observe h1

theorem formed_execMlda {e : Ext} {s : State} (h : s.Formed) : FormedNext (execMlda e s) := by
  unfold execMlda
  refine formed_issue ?_ h
  intro _ h1
  refine formed_tileBody ?_ h1
  intro _ h2
  split
  · exact h2
  · split
    · exact h2
    · exact formed_queueOp h2

theorem formed_execMsta {e : Ext} {s : State} (h : s.Formed) : FormedNext (execMsta e s) := by
  unfold execMsta
  refine formed_issue ?_ h
  intro _ h1
  refine formed_tileBody ?_ h1
  intro _ h2
  split
  · exact h2
  · split
    · exact h2
    · exact formed_queueOp h2

theorem formed_execWaitm {e : Ext} {s : State} (h : s.Formed) : FormedNext (execWaitm e s) := by
  unfold execWaitm
  refine formed_issue ?_ h
  intro _ h1
  refine formed_pollFlag h1 (fun _ h2 => formed_acquire h2) ?_
  intro _ _ h2
  exact formed_watch h2

theorem formed_execPhase {e : Ext} {s : State} (h : s.Formed) : FormedNext (execPhase e s) := by
  unfold execPhase
  refine formed_issue ?_ h
  intro _ hd
  split
  · exact hd
  · exact formed_onCrew (formed_put (formed_writeBack hd))

theorem formed_execPhwait {e : Ext} {s : State} (h : s.Formed) : FormedNext (execPhwait e s) := by
  unfold execPhwait
  refine formed_issue ?_ h
  intro _ h1
  dsimp only
  split
  · exact formed_again h1
  · split
    · exact formed_acquire (formed_again h1)
    · exact formed_again h1

theorem formed_execLstat {e : Ext} {s : State} (h : s.Formed) : FormedNext (execLstat e s) := by
  unfold execLstat
  refine formed_issue ?_ h
  intro _ _
  exact trivial

theorem formed_execYield {g : Guard} {s : State} (h : s.Formed) : FormedNext (execYield g s) := by
  refine formed_issue ?_ h
  exact fun _ hd => formed_onStrand (formed_leave hd)

theorem formed_execSleep {e : Ext} {s : State} (h : s.Formed) : FormedNext (execSleep e s) := by
  unfold execSleep
  refine formed_issue ?_ h
  intro _ h1
  split
  · exact h1
  · exact h1

theorem formed_execHops {e : Ext} {s : State} (h : s.Formed) : FormedNext (execHops e s) := by
  unfold execHops
  refine formed_issue ?_ h
  intro _ h1
  dsimp only
  split
  · exact h1
  · exact trivial

theorem formed_execWdog {e : Ext} {s : State} (h : s.Formed) : FormedNext (execWdog e s) := by
  unfold execWdog
  refine formed_issue ?_ h
  intro _ h1
  dsimp only
  split
  · exact h1
  · exact h1

theorem formed_execTlbi {e : Ext} {s : State} (h : s.Formed) : FormedNext (execTlbi e s) := by
  unfold execTlbi
  refine formed_issue ?_ h
  intro _ h1
  exact h1

theorem formed_execIcinv {e : Ext} {s : State} (h : s.Formed) : FormedNext (execIcinv e s) := by
  unfold execIcinv
  refine formed_issue ?_ h
  intro _ h1
  dsimp only
  split
  · exact h1
  · exact formed_drain (formed_writeBack h1)

theorem formed_execVxr {e : Ext} {s : State} (h : s.Formed) : FormedNext (execVxr e s) := by
  unfold execVxr
  refine formed_issue ?_ h
  intro _ h1
  split
  · exact h1
  · exact trivial

theorem formed_execVxw {e : Ext} {s : State} (h : s.Formed) : FormedNext (execVxw e s) := by
  unfold execVxw
  refine formed_issue ?_ h
  intro _ h1
  split
  · exact h1
  · exact trivial

theorem formed_execCorrectedError {core bank : Nat} {s : State} (h : s.Formed) : FormedNext (execCorrectedError core bank s) := by
  unfold execCorrectedError
  refine formedNext_next ?_
  split
  · exact h
  · split
    · exact h
    · dsimp only
      split
      · exact formed_retireBank (formed_logEvent h)
      · exact formed_logEvent h

theorem formed_execHostAtomicCas {pa : Nat} {wide : Bool} {expect new : DWord} {s : State} (h : s.Formed) :
    FormedNext (execHostAtomicCas pa wide expect new s) := by
  unfold execHostAtomicCas
  dsimp only
  refine formedNext_next ?_
  split
  · split
    · exact h
    · exact formed_outsideOp h
  · split
    · exact h
    · exact formed_outsideOp h

theorem formed_execPeerRead {pa n : Nat} {s : State} (h : s.Formed) : FormedNext (execPeerRead pa n s) := by
  unfold execPeerRead
  refine formedNext_next ?_
  split
  · exact h
  · exact formed_outsideRead h

theorem formed_execPeerBankOperation {op : PeerOp} {pa : Nat} {b c : DWord} {s : State} (h : s.Formed) :
    FormedNext (execPeerBankOperation op pa b c s) := by
  unfold execPeerBankOperation
  dsimp only
  refine formedNext_next ?_
  split
  · split
    · exact h
    · exact formed_outsideOp h
  · split
    · split
      · exact h
      · exact formed_outsideOp h
    · split
      · exact h
      · exact formed_outsideOp h
    · split
      · exact h
      · exact formed_outsideOp h
    · split
      · exact h
      · exact formed_outsideOp h
    · split
      · exact h
      · exact formed_outsideOp h
    · split
      · exact h
      · exact formed_outsideOp h

/-- Every instruction and every event keeps the form. -/
theorem formed_exec {i : Instr} {s : State} (h : s.Formed) : FormedNext (exec i s) := by
  cases i with
   | coldStart => exact formed_execColdStart h
   | warmStart => exact formed_execWarmStart h
   | imageLoad => exact formed_execImageLoad h
   | doorbell => exact formedNext_next (formed_ringBell h)
   | registerWrite => exact formed_execRegisterWrite h
   | partSet => exact formedNext_next (formed_command h (formed_partSet h))
   | ctxSet => exact formedNext_next (formed_command h (formed_ctxSet h))
   | queueCreate => exact formedNext_next (formed_command h (formed_queueCreate h))
   | queueDestroy => exact formedNext_next (formed_command h (formed_queueDestroy h))
   | nearSet => exact formedNext_next (formed_command h (formed_nearSet h))
   | faultResp => exact formedNext_next (formed_command h (formed_faultResp h))
   | tlbInval => exact formedNext_next (formed_command h (formed_tlbInval h))
   | ctxSuspend => exact formedNext_next (formed_command h (formed_ctxSuspend h))
   | mailboxUnknown => exact formed_execMailboxUnknown h
   | grid | barrierAnd => exact formedNext_next (formed_takePacket h)
   | graph => exact formed_execGraph h
   | signal => exact formed_execSignal h
   | barrierAndComplete => exact formed_execBarrierAndComplete h
   | badpacket => exact formed_execBadpacket h
   | packetStart => exact formed_execPacketStart h
   | launchStart => exact formed_execLaunchStart h
   | gridCompletion => exact formed_execGridCompletion h
   | pendingLaunchDrain => exact formed_execPendingLaunchDrain h
   | dieQueueStart => exact formed_execDieQueueStart h
   | abortKill => exact formed_execAbortKill h
   | crewDispatch => exact formed_execCrewDispatch h
   | wakeUp => exact formed_execWakeUp h
   | crewSwapIn | restore => exact formedNext_next (formed_comeBack h)
   | stealRequest => exact formed_execStealRequest h
   | stealAnswer => exact formed_execStealAnswer h
   | splitBoost => exact formed_execSplitBoost h
   | priorityAgeing | debuggerHalt | stoendPortLoss => exact formedNext_next h
   | sleepExpiry => exact formed_execSleepExpiry h
   | watchdog => exact formed_execWatchdog h
   | deferredTrap => exact formed_execDeferredTrap h
   | laneSelfCheck => exact formed_execLaneSelfCheck h
   | bankCopyDone => exact formedNext_next (formed_moveOut h)
   | sliceRetirement => exact formed_execSliceRetirement h
   | sliceRemap => exact formed_execSliceRemap h
   | pseudoChannelRetirement => exact formed_execPseudoChannelRetirement h
   | pcmapUpdate => exact formed_execPcmapUpdate h
   | uncorrectableError => exact formed_execUncorrectableError h
   | neighbourRefresh => exact formed_execNeighbourRefresh h
   | accessAged => exact formed_execAccessAged h
   | pageWalk => exact formedNext_next (formed_walkFlight h)
   | faultRingPoll => exact formedNext_next (formed_pollFaults h)
   | loadDataReturn => exact formedNext_next (formed_loadReturn h)
   | storeArrival => exact formed_execStoreArrival h
   | writeBack => exact formed_execWriteBack h
   | copyComplete => exact formedNext_next (formed_runCopy h)
   | copyPark => exact formed_execCopyPark h
   | cancelEnd => exact formed_execCancelEnd h
   | followOnIssue => exact formedNext_next (formed_followIssue h)
   | cpymParked => exact formed_execCpymParked h
   | drainComplete => exact formed_execDrainComplete h
   | tileOpEnd => exact formed_execTileOpEnd h
   | nmvComplete => exact formed_execNmvComplete h
   | handoffDelivery => exact formed_execHandoffDelivery h
   | heldPathReady => exact formedNext_next (formed_swapHeld (formed_settleStack h))
   | backPressurePublish => exact formed_execBackPressurePublish h
   | phaseCounterAdvance => exact formed_execPhaseCounterAdvance h
   | waitmRecheck => exact formed_execWaitmRecheck h
   | blackboxCopy => exact formed_execBlackboxCopy h
   | throttleChange => exact formed_execThrottleChange h
   | hostWrite => exact formed_execHostWrite h
   | hostRead => exact formed_execHostRead h
   | peerWrite => exact formed_execPeerWrite h
   | nop | trap | bkpt => exact formed_issue (fun _ h1 => h1) h
   | bra | braLit => exact formed_issue (fun _ h1 => formed_branchBody h1) h
   | brx => exact formed_execBrx h
   | call | callLit | callx => exact formed_issue (fun _ h1 => formed_callBody h1) h
   | ret => exact formed_execRet h
   | exit => exact formed_issue (fun _ h1 => formed_afterEnd (formed_endLanes h1)) h
   | loop => exact formed_execLoop h
   | pand | por | pxor | pnot | pmov => exact formed_issue (fun _ _ => formed_predBody) h
   | voteAll | voteAny | voteBallot => exact formed_issue (fun _ _ => formed_voteBody) h
   | shflIdx | shflUp | shflDown | shflXor => exact formed_issue (fun _ _ => formed_shflBody) h
   | matchAny | imad | iset | sel | bfx | bfi | prmt | ffma | fset | fclass | frnd | fscale | fdot2 | lea =>
    exact formed_issue (fun _ _ => trivial) h
   | matchAll => exact formed_execMatchAll h
   | reds | scan => exact formed_issue (fun _ _ => formed_redsBody) h
   | iadd | iaddExt | isub | isubExt | imul | imulExt | imulh | imulhExt | idiv | idivExt | irem | iremExt | imin | iminExt | imax
  | imaxExt => exact formed_issue (fun _ _ => formed_intBody) h
   | ineg | inegExt | iabs | iabsExt => exact formed_issue (fun _ _ => formed_intFnBody) h
   | iaddc => exact formed_execIaddc h
   | mov | movExt | movi | moviLit => exact formed_issue (fun _ _ => formed_movBody) h
   | andW | andExt | andn | andnExt | orW | orExt | xorW | xorExt | shl | shlExt | shr | shrExt | sar | sarExt | rol | rolExt =>
    exact formed_issue (fun _ _ => formed_bitBody) h
   | notW | notExt | clz | clzExt | ctz | ctzExt | popc | popcExt | brev | brevExt => exact formed_issue (fun _ _ => formed_bitFnBody) h
   | fadd | faddExt | fsub | fsubExt | fmul | fmulExt | fdiv | fdivExt | fmin | fminExt | fmax | fmaxExt =>
    exact formed_issue (fun _ _ => formed_floatBody) h
   | fsqrt | fsqrtExt | frcp | frcpExt | frsq | frsqExt | fexp2 | fexp2Ext | flog2 | flog2Ext | fsin | fsinExt | fcos | fcosExt =>
    exact formed_issue (fun _ _ => formed_floatFnBody) h
   | fabs | fabsExt | fneg | fnegExt => exact formed_issue (fun _ _ => formed_signBody) h
   | fcvt | cvt => exact formed_issue (fun _ _ => formed_convertBody) h
   | hput => exact formed_issue (fun _ h1 => formed_hputBody h1) h
   | hseal => exact formed_execHseal h
   | hgen => exact formed_execHgen h
   | hstat => exact formed_execHstat h
   | ldG | ldGExt | ldL | ldLExt | ldP | ldPExt | ldK | ldKExt => exact formed_issue (fun _ h1 => formed_loadBody h1) h
   | ldAcq => exact formed_execLdAcq h
   | stG | stGExt | stL | stLExt | stP | stPExt => exact formed_issue (fun _ h1 => formed_storeBody h1) h
   | stRel => exact formed_execStRel h
   | atom | atomRet | cas => exact formed_issue (fun _ h1 => formed_bankBody (fun _ _ _ _ h3 => formed_atomLanes h3) h1) h
   | red => exact formed_issue (fun _ h1 => formed_bankBody (fun _ _ _ _ h3 => formed_redLanes h3) h1) h
   | prf => exact formed_execPrf h
   | pfence => exact formed_execPfence h
   | vdef => exact formed_issue (fun _ h1 => formed_vdefBody h1) h
   | vset => exact formed_issue (fun _ h1 => formed_vsetBody h1) h
   | vdrop => exact formed_execVdrop h
   | vret => exact formed_issue (fun _ h1 => formed_vretBody h1) h
   | vacq =>
    exact formed_issue (fun _ h1 => formed_withView h1 (fun _ => formed_pollFlag h1 (fun _ h2 => formed_acquireOver h2) (fun _ _ h2 => h2))) h
   | vmeet => exact formed_execVmeet h
   | vqry => exact formed_execVqry h
   | vaddr => exact formed_execVaddr h
   | ldv => exact formed_execLdv h
   | stv => exact formed_execStv h
   | cpy => exact formed_issue (fun _ h1 => formed_cpyBody h1) h
   | cpym => exact formed_issue (fun _ h1 => formed_cpymBody h1) h
   | cdrain => exact formed_issue (fun _ h1 => formed_cdrainBody h1) h
   | cwaitAll | cwaitAny => exact formed_issue (fun _ h1 => formed_cwaitBody h1) h
   | cfind => exact formed_execCfind h
   | ctestAll | ctestAny => exact formed_issue (fun _ h1 => formed_ctestBody h1) h
   | ckill => exact formed_issue (fun _ h1 => formed_foldl (fun _ _ h2 => formed_killTag h2) h1) h
   | mma => exact formed_issue (fun _ h1 => formed_tileBody (fun _ h2 => formed_mmaBody h2) h1) h
   | mzero | mtrn | mred => exact formed_issue (fun _ h1 => formed_tileBody (fun _ h2 => formed_queueOp h2) h1) h
   | mlda => exact formed_execMlda h
   | msta => exact formed_execMsta h
   | mperm => exact formed_issue (fun _ h1 => formed_tileBody (fun _ h2 => formed_mpermBody h2) h1) h
   | nmv => exact formed_issue (fun _ h1 => formed_nmvBody h1) h
   | bar | barc => exact formed_issue (fun _ h1 => formed_barBody h1) h
   | waitm => exact formed_execWaitm h
   | phase => exact formed_execPhase h
   | phwait => exact formed_execPhwait h
   | launch | launchTry => exact formed_issue (fun _ h1 => formed_launchBody h1) h
   | lstat => exact formed_execLstat h
   | yield => exact formed_execYield h
   | sleep => exact formed_execSleep h
   | prio => exact formed_issue (fun _ h1 => formed_setPrio h1) h
   | hops => exact formed_execHops h
   | csrr => exact formed_issue (fun _ h1 => formed_csrrBody h1) h
   | csrw => exact formed_issue (fun _ h1 => formed_csrwBody h1) h
   | trapret => exact formed_issue (fun _ h1 => formed_trapretBody h1) h
   | rplq => exact formed_issue (fun _ h1 => formed_rplqBody h1) h
   | rplw => exact formed_issue (fun _ h1 => formed_rplwBody h1) h
   | wdog => exact formed_execWdog h
   | tlbi => exact formed_execTlbi h
   | icinv => exact formed_execIcinv h
   | iaddX2 | isubX2 | imulX2 | imadX2 | iminX2 | imaxX2 | iabsX2 | inegX2 | iaddX4 | isubX4 | iminX4 | imaxX4 | iabsX4 =>
    exact formed_issue (fun _ _ => formed_packedInt) h
   | shlX2 | shrX2 | sarX2 => exact formed_issue (fun _ _ => formed_packedShift) h
   | faddX2 | fsubX2 | fmulX2 | ffmaX2 | fminX2 | fmaxX2 | fabsX2 | fnegX2 | frndX2 => exact formed_issue (fun _ _ => formed_packedFloat) h
   | vxr => exact formed_execVxr h
   | vxw => exact formed_execVxw h
   | udf | udfExt | reservedCell => exact formed_issueTrap h
   | correctedError => exact formed_execCorrectedError h
   | hostAtomicCas => exact formed_execHostAtomicCas h
   | peerRead => exact formed_execPeerRead h
   | peerBankOperation => exact formed_execPeerBankOperation h

/-- A step keeps the form: it is a turn that acts, or a happening. -/
theorem formed_step {s : State} (h : s.Formed) : FormedNext (step s) := by
  cases ha : s.agenda with
  | cons t rest =>
    rw [step_agenda ha]
    exact formed_actBy (fun _ _ hs => formed_exec hs) (formed_turn h)
  | nil =>
    cases hh : s.happening with
    | none =>
      rw [step_own ha hh]
      exact formed_actBy (fun _ _ hs => formed_exec hs) (formed_ownTurn h)
    | some a =>
      obtain ⟨i, hi⟩ := a.exists_names
      rw [step_happening ha hh, a.run_eq_exec hi s]
      exact formed_exec h

/-- Settles O48: every operation on the state writes memory byte by byte, or leaves it. -/
theorem memoryFormKept : Obligations.MemoryFormKept := by
  unfold Obligations.MemoryFormKept
  exact fun _ t h ht => formed_step h t ht

end Sys2Proof.Machine
end
